-- ==== Sys2Proof/Word.lean ====
section
/-! DEFINITION. The word types and the plain records of the instruction formats (R2, R152 to R160): what an instruction word
is cut into, and nothing of what it means. -/

namespace Sys2Proof

/-- One byte of storage. -/
abbrev Byte := BitVec 8
/-- A v-register, and one element of an accumulator row. -/
abbrev Word32 := BitVec 32
/-- An s-, b- or g-register, a special register, an address while it is computed. -/
abbrev Word64 := BitVec 64
/-- An 8-bit register field (R160). What it names depends on the decoder and the slot. -/
abbrev Reg := BitVec 8

/-- The common fields of every instruction word (R153): guard negate, guard index, latency code. -/
structure Hd where
  neg : Bool
  gd  : BitVec 4
  lat : BitVec 4
  deriving DecidableEq, Repr

/-- Format R (R154): function code, destination, three sources, modifier byte. -/
structure RF where
  fn  : BitVec 8
  d   : Reg
  a   : Reg
  b   : Reg
  c   : Reg
  mod : BitVec 8
  deriving DecidableEq, Repr

/-- Format I (R156). -/
structure IF where
  fn  : BitVec 4
  d   : Reg
  a   : Reg
  imm : BitVec 28
  deriving DecidableEq, Repr

/-- Format M (R157). -/
structure MF where
  width : BitVec 3
  sgn   : Bool
  nud   : BitVec 4
  d     : Reg
  base  : Reg
  index : Reg
  queue : BitVec 2
  off   : BitVec 14
  deriving DecidableEq, Repr

/-- Format E (R158). -/
structure EF where
  fn    : BitVec 4
  qual  : BitVec 4
  stg   : BitVec 8
  fkind : BitVec 2
  flag  : BitVec 6
  ta    : BitVec 8
  tb    : BitVec 8
  pat   : BitVec 8
  deriving DecidableEq, Repr

/-- Format B (R159), without its reserved bits 35:0, which are zero in every instruction. -/
structure BF where
  fn   : BitVec 4
  tgt  : BitVec 3
  jn   : BitVec 3
  hint : BitVec 2
  deriving DecidableEq, Repr

/-- An instruction word cut along its format: what the encoder packs and the decoder unpacks. -/
inductive Fields where
  | r (x : RF)
  | i (x : IF)
  | m (x : MF)
  | e (x : EF)
  | b (x : BF)
  deriving DecidableEq, Repr

/-- The five formats an opcode-map row may have (R177). -/
inductive Format where
  | r | i | m | e | b
  deriving DecidableEq, Repr

/-- Where an instruction word stands: under the SIMT decoder, or in one of the slots of a bundle (R164, R165). -/
inductive Place where
  | simt
  | lane (k : Nat)
  | mem (m : Nat)
  | eng
  | br
  | shuf
  deriving DecidableEq, Repr

/-- The slot number of R164. The SIMT decoder has none; 0 stands for it (R336). -/
def Place.slotNo : Place → Nat
  | .simt => 0
  | .lane k => k
  | .mem m => 16 + m
  | .eng => 18
  | .br => 19
  | .shuf => 20

/-- The five access paths (R116). -/
inductive Path where
  | vec | mtx | cpy | net | host
  deriving DecidableEq, Repr

/-- A party that reaches the device registers: a physical function, a virtual function, firmware, or a gang through rbd
(R338, R391, R393). -/
inductive Who where
  | pf (port : Nat)
  | vf (port index : Nat)
  | fw
  | gang (ctx : Nat)
  deriving DecidableEq, Repr

/-- An access that another device makes at this one through the fabric (R406): the target context and key it presents, its
offset, and what it does. An atomic names its function code, its width, its operand and its swap value (R237 to R239). -/
inductive FabricKind where
  | load (len : Nat)
  | store (data : List (BitVec 8))
  | atomic (fn : BitVec 8) (wide : Bool) (b c : BitVec 64)
  deriving DecidableEq, Repr

structure FabricAccess where
  tctx : Nat
  key  : BitVec 16
  off  : BitVec 40
  kind : FabricKind
  deriving DecidableEq, Repr

/-- Where an uncorrectable error is found (R388), or a store that its home slice cannot apply (R129). -/
inductive ErrSite where
  | vreg (uid key : Nat)
  | shadowReg (uid key : Nat)
  | scratchpad (pa : Nat)
  | accTile (core tile : Nat)
  | l1Line (core set way : Nat)
  | l2Sector (slice set way sector : Nat)
  | l2Tag (slice set way : Nat)
  | dram (pa : Nat)
  | savedReg (uid key : Nat)
  | savedShare (uid : Nat)
  | savedState (uid : Nat)
  | storeLost (id : Nat)
  deriving DecidableEq, Repr

/-- A request that arrives at a host port (R391, R393, R394): a write or read of a register word through a function's BAR0 (function 0 is
the physical function, 1 to 32 its virtual functions), a write or read of bytes through the physical function's BAR2, a configuration request that
sets the size of BAR2 to 2^k bytes, or a write of the mask bit of a function's MSI-X vector. -/
inductive HostReq where
  | barSize (k : Nat)
  | msix (fn vec : Nat) (mask : Bool)
  | bar0Read (fn : Nat) (off : Nat)
  | bar0 (fn : Nat) (off : Nat) (v : BitVec 64)
  | bar2 (off : Nat) (data : List (BitVec 8))
  | bar2Read (off : Nat) (n : Nat)
  deriving DecidableEq, Repr

/-- A 4-bit guard of value 15 that is not negated always holds (R153, R165). -/
def Hd.always (h : Hd) : Bool := h.gd == 15#4 && !h.neg

end Sys2Proof
end

