-- ==== Sys2Proof/Machine/Num.lean ====
section
/-! DEFINITION. Exact numbers, the floating-point formats and the one rounding helper (R133 to R141), and the block formats
(R143 to R145). A result is a pair: its bits, and the fx bits it sets (R140). -/

namespace Sys2Proof.Machine

/-- The six scalar floating-point formats (R133). -/
inductive Fmt where
  | f64 | f32 | f16 | b16 | f8n | f8w
  deriving DecidableEq, Repr

/-- p(fmt) of R137. -/
def Fmt.prec : Fmt → Nat
  | .f64 => 53 | .f32 => 24 | .f16 => 11 | .b16 => 8 | .f8n => 4 | .f8w => 3
/-- Width of the exponent field. -/
def Fmt.ebits : Fmt → Nat
  | .f64 => 11 | .f32 => 8 | .f16 => 5 | .b16 => 8 | .f8n => 4 | .f8w => 5
def Fmt.bias : Fmt → Nat
  | .f64 => 1023 | .f32 => 127 | .f16 => 15 | .b16 => 127 | .f8n => 8 | .f8w => 16
/-- f8n and f8w have no infinity, no negative zero and one NaN (R134). -/
def Fmt.small : Fmt → Bool
  | .f8n => true | .f8w => true | _ => false
def Fmt.width (f : Fmt) : Nat := f.prec + f.ebits
/-- emin(fmt) of R137. -/
def Fmt.emin (f : Fmt) : Int := 1 - (f.bias : Int)
/-- The largest exponent field of a finite number. -/
def Fmt.topField (f : Fmt) : Nat := if f.small then 2 ^ f.ebits - 1 else 2 ^ f.ebits - 2

/-- The format of a 4-bit code (R132). -/
def Fmt.ofCode : Nat → Option Fmt
  | 1 => some .f32 | 2 => some .f16 | 3 => some .b16 | 4 => some .f8n | 5 => some .f8w | 15 => some .f64 | _ => none

/-- An exact value: NaN, a signed infinity, or (-1)^neg * m * 2^e, where m = 0 is a signed zero. -/
inductive Num where
  | nan
  | inf (neg : Bool)
  | fin (neg : Bool) (m : Nat) (e : Int)
  deriving DecidableEq, Repr

/-- The four rounding modes (R136). -/
inductive Rm where
  | rne | rtz | rup | rdn
  deriving DecidableEq, Repr

def Rm.ofCode : Nat → Rm
  | 0 => .rne | 1 => .rtz | 2 => .rup | _ => .rdn

/-- The fx bits (R140). -/
abbrev Fx := BitVec 6
def fxNv : Fx := 1
def fxDz : Fx := 2
def fxOf : Fx := 4
def fxUf : Fx := 8
def fxNx : Fx := 16
def fxSat : Fx := 32

/-- The canonical NaN (R139). -/
def canonNaN (f : Fmt) : Nat := if f.small then 0x80 else (2 ^ f.ebits - 1) * 2 ^ (f.prec - 1) + 2 ^ (f.prec - 2)

def signBit (f : Fmt) (neg : Bool) : Nat := if neg then 2 ^ (f.width - 1) else 0
/-- The bits of an infinity. -/
def infBits (f : Fmt) (neg : Bool) : Nat := signBit f neg + (2 ^ f.ebits - 1) * 2 ^ (f.prec - 1)
/-- The bits of MaxF(fmt). -/
def maxBits (f : Fmt) (neg : Bool) : Nat := signBit f neg + f.topField * 2 ^ (f.prec - 1) + (2 ^ (f.prec - 1) - 1)
/-- The bits of a zero; f8 formats have one zero only (R134). -/
def zeroBits (f : Fmt) (neg : Bool) : Nat := if f.small then 0 else signBit f neg

/-- The value of a code (R133, R134). -/
def decodeF (f : Fmt) (bits : Nat) : Num :=
  let w := f.width
  let neg := bits.testBit (w - 1)
  let fr := bits % 2 ^ (f.prec - 1)
  let ex := (bits / 2 ^ (f.prec - 1)) % 2 ^ f.ebits
  if f.small && bits % 2 ^ w == 0x80 then .nan
  else if !f.small && ex == 2 ^ f.ebits - 1 then (if fr == 0 then .inf neg else .nan)
  else if ex == 0 then .fin neg fr (f.emin - (f.prec - 1 : Nat))
  else .fin neg (2 ^ (f.prec - 1) + fr) ((ex : Int) - f.bias - (f.prec - 1 : Nat))

/-- A NaN whose top fraction bit is 0 is signalling; f8 has none (R133, R134). -/
def isSnan (f : Fmt) (bits : Nat) : Bool :=
  !f.small && (bits / 2 ^ (f.prec - 1)) % 2 ^ f.ebits == 2 ^ f.ebits - 1 && bits % 2 ^ (f.prec - 1) != 0
    && !bits.testBit (f.prec - 2)

/-- A nonzero code whose exponent field is 0. -/
def isSubnormal (f : Fmt) (bits : Nat) : Bool :=
  (bits / 2 ^ (f.prec - 1)) % 2 ^ f.ebits == 0 && bits % 2 ^ (f.prec - 1) != 0

/-- The number of bits of a natural number. -/
def bitLen (n : Nat) : Nat := if n = 0 then 0 else Nat.log2 n + 1

/-- m / 2^k rounded to an integer by mode, for a value of the given sign; and whether it is exact. -/
def roundShift (rm : Rm) (neg : Bool) (m k : Nat) : Nat × Bool :=
  let q := m / 2 ^ k
  let r := m % 2 ^ k
  let up := match rm with
    | .rne => 2 * r > 2 ^ k || (2 * r == 2 ^ k && q % 2 == 1)
    | .rtz => false
    | .rup => !neg && r != 0
    | .rdn => neg && r != 0
  (if up then q + 1 else q, r == 0)

/-- Round of R137: the bits and the fx bits. -/
def roundTo (f : Fmt) (rm : Rm) (sat : Bool) (x : Num) : Nat × Fx :=
  match x with
  | .nan => (canonNaN f, 0)
  | .inf neg => if f.small || sat then (maxBits f neg, fxSat) else (infBits f neg, 0)
  | .fin neg 0 _ => (zeroBits f neg, 0)
  | .fin neg m e =>
    let qmin : Int := f.emin - (f.prec : Nat) + 1
    let q := max qmin (e + (bitLen m : Nat) - (f.prec : Nat))
    let r := if e ≥ q then (m * 2 ^ (e - q).toNat, true) else roundShift rm neg m (q - e).toNat
    let nx : Fx := if r.2 then 0 else fxNx
    let uf : Fx := if !r.2 && r.1 < 2 ^ (f.prec - 1) then fxUf else 0
    let n := if r.1 = 2 ^ f.prec then (2 ^ (f.prec - 1), q + 1) else (r.1, q)
    let field := (n.2 + (f.prec - 1 : Nat) + f.bias).toNat
    if n.1 ≥ 2 ^ (f.prec - 1) && field > f.topField then
      if f.small || sat then (maxBits f neg, nx ||| fxOf ||| fxSat)
      else if rm == .rtz || (rm == .rup && neg) || (rm == .rdn && !neg) then (maxBits f neg, nx ||| fxOf)
      else (infBits f neg, nx ||| fxOf)
    else if n.1 = 0 then (zeroBits f neg, nx ||| uf)
    else if n.1 < 2 ^ (f.prec - 1) then (signBit f neg + n.1, nx ||| uf)
    else (signBit f neg + field * 2 ^ (f.prec - 1) + (n.1 - 2 ^ (f.prec - 1)), nx ||| uf)

/-! ## Exact arithmetic -/

/-- The signed integer m * 2^(e - lo) of a finite value. -/
def scaled (lo : Int) : Num → Int
  | .fin neg m e => let v : Int := (m * 2 ^ (e - lo).toNat : Nat); if neg then -v else v
  | _ => 0

def Num.exp : Num → Int
  | .fin _ _ e => e
  | _ => 0
def Num.isNan : Num → Bool
  | .nan => true | _ => false
def Num.isInf : Num → Bool
  | .inf _ => true | _ => false
def Num.isZero : Num → Bool
  | .fin _ 0 _ => true | _ => false
def Num.neg? : Num → Bool
  | .nan => false | .inf n => n | .fin n _ _ => n
def Num.negate : Num → Num
  | .nan => .nan | .inf n => .inf !n | .fin n m e => .fin (!n) m e
def Num.abs : Num → Num
  | .nan => .nan | .inf _ => .inf false | .fin _ m e => .fin false m e

def Num.ofInt (i : Int) : Num := .fin (i < 0) i.natAbs 0

/-- The exact sum of finite values, and of infinities (none where they have opposite signs). An exact zero is +0, or −0
when rounding down, unless every addend is a zero of one sign (R137). -/
def sumNum (rm : Rm) (l : List Num) : Num :=
  if l.any Num.isNan then .nan
  else if l.any Num.isInf then
    if l.any (fun x => x.isInf && x.neg?) && l.any (fun x => x.isInf && !x.neg?) then .nan
    else .inf (l.any (fun x => x.isInf && x.neg?))
  else
    let lo := l.foldl (fun a x => min a x.exp) (match l with | x :: _ => x.exp | [] => 0)
    let v := l.foldl (fun a x => a + scaled lo x) 0
    if v = 0 then
      if l.all (fun x => x.isZero && x.neg?) then .fin true 0 0
      else if l.all (fun x => x.isZero && !x.neg?) then .fin false 0 0
      else .fin (rm == .rdn) 0 0
    else .fin (v < 0) v.natAbs lo

/-- Does a sum meet infinities of opposite sign? -/
def sumInvalid (l : List Num) : Bool :=
  !l.any Num.isNan && l.any (fun x => x.isInf && x.neg?) && l.any (fun x => x.isInf && !x.neg?)

def mulNum (a b : Num) : Num :=
  match a, b with
  | .nan, _ => .nan
  | _, .nan => .nan
  | .inf n, .inf k => .inf (n != k)
  | .inf n, .fin k m _ => if m = 0 then .nan else .inf (n != k)
  | .fin k m _, .inf n => if m = 0 then .nan else .inf (n != k)
  | .fin n m e, .fin k j f => .fin (n != k) (m * j) (e + f)
/-- 0 × ∞. -/
def mulInvalid (a b : Num) : Bool := (a.isZero && b.isInf) || (a.isInf && b.isZero)

/-- A quotient with a sticky last bit: exact enough for Round in every format. -/
def divNum (a b : Num) : Num :=
  match a, b with
  | .nan, _ => .nan
  | _, .nan => .nan
  | .inf n, .inf _ => if n then .nan else .nan
  | .inf n, .fin k _ _ => .inf (n != k)
  | .fin n _ _, .inf k => .fin (n != k) 0 0
  | .fin n m e, .fin k j f =>
    if j = 0 then (if m = 0 then .nan else .inf (n != k))
    else if m = 0 then .fin (n != k) 0 0
    else
      let sh := 80 + bitLen j
      let q := m * 2 ^ sh / j
      let st := if m * 2 ^ sh % j = 0 then 0 else 1
      .fin (n != k) (2 * q + st) (e - f - (sh : Nat) - 1)

/-- The integer square root by bits: structural recursion on the number of bits still to try. -/
def isqrtAux : Nat → Nat → Nat → Nat
  | 0, _, r => r
  | k + 1, n, r => let c := r + 2 ^ k; isqrtAux k n (if c * c ≤ n then c else r)
def isqrt (n : Nat) : Nat := isqrtAux (bitLen n / 2 + 1) n 0

/-- A square root with a sticky last bit. -/
def sqrtNum : Num → Num
  | .nan => .nan
  | .inf n => if n then .nan else .inf false
  | .fin n m e =>
    if m = 0 then .fin n 0 0
    else if n then .nan
    else
      let ev := if e % 2 = 0 then (m, e) else (2 * m, e - 1)
      let big := ev.1 * 2 ^ 160
      let r := isqrt big
      .fin false (2 * r + (if r * r = big then 0 else 1)) (ev.2 / 2 - 80 - 1)

/-- Comparison of two values that are not NaN. -/
def cmpNum (a b : Num) : Ordering :=
  match a, b with
  | .inf n, .inf k => if n == k then .eq else if n then .lt else .gt
  | .inf n, _ => if n then .lt else .gt
  | _, .inf k => if k then .gt else .lt
  | x, y => let lo := min x.exp y.exp; compare (scaled lo x) (scaled lo y)

/-- A finite value rounded to an integer by mode, and whether it is exact. -/
def roundInt (rm : Rm) : Num → Int × Bool
  | .fin neg m e =>
    let r := if e ≥ 0 then (m * 2 ^ e.toNat, true) else roundShift rm neg m (-e).toNat
    (if neg then -(r.1 : Int) else (r.1 : Int), r.2)
  | _ => (0, true)

/-- FTZ on an operand (R138). -/
def flushIn (f : Fmt) (ftz : Bool) (bits : Nat) : Nat :=
  if ftz && !f.small && isSubnormal f bits then zeroBits f (bits.testBit (f.width - 1)) else bits
/-- FTZ on a result (R138). -/
def flushOut (f : Fmt) (ftz : Bool) (r : Nat × Fx) : Nat × Fx :=
  if ftz && !f.small && isSubnormal f r.1 then (zeroBits f (r.1.testBit (f.width - 1)), r.2 ||| fxUf ||| fxNx) else r

/-! ## Block formats -/

/-- Bytes of a block with m magnitude bits (R143). -/
def bxBytes (m : Nat) : Nat := 2 + 2 * (1 + m)

/-- Magnitude bits of a block format code (R132). -/
def bxMag : Nat → Nat
  | 6 => 7 | 7 => 4 | _ => 2

/-- A little-endian number of bytes (R2). -/
def leNat : List Byte → Nat
  | [] => 0
  | b :: l => b.toNat + 256 * leNat l
/-- The first n bytes of a number, little-endian. -/
def leBytes : Nat → Nat → List Byte
  | 0, _ => []
  | n + 1, v => BitVec.ofNat 8 v :: leBytes n (v / 256)

/-- Element i of a block as an exact value; NaN for the NaN scale (R144, before the rounding of a view). -/
def bxElem (m : Nat) (blk : List Byte) (i : Nat) : Num :=
  let e := (blk.getD 0 0).toNat
  if e = 255 then .nan
  else
    let mu := if (blk.getD 1 0).getLsbD (i / 2) then 1 else 0
    let el := leNat (blk.drop 2) / 2 ^ ((1 + m) * i) % 2 ^ (1 + m)
    let mag := el % 2 ^ m
    if mag = 0 then .fin false 0 0
    else .fin (el / 2 ^ m == 1) mag ((e : Int) - 127 - (mu : Nat) - ((m - 1 : Nat) : Int))

/-- BxDecode of R144. -/
def bxDecode (m : Nat) (view : Fmt) (blk : List Byte) (i : Nat) : Nat := (roundTo view .rne false (bxElem m blk i)).1

/-- Magnitude comparison of finite values. -/
def absLt (a b : Num) : Bool := cmpNum a.abs b.abs == .lt

/-- BxEncode of R145: the block and the fx bits. -/
def bxEncode (m : Nat) (xs : List Num) : List Byte × Fx :=
  if xs.any Num.isNan then (255#8 :: List.replicate (bxBytes m - 1) 0#8, 0)
  else
    let x := xs.map (fun v => match v with | .inf n => Num.fin n (2 ^ 24 - 1) 104 | v => v)
    let a := x.foldl (fun a v => if absLt a v then v.abs else a) (.fin false 0 0)
    match a with
    | .fin _ 0 _ => (List.replicate (bxBytes m) 0#8, 0)
    | .fin _ am ae =>
      let fl : Int := ae + (bitLen am : Nat) - 1
      let e := (min 254 (max 0 (fl + 127))).toNat
      let lim : Num := .fin false 1 ((e : Int) - 128)
      let mu (j : Nat) : Nat :=
        if absLt (x.getD (2 * j) (.fin false 0 0)) lim && absLt (x.getD (2 * j + 1) (.fin false 0 0)) lim then 1 else 0
      let el (i : Nat) : Nat × Fx :=
        match x.getD i (.fin false 0 0) with
        | .fin neg k ex =>
          let u : Int := (e : Int) - 127 - (mu (i / 2) : Nat) - ((m - 1 : Nat) : Int)
          let q := if ex ≥ u then (k * 2 ^ (ex - u).toNat, true) else roundShift .rne false k (u - ex).toNat
          let ovr := q.1 > 2 ^ m - 1
          let mg := if ovr then 2 ^ m - 1 else q.1
          ((if neg && mg > 0 then 2 ^ m else 0) + mg,
            (if ovr then fxSat else 0) ||| (if q.2 && !ovr then 0 else fxNx))
        | _ => (0, 0)
      let all := (List.range 16).map el
      let body := all.foldr (fun v acc => v.1 + 2 ^ (1 + m) * acc) 0
      let mub := (List.range 8).foldr (fun j acc => mu j + 2 * acc) 0
      (BitVec.ofNat 8 e :: BitVec.ofNat 8 mub :: leBytes (2 * (1 + m)) body, all.foldl (fun f v => f ||| v.2) 0)
    | _ => (List.replicate (bxBytes m) 0#8, 0)

/-- Version and rollback index in the header of a firmware image (R432). -/
def imageVersion (l : List Byte) : Word32 := BitVec.ofNat 32 (leNat ((l.drop 4).take 4))
def imageRollback (l : List Byte) : BitVec 16 := BitVec.ofNat 16 (leNat ((l.drop 8).take 2))

end Sys2Proof.Machine
end

