-- ==== Sys2Proof/Machine/Flags.lean ====
section
/-! DEFINITION. Flag computations: the carries and comparisons of the integer instructions (R192, R193, R201) and the sticky fx register (R139, R140). -/

namespace Sys2Proof.Machine

/-- Adds fx bits to the sticky register; its reserved bits read zero (R140). -/
def fxSet (fx : Word32) (bits : Fx) : Word32 := fx ||| bits.setWidth 32

/-- Carry out of a w-bit addition with carry in (R196). -/
def carryAdd (w a b c : Nat) : Bool := a + b + c ≥ 2 ^ w
/-- Borrow out of a w-bit subtraction with borrow in (R196). -/
def borrowSub (a b c : Nat) : Bool := a < b + c

/-- nv for a signalling NaN operand (R139). -/
def snanFx (f : Fmt) (xs : List Nat) : Fx := if xs.any (isSnan f) then fxNv else 0

/-- The signed and the unsigned reading of a w-bit value (R135). -/
def toSigned (w : Nat) (x : Nat) : Int := if x % 2 ^ w ≥ 2 ^ (w - 1) then (x % 2 ^ w : Nat) - (2 ^ w : Nat) else (x % 2 ^ w : Nat)
def ofInt (w : Nat) (i : Int) : Nat := (i % (2 ^ w : Nat)).toNat

/-- The range of a w-bit integer type. -/
def intMin (w : Nat) (signed : Bool) : Int := if signed then -(2 ^ (w - 1) : Nat) else 0
def intMax (w : Nat) (signed : Bool) : Int := if signed then (2 ^ (w - 1) : Nat) - 1 else (2 ^ w : Nat) - 1
/-- Saturation, and whether it changed the value (R196). -/
def clampInt (w : Nat) (signed : Bool) (i : Int) : Int := max (intMin w signed) (min (intMax w signed) i)

/-! ## Floating-point results and their flags (R137 to R139, R216) -/

/-- Rounds an exact result, after FTZ on it, with nv for a signalling NaN operand or an invalid operation. -/
def fpRound (f : Fmt) (rm : Rm) (ftz : Bool) (ops : List Nat) (invalid : Bool) (x : Num) : Nat × Fx :=
  let r := flushOut f ftz (roundTo f rm false (if invalid then .nan else x))
  (r.1, r.2 ||| snanFx f ops ||| (if invalid then fxNv else 0))

/-- An operand after FTZ (R138). -/
def fpIn (f : Fmt) (ftz : Bool) (x : Nat) : Num := decodeF f (flushIn f ftz x)

/-- ±(a × b) ± c, rounded once. -/
def fpFma (f : Fmt) (rm : Rm) (ftz negP negC : Bool) (a b c : Nat) : Nat × Fx :=
  let x := fpIn f ftz a; let y := fpIn f ftz b; let z := fpIn f ftz c
  let p := if negP then (mulNum x y).negate else mulNum x y
  let l := [p, if negC then z.negate else z]
  fpRound f rm ftz [a, b, c] (mulInvalid x y || sumInvalid l) (sumNum rm l)

/-- a ± b, rounded once. -/
def fpAdd (f : Fmt) (rm : Rm) (ftz neg : Bool) (a b : Nat) : Nat × Fx :=
  let y := fpIn f ftz b
  let l := [fpIn f ftz a, if neg then y.negate else y]
  fpRound f rm ftz [a, b] (sumInvalid l) (sumNum rm l)

def fpMul (f : Fmt) (rm : Rm) (ftz : Bool) (a b : Nat) : Nat × Fx :=
  let x := fpIn f ftz a; let y := fpIn f ftz b
  fpRound f rm ftz [a, b] (mulInvalid x y) (mulNum x y)

/-- −0 is less than +0 (R217). -/
def fpLess (x y : Num) : Bool :=
  match cmpNum x y with
  | .lt => true
  | .eq => x.neg? && !y.neg?
  | .gt => false

/-- FMNX of R217: minimum or maximum, propagating or ignoring a single NaN. -/
def fpMnx (f : Fmt) (ftz mx ignore : Bool) (a b : Nat) : Nat × Fx :=
  let fa := flushIn f ftz a; let fb := flushIn f ftz b
  let x := decodeF f fa; let y := decodeF f fb
  let nv := snanFx f [a, b]
  if x.isNan && y.isNan then (canonNaN f, nv)
  else if x.isNan then (if ignore then fb else canonNaN f, nv)
  else if y.isNan then (if ignore then fa else canonNaN f, nv)
  else (if fpLess x y == mx then fb else fa, nv)

/-- FCMP of R218. -/
def fpRel (f : Fmt) (ftz : Bool) (fn a b : Nat) : Bool × Fx :=
  let x := fpIn f ftz a; let y := fpIn f ftz b
  let un := x.isNan || y.isNan
  let o := cmpNum x y
  let holds := match fn with
    | 0 => !un && o == .eq
    | 1 => un || o != .eq
    | 2 => !un && o == .lt
    | 3 => !un && o != .gt
    | 4 => !un && o == .gt
    | 5 => !un && o != .lt
    | 6 => un
    | _ => !un
  (holds, if un && 2 ≤ fn && fn ≤ 5 then fxNv else snanFx f [a, b])

/-- A conversion to an integer type of width w (R141). -/
def fpToInt (f : Fmt) (rm : Rm) (w : Nat) (signed : Bool) (a : Nat) : Int × Fx :=
  match decodeF f a with
  | .nan => (0, fxNv)
  | .inf neg => (if neg then intMin w signed else intMax w signed, fxNv)
  | x =>
    let r := roundInt rm x
    if r.1 < intMin w signed then (intMin w signed, fxNv)
    else if r.1 > intMax w signed then (intMax w signed, fxNv)
    else (r.1, if r.2 then 0 else fxNx)

end Sys2Proof.Machine
end

