-- ==== Sys2Proof/Config.lean ====
section
/-! DEFINITION. What stepping A0 fixes (sizes and counts of R12, R14, R282, R292, R384) and the free values: constants with
no body, of which nothing in Lean can prove a value. A free value stands where the manual calls a value unpredictable (R5) or
leaves it open; a fresh one is drawn by applying the constant to a counter of the state. -/

namespace Sys2Proof.Config

/-- Slots of a core, cores of a cluster, clusters, and L2 slices (R12). -/
def slotsPerCore : Nat := 16
def coresPerCluster : Nat := 32
def clusters : Nat := 8
def cores : Nat := 256
/-- The divergence and loop stack holds 16 entries (R34). -/
def stackEntries : Nat := 16
/-- A bin has room for 64 records (R44). -/
def binRoom : Nat := 64
/-- A slice holds 64 monitors (R102). -/
def monitorsPerSlice : Nat := 64
/-- A matrix queue holds four entries, a copy or egress queue 16 (R282, R292). -/
def matrixQueue : Nat := 4
def engineQueue : Nat := 16
/-- The translation unit holds 256 outstanding pages per context (R384). -/
def outstandingFaults : Nat := 256
/-- A correctable error freezes its core for 20 cycles (R114). -/
def freezeCycles : Nat := 20
/-- An aged gang has been ready for 1,024 cycles without issuing (R28). -/
def agedAt : Nat := 1024

/-- An unpredictable register, cut to the register's width: the first argument is the draw, the second the register's key (R26, R64). -/
opaque freeReg : Nat → Nat → BitVec 64
/-- What a register reads inside a landing window (R171): by gang, bundle and register. -/
opaque freeWindow : Nat → Nat → Nat → BitVec 64
/-- An unpredictable 64-bit value: a read inside a landing window, a raced value (R171). -/
opaque freeWord : Nat → BitVec 64
/-- An unpredictable byte of a store: a discarded sector, a scratchpad share after a resumption, an overlapping copy. -/
opaque freeByte : Nat → Nat → BitVec 8
/-- An unpredictable accumulator element (R64, R284). -/
opaque freeAcc : Nat → Nat → BitVec 32
/-- How far, in units of the last place, the device's special-function result lies from the nearest one. The result is used
only where it stays within the bound of R221. One value for each function and operand, as R221 says of stepping A0. -/
opaque sfuOffset : BitVec 8 → BitVec 32 → Int
/-- The handler vector base that firmware sets when it creates a context (R335); the manual gives no source for it. -/
opaque handlerBase : Nat → BitVec 64
/-- The fused EUI-48 of the module and its key digest (R430, R431). -/
opaque fusedEui : BitVec 48
opaque fusedKeyDigest : List (BitVec 8)
/-- SHA-384 and ECDSA over brainpoolP384r1 (R432, R433): standards the manual names and does not restate. -/
opaque sha384 : List (BitVec 8) → List (BitVec 8)
opaque ecdsaVerifies : List (BitVec 8) → List (BitVec 8) → List (BitVec 8) → Bool
opaque ecdsaSign : List (BitVec 8) → List (BitVec 8)
/-- The identity key's public half and its certificate, by their offset in the attestation block, which the manual does not give (R433). -/
opaque identity : Nat → BitVec 64
/-- The private layout of a saved handle (R349), as a function of its fields packed in one number. -/
opaque handleImage : Nat → BitVec 128
/-- The image of a record in an overflow area (R45), as a function of its words: the manual gives its 64 bytes no layout. -/
opaque overImage : List (BitVec 32) → Nat → BitVec 8
/-- The fabric node number that a firmware image configures (R430, step 5), whether a bring-up trains the memory (R431), and the 1588 clock's identity as
a function of the EUI-48 (R404). -/
opaque fabricNode : List (BitVec 8) → BitVec 18
opaque trained : Nat → Bool
opaque clockIdentity : BitVec 48 → BitVec 64
/-- A frame of the 1588 clock (R404): it is sent only where it is one that the clock's state and configuration allow. -/
opaque ptpFrame : Nat → List (BitVec 8)
/-- What the serial flash holds at first in its two slots, and the fused rollback floor (R430 to R432). -/
opaque flashImage : Nat → List (BitVec 8)
opaque fusedFloor : BitVec 16
/-- The places of the kind fields of a Muslin entry in its bytes 16 to 31 (R423): the manual names the fields and gives no layout. -/
opaque muslinImage : Nat → List Nat → BitVec 128
/-- The sensors behind the power block (R436). -/
opaque sensor : Nat → BitVec 11

end Sys2Proof.Config
end

