-- ==== Sys2Proof/Syntax.lean ====
section
/-! DEFINITION. The one inductive of the model's instructions and events: one constructor for each row of
spec/opcode_table.json. A gang instruction carries its common fields (R153) and the fields of its format (R154 to R159); an
event of the device carries the plain data that says which party or object it strikes, or what arrives from outside. -/

namespace Sys2Proof

inductive Instr where
  /-- NOP (R207). Does nothing beyond taking its charge. -/
  | nop (h : Hd) (x : RF)
  /-- NOP_PAUSE (R207). Makes the gang not ready for the 32 cycles after issue when its guard holds in an active strand. -/
  | nopPause (h : Hd) (x : RF)
  /-- PAUSE_EXPIRY (R207). The 32-cycle pause of nop.pause ends, or a yield request ends it early, and the gang can be ready
  again. -/
  | pauseExpiry (uid : Nat)
  /-- IADD (R196). Adds a and b per element, wrapping or saturating. -/
  | iadd (h : Hd) (x : RF)
  /-- IADD_ADDC (R196). Adds a, b and a predicate carry-in and writes the unsigned carry-out to that predicate. -/
  | iaddAddc (h : Hd) (x : RF)
  /-- IADD_SUB (R196). Subtracts b from a per element. -/
  | iaddSub (h : Hd) (x : RF)
  /-- IADD_SUBB (R196). Subtracts b and a predicate borrow-in from a and writes the borrow-out. -/
  | iaddSubb (h : Hd) (x : RF)
  /-- IADD_RSUB (R196). Subtracts a from b per element. -/
  | iaddRsub (h : Hd) (x : RF)
  /-- IMUL (R196). Writes the low w bits of a times b. -/
  | imul (h : Hd) (x : RF)
  /-- IMUL_HI (R196). Writes the high w bits of a times b. -/
  | imulHi (h : Hd) (x : RF)
  /-- IMUL_WIDE (R196). Writes the 64-bit product of two 32-bit values into an even pair. -/
  | imulWide (h : Hd) (x : RF)
  /-- IMAD (R196). Writes the low w bits of a times b plus c. -/
  | imad (h : Hd) (x : RF)
  /-- IMAD_WIDE (R196). Writes the 64-bit value a times b plus c into an even pair. -/
  | imadWide (h : Hd) (x : RF)
  /-- IDIV (R197). Writes the quotient rounded toward zero, with the fixed results for a zero divisor and overflow. -/
  | idiv (h : Hd) (x : RF)
  /-- IDIV_REM (R197). Writes the remainder with the sign of a, with the fixed results for a zero divisor and overflow. -/
  | idivRem (h : Hd) (x : RF)
  /-- IMNX (R196). Writes the minimum of a and b. -/
  | imnx (h : Hd) (x : RF)
  /-- IMNX_MAX (R196). Writes the maximum of a and b. -/
  | imnxMax (h : Hd) (x : RF)
  /-- IABS (R196). Writes the absolute value of a. -/
  | iabs (h : Hd) (x : RF)
  /-- IABS_NEG (R196). Writes the negation of a. -/
  | iabsNeg (h : Hd) (x : RF)
  /-- IABS_SAD (R196). Writes c plus the sum of absolute element differences of a and b, modulo 2^32. -/
  | iabsSad (h : Hd) (x : RF)
  /-- ICLMP (R196). Writes min(max(a, b), c). -/
  | iclmp (h : Hd) (x : RF)
  /-- AND (R198). Writes a AND b. -/
  | and (h : Hd) (x : RF)
  /-- AND_NOT (R198). Writes a AND NOT b. -/
  | andNot (h : Hd) (x : RF)
  /-- OR (R198). Writes a OR b. -/
  | or (h : Hd) (x : RF)
  /-- OR_NOT (R198). Writes a OR NOT b. -/
  | orNot (h : Hd) (x : RF)
  /-- XOR (R198). Writes a XOR b. -/
  | xor (h : Hd) (x : RF)
  /-- XOR_NOT (R198). Writes NOT (a XOR b). -/
  | xorNot (h : Hd) (x : RF)
  /-- LUT3 (R198). Writes each bit from the 8-bit truth table in fn indexed by the bits of a, b and c. -/
  | lut3 (h : Hd) (x : RF)
  /-- SHL (R198). Shifts a left by k, giving 0 when k is at least the width. -/
  | shl (h : Hd) (x : RF)
  /-- SHR (R198). Shifts a right logically by k. -/
  | shr (h : Hd) (x : RF)
  /-- SHR_AR (R198). Shifts a right arithmetically by k. -/
  | shrAr (h : Hd) (x : RF)
  /-- ROT (R198). Rotates a left by k mod w. -/
  | rot (h : Hd) (x : RF)
  /-- ROT_RR (R198). Rotates a right by k mod w. -/
  | rotRr (h : Hd) (x : RF)
  /-- ROT_SHFL (R198). Writes bits 63:32 of a:b shifted left by c mod 32. -/
  | rotShfl (h : Hd) (x : RF)
  /-- ROT_SHFR (R198). Writes bits 31:0 of a:b shifted right by c mod 32. -/
  | rotShfr (h : Hd) (x : RF)
  /-- POPC (R198). Writes the number of one bits of a. -/
  | popc (h : Hd) (x : RF)
  /-- CLZ (R198). Writes the count of leading zeros of a. -/
  | clz (h : Hd) (x : RF)
  /-- CLZ_CTZ (R198). Writes the count of trailing zeros of a. -/
  | clzCtz (h : Hd) (x : RF)
  /-- CLZ_CLS (R198). Writes the count of bits below the top bit that equal it. -/
  | clzCls (h : Hd) (x : RF)
  /-- BREV (R198). Reverses the bit order of a. -/
  | brev (h : Hd) (x : RF)
  /-- BREV_BYTE (R198). Reverses the byte order of a. -/
  | brevByte (h : Hd) (x : RF)
  /-- BFX (R199). Extracts a bit field of a, sign-extended for signed types. -/
  | bfx (h : Hd) (x : RF)
  /-- BFI (R199). Inserts the low bits of b into a bit field of a. -/
  | bfi (h : Hd) (x : RF)
  /-- PRMT (R199). Builds each output byte from a 5-bit selector over the eight bytes of a:b. -/
  | prmt (h : Hd) (x : RF)
  /-- PACK (R200). Packs the low halves of a and b into one word. -/
  | pack (h : Hd) (x : RF)
  /-- PACK_SS (R200). Packs a and b clamped to signed 16 bits. -/
  | packSs (h : Hd) (x : RF)
  /-- PACK_NN (R200). Packs a and b clamped to unsigned 16 bits. -/
  | packNn (h : Hd) (x : RF)
  /-- ICMP (R201). Writes a predicate equal to the integer comparison selected by fn ANDed with p(c). -/
  | icmp (h : Hd) (x : RF)
  /-- SEL (R202). Writes a when p(c) holds and b otherwise. -/
  | sel (h : Hd) (x : RF)
  /-- PLOG (R202). Writes a predicate from the truth table in fn over three predicates. -/
  | plog (h : Hd) (x : RF)
  /-- MOVI (R203). Writes the sign-extended 28-bit immediate, truncated to 32 bits for a v-register. -/
  | movi (h : Hd) (x : IF)
  /-- MOVI_X64 (R203). Writes the sign-extended 28-bit immediate as a 64-bit value. -/
  | moviX64 (h : Hd) (x : IF)
  /-- MOVH (R203). Adds the sign-extended immediate times 2^28 to a 64-bit destination. -/
  | movh (h : Hd) (x : IF)
  /-- MOVH_X32 (R203). Adds the sign-extended immediate times 2^28 to a 32-bit destination modulo 2^32. -/
  | movhX32 (h : Hd) (x : IF)
  /-- MOV (R204). Copies a to d in each executing strand or cluster. -/
  | mov (h : Hd) (x : RF)
  /-- MOV_BC (R204). Broadcasts a to d in every present strand, or from cluster k to every cluster. -/
  | movBc (h : Hd) (x : RF)
  /-- XMOV (R204). Copies a register of cluster J into the own cluster's destination. -/
  | xmov (h : Hd) (x : RF)
  /-- LEA (R205). Forms a plus the sign-extended index shifted by sh, modulo 2^64. -/
  | lea (h : Hd) (x : RF)
  /-- LEA_N (R205). Forms a plus the zero-extended index shifted by sh, modulo 2^64. -/
  | leaN (h : Hd) (x : RF)
  /-- IDOT (R206). Adds to c the exact sum of four 8-bit element products. -/
  | idot (h : Hd) (x : RF)
  /-- IDOT_H (R206). Adds to c the exact sum of two 16-bit element products. -/
  | idotH (h : Hd) (x : RF)
  /-- MFS (R208). Reads the numbered special register at its own issue. -/
  | mfs (h : Hd) (x : RF)
  /-- MTS (R208). Writes a writable special register gang-wide, trapping on read-only registers and refused values. -/
  | mts (h : Hd) (x : RF)
  /-- VOTE_ANY (R211). Writes true if any executing strand's predicate is true. -/
  | voteAny (h : Hd) (x : RF)
  /-- VOTE_ALL (R211). Writes true if every executing strand's predicate is true. -/
  | voteAll (h : Hd) (x : RF)
  /-- VOTE_BALLOT (R211). Writes a bit mask of the strands whose predicate is true. -/
  | voteBallot (h : Hd) (x : RF)
  /-- VOTE_COUNT (R211). Writes the number of strands whose predicate is true. -/
  | voteCount (h : Hd) (x : RF)
  /-- VOTE_FIRST (R211). Writes the lowest index whose predicate is true, or 32 or 16 if none. -/
  | voteFirst (h : Hd) (x : RF)
  /-- RDLANE (R212). Writes register a of strand j into every executing strand. -/
  | rdlane (h : Hd) (x : RF)
  /-- WRLANE (R212). Writes a uniform value into register d of strand j. -/
  | wrlane (h : Hd) (x : RF)
  /-- SHUF (R213). Gives each strand a of a per-strand indexed source within its segment. -/
  | shuf (h : Hd) (x : RF)
  /-- SHUF_ROT (R213). Rotates each segment toward lower indices by n. -/
  | shufRot (h : Hd) (x : RF)
  /-- SHUF_XOR (R213). Gives each strand the value of the strand whose segment index is its own XOR n. -/
  | shufXor (h : Hd) (x : RF)
  /-- SHUF_REV (R213). Reverses each segment. -/
  | shufRev (h : Hd) (x : RF)
  /-- PATLD (R214). Loads pattern bank N from the low bits of a in each executing strand. -/
  | patld (h : Hd) (x : RF)
  /-- PATSW (R214). Gives each strand a of the strand named by its entry of pattern bank N. -/
  | patsw (h : Hd) (x : RF)
  /-- GRED (R215). Combines the 32 strand values in a fixed pairwise tree and writes the result to every executing strand. -/
  | gred (h : Hd) (x : RF)
  /-- GSCAN (R215). Writes the inclusive or exclusive prefix of the strand values from a fixed doubling tree. -/
  | gscan (h : Hd) (x : RF)
  /-- FADD (R216). Writes a plus b, rounded once. -/
  | fadd (h : Hd) (x : RF)
  /-- FADD_SUB (R216). Writes a minus b, rounded once. -/
  | faddSub (h : Hd) (x : RF)
  /-- FMUL (R216). Writes a times b, rounded once. -/
  | fmul (h : Hd) (x : RF)
  /-- FFMA (R216). Writes a times b plus c with one rounding. -/
  | ffma (h : Hd) (x : RF)
  /-- FFMA_MS (R216). Writes a times b minus c with one rounding. -/
  | ffmaMs (h : Hd) (x : RF)
  /-- FFMA_NM (R216). Writes minus a times b plus c with one rounding. -/
  | ffmaNm (h : Hd) (x : RF)
  /-- FMNX (R217). Writes the floating minimum, NaN-propagating. -/
  | fmnx (h : Hd) (x : RF)
  /-- FMNX_MAX (R217). Writes the floating maximum, NaN-propagating. -/
  | fmnxMax (h : Hd) (x : RF)
  /-- FMNX_MINN (R217). Writes the floating minimum ignoring a single NaN. -/
  | fmnxMinn (h : Hd) (x : RF)
  /-- FMNX_MAXN (R217). Writes the floating maximum ignoring a single NaN. -/
  | fmnxMaxn (h : Hd) (x : RF)
  /-- FCMP (R218). Writes a predicate equal to the f32 relation selected by fn ANDed with p(c). -/
  | fcmp (h : Hd) (x : RF)
  /-- FCLS (R219). Writes the one-hot 10-bit class mask of a. -/
  | fcls (h : Hd) (x : RF)
  /-- FCLS_P (R219). Writes a predicate that the class of a lies in the mask b. -/
  | fclsP (h : Hd) (x : RF)
  /-- FSCL (R216). Writes a times 2^b, rounded once. -/
  | fscl (h : Hd) (x : RF)
  /-- FRND (R220). Rounds a to an integral value of its format by the rounding mode. -/
  | frnd (h : Hd) (x : RF)
  /-- FDIV (R216). Writes a divided by b, rounded once. -/
  | fdiv (h : Hd) (x : RF)
  /-- FSQRT (R216). Writes the square root of a, rounded once. -/
  | fsqrt (h : Hd) (x : RF)
  /-- SFU (R221). Computes the special function selected by fn within its stated error bound. -/
  | sfu (h : Hd) (x : RF)
  /-- FCVT (R224). Converts one element between f32 and f16, b16, f8n or f8w. -/
  | fcvt (h : Hd) (x : RF)
  /-- F2I (R224). Converts one floating element to the integer type in fn. -/
  | f2i (h : Hd) (x : RF)
  /-- I2F (R224). Converts an integer to one floating element. -/
  | i2f (h : Hd) (x : RF)
  /-- DADD (R222). Writes the f64 sum a plus b. -/
  | dadd (h : Hd) (x : RF)
  /-- DADD_SUB (R222). Writes the f64 difference a minus b. -/
  | daddSub (h : Hd) (x : RF)
  /-- DMUL (R222). Writes the f64 product a times b. -/
  | dmul (h : Hd) (x : RF)
  /-- DFMA (R222). Writes the f64 fused a times b plus c. -/
  | dfma (h : Hd) (x : RF)
  /-- DFMA_MS (R222). Writes the f64 fused a times b minus c. -/
  | dfmaMs (h : Hd) (x : RF)
  /-- DFMA_NM (R222). Writes the f64 fused minus a times b plus c. -/
  | dfmaNm (h : Hd) (x : RF)
  /-- DCMP (R222). Writes a predicate from an f64 comparison as FCMP does. -/
  | dcmp (h : Hd) (x : RF)
  /-- DCVT_F32_F64 (R223). Rounds an f64 value to f32. -/
  | dcvtF32F64 (h : Hd) (x : RF)
  /-- DCVT_F64_F32 (R223). Widens an f32 value exactly to f64. -/
  | dcvtF64F32 (h : Hd) (x : RF)
  /-- DCVT_I_F64 (R223). Converts an f64 value to an integer type. -/
  | dcvtIF64 (h : Hd) (x : RF)
  /-- DCVT_F64_I (R223). Converts an integer to f64. -/
  | dcvtF64I (h : Hd) (x : RF)
  /-- FDOT2 (R225). Writes c plus two 16-bit element products with one rounding. -/
  | fdot2 (h : Hd) (x : RF)
  /-- F8DOT (R225). Writes c plus four f8 element products with one rounding. -/
  | f8dot (h : Hd) (x : RF)
  /-- F8DOT_MX (R225). Writes c plus four products of f8n by f8w elements with one rounding. -/
  | f8dotMx (h : Hd) (x : RF)
  /-- BXPK (R226). Encodes the values of 16 strands into a bx block spread over their registers. -/
  | bxpk (h : Hd) (x : RF)
  /-- BXUP (R227). Decodes each strand's element from a bx block held across strands. -/
  | bxup (h : Hd) (x : RF)
  /-- FXM_FM (R220). Writes the mantissa of a in [0.5, 1). -/
  | fxmFm (h : Hd) (x : RF)
  /-- FXM_FE (R220). Writes the exponent of a. -/
  | fxmFe (h : Hd) (x : RF)
  /-- FXM_ILOGB (R220). Writes floor(log2|a|), with fixed results for special values. -/
  | fxmIlogb (h : Hd) (x : RF)
  /-- LD (R233). Loads W bytes from each executing strand's generic address. -/
  | ld (h : Hd) (x : MF)
  /-- ST (R233). Stores W bytes to each executing strand's generic address. -/
  | st (h : Hd) (x : MF)
  /-- LDNC (R233). Loads as LD and sets the constant mark of each sector it fills. -/
  | ldnc (h : Hd) (x : MF)
  /-- LDACQ (R233). Loads reading at the home slice unless owned, and performs one acquire for the gang. -/
  | ldacq (h : Hd) (x : MF)
  /-- STREL (R233). Stores as ST as a release, sealing at issue. -/
  | strel (h : Hd) (x : MF)
  /-- LDS (R234). Loads from a cluster scratchpad address under the ownership check. -/
  | lds (h : Hd) (x : MF)
  /-- STS (R234). Stores to a cluster scratchpad address under the ownership check. -/
  | sts (h : Hd) (x : MF)
  /-- LDH (R235). Loads through a physical page handle at an offset. -/
  | ldh (h : Hd) (x : MF)
  /-- STH (R235). Stores through a physical page handle at an offset. -/
  | sth (h : Hd) (x : MF)
  /-- LDT (R236). Loads from a ready tile at an offset within its length. -/
  | ldt (h : Hd) (x : MF)
  /-- STT (R236). Stores to a tile filling with filler 1. -/
  | stt (h : Hd) (x : MF)
  /-- ATOM (R237). Applies the integer atomic operation in fn at a word, combined per word in strand order, returning old
  values. -/
  | atom (h : Hd) (x : RF)
  /-- ATOMF (R238). Applies the floating atomic operation in fn at a word with RNE rounding. -/
  | atomf (h : Hd) (x : RF)
  /-- CAS (R239). Compares the word with b and swaps in c, returning the old value. -/
  | cas (h : Hd) (x : RF)
  /-- ATOMS (R240). Applies an atomic operation at a scratchpad bank. -/
  | atoms (h : Hd) (x : RF)
  /-- FENCE (R126). Orders every earlier access of the party before every later one. -/
  | fence (h : Hd) (x : RF)
  /-- FENCE_REL (R126). Fences and acts as a release. -/
  | fenceRel (h : Hd) (x : RF)
  /-- FENCE_ACQ (R126). Fences and acts as an acquire with self-invalidation. -/
  | fenceAcq (h : Hd) (x : RF)
  /-- FENCE_AR (R126). Fences as a release followed by an acquire. -/
  | fenceAr (h : Hd) (x : RF)
  /-- FENCEX (R126). Drains the producer path's writes and invalidates the consumer side's caches. -/
  | fencex (h : Hd) (x : RF)
  /-- XLAT (R241). Translates a virtual address into a handle needing read permission. -/
  | xlat (h : Hd) (x : RF)
  /-- XLAT_W (R241). Translates a virtual address into a handle needing write permission. -/
  | xlatW (h : Hd) (x : RF)
  /-- HDROP (R242). Clears the valid bit of one handle. -/
  | hdrop (h : Hd) (x : RF)
  /-- HDROP_ALL (R242). Clears the valid bit of h0 to h15. -/
  | hdropAll (h : Hd) (x : RF)
  /-- PREF (R243). Prefetches a sector or line into L1 and the home slice, dropping faults. -/
  | pref (h : Hd) (x : MF)
  /-- PREF_L2 (R243). Prefetches a sector or line into the home slice only. -/
  | prefL2 (h : Hd) (x : MF)
  /-- PREF_EVICT (R243). Sets dead on the line where it is resident. -/
  | prefEvict (h : Hd) (x : MF)
  /-- PREF_DISCARD (R243). Invalidates the sector everywhere without writeback, as a write of unpredictable values. -/
  | prefDiscard (h : Hd) (x : MF)
  /-- CMNT_WB (R244). Merges pending path writes and writes the line's dirty sectors to memory. -/
  | cmntWb (h : Hd) (x : MF)
  /-- CMNT_WBINV (R244). Writes the line back and invalidates it at the home slice and in every L1. -/
  | cmntWbinv (h : Hd) (x : MF)
  /-- CMNT_INV1 (R244). Invalidates the line in the issuing core's L1. -/
  | cmntInv1 (h : Hd) (x : MF)
  /-- WATCH (R245). Invalidates unowned words of the line and arms the gang's monitor at its home slice. -/
  | watch (h : Hd) (x : MF)
  /-- WATCH_REGISTRATION (R245). The home slice registers the monitor and acknowledges, letting the gang issue again. -/
  | watchRegistration (id : Nat)
  /-- WAITW (R246). Issues when the monitor has fired or no monitor is armed, returning a status as an acquire. -/
  | waitw (h : Hd) (x : IF)
  /-- WAITW_TIMEOUT (R246). The WAITW timeout passes and WAITW returns with status 2. -/
  | waitwTimeout (uid : Nat)
  /-- WAITW_EARLY_RETURN (R246). The device chooses to return WAITW with status 4. -/
  | waitwEarlyReturn (uid : Nat)
  /-- FPOST (R247). Adds a count to a window flag as a release. -/
  | fpost (h : Hd) (x : RF)
  /-- FPOST_R (R247). Adds a count to a flag named by a flag address as a release. -/
  | fpostR (h : Hd) (x : RF)
  /-- FWAIT (R248). Waits until a window flag holds n, subtracts n and acts as an acquire. -/
  | fwait (h : Hd) (x : IF)
  /-- FREAD (R249). Writes a window flag's value. -/
  | fread (h : Hd) (x : RF)
  /-- FREAD_ADDR (R249). Writes the flag address of a window flag. -/
  | freadAddr (h : Hd) (x : RF)
  /-- BAR_ARRIVE (R49). Records the cohort phase in the handle and counts the gang's arrival as a release. -/
  | barArrive (h : Hd) (x : RF)
  /-- BAR_WAIT (R49). Issues once the cohort's phase differs from the recorded one, as an acquire. -/
  | barWait (h : Hd) (x : RF)
  /-- TDEF (R251). Writes a tile-table entry's fields from a descriptor, sets def and leaves it empty. -/
  | tdef (h : Hd) (x : RF)
  /-- TACQ_OWN (R252). Takes an empty tile into filling with filler 1. -/
  | tacqOwn (h : Hd) (x : RF)
  /-- TACQ_PUB (R252). Sets len, merges the gang's writes and makes the tile ready. -/
  | tacqPub (h : Hd) (x : RF)
  /-- TACQ_REL (R252). Moves a ready tile to draining. -/
  | tacqRel (h : Hd) (x : RF)
  /-- TILE_DRAIN_COMPLETE (R96). Every read issued before draining completes and the tile becomes empty. -/
  | tileDrainComplete (core entry : Nat)
  /-- SPAWN (R254). Reserves room and sends one record per executing strand to a node's bin with grants, as a release. -/
  | spawn (h : Hd) (x : IF)
  /-- SPAWN_ONE (R253). Sends one record from the lowest executing strand to a node's bin. -/
  | spawnOne (h : Hd) (x : IF)
  /-- FUT_RES (R255). Resolves a future with a value at its home slice, per strand. -/
  | futRes (h : Hd) (x : RF)
  /-- FUT_POISON (R255). Poisons a future at its home slice. -/
  | futPoison (h : Hd) (x : RF)
  /-- FUT_JOIN (R255). Joins a future onto a join cell. -/
  | futJoin (h : Hd) (x : RF)
  /-- FUT_POLL (R255). Reads a future's word without change. -/
  | futPoll (h : Hd) (x : RF)
  /-- HOME_SLICE_JOIN (R53). The home slice applies a join to the future word and answers with a status. -/
  | homeSliceJoin (id : Nat)
  /-- HOME_SLICE_RESOLVE (R53). The home slice applies a resolve or poison to the future and sends any cell decrement. -/
  | homeSliceResolve (id : Nat)
  /-- CELL_DECREMENT (R53). The cell's home slice decrements the join cell and delivers its record when the count reaches
  zero. -/
  | cellDecrement (id : Nat)
  /-- GREC_TS (R257). Writes the record's arrival time in dl layout. -/
  | grecTs (h : Hd) (x : RF)
  /-- GREC_TSX (R257). Writes the high seconds and fraction of the record's arrival time. -/
  | grecTsx (h : Hd) (x : RF)
  /-- GREC_SRC (R257). Writes the record's source and granted bit. -/
  | grecSrc (h : Hd) (x : RF)
  /-- GREC_WORD (R257). Writes record word j. -/
  | grecWord (h : Hd) (x : RF)
  /-- RDTM (R259). Samples device time into dl layout. -/
  | rdtm (h : Hd) (x : RF)
  /-- RDTM_X (R259). Samples the high seconds and fraction of device time. -/
  | rdtmX (h : Hd) (x : RF)
  /-- RDTM_Q (R259). Samples full device time into four registers. -/
  | rdtmQ (h : Hd) (x : RF)
  /-- PBR (R263). Writes a PC-relative target into a b-register. -/
  | pbr (h : Hd) (x : IF)
  /-- PBRR (R264). Writes a register value into a b-register. -/
  | pbrr (h : Hd) (x : RF)
  /-- PBRR_GET (R264). Copies a b-register into a general register. -/
  | pbrrGet (h : Hd) (x : RF)
  /-- BR (R35). Branches per strand, pushing a divergence entry when the gang splits. -/
  | br (h : Hd) (x : BF)
  /-- BR_ANY (R265). Branches the whole gang when the guard holds in any active strand. -/
  | brAny (h : Hd) (x : BF)
  /-- BR_ALL (R265). Branches the whole gang when the guard holds in every active strand. -/
  | brAll (h : Hd) (x : BF)
  /-- JOIN (R36). Switches to the other path or pops the divergence entry and rejoins. -/
  | join (h : Hd) (x : BF)
  /-- CALL (R267). Writes the next address to the link register and continues at the target. -/
  | call (h : Hd) (x : BF)
  /-- RET (R268). Continues at the address in a b-register. -/
  | ret (h : Hd) (x : BF)
  /-- EXIT (R37). Ends the guarded active strands, settles empty masks, and exits the gang when nmask is zero. -/
  | exit (h : Hd) (x : BF)
  /-- SLOT_RELEASE (R37). An exited gang's slot, window and tiles are freed once its engine and matrix commands complete. -/
  | slotRelease (uid : Nat)
  /-- FUSE (R270). Collapses a converged gang into one VLIW thread with an implicit CONT. -/
  | fuse (h : Hd) (x : BF)
  /-- LANE_GROUP_ACQUIRE (R30). A ready VLIW thread takes its lane group when permitted by state and vres. -/
  | laneGroupAcquire (uid : Nat)
  /-- SPLIT (R271). Reverses FUSE after results land and resumes SIMT with an implicit CONT. -/
  | split (h : Hd) (x : BF)
  /-- LOOP (R272). Pushes a software-pipelined loop entry. -/
  | loop (h : Hd) (x : IF)
  /-- LEND (R273). Advances the top loop entry after the bundle's slots issue. -/
  | lend (h : Hd) (x : BF)
  /-- LEND_POP (R273). Pops the top loop entry. -/
  | lendPop (h : Hd) (x : BF)
  /-- LEND_BRK (R273). Pops the loop entry and branches when cluster 0's guard holds. -/
  | lendBrk (h : Hd) (x : BF)
  /-- CONT (R62). Sets cp to a PC-relative label and cpm, and snapshots live registers into the shadow. -/
  | cont (h : Hd) (x : IF)
  /-- CONT_B (R62). Sets cp from a b-register and cpm, and snapshots live registers. -/
  | contB (h : Hd) (x : IF)
  /-- BGT_TOP (R79). Moves budget from the context's pool to the gang, needing the top-up capability. -/
  | bgtTop (h : Hd) (x : IF)
  /-- BGT_REL (R79). Moves budget from the gang to the context's pool. -/
  | bgtRel (h : Hd) (x : IF)
  /-- YIELD (R69). Requests a yield of the gang. -/
  | yield (h : Hd) (x : BF)
  /-- TRAP (R275). Raises the software TRAP cause with a code. -/
  | trap (h : Hd) (x : IF)
  /-- TRAP_BKPT (R275). Raises the breakpoint cause, resuming at the TRAP itself. -/
  | trapBkpt (h : Hd) (x : IF)
  /-- RDCTR (R277). Reads counter 0-13 at its issue, counting only older issues. -/
  | rdctr (h : Hd) (x : RF)
  /-- PRIV_MFP (R278). Reads a privileged special register. -/
  | privMfp (h : Hd) (x : RF)
  /-- PRIV_MTP (R278). Writes a privileged special register as its map gives. -/
  | privMtp (h : Hd) (x : RF)
  /-- PRIV_INVAL (R278). Shoots down a virtual page range of the issuing context. -/
  | privInval (h : Hd) (x : RF)
  /-- PRIV_YREQ (R278). Sends a scheduler write of ib := 0 to a gang of the context in a named slot. -/
  | privYreq (h : Hd) (x : RF)
  /-- TRET (R276). Returns from the handler to the trap record's resume address. -/
  | tret (h : Hd) (x : BF)
  /-- TRET_SKIP (R276). Returns from the handler past the trapping instruction or bundle. -/
  | tretSkip (h : Hd) (x : BF)
  /-- LDX (R280). Loads at any alignment as a microcoded legacy sequence. -/
  | ldx (h : Hd) (x : MF)
  /-- STX (R280). Stores at any alignment as a microcoded legacy sequence. -/
  | stx (h : Hd) (x : MF)
  /-- LDX_PI (R280). Loads at any alignment and post-increments the base. -/
  | ldxPi (h : Hd) (x : MF)
  /-- STX_PI (R280). Stores at any alignment and post-increments the base. -/
  | stxPi (h : Hd) (x : MF)
  /-- BRX (R281). Branches the gang indirectly to a register target. -/
  | brx (h : Hd) (x : RF)
  /-- ATMX (R281). Sets the active mask to a AND nmask and returns the old mask. -/
  | atmx (h : Hd) (x : RF)
  /-- MMA (R285). Queues z += A times B from two ready tiles. -/
  | mma (h : Hd) (x : EF)
  /-- MMAG (R287). Queues z += A times B with A gathered from scratchpad rows at issue. -/
  | mmag (h : Hd) (x : EF)
  /-- ZLD (R289). Queues a load of an accumulator tile from a ready tile. -/
  | zld (h : Hd) (x : EF)
  /-- ZST (R289). Queues a store of an accumulator tile to a tile filling with filler 1. -/
  | zst (h : Hd) (x : EF)
  /-- ZCLR (R290). Queues a fill of an accumulator tile with +0, -inf or +inf. -/
  | zclr (h : Hd) (x : EF)
  /-- ZROW_RD (R291). Reads one accumulator row into registers at issue when the tile is not pending. -/
  | zrowRd (h : Hd) (x : EF)
  /-- ZROW_WR (R291). Queues a write of one accumulator row from registers. -/
  | zrowWr (h : Hd) (x : EF)
  /-- MATRIX_START (R283). The matrix engine takes the chosen queue head and starts it, reading operands at the start cycle. -/
  | matrixStart (core : Nat)
  /-- MATRIX_COMPLETION (R283). A matrix-class instruction completes, clears pending and posts its flag. -/
  | matrixCompletion (core : Nat)
  /-- COPY (R294). Offers a block copy described by staging registers to the slot's copy engine. -/
  | copy (h : Hd) (x : EF)
  /-- STRM_IN (R296). Offers a stream of chunks from memory into a ring of tiles. -/
  | strmIn (h : Hd) (x : EF)
  /-- STRM_OUT (R296). Offers a stream of chunks from a ring of tiles to memory. -/
  | strmOut (h : Hd) (x : EF)
  /-- NETX (R297). Offers the transmission of one Ethernet frame from a ready tile to a port's egress queue. -/
  | netx (h : Hd) (x : EF)
  /-- GSET (R293). Sets a staging register. -/
  | gset (h : Hd) (x : RF)
  /-- ESTS_Q (R298). Reads the counts of the gang's outstanding engine and matrix commands. -/
  | estsQ (h : Hd) (x : RF)
  /-- ESTS_ERR (R298). Reads and clears the gang's engine error word. -/
  | estsErr (h : Hd) (x : RF)
  /-- ENGINE_COMMAND_TAKE_UP (R292). An engine takes up a queued command once its tiles are in their required states. -/
  | engineCommandTakeUp (id : Nat)
  /-- ENGINE_COMMAND_COMPLETION (R292). A command ends, merges its writes, resolves its future and posts its flag, recording
  any failure. -/
  | engineCommandCompletion (id : Nat)
  /-- STRM_CHUNK_END (R296). One stream chunk finishes, its tile changes state and the flag is posted. -/
  | strmChunkEnd (id : Nat)
  /-- NETX_FRAME_SENT (R297). The frame is transmitted with its timestamp, the tile drains and the command completes. -/
  | netxFrameSent (id : Nat)
  /-- BUNDLE (R169). Checks, waits for sync and tile conditions, charges and issues all slots of a bundle, then posts and
  sets the next address. -/
  | bundle (hdr : BitVec 64) (words : List (BitVec 64))
  /-- FAULT_ENTRY_DEFERRED (R384). A waiting fault's entry is written once the queue or unit has room. -/
  | faultEntryDeferred (ctx : Nat)
  /-- WALK_COMPLETION (R91). A page walk completes, making a pending handle valid or parking the requester. -/
  | walkCompletion (id : Nat)
  /-- ATOMIC_APPLY (R103). The home slice or bank applies a combined atomic request in ascending strand order. -/
  | atomicApply (id : Nat)
  /-- STORE_REGISTRATION (R120). The home slice applies a store, takes ownership of its words and sends revocations. -/
  | storeRegistration (id : Nat)
  /-- REVOCATION (R120). A core receiving a revocation clears the word's ownership and invalidates its sector. -/
  | revocation (id : Nat)
  /-- LOAD_RESULT_RETURN (R231). An off-core load's bytes return and are written to the destination, marked if poisoned. -/
  | loadResultReturn (id : Nat)
  /-- DECOUPLED_ACCESS_COMPLETION (R173). A code-15 access completes and posts 1 to its window flag. -/
  | decoupledAccessCompletion (id : Nat)
  /-- PATH_WRITE_MERGE (R127). The device merges a path write, making it visible to other paths. -/
  | pathWriteMerge (n : Nat)
  /-- REMOTE_FLAG_POST (R101). A remote post reaches its target core and is applied or discarded and logged. -/
  | remoteFlagPost (id : Nat)
  /-- FABRIC_ACCESS_AT_TARGET (R406). A fabric access arrives at the target, which applies it through the export or refuses
  it. -/
  | fabricAccessAtTarget (acc : FabricAccess)
  /-- AUDIT_RESULT (R111). The tenant unit applies an audit pass or failure to the tenant's honesty score. -/
  | auditResult (n : Nat)
  /-- AUDIT_AGE_EXPIRY (R111). An audited line's age passes the declared bound, failing the audit. -/
  | auditAgeExpiry (slice set way : Nat)
  /-- RECORD_APPEND (R44). A bin controller cycle appends arriving records, evaluates triggers and forms a launch. -/
  | recordAppend (ctx node : Nat)
  /-- BIN_TIMER_EXPIRY (R44). The oldest record's wait reaches the node's timer and a launch forms. -/
  | binTimerExpiry (ctx node : Nat)
  /-- OVERFLOW_RETURN (R45). Records return from the overflow area to the bin in arrival order as room frees. -/
  | overflowReturn (ctx : Nat)
  /-- WAITER_PLACEMENT (R47). The first placeable waiting launch or resumption is placed in a slot and initialised or
  restored. -/
  | waiterPlacement (cluster : Nat)
  /-- SCHEDULER_WRITE_DELIVERY (R68). A scheduler write reaches the gang's core, zeroing ib and returning it to the pool. -/
  | schedulerWriteDelivery (n : Nat)
  /-- DEADLINE_REACHED (R80). At a device-time tick reaching a nonzero dl, dl clears and the gang is sent toward dcp. -/
  | deadlineReached (uid : Nat)
  /-- YIELD_SEQUENCE (R71). The gang stops, drains, returns its budgets, writes a yield record and frees its slot. -/
  | yieldSequence (uid : Nat)
  /-- YIELD_RECORD_FREED (R350). A yield waiting at step 5 proceeds when a yield record frees. -/
  | yieldRecordFreed (uid : Nat)
  /-- CORRECTABLE_ERROR_FREEZE (R114). A correctable SRAM error freezes the core for 20 cycles. -/
  | correctableErrorFreeze (core : Nat)
  /-- FREEZE_END (R114). The 20-cycle freeze ends and held arrivals are applied in order. -/
  | freezeEnd (core : Nat)
  /-- UNCORRECTABLE_ERROR (R388). An uncorrectable error poisons, invalidates or kills as its store requires. -/
  | uncorrectableError (site : ErrSite)
  /-- FULL_SAVE (R347). A resident gang drains and writes its five save regions, freeing tiles and window. -/
  | fullSave (uid : Nat)
  /-- FULL_RESTORE (R351). A saved gang returns to its core and slot with the same flag window. -/
  | fullRestore (uid : Nat)
  /-- WORLD_SWITCH (R353). At the end of a slice, admission of the outgoing function stops and its gangs are saved. -/
  | worldSwitch (vfOut vfIn : Nat)
  /-- SLICE_WRITE (R354). A write of slice recomputes the effective slice and clamp. -/
  | sliceWrite (who : Who) (vf : Nat) (v : BitVec 64)
  /-- PERCALE_PASS (R362). Percale fetches one packet per resident lane and runs the type groups in fixed order. -/
  | percalePass
  /-- RESIDENCY_QUANTUM (R363). At each 50 us quantum the resident queues are rechosen. -/
  | residencyQuantum
  /-- DISPATCH (R365). Appends a launch's records to the node's bin after cohort admission. -/
  | dispatch (q : Nat)
  /-- DISPATCH_DEFINE (R368). Installs a node table entry from 64 bytes under the checks of R43. -/
  | dispatchDefine (q : Nat)
  /-- LOCKSTEP (R370). Places and holds one gang per named core with code loaded and presets written. -/
  | lockstep (q : Nat)
  /-- LOCKSTEP_RELEASE (R371). All held gangs issue in one common cycle at or after the release time. -/
  | lockstepRelease (launch : Nat)
  /-- RECORD_PACKET (R369). Appends one host record to a node's bin. -/
  | recordPacket (q : Nat)
  /-- COPY_PACKET (R372). Queues a 1-D copy on the named engine after an implicit host-to-copy fence. -/
  | copyPacket (q : Nat)
  /-- WAITFLAG (R372). Makes the queue wait until a flag holds n, optionally consuming it. -/
  | waitflag (q : Nat)
  /-- WAITMEM (R372). Makes the queue wait until a masked memory word meets a condition. -/
  | waitmem (q : Nat)
  /-- WAIT_CONDITION_MET (R372). A waiting WAITFLAG or WAITMEM finds its condition holding and completes. -/
  | waitConditionMet (q : Nat)
  /-- WAIT_TIMEOUT (R372). A WAITFLAG or WAITMEM times out with status 7. -/
  | waitTimeout (q : Nat)
  /-- SIGNAL_WRITE (R372). Writes a 64-bit word at its home slice. -/
  | signalWrite (q : Nat)
  /-- SIGNAL_ADD (R372). Atomically adds to a 64-bit word at its home slice. -/
  | signalAdd (q : Nat)
  /-- SIGNAL_RESOLVE (R372). Resolves a future. -/
  | signalResolve (q : Nat)
  /-- SIGNAL_POISON (R372). Poisons a future. -/
  | signalPoison (q : Nat)
  /-- SIGNAL_POST (R372). Posts a count to a flag. -/
  | signalPost (q : Nat)
  /-- TIMESTAMP (R372). Writes device time in RDTM.q layout. -/
  | timestamp (q : Nat)
  /-- BUDGET_ADD (R372). Adds the amounts to the context's pools, saturating. -/
  | budgetAdd (q : Nat)
  /-- BUDGET_SET (R372). Sets the context's pools to the amounts. -/
  | budgetSet (q : Nat)
  /-- BUDGET_RECLAIM (R372). Sends a scheduler write of ib := 0 to every resident gang of the context. -/
  | budgetReclaim (q : Nat)
  /-- DEADLINE (R372). Sets dl and dcp of every gang of an earlier outstanding launch. -/
  | deadline (q : Nat)
  /-- LAUNCH_COMPLETION (R373). When all gangs and commands of a launch have ended, its writes merge and its record is
  written. -/
  | launchCompletion (launch : Nat)
  /-- INTERRUPT_DELAY_EXPIRY (R374). The oldest pending record has waited dly and the vector fires. -/
  | interruptDelayExpiry (q : Nat)
  /-- DOORBELL (R358). A write of wptr makes the queue pending, or puts it in error when it exceeds the ring. -/
  | doorbell (who : Who) (q : Nat) (v : BitVec 64)
  /-- QUEUE_ENABLE (R358). A write of en enables or disables the queue, skipping packets when leaving error. -/
  | queueEnable (who : Who) (q : Nat) (v : BitVec 64)
  /-- CONTEXT_CREATE (R357). A write of live = 1 creates the context and sets cctl and ctxid. -/
  | contextCreate (who : Who) (ctx : Nat) (v : BitVec 64)
  /-- CONTEXT_DESTROY (R357). A write of live = 0 kills every gang of the context and discards its state. -/
  | contextDestroy (who : Who) (ctx : Nat) (v : BitVec 64)
  /-- FAULT_RETIRE (R385). A write of retid retires one fault and replays its waiters. -/
  | faultRetire (who : Who) (ctx : Nat) (v : BitVec 64)
  /-- FAULT_RETIRE_ALL (R385). A write of retall retires every outstanding fault of the context. -/
  | faultRetireAll (who : Who) (ctx : Nat) (v : BitVec 64)
  /-- HOST_SHOOTDOWN (R381). A write to the shootdown register starts a shootdown of the range. -/
  | hostShootdown (who : Who) (ctx : Nat) (v : BitVec 64)
  /-- SLOT_PIN (R340). A write of pin = 1 pins a slot to a context or is refused. -/
  | slotPin (who : Who) (core k : Nat) (v : BitVec 64)
  /-- SLOT_UNPIN (R340). A write of pin = 0 empties the slot's tile entries. -/
  | slotUnpin (who : Who) (core k : Nat) (v : BitVec 64)
  /-- FORMAT_WINDOW_ENABLE (R148). A write of en = 1 to a format window is checked and accepted or refused. -/
  | formatWindowEnable (who : Who) (mc n : Nat) (v : BitVec 64)
  /-- FILTER_ENABLE (R400). A write of en = 1 to a receive filter is checked and accepted or refused, setting cur. -/
  | filterEnable (who : Who) (pp f : Nat) (v : BitVec 64)
  /-- PORT_BREAKOUT (R399). A write changing brk drops the port's links and retrains it. -/
  | portBreakout (who : Who) (pp : Nat) (v : BitVec 64)
  /-- LINK_UP (R399). A logical Ethernet port's link comes up and its up bit is set. -/
  | linkUp (lport : Nat)
  /-- FRAME_FIRST_BYTE (R401). A received frame is matched to a filter and its ring tile becomes filling, or it is dropped. -/
  | frameFirstByte (lport : Nat) (frame : List (BitVec 8))
  /-- FRAME_END (R401). A received frame completes: the tile becomes ready and a record is sent, or it fails and the tile is
  emptied. -/
  | frameEnd (lport : Nat) (good : Bool)
  /-- PTP_MESSAGE (R404). A PTP message on the configured port is taken by the 1588 clock. -/
  | ptpMessage (lport : Nat) (frame : List (BitVec 8))
  /-- ASSIGNMENT_WRITE (R392). A write to the assignment table gives a queue or context to a function, or is refused. -/
  | assignmentWrite (who : Who) (off : Nat) (v : BitVec 64)
  /-- HOST_WRITE (R396). A host write through a BAR is performed, or discarded with the port frozen in a guarded range. -/
  | hostWrite (port : Nat) (req : HostReq)
  /-- SEMAPHORE_ACQUIRE (R395). A write of acq takes a free semaphore for the writing port. -/
  | semaphoreAcquire (port sem : Nat)
  /-- SEMAPHORE_RELEASE (R395). A write of rel frees a semaphore the writing port owns. -/
  | semaphoreRelease (port sem : Nat)
  /-- PORT_UNFREEZE (R397). A write of unfrz from the other port releases a frozen port. -/
  | portUnfreeze (port target : Nat)
  /-- FUNCTION_LEVEL_RESET (R397). Resets one function, releasing a frozen port after 100 ms. -/
  | functionLevelReset (port fn : Nat)
  /-- TIME_ADJUST (R402). A write of adj steps device time forward or slews it back. -/
  | timeAdjust (who : Who) (v : BitVec 64)
  /-- TIME_SET (R402). A write of tset sets device time and tvalid while tvalid is clear. -/
  | timeSet (who : Who) (v : BitVec 64)
  /-- DEVICE_TIME_LATCH_READ (R402). A read of the ns word latches the whole time. -/
  | deviceTimeLatchRead (who : Who)
  /-- TENANT_FAILS_READ (R113). A read of fails returns and clears the tenant's audit failures. -/
  | tenantFailsRead (who : Who) (t : Nat)
  /-- PORT_COUNTER_READ (R399). A read of a port's drop counters returns and clears them. -/
  | portCounterRead (who : Who) (pp off : Nat)
  /-- THROTTLE_COUNT_READ (R436). A read of thr returns and clears the count of clock changes. -/
  | throttleCountRead (who : Who)
  /-- COUNTER_VALUE_WRITE (R411). A host write replaces a programmable counter's value. -/
  | counterValueWrite (who : Who) (core n : Nat) (v : BitVec 64)
  /-- GINGHAM_CLEAR (R415). A write of clr zeroes every Gingham count of the core. -/
  | ginghamClear (who : Who) (core : Nat) (v : BitVec 64)
  /-- DEBUG_STOP (R418). A write of stop requests a stop of the named decoders. -/
  | debugStop (who : Who) (core : Nat) (v : BitVec 64)
  /-- DEBUG_STOP_EFFECT (R419). At cycle S the named decoders stop and dump records are written. -/
  | debugStopEffect (core : Nat)
  /-- DEBUG_GO (R419). A write of go releases the stop. -/
  | debugGo (who : Who) (core : Nat) (v : BitVec 64)
  /-- DEBUG_DATA_WRITE (R421). A write of dbdata sets a register of a stopped gang or sets dberr. -/
  | debugDataWrite (who : Who) (core : Nat) (v : BitVec 64)
  /-- MODULE_RESET (R430). Power-on or PERST# resets the module and runs the boot sequence. -/
  | moduleReset
  /-- RECOVERY_PROGRAM (R431). A write of rgo programs slot 1 from the recovery window and resets. -/
  | recoveryProgram (who : Who)
  /-- FIRMWARE_UPDATE (R432). A host write through Percale places a new image in slot 0 for the next reset. -/
  | firmwareUpdate (image : List (BitVec 8))
  /-- ATTESTATION_REPORT (R433). A go with op 0 produces a signed report with the nonce. -/
  | attestationReport (who : Who)
  /-- RAISE_ROLLBACK_FLOOR (R433). A go with op 1 raises the fused floor to the running image's index. -/
  | raiseRollbackFloor (who : Who)
  /-- THROTTLE_CHANGE (R435). Power or temperature conditions change the core clock on every core at once. -/
  | throttleChange (step : Nat) (power junction coolant : Bool)
  /-- THERMAL_TRIP (R437). A junction at 110 C stops issue, withdraws links and holds the device in reset. -/
  | thermalTrip
  /-- REGISTER_WRITE (R8). A write to a register field with no behaviour of its own sets it as its access type gives. -/
  | registerWrite (who : Who) (addr : Nat) (v : BitVec 64)
  /-- LINK_DOWN (R399). A logical Ethernet port loses its link, its up bit clears, and NETX to it fails with code 4. -/
  | linkDown (lport : Nat)
  /-- FABRIC_LINK_DOWN (R414). A Sprinras link goes down and the port's link-down counter counts the event. -/
  | fabricLinkDown (port : Nat)
  /-- MUSLIN_REPLAY_INJECTION (R425). In replay mode the device injects the next logged packet, frame or host write into the
  context, in log order. -/
  | muslinReplayInjection (ctx : Nat)
  /-- TIME_SLEW_END (R402). A negative adj applied as a -500 ppm slew is used up, and device time returns to its configured
  rate. -/
  | timeSlewEnd
  deriving DecidableEq, Repr

end Sys2Proof
end

