-- ==== Sys2Proof/WellFormed.lean ====
section
/-! DEFINITION. When a term of Instr stands for an instruction at all: its function code, or the field that selects its form,
is one that its constructor's row has (R178, first row), and a bundle carries as many slot words as its header announces
(R163). What the remaining fields may hold is the decoder's check, Instr.legal in Decode.lean. -/

namespace Sys2Proof

/-- The number of slot words that a bundle header announces: lane bits 56:41 and the bits of m0, m1, e, b, x and i (R163). -/
def headerSlots (hdr : BitVec 64) : Nat :=
  (List.range 22).foldl (fun n k => if hdr.getLsbD (35 + k) then n + 1 else n) 0

/-- The function code, or the form field, belongs to the constructor. Events have no encoding and are always well formed. -/
def Instr.wf (i : Instr) : Bool :=
  match i with
  | .nop _ x => x.fn == 0#8
  | .nopPause _ x => x.fn == 1#8
  | .pauseExpiry _ => true
  | .iadd _ x => x.fn == 0#8
  | .iaddAddc _ x => x.fn == 1#8
  | .iaddSub _ x => x.fn == 2#8
  | .iaddSubb _ x => x.fn == 3#8
  | .iaddRsub _ x => x.fn == 4#8
  | .imul _ x => x.fn == 0#8
  | .imulHi _ x => x.fn == 1#8
  | .imulWide _ x => x.fn == 2#8
  | .imad _ x => x.fn == 0#8
  | .imadWide _ x => x.fn == 1#8
  | .idiv _ x => x.fn == 0#8
  | .idivRem _ x => x.fn == 1#8
  | .imnx _ x => x.fn == 0#8
  | .imnxMax _ x => x.fn == 1#8
  | .iabs _ x => x.fn == 0#8
  | .iabsNeg _ x => x.fn == 1#8
  | .iabsSad _ x => x.fn == 2#8
  | .iclmp _ x => x.fn == 0#8
  | .and _ x => x.fn == 0#8
  | .andNot _ x => x.fn == 1#8
  | .or _ x => x.fn == 0#8
  | .orNot _ x => x.fn == 1#8
  | .xor _ x => x.fn == 0#8
  | .xorNot _ x => x.fn == 1#8
  | .lut3 _ _ => true
  | .shl _ x => x.fn == 0#8
  | .shr _ x => x.fn == 0#8
  | .shrAr _ x => x.fn == 1#8
  | .rot _ x => x.fn == 0#8
  | .rotRr _ x => x.fn == 1#8
  | .rotShfl _ x => x.fn == 2#8
  | .rotShfr _ x => x.fn == 3#8
  | .popc _ x => x.fn == 0#8
  | .clz _ x => x.fn == 0#8
  | .clzCtz _ x => x.fn == 1#8
  | .clzCls _ x => x.fn == 2#8
  | .brev _ x => x.fn == 0#8
  | .brevByte _ x => x.fn == 1#8
  | .bfx _ x => x.fn == 0#8
  | .bfi _ x => x.fn == 0#8
  | .prmt _ x => x.fn == 0#8
  | .pack _ x => x.fn == 0#8
  | .packSs _ x => x.fn == 1#8
  | .packNn _ x => x.fn == 2#8
  | .icmp _ x => x.fn.toNat < 6
  | .sel _ x => x.fn == 0#8
  | .plog _ _ => true
  | .movi _ x => x.fn == 0#4
  | .moviX64 _ x => x.fn == 1#4
  | .movh _ x => x.fn == 0#4
  | .movhX32 _ x => x.fn == 1#4
  | .mov _ x => x.fn == 0#8
  | .movBc _ x => x.fn == 1#8
  | .xmov _ x => x.fn == 2#8
  | .lea _ x => x.fn == 0#8
  | .leaN _ x => x.fn == 1#8
  | .idot _ x => x.fn == 0#8
  | .idotH _ x => x.fn == 1#8
  | .mfs _ x => x.fn == 0#8
  | .mts _ x => x.fn == 0#8
  | .voteAny _ x => x.fn == 0#8
  | .voteAll _ x => x.fn == 1#8
  | .voteBallot _ x => x.fn == 2#8
  | .voteCount _ x => x.fn == 3#8
  | .voteFirst _ x => x.fn == 4#8
  | .rdlane _ x => x.fn == 0#8
  | .wrlane _ x => x.fn == 0#8
  | .shuf _ x => x.fn == 0#8
  | .shufRot _ x => x.fn == 1#8
  | .shufXor _ x => x.fn == 2#8
  | .shufRev _ x => x.fn == 3#8
  | .patld _ x => x.fn.toNat < 4
  | .patsw _ x => x.fn.toNat < 4
  | .gred _ x => x.fn.toNat < 11
  | .gscan _ x => (x.fn.toNat < 11 || (16 ≤ x.fn.toNat && x.fn.toNat < 27))
  | .fadd _ x => x.fn == 0#8
  | .faddSub _ x => x.fn == 1#8
  | .fmul _ x => x.fn == 0#8
  | .ffma _ x => x.fn == 0#8
  | .ffmaMs _ x => x.fn == 1#8
  | .ffmaNm _ x => x.fn == 2#8
  | .fmnx _ x => x.fn == 0#8
  | .fmnxMax _ x => x.fn == 1#8
  | .fmnxMinn _ x => x.fn == 2#8
  | .fmnxMaxn _ x => x.fn == 3#8
  | .fcmp _ x => x.fn.toNat < 8
  | .fcls _ x => x.fn == 0#8
  | .fclsP _ x => x.fn == 1#8
  | .fscl _ x => x.fn == 0#8
  | .frnd _ x => x.fn == 0#8
  | .fdiv _ x => x.fn == 0#8
  | .fsqrt _ x => x.fn == 0#8
  | .sfu _ x => x.fn.toNat < 8
  | .fcvt _ x => x.fn.toNat < 16
  | .f2i _ x => x.fn.toNat < 8
  | .i2f _ x => x.fn.toNat < 8
  | .dadd _ x => x.fn == 0#8
  | .daddSub _ x => x.fn == 1#8
  | .dmul _ x => x.fn == 0#8
  | .dfma _ x => x.fn == 0#8
  | .dfmaMs _ x => x.fn == 1#8
  | .dfmaNm _ x => x.fn == 2#8
  | .dcmp _ x => x.fn.toNat < 8
  | .dcvtF32F64 _ x => x.fn == 0#8
  | .dcvtF64F32 _ x => x.fn == 1#8
  | .dcvtIF64 _ x => x.fn == 2#8
  | .dcvtF64I _ x => x.fn == 3#8
  | .fdot2 _ x => x.fn == 0#8
  | .f8dot _ x => x.fn == 0#8
  | .f8dotMx _ x => x.fn == 1#8
  | .bxpk _ x => x.fn.toNat < 2
  | .bxup _ x => x.fn.toNat < 2
  | .fxmFm _ x => x.fn == 0#8
  | .fxmFe _ x => x.fn == 1#8
  | .fxmIlogb _ x => x.fn == 2#8
  | .ld _ _ => true
  | .st _ _ => true
  | .ldnc _ _ => true
  | .ldacq _ _ => true
  | .strel _ _ => true
  | .lds _ _ => true
  | .sts _ _ => true
  | .ldh _ _ => true
  | .sth _ _ => true
  | .ldt _ _ => true
  | .stt _ _ => true
  | .atom _ x => x.fn.toNat < 11
  | .atomf _ x => x.fn.toNat < 5
  | .cas _ x => x.fn == 0#8
  | .atoms _ x => (x.fn.toNat < 11 || x.fn == 0x10#8 || (0x20 ≤ x.fn.toNat && x.fn.toNat < 0x23))
  | .fence _ x => x.fn == 0#8
  | .fenceRel _ x => x.fn == 1#8
  | .fenceAcq _ x => x.fn == 2#8
  | .fenceAr _ x => x.fn == 3#8
  | .fencex _ x => x.fn == 16#8
  | .xlat _ x => x.fn == 0#8
  | .xlatW _ x => x.fn == 1#8
  | .hdrop _ x => x.fn == 0#8
  | .hdropAll _ x => x.fn == 1#8
  | .pref _ x => x.d.extractLsb' 0 2 == 0#2
  | .prefL2 _ x => x.d.extractLsb' 0 2 == 1#2
  | .prefEvict _ x => x.d.extractLsb' 0 2 == 2#2
  | .prefDiscard _ x => x.d.extractLsb' 0 2 == 3#2
  | .cmntWb _ x => x.d.extractLsb' 0 2 == 0#2
  | .cmntWbinv _ x => x.d.extractLsb' 0 2 == 1#2
  | .cmntInv1 _ x => x.d.extractLsb' 0 2 == 2#2
  | .watch _ _ => true
  | .watchRegistration _ => true
  | .waitw _ x => x.fn == 0#4
  | .waitwTimeout _ => true
  | .waitwEarlyReturn _ => true
  | .fpost _ x => x.fn == 0#8
  | .fpostR _ x => x.fn == 1#8
  | .fwait _ x => x.fn == 0#4
  | .fread _ x => x.fn == 0#8
  | .freadAddr _ x => x.fn == 1#8
  | .barArrive _ x => x.fn == 0#8
  | .barWait _ x => x.fn == 1#8
  | .tdef _ x => x.fn == 0#8
  | .tacqOwn _ x => x.fn == 0#8
  | .tacqPub _ x => x.fn == 1#8
  | .tacqRel _ x => x.fn == 2#8
  | .tileDrainComplete _ _ => true
  | .spawn _ x => x.fn == 0#4
  | .spawnOne _ x => x.fn == 1#4
  | .futRes _ x => x.fn == 0#8
  | .futPoison _ x => x.fn == 1#8
  | .futJoin _ x => x.fn == 2#8
  | .futPoll _ x => x.fn == 3#8
  | .homeSliceJoin _ => true
  | .homeSliceResolve _ => true
  | .cellDecrement _ => true
  | .grecTs _ x => x.fn == 0#8
  | .grecTsx _ x => x.fn == 1#8
  | .grecSrc _ x => x.fn == 2#8
  | .grecWord _ x => x.fn == 3#8
  | .rdtm _ x => x.fn == 0#8
  | .rdtmX _ x => x.fn == 1#8
  | .rdtmQ _ x => x.fn == 2#8
  | .pbr _ x => x.fn == 0#4
  | .pbrr _ x => x.fn == 0#8
  | .pbrrGet _ x => x.fn == 1#8
  | .br _ x => x.fn == 0#4
  | .brAny _ x => x.fn == 1#4
  | .brAll _ x => x.fn == 2#4
  | .join _ x => x.fn == 0#4
  | .call _ x => x.fn == 0#4
  | .ret _ x => x.fn == 0#4
  | .exit _ x => x.fn == 0#4
  | .slotRelease _ => true
  | .fuse _ x => x.fn == 0#4
  | .laneGroupAcquire _ => true
  | .split _ x => x.fn == 0#4
  | .loop _ x => x.fn == 0#4
  | .lend _ x => x.fn == 0#4
  | .lendPop _ x => x.fn == 1#4
  | .lendBrk _ x => x.fn == 2#4
  | .cont _ x => x.fn == 0#4
  | .contB _ x => x.fn == 1#4
  | .bgtTop _ x => x.fn == 0#4
  | .bgtRel _ x => x.fn == 1#4
  | .yield _ x => x.fn == 0#4
  | .trap _ x => x.fn == 0#4
  | .trapBkpt _ x => x.fn == 1#4
  | .rdctr _ x => x.fn == 0#8
  | .privMfp _ x => x.fn == 0#8
  | .privMtp _ x => x.fn == 1#8
  | .privInval _ x => x.fn == 2#8
  | .privYreq _ x => x.fn == 3#8
  | .tret _ x => x.fn == 0#4
  | .tretSkip _ x => x.fn == 1#4
  | .ldx _ x => x.queue == 0#2
  | .stx _ x => x.queue == 1#2
  | .ldxPi _ x => x.queue == 2#2
  | .stxPi _ x => x.queue == 3#2
  | .brx _ x => x.fn == 0#8
  | .atmx _ x => x.fn == 1#8
  | .mma _ _ => true
  | .mmag _ _ => true
  | .zld _ _ => true
  | .zst _ _ => true
  | .zclr _ _ => true
  | .zrowRd _ x => x.fn == 0#4
  | .zrowWr _ x => x.fn == 1#4
  | .matrixStart _ => true
  | .matrixCompletion _ => true
  | .copy _ _ => true
  | .strmIn _ x => x.fn.getLsbD 1 == false
  | .strmOut _ x => x.fn.getLsbD 1 == true
  | .netx _ _ => true
  | .gset _ x => x.fn == 0#8
  | .estsQ _ x => x.fn == 0#8
  | .estsErr _ x => x.fn == 1#8
  | .engineCommandTakeUp _ => true
  | .engineCommandCompletion _ => true
  | .strmChunkEnd _ => true
  | .netxFrameSent _ => true
  | .bundle hdr ws => hdr.extractLsb' 57 7 == 0x7F#7 && ws.length == headerSlots hdr
  | .faultEntryDeferred _ => true
  | .walkCompletion _ => true
  | .atomicApply _ => true
  | .storeRegistration _ => true
  | .revocation _ => true
  | .loadResultReturn _ => true
  | .decoupledAccessCompletion _ => true
  | .pathWriteMerge _ => true
  | .remoteFlagPost _ => true
  | .fabricAccessAtTarget _ => true
  | .auditResult _ => true
  | .auditAgeExpiry _ _ _ => true
  | .recordAppend _ _ => true
  | .binTimerExpiry _ _ => true
  | .overflowReturn _ => true
  | .waiterPlacement _ => true
  | .schedulerWriteDelivery _ => true
  | .deadlineReached _ => true
  | .yieldSequence _ => true
  | .yieldRecordFreed _ => true
  | .correctableErrorFreeze _ => true
  | .freezeEnd _ => true
  | .uncorrectableError _ => true
  | .fullSave _ => true
  | .fullRestore _ => true
  | .worldSwitch _ _ => true
  | .sliceWrite _ _ _ => true
  | .percalePass => true
  | .residencyQuantum => true
  | .dispatch _ => true
  | .dispatchDefine _ => true
  | .lockstep _ => true
  | .lockstepRelease _ => true
  | .recordPacket _ => true
  | .copyPacket _ => true
  | .waitflag _ => true
  | .waitmem _ => true
  | .waitConditionMet _ => true
  | .waitTimeout _ => true
  | .signalWrite _ => true
  | .signalAdd _ => true
  | .signalResolve _ => true
  | .signalPoison _ => true
  | .signalPost _ => true
  | .timestamp _ => true
  | .budgetAdd _ => true
  | .budgetSet _ => true
  | .budgetReclaim _ => true
  | .deadline _ => true
  | .launchCompletion _ => true
  | .interruptDelayExpiry _ => true
  | .doorbell _ _ _ => true
  | .queueEnable _ _ _ => true
  | .contextCreate _ _ _ => true
  | .contextDestroy _ _ _ => true
  | .faultRetire _ _ _ => true
  | .faultRetireAll _ _ _ => true
  | .hostShootdown _ _ _ => true
  | .slotPin _ _ _ _ => true
  | .slotUnpin _ _ _ _ => true
  | .formatWindowEnable _ _ _ _ => true
  | .filterEnable _ _ _ _ => true
  | .portBreakout _ _ _ => true
  | .linkUp _ => true
  | .frameFirstByte _ _ => true
  | .frameEnd _ _ => true
  | .ptpMessage _ _ => true
  | .assignmentWrite _ _ _ => true
  | .hostWrite _ _ => true
  | .semaphoreAcquire _ _ => true
  | .semaphoreRelease _ _ => true
  | .portUnfreeze _ _ => true
  | .functionLevelReset _ _ => true
  | .timeAdjust _ _ => true
  | .timeSet _ _ => true
  | .deviceTimeLatchRead _ => true
  | .tenantFailsRead _ _ => true
  | .portCounterRead _ _ _ => true
  | .throttleCountRead _ => true
  | .counterValueWrite _ _ _ _ => true
  | .ginghamClear _ _ _ => true
  | .debugStop _ _ _ => true
  | .debugStopEffect _ => true
  | .debugGo _ _ _ => true
  | .debugDataWrite _ _ _ => true
  | .moduleReset => true
  | .recoveryProgram _ => true
  | .firmwareUpdate _ => true
  | .attestationReport _ => true
  | .raiseRollbackFloor _ => true
  | .throttleChange _ _ _ _ => true
  | .thermalTrip => true
  | .registerWrite _ _ _ => true
  | .linkDown _ => true
  | .fabricLinkDown _ => true
  | .muslinReplayInjection _ => true
  | .timeSlewEnd => true

end Sys2Proof
end

