-- ==== Sys2Proof/Decode.lean ====
section
/-! DEFINITION. The decoder and the encoder (R152 to R168, R177, R178). A word is cut along the format of its major, its
function code picks the constructor, and Instr.legal then holds every field against the instruction's description, for the
decoder or the slot it stands in. Each word that is not an instruction is rejected by name. The encoder packs the same
fields. -/

namespace Sys2Proof

/-- Why a word is not an instruction (R178). Each rejection is the decoder's illegal trap. -/
inductive Reject where
  /-- the major or its function code is not assigned -/
  | opcode
  /-- the reserved bits 35:0 of Format B are not zero -/
  | reservedBits
  /-- a field breaks its description, or the major is not legal in the slot -/
  | field
  /-- a bundle header breaks R163 or R168 -/
  | header
  deriving DecidableEq, Repr

/-! ## Cutting and packing words -/

def unpackHd (w : BitVec 64) : Hd :=
  { neg := w.getLsbD 56, gd := w.extractLsb' 52 4, lat := w.extractLsb' 48 4 }

def unpackR (w : BitVec 64) : RF :=
  { fn := w.extractLsb' 40 8, d := w.extractLsb' 32 8, a := w.extractLsb' 24 8, b := w.extractLsb' 16 8,
    c := w.extractLsb' 8 8, mod := w.extractLsb' 0 8 }

def unpackI (w : BitVec 64) : IF :=
  { fn := w.extractLsb' 44 4, d := w.extractLsb' 36 8, a := w.extractLsb' 28 8, imm := w.extractLsb' 0 28 }

def unpackM (w : BitVec 64) : MF :=
  { width := w.extractLsb' 45 3, sgn := w.getLsbD 44, nud := w.extractLsb' 40 4, d := w.extractLsb' 32 8,
    base := w.extractLsb' 24 8, index := w.extractLsb' 16 8, queue := w.extractLsb' 14 2, off := w.extractLsb' 0 14 }

def unpackE (w : BitVec 64) : EF :=
  { fn := w.extractLsb' 44 4, qual := w.extractLsb' 40 4, stg := w.extractLsb' 32 8, fkind := w.extractLsb' 30 2,
    flag := w.extractLsb' 24 6, ta := w.extractLsb' 16 8, tb := w.extractLsb' 8 8, pat := w.extractLsb' 0 8 }

def unpackB (w : BitVec 64) : BF :=
  { fn := w.extractLsb' 44 4, tgt := w.extractLsb' 41 3, jn := w.extractLsb' 38 3, hint := w.extractLsb' 36 2 }

/-- Bits 47:0 of an instruction word, from its fields. -/
def packFields : Fields → BitVec 48
  | .r x => x.fn ++ x.d ++ x.a ++ x.b ++ x.c ++ x.mod
  | .i x => x.fn ++ x.d ++ x.a ++ x.imm
  | .m x => x.width ++ BitVec.ofBool x.sgn ++ x.nud ++ x.d ++ x.base ++ x.index ++ x.queue ++ x.off
  | .e x => x.fn ++ x.qual ++ x.stg ++ x.fkind ++ x.flag ++ x.ta ++ x.tb ++ x.pat
  | .b x => x.fn ++ x.tgt ++ x.jn ++ x.hint ++ 0#36

/-- The whole word: major in bits 63:57, then the common fields of R153, then the format's fields. -/
def packWord (maj : BitVec 7) (h : Hd) (f : Fields) : BitVec 64 :=
  maj ++ BitVec.ofBool h.neg ++ h.gd ++ h.lat ++ packFields f

/-! ## Field rules -/

/-- The width of a register operand: 32, 64 or 128 bits, or the reserved widths of Format M. -/
inductive OpW where
  | w32 | w64 | w128
  deriving DecidableEq, Repr

def alignedV (w : OpW) (n : Nat) : Bool :=
  match w with
  | .w32 => true
  | .w64 => n % 2 == 0
  | .w128 => n % 4 == 0

/-- A field that names only cluster registers: lane and shuffle slots, and the d and index fields of a memory slot (R160). -/
def wideColumn (p : Place) (base : Bool) : Bool :=
  match p with
  | .lane _ | .shuf => true
  | .mem _ => !base
  | _ => false

/-- A source register field (R160, R161, R194): v-registers aligned to the width; an s-register, a constant or zero of any width, which they
reach zero-extended (R161, R231). -/
def srcOk (p : Place) (base : Bool) (w : OpW) (f : Reg) : Bool :=
  let n := f.toNat
  if wideColumn p base then alignedV w n
  else if n < 128 then alignedV w n
  else n < 240 || n == 255

/-- A destination register field: a constant raises the decoder's illegal trap, 255 discards (R160, R161). -/
def dstOk (p : Place) (w : OpW) (f : Reg) : Bool :=
  let n := f.toNat
  if wideColumn p false then alignedV w n
  else if n < 128 then alignedV w n
  else if n < 192 then w != .w128
  else n == 255

/-- What a field of a Format R instruction may hold. -/
inductive FieldRule where
  | z
  | any
  | dst (w : OpW)
  | src (w : OpW)
  | uni (w : OpW)
  | pairOrS (w : OpW)
  | uniReg
  | addrReg
  | spBase
  | bcast (w : OpW)
  | predS
  | predD
  | num (n : Nat)
  | konst (n : Nat)
  | segment
  | elem
  | sprWritable
  | tile
  deriving DecidableEq, Repr

/-- What the mod byte of a Format R instruction may hold (R155, R194, R136, R205, R215, R278). -/
inductive ModRule where
  | zero
  | int (types : Nat) (sat : Bool)
  | lea
  | fp (types : Nat) (rounds : Bool) (bit1 : Bool)
  | red
  | atom
  | atom32
  | atoms
  | inval
  deriving DecidableEq, Repr

def isLane (p : Place) : Bool := match p with | .lane _ => true | _ => false

def tileOperandOk (f : Reg) : Bool := f.toNat < 16 || 128 ≤ f.toNat

def fieldOk (p : Place) (f : Reg) : FieldRule → Bool
  | .z => f == 0#8
  | .any => true
  | .dst w => dstOk p w f
  | .src w => srcOk p false w f
  | .uni w => srcOk p true w f
  | .pairOrS w => srcOk p false w f && (w != .w64 || wideColumn p false || f.toNat < 192)
  | .uniReg => f.toNat < 192 && srcOk p true .w64 f
  | .addrReg => f.toNat < 192 && srcOk p true .w64 f
  | .spBase => f.toNat < 192 || f == 255#8
  | .bcast w => if p == .simt then 128 ≤ f.toNat && (f.toNat < 240 || f == 255#8) else srcOk p false w f
  | .predS => f.toNat < 16
  | .predD => f.toNat < 16 && (p == .simt || f.toNat < 8 || f == 15#8)
  | .num n => f.toNat < n
  | .konst n => 192 ≤ f.toNat && f.toNat ≤ 192 + n
  | .segment => 193 ≤ f.toNat && f.toNat ≤ (if p == .shuf then 196 else 197)
  | .elem => 192 ≤ f.toNat && f.toNat ≤ 195
  | .sprWritable => f == 4#8 || f == 5#8 || f == 7#8
  | .tile => tileOperandOk f

/-- The register fields that a rule lets the immediate slot stand for (R155, R166). -/
def immCapable : FieldRule → Bool
  | .src _ => true
  | _ => false

def modCode (m : BitVec 8) : Nat := (m.extractLsb' 4 4).toNat

def modOk (fn m : BitVec 8) : ModRule → Bool
  | .zero => m.extractLsb' 1 7 == 0#7
  | .int types sat => types.testBit (modCode m) && m.extractLsb' 2 2 == 0#2 && (sat || !m.getLsbD 1)
  | .lea => !m.getLsbD 7 && m.extractLsb' 1 3 == 0#3
  | .fp types rounds bit1 => types.testBit (modCode m) && (rounds || m.extractLsb' 2 2 == 0#2) && (bit1 || !m.getLsbD 1)
  | .red =>
    let k := fn.toNat % 16
    if k = 0 then modCode m == 1
    else if k ≤ 2 then modCode m == 1 && m.extractLsb' 2 2 == 0#2
    else m.extractLsb' 1 7 == 0#7
  | .atom => !m.getLsbD 0
  | .atom32 => !m.getLsbD 0 && !m.getLsbD 1
  | .atoms => m.extractLsb' 2 6 == 0#6 && !m.getLsbD 0
  | .inval => modCode m ≤ 11 && m.extractLsb' 0 4 == 0#4

/-- The field rules of a Format R instruction. Bit 0 of mod takes source b from the immediate slot, in a lane slot only
(R155, R166); its field then selects the half, 0 to 2, and the slot must be present. -/
def wfR (p : Place) (imm : Bool) (x : RF) (m : ModRule) (d a b c : FieldRule) : Bool :=
  modOk x.fn x.mod m && fieldOk p x.d d && fieldOk p x.a a && fieldOk p x.c c &&
  (if x.mod.getLsbD 0 then isLane p && imm && immCapable b && x.b.toNat < 3 else fieldOk p x.b b)

/-- 64-bit operands where the integer type code is s64 or n64 (R194). -/
def wTy (x : RF) : OpW := if modCode x.mod == 2 || modCode x.mod == 3 then .w64 else .w32
/-- The 64-bit special registers: cp, cpm, dl, dcp, tstat (R208). -/
def wSpr (f : Reg) : OpW := if (2 ≤ f.toNat && f.toNat ≤ 5) || f == 15#8 then .w64 else .w32
/-- The integer types s64 and n64 of R224's table. -/
def wIty (f : Reg) : OpW := if f == 2#8 || f == 3#8 then .w64 else .w32
/-- Width bit 1 of an atomic's mod byte (R155). -/
def wAtom (x : RF) : OpW := if x.mod.getLsbD 1 then .w64 else .w32
/-- The 32-bit privileged registers: tmask, tact, ctxid, schctl (R335). -/
def wPriv (f : Reg) : OpW := if f == 4#8 || f == 5#8 || f == 9#8 || f == 16#8 then .w32 else .w64

/-- The element formats of 16 and of 8 bits, by code (R132). -/
def elemLimit (code : Nat) : Nat := if code = 2 ∨ code = 3 then 1 else if code = 4 ∨ code = 5 then 3 else 0

/-- FCVT: exactly one of source code and destination code is f32, the other f16, b16, f8n or f8w (R224). -/
def wfFcvt (x : RF) : Bool :=
  let s := x.fn.toNat; let t := modCode x.mod
  (s == 1 && 2 ≤ t && t ≤ 5) || (t == 1 && 2 ≤ s && s ≤ 5)

/-- The element index of FCVT lies within the elements of its narrow format, that of F2I and I2F within those of their
floating type (R224). -/
def fcvtElemFits (x : RF) : Bool :=
  x.b.toNat - 192 ≤ elemLimit (if modCode x.mod == 1 then x.fn.toNat else modCode x.mod)

def convElemFits (x : RF) : Bool := x.b.toNat - 192 ≤ elemLimit (modCode x.mod)

/-- XLAT's b receives the page offset; in a memory slot it must be 255 (R241). -/
def xlatB (p : Place) (x : RF) : Bool := if p == .simt then dstOk p .w32 x.b else x.b == 255#8

/-- ATOMS: c is the swap value of fn 0x10 and zero elsewhere; the f32 functions are 32 bits wide (R240). -/
def wfAtomsC (p : Place) (x : RF) : Bool :=
  (if x.fn == 0x10#8 then srcOk p false (wAtom x) x.c else x.c == 0#8) && !(0x20 ≤ x.fn.toNat && x.mod.getLsbD 1)

/-! ## Majors and slots (R177) -/

/-- Whether a major may stand at a place: column "Legal in" of R177. -/
def legalIn (maj : Nat) (p : Place) : Bool :=
  match p with
  | .simt => maj < 0x68 || (0x6B ≤ maj && maj < 0x7F)
  | .lane _ => maj ≤ 0x1E || (0x28 ≤ maj && maj ≤ 0x3C) || maj == 0x3F
  | .mem m => maj == 0 || (0x45 ≤ maj && maj ≤ 0x4A) || maj == 0x4E || (maj == 0x4F && m == 0) || maj == 0x50 || maj == 0x51 ||
      (0x56 ≤ maj && maj ≤ 0x5B) || maj == 0x5F
  | .eng => maj == 0 || (0x70 ≤ maj && maj ≤ 0x7A)
  | .br => maj == 0 || maj == 0x1E || maj == 0x1F || maj == 0x60 || maj == 0x61 || maj == 0x62 || maj == 0x64 || maj == 0x65 ||
      (0x68 ≤ maj && maj ≤ 0x6F) || maj == 0x7B || maj == 0x7C
  | .shuf => maj == 0 || (0x20 ≤ maj && maj ≤ 0x27) || maj == 0x3D || maj == 0x3E

/-- The A0 maximum latency in cycles that a VLIW lat code must cover (column Lat of R177); 0 where there is no register
result. -/
def latMax (maj : Nat) : Nat :=
  match maj with
  | 0x01 => 4 | 0x02 => 6 | 0x03 => 6 | 0x04 => 32 | 0x05 => 3 | 0x06 => 3 | 0x07 => 3 | 0x08 => 2 | 0x09 => 2 | 0x0A => 2
  | 0x0B => 2 | 0x0C => 2 | 0x0D => 2 | 0x0E => 3 | 0x0F => 4 | 0x10 => 4 | 0x11 => 2 | 0x12 => 3 | 0x13 => 3 | 0x14 => 2
  | 0x15 => 3 | 0x16 => 3 | 0x17 => 2 | 0x18 => 1 | 0x19 => 2 | 0x1A => 4 | 0x1B => 3 | 0x1C => 6 | 0x1D => 2 | 0x1E => 4
  | 0x20 => 4 | 0x21 => 4 | 0x22 => 4 | 0x23 => 8 | 0x24 => 8 | 0x25 => 8 | 0x26 => 24 | 0x27 => 32
  | 0x28 => 6 | 0x29 => 6 | 0x2A => 6 | 0x2B => 3 | 0x2C => 3 | 0x2D => 3 | 0x2E => 4 | 0x2F => 4 | 0x30 => 24 | 0x31 => 24
  | 0x32 => 16 | 0x33 => 5 | 0x34 => 5 | 0x35 => 5 | 0x36 => 12 | 0x37 => 12 | 0x38 => 16 | 0x39 => 5 | 0x3A => 8 | 0x3B => 6
  | 0x3C => 8 | 0x3D => 16 | 0x3E => 8 | 0x3F => 3
  | 0x45 => 6 | 0x47 => 6 | 0x49 => 6 | 0x4E => 10 | 0x50 => 24 | 0x58 => 4 | 0x5F => 8
  | 0x60 => 2 | 0x61 => 2 | 0x6F => 8 | 0x75 => 12 | 0x79 => 2 | 0x7A => 8
  | _ => 0

/-- The cycles that a lat code gives (R170); code 15 is decoupled and gives none. -/
def latCycles (c : BitVec 4) : Nat :=
  match c.toNat with
  | 0 => 1 | 1 => 2 | 2 => 3 | 3 => 4 | 4 => 5 | 5 => 6 | 6 => 8 | 7 => 10 | 8 => 12 | 9 => 16 | 10 => 20 | 11 => 24
  | 12 => 32 | 13 => 48 | 14 => 64 | _ => 0

/-- The rules every instruction word obeys: its major is legal where it stands, and (!p15) is reserved (R153, R164, R165). -/
def wfHd (p : Place) (maj : Nat) (h : Hd) : Bool := legalIn maj p && !(h.neg && h.gd == 15#4)

/-! ## Formats I, M, E and B: one rule for each row -/

def wfI_movi (p : Place) (_ : Hd) (x : IF) : Bool := x.a == 0#8 && dstOk p .w32 x.d
def wfI_moviX64 (p : Place) (_ : Hd) (x : IF) : Bool := x.a == 0#8 && dstOk p .w64 x.d
def wfI_movh (p : Place) (_ : Hd) (x : IF) : Bool := x.a == 0#8 && dstOk p .w64 x.d
def wfI_movhX32 (p : Place) (_ : Hd) (x : IF) : Bool := x.a == 0#8 && (wideColumn p false || x.d.toNat < 128)
def wfI_waitw (p : Place) (_ : Hd) (x : IF) : Bool := x.a == 0#8 && dstOk p .w32 x.d
def wfI_fwait (_ : Place) (_ : Hd) (x : IF) : Bool := x.a == 0#8 && x.d.toNat < 64 && x.imm.toNat < 65536
def wfSpawn (x : IF) : Bool :=
  x.d.toNat < 128 && ((128 ≤ x.a.toNat && x.a.toNat < 192) || x.a == 255#8) && x.imm.toNat < 65536
def wfI_spawn (_ : Place) (_ : Hd) (x : IF) : Bool := wfSpawn x
def wfI_spawnOne (_ : Place) (_ : Hd) (x : IF) : Bool := wfSpawn x
def wfI_pbr (_ : Place) (_ : Hd) (x : IF) : Bool := x.a == 0#8 && x.d.toNat < 8
def wfI_loop (_ : Place) (_ : Hd) (x : IF) : Bool :=
  x.a == 0#8 && 128 ≤ x.d.toNat && x.d.toNat < 192 && x.imm.toNat < 7
/-- CONT's operand m: an s-register, an integer constant, or keep (R62). -/
def contMask (d : Reg) : Bool := (128 ≤ d.toNat && d.toNat < 224) || d == 255#8
def wfI_cont (_ : Place) (_ : Hd) (x : IF) : Bool := x.a == 0#8 && contMask x.d
def wfI_contB (_ : Place) (_ : Hd) (x : IF) : Bool := x.a == 0#8 && contMask x.d && x.imm.toNat < 8
/-- BGT's amounts: an s-register, a constant 0 to 31, or 255 (R79). -/
def wfBgt (x : IF) : Bool := contMask x.d && contMask x.a && x.imm == 0#28
def wfI_bgtTop (_ : Place) (_ : Hd) (x : IF) : Bool := wfBgt x
def wfI_bgtRel (_ : Place) (_ : Hd) (x : IF) : Bool := wfBgt x
def wfI_trap (_ : Place) (_ : Hd) (x : IF) : Bool := x.d == 0#8 && x.a == 0#8 && x.imm.toNat < 65536
def wfI_trapBkpt (_ : Place) (_ : Hd) (x : IF) : Bool := x.d == 0#8 && x.a == 0#8 && x.imm.toNat < 65536

/-- Data width of a Format M access (R157); the reserved widths give none. -/
def mWidth (x : MF) : OpW := if x.width == 3#3 then .w64 else if x.width == 4#3 then .w128 else .w32
/-- A generic base: an s-register, an even v pair, or 255 (R157). -/
def genericBase (x : MF) : Bool := (x.base.toNat < 128 && x.base.toNat % 2 == 0) || (128 ≤ x.base.toNat && x.base.toNat < 192) ||
  x.base == 255#8
def spBaseM (x : MF) : Bool := x.base.toNat < 192 || x.base == 255#8
/-- The index register, or, with lat code 15 in a memory slot, the completion flag in bits 21:16 (R173). -/
def indexOk (p : Place) (h : Hd) (x : MF) : Bool :=
  if p != .simt && h.lat == 15#4 then x.index.toNat < 64 else srcOk p false .w32 x.index || x.index == 255#8
def loadFields (p : Place) (h : Hd) (x : MF) (maxW : Nat) : Bool :=
  x.width.toNat ≤ maxW && (!x.sgn || x.width.toNat < 2) && dstOk p (mWidth x) x.d && indexOk p h x
def storeFields (p : Place) (h : Hd) (x : MF) (maxW : Nat) : Bool :=
  x.width.toNat ≤ maxW && !x.sgn && srcOk p false (mWidth x) x.d && indexOk p h x
def wfM_ld (p : Place) (h : Hd) (x : MF) : Bool := loadFields p h x 4 && genericBase x
def wfM_st (p : Place) (h : Hd) (x : MF) : Bool := storeFields p h x 4 && genericBase x
def wfM_ldnc (p : Place) (h : Hd) (x : MF) : Bool := loadFields p h x 4 && genericBase x
def wfM_ldacq (p : Place) (h : Hd) (x : MF) : Bool := loadFields p h x 3 && genericBase x
def wfM_strel (p : Place) (h : Hd) (x : MF) : Bool := storeFields p h x 3 && genericBase x
def wfM_lds (p : Place) (h : Hd) (x : MF) : Bool := loadFields p h x 4 && spBaseM x && x.nud == 0#4
def wfM_sts (p : Place) (h : Hd) (x : MF) : Bool := storeFields p h x 4 && spBaseM x && x.nud == 0#4
def wfM_ldh (p : Place) (h : Hd) (x : MF) : Bool := loadFields p h x 4 && x.base.toNat < 16
def wfM_sth (p : Place) (h : Hd) (x : MF) : Bool := storeFields p h x 4 && x.base.toNat < 16
def wfM_ldt (p : Place) (h : Hd) (x : MF) : Bool :=
  loadFields p h x 4 && tileOperandOk x.base && x.nud == 0#4 && x.queue == 0#2
def wfM_stt (p : Place) (h : Hd) (x : MF) : Bool :=
  storeFields p h x 4 && tileOperandOk x.base && x.nud == 0#4 && x.queue == 0#2
def byteForm (p : Place) (h : Hd) (x : MF) : Bool := x.width == 0#3 && !x.sgn && genericBase x && indexOk p h x
def wfM_pref (p : Place) (h : Hd) (x : MF) : Bool := byteForm p h x && x.d.toNat < 8 && x.nud != 15#4
def wfM_prefL2 (p : Place) (h : Hd) (x : MF) : Bool := byteForm p h x && x.d.toNat < 8 && x.nud != 15#4
def wfM_prefEvict (p : Place) (h : Hd) (x : MF) : Bool := byteForm p h x && x.d.toNat < 8 && x.nud == 0#4
def wfM_prefDiscard (p : Place) (h : Hd) (x : MF) : Bool := byteForm p h x && x.d.toNat < 8 && x.nud == 0#4
def wfM_cmntWb (p : Place) (h : Hd) (x : MF) : Bool := byteForm p h x && x.nud == 0#4 && x.d.toNat < 4
def wfM_cmntWbinv (p : Place) (h : Hd) (x : MF) : Bool := byteForm p h x && x.nud == 0#4 && x.d.toNat < 4
def wfM_cmntInv1 (p : Place) (h : Hd) (x : MF) : Bool := byteForm p h x && x.nud == 0#4 && x.d.toNat < 4
def wfM_watch (p : Place) (h : Hd) (x : MF) : Bool := byteForm p h x && x.nud == 0#4 && x.queue == 0#2 && x.d == 0#8
def wfM_ldx (p : Place) (h : Hd) (x : MF) : Bool := loadFields p h x 3 && genericBase x && x.nud == 0#4
def wfM_stx (p : Place) (h : Hd) (x : MF) : Bool := storeFields p h x 3 && genericBase x && x.nud == 0#4
def sBase (x : MF) : Bool := 128 ≤ x.base.toNat && x.base.toNat < 192
def wfM_ldxPi (p : Place) (h : Hd) (x : MF) : Bool := loadFields p h x 3 && sBase x && x.nud == 0#4
def wfM_stxPi (p : Place) (h : Hd) (x : MF) : Bool := storeFields p h x 3 && sBase x && x.nud == 0#4

/-- The completion flag of Format E (R158). -/
def flagOk (x : EF) : Bool :=
  match x.fkind.toNat with
  | 0 => x.flag == 0#6
  | 1 => true
  | 2 => x.flag.toNat < 16
  | _ => false
def stagingOk (x : EF) (n : Nat) : Bool := x.stg.toNat + n ≤ 16
/-- MMA's element formats, partners and patterns (R285). -/
def mmaFormatOk (x : EF) : Bool :=
  let plain := [0x2, 0x3, 0x4, 0x5].contains x.fn.toNat
  (plain || [0x6, 0x7, 0x8, 0x9, 0xB].contains x.fn.toNat) &&
  (!x.qual.getLsbD 3 || [0x4, 0x5, 0x7, 0x8].contains x.fn.toNat) && (plain || x.pat == 0#8)
def wfE_mma (_ : Place) (_ : Hd) (x : EF) : Bool :=
  mmaFormatOk x && x.stg == 0#8 && flagOk x && tileOperandOk x.ta && tileOperandOk x.tb
def wfE_mmag (_ : Place) (_ : Hd) (x : EF) : Bool :=
  mmaFormatOk x && stagingOk x 1 && flagOk x && x.ta == 0#8 && tileOperandOk x.tb
def accFormat (n : Nat) : Bool := (1 ≤ n && n ≤ 8) || n == 0xE
def wfE_zld (_ : Place) (_ : Hd) (x : EF) : Bool :=
  accFormat x.fn.toNat && x.qual.toNat < 4 && x.stg == 0#8 && flagOk x && tileOperandOk x.ta && x.tb == 0#8 && x.pat == 0#8
def wfE_zst (_ : Place) (_ : Hd) (x : EF) : Bool :=
  accFormat x.fn.toNat && x.qual.toNat < 4 && x.stg == 0#8 && flagOk x && tileOperandOk x.tb && x.ta == 0#8 &&
  (if 2 ≤ x.fn.toNat && x.fn.toNat ≤ 5 then x.pat.toNat < 8 else x.pat == 0#8)
def wfE_zclr (_ : Place) (_ : Hd) (x : EF) : Bool :=
  x.fn == 0#4 && x.qual.toNat < 4 && x.stg == 0#8 && flagOk x && x.ta == 0#8 && x.tb == 0#8 && x.pat.toNat < 3
def zrowFields (x : EF) : Bool := x.qual.toNat < 4 && x.ta.toNat < 128 && x.pat.toNat < 32 && x.stg == 0#8 && x.tb == 0#8
def wfE_zrowRd (_ : Place) (_ : Hd) (x : EF) : Bool := zrowFields x && x.fkind == 0#2 && x.flag == 0#6
def wfE_zrowWr (_ : Place) (_ : Hd) (x : EF) : Bool := zrowFields x && flagOk x
def kindTile (k : BitVec 2) (t : BitVec 8) : Bool := if k == 2#2 then tileOperandOk t else k != 3#2 && t == 0#8
def wfE_copy (_ : Place) (_ : Hd) (x : EF) : Bool :=
  x.fn.toNat < 4 && kindTile (x.qual.extractLsb' 0 2) x.ta && kindTile (x.qual.extractLsb' 2 2) x.tb && x.pat == 0#8 && flagOk x &&
  stagingOk x (3 + (if x.fn.getLsbD 1 then 1 else 0) + (if x.fn.getLsbD 0 then 1 else 0))
def strmFields (x : EF) : Bool :=
  x.fn.toNat < 4 && x.qual.toNat < 2 && tileOperandOk x.ta && x.tb == 0#8 && x.pat == 0#8 && flagOk x &&
  stagingOk x (3 + (if x.fn.getLsbD 0 then 1 else 0))
def wfE_strmIn (_ : Place) (_ : Hd) (x : EF) : Bool := strmFields x
def wfE_strmOut (_ : Place) (_ : Hd) (x : EF) : Bool := strmFields x
def wfE_netx (_ : Place) (_ : Hd) (x : EF) : Bool :=
  x.fn.toNat < 2 && x.qual.toNat < 3 && tileOperandOk x.ta && x.tb == 0#8 && x.pat == 0#8 && flagOk x &&
  stagingOk x (1 + (if x.qual == 1#4 then 1 else 0) + (if x.fn.getLsbD 0 then 1 else 0))

def wfB_br (p : Place) (_ : Hd) (x : BF) : Bool := p == .simt || x.jn == 0#3
def wfB_brAny (_ : Place) (_ : Hd) (x : BF) : Bool := x.jn == 0#3
def wfB_brAll (_ : Place) (_ : Hd) (x : BF) : Bool := x.jn == 0#3
def bareB (x : BF) : Bool := x.tgt == 0#3 && x.jn == 0#3 && x.hint == 0#2
def wfB_join (_ : Place) (h : Hd) (x : BF) : Bool := bareB x && h.always
def wfB_call (_ : Place) (_ : Hd) (_ : BF) : Bool := true
def wfB_ret (_ : Place) (_ : Hd) (x : BF) : Bool := x.jn == 0#3
def wfB_exit (_ : Place) (_ : Hd) (x : BF) : Bool := bareB x
def wfB_fuse (_ : Place) (_ : Hd) (x : BF) : Bool := bareB x
def wfB_split (_ : Place) (_ : Hd) (x : BF) : Bool := bareB x
def wfB_lend (_ : Place) (h : Hd) (x : BF) : Bool := bareB x && h.always
def wfB_lendPop (_ : Place) (h : Hd) (x : BF) : Bool := bareB x && h.always
def wfB_lendBrk (_ : Place) (_ : Hd) (x : BF) : Bool := x.jn == 0#3 && x.hint == 0#2
def wfB_yield (_ : Place) (_ : Hd) (x : BF) : Bool := bareB x
def wfB_tret (_ : Place) (h : Hd) (x : BF) : Bool := bareB x && h.always
def wfB_tretSkip (_ : Place) (h : Hd) (x : BF) : Bool := bareB x && h.always

/-- The header's own rules of R163, R167 and R168 that need nothing but the header. -/
def headerOk (hdr : BitVec 64) : Bool :=
  let syop := hdr.extractLsb' 33 2; let lpop := hdr.extractLsb' 21 3
  hdr.extractLsb' 0 12 == 0#12 && hdr.extractLsb' 36 21 != 0#21 &&
  (syop != 0#2 || (hdr.extractLsb' 27 6 == 0#6 && hdr.extractLsb' 24 3 == 0#3)) &&
  lpop.toNat < 4 && (lpop == 1#3 || (hdr.extractLsb' 15 6 == 0#6 && hdr.extractLsb' 12 3 == 0#3)) &&
  !(lpop == 1#3 && hdr.extractLsb' 12 3 == 7#3) && !(lpop != 0#3 && hdr.getLsbD 37)


/-! ## The whole check and the opcode map -/

/-- Every field of a well-formed instruction holds what its description allows at place p, where imm says whether the bundle
has an immediate slot (R155 to R168, R178, and the field rules of R193 to R298). -/
def Instr.legal (p : Place) (imm : Bool) (i : Instr) : Bool :=
  i.wf && match i with
  | .nop h x => wfHd p 0x00 h && wfR p imm x .zero .z .z .z .z
  | .nopPause h x => wfHd p 0x00 h && wfR p imm x .zero .z .z .z .z && p == .simt
  | .pauseExpiry _ => p == .simt
  | .iadd h x => wfHd p 0x01 h && wfR p imm x (.int 0xFF true) (.dst (wTy x)) (.src (wTy x)) (.src (wTy x)) .z
  | .iaddAddc h x => wfHd p 0x01 h && wfR p imm x (.int 0xF false) (.dst (wTy x)) (.src (wTy x)) (.src (wTy x)) (.predD)
  | .iaddSub h x => wfHd p 0x01 h && wfR p imm x (.int 0xFF true) (.dst (wTy x)) (.src (wTy x)) (.src (wTy x)) .z
  | .iaddSubb h x => wfHd p 0x01 h && wfR p imm x (.int 0xF false) (.dst (wTy x)) (.src (wTy x)) (.src (wTy x)) (.predD)
  | .iaddRsub h x => wfHd p 0x01 h && wfR p imm x (.int 0xFF true) (.dst (wTy x)) (.src (wTy x)) (.src (wTy x)) .z
  | .imul h x => wfHd p 0x02 h && wfR p imm x (.int 0x3F false) (.dst (wTy x)) (.src (wTy x)) (.src (wTy x)) .z
  | .imulHi h x => wfHd p 0x02 h && wfR p imm x (.int 0xF false) (.dst (wTy x)) (.src (wTy x)) (.src (wTy x)) .z
  | .imulWide h x => wfHd p 0x02 h && wfR p imm x (.int 0x3 false) (.dst .w64) (.src .w32) (.src .w32) .z
  | .imad h x => wfHd p 0x03 h && wfR p imm x (.int 0xF false) (.dst (wTy x)) (.src (wTy x)) (.src (wTy x)) (.src (wTy x))
  | .imadWide h x => wfHd p 0x03 h && wfR p imm x (.int 0x3 false) (.dst .w64) (.src .w32) (.src .w32) (.src .w64)
  | .idiv h x => wfHd p 0x04 h && wfR p imm x (.int 0xF false) (.dst (wTy x)) (.src (wTy x)) (.src (wTy x)) .z
  | .idivRem h x => wfHd p 0x04 h && wfR p imm x (.int 0xF false) (.dst (wTy x)) (.src (wTy x)) (.src (wTy x)) .z
  | .imnx h x => wfHd p 0x05 h && wfR p imm x (.int 0xFF false) (.dst (wTy x)) (.src (wTy x)) (.src (wTy x)) .z
  | .imnxMax h x => wfHd p 0x05 h && wfR p imm x (.int 0xFF false) (.dst (wTy x)) (.src (wTy x)) (.src (wTy x)) .z
  | .iabs h x => wfHd p 0x06 h && wfR p imm x (.int 0x55 true) (.dst (wTy x)) (.src (wTy x)) .z .z
  | .iabsNeg h x => wfHd p 0x06 h && wfR p imm x (.int 0x55 true) (.dst (wTy x)) (.src (wTy x)) .z .z
  | .iabsSad h x => wfHd p 0x06 h && wfR p imm x (.int 0xF3 false) (.dst .w32) (.src .w32) (.src .w32) (.src .w32)
  | .iclmp h x => wfHd p 0x07 h && wfR p imm x (.int 0xFF false) (.dst (wTy x)) (.src (wTy x)) (.src (wTy x)) (.src (wTy x))
  | .and h x => wfHd p 0x08 h && wfR p imm x (.int 0xF false) (.dst (wTy x)) (.src (wTy x)) (.src (wTy x)) .z
  | .andNot h x => wfHd p 0x08 h && wfR p imm x (.int 0xF false) (.dst (wTy x)) (.src (wTy x)) (.src (wTy x)) .z
  | .or h x => wfHd p 0x09 h && wfR p imm x (.int 0xF false) (.dst (wTy x)) (.src (wTy x)) (.src (wTy x)) .z
  | .orNot h x => wfHd p 0x09 h && wfR p imm x (.int 0xF false) (.dst (wTy x)) (.src (wTy x)) (.src (wTy x)) .z
  | .xor h x => wfHd p 0x0A h && wfR p imm x (.int 0xF false) (.dst (wTy x)) (.src (wTy x)) (.src (wTy x)) .z
  | .xorNot h x => wfHd p 0x0A h && wfR p imm x (.int 0xF false) (.dst (wTy x)) (.src (wTy x)) (.src (wTy x)) .z
  | .lut3 h x => wfHd p 0x0B h && wfR p imm x .zero (.dst .w32) (.src .w32) (.src .w32) (.src .w32)
  | .shl h x => wfHd p 0x0C h && wfR p imm x (.int 0xF false) (.dst (wTy x)) (.src (wTy x)) (.src .w32) .z
  | .shr h x => wfHd p 0x0D h && wfR p imm x (.int 0xF false) (.dst (wTy x)) (.src (wTy x)) (.src .w32) .z
  | .shrAr h x => wfHd p 0x0D h && wfR p imm x (.int 0xF false) (.dst (wTy x)) (.src (wTy x)) (.src .w32) .z
  | .rot h x => wfHd p 0x0E h && wfR p imm x (.int 0xF false) (.dst (wTy x)) (.src (wTy x)) (.src .w32) .z
  | .rotRr h x => wfHd p 0x0E h && wfR p imm x (.int 0xF false) (.dst (wTy x)) (.src (wTy x)) (.src .w32) .z
  | .rotShfl h x => wfHd p 0x0E h && wfR p imm x .zero (.dst .w32) (.src .w32) (.src .w32) (.src .w32)
  | .rotShfr h x => wfHd p 0x0E h && wfR p imm x .zero (.dst .w32) (.src .w32) (.src .w32) (.src .w32)
  | .popc h x => wfHd p 0x0F h && wfR p imm x (.int 0xF false) (.dst .w32) (.src (wTy x)) .z .z
  | .clz h x => wfHd p 0x10 h && wfR p imm x (.int 0xF false) (.dst .w32) (.src (wTy x)) .z .z
  | .clzCtz h x => wfHd p 0x10 h && wfR p imm x (.int 0xF false) (.dst .w32) (.src (wTy x)) .z .z
  | .clzCls h x => wfHd p 0x10 h && wfR p imm x (.int 0xF false) (.dst .w32) (.src (wTy x)) .z .z
  | .brev h x => wfHd p 0x11 h && wfR p imm x (.int 0xF false) (.dst (wTy x)) (.src (wTy x)) .z .z
  | .brevByte h x => wfHd p 0x11 h && wfR p imm x (.int 0xF false) (.dst (wTy x)) (.src (wTy x)) .z .z
  | .bfx h x => wfHd p 0x12 h && wfR p imm x (.int 0xF false) (.dst (wTy x)) (.src (wTy x)) (.src .w32) (.src .w32)
  | .bfi h x => wfHd p 0x13 h && wfR p imm x (.int 0xF false) (.dst (wTy x)) (.src (wTy x)) (.src (wTy x)) (.src .w32)
  | .prmt h x => wfHd p 0x14 h && wfR p imm x .zero (.dst .w32) (.src .w32) (.src .w32) (.src .w32)
  | .pack h x => wfHd p 0x15 h && wfR p imm x .zero (.dst .w32) (.src .w32) (.src .w32) .z
  | .packSs h x => wfHd p 0x15 h && wfR p imm x .zero (.dst .w32) (.src .w32) (.src .w32) .z
  | .packNn h x => wfHd p 0x15 h && wfR p imm x .zero (.dst .w32) (.src .w32) (.src .w32) .z
  | .icmp h x => wfHd p 0x16 h && wfR p imm x (.int 0xF false) (.predD) (.src (wTy x)) (.src (wTy x)) (.predS)
  | .sel h x => wfHd p 0x17 h && wfR p imm x (.int 0xF false) (.dst (wTy x)) (.src (wTy x)) (.src (wTy x)) (.predS)
  | .plog h x => wfHd p 0x1D h && wfR p imm x .zero (.predD) (.predS) (.predS) (.predS)
  | .movi h x => wfHd p 0x18 h && wfI_movi p h x
  | .moviX64 h x => wfHd p 0x18 h && wfI_moviX64 p h x
  | .movh h x => wfHd p 0x19 h && wfI_movh p h x
  | .movhX32 h x => wfHd p 0x19 h && wfI_movhX32 p h x
  | .mov h x => wfHd p 0x1A h && wfR p imm x (.int 0xF false) (.dst (wTy x)) (.src (wTy x)) .z .z
  | .movBc h x => wfHd p 0x1A h && wfR p imm x (.int 0xF false) (.dst (wTy x)) (.bcast (wTy x)) .z .z
  | .xmov h x => wfHd p 0x1A h && wfR p imm x (.int 0xF false) (.dst (wTy x)) (.src (wTy x)) (.num 16) .z && isLane p
  | .lea h x => wfHd p 0x1B h && wfR p imm x .lea (.dst .w64) (.src .w64) (.src .w32) .z
  | .leaN h x => wfHd p 0x1B h && wfR p imm x .lea (.dst .w64) (.src .w64) (.src .w32) .z
  | .idot h x => wfHd p 0x1C h && wfR p imm x (.int 0xC0 true) (.dst .w32) (.src .w32) (.src .w32) (.src .w32)
  | .idotH h x => wfHd p 0x1C h && wfR p imm x (.int 0x30 true) (.dst .w32) (.src .w32) (.src .w32) (.src .w32)
  | .mfs h x => wfHd p 0x1E h && wfR p imm x .zero (.dst (wSpr x.a)) (.num 16) .z .z
  | .mts h x => wfHd p 0x1F h && wfR p imm x .zero (.sprWritable) (.uni (wSpr x.d)) .z .z
  | .voteAny h x => wfHd p 0x20 h && wfR p imm x .zero (.predD) (.predS) .z .z
  | .voteAll h x => wfHd p 0x20 h && wfR p imm x .zero (.predD) (.predS) .z .z
  | .voteBallot h x => wfHd p 0x20 h && wfR p imm x .zero (.dst .w32) (.predS) .z .z
  | .voteCount h x => wfHd p 0x20 h && wfR p imm x .zero (.dst .w32) (.predS) .z .z
  | .voteFirst h x => wfHd p 0x20 h && wfR p imm x .zero (.dst .w32) (.predS) .z .z
  | .rdlane h x => wfHd p 0x21 h && wfR p imm x (.int 0xF false) (.dst (wTy x)) (.src (wTy x)) (.uni .w32) .z
  | .wrlane h x => wfHd p 0x22 h && wfR p imm x (.int 0xF false) (.dst (wTy x)) (.uni (wTy x)) (.uni .w32) .z
  | .shuf h x => wfHd p 0x23 h && wfR p imm x (.int 0xF false) (.dst (wTy x)) (.src (wTy x)) (.src .w32) (.segment)
  | .shufRot h x => wfHd p 0x23 h && wfR p imm x (.int 0xF false) (.dst (wTy x)) (.src (wTy x)) (.uni .w32) (.segment)
  | .shufXor h x => wfHd p 0x23 h && wfR p imm x (.int 0xF false) (.dst (wTy x)) (.src (wTy x)) (.uni .w32) (.segment)
  | .shufRev h x => wfHd p 0x23 h && wfR p imm x (.int 0xF false) (.dst (wTy x)) (.src (wTy x)) .z (.segment)
  | .patld h x => wfHd p 0x24 h && wfR p imm x .zero .z (.src .w32) .z .z
  | .patsw h x => wfHd p 0x25 h && wfR p imm x (.int 0xF false) (.dst (wTy x)) (.src (wTy x)) .z .z
  | .gred h x => wfHd p 0x26 h && wfR p imm x .red (.dst .w32) (.src .w32) .z .z
  | .gscan h x => wfHd p 0x27 h && wfR p imm x .red (.dst .w32) (.src .w32) .z .z
  | .fadd h x => wfHd p 0x28 h && wfR p imm x (.fp 0xE true true) (.dst .w32) (.src .w32) (.src .w32) .z
  | .faddSub h x => wfHd p 0x28 h && wfR p imm x (.fp 0xE true true) (.dst .w32) (.src .w32) (.src .w32) .z
  | .fmul h x => wfHd p 0x29 h && wfR p imm x (.fp 0xE true true) (.dst .w32) (.src .w32) (.src .w32) .z
  | .ffma h x => wfHd p 0x2A h && wfR p imm x (.fp 0xE true true) (.dst .w32) (.src .w32) (.src .w32) (.src .w32)
  | .ffmaMs h x => wfHd p 0x2A h && wfR p imm x (.fp 0xE true true) (.dst .w32) (.src .w32) (.src .w32) (.src .w32)
  | .ffmaNm h x => wfHd p 0x2A h && wfR p imm x (.fp 0xE true true) (.dst .w32) (.src .w32) (.src .w32) (.src .w32)
  | .fmnx h x => wfHd p 0x2B h && wfR p imm x (.fp 0xE false true) (.dst .w32) (.src .w32) (.src .w32) .z
  | .fmnxMax h x => wfHd p 0x2B h && wfR p imm x (.fp 0xE false true) (.dst .w32) (.src .w32) (.src .w32) .z
  | .fmnxMinn h x => wfHd p 0x2B h && wfR p imm x (.fp 0xE false true) (.dst .w32) (.src .w32) (.src .w32) .z
  | .fmnxMaxn h x => wfHd p 0x2B h && wfR p imm x (.fp 0xE false true) (.dst .w32) (.src .w32) (.src .w32) .z
  | .fcmp h x => wfHd p 0x2C h && wfR p imm x (.fp 0x2 false true) (.predD) (.src .w32) (.src .w32) (.predS)
  | .fcls h x => wfHd p 0x2D h && wfR p imm x (.fp 0x2 false false) (.dst .w32) (.src .w32) .z .z
  | .fclsP h x => wfHd p 0x2D h && wfR p imm x (.fp 0x2 false false) (.predD) (.src .w32) (.src .w32) .z
  | .fscl h x => wfHd p 0x2E h && wfR p imm x (.fp 0x2 true true) (.dst .w32) (.src .w32) (.src .w32) .z
  | .frnd h x => wfHd p 0x2F h && wfR p imm x (.fp 0xE true true) (.dst .w32) (.src .w32) .z .z
  | .fdiv h x => wfHd p 0x30 h && wfR p imm x (.fp 0x2 true true) (.dst .w32) (.src .w32) (.src .w32) .z
  | .fsqrt h x => wfHd p 0x31 h && wfR p imm x (.fp 0x2 true true) (.dst .w32) (.src .w32) .z .z
  | .sfu h x => wfHd p 0x32 h && wfR p imm x (.fp 0x2 false true) (.dst .w32) (.src .w32) .z .z
  | .fcvt h x => wfHd p 0x33 h && wfR p imm x (.fp 0x3E true true) (.dst .w32) (.src .w32) (.elem) .z && wfFcvt x && fcvtElemFits x
  | .f2i h x => wfHd p 0x34 h && wfR p imm x (.fp 0xE true false) (.dst (wIty x.fn)) (.src .w32) (.elem) .z && convElemFits x
  | .i2f h x => wfHd p 0x35 h && wfR p imm x (.fp 0xE true true) (.dst .w32) (.src (wIty x.fn)) (.elem) .z && convElemFits x
  | .dadd h x => wfHd p 0x36 h && wfR p imm x (.fp 0x8000 true true) (.dst .w64) (.src .w64) (.src .w64) .z
  | .daddSub h x => wfHd p 0x36 h && wfR p imm x (.fp 0x8000 true true) (.dst .w64) (.src .w64) (.src .w64) .z
  | .dmul h x => wfHd p 0x37 h && wfR p imm x (.fp 0x8000 true true) (.dst .w64) (.src .w64) (.src .w64) .z
  | .dfma h x => wfHd p 0x38 h && wfR p imm x (.fp 0x8000 true true) (.dst .w64) (.src .w64) (.src .w64) (.src .w64)
  | .dfmaMs h x => wfHd p 0x38 h && wfR p imm x (.fp 0x8000 true true) (.dst .w64) (.src .w64) (.src .w64) (.src .w64)
  | .dfmaNm h x => wfHd p 0x38 h && wfR p imm x (.fp 0x8000 true true) (.dst .w64) (.src .w64) (.src .w64) (.src .w64)
  | .dcmp h x => wfHd p 0x39 h && wfR p imm x (.fp 0x8000 false true) (.predD) (.src .w64) (.src .w64) (.predS)
  | .dcvtF32F64 h x => wfHd p 0x3A h && wfR p imm x (.fp 0x8000 true true) (.dst .w32) (.src .w64) .z .z
  | .dcvtF64F32 h x => wfHd p 0x3A h && wfR p imm x (.fp 0x8000 true false) (.dst .w64) (.src .w32) .z .z
  | .dcvtIF64 h x => wfHd p 0x3A h && wfR p imm x (.fp 0x8000 true false) (.dst (wIty x.c)) (.src .w64) .z (.num 8)
  | .dcvtF64I h x => wfHd p 0x3A h && wfR p imm x (.fp 0x8000 true false) (.dst .w64) (.src (wIty x.c)) .z (.num 8)
  | .fdot2 h x => wfHd p 0x3B h && wfR p imm x (.fp 0xC true true) (.dst .w32) (.src .w32) (.src .w32) (.src .w32)
  | .f8dot h x => wfHd p 0x3C h && wfR p imm x (.fp 0x30 true true) (.dst .w32) (.src .w32) (.src .w32) (.src .w32)
  | .f8dotMx h x => wfHd p 0x3C h && wfR p imm x (.fp 0x10 true true) (.dst .w32) (.src .w32) (.src .w32) (.src .w32)
  | .bxpk h x => wfHd p 0x3D h && wfR p imm x (.fp 0x1C0 false false) (.dst .w32) (.src .w32) .z .z
  | .bxup h x => wfHd p 0x3E h && wfR p imm x (.fp 0x1C0 false false) (.dst .w32) (.src .w32) .z .z
  | .fxmFm h x => wfHd p 0x3F h && wfR p imm x (.fp 0x2 false true) (.dst .w32) (.src .w32) .z .z
  | .fxmFe h x => wfHd p 0x3F h && wfR p imm x (.fp 0x2 false true) (.dst .w32) (.src .w32) .z .z
  | .fxmIlogb h x => wfHd p 0x3F h && wfR p imm x (.fp 0x2 false true) (.dst .w32) (.src .w32) .z .z
  | .ld h x => wfHd p 0x40 h && wfM_ld p h x
  | .st h x => wfHd p 0x41 h && wfM_st p h x
  | .ldnc h x => wfHd p 0x42 h && wfM_ldnc p h x
  | .ldacq h x => wfHd p 0x43 h && wfM_ldacq p h x
  | .strel h x => wfHd p 0x44 h && wfM_strel p h x
  | .lds h x => wfHd p 0x45 h && wfM_lds p h x
  | .sts h x => wfHd p 0x46 h && wfM_sts p h x
  | .ldh h x => wfHd p 0x47 h && wfM_ldh p h x
  | .sth h x => wfHd p 0x48 h && wfM_sth p h x
  | .ldt h x => wfHd p 0x49 h && wfM_ldt p h x
  | .stt h x => wfHd p 0x4A h && wfM_stt p h x
  | .atom h x => wfHd p 0x4B h && wfR p imm x .atom (.dst (wAtom x)) (.addrReg) (.pairOrS (wAtom x)) .z
  | .atomf h x => wfHd p 0x4C h && wfR p imm x .atom32 (.dst .w32) (.addrReg) (.src .w32) .z
  | .cas h x => wfHd p 0x4D h && wfR p imm x .atom (.dst (wAtom x)) (.addrReg) (.src (wAtom x)) (.src (wAtom x))
  | .atoms h x => wfHd p 0x4E h && wfR p imm x .atoms (.dst (wAtom x)) (.spBase) (.src (wAtom x)) .any && wfAtomsC p x
  | .fence h x => wfHd p 0x4F h && wfR p imm x .zero .z .z .z .z
  | .fenceRel h x => wfHd p 0x4F h && wfR p imm x .zero .z .z .z .z
  | .fenceAcq h x => wfHd p 0x4F h && wfR p imm x .zero .z .z .z .z
  | .fenceAr h x => wfHd p 0x4F h && wfR p imm x .zero .z .z .z .z
  | .fencex h x => wfHd p 0x4F h && wfR p imm x .zero .z (.num 5) (.num 4) .z && x.a != x.b
  | .xlat h x => wfHd p 0x50 h && wfR p imm x .zero (.num 16) (.uniReg) .any .z && xlatB p x
  | .xlatW h x => wfHd p 0x50 h && wfR p imm x .zero (.num 16) (.uniReg) .any .z && xlatB p x
  | .hdrop h x => wfHd p 0x51 h && wfR p imm x .zero (.num 16) .z .z .z
  | .hdropAll h x => wfHd p 0x51 h && wfR p imm x .zero .z .z .z .z
  | .pref h x => wfHd p 0x52 h && wfM_pref p h x
  | .prefL2 h x => wfHd p 0x52 h && wfM_prefL2 p h x
  | .prefEvict h x => wfHd p 0x52 h && wfM_prefEvict p h x
  | .prefDiscard h x => wfHd p 0x52 h && wfM_prefDiscard p h x
  | .cmntWb h x => wfHd p 0x53 h && wfM_cmntWb p h x
  | .cmntWbinv h x => wfHd p 0x53 h && wfM_cmntWbinv p h x
  | .cmntInv1 h x => wfHd p 0x53 h && wfM_cmntInv1 p h x
  | .watch h x => wfHd p 0x54 h && wfM_watch p h x
  | .watchRegistration _ => p == .simt
  | .waitw h x => wfHd p 0x55 h && wfI_waitw p h x
  | .waitwTimeout _ => p == .simt
  | .waitwEarlyReturn _ => p == .simt
  | .fpost h x => wfHd p 0x56 h && wfR p imm x .zero (.num 64) (.uni .w32) .z .z
  | .fpostR h x => wfHd p 0x56 h && wfR p imm x .zero .z (.uni .w32) (.uni .w32) .z
  | .fwait h x => wfHd p 0x57 h && wfI_fwait p h x
  | .fread h x => wfHd p 0x58 h && wfR p imm x .zero (.dst .w32) (.num 64) .z .z
  | .freadAddr h x => wfHd p 0x58 h && wfR p imm x .zero (.dst .w32) (.num 64) .z .z
  | .barArrive h x => wfHd p 0x59 h && wfR p imm x .zero .z (.num 4) .z .z
  | .barWait h x => wfHd p 0x59 h && wfR p imm x .zero .z (.num 4) .z .z
  | .tdef h x => wfHd p 0x5A h && wfR p imm x .zero (.tile) (.uni .w64) .z .z
  | .tacqOwn h x => wfHd p 0x5B h && wfR p imm x .zero (.tile) .z .z .z
  | .tacqPub h x => wfHd p 0x5B h && wfR p imm x .zero (.tile) (.uni .w32) .z .z
  | .tacqRel h x => wfHd p 0x5B h && wfR p imm x .zero (.tile) .z .z .z
  | .tileDrainComplete _ _ => p == .simt
  | .spawn h x => wfHd p 0x5C h && wfI_spawn p h x
  | .spawnOne h x => wfHd p 0x5C h && wfI_spawnOne p h x
  | .futRes h x => wfHd p 0x5D h && wfR p imm x .zero (.dst .w32) (.addrReg) (.src .w64) .z
  | .futPoison h x => wfHd p 0x5D h && wfR p imm x .zero (.dst .w32) (.addrReg) .z .z
  | .futJoin h x => wfHd p 0x5D h && wfR p imm x .zero (.dst .w32) (.addrReg) (.src .w64) .z
  | .futPoll h x => wfHd p 0x5D h && wfR p imm x .zero (.dst .w64) (.addrReg) .z .z
  | .homeSliceJoin _ => p == .simt
  | .homeSliceResolve _ => p == .simt
  | .cellDecrement _ => p == .simt
  | .grecTs h x => wfHd p 0x5E h && wfR p imm x .zero (.dst .w64) .z .z .z
  | .grecTsx h x => wfHd p 0x5E h && wfR p imm x .zero (.dst .w32) .z .z .z
  | .grecSrc h x => wfHd p 0x5E h && wfR p imm x .zero (.dst .w32) .z .z .z
  | .grecWord h x => wfHd p 0x5E h && wfR p imm x .zero (.dst .w32) (.konst 15) .z .z
  | .rdtm h x => wfHd p 0x5F h && wfR p imm x .zero (.dst .w64) .z .z .z
  | .rdtmX h x => wfHd p 0x5F h && wfR p imm x .zero (.dst .w32) .z .z .z
  | .rdtmQ h x => wfHd p 0x5F h && wfR p imm x .zero (.dst .w128) .z .z .z
  | .pbr h x => wfHd p 0x60 h && wfI_pbr p h x
  | .pbrr h x => wfHd p 0x61 h && wfR p imm x .zero (.num 8) (.uniReg) .z .z
  | .pbrrGet h x => wfHd p 0x61 h && wfR p imm x .zero (.dst .w64) (.num 8) .z .z
  | .br h x => wfHd p 0x62 h && wfB_br p h x
  | .brAny h x => wfHd p 0x62 h && wfB_brAny p h x
  | .brAll h x => wfHd p 0x62 h && wfB_brAll p h x
  | .join h x => wfHd p 0x63 h && wfB_join p h x
  | .call h x => wfHd p 0x64 h && wfB_call p h x
  | .ret h x => wfHd p 0x65 h && wfB_ret p h x
  | .exit h x => wfHd p 0x66 h && wfB_exit p h x
  | .slotRelease _ => p == .simt
  | .fuse h x => wfHd p 0x67 h && wfB_fuse p h x
  | .laneGroupAcquire _ => p == .simt
  | .split h x => wfHd p 0x68 h && wfB_split p h x
  | .loop h x => wfHd p 0x69 h && wfI_loop p h x
  | .lend h x => wfHd p 0x6A h && wfB_lend p h x
  | .lendPop h x => wfHd p 0x6A h && wfB_lendPop p h x
  | .lendBrk h x => wfHd p 0x6A h && wfB_lendBrk p h x
  | .cont h x => wfHd p 0x6B h && wfI_cont p h x
  | .contB h x => wfHd p 0x6B h && wfI_contB p h x
  | .bgtTop h x => wfHd p 0x6C h && wfI_bgtTop p h x
  | .bgtRel h x => wfHd p 0x6C h && wfI_bgtRel p h x
  | .yield h x => wfHd p 0x6D h && wfB_yield p h x
  | .trap h x => wfHd p 0x6E h && wfI_trap p h x
  | .trapBkpt h x => wfHd p 0x6E h && wfI_trapBkpt p h x
  | .rdctr h x => wfHd p 0x6F h && wfR p imm x .zero (.dst .w64) (.konst 13) .z .z
  | .privMfp h x => wfHd p 0x7B h && wfR p imm x .zero (.dst (wPriv x.a)) .any .z .z
  | .privMtp h x => wfHd p 0x7B h && wfR p imm x .zero .z .any (.uni (wPriv x.a)) .z
  | .privInval h x => wfHd p 0x7B h && wfR p imm x .inval .z (.uni .w64) (.uni .w32) .z
  | .privYreq h x => wfHd p 0x7B h && wfR p imm x .zero (.dst .w32) (.uni .w32) .z .z
  | .tret h x => wfHd p 0x7C h && wfB_tret p h x
  | .tretSkip h x => wfHd p 0x7C h && wfB_tretSkip p h x
  | .ldx h x => wfHd p 0x7D h && wfM_ldx p h x
  | .stx h x => wfHd p 0x7D h && wfM_stx p h x
  | .ldxPi h x => wfHd p 0x7D h && wfM_ldxPi p h x
  | .stxPi h x => wfHd p 0x7D h && wfM_stxPi p h x
  | .brx h x => wfHd p 0x7E h && wfR p imm x .zero .z (.uniReg) .z .z
  | .atmx h x => wfHd p 0x7E h && wfR p imm x .zero (.dst .w32) (.uni .w32) .z .z
  | .mma h x => wfHd p 0x70 h && wfE_mma p h x
  | .mmag h x => wfHd p 0x71 h && wfE_mmag p h x
  | .zld h x => wfHd p 0x72 h && wfE_zld p h x
  | .zst h x => wfHd p 0x73 h && wfE_zst p h x
  | .zclr h x => wfHd p 0x74 h && wfE_zclr p h x
  | .zrowRd h x => wfHd p 0x75 h && wfE_zrowRd p h x
  | .zrowWr h x => wfHd p 0x75 h && wfE_zrowWr p h x
  | .matrixStart _ => p == .simt
  | .matrixCompletion _ => p == .simt
  | .copy h x => wfHd p 0x76 h && wfE_copy p h x
  | .strmIn h x => wfHd p 0x77 h && wfE_strmIn p h x
  | .strmOut h x => wfHd p 0x77 h && wfE_strmOut p h x
  | .netx h x => wfHd p 0x78 h && wfE_netx p h x
  | .gset h x => wfHd p 0x79 h && wfR p imm x .zero (.num 16) (.uni .w64) .z .z
  | .estsQ h x => wfHd p 0x7A h && wfR p imm x .zero (.dst .w32) .z .z .z
  | .estsErr h x => wfHd p 0x7A h && wfR p imm x .zero (.dst .w32) .z .z .z
  | .engineCommandTakeUp _ => p == .simt
  | .engineCommandCompletion _ => p == .simt
  | .strmChunkEnd _ => p == .simt
  | .netxFrameSent _ => p == .simt
  | .bundle hdr _ => p == .simt && headerOk hdr
  | .faultEntryDeferred _ => p == .simt
  | .walkCompletion _ => p == .simt
  | .atomicApply _ => p == .simt
  | .storeRegistration _ => p == .simt
  | .revocation _ => p == .simt
  | .loadResultReturn _ => p == .simt
  | .decoupledAccessCompletion _ => p == .simt
  | .pathWriteMerge _ => p == .simt
  | .remoteFlagPost _ => p == .simt
  | .fabricAccessAtTarget _ => p == .simt
  | .auditResult _ => p == .simt
  | .auditAgeExpiry _ _ _ => p == .simt
  | .recordAppend _ _ => p == .simt
  | .binTimerExpiry _ _ => p == .simt
  | .overflowReturn _ => p == .simt
  | .waiterPlacement _ => p == .simt
  | .schedulerWriteDelivery _ => p == .simt
  | .deadlineReached _ => p == .simt
  | .yieldSequence _ => p == .simt
  | .yieldRecordFreed _ => p == .simt
  | .correctableErrorFreeze _ => p == .simt
  | .freezeEnd _ => p == .simt
  | .uncorrectableError _ => p == .simt
  | .fullSave _ => p == .simt
  | .fullRestore _ => p == .simt
  | .worldSwitch _ _ => p == .simt
  | .sliceWrite _ _ _ => p == .simt
  | .percalePass => p == .simt
  | .residencyQuantum => p == .simt
  | .dispatch _ => p == .simt
  | .dispatchDefine _ => p == .simt
  | .lockstep _ => p == .simt
  | .lockstepRelease _ => p == .simt
  | .recordPacket _ => p == .simt
  | .copyPacket _ => p == .simt
  | .waitflag _ => p == .simt
  | .waitmem _ => p == .simt
  | .waitConditionMet _ => p == .simt
  | .waitTimeout _ => p == .simt
  | .signalWrite _ => p == .simt
  | .signalAdd _ => p == .simt
  | .signalResolve _ => p == .simt
  | .signalPoison _ => p == .simt
  | .signalPost _ => p == .simt
  | .timestamp _ => p == .simt
  | .budgetAdd _ => p == .simt
  | .budgetSet _ => p == .simt
  | .budgetReclaim _ => p == .simt
  | .deadline _ => p == .simt
  | .launchCompletion _ => p == .simt
  | .interruptDelayExpiry _ => p == .simt
  | .doorbell _ _ _ => p == .simt
  | .queueEnable _ _ _ => p == .simt
  | .contextCreate _ _ _ => p == .simt
  | .contextDestroy _ _ _ => p == .simt
  | .faultRetire _ _ _ => p == .simt
  | .faultRetireAll _ _ _ => p == .simt
  | .hostShootdown _ _ _ => p == .simt
  | .slotPin _ _ _ _ => p == .simt
  | .slotUnpin _ _ _ _ => p == .simt
  | .formatWindowEnable _ _ _ _ => p == .simt
  | .filterEnable _ _ _ _ => p == .simt
  | .portBreakout _ _ _ => p == .simt
  | .linkUp _ => p == .simt
  | .frameFirstByte _ _ => p == .simt
  | .frameEnd _ _ => p == .simt
  | .ptpMessage _ _ => p == .simt
  | .assignmentWrite _ _ _ => p == .simt
  | .hostWrite _ _ => p == .simt
  | .semaphoreAcquire _ _ => p == .simt
  | .semaphoreRelease _ _ => p == .simt
  | .portUnfreeze _ _ => p == .simt
  | .functionLevelReset _ _ => p == .simt
  | .timeAdjust _ _ => p == .simt
  | .timeSet _ _ => p == .simt
  | .deviceTimeLatchRead _ => p == .simt
  | .tenantFailsRead _ _ => p == .simt
  | .portCounterRead _ _ _ => p == .simt
  | .throttleCountRead _ => p == .simt
  | .counterValueWrite _ _ _ _ => p == .simt
  | .ginghamClear _ _ _ => p == .simt
  | .debugStop _ _ _ => p == .simt
  | .debugStopEffect _ => p == .simt
  | .debugGo _ _ _ => p == .simt
  | .debugDataWrite _ _ _ => p == .simt
  | .moduleReset => p == .simt
  | .recoveryProgram _ => p == .simt
  | .firmwareUpdate _ => p == .simt
  | .attestationReport _ => p == .simt
  | .raiseRollbackFloor _ => p == .simt
  | .throttleChange _ _ _ _ => p == .simt
  | .thermalTrip => p == .simt
  | .registerWrite _ _ _ => p == .simt
  | .linkDown _ => p == .simt
  | .fabricLinkDown _ => p == .simt
  | .muslinReplayInjection _ => p == .simt
  | .timeSlewEnd => p == .simt

/-- The format of each assigned major (column Fmt of R177). -/
def formatOf (maj : Nat) : Option Format :=
  match maj with
  | 0x00 | 0x01 | 0x02 | 0x03 | 0x04 | 0x05 | 0x06 | 0x07 | 0x08 | 0x09 | 0x0A | 0x0B | 0x0C | 0x0D => some .r
  | 0x0E | 0x0F | 0x10 | 0x11 | 0x12 | 0x13 | 0x14 | 0x15 | 0x16 | 0x17 | 0x1A | 0x1B | 0x1C | 0x1D => some .r
  | 0x1E | 0x1F | 0x20 | 0x21 | 0x22 | 0x23 | 0x24 | 0x25 | 0x26 | 0x27 | 0x28 | 0x29 | 0x2A | 0x2B => some .r
  | 0x2C | 0x2D | 0x2E | 0x2F | 0x30 | 0x31 | 0x32 | 0x33 | 0x34 | 0x35 | 0x36 | 0x37 | 0x38 | 0x39 => some .r
  | 0x3A | 0x3B | 0x3C | 0x3D | 0x3E | 0x3F | 0x4B | 0x4C | 0x4D | 0x4E | 0x4F | 0x50 | 0x51 | 0x56 => some .r
  | 0x58 | 0x59 | 0x5A | 0x5B | 0x5D | 0x5E | 0x5F | 0x61 | 0x6F | 0x79 | 0x7A | 0x7B | 0x7E => some .r
  | 0x18 | 0x19 | 0x55 | 0x57 | 0x5C | 0x60 | 0x69 | 0x6B | 0x6C | 0x6E => some .i
  | 0x40 | 0x41 | 0x42 | 0x43 | 0x44 | 0x45 | 0x46 | 0x47 | 0x48 | 0x49 | 0x4A | 0x52 | 0x53 | 0x54 => some .m
  | 0x7D => some .m
  | 0x62 | 0x63 | 0x64 | 0x65 | 0x66 | 0x67 | 0x68 | 0x6A | 0x6D | 0x7C => some .b
  | 0x70 | 0x71 | 0x72 | 0x73 | 0x74 | 0x75 | 0x76 | 0x77 | 0x78 => some .e
  | _ => none

/-- The constructor of a Format R word, by major and then by function code or form field. -/
def buildR (maj : Nat) (h : Hd) (x : RF) : Option Instr :=
  match maj with
  | 0x00 => match x.fn.toNat with
    | 0 => some (.nop h x)
    | 1 => some (.nopPause h x)
    | _ => none
  | 0x01 => match x.fn.toNat with
    | 0 => some (.iadd h x)
    | 1 => some (.iaddAddc h x)
    | 2 => some (.iaddSub h x)
    | 3 => some (.iaddSubb h x)
    | 4 => some (.iaddRsub h x)
    | _ => none
  | 0x02 => match x.fn.toNat with
    | 0 => some (.imul h x)
    | 1 => some (.imulHi h x)
    | 2 => some (.imulWide h x)
    | _ => none
  | 0x03 => match x.fn.toNat with
    | 0 => some (.imad h x)
    | 1 => some (.imadWide h x)
    | _ => none
  | 0x04 => match x.fn.toNat with
    | 0 => some (.idiv h x)
    | 1 => some (.idivRem h x)
    | _ => none
  | 0x05 => match x.fn.toNat with
    | 0 => some (.imnx h x)
    | 1 => some (.imnxMax h x)
    | _ => none
  | 0x06 => match x.fn.toNat with
    | 0 => some (.iabs h x)
    | 1 => some (.iabsNeg h x)
    | 2 => some (.iabsSad h x)
    | _ => none
  | 0x07 => match x.fn.toNat with
    | 0 => some (.iclmp h x)
    | _ => none
  | 0x08 => match x.fn.toNat with
    | 0 => some (.and h x)
    | 1 => some (.andNot h x)
    | _ => none
  | 0x09 => match x.fn.toNat with
    | 0 => some (.or h x)
    | 1 => some (.orNot h x)
    | _ => none
  | 0x0A => match x.fn.toNat with
    | 0 => some (.xor h x)
    | 1 => some (.xorNot h x)
    | _ => none
  | 0x0B => some (.lut3 h x)
  | 0x0C => match x.fn.toNat with
    | 0 => some (.shl h x)
    | _ => none
  | 0x0D => match x.fn.toNat with
    | 0 => some (.shr h x)
    | 1 => some (.shrAr h x)
    | _ => none
  | 0x0E => match x.fn.toNat with
    | 0 => some (.rot h x)
    | 1 => some (.rotRr h x)
    | 2 => some (.rotShfl h x)
    | 3 => some (.rotShfr h x)
    | _ => none
  | 0x0F => match x.fn.toNat with
    | 0 => some (.popc h x)
    | _ => none
  | 0x10 => match x.fn.toNat with
    | 0 => some (.clz h x)
    | 1 => some (.clzCtz h x)
    | 2 => some (.clzCls h x)
    | _ => none
  | 0x11 => match x.fn.toNat with
    | 0 => some (.brev h x)
    | 1 => some (.brevByte h x)
    | _ => none
  | 0x12 => match x.fn.toNat with
    | 0 => some (.bfx h x)
    | _ => none
  | 0x13 => match x.fn.toNat with
    | 0 => some (.bfi h x)
    | _ => none
  | 0x14 => match x.fn.toNat with
    | 0 => some (.prmt h x)
    | _ => none
  | 0x15 => match x.fn.toNat with
    | 0 => some (.pack h x)
    | 1 => some (.packSs h x)
    | 2 => some (.packNn h x)
    | _ => none
  | 0x16 => match x.fn.toNat with
    | 0 | 1 | 2 | 3 | 4 | 5 => some (.icmp h x)
    | _ => none
  | 0x17 => match x.fn.toNat with
    | 0 => some (.sel h x)
    | _ => none
  | 0x1A => match x.fn.toNat with
    | 0 => some (.mov h x)
    | 1 => some (.movBc h x)
    | 2 => some (.xmov h x)
    | _ => none
  | 0x1B => match x.fn.toNat with
    | 0 => some (.lea h x)
    | 1 => some (.leaN h x)
    | _ => none
  | 0x1C => match x.fn.toNat with
    | 0 => some (.idot h x)
    | 1 => some (.idotH h x)
    | _ => none
  | 0x1D => some (.plog h x)
  | 0x1E => match x.fn.toNat with
    | 0 => some (.mfs h x)
    | _ => none
  | 0x1F => match x.fn.toNat with
    | 0 => some (.mts h x)
    | _ => none
  | 0x20 => match x.fn.toNat with
    | 0 => some (.voteAny h x)
    | 1 => some (.voteAll h x)
    | 2 => some (.voteBallot h x)
    | 3 => some (.voteCount h x)
    | 4 => some (.voteFirst h x)
    | _ => none
  | 0x21 => match x.fn.toNat with
    | 0 => some (.rdlane h x)
    | _ => none
  | 0x22 => match x.fn.toNat with
    | 0 => some (.wrlane h x)
    | _ => none
  | 0x23 => match x.fn.toNat with
    | 0 => some (.shuf h x)
    | 1 => some (.shufRot h x)
    | 2 => some (.shufXor h x)
    | 3 => some (.shufRev h x)
    | _ => none
  | 0x24 => match x.fn.toNat with
    | 0 | 1 | 2 | 3 => some (.patld h x)
    | _ => none
  | 0x25 => match x.fn.toNat with
    | 0 | 1 | 2 | 3 => some (.patsw h x)
    | _ => none
  | 0x26 => match x.fn.toNat with
    | 0 | 1 | 2 | 3 | 4 | 5 | 6 | 7 | 8 | 9 | 10 => some (.gred h x)
    | _ => none
  | 0x27 => match x.fn.toNat with
    | 0 | 1 | 2 | 3 | 4 | 5 | 6 | 7 | 8 | 9 | 10 | 16 | 17 | 18 | 19 | 20 | 21 | 22 | 23 | 24 | 25 | 26 => some (.gscan h x)
    | _ => none
  | 0x28 => match x.fn.toNat with
    | 0 => some (.fadd h x)
    | 1 => some (.faddSub h x)
    | _ => none
  | 0x29 => match x.fn.toNat with
    | 0 => some (.fmul h x)
    | _ => none
  | 0x2A => match x.fn.toNat with
    | 0 => some (.ffma h x)
    | 1 => some (.ffmaMs h x)
    | 2 => some (.ffmaNm h x)
    | _ => none
  | 0x2B => match x.fn.toNat with
    | 0 => some (.fmnx h x)
    | 1 => some (.fmnxMax h x)
    | 2 => some (.fmnxMinn h x)
    | 3 => some (.fmnxMaxn h x)
    | _ => none
  | 0x2C => match x.fn.toNat with
    | 0 | 1 | 2 | 3 | 4 | 5 | 6 | 7 => some (.fcmp h x)
    | _ => none
  | 0x2D => match x.fn.toNat with
    | 0 => some (.fcls h x)
    | 1 => some (.fclsP h x)
    | _ => none
  | 0x2E => match x.fn.toNat with
    | 0 => some (.fscl h x)
    | _ => none
  | 0x2F => match x.fn.toNat with
    | 0 => some (.frnd h x)
    | _ => none
  | 0x30 => match x.fn.toNat with
    | 0 => some (.fdiv h x)
    | _ => none
  | 0x31 => match x.fn.toNat with
    | 0 => some (.fsqrt h x)
    | _ => none
  | 0x32 => match x.fn.toNat with
    | 0 | 1 | 2 | 3 | 4 | 5 | 6 | 7 => some (.sfu h x)
    | _ => none
  | 0x33 => if x.fn.toNat < 16 then some (.fcvt h x) else none
  | 0x34 => match x.fn.toNat with
    | 0 | 1 | 2 | 3 | 4 | 5 | 6 | 7 => some (.f2i h x)
    | _ => none
  | 0x35 => match x.fn.toNat with
    | 0 | 1 | 2 | 3 | 4 | 5 | 6 | 7 => some (.i2f h x)
    | _ => none
  | 0x36 => match x.fn.toNat with
    | 0 => some (.dadd h x)
    | 1 => some (.daddSub h x)
    | _ => none
  | 0x37 => match x.fn.toNat with
    | 0 => some (.dmul h x)
    | _ => none
  | 0x38 => match x.fn.toNat with
    | 0 => some (.dfma h x)
    | 1 => some (.dfmaMs h x)
    | 2 => some (.dfmaNm h x)
    | _ => none
  | 0x39 => match x.fn.toNat with
    | 0 | 1 | 2 | 3 | 4 | 5 | 6 | 7 => some (.dcmp h x)
    | _ => none
  | 0x3A => match x.fn.toNat with
    | 0 => some (.dcvtF32F64 h x)
    | 1 => some (.dcvtF64F32 h x)
    | 2 => some (.dcvtIF64 h x)
    | 3 => some (.dcvtF64I h x)
    | _ => none
  | 0x3B => match x.fn.toNat with
    | 0 => some (.fdot2 h x)
    | _ => none
  | 0x3C => match x.fn.toNat with
    | 0 => some (.f8dot h x)
    | 1 => some (.f8dotMx h x)
    | _ => none
  | 0x3D => match x.fn.toNat with
    | 0 | 1 => some (.bxpk h x)
    | _ => none
  | 0x3E => match x.fn.toNat with
    | 0 | 1 => some (.bxup h x)
    | _ => none
  | 0x3F => match x.fn.toNat with
    | 0 => some (.fxmFm h x)
    | 1 => some (.fxmFe h x)
    | 2 => some (.fxmIlogb h x)
    | _ => none
  | 0x4B => match x.fn.toNat with
    | 0 | 1 | 2 | 3 | 4 | 5 | 6 | 7 | 8 | 9 | 10 => some (.atom h x)
    | _ => none
  | 0x4C => match x.fn.toNat with
    | 0 | 1 | 2 | 3 | 4 => some (.atomf h x)
    | _ => none
  | 0x4D => match x.fn.toNat with
    | 0 => some (.cas h x)
    | _ => none
  | 0x4E => match x.fn.toNat with
    | 0 | 1 | 2 | 3 | 4 | 5 | 6 | 7 | 8 | 9 | 10 | 16 | 32 | 33 | 34 => some (.atoms h x)
    | _ => none
  | 0x4F => match x.fn.toNat with
    | 0 => some (.fence h x)
    | 1 => some (.fenceRel h x)
    | 2 => some (.fenceAcq h x)
    | 3 => some (.fenceAr h x)
    | 16 => some (.fencex h x)
    | _ => none
  | 0x50 => match x.fn.toNat with
    | 0 => some (.xlat h x)
    | 1 => some (.xlatW h x)
    | _ => none
  | 0x51 => match x.fn.toNat with
    | 0 => some (.hdrop h x)
    | 1 => some (.hdropAll h x)
    | _ => none
  | 0x56 => match x.fn.toNat with
    | 0 => some (.fpost h x)
    | 1 => some (.fpostR h x)
    | _ => none
  | 0x58 => match x.fn.toNat with
    | 0 => some (.fread h x)
    | 1 => some (.freadAddr h x)
    | _ => none
  | 0x59 => match x.fn.toNat with
    | 0 => some (.barArrive h x)
    | 1 => some (.barWait h x)
    | _ => none
  | 0x5A => match x.fn.toNat with
    | 0 => some (.tdef h x)
    | _ => none
  | 0x5B => match x.fn.toNat with
    | 0 => some (.tacqOwn h x)
    | 1 => some (.tacqPub h x)
    | 2 => some (.tacqRel h x)
    | _ => none
  | 0x5D => match x.fn.toNat with
    | 0 => some (.futRes h x)
    | 1 => some (.futPoison h x)
    | 2 => some (.futJoin h x)
    | 3 => some (.futPoll h x)
    | _ => none
  | 0x5E => match x.fn.toNat with
    | 0 => some (.grecTs h x)
    | 1 => some (.grecTsx h x)
    | 2 => some (.grecSrc h x)
    | 3 => some (.grecWord h x)
    | _ => none
  | 0x5F => match x.fn.toNat with
    | 0 => some (.rdtm h x)
    | 1 => some (.rdtmX h x)
    | 2 => some (.rdtmQ h x)
    | _ => none
  | 0x61 => match x.fn.toNat with
    | 0 => some (.pbrr h x)
    | 1 => some (.pbrrGet h x)
    | _ => none
  | 0x6F => match x.fn.toNat with
    | 0 => some (.rdctr h x)
    | _ => none
  | 0x79 => match x.fn.toNat with
    | 0 => some (.gset h x)
    | _ => none
  | 0x7A => match x.fn.toNat with
    | 0 => some (.estsQ h x)
    | 1 => some (.estsErr h x)
    | _ => none
  | 0x7B => match x.fn.toNat with
    | 0 => some (.privMfp h x)
    | 1 => some (.privMtp h x)
    | 2 => some (.privInval h x)
    | 3 => some (.privYreq h x)
    | _ => none
  | 0x7E => match x.fn.toNat with
    | 0 => some (.brx h x)
    | 1 => some (.atmx h x)
    | _ => none
  | _ => none

/-- The constructor of a Format I word, by major and then by function code or form field. -/
def buildI (maj : Nat) (h : Hd) (x : IF) : Option Instr :=
  match maj with
  | 0x18 => match x.fn.toNat with
    | 0 => some (.movi h x)
    | 1 => some (.moviX64 h x)
    | _ => none
  | 0x19 => match x.fn.toNat with
    | 0 => some (.movh h x)
    | 1 => some (.movhX32 h x)
    | _ => none
  | 0x55 => match x.fn.toNat with
    | 0 => some (.waitw h x)
    | _ => none
  | 0x57 => match x.fn.toNat with
    | 0 => some (.fwait h x)
    | _ => none
  | 0x5C => match x.fn.toNat with
    | 0 => some (.spawn h x)
    | 1 => some (.spawnOne h x)
    | _ => none
  | 0x60 => match x.fn.toNat with
    | 0 => some (.pbr h x)
    | _ => none
  | 0x69 => match x.fn.toNat with
    | 0 => some (.loop h x)
    | _ => none
  | 0x6B => match x.fn.toNat with
    | 0 => some (.cont h x)
    | 1 => some (.contB h x)
    | _ => none
  | 0x6C => match x.fn.toNat with
    | 0 => some (.bgtTop h x)
    | 1 => some (.bgtRel h x)
    | _ => none
  | 0x6E => match x.fn.toNat with
    | 0 => some (.trap h x)
    | 1 => some (.trapBkpt h x)
    | _ => none
  | _ => none

/-- The constructor of a Format B word, by major and then by function code or form field. -/
def buildB (maj : Nat) (h : Hd) (x : BF) : Option Instr :=
  match maj with
  | 0x62 => match x.fn.toNat with
    | 0 => some (.br h x)
    | 1 => some (.brAny h x)
    | 2 => some (.brAll h x)
    | _ => none
  | 0x63 => match x.fn.toNat with
    | 0 => some (.join h x)
    | _ => none
  | 0x64 => match x.fn.toNat with
    | 0 => some (.call h x)
    | _ => none
  | 0x65 => match x.fn.toNat with
    | 0 => some (.ret h x)
    | _ => none
  | 0x66 => match x.fn.toNat with
    | 0 => some (.exit h x)
    | _ => none
  | 0x67 => match x.fn.toNat with
    | 0 => some (.fuse h x)
    | _ => none
  | 0x68 => match x.fn.toNat with
    | 0 => some (.split h x)
    | _ => none
  | 0x6A => match x.fn.toNat with
    | 0 => some (.lend h x)
    | 1 => some (.lendPop h x)
    | 2 => some (.lendBrk h x)
    | _ => none
  | 0x6D => match x.fn.toNat with
    | 0 => some (.yield h x)
    | _ => none
  | 0x7C => match x.fn.toNat with
    | 0 => some (.tret h x)
    | 1 => some (.tretSkip h x)
    | _ => none
  | _ => none

/-- The constructor of a Format M word, by major and then by function code or form field. -/
def buildM (maj : Nat) (h : Hd) (x : MF) : Option Instr :=
  match maj with
  | 0x40 => some (.ld h x)
  | 0x41 => some (.st h x)
  | 0x42 => some (.ldnc h x)
  | 0x43 => some (.ldacq h x)
  | 0x44 => some (.strel h x)
  | 0x45 => some (.lds h x)
  | 0x46 => some (.sts h x)
  | 0x47 => some (.ldh h x)
  | 0x48 => some (.sth h x)
  | 0x49 => some (.ldt h x)
  | 0x4A => some (.stt h x)
  | 0x52 => match (x.d.extractLsb' 0 2).toNat with
    | 0 => some (.pref h x)
    | 1 => some (.prefL2 h x)
    | 2 => some (.prefEvict h x)
    | _ => some (.prefDiscard h x)
  | 0x53 => match (x.d.extractLsb' 0 2).toNat with
    | 0 => some (.cmntWb h x)
    | 1 => some (.cmntWbinv h x)
    | 2 => some (.cmntInv1 h x)
    | _ => none
  | 0x54 => some (.watch h x)
  | 0x7D => match x.queue.toNat with
    | 0 => some (.ldx h x)
    | 1 => some (.stx h x)
    | 2 => some (.ldxPi h x)
    | _ => some (.stxPi h x)
  | _ => none

/-- The constructor of a Format E word, by major and then by function code or form field. -/
def buildE (maj : Nat) (h : Hd) (x : EF) : Option Instr :=
  match maj with
  | 0x70 => some (.mma h x)
  | 0x71 => some (.mmag h x)
  | 0x72 => some (.zld h x)
  | 0x73 => some (.zst h x)
  | 0x74 => some (.zclr h x)
  | 0x75 => match x.fn.toNat with
    | 0 => some (.zrowRd h x)
    | 1 => some (.zrowWr h x)
    | _ => none
  | 0x76 => some (.copy h x)
  | 0x77 => if x.fn.getLsbD 1 then some (.strmOut h x) else some (.strmIn h x)
  | 0x78 => some (.netx h x)
  | _ => none

/-- The constructor that a word's major and form name, before its fields are checked. -/
def parseWord (w : BitVec 64) : Except Reject Instr :=
  let maj := (w.extractLsb' 57 7).toNat
  let h := unpackHd w
  let named (o : Option Instr) : Except Reject Instr := match o with | some i => .ok i | none => .error .opcode
  match formatOf maj with
  | none => .error .opcode
  | some .r => named (buildR maj h (unpackR w))
  | some .i => named (buildI maj h (unpackI w))
  | some .m => named (buildM maj h (unpackM w))
  | some .e => named (buildE maj h (unpackE w))
  | some .b => if w.extractLsb' 0 36 == 0#36 then named (buildB maj h (unpackB w)) else .error .reservedBits

/-- The instruction that a word is at a place (R178): total, and each word that is none is rejected by name. -/
def decodeWord (p : Place) (imm : Bool) (w : BitVec 64) : Except Reject Instr :=
  match parseWord w with
  | .error e => .error e
  | .ok i => if i.legal p imm then .ok i else .error .field

/-- Whether a word is a bundle header (R163). -/
def isHeader (w : BitVec 64) : Bool := w.extractLsb' 57 7 == 0x7F#7

/-- A bundle from its header and the words that follow it (R163). Its slot words are decoded when it issues (R169). -/
def decodeBundle (hdr : BitVec 64) (ws : List (BitVec 64)) : Except Reject Instr :=
  if isHeader hdr && headerOk hdr && headerSlots hdr ≤ ws.length then .ok (.bundle hdr (ws.take (headerSlots hdr)))
  else .error .header

/-! ## The encoder -/

/-- The major, common fields and format fields of each instruction; none for a bundle and for the events. -/
def Instr.layout (i : Instr) : Option (BitVec 7 × Hd × Fields) :=
  match i with
  | .nop h x => some (0x00#7, h, .r x)
  | .nopPause h x => some (0x00#7, h, .r x)
  | .pauseExpiry _ => none
  | .iadd h x => some (0x01#7, h, .r x)
  | .iaddAddc h x => some (0x01#7, h, .r x)
  | .iaddSub h x => some (0x01#7, h, .r x)
  | .iaddSubb h x => some (0x01#7, h, .r x)
  | .iaddRsub h x => some (0x01#7, h, .r x)
  | .imul h x => some (0x02#7, h, .r x)
  | .imulHi h x => some (0x02#7, h, .r x)
  | .imulWide h x => some (0x02#7, h, .r x)
  | .imad h x => some (0x03#7, h, .r x)
  | .imadWide h x => some (0x03#7, h, .r x)
  | .idiv h x => some (0x04#7, h, .r x)
  | .idivRem h x => some (0x04#7, h, .r x)
  | .imnx h x => some (0x05#7, h, .r x)
  | .imnxMax h x => some (0x05#7, h, .r x)
  | .iabs h x => some (0x06#7, h, .r x)
  | .iabsNeg h x => some (0x06#7, h, .r x)
  | .iabsSad h x => some (0x06#7, h, .r x)
  | .iclmp h x => some (0x07#7, h, .r x)
  | .and h x => some (0x08#7, h, .r x)
  | .andNot h x => some (0x08#7, h, .r x)
  | .or h x => some (0x09#7, h, .r x)
  | .orNot h x => some (0x09#7, h, .r x)
  | .xor h x => some (0x0A#7, h, .r x)
  | .xorNot h x => some (0x0A#7, h, .r x)
  | .lut3 h x => some (0x0B#7, h, .r x)
  | .shl h x => some (0x0C#7, h, .r x)
  | .shr h x => some (0x0D#7, h, .r x)
  | .shrAr h x => some (0x0D#7, h, .r x)
  | .rot h x => some (0x0E#7, h, .r x)
  | .rotRr h x => some (0x0E#7, h, .r x)
  | .rotShfl h x => some (0x0E#7, h, .r x)
  | .rotShfr h x => some (0x0E#7, h, .r x)
  | .popc h x => some (0x0F#7, h, .r x)
  | .clz h x => some (0x10#7, h, .r x)
  | .clzCtz h x => some (0x10#7, h, .r x)
  | .clzCls h x => some (0x10#7, h, .r x)
  | .brev h x => some (0x11#7, h, .r x)
  | .brevByte h x => some (0x11#7, h, .r x)
  | .bfx h x => some (0x12#7, h, .r x)
  | .bfi h x => some (0x13#7, h, .r x)
  | .prmt h x => some (0x14#7, h, .r x)
  | .pack h x => some (0x15#7, h, .r x)
  | .packSs h x => some (0x15#7, h, .r x)
  | .packNn h x => some (0x15#7, h, .r x)
  | .icmp h x => some (0x16#7, h, .r x)
  | .sel h x => some (0x17#7, h, .r x)
  | .plog h x => some (0x1D#7, h, .r x)
  | .movi h x => some (0x18#7, h, .i x)
  | .moviX64 h x => some (0x18#7, h, .i x)
  | .movh h x => some (0x19#7, h, .i x)
  | .movhX32 h x => some (0x19#7, h, .i x)
  | .mov h x => some (0x1A#7, h, .r x)
  | .movBc h x => some (0x1A#7, h, .r x)
  | .xmov h x => some (0x1A#7, h, .r x)
  | .lea h x => some (0x1B#7, h, .r x)
  | .leaN h x => some (0x1B#7, h, .r x)
  | .idot h x => some (0x1C#7, h, .r x)
  | .idotH h x => some (0x1C#7, h, .r x)
  | .mfs h x => some (0x1E#7, h, .r x)
  | .mts h x => some (0x1F#7, h, .r x)
  | .voteAny h x => some (0x20#7, h, .r x)
  | .voteAll h x => some (0x20#7, h, .r x)
  | .voteBallot h x => some (0x20#7, h, .r x)
  | .voteCount h x => some (0x20#7, h, .r x)
  | .voteFirst h x => some (0x20#7, h, .r x)
  | .rdlane h x => some (0x21#7, h, .r x)
  | .wrlane h x => some (0x22#7, h, .r x)
  | .shuf h x => some (0x23#7, h, .r x)
  | .shufRot h x => some (0x23#7, h, .r x)
  | .shufXor h x => some (0x23#7, h, .r x)
  | .shufRev h x => some (0x23#7, h, .r x)
  | .patld h x => some (0x24#7, h, .r x)
  | .patsw h x => some (0x25#7, h, .r x)
  | .gred h x => some (0x26#7, h, .r x)
  | .gscan h x => some (0x27#7, h, .r x)
  | .fadd h x => some (0x28#7, h, .r x)
  | .faddSub h x => some (0x28#7, h, .r x)
  | .fmul h x => some (0x29#7, h, .r x)
  | .ffma h x => some (0x2A#7, h, .r x)
  | .ffmaMs h x => some (0x2A#7, h, .r x)
  | .ffmaNm h x => some (0x2A#7, h, .r x)
  | .fmnx h x => some (0x2B#7, h, .r x)
  | .fmnxMax h x => some (0x2B#7, h, .r x)
  | .fmnxMinn h x => some (0x2B#7, h, .r x)
  | .fmnxMaxn h x => some (0x2B#7, h, .r x)
  | .fcmp h x => some (0x2C#7, h, .r x)
  | .fcls h x => some (0x2D#7, h, .r x)
  | .fclsP h x => some (0x2D#7, h, .r x)
  | .fscl h x => some (0x2E#7, h, .r x)
  | .frnd h x => some (0x2F#7, h, .r x)
  | .fdiv h x => some (0x30#7, h, .r x)
  | .fsqrt h x => some (0x31#7, h, .r x)
  | .sfu h x => some (0x32#7, h, .r x)
  | .fcvt h x => some (0x33#7, h, .r x)
  | .f2i h x => some (0x34#7, h, .r x)
  | .i2f h x => some (0x35#7, h, .r x)
  | .dadd h x => some (0x36#7, h, .r x)
  | .daddSub h x => some (0x36#7, h, .r x)
  | .dmul h x => some (0x37#7, h, .r x)
  | .dfma h x => some (0x38#7, h, .r x)
  | .dfmaMs h x => some (0x38#7, h, .r x)
  | .dfmaNm h x => some (0x38#7, h, .r x)
  | .dcmp h x => some (0x39#7, h, .r x)
  | .dcvtF32F64 h x => some (0x3A#7, h, .r x)
  | .dcvtF64F32 h x => some (0x3A#7, h, .r x)
  | .dcvtIF64 h x => some (0x3A#7, h, .r x)
  | .dcvtF64I h x => some (0x3A#7, h, .r x)
  | .fdot2 h x => some (0x3B#7, h, .r x)
  | .f8dot h x => some (0x3C#7, h, .r x)
  | .f8dotMx h x => some (0x3C#7, h, .r x)
  | .bxpk h x => some (0x3D#7, h, .r x)
  | .bxup h x => some (0x3E#7, h, .r x)
  | .fxmFm h x => some (0x3F#7, h, .r x)
  | .fxmFe h x => some (0x3F#7, h, .r x)
  | .fxmIlogb h x => some (0x3F#7, h, .r x)
  | .ld h x => some (0x40#7, h, .m x)
  | .st h x => some (0x41#7, h, .m x)
  | .ldnc h x => some (0x42#7, h, .m x)
  | .ldacq h x => some (0x43#7, h, .m x)
  | .strel h x => some (0x44#7, h, .m x)
  | .lds h x => some (0x45#7, h, .m x)
  | .sts h x => some (0x46#7, h, .m x)
  | .ldh h x => some (0x47#7, h, .m x)
  | .sth h x => some (0x48#7, h, .m x)
  | .ldt h x => some (0x49#7, h, .m x)
  | .stt h x => some (0x4A#7, h, .m x)
  | .atom h x => some (0x4B#7, h, .r x)
  | .atomf h x => some (0x4C#7, h, .r x)
  | .cas h x => some (0x4D#7, h, .r x)
  | .atoms h x => some (0x4E#7, h, .r x)
  | .fence h x => some (0x4F#7, h, .r x)
  | .fenceRel h x => some (0x4F#7, h, .r x)
  | .fenceAcq h x => some (0x4F#7, h, .r x)
  | .fenceAr h x => some (0x4F#7, h, .r x)
  | .fencex h x => some (0x4F#7, h, .r x)
  | .xlat h x => some (0x50#7, h, .r x)
  | .xlatW h x => some (0x50#7, h, .r x)
  | .hdrop h x => some (0x51#7, h, .r x)
  | .hdropAll h x => some (0x51#7, h, .r x)
  | .pref h x => some (0x52#7, h, .m x)
  | .prefL2 h x => some (0x52#7, h, .m x)
  | .prefEvict h x => some (0x52#7, h, .m x)
  | .prefDiscard h x => some (0x52#7, h, .m x)
  | .cmntWb h x => some (0x53#7, h, .m x)
  | .cmntWbinv h x => some (0x53#7, h, .m x)
  | .cmntInv1 h x => some (0x53#7, h, .m x)
  | .watch h x => some (0x54#7, h, .m x)
  | .watchRegistration _ => none
  | .waitw h x => some (0x55#7, h, .i x)
  | .waitwTimeout _ => none
  | .waitwEarlyReturn _ => none
  | .fpost h x => some (0x56#7, h, .r x)
  | .fpostR h x => some (0x56#7, h, .r x)
  | .fwait h x => some (0x57#7, h, .i x)
  | .fread h x => some (0x58#7, h, .r x)
  | .freadAddr h x => some (0x58#7, h, .r x)
  | .barArrive h x => some (0x59#7, h, .r x)
  | .barWait h x => some (0x59#7, h, .r x)
  | .tdef h x => some (0x5A#7, h, .r x)
  | .tacqOwn h x => some (0x5B#7, h, .r x)
  | .tacqPub h x => some (0x5B#7, h, .r x)
  | .tacqRel h x => some (0x5B#7, h, .r x)
  | .tileDrainComplete _ _ => none
  | .spawn h x => some (0x5C#7, h, .i x)
  | .spawnOne h x => some (0x5C#7, h, .i x)
  | .futRes h x => some (0x5D#7, h, .r x)
  | .futPoison h x => some (0x5D#7, h, .r x)
  | .futJoin h x => some (0x5D#7, h, .r x)
  | .futPoll h x => some (0x5D#7, h, .r x)
  | .homeSliceJoin _ => none
  | .homeSliceResolve _ => none
  | .cellDecrement _ => none
  | .grecTs h x => some (0x5E#7, h, .r x)
  | .grecTsx h x => some (0x5E#7, h, .r x)
  | .grecSrc h x => some (0x5E#7, h, .r x)
  | .grecWord h x => some (0x5E#7, h, .r x)
  | .rdtm h x => some (0x5F#7, h, .r x)
  | .rdtmX h x => some (0x5F#7, h, .r x)
  | .rdtmQ h x => some (0x5F#7, h, .r x)
  | .pbr h x => some (0x60#7, h, .i x)
  | .pbrr h x => some (0x61#7, h, .r x)
  | .pbrrGet h x => some (0x61#7, h, .r x)
  | .br h x => some (0x62#7, h, .b x)
  | .brAny h x => some (0x62#7, h, .b x)
  | .brAll h x => some (0x62#7, h, .b x)
  | .join h x => some (0x63#7, h, .b x)
  | .call h x => some (0x64#7, h, .b x)
  | .ret h x => some (0x65#7, h, .b x)
  | .exit h x => some (0x66#7, h, .b x)
  | .slotRelease _ => none
  | .fuse h x => some (0x67#7, h, .b x)
  | .laneGroupAcquire _ => none
  | .split h x => some (0x68#7, h, .b x)
  | .loop h x => some (0x69#7, h, .i x)
  | .lend h x => some (0x6A#7, h, .b x)
  | .lendPop h x => some (0x6A#7, h, .b x)
  | .lendBrk h x => some (0x6A#7, h, .b x)
  | .cont h x => some (0x6B#7, h, .i x)
  | .contB h x => some (0x6B#7, h, .i x)
  | .bgtTop h x => some (0x6C#7, h, .i x)
  | .bgtRel h x => some (0x6C#7, h, .i x)
  | .yield h x => some (0x6D#7, h, .b x)
  | .trap h x => some (0x6E#7, h, .i x)
  | .trapBkpt h x => some (0x6E#7, h, .i x)
  | .rdctr h x => some (0x6F#7, h, .r x)
  | .privMfp h x => some (0x7B#7, h, .r x)
  | .privMtp h x => some (0x7B#7, h, .r x)
  | .privInval h x => some (0x7B#7, h, .r x)
  | .privYreq h x => some (0x7B#7, h, .r x)
  | .tret h x => some (0x7C#7, h, .b x)
  | .tretSkip h x => some (0x7C#7, h, .b x)
  | .ldx h x => some (0x7D#7, h, .m x)
  | .stx h x => some (0x7D#7, h, .m x)
  | .ldxPi h x => some (0x7D#7, h, .m x)
  | .stxPi h x => some (0x7D#7, h, .m x)
  | .brx h x => some (0x7E#7, h, .r x)
  | .atmx h x => some (0x7E#7, h, .r x)
  | .mma h x => some (0x70#7, h, .e x)
  | .mmag h x => some (0x71#7, h, .e x)
  | .zld h x => some (0x72#7, h, .e x)
  | .zst h x => some (0x73#7, h, .e x)
  | .zclr h x => some (0x74#7, h, .e x)
  | .zrowRd h x => some (0x75#7, h, .e x)
  | .zrowWr h x => some (0x75#7, h, .e x)
  | .matrixStart _ => none
  | .matrixCompletion _ => none
  | .copy h x => some (0x76#7, h, .e x)
  | .strmIn h x => some (0x77#7, h, .e x)
  | .strmOut h x => some (0x77#7, h, .e x)
  | .netx h x => some (0x78#7, h, .e x)
  | .gset h x => some (0x79#7, h, .r x)
  | .estsQ h x => some (0x7A#7, h, .r x)
  | .estsErr h x => some (0x7A#7, h, .r x)
  | .engineCommandTakeUp _ => none
  | .engineCommandCompletion _ => none
  | .strmChunkEnd _ => none
  | .netxFrameSent _ => none
  | .bundle _ _ => none
  | .faultEntryDeferred _ => none
  | .walkCompletion _ => none
  | .atomicApply _ => none
  | .storeRegistration _ => none
  | .revocation _ => none
  | .loadResultReturn _ => none
  | .decoupledAccessCompletion _ => none
  | .pathWriteMerge _ => none
  | .remoteFlagPost _ => none
  | .fabricAccessAtTarget _ => none
  | .auditResult _ => none
  | .auditAgeExpiry _ _ _ => none
  | .recordAppend _ _ => none
  | .binTimerExpiry _ _ => none
  | .overflowReturn _ => none
  | .waiterPlacement _ => none
  | .schedulerWriteDelivery _ => none
  | .deadlineReached _ => none
  | .yieldSequence _ => none
  | .yieldRecordFreed _ => none
  | .correctableErrorFreeze _ => none
  | .freezeEnd _ => none
  | .uncorrectableError _ => none
  | .fullSave _ => none
  | .fullRestore _ => none
  | .worldSwitch _ _ => none
  | .sliceWrite _ _ _ => none
  | .percalePass => none
  | .residencyQuantum => none
  | .dispatch _ => none
  | .dispatchDefine _ => none
  | .lockstep _ => none
  | .lockstepRelease _ => none
  | .recordPacket _ => none
  | .copyPacket _ => none
  | .waitflag _ => none
  | .waitmem _ => none
  | .waitConditionMet _ => none
  | .waitTimeout _ => none
  | .signalWrite _ => none
  | .signalAdd _ => none
  | .signalResolve _ => none
  | .signalPoison _ => none
  | .signalPost _ => none
  | .timestamp _ => none
  | .budgetAdd _ => none
  | .budgetSet _ => none
  | .budgetReclaim _ => none
  | .deadline _ => none
  | .launchCompletion _ => none
  | .interruptDelayExpiry _ => none
  | .doorbell _ _ _ => none
  | .queueEnable _ _ _ => none
  | .contextCreate _ _ _ => none
  | .contextDestroy _ _ _ => none
  | .faultRetire _ _ _ => none
  | .faultRetireAll _ _ _ => none
  | .hostShootdown _ _ _ => none
  | .slotPin _ _ _ _ => none
  | .slotUnpin _ _ _ _ => none
  | .formatWindowEnable _ _ _ _ => none
  | .filterEnable _ _ _ _ => none
  | .portBreakout _ _ _ => none
  | .linkUp _ => none
  | .frameFirstByte _ _ => none
  | .frameEnd _ _ => none
  | .ptpMessage _ _ => none
  | .assignmentWrite _ _ _ => none
  | .hostWrite _ _ => none
  | .semaphoreAcquire _ _ => none
  | .semaphoreRelease _ _ => none
  | .portUnfreeze _ _ => none
  | .functionLevelReset _ _ => none
  | .timeAdjust _ _ => none
  | .timeSet _ _ => none
  | .deviceTimeLatchRead _ => none
  | .tenantFailsRead _ _ => none
  | .portCounterRead _ _ _ => none
  | .throttleCountRead _ => none
  | .counterValueWrite _ _ _ _ => none
  | .ginghamClear _ _ _ => none
  | .debugStop _ _ _ => none
  | .debugStopEffect _ => none
  | .debugGo _ _ _ => none
  | .debugDataWrite _ _ _ => none
  | .moduleReset => none
  | .recoveryProgram _ => none
  | .firmwareUpdate _ => none
  | .attestationReport _ => none
  | .raiseRollbackFloor _ => none
  | .throttleChange _ _ _ _ => none
  | .thermalTrip => none
  | .registerWrite _ _ _ => none
  | .linkDown _ => none
  | .fabricLinkDown _ => none
  | .muslinReplayInjection _ => none
  | .timeSlewEnd => none

/-- The words of an instruction: one word, or a bundle's header and slot words. An event has no encoding. -/
def encode (i : Instr) : List (BitVec 64) :=
  match i with
  | .bundle hdr ws => hdr :: ws
  | _ =>
    match i.layout with
    | some (maj, h, f) => [packWord maj h f]
    | none => []

/-- The decoder on the words found at a fetch address, under the decoder that the mode names (R163, R169, R178): a word under
the SIMT decoder, a bundle under the VLIW decoder. -/
def decodeAt (vliw : Bool) (ws : List (BitVec 64)) : Except Reject Instr :=
  match ws with
  | [] => .error .opcode
  | w :: rest => if vliw then decodeBundle w rest else decodeWord .simt false w

/-- The words of an instruction whose bits are w, counted from the least significant bit of the first word. -/
def tableWords (w : Nat) : List (BitVec 64) := (List.range 23).map (fun k => BitVec.ofNat 64 (w >>> (64 * k)))

/-- The place at which a word of the opcode table is read: under the SIMT decoder where that accepts it, else in the first
kind of slot that does. -/
def placeOf (w : BitVec 64) : Place :=
  match [Place.simt, .br, .lane 0, .mem 0, .eng, .shuf].find? (fun p => match decodeWord p false w with | .ok _ => true | _ => false) with
  | some p => p
  | none => .simt

/-- The instruction that this decoder reads from an instruction whose bits are w (R152, R163). -/
def decodeTableWord (_nbits w : Nat) : Option Instr :=
  let ws := tableWords w
  match ws with
  | [] => none
  | w0 :: rest =>
    match (if isHeader w0 then decodeBundle w0 rest else decodeWord (placeOf w0) false w0) with
    | .ok i => some i
    | .error _ => none

end Sys2Proof
end

