-- ==== Sys2Proof/Machine/Map.lean ====
section
/-! DEFINITION. The finite maps of the state: a list of key and value pairs with strictly rising keys. An unlisted key reads as
the default that the reader of the map names. Memory is such a map of bytes in which no entry holds the default (R83). -/

namespace Sys2Proof.Machine

/-- A finite map with natural keys. -/
abbrev SMap (α : Type) := List (Nat × α)

/-- The value listed for a key. -/
def SMap.find {α : Type} : SMap α → Nat → Option α
  | [], _ => none
  | (k, a) :: m, x => if k = x then some a else SMap.find m x

/-- The value of a key, with the default of an unlisted one. -/
def SMap.get {α : Type} (m : SMap α) (k : Nat) (d : α) : α := (SMap.find m k).getD d

/-- Sets the value of a key, keeping the keys in order. -/
def SMap.set {α : Type} : SMap α → Nat → α → SMap α
  | [], k, a => [(k, a)]
  | (j, b) :: m, k, a =>
    if k < j then (k, a) :: (j, b) :: m
    else if k = j then (k, a) :: m
    else (j, b) :: SMap.set m k a

/-- Removes a key. -/
def SMap.erase {α : Type} : SMap α → Nat → SMap α
  | [], _ => []
  | (j, b) :: m, k => if j = k then m else (j, b) :: SMap.erase m k

/-- Replaces the value of a key by a function of it. -/
def SMap.upd {α : Type} (m : SMap α) (k : Nat) (d : α) (f : α → α) : SMap α := SMap.set m k (f (SMap.get m k d))

/-- Sets several keys in order. -/
def SMap.setAll {α : Type} (m : SMap α) (l : List (Nat × α)) : SMap α := l.foldl (fun a kv => SMap.set a kv.1 kv.2) m

/-- Strictly rising keys, all above a bound. -/
def SMap.sortedFrom {α : Type} : Nat → SMap α → Bool
  | _, [] => true
  | lo, (k, _) :: m => lo ≤ k && SMap.sortedFrom (k + 1) m

/-- The canonical form of a map: strictly rising keys. -/
def SMap.sorted {α : Type} (m : SMap α) : Bool := SMap.sortedFrom 0 m

/-- A set of numbers, as a list with strictly rising entries. -/
abbrev NSet := List Nat

/-- Adds a number to a set. -/
def NSet.add : NSet → Nat → NSet
  | [], x => [x]
  | y :: l, x => if x < y then x :: y :: l else if x = y then y :: l else y :: NSet.add l x

/-- Removes a number from a set. -/
def NSet.del (l : NSet) (x : Nat) : NSet := l.filter (fun y => y != x)

/-- Membership in a set. -/
def NSet.has (l : NSet) (x : Nat) : Bool := l.any (fun y => y == x)

end Sys2Proof.Machine
end

