-- ==== Sys2Proof/Machine/State.lean ====
section
/-! DEFINITION. The state of the module as plain data: every register, store, queue and pending operation that the manual
names, the two reasons a step can stop, and the state right after reset (R430). -/

namespace Sys2Proof.Machine

/-- Why the machine stops. -/
inductive Fault where
  /-- A gang instruction is executed while no gang is issuing. Only a direct call of its meaning can raise it: step always
  names the issuing gang first. Safe. -/
  | noIssuingGang
  deriving DecidableEq, Repr

/-- Why there is no meaning. -/
inductive Refusal where
  /-- An instruction that the model rejects by name. Safe. -/
  | notModelled (mnemonic : String)
  deriving DecidableEq, Repr

/-! ## A gang -/

/-- A register file: the registers listed, and the draw that gives the others unpredictable values, if they have them. -/
structure File (w : Nat) where
  seed  : Option Nat := none
  cells : SMap (BitVec w) := []
  deriving DecidableEq, Repr

/-- A divergence or loop stack entry (R34). -/
inductive Entry where
  | div (second : Bool) (mask other : BitVec 32) (otherPc join : BitVec 56)
  | loop (stages : Nat) (n : BitVec 32) (t : Nat) (start : BitVec 56)
  deriving DecidableEq, Repr

/-- A cohort register: valid bit, cohort index, phase of the last arrive, and whether an arrive is outstanding (R48, R250). -/
structure KReg where
  valid : Bool := false
  idx : BitVec 8 := 0
  phase : BitVec 8 := 0
  arrived : Bool := false
  deriving DecidableEq, Repr

/-- The trap record (R335, R336), with the address that tret.skip continues at (R276). -/
structure TrapRec where
  tinfo  : Word64 := 0
  tpc    : Word64 := 0
  tiaddr : Word64 := 0
  taddr  : Word64 := 0
  tmask  : Word32 := 0
  tact   : Word32 := 0
  next   : Word64 := 0
  deriving DecidableEq, Repr

/-- What a trap tells its record (R336), whether it answers for a lost store (R129) or a lost dirty sector (R389), and whether the
gang resumes after the instruction (R256, R275). -/
structure TrapInfo where
  cause : Nat
  taddr : Word64 := 0
  code  : Nat := 0
  step  : Nat := 0
  pslot : Nat := 0
  mask  : Nat := 0
  bnd   : Bool := false
  lost  : Bool := false
  loss  : Bool := false
  after : Bool := false
  deriving DecidableEq, Repr

/-- A trap that has been raised and waits for the results in flight (R341): its record, the trapping instruction or bundle, the address
behind it, and the strand that raised it where that decides (R256). -/
structure DueTrap where
  info : TrapInfo
  at_  : Word64
  npc  : Word64
  lead : Nat := 0
  deriving DecidableEq, Repr

/-- The control state that a snapshot captures (R62): predicates p0 to p14 as masks of strands, masks, stack (top first),
branch and cohort registers, mode, reuse clock, fx, trap depth and record. -/
structure Ctl where
  p      : SMap Word32 := []
  active : Word32 := 0
  nmask  : Word32 := 0
  stack  : List Entry := []
  b      : SMap (BitVec 56) := []
  k      : SMap KReg := []
  vliw   : Bool := false
  nc     : Word32 := 0
  fx     : Word32 := 0
  tdepth : Nat := 0
  trap   : TrapRec := {}
  deriving DecidableEq, Repr

/-- The shadow bank with the control snapshot (R14, R62). The keys of v are 128 * strand + register. -/
structure Shadow where
  v      : SMap Word32 := []
  s      : SMap Word64 := []
  poison : NSet := []
  ctl    : Ctl := {}
  deriving DecidableEq, Repr

/-- A handle (R90). -/
structure Handle where
  valid   : Bool := false
  pending : Bool := false
  page    : Nat := 0
  size    : Nat := 0
  rd      : Bool := false
  wr      : Bool := false
  oncore  : Bool := false
  vpage   : Nat := 0
  deriving DecidableEq, Repr

/-- A record (R44, R258, R366): its words, the device time at which it was appended, its source code (R257), its grant,
the launch it carries, the mark of a marked launch, and the top-up mark. -/
structure Record where
  words   : List Word32
  time    : Nat
  elapsed : Nat
  src     : Nat
  granted : Bool := false
  gi      : Nat := 0
  gt      : Nat := 0
  launch  : Option Nat := none
  marked  : Bool := false
  topup   : Bool := false
  deriving DecidableEq, Repr

/-- A destination register: of a strand (v, p) or of the gang (s, b, g, h, a pattern bank's entry); or fx, which takes the
bits of the write beside its own (R209). -/
inductive Dst where
  | v (strand r : Nat)
  | s (r : Nat)
  | p (strand r : Nat)
  | b (r : Nat)
  | g (r : Nat)
  | h (r : Nat)
  | pt (key : Nat)
  | fx
  deriving DecidableEq, Repr

/-- A register write: the value in its low bits, whether it is poisoned, and for a handle what it becomes. -/
structure RegWrite where
  dst    : Dst
  val    : Word64 := 0
  poison : Bool := false
  handle : Handle := {}
  deriving DecidableEq, Repr

/-- A write of a VLIW slot that has not landed: the gang cycle at which it lands, the one that orders it, which an interlocked mode keeps at
the encoded lat (R176), and the bundle and slot that made it (R171, R174). A decoupled access names the flight that ends it, then the window flag and the access that a wait must still
consume (R173); one that a later write of the order has overtaken meanwhile writes nothing, but its destination is unpredictable until that wait. -/
structure PendWrite where
  land   : Nat
  key    : Nat := land
  seq    : Nat
  slot   : Nat
  flight : Option Nat := none
  hold   : Option (Nat × Nat) := none
  passed : Bool := false
  w      : RegWrite
  deriving DecidableEq, Repr

/-- Where a gang is. A queued gang has yielded and names its yield record; a saved gang waits for a world switch back; a gang
out on a fetch fault names the page it waits for and when its fault was retired (R71, R347, R387); a gone one has exited out of its slot, and
its window stands until its engine commands are complete (R99). -/
inductive Loc where
  | resident
  | held (launch : Nat)
  | queued (record : Nat) (since : Nat)
  | saved
  | fetchOut (page : Nat) (ready : Option Nat)
  | gone
  deriving DecidableEq, Repr

/-- A flag window (R99). -/
structure Window where
  core   : Nat := 0
  base   : Nat := 0
  size   : Nat := 0
  serial : BitVec 8 := 0
  deriving DecidableEq, Repr

/-- A line monitor (R102): the line, its place in the order of its slice, whether the slice has registered it, and the status
that it will give WAITW once it has fired (R246). -/
structure Monitor where
  line  : Nat
  fired : Option Nat := none
  deriving DecidableEq, Repr

/-- One strand's part of a memory request: where it goes, what it carries, and what it has brought back. -/
structure Part where
  strand : Nat
  pa     : Nat
  val    : BitVec 128 := 0
  swap   : Word64 := 0
  got    : Option (BitVec 128) := none
  poison : Bool := false
  deriving DecidableEq, Repr

/-- A gang parked on a page fault (R383): the instruction, its address, the pages it waits for and, for each strand still to be
done, its request with the virtual address in place of the physical one (with none, the instruction or bundle has not issued and is tried
again); the slot of a bundle that it stood in, and the charge that it keeps (R61). -/
structure Park where
  instr : Instr
  pc    : Word64
  pages : List Nat
  parts : List Part
  lead  : Nat
  nc    : Word32
  slot  : Nat := 0
  ci    : Nat := 0
  ct    : Nat := 0
  deriving DecidableEq, Repr

/-- Counts and marks of a gang that issue uses: among them the seal or CONT (contOnly), SPLIT or TRET that waits for results (R66, R62, R41, R276), what the gang
waits for, its raised trap (R341), its lane group, since when its next instruction has been next (R246), the cycles for which the interlocked
mode has stalled it and the landed writes that these may set against later ones (R176, R356); first marks a LOCKSTEP gang released and not issued yet (R371); mloads and mseal are what
Muslin keeps: the bytes that off-core loads returned since the last seal, by their places in program order, and a seal not yet logged. -/
structure Issue where
  sealTo    : Option Word64 := none
  block     : List Nat := []
  pauseTo   : Option Nat := none
  since     : Option Nat := none
  waitFrom  : Option Nat := none
  waitNs    : Nat := 0
  exhausted : Option Word64 := none
  yieldReq  : Bool := false
  yielding  : Bool := false
  toDcp     : Bool := false
  exiting   : Bool := false
  killed    : Bool := false
  group     : Bool := false
  groupFrom : Option Nat := none
  age       : Nat := 0
  waited    : Bool := false
  dueTrap   : Option DueTrap := none
  drained   : Bool := false
  dlDue     : Bool := false
  reclaim   : Bool := false
  splitTo   : Option Word64 := none
  tretTo    : Option (Word64 × Bool) := none
  cpmTo     : Option Word64 := none
  contOnly  : Bool := false
  recStale  : Bool := false
  stopped   : Bool := false
  halted    : Nat := 0
  bundles   : Nat := 0
  stall     : Nat := 0
  ghosts    : List PendWrite := []
  issued    : Bool := false
  first     : Bool := false
  mloads    : List (Nat × List Byte) := []
  mseal     : Bool := false
  deriving DecidableEq, Repr

/-- The registers of a gang. The keys of v are 128 * strand + register; those of the pattern banks are 32 * bank + entry, and
an unlisted entry is its own index (R214). A poison mark's key is that of the v-register, or 4096 + n for sn. -/
structure Regs where
  v  : File 32 := {}
  s  : File 64 := {}
  g  : File 64 := {}
  pt : SMap (BitVec 5) := []
  h  : SMap Handle := []
  poison : NSet := []
  deriving DecidableEq, Repr

/-- The special registers of a gang that the snapshot does not hold (R55, R98, R277, R299, R335). -/
structure Spec where
  ib    : Word32 := 0
  tb    : Word32 := 0
  cp    : Word64 := 0
  cpm   : Word64 := 0
  dl    : Word64 := 0
  dcp   : Word64 := 0
  tstat : Word64 := 0
  eerr  : Word32 := 0
  rba   : Word64 := 0
  ksc   : SMap Word64 := []
  ctrs  : SMap (BitVec 48) := []
  deriving DecidableEq, Repr

/-- A node table entry as its words (R42), with its formation count (R46). -/
structure Node where
  entry  : Word64 := 0
  arg    : Word64 := 0
  bud    : Word64 := 0
  shape  : Word64 := 0
  res    : Word64 := 0
  formed : Nat := 0
  deriving DecidableEq, Repr

/-- A tile-table entry (R94). -/
structure Tile where
  state  : Nat := 0
  filler : Nat := 0
  base   : Nat := 0
  size   : Nat := 0
  fmt    : Nat := 0
  stride : Nat := 0
  next   : Nat := 0
  ring   : Bool := false
  defd   : Bool := false
  len    : Nat := 0
  deriving DecidableEq, Repr

/-- A gang: its identity, the node table entry it started with (R368), its place, its registers and everything it has outstanding, with the
place in program order of a store of it that was lost (R129), and the last time that it sampled (R259); and what a full save keeps of its tile entries and window
flags (R347), the LOCKSTEP launch that held it then (R370), and the bytes of its state region as the device last wrote them (R349). -/
structure Gang where
  uid      : Nat
  ctx      : Nat
  node     : Nat
  ent      : Node
  gid      : Word32
  cluster  : Nat
  core     : Nat
  slot     : Nat
  gen      : BitVec 2
  prio     : Nat
  placed   : Nat
  launch   : Option Nat
  topup    : Bool
  loss     : BitVec 16
  present  : Word32
  recs     : List Record
  loc      : Loc
  pc       : Word64
  ctl      : Ctl
  regs     : Regs
  spec     : Spec
  shadow   : Shadow
  window   : Window
  monitor  : Option Monitor
  park     : Option Park
  pend     : List PendWrite
  lostStore : Bool
  lostSeq  : Nat := 0
  lastTm   : Option Nat := none
  iss      : Issue
  keptTiles : List (Nat × Tile) := []
  keptFlags : SMap (BitVec 16) := []
  heldFor   : Option Nat := none
  image     : List Byte := []
  deriving DecidableEq, Repr

/-! ## Requests in flight -/

/-- Where a completion posts (R158, R283): nowhere, a flag of the core's file, or a flag address. -/
inductive FlagRef where
  | none
  | own (cluster core flag : Nat) (serial : BitVec 8)
  | remote (addr : Word32)
  deriving DecidableEq, Repr

/-- What an off-gang operation does when it takes effect. -/
inductive FlightKind where
  | load (w : Nat) (sgn : Bool) (dst : Reg) (mark acquire : Bool)
  | ldx (w first : Nat) (sgn : Bool) (dst : Reg)
  | store (w : Nat)
  | atomic (fn : Nat) (w : Nat) (dst : Reg)
  | spadLoad (w : Nat) (sgn : Bool) (dst : Reg)
  | spadStore (w : Nat)
  | spadAtomic (fn : Nat) (w : Nat) (dst : Reg)
  | join (dst : Reg)
  | resolve (poison : Bool) (dst : Reg)
  | poll (dst : Reg)
  | cell (pa : Nat) (poison topup : Bool) (launch : Option Nat)
  | xlat (handle : Nat) (va : Nat) (write : Bool) (dst : Reg) (dropped : Bool)
  | watch (line : Nat)
  | revoke (word core : Nat)
  | post (addr : Word32) (count : Nat) (ctx : Nat)
  | append (port order node keep : Nat) (recs : List Record)
  | localPost (core flag count : Nat)
  | arrive (cohort k : Nat)
  | discard
  | maintain (op : Nat)
  | sched (target : Nat)
  deriving DecidableEq, Repr

/-- An operation that has left its party and has not taken effect: its place in its party's program order (requests of one
instruction share it), its gang (if any), its context, its queue (off-core accesses of one queue keep their order, R118),
whether it is a release, its lowest executing strand, its parts, the flag that its completion posts (R173), and the name that Muslin gives its gang (R423). A
revocation's seq is the write that waits for it. It keeps the address of its instruction or bundle and what that was charged, and its
gang's launch and top-up mark (R365, R366); a release that is shelved waits for the handler of a lost store (R129), and acted marks a
future operation of which another strand's request has taken effect, an acquiring load whose value is back (R389), or a walk that has
faulted (R385); slot is the bundle slot that it stood in, and who its gang's place in log entries (R390). -/
structure Flight where
  id      : Nat
  seq     : Nat := 0
  uid     : Option Nat
  ctx     : Nat
  core    : Nat
  queue   : Option Nat
  rel     : Bool := false
  shelved : Bool := false
  acted   : Bool := false
  pc      : Word64 := 0
  paid    : Nat × Nat := (0, 0)
  launch  : Option Nat := none
  topup   : Bool := false
  slot    : Nat := 0
  who     : Nat := 0
  nud     : Nat := 0
  nc      : Word32 := 0
  lead    : Nat := 0
  vliw    : Bool := false
  post    : FlagRef := .none
  mark    : List Nat := []
  kind    : FlightKind
  parts   : List Part := []
  deriving DecidableEq, Repr

/-! ## A core -/

/-- A scratchpad share or an accumulator tile: what is listed, and what the rest holds (zero, or a draw). -/
structure Share where
  seed   : Option Nat := none
  cells  : SMap Byte := []
  poison : NSet := []
  deriving DecidableEq, Repr

structure AccTile where
  seed   : Option Nat := none
  cells  : SMap Word32 := []
  poison : Bool := false
  deriving DecidableEq, Repr

/-- A matrix queue entry (R282): the instruction with everything it took at issue. Tiles are named by share slot, byte offset
of row 0, row stride and bytes of a row; rows are those of A, gathered at issue by MMAG and else read at the start, rowsB those of B;
regs are the row that a ZROW write carries, mark the name that Muslin gives its gang (R424). Rows that someone has stored to since the issue are marked (R284). -/
structure MEntry where
  id      : Nat
  uid     : Nat
  slot    : Nat
  prio    : Nat
  at_     : Nat
  instr   : Instr
  aEntry  : Nat := 0
  aSlot   : Nat := 0
  aOff    : Nat := 0
  aStride : Nat := 0
  aLen    : Nat := 0
  bEntry  : Nat := 0
  bSlot   : Nat := 0
  bOff    : Nat := 0
  bStride : Nat := 0
  bLen    : Nat := 0
  rows    : List (Nat × List Byte) := []
  rowsB   : List (Nat × List Byte) := []
  hitA    : NSet := []
  hitB    : NSet := []
  bad     : Bool := false
  regs    : List (Nat × Word32) := []
  flag    : FlagRef := .none
  mark    : List Nat := []
  started : Option Nat := none
  deriving DecidableEq, Repr

/-- An L1 line (R104, R122, R123): its line address, valid words (a fill validates a sector, a self-invalidation discards words), dirty
bits per sector (stores write through, so that they stay clear: assumption 85), constant marks per sector with the context and the launch
that set them, words whose value here has become unpredictable (R123, R148), owned words, data, poison per sector, and Damask fields. -/
structure L1Line where
  line   : Nat
  valid  : BitVec 32
  dirty  : BitVec 2 := 0
  poison : BitVec 2 := 0
  const  : BitVec 2
  marker : SMap (Nat × Option Nat) := []
  spoilt : BitVec 32 := 0
  owned  : BitVec 32
  data   : BitVec 1024
  owner  : Nat
  gen    : BitVec 2
  tenant : Nat
  due    : BitVec 16
  dead   : Bool
  fill   : Nat
  deriving DecidableEq, Repr

/-- Code that Percale has loaded into a core's fetch unit (R370): the launch and its context, the address of its first word, and the words with
their poison; a word without ex permission, or outside main memory, is not loaded. -/
structure Loaded where
  launch : Nat
  ctx    : Nat
  va     : Nat
  words  : List (Option (Word64 × Bool))
  deriving DecidableEq, Repr

/-- A core: its freeze (one more than the cycles it still lasts), the count of freezes, landing clock, lane groups with the beats they are
occupied to, the last issue of each (cycle and gang) and the turn of the issue ports, flags and windows, tiles, shares, accumulators, matrix
engine, L1, counters, debug stop (the cycle by which a requested one takes effect, its decoders, whether it is in force), lane groups that
return to SIMT state at the next cycle boundary (R31) and the turn of the VLIW ports, the code loaded into its fetch unit (R370), the writes of its pin registers that a freeze holds (R114), and the bytes that the scratchpad stores of the last
cycles replaced, newest first (the clock from which every load sees the store, gang, address, old byte), which R119 lets a load still return. -/
structure Core where
  freeze  : Nat := 0
  freezes : Nat := 0
  clk     : Nat := 0
  group   : SMap Nat := []
  beat    : SMap Nat := []
  rr      : Nat := 0
  last    : SMap (Nat × Nat) := []
  serial  : BitVec 8 := 0
  wins    : List (Nat × Window) := []
  flags   : SMap (BitVec 16) := []
  tiles   : SMap Tile := []
  shares  : SMap Share := []
  acc     : SMap AccTile := []
  gens    : SMap (BitVec 2) := []
  mq      : List MEntry := []
  mfree   : Nat := 0
  l1      : SMap L1Line := []
  fills   : Nat := 0
  gingham : SMap Nat := []
  stop    : Option Nat := none
  stopDec : Nat := 0
  stopped : Bool := false
  go      : Bool := false
  dberr   : Bool := false
  pinErr  : NSet := []
  recent  : List (Nat × Nat × Nat × Byte) := []
  freed   : NSet := []
  vrr     : Nat := 0
  code    : List Loaded := []
  pinHeld : List (Nat × Word64) := []
  deriving DecidableEq, Repr

/-! ## Home slices and memory -/

/-- An L2 line (R105): its line address, valid, dirty and poison bits per sector, the bytes of sectors that it holds written in part without
a fill (R150), data, Damask fields, and the format windows that were changed over it while it was dirty (R148). -/
structure L2Line where
  line   : Nat
  valid  : BitVec 2
  wmask  : BitVec 128 := 0
  dirty  : BitVec 2
  poison : BitVec 2 := 0
  data   : BitVec 1024
  tenant : Nat
  owner  : Nat
  cls    : Nat
  stamp  : Nat
  dead   : Bool
  audit  : Option (Nat × Nat) := none
  past   : List (Nat × Nat × Fmt × Nat) := []
  fill   : Nat
  deriving DecidableEq, Repr

/-- A home slice: lines by set and way, the access count behind its epoch, its monitors in order of arming, and the fills
of each tenant that declare a class (R105, R111). -/
structure Slice where
  lines    : SMap L2Line := []
  accesses : Nat := 0
  monitors : List (Nat × Nat) := []
  declared : SMap Nat := []
  fills    : Nat := 0
  deriving DecidableEq, Repr

/-- The requester of an access at a home slice: its tenant, its owner (16 * global core + slot) if it has one, and its
next-use code (R107, R108). -/
structure Asker where
  tenant : Nat := 0
  owner  : Option Nat := none
  nud    : Nat := 15
  deriving DecidableEq, Repr

/-- A write of a path that is not yet merged (R127): the path, the command or other party that made it, its address and
bytes, and the requester that its home slice stamps. -/
structure PathWrite where
  path : Path
  cmd  : Nat
  pa   : Nat
  data : List Byte
  poison : Bool := false
  asker : Asker := {}
  deriving DecidableEq, Repr

/-- A cached translation (R380): of the second-level TLB of a core, of the TLB of an engine (numbered from 256 on), or of the first-level TLB of
a core (from 4096 on); context, page base, size code, page, and
permissions. -/
structure TlbEntry where
  unit : Nat
  ctx  : Nat
  va   : Nat
  size : Nat
  pa   : Nat
  rd   : Bool
  wr   : Bool
  ex   : Bool
  deriving DecidableEq, Repr

/-- A table pointer in the walk cache of a core (or of an engine): context, the level of its entry, the address bits above that entry's span,
and the table that it names (R380). -/
structure TablePointer where
  unit  : Nat
  ctx   : Nat
  level : Nat
  tag   : Nat
  table : Nat
  deriving DecidableEq, Repr

/-- A device access to another module through the fabric (R406). -/
structure FabricSent where
  dev  : BitVec 20
  acc  : FabricAccess
  deriving DecidableEq, Repr

/-! ## Contexts -/

/-- A formed launch that waits for a slot (R46, R47). -/
structure Formed where
  fid    : Nat
  recs   : List Record
  gid    : Word32
  at_    : Nat
  launch : Option Nat
  index  : Nat
  deriving DecidableEq, Repr

/-- A bin (R44): its records in arrival order, room reserved by SPAWN, the launches it has formed, oldest first, and the cycle in which its
controller last worked. -/
structure Bin where
  recs     : List Record := []
  reserved : Nat := 0
  ran      : Option Nat := none
  formed   : List Formed := []
  deriving DecidableEq, Repr

/-- A cohort entry (R48). -/
structure Cohort where
  members : Nat := 0
  arrived : Nat := 0
  phase   : BitVec 8 := 0
  deriving DecidableEq, Repr

/-- An outstanding page fault (R384). A deferred one has no id yet. -/
structure PageFault where
  page   : Nat
  id     : Option (BitVec 16)
  va     : Nat
  kind   : Nat
  level  : Nat
  flags  : Nat
  who    : Nat
  engine : Option Nat
  time   : Nat
  deriving DecidableEq, Repr

/-- A context: its firmware-held state beside the register words of its blocks (R337, R350, R357, R381, R389, R422); among it the records in
the overflow area and the count of those that ever went there, whose place in the circular buffer it gives (R45). A dying one is destroyed, and engine commands of it still run (R357). -/
structure Ctx where
  live    : Bool := false
  dying   : Bool := false
  err     : Bool := false
  tvec    : Word64 := 0
  ilk     : Bool := false
  memset  : Bool := false
  tag     : BitVec 16 := 0
  ibpool  : Nat := 0
  tbpool  : Nat := 0
  nodes   : SMap Node := []
  bins    : SMap Bin := []
  ovr    : List (Nat × Record) := []
  overRes : List (Nat × Nat) := []
  ovw     : Nat := 0
  cohorts : SMap Cohort := []
  yused   : NSet := []
  fqwptr  : Word32 := 0
  elwptr  : Word32 := 0
  eldrop  : Bool := false
  loss    : BitVec 16 := 0
  sdmark  : Nat := 0
  faults  : List PageFault := []
  lptr    : Nat := 0
  mst     : Nat := 0
  dvptr   : Nat := 0
  mdone   : NSet := []
  deriving DecidableEq, Repr

/-! ## Queues, launches, engines -/

/-- What a waiting queue waits for (R365, R372). -/
inductive QWait where
  | flag (addr : Word32) (n : Nat) (consume : Bool)
  | mem (pa : Nat) (mask v : Word64) (op : Nat)
  | room
  | slot
  | engine
  deriving DecidableEq, Repr

/-- A queue beside its register words (R358, R374): its pointers and error, whether en has been written 0 since that arose, what it waits for, until when and with which packet taken, and
its pending records with the arrival of the oldest. -/
structure Queue where
  rptr    : Word32 := 0
  cwptr   : Word32 := 0
  error   : Bool := false
  off     : Bool := false
  ecode   : Nat := 0
  epkt    : Word32 := 0
  wait    : Option QWait := none
  waitTo  : Option Nat := none
  waitPkt : Nat := 0
  irqN    : Nat := 0
  irqFrom : Nat := 0
  deriving DecidableEq, Repr

/-- A launch or other packet that has been taken and has not completed (R365, R371, R373). -/
structure Launch where
  id      : Nat
  queue   : Nat
  ctx     : Nat
  pkt     : Word32
  tag     : BitVec 16
  cmpl    : Bool
  urgent  : Bool
  topup   : Bool
  isLaunch : Bool
  dispatch : Bool
  node    : Nat := 0
  dl      : Word64 := 0
  dcp     : Word64 := 0
  marked  : Bool := false
  total   : Nat := 0
  appended : Nat := 0
  formed  : Nat := 0
  descs   : List (Nat × Nat × Nat × Nat) := []
  start   : Option Nat := none
  cause   : Nat := 0
  kaddr   : Word64 := 0
  dlExit  : Bool := false
  killed  : Bool := false
  late    : Bool := false
  release : Option Word64 := none
  cores   : List Nat := []
  ended   : Bool := false
  status  : Nat := 0
  dlAll   : Bool := false
  gangs   : Nat := 0
  flight  : Option Nat := none
  deriving DecidableEq, Repr

/-- What an engine command moves (R294, R296, R297). A kind of 0 is generic, 1 scratchpad, 2 a tile. -/
inductive CmdKind where
  | copy (skind dkind src dst rowBytes rows sstr dstr stile dtile : Nat)
  | strm (out : Bool) (mkind base chunk count stepB wrap tile : Nat)
  | netx (port len ts off ck recVa tile : Nat)
  deriving DecidableEq, Repr

/-- An engine command (R292): its issuer and launch, queue, what it moves, completion flag and future; whether it has been taken up, with its
tile entries as they were then, how far it has come, the gang whose share it writes with the generation of its slot (R72), the bytes of its source that its own writes replace, with those that it has
overwritten while a page of it is missing (R294), the pages it waits
for, its failure, the time at which its frame left, and the name that Muslin gives its gang (R424). A gang of none is a COPY packet of Percale, whose addresses are physical. -/
structure Cmd where
  id      : Nat
  uid     : Option Nat
  ctx     : Nat
  launch  : Option Nat
  topup   : Bool
  cluster : Nat
  core    : Nat
  slot    : Nat
  gen     : BitVec 2
  engine  : Nat
  egress  : Bool
  kind    : CmdKind
  flag    : FlagRef
  mark    : List Nat := []
  future  : Option Nat
  packet  : Option Nat := none
  taken   : Bool := false
  held    : List (Nat × Tile) := []
  chunk   : Nat := 0
  moved   : Nat := 0
  maxOff  : Nat := 0
  dstUid  : Option Nat := none
  dstGen  : BitVec 2 := 0
  kept    : SMap Byte := []
  undo    : SMap Byte := []
  gapped  : Bool := false
  wait    : List Nat := []
  err     : Nat := 0
  errPa   : Nat := 0
  sent    : Option Nat := none
  deriving DecidableEq, Repr

/-! ## Ports, time, boot, power -/

/-- A frame that is being received into a tile (R401); ended tells of one that has ended at a frozen core whether it was good (R114). -/
structure Rx where
  filter  : Nat
  ctx     : Nat
  cluster : Nat
  core    : Nat
  entry   : Nat
  frame   : List Byte
  time    : Nat
  ended   : Option Bool := none
  deriving DecidableEq, Repr

/-- An Ethernet port beside its register words (R399, R401). -/
structure Port where
  up      : BitVec 4 := 0
  unmatched : Nat := 0
  full    : Nat := 0
  long    : Nat := 0
  nospawn : Nat := 0
  ferr    : NSet := []
  cur     : SMap Nat := []
  rx      : SMap Rx := []
  deriving DecidableEq, Repr

/-- Device time in units of 2^-16 ns, elapsed device time, the fraction below one unit, the slew still to be applied (in ns),
and the latch of R402. -/
structure Clock where
  t      : Nat := 0
  el     : Nat := 0
  rem    : Nat := 0
  tvalid : Bool := false
  slew   : Nat := 0
  slewOn : Bool := false
  latch  : BitVec 32 := 0
  deriving DecidableEq, Repr

/-- Percale (R362, R363): the resident queues; the packets of the pass in progress that are still to run, in their order, the group that runs
and the queues whose packets it has taken, and the first queue of each level that it serves; the level pointers of passes and of quanta; when the last quantum began; doorbells on queues that are
not resident. -/
structure Percale where
  resident : List Nat := []
  pass     : List (Nat × List Byte) := []
  busy     : Bool := false
  group    : Nat := 0
  took     : List Nat := []
  first    : SMap Nat := []
  ptrs     : SMap Nat := []
  qptrs    : SMap Nat := []
  quantum  : Nat := 0
  bells    : NSet := []
  deriving DecidableEq, Repr

/-- World switches (R353, R354): the function that runs, those whose admission is stopped, when the slice began, the function that leaves
while a switch is under way and since when, measured times, effective slices, and the pinned slots that are saved (16 * global core + slot) with
their tile entries. -/
structure Worlds where
  current : Option Nat := none
  stopped : NSet := []
  started : Option Nat := none
  leaving : Option Nat := none
  from_   : Nat := 0
  meas    : SMap (List Nat) := []
  eff     : SMap Nat := []
  pins    : SMap (List (Nat × Tile)) := []
  deriving DecidableEq, Repr

/-- An entry of a Muslin log (R423): its kind, the device time, its kind fields, and its length in 32-byte units. -/
structure LogEntry where
  kind   : Nat
  time   : Nat
  fields : List Nat
  units  : Nat
  deriving DecidableEq, Repr

/-- A firmware image slot, the boot status, the recovery window and the attestation report (R430 to R433). -/
structure Boot where
  ready   : Bool := false
  recov   : Bool := false
  slot    : Nat := 0
  fail    : Nat := 0
  fwver   : Word32 := 0
  rbidx   : BitVec 16 := 0
  floor   : BitVec 16 := 0
  header  : List Byte := []
  image0  : List Byte := []
  image1  : List Byte := []
  rwin    : SMap Byte := []
  busy    : Bool := false
  report  : List Byte := []
  node    : BitVec 18 := 0
  deriving DecidableEq, Repr

/-- Clock ladder step and reasons, count of changes, readings of power, junction and coolant inlet, whether they are newer than the last change, and the
thermal stop (R435 to R437). -/
structure Power where
  step    : Nat := 0
  rpwr    : Bool := false
  rtemp   : Bool := false
  rcool   : Bool := false
  thr     : Nat := 0
  pwr     : Nat := 0
  tj      : Nat := 0
  inlet   : Nat := 0
  due     : Bool := false
  tripped : Bool := false
  deriving DecidableEq, Repr

/-- A host port (R391, R394 to R397): frozen, since when, by which page; the power of two of its BAR2's size; and, for vector v of function fn under
2048 fn + v, the MSI-X vectors that are not masked and those that are pending (PRESUMED, assumption 106: masked after reset, as PCI Express has it). -/
structure HostPort where
  frz  : Bool := false
  addr : Nat := 0
  at_  : Nat := 0
  bar2 : Nat := 30
  opened  : NSet := []
  pending : NSet := []
  deriving DecidableEq, Repr

/-- What leaves the device: an MSI-X message, a frame, a fabric transaction, its reply to an access of another device (R406: bytes or old value,
whether they are poisoned, whether it was applied), the bytes that a host's read returns, and the Completer Abort of a frozen port (R396). -/
inductive Out where
  | irq (port fn vec : Nat) (held : Bool)
  | frame (lport : Nat) (bytes : List Byte) (time : Nat)
  | fabric (x : FabricSent)
  | reply (acc : FabricAccess) (bytes : List Byte) (poison ok : Bool)
  | abort (port : Nat)
  | hostRead (port pa : Nat) (bytes : List Byte)
  deriving DecidableEq, Repr

/-- What happens in a step: an event of the table, one core cycle, an attempt of a named gang to issue, or a cycle of the power, which ends the hold
after a thermal trip and resets the module (R430, R437). -/
inductive Turn where
  | event (i : Instr)
  | tick
  | issue (uid : Nat)
  | powerOn
  deriving DecidableEq, Repr

/-- How the last attempt to issue ended. -/
inductive Note where
  | none
  | issued
  | waiting
  | exhausted
  | trapped (cause : Nat)
  deriving DecidableEq, Repr

/-- The whole module. turns holds, for each copy engine and party, when it last served that party (R292); placed, for each cluster, one more
than the cycle in which it last placed a waiter (R47); links and flits, for each fabric port, its link-down events and, under 3 port + k, its flits sent,
received and retransmitted (R414); wrote, for the words of a counter, the cycle of the last write of its value, or of the
last clearing of its overflow bit and whether that bit was set, and wrapped, the control words of the counters that have wrapped in this cycle (R411). -/
structure State where
  cycle   : Nat
  clock   : Clock
  tape    : List Turn
  turn    : Option Nat
  note    : Note
  draw    : Nat
  next    : Nat
  gangs   : List Gang
  cores   : SMap Core
  flights : List Flight
  dram    : List Host.Cell
  dpoison : NSet
  slices  : SMap Slice
  owners  : SMap Nat
  paths   : List PathWrite
  scores  : SMap Nat
  fails   : SMap Nat
  audits  : List (Nat × Bool)
  ctxs    : SMap Ctx
  queues  : SMap Queue
  launches : List Launch
  cmds    : List Cmd
  turns   : SMap Nat
  placed  : SMap Nat
  wrote   : SMap (Nat × Bool)
  wrapped : NSet
  dev     : SMap Word64
  ports   : SMap Port
  percale : Percale
  worlds  : Worlds
  sems    : SMap Nat
  hosts   : SMap HostPort
  asgErr  : NSet
  winErr  : NSet
  windows : SMap Word64
  exports : SMap Word64
  links   : SMap Nat
  flits   : SMap Nat
  tlbs    : List TlbEntry
  pointers : List TablePointer
  ptp     : BitVec 4
  ptpIn   : List (Nat × List Byte)
  boot    : Boot
  power   : Power
  out     : List Out
  logs    : SMap LogEntry
  deriving DecidableEq, Repr

/-- The module right after reset and bring-up (R430, step 6): every register block at its reset values, no context live, no
gang resident, every SRAM zero, device time zero with tvalid clear, and ready set once both links are trained (step 7). -/
def State.reset : State where
  cycle   := 0
  clock   := {}
  tape    := []
  turn    := none
  note    := .none
  draw    := 0
  next    := 1
  gangs   := []
  cores   := []
  flights := []
  dram    := []
  dpoison := []
  slices  := []
  owners  := []
  paths   := []
  scores  := []
  fails   := []
  audits  := []
  ctxs    := []
  queues  := []
  launches := []
  cmds    := []
  turns   := []
  placed  := []
  wrote   := []
  wrapped := []
  dev     := []
  ports   := []
  percale := {}
  worlds  := {}
  sems    := []
  hosts   := []
  asgErr  := []
  winErr  := []
  windows := []
  exports := []
  links   := []
  flits   := []
  tlbs    := []
  pointers := []
  ptp     := 1
  ptpIn   := []
  boot    :=
    { ready := true, node := Config.fabricNode (Config.flashImage 0), image0 := Config.flashImage 0, image1 := Config.flashImage 1, floor := Config.fusedFloor
      header := (Config.flashImage 0).take 256, fwver := imageVersion (Config.flashImage 0), rbidx := imageRollback (Config.flashImage 0) }
  power   := {}
  out     := []
  logs    := []

end Sys2Proof.Machine
end

