-- ==== Sys2Proof/Machine/Mem.lean ====
section
/-! DEFINITION. Storage: main memory behind its controllers and format windows (R83, R84, R148 to R151), the home slices (R105, R108,
R110 to R113), the L1 of a core (R104, R109, R120 to R123), path write buffers (R127) and the scratchpad shares (R86, R119). -/

namespace Sys2Proof.Machine

/-! ## Main memory as a canonical list -/

/-- Main memory: strictly rising addresses, no entry equal to the byte of an unlisted address, which is zero. -/
abbrev Memory := List Host.Cell

/-- DESIGN CHOICE (assumption 1): a byte of main memory that nothing has written reads zero. -/
def Memory.unlisted : Byte := 0

def Memory.read (m : Memory) (a : Nat) : Byte := SMap.get m a Memory.unlisted

def Memory.write (m : Memory) (a : Nat) (b : Byte) : Memory :=
  if b = Memory.unlisted then SMap.erase m a else SMap.set m a b

def Memory.wf (m : Memory) : Bool := SMap.sorted m && m.all (fun c => c.2 != Memory.unlisted)

def Memory.readN (m : Memory) (a n : Nat) : List Byte := (List.range n).map (fun i => Memory.read m (a + i))
/-- The cells of a run of bytes. -/
def Memory.cells : Nat → List Byte → Memory
  | _, [] => []
  | a, b :: l => if b = Memory.unlisted then Memory.cells (a + 1) l else (a, b) :: Memory.cells (a + 1) l
/-- Writes a run of bytes: what lies below it, the run, what lies above it. -/
def Memory.writeN (m : Memory) (a : Nat) (bs : List Byte) : Memory :=
  m.filter (fun c => c.1 < a) ++ Memory.cells a bs ++ m.filter (fun c => a + bs.length ≤ c.1)

/-! ## The physical map (R83, R84) -/

def isDram (pa : Nat) : Bool := pa < 2 ^ 40
def isSpad (pa : Nat) : Bool := 2 ^ 48 ≤ pa && pa < 2 ^ 48 + 2 ^ 29
def isDevReg (pa : Nat) : Bool := 2 ^ 49 ≤ pa && pa < 2 ^ 49 + 2 ^ 32
def isFabric (pa : Nat) : Bool := 2 ^ 51 ≤ pa && pa < 2 ^ 52

/-- The scratchpad aperture address of a cluster-relative one. -/
def spadPa (cluster ea : Nat) : Nat := 2 ^ 48 + cluster * 2 ^ 26 + ea

def field (x hi lo : Nat) : Nat := x / 2 ^ lo % 2 ^ (hi + 1 - lo)

/-- HomeSlice of R84. -/
def homeSlice (pa : Nat) : Nat :=
  Nat.xor (Nat.xor (field pa 14 7) (field pa 22 15)) (Nat.xor (field pa 30 23) (field pa 38 31))
/-- MemCtl of R84. -/
def memCtl (pa : Nat) : Nat := Nat.xor (field pa 12 8) (field pa 17 13)

def bits64 (x : Word64) (hi lo : Nat) : Nat := field x.toNat hi lo

/-! ## Register words of the device blocks -/

/-- A register word as software last wrote it, with a default for its reset value (R8). -/
def State.reg (s : State) (a : Nat) (d : Word64 := 0) : Word64 := SMap.get s.dev a d
def State.setReg (s : State) (a : Nat) (v : Word64) : State := { s with dev := SMap.set s.dev a v }

def devBase : Nat := 2 ^ 49
def mcBlock (n : Nat) : Nat := devBase + 0x100000 + 0x1000 * n
def tenantReg (t : Nat) : Nat := devBase + 0x200000 + 8 * t
def worldBlock (v : Nat) : Nat := devBase + 0x300000 + 16 * v
def schedBlock (core : Nat) : Nat := devBase + 0x400000 + 64 * core
def queueBlock (q : Nat) : Nat := devBase + 0x500000 + 0x40 * q
def ctxBlock (c : Nat) : Nat := devBase + 0x600000 + 0x80 * c
def yieldBlock (c : Nat) : Nat := devBase + 0x680000 + 0x10 * c
def assignBlock : Nat := devBase + 0x700000
def semBlock : Nat := devBase + 0x800000
def portBlock (p : Nat) : Nat := devBase + 0x900000 + 0x1000 * p
def timeBlock : Nat := devBase + 0xA00000
def fabricBlock : Nat := devBase + 0xB00000
def counterBlock (core : Nat) : Nat := devBase + 0xC00000 + 0x1000 * core
def sliceBlock (h : Nat) : Nat := devBase + 0xD00000 + 0x100 * h
def muslinBlock (c : Nat) : Nat := devBase + 0xE00000 + 0x40 * c
def bootBlock : Nat := devBase + 0xF00000
def attestBlock : Nat := devBase + 0xFA0000
def powerBlock : Nat := devBase + 0xFB0000

/-! ## Draws -/

/-- A fresh unpredictable byte, word or double word, and the state with the draw counted (R5). -/
def State.drawByte (s : State) : Byte × State := (Config.freeByte s.draw 0, { s with draw := s.draw + 1 })
def State.drawWord (s : State) : Word64 × State := (Config.freeWord s.draw, { s with draw := s.draw + 1 })

/-! ## Cores, slices, contexts by number -/

def State.core (s : State) (c : Nat) : Core := SMap.get s.cores c {}
def State.modCore (s : State) (c : Nat) (f : Core → Core) : State := { s with cores := SMap.set s.cores c (f (s.core c)) }
def State.slice (s : State) (h : Nat) : Slice := SMap.get s.slices h {}
def State.modSlice (s : State) (h : Nat) (f : Slice → Slice) : State := { s with slices := SMap.set s.slices h (f (s.slice h)) }
def State.ctx (s : State) (c : Nat) : Ctx := SMap.get s.ctxs c {}
def State.modCtx (s : State) (c : Nat) (f : Ctx → Ctx) : State := { s with ctxs := SMap.set s.ctxs c (f (s.ctx c)) }
def State.queue (s : State) (q : Nat) : Queue := SMap.get s.queues q {}
def State.modQueue (s : State) (q : Nat) (f : Queue → Queue) : State := { s with queues := SMap.set s.queues q (f (s.queue q)) }
def State.gang? (s : State) (uid : Nat) : Option Gang := s.gangs.find? (fun g => g.uid == uid)
def State.setGang (s : State) (g : Gang) : State := { s with gangs := s.gangs.map (fun x => if x.uid == g.uid then g else x) }
def State.modGang (s : State) (uid : Nat) (f : Gang → Gang) : State :=
  { s with gangs := s.gangs.map (fun x => if x.uid == uid then f x else x) }

/-- The global core number of a gang. -/
def Gang.gcore (g : Gang) : Nat := 32 * g.cluster + g.core
/-- In its slot (R22). -/
def Gang.inSlot (g : Gang) : Bool :=
  match g.loc with
  | .resident => true
  | .held _ => true
  | _ => false

def State.tenantOf (s : State) (c : Nat) : Nat := bits64 (s.reg (ctxBlock c + 0x28)) 5 0

/-! ## Format windows (R148 to R151) -/

/-- Window n of a controller, if it is enabled and covers an address: view base, magnitude bits, element format, stored base. -/
def State.windowAt (s : State) (mc n pa : Nat) : Option (Nat × Nat × Fmt × Nat) :=
  let b := mcBlock mc + 0x100
  let ctl := s.reg (b + 32 * n + 0x18)
  let vb := bits64 (s.reg (b + 32 * n)) 51 16 * 65536
  let vl := (bits64 (s.reg (b + 32 * n + 8)) 51 16 + 1) * 65536
  if ctl.getLsbD 3 && vb ≤ pa && pa < vl then
    some (vb, [2, 4, 7].getD (bits64 ctl 1 0) 2, if ctl.getLsbD 2 then Fmt.f32 else Fmt.b16,
      bits64 (s.reg (b + 32 * n + 0x10)) 51 6 * 64)
  else none
/-- A format window of its controller that covers an address. -/
def State.window (s : State) (pa : Nat) : Option (Nat × Nat × Fmt × Nat) := (List.range 16).findSome? (fun n => s.windowAt (memCtl pa) n pa)

/-- What window n of a controller says. -/
def State.windowWords (s : State) (mc n : Nat) : List Nat :=
  let b := mcBlock mc + 0x100 + 32 * n
  [(s.reg b).toNat, (s.reg (b + 8)).toNat, (s.reg (b + 0x10)).toNat, bits64 (s.reg (b + 0x18)) 3 0]
/-- The windows of all controllers that cover an address and whose fellows of the same number say something else (R148). -/
def State.windowsApart (s : State) (pa : Nat) : List (Nat × Nat × Fmt × Nat) :=
  if s.dev.any (fun (r : Nat × Word64) => mcBlock 0 ≤ r.1 && r.1 < mcBlock 32) then
    ((List.range 16).filter (fun n => (List.range 32).any (fun mc => s.windowWords mc n != s.windowWords 0 n))).flatMap (fun n =>
      (List.range 32).filterMap (fun mc => s.windowAt mc n pa))
  else []
/-- Window contents that differ among the controllers: loads of the view range and what writebacks store are unpredictable (R148). -/
def State.windowBad (s : State) (pa : Nat) : Bool := !(s.windowsApart pa).isEmpty

def fmtBytes (f : Fmt) : Nat := f.width / 8

def State.poisonAt (s : State) (pa n : Nat) : Bool := (List.range n).any (fun i => NSet.has s.dpoison ((pa + i) / 64))

/-- Unpredictable bytes of an address range. -/
def State.freeBytes (s : State) (pa n : Nat) : List Byte := (List.range n).map (fun i => Config.freeByte s.draw (pa + i))

/-- A 64-byte sector as its controller delivers it, and whether it is poisoned. -/
def State.ctlRead (s : State) (sec : Nat) : List Byte × Bool :=
  let pa := 64 * sec
  if s.windowBad pa then (s.freeBytes pa 64, false)
  else match s.window pa with
  | none => (Memory.readN s.dram pa 64, NSet.has s.dpoison sec)
  | some (vb, m, view, sb) =>
    let w := fmtBytes view
    let b0 := (pa - vb) / w / 16
    let blks := (List.range (4 / w)).map (fun i => Memory.readN s.dram (sb + (b0 + i) * bxBytes m) (bxBytes m))
    ((blks.map (fun blk => ((List.range 16).map (fun i => leBytes w (bxDecode m view blk i))).flatten)).flatten,
      s.poisonAt (sb + b0 * bxBytes m) (4 / w * bxBytes m))

/-- The view bytes of a sector are encoded into those of its stored blocks that a test picks (R149, R150). DESIGN CHOICE (assumption 86): a
poisoned sector marks every stored sector that holds a part of its blocks, and a clean one clears no mark. -/
def State.encodeBlocks (s : State) (x : Nat × Nat × Fmt × Nat) (pa : Nat) (bytes : List Byte) (which : Nat → Bool) (poison : Bool) : State :=
  let w := fmtBytes x.2.2.1
  let b0 := (pa - x.1) / w / 16
  ((List.range (4 / w)).filter which).foldl (fun st i =>
    let xs := (List.range 16).map (fun k => decodeF x.2.2.1 (leNat ((bytes.drop (16 * w * i + w * k)).take w)))
    let a := x.2.2.2 + (b0 + i) * bxBytes x.2.1
    { st with dram := Memory.writeN st.dram a (bxEncode x.2.1 xs).1
              dpoison := if poison then (List.range (bxBytes x.2.1)).foldl (fun q j => NSet.add q ((a + j) / 64)) st.dpoison else st.dpoison }) s

/-- A sector reaches its controller, with the bytes of it that are written: a whole one is stored as it is; one written in part is a
read-modify-write, through a window of the blocks that hold a written byte (R149, R150). Under windows that differ among the controllers,
what is stored is unpredictable, in all of them (R148). -/
def State.ctlWrite (s0 : State) (sec : Nat) (bytes0 : List Byte) (poison : Bool) (written : Nat → Bool := fun _ => true) : State :=
  let pa := 64 * sec
  let all := (List.range 64).all written
  let apart := s0.windowsApart pa
  let new := if apart.isEmpty then bytes0 else s0.freeBytes pa 64
  let s := apart.foldl (fun st x => st.encodeBlocks x pa new (fun _ => true) poison) s0
  let old := if all then new else (s.ctlRead sec).1
  let bytes := (List.range 64).map (fun i => if written i then new.getD i 0 else old.getD i 0)
  match s.window pa with
  | none =>
    { s with dram := Memory.writeN s.dram pa bytes
             dpoison := if poison then NSet.add s.dpoison sec else if all then NSet.del s.dpoison sec else s.dpoison }
  | some x =>
    let n := 16 * fmtBytes x.2.2.1
    s.encodeBlocks x pa bytes (fun i => (List.range n).any (fun j => written (n * i + j))) poison

/-! ## Who makes an access -/

/-- The class and the distance of a next-use code (R107). -/
def nudClass (nud : Nat) : Nat := [4, 1, 1, 2, 2, 3, 3, 4, 4, 5, 5, 6, 6, 7].getD nud 7
def nudTicks (nud : Nat) : Nat := if nud = 0 then 512 else 2 ^ (nud + 1)

def State.score (s : State) (t : Nat) : Nat := SMap.get s.scores t 15
/-- The effective class of R112. -/
def State.effClass (s : State) (t nud : Nat) : Nat := min 7 (nudClass nud + (15 - s.score t) / 4)
def State.wayCap (s : State) (t : Nat) : Nat :=
  let v := bits64 (s.reg (tenantReg t) 0x100) 8 4
  if v = 0 then 16 else v

/-! ## Counters of a slice (R413) -/

/-- The write of a counter's word in this very cycle: of its value, which replaces the count of the whole cycle, or of its overflow bit. -/
def State.wroteNow (s : State) (a : Nat) : Option Bool := ((SMap.find s.wrote a).filter (fun w => w.1 == s.cycle)).map Prod.snd
/-- Adding to the counter whose control word stands at ctl wraps it (R411). -/
def State.wraps (s : State) (ctl amount : Nat) : Bool := (s.wroteNow (ctl + 8)).isNone && decide ((s.reg (ctl + 8)).toNat + amount ≥ 2 ^ 48)
/-- Adds to the counter whose control and value words stand at ctl, modulo 2^48; a host's write of the value in the same cycle stands instead. That
it has wrapped is kept to the cycle's end, since a later write of the cycle may still undo it (R411). -/
def State.bump (s : State) (ctl amount : Nat) : State :=
  let v := (s.reg (ctl + 8)).toNat + amount
  if (s.wroteNow (ctl + 8)).isSome then s
  else
    let s1 := s.setReg (ctl + 8) (BitVec.ofNat 64 (v % 2 ^ 48))
    if s.wraps ctl amount then { s1 with wrapped := NSet.add s1.wrapped ctl } else s1
/-- The overflow bit of a wrap of this cycle, ahead of a clearing in the same cycle. -/
def State.ovfNow (s : State) (ctl ovfBit : Nat) : Word64 :=
  if NSet.has s.wrapped ctl && (s.wroteNow ctl).isNone then BitVec.ofNat 64 (2 ^ ovfBit) else 0

def State.sliceCount (s : State) (h ev tenant : Nat) (owner : Option Nat) : State :=
  (List.range 4).foldl (fun st n =>
    let a := sliceBlock h + 16 * n
    let c := st.reg a
    let pass := match bits64 c 5 4 with
      | 0 => true
      | 1 => bits64 c 11 6 == tenant
      | 2 => owner == some (16 * bits64 c 19 12 + bits64 c 23 20)
      | _ => false
    if c.getLsbD 24 && bits64 c 3 0 == ev && pass then st.bump a 1 else st) s

/-! ## Home slices -/

/-- A line with nothing valid. -/
def L2Line.empty : L2Line :=
  { line := 0, valid := 0, dirty := 0, data := 0, tenant := 0, owner := 0, cls := 0, stamp := 0, dead := false, fill := 0 }

def Slice.epoch (h : Slice) : Nat := h.accesses / 4096
def Slice.age (h : Slice) (l : L2Line) : Nat := min 255 (h.epoch - l.stamp)
def setOf2 (pa : Nat) : Nat := pa / 128 % 2048
/-- The line holds something. -/
def L2Line.live (l : L2Line) : Bool := l.valid != 0 || l.wmask != 0
/-- The line holds a byte: of a valid sector, or written without a fill. -/
def L2Line.has (l : L2Line) (pa : Nat) : Bool := l.valid.getLsbD (pa / 64 % 2) || l.wmask.getLsbD (pa % 128)
/-- The bytes pa to pa+n-1 of their line. -/
def byteMask (pa n : Nat) : BitVec 128 := (List.range n).foldl (fun m i => m ||| BitVec.ofNat 128 (2 ^ ((pa + i) % 128))) 0
def sectorBit (pa : Nat) : BitVec 2 := BitVec.ofNat 2 (2 ^ (pa / 64 % 2))
/-- The way of a set that holds a line. -/
def Slice.wayOf (h : Slice) (pa : Nat) : Option Nat :=
  (List.range 16).find? (fun w => match SMap.find h.lines (16 * setOf2 pa + w) with
    | some l => l.line == pa / 128
    | none => false)

def dataByte (d : BitVec 1024) (i : Nat) : Byte := (d >>> (8 * i)).setWidth 8
def setDataByte (d : BitVec 1024) (i : Nat) (b : Byte) : BitVec 1024 :=
  (d &&& ~~~(BitVec.ofNat 1024 255 <<< (8 * i))) ||| (b.setWidth 1024 <<< (8 * i))
def setDataBytes (d : BitVec 1024) : Nat → List Byte → BitVec 1024
  | _, [] => d
  | i, b :: l => setDataBytes (setDataByte d i b) (i + 1) l
def dataBytes (d : BitVec 1024) (i n : Nat) : List Byte := (List.range n).map (fun k => dataByte d (i + k))

/-- The path writes of a line are merged into it (R127): they are applied to the controller's or the slice's copy in order. -/
def mergeInto (line : Nat) (ws : List PathWrite) (d : BitVec 1024) (poison : BitVec 2) : BitVec 1024 × BitVec 2 :=
  ws.foldl (fun dp w =>
    if isDram w.pa && w.pa / 128 == line then
      (setDataBytes dp.1 (w.pa % 128) w.data, if w.poison then dp.2 ||| BitVec.ofNat 2 (2 ^ (w.pa / 64 % 2)) else dp.2)
    else dp) (d, poison)

/-- Is a tenant exempt from audit (R113)? -/
def State.noAudit (s : State) (t : Nat) : Bool := (s.reg (tenantReg t) 0x100).getLsbD 9
/-- An audit of a line ends (R111); the result goes to the tenant unit. One of a tenant that has become exempt has none (R113). -/
def State.auditEnd (s : State) (h : Nat) (l : L2Line) (pass : Bool) : State :=
  match l.audit with
  | none => s
  | some (t, _) => if s.noAudit t then s else ({ s with audits := s.audits ++ [(t, pass)] }).sliceCount h (if pass then 5 else 6) l.tenant (some l.owner)

/-- What a writeback stores through windows that have been changed over the line is unpredictable (R148). -/
def State.spoilPast (s : State) (l : L2Line) (k : Nat) : State :=
  l.past.foldl (fun st x => st.encodeBlocks x (128 * l.line + 64 * k) (st.freeBytes (128 * l.line + 64 * k) 64) (fun _ => true) false) s
/-- Writes a line's dirty sectors back: whole, or the bytes written without a fill (R150). -/
def State.writeBack (s : State) (l : L2Line) : State :=
  (List.range 2).foldl (fun st k =>
    if l.dirty.getLsbD k then
      (st.spoilPast l k).ctlWrite (2 * l.line + k) (dataBytes l.data (64 * k) 64) (l.poison.getLsbD k) (fun i => l.has (64 * k + i))
    else st) s

/-- Evicts the line of a way, with every write that waits for it in a path's buffer (R127). -/
def State.evict2 (s : State) (h key : Nat) : State :=
  match SMap.find (s.slice h).lines key with
  | none => s
  | some l =>
    let mine := s.paths.filter (fun w => isDram w.pa && w.pa / 128 == l.line)
    let m := mergeInto l.line mine l.data l.poison
    let l' := mine.foldl (fun (x : L2Line) w => { x with dirty := x.dirty ||| sectorBit w.pa, wmask := x.wmask ||| byteMask w.pa w.data.length })
      { l with data := m.1, poison := m.2 }
    let s1 := { s with paths := s.paths.filter (fun w => !(isDram w.pa && w.pa / 128 == l.line)) }
    let s2 := s1.writeBack l'
    let s3 := if l'.dirty != (0 : BitVec 2) then s2.sliceCount h 4 l.tenant (some l.owner) else s2
    (s3.auditEnd h l false).modSlice h (fun x => { x with lines := SMap.erase x.lines key })

/-- The way that a fill takes (R110): one that holds nothing, else by rank. -/
def State.victim2 (s : State) (h pa tenant : Nat) : Nat :=
  let sl := s.slice h
  let ways := (List.range 16).map (fun w => (w, (SMap.find sl.lines (16 * setOf2 pa + w)).filter L2Line.live))
  let mine := ways.filter (fun x => match x.2 with | some l => l.tenant == tenant | none => false)
  let cand := if mine.length ≥ s.wayCap tenant then mine else ways
  let rank (l : L2Line) : Nat :=
    if l.dead then 100000
    else if sl.age l > 2 ^ l.cls then 90000
    else 2 ^ l.cls - sl.age l
  match cand.find? (fun x => x.2.isNone) with
  | some x => x.1
  | none =>
    (cand.foldl (fun best x =>
      match x.2 with
      | none => best
      | some l =>
        let better := match best with
          | none => true
          | some (_, b) => rank l > rank b || (rank l == rank b && l.fill < b.fill)
        if better then some (x.1, l) else best) (none : Option (Nat × L2Line))).elim 0 Prod.fst

/-- The line of an address at its home slice, with the key of its way. -/
def State.line2 (s : State) (pa : Nat) : Option (Nat × L2Line) :=
  ((s.slice (homeSlice pa)).wayOf pa).bind (fun w =>
    (SMap.find (s.slice (homeSlice pa)).lines (16 * setOf2 pa + w)).map (fun l => (16 * setOf2 pa + w, l)))
/-- Changes the line of an address where its home slice holds it. -/
def State.modLine2 (s : State) (pa : Nat) (f : L2Line → L2Line) : State :=
  match s.line2 pa with
  | some (k, l) => s.modSlice (homeSlice pa) (fun x => { x with lines := SMap.set x.lines k (f l) })
  | none => s
/-- A line that holds nothing any more leaves its way: a later fill of it is a fill like any other (R108, R110, R111). -/
def State.tidy2 (s : State) (pa : Nat) : State :=
  match s.line2 pa with
  | some (k, l) => if l.live then s else s.modSlice (homeSlice pa) (fun x => { x with lines := SMap.erase x.lines k })
  | none => s
/-- Does the home slice hold the whole sector of an address? -/
def State.holds2 (s : State) (pa : Nat) : Bool := (s.line2 pa).any (fun l => l.2.valid.getLsbD (pa / 64 % 2))

/-- Allocates the line of an address at its home slice. The fill of a line by a tenant that declares a class is counted, and every 64th is
audited (R111; DESIGN CHOICE, assumption 104: the second sector of a line that is there is no further fill of this count). -/
def State.alloc2 (s : State) (pa : Nat) (a : Asker) : State :=
  let h := homeSlice pa
  match (s.slice h).wayOf pa with
  | some _ => s
  | none =>
    let w := s.victim2 h pa a.tenant
    let s1 := s.evict2 h (16 * setOf2 pa + w)
    let decl := a.nud < 14
    let n := SMap.get (s1.slice h).declared a.tenant 0 + (if decl then 1 else 0)
    let audit := decl && n % 64 == 0 && !s1.noAudit a.tenant
    s1.modSlice h (fun x => { x with
      declared := SMap.set x.declared a.tenant n, fills := x.fills + 1,
      lines := SMap.set x.lines (16 * setOf2 pa + w)
        { line := pa / 128, valid := 0, dirty := 0, data := 0, tenant := a.tenant, owner := a.owner.getD 0, cls := nudClass a.nud,
          stamp := x.epoch, dead := a.nud == 14, fill := x.fills,
          audit := if audit then some (a.tenant, nudClass a.nud) else none } })
/-- Fills a sector of a line at its home slice, under the bytes of it that the line holds written; the slice counts the fill (R413). -/
def State.fill2 (s : State) (pa : Nat) (a : Asker) : State :=
  let k := pa / 64 % 2
  let s1 := (s.alloc2 pa a).sliceCount (homeSlice pa) 3 a.tenant a.owner
  let c := s1.ctlRead (pa / 64)
  { s1.modLine2 pa (fun l => { l with
      valid := l.valid ||| sectorBit pa
      data := setDataBytes l.data (64 * k) ((List.range 64).map (fun i =>
        if l.wmask.getLsbD (64 * k + i) then dataByte l.data (64 * k + i) else c.1.getD i 0))
      wmask := l.wmask &&& ~~~byteMask (64 * k) 64
      poison := if c.2 then l.poison ||| sectorBit pa else l.poison }) with
    draw := s1.draw + 1 }

/-- Stamps a resident line (R108). -/
def State.stamp2 (s : State) (pa : Nat) (a : Asker) (store : Bool) : State :=
  let h := homeSlice pa
  match (s.slice h).wayOf pa with
  | none => s
  | some w =>
    s.modSlice h (fun x => { x with lines := SMap.upd x.lines (16 * setOf2 pa + w) L2Line.empty (fun l =>
        if a.nud < 15 then
          { l with owner := a.owner.getD l.owner, stamp := x.epoch,
                   cls := if a.nud < 14 then s.effClass a.tenant a.nud else l.cls, dead := a.nud == 14,
                   tenant := if store then a.tenant else l.tenant }
        else if store then { l with dead := true, tenant := a.tenant } else l) })

/-- An access at a home slice counts (R105, R413). It ends the audit of the line that it hits: failed, whoever hits it, where the bound has
passed first, and passed where its own tenant hits it before that (R111). -/
def State.touch2 (s : State) (pa : Nat) (a : Asker) : State :=
  let h := homeSlice pa
  let s1 := s.modSlice h (fun x => { x with accesses := x.accesses + 1 })
  match (s1.slice h).wayOf pa with
  | none => s1.sliceCount h 2 a.tenant a.owner
  | some w =>
    match SMap.find (s1.slice h).lines (16 * setOf2 pa + w) with
    | none => s1
    | some l =>
      let s2 := s1.sliceCount h (if l.valid.getLsbD (pa / 64 % 2) then 1 else 2) a.tenant a.owner
      match l.audit with
      | some (t, c) =>
        let late := decide (2 ^ c < (s1.slice h).age l)
        if t == a.tenant || late then
          (s2.auditEnd h l !late).modSlice h (fun x => { x with lines := SMap.set x.lines (16 * setOf2 pa + w) { l with audit := none } })
        else s2
      | none => s2

/-- One byte as the home slice holds it, without the writes that wait in a path's buffer; and whether it is poisoned. -/
def State.homeByte (s : State) (pa : Nat) : Byte × Bool :=
  match (s.line2 pa).filter (fun l => l.2.has pa) with
  | some l => (dataByte l.2.data (pa % 128), l.2.poison.getLsbD (pa / 64 % 2))
  | none =>
    if (s.window pa).isNone && !s.windowBad pa then (Memory.read s.dram pa, NSet.has s.dpoison (pa / 64))
    else let c := s.ctlRead (pa / 64); (c.1.getD (pa % 64) 0, c.2)

/-- What accesses of one path see at an address: the home slice's byte under the writes of that path that still wait. -/
def State.pathByte (s : State) (p : Path) (pa : Nat) : Byte × Bool :=
  s.paths.foldl (fun b w =>
    if w.path == p && w.pa ≤ pa && pa < w.pa + w.data.length then (w.data.getD (pa - w.pa) 0, w.poison) else b) (s.homeByte pa)

/-- Bytes as a path sees them, and whether one is poisoned. -/
def State.pathRead (s : State) (p : Path) (pa n : Nat) : List Byte × Bool × State :=
  let bs := (List.range n).map (fun i => s.pathByte p (pa + i))
  (bs.map Prod.fst, bs.any Prod.snd, s)

/-- Reads bytes of main memory through a path at the home slice. The read allocates unless its next-use code is 15. -/
def State.homeRead (s : State) (p : Path) (pa n : Nat) (a : Asker) : List Byte × Bool × State :=
  let s1 := s.touch2 pa a
  let s2 := if !s1.holds2 pa && a.nud < 15 then s1.fill2 pa a else s1
  (s2.stamp2 pa a false).pathRead p pa n

/-- Fires the monitors of a line (R102) with a status. -/
def State.fireLine (s : State) (line status : Nat) : State :=
  { s.modSlice (homeSlice (128 * line)) (fun x => { x with monitors := x.monitors.filter (fun m => m.2 != line) }) with
    gangs := s.gangs.map (fun g =>
      if (s.slice (homeSlice (128 * line))).monitors.any (fun m => m.1 == g.uid && m.2 == line) then
        { g with monitor := g.monitor.map (fun m => { m with fired := m.fired.or (some status) }) }
      else g) }

/-- Bytes reach the home slice's own copy: the line is allocated, its sector filled or held written in part, written, and marked dirty. -/
def State.homeStore (s : State) (pa : Nat) (bytes : List Byte) (poison : Bool) (a : Asker) (fill : Bool := true) : State :=
  let s1 := s.touch2 pa a
  let s2 := if s1.holds2 pa then s1 else if fill then s1.fill2 pa a else s1.alloc2 pa a
  let s3 := s2.modLine2 pa (fun l => { l with
    data := setDataBytes l.data (pa % 128) bytes
    wmask := if l.valid.getLsbD (pa / 64 % 2) then l.wmask else l.wmask ||| byteMask pa bytes.length
    dirty := l.dirty ||| sectorBit pa
    poison := if poison then l.poison ||| sectorBit pa else if bytes.length ≥ 64 then l.poison &&& ~~~sectorBit pa else l.poison })
  s3.stamp2 pa a true

/-- Splits a run of bytes at 64-byte boundaries, on fuel. -/
def sectorRuns : Nat → Nat → List Byte → List (Nat × List Byte)
  | 0, _, _ => []
  | _ + 1, _, [] => []
  | f + 1, pa, bs =>
    let n := 64 - pa % 64
    (pa, bs.take n) :: sectorRuns f (pa + n) (bs.drop n)

def runsOf (pa : Nat) (bs : List Byte) : List (Nat × List Byte) := sectorRuns (bs.length / 64 + 2) pa bs


/-! ## Scratchpad shares -/

/-- The parts of a cluster-relative address (R86). -/
def eaCore (ea : Nat) : Nat := field ea 25 21
def eaSlot (ea : Nat) : Nat := field ea 20 17
def eaOff (ea : Nat) : Nat := field ea 16 0

def Share.byte (sh : Share) (off : Nat) : Byte :=
  match SMap.find sh.cells off with
  | some b => b
  | none => match sh.seed with
    | none => 0
    | some d => Config.freeByte d off

/-- The global core, slot and offset of a scratchpad aperture address. -/
def spadLoc (pa : Nat) : Nat × Nat × Nat :=
  let x := pa - 2 ^ 48
  (32 * field x 28 26 + eaCore x, eaSlot x, eaOff x)

/-- One byte of scratchpad as its bank holds it, and whether its bank word is poisoned. -/
def State.bankByte (s : State) (pa : Nat) : Byte × Bool :=
  let l := spadLoc pa
  let sh := SMap.get (s.core l.1).shares l.2.1 {}
  (sh.byte l.2.2, NSet.has sh.poison (l.2.2 / 16))

/-- What one path sees of it, under the writes of that path that still wait (R127). MTX sees those of VEC too (R119, R128). -/
def State.spadByte (s : State) (p : Path) (pa : Nat) : Byte × Bool :=
  s.paths.foldl (fun b w =>
    if (w.path == p || (p == .mtx && w.path == .vec)) && w.pa ≤ pa && pa < w.pa + w.data.length then (w.data.getD (pa - w.pa) 0, w.poison) else b) (s.bankByte pa)

/-- The stores to the 8-byte word of an address that a load of a gang does not see yet, newest first: those of the last cycles whose clock
has not come. The stores of a word come to be seen in their order (R117), and a gang under the SIMT decoder sees its own (R119). -/
def Core.unseen (c : Core) (uid : Nat) (vliw : Bool) (pa : Nat) : List (Nat × Nat × Nat × Byte) :=
  (c.recent.filter (fun r => r.2.2.1 / 8 == pa / 8)).takeWhile (fun r => c.clk < r.1 && (r.2.1 != uid || vliw))
/-- A byte that a scratchpad load of a gang returns: from before the stores that it does not see yet (R119). -/
def State.spadLoadByte (s : State) (uid : Nat) (vliw : Bool) (pa : Nat) (p : Path := .vec) : Byte × Bool :=
  let now := s.spadByte p pa
  match ((s.core (spadLoc pa).1).unseen uid vliw pa).reverse.find? (fun r => r.2.2.1 == pa) with
  | some r => (r.2.2.2, now.2)
  | none => now
/-- The clock from which every load sees a store that issues now: at most four cycles on, after the earlier stores of its word; where in that
time is free (R87, R119). -/
def Core.seenFrom (c : Core) (draw pa : Nat) : Nat :=
  (c.recent.filter (fun r => r.2.2.1 / 8 == pa / 8)).foldl (fun m r => max m r.1) (c.clk + (Config.freeByte draw (pa / 8)).toNat % 5)
/-- A store of the gang to its core's scratchpad is not visible at its bank yet (R121). -/
def Core.storing (c : Core) (uid : Nat) : Bool := c.recent.any (fun r => r.2.1 == uid && c.clk < r.1)

/-- The rows of an operand (start, stride, bytes of a row) that hold an offset of their share. -/
def rowsAt (start stride len off : Nat) : List Nat :=
  (List.range 32).filter (fun r => start + r * stride ≤ off && off < start + r * stride + len)
/-- A store to an operand of a queued matrix instruction marks its row (R284). -/
def MEntry.touch (m : MEntry) (slot off : Nat) : MEntry :=
  { m with hitA := if m.aSlot = slot then (rowsAt m.aOff m.aStride m.aLen off).foldl NSet.add m.hitA else m.hitA
           hitB := if m.bSlot = slot then (rowsAt m.bOff m.bStride m.bLen off).foldl NSet.add m.hitB else m.hitB }

/-- Bytes reach their bank. A write that a path's buffer has not shown to VEC before marks the rows it hits (R284), and ends what loads do not
see yet of its words. -/
def State.bankStore (s : State) (pa : Nat) (bs : List Byte) (poison fresh : Bool) : State :=
  (List.range bs.length).foldl (fun st i =>
    let l := spadLoc (pa + i)
    st.modCore l.1 (fun c =>
      let sh := SMap.get c.shares l.2.1 {}
      { c with
        shares := SMap.set c.shares l.2.1 { sh with
          cells := SMap.set sh.cells l.2.2 (bs.getD i 0)
          poison := if poison then NSet.add sh.poison (l.2.2 / 16) else sh.poison }
        mq := if fresh then c.mq.map (fun m => m.touch l.2.1 l.2.2) else c.mq
        recent := if fresh then c.recent.filter (fun r => r.2.2.1 / 8 != (pa + i) / 8) else c.recent })) s

/-- A scratchpad store of the VEC path (R119, R127): at issue, for the gang of its core that is named, it comes to be seen within four
cycles; a store that arrives from elsewhere is seen at once. To the engines' paths it is visible once it is merged. -/
def State.spadStore (s : State) (uid : Option Nat) (pa : Nat) (bs : List Byte) (poison : Bool := false) : State :=
  let old := (List.range bs.length).map (fun i => (s.spadByte .vec (pa + i)).1)
  let hit (c : Core) : List MEntry := (List.range bs.length).foldl (fun l i => l.map (fun m => m.touch (spadLoc (pa + i)).2.1 (spadLoc (pa + i)).2.2)) c.mq
  let s1 := s.modCore (spadLoc pa).1 (fun c => { c with
    mq := hit c
    recent := match uid with
      | some u => (List.range bs.length).map (fun i => (c.seenFrom s.draw (pa + i), u, pa + i, old.getD i 0)) ++ c.recent.filter (fun r => c.clk < r.1)
      | none => c.recent.filter (fun r => !(List.range bs.length).any (fun i => r.2.2.1 / 8 == (pa + i) / 8)) })
  { s1 with paths := s1.paths ++ [{ path := .vec, cmd := 0, pa := pa, data := bs, poison := poison }], draw := s1.draw + 1 }

/-! ## Lines of an L1 -/

def setOf1 (pa : Nat) : Nat := pa / 128 % 128
/-- The way of a set that holds a line: a line left with no valid word is none any more, whatever its tag (R109). -/
def Core.l1Way (c : Core) (pa : Nat) : Option Nat :=
  (List.range 16).find? (fun w => match SMap.find c.l1 (16 * setOf1 pa + w) with
    | some l => l.line == pa / 128 && l.valid != 0
    | none => false)
def Core.l1Line (c : Core) (pa : Nat) : Option L1Line :=
  (c.l1Way pa).bind (fun w => SMap.find c.l1 (16 * setOf1 pa + w))
def Core.modL1 (c : Core) (pa : Nat) (f : L1Line → L1Line) : Core :=
  match c.l1Way pa with
  | none => c
  | some w => match SMap.find c.l1 (16 * setOf1 pa + w) with
    | none => c
    | some l => { c with l1 := SMap.set c.l1 (16 * setOf1 pa + w) (f l) }
def Core.dropL1 (c : Core) (pa : Nat) : Core :=
  match c.l1Way pa with
  | none => c
  | some w => { c with l1 := SMap.erase c.l1 (16 * setOf1 pa + w) }

/-- The words of the bytes pa to pa+n-1 in their line. -/
def wordMask (pa n : Nat) : BitVec 32 :=
  (List.range n).foldl (fun m i => m ||| BitVec.ofNat 32 (2 ^ ((pa + i) / 4 % 32))) 0
/-- The words of a sector in its line. -/
def sectorMask (pa : Nat) : BitVec 32 := if pa / 64 % 2 = 0 then 0x0000FFFF else 0xFFFF0000
/-- The words of a line's sectors that carry the constant mark. -/
def L1Line.constWords (l : L1Line) : BitVec 32 := (if l.const.getLsbD 0 then 0x0000FFFF else 0) ||| (if l.const.getLsbD 1 then 0xFFFF0000 else 0)

/-- Words that a party has written are unpredictable in the constant sectors of the cores that hold them, but for the core that wrote: the
store clears its mark (R123). -/
def State.spoil (s : State) (writer : Option Nat) (pa n : Nat) : State :=
  { s with cores := s.cores.map (fun (c : Nat × Core) =>
      if writer == some c.1 then c else (c.1, c.2.modL1 pa (fun l => { l with spoilt := l.spoilt ||| (wordMask pa n &&& l.constWords) }))) }

/-! ## Path write buffers (R127) -/

/-- A write enters the buffer of its path; it fires the monitors of its line (R102) and spoils the constant sectors of other cores that hold
it. -/
def State.pathWrite (s : State) (p : Path) (cmd pa : Nat) (bs : List Byte) (poison : Bool := false) (a : Asker := {}) : State :=
  (runsOf pa bs).foldl (fun st r =>
    let st1 := { st with paths := st.paths ++ [{ path := p, cmd := cmd, pa := r.1, data := r.2, poison := poison, asker := a }] }
    if isDram r.1 then (st1.fireLine (r.1 / 128) 0).spoil (if p == .vec then a.owner.map (· / 16) else none) r.1 r.2.length else st1) s

/-- A write applied at the home slice for every path at once: an atomic, or a write of the device (R117, R439). -/
def State.homeWriteAll (s : State) (pa : Nat) (bytes : List Byte) (a : Asker) : State :=
  (runsOf pa bytes).foldl (fun st r =>
    ((st.homeStore r.1 r.2 false a).fireLine (r.1 / 128) 0).spoil (a.owner.map (· / 16)) r.1 r.2.length) s

/-- Merges one write: into the home slice, or into its scratchpad bank. Whether a write that misses fills its sector first is open (R149, R150):
a free value decides (DESIGN CHOICE, assumption 87). -/
def State.mergeOne (s : State) (w : PathWrite) : State :=
  if isDram w.pa then { s.homeStore w.pa w.data w.poison w.asker ((Config.freeWord s.draw).getLsbD 0) with draw := s.draw + 2 }
  else if isSpad w.pa then s.bankStore w.pa w.data w.poison (w.path != .vec)
  else s

/-- The core is frozen: a cycle of its freeze is still to come (R114). -/
def Core.frozen (c : Core) : Bool := 1 < c.freeze
/-- A write that the scratchpad of a frozen core cannot take: it is held (R114). -/
def State.stuck (s : State) (w : PathWrite) : Bool := isSpad w.pa && (s.core (spadLoc w.pa).1).frozen
/-- Merges the waiting writes that a test picks, in order, but for those that a freeze holds. -/
def State.mergeWhere (s : State) (f : PathWrite → Bool) : State :=
  (s.paths.filter (fun w => f w && !s.stuck w)).foldl State.mergeOne { s with paths := s.paths.filter (fun w => !(f w && !s.stuck w)) }

def State.mergePath (s : State) (p : Path) : State := s.mergeWhere (fun w => w.path == p)
def State.mergeCmd (s : State) (cmd : Nat) : State := s.mergeWhere (fun w => w.cmd == cmd)
def State.mergeLine (s : State) (line : Nat) : State := s.mergeWhere (fun w => isDram w.pa && w.pa / 128 == line)
/-- Merges what waits for a range of scratchpad, of every path, in order. -/
def State.mergeSpad (s : State) (pa n : Nat) : State := s.mergeWhere (fun w => isSpad w.pa && w.pa < pa + n && pa < w.pa + w.data.length)
/-- Merges what waits for a slot's share. -/
def State.mergeShare (s : State) (gcore slot : Nat) : State := s.mergeSpad (2 ^ 48 + gcore * 2 ^ 21 + slot * 2 ^ 17) (2 ^ 17)

/-! ## L1 -/


/-- The way that an L1 fill takes (R109): one that holds nothing, else by rank. -/
def State.victim1 (s : State) (core pa : Nat) : Nat :=
  let c := s.core core
  let occupant (slot : Nat) : Option Gang := s.gangs.find? (fun g => g.inSlot && g.gcore == core && g.slot == slot)
  let rank (l : L1Line) : Nat :=
    if l.dead then 400000
    else match occupant l.owner with
      | none => 300000
      | some g =>
        if g.gen != l.gen then 300000
        else
          let rem := (l.due - g.ctl.nc.setWidth 16).toNat
          if rem ≥ 32768 then 200000 else rem
  let ways := (List.range 16).map (fun w => (w, (SMap.find c.l1 (16 * setOf1 pa + w)).filter (fun (l : L1Line) => l.valid != 0)))
  match ways.find? (fun x => x.2.isNone) with
  | some x => x.1
  | none =>
    (ways.foldl (fun best x =>
      match x.2 with
      | none => best
      | some l =>
        let better := match best with
          | none => true
          | some (_, b) => rank l > rank b || (rank l == rank b && l.fill < b.fill)
        if better then some (x.1, l) else best) (none : Option (Nat × L1Line))).elim 0 Prod.fst

/-- Fills a sector into an L1 with the bytes that VEC sees at the home slice; an LDNC brings its context and launch for the mark. -/
def State.fill1 (s : State) (core slot : Nat) (gen : BitVec 2) (tenant pa : Nat) (mark : Option (Nat × Option Nat)) : State :=
  let base := pa / 64 * 64
  let bs := (List.range 64).map (fun i => s.pathByte .vec (base + i))
  let bad : BitVec 2 := if bs.any Prod.snd then BitVec.ofNat 2 (2 ^ (pa / 64 % 2)) else 0
  let sec : BitVec 2 := BitVec.ofNat 2 (2 ^ (pa / 64 % 2))
  let put (l : L1Line) : L1Line :=
    { l with data := setDataBytes l.data (base % 128) (bs.map Prod.fst), valid := l.valid ||| sectorMask pa,
             poison := (l.poison &&& ~~~sec) ||| bad, const := if mark.isSome then l.const ||| sec else l.const
             spoilt := l.spoilt &&& ~~~sectorMask pa
             marker := match mark with | some m => SMap.set l.marker (pa / 64 % 2) m | none => l.marker }
  s.modCore core (fun c =>
    match c.l1Way pa with
    | some _ => c.modL1 pa put
    | none =>
      let w := s.victim1 core pa
      { c with fills := c.fills + 1,
               l1 := SMap.set c.l1 (16 * setOf1 pa + w) (put
          { line := pa / 128, valid := 0, const := 0, owned := 0, data := 0, owner := slot, gen := gen, tenant := tenant, due := 0
            dead := false, fill := c.fills }) })

/-- Stamps a resident L1 line (R108). -/
def State.stamp1 (s : State) (core slot : Nat) (gen : BitVec 2) (tenant pa nud : Nat) (nc : Word32) : State :=
  if nud = 15 then s
  else s.modCore core (fun c => c.modL1 pa (fun l =>
    if nud = 14 then { l with owner := slot, gen := gen, tenant := tenant, dead := true }
    else { l with owner := slot, gen := gen, tenant := tenant, dead := false, due := BitVec.ofNat 16 (nc.toNat + nudTicks nud) }))

/-- SelfInvalidate (R122, R123): words the core does not own go, except in constant-marked sectors that hold no owned word. -/
def selfInvalidateLine (l : L1Line) : L1Line :=
  let keep (k : Nat) : BitVec 32 :=
    let m := if k = 0 then (0x0000FFFF : BitVec 32) else 0xFFFF0000
    if l.const.getLsbD k && l.owned &&& m == 0 then l.valid &&& m else l.valid &&& l.owned &&& m
  { l with valid := keep 0 ||| keep 1 }

def State.selfInvalidate (s : State) (core : Nat) : State :=
  s.modCore core (fun c => { c with l1 := c.l1.map (fun kl => (kl.1, selfInvalidateLine kl.2)) })

/-- Every word of a core's L1 goes, owned words included (FENCEX towards VEC or MTX, R126). -/
def State.flushL1 (s : State) (core : Nat) : State := s.modCore core (fun c => { c with l1 := [] })

/-- A revocation (R120): the word is no longer owned and its sector goes. -/
def State.revoke (s : State) (core word : Nat) : State :=
  s.modCore core (fun c => c.modL1 (4 * word) (fun l =>
    { l with owned := l.owned &&& ~~~(BitVec.ofNat 32 (2 ^ (word % 32))), valid := l.valid &&& ~~~(sectorMask (4 * word)) }))

/-- The words that a store writes, as numbers of 4-byte words. -/
def wordsOf (pa n : Nat) : List Nat := (List.range ((pa + n + 3) / 4 - pa / 4)).map (fun i => pa / 4 + i)

end Sys2Proof.Machine
end

