-- ==== Sys2Proof/Machine/Ops.lean ====
section
/-! DEFINITION. The named operations over registers, gangs and contexts that every meaning shares: registers, landing, snapshots and seals
(R62 to R67), charges (R57, R61), flag posts (R100), the error log and the fault queue (R384, R390), taking a trap and returning
from one (R276, R341, R342), exits and kills (R37, R50, R344), yields (R68 to R72). -/

namespace Sys2Proof.Machine

/-! ## Registers -/

/-- A register of a file: what is listed, or zero, or an unpredictable value. -/
def File.get {w : Nat} (f : File w) (k : Nat) : BitVec w :=
  match SMap.find f.cells k with
  | some v => v
  | none => match f.seed with
    | none => 0
    | some d => (Config.freeReg d k).setWidth w
def File.put {w : Nat} (f : File w) (k : Nat) (v : BitVec w) : File w := { f with cells := SMap.set f.cells k v }

/-- The key of v-register r of participant i: strand i under the SIMT decoder, cluster i in a bundle (R40). -/
def vKey (vliw : Bool) (i r : Nat) : Nat :=
  if vliw then (if r < 128 then 128 * (2 * i) + r else 128 * (2 * i + 1) + (r - 128)) else 128 * i + r % 128
def vDst (vliw : Bool) (i r : Nat) : Dst :=
  if vliw then (if r < 128 then .v (2 * i) r else .v (2 * i + 1) (r - 128)) else .v i (r % 128)

/-- Does a pending write of the gang cover a register (R171)? -/
def Gang.inWindow (g : Gang) (d : Dst) : Bool := g.pend.any (fun p => p.w.dst == d)

def Gang.v (g : Gang) (strand r : Nat) : Word32 :=
  if g.inWindow (.v strand r) then (Config.freeWindow g.uid g.iss.bundles (128 * strand + r)).setWidth 32
  else g.regs.v.get (128 * strand + r)
def Gang.s (g : Gang) (r : Nat) : Word64 :=
  if g.inWindow (.s r) then Config.freeWindow g.uid g.iss.bundles (4096 + r) else g.regs.s.get r
def Gang.g (g : Gang) (r : Nat) : Word64 :=
  if g.inWindow (.g r) then Config.freeWindow g.uid g.iss.bundles (4200 + r) else g.regs.g.get r
def Gang.b (g : Gang) (r : Nat) : BitVec 56 :=
  if g.inWindow (.b r) then (Config.freeWindow g.uid g.iss.bundles (4300 + r)).setWidth 56 else SMap.get g.ctl.b r 0
/-- Predicate p of a strand; p15 always reads true (R24). -/
def Gang.p (g : Gang) (strand p : Nat) : Bool :=
  if p = 15 then true
  else if g.inWindow (.p strand p) then (Config.freeWindow g.uid g.iss.bundles (5000 + 16 * strand + p)).getLsbD 0
  else (SMap.get g.ctl.p p 0).getLsbD strand
/-- Entry i of pattern bank n: the identity unless loaded (R214). -/
def Gang.pt (g : Gang) (n i : Nat) : Nat :=
  if g.inWindow (.pt (32 * n + i)) then (Config.freeWindow g.uid g.iss.bundles (5600 + 32 * n + i)).toNat % 32
  else (SMap.get g.regs.pt (32 * n + i) (BitVec.ofNat 5 i)).toNat
/-- fx as a slot may read it (R209). -/
def Gang.fx (g : Gang) : Word32 :=
  if g.inWindow .fx then (Config.freeWindow g.uid g.iss.bundles 5599).setWidth 32 else g.ctl.fx
/-- An unpredictable handle. -/
def freeHandle (cluster : Nat) (x y : Word64) : Handle :=
  let page := field x.toNat 51 0 * 4096
  { valid := x.getLsbD 52, pending := x.getLsbD 53, page := page, size := field x.toNat 59 56 % 12, rd := x.getLsbD 54, wr := x.getLsbD 55
    oncore := isSpad page && (page - 2 ^ 48) / 2 ^ 26 == cluster, vpage := y.toNat }
/-- A handle; inside the window of a write to it, an unpredictable one (R171). -/
def Gang.h (g : Gang) (n : Nat) : Handle :=
  if g.inWindow (.h n) then freeHandle g.cluster (Config.freeWindow g.uid g.iss.bundles (6000 + n)) (Config.freeWindow g.uid g.iss.bundles (6100 + n))
  else SMap.get g.regs.h n {}
def Gang.k (g : Gang) (n : Nat) : KReg := SMap.get g.ctl.k n {}

/-- P(e) and StagePred of R38. -/
def passes (stages : Nat) (n : BitVec 32) : Nat := if n = 0 then 1 else n.toNat + stages - 1
def Gang.stage (g : Gang) (j : Nat) : Bool :=
  match g.ctl.stack with
  | .loop stages n t _ :: _ => j < stages && j ≤ t && t < j + n.toNat
  | _ => false

/-- A predicate index as a participant reads it: p0 to p15 of a strand; in a cluster p0 to p7 of its even strand, then the
stage predicates, then true (R165). -/
def Gang.pred (g : Gang) (vliw : Bool) (i p : Nat) : Bool :=
  if vliw then (if p = 15 then true else if p < 8 then g.p (2 * i) p else g.stage (p - 8)) else g.p i p

/-- Writes a register (R24, R161): a write to p15 is discarded; writing clears a poison mark unless it carries one. -/
def Gang.put (g : Gang) (w : RegWrite) : Gang :=
  let mark (k : Nat) : NSet := if w.poison then NSet.add g.regs.poison k else NSet.del g.regs.poison k
  match w.dst with
  | .v st r => { g with regs := { g.regs with v := g.regs.v.put (128 * st + r) (w.val.setWidth 32), poison := mark (128 * st + r) } }
  | .s r => { g with regs := { g.regs with s := g.regs.s.put r w.val, poison := mark (4096 + r) } }
  | .g r => { g with regs := { g.regs with g := g.regs.g.put r w.val } }
  | .b r => { g with ctl := { g.ctl with b := SMap.set g.ctl.b r (w.val.setWidth 56) } }
  | .h n => { g with regs := { g.regs with h := SMap.set g.regs.h n w.handle } }
  | .pt k => { g with regs := { g.regs with pt := SMap.set g.regs.pt k (w.val.setWidth 5) } }
  | .fx => { g with ctl := { g.ctl with fx := g.ctl.fx ||| w.val.setWidth 32 } }
  | .p st r =>
    if r = 15 then g
    else
      let m := SMap.get g.ctl.p r 0
      let bit := BitVec.ofNat 32 (2 ^ st)
      { g with ctl := { g.ctl with p := SMap.set g.ctl.p r (if w.val.getLsbD 0 then m ||| bit else m &&& ~~~bit) } }

def Gang.putAll (g : Gang) (ws : List RegWrite) : Gang := ws.foldl Gang.put g

/-- Is a v-register or s-register poisoned (R231, R388)? A read inside a landing window gets an unpredictable value, and no mark with it
(R171; DEDUCED, assumption 88). -/
def Gang.poisonV (g : Gang) (strand r : Nat) : Bool := NSet.has g.regs.poison (128 * strand + r) && !g.inWindow (.v strand r)
def Gang.poisonS (g : Gang) (r : Nat) : Bool := NSet.has g.regs.poison (4096 + r) && !g.inWindow (.s r)

/-! ## Landing (R171, R174) -/

/-- The clock that a gang's landing counts run on: it halts in freezes, and under a debug stop (R114, R419). -/
def State.gclk (s : State) (g : Gang) : Nat := (s.core g.gcore).clk - g.iss.halted

/-- The order of R174. -/
def pendLe (a b : PendWrite) : Bool :=
  a.key < b.key || (a.key == b.key && (a.seq < b.seq || (a.seq == b.seq && a.slot ≤ b.slot)))

/-- Inserts a write in landing order. -/
def insertPend (p : PendWrite) : List PendWrite → List PendWrite
  | [] => [p]
  | q :: l => if pendLe q p then q :: insertPend p l else p :: q :: l

/-- A write that lands by its cycle alone. -/
def PendWrite.free (p : PendWrite) : Bool := p.flight.isNone && p.hold.isNone

/-- Does a write come after another of the same register in the order of R174? Bits of fx only add (R209). -/
def PendWrite.beats (q p : PendWrite) : Bool := q.w.dst == p.w.dst && q.w.dst != .fx && !pendLe q p

/-- A landed write is still of use: a stall of the interlocked mode may set it against a later one (R176), or it has landed in this very cycle and
a decoupled access that is still to end writes its register too (R174). -/
def Gang.lingers (g : Gang) (now : Nat) (p : PendWrite) : Bool :=
  now < p.key + g.iss.stall || (now = p.key + g.iss.stall && g.pend.any (fun q => q.flight.isSome && q.w.dst == p.w.dst))
/-- Applies the writes whose landing cycle has come, but for one that a write which has landed comes after (the ghosts). A decoupled write lands
after the wait on its flag (R173), if no later write of the same register has overtaken it (R174). -/
def Gang.landTo (g : Gang) (now : Nat) : Gang :=
  let due := g.pend.filter (fun p => p.free && p.land ≤ now)
  let ordered := (due.foldl (fun l p => insertPend p l) []).filter (fun p => !p.passed && !g.iss.ghosts.any (fun q => q.beats p))
  let g1 := g.putAll (ordered.map PendWrite.w)
  { g1 with pend := (g.pend.filter (fun p => !(p.free && p.land ≤ now))).map (fun p =>
              if p.hold.isSome && due.any (fun q => q.beats p) then { p with passed := true } else p)
            iss := { g1.iss with ghosts := (g.iss.ghosts ++ due).filter (g.lingers now) } }

/-- A wait has consumed n posts of a window flag: the oldest n decoupled accesses that posted to it may be read (R173). -/
def Gang.consumed (g : Gang) (flag n : Nat) : Gang :=
  let ids := (g.pend.filterMap (fun p => match p.hold with
    | some (f, a) => if f == flag then some a else none
    | none => none)).eraseDups.take n
  { g with pend := g.pend.map (fun p => match p.hold with
    | some (f, a) => if f == flag && ids.contains a then { p with hold := none } else p
    | none => p) }

/-- Every exposed-latency result lands, in order (before a trap, SPLIT or a save). -/
def Gang.landAll (g : Gang) : Gang :=
  let g1 := g.landTo (g.pend.foldl (fun m p => max m p.land) 0)
  { g1 with iss := { g1.iss with ghosts := [] } }

/-! ## Snapshots and seals (R62 to R67) -/

/-- The strands and registers that a live mask names (R62): v-register keys and s-register numbers. -/
def liveV (cpm : Word64) : List Nat :=
  let qs := (List.range 128).filter (fun r => cpm.getLsbD (r / 4))
  ((List.range 32).map (fun st => qs.map (fun r => 128 * st + r))).flatten
def liveS (cpm : Word64) : List Nat :=
  ((List.range 32).map (fun j => if cpm.getLsbD (32 + j) then [2 * j, 2 * j + 1] else [])).flatten

/-- Snapshot of R62. -/
def Gang.snapshot (g : Gang) : Gang :=
  { g with shadow :=
    { v := (liveV g.spec.cpm).map (fun k => (k, g.v (k / 128) (k % 128)))
      s := (liveS g.spec.cpm).map (fun r => (r, g.s r))
      poison := g.regs.poison.filter (fun k => (liveV g.spec.cpm).contains k || (liveS g.spec.cpm).contains (k - 4096) && 4096 ≤ k)
      ctl := g.ctl } }

/-- The implicit CONT: cp and the snapshot. -/
def Gang.cont (g : Gang) (cp : Word64) : Gang :=
  { ({ g with spec := { g.spec with cp := cp } } : Gang).snapshot with iss := { g.iss with mseal := true } }

/-- Operations of a gang that are still outstanding. -/
def State.flightsOf (s : State) (uid : Nat) : List Flight := s.flights.filter (fun f => f.uid == some uid)

/-- The register results among them. -/
def Flight.dst? (f : Flight) : Option Reg :=
  match f.kind with
  | .load _ _ d _ _ => some d
  | .ldx _ _ _ d => some d
  | .atomic _ _ d => some d
  | .spadLoad _ _ d => some d
  | .spadAtomic _ _ d => some d
  | .join d => some d
  | .resolve _ d => some d
  | .poll d => some d
  | .xlat _ _ _ d _ => some d
  | _ => none

def State.resultsOut (s : State) (uid : Nat) : Bool := (s.flightsOf uid).any (fun f => f.dst?.isSome)
/-- A register result of the gang is still to return, or a decoupled one to be posted (R173, R174). -/
def State.awaiting (s : State) (g : Gang) : Bool := s.resultsOut g.uid || g.pend.any (fun p => p.flight.isSome)

/-- Every result of the gang has landed. A decoupled one has, once its flag is posted (R174). -/
def Gang.landed (g : Gang) : Bool := g.pend.all (fun p => p.hold.isSome)

/-- A seal whose instruction has left and whose results have landed is taken now (R66, R67); a CONT of a bundle brings its mask. The
yield record of a gang that has left its slot meanwhile must be written again (R71). -/
def Gang.takeSeal (g : Gang) : Gang :=
  match g.iss.sealTo with
  | none => g
  | some cp =>
    if g.iss.block.isEmpty && g.landed && g.park.isNone then
      let g1 := { g with spec := { g.spec with cpm := g.iss.cpmTo.getD g.spec.cpm } }
      { g1.cont cp with iss := { g.iss with mseal := true, sealTo := none, cpmTo := none, contOnly := false, recStale := match g.loc with | .queued .. => true | _ => false } }
    else g

/-- SPLIT takes effect once every result has landed, that of a walk too (R41): all strands are active, the gang is under the SIMT decoder, with
the implicit CONT of R63. out says that a result is still to return. -/
def Gang.takeSplit (g : Gang) (out : Bool) : Gang :=
  match g.iss.splitTo with
  | none => g
  | some a =>
    if g.iss.block.isEmpty && g.landed && g.park.isNone && !out then
      let g1 : Gang := { g with ctl := { g.ctl with vliw := false, active := 0xFFFFFFFF } }
      { g1.cont a with iss := { g.iss with mseal := true, splitTo := none } }
    else g


/-! ## Flags (R99 to R101) -/

/-- Adds a count to a flag, saturating; the overflow is told (R100). -/
def addFlag (v : BitVec 16) (n : Nat) : BitVec 16 × Bool :=
  if v.toNat + n > 65535 then (65535, true) else (BitVec.ofNat 16 (v.toNat + n), false)

/-- Time in the order of the log entries: nanoseconds, seconds bits 31:0, seconds bits 47:32, fraction (R384). -/
def timeNs (t : Nat) : Nat := t / 65536 % 1000000000
def timeSec (t : Nat) : Nat := t / 65536 / 1000000000
def timeFrac (t : Nat) : Nat := t % 65536
def timeBytes (t : Nat) : List Byte :=
  leBytes 4 (timeNs t) ++ leBytes 4 (timeSec t % 2 ^ 32) ++ leBytes 2 (timeSec t / 2 ^ 32) ++ leBytes 2 (timeFrac t)
/-- The dl layout (R56). -/
def timeDl (t : Nat) : Word64 := BitVec.ofNat 64 (timeSec t % 2 ^ 32 * 2 ^ 32 + timeNs t)
/-- GREC fn 1 and RDTM fn 1: seconds bits 47:32 in the low half, the fraction in the high half (R257). -/
def timeX (t : Nat) : Word32 := BitVec.ofNat 32 (timeFrac t * 65536 + timeSec t / 2 ^ 32 % 65536)

/-! ## Muslin (R422 to R426) -/

/-- The name that an entry gives a gang: node, gid and counter 9. -/
def Gang.mark (g : Gang) : List Nat := [g.node, g.gid.toNat, (SMap.get g.spec.ctrs 9 0).toNat]

def State.muslinMode (s : State) (ctx : Nat) : Nat := bits64 (s.reg (muslinBlock ctx)) 1 0
def State.logSize (s : State) (ctx : Nat) : Nat := bits64 (s.reg (muslinBlock ctx + 0x10)) 31 0
/-- The number of the 32-byte unit of main memory that holds unit k of the log. -/
def State.logUnit (s : State) (ctx k : Nat) : Nat := bits64 (s.reg (muslinBlock ctx + 8)) 51 6 * 2 + k

def State.recording (s : State) (ctx : Nat) : Bool := s.muslinMode ctx == 1 && (s.ctx ctx).live && (s.ctx ctx).mst == 0

def LogEntry.header (e : LogEntry) : List Byte :=
  [BitVec.ofNat 8 e.kind, BitVec.ofNat 8 (e.units - 1), 0#8, 0#8] ++ timeBytes e.time ++ leBytes 16 (Config.muslinImage e.kind e.fields).toNat

/-- Appends an entry to the log of a context in record mode; a full log ends the recording (R424). -/
def State.muslin (s : State) (ctx kind : Nat) (fields : List Nat) (payload : List Byte := []) : State :=
  if !s.recording ctx then s
  else
    let n := min 255 ((payload.length + 31) / 32)
    let p := (s.ctx ctx).lptr
    let e : LogEntry := { kind := kind, time := s.clock.t, fields := fields, units := 1 + n }
    if p + e.units > s.logSize ctx then s.modCtx ctx (fun c => { c with mst := 1 })
    else
      let u := s.logUnit ctx p
      let body := (payload ++ List.replicate 31 0#8).take (32 * n)
      let s1 := s.pathWrite .host s.next (32 * u) (e.header ++ body)
      { s1.modCtx ctx (fun c => { c with lptr := p + e.units }) with logs := SMap.set s1.logs u e }

/-- An entry stands at a unit, and its header is as it was written. -/
def State.entryAt (s : State) (u : Nat) : Option LogEntry :=
  (SMap.find s.logs u).filter (fun e => (List.range 32).map (fun i => (s.pathByte .host (32 * u + i)).1) == e.header)

/-- The entries of a log from unit k on, with the units where they begin. -/
def State.entriesFrom (s : State) (ctx : Nat) : Nat → Nat → List (Nat × LogEntry)
  | 0, _ => []
  | fuel + 1, k =>
    if s.logSize ctx ≤ k then []
    else match s.entryAt (s.logUnit ctx k) with
      | some e => (k, e) :: State.entriesFrom s ctx fuel (k + e.units)
      | none => []

/-- The entries that a replay has still to use; fired interrupts are not replayed (R425). -/
def State.logLeft (s : State) (ctx : Nat) : List (Nat × LogEntry) :=
  (s.entriesFrom ctx (s.logSize ctx) 0).filter (fun e => e.2.kind != 7 && !NSet.has (s.ctx ctx).mdone e.1)

/-- The context runs from its log: in replay mode, until the log has ended (R425, R426). -/
def State.replaying (s : State) (ctx : Nat) : Bool :=
  s.muslinMode ctx == 2 && (s.ctx ctx).live && (s.ctx ctx).mst != 3 && !(s.logLeft ctx).isEmpty

/-- An entry is used; after the last one the log has ended. -/
def State.useEntry (s : State) (ctx : Nat) (x : Nat × LogEntry) : State :=
  let s1 := s.modCtx ctx (fun c => { c with mdone := NSet.add c.mdone x.1, lptr := c.lptr + x.2.units })
  if (s1.logLeft ctx).isEmpty then s1.modCtx ctx (fun c => { c with mst := 3 }) else s1

/-- The first entry left that passes a test, in a replay. -/
def State.nextEntry (s : State) (ctx : Nat) (test : LogEntry → Bool) : Option (Nat × LogEntry) :=
  if s.muslinMode ctx == 2 && (s.ctx ctx).live && (s.ctx ctx).mst != 3 then (s.logLeft ctx).find? (fun e => test e.2) else none

/-- The locations of R424: a word at its home slice, a word of a scratchpad bank, a flag, a cohort entry, a monitored line, a bin. -/
inductive Location where
  | word (n : Nat)
  | bank (n : Nat)
  | flag (core flag : Nat)
  | cohort (n : Nat)
  | line (n : Nat)
  | bin (node : Nat)
  deriving DecidableEq, Repr

def Location.code : Location → Nat
  | .word n => 8 * n
  | .bank n => 8 * n + 1
  | .flag c f => 8 * (64 * c + f) + 2
  | .cohort n => 8 * n + 3
  | .line n => 8 * n + 4
  | .bin n => 8 * n + 5

/-- In a replay, an operation waits until it is the next one of its location. -/
def State.orderOk (s : State) (ctx : Nat) (loc : Location) (mark : List Nat) : Bool :=
  match s.nextEntry ctx (fun e => e.kind == 8 && e.fields.head? == some loc.code) with
  | some e => e.2.fields == loc.code :: mark
  | none => true

/-- A location applies an operation: an entry of kind 8 is written or used. -/
def State.noteOrder (s : State) (ctx : Nat) (loc : Location) (mark : List Nat) : State :=
  match s.nextEntry ctx (fun e => e.kind == 8 && e.fields == loc.code :: mark) with
  | some e => s.useEntry ctx e
  | none => s.muslin ctx 8 (loc.code :: mark)

/-- The values that a read returns, one for each strand or one for all: in a replay, the logged ones. -/
def State.valueRead (s : State) (g : Gang) (v : List Nat) : List Nat :=
  match s.nextEntry g.ctx (fun e => e.kind == 9 && e.fields.take 3 == g.mark) with
  | some e => e.2.fields.drop 3
  | none => v
/-- The entry of a value read is written or used. -/
def State.noteValue (s : State) (g : Gang) (v : List Nat) : State :=
  match s.nextEntry g.ctx (fun e => e.kind == 9 && e.fields.take 3 == g.mark) with
  | some e => s.useEntry g.ctx e
  | none => s.muslin g.ctx 9 (g.mark ++ v)

/-- CRC-32C. -/
def crc32c (l : List Byte) : Word32 :=
  ~~~(l.foldl (fun (c : Word32) b => (List.range 8).foldl (fun c _ => if c.getLsbD 0 then (c >>> 1) ^^^ 0x82F63B78 else c >>> 1)
    (c ^^^ b.setWidth 32)) 0xFFFFFFFF)

/-- The signature of a seal: the values that the off-core loads since the last one returned, in program order. -/
def Gang.signature (g : Gang) : Nat :=
  let ordered := g.iss.mloads.foldl (fun (acc : List (Nat × List Byte)) x =>
    acc.takeWhile (fun y => y.1 ≤ x.1) ++ x :: acc.dropWhile (fun y => y.1 ≤ x.1)) []
  (crc32c (ordered.map Prod.snd).flatten).toNat

/-- A seal or CONT of a gang: its entry is written, or compared with the log (R424, R426). -/
def State.noteSeal (s : State) (g : Gang) : State :=
  let sg := g.signature
  let s1 := s.modGang g.uid (fun x => { x with iss := { x.iss with mseal := false, mloads := [] } })
  match s1.nextEntry g.ctx (fun e => e.kind == 10 && e.fields.take 3 == g.mark) with
  | some e =>
    let s2 := if e.2.fields.getD 3 sg == sg || (s1.ctx g.ctx).mst == 2 then s1
      else s1.modCtx g.ctx (fun c => { c with mst := 2, dvptr := e.1 })
    s2.useEntry g.ctx e
  | none => s1.muslin g.ctx 10 (g.mark ++ [sg])

/-- What an off-core load returned is kept for the next seal, where Muslin is on. -/
def State.noteLoad (s : State) (uid : Option Nat) (seq : Nat) (bs : List Byte) : State :=
  match uid.bind s.gang? with
  | none => s
  | some g => if s.muslinMode g.ctx = 0 then s else s.modGang g.uid (fun x => { x with iss := { x.iss with mloads := x.iss.mloads ++ [(seq, bs)] } })

/-! ## Interrupts and the error log -/

/-- A vector fires on the port and function that the assignment table names (R392, R394); a masked one becomes pending. -/
def State.fire (s0 : State) (ctx assignOff vec : Nat) : State :=
  let s := s0.muslin ctx 7 [vec, bits64 (s0.reg (assignBlock + assignOff)) 6 6]
  let w := s.reg (assignBlock + assignOff)
  let fn := bits64 w 5 0
  let port := bits64 w 6 6
  let limit := if fn = 0 then 2048 else 64
  let h : HostPort := SMap.get s.hosts port {}
  if limit ≤ vec then s
  else if NSet.has h.opened (2048 * fn + vec) then { s with out := s.out ++ [.irq port fn vec h.frz] }
  else { s with hosts := SMap.set s.hosts port { h with pending := NSet.add h.pending (2048 * fn + vec) } }

/-- The place of a gang in an entry: bits 3:0 slot, 8:4 core, 11:9 cluster. -/
def placeCode (cluster core slot : Nat) : Nat := slot + 16 * core + 512 * cluster
def Gang.code (g : Gang) : Nat := placeCode g.cluster g.core g.slot

/-- Appends an entry to a context's error log (R390), through the HOST path (R439). -/
def State.log (s : State) (ctx kind pa who detail : Nat) : State :=
  let b := ctxBlock ctx
  let c := s.ctx ctx
  let base := bits64 (s.reg (b + 0x58)) 51 6 * 64
  let size := 2 ^ (bits64 (s.reg (b + 0x60)) 3 0 + 4)
  if base = 0 && bits64 (s.reg (b + 0x60)) 3 0 = 0 then s
  else if (c.elwptr - (s.reg (b + 0x68) >>> 32).setWidth 32).toNat = size then s.modCtx ctx (fun c => { c with eldrop := true })
  else
    let bytes := [BitVec.ofNat 8 kind, if c.eldrop then 1#8 else 0#8, 0#8, 0#8] ++ timeBytes s.clock.t ++ leBytes 8 pa ++ leBytes 4 who
      ++ leBytes 4 detail
    let s1 := s.pathWrite .host s.next (base + 32 * (c.elwptr.toNat % size)) bytes
    let s2 := s1.modCtx ctx (fun c => { c with elwptr := c.elwptr + 1, eldrop := false })
    let vec := s2.reg (b + 0x60)
    if vec.getLsbD 15 then s2.fire ctx (0x1000 + 4 * ctx) (bits64 vec 14 4) else s2

/-! ## Counters (R277, R410, R411) -/

/-- An event adds to the programmable counters of a core whose context and slot mask pass (R411, R412). -/
def State.countAt (s : State) (core ev amount : Nat) (pass : Nat → Nat → Bool) : State :=
  (List.range 8).foldl (fun st n =>
    let a := counterBlock core + 16 * n
    let c := st.reg a
    if c.getLsbD 18 && bits64 c 7 0 == ev && pass (bits64 c 17 8) (bits64 c 36 21) then
      st.bump a amount
    else st) s
/-- The wraps of a cycle at its end: the overflow bit is set, and a core's counter that had it clear and names its interrupt appends its entry (R412). -/
def State.settleWraps (s : State) : State :=
  s.wrapped.foldl (fun st a =>
    let c := st.reg a
    let slice := sliceBlock 0 ≤ a && a < sliceBlock 256
    let bit := if slice then 25 else 20
    let was := (st.wroteNow a).getD (c.getLsbD bit)
    let st1 := st.setReg a (c ||| st.ovfNow a bit)
    let core := (a - counterBlock 0) / 0x1000
    if !slice && !was && c.getLsbD 19 then
      st1.log (bits64 c 17 8) 9 0 (placeCode (core / 32) (core % 32) 0) ((a - counterBlock core) / 16 + 256 * bits64 c 7 0)
    else st1) { s with wrapped := [] }
/-- An event attributed to a gang. -/
def State.count (s : State) (g : Gang) (ev amount : Nat) : State :=
  s.countAt g.gcore ev amount (fun ctx sm => ctx == g.ctx && (sm == 0 || sm.testBit g.slot))

def Gang.ctr (g : Gang) (n : Nat) (f : Nat → Nat) : Gang :=
  { g with spec := { g.spec with ctrs := SMap.set g.spec.ctrs n (BitVec.ofNat 48 (f (SMap.get g.spec.ctrs n 0).toNat)) } }

/-! ## Flag posts -/

/-- The flag address of R101. -/
def flagCode (core flag : Nat) (serial : BitVec 8) : Nat := flag + 64 * (core % 32) + 2048 * (core / 32) + 65536 * serial.toNat
/-- The serial of the window that holds a flag of a core. -/
def Core.serialAt (c : Core) (flag : Nat) : BitVec 8 :=
  match c.wins.find? (fun w => w.2.base ≤ flag && flag < w.2.base + w.2.size) with
  | some w => w.2.serial
  | none => 0

/-- The gang whose live window holds a flag of a core; a gang in a full save has its window with it (R351). -/
def State.windowOwner (s : State) (core flag : Nat) : Option Gang :=
  s.gangs.find? (fun g => g.gcore == core && g.loc != .saved && g.window.size != 0 && g.window.base ≤ flag && flag < g.window.base + g.window.size)
/-- Posts to a flag of a core's file. -/
def State.postFlag (s : State) (core flag n ctx : Nat) : State :=
  let r := addFlag (SMap.get (s.core core).flags flag 0) n
  let s1 := s.modCore core (fun c => { c with flags := SMap.set c.flags flag r.1 })
  let s2 := match s1.windowOwner core flag with
    | some g => s1.count g 0x10 1
    | none => s1
  if r.2 then s2.log ctx 4 0 (((s2.windowOwner core flag).map Gang.code).getD 0) (flagCode core flag ((s.core core).serialAt flag)) else s2

/-- The live window that a flag address names, if its serial and context match (R101). DESIGN CHOICE (assumption 98): an address whose reserved
bits are not zero names none, so that its post is stale. -/
def State.flagAt (s : State) (addr : Word32) (ctx : Nat) : Option (Nat × Nat) :=
  let a := addr.toNat
  let core := 32 * field a 13 11 + field a 10 6
  let flag := field a 5 0
  if field a 15 14 == 0 && field a 31 24 == 0 && (s.core core).wins.any (fun w => w.1 == ctx && w.2.base ≤ flag && flag < w.2.base + w.2.size
      && w.2.serial.toNat == field a 23 16) then some (core, flag)
  else none

/-- The gang in a full save whose window a flag address names (R351). -/
def State.savedAt (s : State) (addr : Word32) (ctx : Nat) : Option Gang :=
  let a := addr.toNat
  if field a 15 14 == 0 && field a 31 24 == 0 then
    s.gangs.find? (fun g => g.loc == .saved && g.ctx == ctx && g.gcore == 32 * field a 13 11 + field a 10 6 && g.window.base ≤ field a 5 0
      && field a 5 0 < g.window.base + g.window.size && g.window.serial.toNat == field a 23 16)
  else none

/-- A remote post reaches its core: it is applied, to the flags of a saved gang where its window is one, or discarded and logged as stale
(R101, R351). who is the place of the gang that posts, if one does (R390). -/
def State.remotePost (s : State) (addr : Word32) (n ctx who : Nat) : State :=
  match s.flagAt addr ctx with
  | some (core, flag) => s.postFlag core flag n ctx
  | none =>
    match s.savedAt addr ctx with
    | some g =>
      let k := field addr.toNat 5 0
      let r := addFlag (SMap.get g.keptFlags k 0) n
      let s1 := s.modGang g.uid (fun x => { x with keptFlags := SMap.set x.keptFlags k r.1 })
      if r.2 then s1.log ctx 4 0 g.code addr.toNat else s1
    | none => s.log ctx 5 0 who addr.toNat

/-- A completion of a gang's command posts 1 (R158). Where Muslin is on, the post takes its place in the order of its flag, under the name that
the gang had at the issue (R424, R425). -/
def State.postRef (s : State) (f : FlagRef) (ctx : Nat) (mark : List Nat) (who : Nat) : State :=
  let send (a : Word32) : State :=
    { s with next := s.next + 1
             flights := s.flights ++ [{ id := s.next, seq := s.next, uid := none, ctx := ctx, core := 0, queue := none, mark := mark, who := who, kind := .post a 1 ctx }] }
  match f with
  | .none => s
  | .own cl co fl ser =>
    if s.muslinMode ctx != 0 then send (BitVec.ofNat 32 (flagCode (32 * cl + co) fl ser))
    else if (s.core (32 * cl + co)).wins.any (fun w => w.2.base ≤ fl && fl < w.2.base + w.2.size && w.2.serial == ser) then
      s.postFlag (32 * cl + co) fl 1 ctx
    else s.remotePost (BitVec.ofNat 32 (flagCode (32 * cl + co) fl ser)) 1 ctx who
  | .remote a => send a

/-! ## Flights -/

/-- Adds an operation in flight, with the next number. -/
def State.launchFlight (s : State) (f : Flight) : State :=
  let x : Flight :=
    { f with
      id := s.next
      seq := if f.seq = 0 then s.next else f.seq
      mark := ((f.uid.bind s.gang?).map Gang.mark).getD f.mark
      pc := ((f.uid.bind s.gang?).map Gang.pc).getD f.pc
      who := ((f.uid.bind s.gang?).map Gang.code).getD f.who
      launch := ((f.uid.bind s.gang?).map Gang.launch).getD f.launch
      topup := ((f.uid.bind s.gang?).map Gang.topup).getD f.topup }
  { s with next := s.next + 1, flights := s.flights ++ [x] }
/-- The same for several requests of one instruction: they share a place in program order. -/
def State.launchAll (s : State) (fs : List Flight) : State :=
  fs.foldl (fun st f => st.launchFlight { f with seq := s.next }) s
/-- The locations at which an operation of a gang takes its place in an order that Muslin logs (R424). -/
def Flight.locs (f : Flight) : List Location :=
  let words : List Location := (f.parts.map (fun p => Location.word (p.pa / 4))).eraseDups
  match f.kind with
  | .atomic .. => words
  | .join _ => words
  | .resolve .. => words
  | .poll _ => words
  | .store _ => if f.rel then words else []
  | .load _ _ _ _ acquire => if acquire && !f.acted then words else []
  | .spadAtomic .. => (f.parts.map (fun p => Location.bank (p.pa / 4))).eraseDups
  | .localPost core flag n => if n = 0 then [] else [.flag core flag]
  | .post addr n _ => if n = 0 then [] else [.flag (32 * field addr.toNat 13 11 + field addr.toNat 10 6) (field addr.toNat 5 0)]
  | .arrive c _ => [.cohort c]
  | .append _ _ node _ _ => [.bin node]
  | _ => []
def State.noteFlight (s : State) (f : Flight) : State := f.locs.foldl (fun st l => st.noteOrder f.ctx l f.mark) s

/-- An operation has taken effect and is over. -/
def State.dropFlight (s0 : State) (id : Nat) : State :=
  let s := match s0.flights.find? (fun f => f.id == id) with
    | some f => s0.noteFlight f
    | none => s0
  { s with flights := s.flights.filter (fun f => f.id != id)
           gangs := s.gangs.map (fun g => { g with iss := { g.iss with block := g.iss.block.filter (fun b => b != id) } }) }
/-- Operations that end without taking effect; no gang waits for them any more. -/
def State.dropWhere (s : State) (f : Flight → Bool) : State :=
  let gone := (s.flights.filter f).map Flight.id
  { s with flights := s.flights.filter (fun x => !f x)
           gangs := s.gangs.map (fun g => { g with iss := { g.iss with block := g.iss.block.filter (fun b => !gone.contains b) } }) }
/-- An operation that an exit abandons (R37): a load. -/
def Flight.abandoned (f : Flight) : Bool :=
  match f.kind with
  | .load .. => true
  | .ldx .. => true
  | .spadLoad .. => true
  | _ => false
def State.modFlight (s : State) (id : Nat) (f : Flight → Flight) : State :=
  { s with flights := s.flights.map (fun x => if x.id == id then f x else x) }

/-- Does an operation belong to the order of R121 that releases wait for? -/
def Flight.ordered (f : Flight) : Bool :=
  match f.kind with
  | .localPost .. => false
  | .arrive .. => false
  | .post .. => false
  | .append .. => false
  | .cell .. => false
  | .sched _ => false
  | .xlat .. => false
  | .revoke .. => false
  | _ => true

/-- The write waits for the acknowledgement of the revocations that it caused (R120). -/
def State.revoking (s : State) (f : Flight) : Bool :=
  s.flights.any (fun x => x.seq == f.id && (match x.kind with | .revoke .. => true | _ => false))

/-- The bytes that an operation's parts read, and those that they write: addresses with lengths. -/
def Flight.reads (f : Flight) : List (Nat × Nat) :=
  match f.kind with
  | .load n .. => f.parts.map (fun p => (p.pa, n))
  | .ldx n .. => (f.parts.filter (fun p => p.got.isNone)).map (fun p => (p.pa, n))
  | .spadLoad n .. => (f.parts.filter (fun p => p.got.isNone)).map (fun p => (p.pa, n))
  | .atomic _ n _ => f.parts.map (fun p => (p.pa, n))
  | .spadAtomic _ n _ => f.parts.map (fun p => (p.pa, n))
  | .join _ => f.parts.map (fun p => (p.pa, 8))
  | .resolve .. => f.parts.map (fun p => (p.pa, 8))
  | .poll _ => f.parts.map (fun p => (p.pa, 8))
  | _ => []
def Flight.stores (f : Flight) : List (Nat × Nat) :=
  match f.kind with
  | .store n => f.parts.map (fun p => (p.pa, n))
  | .spadStore n => (f.parts.filter (fun p => p.got.isNone)).map (fun p => (p.pa, n))
  | .discard => f.parts.map (fun p => (p.pa / 128 * 128, 128))
  | .atomic .. => f.reads
  | .spadAtomic .. => f.reads
  | .join _ => f.reads
  | .resolve .. => f.reads
  | .poll _ => []
  | _ => []
/-- Two byte ranges meet. -/
def meets (a b : Nat × Nat) : Bool := a.1 < b.1 + b.2 && b.1 < a.1 + a.2
/-- An operation would write what an earlier one of its party has still to read (R118). -/
def Flight.overtakes (f x : Flight) : Bool := f.stores.any (fun a => x.reads.any (meets a))
/-- Two requests of one instruction write the same bytes: they apply in the order of their strands (R231, R255, R280). -/
def Flight.follows (f x : Flight) : Bool := x.uid == f.uid && f.uid.isSome && x.seq == f.seq && x.id < f.id && f.stores.any (fun a => x.stores.any (meets a))

/-- A store that precedes a release in its party's program order was lost: the release takes no effect (R129). -/
def State.lostBefore (s : State) (f : Flight) : Bool :=
  f.rel && (match f.uid.bind s.gang? with | some g => g.lostStore && g.lostSeq < f.seq | none => false)
/-- A fence stands in flight under a code from 16 on. -/
def Flight.fence (f : Flight) : Bool := match f.kind with | .maintain op => 16 ≤ op | _ => false
/-- A matrix instruction of its gang, queued or running, that a release waits for: an earlier ZST; before a fence, any earlier one (R118, R121,
R126). -/
def MEntry.before (m : MEntry) (f : Flight) : Bool :=
  f.uid == some m.uid && m.id < f.seq && (f.fence || (match m.instr with | .zst .. => true | _ => false))
/-- A loss was charged to the context of a fence's gang since the gang last heard of one: the fence traps before it completes (R130, R389). -/
def State.lossBefore (s : State) (f : Flight) : Bool :=
  f.fence && (match f.uid.bind s.gang? with | some g => g.inSlot && g.loss != (s.ctx g.ctx).loss | none => false)
/-- What a release waits for is done: every earlier access of its party, and its stores to the own scratchpad are visible (R121). -/
def State.releaseDue (s : State) (f : Flight) : Bool :=
  !s.flights.any (fun x => x.uid == f.uid && f.uid.isSome && x.seq < f.seq && x.ordered && !x.shelved) &&
  !(match f.uid with | some u => (s.core f.core).storing u | none => false) && !(s.core f.core).mq.any (fun m => m.before f)

/-- The core at which an operation takes effect or to which its result returns, if it has one. -/
def Flight.where_ (f : Flight) : List Nat :=
  (match f.kind with
    | .post addr _ _ => [32 * field addr.toNat 13 11 + field addr.toNat 10 6]
    | .revoke _ core => [core]
    | .spadStore _ => f.parts.map (fun p => (spadLoc p.pa).1)
    | .spadAtomic .. => f.parts.map (fun p => (spadLoc p.pa).1)
    | .sched _ => [f.core]
    | _ => []) ++ (if f.uid.isSome then [f.core] else [])
/-- A freeze holds back what arrives at its core until its end has applied what came before (R114). -/
def State.held (s : State) (f : Flight) : Bool := f.where_.any (fun c => (s.core c).freeze != 0)

/-- An operation may take effect: every earlier one of its gang in its queue has, and every one that still has to read what it writes (R118);
for a release or a fence, every earlier access of the gang, for a release none of them lost (R121, R126, R129); its revocations are acknowledged (R120); its core is not
frozen (R114). -/
def State.enabled (s : State) (f : Flight) : Bool :=
  let mine := s.flights.filter (fun x => x.uid == f.uid && f.uid.isSome && x.seq < f.seq && !x.shelved)
  !f.shelved && !s.revoking f &&
  !mine.any (fun x => (f.queue.isSome && x.queue == f.queue) || f.overtakes x) && !s.flights.any f.follows &&
  !((f.rel || f.fence) && !(s.releaseDue f && !s.lostBefore f && !s.lossBefore f)) && !s.held f && f.locs.all (fun l => s.orderOk f.ctx l f.mark)

/-- Arrival at a cohort entry; the last one advances the phase (R49). -/
def Cohort.arrive (c : Cohort) : Cohort :=
  if c.arrived + 1 = c.members then { c with arrived := 0, phase := c.phase + 1 } else { c with arrived := c.arrived + 1 }
/-- A gang of the cohort exits; its arrival in the current phase is taken back (R50). -/
def Cohort.leave (c : Cohort) (counted : Bool) : Cohort :=
  let c1 := { c with members := c.members - 1, arrived := if counted then c.arrived - 1 else c.arrived }
  if c1.members != 0 && c1.arrived == c1.members then { c1 with arrived := 0, phase := c1.phase + 1 } else c1

def State.modCohort (s : State) (ctx i : Nat) (f : Cohort → Cohort) : State :=
  s.modCtx ctx (fun c => { c with cohorts := SMap.upd c.cohorts i {} f })

/-- The codes under which a FENCE and a FENCEX stand in flight. -/
def fenceCode (fn : Nat) : Nat := 16 + fn
def fencexCode (p q : Nat) : Nat := 32 + 8 * p + q
def pathOf (n : Nat) : Path := [Path.vec, .mtx, .cpy, .net].getD n .host

/-- Fence of R126, once the earlier accesses of the gang are complete: an acquire's self-invalidation, or the drain of the producer
path and, towards VEC or MTX, the invalidation of the core's L1. -/
def State.applyFence (s : State) (f : Flight) (op : Nat) : State :=
  if op < 32 then
    if op == fenceCode 2 || op == fenceCode 3 then
      match f.uid.bind s.gang? with
      | some g => (s.selfInvalidate f.core).count g 0x0A 1
      | none => s.selfInvalidate f.core
    else s
  else
    let s1 := s.mergePath (pathOf ((op - 32) / 8))
    if (op - 32) % 8 < 2 then s1.flushL1 f.core else s1

/-- The flag of a decoupled access is posted: its register results land, and wait for the wait that consumes the post (R173, R174). -/
def State.endDecoupled (s : State) (f : Flight) (flag : Nat) : State :=
  match f.uid.bind s.gang? with
  | none => s
  | some g => s.modGang g.uid (fun x => { x with pend := x.pend.map (fun p =>
      if p.flight == some f.id then
        let q : PendWrite := { p with flight := none, hold := some (flag - g.window.base, f.id), land := s.gclk g, key := s.gclk g - g.iss.stall }
        { q with passed := x.iss.ghosts.any (fun y => y.beats q) }
      else p) })

/-- Local releases and fences whose earlier accesses are complete take effect (R121): one pass over those that stand in flight. -/
def State.applyReleases (s : State) : State :=
  s.flights.foldl (fun st f =>
    match f.kind with
    | .localPost core flag n =>
      if st.enabled f then ((if n = 0 then st else st.postFlag core flag n f.ctx).endDecoupled f flag).dropFlight f.id else st
    | .arrive c k =>
      if st.enabled f then
        let now := (SMap.get (st.ctx f.ctx).cohorts c {}).phase
        let s1 := match f.uid with
          | some u => st.modGang u (fun g => { g with
              ctl := { g.ctl with k := SMap.set g.ctl.k k { g.k k with phase := now } }
              shadow := { g.shadow with ctl := { g.shadow.ctl with k := SMap.upd g.shadow.ctl.k k {} (fun x => if x.arrived then { x with phase := now } else x) } }
              iss := { g.iss with recStale := match g.loc with | .queued .. => true | _ => g.iss.recStale } })
          | none => st
        (s1.modCohort f.ctx c Cohort.arrive).dropFlight f.id
      else st
    | .maintain op => if 16 ≤ op && st.enabled f then (st.applyFence f op).dropFlight f.id else st
    | _ => st) s

/-! ## Ending a gang (R37, R50, R301, R344) -/

/-- The cohort effects of a gang's exit. -/
def State.leaveCohorts (s : State) (g : Gang) : State :=
  (List.range 4).foldl (fun st n =>
    let k := g.k n
    if k.valid then
      let e := SMap.get (st.ctx g.ctx).cohorts k.idx.toNat {}
      let pendingArrive := st.flights.any (fun f => f.uid == some g.uid && f.kind == .arrive k.idx.toNat n)
      st.modCohort g.ctx k.idx.toNat (fun c => c.leave (k.arrived && k.phase == e.phase && !pendingArrive))
    else st) s

/-- Adds to a context's pools. -/
def State.refund (s : State) (ctx ib tb : Nat) : State :=
  s.modCtx ctx (fun c => { c with ibpool := min (2 ^ 64 - 1) (c.ibpool + ib), tbpool := min (2 ^ 64 - 1) (c.tbpool + tb) })

/-- The gang exits: its budgets return to the pools, its cohorts are left, its loads and arrivals under way are abandoned; the slot is freed
by a later SLOT_RELEASE (R37, R50, R78, R269). -/
def State.exitGang (s : State) (uid : Nat) : State :=
  match s.gang? uid with
  | none => s
  | some g =>
    let s1 := (s.leaveCohorts g).refund g.ctx g.spec.ib.toNat g.spec.tb.toNat
    let s2 := s1.dropWhere (fun f => f.uid == some uid && (f.abandoned || (match f.kind with | .arrive .. => true | _ => false)))
    s2.modGang uid (fun g => { g with
      ctl := { g.ctl with nmask := 0, active := 0, stack := [] }
      spec := { g.spec with ib := 0, tb := 0 }
      monitor := none, park := none, pend := []
      iss := { g.iss with exiting := true, yieldReq := false, yielding := false, sealTo := none, splitTo := none, tretTo := none, dueTrap := none } })

/-- Releases a lane group that a VLIW thread holds: it returns to SIMT state at the next cycle boundary (R29, R31). -/
def State.dropGroup (s : State) (uid : Nat) : State :=
  match s.gang? uid with
  | none => s
  | some g =>
    if g.iss.group then
      (s.modCore g.gcore (fun c => { c with freed := NSet.add c.freed (g.slot % 4) })).modGang uid (fun g =>
        { g with iss := { g.iss with group := false, groupFrom := none } })
    else s

/-- A VLIW thread blocks: a cycle of its lane group is counted as blocked, and the group is released (R31, event 0x09). -/
def State.blockGroup (s : State) (uid : Nat) : State :=
  match s.gang? uid with
  | none => s
  | some g => if g.iss.group then (s.count g 0x09 1).dropGroup uid else s

/-- Kills a gang for a nested fault or with its context (R344, R357). -/
def State.kill (s : State) (uid cause : Nat) (tiaddr : Word64) (record : Bool) (kind : Nat := 7) : State :=
  match s.gang? uid with
  | none => s
  | some g =>
    let s1 := (s.exitGang uid).dropGroup uid
    let s2 := s1.modGang uid (fun g => { g with iss := { g.iss with killed := true } })
    if record then
      let s3 := (s2.modCtx g.ctx (fun c => { c with err := true })).log g.ctx kind 0 g.code cause
      { s3 with launches := s3.launches.map (fun l => if some l.id == g.launch then { l with cause := cause, kaddr := tiaddr, killed := true } else l) }
    else s2

/-! ## Taking a trap, and returning from one -/

/-- The cause codes of R336. -/
def causeIllegal : Nat := 1
def causeBundle : Nat := 2
def causeMisaligned : Nat := 3
def causeProtection : Nat := 4
def causeStale : Nat := 5
def causeBinOverflow : Nat := 6
def causeDoubleResolve : Nat := 7
def causeStack : Nat := 8
def causeFuse : Nat := 9
def causePoison : Nat := 10
def causeBreakpoint : Nat := 11
def causeSoftware : Nat := 12

/-- tinfo of R336. -/
def packTinfo (t : TrapInfo) (vliw : Bool) (depth : Nat) : Word64 :=
  BitVec.ofNat 64 (t.cause + t.pslot * 2 ^ 8 + t.step * 2 ^ 13 + (if t.bnd then 2 ^ 15 else 0) + (if vliw then 2 ^ 16 else 0)
    + t.code * 2 ^ 32 + depth * 2 ^ 48)

/-- A trap waits for the results in flight (R175, R341); a nested fault does not (R344). -/
def State.trapWaits (s : State) (g : Gang) : Bool := s.awaiting g && g.ctl.tdepth == 0 && (s.ctx g.ctx).tvec != 0

/-- Entering a trap (R341, R342, R344): the record is written, depth becomes 1, the active mask becomes nmask, and the gang goes
on at tvec + 64 * cause under the SIMT decoder. A nested fault kills the gang. at_ is the trapping instruction or bundle, npc the
address that follows it; tpc receives one of them (R276). -/
def State.enterTrap (s : State) (uid : Nat) (t : TrapInfo) (at_ npc : Word64) : State :=
  match s.gang? uid with
  | none => s
  | some g0 =>
    let sl := s.modGang uid (fun g => { g with lostStore := g.lostStore && !t.lost
                                               loss := if t.loss then (s.ctx g.ctx).loss else g.loss
                                               park := none })
    let s0 := if t.cause == causePoison then sl.log g0.ctx 3 0 g0.code t.cause else sl
    let tvec := (s0.ctx g0.ctx).tvec
    let s1 := { s0.count g0 0x03 1 with note := .trapped t.cause }
    if g0.ctl.tdepth != 0 || tvec == 0 then s1.kill uid t.cause at_ true
    else
      (s1.dropGroup uid).modGang uid (fun g1 =>
        let g := g1.landAll
        { g with
          pc := tvec + BitVec.ofNat 64 (64 * t.cause)
          ctl := { g.ctl with
            trap := { tinfo := packTinfo t g.ctl.vliw g.ctl.stack.length, tpc := if t.after then npc else at_, tiaddr := at_, taddr := t.taddr
                      tmask := BitVec.ofNat 32 t.mask, tact := g.ctl.active, next := npc }
            tdepth := 1, active := g.ctl.nmask, vliw := false }
          iss := { g.iss with sealTo := none, cpmTo := none, splitTo := none, tretTo := none, since := some s.clock.el } })

/-- Taking a trap (R341): nothing of the instruction is committed; once the results in flight have landed, the trap is entered. -/
def State.takeTrap (s : State) (uid : Nat) (t : TrapInfo) (at_ npc : Word64) : State :=
  match s.gang? uid with
  | none => s
  | some g =>
    if s.trapWaits g then
      { s.modGang uid (fun g => { g with
          park := none
          iss := { g.iss with dueTrap := some { info := t, at_ := at_, npc := npc }, sealTo := none, cpmTo := none, splitTo := none, tretTo := none } }) with
        note := .trapped t.cause }
    else s.enterTrap uid t at_ npc

/-- A trap that follows its instruction's completion and seal (R256): that of the lowest strand. -/
def State.raiseAfter (s : State) (uid : Nat) (t : TrapInfo) (at_ : Word64) (lead : Nat) : State :=
  s.modGang uid (fun g => if g.iss.dueTrap.any (fun d => d.lead ≤ lead) then g
    else { g with iss := { g.iss with dueTrap := some { info := { t with after := true }, at_ := at_, npc := at_ + 8, lead := lead } } })

/-- Returning from a trap (R276, R342): the lane group goes, mask (without the strands that the handler ended) and mode come back from the
record, depth becomes 0. A release that waited for this handler replays, or with tret.skip is passed over (R129). -/
def State.trapReturn (s0 : State) (uid : Nat) (target : Word64) (skip : Bool) : State :=
  let mine (f : Flight) : Bool := f.uid == some uid && f.shelved
  let back := (s0.flights.filter (fun f => mine f && f.fence)).map Flight.id
  let lost := s0.flights.filterMap (fun f => match f.kind with | .arrive _ k => if mine f then some k else none | _ => none)
  let s := if skip then
      (s0.dropWhere mine).modGang uid (fun g => { g with ctl := { g.ctl with k := lost.foldl (fun m k => SMap.upd m k {} (fun x => { x with arrived := false })) g.ctl.k } })
    else { s0 with flights := s0.flights.map (fun f => if mine f then { f with shelved := false } else f) }
  (s.dropGroup uid).modGang uid (fun g => { g with
    pc := target
    ctl := { g.ctl with active := g.ctl.trap.tact &&& g.ctl.nmask, vliw := g.ctl.trap.tinfo.getLsbD 16, tdepth := 0 }
    iss := { g.iss with tretTo := none, since := some s0.clock.el, block := if skip then g.iss.block else g.iss.block ++ back } })

/-- The charge of an instruction is taken back (R61), with what its issue counted (R277). -/
def Gang.takeBack (g : Gang) (ci ct : Nat) : Gang :=
  let g1 := { g with spec := { g.spec with ib := g.spec.ib + BitVec.ofNat 32 ci, tb := g.spec.tb + BitVec.ofNat 32 ct } }
  ((g1.ctr 9 (· - 1)).ctr 10 (· - ci)).ctr 11 (· - ct)
/-- Takes a reservation of m overflow records back. -/
def dropRes (node m : Nat) : List (Nat × Nat) → List (Nat × Nat)
  | [] => []
  | r :: l => if r.1 = node && r.2 = m then l else r :: dropRes node m l
/-- What a SPAWN took at its issue returns: the room in its bin, and the grants of its records (R77, R129, R254). -/
def State.unspawn (s : State) (f : Flight) : State :=
  match f.kind, f.uid with
  | .append 2 _ node keep recs, some u =>
    let s1 := s.modCtx f.ctx (fun c => { c with
      bins := SMap.upd c.bins node {} (fun b => { b with reserved := b.reserved - keep })
      overRes := if recs.length = keep then c.overRes else dropRes node (recs.length - keep) c.overRes })
    s1.modGang u (fun g => { g with
      spec := { g.spec with ib := g.spec.ib + BitVec.ofNat 32 (recs.map (fun r => r.gi)).sum, tb := g.spec.tb + BitVec.ofNat 32 (recs.map (fun r => r.gt)).sum }
      iss := { g.iss with drained := false } })
  | _, _ => s
/-- An instruction that has issued raises a trap before any effect of it: what it has in flight goes, its charge, its seal and what a SPAWN took
are taken back, and the trap is taken at its own address (R61, R129, R389). -/
def State.recall (s0 : State) (f : Flight) (uid : Nat) (t : TrapInfo) : State :=
  let s := s0.unspawn f
  ((s.dropWhere (fun x => x.uid == f.uid && x.seq == f.seq)).modGang uid (fun g =>
    { g.takeBack f.paid.1 f.paid.2 with pc := f.pc, iss := { g.iss with block := [], sealTo := none } })).takeTrap uid t f.pc (f.pc + 8)

/-- The release of a gang whose turn has come after a store of it was lost (R129), the first in program order. -/
def State.lostRelease (s : State) (g : Gang) : Option Flight :=
  if g.lostStore then s.flights.find? (fun f => f.uid == some g.uid && !f.shelved && s.lostBefore f && s.releaseDue f && !s.held f) else none
/-- A fence of a gang whose turn has come after a loss was charged to its context (R389). -/
def State.lossFence (s : State) (g : Gang) : Option Flight :=
  if g.loss == (s.ctx g.ctx).loss then none
  else s.flights.find? (fun f => f.uid == some g.uid && !f.shelved && f.fence && s.releaseDue f && !s.held f)
/-- A trap of an operation in flight that stood in a slot of a bundle names the bundle and the slot (R175, R336). -/
def Flight.trapIn (f : Flight) (t : TrapInfo) : TrapInfo := if f.vliw then { t with bnd := true, pslot := f.slot, mask := 2 ^ f.slot } else t
/-- A trap of an operation whose instruction has issued and taken nothing but its charge, which is restored (R61): the instruction is issued again
after it; where its gang has gone on since, or it stood in a bundle, the gang resumes where it is (DESIGN CHOICE, assumption 26). -/
def State.lateTrap (s : State) (g : Gang) (f : Flight) (t : TrapInfo) : State :=
  (s.modGang g.uid (fun x => x.takeBack f.paid.1 f.paid.2)).takeTrap g.uid { f.trapIn t with after := f.vliw || g.pc != f.pc + 8 } f.pc g.pc
/-- It raises the poison trap. DESIGN CHOICE (assumption 29): where the gang has gone on since, or the operation stood in a bundle, the gang
resumes where it is, and the operation waits for the handler's return. -/
def State.trapRelease (s : State) (g : Gang) (f : Flight) (t0 : TrapInfo) : State :=
  let t := f.trapIn t0
  if !g.ctl.vliw && g.iss.block.contains f.id then s.recall f g.uid t
  else if g.ctl.tdepth = 0 then
    ({ s with flights := s.flights.map (fun (x : Flight) => if x.uid == f.uid && x.seq == f.seq then { x with shelved := true } else x) } : State).modGang g.uid (fun x =>
      { x with iss := { x.iss with block := x.iss.block.filter (fun b => b != f.id) } }) |>.takeTrap g.uid { t with after := true } f.pc g.pc
  else s

/-- A raised trap is entered once the results in flight have landed (R341), one that follows its instruction once that has completed and
sealed (R256); a lost store is told to the release that follows it (R129), and a charged loss to a fence (R389). -/
def State.takeLate (s : State) : State :=
  s.gangs.foldl (fun st x =>
    match st.gang? x.uid with
    | none => st
    | some g =>
      if g.inSlot && !g.iss.yielding && !g.iss.exiting then
        match g.iss.dueTrap with
        | some d =>
          if g.iss.block.isEmpty && g.iss.sealTo.isNone && !st.awaiting g then
            (st.modGang g.uid (fun y => { y with iss := { y.iss with dueTrap := none } })).takeTrap g.uid d.info d.at_ d.npc
          else st
        | none => match st.lostRelease g, st.lossFence g with
          | some f, _ => st.trapRelease g f { cause := causePoison, lost := true }
          | none, some f => st.trapRelease g f { cause := causePoison, loss := true }
          | none, none => st
      else st) s

/-- A TRET takes effect once every result of the handler has landed (R276). -/
def State.takeReturns (s : State) : State :=
  s.gangs.foldl (fun st g =>
    match g.iss.tretTo with
    | some r => if g.iss.block.isEmpty && g.landed && !st.resultsOut g.uid then st.trapReturn g.uid r.1 r.2 else st
    | none => st) s

/-- Seals and splits that are complete, with their entries in a Muslin log. -/
def State.takeSeals (s : State) : State :=
  let s1 : State := { s with gangs := s.gangs.map (fun g => g.takeSeal.takeSplit (s.resultsOut g.uid)) }
  s1.gangs.foldl (fun st g => if g.iss.mseal then st.noteSeal g else st) s1

/-- What follows every step: releases that have become complete, then seals, returns from handlers, and traps that have come due. -/
def State.pump (s : State) : State := s.applyReleases.takeSeals.takeReturns.takeLate

/-! ## Exhaustion and yields (R57, R68, R76) -/

/-- A yield is requested; the sequence itself is its own step. -/
def State.requestYield (s : State) (uid : Nat) (toDcp : Bool) : State :=
  let s1 := s.modGang uid (fun g => { g with iss := { g.iss with yieldReq := true, toDcp := g.iss.toDcp || toDcp } })
  match s1.gang? uid with
  | some g => s1.modGang uid (fun g' => { g' with monitor := g.monitor.map (fun m => { m with fired := m.fired.or (some 4) }) })
  | none => s1

/-- The charge does not fit: nothing issues. The second time at one address without an issue between is a protection trap
(R76); else the gang yields. DESIGN CHOICE (assumption 96): of a bundle the trap is reported as the header's, pslot 22 and mask bit 22, which
R175 gives the header; R76 names neither. -/
def State.exhaust (s : State) (uid : Nat) (pc npc : Word64) : State :=
  match s.gang? uid with
  | none => s
  | some g =>
    if g.iss.exhausted == some pc && !g.iss.issued then
      s.takeTrap uid { cause := causeProtection, bnd := g.ctl.vliw, pslot := if g.ctl.vliw then 22 else 0, mask := if g.ctl.vliw then 2 ^ 22 else 0 } pc npc
    else
      { (s.modGang uid (fun g => { g with iss := { g.iss with exhausted := some pc, issued := false, drained := false } })).requestYield uid false with
        note := .exhausted }

/-- A trap of an operation that was charged: the charge has been counted, and stays counted, when R61 restores it (R410). -/
def State.chargedTrap (s : State) (g : Gang) (ci ct : Nat) (t : TrapInfo) (pc npc : Word64) : State :=
  ((s.count g 0x02 ci).count g 0x04 ct).takeTrap g.uid t pc npc

/-- The first issue of a launch's gangs is its start (R373). -/
def State.firstIssue (s : State) (g : Gang) : State :=
  if g.iss.issued then s
  else { s with launches := s.launches.map (fun l => if some l.id == g.launch && l.start.isNone then { l with start := some s.clock.t } else l) }

/-! ## The fault queue (R384) -/

/-- Is there room to write a fault entry? -/
def State.faultRoom (s : State) (ctx : Nat) : Bool :=
  let b := ctxBlock ctx
  let c := s.ctx ctx
  (c.faults.filter (fun f => f.id.isSome)).length < Config.outstandingFaults &&
  (c.fqwptr - (s.reg (b + 0x48) >>> 32).setWidth 32).toNat != 2 ^ (bits64 (s.reg (b + 0x40)) 3 0 + 4)

/-- Writes the entry of a fault (R384), through the HOST path (R439). -/
def State.writeFault (s : State) (ctx : Nat) (f : PageFault) : State :=
  let b := ctxBlock ctx
  let c := s.ctx ctx
  let id : BitVec 16 := c.fqwptr.setWidth 16
  let size := 2 ^ (bits64 (s.reg (b + 0x40)) 3 0 + 4)
  let bytes := leBytes 8 (f.va % 2 ^ 56) ++ leBytes 2 id.toNat ++ [BitVec.ofNat 8 f.kind, BitVec.ofNat 8 (f.level + f.flags)]
    ++ leBytes 4 (f.who + (match f.engine with | some e => e * 4096 + 65536 | none => 0)) ++ timeBytes f.time ++ leBytes 4 0
  let s1 := s.pathWrite .host s.next (bits64 (s.reg (b + 0x38)) 51 6 * 64 + 32 * (c.fqwptr.toNat % size)) bytes
  let s2 := s1.modCtx ctx (fun c => { c with
    fqwptr := c.fqwptr + 1
    faults := c.faults.map (fun x => if x.page == f.page then { x with id := some id } else x) })
  let vec := s2.reg (b + 0x60)
  if vec.getLsbD 15 then s2.fire ctx (0x1000 + 4 * ctx) (bits64 vec 14 4) else s2

/-- A fault on a page: joined if one is outstanding, else recorded, with its entry written if there is room. -/
def State.fault (s : State) (ctx va kind level flags who : Nat) (engine : Option Nat) : State :=
  let page := va / 4096
  if (s.ctx ctx).faults.any (fun f => f.page == page) then s
  else
    let f : PageFault := { page := page, id := none, va := va, kind := kind, level := level, flags := flags, who := who, engine := engine, time := s.clock.t }
    let room := s.faultRoom ctx
    let s1 := s.modCtx ctx (fun c => { c with faults := c.faults ++ [f] })
    if room then s1.writeFault ctx f else s1

end Sys2Proof.Machine
end

