-- ==== Sys2Proof/Machine/Operands.lean ====
section
/-! DEFINITION. What an instruction reads and writes (R160 to R162, R165, R166, R228): the environment of one instruction at its place,
its participants, its source operands by column, and its destination writes. -/

namespace Sys2Proof.Machine

/-- The environment of one instruction: the state, the issuing gang (its charge already taken), the place, the address of the
word, the next address, the header, and the bundle's immediate slot. -/
structure Env where
  s     : State
  g     : Gang
  place : Place
  pc    : Word64
  npc   : Word64
  h     : Hd
  imm   : Option Word64
  deriving DecidableEq, Repr

def Env.vliw (e : Env) : Bool := e.place != .simt

/-- Does the guard hold for a participant (R153, R165)? -/
def Env.guard (e : Env) (i : Nat) : Bool := e.g.pred e.vliw i e.h.gd.toNat != e.h.neg

/-- The executing participants: active strands whose guard holds; in a bundle, the lane's own cluster, cluster 0
of the engine and branch slots, or every cluster whose guard holds (R153, R165, R228). -/
def Env.runs (e : Env) (i : Nat) : Bool :=
  match e.place with
  | .simt => i < 32 && e.g.ctl.active.getLsbD i && e.guard i
  | .lane k => i == k && e.guard i
  | .eng => i == 0 && e.guard 0
  | .br => i == 0 && e.guard 0
  | _ => i < 16 && e.guard i
def Env.parts (e : Env) : List Nat := (List.range 32).filter e.runs
/-- A gang-wide instruction acts when some strand executes, or under cluster 0's guard (R153, R165, R260). -/
def Env.acts (e : Env) : Bool := if e.vliw then e.guard 0 else !e.parts.isEmpty
/-- The participant that a uniform operand is read from (R161, R228, R260). -/
def Env.lead (e : Env) : Nat := if e.vliw then 0 else (e.parts.head?).getD 0

/-! ## Sources -/

/-- What the FP constants are read as (R162): the f32 bits, the bits of a format, or the format in every element. -/
inductive FC where
  | bits
  | f64
  | packed (f : Fmt)
  deriving DecidableEq, Repr

/-- The f32 bits of the FP constants (R162). -/
def fpConst (f : Reg) : Nat :=
  [0x3F000000, 0x3F800000, 0x40000000, 0x40800000, 0x41000000, 0x3E800000, 0xBF000000, 0xBF800000, 0xC0000000, 0xC0800000,
   0x80000000, 0x40490FDB, 0x3F317218, 0x3FB8AA3B, 0x3E22F983, 0x7F800000].getD (f.toNat - 224) 0
/-- The f64 nearest each exact constant: π, ln 2, log2 e and 1/(2π) are not the widened f32 (R162). -/
def fpConst64 (f : Reg) : Nat :=
  match f.toNat with
  | 235 => 0x400921FB54442D18
  | 236 => 0x3FE62E42FEFA39EF
  | 237 => 0x3FF71547652B82FE
  | 238 => 0x3FC45F306DC9C883
  | _ => (roundTo .f64 .rne false (decodeF .f32 (fpConst f))).1

/-- Repeats an element over 32 bits. -/
def spread (f : Fmt) (x : Nat) : Nat :=
  match f.width with
  | 16 => x * 0x10001
  | 8 => x * 0x01010101
  | _ => x

def fpConstAs (fc : FC) (f : Reg) : Nat :=
  match fc with
  | .bits => fpConst f
  | .f64 => fpConst64 f
  | .packed .f32 => fpConst f
  | .packed fm => spread fm (roundTo fm .rne fm.small (decodeF .f64 (fpConst64 f))).1

/-- A source field of a width, in the column of the slot or in the uniform one (base). -/
structure Src where
  f    : Reg
  w    : OpW := .w32
  base : Bool := false
  fc   : FC := .bits
  deriving DecidableEq, Repr

/-- A 32-bit v-register of a participant; the engine and branch slots read cluster 0 (R160). -/
def Env.v32 (e : Env) (i r : Nat) : Word32 :=
  let j := match e.place with | .eng => 0 | .br => 0 | _ => i
  let k := vKey e.vliw j r
  e.g.v (k / 128) (k % 128)

/-- The value of a source for a participant: 64 bits, or 32 zero-extended. -/
def Env.read (e : Env) (x : Src) (i : Nat) : Word64 :=
  let n := x.f.toNat
  let pair (r : Nat) : Word64 := match x.w with
    | .w32 => (e.v32 i r).setWidth 64
    | _ => e.v32 i (r + 1) ++ e.v32 i r
  if wideColumn e.place x.base then pair n
  else if n < 128 then pair n
  else if n < 192 then (match x.w with | .w32 => (e.g.s (n - 128)).setWidth 32 |>.setWidth 64 | _ => e.g.s (n - 128))
  else if n < 224 then BitVec.ofNat 64 (n - 192)
  else if n < 240 then BitVec.ofNat 64 (fpConstAs x.fc x.f)
  else 0

/-- Source b, which a lane slot may take from the immediate slot (R166). DESIGN CHOICE (assumption 89): a half that a 64-bit operand reads is
zero-extended. -/
def Env.readB (e : Env) (mod : BitVec 8) (x : Src) (i : Nat) : Word64 :=
  if mod.getLsbD 0 then
    match e.imm with
    | none => 0
    | some w => match x.f.toNat with
      | 0 => (w.setWidth 32).setWidth 64
      | 1 => (w >>> 32).setWidth 32 |>.setWidth 64
      | _ => w
  else e.read x i

/-- Is a source poisoned for a participant (R231)? -/
def Env.srcPoison (e : Env) (x : Src) (i : Nat) : Bool :=
  if e.g.regs.poison.isEmpty then false
  else
    let n := x.f.toNat
    let j := match e.place with | .eng => 0 | .br => 0 | _ => i
    let words := match x.w with | .w32 => 1 | .w64 => 2 | .w128 => 4
    let vs := (List.range words).any (fun q => let k := vKey e.vliw j (n + q); e.g.poisonV (k / 128) (k % 128))
    if wideColumn e.place x.base then vs
    else if n < 128 then vs
    else if n < 192 then e.g.poisonS (n - 128)
    else false

def Env.poisoned (e : Env) (xs : List Src) : Bool := e.parts.any (fun i => xs.any (fun x => e.srcPoison x i))

/-- A uniform source: read from the leading participant. -/
def Env.uniform (e : Env) (x : Src) : Word64 := e.read { x with base := true } e.lead

/-! ## Destinations -/

/-- Writes of a result to a register field for one participant, low word first (R135, R160, R161): in a column that names only
cluster registers, or in the uniform one, where an s-register takes the result of the lowest executing strand. -/
def dstRegs (wide vliw : Bool) (lead : Nat) (f : Reg) (w : OpW) (i : Nat) (v : BitVec 128) : List RegWrite :=
  let n := f.toNat
  let words := match w with | .w32 => 1 | .w64 => 2 | .w128 => 4
  let regs : List RegWrite := (List.range words).map (fun q =>
    { dst := vDst vliw i (n + q), val := ((v >>> (32 * q)).setWidth 32).setWidth 64 })
  if wide || n < 128 then regs
  else if n < 192 then
    if i == lead then [{ dst := .s (n - 128), val := match w with | .w32 => (v.setWidth 32).setWidth 64 | _ => v.setWidth 64 }] else []
  else []

def Env.dst (e : Env) (f : Reg) (w : OpW) (i : Nat) (v : BitVec 128) : List RegWrite :=
  dstRegs (wideColumn e.place false) e.vliw e.lead f w i v

/-- The predicate destination of a participant (R193): p0 to p15 of a strand, p0 to p7 of a cluster; p15 discards. -/
def Env.dstP (e : Env) (f : Reg) (i : Nat) (b : Bool) : List RegWrite :=
  let st := if e.vliw then 2 * i else i
  [{ dst := .p st (f.toNat % 16), val := if b then 1 else 0 }]

/-- A gang-wide result: in every executing participant, or in the s-register (R228, R264). -/
def Env.dstAll (e : Env) (f : Reg) (w : OpW) (v : BitVec 128) : List RegWrite :=
  let n := f.toNat
  let one := if wideColumn e.place false then false else 128 ≤ n && n < 192
  if one then [{ dst := .s (n - 128), val := match w with | .w32 => (v.setWidth 32).setWidth 64 | _ => v.setWidth 64 }]
  else (e.parts.map (fun i => e.dst f w i v)).flatten

end Sys2Proof.Machine
end

