-- ==== Sys2Proof/Machine/Exec.lean ====
section
/-! DEFINITION. How one instruction of the SIMT decoder issues (R27, R57 to R61, R66, R169, R230): encoding, waits, charge, then its own
meaning, which traps or takes effect; and what every issue counts (R277, R410, R416). -/

namespace Sys2Proof

/-- Major opcode of an instruction. -/
def Instr.maj (i : Instr) : Nat :=
  match i.layout with
  | some (m, _, _) => m.toNat
  | none => 0x80
def Instr.hd (i : Instr) : Hd :=
  match i.layout with
  | some (_, h, _) => h
  | none => { neg := false, gd := 15, lat := 0 }

/-- The sealing instructions (R65). -/
def sealsOf (maj fn : Nat) : Bool :=
  maj == 0x4B || maj == 0x4C || maj == 0x4D || maj == 0x4E || maj == 0x5D || maj == 0x5C || maj == 0x56 || (maj == 0x59 && fn == 0) ||
  maj == 0x76 || maj == 0x77 || maj == 0x78 || maj == 0x44 || maj == 0x6C

/-- Does an instruction seal (R65)? -/
def Instr.seals (i : Instr) : Bool :=
  match i.layout with
  | some (m, _, .r x) => sealsOf m.toNat x.fn.toNat
  | some (m, _, _) => sealsOf m.toNat 0
  | none => false

/-- The register numbers that an instruction's fields could name, for the scoreboard: a superset of its operands. -/
def Instr.fieldNums (i : Instr) : List Nat :=
  match i.layout with
  | some (_, _, .r x) => [x.d.toNat, x.a.toNat, x.b.toNat, x.c.toNat]
  | some (_, _, .i x) => [x.d.toNat, x.a.toNat]
  | some (_, _, .m x) => [x.d.toNat, x.base.toNat, x.index.toNat]
  | _ => []

end Sys2Proof

namespace Sys2Proof.Machine

/-- The effect of an instruction: the state with everything but its register results, those results, the fx bits it sets, and
the address it continues at if that is not the next one. -/
structure Eff where
  st     : State
  writes : List RegWrite := []
  fx     : Fx := 0
  next   : Option Word64 := none

/-- What an instruction does when it is about to issue: it waits, it traps, or it takes effect. -/
inductive Res where
  | wait (st : State)
  | trap (t : TrapInfo)
  | ok (e : Eff)

/-- The meaning of an instruction at a place: its traffic charge and its result. -/
structure Sem where
  ct : Env → Nat := fun _ => 0
  op : Env → Res

/-- The instruction charge (R58). -/
def ciOf (maj : Nat) : Nat :=
  match maj with
  | 0x04 => 8 | 0x30 => 4 | 0x31 => 4 | 0x32 => 2 | 0x5C => 4 | 0x70 => 16 | 0x71 => 16 | 0x7D => 4 | 0x7E => 4
  | 0x7F => 0
  | _ => 1

/-- The registers that an outstanding result covers. -/
def Flight.covers (f : Flight) (n : Nat) : Bool :=
  match f.dst? with
  | some d => d.toNat ≤ n + 3 && n ≤ d.toNat + 3
  | none => false

/-- The scoreboard holds an instruction back while a result it might read or write is outstanding (R27). -/
def State.scoreboard (s : State) (uid : Nat) (i : Instr) : Bool :=
  let out := (s.flightsOf uid).filter (fun f => f.dst?.isSome)
  if out.isEmpty then false
  else match i.layout with
    | some (_, _, .e _) => true
    | some (_, _, .b _) => i.maj == 0x67 || i.maj == 0x7C
    | _ => out.any (fun f => i.fieldNums.any f.covers)

/-- The gang issues nothing for now: it waits for a sealing result, a fence-like operation or a pause, is parked, yields, exits,
is stopped, or has a deadline to take (R66, R70, R80, R383, R419). DESIGN CHOICE (assumption 117): no instruction issues from the tick on that finds dl
reached; R73 allows 64 cycles to deliver it. -/
def Gang.cannotIssue (g : Gang) (cycle : Nat) : Bool :=
  !g.iss.block.isEmpty || g.iss.sealTo.isSome || g.iss.splitTo.isSome || g.iss.tretTo.isSome || g.iss.dueTrap.isSome || g.park.isSome || g.iss.yieldReq || g.iss.yielding || g.iss.exiting || g.iss.stopped || g.iss.dlDue
    || (match g.iss.pauseTo with | some c => cycle < c | none => false)
    || (match g.loc with | .resident => false | _ => true)

/-- The Gingham counts of one issue (R416, R417): ranges by decoder, classes per lane. -/
def State.gingham (s : State) (g : Gang) (vliw : Bool) (pc : Word64) (classes : List Nat) : State :=
  let b := counterBlock g.gcore
  let ctl := s.reg (b + 0x80)
  if ctl.getLsbD 10 && bits64 ctl 9 0 == g.ctx then
    let d := if vliw then 1 else 0
    let hit := (List.range 16).find? (fun r =>
      let w0 := s.reg (b + 0x100 + 16 * (16 * d + r)); let w1 := s.reg (b + 0x108 + 16 * (16 * d + r))
      w0.getLsbD 0 && bits64 w0 55 3 ≤ bits64 pc 55 3 && bits64 pc 55 3 ≤ bits64 w1 55 3)
    match hit with
    | none => s
    | some r => s.modCore g.gcore (fun c => { c with gingham := classes.foldl (fun m k =>
        SMap.upd m (80 * d + 5 * r + k) 0 (fun n => min (2 ^ 48 - 1) (n + 1))) c.gingham })
  else s

/-- The class of a strand at a SIMT issue (R416). -/
def simtClass (g : Gang) (e : Env) (i : Nat) : Nat :=
  if !g.present.getLsbD i then 3
  else if !g.ctl.active.getLsbD i then 1
  else if e.guard i then 0 else 2

/-- The f64 forms take eight beats (R222). -/
def isF64 (maj : Nat) : Bool := 0x36 ≤ maj && maj ≤ 0x39

/-- What every issue counts (R410). -/
def State.countIssue (s : State) (g : Gang) (ci ct : Nat) : State :=
  ((s.count g 0x01 1).count g 0x02 ci).count g 0x04 ct

/-- Charges a gang (R57). -/
def Gang.charge (g : Gang) (ci ct : Nat) : Gang :=
  { g with spec := { g.spec with ib := g.spec.ib - BitVec.ofNat 32 ci, tb := g.spec.tb - BitVec.ofNat 32 ct } }

/-- Does the charge fit? A gang whose last grant left a budget at zero yields at its next attempt (R77). -/
def Gang.fits (g : Gang) (ci ct : Nat) : Bool := ci ≤ g.spec.ib.toNat && ct ≤ g.spec.tb.toNat && !g.iss.drained

/-- The marks that an issue leaves on its gang: results, fx, next address, counters 9 to 11, ageing. -/
def Gang.issueMarks (g : Gang) (e : Eff) (npc : Word64) (ci ct : Nat) : Gang :=
  let g1 := ((((g.putAll e.writes).ctr 9 (· + 1)).ctr 10 (· + ci)).ctr 11 (· + ct))
  { g1 with
    pc := e.next.getD npc
    ctl := { g1.ctl with fx := fxSet g1.ctl.fx e.fx }
    iss := { g1.iss with issued := true, exhausted := none, age := 0, waitFrom := none, waited := false, first := false } }

/-- What an issue adds to the operations in flight, or parks, keeps the charge that it was issued at (R61); the next instruction is next from now on (R246). -/
def State.payAll (s : State) (uid : Nat) (old : List Flight) (ci ct : Nat) : State :=
  ({ s with flights := s.flights.map (fun f => if !old.any (fun x => x.id == f.id) && f.uid == some uid then { f with paid := (ci, ct) } else f) } : State).modGang uid (fun g =>
    { g with park := g.park.map (fun k => { k with ci := ci, ct := ct }), iss := { g.iss with since := some s.clock.el } })

/-- Takes the effect of a SIMT instruction. -/
def State.commit (i : Instr) (e : Env) (f : Eff) (ci ct : Nat) : State :=
  let uid := e.g.uid
  let lane := if isF64 i.maj then 4 else 1
  let classes := ((List.range lane).map (fun _ => (List.range 32).map (simtClass e.g e))).flatten
  let s1 := (((f.st.firstIssue e.g).countIssue e.g ci ct).gingham e.g false e.pc classes).modCore e.g.gcore (fun c =>
    { c with beat := SMap.set c.beat (e.g.slot % 4) (f.st.cycle + 2 * lane), last := SMap.set c.last (e.g.slot % 4) (f.st.cycle, uid)
             rr := (e.g.slot + 1) % 4 })
  let s2 := s1.modGang uid (fun g => g.issueMarks f e.npc ci ct)
  let s3 := if i.seals then s2.modGang uid (fun g => { g with iss := { g.iss with sealTo := some (f.next.getD e.npc) } }) else s2
  { (s3.payAll uid e.s.flights ci ct) with note := .issued }.pump

/-- A word that is no instruction (R178): its charge comes first and is restored (R57, R61). -/
def State.illegalWord (s : State) (g : Gang) (maj : Nat) : State :=
  if g.fits (ciOf maj) 0 then s.chargedTrap g (ciOf maj) 0 { cause := causeIllegal } g.pc (g.pc + 8) else s.exhaust g.uid g.pc (g.pc + 8)

/-- An attempt of the issuing gang to issue one instruction under the SIMT decoder. Under the VLIW decoder a word that is no bundle header is
an illegal bundle (R178). -/
def runSimt (i : Instr) (m : Sem) (g : Gang) (s : State) : State :=
  if g.cannotIssue s.cycle then { s with note := .waiting }
  else if g.iss.reclaim then { s.requestYield g.uid false with note := .exhausted }
  else if g.ctl.vliw then s.takeTrap g.uid { cause := causeBundle, pslot := 22, mask := 2 ^ 22, bnd := true } g.pc (g.pc + 8)
  else if !i.legal .simt false then s.illegalWord g i.maj
  else if s.scoreboard g.uid i || (i.seals && s.resultsOut g.uid) then { s with note := .waiting }
  else
    let ci := ciOf i.maj
    let env (x : Gang) : Env := { s := s.setGang x, g := x, place := .simt, pc := x.pc, npc := x.pc + 8, h := i.hd, imm := none }
    let ct := m.ct (env g)
    let e := env (g.charge ci ct)
    match m.op e with
    | .wait st => { st with note := .waiting, gangs := st.gangs.map (fun x =>
        if x.uid == g.uid then { x with spec := { x.spec with ib := g.spec.ib, tb := g.spec.tb }, iss := { x.iss with waited := true } } else x) }
    | .trap t => if g.fits ci ct then s.chargedTrap g ci ct t g.pc (g.pc + 8) else s.exhaust g.uid g.pc (g.pc + 8)
    | .ok f => if g.fits ci ct then State.commit i e f ci ct else s.exhaust g.uid g.pc (g.pc + 8)

/-- The meaning of a gang instruction: an attempt of the gang whose turn it is. -/
def run (i : Instr) (m : Sem) (s : State) : Host.Outcome State Fault Refusal :=
  match s.turn.bind s.gang? with
  | none => .fault .noIssuingGang
  | some g => .next (runSimt i m g s)

/-! ## Shapes that many meanings share -/

/-- No effect beyond issuing. -/
def Env.nothing (e : Env) : Res := .ok { st := e.s }

/-- A trap of the decoder's illegal kind: illegal instruction, or illegal bundle (R178). -/
def Env.illegal (e : Env) : Res := .trap { cause := if e.vliw then causeBundle else causeIllegal }

/-- A result per participant: poison of a source traps (R231), then each executing participant gets its writes and adds
its fx bits (R140). -/
def Env.each (e : Env) (srcs : List Src) (f : Nat → List RegWrite × Fx) : Res :=
  if e.poisoned srcs then .trap { cause := causePoison }
  else
    let rs := e.parts.map f
    .ok { st := e.s, writes := (rs.map Prod.fst).flatten, fx := rs.foldl (fun a r => a ||| r.2) 0 }

end Sys2Proof.Machine
end

