-- ==== Sys2Proof/Machine/Translate.lean ====
section
/-! DEFINITION. Address translation (R376 to R380): the walk, the TLBs, the checks of a translated address (R82, R83, R86, R91), and
shootdowns (R382). -/

namespace Sys2Proof.Machine

/-- Bytes of a page of a size code (R90). -/
def pageBytes (code : Nat) : Nat :=
  [2 ^ 12, 2 ^ 14, 2 ^ 16, 2 ^ 18, 2 ^ 20, 2 ^ 21, 2 ^ 22, 2 ^ 24, 2 ^ 26, 2 ^ 28, 2 ^ 30, 2 ^ 32].getD code (2 ^ 12)

/-- A page found, or a fault of a kind at a level (R378). -/
inductive Walk where
  | page (pa size : Nat) (rd wr ex : Bool)
  | fault (kind level : Nat)
  deriving DecidableEq, Repr

/-- A table word as the walker reads it at its home slice, and whether it is poisoned. -/
def State.tableWord (s : State) (pa : Nat) : Word64 × Bool :=
  let bs := (List.range 8).map (fun i => s.pathByte .vec (pa + i))
  (BitVec.ofNat 64 (leNat (bs.map Prod.fst)), bs.any Prod.snd)

/-- The shift of a level's index (R376). -/
def levelShift (l : Nat) : Nat := 48 - 9 * l
def levelIndex (va l : Nat) : Nat := va / 2 ^ levelShift l % (if l = 0 then 256 else 512)
/-- The size codes a leaf of a level may have. -/
def sizeAllowed (l size : Nat) : Bool :=
  (l == 2 && (size == 10 || size == 11)) || (l == 3 && 5 ≤ size && size ≤ 9) || (l == 4 && size ≤ 4)

/-- Walk of R378, from a table at a level, on the number of levels left. -/
def State.walkFrom (s : State) (va : Nat) : Nat → Nat → Walk
  | 0, _ => .fault 1 4
  | k + 1, t =>
    let l := 4 - k
    let a := t + 8 * levelIndex va l
    let e := s.tableWord a
    let w := e.1
    if e.2 then .fault 2 l
    else if !w.getLsbD 0 then .fault 0 l
    else if bits64 w 63 52 != 0 || bits64 w 11 9 != 0 || (!w.getLsbD 1 && bits64 w 8 2 != 0) then .fault 1 l
    else if !w.getLsbD 1 then
      if l = 4 then .fault 1 l else State.walkFrom s va k (bits64 w 51 12 * 4096)
    else
      let size := bits64 w 5 2
      if !sizeAllowed l size then .fault 1 l
      else
        let span := pageBytes size / 2 ^ levelShift l
        let ha := t + 8 * (levelIndex va l / span * span)
        let h := s.tableWord ha
        let base := bits64 h.1 51 12 * 4096
        if h.2 then .fault 2 l
        else if !h.1.getLsbD 0 || !h.1.getLsbD 1 || bits64 h.1 5 2 != size || base % pageBytes size != 0 then .fault 1 l
        else .page base size (h.1.getLsbD 6) (h.1.getLsbD 7) (h.1.getLsbD 8)

/-- A context's level-0 table. -/
def State.rootTable (s : State) (ctx : Nat) : Nat := bits64 (s.reg (ctxBlock ctx + 0x30)) 51 11 * 2048
def State.walk (s : State) (ctx va : Nat) : Walk := s.walkFrom va 5 (s.rootTable ctx)

/-- Where a unit's walk begins: the levels left and the table, from the deepest table pointer of its walk cache on the way, else from the root. -/
def State.walkStart (s : State) (unit ctx va : Nat) : Nat × Nat :=
  (s.pointers.filter (fun p => p.unit == unit && p.ctx == ctx && va / 2 ^ levelShift p.level == p.tag)).foldl
    (fun b p => if 4 - p.level < b.1 then (4 - p.level, p.table) else b) (5, s.rootTable ctx)
/-- A walk by a unit, which skips the levels that its walk cache holds (R380). -/
def State.walkBy (s : State) (unit ctx va : Nat) : Walk := s.walkFrom va (s.walkStart unit ctx va).1 (s.walkStart unit ctx va).2

/-- What a walk reads, on the number of levels left: each level, its table word, and the table that a valid pointer there names. -/
def State.walkPath (s : State) (va : Nat) : Nat → Nat → List (Nat × Nat × Option Nat)
  | 0, _ => []
  | k + 1, t =>
    let l := 4 - k
    let a := t + 8 * levelIndex va l
    let e := s.tableWord a
    if !e.2 && e.1.getLsbD 0 && bits64 e.1 8 1 == 0 && bits64 e.1 63 52 == 0 && bits64 e.1 11 9 == 0 && l != 4 then
      (l, a, some (bits64 e.1 51 12 * 4096)) :: State.walkPath s va k (bits64 e.1 51 12 * 4096)
    else [(l, a, none)]

/-- A unit has walked: the walker's reads count at their home slices (R105), and the newest 64 table pointers stay in its walk cache (R380). -/
def State.walked (s : State) (unit ctx va : Nat) : State :=
  let path := s.walkPath va (s.walkStart unit ctx va).1 (s.walkStart unit ctx va).2
  let s1 := path.foldl (fun st x => st.touch2 x.2.1 { tenant := s.tenantOf ctx }) s
  let new := path.filterMap (fun x => x.2.2.map (fun t => ({ unit := unit, ctx := ctx, level := x.1, tag := va / 2 ^ levelShift x.1, table := t } : TablePointer)))
  let mine := new ++ s1.pointers.filter (fun p => p.unit == unit)
  { s1 with pointers := mine.take 64 ++ s1.pointers.filter (fun p => p.unit != unit) }

/-! ## TLBs -/

/-- The unit number of a core's first-level TLB; its second-level one has the core's own number, an engine's TLB one from 256 on. -/
def firstLevel (core : Nat) : Nat := 4096 + core
/-- The entry of one TLB for an address. -/
def State.tlbEntry (s : State) (unit ctx va : Nat) : Option TlbEntry :=
  s.tlbs.find? (fun t => t.unit == unit && t.ctx == ctx && t.va ≤ va && va < t.va + pageBytes t.size)
/-- The cached translation of a core's load-store unit, from its first or second level, or that of an engine (R380). -/
def State.tlbHit (s : State) (unit ctx va : Nat) : Option TlbEntry :=
  (if unit < 256 then s.tlbEntry (firstLevel unit) ctx va else none).or (s.tlbEntry unit ctx va)

/-- A cached translation, else a walk by the unit. -/
def State.pageOf (s : State) (unit ctx va : Nat) (hit : Option TlbEntry) : Walk :=
  match hit with
  | some t => .page t.pa t.size t.rd t.wr t.ex
  | none => s.walkBy unit ctx va
/-- A translation for a core's load-store unit or an engine: through its TLBs, else by a walk whose valid result is cached (R380). -/
def State.translate (s : State) (unit ctx va : Nat) : Walk := s.pageOf unit ctx va (s.tlbHit unit ctx va)
/-- A translation for a core's fetch unit, which the second-level TLB serves (R380). -/
def State.fetchPage (s : State) (core ctx va : Nat) : Walk := s.pageOf core ctx va (s.tlbEntry core ctx va)

/-- The set of a second-level TLB, of 256 sets of 8 ways, that an entry stands in (R380; DESIGN CHOICE, assumption 103: by its page number). The
other TLBs are one set. -/
def TlbEntry.set (t : TlbEntry) : Nat := if t.unit < 256 then t.va / pageBytes t.size % 256 else 0
/-- The entries of a set of a unit's TLB (R380). -/
def tlbWays (unit : Nat) : Nat := if unit < 256 then 8 else 64
/-- A TLB takes an entry; of its set, the one that came first goes (DESIGN CHOICE, assumption 103). -/
def State.tlbPut (s : State) (e : TlbEntry) : State :=
  let same (t : TlbEntry) : Bool := t.unit == e.unit && t.set == e.set
  { s with tlbs := e :: ((s.tlbs.filter same).take (tlbWays e.unit - 1) ++ s.tlbs.filter (fun t => !same t)) }

/-- Keeps a valid translation in the unit's TLBs, where a walk or the second level has found it. -/
def State.cache (s : State) (unit ctx va : Nat) (w : Walk) : State :=
  match w with
  | .page pa size rd wr ex =>
    let e : TlbEntry := { unit := unit, ctx := ctx, va := va / pageBytes size * pageBytes size, size := size, pa := pa, rd := rd, wr := wr, ex := ex }
    let first (st : State) : State := if unit < 256 then st.tlbPut { e with unit := firstLevel unit } else st
    if unit < 256 && (s.tlbEntry (firstLevel unit) ctx va).isSome then s
    else if (s.tlbEntry unit ctx va).isSome then first s
    else first ((s.walked unit ctx va).tlbPut e)
  | .fault .. => s.walked unit ctx va
/-- What a core's fetch unit found stays in the second-level TLB, where a walk has found it (R380). -/
def State.cacheFetch (s : State) (core ctx va : Nat) (w : Walk) : State :=
  if (s.tlbEntry core ctx va).isSome then s
  else match w with
  | .page pa size rd wr ex =>
    (s.walked core ctx va).tlbPut { unit := core, ctx := ctx, va := va / pageBytes size * pageBytes size, size := size, pa := pa, rd := rd, wr := wr, ex := ex }
  | .fault .. => s.walked core ctx va

/-- The physical address of a virtual one within its page. -/
def pageAddr (pa size va : Nat) : Nat := pa + va % pageBytes size

/-- A fabric window's permission for an access (R406). -/
def State.fabricOk (s : State) (pa : Nat) (rd wr : Bool) : Bool :=
  let w := SMap.get s.windows (2 * (pa / 2 ^ 40 % 2048)) 0
  w.getLsbD 22 && bits64 w 19 18 != 3 && (!rd || w.getLsbD 20) && (!wr || w.getLsbD 21)

/-- A generic access to main memory or the fabric aperture is permitted where its page allows it; the aperture and the device
registers are not reached, nor is an unmapped range (R82, R83, R406). -/
def State.target (s : State) (pa : Nat) (rd wr : Bool) : Bool := isDram pa || (isFabric pa && s.fabricOk pa rd wr)

def State.nodeOf (s : State) (ctx node : Nat) : Node := SMap.get (s.ctx ctx).nodes node {}

def State.pinReg (s : State) (gcore k : Nat) : Word64 := s.reg (schedBlock gcore + 0x10 + 4 * k)
def State.pinnedTo (s : State) (gcore slot : Nat) : Option Nat :=
  if 8 ≤ slot && (s.pinReg gcore (slot - 8)).getLsbD 31 then some (bits64 (s.pinReg gcore (slot - 8)) 9 0) else none

/-- The scratchpad allocation of a gang, in bytes, from the node entry it started with (R86, R368). -/
def Gang.spad (g : Gang) : Nat := bits64 g.ent.res 16 8 * 512

/-- The shares that a gang may address (R86, R88): its own, one of a resident gang of its context, each below its allocation,
or a pinned one of its context. -/
def State.spadOk (s : State) (g : Gang) (ea : Nat) : Bool :=
  let core := 32 * g.cluster + eaCore ea
  match s.pinnedTo core (eaSlot ea) with
  | some c => c == g.ctx
  | none =>
    s.gangs.any (fun x => x.inSlot && x.gcore == core && x.slot == eaSlot ea && x.ctx == g.ctx && eaOff ea < x.spad)

/-- A shootdown of a range (R93, R382): matching handles become invalid, those on their way to their register too, code loaded from the range (DESIGN CHOICE, assumption 105), overlapping TLB entries and the context's walk-cache entries go, walks in flight start again. -/
def State.shootdown (s : State) (ctx va len : Nat) : State :=
  let hit (b n : Nat) : Bool := b < va + len && va < b + n
  { s with
    cores := s.cores.map (fun (c : Nat × Core) => (c.1, { c.2 with code := c.2.code.filter (fun l => !(l.ctx == ctx && hit l.va (8 * l.words.length))) }))
    tlbs := s.tlbs.filter (fun t => !(t.ctx == ctx && hit t.va (pageBytes t.size)))
    pointers := s.pointers.filter (fun p => p.ctx != ctx)
    gangs := s.gangs.map (fun g =>
      if g.ctx == ctx then
        { g with regs := { g.regs with h := g.regs.h.map (fun kh =>
            (kh.1, if hit kh.2.vpage (pageBytes kh.2.size) then { kh.2 with valid := false } else kh.2)) }
                 pend := g.pend.map (fun p =>
                   if hit p.w.handle.vpage (pageBytes p.w.handle.size) then { p with w := { p.w with handle := { p.w.handle with valid := false } } } else p) }
      else g) }

end Sys2Proof.Machine
end

