-- ==== Sys2Proof/Machine/Access.lean ====
section
/-! DEFINITION. Memory accesses: addresses and their checks (R229, R230), requests and parking (R118, R383), what a load, a store or an
atomic does where it takes effect (R103, R117, R120, R231), and accesses through the fabric (R406). -/

namespace Sys2Proof.Machine

/-! ## Addresses (R157, R229) -/

/-- Bytes of a Format M width code. -/
def mBytes (x : MF) : Nat := 2 ^ x.width.toNat
def bytesOpw (n : Nat) : OpW := if n ≤ 4 then .w32 else if n = 8 then .w64 else .w128

/-- In a memory slot with lat code 15 the index field names the completion flag (R173). -/
def Env.decoupled (e : Env) : Bool := e.vliw && e.h.lat == 15#4

def Env.hasIx (e : Env) (x : MF) : Bool := !e.decoupled && x.index != 255#8
/-- Ix of R229. -/
def Env.ix (e : Env) (x : MF) (i : Nat) : Int := if e.hasIx x then toSigned 32 (e.read { f := x.index } i).toNat else 0
/-- The displacement Ix * W + offset. -/
def Env.disp (e : Env) (x : MF) (i : Nat) : Int := e.ix x i * (mBytes x : Nat) + x.off.toInt

def Env.genAddr (e : Env) (x : MF) (i : Nat) : Nat :=
  (((e.read { f := x.base, w := .w64, base := true } i).toNat + e.disp x i) % (2 ^ 64 : Nat)).toNat
/-- A scratchpad base: 64 bits of an s-register, 32 of a v-register, zero for 255. -/
def spSrc (f : Reg) : Src := { f := f, w := if f.toNat < 128 then .w32 else .w64, base := true }
def Env.spAddr (e : Env) (x : MF) (i : Nat) : Int := (e.read (spSrc x.base) i).toNat + e.disp x i

def Env.ixSrc (e : Env) (x : MF) : List Src := if e.hasIx x then [{ f := x.index }] else []
def genSrcs (e : Env) (x : MF) : List Src := { f := x.base, w := .w64, base := true } :: e.ixSrc x

/-- A source of up to 128 bits: four words, or what an s-register or a constant supplies, zero-extended (R161, R231). -/
def Env.data (e : Env) (f : Reg) (n i : Nat) : BitVec 128 :=
  match bytesOpw n with
  | .w128 => if !wideColumn e.place false && 128 ≤ f.toNat then (e.read { f := f, w := .w64 } i).setWidth 128 else e.v32 i (f.toNat + 3) ++ e.v32 i (f.toNat + 2) ++ e.v32 i (f.toNat + 1) ++ e.v32 i f.toNat
  | w => (e.read { f := f, w := w } i).setWidth 128

/-! ## Releases and acquires that trap (R129, R389) -/

def Env.releaseTrap (e : Env) : Option TrapInfo := if e.g.lostStore then some { cause := causePoison, lost := true } else none
def Env.acquireTrap (e : Env) : Option TrapInfo :=
  if e.g.loss != (e.s.ctx e.g.ctx).loss then some { cause := causePoison, loss := true } else none

/-- An acquire of a gang: its core's L1 invalidates itself (R122). -/
def State.acquire (s : State) (uid : Nat) : State :=
  match s.gang? uid with
  | none => s
  | some g => (s.selfInvalidate g.gcore).count g 0x0A 1

/-- One step of the reuse clock (R106). -/
def State.stepNc (s : State) (uid : Nat) : State := s.modGang uid (fun g => { g with ctl := { g.ctl with nc := g.ctl.nc + 1 } })
/-- The reuse clock before an instruction's own step: in a bundle, after those of lower slots. -/
def Env.nc (e : Env) : Word32 := match e.s.gang? e.g.uid with | some g => g.ctl.nc | none => e.g.ctl.nc

/-! ## Requests -/

/-- What a memory instruction asks: permissions, alignment, how strands share a request (those whose addresses agree above
this many bytes), whether it parks as a whole (R383), whether main memory alone will do, its queue, next-use code and role,
what it steps, and what its requests do. -/
structure Req where
  rd     : Bool := false
  wr     : Bool := false
  align  : Nat := 1
  group  : Nat := 64
  whole  : Bool := false
  dram   : Bool := false
  atomic : Bool := false
  queue  : Option Nat := none
  nud    : Nat := 0
  rel    : Bool := false
  blocks : Bool := false
  steps  : Bool := true
  kind   : FlightKind
  deriving DecidableEq, Repr

/-- Requests leave the gang: one for each group of strands (R103). -/
def groupParts (w : Nat) : List Part → List (Nat × List Part) → List (Nat × List Part)
  | [], acc => acc
  | p :: ps, acc =>
    let k := p.pa / w
    let acc' := if acc.any (fun a => a.1 == k) then acc.map (fun a => if a.1 == k then (k, a.2 ++ [p]) else a) else acc ++ [(k, [p])]
    groupParts w ps acc'

/-- The access that a part makes through the fabric (R406), as it is presented to the target. -/
def State.fabricAcc (s : State) (kind : FlightKind) (p : Part) : FabricSent :=
  let w := 2 * (p.pa / 2 ^ 40 % 2048)
  let w0 := SMap.get s.windows w 0
  let k : FabricKind := match kind with
    | .load n _ _ _ _ => .load n
    | .ldx n _ _ _ => .load n
    | .store n => .store (leBytes n p.val.toNat)
    | .atomic fn n _ => .atomic (BitVec.ofNat 8 fn) (n == 8) (p.val.setWidth 64) p.swap
    | _ => .load 0
  { dev := w0.setWidth 20
    acc := { tctx := bits64 (SMap.get s.windows (w + 1) 0) 9 0, key := (w0 >>> 32).setWidth 16, off := BitVec.ofNat 40 p.pa, kind := k } }

def State.send (s : State) (g : Gang) (r : Req) (lead : Nat) (nc : Word32) (vliw : Bool) (post : FlagRef) (ps : List Part) : State :=
  let fs : List Flight := (groupParts r.group ps []).map (fun a =>
    { id := 0, uid := some g.uid, ctx := g.ctx, core := g.gcore, queue := r.queue, rel := r.rel, nud := r.nud, nc := nc, lead := lead,
      vliw := vliw, post := post, kind := r.kind, parts := a.2 })
  let s1 := s.launchAll fs
  if r.blocks then
    s1.modGang g.uid (fun x => { x with iss := { x.iss with block := x.iss.block ++ (List.range fs.length).map (fun i => s.next + i) } })
  else s1

/-- The checks 3 and 4 of R230 on generic addresses, each under its own request, and 5 on their translations; what is left is the
translation of each. -/
def Env.checkMix (e : Env) (qs : List (Req × Part)) : Except TrapInfo (List (Part × Walk)) :=
  let bad (cause : Nat) (p : Part) : TrapInfo := { cause := cause, taddr := BitVec.ofNat 64 p.pa }
  match qs.find? (fun q => q.2.pa ≥ 2 ^ 56) with
  | some q => .error (bad causeProtection q.2)
  | none =>
    match qs.find? (fun q => q.2.pa % q.1.align != 0) with
    | some q => .error (bad causeMisaligned q.2)
    | none =>
      let ts := qs.map (fun q => (q.1, q.2, e.s.translate e.g.gcore e.g.ctx q.2.pa))
      let denied (t : Req × Part × Walk) : Bool := match t.2.2 with
        | .page pa size rd wr _ =>
          let q := pageAddr pa size t.2.1.pa
          !((!t.1.rd || rd) && (!t.1.wr || wr) && (if t.1.dram then isDram q else e.s.target q t.1.rd t.1.wr))
        | .fault .. => false
      match ts.find? denied with
      | some t => .error (bad causeProtection t.2.1)
      | none => .ok (ts.map Prod.snd)
def Env.check (e : Env) (r : Req) (ps : List Part) : Except TrapInfo (List (Part × Walk)) := e.checkMix (ps.map (fun p => (r, p)))

/-- The parts whose translation is valid, with their physical addresses, and those that have none. -/
def found (ts : List (Part × Walk)) : List Part :=
  ts.filterMap (fun t => match t.2 with
    | .page pa size _ _ _ => some { t.1 with pa := pageAddr pa size t.1.pa }
    | .fault .. => none)
def missing (ts : List (Part × Walk)) : List (Part × Nat × Nat) :=
  ts.filterMap (fun t => match t.2 with
    | .page .. => none
    | .fault k l => some (t.1, k, l))

/-- Every valid translation that an instruction used stays in the core's TLB (R380). -/
def State.cacheAll (s : State) (core ctx : Nat) (ts : List (Part × Walk)) : State :=
  ts.foldl (fun st t => st.cache core ctx t.1.pa t.2) s

/-- The gang parks (R383, R384): a fault for each missing page, and the strands that wait. -/
def State.park (s : State) (g : Gang) (i : Instr) (flags lead : Nat) (nc : Word32) (ms : List (Part × Nat × Nat)) (waiting : List Part) : State :=
  let s1 := ms.foldl (fun st m => st.fault g.ctx m.1.pa m.2.1 m.2.2 flags g.code none) s
  let k : Park := { instr := i, pc := g.pc, pages := ms.foldl (fun l m => NSet.add l (m.1.pa / 4096)) [], parts := waiting, lead := lead, nc := nc }
  (s1.count g 0x0C 1).modGang g.uid (fun x => { x with park := some k })

/-- The bits of a fault entry's byte 11 that tell the access (R384). -/
def Req.flags (r : Req) : Nat := (if r.wr then 8 else 0) + (if r.atomic then 16 else 0)

/-- Distinct sectors of the strands' accesses of n bytes (R59). -/
def sectors (n : Nat) (ps : List Part) : Nat := (ps.flatMap (fun p => [p.pa / 64, (p.pa + n - 1) / 64])).eraseDups.length

/-- A memory instruction with generic addresses: of every executing strand, or of the lowest one alone. -/
def genericSem (i : Instr) (r : Req) (charged : Bool) (srcs : Env → List Src) (parts : Env → List Part) (acquires : Bool := false)
    (one : Bool := false) : Sem where
  ct e := if charged then sectors r.align (parts e) else 0
  op e :=
    let stepped (s : State) : State := if r.steps then s.stepNc e.g.uid else s
    if e.parts.isEmpty then .ok { st := stepped e.s }
    else if (if one then (srcs e).any (fun x => e.srcPoison x e.lead) else e.poisoned (srcs e)) then .trap { cause := causePoison }
    else
      match e.check r (parts e) with
      | .error t => .trap t
      | .ok ts =>
        match (if r.rel then e.releaseTrap else none).or (if acquires then e.acquireTrap else none) with
        | some t => .trap t
        | none =>
          let ms := missing ts
          let s1 := e.s.cacheAll e.g.gcore e.g.ctx ts
          let go := if ms.isEmpty || !r.whole then found ts else []
          let wait := if r.whole then ts.map Prod.fst else ms.map Prod.fst
          let s2 := s1.send e.g r e.lead e.nc false .none go
          let s3 := if ms.isEmpty then s2 else s2.park e.g i r.flags e.lead e.nc ms wait
          .ok { st := stepped s3 }

/-! ## Requests at their targets -/

def Flight.asker (f : Flight) (s : State) : Asker :=
  { tenant := s.tenantOf f.ctx
    owner := (f.uid.bind s.gang?).map (fun g => 16 * g.gcore + g.slot)
    nud := f.nud }

def State.slotGen (s : State) (f : Flight) : Nat × BitVec 2 :=
  match f.uid.bind s.gang? with
  | some g => (g.slot, g.gen)
  | none => (0, 0)

/-- The context and launch behind a request: the owner of the constant marks that it sets (R123). -/
def State.launchMark (s : State) (f : Flight) : Option (Nat × Option Nat) := (f.uid.bind s.gang?).map (fun g => (g.ctx, g.launch))

def State.countFor (s : State) (f : Flight) (ev n : Nat) : State :=
  match f.uid.bind s.gang? with
  | some g => s.count g ev n
  | none => s

/-- A core's L1 takes the valid words among bytes pa to pa+n-1 from the home slice. -/
def State.refresh1 (s : State) (core pa n : Nat) : State :=
  let a := pa / 4 * 4
  let bs := (List.range ((pa + n + 3) / 4 * 4 - a)).map (fun i => (a + i, (s.pathByte .vec (a + i)).1))
  s.modCore core (fun c => c.modL1 pa (fun l => { l with data := bs.foldl (fun d b => if l.valid.getLsbD (b.1 / 4 % 32) then setDataByte d (b.1 % 128) b.2 else d) l.data }))

/-- The words of an L1 line that a gang's loads find unpredictable: those that a party wrote under a constant mark of the gang's launch (R123),
and those whose window has changed (R148). -/
def L1Line.unsure (l : L1Line) (who : Option (Nat × Option Nat)) (pa : Nat) : BitVec 32 :=
  if l.const.getLsbD (pa / 64 % 2) && SMap.find l.marker (pa / 64 % 2) != who then 0 else l.spoilt

/-- The line of a core's L1 that supplies a load: it holds the words, and for LDACQ owns them (R104, R122). -/
def State.l1Hit (s : State) (core pa n : Nat) (acquire : Bool) : Option L1Line :=
  let w := wordMask pa n
  ((s.core core).l1Line pa).filter (fun l => l.valid &&& w == w && (!acquire || l.owned &&& w == w))

/-- The bytes that a load of main memory returns: from its core's L1 where that holds them (and, for LDACQ, owns them), else
from the home slice (R104, R108, R122, R123). The strand that leads its request has it counted, and on a miss sent to the slice (R410). -/
def State.vecLoad (s : State) (f : Flight) (pa n : Nat) (mark acquire : Bool) (leads : Bool := true) : List Byte × Bool × State :=
  let sg := s.slotGen f
  let a := f.asker s
  match s.l1Hit f.core pa n acquire with
  | some l =>
    let bad := l.unsure (s.launchMark f) pa
    ((List.range n).map (fun i => if bad.getLsbD ((pa + i) / 4 % 32) then Config.freeByte s.draw (pa + i) else dataByte l.data (pa % 128 + i)),
      l.poison.getLsbD (pa / 64 % 2),
      { (if leads then s.countFor f 0x05 1 else s).stamp1 f.core sg.1 sg.2 a.tenant pa f.nud f.nc with draw := s.draw + 1 })
  | none =>
    let r := if leads then (s.countFor f 0x06 1).homeRead .vec pa n a else s.pathRead .vec pa n
    let s1 := if f.nud < 15 then
        r.2.2.fill1 f.core sg.1 sg.2 a.tenant pa (if mark then s.launchMark f else none)
      else r.2.2.refresh1 f.core pa n
    (r.1, r.2.1, s1.stamp1 f.core sg.1 sg.2 a.tenant pa f.nud f.nc)

/-- The words of a range that other cores own, with their owners. -/
def State.foreign (s : State) (core pa n : Nat) : List (Nat × Nat) :=
  (wordsOf pa n).filterMap (fun w => match SMap.find s.owners w with
    | some c => if c = core then none else some (w, c)
    | none => none)
/-- A write of words that other cores own revokes them first (R120). It is applied once the revocations are acknowledged, so that it shows to
every core at one instant (R131). -/
def State.sendRevokes (s : State) (f : Flight) (ws : List (Nat × Nat)) : State :=
  ws.eraseDups.foldl (fun st x =>
    st.launchFlight { id := 0, seq := f.id, uid := none, ctx := f.ctx, core := x.2, queue := none, kind := .revoke x.1 x.2 }) s

/-- Registers ownership of the words written (R120). -/
def State.own (s : State) (f : Flight) (pa n : Nat) : State :=
  { s with owners := (wordsOf pa n).foldl (fun m w => SMap.set m w f.core) s.owners }

/-- The writing core's L1 updates its copy and marks the words that it holds owned; the sector's constant mark goes (R104, R108, R120, R123). -/
def State.ownCopy (s : State) (f : Flight) (pa n : Nat) : State :=
  let sg := s.slotGen f
  let a := f.asker s
  let s1 := if f.nud < 15 && ((s.core f.core).l1Line pa).all (fun l => l.valid &&& wordMask pa n != wordMask pa n) then
      s.fill1 f.core sg.1 sg.2 a.tenant pa none
    else s.refresh1 f.core pa n
  (s1.modCore f.core (fun c => c.modL1 pa (fun l => { l with
      const := l.const &&& ~~~BitVec.ofNat 2 (2 ^ (pa / 64 % 2))
      spoilt := l.spoilt &&& ~~~sectorMask pa
      owned := l.owned ||| (wordMask pa n &&& l.valid) }))).stamp1 f.core sg.1 sg.2 a.tenant pa f.nud f.nc

/-- A store of main memory takes effect: through the VEC path, with its words registered. -/
def State.vecStore (s : State) (f : Flight) (pa : Nat) (bs : List Byte) : State :=
  ((s.pathWrite .vec f.id pa bs false (f.asker s)).own f pa bs.length).ownCopy f pa bs.length

/-- The new value that an atomic function gives a word of n bytes (R237 to R240), or none where it stores nothing. Codes: 0x00 to
0x0A of ATOM, 0x10 compare and swap, 0x20 to 0x24 of ATOMF. -/
def atomNew (fn n old b c : Nat) : Option Nat :=
  let w := 8 * n
  let m := 2 ^ w
  match fn with
  | 0x00 => some ((old + b) % m)
  | 0x01 => some (Nat.land old b)
  | 0x02 => some (Nat.lor old b)
  | 0x03 => some (Nat.xor old b)
  | 0x04 => some (if toSigned w b < toSigned w old then b else old)
  | 0x05 => some (if toSigned w old < toSigned w b then b else old)
  | 0x06 => some (min old b)
  | 0x07 => some (max old b)
  | 0x08 => some b
  | 0x09 => some (if b ≤ old then 0 else old + 1)
  | 0x0A => some (if old = 0 || b < old then b else old - 1)
  | 0x10 => if old = b then some c else none
  | 0x20 => some (fpAdd .f32 .rne false false old b).1
  | 0x21 => some (fpMnx .f32 false false true old b).1
  | 0x22 => some (fpMnx .f32 false true true old b).1
  | _ =>
    let f : Fmt := if fn = 0x23 then .f16 else .b16
    some ((fpAdd f .rne false false (old % 65536) (b % 65536)).1 + 65536 * (fpAdd f .rne false false (old / 65536) (b / 65536)).1)

/-- The strands of one request apply in ascending order: the word at the end, whether it was stored, and each old value
(R103). -/
def atomFold (fn n : Nat) (ps : List Part) (old : Nat) : Nat × Bool × List (Nat × Nat) :=
  ps.foldl (fun acc p =>
    match atomNew fn n acc.1 (p.val.toNat % 2 ^ (8 * n)) (p.swap.toNat % 2 ^ (8 * n)) with
    | some v => (v, true, acc.2.2 ++ [(p.strand, acc.1)])
    | none => (acc.1, acc.2.1, acc.2.2 ++ [(p.strand, acc.1)])) (old, false, [])

/-- Writes of a line that still wait, of VEC and of the path that asks, reach the home slice before an atomic of it; before a write of the device,
which every path sees at once, those of every path (R439). -/
def State.settleLine (s : State) (pa : Nat) (p : Path := .vec) : State :=
  s.mergeWhere (fun w => (w.path == .vec || w.path == p || p == .host) && isDram w.pa && w.pa / 128 == pa / 128)

/-- A word of main memory as its home slice holds it, and whether it is poisoned. -/
def State.homeWord (s : State) (pa n : Nat) : Nat × Bool :=
  let bs := (List.range n).map (fun i => s.homeByte (pa + i))
  (leNat (bs.map Prod.fst), bs.any Prod.snd)

/-- The ownership of words is revoked from every core, for a write that no core makes (R117, R439). -/
def State.disown (s : State) (pa n : Nat) : State :=
  (wordsOf pa n).foldl (fun st w => match SMap.find st.owners w with
    | some c => { st.revoke c w with owners := SMap.erase st.owners w }
    | none => st) s
/-- An atomic write of the device. -/
def State.deviceAtomic (s : State) (pa : Nat) (bs : List Byte) (a : Asker) : State := (s.homeWriteAll pa bs a).disown pa bs.length

/-! ## Through the fabric (R405, R406) -/

/-- The bytes that an access through an export names at this device, if the export admits it. -/
def State.exported (s : State) (x : FabricAccess) : Option Nat :=
  let e0 := SMap.get s.exports (2 * x.tctx) 0
  let e1 := SMap.get s.exports (2 * x.tctx + 1) 0
  let pa := bits64 e0 39 16 * 65536 + x.off.toNat
  if e0.getLsbD 63 && bits64 e0 15 0 == x.key.toNat && pa < (bits64 e1 39 16 + 1) * 65536 then some pa else none

/-- The target applies an access (R406, R407): its bytes or old value, whether they are poisoned, whether it was applied. -/
def State.fabricApply (s : State) (x : FabricAccess) : List Byte × Bool × Bool × State :=
  match s.exported x with
  | none => ([], true, false, s)
  | some pa =>
    match x.kind with
    | .load n =>
      let r := s.homeRead .host pa n { tenant := s.tenantOf x.tctx }
      (r.1, r.2.1, true, r.2.2)
    | .store bs => ([], false, true, s.pathWrite .host s.next pa bs false { tenant := s.tenantOf x.tctx })
    | .atomic fn wide b c =>
      let n := if wide then 8 else 4
      let s1 := s.settleLine pa .host
      let old := s1.homeWord pa n
      match atomNew fn.toNat n old.1 (b.toNat % 2 ^ (8 * n)) (c.toNat % 2 ^ (8 * n)) with
      | some v => (leBytes n old.1, old.2, true, s1.deviceAtomic pa (leBytes n v) { tenant := s.tenantOf x.tctx })
      | none => (leBytes n old.1, old.2, true, s1.touch2 pa { tenant := s.tenantOf x.tctx })

/-- Does a window name this device (R405)? -/
def State.ownDevice (s : State) (x : FabricSent) : Bool := x.dev.setWidth 18 == s.boot.node

/-- One counter of a fabric port: flits sent (0), received (1) or retransmitted (2); it saturates (R414). -/
def State.countFlit (s : State) (port k n : Nat) : State := { s with flits := SMap.upd s.flits (3 * port + k) 0 (fun x => min (2 ^ 64 - 1) (x + n)) }
/-- A transaction and its answer move flits over a port (R405, R414), one at least each way; how many, and how many again, is free (assumption 74). -/
def State.moveFlits (s : State) (port : Nat) : State :=
  let w := Config.freeWord s.draw
  { ((s.countFlit port 0 (1 + bits64 w 23 16)).countFlit port 1 (1 + bits64 w 31 24)).countFlit port 2 (bits64 w 39 32) with draw := s.draw + 1 }

/-- An access leaves through the fabric, in its turn in its queue, for a release after those it waits for (R118, R121, R407); what it brings back:
from this device's own memory, or a free value where the target is another device, over one of the four ports of its plane (R405). -/
def State.fabricAnswer (s0 : State) (kind : FlightKind) (p : Part) (n : Nat) : List Byte × Bool × Bool × State :=
  let x := s0.fabricAcc kind p
  let s : State := { s0 with out := s0.out ++ [.fabric x] }
  if s.ownDevice x then s.fabricApply x.acc
  else
    let d := (Config.freeWord s.draw).toNat + 2 ^ 64 * (Config.freeWord (s.draw + 1)).toNat
    let ok := (Config.freeWord (s.draw + 2)).getLsbD 0
    (leBytes n d, !ok, ok, ({ s with draw := s.draw + 3 } : State).moveFlits (4 * (x.dev.toNat / 2 ^ 18) + bits64 (Config.freeWord (s.draw + 2)) 2 1))

/-! ## Results -/

/-- The register form of n loaded bytes (R231). -/
def loaded (n : Nat) (sgn : Bool) (bs : List Byte) : BitVec 128 :=
  let v := leNat bs
  if n < 4 && sgn then BitVec.ofNat 128 (ofInt 32 (toSigned (8 * n) v)) else BitVec.ofNat 128 v

/-- A result returns to its gang: written at once, or, for a decoupled access, kept until the wait on its flag (R173). -/
def State.result (s : State) (f : Flight) (d : Reg) (w : OpW) (strand : Nat) (v : BitVec 128) (poison : Bool) : State :=
  match f.uid with
  | none => s
  | some uid =>
    let ws := (dstRegs f.vliw f.vliw f.lead d w strand v).map (fun x => { x with poison := poison })
    if f.vliw then
      s.modGang uid (fun g => { g with pend := g.pend.map (fun p =>
        if p.flight == some f.id then
          match ws.find? (fun x => x.dst == p.w.dst) with
          | some x => { p with w := x }
          | none => p
        else p) })
    else s.modGang uid (fun g => g.putAll ws)

end Sys2Proof.Machine
end

