-- ==== Sys2Proof/Machine/Memory.lean ====
section
/-! DEFINITION. Majors 0x40 to 0x4E, 0x52 and 0x53: generic, scratchpad, handle and tile loads and stores, atomics, prefetch and cache
maintenance (R233 to R240, R243, R244). -/

namespace Sys2Proof.Machine

/-! ## Generic loads and stores (R233) -/

def qOf (x : MF) : Option Nat := some x.queue.toNat
def nudOf (x : MF) : Nat := x.nud.toNat

/-- The parts of a load: an address for each executing strand. -/
def loadParts (x : MF) (e : Env) : List Part := e.parts.map (fun i => { strand := i, pa := e.genAddr x i })
/-- The parts of a store: address and data. -/
def storeParts (x : MF) (e : Env) : List Part := e.parts.map (fun i => { strand := i, pa := e.genAddr x i, val := e.data x.d (mBytes x) i })
def dataSrc (x : MF) : Src := { f := x.d, w := bytesOpw (mBytes x) }

def reqLd (x : MF) : Req :=
  { rd := true, align := mBytes x, queue := qOf x, nud := nudOf x, kind := .load (mBytes x) x.sgn x.d false false }
def reqLdnc (x : MF) : Req :=
  { rd := true, align := mBytes x, queue := qOf x, nud := nudOf x, kind := .load (mBytes x) x.sgn x.d true false }
def reqLdacq (x : MF) : Req :=
  { rd := true, align := mBytes x, queue := qOf x, nud := nudOf x, blocks := true, kind := .load (mBytes x) x.sgn x.d false true }
def reqSt (x : MF) : Req := { wr := true, align := mBytes x, queue := qOf x, nud := nudOf x, kind := .store (mBytes x) }
/-- STREL is one release: its strands' stores wait for the earlier accesses together. -/
def reqStrel (x : MF) : Req :=
  { wr := true, align := mBytes x, queue := qOf x, nud := nudOf x, whole := true, rel := true, kind := .store (mBytes x) }

def semLd (h : Hd) (x : MF) : Sem := genericSem (.ld h x) (reqLd x) true (fun e => genSrcs e x) (loadParts x)
def execLd (h : Hd) (x : MF) (s : State) := run (.ld h x) (semLd h x) s
def semSt (h : Hd) (x : MF) : Sem := genericSem (.st h x) (reqSt x) true (fun e => dataSrc x :: genSrcs e x) (storeParts x)
def execSt (h : Hd) (x : MF) (s : State) := run (.st h x) (semSt h x) s
def semLdnc (h : Hd) (x : MF) : Sem := genericSem (.ldnc h x) (reqLdnc x) true (fun e => genSrcs e x) (loadParts x)
def execLdnc (h : Hd) (x : MF) (s : State) := run (.ldnc h x) (semLdnc h x) s
def semLdacq (h : Hd) (x : MF) : Sem := genericSem (.ldacq h x) (reqLdacq x) true (fun e => genSrcs e x) (loadParts x) true
def execLdacq (h : Hd) (x : MF) (s : State) := run (.ldacq h x) (semLdacq h x) s
def semStrel (h : Hd) (x : MF) : Sem := genericSem (.strel h x) (reqStrel x) true (fun e => dataSrc x :: genSrcs e x) (storeParts x)
def execStrel (h : Hd) (x : MF) (s : State) := run (.strel h x) (semStrel h x) s

/-! ## Scratchpad (R86, R87, R119, R234) -/

/-- The completion flag of a decoupled access: bits 5:0 of the index field (R173). A flag outside the window is illegal (R99). -/
def Env.postOf (e : Env) (x : MF) : FlagRef :=
  if e.decoupled then .own e.g.cluster e.g.core (e.g.window.base + x.index.toNat % 64) e.g.window.serial else .none
def Env.flagOut (e : Env) (j : Nat) : Bool := e.g.window.size ≤ j

/-- The checks 3 to 5 of R230 on cluster-relative addresses of n bytes. -/
def Env.spadCheck (e : Env) (n : Nat) (ps : List (Nat × Int)) : Option TrapInfo :=
  let ta (p : Nat × Int) : Word64 := BitVec.ofInt 64 p.2
  match ps.find? (fun p => p.2 < 0 || (2 ^ 26 : Int) ≤ p.2) with
  | some p => some { cause := causeProtection, taddr := ta p }
  | none =>
    match ps.find? (fun p => p.2.toNat % n != 0) with
    | some p => some { cause := causeMisaligned, taddr := ta p }
    | none =>
      match (if e.vliw && !e.decoupled then ps.find? (fun p => eaCore p.2.toNat != e.g.core) else none) with
      | some p => some { cause := causeBundle, taddr := ta p }
      | none =>
        match ps.find? (fun p => !e.s.spadOk e.g p.2.toNat) with
        | some p => some { cause := causeProtection, taddr := ta p }
        | none => none

/-- Bytes of scratchpad as a load of the gang sees them. -/
def Env.spadBytes (e : Env) (pa n : Nat) (p : Path := .vec) : List Byte × Bool :=
  let bs := (List.range n).map (fun k => e.s.spadLoadByte e.g.uid e.vliw (pa + k) p)
  (bs.map Prod.fst, bs.any Prod.snd)

/-- Accesses to the own core act at issue (R119); those to another core leave the gang, and so do decoupled ones, for their post. -/
def Env.far (e : Env) (ea : Nat) : Bool := e.decoupled || eaCore ea != e.g.core
def Env.near (e : Env) (ea : Nat) : Bool := eaCore ea == e.g.core

/-- The register results that a decoupled access leaves pending (R173). -/
def Env.pendFor (e : Env) (s : State) (d : Reg) (w : OpW) : State :=
  if e.decoupled then
    s.modGang e.g.uid (fun g => { g with pend := g.pend ++ ((e.parts.map (fun i => e.dst d w i 0)).flatten).map (fun x =>
      { land := 0, seq := g.iss.bundles, slot := e.place.slotNo, flight := some s.next, w := x }) })
  else s

/-- The extra cycles of a SIMT access whose strands meet in a bank with different bank words (R87), beat by beat. -/
def conflictCycles (ps : List (Nat × Nat)) : Nat :=
  ((List.range 2).map (fun b =>
    let words := ((ps.filter (fun p => p.1 / 16 == b)).map (fun p => p.2 / 16)).eraseDups
    (List.range 32).foldl (fun m k => max m ((words.filter (fun w => w % 32 == k)).length - 1)) 0)).sum
def Env.countConflicts (e : Env) (ps : List (Nat × Nat)) : State :=
  let n := if e.vliw then 0 else conflictCycles ps
  if n = 0 then e.s else e.s.count e.g 0x07 n

/-- A scratchpad load of n bytes at checked addresses. -/
def Env.spadLoads (e : Env) (d : Reg) (n : Nat) (sgn : Bool) (queue : Option Nat) (post : FlagRef) (ps : List (Nat × Nat)) : Eff :=
  let near := ps.filter (fun p => !e.far p.2)
  let away := ps.filter (fun p => e.far p.2)
  let w := bytesOpw n
  let ws := (near.map (fun p =>
    let b := e.spadBytes (spadPa e.g.cluster p.2) n
    (e.dst d w p.1 (loaded n sgn b.1)).map (fun x => { x with poison := b.2 }))).flatten
  let s1 : State := { e.countConflicts near with draw := e.s.draw + 1 }
  if away.isEmpty then { st := s1, writes := ws }
  else
    let r : Req := { queue := queue, group := 2 ^ 60, kind := .spadLoad n sgn d }
    { st := (e.pendFor s1 d w).send e.g r e.lead e.nc e.vliw post (away.map (fun p =>
        let b := e.spadBytes (spadPa e.g.cluster p.2) n
        { strand := p.1, pa := spadPa e.g.cluster p.2, got := if e.near p.2 then some (BitVec.ofNat 128 (leNat b.1)) else none, poison := e.near p.2 && b.2 }))
      writes := ws }

/-- A scratchpad store of n bytes: at one bank cycle the highest-numbered strand's bytes stand (R231). -/
def Env.spadStores (e : Env) (n : Nat) (queue : Option Nat) (post : FlagRef) (ps : List (Nat × Nat × BitVec 128)) : Eff :=
  let near := ps.filter (fun p => e.near p.2.1)
  let away := ps.filter (fun p => e.far p.2.1)
  let s1 := near.foldl (fun st p => st.spadStore (some e.g.uid) (spadPa e.g.cluster p.2.1) (leBytes n p.2.2.toNat)) (e.countConflicts (near.map (fun p => (p.1, p.2.1))))
  if away.isEmpty then { st := s1 }
  else
    let r : Req := { queue := queue, group := 2 ^ 60, kind := .spadStore n }
    { st := s1.send e.g r e.lead e.nc e.vliw post (away.map (fun p =>
        { strand := p.1, pa := spadPa e.g.cluster p.2.1, val := p.2.2, got := if e.near p.2.1 then some 0#128 else none })) }

def semLds (_ : Hd) (x : MF) : Sem where
  op e :=
    let n := mBytes x
    let ps := e.parts.map (fun i => (i, e.spAddr x i))
    if e.decoupled && e.flagOut (x.index.toNat % 64) then e.illegal
    else if e.parts.isEmpty then e.nothing
    else if e.poisoned (spSrc x.base :: e.ixSrc x) then .trap { cause := causePoison }
    else match e.spadCheck n ps with
      | some t => .trap t
      | none => .ok (e.spadLoads x.d n x.sgn (qOf x) (e.postOf x) (ps.map (fun p => (p.1, p.2.toNat))))
def execLds (h : Hd) (x : MF) (s : State) := run (.lds h x) (semLds h x) s

def semSts (_ : Hd) (x : MF) : Sem where
  op e :=
    let n := mBytes x
    let ps := e.parts.map (fun i => (i, e.spAddr x i))
    if e.decoupled && e.flagOut (x.index.toNat % 64) then e.illegal
    else if e.parts.isEmpty then e.nothing
    else if e.poisoned (dataSrc x :: spSrc x.base :: e.ixSrc x) then .trap { cause := causePoison }
    else match e.spadCheck n ps with
      | some t => .trap t
      | none => .ok (e.spadStores n (qOf x) (e.postOf x) (ps.map (fun p => (p.1, p.2.toNat, e.data x.d n p.1))))
def execSts (h : Hd) (x : MF) (s : State) := run (.sts h x) (semSts h x) s

/-! ## Handles (R92, R235) -/

/-- What a handle access finds: a wait for the walk, a trap, or the physical addresses. -/
inductive Found where
  | wait
  | trap (t : TrapInfo)
  | go (h : Handle) (ps : List (Nat × Nat))

/-- The checks 2 to 5 of R230 on a handle access. -/
def Env.handleCheck (e : Env) (x : MF) (write : Bool) : Found :=
  let n := mBytes x
  let h := e.g.h x.base.toNat
  let offs := e.parts.map (fun i => (i, e.disp x i))
  let ta (p : Nat × Int) : Word64 := BitVec.ofInt 64 (h.page + p.2)
  let bad (cause : Nat) (f : Nat × Int → Bool) : Option TrapInfo :=
    (offs.find? f).map (fun p => { cause := cause, taddr := ta p })
  let ea (p : Nat × Int) : Nat := (h.page + p.2).toNat - 2 ^ 48 - e.g.cluster * 2 ^ 26
  if h.pending then .wait
  else
    match (bad causeStale (fun _ => !h.valid)).or <|
      (bad causeProtection (fun p => p.2 < 0 || (pageBytes h.size : Int) ≤ p.2)).or <|
      (bad causeMisaligned (fun p => (h.page + p.2).toNat % n != 0)).or <|
      (bad causeBundle (fun p => e.vliw && !e.decoupled && (!h.oncore || eaCore (ea p) != e.g.core))).or <|
      (bad causeProtection (fun p => !(if write then h.wr else h.rd) ||
        (if h.oncore then !e.s.spadOk e.g (ea p) else !e.s.target (h.page + p.2).toNat (!write) write))) with
    | some t => .trap t
    | none => .go h (offs.map (fun p => (p.1, if h.oncore then ea p else (h.page + p.2).toNat)))

/-- The traffic of an off-core handle access (R59). DESIGN CHOICE (assumption 111): an invalid handle, which is neither on-core nor off-core, is charged as an
off-core one, so that an exhausted budget comes before its trap. -/
def handleCt (x : MF) (e : Env) : Nat :=
  let h := e.g.h x.base.toNat
  if h.oncore then 0 else sectors (mBytes x) (e.parts.map (fun i => { strand := i, pa := (h.page + e.disp x i).toNat }))

/-- One request for a decoupled access, one for each sector otherwise. -/
def Env.handleReq (e : Env) (x : MF) (k : FlightKind) : Req :=
  { queue := qOf x, nud := nudOf x, group := if e.decoupled then 2 ^ 60 else 64, kind := k }

def handleSem (x : MF) (write : Bool) (near : Env → List (Nat × Nat) → Eff) (away : Env → List (Nat × Nat) → State) : Sem where
  ct := handleCt x
  op e :=
    let h := e.g.h x.base.toNat
    if e.decoupled && e.flagOut (x.index.toNat % 64) then e.illegal
    else if h.pending then .wait e.s
    else if e.parts.isEmpty then .ok { st := if h.oncore then e.s else e.s.stepNc e.g.uid }
    else if e.poisoned ((if write then [dataSrc x] else []) ++ e.ixSrc x) then .trap { cause := causePoison }
    else match e.handleCheck x write with
      | .wait => .wait e.s
      | .trap t => .trap t
      | .go h ps => if h.oncore then .ok (near e ps) else .ok { st := (away e ps).stepNc e.g.uid }

def semLdh (_ : Hd) (x : MF) : Sem :=
  handleSem x false
    (fun e ps => e.spadLoads x.d (mBytes x) x.sgn (qOf x) (e.postOf x) ps)
    (fun e ps => (e.pendFor e.s x.d (bytesOpw (mBytes x))).send e.g (e.handleReq x (.load (mBytes x) x.sgn x.d false false)) e.lead e.nc e.vliw
      (e.postOf x) (ps.map (fun p => { strand := p.1, pa := p.2 })))
def execLdh (h : Hd) (x : MF) (s : State) := run (.ldh h x) (semLdh h x) s
def semSth (_ : Hd) (x : MF) : Sem :=
  handleSem x true
    (fun e ps => e.spadStores (mBytes x) (qOf x) (e.postOf x) (ps.map (fun p => (p.1, p.2, e.data x.d (mBytes x) p.1))))
    (fun e ps => e.s.send e.g (e.handleReq x (.store (mBytes x))) e.lead e.nc e.vliw (e.postOf x)
      (ps.map (fun p => { strand := p.1, pa := p.2, val := e.data x.d (mBytes x) p.1 })))
def execSth (h : Hd) (x : MF) (s : State) := run (.sth h x) (semSth h x) s

/-! ## Tiles (R94 to R98, R236) -/

/-- The entry that a tile operand names (R95). -/
def Env.tileIx (e : Env) (f : Reg) : Nat := if f.toNat < 16 then 16 * e.g.slot + f.toNat else f.toNat
def State.tile (s : State) (core k : Nat) : Tile := SMap.get (s.core core).tiles k { next := k }
def State.modTile (s : State) (core k : Nat) (f : Tile → Tile) : State :=
  s.modCore core (fun c => { c with tiles := SMap.upd c.tiles k { next := k } f })
def Env.tileAt (e : Env) (k : Nat) : Tile := e.s.tile e.g.gcore k

/-- May the gang name the entry (R95)? -/
def Env.tileNamed (e : Env) (f : Reg) : Bool :=
  f.toNat < 16 || e.s.pinnedTo e.g.gcore (f.toNat / 16) == some e.g.ctx

/-- tstat (R98): the state at issue, the entry, and whether the instruction waited. -/
def Env.tstat (e : Env) (k : Nat) : Word64 :=
  BitVec.ofNat 64 ((e.tileAt k).state + 4 * k + (if e.g.iss.waited then 1024 else 0))
def State.setTstat (s : State) (uid : Nat) (v : Word64) : State := s.modGang uid (fun g => { g with spec := { g.spec with tstat := v } })

/-- The scratchpad address of byte off of a tile. -/
def tileEa (core k off : Nat) (t : Tile) : Nat := core % 32 * 2 ^ 21 + k / 16 * 2 ^ 17 + t.base * 128 + off
def Tile.bytes (t : Tile) : Nat := (t.size + 1) * 128

/-- LDT waits for a ready tile, STT for one that is filled by a gang; then the checks of R230 follow in their order. DESIGN CHOICE (assumption
90): with no executing strand nothing waits, and tstat stays (R98); an entry that the gang may not name is not waited for. DESIGN CHOICE (assumption 25):
taddr of a trap is TOff, the address in the tile. -/
def tileSem (x : MF) (write : Bool) (act : Env → List (Nat × Nat) → Eff) : Sem where
  op e :=
    let n := mBytes x
    let k := e.tileIx x.base
    let t := e.tileAt k
    let offs := e.parts.map (fun i => (i, e.disp x i))
    let there := if write then t.state == 1 && t.filler == 1 else t.state == 2
    let named := e.tileNamed x.base && !(write && t.state == 1 && t.filler == 0)
    let limit := if !write && there && t.len > 0 then t.len else t.bytes
    let ta (p : Nat × Int) : Word64 := BitVec.ofInt 64 p.2
    if e.parts.isEmpty then e.nothing
    else if e.poisoned ((if write then [dataSrc x] else []) ++ e.ixSrc x) then .trap { cause := causePoison }
    else if !t.defd then .trap { cause := causeProtection, taddr := (offs.head?.map ta).getD 0 }
    else if named && !there then .wait e.s
    else
      match offs.find? (fun p => p.2 < 0 || (limit : Int) < p.2 + n) with
      | some p => .trap { cause := causeProtection, taddr := ta p }
      | none =>
        match offs.find? (fun p => (t.base * 128 + p.2.toNat) % n != 0) with
        | some p => .trap { cause := causeMisaligned, taddr := ta p }
        | none =>
          if !named then .trap { cause := causeProtection, taddr := (offs.head?.map ta).getD 0 }
          else
          let f := act e (offs.map (fun p => (p.1, tileEa e.g.core k p.2.toNat t)))
          .ok { f with st := f.st.setTstat e.g.uid (e.tstat k) }

def semLdt (_ : Hd) (x : MF) : Sem := tileSem x false (fun e ps => e.spadLoads x.d (mBytes x) x.sgn none .none ps)
def execLdt (h : Hd) (x : MF) (s : State) := run (.ldt h x) (semLdt h x) s
def semStt (_ : Hd) (x : MF) : Sem :=
  tileSem x true (fun e ps => e.spadStores (mBytes x) none .none (ps.map (fun p => (p.1, p.2, e.data x.d (mBytes x) p.1))))
def execStt (h : Hd) (x : MF) (s : State) := run (.stt h x) (semStt h x) s

/-! ## Atomics (R237 to R240) -/

def atomBytes (x : RF) : Nat := if x.mod.getLsbD 1 then 8 else 4
def atomNud (x : RF) : Nat := x.mod.toNat / 16
def atomQueue (x : RF) : Option Nat := some (x.mod.toNat / 4 % 4)
/-- A generic address in field a: 64 bits of an s-register or an even pair. -/
def addrSrc (x : RF) : Src := { f := x.a, w := .w64, base := true }

def reqAtom (x : RF) (fn : Nat) : Req :=
  { rd := true, wr := true, align := atomBytes x, group := atomBytes x, whole := true, atomic := true, queue := atomQueue x
    nud := atomNud x, blocks := true, kind := .atomic fn (atomBytes x) x.d }

def atomSrcs (x : RF) (swap : Bool) : List Src :=
  [addrSrc x, { f := x.b, w := wAtom x }] ++ (if swap then [{ f := x.c, w := wAtom x }] else [])
def atomParts (x : RF) (swap : Bool) (e : Env) : List Part :=
  e.parts.map (fun i => { strand := i, pa := (e.read (addrSrc x) i).toNat, val := (e.read { f := x.b, w := wAtom x } i).setWidth 128
                          swap := if swap then e.read { f := x.c, w := wAtom x } i else 0 })

def semAtom (h : Hd) (x : RF) : Sem :=
  genericSem (.atom h x) (reqAtom x x.fn.toNat) true (fun _ => atomSrcs x false) (atomParts x false)
def execAtom (h : Hd) (x : RF) (s : State) := run (.atom h x) (semAtom h x) s
def semAtomf (h : Hd) (x : RF) : Sem :=
  genericSem (.atomf h x) (reqAtom x (0x20 + x.fn.toNat)) true (fun _ => atomSrcs x false) (atomParts x false)
def execAtomf (h : Hd) (x : RF) (s : State) := run (.atomf h x) (semAtomf h x) s
def semCas (h : Hd) (x : RF) : Sem := genericSem (.cas h x) (reqAtom x 0x10) true (fun _ => atomSrcs x true) (atomParts x true)
def execCas (h : Hd) (x : RF) (s : State) := run (.cas h x) (semCas h x) s

/-- An atomic has read the 8-byte units of bytes pa to pa+n-1 at their bank: an earlier store of them is seen from then on, so that no later load
returns what came before it (R117). -/
def State.seenAt (s : State) (pa n : Nat) : State :=
  s.modCore (spadLoc pa).1 (fun c => { c with recent := c.recent.filter (fun r => !(List.range n).any (fun i => r.2.2.1 / 8 == (pa + i) / 8)) })
/-- A combined request at a scratchpad bank: the old value of each strand, poison, and the state after it. -/
def State.bankAtomic (s : State) (uid : Option Nat) (fn n : Nat) (ps : List Part) : List (Nat × Nat) × Bool × State :=
  match ps with
  | [] => ([], false, s)
  | p :: _ =>
    let bs := (List.range n).map (fun k => s.spadByte .vec (p.pa + k))
    let r := atomFold fn n ps (leNat (bs.map Prod.fst))
    (r.2.2, bs.any Prod.snd, if r.2.1 then (s.seenAt p.pa n).spadStore uid p.pa (leBytes n r.1) else s.seenAt p.pa n)

/-- ATOMS acts at the own core's bank at issue, in its place in the order of the bank where Muslin is on (R424, R425); a request to another core
leaves the gang. -/
def semAtoms (_ : Hd) (x : RF) : Sem where
  op e :=
    let n := atomBytes x
    let swap := x.fn == 0x10#8
    let w := wAtom x
    let a := spSrc x.a
    let eas := e.parts.map (fun i => (i, ((e.read a i).toNat : Int)))
    if e.parts.isEmpty then e.nothing
    else if e.poisoned ([a, { f := x.b, w := w }] ++ (if swap then [{ f := x.c, w := w }] else [])) then .trap { cause := causePoison }
    else match e.spadCheck n eas with
      | some t => .trap t
      | none =>
        let part (p : Nat × Int) : Part :=
          { strand := p.1, pa := spadPa e.g.cluster p.2.toNat, val := (e.read { f := x.b, w := w } p.1).setWidth 128
            swap := if swap then e.read { f := x.c, w := w } p.1 else 0 }
        let near := (eas.filter (fun p => eaCore p.2.toNat == e.g.core)).map part
        let away := (eas.filter (fun p => eaCore p.2.toNat != e.g.core)).map part
        let locs := (near.map (fun p => Location.bank (p.pa / 4))).eraseDups
        let s0 := locs.foldl (fun st l => st.noteOrder e.g.ctx l e.g.mark) (e.countConflicts (near.map (fun p => (p.strand, p.pa))))
        if !locs.all (fun l => e.s.orderOk e.g.ctx l e.g.mark) then .wait e.s else
        let done := (groupParts n near []).foldl (fun (acc : State × List RegWrite) gr =>
          let r := acc.1.bankAtomic (some e.g.uid) x.fn.toNat n gr.2
          (r.2.2, acc.2 ++ (r.1.map (fun o => (e.dst x.d w o.1 (BitVec.ofNat 128 o.2)).map (fun q => { q with poison := r.2.1 }))).flatten))
          (s0, [])
        let r : Req := { queue := some 0, group := n, blocks := true, kind := .spadAtomic x.fn.toNat n x.d }
        .ok { st := if away.isEmpty then done.1 else done.1.send e.g r e.lead e.nc e.vliw .none away, writes := done.2 }
def execAtoms (h : Hd) (x : RF) (s : State) := run (.atoms h x) (semAtoms h x) s

/-! ## Prefetch, discard and maintenance (R243, R244) -/

def byteAddr (x : MF) (e : Env) (i : Nat) : Nat := e.genAddr x i
/-- The sectors that a PREF names: that of the address, or both of its line. -/
def prefSectors (x : MF) (e : Env) : List Part :=
  (e.parts.map (fun i =>
    let a := byteAddr x e i
    if x.d.getLsbD 2 then [{ strand := i, pa := a / 128 * 128 }, { strand := i, pa := a / 128 * 128 + 64 }]
    else [({ strand := i, pa := a / 64 * 64 } : Part)])).flatten

/-- A form that drops faults: what is mapped to main memory, readable, is acted on; the rest is dropped. DESIGN CHOICE (assumption 27): a permitted
address of the fabric aperture is dropped as well. -/
def prefSem (x : MF) (charged : Bool) (act : Env → State → Nat → State) : Sem where
  ct e := if charged then sectors 1 (prefSectors x e) else 0
  op e :=
    if !e.parts.isEmpty && e.poisoned (genSrcs e x) then .trap { cause := causePoison }
    else
      let s1 := (prefSectors x e).foldl (fun st p =>
        if p.pa ≥ 2 ^ 56 then st
        else match st.translate e.g.gcore e.g.ctx p.pa with
          | .page pa size rd _ _ => if rd && isDram (pageAddr pa size p.pa) then act e st (pageAddr pa size p.pa) else st
          | .fault .. => st) e.s
      .ok { st := s1.stepNc e.g.uid }

def Env.prefAsker (e : Env) (x : MF) : Asker :=
  { tenant := e.s.tenantOf e.g.ctx, owner := some (16 * e.g.gcore + e.g.slot), nud := nudOf x }
/-- A fetch into the home slice, stamped there. -/
def State.prefHome (s : State) (a : Asker) (pa : Nat) : State := (s.homeRead .vec pa 1 a).2.2

def semPref (_ : Hd) (x : MF) : Sem := prefSem x true (fun e s pa =>
  let a := e.prefAsker x
  let s1 := s.prefHome a pa
  let s2 := if ((s1.core e.g.gcore).l1Line pa).all (fun l => l.valid &&& sectorMask pa != sectorMask pa) then
      s1.fill1 e.g.gcore e.g.slot e.g.gen a.tenant pa none else s1
  s2.stamp1 e.g.gcore e.g.slot e.g.gen a.tenant pa a.nud e.nc)
def execPref (h : Hd) (x : MF) (s : State) := run (.pref h x) (semPref h x) s
def semPrefL2 (_ : Hd) (x : MF) : Sem := prefSem x true (fun e s pa => s.prefHome (e.prefAsker x) pa)
def execPrefL2 (h : Hd) (x : MF) (s : State) := run (.prefL2 h x) (semPrefL2 h x) s
/-- The dead mark on a line where it is resident. -/
def State.markDead (s : State) (core pa : Nat) : State :=
  let s1 := s.modCore core (fun c => c.modL1 pa (fun l => { l with dead := true }))
  match (s1.slice (homeSlice pa)).wayOf pa with
  | none => s1
  | some w => s1.modSlice (homeSlice pa) (fun h =>
      { h with lines := SMap.upd h.lines (16 * setOf2 pa + w) L2Line.empty (fun l => { l with dead := true }) })
def semPrefEvict (_ : Hd) (x : MF) : Sem := prefSem x false (fun e s pa => s.markDead e.g.gcore pa)
def execPrefEvict (h : Hd) (x : MF) (s : State) := run (.prefEvict h x) (semPrefEvict h x) s

def reqDiscard (x : MF) : Req := { wr := true, queue := qOf x, kind := .discard }
/-- The parts of PREF.DISCARD: each strand's address, and whether it names the whole line. -/
def discardParts (x : MF) (e : Env) : List Part := e.parts.map (fun i => { strand := i, pa := byteAddr x e i, val := if x.d.getLsbD 2 then 1 else 0 })
/-- The sectors that such a part names. -/
def Part.sectors (p : Part) : List Nat := if p.val = 1 then [p.pa / 128 * 128, p.pa / 128 * 128 + 64] else [p.pa / 64 * 64]
def semPrefDiscard (h : Hd) (x : MF) : Sem := genericSem (.prefDiscard h x) (reqDiscard x) false (fun e => genSrcs e x) (discardParts x)
def execPrefDiscard (h : Hd) (x : MF) (s : State) := run (.prefDiscard h x) (semPrefDiscard h x) s

/-- CMNT works on the line of the address; op 0 wb, 1 wbinv, 2 inv1. -/
def reqCmnt (x : MF) (op : Nat) : Req := { rd := true, queue := qOf x, group := 128, steps := false, kind := .maintain op }
def cmntParts (x : MF) (e : Env) : List Part := e.parts.map (fun i => { strand := i, pa := byteAddr x e i })
def semCmntWb (h : Hd) (x : MF) : Sem := genericSem (.cmntWb h x) (reqCmnt x 0) false (fun e => genSrcs e x) (cmntParts x)
def execCmntWb (h : Hd) (x : MF) (s : State) := run (.cmntWb h x) (semCmntWb h x) s
def semCmntWbinv (h : Hd) (x : MF) : Sem := genericSem (.cmntWbinv h x) (reqCmnt x 1) false (fun e => genSrcs e x) (cmntParts x)
def execCmntWbinv (h : Hd) (x : MF) (s : State) := run (.cmntWbinv h x) (semCmntWbinv h x) s
def semCmntInv1 (h : Hd) (x : MF) : Sem := genericSem (.cmntInv1 h x) (reqCmnt x 2) false (fun e => genSrcs e x) (cmntParts x)
def execCmntInv1 (h : Hd) (x : MF) (s : State) := run (.cmntInv1 h x) (semCmntInv1 h x) s

end Sys2Proof.Machine
end

