-- ==== Sys2Proof/Machine/Sync.lean ====
section
/-! DEFINITION. Majors 0x4F to 0x51 and 0x54 to 0x59: fences, handles, line monitors, flags and cohort barriers (R49, R99 to R102, R126,
R241, R242, R245 to R250). -/

namespace Sys2Proof.Machine

/-- An operation of the gang that leaves it, at its place in program order. -/
def Env.flight (e : Env) (kind : FlightKind) (rel : Bool := false) (parts : List Part := []) : Flight :=
  { id := 0, uid := some e.g.uid, ctx := e.g.ctx, core := e.g.gcore, queue := none, rel := rel, nc := e.nc, lead := e.lead, vliw := e.vliw
    kind := kind, parts := parts }

/-- The same, and the gang issues nothing until it has ended. -/
def State.launchBlocking (s : State) (uid : Nat) (f : Flight) : State :=
  (s.launchFlight f).modGang uid (fun x => { x with iss := { x.iss with block := x.iss.block ++ [s.next] } })

/-! ## Fences (R126) -/

/-- A fence waits for every earlier access of the gang, and nothing of the gang issues before it has. -/
def fenceSem (op : RF → Nat) (rel : Bool) (x : RF) : Sem where
  op e :=
    if !e.acts then e.nothing
    else match (if rel then e.releaseTrap else none).or e.acquireTrap with
      | some t => .trap t
      | none => .ok { st := e.s.launchBlocking e.g.uid (e.flight (.maintain (op x)) rel) }

def semFence (_ : Hd) (x : RF) : Sem := fenceSem (fun _ => fenceCode 0) false x
def execFence (h : Hd) (x : RF) (s : State) := run (.fence h x) (semFence h x) s
def semFenceRel (_ : Hd) (x : RF) : Sem := fenceSem (fun _ => fenceCode 1) true x
def execFenceRel (h : Hd) (x : RF) (s : State) := run (.fenceRel h x) (semFenceRel h x) s
def semFenceAcq (_ : Hd) (x : RF) : Sem := fenceSem (fun _ => fenceCode 2) false x
def execFenceAcq (h : Hd) (x : RF) (s : State) := run (.fenceAcq h x) (semFenceAcq h x) s
def semFenceAr (_ : Hd) (x : RF) : Sem := fenceSem (fun _ => fenceCode 3) true x
def execFenceAr (h : Hd) (x : RF) (s : State) := run (.fenceAr h x) (semFenceAr h x) s
def semFencex (_ : Hd) (x : RF) : Sem := fenceSem (fun x => fencexCode x.a.toNat x.b.toNat) false x
def execFencex (h : Hd) (x : RF) (s : State) := run (.fencex h x) (semFencex h x) s

/-! ## Handles (R91, R241, R242) -/

/-- The handle that a translation makes. -/
def mkHandle (cluster va pa size : Nat) (rd wr : Bool) : Handle :=
  { valid := true, page := pa, size := size, rd := rd, wr := wr
    oncore := isSpad pa && (pa - 2 ^ 48) / 2 ^ 26 == cluster, vpage := va / pageBytes size * pageBytes size }

/-- A page that XLAT may name: main memory, the fabric, or the scratchpad of the gang's own cluster. -/
def xlatTarget (cluster pa : Nat) : Bool := isDram pa || isFabric pa || (isSpad pa && (pa - 2 ^ 48) / 2 ^ 26 == cluster)

/-- XLAT: written from the TLB, or pending while the walk is under way; a walk that finds no translation parks the gang. -/
def xlatSem (i : Instr) (x : RF) (write : Bool) : Sem where
  op e :=
    let n := x.d.toNat % 16
    let a : Src := { f := x.a, w := .w64, base := true }
    let va := (e.uniform a).toNat
    let bad : TrapInfo := { cause := causeProtection, taddr := BitVec.ofNat 64 va }
    if !e.acts then e.nothing
    else if (e.g.h n).pending then .wait e.s
    else if e.srcPoison a e.lead then .trap { cause := causePoison }
    else if va ≥ 2 ^ 56 then .trap bad
    else
      match e.s.translate e.g.gcore e.g.ctx va with
      | .page pa size rd wr _ =>
        if !xlatTarget e.g.cluster pa || !(if write then wr else rd) then .trap bad
        else if (e.s.tlbHit e.g.gcore e.g.ctx va).isSome then
          .ok { st := e.s
                writes := { dst := .h n, handle := mkHandle e.g.cluster va pa size rd wr }
                  :: e.dstAll x.b .w32 (BitVec.ofNat 128 (va % pageBytes size)) }
        else
          let s1 := e.s.launchFlight { e.flight (.xlat n va write x.b false) with
            parts := e.parts.map (fun i => { strand := i, pa := va }) }
          .ok { st := s1.modGang e.g.uid (fun g => { g with regs := { g.regs with h := SMap.set g.regs.h n { pending := true } } }) }
      | .fault k l =>
        let s1 := e.s.modGang e.g.uid (fun g => { g with regs := { g.regs with h := SMap.set g.regs.h n { pending := true } } })
        let p : Part := { strand := e.lead, pa := va }
        let s2 := s1.park e.g i (128 + if write then 8 else 0) e.lead e.nc [(p, k, l)] (if e.vliw then [p] else e.parts.map (fun i => { strand := i, pa := va }))
        .ok { st := s2.modGang e.g.uid (fun g => { g with park := g.park.map (fun q => { q with slot := e.place.slotNo }) }) }

def semXlat (h : Hd) (x : RF) : Sem := xlatSem (.xlat h x) x false
def execXlat (h : Hd) (x : RF) (s : State) := run (.xlat h x) (semXlat h x) s
def semXlatW (h : Hd) (x : RF) : Sem := xlatSem (.xlatW h x) x true
def execXlatW (h : Hd) (x : RF) (s : State) := run (.xlatW h x) (semXlatW h x) s

/-- Drops handles; the result of a walk that is pending for one is discarded. -/
def State.dropHandles (s : State) (uid : Nat) (pick : Nat → Bool) : State :=
  { s.modGang uid (fun g => { g with regs := { g.regs with h := g.regs.h.map (fun kh => (kh.1, if pick kh.1 then { kh.2 with valid := false } else kh.2)) } }) with
    flights := s.flights.map (fun f => match f.kind with
      | .xlat n va w d _ => if f.uid == some uid && pick n then { f with kind := .xlat n va w d true } else f
      | _ => f) }

def semHdrop (_ : Hd) (x : RF) : Sem where
  op e :=
    if !e.acts then e.nothing
    else if (e.g.h (x.d.toNat % 16)).pending then .wait e.s
    else .ok { st := e.s.dropHandles e.g.uid (fun n => n == x.d.toNat % 16) }
def execHdrop (h : Hd) (x : RF) (s : State) := run (.hdrop h x) (semHdrop h x) s
def semHdropAll (_ : Hd) (_ : RF) : Sem where
  op e := if !e.acts then e.nothing else .ok { st := e.s.dropHandles e.g.uid (fun _ => true) }
def execHdropAll (h : Hd) (x : RF) (s : State) := run (.hdropAll h x) (semHdropAll h x) s

/-! ## Line monitors (R102, R245, R246) -/

/-- WATCH asks the home slice of its line to register the gang's monitor; the gang issues nothing until that has happened. -/
def reqWatch : Req := { rd := true, dram := true, whole := true, blocks := true, steps := false, kind := .watch 0 }
def watchParts (x : MF) (e : Env) : List Part := [{ strand := e.lead, pa := byteAddr x e e.lead }]
def semWatch (h : Hd) (x : MF) : Sem := genericSem (.watch h x) reqWatch false (fun e => genSrcs e x) (watchParts x) false true
def execWatch (h : Hd) (x : MF) (s : State) := run (.watch h x) (semWatch h x) s

/-- The gang's monitor is disarmed. -/
def State.disarm (s : State) (uid : Nat) : State :=
  match (s.gang? uid).bind Gang.monitor with
  | none => s
  | some m =>
    (s.modSlice (homeSlice (128 * m.line)) (fun h => { h with monitors := h.monitors.filter (fun x => x.1 != uid) })).modGang uid (fun g =>
      { g with monitor := none })

/-- WATCH_REGISTRATION: the core drops the words of the line that it does not own; the slice registers the monitor, evicting
its oldest if it holds 64; the gang issues again. -/
def execWatchRegistration (id : Nat) (s : State) : Host.Outcome State Fault Refusal :=
  match s.flights.find? (fun f => f.id == id) with
  | some f =>
    match f.kind, f.uid, f.parts.head? with
    | .watch _, some uid, some p =>
      if !s.enabled f then .next s
      else
        let line := p.pa / 128
        let s1 := (s.disarm uid).modCore f.core (fun c => c.modL1 p.pa (fun l => { l with valid := l.valid &&& l.owned }))
        let h := homeSlice (128 * line)
        let ms := (s1.slice h).monitors
        let s2 := if ms.length < Config.monitorsPerSlice then s1
          else match ms.head? with
            | some old =>
              { (s1.modSlice h (fun x => { x with monitors := x.monitors.drop 1 })).sliceCount h 7
                  (((s1.gang? old.1).map (fun g => s1.tenantOf g.ctx)).getD 0) ((s1.gang? old.1).map (fun g => 16 * g.gcore + g.slot)) with
                gangs := s1.gangs.map (fun g => if g.uid == old.1 then
                  { g with monitor := g.monitor.map (fun m => { m with fired := m.fired.or (some 1) }) } else g) }
            | none => s1
        let s3 := s2.modSlice h (fun x => { x with monitors := x.monitors ++ [(uid, line)] })
        let s4 := s3.modGang uid (fun g => { g with monitor := some { line := line } })
        .next (s4.dropFlight id).pump
    | _, _, _ => .next s
  | none => .next s

/-- The status with which WAITW returns now, if it does. -/
def Env.waitStatus (e : Env) (ns : Nat) : Option Nat :=
  match e.g.monitor with
  | none => some 3
  | some m =>
    match m.fired with
    | some st => some st
    | none => if ns != 0 && (e.g.iss.waitFrom.getD (e.g.iss.since.getD e.s.clock.el)) + ns * 65536 ≤ e.s.clock.el then some 2 else none

def semWaitw (_ : Hd) (x : IF) : Sem where
  op e :=
    if !e.acts then e.nothing
    else match e.waitStatus x.imm.toNat with
      | none => .wait (e.s.modGang e.g.uid (fun g => { g with iss := { g.iss with waitFrom := g.iss.waitFrom.or (some (g.iss.since.getD e.s.clock.el)), waitNs := x.imm.toNat } }))
      | some st0 =>
        let loc : Location := .line (e.g.monitor.elim 0 Monitor.line)
        let st := e.s.valueRead e.g [st0]
        match e.acquireTrap with
        | some t => .trap t
        | none =>
          if !e.s.orderOk e.g.ctx loc e.g.mark then .wait e.s
          else .ok { st := (((e.s.noteOrder e.g.ctx loc e.g.mark).noteValue e.g st).disarm e.g.uid).acquire e.g.uid
                     writes := e.dstAll x.d .w32 (BitVec.ofNat 128 (st.headD 0)) }
def execWaitw (h : Hd) (x : IF) (s : State) := run (.waitw h x) (semWaitw h x) s

/-- Marks the monitor of a gang that waits in WAITW, unless it has fired. -/
def State.wakeWatcher (s : State) (uid status : Nat) : State :=
  s.modGang uid (fun g => { g with monitor := g.monitor.map (fun m => { m with fired := m.fired.or (some status) }) })

/-- WAITW_TIMEOUT: the time counted since WAITW was next has passed. -/
def execWaitwTimeout (uid : Nat) (s : State) : Host.Outcome State Fault Refusal :=
  match s.gang? uid with
  | some g =>
    match g.iss.waitFrom with
    | some t => .next (if g.iss.waitNs != 0 && t + g.iss.waitNs * 65536 ≤ s.clock.el then s.wakeWatcher uid 2 else s)
    | none => .next s
  | none => .next s

/-- WAITW_EARLY_RETURN: the device lets a waiting WAITW return. -/
def execWaitwEarlyReturn (uid : Nat) (s : State) : Host.Outcome State Fault Refusal :=
  match s.gang? uid with
  | some g => .next (if g.iss.waitFrom.isSome then s.wakeWatcher uid 4 else s)
  | none => .next s

/-! ## Flags (R99 to R101, R247 to R249) -/

/-- The number in the core's file of window flag j. -/
def Gang.flagNo (g : Gang) (j : Nat) : Nat := g.window.base + j
def Env.flagVal (e : Env) (j : Nat) : BitVec 16 := SMap.get (e.s.core e.g.gcore).flags (e.g.flagNo j) 0

/-- FPOST posts its count, 0 too: that posts nothing and is still a release (R247). -/
def semFpost (_ : Hd) (x : RF) : Sem where
  op e :=
    let a : Src := { f := x.a, base := true }
    if e.flagOut x.d.toNat then e.illegal
    else if !e.acts then e.nothing
    else if e.srcPoison a e.lead then .trap { cause := causePoison }
    else match e.releaseTrap with
      | some t => .trap t
      | none =>
        let n := bits64 (e.uniform a) 15 0
        .ok { st := e.s.launchFlight (e.flight (.localPost e.g.gcore (e.g.flagNo x.d.toNat) n) true) }
def execFpost (h : Hd) (x : RF) (s : State) := run (.fpost h x) (semFpost h x) s

def semFpostR (_ : Hd) (x : RF) : Sem where
  op e :=
    let a : Src := { f := x.a, base := true }
    let b : Src := { f := x.b, base := true }
    if !e.acts then e.nothing
    else if e.srcPoison a e.lead || e.srcPoison b e.lead then .trap { cause := causePoison }
    else match e.releaseTrap with
      | some t => .trap t
      | none =>
        let n := bits64 (e.uniform b) 15 0
        .ok { st := e.s.launchFlight (e.flight (.post ((e.uniform a).setWidth 32) n e.g.ctx) true) }
def execFpostR (h : Hd) (x : RF) (s : State) := run (.fpostR h x) (semFpostR h x) s

/-- A wait takes n from window flag j: the decoupled accesses whose posts it takes may be read, and it is an acquire. -/
def State.takeFlag (s : State) (uid j n : Nat) : State :=
  match s.gang? uid with
  | none => s
  | some g =>
    let s1 := (s.noteOrder g.ctx (.flag g.gcore (g.flagNo j)) g.mark).modCore g.gcore (fun c => { c with
      flags := SMap.upd c.flags (g.flagNo j) 0 (fun v => v - BitVec.ofNat 16 n) })
    (s1.modGang uid (fun g => (g.consumed j n).landTo (s.gclk g))).acquire uid

def semFwait (_ : Hd) (x : IF) : Sem where
  op e :=
    let n := x.imm.toNat
    if e.flagOut x.d.toNat then e.illegal
    else if !e.acts then e.nothing
    else if (e.flagVal x.d.toNat).toNat < n || !e.s.orderOk e.g.ctx (.flag e.g.gcore (e.g.flagNo x.d.toNat)) e.g.mark then .wait e.s
    else match e.acquireTrap with
      | some t => .trap t
      | none => .ok { st := e.s.takeFlag e.g.uid x.d.toNat n }
def execFwait (h : Hd) (x : IF) (s : State) := run (.fwait h x) (semFwait h x) s

def semFread (_ : Hd) (x : RF) : Sem where
  op e :=
    if e.flagOut x.a.toNat then e.illegal
    else if !e.acts then e.nothing
    else .ok { st := e.s, writes := e.dstAll x.d .w32 ((e.flagVal x.a.toNat).setWidth 128) }
def execFread (h : Hd) (x : RF) (s : State) := run (.fread h x) (semFread h x) s

/-- The flag address of R101 for a flag of the gang's window. -/
def Gang.flagAddr (g : Gang) (j : Nat) : Nat := g.flagNo j + g.core * 2 ^ 6 + g.cluster * 2 ^ 11 + g.window.serial.toNat * 2 ^ 16
def semFreadAddr (_ : Hd) (x : RF) : Sem where
  op e :=
    if e.flagOut x.a.toNat then e.illegal
    else if !e.acts then e.nothing
    else .ok { st := e.s, writes := e.dstAll x.d .w32 (BitVec.ofNat 128 (e.g.flagAddr x.a.toNat)) }
def execFreadAddr (h : Hd) (x : RF) (s : State) := run (.freadAddr h x) (semFreadAddr h x) s

/-! ## Cohort barriers (R49, R250) -/

def State.cohort (s : State) (ctx i : Nat) : Cohort := SMap.get (s.ctx ctx).cohorts i {}
def State.setK (s : State) (uid n : Nat) (k : KReg) : State :=
  s.modGang uid (fun g => { g with ctl := { g.ctl with k := SMap.set g.ctl.k n k } })

/-- Arrive: the phase is recorded, and the arrival counts once the gang's earlier accesses are complete. -/
def semBarArrive (_ : Hd) (x : RF) : Sem where
  op e :=
    let n := x.a.toNat % 4
    let k := e.g.k n
    if !e.acts then e.nothing
    else if !k.valid then .trap { cause := causeProtection }
    else match e.releaseTrap with
      | some t => .trap t
      | none =>
        let s1 := e.s.setK e.g.uid n { k with phase := (e.s.cohort e.g.ctx k.idx.toNat).phase, arrived := true }
        .ok { st := s1.launchFlight (e.flight (.arrive k.idx.toNat n) true) }
def execBarArrive (h : Hd) (x : RF) (s : State) := run (.barArrive h x) (semBarArrive h x) s

/-- An arrival of the gang through handle n that has not been counted yet. -/
def State.arriving (s : State) (uid n : Nat) : Bool :=
  s.flights.any (fun f => f.uid == some uid && (match f.kind with | .arrive _ k => k == n | _ => false))

def semBarWait (_ : Hd) (x : RF) : Sem where
  op e :=
    let n := x.a.toNat % 4
    let k := e.g.k n
    if !e.acts then e.nothing
    else if !k.valid then .trap { cause := causeProtection }
    else if k.arrived && (e.s.arriving e.g.uid n || (e.s.cohort e.g.ctx k.idx.toNat).phase == k.phase) then .wait e.s
    else if !e.s.orderOk e.g.ctx (.cohort k.idx.toNat) e.g.mark then .wait e.s
    else match e.acquireTrap with
      | some t => .trap t
      | none => .ok { st := ((e.s.noteOrder e.g.ctx (.cohort k.idx.toNat) e.g.mark).setK e.g.uid n { k with arrived := false }).acquire e.g.uid }
def execBarWait (h : Hd) (x : RF) (s : State) := run (.barWait h x) (semBarWait h x) s

end Sys2Proof.Machine
end

