-- ==== Sys2Proof/Machine/Control.lean ====
section
/-! DEFINITION. Majors 0x60 to 0x6F, 0x7C, 0x7D and 0x7E: branches and the divergence stack, calls, exits, the change of decoder, loops,
continuation points, budget transfer, yield, traps and their return, counters and the legacy forms (R34 to R41, R62, R69, R79, R152,
R260 to R281). -/

namespace Sys2Proof.Machine

/-! ## Targets (R152, R262) -/

/-- The checks of a control transfer's target. -/
def checkTarget (t : Word64) : Option TrapInfo :=
  if bits64 t 2 0 != 0 then some { cause := causeMisaligned, taddr := t }
  else if bits64 t 63 56 != 0 then some { cause := causeProtection, taddr := t }
  else none

/-- The gang continues at a target, with the state and results given. -/
def transfer (st : State) (ws : List RegWrite) (t : Word64) : Res :=
  match checkTarget t with
  | some tr => .trap tr
  | none => .ok { st := st, writes := ws, next := some t }

/-- A b-register named by a 3-bit field, as an address. -/
def Env.bAddr (e : Env) (n : Nat) : Word64 := (e.g.b n).setWidth 64

/-- The mask of a list of strands. -/
def maskOf (l : List Nat) : Word32 := l.foldl (fun m i => m ||| BitVec.ofNat 32 (2 ^ i)) 0

def State.modCtl (s : State) (uid : Nat) (f : Ctl → Ctl) : State := s.modGang uid (fun g => { g with ctl := f g.ctl })

/-! ## Branch targets (R263, R264) -/

/-- A PC-relative address of Format I. -/
def pcRel (pc : Word64) (imm : BitVec 28) : Word64 := pc + 8 * imm.signExtend 64

def semPbr (_ : Hd) (x : IF) : Sem where
  op e := if !e.acts then e.nothing
    else .ok { st := e.s, writes := [{ dst := .b (x.d.toNat % 8), val := ((pcRel e.pc x.imm).setWidth 56).setWidth 64 }] }
def execPbr (h : Hd) (x : IF) (s : State) := run (.pbr h x) (semPbr h x) s

def semPbrr (_ : Hd) (x : RF) : Sem where
  op e :=
    let a : Src := { f := x.a, w := .w64, base := true }
    if !e.acts then e.nothing
    else if e.srcPoison a e.lead then .trap { cause := causePoison }
    else if bits64 (e.uniform a) 63 56 != 0 then .trap { cause := causeProtection, taddr := e.uniform a }
    else .ok { st := e.s, writes := [{ dst := .b (x.d.toNat % 8), val := e.uniform a }] }
def execPbrr (h : Hd) (x : RF) (s : State) := run (.pbrr h x) (semPbrr h x) s

/-- A gang-wide result from the branch slot: every cluster whose guard holds (R228, R264). -/
def Env.dstWide (e : Env) (f : Reg) (w : OpW) (v : BitVec 128) : List RegWrite :=
  let n := f.toNat
  if 128 ≤ n && n < 192 then e.dstAll f w v
  else if e.vliw then (((List.range 16).filter e.guard).map (fun k => e.dst f w k v)).flatten
  else e.dstAll f w v

def semPbrrGet (_ : Hd) (x : RF) : Sem where
  op e := if !e.acts then e.nothing
    else .ok { st := e.s, writes := e.dstWide x.d .w64 ((e.bAddr (x.a.toNat % 8)).setWidth 128) }
def execPbrrGet (h : Hd) (x : RF) (s : State) := run (.pbrrGet h x) (semPbrrGet h x) s

/-! ## Branch, divergence and join (R35, R36, R37, R265, R266) -/

/-- The transfer of a whole gang when a condition holds. -/
def goIf (e : Env) (c : Bool) (n : Nat) : Res := if c then transfer e.s [] (e.bAddr n) else e.nothing

def semBr (_ : Hd) (x : BF) : Sem where
  op e :=
    let t := e.bAddr x.tgt.toNat
    if e.vliw then goIf e (e.guard 0) x.tgt.toNat
    else
      let a := e.g.ctl.active
      let T := maskOf e.parts
      if T == 0 || T == a then goIf e (T != 0) x.tgt.toNat
      else
        let j := e.bAddr x.jn.toNat
        match (checkTarget t).or (checkTarget j) with
        | some tr => .trap tr
        | none =>
          if e.g.ctl.stack.length ≥ Config.stackEntries then .trap { cause := causeStack }
          else .ok { st := e.s.modCtl e.g.uid (fun c => { c with
                        active := T
                        stack := .div false a (a &&& ~~~T) (e.npc.setWidth 56) (j.setWidth 56) :: c.stack })
                     next := some t }
def execBr (h : Hd) (x : BF) (s : State) := run (.br h x) (semBr h x) s

def semBrAny (_ : Hd) (x : BF) : Sem where
  op e := goIf e (if e.vliw then (List.range 16).any e.guard else !e.parts.isEmpty) x.tgt.toNat
def execBrAny (h : Hd) (x : BF) (s : State) := run (.brAny h x) (semBrAny h x) s
def semBrAll (_ : Hd) (x : BF) : Sem where
  op e := goIf e (if e.vliw then (List.range 16).all e.guard else maskOf e.parts == e.g.ctl.active) x.tgt.toNat
def execBrAll (h : Hd) (x : BF) (s : State) := run (.brAll h x) (semBrAll h x) s

/-- One step of JOIN, or of Settle, on a divergence entry: active mask, stack and address. -/
def joinStep : Entry → List Entry → Option (Word32 × List Entry × Word64)
  | .div false m o opc j, rest => some (o, .div true m o opc j :: rest, opc.setWidth 64)
  | .div true m _ _ j, rest => some (m, rest, j.setWidth 64 + 8)
  | .loop .., _ => none

/-- Settle of R37: steps of JOIN until the active mask is not empty; none when the stack gives out. -/
def settle : Nat → List Entry → Option (Word32 × List Entry × Word64)
  | _, [] => none
  | 0, _ => none
  | n + 1, t :: rest =>
    match joinStep t rest with
    | none => none
    | some r => if r.1 == 0 then settle n r.2.1 else some r
def settleFuel : Nat := 2 * Config.stackEntries + 1

/-- A store or atomic of a gang that could still be lost: it has not been registered, and no release already tells of a loss (R121, R129). -/
def State.unregistered (s : State) (uid : Nat) : Bool :=
  (s.flightsOf uid).any (fun f => !f.shelved && !s.lostBefore f && (match f.kind with
    | .store _ => true | .atomic .. => true | .join _ => true | .resolve .. => true | .discard => true | _ => false))
/-- The gang exits, once every store of it has been registered: the exit is a release, at which a lost store traps precisely (R121, R129; DEDUCED,
assumption 54). -/
def Env.endGang (e : Env) (st : State) : Res :=
  if e.s.unregistered e.g.uid then .wait e.s
  else match e.releaseTrap with
    | some t => .trap t
    | none => .ok { st := st.exitGang e.g.uid }

/-- The gang goes on with a mask, a stack and an address; where the mask is empty it settles first, and exits if it cannot. -/
def Env.goOn (e : Env) (st : State) (r : Word32 × List Entry × Word64) : Res :=
  let r' := if r.1 == 0 then settle settleFuel r.2.1 else some r
  match r' with
  | some q => .ok { st := st.modCtl e.g.uid (fun c => { c with active := q.1, stack := q.2.1 }), next := some q.2.2 }
  | none => e.endGang st

def semJoin (_ : Hd) (_ : BF) : Sem where
  op e := match e.g.ctl.stack with
    | [] => e.illegal
    | t :: rest => match joinStep t rest with
      | none => e.illegal
      | some r => e.goOn e.s r
def execJoin (h : Hd) (x : BF) (s : State) := run (.join h x) (semJoin h x) s

/-! ## Call, return and exit (R267 to R269) -/

def semCall (_ : Hd) (x : BF) : Sem where
  op e := if !e.acts then e.nothing
    else transfer e.s [{ dst := .b x.jn.toNat, val := (e.npc.setWidth 56).setWidth 64 }] (e.bAddr x.tgt.toNat)
def execCall (h : Hd) (x : BF) (s : State) := run (.call h x) (semCall h x) s
def semRet (_ : Hd) (x : BF) : Sem where
  op e := goIf e e.acts x.tgt.toNat
def execRet (h : Hd) (x : BF) (s : State) := run (.ret h x) (semRet h x) s

/-- An entry without the strands that have exited. -/
def Entry.without (m : Word32) : Entry → Entry
  | .div ph a o opc j => .div ph (a &&& ~~~m) (o &&& ~~~m) opc j
  | .loop a b c d => .loop a b c d

/-- The loads of strands that exit are abandoned. -/
def State.abandon (s : State) (uid : Nat) (m : Word32) : State :=
  let s1 : State := { s with flights := s.flights.map (fun f =>
      if f.uid == some uid && f.abandoned then { f with parts := f.parts.filter (fun p => !m.getLsbD p.strand) } else f) }
  s1.dropWhere (fun f => f.uid == some uid && f.abandoned && f.parts.isEmpty)

def semExit (_ : Hd) (_ : BF) : Sem where
  op e :=
    let m := maskOf e.parts
    if m == 0 then e.nothing
    else
      let c := e.g.ctl
      let n := c.nmask &&& ~~~m
      let st := (e.s.abandon e.g.uid m).modCtl e.g.uid (fun c => { c with nmask := n, stack := c.stack.map (Entry.without m) })
      if n == 0 then e.endGang st
      else e.goOn st (c.active &&& ~~~m, c.stack.map (Entry.without m), e.npc)
def execExit (h : Hd) (x : BF) (s : State) := run (.exit h x) (semExit h x) s

/-! ## Changing decoder (R39 to R41, R270, R271) -/

/-- vres of a core's scheduler control (R340). -/
def State.vres (s : State) (gcore : Nat) : Nat := bits64 (s.reg (schedBlock gcore)) 2 0

def Gang.converged (g : Gang) : Bool := g.ctl.active == 0xFFFFFFFF && g.ctl.nmask == 0xFFFFFFFF && g.ctl.stack.isEmpty

def semFuse (_ : Hd) (_ : BF) : Sem where
  op e :=
    if !e.acts then e.nothing
    else if e.s.vres e.g.gcore = 0 then e.illegal
    else if !e.g.converged then .trap { cause := causeFuse }
    else .ok { st := e.s.modGang e.g.uid (fun g =>
      let g1 : Gang := { g with ctl := { g.ctl with vliw := true }, iss := { g.iss with groupFrom := some e.s.cycle } }
      g1.cont e.npc) }
def execFuse (h : Hd) (x : BF) (s : State) := run (.fuse h x) (semFuse h x) s

/-- SPLIT gives the gang back to the SIMT decoder once every result in flight, its own bundle's included, has landed. -/
def semSplit (_ : Hd) (_ : BF) : Sem where
  op e :=
    if !e.acts then e.nothing
    else if !e.g.ctl.stack.isEmpty then e.illegal
    else .ok { st := (e.s.modGang e.g.uid (fun g => { g with iss := { g.iss with splitTo := some e.npc } })).dropGroup e.g.uid }
def execSplit (h : Hd) (x : BF) (s : State) := run (.split h x) (semSplit h x) s

/-! ## Loops (R38, R168, R272, R273) -/

/-- Push of a loop entry. -/
def Env.loopPush (e : Env) (st : State) (n : BitVec 32) (stages : Nat) : Res :=
  if e.g.ctl.stack.length ≥ Config.stackEntries then .trap { cause := causeStack }
  else .ok { st := st.modCtl e.g.uid (fun c => { c with stack := .loop stages n 0 (e.npc.setWidth 56) :: c.stack }) }
/-- Advance and pop of R38. -/
def Env.loopAdvance (e : Env) (st : State) : Res :=
  match e.g.ctl.stack with
  | .loop stages n t start :: rest =>
    if t + 1 < passes stages n then
      .ok { st := st.modCtl e.g.uid (fun c => { c with stack := .loop stages n (t + 1) start :: rest }), next := some (start.setWidth 64) }
    else .ok { st := st.modCtl e.g.uid (fun c => { c with stack := rest }) }
  | _ => e.illegal
def Env.loopPop (e : Env) (st : State) : Res :=
  match e.g.ctl.stack with
  | .loop .. :: rest => .ok { st := st.modCtl e.g.uid (fun c => { c with stack := rest }) }
  | _ => e.illegal

def semLoop (_ : Hd) (x : IF) : Sem where
  op e :=
    let a : Src := { f := x.d, w := .w32 }
    if !e.acts then e.nothing
    else if e.srcPoison a 0 then .trap { cause := causePoison }
    else e.loopPush e.s ((e.read a 0).setWidth 32) (x.imm.toNat % 8 + 1)
def execLoop (h : Hd) (x : IF) (s : State) := run (.loop h x) (semLoop h x) s
def semLend (_ : Hd) (_ : BF) : Sem where
  op e := e.loopAdvance e.s
def execLend (h : Hd) (x : BF) (s : State) := run (.lend h x) (semLend h x) s
def semLendPop (_ : Hd) (_ : BF) : Sem where
  op e := e.loopPop e.s
def execLendPop (h : Hd) (x : BF) (s : State) := run (.lendPop h x) (semLendPop h x) s
def semLendBrk (_ : Hd) (x : BF) : Sem where
  op e :=
    if !e.acts then e.nothing
    else match e.loopPop e.s with
      | .ok f => transfer f.st [] (e.bAddr x.tgt.toNat)
      | r => r
def execLendBrk (h : Hd) (x : BF) (s : State) := run (.lendBrk h x) (semLendBrk h x) s

/-! ## Continuation points, budget and yield (R62, R69, R79) -/

/-- At most four bits set in each half of a continuation mask. -/
def cpmOk (m : Word64) : Bool :=
  ((List.range 32).filter (fun i => m.getLsbD i)).length ≤ 4 && ((List.range 32).filter (fun i => m.getLsbD (32 + i))).length ≤ 4

/-- CONT: a bad mask or target raises the decoder's illegal trap. It takes its snapshot once every result has landed. -/
def contSem (x : IF) (target : Env → Word64) : Sem where
  op e :=
    let a : Src := { f := x.d, w := .w64, base := true }
    let keep := x.d == 255#8
    let m := if keep then e.g.spec.cpm else e.uniform a
    let t := target e
    if !e.acts then e.nothing
    else if !keep && e.srcPoison a e.lead then .trap { cause := causePoison }
    else if !cpmOk m || bits64 t 2 0 != 0 || bits64 t 63 56 != 0 then e.illegal
    else if !e.vliw && e.s.resultsOut e.g.uid then .wait e.s
    else .ok { st := e.s.modGang e.g.uid (fun g => { g with iss := { g.iss with sealTo := some t, cpmTo := some m, contOnly := true } }) }
def semCont (_ : Hd) (x : IF) : Sem := contSem x (fun e => pcRel e.pc x.imm)
def execCont (h : Hd) (x : IF) (s : State) := run (.cont h x) (semCont h x) s
def semContB (_ : Hd) (x : IF) : Sem := contSem x (fun e => e.bAddr (x.imm.toNat % 8))
def execContB (h : Hd) (x : IF) (s : State) := run (.contB h x) (semContB h x) s

/-- An amount of BGT: bits 31:0 of an s-register, a constant, or zero. -/
def bgtSrc (f : Reg) : Src := { f := f, w := .w32 }
def Env.amount (e : Env) (f : Reg) : Nat := if f == 255#8 then 0 else bits64 (e.read (bgtSrc f) 0) 31 0
def bgtSem (x : IF) (act : Env → Nat → Nat → Res) : Sem where
  op e :=
    if !e.acts then e.nothing
    else if e.srcPoison (bgtSrc x.d) 0 || e.srcPoison (bgtSrc x.a) 0 then .trap { cause := causePoison }
    else act e (e.amount x.d) (e.amount x.a)

/-- The gang's budgets become ib and tb, the pools what the transfer leaves them. -/
def State.setBudget (s : State) (g : Gang) (ib tb ibpool tbpool : Nat) : State :=
  (s.modGang g.uid (fun x => { x with spec := { x.spec with ib := BitVec.ofNat 32 ib, tb := BitVec.ofNat 32 tb } })).modCtx g.ctx (fun c =>
    { c with ibpool := ibpool, tbpool := tbpool })

def semBgtTop (_ : Hd) (x : IF) : Sem :=
  bgtSem x (fun e i t =>
    if !e.g.topup then .trap { cause := causeProtection }
    else
      let c := e.s.ctx e.g.ctx
      let ib := e.g.spec.ib.toNat
      let tb := e.g.spec.tb.toNat
      let xi := min i (min c.ibpool (2 ^ 32 - 1 - ib))
      let xt := min t (min c.tbpool (2 ^ 32 - 1 - tb))
      .ok { st := e.s.setBudget e.g (ib + xi) (tb + xt) (c.ibpool - xi) (c.tbpool - xt) })
def execBgtTop (h : Hd) (x : IF) (s : State) := run (.bgtTop h x) (semBgtTop h x) s
def semBgtRel (_ : Hd) (x : IF) : Sem :=
  bgtSem x (fun e i t =>
    let c := e.s.ctx e.g.ctx
    let ib := e.g.spec.ib.toNat
    let tb := e.g.spec.tb.toNat
    .ok { st := e.s.setBudget e.g (ib - min i ib) (tb - min t tb) (min (2 ^ 64 - 1) (c.ibpool + min i ib)) (min (2 ^ 64 - 1) (c.tbpool + min t tb)) })
def execBgtRel (h : Hd) (x : IF) (s : State) := run (.bgtRel h x) (semBgtRel h x) s

def semYield (_ : Hd) (_ : BF) : Sem where
  op e := if !e.acts then e.nothing else .ok { st := e.s.requestYield e.g.uid false }
def execYield (h : Hd) (x : BF) (s : State) := run (.yield h x) (semYield h x) s

/-! ## Traps and return (R275, R276, R343) -/

def semTrap (_ : Hd) (x : IF) : Sem where
  op e := if !e.acts then e.nothing else .trap { cause := causeSoftware, code := x.imm.toNat % 65536, after := true }
def execTrap (h : Hd) (x : IF) (s : State) := run (.trap h x) (semTrap h x) s
def semTrapBkpt (_ : Hd) (x : IF) : Sem where
  op e := if !e.acts then e.nothing else .trap { cause := causeBreakpoint, code := x.imm.toNat % 65536 }
def execTrapBkpt (h : Hd) (x : IF) (s : State) := run (.trapBkpt h x) (semTrapBkpt h x) s

/-- TRET: at supervisor level, with the stack at the depth of the trap, once every result has landed; in a bundle those of its own slots
too. DESIGN CHOICE (assumption 114): in the branch slot its traps are the decoder's, illegal bundle (R178), where R276 and R343 say illegal instruction. -/
def tretSem (target : TrapRec → Word64) (skip : Bool) : Sem where
  op e :=
    let r := e.g.ctl.trap
    if e.g.ctl.tdepth = 0 then .trap { cause := causeProtection }
    else if e.s.awaiting e.g then .wait e.s
    else if e.g.ctl.stack.length != bits64 r.tinfo 52 48 then e.illegal
    else if e.vliw then .ok { st := e.s.modGang e.g.uid (fun g => { g with iss := { g.iss with tretTo := some (target r, skip) } }) }
    else
      let st := e.s.trapReturn e.g.uid (target r) skip
      if r.tact &&& e.g.ctl.nmask == 0 then e.goOn st (0, e.g.ctl.stack, target r)
      else .ok { st := st, next := some (target r) }
def semTret (_ : Hd) (_ : BF) : Sem := tretSem TrapRec.tpc false
def execTret (h : Hd) (x : BF) (s : State) := run (.tret h x) (semTret h x) s
def semTretSkip (_ : Hd) (_ : BF) : Sem := tretSem TrapRec.next true
def execTretSkip (h : Hd) (x : BF) (s : State) := run (.tretSkip h x) (semTretSkip h x) s

/-! ## Counters (R277) -/

/-- The value of counter n for a gang. -/
def State.counter (s : State) (g : Gang) (n : Nat) : Nat :=
  if n < 8 then
    let c := s.reg (counterBlock g.gcore + 16 * n)
    if c.getLsbD 18 && bits64 c 17 8 == g.ctx then (s.reg (counterBlock g.gcore + 16 * n + 8)).toNat % 2 ^ 48 else 0
  else if n = 8 then s.cycle % 2 ^ 48
  else if n < 13 then (SMap.get g.spec.ctrs n 0).toNat
  else (s.core g.gcore).freezes % 2 ^ 48

def semRdctr (_ : Hd) (x : RF) : Sem where
  op e :=
    let v := e.s.valueRead e.g [e.s.counter e.g (x.a.toNat - 192)]
    if !e.acts then e.nothing else .ok { st := e.s.noteValue e.g v, writes := e.dstWide x.d .w64 (BitVec.ofNat 128 (v.headD 0)) }
def execRdctr (h : Hd) (x : RF) (s : State) := run (.rdctr h x) (semRdctr h x) s

/-! ## Legacy forms (R279 to R281) -/

/-- The two aligned units of an access: bytes in the first, and the address of the second if there is one. -/
def firstBytes (w a : Nat) : Nat := min w (w - a % w)
def secondUnit (w a : Nat) : Option Nat := if a % w = 0 then none else some (((a / w + 1) * w) % 2 ^ 64)

/-- One micro-step's checks of R230 on one unit of each strand: a trap of that step, or the translations. -/
def Env.unitCheck (e : Env) (r : Req) (step : Nat) (ps : List Part) : Except TrapInfo (List (Part × Walk)) :=
  match e.check r ps with
  | .error t => .error { t with step := step }
  | .ok ts => .ok ts

/-- The .pi forms add W to their s-register base. -/
def piWrite (x : MF) (e : Env) : List RegWrite :=
  [{ dst := .s (x.base.toNat - 128), val := e.read { f := x.base, w := .w64, base := true } e.lead + BitVec.ofNat 64 (mBytes x) }]

/-- The steps of LGM from the first units of its strands on: step 1 checks the first unit of each strand, step 2 the second, step 3 makes the
accesses of the strands whose pages are all there; the others park, and the base of a .pi form is written once no strand is left (R279, R280, R383;
DEDUCED, assumption 44: what R279 says of a park it says of the strands that park). -/
def lgmSteps (i : Instr) (x : MF) (store pi : Bool) (e : Env) (one : List Part) : Res :=
  let w := mBytes x
  let r : Req := { rd := !store, wr := store, whole := true, steps := false, kind := .discard }
  match e.unitCheck r 1 one with
  | .error t => .trap t
  | .ok t1 =>
    let out1 := (missing t1).map (fun m => m.1.strand)
    let two : List Part := one.filterMap (fun p => if out1.contains p.strand then none else (secondUnit w p.pa).map (fun u =>
      ({ strand := p.strand, pa := u, val := if store then BitVec.ushiftRight p.val (8 * firstBytes w p.pa) else (0 : BitVec 128) } : Part)))
    match e.unitCheck r 2 two with
    | .error t => .trap t
    | .ok t2 =>
      let ms := missing t1 ++ missing t2
      let out := ms.map (fun m => m.1.strand)
      let s1 := (e.s.cacheAll e.g.gcore e.g.ctx t1).cacheAll e.g.gcore e.g.ctx t2
      let f1 := (found t1).filter (fun p => !out.contains p.strand)
      let f2 := (found t2).filter (fun p => !out.contains p.strand)
      let first (st : Nat) : Nat := firstBytes w (((one.find? (fun p => p.strand == st)).map Part.pa).getD 0)
      let base (k : FlightKind) (ps : List Part) : Flight := { e.flight k false ps with queue := some 0 }
      let d : Reg := if pi && x.d == x.base then 255#8 else x.d
      let fs := if store then
          f1.flatMap (fun p => base (.store (first p.strand)) [p] ::
            (f2.filter (fun q => q.strand == p.strand)).map (fun q => base (.store (w - first q.strand)) [q]))
        else f1.map (fun p => base (.ldx w (first p.strand) x.sgn d) (p :: f2.filter (fun q => q.strand == p.strand)))
      let s2 := s1.launchAll fs
      if ms.isEmpty then .ok { st := s2, writes := if pi then piWrite x e else [] }
      else .ok { st := s2.park e.g i (if store then 8 else 0) e.lead e.nc ms (one.filter (fun p => out.contains p.strand)) }
/-- LGM: step 0 reads the operands and forms the addresses. -/
def lgmSem (i : Instr) (x : MF) (store pi : Bool) : Sem where
  op e :=
    if e.parts.isEmpty then e.nothing
    else if e.poisoned ((if store then [dataSrc x] else []) ++ genSrcs e x) then .trap { cause := causePoison, step := 0 }
    else lgmSteps i x store pi e (e.parts.map (fun k => { strand := k, pa := e.genAddr x k, val := if store then e.data x.d (mBytes x) k else 0 }))
/-- What a parked LGM does again for the strands that wait (R383, R385). -/
def lgmAgain (i : Instr) (e : Env) (parts : List Part) : Option Res :=
  match i with
  | .ldx _ x => some (lgmSteps i x false false e parts)
  | .stx _ x => some (lgmSteps i x true false e parts)
  | .ldxPi _ x => some (lgmSteps i x false true e parts)
  | .stxPi _ x => some (lgmSteps i x true true e parts)
  | _ => none

def semLdx (h : Hd) (x : MF) : Sem := lgmSem (.ldx h x) x false false
def execLdx (h : Hd) (x : MF) (s : State) := run (.ldx h x) (semLdx h x) s
def semStx (h : Hd) (x : MF) : Sem := lgmSem (.stx h x) x true false
def execStx (h : Hd) (x : MF) (s : State) := run (.stx h x) (semStx h x) s
def semLdxPi (h : Hd) (x : MF) : Sem := lgmSem (.ldxPi h x) x false true
def execLdxPi (h : Hd) (x : MF) (s : State) := run (.ldxPi h x) (semLdxPi h x) s
def semStxPi (h : Hd) (x : MF) : Sem := lgmSem (.stxPi h x) x true true
def execStxPi (h : Hd) (x : MF) (s : State) := run (.stxPi h x) (semStxPi h x) s

def semBrx (_ : Hd) (x : RF) : Sem where
  op e :=
    let a : Src := { f := x.a, w := .w64, base := true }
    if !e.acts then e.nothing
    else if e.srcPoison a e.lead then .trap { cause := causePoison }
    else match checkTarget (e.uniform a) with
      | some t => .trap { t with step := 1 }
      | none => .ok { st := e.s, next := some (e.uniform a) }
def execBrx (h : Hd) (x : RF) (s : State) := run (.brx h x) (semBrx h x) s

def semAtmx (_ : Hd) (x : RF) : Sem where
  op e :=
    let a : Src := { f := x.a, base := true }
    let old := e.g.ctl.active
    let new := (e.uniform a).setWidth 32 &&& e.g.ctl.nmask
    if !e.acts then e.nothing
    else if e.srcPoison a e.lead then .trap { cause := causePoison }
    else if new == 0 then .trap { cause := causeIllegal, step := 2 }
    else
      let who := (List.range 32).filter (fun i => old.getLsbD i)
      .ok { st := e.s.modCtl e.g.uid (fun c => { c with active := new })
            writes := (who.map (fun i => dstRegs false false (who.headD 0) x.d .w32 i (old.setWidth 128))).flatten }
def execAtmx (h : Hd) (x : RF) (s : State) := run (.atmx h x) (semAtmx h x) s

end Sys2Proof.Machine
end

