-- ==== Sys2Proof/Machine/Regs.lean ====
section
/-! DEFINITION. The device register space (R8, R83, R339): who may write which block (R338, R391 to R393), reset values, plain
fields, format windows (R148) and what a read returns; and the privileged registers and PRIV (R278, R335 to R340). -/

namespace Sys2Proof.Machine

/-! ## Plain registers -/

/-- Reset values that are not zero (R113, R354, R404, R436). -/
def regReset (a : Nat) : Word64 :=
  if tenantReg 0 ≤ a && a < tenantReg 64 then 0x100
  else if worldBlock 0 ≤ a && a < worldBlock 64 then (if a % 16 = 0 then 1000000 else 0)
  else if a = timeBlock + 0x40 then BitVec.ofNat 64 (37 * 2 ^ 24)
  else if a = powerBlock then 1500
  else 0
def State.rd (s : State) (a : Nat) : Word64 := s.reg a (regReset a)

/-- A mask of bits hi to lo. -/
def bitMask (hi lo : Nat) : Word64 := BitVec.ofNat 64 ((2 ^ (hi + 1 - lo) - 1) * 2 ^ lo)
/-- A write sets the bits of a mask and leaves the others (R8). -/
def State.setBits (s : State) (a : Nat) (mask v : Word64) : State := s.setReg a ((s.rd a &&& ~~~mask) ||| (v &&& mask))

/-- The function that a queue or context is given to (R392): 0 or a virtual function, and the port. -/
def State.assigned (s : State) (off : Nat) : Nat × Nat := let w := s.reg (assignBlock + off); (bits64 w 5 0, bits64 w 6 6)
/-- The virtual function that owns a context, if one does (R354, R392). -/
def State.vfOf (s : State) (ctx : Nat) : Option Nat :=
  let a := s.assigned (0x1000 + 4 * ctx)
  if a.1 = 0 then none else some (32 * a.2 + a.1 - 1)
/-- Launches of the context are admitted, its gangs placed and its instructions issued: its function is not switched out (R347, R353). -/
def State.admits (s : State) (ctx : Nat) : Bool :=
  match s.vfOf ctx with
  | none => true
  | some v => !NSet.has s.worlds.stopped v
def queueOf (a : Nat) : Option Nat := if queueBlock 0 ≤ a && a < queueBlock 1024 then some ((a - queueBlock 0) / 0x40) else none
def ctxOf (a : Nat) : Option Nat := if ctxBlock 0 ≤ a && a < ctxBlock 1024 then some ((a - ctxBlock 0) / 0x80) else none
/-! ## Queues (R358) -/

def State.qReg (s : State) (q off : Nat) : Word64 := s.reg (queueBlock q + off)
def State.qCtx (s : State) (q : Nat) : Nat := bits64 (s.qReg q 8) 17 8
def State.wptr (s : State) (q : Nat) : Word32 := (s.qReg q 0x10).setWidth 32
/-- The queue is pending. -/
def State.qPending (s : State) (q : Nat) : Bool :=
  (s.qReg q 8).getLsbD 19 && !(s.queue q).error && s.wptr q != (s.queue q).rptr
/-- The wait is that of a packet that has been taken. -/
def QWait.taken (w : QWait) : Bool :=
  match w with
  | .flag .. => true
  | .mem .. => true
  | _ => false

def mcOf (a : Nat) : Option Nat := if mcBlock 0 ≤ a && a < mcBlock 32 then some ((a - mcBlock 0) / 0x1000) else none

/-- Does a party reach a register (R338, R391, R393)? Fabric windows and exports are firmware's alone (R406). -/
def State.reaches (s : State) (who : Who) (a : Nat) : Bool :=
  match who with
  | .fw => isDevReg a
  | .pf _ => isDevReg a && !(fabricBlock ≤ a && a < fabricBlock + 0x100000)
  | .vf port i =>
    (match queueOf a with | some q => s.assigned (4 * q) == (i, port) | none => false) ||
    (match ctxOf a with | some c => s.assigned (0x1000 + 4 * c) == (i, port) | none => false)
  | .gang c => (mcOf a).isSome && (s.ctx c).memset
/-- The fields that are read-only through a virtual function. -/
def Who.isVf (w : Who) : Bool := match w with | .vf .. => true | _ => false

/-! ## Guards and freezing (R395, R396) -/

def Who.port (w : Who) : Option Nat :=
  match w with
  | .pf p => some p
  | .vf p _ => some p
  | _ => none

/-- The owner of a semaphore: 0 for none, else the port and one. -/
def State.semOwner (s : State) (k : Nat) : Nat := SMap.get s.sems k 0
def guardReg (g : Nat) : Nat := semBlock + 0x400 + 16 * g
/-- The address lies in an enabled range whose semaphore the other port owns. -/
def State.guarded (s : State) (port a : Nat) : Bool :=
  (List.range 64).any (fun g =>
    let w := s.reg (guardReg g)
    w.getLsbD 6 && bits64 w 51 12 ≤ a / 4096 && a / 4096 ≤ bits64 (s.reg (guardReg g + 8)) 51 12 && s.semOwner (bits64 w 5 0) == 2 - port)
def State.hostPort (s : State) (port : Nat) : HostPort := SMap.get s.hosts port {}
/-- The device takes requests of a port: it has come up, and the port is not frozen (R396, R430). -/
def State.portOpen (s : State) (port : Nat) : Bool := s.boot.ready && !(s.hostPort port).frz && port < 2
/-- A write of a port is discarded and freezes it. -/
def State.freezePort (s : State) (port a : Nat) : State :=
  { s with hosts := SMap.set s.hosts port { s.hostPort port with frz := true, addr := a / 4096, at_ := s.clock.el } }

/-- A write of a register is performed. -/
def State.mayWrite (s : State) (who : Who) (a : Nat) : Bool :=
  s.reaches who a && (match Who.port who with
    | some p => s.portOpen p && !s.guarded p a
    | none => true)
/-- What becomes of a write that is not: it freezes its port, if a guard stopped it, whether or not a physical function may write the register. -/
def State.turnAway (s : State) (who : Who) (a : Nat) : State :=
  match Who.port who with
  | some p => if (s.reaches who a || !Who.isVf who) && s.portOpen p && s.guarded p a then s.freezePort p a else s
  | none => s
/-- A port reads: it is open, or, before the device has come up, it reads the boot status (R430). -/
def State.portReads (s : State) (p a : Nat) : Bool := s.portOpen p || (p < 2 && !(s.hostPort p).frz && !s.power.tripped && a == bootBlock)
/-- A party reads a register. -/
def State.mayRead (s : State) (who : Who) (a : Nat) : Bool := s.reaches who a && (Who.port who).all (fun p => s.portReads p a)
/-- A party's write of a register. -/
def State.writeBy (s : State) (who : Who) (a : Nat) (act : State → State) : State := if s.mayWrite who a then act s else s.turnAway who a

/-! ## Format windows (R148) -/

def windowWord (mc n k : Nat) : Nat := mcBlock mc + 0x100 + 32 * n + 8 * k

/-- View and stored ranges of a window's registers: base and length of each. -/
def windowRanges (w0 w1 w2 w3 : Word64) : (Nat × Nat) × (Nat × Nat) :=
  let vb := bits64 w0 51 16 * 65536
  let vn := (bits64 w1 51 16 + 1) * 65536 - vb
  let m := [2, 4, 7].getD (bits64 w3 1 0) 2
  let w := if w3.getLsbD 2 then 4 else 2
  ((vb, vn), (bits64 w2 51 6 * 64, vn * bxBytes m / (16 * w)))

def overlaps (a b : Nat × Nat) : Bool := a.1 < b.1 + b.2 && b.1 < a.1 + a.2

/-- May window n of a controller be enabled with the control word w3? -/
def State.windowOk (s : State) (mc n : Nat) (w3 : Word64) : Bool :=
  let word (n k : Nat) : Word64 := s.reg (windowWord mc n k)
  let r := windowRanges (word n 0) (word n 1) (word n 2) w3
  bits64 (word n 0) 51 16 ≤ bits64 (word n 1) 51 16 && bits64 w3 1 0 != 3 &&
  r.1.1 + r.1.2 ≤ 2 ^ 40 && r.2.1 + r.2.2 ≤ 2 ^ 40 && !overlaps r.1 r.2 &&
  (List.range 16).all (fun k =>
    if k == n || !(word k 3).getLsbD 3 then true
    else
      let q := windowRanges (word k 0) (word k 1) (word k 2) (word k 3)
      !overlaps r.1 q.1 && !overlaps r.1 q.2 && !overlaps r.2 q.1 && !overlaps r.2 q.2)

/-- The view range of an enabled window. -/
def State.windowSpan (s : State) (mc n : Nat) : Option (Nat × Nat) :=
  if (s.reg (windowWord mc n 3)).getLsbD 3 then
    some (bits64 (s.reg (windowWord mc n 0)) 51 16 * 65536, (bits64 (s.reg (windowWord mc n 1)) 51 16 + 1) * 65536)
  else none
/-- Lines of a view range that are still resident when its window changes become unpredictable, with their copies; the dirty ones keep the windows
concerned (R148). -/
def State.windowStale (s : State) (past : Nat → List (Nat × Nat × Fmt × Nat)) (r : Nat × Nat) : State :=
  let hit (line : Nat) : Bool := r.1 ≤ 128 * line && 128 * line < r.2
  if s.slices.any (fun h => h.2.lines.any (fun l => hit l.2.line)) then
    { s with
      draw := s.draw + 1
      slices := s.slices.map (fun (h : Nat × Slice) => (h.1, { h.2 with lines := h.2.lines.map (fun (l : Nat × L2Line) =>
        if hit l.2.line then (l.1, { l.2 with
          data := setDataBytes 0 0 (s.freeBytes (128 * l.2.line) 128)
          past := if l.2.dirty = 0 then [] else (l.2.past ++ past (128 * l.2.line)).eraseDups }) else l) }))
      cores := s.cores.map (fun (c : Nat × Core) => (c.1, { c.2 with l1 := c.2.l1.map (fun (l : Nat × L1Line) =>
        if hit l.2.line then (l.1, { l.2 with spoilt := BitVec.allOnes 32 }) else l) })) }
  else s
/-- A write of a window's registers: the view ranges that it changes are those before and after it. -/
def State.windowChange (s : State) (mc n : Nat) (act : State → State) : State :=
  let t := act s
  if s.windowWords mc n == t.windowWords mc n then t else 
    ((s.windowSpan mc n).toList ++ (t.windowSpan mc n).toList).foldl (fun st r => st.windowStale (fun pa => (s.windowAt mc n pa).toList ++ (t.windowAt mc n pa).toList) r) t

/-- A write of the control word of a window. A reserved sfmt is ignored, and refuses an enabling (R7). DESIGN CHOICE (assumption 45): a refused
enabling of a window that is enabled turns it off. -/
def State.windowControl (s : State) (mc n : Nat) (v : Word64) : State :=
  let old := s.reg (windowWord mc n 3)
  let fields := if bits64 v 1 0 = 3 then (v &&& 4) ||| (old &&& 3) else v &&& 7
  s.windowChange mc n (fun st =>
    if v.getLsbD 3 then st.setReg (windowWord mc n 3) (if st.windowOk mc n (v &&& 7) then fields ||| 8 else fields ||| 16)
    else st.setReg (windowWord mc n 3) (fields ||| (old &&& 16)))

/-- A write in a memory controller's block. -/
def State.mcWrite (s : State) (a : Nat) (v : Word64) : State :=
  match mcOf a with
  | none => s
  | some mc =>
    let off := a - mcBlock mc
    if 0x100 ≤ off && off < 0x300 then
      let n := (off - 0x100) / 32
      match (off - 0x100) % 32 with
      | 0 => s.windowChange mc n (fun st => st.setBits a (bitMask 51 16) v)
      | 8 => s.windowChange mc n (fun st => st.setBits a (bitMask 51 16) v)
      | 16 => s.windowChange mc n (fun st => st.setBits a (bitMask 51 6) v)
      | 24 => s.windowControl mc n v
      | _ => s
    else s

/-- FORMAT_WINDOW_ENABLE. -/
def execFormatWindowEnable (who : Who) (mc n : Nat) (v : BitVec 64) (s : State) : Host.Outcome State Fault Refusal :=
  if mc < 32 && n < 16 then .next (s.writeBy who (windowWord mc n 3) (fun st => st.windowControl mc n v)) else .next s

/-! ## Tenant control registers (R113) -/

/-- What a read of a tenant's register returns. -/
def State.tenantValue (s : State) (t : Nat) : Word64 :=
  (s.rd (tenantReg t) &&& 0x3F0) ||| BitVec.ofNat 64 (s.score t + SMap.get s.fails t 0 * 2 ^ 16)
/-- A read clears the failures. -/
def State.tenantRead (s : State) (t : Nat) : State := { s with fails := SMap.set s.fails t 0 }
def State.tenantWrite (s : State) (t : Nat) (v : Word64) : State :=
  let cap := bits64 v 8 4
  s.setBits (tenantReg t) (if cap = 0 || 16 < cap then 0x200 else 0x3F0) v

/-- TENANT_FAILS_READ. A gang reaches only the register of its own tenant (R338). -/
def execTenantFailsRead (who : Who) (t : Nat) (s : State) : Host.Outcome State Fault Refusal :=
  match who with
  | .gang c => .next (if s.tenantOf c = t then s.tenantRead t else s)
  | _ => .next (if t < 64 && s.mayRead who (tenantReg t) then s.tenantRead t else s)

/-! ## Privileged registers (R335 to R340) -/

/-- schctl of a core: vres and the pinned slots. -/
def State.schctl (s : State) (gcore : Nat) : Word64 :=
  BitVec.ofNat 64 (s.vres gcore + ((List.range 8).map (fun k => if (s.pinReg gcore k).getLsbD 31 then 2 ^ (4 + k) else 0)).sum)

def State.ctxid (s : State) (c : Nat) : Word64 :=
  let a := s.assigned (0x1000 + 4 * c)
  BitVec.ofNat 64 (c + s.tenantOf c * 2 ^ 10 + a.1 * 2 ^ 16 + a.2 * 2 ^ 22)

/-- What PRIV on rbd may reach (R338). -/
inductive RbdTarget where
  | mc (a : Nat)
  | tenant (t : Nat)
  | none
  deriving DecidableEq, Repr
def State.rbdTarget (s : State) (g : Gang) : RbdTarget :=
  let a := g.spec.rba.toNat
  if a % 8 != 0 then .none
  else if (mcOf a).isSome && (s.ctx g.ctx).memset then .mc a
  else if a = tenantReg (s.tenantOf g.ctx) then .tenant (s.tenantOf g.ctx)
  else .none

/-- The value of privileged register n, if it is assigned; rbd is read by the caller. -/
def State.privReg (s : State) (g : Gang) (n : Nat) : Option Word64 :=
  let t := g.ctl.trap
  let c := s.ctx g.ctx
  match n with
  | 0 => some t.tinfo
  | 1 => some t.tpc
  | 2 => some t.tiaddr
  | 3 => some t.taddr
  | 4 => some (t.tmask.setWidth 64)
  | 5 => some (t.tact.setWidth 64)
  | 8 => some c.tvec
  | 9 => some (s.ctxid g.ctx)
  | 10 => some (BitVec.ofNat 64 ((if c.ilk then 1 else 0) + (if c.memset then 2 else 0) + c.tag.toNat * 2 ^ 16))
  | 11 => some g.spec.rba
  | 12 => some 0
  | 16 => some (s.schctl g.gcore)
  | _ => if 20 ≤ n && n < 24 then some (SMap.get g.spec.ksc (n - 20) 0) else none

/-- PRIV at user level raises the protection trap; otherwise it acts under its guard. -/
def privSem (act : Env → Res) : Sem where
  op e :=
    if !e.acts then e.nothing
    else if e.g.ctl.tdepth = 0 then .trap { cause := causeProtection }
    else act e

def semPrivMfp (_ : Hd) (x : RF) : Sem :=
  privSem (fun e =>
    let n := x.a.toNat
    let w := wPriv x.a
    if n = 12 then
      match e.s.rbdTarget e.g with
      | .none => .trap { cause := causeProtection }
      | .mc a => .ok { st := e.s, writes := e.dstWide x.d w ((e.s.reg a).setWidth 128) }
      | .tenant t => .ok { st := e.s.tenantRead t, writes := e.dstWide x.d w ((e.s.tenantValue t).setWidth 128) }
    else match e.s.privReg e.g n with
      | none => .trap { cause := causeIllegal }
      | some v => .ok { st := e.s, writes := e.dstWide x.d w (v.setWidth 128) })
def execPrivMfp (h : Hd) (x : RF) (s : State) := run (.privMfp h x) (semPrivMfp h x) s

/-- A write of a read-only register is ignored; of a firmware-only one, it raises the protection trap. -/
def semPrivMtp (_ : Hd) (x : RF) : Sem :=
  privSem (fun e =>
    let n := x.a.toNat
    let b : Src := { f := x.b, w := wPriv x.a, base := true }
    let v := e.uniform b
    let spec (f : Spec → Spec) : Res := .ok { st := e.s.modGang e.g.uid (fun g => { g with spec := f g.spec }) }
    if (e.s.privReg e.g n).isNone then .trap { cause := causeIllegal }
    else if e.srcPoison b e.lead then .trap { cause := causePoison }
    else if n = 8 || n = 10 || n = 16 then .trap { cause := causeProtection }
    else if n = 1 then
      if bits64 v 63 56 != 0 || bits64 v 2 0 != 0 then .trap { cause := causeProtection }
      else .ok { st := e.s.modCtl e.g.uid (fun c => { c with trap := { c.trap with tpc := v } }) }
    else if n = 11 then spec (fun p => { p with rba := v })
    else if n = 12 then
      match e.s.rbdTarget e.g with
      | .mc a => .ok { st := e.s.mcWrite a v }
      | _ => .trap { cause := causeProtection }
    else if 20 ≤ n then spec (fun p => { p with ksc := SMap.set p.ksc (n - 20) v })
    else e.nothing)
def execPrivMtp (h : Hd) (x : RF) (s : State) := run (.privMtp h x) (semPrivMtp h x) s

/-- The operations of a context that a shootdown waits for: those that passed their checks before it (R93). -/
def State.shotFlights (s : State) (ctx : Nat) : List Nat :=
  (s.flights.filter (fun f => f.ctx == ctx && (match f.kind with
    | .load .. => true | .ldx .. => true | .store _ => true | .atomic .. => true | .spadLoad .. => true | .spadStore _ => true
    | .spadAtomic .. => true | .join _ => true | .resolve .. => true | .poll _ => true | .discard => true | .maintain op => op < 16
    | .watch _ => true | _ => false))).map Flight.id

/-- Those of them that a shootdown by a gang waits for: not a release of its own that waits for this handler's return (R129). -/
def State.shotBy (s : State) (g : Gang) : List Nat :=
  (s.shotFlights g.ctx).filter (fun id => !s.flights.any (fun f => f.id == id && f.shelved && f.uid == some g.uid))

/-- PRIV.INVAL (R278, R382). DESIGN CHOICE (assumption 115): a base that is misaligned or beyond the address space traps with a count of 0 too. -/
def semPrivInval (_ : Hd) (x : RF) : Sem :=
  privSem (fun e =>
    let a : Src := { f := x.a, w := .w64, base := true }
    let b : Src := { f := x.b, base := true }
    let va := (e.uniform a).toNat
    let n := bits64 (e.uniform b) 31 0
    let size := pageBytes (x.mod.toNat / 16)
    if e.srcPoison a e.lead || e.srcPoison b e.lead then .trap { cause := causePoison }
    else if va % size != 0 then .trap { cause := causeMisaligned, taddr := e.uniform a }
    else if va + n * size > 2 ^ 56 then .trap { cause := causeProtection, taddr := e.uniform a }
    else if n = 0 then e.nothing
    else .ok { st := (e.s.shootdown e.g.ctx va (n * size)).modGang e.g.uid (fun g =>
      { g with iss := { g.iss with block := g.iss.block ++ e.s.shotBy e.g } }) })
def execPrivInval (h : Hd) (x : RF) (s : State) := run (.privInval h x) (semPrivInval h x) s

/-- A scheduler write reaches its gang (R68): ib returns to the pool, and the gang yields at its next attempt, which a pause does not delay (R207). -/
def State.reclaim (s : State) (uid : Nat) : State :=
  match s.gang? uid with
  | none => s
  | some g =>
    if g.inSlot && !g.iss.exiting then
      (s.refund g.ctx g.spec.ib.toNat 0).modGang uid (fun g => { g with spec := { g.spec with ib := 0 }, iss := { g.iss with reclaim := true, pauseTo := none } })
    else s

/-- PRIV is serialising: the gang waits until its scheduler write has been delivered, which is the effect (R278). -/
def semPrivYreq (_ : Hd) (x : RF) : Sem :=
  privSem (fun e =>
    let a : Src := { f := x.a, base := true }
    let v := bits64 (e.uniform a) 31 0
    let hit := if v / 2 ^ 12 != 0 then none
      else e.s.gangs.find? (fun g => g.inSlot && g.ctx == e.g.ctx && g.slot == field v 3 0 && g.core == field v 8 4 && g.cluster == field v 11 9)
    let ws (k : Nat) : List RegWrite := e.dstWide x.d .w32 (BitVec.ofNat 128 k)
    if e.srcPoison a e.lead then .trap { cause := causePoison }
    else match hit with
      | none => .ok { st := e.s, writes := ws 0 }
      | some g =>
        if g.uid = e.g.uid then .ok { st := if e.s.replaying g.ctx then e.s else e.s.reclaim g.uid, writes := ws 1 }
        else
          let f : Flight := { id := 0, uid := none, ctx := g.ctx, core := g.gcore, queue := none, kind := .sched g.uid }
          .ok { st := e.s.launchBlocking e.g.uid f, writes := ws 1 })
def execPrivYreq (h : Hd) (x : RF) (s : State) := run (.privYreq h x) (semPrivYreq h x) s

/-- SCHEDULER_WRITE_DELIVERY. -/
def execSchedulerWriteDelivery (n : Nat) (s : State) : Host.Outcome State Fault Refusal :=
  match s.flights.find? (fun f => f.id == n) with
  | none => .next s
  | some f =>
    if !s.enabled f then .next s
    else match f.kind with
      | .sched target =>
        match s.gang? target with
        | none => .next (s.dropFlight n)
        | some g =>
          let waits := g.iss.stopped || (match g.loc with | .held _ => true | _ => false)
          if waits then .next s else .next ((if s.replaying g.ctx then s else s.reclaim target).dropFlight n)
      | _ => .next s

end Sys2Proof.Machine
end

