-- ==== Sys2Proof/Machine/Bins.lean ====
section
/-! DEFINITION. Bins and records (R42 to R47, R254, R365, R438): room and its reservation, appending, triggers, and the forming of
launches. -/

namespace Sys2Proof.Machine

/-! ## Fields of a node table entry (R42) -/

def Node.valid (n : Node) : Bool := n.res.getLsbD 63
def Node.timer (n : Node) : Nat := bits64 n.shape 31 0
def Node.coal (n : Node) : Nat := bits64 n.shape 36 32 + 1
def Node.recw (n : Node) : Nat := bits64 n.shape 40 37 + 1
def Node.prio (n : Node) : Nat := bits64 n.shape 44 41
def Node.home (n : Node) : Nat := bits64 n.shape 47 45
def Node.aff (n : Node) : Nat := bits64 n.shape 52 48
def Node.affv (n : Node) : Bool := n.shape.getLsbD 53
def Node.flags (n : Node) : Nat := bits64 n.res 31 25
def Node.ibdef (n : Node) : Nat := bits64 n.bud 31 0
def Node.tbdef (n : Node) : Nat := bits64 n.bud 63 32

/-! ## Room (R45, R254) -/

def State.bin (s : State) (ctx node : Nat) : Bin := SMap.get (s.ctx ctx).bins node {}
def State.modBin (s : State) (ctx node : Nat) (f : Bin → Bin) : State :=
  s.modCtx ctx (fun c => { c with bins := SMap.upd c.bins node {} f })
def State.modNode (s : State) (ctx node : Nat) (f : Node → Node) : State :=
  s.modCtx ctx (fun c => { c with nodes := SMap.upd c.nodes node {} f })

/-- Records that stand in a bin: waiting ones, those of formed launches, and room reserved. -/
def Bin.held (b : Bin) : Nat := b.recs.length + (b.formed.map (fun f => f.recs.length)).sum
def Bin.room (b : Bin) : Nat := Config.binRoom - (b.held + b.reserved)
/-- Room in the overflow area, in records. -/
def State.overRoom (s : State) (ctx : Nat) : Nat :=
  let c := s.ctx ctx
  bits64 (s.reg (ctxBlock ctx + 0x10)) 31 0 - (c.ovr.length + (c.overRes.map Prod.snd).sum)
/-- Records of the bin lie in the overflow area, or will. -/
def State.spills (s : State) (ctx node : Nat) : Bool :=
  (s.ctx ctx).ovr.any (fun r => r.1 == node) || (s.ctx ctx).overRes.any (fun r => r.1 == node)

/-- How many of n records the bin itself takes, if bin and overflow area together take them all. -/
def State.roomFor (s : State) (ctx node n : Nat) : Option Nat :=
  let k := if s.spills ctx node then 0 else min n (s.bin ctx node).room
  if n - k ≤ s.overRoom ctx then some k else none

/-- Room is reserved for a run, k of its records in the bin (R254). -/
def State.reserve (s : State) (ctx node k n : Nat) : State :=
  let s1 := s.modBin ctx node (fun b => { b with reserved := b.reserved + k })
  if n = k then s1 else s1.modCtx ctx (fun c => { c with overRes := c.overRes ++ [(node, n - k)] })

/-! ## Appending (R44, R45) -/

/-- A record enters the bin at a time; a launch counts its own records there (R365). -/
def State.enterBin (s : State) (ctx node : Nat) (r : Record) : State :=
  let s1 := s.modBin ctx node (fun b => { b with recs := b.recs ++ [r] })
  if r.src == 2 then
    { s1 with launches := s1.launches.map (fun l => if some l.id == r.launch then { l with appended := l.appended + 1 } else l) }
  else s1

/-- A record goes to the overflow area: its 64 bytes to the next place of the circular buffer, by the HOST path (R45, R439). -/
def State.spill (s : State) (ctx node : Nat) (r : Record) : State :=
  let base := bits64 (s.reg (ctxBlock ctx + 8)) 51 6 * 64
  let size := bits64 (s.reg (ctxBlock ctx + 0x10)) 31 0
  let s1 := s.pathWrite .host s.next (base + 64 * ((s.ctx ctx).ovw % size)) ((List.range 64).map (Config.overImage r.words)) false { tenant := s.tenantOf ctx }
  (s1.modCtx ctx (fun c => { c with ovr := c.ovr ++ [(node, r)], ovw := c.ovw + 1 })).sliceCount (homeSlice base) 8 (s.tenantOf ctx) none
/-- Records arrive: the first k enter the bin, the rest the overflow area. Their arrival time is now (R254, R257). -/
def State.appendRecs (s : State) (ctx node k : Nat) (rs : List Record) : State :=
  let now := rs.map (fun r => { r with time := s.clock.t, elapsed := s.clock.el })
  let s1 := (now.take k).foldl (fun st r => st.enterBin ctx node r) s
  (now.drop k).foldl (fun st r => st.spill ctx node r) s1

/-! ## Forming launches (R44, R46, R365) -/

/-- Forms one launch of the given records of a bin, oldest first. -/
def State.form (s : State) (ctx node : Nat) (pick : Record → Bool) (n : Nat) : State :=
  let b := s.bin ctx node
  let nd := s.nodeOf ctx node
  let taken := (b.recs.filter pick).take n
  let rest := (b.recs.foldl (fun (acc : List Record × Nat) r =>
    if pick r && acc.2 > 0 then (acc.1, acc.2 - 1) else (acc.1 ++ [r], acc.2)) ([], n)).1
  match taken with
  | [] => s
  | r :: _ =>
    let l := if r.marked then s.launches.find? (fun l => some l.id == r.launch) else none
    let f : Formed := { fid := s.next, recs := taken, gid := BitVec.ofNat 32 nd.formed, at_ := s.clock.t, launch := r.launch
                        index := (l.map (fun x => x.formed)).getD 0 }
    let s1 : State := { s with
      next := s.next + 1
      launches := s.launches.map (fun (x : Launch) =>
        { x with formed := if r.marked && some x.id == r.launch then x.formed + 1 else x.formed
                 gangs := if taken.any (fun q => q.launch == some x.id) then x.gangs + 1 else x.gangs }) }
    (s1.modBin ctx node (fun b => { b with recs := rest, formed := b.formed ++ [f] })).modNode ctx node (fun x => { x with formed := x.formed + 1 })

/-- The wait of the oldest unmarked record has reached the node's timer (R44, R403). -/
def State.timerDue (s : State) (ctx node : Nat) : Bool :=
  let nd := s.nodeOf ctx node
  match (s.bin ctx node).recs.find? (fun r => !r.marked) with
  | some r => nd.timer != 0 && r.elapsed + nd.timer * 65536 ≤ s.clock.el
  | none => false

/-- The marked launches of which a bin holds records. -/
def Bin.markedLaunches (b : Bin) : List Nat := (b.recs.filterMap (fun r => if r.marked then r.launch else none)).eraseDups

/-- How many launches a marked launch can form now: C records at a time, and its rest once its last record is in the bin. -/
def State.markedTimes (s : State) (ctx node lid : Nat) : Nat :=
  let c := (s.nodeOf ctx node).coal
  let n := ((s.bin ctx node).recs.filter (fun r => r.marked && r.launch == some lid)).length
  n / c + (if s.launches.any (fun l => l.id == lid && l.appended == l.total) && n % c != 0 then 1 else 0)
/-- A marked launch forms what it can. -/
def State.formMarked (s : State) (ctx node lid : Nat) : State :=
  (List.range (s.markedTimes ctx node lid)).foldl (fun st _ =>
    st.form ctx node (fun r => r.marked && r.launch == some lid) (s.nodeOf ctx node).coal) s
/-- A trigger of the bin holds (R44). -/
def State.triggered (s : State) (ctx node : Nat) : Bool :=
  (s.bin ctx node).markedLaunches.any (fun l => s.markedTimes ctx node l != 0) ||
  (s.nodeOf ctx node).coal ≤ ((s.bin ctx node).recs.filter (fun r => !r.marked)).length || (s.timerDue ctx node && !s.replaying ctx)

/-- One cycle of a bin controller after its arrivals: triggers and forming. -/
def State.trigger (s : State) (ctx node : Nat) : State :=
  let s1 := (s.bin ctx node).markedLaunches.foldl (fun st l => st.formMarked ctx node l) s
  let c := (s1.nodeOf ctx node).coal
  let free := ((s1.bin ctx node).recs.filter (fun r => !r.marked)).length
  if free ≥ c then s1.form ctx node (fun r => !r.marked) c
  else if s1.timerDue ctx node && !s1.replaying ctx then (s1.muslin ctx 4 [node, free]).form ctx node (fun r => !r.marked) c
  else s1

/-- Records return from the overflow area in arrival order while the bin has room (R45, port 0 of R44). -/
def State.returnOver (s : State) (ctx node : Nat) : State :=
  let n := (s.bin ctx node).room
  let back := (((s.ctx ctx).ovr.filter (fun r => r.1 == node)).take n).map Prod.snd
  let left := ((s.ctx ctx).ovr.foldl (fun (acc : List (Nat × Record) × Nat) r =>
    if r.1 == node && acc.2 > 0 then (acc.1, acc.2 - 1) else (acc.1 ++ [r], acc.2)) ([], back.length)).1
  back.foldl (fun st r => st.enterBin ctx node r) (s.modCtx ctx (fun c => { c with ovr := left }))

/-! ## Records -/

/-- A record cut or padded to w words (R438). -/
def padWords (w : Nat) (ws : List Word32) : List Word32 := (List.range w).map (fun i => ws.getD i 0)

end Sys2Proof.Machine
end

