-- ==== Sys2Proof/Machine/Work.lean ====
section
/-! DEFINITION. Majors 0x5A to 0x5F: tiles, SPAWN, futures, record information and device time (R77, R94 to R98, R251 to R259), and what
becomes of a future at its home slice (R52, R53). -/

namespace Sys2Proof.Machine

/-! ## Tiles (R94 to R98, R251, R252) -/

/-- TDEF. The descriptor's next names an entry as a tile operand does. -/
def semTdef (_ : Hd) (x : RF) : Sem where
  op e :=
    let a : Src := { f := x.a, w := .w64, base := true }
    let k := e.tileIx x.d
    let v := e.uniform a
    let nx : Reg := BitVec.ofNat 8 (bits64 v 55 48)
    let base := bits64 v 17 8
    let size := bits64 v 27 18
    if !e.acts then e.nothing
    else if e.srcPoison a e.lead then .trap { cause := causePoison }
    else if 128 ≤ x.d.toNat || bits64 v 7 0 != 0 || bits64 v 63 57 != 0 || (base + size + 1) * 128 > e.g.spad || (e.tileAt k).state != 0
        || !e.tileNamed nx then .trap { cause := causeProtection }
    else
      let t : Tile := { state := 0, filler := 0, base := base, size := size, fmt := bits64 v 31 28, stride := bits64 v 47 32, next := e.tileIx nx
                        ring := v.getLsbD 56, defd := true, len := 0 }
      .ok { st := (e.s.modTile e.g.gcore k (fun _ => t)).setTstat e.g.uid (e.tstat k) }
def execTdef (h : Hd) (x : RF) (s : State) := run (.tdef h x) (semTdef h x) s

/-- A TACQ: the entry must be named and defined; the form waits for the state it requires. -/
def tacqSem (x : RF) (act : Env → Nat → Tile → Res) : Sem where
  op e :=
    let k := e.tileIx x.d
    let t := e.tileAt k
    if !e.acts then e.nothing
    else if !t.defd || !e.tileNamed x.d then .trap { cause := causeProtection }
    else act e k t

/-- The tile takes a new value, and tstat what the instruction saw. -/
def Env.tileTo (e : Env) (k : Nat) (f : Tile → Tile) : Res :=
  .ok { st := (e.s.modTile e.g.gcore k f).setTstat e.g.uid (e.tstat k) }

def semTacqOwn (_ : Hd) (x : RF) : Sem :=
  tacqSem x (fun e k t => if t.state != 0 then .wait e.s else e.tileTo k (fun t => { t with state := 1, filler := 1 }))
def execTacqOwn (h : Hd) (x : RF) (s : State) := run (.tacqOwn h x) (semTacqOwn h x) s

/-- Stores of the gang that have not reached the bytes of a tile yet, a queued ZST and a store that is not visible yet among them (R119, R128,
R289). -/
def Env.storesOut (e : Env) (k : Nat) (t : Tile) : Bool :=
  let lo := spadPa e.g.cluster (tileEa e.g.core k 0 t)
  (e.s.core e.g.gcore).recent.any (fun r => r.2.1 == e.g.uid && (e.s.core e.g.gcore).clk < r.1 && lo ≤ r.2.2.1 && r.2.2.1 < lo + t.bytes) ||
  (e.s.core e.g.gcore).mq.any (fun m => m.uid == e.g.uid && m.bEntry == k && (match m.instr with | .zst .. => true | _ => false)) ||
  (e.s.flightsOf e.g.uid).any (fun f => (match f.kind with | .spadStore _ => true | .spadAtomic .. => true | _ => false)
    && f.parts.any (fun p => lo ≤ p.pa + 15 && p.pa < lo + t.bytes))

def semTacqPub (_ : Hd) (x : RF) : Sem :=
  tacqSem x (fun e k t =>
    let a : Src := { f := x.a, base := true }
    let len := bits64 (e.uniform a) 17 0
    if e.srcPoison a e.lead then .trap { cause := causePoison }
    else if t.state == 1 && t.filler == 0 then .trap { cause := causeProtection }
    else if t.state != 1 then .wait e.s
    else if len > t.bytes then .trap { cause := causeProtection }
    else if e.storesOut k t then .wait e.s
    else ({ e with s := e.s.mergeSpad (spadPa e.g.cluster (tileEa e.g.core k 0 t)) t.bytes } : Env).tileTo k (fun t => { t with state := 2, len := len }))
def execTacqPub (h : Hd) (x : RF) (s : State) := run (.tacqPub h x) (semTacqPub h x) s

def semTacqRel (_ : Hd) (x : RF) : Sem :=
  tacqSem x (fun e k t => if t.state != 2 then .wait e.s else e.tileTo k (fun t => { t with state := 3 }))
def execTacqRel (h : Hd) (x : RF) (s : State) := run (.tacqRel h x) (semTacqRel h x) s

/-- The source tile of an engine command, if it has one. -/
def Cmd.source (c : Cmd) : Option Nat :=
  match c.kind with
  | .copy 2 _ _ _ _ _ _ _ stile _ => some stile
  | .strm true _ _ _ _ _ _ tile => some tile
  | .netx _ _ _ _ _ _ tile => some tile
  | _ => none

/-- Reads of a tile that were issued or accepted before it entered draining and have not ended. -/
def State.tileBusy (s : State) (core k : Nat) : Bool :=
  (s.core core).mq.any (fun m => (m.aLen != 0 && m.aEntry == k) || (m.bLen != 0 && m.bEntry == k))
  || s.cmds.any (fun c => 32 * c.cluster + c.core == core && c.taken && c.sent.isNone && c.source == some k)

/-- TILE_DRAIN_COMPLETE. -/
def execTileDrainComplete (core entry : Nat) (s : State) : Host.Outcome State Fault Refusal :=
  if (s.tile core entry).state == 3 && !s.tileBusy core entry && !(s.core core).frozen then .next (s.modTile core entry (fun t => { t with state := 0 })) else .next s

/-! ## SPAWN (R77, R253, R254) -/

/-- Grants, strand by strand: what each record takes, and the budget left. -/
def grants (n : Nat) (G T : Nat) (ib tb : Nat) : List (Nat × Nat) × Nat × Nat :=
  (List.range n).foldl (fun acc _ =>
    let gi := min G acc.2.1
    let gt := min T acc.2.2
    (acc.1 ++ [(gi, gt)], acc.2.1 - gi, acc.2.2 - gt)) ([], ib, tb)

/-- The record of a strand: w v-registers from D. -/
def Env.recordOf (e : Env) (d w i : Nat) : List Word32 := (List.range w).map (fun j => e.g.v i (d + j))

def spawnSem (x : IF) (one : Bool) : Sem where
  op e :=
    let node := x.imm.toNat % 65536
    let nd := e.s.nodeOf e.g.ctx node
    let d := x.d.toNat
    let w := nd.recw
    let who := if one then e.parts.take 1 else e.parts
    let a : Src := { f := x.a, w := .w64, base := true }
    if e.parts.isEmpty then e.nothing
    else if !nd.valid || d + w > 128 then .trap { cause := causeProtection }
    else if who.any (fun i => (List.range w).any (fun j => e.g.poisonV i (d + j))) || e.srcPoison a e.lead then .trap { cause := causePoison }
    else match e.releaseTrap with
      | some t => .trap t
      | none =>
        match e.s.roomFor e.g.ctx node who.length with
        | none => .trap { cause := causeBinOverflow }
        | some keep =>
          let amount : Word64 := if x.a == 255#8 then 0 else e.uniform a
          let gr := grants who.length (bits64 amount 31 0) (bits64 amount 63 32) e.g.spec.ib.toNat e.g.spec.tb.toNat
          let recs : List Record := (who.zip gr.1).map (fun p =>
            { words := e.recordOf d w p.1, time := 0, elapsed := 0, src := 0, granted := amount != 0, gi := p.2.1, gt := p.2.2
              launch := e.g.launch, topup := e.g.topup })
          let s1 := (e.s.reserve e.g.ctx node keep who.length).modGang e.g.uid (fun g => { g with
            spec := { g.spec with ib := BitVec.ofNat 32 gr.2.1, tb := BitVec.ofNat 32 gr.2.2 }
            iss := { g.iss with drained := gr.2.1 == 0 || gr.2.2 == 0 } })
          .ok { st := s1.launchBlocking e.g.uid (e.flight (.append 2 (16 * e.g.gcore + e.g.slot) node keep recs) true) }

def semSpawn (_ : Hd) (x : IF) : Sem := spawnSem x false
def execSpawn (h : Hd) (x : IF) (s : State) := run (.spawn h x) (semSpawn h x) s
def semSpawnOne (_ : Hd) (x : IF) : Sem := spawnSem x true
def execSpawnOne (h : Hd) (x : IF) (s : State) := run (.spawnOne h x) (semSpawnOne h x) s

/-! ## Futures (R52, R53, R255, R256) -/

def reqFut (write : Bool) : Req := { rd := true, wr := write, align := 8, dram := true, whole := true, atomic := true, kind := .discard }
def reqCell : Req := { wr := true, align := 32, dram := true, whole := true, atomic := true, kind := .discard }

/-- A FUT: each strand sends a request, and every form waits until all are answered (R255). Each part
carries its value in val and the future's virtual address in swap. -/
def futSem (i : Instr) (x : RF) (write rel cell : Bool) (srcs : List Src) (val : Env → Nat → Nat) (kind : FlightKind) : Sem where
  op e :=
    let a : Src := { f := x.a, w := .w64, base := true }
    let fut (i : Nat) : Part := { strand := i, pa := (e.read a i).toNat, val := BitVec.ofNat 128 (val e i), swap := e.read a i }
    let qs : List (Req × Part) := (e.parts.map (fun i =>
      (reqFut write, fut i) :: (if cell then [(reqCell, ({ strand := i, pa := val e i } : Part))] else []))).flatten
    if e.parts.isEmpty then e.nothing
    else if e.poisoned (a :: srcs) then .trap { cause := causePoison }
    else match e.checkMix qs with
      | .error t => .trap t
      | .ok ts =>
        match (if rel then e.releaseTrap else none) with
        | some t => .trap t
        | none =>
          let ms := missing ts
          let s1 := e.s.cacheAll e.g.gcore e.g.ctx ts
          if !ms.isEmpty then .ok { st := s1.park e.g i (16 + if write then 8 else 0) e.lead e.nc ms (e.parts.map fut) }
          else
            let fs := found ts
            let go := if cell then e.parts.map (fun i =>
                let mine := fs.filter (fun p => p.strand == i)
                { (mine.headD { strand := i, pa := 0 }) with val := BitVec.ofNat 128 ((mine.getD 1 { strand := i, pa := 0 }).pa) })
              else fs
            let fs : List Flight := go.map (fun p => { (({ e with s := s1 } : Env).flight kind rel [p]) with vliw := false })
            .ok { st := (s1.launchAll fs).modGang e.g.uid (fun x => { x with iss := { x.iss with
                    block := x.iss.block ++ (List.range fs.length).map (fun j => s1.next + j) } }) }

def semFutRes (h : Hd) (x : RF) : Sem :=
  let b : Src := { f := x.b, w := .w64 }
  futSem (.futRes h x) x true true false [b] (fun e i => bits64 (e.read b i) 47 0) (.resolve false x.d)
def execFutRes (h : Hd) (x : RF) (s : State) := run (.futRes h x) (semFutRes h x) s
def semFutPoison (h : Hd) (x : RF) : Sem := futSem (.futPoison h x) x true true false [] (fun _ _ => 0) (.resolve true x.d)
def execFutPoison (h : Hd) (x : RF) (s : State) := run (.futPoison h x) (semFutPoison h x) s
def semFutJoin (h : Hd) (x : RF) : Sem :=
  let b : Src := { f := x.b, w := .w64, base := true }
  futSem (.futJoin h x) x true false true [b] (fun e i => (e.read b i).toNat) (.join x.d)
def execFutJoin (h : Hd) (x : RF) (s : State) := run (.futJoin h x) (semFutJoin h x) s
def semFutPoll (h : Hd) (x : RF) : Sem := futSem (.futPoll h x) x false false false [] (fun _ _ => 0) (.poll x.d)
def execFutPoll (h : Hd) (x : RF) (s : State) := run (.futPoll h x) (semFutPoll h x) s

/-- States of a future word (R52). -/
def futState (w : Nat) : Nat := w / 2 ^ 62
def futBody (w : Nat) : Nat := w % 2 ^ 48
def futWord (st body : Nat) : Nat := st * 2 ^ 62 + body

/-- Join of R53: the new word, the status, and whether the cell is decremented and with poison. -/
def joinWord (w cell : Nat) : Nat × Nat × Option Bool :=
  match futState w with
  | 0 => (futWord 1 (cell / 32), 0, none)
  | 1 => (w, 1, none)
  | 2 => (w, 2, some false)
  | _ => (w, 3, some true)
/-- Resolve of R53: the new word, the status, and the cell to decrement. -/
def resolveWord (w v : Nat) (poison : Bool) : Nat × Nat × Option Nat :=
  let new := if poison then futWord 3 0 else futWord 2 (v % 2 ^ 48)
  match futState w with
  | 0 => (new, 0, none)
  | 1 => (new, 1, some (futBody w * 32))
  | _ => (w, 3, none)

/-- A decrement on its way to the cell's home slice. -/
def State.sendDec (s : State) (f : Flight) (cell : Nat) (poison : Bool) : State :=
  s.launchFlight { id := 0, uid := f.uid, ctx := f.ctx, core := f.core, queue := none, kind := .cell cell poison f.topup f.launch }

/-- A word of 8 bytes read as an atomic of a path reads it, and the state with the waiting writes of its line applied, of VEC and of that path. -/
def State.futureAt (s : State) (pa : Nat) (p : Path := .vec) : Nat × Bool × State :=
  let s1 := s.settleLine pa p
  let w := s1.homeWord pa 8
  (w.1, w.2, s1)

/-- An atomic that changes nothing reads at the home slice, and counts there (R105, R108). -/
def State.atomRead (s : State) (f : Flight) (pa n : Nat) : State :=
  let a := f.asker s
  let sg := s.slotGen f
  let s1 := (s.homeRead .vec pa n a).2.2
  let s2 := if f.nud < 15 && ((s1.core f.core).l1Line pa).all (fun l => l.valid &&& wordMask pa n != wordMask pa n) then
      s1.fill1 f.core sg.1 sg.2 a.tenant pa none else s1.refresh1 f.core pa n
  s2.stamp1 f.core sg.1 sg.2 a.tenant pa f.nud f.nc
/-- The write of a word, a future or a join cell by an atomic of f. -/
def State.atomWrite (s : State) (f : Flight) (pa : Nat) (bs : List Byte) : State :=
  ((s.homeWriteAll pa bs (f.asker s)).own f pa bs.length).ownCopy f pa bs.length
/-- An atomic of n bytes at pa acts once no other core owns what it writes (R120); until then its revocations are under way. -/
def State.atomOr (s : State) (f : Flight) (pa n : Nat) (writes : Bool) (act : State → State) : State :=
  let ws := if writes then s.foreign f.core pa n else []
  if ws.isEmpty then act s else s.sendRevokes f ws

/-- What a future operation of a gang does to it when it is answered: the acquire of R122, a double resolve. -/
def State.futAcquire (s : State) (f : Flight) : State :=
  match f.uid with
  | none => s
  | some u => s.acquire u
def State.futDouble (s : State) (f : Flight) (p : Part) : State :=
  match f.uid with
  | none => s
  | some u => s.raiseAfter u { cause := causeDoubleResolve, taddr := p.swap } f.pc p.strand
/-- A request of a FUT has taken effect: the others of the instruction cannot be taken back. -/
def State.markActed (s : State) (f : Flight) : State :=
  { s with flights := s.flights.map (fun x => if x.uid == f.uid && x.seq == f.seq then { x with acted := true } else x) }
/-- A join or poll whose answer makes it an acquire, of a gang that has to hear of a loss (R130, R389). DESIGN CHOICE (assumption 35): the
poison trap comes before any effect of the instruction, which is then issued again. Where the loss was charged between two requests of one JOIN,
of which the first has taken effect, the JOIN completes, and the gang's next acquire is the one that traps. -/
def State.futLoss (s : State) (f : Flight) (acts : State) : State :=
  match f.uid.bind s.gang? with
  | none => acts
  | some g => if g.loss == (s.ctx g.ctx).loss || f.acted then acts else s.recall f g.uid { cause := causePoison, loss := true }

/-- HOME_SLICE_JOIN: a join or a poll is applied and answered, strand by strand. -/
def execHomeSliceJoin (id : Nat) (s : State) : Host.Outcome State Fault Refusal :=
  match s.flights.find? (fun f => f.id == id) with
  | none => .next s
  | some f =>
    if !s.enabled f then .next s
    else match f.kind with
      | .join d =>
        .next (f.parts.foldl (fun st p =>
          let w := st.futureAt p.pa
          let r := joinWord w.1 p.val.toNat
          w.2.2.atomOr f p.pa 8 (r.1 != w.1) (fun x =>
            let st1 := if r.1 = w.1 then x.atomRead f p.pa 8 else x.atomWrite f p.pa (leBytes 8 r.1)
            let st2 := match r.2.2 with | some b => st1.sendDec f p.val.toNat b | none => st1
            let st3 := if r.2.1 ≥ 2 then st2.futAcquire f else st2
            let done := (((st3.result f d .w32 p.strand (BitVec.ofNat 128 r.2.1) w.2.1).dropFlight id).markActed f)
            if r.2.1 ≥ 2 then x.futLoss f done else done)) s).pump
      | .poll d =>
        .next (f.parts.foldl (fun st p =>
          let w := st.futureAt p.pa
          let x := w.2.2.atomRead f p.pa 8
          let st1 := if futState w.1 = 2 then x.futAcquire f else x
          let done := (st1.result f d .w64 p.strand (BitVec.ofNat 128 w.1) w.2.1).dropFlight id
          if futState w.1 = 2 then x.futLoss f done else done) s).pump
      | _ => .next s

/-- Resolve of R53 for one future: the state, the status, and the decrement it sends. -/
def State.resolveAt (s : State) (f : Flight) (pa v : Nat) (poison : Bool) : Nat × Bool × State :=
  let w := s.futureAt pa
  let r := resolveWord w.1 v poison
  let s1 := if r.2.1 = 3 then w.2.2.atomRead f pa 8 else w.2.2.atomWrite f pa (leBytes 8 r.1)
  (r.2.1, w.2.1, match r.2.2 with | some c => s1.sendDec f c poison | none => s1)

/-- HOME_SLICE_RESOLVE: a resolve or poison of a gang is applied and answered, strand by strand; or one of an engine command or a
SIGNAL packet. -/
def execHomeSliceResolve (id : Nat) (s : State) : Host.Outcome State Fault Refusal :=
  match s.flights.find? (fun f => f.id == id) with
  | none => .next s
  | some f =>
    if !s.enabled f then .next s
    else match f.kind with
      | .resolve poison d =>
        .next (f.parts.foldl (fun st p =>
          st.atomOr f p.pa 8 ((resolveWord (st.futureAt p.pa).1 p.val.toNat poison).2.1 != 3) (fun x =>
            let r := x.resolveAt f p.pa p.val.toNat poison
            let st1 := if r.1 = 3 then r.2.2.futDouble f p else r.2.2
            (st1.result f d .w32 p.strand (BitVec.ofNat 128 r.1) r.2.1).dropFlight id)) s).pump
      | _ => .next s

/-- CELL_DECREMENT: the join cell is decremented, poisoned if the future was, and its record sent when the count is zero (R53). DESIGN CHOICE (assumption
110): the record is sent to the node that the cell names though that node's valid bit is clear; R43 refuses only SPAWN and host packets. -/
def execCellDecrement (id : Nat) (s : State) : Host.Outcome State Fault Refusal :=
  match s.flights.find? (fun f => f.id == id) with
  | none => .next s
  | some f =>
    if !s.enabled f then .next s
    else match f.kind with
      | .cell pa poison topup launch =>
        if !(s.foreign f.core pa 32).isEmpty then .next (s.sendRevokes f (s.foreign f.core pa 32)).pump
        else
        let s1 := s.settleLine pa
        let b := (List.range 32).map (fun i => (s1.homeByte (pa + i)).1)
        let count := (leNat (b.take 4) + 2 ^ 32 - 1) % 2 ^ 32
        let pz := (b.getD 6 0) ||| (if poison then 1 else 0)
        let b' := leBytes 4 count ++ (b.drop 4).take 2 ++ [pz] ++ b.drop 7
        let s2 := s1.atomWrite f pa b'
        let words : List Word32 := (List.range 8).map (fun j => BitVec.ofNat 32 (leNat ((b'.drop (4 * j)).take 4)))
        let r : Record := { words := words, time := 0, elapsed := 0, src := 4, launch := launch, topup := topup }
        let s3 := if count = 0 then
            s2.launchFlight { id := 0, uid := none, ctx := f.ctx, core := 0, queue := none
                              kind := .append 1 (homeSlice pa) (leNat ((b.drop 4).take 2)) 0 [r] }
          else s2
        .next (s3.dropFlight id).pump
      | _ => .next s

/-! ## Record information and time (R257 to R259) -/

/-- The record of a strand. -/
def Gang.record (g : Gang) (i : Nat) : Record := g.recs.getD i { words := [], time := 0, elapsed := 0, src := 0 }

/-- GREC; fn 0 and 1 are values read (R424). -/
def grecSem (x : RF) (w : OpW) (f : Record → BitVec 128) (logged : Bool) : Sem where
  op e :=
    let own := e.parts.map (fun i => (f (e.g.record i)).toNat)
    let vs := if logged then e.s.valueRead e.g own else own
    if e.parts.isEmpty then e.nothing
    else .ok { st := if logged then e.s.noteValue e.g vs else e.s
               writes := ((e.parts.zip vs).map (fun p => e.dst x.d w p.1 (BitVec.ofNat 128 p.2))).flatten }
def semGrecTs (_ : Hd) (x : RF) : Sem := grecSem x .w64 (fun r => (timeDl r.time).setWidth 128) true
def execGrecTs (h : Hd) (x : RF) (s : State) := run (.grecTs h x) (semGrecTs h x) s
def semGrecTsx (_ : Hd) (x : RF) : Sem := grecSem x .w32 (fun r => (timeX r.time).setWidth 128) true
def execGrecTsx (h : Hd) (x : RF) (s : State) := run (.grecTsx h x) (semGrecTsx h x) s
def semGrecSrc (_ : Hd) (x : RF) : Sem := grecSem x .w32 (fun r => BitVec.ofNat 128 (r.src + if r.granted then 8 else 0)) false
def execGrecSrc (h : Hd) (x : RF) (s : State) := run (.grecSrc h x) (semGrecSrc h x) s
/-- Word j of the record as it reached its gang: cut to the node's record size, zero from there on. -/
def semGrecWord (_ : Hd) (x : RF) : Sem where
  op e := e.each [] (fun i => (e.dst x.d .w32 i
    (((padWords e.g.ent.recw (e.g.record i).words).getD (x.a.toNat - 192) 0).setWidth 128), 0))
def execGrecWord (h : Hd) (x : RF) (s : State) := run (.grecWord h x) (semGrecWord h x) s

/-- The device time that a gang samples: never less than it has sampled before, and later by what its form can tell apart, so that two samples
differ: a nanosecond, or one unit of the fraction (R259; DEDUCED, assumption 91). -/
def Env.sample (e : Env) (gap : Nat) : Nat := match e.g.lastTm with | none => e.s.clock.t | some t => max e.s.clock.t (t + gap)
def rdtmSem (x : RF) (w : OpW) (gap : Nat) (f : Nat → BitVec 128) : Sem where
  op e :=
    let v := e.s.valueRead e.g [(f (e.sample gap)).toNat]
    if !e.acts then e.nothing else .ok { st := (e.s.noteValue e.g v).modGang e.g.uid (fun g => { g with lastTm := some (e.sample gap) }), writes := e.dstAll x.d w (BitVec.ofNat 128 (v.headD 0)) }
def semRdtm (_ : Hd) (x : RF) : Sem := rdtmSem x .w64 65536 (fun t => (timeDl t).setWidth 128)
def execRdtm (h : Hd) (x : RF) (s : State) := run (.rdtm h x) (semRdtm h x) s
def semRdtmX (_ : Hd) (x : RF) : Sem := rdtmSem x .w32 1 (fun t => (timeX t).setWidth 128)
def execRdtmX (h : Hd) (x : RF) (s : State) := run (.rdtmX h x) (semRdtmX h x) s
/-- The four words of the full time: nanoseconds, low seconds, high seconds with the fraction, zero. -/
def timeQ (t : Nat) : BitVec 128 :=
  BitVec.ofNat 128 (timeNs t + timeSec t % 2 ^ 32 * 2 ^ 32 + (timeX t).toNat * 2 ^ 64)
def semRdtmQ (_ : Hd) (x : RF) : Sem := rdtmSem x .w128 1 timeQ
def execRdtmQ (h : Hd) (x : RF) (s : State) := run (.rdtmQ h x) (semRdtmQ h x) s

end Sys2Proof.Machine
end

