-- ==== Sys2Proof/Machine/MemEvents.lean ====
section
/-! DEFINITION. What happens to memory operations after they have left their gang: loads, stores, atomics, revocations, posts and walks
(R91, R101, R103, R120, R173, R231), path merges (R127), the fabric (R406), audits (R111), and page faults with their retirement
and replay (R382 to R387). -/

namespace Sys2Proof.Machine

/-- An operation in flight that may take effect now. -/
def State.ready (s : State) (id : Nat) : Option Flight := (s.flights.find? (fun f => f.id == id)).filter (fun f => s.enabled f)

/-! ## Loads -/

/-- An acquiring load. -/
def Flight.acquiring (f : Flight) : Bool := match f.kind with | .load _ _ _ _ acquire => acquire | _ => false
/-- The requests of an LDACQ keep what they bring back until all of them have, and no strand is parked. Then its results are written and it
acquires (R122); a loss that was charged to its context meanwhile is the poison trap, before anything of it stands (R130, R389). -/
def State.endAcquire (s : State) (f : Flight) : State :=
  match f.uid.bind s.gang? with
  | none => s.dropFlight f.id
  | some g =>
    let mine := s.flights.filter (fun x => x.uid == f.uid && x.acquiring)
    if g.park.isSome || !mine.all (fun x => x.acted) then s
    else if g.loss != (s.ctx g.ctx).loss then
      (s.dropWhere (fun x => x.uid == f.uid && x.acquiring && x.seq != f.seq)).recall f g.uid { cause := causePoison, loss := true }
    else
      (mine.foldl (fun st x => match x.kind with
        | .load n _ d _ _ => (x.parts.foldl (fun t p => t.result x d (bytesOpw n) p.strand (p.got.getD 0) p.poison) st).dropFlight x.id
        | _ => st) s).acquire g.uid

/-- One strand's bytes from memory or through the fabric. -/
def State.loadBytes (s : State) (f : Flight) (p : Part) (n : Nat) (mark acquire : Bool) (leads : Bool := true) : List Byte × Bool × State :=
  if isFabric p.pa then
    let r := s.fabricAnswer (.load n false 255#8 false false) p n
    (r.1, r.2.1, r.2.2.2)
  else s.vecLoad f p.pa n mark acquire leads

/-- A strand leads the access of its request to its sector: it is the first there that misses in the L1, if one does (R410). -/
def State.leads (s : State) (f : Flight) (n : Nat) (acquire : Bool) (q : Part) : Bool :=
  let mine := f.parts.filter (fun p => p.pa / 64 == q.pa / 64)
  ((mine.find? (fun p => (s.l1Hit f.core p.pa n acquire).isNone)).or mine.head?).map Part.strand == some q.strand

/-- A load takes effect: its bytes reach their destination registers, marked if they are poisoned; those of an acquiring load wait for its end. -/
def State.doLoad (s : State) (f : Flight) : State :=
  match f.kind with
  | .load n sgn d mark acquire =>
    let s0 := if acquire then (s.noteFlight f).modFlight f.id (fun x => { x with acted := true }) else s
    f.parts.foldl (fun st p =>
      let r := st.loadBytes f p n mark acquire (s.leads f n acquire p)
      let s1 := r.2.2.noteLoad f.uid f.seq r.1
      if acquire then
        s1.modFlight f.id (fun x => { x with parts := x.parts.map (fun q => if q.strand == p.strand then { q with got := some (loaded n sgn r.1), poison := r.2.1 } else q) })
      else s1.result f d (bytesOpw n) p.strand (loaded n sgn r.1) r.2.1) s0
  | .spadLoad n sgn d =>
    f.parts.foldl (fun st p =>
      let bs := (List.range n).map (fun k => st.spadLoadByte (f.uid.getD 0) f.vliw (p.pa + k))
      let r := match p.got with
        | some v => (leBytes n v.toNat, p.poison)
        | none => (bs.map Prod.fst, bs.any Prod.snd)
      st.result f d (bytesOpw n) p.strand (loaded n sgn r.1) r.2) s
  | _ => s

/-- An LDX reads its first unit, then in a later step its second, and ends (R280). -/
def State.doLdx (s : State) (f : Flight) (n first : Nat) (sgn : Bool) (d : Reg) : State :=
  match f.parts with
  | [] => s.dropFlight f.id
  | p :: rest =>
    match p.got with
    | none =>
      let r := s.loadBytes f p first false false
      let v := BitVec.ofNat 128 (leNat r.1)
      if rest.isEmpty then ((r.2.2.noteLoad f.uid f.seq r.1).result f d (bytesOpw n) p.strand (loaded n sgn r.1) r.2.1).dropFlight f.id
      else r.2.2.modFlight f.id (fun x => { x with parts := { p with got := some v, poison := r.2.1 } :: rest })
    | some v =>
      let q := rest.headD p
      let r := s.loadBytes f q (n - first) false false
      let bs := leBytes first v.toNat ++ r.1
      ((r.2.2.noteLoad f.uid f.seq bs).result f d (bytesOpw n) p.strand (loaded n sgn bs) (p.poison || r.2.1)).dropFlight f.id

/-- LOAD_RESULT_RETURN. -/
def execLoadResultReturn (id : Nat) (s : State) : Host.Outcome State Fault Refusal :=
  match s.ready id with
  | none => .next s
  | some f =>
    if f.post != .none then .next s
    else match f.kind with
      | .load _ _ _ _ true => if f.acted then .next s else .next ((s.doLoad f).endAcquire f).pump
      | .load .. => .next ((s.doLoad f).dropFlight id).pump
      | .spadLoad .. => .next ((s.doLoad f).dropFlight id).pump
      | .ldx n first sgn d => .next (s.doLdx f n first sgn d).pump
      | _ => .next s

/-! ## Stores -/

/-- A store that its target cannot apply is lost (R129): the loss is logged, and the gang's next release will trap. -/
def State.loseStore (s : State) (f : Flight) (pa : Nat) : State :=
  let who := ((f.uid.bind s.gang?).map Gang.code).getD 0
  let s1 := s.log f.ctx 1 pa who 0
  match f.uid with
  | some u => s1.modGang u (fun g => { g with lostStore := true, lostSeq := if g.lostStore then min g.lostSeq f.seq else f.seq })
  | none => s1

/-- A sector disappears from every cache (R243): its words are owned by no core and their bytes are unpredictable. -/
def State.discardSector (s : State) (pa : Nat) : State :=
  let sec := pa / 64
  let s1 := { s with
    paths := s.paths.filter (fun w => !(isDram w.pa && w.pa / 64 == sec))
    cores := s.cores.map (fun (c : Nat × Core) => (c.1, c.2.modL1 pa (fun l => { l with valid := l.valid &&& ~~~sectorMask pa, owned := l.owned &&& ~~~sectorMask pa })))
    owners := s.owners.filter (fun (o : Nat × Nat) => o.1 / 16 != sec)
    draw := s.draw + 1 }
  let bit := BitVec.ofNat 2 (2 ^ (pa / 64 % 2))
  let s2 := match (s1.slice (homeSlice pa)).wayOf pa with
    | none => s1
    | some w => s1.modSlice (homeSlice pa) (fun h => { h with lines := SMap.upd h.lines (16 * setOf2 pa + w) L2Line.empty (fun l =>
        { l with valid := l.valid &&& ~~~bit, dirty := l.dirty &&& ~~~bit, poison := l.poison &&& ~~~bit,
                 wmask := l.wmask &&& ~~~byteMask (pa / 64 % 2 * 64) 64, audit := none }) })
  ((s2.tidy2 pa).ctlWrite sec ((List.range 64).map (fun i => Config.freeByte s.draw i)) false).fireLine (pa / 128) 0

/-- CMNT on a line (R244): 0 writes it back, 1 also invalidates it everywhere, 2 invalidates it in the issuing core's L1. -/
def State.maintainLine (s : State) (core op pa : Nat) : State :=
  if op = 2 then s.modCore core (fun c => c.dropL1 pa)
  else
    let s1 := s.mergeLine (pa / 128)
    let h := homeSlice pa
    let s2 := match s1.line2 pa with
      | some (_, l) => s1.writeBack l
      | none => s1
    if op = 0 then (s2.modLine2 pa (fun l => { l with dirty := 0, wmask := 0, past := [] })).tidy2 pa
    else
      let s3 := match s2.line2 pa with
        | some (key, _) => s2.modSlice h (fun x => { x with lines := SMap.erase x.lines key })
        | none => s2
      { s3 with cores := s3.cores.map (fun (c : Nat × Core) => (c.1, c.2.dropL1 pa))
                owners := s3.owners.filter (fun (o : Nat × Nat) => o.1 / 32 != pa / 128) }

/-- A store takes effect at its target, strand by strand, so that the highest-numbered strand's bytes stand (R231). -/
def State.doStore (s : State) (f : Flight) : State :=
  match f.kind with
  | .store n =>
    f.parts.foldl (fun st p =>
      if isFabric p.pa then
        let r := st.fabricAnswer f.kind p n
        if r.2.2.1 then r.2.2.2 else r.2.2.2.loseStore f p.pa
      else st.vecStore f p.pa (leBytes n p.val.toNat)) s
  | .spadStore n => f.parts.foldl (fun st p => if p.got.isSome then st else st.spadStore none p.pa (leBytes n p.val.toNat)) s
  | .discard => f.parts.foldl (fun st p => if isDram p.pa then p.sectors.foldl State.discardSector st else st) s
  | .maintain op => f.parts.foldl (fun st p => if isDram p.pa then st.maintainLine f.core op p.pa else st) s
  | _ => s

/-- The words of main memory that a store writes and other cores own (R120). -/
def State.foreignTo (s : State) (f : Flight) : List (Nat × Nat) :=
  match f.kind with
  | .store n => f.parts.flatMap (fun p => if isDram p.pa then s.foreign f.core p.pa n else [])
  | _ => []

/-- STORE_REGISTRATION: the store is applied and registered at one instant, once the words that other cores own are revoked. -/
def execStoreRegistration (id : Nat) (s : State) : Host.Outcome State Fault Refusal :=
  match s.ready id with
  | none => .next s
  | some f =>
    if f.post != .none then .next s
    else match f.kind with
      | .store _ =>
        let ws := s.foreignTo f
        if ws.isEmpty then .next ((s.doStore f).dropFlight id).pump else .next (s.sendRevokes f ws).pump
      | .spadStore _ => .next ((s.doStore f).dropFlight id).pump
      | .discard => .next ((s.doStore f).dropFlight id).pump
      | .maintain op => if op < 16 then .next ((s.doStore f).dropFlight id).pump else .next s
      | _ => .next s

/-- REVOCATION: the core gives the word up and acknowledges. -/
def execRevocation (id : Nat) (s : State) : Host.Outcome State Fault Refusal :=
  match s.ready id with
  | none => .next s
  | some f =>
    match f.kind with
    | .revoke word core =>
      let s1 : State := { s.revoke core word with owners := if SMap.find s.owners word = some core then SMap.erase s.owners word else s.owners }
      .next (s1.dropFlight id).pump
    | _ => .next s

/-- A decoupled access has been done: what is left of it is its post, a release of the gang's earlier accesses (R173). -/
def State.postLeft (s : State) (f : Flight) (core flag : Nat) : State :=
  s.modFlight f.id (fun x => { x with kind := .localPost core flag 1, rel := true, queue := none, post := .none })

/-- DECOUPLED_ACCESS_COMPLETION (R173): the access takes effect; its results land with its post. -/
def execDecoupledAccessCompletion (id : Nat) (s : State) : Host.Outcome State Fault Refusal :=
  match s.ready id with
  | none => .next s
  | some f =>
    match f.post with
    | .own cl co fl _ =>
      let ws := s.foreignTo f
      if ws.isEmpty then .next (((s.doLoad f).doStore f).postLeft f (32 * cl + co) fl).pump else .next (s.sendRevokes f ws).pump
    | _ => .next s

/-! ## Atomics -/

/-- A combined request at the home slice: the strands apply in ascending order, each with its old value (R103). -/
def State.homeAtomic (s : State) (f : Flight) (fn n : Nat) (d : Reg) : State :=
  match f.parts with
  | [] => s
  | p :: _ =>
    if isFabric p.pa then
      f.parts.foldl (fun st q =>
        let r := st.fabricAnswer f.kind q n
        r.2.2.2.result f d (bytesOpw n) q.strand (BitVec.ofNat 128 (leNat r.1)) r.2.1) s
    else
      let s1 := s.settleLine p.pa
      let old := s1.homeWord p.pa n
      let r := atomFold fn n f.parts old.1
      let s2 := if r.2.1 then s1.atomWrite f p.pa (leBytes n r.1) else s1.atomRead f p.pa n
      r.2.2.foldl (fun st o => st.result f d (bytesOpw n) o.1 (BitVec.ofNat 128 o.2) old.2) s2

/-- The words that an atomic of main memory is about to write and other cores own (R120). -/
def State.foreignAtomic (s : State) (f : Flight) (fn n : Nat) : List (Nat × Nat) :=
  match f.parts with
  | [] => []
  | p :: _ =>
    if isDram p.pa && (atomFold fn n f.parts ((s.settleLine p.pa).homeWord p.pa n).1).2.1 then s.foreign f.core p.pa n else []

/-- ATOMIC_APPLY. -/
def execAtomicApply (id : Nat) (s : State) : Host.Outcome State Fault Refusal :=
  match s.ready id with
  | none => .next s
  | some f =>
    match f.kind with
    | .atomic fn n d =>
      let ws := s.foreignAtomic f fn n
      if ws.isEmpty then .next ((s.homeAtomic f fn n d).dropFlight id).pump else .next (s.sendRevokes f ws).pump
    | .spadAtomic fn n d =>
      let r := s.bankAtomic none fn n f.parts
      let s1 := r.1.foldl (fun st o => st.result f d (bytesOpw n) o.1 (BitVec.ofNat 128 o.2) r.2.1) r.2.2
      .next (s1.dropFlight id).pump
    | _ => .next s

/-! ## Posts, merges, the fabric, audits -/

/-- REMOTE_FLAG_POST. -/
def execRemoteFlagPost (id : Nat) (s : State) : Host.Outcome State Fault Refusal :=
  match s.ready id with
  | none => .next s
  | some f =>
    match f.kind with
    | .post addr count ctx => .next ((if count = 0 then s else s.remotePost addr count ctx f.who).dropFlight id).pump
    | _ => .next s

/-- PATH_WRITE_MERGE: the n-th waiting write is merged, after the earlier ones of its path to the same sector. -/
def execPathWriteMerge (n : Nat) (s : State) : Host.Outcome State Fault Refusal :=
  match s.paths[n]? with
  | none => .next s
  | some w =>
    if s.stuck w then .next s else
    let same (x : PathWrite) : Bool := x.path == w.path && x.pa / 64 == w.pa / 64
    let now := (s.paths.take (n + 1)).filter same
    let left := (s.paths.take (n + 1)).filter (fun x => !same x) ++ s.paths.drop (n + 1)
    .next (now.foldl State.mergeOne { s with paths := left })

/-- FABRIC_ACCESS_AT_TARGET: the access is applied, or refused, and answered (R406); its flits move over one of the ports (R414). -/
def execFabricAccessAtTarget (acc : FabricAccess) (s : State) : Host.Outcome State Fault Refusal :=
  let r := (s.moveFlits ((Config.freeWord s.draw).toNat % 12)).fabricApply acc
  .next { r.2.2.2 with out := r.2.2.2.out ++ [.reply acc r.1 r.2.1 r.2.2.1] }

/-- AUDIT_RESULT: results are applied in their order of arrival; the score of an exempt tenant stays as it is (R111, R113). -/
def execAuditResult (n : Nat) (s : State) : Host.Outcome State Fault Refusal :=
  match n, s.audits with
  | 0, (t, pass) :: rest =>
    let sc := s.score t
    if s.noAudit t then .next { s with audits := rest }
    else .next { s with
      audits := rest
      scores := SMap.set s.scores t (if pass then min 15 (sc + 1) else sc - 2)
      fails := if pass then s.fails else SMap.upd s.fails t 0 (fun k => min 65535 (k + 1)) }
  | _, _ => .next s

/-- AUDIT_AGE_EXPIRY. -/
def execAuditAgeExpiry (slice set way : Nat) (s : State) : Host.Outcome State Fault Refusal :=
  let key := 16 * set + way
  match SMap.find (s.slice slice).lines key with
  | none => .next s
  | some l =>
    match l.audit with
    | none => .next s
    | some (_, c) =>
      if (s.slice slice).age l > 2 ^ c then
        .next ((s.auditEnd slice l false).modSlice slice (fun h => { h with lines := SMap.set h.lines key { l with audit := none } }))
      else .next s

/-! ## Walks and page faults (R91, R382 to R387) -/

/-- A gang parks on an XLAT whose walk has found no page: the request as it was issued, on its own registers no more (R91). -/
def Flight.xlatInstr (n : Nat) (write : Bool) (b : Reg) : Instr :=
  let x : RF := { fn := if write then 1 else 0, d := BitVec.ofNat 8 n, a := 255, b := b, c := 0, mod := 0 }
  if write then .xlatW { neg := false, gd := 15, lat := 0 } x else .xlat { neg := false, gd := 15, lat := 0 } x

/-- A walk that a core's walker has taken up: of those in flight, the first 32 (R380). -/
def State.walking (s : State) (f : Flight) : Bool :=
  ((s.flights.filter (fun x => x.core == f.core && (match x.kind with | .xlat .. => true | _ => false))).take 32).any (fun x => x.id == f.id)

/-- WALK_COMPLETION: the handle becomes valid with the page that the walk finds now, unless it was dropped (R91, R241); where another miss of the
core has brought the same walk to its end, with what that has found (R380). The
result of a walk for a dropped handle is discarded (R242). A page that the XLAT may not name is a protection trap, and a walk that finds none
parks the gang at the XLAT; where the gang cannot park, the walk starts again once its fault is retired (R385). -/
def execWalkCompletion (id : Nat) (s : State) : Host.Outcome State Fault Refusal :=
  match s.ready id, (s.ready id).bind (fun f => f.uid.bind s.gang?) with
  | some f, some g =>
    match f.kind with
    | .xlat n va write b dropped =>
      let w := s.translate g.gcore g.ctx va
      let setH (st : State) (h : Handle) : State := st.modGang g.uid (fun g => { g with regs := { g.regs with h := SMap.set g.regs.h n h } })
      if !s.walking f || (f.acted && (s.ctx g.ctx).faults.any (fun x => x.page == va / 4096)) then .next s
      else if dropped then .next ((setH (s.cache g.gcore g.ctx va w) {}).dropFlight id).pump
      else match w with
      | .page pa size rd wr _ =>
        let s1 := s.cache g.gcore g.ctx va w
        let may := xlatTarget g.cluster pa && (if write then wr else rd)
        let s2 := setH s1 (if may then mkHandle g.cluster va pa size rd wr else {})
        if may then
          let s3 := f.parts.foldl (fun st p => st.result f b .w32 p.strand (BitVec.ofNat 128 (va % pageBytes size)) false) s2
          .next (s3.dropFlight id).pump
        else .next ((s2.dropFlight id).lateTrap g f { cause := causeProtection, taddr := BitVec.ofNat 64 va }).pump
      | .fault k l =>
        if g.park.isSome || g.loc != .resident then
          .next (((s.walked g.gcore g.ctx va).fault g.ctx va k l (128 + if write then 8 else 0) g.code none).modFlight id (fun x => { x with acted := true }))
        else
          let s1 := ((s.walked g.gcore g.ctx va).dropFlight id).park { g with pc := f.pc } (Flight.xlatInstr n write b) (128 + if write then 8 else 0) f.lead f.nc
            [({ strand := f.lead, pa := va }, k, l)] (f.parts.map (fun p => { p with pa := va }))
          .next (s1.modGang g.uid (fun x => { x with park := x.park.map (fun q => { q with slot := f.slot, ci := f.paid.1, ct := f.paid.2 }) })).pump
    | _ => .next s
  | _, _ => .next s

/-- FAULT_ENTRY_DEFERRED: the oldest fault without an entry gets one once there is room. -/
def execFaultEntryDeferred (ctx : Nat) (s : State) : Host.Outcome State Fault Refusal :=
  match (s.ctx ctx).faults.find? (fun f => f.id.isNone) with
  | some f => .next (if s.faultRoom ctx then s.writeFault ctx f else s)
  | none => .next s

/-- The requests of the instructions that park only the strands without a translation (R383). -/
def partialReq : Instr → Option Req
  | .ld _ x => some (reqLd x)
  | .st _ x => some (reqSt x)
  | .ldnc _ x => some (reqLdnc x)
  | .ldacq _ x => some (reqLdacq x)
  | .prefDiscard _ x => some (reqDiscard x)
  | .cmntWb _ x => some (reqCmnt x 0)
  | .cmntWbinv _ x => some (reqCmnt x 1)
  | .cmntInv1 _ x => some (reqCmnt x 2)
  | _ => none

/-- The meanings of the instructions that park as a whole. -/
def wholeSem : Instr → Option Sem
  | .strel h x => some (semStrel h x)
  | .atom h x => some (semAtom h x)
  | .atomf h x => some (semAtomf h x)
  | .cas h x => some (semCas h x)
  | .futRes h x => some (semFutRes h x)
  | .futPoison h x => some (semFutPoison h x)
  | .futJoin h x => some (semFutJoin h x)
  | .futPoll h x => some (semFutPoll h x)
  | .watch h x => some (semWatch h x)
  | .xlat h x => some (semXlat h x)
  | .xlatW h x => some (semXlatW h x)
  | _ => none

/-- The state of a gang's parked instruction before its first issue: no park, its reuse clock. -/
def Gang.unpark (g : Gang) (k : Park) : Gang := { g with park := none, ctl := { g.ctl with nc := k.nc } }

/-- A parked instruction raises a trap at its replay: its charge is taken back (R61, R279). A gang that had gone on past an XLAT resumes where
it is. -/
def State.replayTrap (s : State) (g : Gang) (k : Park) (t : TrapInfo) : State :=
  let t' := if g.ctl.vliw then { t with bnd := true, pslot := k.slot, mask := 2 ^ k.slot } else { t with after := g.pc != k.pc + 8 }
  (s.modGang g.uid (fun x => x.takeBack k.ci k.ct)).takeTrap g.uid t' k.pc g.pc

/-- The replay of an XLAT, with the address that it was issued with (R91, R241). -/
def State.replayXlat (s : State) (g : Gang) (k : Park) (x : RF) (write : Bool) : State :=
  let va := (k.parts.headD { strand := 0, pa := 0 }).pa
  let n := x.d.toNat % 16
  let setH (st : State) (h : Handle) : State := st.modGang g.uid (fun y => { y with park := none, regs := { y.regs with h := SMap.set y.regs.h n h } })
  match s.translate g.gcore g.ctx va with
  | .page pa size rd wr ex =>
    if !xlatTarget g.cluster pa || !(if write then wr else rd) then
      (setH s {}).replayTrap g k { cause := causeProtection, taddr := BitVec.ofNat 64 va }
    else
      let s1 := setH (s.cache g.gcore g.ctx va (.page pa size rd wr ex)) (mkHandle g.cluster va pa size rd wr)
      s1.modGang g.uid (fun y => y.putAll ((k.parts.map (fun p => dstRegs g.ctl.vliw g.ctl.vliw k.lead x.b .w32 p.strand (BitVec.ofNat 128 (va % pageBytes size)))).flatten))
  | .fault kd l =>
    let s1 := s.park { g with pc := k.pc } k.instr (128 + if write then 8 else 0) k.lead k.nc [(k.parts.headD { strand := 0, pa := 0 }, kd, l)] k.parts
    s1.modGang g.uid (fun y => { y with park := y.park.map (fun q => { q with slot := k.slot, ci := k.ci, ct := k.ct }) })

/-- The replay of a parked instruction (R385): the strands that wait are translated again; nothing is charged, nc does not step. -/
def State.replay (s : State) (g : Gang) (k : Park) : State :=
  let g0 := g.unpark k
  let s0 := s.setGang g0
  let e : Env := { s := s0, g := g0, place := .simt, pc := k.pc, npc := k.pc + 8, h := k.instr.hd, imm := none }
  let keep (st : State) : State :=
    let s1 : State := { st with flights := st.flights.map (fun f => if s.next ≤ f.id && f.uid == some g.uid then { f with pc := k.pc, paid := (k.ci, k.ct), lead := k.lead } else f) }
    s1.modGang g.uid (fun x => { x with ctl := { x.ctl with nc := g.ctl.nc }, park := x.park.map (fun q => { q with ci := k.ci, ct := k.ct, lead := k.lead }) })
  if k.parts.isEmpty then s.setGang { g with park := none }
  else match k.instr with
  | .xlat _ x => s.replayXlat g k x false
  | .xlatW _ x => s.replayXlat g k x true
  | _ =>
  match partialReq k.instr with
  | some r =>
    match e.check r k.parts with
    | .error t => s0.replayTrap g k t
    | .ok ts =>
      let ms := missing ts
      let s1 := (s0.cacheAll g.gcore g.ctx ts).send g0 r k.lead k.nc false .none (found ts)
      keep (if ms.isEmpty then s1 else s1.park { g0 with pc := k.pc } k.instr r.flags k.lead k.nc ms (ms.map Prod.fst))
  | none =>
    let e1 : Env := { e with g := { g0 with pc := k.pc } }
    match (lgmAgain k.instr e1 k.parts).or ((wholeSem k.instr).map (fun (m : Sem) => m.op e1)) with
    | none => s
    | some (.ok f) => keep (f.st.modGang g.uid (fun x => x.putAll f.writes))
    | some (.trap t) => s0.replayTrap g k t
    | some (.wait _) => s

/-- The replay of a parked gang is due: none of its pages is outstanding any more, and no debug stop, freeze or world switch holds it. Where one
does, it replays at that one's end (R114, R353, R386, R419). -/
def State.replayDue (s : State) (x : Gang) (k : Park) : Bool :=
  x.loc == .resident && !x.iss.stopped && !(s.core x.gcore).frozen && s.admits x.ctx && !(k.pages.any (fun p => (s.ctx x.ctx).faults.any (fun f => f.page == p)))
/-- The parked gangs of a choice whose replay is due replay. -/
def State.replayWhere (s : State) (pick : Gang → Bool) : State :=
  s.gangs.foldl (fun st g =>
    match st.gang? g.uid with
    | some x =>
      match x.park with
      | some k => if pick x && st.replayDue x k then (st.replay x k).pump else st
      | none => st
    | none => st) s
def State.replayAll (s : State) (ctx : Nat) : State := s.replayWhere (fun x => x.ctx == ctx)

/-- Faults of a context are retired: their pages are no longer outstanding, and what waited for them goes on; the address whose fetch
took a gang out of its slot is walked again first (R387). -/
def State.retire (s : State) (ctx : Nat) (which : PageFault → Bool) : State :=
  let gone := ((s.ctx ctx).faults.filter which).map PageFault.page
  let s1 : State := s.modCtx ctx (fun c => { c with faults := c.faults.filter (fun f => !which f) })
  let s2 : State := { s1 with
    cmds := s1.cmds.map (fun (c : Cmd) => if c.ctx == ctx then { c with wait := c.wait.filter (fun p => !gone.contains p) } else c)
    gangs := s1.gangs.map (fun (g : Gang) => match g.loc with
      | .fetchOut p none => if g.ctx == ctx && gone.contains p then { g with loc := .fetchOut p (some s.clock.t) } else g
      | _ => g) }
  let s3 : State := s2.gangs.foldl (fun (st : State) (g : Gang) => match g.loc with
    | .fetchOut p (some _) =>
      if g.ctx == ctx && gone.contains p then
        let va := if g.pc.toNat / 4096 = p then g.pc.toNat else 4096 * p
        match st.walkBy g.gcore ctx va with
        | .fault k l => ((st.walked g.gcore ctx va).fault ctx va k l 32 g.code none).modGang g.uid (fun x => { x with loc := .fetchOut p none })
        | .page .. => st.walked g.gcore ctx va
      else st
    | _ => st) s2
  s3.replayAll ctx

/-- A write of the retire word: retall retires every outstanding fault, else retid names one; an id that is not outstanding is ignored. A fault
that still waits for its entry is not outstanding yet, and is not lost (R384). -/
def State.retireWrite (s : State) (ctx : Nat) (v : Word64) : State :=
  if v.getLsbD 16 then s.retire ctx (fun f => f.id.isSome) else s.retire ctx (fun f => f.id == some (v.setWidth 16))

/-- A port's write of the retire or the shootdown register merges the HOST writes that it issued before (R379). -/
def State.portOrder (s : State) (who : Who) : State :=
  match who with
  | .pf _ => s.mergePath .host
  | .vf .. => s.mergePath .host
  | _ => s

/-- FAULT_RETIRE. -/
def execFaultRetire (who : Who) (ctx : Nat) (v : BitVec 64) (s : State) : Host.Outcome State Fault Refusal :=
  .next (s.writeBy who (ctxBlock ctx + 0x50) (fun st => (st.portOrder who).retireWrite ctx v))
/-- FAULT_RETIRE_ALL. -/
def execFaultRetireAll (who : Who) (ctx : Nat) (v : BitVec 64) (s : State) : Host.Outcome State Fault Refusal :=
  .next (s.writeBy who (ctxBlock ctx + 0x50) (fun st => (st.portOrder who).retireWrite ctx v))

/-- A host shootdown is under way while an access that passed its checks before it has not ended (R93, R381). -/
def State.sdbusy (s : State) (ctx : Nat) : Bool := (s.shotFlights ctx).any (fun id => id < (s.ctx ctx).sdmark)

/-- HOST_SHOOTDOWN (R381). -/
def State.hostShoot (s : State) (ctx : Nat) (v : Word64) : State :=
  let va := bits64 v 43 0 * 4096
  let code := bits64 v 47 44
  let n := bits64 v 63 48
  if s.sdbusy ctx || 11 < code || va % pageBytes code != 0 || n = 0 then s
  else (s.shootdown ctx va (n * pageBytes code)).modCtx ctx (fun c => { c with sdmark := s.next })
def execHostShootdown (who : Who) (ctx : Nat) (v : BitVec 64) (s : State) : Host.Outcome State Fault Refusal :=
  .next (s.writeBy who (ctxBlock ctx + 0x78) (fun st => (st.portOrder who).hostShoot ctx v))

end Sys2Proof.Machine
end

