-- ==== Sys2Proof/Machine/Fetch.lean ====
section
/-! DEFINITION. Fetching the words of an instruction or a bundle (R152, R163, R377, R387). -/

namespace Sys2Proof.Machine

/-- What a fetch at an address gives. -/
inductive Fetch where
  | words (ws : List Word64)
  | denied (va : Nat)
  | missing (va kind level : Nat)
  | poisoned
  deriving DecidableEq, Repr

/-- A word that Percale has loaded into a core's fetch unit (R370). -/
def State.loadedWord (s : State) (core ctx va : Nat) : Option (Word64 × Bool) :=
  ((s.core core).code.find? (fun l => l.ctx == ctx && l.va ≤ va && va < l.va + 8 * l.words.length)).bind (fun l => (l.words.getD ((va - l.va) / 8) none))

/-- Fetches n words from a virtual address, each as it was loaded (R370), else through the context's translation with ex permission (R377, R387), from main memory alone (R82,
R378; DESIGN CHOICE, assumption 105: nothing is fetched through the fabric); a poisoned word is not executed (R115). -/
def State.fetchWords (s : State) (core ctx : Nat) : Nat → Nat → Fetch
  | 0, _ => .words []
  | n + 1, va =>
    let next (w : Word64 × Bool) : Fetch :=
      if w.2 then .poisoned
      else match State.fetchWords s core ctx n (va + 8) with
        | .words ws => .words (w.1 :: ws)
        | r => r
    match s.loadedWord core ctx va with
    | some w => next w
    | none => match s.fetchPage core ctx va with
      | .fault k l => .missing va k l
      | .page pa size _ _ ex => if !ex || !isDram (pageAddr pa size va) then .denied va else next (s.tableWord (pageAddr pa size va))

/-- The fetch unit has read n words for a gang: each walk and each sector counts at its home slice, and the translations stay in the second-level
TLB (R105, R380); of loaded words nothing is read. DESIGN CHOICE (assumption 105): it reads once for each instruction or bundle that issues or traps. -/
def State.noteFetch (s : State) (old : State) (g : Gang) : Nat → State
  | 0 => s
  | n + 1 =>
    let s1 := State.noteFetch s old g n
    let va := g.pc.toNat + 8 * n
    if (old.loadedWord g.gcore g.ctx va).isSome then s1
    else
    let w := old.fetchPage g.gcore g.ctx va
    let s2 := s1.cacheFetch g.gcore g.ctx va w
    match w with
    | .page pa size _ _ ex => if ex && isDram (pageAddr pa size va) && (n = 0 || va % 64 = 0) then s2.touch2 (pageAddr pa size va) { tenant := s.tenantOf g.ctx, owner := some (16 * g.gcore + g.slot) } else s2
    | .fault .. => s2

/-- The instruction or bundle at a gang's next address. -/
def State.fetch (s : State) (g : Gang) : Fetch :=
  let va := g.pc.toNat
  match s.fetchWords g.gcore g.ctx 1 va with
  | .words [w] =>
    if g.ctl.vliw && isHeader w then
      match s.fetchWords g.gcore g.ctx (headerSlots w) (va + 8) with
      | .words ws => .words (w :: ws)
      | r => r
    else .words [w]
  | r => r

end Sys2Proof.Machine
end

