-- ==== Sys2Proof/Machine/Matrix.lean ====
section
/-! DEFINITION. The matrix queue and engine (R146, R282 to R291): majors 0x70 to 0x75, the start and the completion of their
instructions, and what each does to its accumulator tile. -/

namespace Sys2Proof.Machine

/-! ## Element formats (R132, R135, R285, R289) -/

/-- K of an MMA format, and the bytes of a row of K elements. -/
def mmaK (fn : Nat) : Nat := if fn = 2 || fn = 3 then 32 else if fn = 7 || fn = 8 || fn = 11 then 128 else 64
def mmaRow (fn : Nat) : Nat := if fn = 6 then 72 else if fn = 7 then 96 else 64
/-- The format of B: that of A, or its partner. -/
def mmaPartner (fn : Nat) : Nat := match fn with | 4 => 5 | 5 => 4 | 7 => 8 | 8 => 7 | n => n
def mmaB (x : EF) : Nat := if x.qual.getLsbD 3 then mmaPartner x.fn.toNat else x.fn.toNat

/-- Element k of a row as an exact value. -/
def rowNum (fn : Nat) (row : List Byte) (k : Nat) : Num :=
  match Fmt.ofCode fn with
  | some f => let w := f.width / 8; decodeF f (leNat ((row.drop (w * k)).take w))
  | none => let m := bxMag fn; bxElem m (row.drop (k / 16 * bxBytes m)) (k % 16)
/-- Element k of an s8 or s4 row. -/
def rowInt (fn : Nat) (row : List Byte) (k : Nat) : Int :=
  if fn = 9 then toSigned 8 (row.getD k 0).toNat
  else toSigned 4 ((row.getD (k / 2) 0).toNat / (if k % 2 = 1 then 16 else 1))

/-- K-steps of one group of R146. -/
def groupSize (fn : Nat) : Nat := if fn = 2 || fn = 3 then 2 else if fn = 4 || fn = 5 then 4 else 16

/-- z plus an exact sum, rounded to f32. -/
def accAdd (z : Nat) (xs : List Num) : Nat := (roundTo .f32 .rne false (sumNum .rne (decodeF .f32 z :: xs))).1

/-- One k-step of a pattern that is not all MAD. DESIGN CHOICE (assumption 92): max and min order zeros as FMNX does, -0 below +0. -/
def patStep (code z : Nat) (a b : Num) : Nat :=
  match code with
  | 0 => accAdd z [mulNum a b]
  | 1 => accAdd z [(sumNum .rne [a, b.negate]).abs]
  | 2 => (fpMnx .f32 false true false z (roundTo .f32 .rne false (sumNum .rne [a, b])).1).1
  | _ => (fpMnx .f32 false false false z (roundTo .f32 .rne false (sumNum .rne [a, b])).1).1

/-- One cell of MatMul (R146, R286). -/
def mmaCell (fa fb pat : Nat) (a b : List Byte) (z : Nat) : Nat :=
  let K := mmaK fa
  if fa = 9 || fa = 11 then
    ofInt 32 ((List.range K).foldl (fun (acc : Int) k => acc + rowInt fa a k * rowInt fb b k) (z : Int))
  else if pat = 0 then
    let n := groupSize fa
    (List.range (K / n)).foldl (fun z q =>
      accAdd z ((List.range n).map (fun j => mulNum (rowNum fa a (n * q + j)) (rowNum fb b (n * q + j))))) z
  else (List.range K).foldl (fun z k => patStep (pat / 4 ^ (k % 4) % 4) z (rowNum fa a k) (rowNum fb b k)) z

/-! ## Accumulator tiles (R89) -/

def AccTile.get (t : AccTile) (k : Nat) : Word32 :=
  match SMap.find t.cells k with
  | some v => v
  | none => match t.seed with
    | none => 0
    | some d => Config.freeAcc d k
def Core.accTile (c : Core) (n : Nat) : AccTile := SMap.get c.acc n {}
/-- A tile from its 1,024 elements by row and column. -/
def accOf (poison : Bool) (f : Nat → Nat → Word32) : AccTile :=
  { cells := ((List.range 32).map (fun i => (List.range 32).map (fun j => (32 * i + j, f i j)))).flatten, poison := poison }

/-- The z-tile that an instruction names, and whether it writes it. -/
def zNum (x : EF) : Nat := x.qual.toNat % 4
def MEntry.z (m : MEntry) : Option Nat :=
  match m.instr with
  | .mma _ x => some (zNum x)
  | .mmag _ x => some (zNum x)
  | .zld _ x => some (zNum x)
  | .zclr _ x => some (zNum x)
  | .zrowWr _ x => some (zNum x)
  | _ => none
/-- Pending (R282). -/
def Core.zPending (c : Core) (slot n : Nat) : Bool := c.mq.any (fun m => m.slot == slot && m.z == some n)

/-! ## Issue (R282, R286, R287, R289) -/

/-- The completion flag that an instruction names, as it is at issue (R158, R283): none for a local flag outside the window. -/
def Env.completionFlag (e : Env) (x : EF) : Option FlagRef :=
  match x.fkind.toNat with
  | 1 => if e.g.window.size ≤ x.flag.toNat then none else some (.own e.g.cluster e.g.core (e.g.window.base + x.flag.toNat) e.g.window.serial)
  | 2 => some (.remote ((e.g.g (x.flag.toNat % 16)).setWidth 32))
  | _ => some .none

/-- A tile operand: its entry, state and the bytes that its rows may take up to. -/
def Env.tileBad (e : Env) (f : Reg) : Bool := !(e.tileAt (e.tileIx f)).defd || !e.tileNamed f
def Tile.pitch (t : Tile) (row : Nat) : Nat := if t.stride = 0 then row else t.stride
/-- 32 rows of a tile lie wrong (R286, R289): a stride off its unit or below the row, or a last row beyond the limit. -/
def Tile.rowsBad (t : Tile) (row unit : Nat) (toLen : Bool) : Bool :=
  t.pitch row % unit != 0 || t.pitch row < row || 31 * t.pitch row + row > (if toLen && t.len > 0 then t.len else t.bytes)

/-- The queue of the gang's slot is full. -/
def Env.mqFull (e : Env) : Bool := ((e.s.core e.g.gcore).mq.filter (fun m => m.slot == e.g.slot)).length ≥ Config.matrixQueue

/-- The instruction enters its queue. -/
def Env.enqueue (e : Env) (m : MEntry) : State :=
  { e.s.modCore e.g.gcore (fun c => { c with mq := c.mq ++ [{ m with id := e.s.next, uid := e.g.uid, slot := e.g.slot, prio := e.g.prio, at_ := c.clk, mark := e.g.mark }] }) with
    next := e.s.next + 1 }
/-- An entry with nothing in it but its instruction and flag. -/
def mEntry (i : Instr) (flag : FlagRef) : MEntry := { id := 0, uid := 0, slot := 0, prio := 0, at_ := 0, instr := i, flag := flag }
def MEntry.withA (m : MEntry) (k row : Nat) (t : Tile) : MEntry :=
  { m with aEntry := k, aSlot := k / 16, aOff := t.base * 128, aStride := t.pitch row, aLen := row }
def MEntry.withB (m : MEntry) (k row : Nat) (t : Tile) : MEntry :=
  { m with bEntry := k, bSlot := k / 16, bOff := t.base * 128, bStride := t.pitch row, bLen := row }

/-- tstat after an instruction that names two tiles: the manual says which is the most recent of instructions, not of operands. -/
def Env.tstat2 (e : Env) (st : State) (k j : Nat) : State :=
  { st.setTstat e.g.uid (e.tstat (if (Config.freeWord e.s.draw).getLsbD 0 then k else j)) with draw := st.draw + 1 }

/-- The instruction acts once, with its flag: outside its window, the flag is illegal whatever the guard. -/
def matrixSem (x : EF) (act : Env → FlagRef → Res) : Sem where
  op e := match e.completionFlag x with
    | none => e.illegal
    | some fl => if !e.acts then e.nothing else act e fl

def Env.protection (_ : Env) (a : Word64 := 0) : Res := .trap { cause := causeProtection, taddr := a }

def semMma (h : Hd) (x : EF) : Sem :=
  matrixSem x (fun e fl =>
    let ka := e.tileIx x.ta; let kb := e.tileIx x.tb
    let ta := e.tileAt ka; let tb := e.tileAt kb
    let ra := mmaRow x.fn.toNat; let rb := mmaRow (mmaB x)
    if e.tileBad x.ta || e.tileBad x.tb then e.protection
    else if ta.state != 2 || tb.state != 2 || e.mqFull then .wait e.s
    else if ta.rowsBad ra 8 true || tb.rowsBad rb 8 true then e.protection
    else .ok { st := e.tstat2 (e.enqueue (((mEntry (.mma h x) fl).withA ka ra ta).withB kb rb tb)) ka kb })
def execMma (h : Hd) (x : EF) (s : State) := run (.mma h x) (semMma h x) s

/-- The index register of a gather: v(idx) of strand i, which in the engine slot are both halves of every cluster. -/
def Env.gatherRows (e : Env) : List Nat := if e.vliw then List.range 32 else e.parts

/-- MMAG: the rows are addressed, checked in the order of R230 and read at issue, once tile B is ready and the queue has room. -/
def semMmag (h : Hd) (x : EF) : Sem :=
  matrixSem x (fun e fl =>
    let gs := e.g.g (x.stg.toNat % 16)
    let idx := bits64 gs 47 40
    let kb := e.tileIx x.tb
    let tb := e.tileAt kb
    let ra := mmaRow x.fn.toNat; let rb := mmaRow (mmaB x)
    let at_ (i : Nat) : Int := (bits64 gs 20 0 : Nat) + toSigned 32 (e.g.v i (idx % 128)).toNat * (bits64 gs 39 24 : Nat)
    let ea (i : Nat) : Nat := e.g.core * 2 ^ 21 + (at_ i).toNat
    let rows := e.gatherRows
    let outside (i : Nat) : Bool := at_ i < 0 || (2 ^ 21 : Int) < at_ i + ra
    let denied (i : Nat) : Bool := eaSlot (ea i) != eaSlot (ea i + ra - 1) || !e.s.spadOk e.g (ea i) || !e.s.spadOk e.g (ea i + ra - 1)
    let ta (i : Nat) : Word64 := BitVec.ofInt 64 (e.g.core * 2 ^ 21 + at_ i)
    if bits64 gs 23 21 != 0 || bits64 gs 63 48 != 0 || 128 ≤ idx then e.illegal
    else if !e.tileBad x.tb && (tb.state != 2 || e.mqFull) then .wait e.s
    else if rows.any (fun i => e.g.poisonV i (idx % 128)) then .trap { cause := causePoison }
    else if !tb.defd then e.protection
    else match rows.find? outside with
      | some i => e.protection (ta i)
      | none =>
        match rows.find? (fun i => (at_ i).toNat % 8 != 0) with
        | some i => .trap { cause := causeMisaligned, taddr := ta i }
        | none =>
          match rows.find? denied with
          | some i => e.protection (ta i)
          | none =>
            if e.tileBad x.tb || tb.rowsBad rb 8 true then e.protection
            else
              let got := rows.map (fun i => (i, e.spadBytes (spadPa e.g.cluster (ea i)) ra .mtx))
              let m := (mEntry (.mmag h x) fl).withB kb rb tb
              let st := e.enqueue { m with rows := got.map (fun r => (r.1, r.2.1)), bad := got.any (fun r => r.2.2) }
              .ok { st := ({ st with draw := st.draw + 1 } : State).setTstat e.g.uid (e.tstat kb) })
def execMmag (h : Hd) (x : EF) (s : State) := run (.mmag h x) (semMmag h x) s

/-- Bytes of a row of 32 elements of a tile format (R289). -/
def accRow (fn : Nat) : Nat :=
  match fn with
  | 1 => 128 | 14 => 128 | 2 => 64 | 3 => 64 | 4 => 32 | 5 => 32 | _ => 2 * bxBytes (bxMag fn)

def semZld (h : Hd) (x : EF) : Sem :=
  matrixSem x (fun e fl =>
    let k := e.tileIx x.ta
    let t := e.tileAt k
    let r := accRow x.fn.toNat
    if e.tileBad x.ta then e.protection
    else if t.state != 2 || e.mqFull then .wait e.s
    else if t.rowsBad r 4 true then e.protection
    else .ok { st := (e.enqueue ((mEntry (.zld h x) fl).withA k r t)).setTstat e.g.uid (e.tstat k) })
def execZld (h : Hd) (x : EF) (s : State) := run (.zld h x) (semZld h x) s

/-- ZST names its destination as tile B; it reads no tile. -/
def semZst (h : Hd) (x : EF) : Sem :=
  matrixSem x (fun e fl =>
    let k := e.tileIx x.tb
    let t := e.tileAt k
    let r := accRow x.fn.toNat
    if e.tileBad x.tb || (t.state == 1 && t.filler == 0) then e.protection
    else if t.state != 1 || e.mqFull then .wait e.s
    else if t.rowsBad r 4 false then e.protection
    else .ok { st := (e.enqueue { (mEntry (.zst h x) fl).withB k r t with bLen := 0 }).setTstat e.g.uid (e.tstat k) })
def execZst (h : Hd) (x : EF) (s : State) := run (.zst h x) (semZst h x) s

def semZclr (h : Hd) (x : EF) : Sem :=
  matrixSem x (fun e fl => if e.mqFull then .wait e.s else .ok { st := e.enqueue (mEntry (.zclr h x) fl) })
def execZclr (h : Hd) (x : EF) (s : State) := run (.zclr h x) (semZclr h x) s

/-- ZROW read: at issue, once its tile is not pending. -/
def semZrowRd (_ : Hd) (x : EF) : Sem where
  op e :=
    let c := e.s.core e.g.gcore
    let z := c.accTile (4 * e.g.slot + zNum x)
    if !e.acts then e.nothing
    else if c.zPending e.g.slot (zNum x) then .wait e.s
    else if z.poison then .trap { cause := causePoison }
    else .ok { st := e.s, writes := e.gatherRows.map (fun j =>
      { dst := .v j x.ta.toNat, val := (z.get (32 * (x.pat.toNat % 32) + j)).setWidth 64 }) }
def execZrowRd (h : Hd) (x : EF) (s : State) := run (.zrowRd h x) (semZrowRd h x) s

def semZrowWr (h : Hd) (x : EF) : Sem :=
  matrixSem x (fun e fl =>
    if e.gatherRows.any (fun j => e.g.poisonV j x.ta.toNat) then .trap { cause := causePoison }
    else if e.mqFull then .wait e.s
    else .ok { st := e.enqueue { mEntry (.zrowWr h x) fl with regs := e.gatherRows.map (fun j => (j, e.g.v j x.ta.toNat)) } })
def execZrowWr (h : Hd) (x : EF) (s : State) := run (.zrowWr h x) (semZrowWr h x) s

/-! ## Start (R282, R283) -/

/-- Occupancy C. -/
def MEntry.occupancy (m : MEntry) : Nat :=
  match m.instr with
  | .mma _ x => if x.pat == 0#8 then 16 else mmaK x.fn.toNat
  | .mmag _ x => if x.pat == 0#8 then 16 else mmaK x.fn.toNat
  | .zld .. => 32
  | .zst .. => 32
  | .zclr .. => 2
  | _ => 1

/-- The heads of the queues that may start now. -/
def Core.heads (c : Core) : List MEntry :=
  (List.range 16).filterMap (fun n => ((c.mq.filter (fun m => m.slot == n)).find? (fun m => m.started.isNone)).filter (fun m => m.at_ + 2 ≤ c.clk))

/-- The engine's choice: a VLIW thread first, then priority, issue cycle, slot. -/
def State.mBetter (s : State) (a b : MEntry) : Bool :=
  let v (m : MEntry) : Nat := match s.gang? m.uid with | some g => if g.ctl.vliw then 1 else 0 | none => 0
  if v a != v b then v a > v b
  else if a.prio != b.prio then a.prio > b.prio
  else if a.at_ != b.at_ then a.at_ < b.at_
  else a.slot < b.slot
def State.mNext (s : State) (core : Nat) : Option MEntry :=
  (s.core core).heads.foldl (fun best m => match best with
    | none => some m
    | some b => if s.mBetter m b then some m else best) none

/-- 32 rows of an operand as a path of a gang sees them now (R119), and whether any byte is poisoned. -/
def State.tileRows (s : State) (p : Path) (uid : Nat) (vliw : Bool) (core slot off stride len : Nat) : List (Nat × List Byte) × Bool :=
  let base := spadPa (core / 32) (core % 32 * 2 ^ 21 + slot * 2 ^ 17 + off)
  let rs := (List.range 32).map (fun r => (r, (List.range len).map (fun i => s.spadLoadByte uid vliw (base + r * stride + i) p)))
  (rs.map (fun r => (r.1, r.2.map Prod.fst)), rs.any (fun r => r.2.any Prod.snd))

/-- The operands of an instruction are read (R284). -/
def State.mRead (s : State) (core : Nat) (m : MEntry) : MEntry :=
  let p := match m.instr with | .zld .. => Path.vec | _ => .mtx
  let vliw := (s.gang? m.uid).any (fun g => g.ctl.vliw)
  let a := if m.aLen = 0 then (m.rows, m.bad) else s.tileRows p m.uid vliw core m.aSlot m.aOff m.aStride m.aLen
  let b := if m.bLen = 0 then ([], false) else s.tileRows p m.uid vliw core m.bSlot m.bOff m.bStride m.bLen
  { m with rows := a.1, rowsB := b.1, bad := a.2 || b.2 }

/-- MATRIX_START. -/
def execMatrixStart (core : Nat) (s : State) : Host.Outcome State Fault Refusal :=
  let c := s.core core
  if c.frozen || c.clk < c.mfree then .next s
  else match s.mNext core with
    | none => .next s
    | some m =>
      let m' := { s.mRead core m with started := some c.clk }
      .next (s.modCore core (fun c => { c with mfree := c.clk + m.occupancy, mq := c.mq.map (fun x => if x.id == m.id then m' else x) }))

/-! ## Completion (R283, R284, R286, R289, R290) -/

/-- Elements whose operands were stored to before the completion hold unpredictable values. -/
def MEntry.spoilt (m : MEntry) (i j : Nat) : Bool :=
  match m.instr with
  | .zld .. => NSet.has m.hitA i
  | _ => NSet.has m.hitA i || NSet.has m.hitB j

def MEntry.rowOf (m : MEntry) (i : Nat) : List Byte := ((m.rows.find? (fun r => r.1 == i)).map Prod.snd).getD []
def MEntry.colOf (m : MEntry) (j : Nat) : List Byte := ((m.rowsB.find? (fun r => r.1 == j)).map Prod.snd).getD []

/-- An element of a row of a tile format as ZLD gives it. -/
def zldElem (fn : Nat) (row : List Byte) (j : Nat) : Nat :=
  if fn = 14 then leNat ((row.drop (4 * j)).take 4) else (roundTo .f32 .rne false (rowNum fn row j)).1
/-- A row of an accumulator tile as ZST writes it. -/
def zstRow (fn : Nat) (rm : Rm) (sat : Bool) (zs : List Nat) : List Byte :=
  match Fmt.ofCode fn with
  | some f => (zs.map (fun z => leBytes (f.width / 8) (roundTo f rm sat (decodeF .f32 z)).1)).flatten
  | none =>
    if fn = 14 then (zs.map (leBytes 4)).flatten
    else
      let xs := zs.map (decodeF .f32)
      (bxEncode (bxMag fn) (xs.take 16)).1 ++ (bxEncode (bxMag fn) (xs.drop 16)).1

/-- The value of an accumulator tile after an instruction that writes one. -/
def MEntry.result (m : MEntry) (z : AccTile) (draw : Nat) : AccTile :=
  let free (i j : Nat) (v : Word32) : Word32 := if m.spoilt i j then Config.freeAcc draw (32 * i + j) else v
  let mm (x : EF) : AccTile :=
    let zi := x.qual.getLsbD 2
    accOf ((z.poison && !zi) || m.bad) (fun i j => free i j (BitVec.ofNat 32
      (mmaCell x.fn.toNat (mmaB x) x.pat.toNat (m.rowOf i) (m.colOf j) (if zi then 0 else (z.get (32 * i + j)).toNat))))
  match m.instr with
  | .mma _ x => mm x
  | .mmag _ x => mm x
  | .zld _ x => accOf (z.poison || m.bad) (fun i j => free i j (BitVec.ofNat 32 (zldElem x.fn.toNat (m.rowOf i) j)))
  | .zclr _ x => accOf false (fun _ _ => match x.pat.toNat % 4 with | 0 => 0 | 1 => 0xFF800000 | _ => 0x7F800000)
  | .zrowWr _ x => { z with cells := m.regs.foldl (fun c r => SMap.set c (32 * (x.pat.toNat % 32) + r.1) r.2) z.cells }
  | _ => z

/-- A failure in the engine error word (R299, R388): the first one's code and class stand, each is counted. -/
def Gang.engineError (g : Gang) (code cls : Nat) : Gang :=
  let w := g.spec.eerr.toNat
  let n := min 255 (w / 256 % 256 + 1)
  let first := if w % 16 = 0 then code + 16 * cls else w % 256
  { g with spec := { g.spec with eerr := BitVec.ofNat 32 (first + 256 * n) } }

/-- MATRIX_COMPLETION. A poisoned operand of an MTX read is a failure of code 6, for which the manual names no class. -/
def execMatrixCompletion (core : Nat) (s : State) : Host.Outcome State Fault Refusal :=
  let c := s.core core
  let due := c.mq.filter (fun m => match m.started with | some t => t + m.occupancy + 4 ≤ c.clk | none => false)
  let first := due.foldl (fun (best : Option MEntry) m => match best with
    | none => some m
    | some b => if m.started.getD 0 < b.started.getD 0 then some m else best) none
  match first with
  | none => .next s
  | some m =>
    if c.frozen then .next s
    else
      let s1 : State := s.modCore core (fun c => { c with mq := c.mq.filter (fun x => x.id != m.id) })
      let key := 4 * m.slot + m.z.getD 0
      let s2 : State := match m.instr with
        | .zst _ x =>
          let z := c.accTile (4 * m.slot + zNum x)
          let base := spadPa (core / 32) (core % 32 * 2 ^ 21 + m.bSlot * 2 ^ 17 + m.bOff)
          (List.range 32).foldl (fun (st : State) i => st.spadStore none (base + i * m.bStride)
            (zstRow x.fn.toNat (Rm.ofCode (x.pat.toNat % 4)) (x.pat.getLsbD 2) ((List.range 32).map (fun j => (z.get (32 * i + j)).toNat))) z.poison) s1
        | _ =>
          { s1.modCore core (fun c => { c with acc := SMap.set c.acc key (m.result (c.accTile key) s.draw) }) with draw := s.draw + 1 }
      let mtx := match m.instr with | .mma .. => true | .mmag .. => true | _ => false
      let s3 := if m.bad && mtx then
          { s2.modGang m.uid (fun g => g.engineError 6 ((Config.freeWord s2.draw).toNat % 16)) with draw := s2.draw + 1 }
        else s2
      .next (s3.postRef m.flag (((s.gang? m.uid).map Gang.ctx).getD 0) m.mark (placeCode (core / 32) (core % 32) m.slot)).pump

end Sys2Proof.Machine
end

