-- ==== Sys2Proof/Machine/Engines.lean ====
section
/-! DEFINITION. The data engines (R292 to R301): majors 0x76 to 0x7A, the taking up of commands, what a copy, a stream and a frame move,
and the completion of a command. -/

namespace Sys2Proof.Machine

/-! ## Staging registers and status (R293, R298) -/

def semGset (_ : Hd) (x : RF) : Sem where
  op e :=
    let a : Src := { f := x.a, w := .w64, base := true }
    if !e.acts then e.nothing
    else if e.srcPoison a e.lead then .trap { cause := causePoison }
    else .ok { st := e.s, writes := [{ dst := .g (x.d.toNat % 16), val := e.uniform a }] }
def execGset (h : Hd) (x : RF) (s : State) := run (.gset h x) (semGset h x) s

/-- ests.q: the gang's commands and matrix entries that are accepted and not complete. -/
def semEstsQ (_ : Hd) (x : RF) : Sem where
  op e :=
    let mine := e.s.cmds.filter (fun c => c.uid == some e.g.uid)
    let n1 := min 255 (mine.filter (fun c => !c.egress)).length
    let n2 := min 255 (mine.filter (fun c => c.egress)).length
    let n3 := ((e.s.core e.g.gcore).mq.filter (fun m => m.uid == e.g.uid)).length
    if !e.acts then e.nothing
    else .ok { st := e.s, writes := e.dstWide x.d .w32 (BitVec.ofNat 128 (n1 + 256 * n2 + 65536 * n3)) }
def execEstsQ (h : Hd) (x : RF) (s : State) := run (.estsQ h x) (semEstsQ h x) s

def semEstsErr (_ : Hd) (x : RF) : Sem where
  op e :=
    if !e.acts then e.nothing
    else .ok { st := e.s.modGang e.g.uid (fun g => { g with spec := { g.spec with eerr := 0 } })
               writes := e.dstWide x.d .w32 (e.g.spec.eerr.setWidth 128) }
def execEstsErr (h : Hd) (x : RF) (s : State) := run (.estsErr h x) (semEstsErr h x) s

/-! ## Issue checks (R292, R294, R296, R297) -/

/-- What the issue of a command finds: what it will do, its future, its queue, the tiles it names, and the share that it writes. -/
structure Plan where
  kind   : CmdKind
  future : Option Nat := none
  egress : Bool := false
  engine : Nat
  tiles  : List Nat := []
  dst    : Option (Nat × Nat) := none

def Env.staged (e : Env) (x : EF) (k : Nat) : Word64 := e.g.g ((x.stg.toNat + k) % 16)
/-- The copy engine of the issuing slot. -/
def Env.copyEngine (e : Env) : Nat := 12 * e.g.cluster + (16 * e.g.core + e.g.slot) % 12

def protAt (a : Nat) : TrapInfo := { cause := causeProtection, taddr := BitVec.ofNat 64 a }

/-- The first failure of a list of checks, in order. -/
def firstFail : List (Bool × TrapInfo) → Option TrapInfo
  | [] => none
  | (b, t) :: l => if b then some t else firstFail l

/-- The checks 3 of R230 on an address of a kind and the span of bytes that starts there. A source tile whose len is 0 is limited by its size
(R95). -/
def Env.spanRange (e : Env) (kind a span tile : Nat) (dst : Bool) : List (Bool × TrapInfo) :=
  let t := e.tileAt tile
  let limit := if !dst && t.len > 0 then t.len else t.bytes
  match kind with
  | 0 => [(a ≥ 2 ^ 56 || (span != 0 && a + span > 2 ^ 56), protAt a)]
  | 1 => [(a ≥ 2 ^ 26, protAt a)]
  | _ => [(a ≥ 2 ^ 18, protAt a), (!t.defd, protAt a), (a + span > limit, protAt a)]
/-- The checks 5: one share that the gang may address, or a tile that it may name. -/
def Env.spanTarget (e : Env) (kind a span : Nat) (f : Reg) : List (Bool × TrapInfo) :=
  let last := a + (span - 1)
  match kind with
  | 1 => [(span != 0 && (last ≥ 2 ^ 26 || a / 2 ^ 17 != last / 2 ^ 17 || !e.s.spadOk e.g a || !e.s.spadOk e.g last), protAt a)]
  | 2 => [(!e.tileNamed f, protAt a)]
  | _ => []
def futureRange (fut : Option Nat) : List (Bool × TrapInfo) := match fut with | some a => [(a ≥ 2 ^ 56, protAt a)] | none => []
def aligned (a : Option Nat) (n : Nat) : List (Bool × TrapInfo) :=
  match a with
  | some a => [(a % n != 0, { cause := causeMisaligned, taddr := BitVec.ofNat 64 a })]
  | none => []

/-- An address of a kind as the engine uses it: generic, an aperture address, or an offset in a tile. -/
def Env.spot (e : Env) (kind a : Nat) : Nat := if kind = 1 then spadPa e.g.cluster a else a
/-- The share that an address names: global core and slot. -/
def Env.shareOf (e : Env) (kind a tile : Nat) : Option (Nat × Nat) :=
  match kind with
  | 1 => some (32 * e.g.cluster + eaCore a, eaSlot a)
  | 2 => some (e.g.gcore, tile / 16)
  | _ => none

/-- The declared byte counts of COPY, STRM and NETX (R59, R294, R296, R297). -/
def copyCount (x : EF) (e : Env) : Nat := bits64 (e.staged x 2) 31 0 * (if x.fn.getLsbD 1 then bits64 (e.staged x 2) 47 32 + 1 else 1)
def strmCount (x : EF) (e : Env) : Nat := bits64 (e.staged x 1) 31 0 * bits64 (e.staged x 1) 63 32
def netxCount (x : EF) (e : Env) : Nat := bits64 (e.staged x 0) 13 0

def copyPlan (x : EF) (e : Env) : Except TrapInfo Plan :=
  let sk := x.qual.toNat % 4; let dk := x.qual.toNat / 4
  let two := x.fn.getLsbD 1
  let g2 := e.staged x 2; let g3 := e.staged x 3
  let src := (e.staged x 0).toNat; let dst := (e.staged x 1).toNat
  let n := bits64 g2 31 0
  let rows := if two then bits64 g2 47 32 + 1 else 1
  let ss := if two then bits64 g3 31 0 else 0; let ds := if two then bits64 g3 63 32 else 0
  let fut := if x.fn.getLsbD 0 then some (e.staged x (if two then 4 else 3)).toNat else none
  let span (str : Nat) : Nat := if n = 0 then 0 else (rows - 1) * str + n
  let ta := e.tileIx x.ta; let tb := e.tileIx x.tb
  let checks :=
    [((if two then bits64 g2 63 48 != 0 else bits64 g2 63 32 != 0) || n * rows > 2 ^ 32 - 1, protAt 0)]
    ++ e.spanRange sk src (span ss) ta false ++ e.spanRange dk dst (span ds) tb true ++ futureRange fut ++ aligned fut 8
    ++ e.spanTarget sk src (span ss) x.ta ++ e.spanTarget dk dst (span ds) x.tb
  match firstFail checks with
  | some t => .error t
  | none => .ok { kind := .copy sk dk (e.spot sk src) (e.spot dk dst) n rows ss ds ta tb, future := fut
                  engine := e.copyEngine, tiles := (if sk = 2 then [ta] else []) ++ (if dk = 2 then [tb] else []), dst := e.shareOf dk dst tb }

/-- The largest offset of a stream's chunks from its base; a walk that comes round meets every multiple of the greatest common divisor. -/
def strmReach (count step wrap : Nat) : Nat :=
  if wrap = 0 then (count - 1) * step
  else if wrap / Nat.gcd step wrap ≤ count then wrap - Nat.gcd step wrap
  else (List.range count).foldl (fun m q => max m (q * step % wrap)) 0

/-- STRM (R296). DESIGN CHOICE (assumption 116): no chunk byte, or no chunk, is a protection trap at issue. -/
def strmPlan (x : EF) (out : Bool) (e : Env) : Except TrapInfo Plan :=
  let mk := x.qual.toNat % 4
  let g1 := e.staged x 1; let g2 := e.staged x 2
  let base := (e.staged x 0).toNat
  let c := bits64 g1 31 0; let m := bits64 g1 63 32
  let step := bits64 g2 31 0; let wrap := bits64 g2 63 32
  let fut := if x.fn.getLsbD 0 then some (e.staged x 3).toNat else none
  let t := e.tileIx x.ta
  let span := strmReach m step wrap + c
  let checks :=
    [(c == 0 || m == 0 || c * m > 2 ^ 32 - 1, protAt 0)]
    ++ e.spanRange mk base span t (!out) ++ e.spanRange 2 0 c t (!out) ++ futureRange fut ++ aligned fut 8
    ++ e.spanTarget mk base span x.ta ++ e.spanTarget 2 0 c x.ta
  match firstFail checks with
  | some t => .error t
  | none => .ok { kind := .strm out mk (e.spot mk base) c m step wrap t, future := fut, engine := e.copyEngine, tiles := [t]
                  dst := if out then e.shareOf mk base t else some (e.g.gcore, t / 16) }

/-- NETX (R297). DESIGN CHOICE (assumption 116): a reserved bit of g(S) that is set is a protection trap at issue. -/
def netxPlan (x : EF) (e : Env) : Except TrapInfo Plan :=
  let g0 := e.staged x 0
  let ts := x.qual.toNat
  let len := bits64 g0 13 0
  let off := bits64 g0 47 32; let ck := bits64 g0 63 48
  let rec_ := if ts = 1 then some (e.staged x 1).toNat else none
  let fut := if x.fn.getLsbD 0 then some (e.staged x (if ts = 1 then 2 else 1)).toNat else none
  let k := e.tileIx x.ta
  let checks :=
    [(bits64 g0 15 14 != 0 || bits64 g0 31 19 != 0 || len < 14 || len > 9216, protAt 0),
     (ts == 2 && (off + 10 > len || (ck != 0 && ck + 2 > len)), protAt 0), (!(e.tileAt k).defd, protAt 0)]
    ++ futureRange rec_ ++ futureRange fut ++ aligned rec_ 16 ++ aligned fut 8 ++ [(!e.tileNamed x.ta, protAt 0)]
  match firstFail checks with
  | some t => .error t
  | none => .ok { kind := .netx (bits64 g0 18 16) len ts off ck (rec_.getD 0) k, future := fut, egress := true, engine := bits64 g0 18 16, tiles := [k] }

def State.engineFull (s : State) (egress : Bool) (engine : Nat) : Bool :=
  (s.cmds.filter (fun c => c.egress == egress && c.engine == engine)).length ≥ Config.engineQueue

/-- A command is checked, charged for its declared bytes (R59) and accepted into its queue, or the gang waits while that is full. -/
def engineSem (x : EF) (count : Env → Nat) (plan : Env → Except TrapInfo Plan) : Sem where
  ct e := if e.acts then (count e + 63) / 64 else 0
  op e := match e.completionFlag x with
    | none => e.illegal
    | some fl =>
      if !e.acts then e.nothing
      else match plan e with
        | .error t => .trap t
        | .ok p =>
          if e.s.engineFull p.egress p.engine then .wait e.s
          else
            let occupant := p.dst.bind (fun d => e.s.gangs.find? (fun g => g.inSlot && g.gcore == d.1 && g.slot == d.2))
            let c : Cmd := { id := e.s.next, uid := some e.g.uid, ctx := e.g.ctx, launch := e.g.launch, topup := e.g.topup, cluster := e.g.cluster
                             core := e.g.core, slot := e.g.slot, gen := e.g.gen, engine := p.engine, egress := p.egress, kind := p.kind
                             flag := fl, mark := e.g.mark, future := p.future, dstUid := occupant.map Gang.uid, dstGen := (occupant.map Gang.gen).getD 0 }
            let s1 : State := { e.s with next := e.s.next + 1, cmds := e.s.cmds ++ [c] }
            let s2 := match p.tiles with
              | [] => s1
              | [k] => s1.setTstat e.g.uid (e.tstat k)
              | k :: j :: _ => e.tstat2 s1 k j
            .ok { st := s2.count e.g 0x0E 1 }

def semCopy (_ : Hd) (x : EF) : Sem := engineSem x (copyCount x) (copyPlan x)
def execCopy (h : Hd) (x : EF) (s : State) := run (.copy h x) (semCopy h x) s
def semStrmIn (_ : Hd) (x : EF) : Sem := engineSem x (strmCount x) (strmPlan x false)
def execStrmIn (h : Hd) (x : EF) (s : State) := run (.strmIn h x) (semStrmIn h x) s
def semStrmOut (_ : Hd) (x : EF) : Sem := engineSem x (strmCount x) (strmPlan x true)
def execStrmOut (h : Hd) (x : EF) (s : State) := run (.strmOut h x) (semStrmOut h x) s
def semNetx (_ : Hd) (x : EF) : Sem := engineSem x (netxCount x) (netxPlan x)
def execNetx (h : Hd) (x : EF) (s : State) := run (.netx h x) (semNetx h x) s

/-! ## Commands at their engine -/

def Cmd.gcore (c : Cmd) : Nat := 32 * c.cluster + c.core
def State.modCmd (s : State) (id : Nat) (f : Cmd → Cmd) : State := { s with cmds := s.cmds.map (fun c => if c.id == id then f c else c) }
def State.cmd? (s : State) (id : Nat) : Option Cmd := s.cmds.find? (fun c => c.id == id)
/-- No earlier command of the same gang stands in the same queue (R292). -/
def State.cmdFirst (s : State) (c : Cmd) : Bool :=
  !s.cmds.any (fun x => x.id < c.id && c.uid.isSome && x.uid == c.uid && x.egress == c.egress && x.engine == c.engine)

/-- The core of a command's gang is frozen, and its tile table with it (R114). -/
def State.cmdFrozen (s : State) (c : Cmd) : Bool := c.uid.isSome && (s.core c.gcore).frozen

/-- Where a byte of a command lies. -/
inductive Spot where
  | at_ (pa : Nat)
  | missing (va kind level : Nat)
  | bad (code pa : Nat)
  deriving DecidableEq, Repr

/-- The translation unit of a command: one for each copy engine, one for egress (R380). -/
def Cmd.unit (c : Cmd) : Nat := if c.egress then 256 + 96 else 256 + c.engine

/-- A generic address of a command: translated for a gang, physical for a packet (R292, R361, R406). -/
def State.cmdGeneric (s : State) (c : Cmd) (a : Nat) (write : Bool) : Spot :=
  if c.uid.isNone then (if isDram a then .at_ a else .bad 2 a)
  else if a ≥ 2 ^ 56 then .bad 2 0
  else match s.translate c.unit c.ctx a with
    | .fault k l => .missing a k l
    | .page pa size rd wr _ =>
      let q := pageAddr pa size a
      if !(if write then wr else rd) then .bad 1 q
      else if isDram q || (isFabric q && s.fabricOk q (!write) write) then .at_ q
      else .bad 2 q

/-- A tile entry as a command knows it: from its taking up on as it was then, though its slot be freed since (R71). -/
def State.cmdTile (s : State) (c : Cmd) (k : Nat) : Tile :=
  match c.held.find? (fun (x : Nat × Tile) => x.1 == k) with
  | some x => x.2
  | none => s.tile c.gcore k
/-- An address of a kind: generic, an aperture address, or an offset of a tile of the issuing core. -/
def State.cmdSpot (s : State) (c : Cmd) (kind tile a : Nat) (write : Bool) : Spot :=
  match kind with
  | 0 => s.cmdGeneric c a write
  | 1 => .at_ a
  | _ => .at_ (spadPa c.cluster (tileEa c.core tile a (s.cmdTile c tile)))

/-- The share of an address is still that of the gang that held it, in the generation of its slot that it held then, or pinned (R72). -/
def State.shareLive (s : State) (c : Cmd) (pa : Nat) : Bool :=
  let l := spadLoc pa
  (s.pinnedTo l.1 l.2.1).isSome || s.gangs.any (fun g => some g.uid == c.dstUid && g.inSlot && g.gcore == l.1 && g.slot == l.2.1 && g.gen == c.dstGen)

def Cmd.asker (c : Cmd) (s : State) : Asker := { tenant := s.tenantOf c.ctx }
def Cmd.path (c : Cmd) : Path := if c.egress then .net else .cpy

def State.cmdRead (s : State) (c : Cmd) (pa n : Nat) : List Byte × Bool × State :=
  if isDram pa then s.homeRead c.path pa n (c.asker s)
  else if isSpad pa then
    let bs := (List.range n).map (fun i => s.spadByte c.path (pa + i))
    (bs.map Prod.fst, bs.any Prod.snd, s)
  else
    let r := s.fabricAnswer (.load n false 255#8 false false) { strand := 0, pa := pa } n
    (r.1, r.2.1, r.2.2.2)

def State.cmdWrite (s : State) (c : Cmd) (pa : Nat) (bs : List Byte) (poison : Bool) : State :=
  if isDram pa then s.pathWrite c.path c.id pa bs poison (c.asker s)
  else if isSpad pa then (if s.shareLive c pa then s.pathWrite c.path c.id pa bs poison (c.asker s) else s)
  else
    let r := s.fabricAnswer (.store bs.length) { strand := 0, pa := pa, val := BitVec.ofNat 128 (leNat bs) } bs.length
    if r.2.2.1 then r.2.2.2
    else
      let s1 := r.2.2.2.log c.ctx 1 pa (placeCode c.cluster c.core c.slot) 0
      match c.uid with | some u => s1.modGang u (fun g => { g with lostStore := true, lostSeq := s.next }) | none => s1

/-! ## Moving bytes (R294, R296) -/

/-- A block move: kinds, addresses, tiles, row bytes, rows and strides. -/
structure Move where
  sk : Nat
  dk : Nat
  src : Nat
  dst : Nat
  st : Nat
  dt : Nat
  n : Nat
  rows : Nat
  ss : Nat
  ds : Nat

def Cmd.mv (c : Cmd) : Move :=
  match c.kind with
  | .copy sk dk src dst n rows ss ds st dt => { sk := sk, dk := dk, src := src, dst := dst, st := st, dt := dt, n := n, rows := rows, ss := ss, ds := ds }
  | .strm out mem base n _ step wrap t =>
    let a := base + (if wrap = 0 then c.chunk * step else c.chunk * step % wrap)
    if out then { sk := 2, dk := mem, src := 0, dst := a, st := t, dt := 0, n := n, rows := 1, ss := 0, ds := 0 }
    else { sk := mem, dk := 2, src := a, dst := 0, st := 0, dt := t, n := n, rows := 1, ss := 0, ds := 0 }
  | .netx _ len _ _ _ _ t => { sk := 2, dk := 0, src := 0, dst := 0, st := t, dt := 0, n := len, rows := 1, ss := 0, ds := 0 }

/-- The physical pieces of a range of rows: addresses and lengths within pages of 4 KiB. -/
def State.pieces (s : State) (c : Cmd) (kind tile base str n rows : Nat) (write : Bool) : List (Nat × Nat) :=
  ((List.range rows).map (fun r =>
    let a := base + r * str
    (List.range ((a + n + 4095) / 4096 - a / 4096)).filterMap (fun p =>
      let lo := max a ((a / 4096 + p) * 4096)
      let hi := min (a + n) ((a / 4096 + p + 1) * 4096)
      match s.cmdSpot c kind tile lo write with
      | .at_ pa => some (pa, hi - lo)
      | _ => none))).flatten
/-- The bytes that both the source and the destination of a move cover. -/
def State.overlap (s : State) (c : Cmd) (m : Move) : List Nat :=
  (s.pieces c m.sk m.st m.src m.ss m.n m.rows false).flatMap (fun p =>
    (s.pieces c m.dk m.dt m.dst m.ds m.n m.rows true).flatMap (fun q =>
      let lo := max p.1 q.1
      (List.range (min (p.1 + p.2) (q.1 + q.2) - lo)).map (fun i => lo + i)))
/-- A byte as the path of a command sees it. -/
def State.cmdByte (s : State) (c : Cmd) (pa : Nat) : Byte :=
  if isDram pa then (s.pathByte c.path pa).1
  else if isSpad pa then (s.spadByte c.path pa).1
  else (s.fabricAnswer (.load 1 false 255#8 false false) { strand := 0, pa := pa } 1).1.headD 0

/-- A page of a move's source or destination is still missing. -/
def State.lacks (s : State) (c : Cmd) (m : Move) : Bool :=
  let size (l : List (Nat × Nat)) : Nat := (l.map Prod.snd).sum
  size (s.pieces c m.sk m.st m.src m.ss m.n m.rows false) + size (s.pieces c m.dk m.dt m.dst m.ds m.n m.rows true) < 2 * (m.n * m.rows)
/-- What the move will overwrite of its own source is kept for the bytes that copy it (R294). While a page is missing, the overlap that it brings is
found later: what was already written of it is unpredictable from then on, and what stood there before is its source byte. -/
def State.keep (s : State) (c : Cmd) (m : Move) : State × Cmd :=
  if c.moved = 0 || c.gapped then
    let new := (s.overlap c m).filter (fun pa => (SMap.find c.kept pa).isNone)
    let late := new.filter (fun pa => (SMap.find c.undo pa).isSome)
    let gap := s.lacks c m
    (late.foldl (fun st pa => { st.cmdWrite c pa [Config.freeByte st.draw pa] false with draw := st.draw + 1 }) s,
      { c with kept := new.foldl (fun k pa => SMap.set k pa (SMap.get c.undo pa (s.cmdByte c pa))) c.kept, gapped := gap, undo := if gap then c.undo else [] })
  else (s, c)
/-- What a write of the move is about to replace is remembered while a page is missing. -/
def State.remember (s : State) (c : Cmd) (pa n : Nat) : SMap Byte :=
  if c.gapped then (List.range n).foldl (fun u i => if (SMap.find u (pa + i)).isSome then u else SMap.set u (pa + i) (s.cmdByte c (pa + i))) c.undo else []

/-- A command fails with a code at a physical address; or waits for a page, whose fault is raised. -/
def Cmd.fail (c : Cmd) (code pa : Nat) : Cmd := { c with err := code, errPa := pa }
def State.cmdFault (s : State) (c : Cmd) (va k l : Nat) (write : Bool) : State × Cmd :=
  let number := if c.egress then (Config.freeWord s.draw).toNat % 16 else c.engine % 12
  ({ s.fault c.ctx va k l (64 + if write then 8 else 0) (placeCode c.cluster c.core c.slot) (some number) with draw := s.draw + 1 },
    { c with wait := NSet.add c.wait (va / 4096) })

/-- Where a command stands at its move: the addresses of the next byte at both ends. -/
def Cmd.ends (c : Cmd) (m : Move) : Nat × Nat :=
  (m.src + c.moved / m.n * m.ss + c.moved % m.n, m.dst + c.moved / m.n * m.ds + c.moved % m.n)
/-- The scratchpad of a frozen core halts, and what an engine writes there is held (R114). -/
def State.stalled (s : State) (c : Cmd) (m : Move) : Bool :=
  [s.cmdSpot c m.sk m.st (c.ends m).1 false, s.cmdSpot c m.dk m.dt (c.ends m).2 true].any (fun x => match x with
    | .at_ pa => isSpad pa && (s.core (spadLoc pa).1).frozen
    | _ => false)
/-- One piece of a move, in ascending order of row and address: within one sector at both ends, of at most k bytes. Destination bytes that the
source also covers are unpredictable; every other one receives its source byte (R294). -/
def State.moveStep (s : State) (c : Cmd) (m : Move) (k : Nat) : State × Cmd :=
  let r := c.moved / m.n
  let col := c.moved % m.n
  let a := m.src + r * m.ss + col
  let b := m.dst + r * m.ds + col
  match s.cmdSpot c m.sk m.st a false, s.cmdSpot c m.dk m.dt b true with
  | .bad code pa, _ => (s, c.fail code pa)
  | .missing va k l, _ => s.cmdFault c va k l false
  | _, .bad code pa => (s, c.fail code pa)
  | _, .missing va k l => s.cmdFault c va k l true
  | .at_ pa, .at_ pb =>
    let unit := if isFabric pa || isFabric pb then 16 else 64
    let n := min (min k (m.n - col)) (min (unit - pa % unit) (unit - pb % unit))
    let s0 := (s.cache c.unit c.ctx a (s.translate c.unit c.ctx a)).cache c.unit c.ctx b (s.translate c.unit c.ctx b)
    let got := (if c.uid.isSome then s0 else s).cmdRead c pa n
    let bytes := (List.range n).map (fun i =>
      if (SMap.find c.kept (pb + i)).isSome then Config.freeByte got.2.2.draw i else SMap.get c.kept (pa + i) (got.1.getD i 0))
    let s1 := ({ got.2.2 with draw := got.2.2.draw + 1 } : State).cmdWrite c pb bytes got.2.1
    let s2 := match c.uid.bind s1.gang? with | some g => s1.count g 0x0F n | none => s1
    let c1 := { c with moved := c.moved + n, undo := s.remember c pb n, maxOff := if m.dk = 2 then max c.maxOff (b + n) else c.maxOff }
    (s2, if got.2.1 then c1.fail 6 pa else c1)

/-- A move goes on to a byte count, until it fails, waits for a page, or meets a frozen core. -/
def State.moveOn : Nat → State → Cmd → Move → Nat → State × Cmd
  | 0, s, c, _, _ => (s, c)
  | k + 1, s, c, m, goal =>
    if c.moved ≥ goal || c.err != 0 || !c.wait.isEmpty || s.stalled c m then (s, c)
    else let r := s.moveStep c m (goal - c.moved); State.moveOn k r.1 r.2 m goal
/-- What a copy engine moves for one party before it serves another (R292). -/
def engineQuantum : Nat := 4096
/-- One turn of a move: 4 KiB, or what is left. -/
def State.move (s : State) (c : Cmd) : State × Cmd :=
  let m := c.mv
  let goal := min (m.n * m.rows) (c.moved + engineQuantum)
  let k := s.keep c m
  k.1.moveOn (goal - c.moved) k.2 m goal
/-- All of a move has been done. -/
def Cmd.allMoved (c : Cmd) : Bool := c.mv.n * c.mv.rows ≤ c.moved

/-! ## The turns of a copy engine (R292) -/

/-- The party that an engine serves a command for: a gang's place in its cluster, or Percale. -/
def Cmd.party (c : Cmd) : Nat := 1024 * c.engine + (if c.uid.isSome then 16 * c.core + c.slot else 512)
/-- A command that its engine is at work on. -/
def Cmd.working (c : Cmd) : Bool := !c.egress && c.taken && c.err = 0 && c.wait.isEmpty
/-- It is the command's turn at its engine: among those that it is at work on and that can go on, no other party was served longer ago. -/
def State.myTurn (s : State) (c : Cmd) : Bool :=
  let at_ (x : Cmd) : Nat := SMap.get s.turns x.party 0
  !s.cmds.any (fun x => x.id != c.id && x.working && x.engine == c.engine && !s.stalled x x.mv && (at_ x < at_ c || (at_ x == at_ c && x.id < c.id)))
/-- The engine has served the command's party; the next one's turn comes. -/
def State.passTurn (s : State) (c : Cmd) : State :=
  { s with turns := SMap.set s.turns c.party (s.turns.foldl (fun m t => max m t.2) 0 + 1) }

/-! ## Taking up (R96, R292, R296, R297) -/

/-- The tile becomes empty at once if nothing else reads it. -/
def State.drainNow (s : State) (core k : Nat) : State :=
  if (s.tile core k).state == 3 && !s.tileBusy core k then s.modTile core k (fun t => { t with state := 0 }) else s

/-- Is a logical port's link up (R399)? -/
def State.portUp (s : State) (lport : Nat) : Bool := (SMap.get s.ports (lport / 4) {}).up.getLsbD (lport % 4)

/-- The owner of a tile entry has yielded or exited since the command was accepted: only the command's gang can have named the entry (R95). -/
def State.ownerGone (s : State) (c : Cmd) (k : Nat) : Bool :=
  (s.pinnedTo c.gcore (k / 16)).isNone &&
    !s.gangs.any (fun g => c.uid == some g.uid && g.inSlot && g.gcore == c.gcore && g.slot == k / 16 && g.gen == c.gen && !g.iss.exiting)

/-- The tiles that a command drains and those that it fills when it is taken up, and the order of the engines (R97). -/
def Cmd.drains (c : Cmd) : List Nat :=
  match c.kind with
  | .copy 2 _ _ _ _ _ _ _ st _ => [st]
  | .strm true _ _ _ _ _ _ k => [k]
  | .netx _ _ _ _ _ _ k => [k]
  | _ => []
def Cmd.fills (c : Cmd) : List Nat :=
  match c.kind with
  | .copy _ 2 _ _ _ _ _ _ _ dt => [dt]
  | .strm false _ _ _ _ _ _ k => [k]
  | _ => []
def Cmd.rank (c : Cmd) : Nat := if c.egress then 256 + c.engine else c.engine
/-- A command is taken up, or a stream's next chunk begins: its tiles are in their states, which change now. -/
def State.takeUp (s : State) (c : Cmd) : State :=
  let core := c.gcore
  let tile (k : Nat) : Tile := s.tile core k
  let take (st : State) : State := st.modCmd c.id (fun c => { c with taken := true, held := (c.drains ++ c.fills).map (fun k => (k, tile k)) })
  let fill (st : State) (k : Nat) : State := st.modTile core k (fun t => { t with state := 1, filler := 0 })
  let drain (st : State) (k : Nat) : State := st.modTile core k (fun t => { t with state := 3 })
  let failed (code : Nat) : State := s.modCmd c.id (fun c => c.fail code 0)
  match c.kind with
  | .copy sk dk _ _ _ _ _ _ st dt =>
    if (sk == 2 && (tile st).state != 2) || (dk == 2 && (tile dt).state != 0) then s
    else
      let s1 := if sk = 2 then drain (take s) st else take s
      if dk = 2 then fill s1 dt else s1
  | .strm out _ _ n m _ _ k =>
    if c.chunk ≥ m then s
    else if !(tile k).defd || !(tile k).ring || s.ownerGone c k then failed 7
    else if !out && n > (tile k).bytes then failed 3
    else if out then
      (if (tile k).state != 2 then s else if n > (tile k).len then failed 3 else drain (take s) k)
    else if (tile k).state != 0 then s
    else fill (take s) k
  | .netx _ len _ _ _ _ k =>
    if (tile k).state != 2 then s
    else if len > (tile k).len then failed 3
    else drain (take s) k

/-! ## Completion (R292, R299, R300) -/

/-- The tile entry is still the one that the command was accepted for: its slot has not been given to another gang since (R23). -/
def State.tileStill (s : State) (c : Cmd) (k : Nat) : Bool := k / 16 != c.slot || SMap.get (s.core c.gcore).gens c.slot 0 == c.gen

/-- A failure or a double resolve is recorded: in the gang's error word, unless it has exited, and in the error log. -/
def State.recordError (s : State) (c : Cmd) (code pa : Nat) : State :=
  let cls := match c.kind with | .copy .. => 0 | .strm .. => 1 | .netx .. => 2
  let s1 := match c.uid with
    | some u => s.modGang u (fun g => if g.iss.exiting then g else
        let x := g.engineError code cls
        { x with iss := { x.iss with recStale := match x.loc with | .queued .. => true | _ => x.iss.recStale } })
    | none => s
  s1.log c.ctx 6 pa (placeCode c.cluster c.core c.slot) (code + 16 * cls)

/-- The resolution of a command's future at its home slice (R53): its status, and the decrement it sends. -/
def State.cmdResolve (s : State) (c : Cmd) (pa v : Nat) (poison : Bool) : Nat × State :=
  let w := s.futureAt pa c.path
  let r := resolveWord w.1 v poison
  let s1 := if r.2.1 = 3 then w.2.2 else w.2.2.deviceAtomic pa (leBytes 8 r.1) (c.asker s)
  (r.2.1, match r.2.2 with
    | some cell => s1.launchFlight { id := 0, uid := none, ctx := c.ctx, core := 0, queue := none
                                     kind := .cell cell poison c.topup (if c.uid.isSome then c.launch else none) }
    | none => s1)

/-- The value of a command's resolution: its declared bytes, or the transmit time (R294, R296, R297). -/
def Cmd.value (c : Cmd) : Nat :=
  match c.kind with
  | .copy _ _ _ _ n rows _ _ _ _ => n * rows
  | .strm _ _ _ n m _ _ _ => n * m
  | .netx .. => match c.sent with | some t => timeNs t + timeSec t % 65536 * 2 ^ 32 | none => 0

/-- A flag post of a command: by a gang's window, or the flag address that a packet names. -/
def State.postCmd (s : State) (c : Cmd) : State := s.postRef c.flag c.ctx c.mark (placeCode c.cluster c.core c.slot)

/-- A tile that a command fills becomes ready with a length; its bytes are then merged for the paths that read tiles (R128). -/
def State.tileReady (s : State) (c : Cmd) (k len : Nat) : State :=
  let t := s.tile c.gcore k
  if c.taken && s.tileStill c k && t.state == 1 && t.filler == 0 then
    (s.modTile c.gcore k (fun t => { t with state := 2, len := len })).mergeSpad (spadPa c.cluster (tileEa c.core k 0 t)) t.bytes
  else s

/-- The end of a command: tiles, failure, future, flag (R292). Its writes stand in the buffer of its path, where every later access of that
path finds them. DEDUCED (assumption 93): the merge of R292 is that into its path; for other paths the device merges at any later moment, or
when R127 asks for it. -/
def State.endCmd (s : State) (c : Cmd) (fut : Option Spot) : State :=
  let s2 := if c.err = 0 then s else s.recordError c c.err c.errPa
  let s3 := c.fills.foldl (fun st k => st.tileReady c k c.maxOff) s2
  let s4 := match fut with
    | some (.at_ pa) =>
      let r := s3.cmdResolve c pa c.value (c.err != 0)
      if r.1 = 3 then r.2.recordError c 5 pa else r.2
    | some (.bad code pa) => s3.recordError c code pa
    | _ => s3
  let s5 := s4.postCmd c
  let s6 : State := { s5 with
    cmds := s5.cmds.filter (fun x => x.id != c.id)
    launches := s5.launches.map (fun (l : Launch) => if c.packet == some l.id then { l with ended := true, status := if c.err = 0 then 0 else 10 } else l) }
  match c.source with
  | some k => if c.taken then s6.drainNow c.gcore k else s6
  | none => s6

/-- The future of a command, once its translation is known; the command waits while it is not. -/
def State.finishCmd (s : State) (c : Cmd) : State :=
  let s0 := s.modCmd c.id (fun _ => c)
  match c.future with
  | none => s0.endCmd c none
  | some va =>
    match s0.cmdGeneric c va true with
    | .missing va k l => let r := s0.cmdFault c va k l true; r.1.modCmd c.id (fun _ => r.2)
    | .at_ pa => s0.endCmd c (some (if isDram pa then .at_ pa else .bad 2 pa))
    | x => s0.endCmd c (some x)

/-- The bytes of a two-step record: RDTM.q's words (R259). -/
def timeRecord (t : Nat) : List Byte := leBytes 16 (timeQ t).toNat

/-- The last act of a command whose bytes have moved: a two-step frame writes its record first (R297). -/
def State.closeCmd (s : State) (c : Cmd) : State :=
  match c.kind, c.sent with
  | .netx _ _ 1 _ _ va _, some t =>
    if c.err != 0 || c.moved != 0 then s.finishCmd c
    else match s.cmdGeneric c va true with
      | .missing va k l => let r := s.cmdFault c va k l true; r.1.modCmd c.id (fun _ => r.2)
      | .bad code pa => s.finishCmd (c.fail code pa)
      | .at_ pa => (s.cmdWrite c pa (timeRecord t) false).finishCmd { c with moved := 16 }
  | _, _ => s.finishCmd c

/-- May a command end now: it has failed, or done what it does; nothing holds it. -/
def Cmd.ovr (c : Cmd) : Bool :=
  c.err != 0 || (match c.kind with
    | .copy .. => c.taken
    | .strm _ _ _ _ m _ _ _ => c.chunk ≥ m
    | .netx .. => c.sent.isSome)

/-- ENGINE_COMMAND_COMPLETION: a copy moves its bytes, 4 KiB in a turn; after the last the command ends, unless it waits for a page. -/
def execEngineCommandCompletion (id : Nat) (s : State) : Host.Outcome State Fault Refusal :=
  match s.cmd? id with
  | none => .next s
  | some c =>
    if !c.ovr || !c.wait.isEmpty || !s.cmdFirst c || s.cmdFrozen c then .next s
    else match c.kind with
      | .copy .. =>
        if c.err = 0 && !c.allMoved && (s.stalled c c.mv || !s.myTurn c) then .next s
        else
          let r := if c.err = 0 then s.move c else (s, c)
          .next (if r.2.wait.isEmpty && (r.2.err != 0 || r.2.allMoved) then r.1.closeCmd r.2 else (r.1.modCmd id (fun _ => r.2)).passTurn c).pump
      | _ => .next (s.closeCmd c).pump

/-- STRM_CHUNK_END: the chunk's bytes move, 4 KiB in a turn; after the last its tile changes state, the flag is posted, and the next tile is the ring's next. -/
def execStrmChunkEnd (id : Nat) (s : State) : Host.Outcome State Fault Refusal :=
  match s.cmd? id with
  | none => .next s
  | some c =>
    match c.kind with
    | .strm out mk base n m step wrap k =>
      if !c.taken || c.err != 0 || !c.wait.isEmpty || c.chunk ≥ m || s.cmdFrozen c
          || (!c.allMoved && (s.stalled c c.mv || !s.myTurn c)) then .next s
      else
        let r := s.move c
        if r.2.err != 0 || !r.2.wait.isEmpty || !r.2.allMoved then .next ((r.1.modCmd id (fun _ => r.2)).passTurn c).pump
        else
          let nx := (r.1.tile c.gcore k).next
          let s1 := if out then r.1 else r.1.tileReady c k n
          let s2 := ((s1.modCmd id (fun _ => { r.2 with
            taken := false, held := [], chunk := c.chunk + 1, moved := 0, maxOff := 0, kept := [], undo := [], gapped := false, kind := .strm out mk base n m step wrap nx })).passTurn c).postCmd c
          .next (if out then s2.drainNow c.gcore k else s2).pump
    | _ => .next s

/-! ## Frames (R297) -/

/-- A number in network byte order. -/
def beBytes (n v : Nat) : List Byte := (leBytes n v).reverse
def beNat (l : List Byte) : Nat := leNat l.reverse
/-- Puts bytes into a list at an offset. -/
def patchBytes (l : List Byte) (off : Nat) (bs : List Byte) : List Byte := l.take off ++ bs ++ l.drop (off + bs.length)
/-- Ones' complement sum of 16-bit words. -/
def onesAdd (a b : Nat) : Nat := let x := a + b; if x ≥ 65536 then x - 65535 else x
/-- The 16-bit word at an even offset of a frame. -/
def wordAt (l : List Byte) (off : Nat) : Nat := beNat [l.getD off 0, l.getD (off + 1) 0]

/-- One-step: seconds and nanoseconds at the offset, and the checksum updated as equation 3 of RFC 1624 gives for the words they lie in. -/
def oneStep (frame : List Byte) (off ck t : Nat) : List Byte :=
  let f1 := patchBytes frame off (beBytes 6 (timeSec t % 2 ^ 48) ++ beBytes 4 (timeNs t))
  let words := (List.range ((off + 9) / 2 - off / 2 + 1)).map (fun i => 2 * (off / 2 + i))
  let hc := beNat [frame.getD ck 0, frame.getD (ck + 1) 0]
  if ck = 0 || hc = 0 then f1
  else
    let sum := words.foldl (fun acc w => onesAdd (onesAdd acc (65535 - wordAt frame w)) (wordAt f1 w)) (65535 - hc)
    patchBytes f1 ck (beBytes 2 (65535 - sum))

/-- The frame check sequence of IEEE 802.3, over the bytes sent. -/
def crcStep (c : BitVec 32) (b : Byte) : BitVec 32 :=
  (List.range 8).foldl (fun c _ => if c.getLsbD 0 then (c >>> 1) ^^^ 0xEDB88320 else c >>> 1) (c ^^^ b.setWidth 32)
def fcs (l : List Byte) : List Byte := leBytes 4 (~~~(l.foldl crcStep 0xFFFFFFFF)).toNat

/-- NETX_FRAME_SENT: the frame leaves, or its port is down and it is dropped; the tile drains and the command completes. -/
def execNetxFrameSent (id : Nat) (s : State) : Host.Outcome State Fault Refusal :=
  match s.cmd? id with
  | none => .next s
  | some c =>
    match c.kind with
    | .netx port len ts off ck _ k =>
      if !c.taken || c.sent.isSome || c.err != 0 || !s.cmdFirst c || s.cmdFrozen c then .next s
      else
        let r := s.cmdRead c (spadPa c.cluster (tileEa c.core k 0 (s.cmdTile c k))) len
        let t := s.clock.t
        let c1 := if !s.portUp port then c.fail 4 0
          else if r.2.1 then c.fail 6 (spadPa c.cluster (tileEa c.core k 0 (s.cmdTile c k)))
          else { c with sent := some t }
        let body := if ts = 2 then oneStep r.1 off ck t else r.1
        let wire := body ++ List.replicate (60 - len) 0#8
        let s1 : State := if c1.err = 0 then { r.2.2 with out := r.2.2.out ++ [.frame port (wire ++ fcs wire) t] } else r.2.2
        let s2 := match c.uid.bind s1.gang? with | some g => if c1.err = 0 then s1.count g 0x0F len else s1 | none => s1
        .next ((s2.modCmd id (fun _ => c1)).closeCmd c1).pump
    | _ => .next s

end Sys2Proof.Machine
end

