-- ==== Sys2Proof/Machine/Save.lean ====
section
/-! DEFINITION. Saved gangs in memory: the regions of a full save and of a yield record (R348 to R350), and reading them back. -/

namespace Sys2Proof.Machine

/-! ## The regions -/

def word32s (l : List Word32) : List Byte := (l.map (fun w => leBytes 4 w.toNat)).flatten
def word64s (l : List Word64) : List Byte := (l.map (fun w => leBytes 8 w.toNat)).flatten

/-- The quads and pairs that a mask names, in ascending order. -/
def quads (cpm : Word64) : List Nat := (List.range 32).filter (fun q => cpm.getLsbD q)
def pairs (cpm : Word64) : List Nat := (List.range 32).filter (fun j => cpm.getLsbD (32 + j))

/-- Bytes that the device leaves unpredictable. -/
def freeBytes (draw from_ n : Nat) : List Byte := (List.range n).map (fun i => Config.freeByte draw (from_ + i))
/-- Bytes, then unpredictable ones up to n. -/
def padFree (draw from_ n : Nat) (l : List Byte) : List Byte := l.take n ++ freeBytes draw (from_ + l.length) (n - l.length)

/-- v0 to v127 of every strand. -/
def regionV (g : Gang) : List Byte := word32s ((List.range 4096).map (fun k => g.regs.v.get k))
/-- The scratchpad share. -/
def regionShare (sh : Share) : List Byte := (List.range 131072).map sh.byte
/-- The accumulator tiles of a slot. -/
def regionAcc (c : Core) (slot : Nat) : List Byte :=
  ((List.range 4).map (fun n => word32s ((List.range 1024).map (fun k => (SMap.get c.acc (4 * slot + n) {}).get k)))).flatten
/-- The v-register shadow: entry 4m + x of a strand is register x of the m-th quad. -/
def regionShadow (g : Gang) (draw : Nat) : List Byte :=
  let qs := quads g.spec.cpm
  ((List.range 32).map (fun st => padFree draw (64 * st) 64
    (word32s ((qs.map (fun q => (List.range 4).map (fun x => SMap.get g.shadow.v (128 * st + 4 * q + x) 0))).flatten)))).flatten

/-- A stack entry (R34). -/
def Entry.bytes : Entry → List Byte
  | .div ph m o opc j =>
    leBytes 8 (2 ^ 62 + (if ph then 2 ^ 61 else 0) + m.toNat) ++ leBytes 8 o.toNat ++ leBytes 8 opc.toNat ++ leBytes 8 j.toNat
  | .loop st n t start => leBytes 8 (2 ^ 63 + (st - 1) * 2 ^ 32 + n.toNat) ++ leBytes 8 t ++ leBytes 8 start.toNat ++ leBytes 8 0
/-- A k-register with its phase and arrive mark; their places in its eight bytes are the model's (R349 gives none). -/
def KReg.bytes (k : KReg) : List Byte :=
  [k.idx, k.phase, BitVec.ofNat 8 ((if k.valid then 1 else 0) + (if k.arrived then 2 else 0)), 0, 0, 0, 0, 0]
def Handle.pack (h : Handle) : Nat :=
  (if h.valid then 1 else 0) + (if h.rd then 2 else 0) + (if h.wr then 4 else 0) + (if h.oncore then 8 else 0) + h.size * 16
    + h.page * 2 ^ 8 + h.vpage * 2 ^ 64
/-- The stack from its bottom, up to its 16 entries: an empty one has kind 00, and nothing else of it is stated (R34). -/
def stackImage (draw : Nat) (l : List Entry) : List Byte :=
  (l.reverse.map Entry.bytes).flatten ++ ((List.range (16 - l.length)).map (fun i =>
    let b := freeBytes draw (0x2A0 + 32 * (l.length + i)) 32
    b.take 7 ++ [b.getD 7 0 &&& 0x3F#8] ++ b.drop 8)).flatten
/-- A tile-table entry (R94). -/
def Tile.image (t : Tile) (slot : Nat) (pinned : Bool) : List Byte :=
  leBytes 8 (t.state + slot * 4 + (if pinned then 2 ^ 6 else 0) + t.filler * 2 ^ 7 + t.base * 2 ^ 8 + t.size * 2 ^ 18 + t.fmt * 2 ^ 28 + t.stride * 2 ^ 32 + t.next * 2 ^ 48
    + (if t.ring then 2 ^ 56 else 0) + (if t.defd then 2 ^ 57 else 0)) ++ leBytes 8 t.len
/-- The 16 entries of a slot; one that nothing has written has its own index as next. -/
def tilesImage (c : Core) (slot : Nat) (pinned : Bool) : List Byte :=
  ((List.range 16).map (fun n => (SMap.get c.tiles (16 * slot + n) { next := 16 * slot + n }).image slot pinned)).flatten

/-- A control state of a gang in the region, at its offsets from 0x068 on. -/
structure StateParts where
  ctl  : Ctl
  sreg : List Byte
  full : Bool

/-- The state region (R349): what a yield does not write is unpredictable. -/
def regionState (g : Gang) (p : StateParts) (c : Core) (draw : Nat) : List Byte :=
  let u (off n : Nat) (l : List Byte) : List Byte := if p.full then padFree draw off n l else freeBytes draw off n
  padFree draw 0 0x40 p.sreg ++ word64s [g.spec.cp, g.spec.cpm, g.spec.dl, g.spec.dcp]
  ++ word32s [g.spec.ib, g.spec.tb, p.ctl.nc, p.ctl.fx, p.ctl.active, p.ctl.nmask]
  ++ leBytes 4 (p.ctl.stack.length + (if p.ctl.vliw then 256 else 0) + (if p.ctl.tdepth = 0 then 0 else 512)) ++ leBytes 4 g.gid.toNat
  ++ ((List.range 32).map (fun st => leBytes 2 (((List.range 15).map (fun k => if (SMap.get p.ctl.p k 0).getLsbD st then 2 ^ k else 0)).sum))).flatten
  ++ word64s ((List.range 8).map (fun k => (SMap.get p.ctl.b k 0).setWidth 64))
  ++ ((List.range 4).map (fun k => (SMap.get p.ctl.k k {}).bytes)).flatten
  ++ ((List.range 16).map (fun k => leBytes 16 (Config.handleImage (SMap.get g.regs.h k {}).pack).toNat)).flatten
  ++ u 0x220 128 (word64s ((List.range 16).map (fun k => g.regs.g.get k)))
  ++ stackImage draw p.ctl.stack
  ++ padFree draw 0x4A0 64 (word64s [p.ctl.trap.tinfo, p.ctl.trap.tpc, p.ctl.trap.tiaddr, p.ctl.trap.taddr, p.ctl.trap.tmask.setWidth 64,
      p.ctl.trap.tact.setWidth 64])
  ++ u 0x4E0 128 ((List.range 128).map (fun k => (SMap.get g.regs.pt k (BitVec.ofNat 5 (k % 32))).setWidth 8))
  ++ word64s ((List.range 4).map (fun k => (SMap.get g.spec.ctrs (9 + k) 0).setWidth 64))
  ++ word64s [g.spec.eerr.setWidth 64, g.spec.tstat]
  ++ u 0x590 256 (tilesImage c g.slot false)
  ++ u 0x690 136 ([BitVec.ofNat 8 g.window.base, BitVec.ofNat 8 g.window.size, g.window.serial, 0, 0, 0, 0, 0]
      ++ ((List.range g.window.size).map (fun j => leBytes 2 (SMap.get c.flags (g.window.base + j) 0).toNat)).flatten)
  ++ word64s ((List.range 4).map (fun k => SMap.get g.spec.ksc k 0)) ++ freeBytes draw 0x738 200

/-- The state region that a yield writes: the snapshot, with the shadow of the s-registers. -/
def yieldState (g : Gang) (c : Core) (draw : Nat) : List Byte :=
  let sreg := word64s (((pairs g.spec.cpm).map (fun j => [SMap.get g.shadow.s (2 * j) 0, SMap.get g.shadow.s (2 * j + 1) 0])).flatten)
  regionState g { ctl := g.shadow.ctl, sreg := sreg, full := false } c draw

/-! ## Where they lie -/

def State.yieldBase (s : State) (ctx r : Nat) : Nat := bits64 (s.reg (yieldBlock ctx)) 51 12 * 4096 + 4096 * r
def State.yieldCount (s : State) (ctx : Nat) : Nat := bits64 (s.reg (yieldBlock ctx + 8)) 23 0
/-- The lowest free yield record of a context. -/
def State.freeYield (s : State) (ctx : Nat) : Option Nat :=
  (List.range ((s.ctx ctx).yused.length + 1)).find? (fun r => r < s.yieldCount ctx && !NSet.has (s.ctx ctx).yused r)
/-- The save area of a slot in its context (R348). -/
def State.slotArea (s : State) (ctx gcore slot : Nat) : Nat := bits64 (s.reg (ctxBlock ctx)) 51 21 * 2 ^ 21 + 0x29000 * (16 * gcore + slot)
def State.saveBase (s : State) (g : Gang) : Nat := s.slotArea g.ctx g.gcore g.slot

/-- Bytes that the device writes for a context on its own behalf, by its HOST path. -/
def State.deviceWrite (s : State) (ctx pa : Nat) (bs : List Byte) : State :=
  s.pathWrite .host s.next pa bs false { tenant := s.tenantOf ctx }
/-- Bytes read back by the same path, and the sectors among them that are poisoned. -/
def State.deviceRead (s : State) (pa n : Nat) : List Byte := (List.range n).map (fun i => (s.pathByte .host (pa + i)).1)
/-- The reads of a range count at its home slices (R105). -/
def State.countRead (s : State) (ctx pa n : Nat) : State :=
  (List.range ((pa + n + 63) / 64 - pa / 64)).foldl (fun st i =>
    if isDram (pa / 64 * 64 + 64 * i) then st.touch2 (pa / 64 * 64 + 64 * i) { tenant := s.tenantOf ctx } else st) s
def State.devicePoison (s : State) (pa n : Nat) : Bool := (List.range n).any (fun i => (s.pathByte .host (pa + i)).2)

/-- A yield record is written, or written again. -/
def State.writeYield (s : State) (g : Gang) (r : Nat) : State :=
  let b := s.yieldBase g.ctx r
  let image := yieldState g (s.core g.gcore) s.draw
  let s1 := (s.deviceWrite g.ctx b (regionShadow g s.draw)).modGang g.uid (fun x => { x with image := image })
  { s1.deviceWrite g.ctx (b + 2048) image with draw := s.draw + 1 }

/-- Bytes that the device writes for a context, of which the sectors that a test picks are poisoned: a mark of a store goes into the saved state with
what it marks (R388). -/
def State.deviceSave (s : State) (ctx pa : Nat) (bs : List Byte) (bad : Nat → Bool) : State :=
  ((List.range ((bs.length + 63) / 64)).filter bad).foldl (fun st i =>
    st.pathWrite .host st.next (pa + 64 * i) ((bs.drop (64 * i)).take 64) true { tenant := s.tenantOf ctx }) (s.deviceWrite ctx pa bs)
/-- The share and the accumulators of a slot are written to its save area, with their marks. -/
def State.saveStores (s : State) (ctx gcore slot : Nat) : State :=
  let b := s.slotArea ctx gcore slot
  let c := s.core gcore
  let sh := SMap.get c.shares slot {}
  (s.deviceSave ctx (b + 0x4000) (regionShare sh) (fun i => (List.range 4).any (fun k => NSet.has sh.poison (4 * i + k)))).deviceSave ctx
    (b + 0x24000) (regionAcc c slot) (fun i => (c.accTile (4 * slot + i / 64)).poison)

/-- The five regions of a full save. -/
def State.writeSave (s : State) (g : Gang) : State :=
  let b := s.saveBase g
  let sreg := word64s (((pairs g.spec.cpm).map (fun j => [SMap.get g.shadow.s (2 * j) 0, SMap.get g.shadow.s (2 * j + 1) 0])).flatten)
  let image := regionState g { ctl := g.ctl, sreg := sreg, full := true } (s.core g.gcore) s.draw
  let put (st : State) (x : Nat × List Byte) : State := st.deviceWrite g.ctx (b + x.1) x.2
  { ([(0, regionV g), (0x28000, regionShadow g s.draw), (0x28800, image)].foldl put (s.saveStores g.ctx g.gcore g.slot)).modGang g.uid
      (fun x => { x with image := image }) with
    draw := s.draw + 1 }

/-- The share, accumulators and tile entries of a pinned slot, which has no gang, in its regions (R353). -/
def State.writePin (s : State) (ctx gcore slot : Nat) : State :=
  (s.saveStores ctx gcore slot).deviceWrite ctx (s.slotArea ctx gcore slot + 0x28800 + 0x590) (tilesImage (s.core gcore) slot true)

/-! ## Reading back -/

/-- The 32-bit words of bytes. -/
def savedWords : List Byte → List Word32
  | a :: b :: c :: d :: l => BitVec.ofNat 32 (leNat [a, b, c, d]) :: savedWords l
  | _ => []
/-- What a state region says of cp, cpm, dl and dcp (R349). -/
def State.readPoints (s : State) (g : Gang) (base : Nat) : Gang :=
  let w (k : Nat) : Word64 := BitVec.ofNat 64 (leNat (s.deviceRead (base + 0x40 + 8 * k) 8))
  { g with spec := { g.spec with cp := w 0, cpm := w 1, dl := w 2, dcp := w 3 } }
def le32At (bs : List Byte) (off : Nat) : Word32 := BitVec.ofNat 32 (leNat ((bs.drop off).take 4))

/-- A stack entry as a region gives it; kinds 00 and 11 are none (R34). -/
def Entry.ofBytes (l : List Byte) : Option Entry :=
  let w (k : Nat) : Word64 := BitVec.ofNat 64 (leNat ((l.drop (8 * k)).take 8))
  match bits64 (w 0) 63 62 with
  | 1 => some (.div ((w 0).getLsbD 61) ((w 0).setWidth 32) ((w 1).setWidth 32) ((w 2).setWidth 56) ((w 3).setWidth 56))
  | 2 => some (.loop (bits64 (w 0) 34 32 + 1) ((w 0).setWidth 32) (bits64 (w 1) 32 0) ((w 2).setWidth 56))
  | _ => none
/-- A double word of a region. -/
def regionWord (bs : List Byte) (off : Nat) : Word64 := BitVec.ofNat 64 (leNat ((bs.drop off).take 8))
/-- The stack of a region, top first, as far as its entries have a kind. -/
def regionStack (bs : List Byte) : List Entry :=
  ((List.range (min 16 (bits64 (regionWord bs 0x78) 4 0))).filterMap (fun i => Entry.ofBytes ((bs.drop (0x2A0 + 32 * i)).take 32))).reverse
/-- Masks, mode, stack, trap depth and trap record as a state region gives them (R349). -/
def Ctl.readBack (c : Ctl) (bs : List Byte) : Ctl :=
  let w := regionWord bs
  { c with active := (w 0x70).setWidth 32, nmask := (w 0x70 >>> 32).setWidth 32, vliw := (w 0x78).getLsbD 8, tdepth := bits64 (w 0x78) 9 9
           stack := regionStack bs
           trap := { c.trap with tinfo := w 0x4A0 &&& ~~~(bitMask 31 17 ||| bitMask 63 53), tpc := w 0x4A8, tiaddr := w 0x4B0, taddr := w 0x4B8
                                 tmask := (w 0x4C0).setWidth 32, tact := (w 0x4C8).setWidth 32 } }
/-- The trap that a changed value of a state region raises, where an instruction that wrote the value would (R349; DESIGN CHOICE, assumption 108): a
stack too deep, an entry of no kind, a bad tpc, cpm, dl or dcp. -/
def regionFault (bs : List Byte) : Option TrapInfo :=
  let w := regionWord bs
  let depth := bits64 (w 0x78) 4 0
  if 16 < depth then some { cause := causeStack }
  else if (regionStack bs).length < depth then some { cause := causeIllegal }
  else if (w 0x78).getLsbD 9 && (bits64 (w 0x4A8) 63 56 != 0 || bits64 (w 0x4A8) 2 0 != 0) then some { cause := causeProtection }
  else if !cpmOk (w 0x48) || 999999999 < bits64 (w 0x50) 31 0 || bits64 (w 0x58) 63 56 != 0 || bits64 (w 0x58) 2 0 != 0 then some { cause := causeIllegal }
  else none

/-- The shadow of the v-registers as its region gives it; a poisoned sector marks every register of its strand. -/
def State.readShadow (s : State) (g : Gang) (base : Nat) : Gang :=
  let qs := quads g.spec.cpm
  let keys := (List.range 32).map (fun st => (List.range qs.length).map (fun m => (List.range 4).map (fun x =>
    (128 * st + 4 * qs.getD m 0 + x, 64 * st + 16 * m + 4 * x))))
  let all := keys.flatten.flatten
  let bs := s.deviceRead base 2048
  let bad := (List.range 32).filter (fun st => s.devicePoison (base + 64 * st) 64)
  { g with shadow := { g.shadow with
      v := all.foldl (fun m k => SMap.set m k.1 (le32At bs k.2)) g.shadow.v
      poison := all.foldl (fun p k => if bad.contains (k.1 / 128) then NSet.add p k.1 else p) g.shadow.poison } }

/-- The share and the accumulators of a slot as its save area gives them. -/
def State.readSlot (s : State) (b gcore slot : Nat) : State :=
  let sh := s.deviceRead (b + 0x4000) 131072
  let acc := s.deviceRead (b + 0x24000) 16384
  let share : Share := { seed := none, cells := (List.range 131072).zip sh
                         poison := (List.range 2048).foldl (fun p i =>
                           if s.devicePoison (b + 0x4000 + 64 * i) 64 then (List.range 4).foldl (fun q k => NSet.add q (4 * i + k)) p else p) [] }
  s.modCore gcore (fun c => { c with
    shares := SMap.set c.shares slot share
    acc := (List.range 4).foldl (fun m n => SMap.set m (4 * slot + n)
      { seed := none, cells := (List.range 1024).zip (savedWords (acc.drop (4096 * n))), poison := s.devicePoison (b + 0x24000 + 4096 * n) 4096 }) c.acc })

/-- The v-registers, the share and the accumulators as a save region gives them. -/
def State.readSave (s : State) (g : Gang) : State :=
  let b := s.saveBase g
  let vs := s.deviceRead b 16384
  let g1 := s.readShadow g (b + 0x28000)
  let g2 : Gang := { g1 with regs := { g1.regs with
    v := { seed := none, cells := (List.range 4096).zip (savedWords vs) }
    poison := (List.range 256).foldl (fun p i => if s.devicePoison (b + 64 * i) 64 then (List.range 16).foldl (fun q k => NSet.add q (16 * i + k)) p else p)
      g1.regs.poison } }
  ((s.readSlot b g.gcore g.slot).setGang g2).countRead g.ctx b 0x29000

end Sys2Proof.Machine
end

