-- ==== Sys2Proof/Machine/Gangs.lean ====
section
/-! DEFINITION. The life of a gang around its instructions: bins at work (R44, R45), placement and its order (R26, R46, R47, R75, R78), the
freeing of a slot (R37, R301), deadlines (R80), yields (R71, R72), full saves and restores (R347, R351, R387) and world switches
(R353, R354). -/

namespace Sys2Proof.Machine

/-! ## Bins at work -/

/-- An arrival at a bin: its port, its order within the port, its records, and how many of them have room reserved in the bin. -/
structure Arrival where
  id    : Nat
  port  : Nat
  order : Nat
  keep  : Nat
  recs  : List Record

def Arrival.le (a b : Arrival) : Bool := a.port < b.port || (a.port == b.port && (a.order < b.order || (a.order == b.order && a.id ≤ b.id)))
def insertArrival (a : Arrival) : List Arrival → List Arrival
  | [] => [a]
  | b :: l => if a.le b then a :: b :: l else b :: insertArrival a l

/-- The arrivals of this cycle at a node's bin, in the order of R44. -/
def State.arrivals (s : State) (ctx node : Nat) : List Arrival :=
  (s.flights.filterMap (fun f => match f.kind with
    | .append port order n keep recs =>
      if f.ctx == ctx && n == node && s.enabled f then some ({ id := f.id, port := port, order := order, keep := keep, recs := recs } : Arrival) else none
    | _ => none)).foldr insertArrival []

/-- A filter's record that finds no room is counted (R401). -/
def State.noSpawn (s : State) (port : Nat) : State :=
  { s with ports := SMap.upd s.ports port {} (fun p => { p with nospawn := min (2 ^ 32 - 1) (p.nospawn + 1) }) }

/-- One arrival: a reserved one takes its room; a filter's record needs room now, or is lost; a join cell's waits for it. In a context that is
no more, a record goes nowhere (R357). -/
def State.arriveAt (s : State) (ctx node : Nat) (a : Arrival) : State :=
  if !(s.ctx ctx).live && !(s.ctx ctx).dying then s.dropFlight a.id
  else if a.port = 2 || a.port = 4 then
    let ovr := a.recs.length - a.keep
    let s1 := s.modBin ctx node (fun b => { b with reserved := b.reserved - a.keep })
    let s2 := if ovr = 0 then s1 else s1.modCtx ctx (fun c => { c with overRes := dropRes node ovr c.overRes })
    (s2.appendRecs ctx node a.keep a.recs).dropFlight a.id
  else
    match s.roomFor ctx node a.recs.length with
    | some k => (s.appendRecs ctx node k a.recs).dropFlight a.id
    | none => if a.port = 3 then (s.noSpawn (a.order / 64)).dropFlight a.id else s

/-- The bin controller has something to do: arrivals, records of the overflow area with room for them, or a trigger. -/
def State.binDue (s : State) (ctx node : Nat) : Bool :=
  !(s.arrivals ctx node).isEmpty || ((s.ctx ctx).ovr.any (fun r => r.1 == node) && (s.bin ctx node).room != 0) || s.triggered ctx node
/-- A cycle of a bin controller: what returns and what arrives in port order, then the triggers and at most one launch of each kind. It works
once in a core cycle; what becomes ready after that arrives in the next (R44). -/
def State.binCycle (s : State) (ctx node : Nat) : State :=
  if (s.bin ctx node).ran == some s.cycle || !s.binDue ctx node then s
  else
    (((s.arrivals ctx node).foldl (fun st a => st.arriveAt ctx node a) ((s.modBin ctx node (fun b => { b with ran := some s.cycle })).returnOver ctx node)).trigger
      ctx node).pump

/-- RECORD_APPEND: a cycle of the bin controller. -/
def execRecordAppend (ctx node : Nat) (s : State) : Host.Outcome State Fault Refusal := .next (s.binCycle ctx node)

/-- BIN_TIMER_EXPIRY: the cycle of the bin controller in which the wait of the oldest record has reached the timer. -/
def execBinTimerExpiry (ctx node : Nat) (s : State) : Host.Outcome State Fault Refusal :=
  .next (if s.timerDue ctx node && !s.replaying ctx then s.binCycle ctx node else s)

/-- OVERFLOW_RETURN: a cycle of each bin that has records in the overflow area. -/
def execOverflowReturn (ctx : Nat) (s : State) : Host.Outcome State Fault Refusal :=
  .next ((((s.ctx ctx).ovr.map Prod.fst).eraseDups).foldl (fun st node => st.binCycle ctx node) s)

/-! ## Slots and windows (R46, R99) -/

/-- Accesses that passed their check against a share and have not ended. -/
def State.shareBusy (s : State) (gcore slot : Nat) : Bool :=
  s.flights.any (fun f => f.parts.any (fun p => isSpad p.pa && (spadLoc p.pa).1 == gcore && (spadLoc p.pa).2.1 == slot))
/-- The share or the tiles of a slot are an end of an engine command. -/
def Cmd.touches (c : Cmd) (gcore slot : Nat) : Bool :=
  let spad (a : Nat) : Bool := (spadLoc a).1 == gcore && (spadLoc a).2.1 == slot
  let tile (k : Nat) : Bool := c.gcore == gcore && k / 16 == slot
  c.uid.isSome && (match c.kind with
    | .copy sk dk src dst _ _ _ _ st dt => (sk == 1 && spad src) || (dk == 1 && spad dst) || (sk == 2 && tile st) || (dk == 2 && tile dt)
    | .strm _ kd base _ _ _ _ k => (kd == 1 && spad base) || tile k
    | .netx _ _ _ _ _ _ k => c.sent.isNone && tile k)
/-- A matrix instruction has still to read the tiles of a slot, or to write one. -/
def MEntry.touches (m : MEntry) (slot : Nat) : Bool :=
  (m.started.isNone && ((m.aLen != 0 && m.aSlot == slot) || (m.bLen != 0 && m.bSlot == slot))) ||
  (match m.instr with | .zst .. => m.bSlot == slot | _ => false)
/-- Commands and matrix instructions that were checked against a share and have not ended. They keep the slot from a new occupant, though a yield
frees it: what the commands still write there is discarded (R72, R86). -/
def State.unitsBusy (s : State) (gcore slot : Nat) (pick : Nat → Bool := fun _ => true) : Bool :=
  s.cmds.any (fun c => c.touches gcore slot && pick c.ctx) ||
  (s.core gcore).mq.any (fun m => m.touches slot && pick (((s.gang? m.uid).map Gang.ctx).getD 1024))
/-- A slot that no gang can be placed in: it has one, it is pinned, or it cannot change hands yet (R86). -/
def State.occupied (s : State) (gcore slot : Nat) : Bool :=
  s.gangs.any (fun g => g.inSlot && g.gcore == gcore && g.slot == slot) || (s.pinnedTo gcore slot).isSome || s.shareBusy gcore slot || s.unitsBusy gcore slot
/-- Accesses, commands and matrix instructions of other contexts that passed their check against a share and have not ended. -/
def State.shareElse (s : State) (gcore slot ctx : Nat) : Bool :=
  s.flights.any (fun f => f.ctx != ctx && f.parts.any (fun p => isSpad p.pa && (spadLoc p.pa).1 == gcore && (spadLoc p.pa).2.1 == slot)) ||
  s.unitsBusy gcore slot (fun x => x != ctx)
def State.freeSlots (s : State) (gcore : Nat) : List Nat := (List.range 16).filter (fun k => !s.occupied gcore k)
/-- The resident gangs of a lane group. -/
def State.groupLoad (s : State) (gcore q : Nat) : Nat :=
  (s.gangs.filter (fun g => g.inSlot && g.gcore == gcore && g.slot % 4 == q)).length

/-- The first of a list whose score is lowest. -/
def leastBy (score : Nat → Nat) : List Nat → Option Nat
  | [] => none
  | x :: l => match leastBy score l with
    | none => some x
    | some y => if score y < score x then some y else some x

/-- The lowest base at which a window fits. -/
def Core.windowBase (c : Core) (n : Nat) : Option Nat :=
  if n = 0 then some 0
  else (List.range (65 - n)).find? (fun b => c.wins.all (fun w => w.2.base + w.2.size ≤ b || b + n ≤ w.2.base))

/-- Allocates a window of n flags for a context; the serial counts on, and the flags are zero. -/
def State.openWindow (s : State) (gcore ctx n : Nat) : Window × State :=
  let c := s.core gcore
  if n = 0 then ({ core := gcore }, s)
  else
    let w : Window := { core := gcore, base := (c.windowBase n).getD 0, size := n, serial := c.serial + 1 }
    (w, s.modCore gcore (fun c => { c with
      serial := c.serial + 1
      wins := c.wins ++ [(ctx, w)]
      flags := (List.range n).foldl (fun m j => SMap.set m (w.base + j) 0) c.flags }))
def State.closeWindow (s : State) (g : Gang) : State :=
  s.modCore g.gcore (fun c => { c with wins := c.wins.filter (fun w => !(w.1 == g.ctx && w.2 == g.window)) })

def State.pickSlot (s : State) (gcore : Nat) : Option Nat := leastBy (fun k => s.groupLoad gcore (k % 4)) (s.freeSlots gcore)
/-- The core of R46 in a cluster: the preferred one if it will do, else the one with the most free slots. -/
def State.pickCore (s : State) (cluster : Nat) (pref : Option Nat) (fits : Nat → Bool) : Option Nat :=
  let ok (c : Nat) : Bool := !(s.freeSlots (32 * cluster + c)).isEmpty && fits (32 * cluster + c)
  match pref.filter ok with
  | some c => some c
  | none => leastBy (fun c => 16 - (s.freeSlots (32 * cluster + c)).length) ((List.range 32).filter ok)

/-- An entry of which nothing is known but that it is empty and not defined. -/
def freeTile (x y : Word64) : Tile :=
  { base := bits64 x 17 8, size := bits64 x 27 18, fmt := bits64 x 31 28, stride := bits64 x 47 32, next := bits64 x 55 48, ring := x.getLsbD 56, len := bits64 y 17 0 }
/-- The tile entries of a slot become empty with def clear; their other contents are unpredictable from then on (R64). -/
def State.clearTiles (s : State) (gcore slot : Nat) : State :=
  { s.modCore gcore (fun c => { c with tiles := (List.range 16).foldl (fun m n =>
      SMap.set m (16 * slot + n) (freeTile (Config.freeWord (s.draw + 2 * n)) (Config.freeWord (s.draw + 2 * n + 1)))) c.tiles }) with draw := s.draw + 32 }
/-- Commands that wait on a tile state in a slot fail with code 7; where the slot is unpinned, those in progress too (R340). -/
def State.failTiles (s : State) (gcore slot : Nat) (all : Bool := false) : State :=
  { s with cmds := s.cmds.map (fun (c : Cmd) =>
      let named : List Nat := match c.kind with
        | .copy sk dk _ _ _ _ _ _ st dt => (if sk = 2 then [st] else []) ++ (if dk = 2 then [dt] else [])
        | .strm _ _ _ _ _ _ _ k => [k]
        | .netx _ _ _ _ _ _ k => [k]
      if (!c.taken || all) && c.sent.isNone && c.err = 0 && c.uid.isSome && c.gcore == gcore && named.any (fun k => k / 16 == slot) then c.fail 7 0 else c) }
/-- The sectors of a line lose the marks of a launch. -/
def L1Line.unmark (l : L1Line) (who : Nat × Option Nat) : L1Line :=
  (List.range 2).foldl (fun (x : L1Line) k =>
    if SMap.find x.marker k == some who then
      { x with const := x.const &&& ~~~sectorBit (64 * k), marker := SMap.erase x.marker k, spoilt := x.spoilt &&& ~~~sectorMask (64 * k) }
    else x) l
/-- The constant marks of a launch go when its last gang leaves the core (R123). The gangs of a context without a launch count as one. -/
def State.clearMarks (s : State) (g : Gang) : State :=
  if s.gangs.any (fun x => x.uid != g.uid && x.inSlot && x.gcore == g.gcore && x.ctx == g.ctx && x.launch == g.launch) then s
  else s.modCore g.gcore (fun c => { c with l1 := c.l1.map (fun (k : Nat × L1Line) => (k.1, k.2.unmark (g.ctx, g.launch))) })
/-- The next generation of a slot (R23). -/
def State.nextGen (s : State) (gcore slot : Nat) : BitVec 2 := SMap.get (s.core gcore).gens slot 0 + 1
def State.setGen (s : State) (gcore slot : Nat) : State :=
  s.modCore gcore (fun c => { c with gens := SMap.upd c.gens slot 0 (· + 1) })

/-! ## Deadlines (R56, R80) -/

/-- Has device time reached a nonzero deadline? -/
def dlReached (t : Nat) (dl : Word64) : Bool :=
  let m := 2 ^ 32 * 1000000000
  let now := timeSec t % 2 ^ 32 * 1000000000 + timeNs t
  let d := bits64 dl 63 32 * 1000000000 + bits64 dl 31 0
  dl != 0 && (now + m - d) % m < 2 ^ 31 * 1000000000

/-- A gang's launch notes an exit at a deadline. -/
def State.noteDlExit (s : State) (g : Gang) : State :=
  { s with launches := s.launches.map (fun l => if some l.id == g.launch then { l with dlExit := true } else l) }

/-- A gang that is out of its slot ends: its yield record is free; once its engine commands are complete its window goes, and it is forgotten
(R99). -/
def State.forget (s : State) (g : Gang) : State :=
  let s1 := match g.loc with
    | .queued r _ => s.modCtx g.ctx (fun c => { c with yused := NSet.del c.yused r })
    | _ => s
  if s1.cmds.any (fun c => c.uid == some g.uid) then
    s1.modGang g.uid (fun x => { x with loc := .gone, iss := { x.iss with exiting := true } })
  else
    let s2 := s1.closeWindow g
    { s2 with gangs := s2.gangs.filter (fun x => x.uid != g.uid) }
/-- A gang that is out of its slot exits. -/
def State.exitOutside (s : State) (g : Gang) : State :=
  let s1 := s.exitGang g.uid
  match s1.gang? g.uid with
  | some x => s1.forget x
  | none => s1

/-- The fixed state in which code at dcp runs. -/
def fixedCtl (c : Ctl) : Ctl := { c with tdepth := 0, trap := {}, stack := [], vliw := false, active := c.nmask }

/-- The yield record of a queued gang is written again after the device has changed it. -/
def State.refreshRecord (s : State) (uid : Nat) : State :=
  match s.gang? uid with
  | some g => match g.loc with
    | .queued r _ => (s.writeYield g r).modGang uid (fun g => { g with iss := { g.iss with recStale := false } })
    | _ => s
  | none => s

/-- A gang out on a fetch fault whose deadline has come moves into a yield record, if one is free. -/
def State.moveToRecord (s : State) (g : Gang) : State :=
  match s.freeYield g.ctx with
  | none => s
  | some r =>
    let s1 := s.modCtx g.ctx (fun c => { c with yused := NSet.add c.yused r })
    (s1.modGang g.uid (fun g => { g with loc := .queued r s.clock.t, park := none, monitor := none, keptTiles := [], keptFlags := [] })).refreshRecord g.uid

/-- A gang takes its deadline: dl is cleared, and it goes to dcp, or exits. A stopped gang takes it at its release (R419). -/
def State.takeDeadline (s0 : State) (g : Gang) : State :=
  let uid := g.uid
  let s := s0.muslin g.ctx 5 g.mark
  let clear (st : State) : State := st.modGang uid (fun g => { g with spec := { g.spec with dl := 0 }, iss := { g.iss with dlDue := false } })
  let gone := g.spec.dcp == 0
  match g.loc with
  | .held _ => s0
  | .saved => s0
  | .gone => s0
  | .resident =>
    if g.iss.stopped then s0
    else (if gone then (((clear s).exitGang uid).dropGroup uid).noteDlExit g else (clear s).requestYield uid true).pump
  | .queued _ _ =>
    if gone then ((clear s).exitOutside g).noteDlExit g
    else ((clear s).modGang uid (fun g => { g with iss := { g.iss with toDcp := true } })).refreshRecord uid
  | .fetchOut _ _ =>
    if gone then ((clear s).exitOutside g).noteDlExit g
    else
      let s1 := ((clear s).refund g.ctx g.spec.ib.toNat g.spec.tb.toNat).modGang uid (fun g => { g with
        spec := { g.spec with ib := 0, tb := 0 }, iss := { g.iss with toDcp := true } })
      s1.moveToRecord g

/-- DEADLINE_REACHED: a deadline that a tick of device time has found reached is taken (R56, R331). In a replay, deadlines are those of the log
(R425). -/
def execDeadlineReached (uid : Nat) (s : State) : Host.Outcome State Fault Refusal :=
  match s.gang? uid with
  | none => .next s
  | some g => if !g.iss.dlDue || g.iss.exiting || s.replaying g.ctx then .next s else .next (s.takeDeadline g)

/-! ## Slots freed (R37, R99, R301) -/

/-- Nothing of a gang is outstanding. -/
def State.quiet (s : State) (g : Gang) : Bool :=
  (s.flightsOf g.uid).isEmpty && !s.cmds.any (fun c => c.uid == some g.uid) && !(s.core g.gcore).mq.any (fun m => m.uid == g.uid) &&
  !s.shareBusy g.gcore g.slot

/-- SLOT_RELEASE; a gang that has exited out of its slot ends here too, with its last engine command. -/
def execSlotRelease (uid : Nat) (s : State) : Host.Outcome State Fault Refusal :=
  match s.gang? uid with
  | none => .next s
  | some g =>
    if g.iss.exiting && g.inSlot && s.quiet g && !(s.core g.gcore).frozen then
      .next (((((s.dropGroup uid).mergeShare g.gcore g.slot).clearTiles g.gcore g.slot).clearMarks g).forget g)
    else if g.loc == .gone && !s.cmds.any (fun c => c.uid == some uid) then .next (s.forget g)
    else .next s

/-! ## Placement (R26, R46, R47, R78) -/

/-- The budget of a gang formed from records: the sum of its grants, or the node's defaults out of the pools. -/
def grantOf (recs : List Record) : Option (Nat × Nat) :=
  let gs := recs.filter (fun r => r.granted)
  if gs.isEmpty then none
  else some (min (2 ^ 32 - 1) (gs.map (fun r => r.gi)).sum, min (2 ^ 32 - 1) (gs.map (fun r => r.gt)).sum)
/-- Takes a node's default budgets out of the pools, if they hold them. -/
def State.takePools (s : State) (ctx : Nat) (n : Node) : Option (Nat × Nat × State) :=
  let c := s.ctx ctx
  if n.ibdef ≤ c.ibpool && n.tbdef ≤ c.tbpool then
    some (n.ibdef, n.tbdef, s.modCtx ctx (fun c => { c with ibpool := c.ibpool - n.ibdef, tbpool := c.tbpool - n.tbdef }))
  else none

/-- The v-registers of a launched gang (R26). -/
def launchV (w : Nat) (recs : List Record) (draw : Nat) : File 32 :=
  { seed := some draw
    cells := ((List.range recs.length).map (fun i =>
      let ws := padWords w (recs.getD i { words := [], time := 0, elapsed := 0, src := 0 }).words
      (List.range 16).map (fun j => (128 * i + j, ws.getD j 0)))).flatten }

/-- The launch that a gang formed from records belongs to (R365), with dl and dcp of its start (R80, R366). -/
def State.launchOf (s : State) (recs : List Record) : Option Launch × Word64 × Word64 :=
  match recs with
  | [] => (none, 0, 0)
  | r :: _ =>
    match s.launches.find? (fun l => some l.id == r.launch) with
    | none => (none, 0, 0)
    | some l => (some l, if r.src == 2 || l.dlAll then (l.dl, l.dcp) else (0, 0))

/-- The k-registers of a gang of a marked launch (R367). -/
def cohortRegs (l : Option Launch) (recs : List Record) (index : Nat) : SMap KReg :=
  match l with
  | some x =>
    if recs.any (fun r => r.marked) then
      x.descs.foldl (fun m d => if d.2.2.1 ≤ index && index ≤ d.2.2.2 then SMap.set m d.2.1 { valid := true, idx := BitVec.ofNat 8 d.1 } else m) []
    else []
  | none => []

/-- The implicit fences of a gang's start (R122, R128, R326). -/
def State.startFences (s : State) (gcore : Nat) (recs : List Record) (launch : Bool) : State :=
  let s1 := if launch then (s.mergePath .host).flushL1 gcore else s
  let s2 := if recs.any (fun r => r.src == 3) then (s1.mergePath .net).flushL1 gcore else s1
  s2.selfInvalidate gcore

/-- What a start takes: the node and its entry, the records, the place, the budget, and what the launch gives. -/
structure Start where
  ctx    : Nat
  node   : Nat
  gid    : Word32
  recs   : List Record
  core   : Nat
  slot   : Nat
  ib     : Nat
  tb     : Nat
  index  : Nat
  loc    : Loc
  preset : List (Nat × Nat) := []

/-- A gang starts in a slot in the state of R26. -/
def State.startGang (s : State) (x : Start) : State :=
  let nd := s.nodeOf x.ctx x.node
  let l := s.launchOf x.recs
  let w := s.openWindow x.core x.ctx nd.flags
  let present : Word32 := BitVec.ofNat 32 (2 ^ x.recs.length - 1)
  let entry : Word64 := BitVec.ofNat 64 (bits64 nd.entry 55 3 * 8)
  let late := dlReached s.clock.t l.2.1
  let pc := if late then l.2.2 else entry
  let dl := if late then 0 else l.2.1
  let ctl : Ctl := { p := [], active := present, nmask := present, stack := [], b := [], k := cohortRegs l.1 x.recs x.index, vliw := false, nc := 0, fx := 0
                     tdepth := 0, trap := {} }
  let g : Gang :=
    { uid := s.next, ctx := x.ctx, node := x.node, ent := nd, gid := x.gid, cluster := x.core / 32, core := x.core % 32, slot := x.slot
      gen := s.nextGen x.core x.slot, prio := nd.prio, placed := s.clock.t, launch := l.1.map (fun l => l.id)
      topup := (x.recs.head?.map (fun r => r.topup)).getD false, loss := (s.ctx x.ctx).loss, present := present, recs := x.recs, loc := x.loc
      pc := pc, ctl := ctl
      regs := { v := launchV nd.recw x.recs s.draw, s := { seed := none, cells := [(0, nd.arg)] }, g := {}, pt := [], h := [], poison := [] }
      spec := { ib := BitVec.ofNat 32 x.ib, tb := BitVec.ofNat 32 x.tb, cp := pc, cpm := 0, dl := dl, dcp := l.2.2 }
      shadow := { ctl := ctl }, window := w.1, monitor := none, park := none, pend := [], lostStore := false, iss := {} }
  let s1 : State := ((w.2.setGen x.core x.slot).startFences x.core x.recs l.1.isSome)
  let s2 : State := { s1 with next := s.next + 1, draw := s.draw + 1, gangs := s1.gangs ++ [g] }
  let s3 := s2.modCore x.core (fun c => { c with flags := x.preset.foldl (fun m p => SMap.set m (w.1.base + p.1) (BitVec.ofNat 16 p.2)) c.flags })
  if late && l.2.2 == 0 then (s3.exitGang g.uid).noteDlExit g else s3

/-! ## Waiters (R47, R72, R75, R387) -/

inductive Waiter where
  | launch (ctx node : Nat) (f : Formed)
  | resume (g : Gang) (record since : Nat)
  | restore (g : Gang) (since : Nat)

/-- One of the gang's cohort entries has an arrival in its phase. -/
def State.cohortWaits (s : State) (g : Gang) : Bool :=
  (List.range 4).any (fun n => let k := SMap.get g.shadow.ctl.k n {}; k.valid && (SMap.get (s.ctx g.ctx).cohorts k.idx.toNat {}).arrived ≥ 1)

/-- The place of a waiter in the order of R47: higher priority, then its kind, then its queueing time, then a free number. -/
def State.waiterKey (s : State) (w : Waiter) (i : Nat) : List Nat :=
  let tie := (Config.freeWord (s.draw + i)).toNat
  match w with
  | .launch ctx node f => [15 - (s.nodeOf ctx node).prio, 2, f.at_, tie]
  | .resume g _ t => [15 - g.prio, if s.cohortWaits g then 1 else 2, t, tie]
  | .restore g t => [15 - g.prio, 0, t, tie]
def keyLt : List Nat → List Nat → Bool
  | a :: as, b :: bs => a < b || (a == b && keyLt as bs)
  | _, _ => false
def insertKeyed (x : List Nat × Waiter) : List (List Nat × Waiter) → List (List Nat × Waiter)
  | [] => [x]
  | y :: l => if keyLt x.1 y.1 then x :: y :: l else y :: insertKeyed x l

/-- The home cluster of a gang. -/
def Gang.home (g : Gang) : Nat := g.ent.home

/-- The waiters of a cluster, first of each bin's launches only. -/
def State.waiters (s : State) (cluster : Nat) : List Waiter :=
  ((s.ctxs.map (fun (c : Nat × Ctx) => c.2.bins.filterMap (fun (b : Nat × Bin) => match b.2.formed with
    | f :: _ => if c.2.live && (s.nodeOf c.1 b.1).home == cluster && s.admits c.1 then some (Waiter.launch c.1 b.1 f) else none
    | [] => none))).flatten) ++
  s.gangs.filterMap (fun g => match g.loc with
    | .queued r t => if g.home == cluster && s.admits g.ctx && !g.iss.dlDue then some (.resume g r t) else none
    | .fetchOut _ (some t) => if g.cluster == cluster && s.admits g.ctx && !g.iss.toDcp && !g.iss.dlDue then some (.restore g t) else none
    | _ => none)

/-- Places a formed launch, if a slot, a window and the budget are there. -/
def State.placeLaunch (s : State) (ctx node : Nat) (f : Formed) : Option State :=
  let nd := s.nodeOf ctx node
  let paid : Option (Nat × Nat × State) := match grantOf f.recs with
    | some b => some (b.1, b.2, s)
    | none => s.takePools ctx nd
  match paid, s.pickCore nd.home (if nd.affv then some nd.aff else none) (fun c => ((s.core c).windowBase nd.flags).isSome) with
  | some (ib, tb, s1), some c =>
    let gcore := 32 * nd.home + c
    match s.pickSlot gcore with
    | some k =>
      let s2 := s1.modBin ctx node (fun b => { b with formed := b.formed.filter (fun x => x.fid != f.fid) })
      some (s2.startGang { ctx := ctx, node := node, gid := f.gid, recs := f.recs, core := gcore, slot := k, ib := ib, tb := tb
                           index := f.index, loc := .resident })
    | none => none
  | _, _ => none

/-- Unpredictable registers of a state whose region software has changed (R349). -/
def Gang.scramble (g : Gang) (draw : Nat) : Gang :=
  let x (k i : Nat) : Word64 := Config.freeReg (draw + k) i
  { g with
    regs := { g.regs with v := { seed := some draw }, s := { seed := some (draw + 1) }, g := { seed := some (draw + 2) }
                          h := (List.range 16).map (fun k => (k, freeHandle g.cluster (x 5 k) (x 5 (16 + k))))
                          pt := (List.range 128).map (fun k => (k, (x 6 k).setWidth 5)) }
    ctl := { g.ctl with p := (List.range 15).map (fun k => (k, (x 3 k).setWidth 32)), b := (List.range 8).map (fun k => (k, (x 4 k).setWidth 56))
                        fx := (x 7 0).setWidth 32 &&& 0x3F, nc := (x 7 1).setWidth 32 }
    spec := { g.spec with eerr := (x 7 2).setWidth 32, tstat := x 7 3 &&& bitMask 10 0, ksc := (List.range 4).map (fun k => (k, x 7 (4 + k))) } }

/-- Has software changed the state region of a gang since the device wrote it (R349)? -/
def State.altered (s : State) (base : Nat) (g : Gang) : Bool := !g.image.isEmpty && s.deviceRead base 2048 != g.image
/-- A gang comes back from a state region that software has changed (R349): its registers are unpredictable; masks, mode, stack, trap depth and record
are what the region says; and the trap that a value there would raise where an instruction wrote it is raised before anything issues. -/
def Gang.fromAltered (g : Gang) (bs : List Byte) (draw : Nat) : Gang :=
  let y := g.scramble draw
  let z : Gang := { y with ctl := { y.ctl.readBack bs with p := y.ctl.p, b := y.ctl.b, fx := y.ctl.fx, nc := y.ctl.nc } }
  match (checkTarget z.pc).or ((checkTarget z.spec.cp).or (regionFault bs)) with
  | some t => { z with iss := { z.iss with dueTrap := some { info := { t with after := true }, at_ := z.pc, npc := z.pc } } }
  | none => z

/-- The marks of issue after a gang has come back to a slot: a trap that follows a completed instruction is still to be taken, before what
stands at the resume address. -/
def Issue.fresh (i : Issue) (pc : Word64) (now : Nat) : Issue :=
  { exhausted := i.exhausted, dueTrap := (i.dueTrap.filter (fun d => d.info.after)).map (fun d => { d with npc := pc }), since := some now
    bundles := i.bundles, mloads := i.mloads }

/-- The registers after a resumption: those of the shadow, the handles, pattern banks that hold the identity (R214), and unpredictable
values. -/
def Gang.resumedRegs (g : Gang) (draw : Nat) : Regs :=
  { v := { seed := some draw, cells := g.shadow.v }, s := { seed := some (draw + 1), cells := g.shadow.s }, g := { seed := some (draw + 2) }, pt := []
    h := g.regs.h, poison := g.shadow.poison }

/-- The restored gang of R64, R75 and R80: what the mask names, the snapshot, and unpredictable values elsewhere. -/
def Gang.resumed (g : Gang) (draw now : Nat) : Gang :=
  let snap := if g.iss.toDcp then fixedCtl g.shadow.ctl else g.shadow.ctl
  let cp := if g.iss.toDcp then g.spec.dcp else g.spec.cp
  { g with
    pc := cp, ctl := snap, shadow := { g.shadow with ctl := snap }
    spec := { g.spec with cp := cp }
    regs := g.resumedRegs draw
    park := none, pend := [], monitor := none, iss := g.iss.fresh cp now }

/-- Stores and other ordered accesses that a gang had under way when it yielded are done: its resumption comes after them (R118, R124). A release that
has a lost store to tell of is done once it has told it, in the slot (R129). -/
def State.orderedDone (s : State) (uid : Nat) : Bool :=
  (s.flightsOf uid).any s.lostBefore || !(s.flightsOf uid).any Flight.ordered
/-- Places a queued resumption, whose register results are all in its record. -/
def State.placeResume (s0 : State) (g0 : Gang) (r : Nat) : Option State :=
  let s := if g0.iss.recStale then s0.refreshRecord g0.uid else s0
  let g := (s.gang? g0.uid).getD g0
  if g.iss.sealTo.isSome || !g.iss.block.isEmpty || !s.orderedDone g.uid then none
  else
    let own := g.window.size != 0
    let pref := if own then some g.core else if g.ent.affv then some g.ent.aff else none
    match s.takePools g.ctx g.ent, s.pickCore g.home pref (fun c => !own || c == g.gcore) with
    | some (ib, tb, s1), some c =>
      let gcore := 32 * g.home + c
      match s.pickSlot gcore with
      | some k =>
        let base := s1.yieldBase g.ctx r
        let g1 := (s1.readShadow (s1.readPoints g (base + 2048)) base).resumed (s.draw + 1) s.clock.el
        let g2 := if s1.altered (base + 2048) g then g1.fromAltered (s1.deviceRead (base + 2048) 2048) (s.draw + 8) else g1
        let g3 : Gang := { g2 with
          cluster := g.home, core := c, slot := k, gen := s1.nextGen gcore k, placed := s.clock.t, loc := .resident
          spec := { g2.spec with ib := BitVec.ofNat 32 ib, tb := BitVec.ofNat 32 tb } }
        let s2 := ((((s1.setGen gcore k).setGang g3).countRead g.ctx base 4096).modCtx g.ctx (fun c => { c with yused := NSet.del c.yused r })).selfInvalidate gcore
        let s3 : State := ({ s2 with draw := s.draw + 16 } : State).clearTiles gcore k
        let dead := s1.devicePoison (base + 2048) 2048
        let s4 := s3.modCore gcore (fun c => { c with
          shares := SMap.set c.shares k { seed := some (s.draw + 5) }
          acc := (List.range 4).foldl (fun m n => SMap.set m (4 * k + n) { seed := some (s.draw + 6 + n) }) c.acc })
        some (if dead then s4.kill g.uid 0 g3.pc true 8 else s4)
      | none => none
    | _, _ => none

/-! ## Full save and restore (R347, R351, R387) -/

/-- Every result of the gang lands, a decoupled one too (R347). -/
def PendWrite.release (p : PendWrite) : PendWrite := { p with hold := none }
def Gang.settle (g : Gang) : Gang := ({ g with pend := g.pend.map PendWrite.release } : Gang).landAll

/-- The gang can be saved now: it takes no other way out, and nothing of it or of its share is in flight. One whose yield waits for a record has no
other way out, nor has one that LOCKSTEP holds (R350, R353, R370). -/
def State.saveable (s : State) (g : Gang) : Bool :=
  let waits := g.iss.yielding && (s.freeYield g.ctx).isNone
  g.inSlot && !(s.core g.gcore).frozen && !g.iss.exiting && (waits || (!g.iss.yieldReq && !g.iss.yielding)) && g.iss.dueTrap.isNone && g.iss.tretTo.isNone
    && s.quiet g && !s.unitsBusy g.gcore g.slot

/-- A full save; the window is kept on the core where the gang leaves for a fetch fault. -/
def State.saveGang (s : State) (uid : Nat) (loc : Loc) (keepWindow : Bool) : State :=
  match s.gang? uid with
  | none => s
  | some g0 =>
    let g := g0.settle
    let c := s.core g.gcore
    let s1 := (((s.setGang g).mergeShare g.gcore g.slot).writeSave g).dropGroup uid
    let tiles := c.tiles.filter (fun (t : Nat × Tile) => t.1 / 16 == g.slot)
    let flags := (List.range g.window.size).map (fun j => (g.window.base + j, SMap.get c.flags (g.window.base + j) 0))
    let s2 := (s1.modGang uid (fun g => { g with loc := loc, heldFor := (match g.loc with | .held l => some l | _ => none), keptTiles := tiles, keptFlags := if keepWindow then [] else flags })).clearTiles g.gcore g.slot
    let s3 := s2.clearMarks g
    if keepWindow then s3 else s3.closeWindow g

/-- A restore to the slot that the gang left, if it is free, with its window. -/
def State.restoreGang (s : State) (g : Gang) : Option State :=
  let c := s.core g.gcore
  let stays := c.wins.any (fun w => w.1 == g.ctx && w.2 == g.window)
  let room := stays || c.wins.all (fun w => w.2.base + w.2.size ≤ g.window.base || g.window.base + g.window.size ≤ w.2.base)
  if s.occupied g.gcore g.slot || !room then none
  else
    let region := s.saveBase g + 0x28800
    let dead := s.devicePoison region 2048
    let s1 := s.readSave (s.readPoints g region)
    let s2 := s1.modGang g.uid (fun x =>
      let y : Gang := { x with
        iss := { x.iss with dlDue := dlReached s.clock.t x.spec.dl && !s.replaying x.ctx, stopped := false }
        loc := (match x.heldFor with | some l => .held l | none => .resident)
        heldFor := none
        gen := s1.nextGen g.gcore g.slot
        placed := s.clock.t
        keptTiles := []
        keptFlags := [] }
      if s.altered region g then
        let z := y.fromAltered (s.deviceRead region 2048) s.draw
        { z with spec := { z.spec with ib := le32At (s.deviceRead region 2048) 0x60, tb := le32At (s.deviceRead region 2048) 0x64 } }
      else y)
    let s3 := (s2.setGen g.gcore g.slot).modCore g.gcore (fun c => { c with
      tiles := g.keptTiles.foldl (fun m t => SMap.set m t.1 t.2) c.tiles
      wins := if stays || g.window.size = 0 then c.wins else c.wins ++ [(g.ctx, g.window)]
      flags := g.keptFlags.foldl (fun m f => SMap.set m f.1 f.2) c.flags })
    let s4 : State := { s3 with draw := s.draw + 8 }
    some (if dead then s4.kill g.uid 0 g.pc true 8 else s4.replayAll g.ctx)

/-- FULL_SAVE: step 2 of a world switch for one gang. Commands that wait on a tile of its slot fail with code 7. -/
def execFullSave (uid : Nat) (s : State) : Host.Outcome State Fault Refusal :=
  match s.gang? uid with
  | none => .next s
  | some g =>
    if s.admits g.ctx || !g.inSlot || (s.core g.gcore).frozen then .next s
    else
      let s1 := s.failTiles g.gcore g.slot
      .next (if s1.saveable g then (s1.saveGang uid .saved false).pump else s1)

/-- The outgoing function of a switch is out: its gangs are saved and its commands complete (R353, steps 2 and 3). -/
def State.leftWorld (s : State) : Bool :=
  s.worlds.leaving.all (fun v => !s.gangs.any (fun x => s.vfOf x.ctx == some v && x.inSlot) && !s.cmds.any (fun c => s.vfOf c.ctx == some v))

/-- A fetch finds no translation for a gang's next instruction (R387): once nothing checked against its share is in flight, the gang takes
a full save and leaves its slot, and a fault with the fetch bit is raised. -/
def State.fetchFault (s : State) (uid va kind level : Nat) : State :=
  match s.gang? uid with
  | none => s
  | some g =>
    let s1 := s.failTiles g.gcore g.slot
    if s1.saveable g then
      (((s1.saveGang uid (.fetchOut (va / 4096) none) true).cacheFetch g.gcore g.ctx va (.fault kind level)).fault g.ctx va kind level 32 g.code none).pump
    else s1

/-! ## Placement in its order -/

def State.place (s : State) : Waiter → Option State
  | .launch ctx node f => s.placeLaunch ctx node f
  | .resume g r _ => s.placeResume g r
  | .restore g _ => s.restoreGang g

/-- The first waiter of a cluster that can be placed, and the state with it in its slot. A cluster places one in a cycle (R47). -/
def State.firstWaiter (s : State) (cluster : Nat) : Option (Waiter × State) :=
  if SMap.get s.placed cluster 0 = s.cycle + 1 then none
  else
    let ws := s.waiters cluster
    let keyed := ((List.range ws.length).zip ws).foldl (fun l x => insertKeyed (s.waiterKey x.2 x.1, x.2) l) []
    let s1 : State := { s with draw := s.draw + ws.length, placed := SMap.set s.placed cluster (s.cycle + 1) }
    keyed.findSome? (fun x => (s1.place x.2).map (fun t => (x.2, t)))

/-- WAITER_PLACEMENT: the first waiter of a cluster that can be placed is placed. -/
def execWaiterPlacement (cluster : Nat) (s : State) : Host.Outcome State Fault Refusal :=
  match s.firstWaiter cluster with
  | some x => .next x.2.pump
  | none => .next s

/-- FULL_RESTORE: of a gang that a world switch has saved, once the outgoing function is out (R353); of a gang that left on a fetch fault, in its
turn among the waiters of its cluster (R47, R387). -/
def execFullRestore (uid : Nat) (s : State) : Host.Outcome State Fault Refusal :=
  match s.gang? uid with
  | none => .next s
  | some g =>
    match g.loc with
    | .saved => .next (if s.admits g.ctx && s.leftWorld then (s.restoreGang g).getD s else s)
    | .fetchOut .. =>
      match s.firstWaiter g.cluster with
      | some (.restore x _, t) => .next (if x.uid = uid then t.pump else s)
      | _ => .next s
    | _ => .next s

/-! ## Yields (R70 to R72) -/

/-- The operations of a gang that a yield abandons: results not yet back, walks, fences and monitor requests. -/
def Flight.dropped (f : Flight) : Bool :=
  f.abandoned || (match f.kind with
    | .xlat .. => true
    | .watch _ => true
    | .maintain op => 16 ≤ op
    | .poll _ => true
    | _ => false)

/-- Steps 1 to 4: the gang stops; results are discarded unless a seal still waits for them; queued matrix operations go; the budgets return.
DESIGN CHOICE (assumption 94): where a seal of a bundle is still to be taken, the outstanding loads of that bundle are awaited with the sealing
result, and land in the snapshot; R71 speaks of the sealing result alone. A CONT of a bundle that still waits is no seal (R62): it ends with the
results that it waits for, and the continuation point before it stands. -/
def State.yieldStop (s0 : State) (g : Gang) : State :=
  let s := if g.iss.reclaim then s0.muslin g.ctx 6 g.mark else s0
  let sealing := g.iss.sealTo.isSome && !g.iss.contOnly && g.park.isNone
  let s1 := ({ s with flights := s.flights.map (fun (f : Flight) => if f.uid == some g.uid then { f with shelved := false } else f) } : State).dropWhere (fun f =>
    f.uid == some g.uid && !sealing && f.dropped)
  let s2 := (s1.modCore g.gcore (fun c => { c with mq := c.mq.filter (fun m => m.uid != g.uid || m.started.isSome) })).disarm g.uid
  let s3 := (s2.blockGroup g.uid).refund g.ctx g.spec.ib.toNat g.spec.tb.toNat
  (s3.modGang g.uid (fun g => { g with
    spec := { g.spec with ib := 0, tb := 0 }
    pend := if sealing then g.landAll.pend else []
    regs := { (if sealing then g.landAll.regs else g.regs) with h := g.regs.h.map (fun (h : Nat × Handle) => if h.2.pending then (h.1, ({} : Handle)) else h) }
    ctl := if sealing then g.landAll.ctl else g.ctl
    park := none
    iss := { g.iss with yielding := true, yieldReq := true, sealTo := if sealing then g.iss.sealTo else none, cpmTo := if sealing then g.iss.cpmTo else none, contOnly := false
                        splitTo := none, tretTo := none, dueTrap := g.iss.dueTrap.filter (fun d => d.info.after)
                        block := if g.park.isSome then [] else g.iss.block, pauseTo := none, waitFrom := none } })).count g 0x0B 1

/-- Steps 5 to 7, once a yield record is free. -/
def State.yieldLeave (s : State) (uid : Nat) : State :=
  match s.gang? uid with
  | none => s
  | some g =>
    match s.freeYield g.ctx with
    | none => s
    | some r =>
      let s1 := (((s.modCtx g.ctx (fun c => { c with yused := NSet.add c.yused r })).mergeShare g.gcore g.slot).failTiles g.gcore g.slot).clearTiles g.gcore g.slot
      let s2 := (s1.modGang uid (fun g => { g with
        loc := .queued r s.clock.t
        spec := { g.spec with cp := if g.iss.toDcp then g.spec.dcp else g.spec.cp }
        iss := { g.iss with yieldReq := false, yielding := false, reclaim := false } })).clearMarks g
      s2.refreshRecord uid

/-- A yield is due: it was requested, or ib was taken from a gang that waits. -/
def Gang.yieldDue (g : Gang) : Bool :=
  g.loc == .resident && !g.iss.exiting && (!g.iss.stopped || g.iss.yielding) && (g.iss.yieldReq || (g.iss.reclaim && (g.park.isSome || g.iss.waited)))

/-- YIELD_SEQUENCE: the gang stops at once; it leaves its slot when the matrix operation in progress is done. -/
def execYieldSequence (uid : Nat) (s : State) : Host.Outcome State Fault Refusal :=
  match s.gang? uid with
  | none => .next s
  | some g =>
    if !g.yieldDue || (s.core g.gcore).frozen then .next s
    else
      let s1 := if g.iss.yielding then s else s.yieldStop g
      if (s1.core g.gcore).mq.any (fun m => m.uid == uid) || s1.shareBusy g.gcore g.slot then .next s1
      else .next (s1.yieldLeave uid).pump

/-- YIELD_RECORD_FREED: a yield that waits at step 5 goes on; so does a deadline that waits for a record. -/
def execYieldRecordFreed (uid : Nat) (s : State) : Host.Outcome State Fault Refusal :=
  match s.gang? uid with
  | none => .next s
  | some g =>
    match g.loc with
    | .resident =>
      if g.iss.yielding && !g.iss.exiting && !(s.core g.gcore).frozen && !(s.core g.gcore).mq.any (fun m => m.uid == uid) && !s.shareBusy g.gcore g.slot
      then .next (s.yieldLeave uid).pump else .next s
    | .fetchOut _ _ => if g.iss.toDcp then .next (s.moveToRecord g) else .next s
    | _ => .next s

/-! ## World switches (R353, R354) -/

/-- The largest of the measured times of a function, in ns, saturating. -/
def State.meas (s : State) (v : Nat) : Nat := min (2 ^ 32 - 1) ((SMap.get s.worlds.meas v []).foldl max 0)
def State.sliceOf (s : State) (v : Nat) : Nat := bits64 (s.reg (worldBlock v) 1000000) 31 0
/-- eff, within its 32 bits. -/
def State.effSlice (s : State) (v : Nat) : Nat := min (2 ^ 32 - 1) (max (s.sliceOf v) (max 10000 (2 * s.meas v)))
def State.recompute (s : State) (v : Nat) : State := { s with worlds := { s.worlds with eff := SMap.set s.worlds.eff v (s.effSlice v) } }

/-- A gang that could run: it is not parked on a page fault, nor out for one, nor gone. -/
def Gang.runnable (g : Gang) : Bool :=
  g.park.isNone && (match g.loc with
    | .gone => false
    | .fetchOut _ none => false
    | _ => true)
/-- A queue with a packet that could run: it does not wait for a flag or for memory (R372). -/
def State.queueRunnable (s : State) (q : Nat) : Bool := s.qPending q && !(s.queue q).wait.any QWait.taken
/-- A function has nothing runnable (R354): no gang that could run, no formed launch that waits for a slot, and no packet in its rings. -/
def State.idleVf (s : State) (v : Nat) : Bool :=
  !s.gangs.any (fun g => s.vfOf g.ctx == some v && g.runnable) &&
  !(List.range 1024).any (fun q => s.qPending q && s.vfOf (s.qCtx q) == some v && s.queueRunnable q) &&
  !s.ctxs.any (fun (c : Nat × Ctx) => s.vfOf c.1 == some v && c.2.bins.any (fun (b : Nat × Bin) => !b.2.formed.isEmpty))

/-- The pinned slots of a function: core, slot, context. -/
def State.pinsOf (s : State) (v : Nat) : List (Nat × Nat × Nat) :=
  ((List.range Config.cores).map (fun c => (List.range 8).filterMap (fun k => match s.pinnedTo c (8 + k) with
    | some ctx => if s.vfOf ctx == some v then some (c, 8 + k, ctx) else none
    | none => none))).flatten

/-- WORLD_SWITCH: at the end of a slice the outgoing function's admission stops and the switch begins. -/
def execWorldSwitch (vfOut vfIn : Nat) (s : State) : Host.Outcome State Fault Refusal :=
  let w := s.worlds
  let ovr := match w.current, w.started with
    | some v, some t => v == vfOut && (t + SMap.get w.eff v 1000000 * 65536 ≤ s.clock.el || s.idleVf v)
    | some _, none => false
    | none, _ => true
  if w.leaving.isSome || !ovr || vfOut ≥ 64 || vfIn ≥ 64 || vfOut = vfIn then .next s
  else
    let mine := s.gangs.filter (fun g => s.vfOf g.ctx == some vfOut && g.loc == .resident)
    let s1 := (mine.map (fun g => (g.gcore, g.slot)) ++ (s.pinsOf vfOut).map (fun p => (p.1, p.2.1))).foldl (fun st p => st.failTiles p.1 p.2) s
    .next { s1 with worlds := { w with current := some vfIn, started := none, leaving := some vfOut, from_ := s.clock.el, stopped := NSet.del (NSet.add w.stopped vfOut) vfIn } }

/-- A pinned slot of the outgoing function is saved: its regions are written and its entries freed. -/
def State.savePin (s : State) (p : Nat × Nat × Nat) : State :=
  let key := 16 * p.1 + p.2.1
  if (SMap.find s.worlds.pins key).isSome then s
  else
    let s1 := s.mergeShare p.1 p.2.1
    let kept := (s1.core p.1).tiles.filter (fun (t : Nat × Tile) => t.1 / 16 == p.2.1)
    let s2 := (s1.writePin p.2.2 p.1 p.2.1).clearTiles p.1 p.2.1
    { s2 with worlds := { s2.worlds with pins := SMap.set s2.worlds.pins key kept } }
/-- A pinned slot of the incoming function is restored. -/
def State.restorePin (s : State) (p : Nat × Nat × Nat) : State :=
  let key := 16 * p.1 + p.2.1
  match SMap.find s.worlds.pins key with
  | none => s
  | some kept =>
    let s1 := (s.readSlot (s.slotArea p.2.2 p.1 p.2.1) p.1 p.2.1).modCore p.1 (fun c => { c with tiles := kept.foldl (fun m t => SMap.set m t.1 t.2) c.tiles })
    { s1 with worlds := { s1.worlds with pins := SMap.erase s1.worlds.pins key } }
/-- Once the outgoing function is out, its pinned slots are saved and those of the incoming one restored (R353). -/
def State.movePins (s : State) : State :=
  match s.worlds.leaving, s.worlds.current with
  | some a, some b => if s.leftWorld then (s.pinsOf b).foldl State.restorePin ((s.pinsOf a).foldl State.savePin s) else s
  | _, _ => s

/-- The switch is over: the outgoing function has left its slots and its commands are complete, and every saved gang of the incoming one is
resident again. -/
def State.switchDone (s : State) : Bool :=
  match s.worlds.leaving, s.worlds.current with
  | some _, some b => s.leftWorld && !s.gangs.any (fun g => s.vfOf g.ctx == some b && g.loc == .saved)
  | _, _ => false

/-- The end of a switch is measured for both functions, and their slices are recomputed. -/
def State.endSwitch (s0 : State) : State :=
  let s := s0.movePins
  match s.worlds.leaving, s.worlds.current with
  | some a, some b =>
    if s.switchDone then
      let ns := (s.clock.el - s.worlds.from_) / 65536
      let add (m : SMap (List Nat)) (v : Nat) : SMap (List Nat) := SMap.set m v ((ns :: SMap.get m v []).take 16)
      let s1 : State := { s with worlds := { s.worlds with leaving := none, started := some s.clock.el, meas := add (add s.worlds.meas a) b } }
      (s1.recompute a).recompute b
    else s
  | _, _ => s

/-- SLICE_WRITE. -/
def State.sliceWrite (s : State) (v : Nat) (x : Word64) : State := (s.setBits (worldBlock v) (bitMask 31 0) x).recompute v
def execSliceWrite (who : Who) (vf : Nat) (v : BitVec 64) (s : State) : Host.Outcome State Fault Refusal :=
  if vf < 64 then .next (s.writeBy who (worldBlock vf) (fun st => st.sliceWrite vf v)) else .next s

/-! ## Pins (R88, R340) -/

def pinAddr (gcore k : Nat) : Nat := schedBlock gcore + 0x10 + 4 * k

/-- A write of a pin register; a slot that holds a gang, or is pinned to another context, is not pinned. DEDUCED (assumption 95): nor is one
that another context's accesses still hold, since it does not change hands while they are in flight (R86). -/
def State.pinNow (s : State) (gcore k : Nat) (v : Word64) : State :=
  let old := s.pinReg gcore k
  let ctx := v &&& 0x3FF
  if v.getLsbD 31 then
    let refused := s.gangs.any (fun g => g.inSlot && g.gcore == gcore && g.slot == 8 + k) || (old.getLsbD 31 && old &&& 0x3FF != ctx) || s.shareElse gcore (8 + k) ctx.toNat
    if refused then s.setReg (pinAddr gcore k) (old ||| 0x40000000)
    else s.setReg (pinAddr gcore k) (ctx ||| 0x80000000)
  else
    let s1 := ((s.failTiles gcore (8 + k) true).clearTiles gcore (8 + k)).setReg (pinAddr gcore k) (ctx ||| (old &&& 0x40000000))
    { s1 with worlds := { s1.worlds with pins := SMap.erase s1.worlds.pins (16 * gcore + (8 + k)) } }
/-- The write waits while the core is frozen, since its tile table halts (R114). -/
def State.pinWrite (s : State) (gcore k : Nat) (v : Word64) : State :=
  if (s.core gcore).frozen then s.modCore gcore (fun c => { c with pinHeld := c.pinHeld ++ [(k, v)] }) else s.pinNow gcore k v

/-- SLOT_PIN. -/
def execSlotPin (who : Who) (core k : Nat) (v : BitVec 64) (s : State) : Host.Outcome State Fault Refusal :=
  if core < 256 && k < 8 && v.getLsbD 31 then .next (s.writeBy who (pinAddr core k) (fun st => st.pinWrite core k v)) else .next s
/-- SLOT_UNPIN. -/
def execSlotUnpin (who : Who) (core k : Nat) (v : BitVec 64) (s : State) : Host.Outcome State Fault Refusal :=
  if core < 256 && k < 8 && !v.getLsbD 31 then .next (s.writeBy who (pinAddr core k) (fun st => st.pinWrite core k v)) else .next s

end Sys2Proof.Machine
end

