-- ==== Sys2Proof/Machine/Percale.lean ====
section
/-! DEFINITION. Contexts, queues and Percale (R357 to R375, R439): doorbells, passes and residency, every packet, completion records and
their interrupts. -/

namespace Sys2Proof.Machine

/-! ## Contexts (R357) -/

/-- Creation of a context: cctl from the tag and the privilege, the handler base of firmware, which is 4 KiB aligned (R335), every yield record free. A replay whose log
holds nothing to use has ended at once (R426). -/
def State.createCtx (s : State) (c : Nat) (v : Word64) : State :=
  let tag : BitVec 16 := (v >>> 16).setWidth 16
  (fun (st : State) => if st.muslinMode c = 2 && (st.logLeft c).isEmpty then st.modCtx c (fun x => { x with mst := 3 }) else st) <| s.modCtx c (fun x =>
    { live := true, tvec := Config.handlerBase c &&& bitMask 55 12, ilk := tag != 0x02A0, memset := v.getLsbD 6, tag := tag, fqwptr := x.fqwptr, elwptr := x.elwptr
      faults := x.faults })

/-- Every gang of a context is killed without a mark or an entry, and what firmware keeps of the context is discarded once the engine commands
of its gangs are complete. -/
def State.destroyCtx (s : State) (c : Nat) : State :=
  let mine := s.gangs.filter (fun g => g.ctx == c)
  let s1 := mine.foldl (fun st g =>
    let st1 := st.kill g.uid 0 g.pc false
    if g.inSlot then st1 else match st1.gang? g.uid with
      | some x => st1.forget x
      | none => st1) s
  let s2 : State := { s1 with
    flights := s1.flights.filter (fun f => !(f.ctx == c && (match f.kind with | .append .. => true | _ => false)))
    launches := s1.launches.map (fun (l : Launch) => if l.isLaunch && mine.any (fun g => g.launch == some l.id && !g.iss.exiting && g.loc != .gone) then { l with killed := true } else l) }
  let gone (x : Ctx) : Ctx := { fqwptr := x.fqwptr, elwptr := x.elwptr, faults := x.faults, loss := x.loss, lptr := x.lptr, mst := x.mst, dvptr := x.dvptr }
  s2.modCtx c (fun x => if s2.cmds.any (fun (k : Cmd) => k.ctx == c) then { x with live := false, dying := true } else gone x)
/-- Contexts whose last engine command has completed after their destruction lose what firmware kept of them. -/
def State.buryCtxs (s : State) : State :=
  s.ctxs.foldl (fun (st : State) (c : Nat × Ctx) =>
    if c.2.dying && !st.cmds.any (fun (k : Cmd) => k.ctx == c.1) then
      st.modCtx c.1 (fun x => { fqwptr := x.fqwptr, elwptr := x.elwptr, faults := x.faults, loss := x.loss, lptr := x.lptr, mst := x.mst, dvptr := x.dvptr })
    else st) s

/-- A write of the context word that holds live. -/
def State.ctxWrite (s : State) (who : Who) (c : Nat) (v : Word64) : State :=
  let a := ctxBlock c + 0x28
  let rw := bitMask 31 16 ||| (if Who.isVf who then 0 else bitMask 6 0)
  if (s.ctx c).live then (if v.getLsbD 7 then s else (s.setBits a 0x80 v).destroyCtx c)
  else
    let s1 := s.setBits a (rw ||| 0x80) v
    if v.getLsbD 7 then s1.createCtx c (s1.reg a) else s1

/-- CONTEXT_CREATE. -/
def execContextCreate (who : Who) (ctx : Nat) (v : BitVec 64) (s : State) : Host.Outcome State Fault Refusal :=
  if ctx < 1024 && v.getLsbD 7 then .next (s.writeBy who (ctxBlock ctx + 0x28) (fun st => (st.ctxWrite who ctx v).pump)) else .next s
/-- CONTEXT_DESTROY. -/
def execContextDestroy (who : Who) (ctx : Nat) (v : BitVec 64) (s : State) : Host.Outcome State Fault Refusal :=
  if ctx < 1024 && !v.getLsbD 7 then .next (s.writeBy who (ctxBlock ctx + 0x28) (fun st => (st.ctxWrite who ctx v).pump)) else .next s

/-! ## Queue registers (R358) -/

def State.ringSize (s : State) (q : Nat) : Nat := 2 ^ (bits64 (s.qReg q 8) 3 0 + 4)
def State.ringBase (s : State) (q : Nat) : Nat := bits64 (s.qReg q 0) 51 12 * 4096
def State.qPrio (s : State) (q : Nat) : Nat := bits64 (s.qReg q 8) 7 4
def State.qTopup (s : State) (q : Nat) : Bool := (s.qReg q 8).getLsbD 18
/-- The queue takes no further packets; one that it has taken goes on. -/
def State.qError (s : State) (q code : Nat) : State :=
  s.modQueue q (fun x => { x with error := true, off := false, ecode := code, epkt := x.rptr, wait := x.wait.filter QWait.taken })

/-- A doorbell: too many packets put the queue in error. -/
def State.doorbell (s : State) (q : Nat) (v : Word64) : State :=
  let s1 := s.setBits (queueBlock q + 0x10) (bitMask 31 0) v
  if s.replaying (s.qCtx q) then s
  else if (s1.queue q).error then s1
  else if (s1.wptr q - (s1.queue q).rptr).toNat > s1.ringSize q then s1.qError q 1
  else if s1.percale.resident.contains q then s1
  else { s1 with percale := { s1.percale with bells := NSet.add s1.percale.bells q } }

/-- A write of the queue's control word; leaving error by en 0 and then 1 skips the packets written. -/
def State.queueControl (s : State) (who : Who) (q : Nat) (v : Word64) : State :=
  let a := queueBlock q + 8
  let mask := (if bits64 v 3 0 ≤ 12 then bitMask 3 0 else 0) ||| (if Who.isVf who then 0 else bitMask 18 4) ||| bitMask 19 19
  let s1 := s.setBits a mask v
  if !(s.queue q).error then s1
  else if !v.getLsbD 19 then s1.modQueue q (fun x => { x with off := true })
  else if (s.queue q).off then s1.modQueue q (fun x => { x with error := false, off := false, ecode := 0, epkt := 0, rptr := s1.wptr q })
  else s1

/-! ## Completion records and interrupts (R373, R374) -/

/-- A record is counted, and the vector fires when the count, or urgency, says so. -/
def State.countRecord (s : State) (q : Nat) (urgent : Bool) : State :=
  let w := s.qReg q 0x38
  if !w.getLsbD 11 then s
  else
    let s1 := s.modQueue q (fun x => { x with irqN := x.irqN + 1, irqFrom := if x.irqN = 0 then s.clock.el else x.irqFrom })
    if (s1.queue q).irqN ≥ max 1 (bits64 w 19 12) || urgent then
      (s1.modQueue q (fun x => { x with irqN := 0 })).fire (s.qCtx q) (4 * q) (bits64 w 10 0)
    else s1

/-- What a record says. -/
structure Done where
  ctx    : Nat
  pkt    : Word32
  tag    : Nat
  urgent : Bool
  status : Nat
  flags  : Nat := 0
  start  : Nat
  gangs  : Nat := 0
  cause  : Nat := 0
  kaddr  : Word64 := 0

/-- The writes of a launch become visible to the host, and its record is written and counted. -/
def State.complete (s : State) (q : Nat) (d : Done) (write : Bool) : State :=
  let s1 := s.mergeWhere (fun w => w.path != .host)
  if !write then s1
  else
    let size := 2 ^ (bits64 (s.qReg q 0x28) 3 0 + 4)
    let err := if (s.ctx d.ctx).err then 4 else 0
    let bytes := leBytes 2 d.tag ++ leBytes 1 d.status ++ leBytes 1 (d.flags + err) ++ leBytes 4 d.pkt.toNat ++ timeBytes d.start ++ timeBytes s.clock.t
      ++ leBytes 4 d.gangs ++ leBytes 4 d.cause ++ leBytes 8 d.kaddr.toNat ++ List.replicate 16 0#8
    let pa := bits64 (s.qReg q 0x20) 51 6 * 64 + 64 * ((s.queue q).cwptr.toNat % size)
    ((s1.deviceWrite d.ctx pa bytes).modQueue q (fun x => { x with cwptr := x.cwptr + 1 })).countRecord q d.urgent

/-- INTERRUPT_DELAY_EXPIRY. -/
def execInterruptDelayExpiry (q : Nat) (s : State) : Host.Outcome State Fault Refusal :=
  let x := s.queue q
  let w := s.qReg q 0x38
  if w.getLsbD 11 && x.irqN != 0 && x.irqFrom + max 1 (bits64 w 35 20) * 65536 ≤ s.clock.el then
    .next ((s.modQueue q (fun x => { x with irqN := 0 })).fire (s.qCtx q) (4 * q) (bits64 w 10 0))
  else .next s

/-! ## Packets (R360, R361) -/

/-- A field of a packet: n bytes at an offset. -/
def pk (bs : List Byte) (off n : Nat) : Nat := leNat ((bs.drop off).take n)
def pkBit (bs : List Byte) (bit : Nat) : Bool := (bs.getD (bit / 8) 0).getLsbD (bit % 8)
def pkType (bs : List Byte) : Nat := pk bs 0 1
def pkZero (bs : List Byte) (from_ upTo : Nat) : Bool := ((bs.drop from_).take (upTo - from_)).all (fun b => b == 0)
/-- A time of the dl layout, and a dcp, that MTS would take. -/
def pkTime (bs : List Byte) (off : Nat) : Bool := pk bs off 4 ≤ 999999999
def pkDcp (bs : List Byte) (off : Nat) : Bool := pk bs off 8 / 2 ^ 56 == 0 && pk bs off 8 % 8 == 0
/-- A flag address whose reserved bits are zero (R7, R101). -/
def pkFlag (bs : List Byte) (off : Nat) : Bool := pk bs off 4 / 2 ^ 14 % 4 == 0 && pk bs off 4 / 2 ^ 24 == 0
/-- An address in main memory, aligned. -/
def pkAddr (bs : List Byte) (off align : Nat) : Bool := pk bs off 8 < 2 ^ 40 && pk bs off 8 % align == 0

/-- The limits of R360 and R361 that need no state of the device. -/
def pkOk (bs : List Byte) : Bool :=
  pk bs 0 2 / 2 ^ 11 == 0 && pkZero bs 4 8 &&
  match pkType bs with
  | 1 =>
    let define := pkBit bs 83
    let k := pk bs 10 1 % 8
    pk bs 10 1 / 16 == 0 && k ≤ 4 && pkZero bs 11 12 && (if define then pk bs 12 4 == 0 else 1 ≤ pk bs 12 4 && pk bs 12 4 ≤ 2 ^ 20) &&
      pkAddr bs 16 64 && pkTime bs 24 && pkDcp bs 32 && (List.range 4).all (fun i => pk bs (41 + 6 * i) 1 ≤ 3)
  | 2 =>
    let k := pk bs 10 1
    k ≤ 4 && pkZero bs 11 12 && pk bs 12 4 != 0 && pk bs 16 8 % 8 == 0 && pk bs 16 8 < 2 ^ 56 && 8 ≤ pk bs 24 4 && pk bs 24 4 ≤ 65536 &&
      pk bs 24 4 % 8 == 0 && pkZero bs 28 32 && pkAddr bs 32 1 && pkTime bs 40 &&
      (List.range k).all (fun i => pk bs (48 + 4 * i) 1 ≤ 63) && (List.range 4).all (fun i => pkZero bs (49 + 4 * i) (50 + 4 * i))
  | 3 => pk bs 10 1 ≤ 11 && pkZero bs 11 16
  | 4 =>
    pk bs 8 1 ≤ 7 && pk bs 9 1 ≤ 11 && pkZero bs 10 12 && pkAddr bs 16 1 && pkAddr bs 24 1 && pk bs 16 8 + pk bs 12 4 ≤ 2 ^ 40 &&
      pk bs 24 8 + pk bs 12 4 ≤ 2 ^ 40 && pkAddr bs 32 8 && pkFlag bs 40 && pkZero bs 44 64
  | 5 => pk bs 14 1 ≤ 1 && pkZero bs 15 16 && pkZero bs 20 64
  | 6 => pkAddr bs 8 8 && pk bs 32 1 ≤ 3 && pkZero bs 33 36 && pkZero bs 40 64
  | 7 =>
    let op := pk bs 8 1
    op ≤ 4 && pkZero bs 9 16 && (if op = 4 then pkFlag bs 16 && pkZero bs 20 24 else pkAddr bs 16 8) &&
      (match op with | 0 => true | 1 => true | 2 => pkZero bs 30 32 | 3 => pkZero bs 24 32 | _ => pkZero bs 26 32) && pkZero bs 32 64
  | 8 => pkZero bs 8 16 && pkAddr bs 16 16 && pkZero bs 24 64
  | 9 => pk bs 8 1 ≤ 2 && pkZero bs 9 16 && pkZero bs 32 64
  | 10 => pkZero bs 12 16 && pkTime bs 16 && pkDcp bs 24 && pkZero bs 32 64
  | _ => false

/-- The order of the type groups (R362). -/
def groupOrder (t : Nat) : Nat := [11, 9, 10, 8, 7, 3, 4, 5, 6, 1, 2].getD t 11

/-! ## Passes (R362) -/

def State.packetAt (s : State) (q : Nat) : List Byte :=
  s.deviceRead (s.ringBase q + 64 * ((s.queue q).rptr.toNat % s.ringSize q)) 64
/-- A packet with the record array that it names, as a Muslin entry holds them (R423). -/
def State.packetInput (s : State) (ctx : Nat) (bs : List Byte) : List Byte :=
  let w := (s.nodeOf ctx (pk bs 8 2)).recw
  let cores := ((List.range 32).filter (fun c => (pk bs 12 4).testBit c)).length
  match pkType bs with
  | 1 => bs ++ s.deviceRead (pk bs 16 8) (if pkBit bs 83 then 0 else 4 * w * pk bs 12 4)
  | 2 => bs ++ s.deviceRead (pk bs 32 8) (128 * w * cores)
  | _ => bs
/-- A packet is taken: rptr advances past it when its group ends. -/
def State.takePacket (s : State) (q : Nat) : State :=
  let s1 := if s.recording (s.qCtx q) then s.muslin (s.qCtx q) 1 [q] (s.packetInput (s.qCtx q) (s.packetAt q)) else s
  { s1 with percale := { s1.percale with took := s1.percale.took ++ [q] } }
def State.passBy (s : State) (qs : List Nat) : State := qs.foldl (fun st q => st.modQueue q (fun x => { x with rptr := x.rptr + 1 })) s
/-- The records of the packets of this group have reached their bins or the overflow area; in a replay the log may hold them back. -/
def State.groupOver (s : State) : Bool :=
  !s.flights.any (fun f => (match f.kind with | .append 4 .. => true | _ => false) && !s.replaying f.ctx)
/-- The group ends: the queues' pointers advance. -/
def State.endGroup (s : State) : State := ({ s with percale := { s.percale with took := [] } } : State).passBy s.percale.took
/-- A packet of the queue has been taken and has not completed. -/
def State.qOutstanding (s : State) (q : Nat) : Bool := s.launches.any (fun l => l.queue == q)

/-- The end of a packet that a queue takes now: its record, with its status. -/
def State.finishPacket (s : State) (q : Nat) (bs : List Byte) (status : Nat) (rejected : Bool) : State :=
  (s.takePacket q).complete q { ctx := s.qCtx q, pkt := (s.queue q).rptr, tag := pk bs 2 2, urgent := pkBit bs 10, status := status, start := s.clock.t }
    (rejected || pkBit bs 9)

/-- The arbiter's order: higher priority first, then by queue number from the level's pointer on, wrapping round. -/
def State.arbLe (s : State) (ptrs : SMap Nat) (a b : Nat) : Bool :=
  let key (q : Nat) : Nat := (if SMap.get ptrs (s.qPrio q) 0 ≤ q then 0 else 1024) + q
  s.qPrio b < s.qPrio a || (s.qPrio a == s.qPrio b && key a ≤ key b)
def insertBy (le : Nat → Nat → Bool) (x : Nat) : List Nat → List Nat
  | [] => [x]
  | y :: l => if le x y then x :: y :: l else y :: insertBy le x l
def sortBy (le : Nat → Nat → Bool) (l : List Nat) : List Nat := l.foldr (insertBy le) []

/-- Queues that wait for room of their own packet; they compete again when it is there. -/
def State.qReady (s : State) (q : Nat) : Bool := s.qPending q && (s.queue q).wait.isNone

/-- The swap of R363 between two passes: a waiting queue gives way to a pending one; a doorbell displaces a queue of lower priority. -/
def State.swapQueues (s : State) : State :=
  let outside (r : List Nat) : List Nat :=
    sortBy (s.arbLe s.percale.qptrs) ((List.range 1024).filter (fun q => s.qReady q && !r.contains q))
  let r1 := s.percale.resident.foldl (fun (r : List Nat) q =>
    if (s.queue q).wait.isSome then match outside r with
      | x :: _ => r.map (fun y => if y = q then x else y)
      | [] => r
    else r) s.percale.resident
  let rung := sortBy (s.arbLe s.percale.qptrs) (s.percale.bells.filter (fun q => s.qReady q && !r1.contains q))
  let r2 := rung.foldl (fun (r : List Nat) q =>
    if r.contains q then r
    else if r.length < 32 then r ++ [q]
    else match leastBy (fun x => s.qPrio x) r with
      | some x => if s.qPrio x < s.qPrio q then r.map (fun y => if y = x then q else y) else r
      | none => r) r1
  { s with percale := { s.percale with resident := r2, bells := [] } }

/-- The end of a pass: the level pointers move, and queues are swapped. -/
def State.endPass (s : State) : State :=
  ({ s.endGroup with percale := { s.endGroup.percale with
      busy := false, first := []
      ptrs := s.percale.first.foldl (fun (m : SMap Nat) (x : Nat × Nat) => SMap.set m x.1 ((x.2 + 1) % 1024)) s.percale.ptrs } }).swapQueues

/-- One lane fetches: its queue is checked, its packet read, and a malformed one rejected at once. -/
def State.fetchLane (acc : State × List (Nat × List Byte)) (q : Nat) : State × List (Nat × List Byte) :=
  let s := acc.1
  if !s.qReady q then acc
  else if s.ringBase q + 64 * s.ringSize q > 2 ^ 40 then (s.qError q 2, acc.2)
  else if !(s.ctx (s.qCtx q)).live then (s.qError q 3, acc.2)
  else
    let bs := s.packetAt q
    if pkBit bs 8 && s.qOutstanding q then acc
    else if !pkOk bs then (((s.countRead (s.qCtx q) (s.ringBase q + 64 * ((s.queue q).rptr.toNat % s.ringSize q)) 64).finishPacket q bs 1 true).endGroup, acc.2)
    else (s.countRead (s.qCtx q) (s.ringBase q + 64 * ((s.queue q).rptr.toNat % s.ringSize q)) 64, acc.2 ++ [(q, bs)])

/-- PERCALE_PASS: a pass begins; its packets stand in the order in which they will run. Or the pass that has run its last packet ends. -/
def execPercalePass (s : State) : Host.Outcome State Fault Refusal :=
  if s.percale.busy then .next (if s.percale.pass.isEmpty && s.groupOver then s.endPass else s)
  else
    let lanes := sortBy (s.arbLe s.percale.ptrs) s.percale.resident
    let r := lanes.foldl State.fetchLane (s, [])
    let pass := ((List.range 10).map (fun g => r.2.filter (fun (x : Nat × List Byte) => groupOrder (pkType x.2) == g + 1))).flatten
    let first := pass.foldl (fun (m : SMap Nat) (x : Nat × List Byte) => if (SMap.find m (s.qPrio x.1)).isSome then m else SMap.set m (s.qPrio x.1) x.1) []
    let s1 : State := { r.1 with percale := { r.1.percale with busy := true, pass := pass, group := 0, took := [], first := first } }
    .next (if pass.isEmpty then s1.endPass else s1)

/-- The packet that the pass runs next, if it is the queue's and passes a test; and the state with it taken off the pass. The first packet of
a group runs once the group before it is over, and ends that. -/
def State.passHead (s : State) (q : Nat) (test : List Byte → Bool) : Option (List Byte × State) :=
  match s.percale.pass with
  | (p, bs) :: rest =>
    let g := groupOrder (pkType bs)
    if s.percale.busy && p == q && test bs && (g == s.percale.group || s.groupOver) then
      let s1 := if g == s.percale.group then s else s.endGroup
      some (bs, { s1 with percale := { s1.percale with pass := rest, group := g } })
    else none
  | [] => none
/-- The step of a packet within its pass; the last one ends the pass, once its group is over. -/
def inPass (q : Nat) (test : List Byte → Bool) (act : List Byte → State → State) (s : State) : Host.Outcome State Fault Refusal :=
  match s.passHead q test with
  | none => .next s
  | some (bs, s1) =>
    let s2 := act bs s1
    .next (if s2.percale.pass.isEmpty && s2.groupOver then s2.endPass else s2).pump
def isType (t : Nat) (bs : List Byte) : Bool := pkType bs == t
def isOp (t op : Nat) (bs : List Byte) : Bool := pkType bs == t && pk bs 8 1 == op

/-- RESIDENCY_QUANTUM: every 50 us the resident queues are chosen again. -/
def execResidencyQuantum (s : State) : Host.Outcome State Fault Refusal :=
  if s.percale.busy || s.clock.el < s.percale.quantum + 50000 * 65536 then .next s
  else
    let r := (sortBy (s.arbLe s.percale.qptrs) ((List.range 1024).filter s.qReady)).take 32
    let ptrs := r.foldl (fun m q => SMap.set m (s.qPrio q) ((q + 1) % 1024)) s.percale.qptrs
    .next { s with percale := { s.percale with resident := r, qptrs := ptrs, quantum := s.clock.el, bells := [] } }

/-- A queue's packet cannot be taken yet: the queue waits, and the packet stays its next. -/
def State.qWait (s : State) (q : Nat) (w : QWait) : State := s.modQueue q (fun x => { x with wait := some w })

/-- The entry of a packet that has been taken and completes later. -/
def State.openPacket (s : State) (q : Nat) (bs : List Byte) (f : Launch → Launch) : State :=
  let l : Launch := { id := s.next, queue := q, ctx := s.qCtx q, pkt := (s.queue q).rptr, tag := BitVec.ofNat 16 (pk bs 2 2), cmpl := pkBit bs 9
                      urgent := pkBit bs 10, topup := s.qTopup q, isLaunch := false, dispatch := false, start := some s.clock.t }
  let s1 := s.takePacket q
  { s1 with next := s.next + 1, launches := s1.launches ++ [f l] }

/-! ## DISPATCH and RECORD (R365 to R369) -/

def recordsAt (s : State) (pa w n : Nat) (mk_ : List Word32 → Record) : List Record :=
  (List.range n).map (fun i => mk_ ((List.range w).map (fun j =>
    BitVec.ofNat 32 (leNat (s.deviceRead (pa + 4 * (w * i + j)) 4)))))

/-- The cohort descriptors of a DISPATCH: index, register, first and last gang. -/
def descsOf (bs : List Byte) (gangs : Nat) : List (Nat × Nat × Nat × Nat) :=
  (List.range (pk bs 10 1 % 8)).map (fun i =>
    let o := 40 + 6 * i
    (pk bs o 1, pk bs (o + 1) 1, pk bs (o + 2) 2, if pk bs (o + 4) 2 = 0xFFFF then gangs - 1 else pk bs (o + 4) 2))

/-- The capacity of a cluster for gangs with f flags (R367). -/
def State.capacity (s : State) (cluster f : Nat) : Nat :=
  ((List.range 32).map (fun c =>
    let p := ((List.range 8).filter (fun k => (s.pinnedTo (32 * cluster + c) (8 + k)).isSome)).length
    min (16 - p) (if f = 0 then 16 else 64 / f))).sum

/-- The first failure of the admission of cohort descriptors, as a status. -/
def State.cohortStatus (s : State) (ctx gangs cap : Nat) (ds : List (Nat × Nat × Nat × Nat)) : Option Nat :=
  ds.findSome? (fun d =>
    if (SMap.get (s.ctx ctx).cohorts d.1 {}).members != 0 then some 6
    else if !(d.2.2.1 ≤ d.2.2.2 && d.2.2.2 < gangs) then some 1
    else if d.2.2.2 - d.2.2.1 + 1 > cap then some 5
    else none)

def doDispatch (q : Nat) (bs : List Byte) (s : State) : State :=
  let ctx := s.qCtx q
  let node := pk bs 8 2
  let nd := s.nodeOf ctx node
  let n := pk bs 12 4
  let gangs := (n + nd.coal - 1) / nd.coal
  let ds := descsOf bs gangs
  let marked := !ds.isEmpty || pk bs 24 8 != 0
  let bytes := 4 * nd.recw * n
  if !nd.valid then s.finishPacket q bs 2 true
  else if pk bs 16 8 + bytes > 2 ^ 40 then s.finishPacket q bs 1 true
  else match s.cohortStatus ctx gangs (s.capacity nd.home nd.flags) ds with
    | some st => s.finishPacket q bs st true
    | none =>
      if !s.admits ctx then s.qWait q .room
      else match s.roomFor ctx node n with
        | none => s.qWait q .room
        | some keep =>
          let lid := s.next
          let rs := recordsAt s (pk bs 16 8) nd.recw n (fun ws => { words := ws, time := 0, elapsed := 0, src := 2, launch := some lid, marked := marked, topup := s.qTopup q })
          let s1 := (s.countRead ctx (pk bs 16 8) bytes).openPacket q bs (fun l => { l with
            isLaunch := true, dispatch := true, node := node, dl := BitVec.ofNat 64 (pk bs 24 8), dcp := BitVec.ofNat 64 (pk bs 32 8), marked := marked
            total := n, descs := ds, start := none })
          let s2 := ds.foldl (fun st d => st.modCohort ctx d.1 (fun _ => { members := d.2.2.2 - d.2.2.1 + 1 })) (s1.reserve ctx node keep n)
          s2.launchFlight { id := 0, uid := none, ctx := ctx, core := 0, queue := none, kind := .append 4 s2.next node keep rs }
/-- DISPATCH without define. -/
def execDispatch (q : Nat) (s : State) : Host.Outcome State Fault Refusal :=
  inPass q (fun bs => isType 1 bs && !pkBit bs 83) (doDispatch q) s

/-- The checks of R43 on the eight words of an entry. -/
def nodeOk (w : List Word64) : Bool :=
  let x (i : Nat) : Word64 := w.getD i 0
  let vregs := bits64 (x 4) 7 0
  !(vregs = 0 || vregs > 128 || bits64 (x 4) 16 8 > 256 || bits64 (x 4) 19 17 > 4 || bits64 (x 4) 24 20 > 16 || bits64 (x 4) 31 25 > 64
    || (bits64 (x 3) 36 32 > 0 && bits64 (x 3) 31 0 = 0)
    || bits64 (x 0) 63 56 != 0 || bits64 (x 0) 2 0 != 0 || bits64 (x 3) 63 54 != 0 || bits64 (x 4) 62 32 != 0 || x 5 != 0 || x 6 != 0 || x 7 != 0)

def doDefine (q : Nat) (bs : List Byte) (s0 : State) : State :=
  let ctx := s0.qCtx q
  let node := pk bs 8 2
  let old := s0.nodeOf ctx node
  let b := s0.bin ctx node
  let raw := s0.deviceRead (pk bs 16 8) 64
  let s := s0.countRead ctx (pk bs 16 8) 64
  let w := (List.range 8).map (fun i => BitVec.ofNat 64 (leNat ((raw.drop (8 * i)).take 8)))
  let new : Node := { entry := w.getD 0 0, arg := w.getD 1 0, bud := w.getD 2 0, shape := w.getD 3 0, res := w.getD 4 0 ||| bitMask 63 63 }
  let coming := s.flights.any (fun f => f.ctx == ctx && (match f.kind with | .append 4 _ n _ _ => n == node | _ => false))
  if old.valid && (b.held != 0 || (s.ctx ctx).ovr.any (fun r => r.1 == node) || coming) then s.finishPacket q bs 4 true
  else if !nodeOk w then (s.modNode ctx node (fun n => { n with res := n.res &&& ~~~bitMask 63 63 })).finishPacket q bs 3 true
  else (s.modNode ctx node (fun _ => new)).finishPacket q bs 0 false
/-- DISPATCH_DEFINE. -/
def execDispatchDefine (q : Nat) (s : State) : Host.Outcome State Fault Refusal :=
  inPass q (fun bs => isType 1 bs && pkBit bs 83) (doDefine q) s

def doRecord (q : Nat) (bs : List Byte) (s : State) : State :=
  let ctx := s.qCtx q
  let node := pk bs 8 2
  let nd := s.nodeOf ctx node
  let n := pk bs 10 1 + 1
  if !nd.valid then s.finishPacket q bs 2 true
  else if n > nd.recw then s.finishPacket q bs 1 true
  else match s.roomFor ctx node 1 with
    | none => s.qWait q .room
    | some keep =>
      let ws := (List.range n).map (fun j => BitVec.ofNat 32 (pk bs (16 + 4 * j) 4))
      let r : Record := { words := ws, time := 0, elapsed := 0, src := 1, topup := s.qTopup q }
      let s1 := (s.openPacket q bs (fun l => { l with flight := some (s.next + 1) })).reserve ctx node keep 1
      s1.launchFlight { id := 0, uid := none, ctx := ctx, core := 0, queue := none, kind := .append 4 s1.next node keep [r] }
/-- RECORD_PACKET. -/
def execRecordPacket (q : Nat) (s : State) : Host.Outcome State Fault Refusal := inPass q (isType 3) (doRecord q) s

/-! ## LOCKSTEP (R370, R371) -/

/-- A slot for each named core of a LOCKSTEP, in ascending core order, if every one has a fitting slot. -/
def State.lockSlots (s : State) (home flags : Nat) (cores : List Nat) : Option (List (Nat × Nat)) :=
  cores.foldr (fun c acc =>
    let gcore := 32 * home + c
    match acc, ((s.core gcore).windowBase flags).isSome, s.pickSlot gcore with
    | some l, true, some k => some ((gcore, k) :: l)
    | _, _, _ => none) (some [])

/-- Percale loads a range of a context's code into the fetch unit of a core, through the context's translation (R370). -/
def State.loadCode (s : State) (ctx launch va len core : Nat) : State :=
  let first := va / 8
  let word (a : Nat) : Option (Nat × Word64 × Bool) := match s.walk ctx a with
    | .page pa size _ _ ex => if ex && isDram (pageAddr pa size a) then some (pageAddr pa size a, s.tableWord (pageAddr pa size a)) else none
    | .fault .. => none
  let ws := (List.range ((va + len + 7) / 8 - first)).map (fun i => word (8 * (first + i)))
  let s1 := (ws.zipIdx).foldl (fun st w => match w.1 with
    | some x => if w.2 = 0 || x.1 % 64 = 0 then st.countRead ctx x.1 8 else st
    | none => st) s
  s1.modCore core (fun c => { c with code := { launch := launch, ctx := ctx, va := 8 * first, words := ws.map (fun w => w.map Prod.snd) } :: c.code })
def doLockstep (q : Nat) (bs : List Byte) (s : State) : State :=
  let ctx := s.qCtx q
  let node := pk bs 8 2
  let nd := s.nodeOf ctx node
  let cores := (List.range 32).filter (fun c => (pk bs 12 4).testBit c)
  let presets := (List.range (pk bs 10 1)).map (fun i => (pk bs (48 + 4 * i) 1, pk bs (50 + 4 * i) 2))
  let va := pk bs 16 8
  let len := pk bs 24 4
  let pages := (List.range ((va + len + 4095) / 4096 - va / 4096)).map (fun i => (va / 4096 + i) * 4096)
  let absent := pages.any (fun p => match s.walk ctx p with | .fault .. => true | .page .. => false)
  let rs := recordsAt s (pk bs 32 8) nd.recw (32 * cores.length) (fun ws =>
    { words := ws, time := s.clock.t, elapsed := s.clock.el, src := 2, launch := some s.next, topup := s.qTopup q })
  if !nd.valid then s.finishPacket q bs 2 true
  else if presets.any (fun p => nd.flags ≤ p.1) || absent || pk bs 32 8 + 128 * nd.recw * cores.length > 2 ^ 40 || va + len > 2 ^ 56 then
    s.finishPacket q bs 1 true
  else
    let c := s.ctx ctx
    match s.lockSlots nd.home nd.flags cores with
    | none => s.qWait q .slot
    | some places =>
      if !s.admits ctx || c.ibpool < nd.ibdef * cores.length || c.tbpool < nd.tbdef * cores.length then s.qWait q .slot
      else
        let lid := s.next
        let s1 := (s.countRead ctx (pk bs 32 8) (128 * nd.recw * cores.length)).openPacket q bs (fun l => { l with
          isLaunch := true, node := node, total := 32 * cores.length, appended := 32 * cores.length, start := none
          release := some (BitVec.ofNat 64 (pk bs 40 8)), cores := places.map Prod.fst, gangs := cores.length })
        let s2 := s1.modCtx ctx (fun c => { c with ibpool := c.ibpool - nd.ibdef * cores.length, tbpool := c.tbpool - nd.tbdef * cores.length })
        (List.range places.length).foldl (fun st i =>
          let p := places.getD i (0, 0)
          let st1 := st.startGang { ctx := ctx, node := node, gid := BitVec.ofNat 32 (st.nodeOf ctx node).formed, recs := (rs.drop (32 * i)).take 32
                                    core := p.1, slot := p.2, ib := nd.ibdef, tb := nd.tbdef, index := i, loc := .held lid, preset := presets }
          (st1.loadCode ctx lid va len p.1).modNode ctx node (fun n => { n with formed := n.formed + 1 })) s2
/-- LOCKSTEP. -/
def execLockstep (q : Nat) (s : State) : Host.Outcome State Fault Refusal := inPass q (isType 2) (doLockstep q) s

/-- LOCKSTEP_RELEASE: in the first cycle at or past the release time in which every gang of the launch that has not ended is held and can issue (none
saved by a world switch, on a frozen core or stopped; DEDUCED, assumption 109), all of them issue their first instruction (State.firstIssues). -/
def execLockstepRelease (launch : Nat) (s : State) : Host.Outcome State Fault Refusal :=
  match s.launches.find? (fun l => l.id == launch) with
  | none => .next s
  | some l =>
    match l.release with
    | none => .next s
    | some r =>
      let held := s.gangs.filter (fun g => g.loc == .held launch)
      let due := r == 0 || dlReached s.clock.t r
      let ready := held.all (fun g => !(s.core g.gcore).frozen && !g.iss.stopped && s.admits g.ctx) && s.gangs.all (fun g => g.heldFor != some launch)
      if held.isEmpty || !due || !ready then .next s
      else
        let late := timeDl s.clock.t != r
        .next { s with
          gangs := s.gangs.map (fun (g : Gang) => if g.loc == .held launch then { g with loc := .resident, iss := { g.iss with first := true } } else g)
          launches := s.launches.map (fun (x : Launch) => if x.id == launch then { x with start := some s.clock.t, late := late } else x) }

/-! ## COPY (R372) -/

def doCopyPacket (q : Nat) (bs : List Byte) (s : State) : State :=
  let engine := 12 * pk bs 8 1 + pk bs 9 1
  if s.engineFull false engine then s.qWait q .engine
  else
    let s1 := s.mergePath .host
    let lid := s1.next
    let c : Cmd := { id := s1.next + 1, uid := none, ctx := s.qCtx q, launch := none, topup := s.qTopup q, cluster := pk bs 8 1, core := 0, slot := 0, gen := 0
                     engine := engine, egress := false, kind := CmdKind.copy 0 0 (pk bs 16 8) (pk bs 24 8) (pk bs 12 4) 1 0 0 0 0
                     flag := if pk bs 40 4 = 0 then .none else .remote (BitVec.ofNat 32 (pk bs 40 4))
                     future := if pk bs 32 8 = 0 then none else some (pk bs 32 8), packet := some lid }
    let s2 := s1.openPacket q bs id
    { s2 with next := s2.next + 1, cmds := s2.cmds ++ [c] }
/-- COPY_PACKET. -/
def execCopyPacket (q : Nat) (s : State) : Host.Outcome State Fault Refusal := inPass q (isType 4) (doCopyPacket q) s

/-! ## Waits (R372) -/

/-- The queue waits with its packet taken. -/
def State.qSleep (s : State) (q : Nat) (bs : List Byte) (w : QWait) (timeout : Nat) : State :=
  let id := s.next
  (s.openPacket q bs (fun l => l)).modQueue q (fun x => { x with wait := some w, waitPkt := id, waitTo := if timeout = 0 then none else some (s.clock.el + timeout * 65536) })

/-- WAITFLAG. -/
def execWaitflag (q : Nat) (s : State) : Host.Outcome State Fault Refusal :=
  inPass q (isType 5) (fun bs st =>
    let addr := BitVec.ofNat 32 (pk bs 8 4)
    match st.flagAt addr (st.qCtx q) with
    | none => st.finishPacket q bs 1 true
    | some _ => st.qSleep q bs (.flag addr (pk bs 12 2) (pkBit bs 112)) (pk bs 16 4)) s

/-- WAITMEM. -/
def execWaitmem (q : Nat) (s : State) : Host.Outcome State Fault Refusal :=
  inPass q (isType 6) (fun bs st =>
    st.qSleep q bs (.mem (pk bs 8 8) (BitVec.ofNat 64 (pk bs 16 8)) (BitVec.ofNat 64 (pk bs 24 8)) (pk bs 32 1)) (pk bs 36 4)) s

/-- (word & m) op v. -/
def memHolds (w m v : Word64) (op : Nat) : Bool :=
  match op with
  | 0 => w &&& m == v
  | 1 => w &&& m != v
  | 2 => v.toNat ≤ (w &&& m).toNat
  | _ => (w &&& m).toNat < v.toNat

/-- The wait of a queue ends with a status, and its record is written. -/
def State.endWait (s : State) (q status : Nat) : State :=
  let x := s.queue q
  let s1 := s.modQueue q (fun x => { x with wait := none, waitTo := none })
  match s1.launches.find? (fun l => l.id == x.waitPkt) with
  | none => s1
  | some l =>
    let s2 : State := { s1 with launches := s1.launches.filter (fun y => y.id != l.id) }
    s2.complete q { ctx := l.ctx, pkt := l.pkt, tag := l.tag.toNat, urgent := l.urgent, status := status, start := l.start.getD 0 } l.cmpl

/-- WAIT_CONDITION_MET: a WAITFLAG or WAITMEM completes; a packet that waits for room, a slot or an engine may be taken again. -/
def execWaitConditionMet (q : Nat) (s : State) : Host.Outcome State Fault Refusal :=
  match (s.queue q).wait with
  | none => .next s
  | some (.flag addr n consume) =>
    match s.flagAt addr (s.qCtx q) with
    | none => .next s
    | some (core, flag) =>
      if (SMap.get (s.core core).flags flag 0).toNat < n then .next s
      else
        let s1 := if consume then s.modCore core (fun c => { c with flags := SMap.upd c.flags flag 0 (fun v => v - BitVec.ofNat 16 n) }) else s
        .next (s1.endWait q 0)
  | some (.mem pa m v op) =>
    let w := BitVec.ofNat 64 (leNat (s.deviceRead pa 8))
    if memHolds w m v op then .next ((s.countRead (s.qCtx q) pa 8).endWait q 0) else .next s
  | some .room =>
    let bs := s.packetAt q
    let n := if pkType bs = 1 then pk bs 12 4 else 1
    if (s.roomFor (s.qCtx q) (pk bs 8 2) n).isSome && s.admits (s.qCtx q) then .next (s.modQueue q (fun x => { x with wait := none })) else .next s
  | some .slot =>
    let bs := s.packetAt q
    let nd := s.nodeOf (s.qCtx q) (pk bs 8 2)
    let cores := (List.range 32).filter (fun c => (pk bs 12 4).testBit c)
    let c := s.ctx (s.qCtx q)
    if (s.lockSlots nd.home nd.flags cores).isSome && s.admits (s.qCtx q) && nd.ibdef * cores.length ≤ c.ibpool && nd.tbdef * cores.length ≤ c.tbpool then
      .next (s.modQueue q (fun x => { x with wait := none })) else .next s
  | some .engine =>
    let bs := s.packetAt q
    if s.engineFull false (12 * pk bs 8 1 + pk bs 9 1) then .next s else .next (s.modQueue q (fun x => { x with wait := none }))

/-- WAIT_TIMEOUT: at the timeout, or when the window of a waited flag is gone. -/
def execWaitTimeout (q : Nat) (s : State) : Host.Outcome State Fault Refusal :=
  let x := s.queue q
  let timed := match x.waitTo with | some t => t ≤ s.clock.el | none => false
  match x.wait with
  | some (.flag addr _ _) => if timed || (s.flagAt addr (s.qCtx q)).isNone then .next (s.endWait q 7) else .next s
  | some (.mem ..) => if timed then .next (s.endWait q 7) else .next s
  | _ => .next s

/-! ## SIGNAL, TIMESTAMP, BUDGET, DEADLINE (R372, R439) -/

def State.qAsker (s : State) (q : Nat) : Asker := { tenant := s.tenantOf (s.qCtx q) }

/-- SIGNAL_WRITE. -/
def execSignalWrite (q : Nat) (s : State) : Host.Outcome State Fault Refusal :=
  inPass q (isOp 7 0) (fun bs st =>
    ((st.settleLine (pk bs 16 8) .host).deviceAtomic (pk bs 16 8) (leBytes 8 (pk bs 24 8)) (st.qAsker q)).finishPacket q bs 0 false) s
/-- SIGNAL_ADD. -/
def execSignalAdd (q : Nat) (s : State) : Host.Outcome State Fault Refusal :=
  inPass q (isOp 7 1) (fun bs st =>
    let w := st.futureAt (pk bs 16 8) .host
    (w.2.2.deviceAtomic (pk bs 16 8) (leBytes 8 ((w.1 + pk bs 24 8) % 2 ^ 64)) (st.qAsker q)).finishPacket q bs 0 false) s
/-- A resolve or poison by a packet: a second one gives status 8 and changes nothing. -/
def State.packetResolve (s : State) (q : Nat) (bs : List Byte) (poison : Bool) : State :=
  let pa := pk bs 16 8
  let w := s.futureAt pa .host
  let r := resolveWord w.1 (pk bs 24 8) poison
  if r.2.1 = 3 then w.2.2.finishPacket q bs 8 false
  else
    let s1 := w.2.2.deviceAtomic pa (leBytes 8 r.1) (s.qAsker q)
    let s2 := match r.2.2 with
      | some cell => s1.launchFlight { id := 0, uid := none, ctx := s.qCtx q, core := 0, queue := none, kind := .cell cell poison (s.qTopup q) none }
      | none => s1
    s2.finishPacket q bs 0 false
/-- SIGNAL_RESOLVE. -/
def execSignalResolve (q : Nat) (s : State) : Host.Outcome State Fault Refusal := inPass q (isOp 7 2) (fun bs st => st.packetResolve q bs false) s
/-- SIGNAL_POISON. -/
def execSignalPoison (q : Nat) (s : State) : Host.Outcome State Fault Refusal := inPass q (isOp 7 3) (fun bs st => st.packetResolve q bs true) s
/-- SIGNAL_POST. -/
def execSignalPost (q : Nat) (s : State) : Host.Outcome State Fault Refusal :=
  inPass q (isOp 7 4) (fun bs st =>
    let n := pk bs 24 2
    (if n = 0 then st else st.remotePost (BitVec.ofNat 32 (pk bs 16 4)) n (st.qCtx q) 0).finishPacket q bs 0 false) s
/-- TIMESTAMP. -/
def execTimestamp (q : Nat) (s : State) : Host.Outcome State Fault Refusal :=
  inPass q (isType 8) (fun bs st =>
    ((st.settleLine (pk bs 16 8) .host).deviceAtomic (pk bs 16 8) (timeRecord st.clock.t) (st.qAsker q)).finishPacket q bs 0 false) s
/-- BUDGET_ADD. -/
def execBudgetAdd (q : Nat) (s : State) : Host.Outcome State Fault Refusal :=
  inPass q (isOp 9 0) (fun bs st => (st.refund (st.qCtx q) (pk bs 16 8) (pk bs 24 8)).finishPacket q bs 0 false) s
/-- BUDGET_SET. -/
def execBudgetSet (q : Nat) (s : State) : Host.Outcome State Fault Refusal :=
  inPass q (isOp 9 1) (fun bs st =>
    (st.modCtx (st.qCtx q) (fun c => { c with ibpool := pk bs 16 8, tbpool := pk bs 24 8 })).finishPacket q bs 0 false) s
/-- BUDGET_RECLAIM: a scheduler write to every resident gang of the context. -/
def execBudgetReclaim (q : Nat) (s : State) : Host.Outcome State Fault Refusal :=
  inPass q (isOp 9 2) (fun bs st =>
    (st.gangs.foldl (fun x g =>
      if g.inSlot && g.ctx == st.qCtx q && !g.iss.exiting then
        x.launchFlight { id := 0, uid := none, ctx := g.ctx, core := g.gcore, queue := none, kind := .sched g.uid }
      else x) st).finishPacket q bs 0 false) s

/-- dl and dcp in the memory of a saved gang follow the gang. -/
def State.refreshSaved (s : State) (uid : Nat) : State :=
  match s.gang? uid with
  | none => s
  | some g =>
    let points := word64s [g.spec.cp, g.spec.cpm, g.spec.dl, g.spec.dcp]
    let put := (s.deviceWrite g.ctx (s.saveBase g + 0x28840) points).modGang uid (fun x => { x with image := patchBytes x.image 0x40 points })
    match g.loc with
    | .queued .. => s.refreshRecord uid
    | .saved => put
    | .fetchOut .. => put
    | _ => s

/-- DEADLINE, after the deadlines that are due: dl and dcp of every gang of an earlier launch of the queue, those still to form among them. -/
def execDeadline (q : Nat) (s : State) : Host.Outcome State Fault Refusal :=
  inPass q (isType 10) (fun bs st =>
    match st.launches.find? (fun l => l.queue == q && l.dispatch && l.pkt.toNat == pk bs 8 4) with
    | none => st.finishPacket q bs 11 true
    | some l =>
      let dl := BitVec.ofNat 64 (pk bs 16 8)
      let dcp := BitVec.ofNat 64 (pk bs 24 8)
      let due := st.gangs.filter (fun g => g.launch == some l.id && g.iss.dlDue && !st.replaying g.ctx)
      let st0 := due.foldl State.takeDeadline st
      let mine := st0.gangs.filter (fun g => g.launch == some l.id)
      let st1 : State := { st0 with
        launches := st0.launches.map (fun (x : Launch) => if x.id == l.id then { x with dl := dl, dcp := dcp, dlAll := true } else x)
        gangs := st0.gangs.map (fun (g : Gang) => if g.launch == some l.id then { g with spec := { g.spec with dl := dl, dcp := dcp } } else g) }
      (mine.foldl (fun x g => x.refreshSaved g.uid) st1).finishPacket q bs 0 false) s

/-! ## Completion (R373) -/

/-- Some record of a launch is still on its way or in a bin. -/
def State.carried (s : State) (id : Nat) : Bool :=
  let mine (r : Record) : Bool := r.launch == some id
  s.flights.any (fun f => match f.kind with
    | .append _ _ _ _ rs => rs.any mine
    | .cell _ _ _ l => l == some id
    | _ => false) ||
  s.ctxs.any (fun (c : Nat × Ctx) => c.2.ovr.any (fun r => mine r.2) || c.2.bins.any (fun (b : Nat × Bin) =>
    b.2.recs.any mine || b.2.formed.any (fun f => f.recs.any mine)))

/-- Every gang that holds a record of the launch has ended, and its commands and matrix instructions are complete; so are its stores and
future operations, whose writes and records are the launch's. -/
def State.launchOver (s : State) (l : Launch) : Bool :=
  !s.carried l.id && !s.flights.any (fun f => f.launch == some l.id) && !s.gangs.any (fun g => g.recs.any (fun r => r.launch == some l.id) || g.launch == some l.id) &&
  !s.cmds.any (fun c => c.uid.isSome && c.launch == some l.id)

/-- LAUNCH_COMPLETION: the record of a launch, or of a RECORD or COPY packet that has ended. -/
def execLaunchCompletion (launch : Nat) (s : State) : Host.Outcome State Fault Refusal :=
  match s.launches.find? (fun l => l.id == launch) with
  | none => .next s
  | some l =>
    let waiting := (s.queue l.queue).wait.isSome && (s.queue l.queue).waitPkt == l.id
    let ovr := if l.isLaunch then s.launchOver l else l.ended || l.flight.any (fun id => !s.flights.any (fun f => f.id == id))
    if !ovr || waiting then .next s
    else
      let s1 : State := { s with
        launches := s.launches.filter (fun x => x.id != launch)
        cores := s.cores.map (fun (c : Nat × Core) => (c.1, { c.2 with code := c.2.code.filter (fun x => x.launch != launch) })) }
      .next (s1.complete l.queue { ctx := l.ctx, pkt := l.pkt, tag := l.tag.toNat, urgent := l.urgent
                                   status := if l.isLaunch then (if l.killed then 9 else 0) else l.status
                                   flags := (if l.late then 1 else 0) + (if l.dlExit then 2 else 0), start := l.start.getD s.clock.t
                                   gangs := l.gangs, cause := l.cause, kaddr := l.kaddr } l.cmpl)

/-! ## The registers' own events -/

/-- A write of wptr. A virtual function's is discarded where the queue and its context are not given to one function (R392); between two
passes, the doorbell may change the resident queues at once. -/
def State.ring (s : State) (who : Who) (q : Nat) (v : Word64) : State :=
  if Who.isVf who && s.assigned (4 * q) != s.assigned (0x1000 + 4 * s.qCtx q) then s
  else
    let s1 := s.doorbell q v
    if s1.percale.busy then s1 else s1.swapQueues

/-- DOORBELL. -/
def execDoorbell (who : Who) (q : Nat) (v : BitVec 64) (s : State) : Host.Outcome State Fault Refusal :=
  if q < 1024 then .next (s.writeBy who (queueBlock q + 0x10) (fun st => st.ring who q v)) else .next s
/-- QUEUE_ENABLE. -/
def execQueueEnable (who : Who) (q : Nat) (v : BitVec 64) (s : State) : Host.Outcome State Fault Refusal :=
  if q < 1024 then .next (s.writeBy who (queueBlock q + 8) (fun st => st.queueControl who q v)) else .next s

end Sys2Proof.Machine
end

