-- ==== Sys2Proof/Machine/Integer.lean ====
section
/-! DEFINITION. Majors 0x00 to 0x1F: integer arithmetic, bits and fields, comparison and selection, moves and addresses, and the
special registers (R192 to R209). -/

namespace Sys2Proof.Machine

/-! ## Integer types and their elements (R194, R195) -/

/-- An integer type: element width, number of elements, signedness. -/
structure IType where
  w : Nat
  n : Nat
  signed : Bool
  deriving DecidableEq, Repr

def iType (mod : BitVec 8) : IType :=
  let c := modCode mod
  let sg := c % 2 == 0
  match c / 2 with
  | 0 => ⟨32, 1, sg⟩
  | 1 => ⟨64, 1, sg⟩
  | 2 => ⟨16, 2, sg⟩
  | _ => ⟨8, 4, sg⟩

def IType.opw (t : IType) : OpW := if t.w = 64 then .w64 else .w32
def sat (x : RF) : Bool := x.mod.getLsbD 1

/-- Element i of a value as its bits. -/
def elemBits (w : Nat) (v : Word64) (i : Nat) : Nat := v.toNat / 2 ^ (w * i) % 2 ^ w
/-- Val of R195. -/
def IType.val (t : IType) (v : Word64) (i : Nat) : Int :=
  if t.signed then toSigned t.w (elemBits t.w v i) else elemBits t.w v i
/-- Put of R195 over every element. -/
def IType.pack (t : IType) (st : Bool) (f : Nat → Int) : BitVec 128 :=
  BitVec.ofNat 128 ((List.range t.n).foldr (fun i acc => ofInt t.w (if st then clampInt t.w t.signed (f i) else f i) + 2 ^ t.w * acc) 0)

/-! ## Shapes -/

/-- The register sources of a Format R instruction, by how many it takes; b may come from the immediate slot (R166). -/
def srcsOf (x : RF) (n : Nat) (w : OpW) (fc : FC := .bits) : List Src :=
  let b : List Src := if x.mod.getLsbD 0 then [] else [{ f := x.b, w := w, fc := fc }]
  match n with
  | 0 => []
  | 1 => [{ f := x.a, w := w, fc := fc }]
  | 2 => { f := x.a, w := w, fc := fc } :: b
  | _ => { f := x.a, w := w, fc := fc } :: b ++ [{ f := x.c, w := w, fc := fc }]

/-- One result in the type's width from n sources in that width. -/
def intOp (x : RF) (n : Nat) (f : IType → Word64 → Word64 → Word64 → BitVec 128) : Sem where
  op e :=
    let t := iType x.mod
    let w := t.opw
    e.each (srcsOf x n w) (fun i =>
      let a := e.read { f := x.a, w := w } i
      let b := if 2 ≤ n then e.readB x.mod { f := x.b, w := w } i else 0
      let c := if 3 ≤ n then e.read { f := x.c, w := w } i else 0
      (e.dst x.d w i (f t a b c), 0))

/-- The same, element by element with Put. -/
def elemOp (x : RF) (n : Nat) (f : Int → Int → Int → Int) : Sem :=
  intOp x n (fun t a b c => t.pack (sat x) (fun i => f (t.val a i) (t.val b i) (t.val c i)))

/-- One 32-bit result from n 32-bit sources. -/
def wordOp (x : RF) (n : Nat) (f : Word32 → Word32 → Word32 → Word32) : Sem where
  op e := e.each (srcsOf x n .w32) (fun i =>
      let a := e.read { f := x.a } i
      let b := if 2 ≤ n then e.readB x.mod { f := x.b } i else 0
      let c := if 3 ≤ n then e.read { f := x.c } i else 0
      (e.dst x.d .w32 i ((f (a.setWidth 32) (b.setWidth 32) (c.setWidth 32)).setWidth 128), 0))

/-- A result in the type's width whose b and c are 32-bit amounts (R198). -/
def shiftOp (x : RF) (n : Nat) (f : IType → Nat → Word32 → Word32 → Nat) : Sem where
  op e :=
    let t := iType x.mod
    let w := t.opw
    let srcB : List Src := if x.mod.getLsbD 0 then [] else [{ f := x.b }]
    let srcC : List Src := if n = 3 then [{ f := x.c }] else []
    e.each ({ f := x.a, w := w } :: srcB ++ srcC) (fun i =>
      let a := (e.read { f := x.a, w := w } i).toNat
      let b := (e.readB x.mod { f := x.b } i).setWidth 32
      let c := if n = 3 then (e.read { f := x.c } i).setWidth 32 else 0
      (e.dst x.d w i (BitVec.ofNat 128 (f t a b c % 2 ^ t.w)), 0))

/-- A 32-bit count of a value in the type's width. -/
def countOp (x : RF) (f : Nat → Nat → Nat) : Sem where
  op e :=
    let t := iType x.mod
    e.each [{ f := x.a, w := t.opw }] (fun i =>
      (e.dst x.d .w32 i (BitVec.ofNat 128 (f t.w (e.read { f := x.a, w := t.opw } i).toNat)), 0))

/-- A predicate of an operand field (R193). -/
def Env.predF (e : Env) (i : Nat) (f : Reg) : Bool := e.g.pred e.vliw i f.toNat

/-! ## NOP (R207) -/

def semNop (_ : Hd) (_ : RF) : Sem where
  op e := e.nothing
def execNop (h : Hd) (x : RF) (s : State) := run (.nop h x) (semNop h x) s

/-- The gang is not ready for the 32 cycles after its issue cycle. -/
def semNopPause (_ : Hd) (_ : RF) : Sem where
  op e :=
    if e.acts then .ok { st := e.s.modGang e.g.uid (fun g => { g with iss := { g.iss with pauseTo := some (e.s.cycle + 33) } }) }
    else e.nothing
def execNopPause (h : Hd) (x : RF) (s : State) := run (.nopPause h x) (semNopPause h x) s

/-- The pause ends once its cycles have passed, or at a yield request. -/
def execPauseExpiry (uid : Nat) (s : State) : Host.Outcome State Fault Refusal :=
  match s.gang? uid with
  | none => .next s
  | some g =>
    match g.iss.pauseTo with
    | none => .next s
    | some c =>
      if c ≤ s.cycle || g.iss.yieldReq then .next (s.modGang uid (fun g => { g with iss := { g.iss with pauseTo := none } }))
      else .next s

/-! ## Arithmetic (R196, R197) -/

def semIadd (_ : Hd) (x : RF) : Sem := elemOp x 2 (fun a b _ => a + b)
def execIadd (h : Hd) (x : RF) (s : State) := run (.iadd h x) (semIadd h x) s
def semIaddSub (_ : Hd) (x : RF) : Sem := elemOp x 2 (fun a b _ => a - b)
def execIaddSub (h : Hd) (x : RF) (s : State) := run (.iaddSub h x) (semIaddSub h x) s
def semIaddRsub (_ : Hd) (x : RF) : Sem := elemOp x 2 (fun a b _ => b - a)
def execIaddRsub (h : Hd) (x : RF) (s : State) := run (.iaddRsub h x) (semIaddRsub h x) s

/-- A sum or difference with the carry of predicate c read and written. -/
def carryOp (x : RF) (f : Nat → Nat → Nat → Nat → Nat × Bool) : Sem where
  op e :=
    let t := iType x.mod
    let w := t.opw
    e.each (srcsOf x 2 w) (fun i =>
      let a := (e.read { f := x.a, w := w } i).toNat
      let b := (e.readB x.mod { f := x.b, w := w } i).toNat % 2 ^ t.w
      let r := f t.w a b (if e.predF i x.c then 1 else 0)
      (e.dst x.d w i (BitVec.ofNat 128 r.1) ++ e.dstP x.c i r.2, 0))

def semIaddAddc (_ : Hd) (x : RF) : Sem := carryOp x (fun w a b c => ((a + b + c) % 2 ^ w, carryAdd w a b c))
def execIaddAddc (h : Hd) (x : RF) (s : State) := run (.iaddAddc h x) (semIaddAddc h x) s
def semIaddSubb (_ : Hd) (x : RF) : Sem := carryOp x (fun w a b c => ((a + 2 * 2 ^ w - b - c) % 2 ^ w, borrowSub a b c))
def execIaddSubb (h : Hd) (x : RF) (s : State) := run (.iaddSubb h x) (semIaddSubb h x) s

def semImul (_ : Hd) (x : RF) : Sem := elemOp x 2 (fun a b _ => a * b)
def execImul (h : Hd) (x : RF) (s : State) := run (.imul h x) (semImul h x) s
def semImulHi (_ : Hd) (x : RF) : Sem :=
  intOp x 2 (fun t a b _ => t.pack false (fun i => t.val a i * t.val b i / (2 ^ t.w : Nat)))
def execImulHi (h : Hd) (x : RF) (s : State) := run (.imulHi h x) (semImulHi h x) s

/-- A 64-bit result from 32-bit a and b and, where taken, a 64-bit c. -/
def wideOp (x : RF) (n : Nat) : Sem where
  op e :=
    let t := iType x.mod
    let srcC : List Src := if n = 3 then [{ f := x.c, w := .w64 }] else []
    e.each (srcsOf x 2 .w32 ++ srcC) (fun i =>
      let a := t.val (e.read { f := x.a } i) 0
      let b := t.val (e.readB x.mod { f := x.b } i) 0
      let c : Int := if n = 3 then ((e.read { f := x.c, w := .w64 } i).toNat : Int) else 0
      (e.dst x.d .w64 i (BitVec.ofNat 128 (ofInt 64 (a * b + c))), 0))

def semImulWide (_ : Hd) (x : RF) : Sem := wideOp x 2
def execImulWide (h : Hd) (x : RF) (s : State) := run (.imulWide h x) (semImulWide h x) s
def semImad (_ : Hd) (x : RF) : Sem := elemOp x 3 (fun a b c => a * b + c)
def execImad (h : Hd) (x : RF) (s : State) := run (.imad h x) (semImad h x) s
def semImadWide (_ : Hd) (x : RF) : Sem := wideOp x 3
def execImadWide (h : Hd) (x : RF) (s : State) := run (.imadWide h x) (semImadWide h x) s

/-- IDiv of R197: quotient and remainder. -/
def idivInt (w : Nat) (a b : Int) : Int × Int :=
  if b = 0 then ((2 ^ w : Nat) - 1, a)
  else (Int.tdiv a b, Int.tmod a b)

def semIdiv (_ : Hd) (x : RF) : Sem := intOp x 2 (fun t a b _ => t.pack false (fun i => (idivInt t.w (t.val a i) (t.val b i)).1))
def execIdiv (h : Hd) (x : RF) (s : State) := run (.idiv h x) (semIdiv h x) s
def semIdivRem (_ : Hd) (x : RF) : Sem := intOp x 2 (fun t a b _ => t.pack false (fun i => (idivInt t.w (t.val a i) (t.val b i)).2))
def execIdivRem (h : Hd) (x : RF) (s : State) := run (.idivRem h x) (semIdivRem h x) s

def semImnx (_ : Hd) (x : RF) : Sem := elemOp x 2 (fun a b _ => min a b)
def execImnx (h : Hd) (x : RF) (s : State) := run (.imnx h x) (semImnx h x) s
def semImnxMax (_ : Hd) (x : RF) : Sem := elemOp x 2 (fun a b _ => max a b)
def execImnxMax (h : Hd) (x : RF) (s : State) := run (.imnxMax h x) (semImnxMax h x) s
def semIabs (_ : Hd) (x : RF) : Sem := elemOp x 1 (fun a _ _ => if a < 0 then -a else a)
def execIabs (h : Hd) (x : RF) (s : State) := run (.iabs h x) (semIabs h x) s
def semIabsNeg (_ : Hd) (x : RF) : Sem := elemOp x 1 (fun a _ _ => -a)
def execIabsNeg (h : Hd) (x : RF) (s : State) := run (.iabsNeg h x) (semIabsNeg h x) s
def semIabsSad (_ : Hd) (x : RF) : Sem :=
  let t := iType x.mod
  wordOp x 3 (fun a b c =>
    let sum := (List.range t.n).foldl (fun acc i => acc + (t.val (a.setWidth 64) i - t.val (b.setWidth 64) i).natAbs) 0
    c + BitVec.ofNat 32 sum)
def execIabsSad (h : Hd) (x : RF) (s : State) := run (.iabsSad h x) (semIabsSad h x) s
def semIclmp (_ : Hd) (x : RF) : Sem := elemOp x 3 (fun a b c => min (max a b) c)
def execIclmp (h : Hd) (x : RF) (s : State) := run (.iclmp h x) (semIclmp h x) s

/-! ## Bits and shifts (R198) -/

def logicOp (x : RF) (f : Word64 → Word64 → Word64) : Sem :=
  intOp x 2 (fun t a b _ => (f a b).setWidth 128 &&& BitVec.ofNat 128 (2 ^ t.w - 1))

def semAnd (_ : Hd) (x : RF) : Sem := logicOp x (fun a b => a &&& b)
def execAnd (h : Hd) (x : RF) (s : State) := run (.and h x) (semAnd h x) s
def semAndNot (_ : Hd) (x : RF) : Sem := logicOp x (fun a b => a &&& ~~~b)
def execAndNot (h : Hd) (x : RF) (s : State) := run (.andNot h x) (semAndNot h x) s
def semOr (_ : Hd) (x : RF) : Sem := logicOp x (fun a b => a ||| b)
def execOr (h : Hd) (x : RF) (s : State) := run (.or h x) (semOr h x) s
def semOrNot (_ : Hd) (x : RF) : Sem := logicOp x (fun a b => a ||| ~~~b)
def execOrNot (h : Hd) (x : RF) (s : State) := run (.orNot h x) (semOrNot h x) s
def semXor (_ : Hd) (x : RF) : Sem := logicOp x (fun a b => a ^^^ b)
def execXor (h : Hd) (x : RF) (s : State) := run (.xor h x) (semXor h x) s
def semXorNot (_ : Hd) (x : RF) : Sem := logicOp x (fun a b => ~~~(a ^^^ b))
def execXorNot (h : Hd) (x : RF) (s : State) := run (.xorNot h x) (semXorNot h x) s

/-- Bit a + 2b + 4c of a truth table. -/
def tableBit (table : BitVec 8) (a b c : Bool) : Bool := table.getLsbD (a.toNat + 2 * b.toNat + 4 * c.toNat)

def semLut3 (_ : Hd) (x : RF) : Sem :=
  wordOp x 3 (fun a b c => BitVec.ofNat 32 ((List.range 32).foldr (fun j acc =>
    (tableBit x.fn (a.getLsbD j) (b.getLsbD j) (c.getLsbD j)).toNat + 2 * acc) 0))
def execLut3 (h : Hd) (x : RF) (s : State) := run (.lut3 h x) (semLut3 h x) s

/-- The shift amount: bits 7:0 of b. -/
def amount (b : Word32) : Nat := b.toNat % 256

def semShl (_ : Hd) (x : RF) : Sem := shiftOp x 2 (fun _ a b _ => a * 2 ^ amount b)
def execShl (h : Hd) (x : RF) (s : State) := run (.shl h x) (semShl h x) s
def semShr (_ : Hd) (x : RF) : Sem := shiftOp x 2 (fun _ a b _ => a / 2 ^ amount b)
def execShr (h : Hd) (x : RF) (s : State) := run (.shr h x) (semShr h x) s
def semShrAr (_ : Hd) (x : RF) : Sem :=
  shiftOp x 2 (fun t a b _ => ofInt t.w (toSigned t.w a / (2 ^ amount b : Nat)))
def execShrAr (h : Hd) (x : RF) (s : State) := run (.shrAr h x) (semShrAr h x) s

def rotl (w a k : Nat) : Nat := (a * 2 ^ (k % w) + a / 2 ^ (w - k % w)) % 2 ^ w
def semRot (_ : Hd) (x : RF) : Sem := shiftOp x 2 (fun t a b _ => rotl t.w a (amount b))
def execRot (h : Hd) (x : RF) (s : State) := run (.rot h x) (semRot h x) s
def semRotRr (_ : Hd) (x : RF) : Sem := shiftOp x 2 (fun t a b _ => rotl t.w a (t.w - amount b % t.w))
def execRotRr (h : Hd) (x : RF) (s : State) := run (.rotRr h x) (semRotRr h x) s
def semRotShfl (_ : Hd) (x : RF) : Sem := wordOp x 3 (fun a b c => ((a ++ b) <<< (c.toNat % 32)).extractLsb' 32 32)
def execRotShfl (h : Hd) (x : RF) (s : State) := run (.rotShfl h x) (semRotShfl h x) s
def semRotShfr (_ : Hd) (x : RF) : Sem := wordOp x 3 (fun a b c => ((a ++ b) >>> (c.toNat % 32)).extractLsb' 0 32)
def execRotShfr (h : Hd) (x : RF) (s : State) := run (.rotShfr h x) (semRotShfr h x) s

def popcount (w a : Nat) : Nat := ((List.range w).filter a.testBit).length
/-- Leading bits of a w-bit value that equal a bit. -/
def leading (w a : Nat) (v : Bool) : Nat := ((List.range w).takeWhile (fun i => a.testBit (w - 1 - i) == v)).length
def trailing (w a : Nat) : Nat := ((List.range w).takeWhile (fun i => !a.testBit i)).length

def semPopc (_ : Hd) (x : RF) : Sem := countOp x popcount
def execPopc (h : Hd) (x : RF) (s : State) := run (.popc h x) (semPopc h x) s
def semClz (_ : Hd) (x : RF) : Sem := countOp x (fun w a => leading w a false)
def execClz (h : Hd) (x : RF) (s : State) := run (.clz h x) (semClz h x) s
def semClzCtz (_ : Hd) (x : RF) : Sem := countOp x trailing
def execClzCtz (h : Hd) (x : RF) (s : State) := run (.clzCtz h x) (semClzCtz h x) s
/-- The bits below the top bit that equal it: those next to it, without a break. -/
def semClzCls (_ : Hd) (x : RF) : Sem := countOp x (fun w a => leading w a (a.testBit (w - 1)) - 1)
def execClzCls (h : Hd) (x : RF) (s : State) := run (.clzCls h x) (semClzCls h x) s

def reverseBits (w a : Nat) : Nat := (List.range w).foldl (fun acc i => 2 * acc + (a.testBit i).toNat) 0
def semBrev (_ : Hd) (x : RF) : Sem := intOp x 1 (fun t a _ _ => BitVec.ofNat 128 (reverseBits t.w a.toNat))
def execBrev (h : Hd) (x : RF) (s : State) := run (.brev h x) (semBrev h x) s
def semBrevByte (_ : Hd) (x : RF) : Sem :=
  intOp x 1 (fun t a _ _ => BitVec.ofNat 128 (leNat (leBytes (t.w / 8) a.toNat).reverse))
def execBrevByte (h : Hd) (x : RF) (s : State) := run (.brevByte h x) (semBrevByte h x) s

/-! ## Fields (R199, R200) -/

/-- BFX of R199. -/
def bfxBits (t : IType) (a pos len : Nat) : Nat :=
  if len = 0 || t.w ≤ pos then 0
  else
    let l := min len (t.w - pos)
    let f := a / 2 ^ pos % 2 ^ l
    if t.signed then ofInt t.w (toSigned l f) else f
/-- BFI of R199. -/
def bfiBits (w a b pos len : Nat) : Nat :=
  if len = 0 || w ≤ pos then a
  else
    let l := min len (w - pos)
    a - a / 2 ^ pos % 2 ^ l * 2 ^ pos + b % 2 ^ l * 2 ^ pos

def semBfx (_ : Hd) (x : RF) : Sem := shiftOp x 3 (fun t a b c => bfxBits t a (b.toNat % 256) (c.toNat % 256))
def execBfx (h : Hd) (x : RF) (s : State) := run (.bfx h x) (semBfx h x) s
def semBfi (_ : Hd) (x : RF) : Sem where
  op e :=
    let t := iType x.mod
    let w := t.opw
    e.each (srcsOf x 2 w ++ [{ f := x.c }]) (fun i =>
      let a := (e.read { f := x.a, w := w } i).toNat
      let b := (e.readB x.mod { f := x.b, w := w } i).toNat
      let c := (e.read { f := x.c } i).toNat
      (e.dst x.d w i (BitVec.ofNat 128 (bfiBits t.w a b (c % 256) (c / 256 % 256))), 0))
def execBfi (h : Hd) (x : RF) (s : State) := run (.bfi h x) (semBfi h x) s

/-- PRMT of R199: one output byte. -/
def prmtByte (ab : Nat) (sel : Nat) : Nat :=
  let y := ab / 256 ^ (sel % 8) % 256
  match sel / 8 % 4 with
  | 0 => y
  | 1 => 0
  | 2 => y % 16 * 16 + y / 16
  | _ => if y ≥ 128 then 255 else 0
def semPrmt (_ : Hd) (x : RF) : Sem :=
  wordOp x 3 (fun a b c => BitVec.ofNat 32 ((List.range 4).foldr (fun i acc => prmtByte (a ++ b).toNat (c.toNat / 32 ^ i % 32) + 256 * acc) 0))
def execPrmt (h : Hd) (x : RF) (s : State) := run (.prmt h x) (semPrmt h x) s

def semPack (_ : Hd) (x : RF) : Sem := wordOp x 2 (fun a b _ => b.setWidth 16 ++ a.setWidth 16)
def execPack (h : Hd) (x : RF) (s : State) := run (.pack h x) (semPack h x) s
def clamp16 (signed : Bool) (v : Word32) : BitVec 16 := BitVec.ofNat 16 (ofInt 16 (clampInt 16 signed v.toInt))
def semPackSs (_ : Hd) (x : RF) : Sem := wordOp x 2 (fun a b _ => clamp16 true b ++ clamp16 true a)
def execPackSs (h : Hd) (x : RF) (s : State) := run (.packSs h x) (semPackSs h x) s
def semPackNn (_ : Hd) (x : RF) : Sem := wordOp x 2 (fun a b _ => clamp16 false b ++ clamp16 false a)
def execPackNn (h : Hd) (x : RF) (s : State) := run (.packNn h x) (semPackNn h x) s

/-! ## Comparison, selection, predicates (R201, R202) -/

def icmpRel (fn : Nat) (a b : Int) : Bool :=
  match fn with
  | 0 => a == b
  | 1 => a != b
  | 2 => a < b
  | 3 => a ≤ b
  | 4 => a > b
  | _ => a ≥ b
def semIcmp (_ : Hd) (x : RF) : Sem where
  op e :=
    let t := iType x.mod
    let w := t.opw
    e.each (srcsOf x 2 w) (fun i =>
      let a := t.val (e.read { f := x.a, w := w } i) 0
      let b := t.val (e.readB x.mod { f := x.b, w := w } i) 0
      (e.dstP x.d i (icmpRel x.fn.toNat a b && e.predF i x.c), 0))
def execIcmp (h : Hd) (x : RF) (s : State) := run (.icmp h x) (semIcmp h x) s

def semSel (_ : Hd) (x : RF) : Sem where
  op e :=
    let w := (iType x.mod).opw
    e.each (srcsOf x 2 w) (fun i =>
      let v := if e.predF i x.c then e.read { f := x.a, w := w } i else e.readB x.mod { f := x.b, w := w } i
      (e.dst x.d w i (v.setWidth 128), 0))
def execSel (h : Hd) (x : RF) (s : State) := run (.sel h x) (semSel h x) s

def semPlog (_ : Hd) (x : RF) : Sem where
  op e := e.each [] (fun i => (e.dstP x.d i (tableBit x.fn (e.predF i x.a) (e.predF i x.b) (e.predF i x.c)), 0))
def execPlog (h : Hd) (x : RF) (s : State) := run (.plog h x) (semPlog h x) s

/-! ## Moves and immediates (R203, R204) -/

def simm (x : IF) : Word64 := x.imm.signExtend 64

def semMovi (_ : Hd) (x : IF) : Sem where
  op e :=
    let wide := !wideColumn e.place false && 128 ≤ x.d.toNat
    e.each [] (fun i => (e.dst x.d (if wide then .w64 else .w32) i ((simm x).setWidth 128), 0))
def execMovi (h : Hd) (x : IF) (s : State) := run (.movi h x) (semMovi h x) s
def semMoviX64 (_ : Hd) (x : IF) : Sem where
  op e := e.each [] (fun i => (e.dst x.d .w64 i ((simm x).setWidth 128), 0))
def execMoviX64 (h : Hd) (x : IF) (s : State) := run (.moviX64 h x) (semMoviX64 h x) s
def semMovh (_ : Hd) (x : IF) : Sem where
  op e := e.each [{ f := x.d, w := .w64 }] (fun i =>
    (e.dst x.d .w64 i ((e.read { f := x.d, w := .w64 } i + simm x * 0x10000000).setWidth 128), 0))
def execMovh (h : Hd) (x : IF) (s : State) := run (.movh h x) (semMovh h x) s
def semMovhX32 (_ : Hd) (x : IF) : Sem where
  op e := e.each [{ f := x.d }] (fun i =>
    (e.dst x.d .w32 i ((e.read { f := x.d } i + simm x * 0x10000000).setWidth 128), 0))
def execMovhX32 (h : Hd) (x : IF) (s : State) := run (.movhX32 h x) (semMovhX32 h x) s

def semMov (_ : Hd) (x : RF) : Sem := intOp x 1 (fun _ a _ _ => a.setWidth 128)
def execMov (h : Hd) (x : RF) (s : State) := run (.mov h x) (semMov h x) s

/-- A broadcast: to every present strand, or from cluster k to every cluster. -/
def semMovBc (_ : Hd) (x : RF) : Sem where
  op e :=
    let w := (iType x.mod).opw
    if !e.acts && e.place == .simt then e.nothing
    else
      let a : Src := { f := x.a, w := w }
      if e.poisoned [a] then .trap { cause := causePoison }
      else
        match e.place with
        | .lane k =>
          if e.guard k then .ok { st := e.s, writes := ((List.range 16).map (fun j => e.dst x.d w j ((e.read a k).setWidth 128))).flatten }
          else e.nothing
        | _ =>
          let v := (e.read a e.lead).setWidth 128
          if 128 ≤ x.d.toNat then .ok { st := e.s, writes := e.dst x.d w e.lead v }
          else .ok { st := e.s, writes := (((List.range 32).filter (fun i => e.g.present.getLsbD i)).map (fun i => e.dst x.d w i v)).flatten }
def execMovBc (h : Hd) (x : RF) (s : State) := run (.movBc h x) (semMovBc h x) s

/-- A copy from cluster J; only a lane slot has other clusters. -/
def semXmov (_ : Hd) (x : RF) : Sem where
  op e :=
    let w := (iType x.mod).opw
    let a : Src := { f := x.a, w := w }
    let j := x.b.toNat % 16
    if !isLane e.place then e.illegal
    else if !e.parts.isEmpty && e.srcPoison a j then .trap { cause := causePoison }
    else .ok { st := e.s, writes := (e.parts.map (fun k => e.dst x.d w k ((e.read a j).setWidth 128))).flatten }
def execXmov (h : Hd) (x : RF) (s : State) := run (.xmov h x) (semXmov h x) s

/-! ## Addresses and dot products (R205, R206) -/

def leaOp (x : RF) (signed : Bool) : Sem where
  op e :=
    let sh := x.mod.toNat / 16 % 8
    let srcB : List Src := if x.mod.getLsbD 0 then [] else [{ f := x.b }]
    e.each ({ f := x.a, w := .w64 } :: srcB) (fun i =>
      let b : Word32 := (e.readB x.mod { f := x.b } i).setWidth 32
      let ix : Word64 := if signed then b.signExtend 64 else b.setWidth 64
      (e.dst x.d .w64 i ((e.read { f := x.a, w := .w64 } i + ix <<< sh).setWidth 128), 0))
def semLea (_ : Hd) (x : RF) : Sem := leaOp x true
def execLea (h : Hd) (x : RF) (s : State) := run (.lea h x) (semLea h x) s
def semLeaN (_ : Hd) (x : RF) : Sem := leaOp x false
def execLeaN (h : Hd) (x : RF) (s : State) := run (.leaN h x) (semLeaN h x) s

/-- c plus the exact products of the elements, modulo 2^32 or saturated to 32 bits. -/
def idotOp (x : RF) : Sem :=
  let t := iType x.mod
  let t32 : IType := ⟨32, 1, t.signed⟩
  wordOp x 3 (fun a b c =>
    let sum := (List.range t.n).foldl (fun acc i => acc + t.val (a.setWidth 64) i * t.val (b.setWidth 64) i) (t32.val (c.setWidth 64) 0)
    (t32.pack (sat x) (fun _ => sum)).setWidth 32)
def semIdot (_ : Hd) (x : RF) : Sem := idotOp x
def execIdot (h : Hd) (x : RF) (s : State) := run (.idot h x) (semIdot h x) s
def semIdotH (_ : Hd) (x : RF) : Sem := idotOp x
def execIdotH (h : Hd) (x : RF) (s : State) := run (.idotH h x) (semIdotH h x) s

/-! ## Special registers (R208, R209) -/

/-- The value of special register n for participant i. -/
def Env.special (e : Env) (n i : Nat) : Word64 :=
  let g := e.g
  match n with
  | 0 => g.spec.ib.setWidth 64
  | 1 => g.spec.tb.setWidth 64
  | 2 => g.spec.cp
  | 3 => g.spec.cpm
  | 4 => g.spec.dl
  | 5 => g.spec.dcp
  | 6 => g.ctl.nc.setWidth 64
  | 7 => g.fx.setWidth 64
  | 8 => g.gid.setWidth 64
  | 9 => if e.vliw then 0 else BitVec.ofNat 64 i
  | 10 => BitVec.ofNat 64 g.slot
  | 11 => BitVec.ofNat 64 g.core
  | 12 => BitVec.ofNat 64 g.cluster
  | 13 => if g.ctl.vliw then 1 else 0
  | 14 => g.ctl.nmask.setWidth 64
  | _ => g.spec.tstat

def semMfs (_ : Hd) (x : RF) : Sem where
  op e := e.each [] (fun i => (e.dst x.d (wSpr x.a) i ((e.special x.a.toNat i).setWidth 128), 0))
def execMfs (h : Hd) (x : RF) (s : State) := run (.mfs h x) (semMfs h x) s

/-- MTS acts once for the gang. A value that R56 refuses raises the decoder's illegal trap. -/
def semMts (_ : Hd) (x : RF) : Sem where
  op e :=
    let a : Src := { f := x.a, w := wSpr x.d, base := true }
    if !e.acts then e.nothing
    else if e.srcPoison a e.lead then .trap { cause := causePoison }
    else
      let v := e.uniform a
      let put (f : Gang → Gang) : Res := .ok { st := e.s.modGang e.g.uid f }
      if x.d == 4#8 then
        if bits64 v 31 0 > 999999999 then e.illegal else put (fun g => { g with spec := { g.spec with dl := v } })
      else if x.d == 5#8 then
        if bits64 v 63 56 != 0 || bits64 v 2 0 != 0 then e.illegal else put (fun g => { g with spec := { g.spec with dcp := v } })
      else if x.d == 7#8 then put (fun g => { g with ctl := { g.ctl with fx := v.setWidth 32 &&& 0x3F } })
      else e.illegal
def execMts (h : Hd) (x : RF) (s : State) := run (.mts h x) (semMts h x) s

end Sys2Proof.Machine
end

