-- ==== Sys2Proof/Machine/CrossLane.lean ====
section
/-! DEFINITION. Majors 0x20 to 0x27, 0x3D and 0x3E: votes, lane reads and writes, shuffles, pattern banks, reductions, scans and the
block formats across strands (R210 to R215, R226, R227). -/

namespace Sys2Proof.Machine

/-- The strands of the gang, or the clusters of the shuffle slot. -/
def Env.width (e : Env) : Nat := if e.vliw then 16 else 32

/-! ## Votes (R211) -/

/-- The executing participants whose predicate a is true. -/
def Env.votes (e : Env) (x : RF) : List Nat := e.parts.filter (fun i => e.predF i x.a)

def votePred (x : RF) (f : Env → Bool) : Sem where
  op e := e.each [] (fun i => (e.dstP x.d i (f e), 0))
def voteWord (x : RF) (f : Env → Nat) : Sem where
  op e := e.each [] (fun i => (e.dst x.d .w32 i (BitVec.ofNat 128 (f e)), 0))

def semVoteAny (_ : Hd) (x : RF) : Sem := votePred x (fun e => !(e.votes x).isEmpty)
def execVoteAny (h : Hd) (x : RF) (s : State) := run (.voteAny h x) (semVoteAny h x) s
def semVoteAll (_ : Hd) (x : RF) : Sem := votePred x (fun e => (e.votes x).length == e.parts.length)
def execVoteAll (h : Hd) (x : RF) (s : State) := run (.voteAll h x) (semVoteAll h x) s
def semVoteBallot (_ : Hd) (x : RF) : Sem := voteWord x (fun e => (e.votes x).foldl (fun n i => n + 2 ^ i) 0)
def execVoteBallot (h : Hd) (x : RF) (s : State) := run (.voteBallot h x) (semVoteBallot h x) s
def semVoteCount (_ : Hd) (x : RF) : Sem := voteWord x (fun e => (e.votes x).length)
def execVoteCount (h : Hd) (x : RF) (s : State) := run (.voteCount h x) (semVoteCount h x) s
def semVoteFirst (_ : Hd) (x : RF) : Sem := voteWord x (fun e => (e.votes x).headD e.width)
def execVoteFirst (h : Hd) (x : RF) (s : State) := run (.voteFirst h x) (semVoteFirst h x) s

/-! ## Lane reads and writes (R212) -/

/-- A uniform operand of the shuffle slot is cluster 0's register (R210). -/
def Env.uni (e : Env) (x : Src) : Word64 := if e.place == .shuf then e.read x 0 else e.uniform x
def Env.uniPoison (e : Env) (x : Src) : Bool :=
  !e.parts.isEmpty && (if e.place == .shuf then e.srcPoison x 0 else e.srcPoison { x with base := true } e.lead)

/-- Each executing participant receives register a of a source participant. -/
def gather (x : RF) (others : List Src) (uni : Bool) (src : Env → Nat → Nat) : Sem where
  op e :=
    let w := (iType x.mod).opw
    let a : Src := { f := x.a, w := w }
    if e.parts.any (fun i => e.srcPoison a (src e i)) || (if uni then others.any e.uniPoison else e.poisoned others) then
      .trap { cause := causePoison }
    else .ok { st := e.s, writes := (e.parts.map (fun i => e.dst x.d w i ((e.read a (src e i)).setWidth 128))).flatten }

def semRdlane (_ : Hd) (x : RF) : Sem := gather x [{ f := x.b }] true (fun e _ => (e.uni { f := x.b }).toNat % e.width)
def execRdlane (h : Hd) (x : RF) (s : State) := run (.rdlane h x) (semRdlane h x) s

/-- d of strand j receives the uniform a, unless strand j is absent. -/
def semWrlane (_ : Hd) (x : RF) : Sem where
  op e :=
    let w := (iType x.mod).opw
    let a : Src := { f := x.a, w := w }
    let b : Src := { f := x.b }
    if e.parts.isEmpty then e.nothing
    else if e.uniPoison a || e.uniPoison b then .trap { cause := causePoison }
    else
      let j := (e.uni b).toNat % e.width
      let v := (e.uni a).setWidth 128
      if !e.vliw && !e.g.present.getLsbD j then e.nothing
      else if !e.vliw && 128 ≤ x.d.toNat then .ok { st := e.s, writes := e.dst x.d w e.lead v }
      else .ok { st := e.s, writes := e.dst x.d w j v }
def execWrlane (h : Hd) (x : RF) (s : State) := run (.wrlane h x) (semWrlane h x) s

/-! ## Shuffles (R213) -/

def segment (x : RF) : Nat := 2 ^ (x.c.toNat - 192)

def semShuf (_ : Hd) (x : RF) : Sem := gather x [{ f := x.b }] false (fun e i =>
  let s := segment x
  i - i % s + (e.read { f := x.b } i).toNat % s)
def execShuf (h : Hd) (x : RF) (s : State) := run (.shuf h x) (semShuf h x) s
def semShufRot (_ : Hd) (x : RF) : Sem := gather x [{ f := x.b }] true (fun e i =>
  let s := segment x
  i - i % s + (i % s + (e.uni { f := x.b }).toNat % 256) % s)
def execShufRot (h : Hd) (x : RF) (s : State) := run (.shufRot h x) (semShufRot h x) s
def semShufXor (_ : Hd) (x : RF) : Sem := gather x [{ f := x.b }] true (fun e i =>
  let s := segment x
  i - i % s + Nat.xor (i % s) ((e.uni { f := x.b }).toNat % 256) % s)
def execShufXor (h : Hd) (x : RF) (s : State) := run (.shufXor h x) (semShufXor h x) s
def semShufRev (_ : Hd) (x : RF) : Sem := gather x [] false (fun _ i =>
  let s := segment x
  i - i % s + (s - 1 - i % s))
def execShufRev (h : Hd) (x : RF) (s : State) := run (.shufRev h x) (semShufRev h x) s

/-! ## Pattern banks (R214) -/

def semPatld (_ : Hd) (x : RF) : Sem where
  op e := e.each [{ f := x.a }] (fun i =>
    ([{ dst := .pt (32 * (x.fn.toNat % 4) + i), val := BitVec.ofNat 64 ((e.read { f := x.a } i).toNat % e.width) }], 0))
def execPatld (h : Hd) (x : RF) (s : State) := run (.patld h x) (semPatld h x) s
def semPatsw (_ : Hd) (x : RF) : Sem := gather x [] false (fun e i => e.g.pt (x.fn.toNat % 4) i % e.width)
def execPatsw (h : Hd) (x : RF) (s : State) := run (.patsw h x) (semPatsw h x) s

/-! ## Reductions and scans (R147, R215) -/

/-- One combination of two 32-bit values, with its flags. -/
def combine (fn : Nat) (mod : BitVec 8) (a b : Nat) : Nat × Fx :=
  let ftz := mod.getLsbD 1
  match fn % 16 with
  | 0 => fpAdd .f32 (Rm.ofCode (mod.toNat / 4 % 4)) ftz false a b
  | 1 => fpMnx .f32 ftz true false a b
  | 2 => fpMnx .f32 ftz false false a b
  | 3 => ((a + b) % 2 ^ 32, 0)
  | 4 => (if toSigned 32 a < toSigned 32 b then b else a, 0)
  | 5 => (if toSigned 32 b < toSigned 32 a then b else a, 0)
  | 6 => (max a b, 0)
  | 7 => (min a b, 0)
  | 8 => (Nat.land a b, 0)
  | 9 => (Nat.lor a b, 0)
  | _ => (Nat.xor a b, 0)

/-- The identity of an operation. -/
def redIdentity (fn : Nat) : Nat :=
  [0x80000000, 0xFF800000, 0x7F800000, 0, 0x80000000, 0x7FFFFFFF, 0, 0xFFFFFFFF, 0xFFFFFFFF, 0, 0].getD (fn % 16) 0

/-- One level of the tree: neighbours combined. -/
def pairUp (f : Nat → Nat → Nat × Fx) : List Nat → List Nat × Fx
  | a :: b :: l => let r := f a b; let q := pairUp f l; (r.1 :: q.1, r.2 ||| q.2)
  | l => (l, 0)

/-- The tree of R147 over 2^k leaves. -/
def redTree (f : Nat → Nat → Nat × Fx) : Nat → List Nat → Nat × Fx
  | 0, l => (l.headD 0, 0)
  | k + 1, l => let r := pairUp f l; let q := redTree f k r.1; (q.1, r.2 ||| q.2)

/-- One step of the scan with distance d: simultaneous. -/
def scanStep (f : Nat → Nat → Nat × Fx) (d : Nat) (y : List Nat) : List Nat × Fx :=
  let rs := (List.range y.length).map (fun i => if d ≤ i then f (y.getD (i - d) 0) (y.getD i 0) else (y.getD i 0, (0 : Fx)))
  (rs.map Prod.fst, rs.foldl (fun a r => a ||| r.2) 0)

def scanAll (f : Nat → Nat → Nat × Fx) (ds : List Nat) (y : List Nat) : List Nat × Fx :=
  ds.foldl (fun a d => let r := scanStep f d a.1; (r.1, a.2 ||| r.2)) (y, 0)

/-- The value of each participant: that of a, or the identity where it does not execute. -/
def Env.leaves (e : Env) (x : RF) : List Nat :=
  (List.range e.width).map (fun i => if e.parts.contains i then (e.read { f := x.a } i).toNat else redIdentity x.fn.toNat)

def semGred (_ : Hd) (x : RF) : Sem where
  op e :=
    let r := redTree (combine x.fn.toNat x.mod) (if e.vliw then 4 else 5) (e.leaves x)
    match e.each [{ f := x.a }] (fun i => (e.dst x.d .w32 i (BitVec.ofNat 128 r.1), r.2)) with
    | .ok f => .ok { f with fx := r.2 }
    | q => q
def execGred (h : Hd) (x : RF) (s : State) := run (.gred h x) (semGred h x) s

/-- The inclusive prefix, or with fn bit 4 the exclusive one. -/
def semGscan (_ : Hd) (x : RF) : Sem where
  op e :=
    let r := scanAll (combine x.fn.toNat x.mod) (if e.vliw then [1, 2, 4, 8] else [1, 2, 4, 8, 16]) (e.leaves x)
    let at_ (i : Nat) : Nat :=
      if x.fn.toNat < 16 then r.1.getD i 0 else if i = 0 then redIdentity x.fn.toNat else r.1.getD (i - 1) 0
    match e.each [{ f := x.a }] (fun i => (e.dst x.d .w32 i (BitVec.ofNat 128 (at_ i)), r.2)) with
    | .ok f => .ok { f with fx := r.2 }
    | q => q
def execGscan (h : Hd) (x : RF) (s : State) := run (.gscan h x) (semGscan h x) s

/-! ## Blocks across strands (R226, R227) -/

/-- The block that participant i belongs to is read or written as words, one in each of 16 participants. -/
def semBxpk (_ : Hd) (x : RF) : Sem where
  op e :=
    let f : Fmt := if x.fn = 0#8 then .f32 else .b16
    let a : Src := { f := x.a, fc := if x.fn = 0#8 then .bits else .packed .b16 }
    let m := bxMag (modCode x.mod)
    let blk (hb : Nat) : List Byte × Fx :=
      bxEncode m ((List.range 16).map (fun j =>
        if e.parts.contains (16 * hb + j) then decodeF f ((e.read a (16 * hb + j)).toNat % 2 ^ f.width) else .fin false 0 0))
    let b0 := blk 0
    let b1 := if e.vliw then b0 else blk 1
    match e.each [a] (fun i =>
      let b := if i < 16 then b0 else b1
      (e.dst x.d .w32 i (BitVec.ofNat 128 (leNat ((b.1.drop (4 * (i % 16))).take 4))), 0)) with
    | .ok r => .ok { r with fx := b0.2 ||| b1.2 }
    | q => q
def execBxpk (h : Hd) (x : RF) (s : State) := run (.bxpk h x) (semBxpk h x) s

def semBxup (_ : Hd) (x : RF) : Sem where
  op e :=
    let view : Fmt := if x.fn = 0#8 then .f32 else .b16
    let a : Src := { f := x.a }
    let m := bxMag (modCode x.mod)
    let words := (bxBytes m + 3) / 4
    let blk (hb : Nat) : List Byte := ((List.range words).map (fun w => leBytes 4 (e.read a (16 * hb + w)).toNat)).flatten
    if e.parts.any (fun i => (List.range words).any (fun w => e.srcPoison a (16 * (i / 16) + w))) then .trap { cause := causePoison }
    else .ok { st := e.s, writes := (e.parts.map (fun i =>
      e.dst x.d .w32 i (BitVec.ofNat 128 (bxDecode m view (blk (i / 16)) (i % 16))))).flatten }
def execBxup (h : Hd) (x : RF) (s : State) := run (.bxup h x) (semBxup h x) s

end Sys2Proof.Machine
end

