-- ==== Sys2Proof/Machine/Float.lean ====
section
/-! DEFINITION. Majors 0x28 to 0x3C and 0x3F: floating-point arithmetic, comparison, conversion, special functions and dot products
(R216 to R225). -/

namespace Sys2Proof.Machine

/-! ## Shapes -/

/-- The format of a mod byte (R132), its rounding mode, and its bit 1 (FTZ or SAT, R136). -/
def fmtOf (x : RF) : Fmt := (Fmt.ofCode (modCode x.mod)).getD .f32
def rmOf (x : RF) : Rm := Rm.ofCode (x.mod.toNat / 4 % 4)
def ftzOf (x : RF) : Bool := x.mod.getLsbD 1

def Fmt.opw (f : Fmt) : OpW := if f = .f64 then .w64 else .w32
/-- Elements of an operand of a format (R135). -/
def Fmt.elems (f : Fmt) : Nat := if f.width = 64 then 1 else 32 / f.width
def Fmt.fc (f : Fmt) : FC :=
  match f with
  | .f64 => .f64
  | .f32 => .bits
  | _ => .packed f

/-- One result per element from n operands of the format, with the flags of every element. -/
def fpOp (x : RF) (n : Nat) (f : Fmt → Nat → Nat → Nat → Nat × Fx) : Sem where
  op e :=
    let fm := fmtOf x
    let w := fm.opw
    let fc := fm.fc
    e.each (srcsOf x n w fc) (fun i =>
      let a := e.read { f := x.a, w := w, fc := fc } i
      let b := if 2 ≤ n then e.readB x.mod { f := x.b, w := w, fc := fc } i else 0
      let c := if 3 ≤ n then e.read { f := x.c, w := w, fc := fc } i else 0
      let rs := (List.range fm.elems).map (fun k => f fm (elemBits fm.width a k) (elemBits fm.width b k) (elemBits fm.width c k))
      (e.dst x.d w i (BitVec.ofNat 128 (rs.foldr (fun r acc => r.1 + 2 ^ fm.width * acc) 0)), rs.foldl (fun q r => q ||| r.2) 0))

/-! ## Arithmetic (R216, R222) -/

def semFadd (_ : Hd) (x : RF) : Sem := fpOp x 2 (fun f a b _ => fpAdd f (rmOf x) (ftzOf x) false a b)
def execFadd (h : Hd) (x : RF) (s : State) := run (.fadd h x) (semFadd h x) s
def semFaddSub (_ : Hd) (x : RF) : Sem := fpOp x 2 (fun f a b _ => fpAdd f (rmOf x) (ftzOf x) true a b)
def execFaddSub (h : Hd) (x : RF) (s : State) := run (.faddSub h x) (semFaddSub h x) s
def semFmul (_ : Hd) (x : RF) : Sem := fpOp x 2 (fun f a b _ => fpMul f (rmOf x) (ftzOf x) a b)
def execFmul (h : Hd) (x : RF) (s : State) := run (.fmul h x) (semFmul h x) s
def semFfma (_ : Hd) (x : RF) : Sem := fpOp x 3 (fun f a b c => fpFma f (rmOf x) (ftzOf x) false false a b c)
def execFfma (h : Hd) (x : RF) (s : State) := run (.ffma h x) (semFfma h x) s
def semFfmaMs (_ : Hd) (x : RF) : Sem := fpOp x 3 (fun f a b c => fpFma f (rmOf x) (ftzOf x) false true a b c)
def execFfmaMs (h : Hd) (x : RF) (s : State) := run (.ffmaMs h x) (semFfmaMs h x) s
def semFfmaNm (_ : Hd) (x : RF) : Sem := fpOp x 3 (fun f a b c => fpFma f (rmOf x) (ftzOf x) true false a b c)
def execFfmaNm (h : Hd) (x : RF) (s : State) := run (.ffmaNm h x) (semFfmaNm h x) s

def semDadd (_ : Hd) (x : RF) : Sem := fpOp x 2 (fun f a b _ => fpAdd f (rmOf x) (ftzOf x) false a b)
def execDadd (h : Hd) (x : RF) (s : State) := run (.dadd h x) (semDadd h x) s
def semDaddSub (_ : Hd) (x : RF) : Sem := fpOp x 2 (fun f a b _ => fpAdd f (rmOf x) (ftzOf x) true a b)
def execDaddSub (h : Hd) (x : RF) (s : State) := run (.daddSub h x) (semDaddSub h x) s
def semDmul (_ : Hd) (x : RF) : Sem := fpOp x 2 (fun f a b _ => fpMul f (rmOf x) (ftzOf x) a b)
def execDmul (h : Hd) (x : RF) (s : State) := run (.dmul h x) (semDmul h x) s
def semDfma (_ : Hd) (x : RF) : Sem := fpOp x 3 (fun f a b c => fpFma f (rmOf x) (ftzOf x) false false a b c)
def execDfma (h : Hd) (x : RF) (s : State) := run (.dfma h x) (semDfma h x) s
def semDfmaMs (_ : Hd) (x : RF) : Sem := fpOp x 3 (fun f a b c => fpFma f (rmOf x) (ftzOf x) false true a b c)
def execDfmaMs (h : Hd) (x : RF) (s : State) := run (.dfmaMs h x) (semDfmaMs h x) s
def semDfmaNm (_ : Hd) (x : RF) : Sem := fpOp x 3 (fun f a b c => fpFma f (rmOf x) (ftzOf x) true false a b c)
def execDfmaNm (h : Hd) (x : RF) (s : State) := run (.dfmaNm h x) (semDfmaNm h x) s

/-- a × 2^b with b read as s32. A scale beyond ±1000 rounds as ±1000 does in f32. -/
def semFscl (_ : Hd) (x : RF) : Sem := fpOp x 2 (fun f a b _ =>
  let k : Int := max (-1000) (min 1000 (toSigned 32 b))
  let y := match fpIn f (ftzOf x) a with
    | .fin n m e => Num.fin n m (e + k)
    | y => y
  fpRound f (rmOf x) (ftzOf x) [a] false y)
def execFscl (h : Hd) (x : RF) (s : State) := run (.fscl h x) (semFscl h x) s

def semFdiv (_ : Hd) (x : RF) : Sem := fpOp x 2 (fun f a b _ =>
  let n := fpIn f (ftzOf x) a; let d := fpIn f (ftzOf x) b
  let invalid := (n.isZero && d.isZero) || (n.isInf && d.isInf)
  let r := fpRound f (rmOf x) (ftzOf x) [a, b] invalid (divNum n d)
  (r.1, r.2 ||| (if d.isZero && !n.isZero && !n.isInf && !n.isNan then fxDz else 0)))
def execFdiv (h : Hd) (x : RF) (s : State) := run (.fdiv h x) (semFdiv h x) s
def semFsqrt (_ : Hd) (x : RF) : Sem := fpOp x 1 (fun f a _ _ =>
  let n := fpIn f (ftzOf x) a
  fpRound f (rmOf x) (ftzOf x) [a] (!n.isNan && n.neg? && !n.isZero) (sqrtNum n))
def execFsqrt (h : Hd) (x : RF) (s : State) := run (.fsqrt h x) (semFsqrt h x) s

/-! ## Minimum, comparison, class, integral rounding (R217 to R220, R222) -/

def semFmnx (_ : Hd) (x : RF) : Sem := fpOp x 2 (fun f a b _ => fpMnx f (ftzOf x) false false a b)
def execFmnx (h : Hd) (x : RF) (s : State) := run (.fmnx h x) (semFmnx h x) s
def semFmnxMax (_ : Hd) (x : RF) : Sem := fpOp x 2 (fun f a b _ => fpMnx f (ftzOf x) true false a b)
def execFmnxMax (h : Hd) (x : RF) (s : State) := run (.fmnxMax h x) (semFmnxMax h x) s
def semFmnxMinn (_ : Hd) (x : RF) : Sem := fpOp x 2 (fun f a b _ => fpMnx f (ftzOf x) false true a b)
def execFmnxMinn (h : Hd) (x : RF) (s : State) := run (.fmnxMinn h x) (semFmnxMinn h x) s
def semFmnxMaxn (_ : Hd) (x : RF) : Sem := fpOp x 2 (fun f a b _ => fpMnx f (ftzOf x) true true a b)
def execFmnxMaxn (h : Hd) (x : RF) (s : State) := run (.fmnxMaxn h x) (semFmnxMaxn h x) s

/-- A predicate from two operands of the format, ANDed with p(c). -/
def fpCompare (x : RF) : Sem where
  op e :=
    let f := fmtOf x
    e.each (srcsOf x 2 f.opw f.fc) (fun i =>
      let a := (e.read { f := x.a, w := f.opw, fc := f.fc } i).toNat
      let b := (e.readB x.mod { f := x.b, w := f.opw, fc := f.fc } i).toNat
      let r := fpRel f (ftzOf x) x.fn.toNat a b
      (e.dstP x.d i (r.1 && e.predF i x.c), r.2))
def semFcmp (_ : Hd) (x : RF) : Sem := fpCompare x
def execFcmp (h : Hd) (x : RF) (s : State) := run (.fcmp h x) (semFcmp h x) s
def semDcmp (_ : Hd) (x : RF) : Sem := fpCompare x
def execDcmp (h : Hd) (x : RF) (s : State) := run (.dcmp h x) (semDcmp h x) s

/-- The class of R219 as a bit number. -/
def fpClass (f : Fmt) (a : Nat) : Nat :=
  if isSnan f a then 0
  else match decodeF f a with
    | .nan => 1
    | .inf n => if n then 2 else 9
    | .fin n m _ =>
      if m = 0 then (if n then 5 else 6)
      else if isSubnormal f a then (if n then 4 else 7)
      else (if n then 3 else 8)

def semFcls (_ : Hd) (x : RF) : Sem := fpOp x 1 (fun f a _ _ => (2 ^ fpClass f a, 0))
def execFcls (h : Hd) (x : RF) (s : State) := run (.fcls h x) (semFcls h x) s
def semFclsP (_ : Hd) (x : RF) : Sem where
  op e := e.each (srcsOf x 2 .w32) (fun i =>
    (e.dstP x.d i ((e.readB x.mod { f := x.b } i).toNat.testBit (fpClass .f32 (e.read { f := x.a } i).toNat)), 0))
def execFclsP (h : Hd) (x : RF) (s : State) := run (.fclsP h x) (semFclsP h x) s

/-- The integral value keeps the sign of a; nothing else is flagged than a signalling NaN. -/
def semFrnd (_ : Hd) (x : RF) : Sem := fpOp x 1 (fun f a _ _ =>
  let r := match fpIn f (ftzOf x) a with
    | .fin n m e =>
      let i := (roundInt (rmOf x) (.fin n m e)).1
      roundTo f .rne false (.fin n i.natAbs 0)
    | y => roundTo f .rne false y
  (r.1, snanFx f [a]))
def execFrnd (h : Hd) (x : RF) (s : State) := run (.frnd h x) (semFrnd h x) s

/-- The exponent e with 0.5 ≤ |m| < 1 and a = m × 2^e, of a finite nonzero value. -/
def fracExp : Num → Int
  | .fin _ m e => e + (bitLen m : Nat)
  | _ => 0

def semFxmFm (_ : Hd) (x : RF) : Sem := fpOp x 1 (fun f a _ _ =>
  let y := match fpIn f (ftzOf x) a with
    | .fin n m e => if m = 0 then Num.fin n m e else Num.fin n m (e - fracExp (.fin n m e))
    | y => y
  ((roundTo f .rne false y).1, snanFx f [a]))
def execFxmFm (h : Hd) (x : RF) (s : State) := run (.fxmFm h x) (semFxmFm h x) s
def semFxmFe (_ : Hd) (x : RF) : Sem := fpOp x 1 (fun f a _ _ =>
  let y := fpIn f (ftzOf x) a
  (if y.isZero then 0 else ofInt 32 (fracExp y), snanFx f [a]))
def execFxmFe (h : Hd) (x : RF) (s : State) := run (.fxmFe h x) (semFxmFe h x) s
def semFxmIlogb (_ : Hd) (x : RF) : Sem := fpOp x 1 (fun f a _ _ =>
  match fpIn f (ftzOf x) a with
  | .nan => (0x80000000, fxNv)
  | .inf _ => (0x7FFFFFFF, fxNv)
  | y => if y.isZero then (0x80000000, fxNv) else (ofInt 32 (fracExp y - 1), 0))
def execFxmIlogb (h : Hd) (x : RF) (s : State) := run (.fxmIlogb h x) (semFxmIlogb h x) s

/-! ## Conversions (R141, R223, R224) -/

/-- The integer types of R224's table: width and signedness. -/
def ity (n : Nat) : Nat × Bool := ([32, 64, 16, 8].getD (n / 2) 32, n % 2 == 0)
def elemIx (x : RF) : Nat := x.b.toNat - 192

/-- A value with element k of width w replaced. -/
def setElem (w : Nat) (old : Word64) (k v : Nat) : BitVec 128 :=
  BitVec.ofNat 128 (old.toNat - elemBits w old k * 2 ^ (w * k) + v * 2 ^ (w * k))

/-- A finite value beyond the range of an f8 format sets nx beside of and sat (DEDUCED, assumption 100: R141's table; Round of R137 alone would
set nx only where the unbounded rounding is inexact). -/
def f8Over (f : Fmt) (r : Nat × Fx) : Nat × Fx := if f.small && r.2 &&& fxOf != 0 then (r.1, r.2 ||| fxNx) else r

/-- One element is narrowed into d, whose other elements stay, or widened from a. -/
def semFcvt (_ : Hd) (x : RF) : Sem where
  op e :=
    let src := (Fmt.ofCode x.fn.toNat).getD .f32
    let dst := fmtOf x
    let k := elemIx x
    let a : Src := { f := x.a, fc := src.fc }
    if dst = .f32 then
      e.each [a] (fun i =>
        let v := elemBits src.width (e.read a i) k
        (e.dst x.d .w32 i (BitVec.ofNat 128 (roundTo .f32 .rne false (decodeF src v)).1), snanFx src [v]))
    else
      e.each [a, { f := x.d }] (fun i =>
        let v := (e.read a i).toNat
        let r := f8Over dst (roundTo dst (rmOf x) (x.mod.getLsbD 1) (decodeF .f32 v))
        (e.dst x.d .w32 i (setElem dst.width (e.read { f := x.d } i) k r.1), r.2 ||| snanFx .f32 [v]))
def execFcvt (h : Hd) (x : RF) (s : State) := run (.fcvt h x) (semFcvt h x) s

/-- A rounded integer in its register form: 8- and 16-bit ones extended to 32 bits by their signedness. -/
def intResult (t : Nat × Bool) (i : Int) : BitVec 128 := BitVec.ofNat 128 (ofInt (if t.1 = 64 then 64 else 32) i)

def semF2i (_ : Hd) (x : RF) : Sem where
  op e :=
    let f := fmtOf x
    let t := ity x.fn.toNat
    let a : Src := { f := x.a, fc := f.fc }
    e.each [a] (fun i =>
      let r := fpToInt f (rmOf x) t.1 t.2 (elemBits f.width (e.read a i) (elemIx x))
      (e.dst x.d (if t.1 = 64 then .w64 else .w32) i (intResult t r.1), r.2))
def execF2i (h : Hd) (x : RF) (s : State) := run (.f2i h x) (semF2i h x) s

/-- An integer operand of a type: its low bits in the type. -/
def intOperand (t : Nat × Bool) (v : Word64) : Int := if t.2 then toSigned t.1 v.toNat else (v.toNat % 2 ^ t.1 : Nat)

def semI2f (_ : Hd) (x : RF) : Sem where
  op e :=
    let f := fmtOf x
    let t := ity x.fn.toNat
    let a : Src := { f := x.a, w := if t.1 = 64 then .w64 else .w32 }
    let old : List Src := if f = .f32 then [] else [{ f := x.d }]
    e.each (a :: old) (fun i =>
      let r := f8Over f (roundTo f (rmOf x) (x.mod.getLsbD 1) (Num.ofInt (intOperand t (e.read a i))))
      (e.dst x.d .w32 i (if f = .f32 then BitVec.ofNat 128 r.1 else setElem f.width (e.read { f := x.d } i) (elemIx x) r.1), r.2))
def execI2f (h : Hd) (x : RF) (s : State) := run (.i2f h x) (semI2f h x) s

def semDcvtF32F64 (_ : Hd) (x : RF) : Sem where
  op e :=
    let a : Src := { f := x.a, w := .w64, fc := .f64 }
    e.each [a] (fun i =>
      let v := (e.read a i).toNat
      let r := roundTo .f32 (rmOf x) (x.mod.getLsbD 1) (decodeF .f64 v)
      (e.dst x.d .w32 i (BitVec.ofNat 128 r.1), r.2 ||| snanFx .f64 [v]))
def execDcvtF32F64 (h : Hd) (x : RF) (s : State) := run (.dcvtF32F64 h x) (semDcvtF32F64 h x) s
def semDcvtF64F32 (_ : Hd) (x : RF) : Sem where
  op e := e.each [{ f := x.a }] (fun i =>
    let v := (e.read { f := x.a } i).toNat
    (e.dst x.d .w64 i (BitVec.ofNat 128 (roundTo .f64 .rne false (decodeF .f32 v)).1), snanFx .f32 [v]))
def execDcvtF64F32 (h : Hd) (x : RF) (s : State) := run (.dcvtF64F32 h x) (semDcvtF64F32 h x) s
def semDcvtIF64 (_ : Hd) (x : RF) : Sem where
  op e :=
    let t := ity x.c.toNat
    let a : Src := { f := x.a, w := .w64, fc := .f64 }
    e.each [a] (fun i =>
      let r := fpToInt .f64 (rmOf x) t.1 t.2 (e.read a i).toNat
      (e.dst x.d (if t.1 = 64 then .w64 else .w32) i (intResult t r.1), r.2))
def execDcvtIF64 (h : Hd) (x : RF) (s : State) := run (.dcvtIF64 h x) (semDcvtIF64 h x) s
def semDcvtF64I (_ : Hd) (x : RF) : Sem where
  op e :=
    let t := ity x.c.toNat
    let a : Src := { f := x.a, w := if t.1 = 64 then .w64 else .w32 }
    e.each [a] (fun i =>
      let r := roundTo .f64 (rmOf x) false (Num.ofInt (intOperand t (e.read a i)))
      (e.dst x.d .w64 i (BitVec.ofNat 128 r.1), r.2))
def execDcvtF64I (h : Hd) (x : RF) (s : State) := run (.dcvtF64I h x) (semDcvtF64I h x) s

/-! ## Dot products (R225) -/

/-- c plus every product, exact, rounded once. f8 operands are never flushed. DESIGN CHOICE (assumption 99): opposite infinities beside a NaN
addend set no nv. -/
def dotRound (fa fb : Fmt) (rm : Rm) (ftz : Bool) (as bs : List Nat) (c : Nat) : Nat × Fx :=
  let ps := (as.zip bs).map (fun ab => (fpIn fa ftz ab.1, fpIn fb ftz ab.2))
  let z := fpIn .f32 ftz c
  let l := ps.map (fun p => mulNum p.1 p.2) ++ [z]
  let invalid := ps.any (fun p => mulInvalid p.1 p.2) || sumInvalid l
  let r := fpRound .f32 rm ftz [c] invalid (sumNum rm l)
  (r.1, r.2 ||| snanFx fa as ||| snanFx fb bs)

def dotOp (x : RF) (fa fb : Fmt) : Sem where
  op e :=
    let a : Src := { f := x.a, fc := fa.fc }
    let b : Src := { f := x.b, fc := fb.fc }
    let c : Src := { f := x.c }
    e.each (a :: c :: (if x.mod.getLsbD 0 then [] else [b])) (fun i =>
      let va := e.read a i; let vb := e.readB x.mod b i
      let els (f : Fmt) (v : Word64) : List Nat := (List.range f.elems).map (elemBits f.width v)
      let r := dotRound fa fb (rmOf x) (ftzOf x) (els fa va) (els fb vb) (e.read c i).toNat
      (e.dst x.d .w32 i (BitVec.ofNat 128 r.1), r.2))
def semFdot2 (_ : Hd) (x : RF) : Sem := dotOp x (fmtOf x) (fmtOf x)
def execFdot2 (h : Hd) (x : RF) (s : State) := run (.fdot2 h x) (semFdot2 h x) s
def semF8dot (_ : Hd) (x : RF) : Sem := dotOp x (fmtOf x) (fmtOf x)
def execF8dot (h : Hd) (x : RF) (s : State) := run (.f8dot h x) (semF8dot h x) s
def semF8dotMx (_ : Hd) (x : RF) : Sem := dotOp x .f8n .f8w
def execF8dotMx (h : Hd) (x : RF) (s : State) := run (.f8dotMx h x) (semF8dotMx h x) s

/-! ## Special functions (R221)

The device's result is known only by a bound. Its approximation here is a fixed-point number with 192 fraction bits, whose own error lies below
2^-150; the nearest f32 is moved by the free number of units that Config.sfuOffset names, if that keeps the bound. -/

def fixBits : Nat := 192
def fixOne : Int := (2 ^ fixBits : Nat)
def fixMul (a b : Int) : Int := a * b / fixOne
def fixDiv (a b : Int) : Int := if b = 0 then 0 else a * fixOne / b

/-- Terms x^k / k! for k from i on, summed over n terms. -/
def expSeries (x : Int) : Nat → Nat → Int → Int
  | 0, _, _ => 0
  | n + 1, i, t => t + expSeries x n (i + 1) (fixMul t x / (i + 1 : Nat))
/-- Sum over odd k of x^k / k: the area tangent. -/
def athSeries (x2 : Int) : Nat → Nat → Int → Int
  | 0, _, _ => 0
  | n + 1, k, t => t / (k : Nat) + athSeries x2 n (k + 2) (fixMul t x2)
/-- Alternating terms x^k / k! with k rising by two. -/
def trigSeries (x2 : Int) : Nat → Nat → Int → Int
  | 0, _, _ => 0
  | n + 1, k, t => t + trigSeries x2 n (k + 2) (-(fixMul t x2) / ((k + 1) * (k + 2) : Nat))

/-- ln 2 = 2 artanh(1/3), and 2π by Machin's formula. -/
def fixLn2 : Int := let x := fixOne / 3; 2 * athSeries (fixMul x x) 70 1 x
def fixAtanInv (d : Nat) : Int := let x := fixOne / (d : Nat); athSeries (-(fixMul x x)) 100 1 x
def fixTwoPi : Int := 8 * (4 * fixAtanInv 5 - fixAtanInv 239)

/-- A finite value in fixed point, with its integral part: floor and fraction. -/
def fixFloor : Num → Int × Int
  | .fin neg m e =>
    let v : Int := if neg then -(m : Int) else (m : Int)
    if e ≥ 0 then (v * (2 ^ e.toNat : Nat), 0)
    else
      let k := (-e).toNat
      let fl := v / (2 ^ k : Nat)
      (fl, (v - fl * (2 ^ k : Nat)) * (2 ^ (fixBits - k) : Nat) / (2 ^ (k - fixBits) : Nat))
  | _ => (0, 0)

/-- A positive fixed-point number times 2^e. -/
def fixNum (v e : Int) : Num := .fin (v < 0) v.natAbs (e - fixBits)

/-- e^x for a fixed-point x of any size, as a fixed-point mantissa in [1, 2) and an exponent. -/
def fixExp (x : Int) : Int × Int :=
  let n := x / fixLn2
  (expSeries (x - n * fixLn2) 50 0 fixOne, n)

/-- 2^a of a finite value. -/
def approxEx2 (a : Num) : Num :=
  let f := fixFloor a
  let n := max (-1000) (min 1000 f.1)
  fixNum (expSeries (fixMul f.2 fixLn2) 50 0 fixOne) n

/-- log2 of a positive finite value. -/
def approxLg2 : Num → Num
  | .fin _ m e =>
    let l := bitLen m - 1
    let mant : Int := (m * 2 ^ (fixBits - l) : Nat)
    let r := fixDiv (mant - fixOne) (mant + fixOne)
    let ln := 2 * athSeries (fixMul r r) 70 1 r
    fixNum (fixDiv ln fixLn2 + (e + (l : Nat)) * fixOne) 0
  | _ => .nan

/-- A value strictly between two integers, whose approximation may have reached one. -/
def fixInside (lo hi v : Int) : Int := max (lo * fixOne + 1) (min (hi * fixOne - 1) v)
/-- sin 2πx and cos 2πx of a fraction x: exact at the quarters, and elsewhere between −1 and 1. -/
def approxSin (frac : Int) : Num :=
  let t := fixMul frac fixTwoPi
  if 4 * frac % fixOne = 0 then fixNum ([0, fixOne, 0, -fixOne].getD (4 * frac / fixOne).toNat 0) 0
  else fixNum (fixInside (-1) 1 (trigSeries (fixMul t t) 45 1 t)) 0
def approxCos (frac : Int) : Num :=
  let t := fixMul frac fixTwoPi
  if 4 * frac % fixOne = 0 then fixNum ([fixOne, 0, -fixOne, 0].getD (4 * frac / fixOne).toNat 0) 0
  else fixNum (fixInside (-1) 1 (trigSeries (fixMul t t) 45 0 fixOne)) 0

/-- A finite value in fixed point, limited to ±200, beyond which tanh and the sigmoid differ from their limits by less than
2^-250. -/
def fixClamp (a : Num) : Int :=
  let f := fixFloor a
  max (-200 * fixOne) (min (200 * fixOne) (f.1 * fixOne + f.2))

/-- e^x in fixed point, cut below 2^-192. -/
def fixExpAll (x : Int) : Int :=
  let r := fixExp x
  if r.2 ≥ 0 then r.1 * (2 ^ r.2.toNat : Nat) else r.1 / (2 ^ (-r.2).toNat : Nat)

def approxTanh (a : Num) : Num :=
  let q := fixExpAll (2 * fixClamp a)
  fixNum (fixInside (-1) 1 (fixDiv (q - fixOne) (q + fixOne))) 0
def approxSigm (a : Num) : Num := fixNum (fixInside 0 1 (fixDiv fixOne (fixOne + fixExpAll (-(fixClamp a))))) 0

/-- The distance of two finite values against a bound given as k × 2^q. An approximation lies on the side of every f32 on which the exact value
lies (assumption 16). -/
def within (x y : Num) (k : Nat) (q : Int) : Bool :=
  match sumNum .rne [x, y.negate] with
  | .fin _ m e => cmpNum (.fin false m e) (.fin false k q) != .gt
  | _ => false

/-- One unit in the last place of f32 at a value. -/
def ulpExp : Num → Int
  | .fin _ m e => max (-149) (e + (bitLen m : Nat) - 24)
  | _ => -149

/-- The f32 that lies k units above another in the order of the bits of its magnitude. -/
def stepF32 (bits : Nat) (k : Int) : Nat :=
  let sgn := bits / 2 ^ 31
  let mag : Int := (bits % 2 ^ 31 : Nat)
  let v := mag + k
  if v < 0 then (1 - sgn) * 2 ^ 31 + v.natAbs else sgn * 2 ^ 31 + v.natAbs

/-- The result near an approximation: the free one where it keeps the larger of the bounds, else the nearest f32. -/
def sfuPick (fn : BitVec 8) (a : Nat) (x : Num) (ulps : Nat) (abs : Option Int) : Nat × Fx :=
  let r := roundTo .f32 .rne false x
  let c := stepF32 r.1 (Config.sfuOffset fn (BitVec.ofNat 32 a))
  let y := decodeF .f32 c
  let good := !y.isNan && !y.isInf && (within y x ulps (ulpExp x) || (match abs with | some q => within y x 1 q | none => false))
  (if good then c else r.1, (r.2 &&& fxOf) ||| fxNx)

/-- An f32 integral power of two within the format's range. -/
def exactPower (n : Int) : Option Nat :=
  if -149 ≤ n && n ≤ 127 then some (roundTo .f32 .rne false (.fin false 1 n)).1 else none

/-- SFU of R221 on one operand, before FTZ on the result. -/
def sfuBits (fn : BitVec 8) (ftz : Bool) (a0 : Nat) : Nat × Fx :=
  let a := flushIn .f32 ftz a0
  let x := decodeF .f32 a
  let neg := x.neg?
  let nan : Nat × Fx := (canonNaN .f32, fxNv)
  let one : Nat := 0x3F800000
  if x.isNan then (canonNaN .f32, snanFx .f32 [a0])
  else match fn.toNat with
    | 0 =>
      if x.isZero then (infBits .f32 neg, fxDz) else if x.isInf then (zeroBits .f32 neg, 0)
      else sfuPick fn a (divNum (.fin false 1 0) x) 1 none
    | 1 =>
      if x.isZero then (infBits .f32 neg, fxDz) else if neg then nan else if x.isInf then (0, 0)
      else sfuPick fn a (divNum (.fin false 1 0) (sqrtNum x)) 1 none
    | 2 =>
      if x.isInf then (if neg then (0, 0) else (infBits .f32 false, 0))
      else
        let f := fixFloor x
        match (if f.2 = 0 then exactPower f.1 else none) with
        | some p => (p, 0)
        | none => sfuPick fn a (approxEx2 x) 2 none
    | 3 =>
      if x.isZero then (infBits .f32 true, fxDz) else if neg then nan else if x.isInf then (infBits .f32 false, 0)
      else if a = one then (0, 0)
      else sfuPick fn a (approxLg2 x) 2 (if 0x3F000000 ≤ a && a ≤ 0x40000000 then some (-22) else none)
    | 4 =>
      if x.isInf then nan
      else
        let f := fixFloor x
        if f.2 = 0 then (0, 0) else sfuPick fn a (approxSin f.2) 0 (some (-22))
    | 5 =>
      if x.isInf then nan
      else
        let f := fixFloor x
        if f.2 = 0 then (one, 0) else sfuPick fn a (approxCos f.2) 0 (some (-22))
    | 6 =>
      if x.isInf then (if neg then 0xBF800000 else one, 0) else if x.isZero then (a, 0)
      else sfuPick fn a (approxTanh x) 2 (some (-23))
    | _ =>
      if x.isInf then (if neg then 0 else one, 0)
      else sfuPick fn a (approxSigm x) 2 (some (-24))

def semSfu (_ : Hd) (x : RF) : Sem := fpOp x 1 (fun f a _ _ => flushOut f (ftzOf x) (sfuBits x.fn (ftzOf x) a))
def execSfu (h : Hd) (x : RF) (s : State) := run (.sfu h x) (semSfu h x) s

end Sys2Proof.Machine
end

