-- ==== Sys2Proof/Machine/Meanings.lean ====
section
/-! DEFINITION. The meaning of an instruction word wherever it stands: under the SIMT decoder, or in a slot of a bundle (R165). The
events and BUNDLE itself are no instruction words. -/

namespace Sys2Proof.Machine

def semOf (i : Instr) : Option Sem :=
  match i with
  | .nop h x => some (semNop h x)
  | .nopPause h x => some (semNopPause h x)
  | .iadd h x => some (semIadd h x)
  | .iaddAddc h x => some (semIaddAddc h x)
  | .iaddSub h x => some (semIaddSub h x)
  | .iaddSubb h x => some (semIaddSubb h x)
  | .iaddRsub h x => some (semIaddRsub h x)
  | .imul h x => some (semImul h x)
  | .imulHi h x => some (semImulHi h x)
  | .imulWide h x => some (semImulWide h x)
  | .imad h x => some (semImad h x)
  | .imadWide h x => some (semImadWide h x)
  | .idiv h x => some (semIdiv h x)
  | .idivRem h x => some (semIdivRem h x)
  | .imnx h x => some (semImnx h x)
  | .imnxMax h x => some (semImnxMax h x)
  | .iabs h x => some (semIabs h x)
  | .iabsNeg h x => some (semIabsNeg h x)
  | .iabsSad h x => some (semIabsSad h x)
  | .iclmp h x => some (semIclmp h x)
  | .and h x => some (semAnd h x)
  | .andNot h x => some (semAndNot h x)
  | .or h x => some (semOr h x)
  | .orNot h x => some (semOrNot h x)
  | .xor h x => some (semXor h x)
  | .xorNot h x => some (semXorNot h x)
  | .lut3 h x => some (semLut3 h x)
  | .shl h x => some (semShl h x)
  | .shr h x => some (semShr h x)
  | .shrAr h x => some (semShrAr h x)
  | .rot h x => some (semRot h x)
  | .rotRr h x => some (semRotRr h x)
  | .rotShfl h x => some (semRotShfl h x)
  | .rotShfr h x => some (semRotShfr h x)
  | .popc h x => some (semPopc h x)
  | .clz h x => some (semClz h x)
  | .clzCtz h x => some (semClzCtz h x)
  | .clzCls h x => some (semClzCls h x)
  | .brev h x => some (semBrev h x)
  | .brevByte h x => some (semBrevByte h x)
  | .bfx h x => some (semBfx h x)
  | .bfi h x => some (semBfi h x)
  | .prmt h x => some (semPrmt h x)
  | .pack h x => some (semPack h x)
  | .packSs h x => some (semPackSs h x)
  | .packNn h x => some (semPackNn h x)
  | .icmp h x => some (semIcmp h x)
  | .sel h x => some (semSel h x)
  | .plog h x => some (semPlog h x)
  | .movi h x => some (semMovi h x)
  | .moviX64 h x => some (semMoviX64 h x)
  | .movh h x => some (semMovh h x)
  | .movhX32 h x => some (semMovhX32 h x)
  | .mov h x => some (semMov h x)
  | .movBc h x => some (semMovBc h x)
  | .xmov h x => some (semXmov h x)
  | .lea h x => some (semLea h x)
  | .leaN h x => some (semLeaN h x)
  | .idot h x => some (semIdot h x)
  | .idotH h x => some (semIdotH h x)
  | .mfs h x => some (semMfs h x)
  | .mts h x => some (semMts h x)
  | .voteAny h x => some (semVoteAny h x)
  | .voteAll h x => some (semVoteAll h x)
  | .voteBallot h x => some (semVoteBallot h x)
  | .voteCount h x => some (semVoteCount h x)
  | .voteFirst h x => some (semVoteFirst h x)
  | .rdlane h x => some (semRdlane h x)
  | .wrlane h x => some (semWrlane h x)
  | .shuf h x => some (semShuf h x)
  | .shufRot h x => some (semShufRot h x)
  | .shufXor h x => some (semShufXor h x)
  | .shufRev h x => some (semShufRev h x)
  | .patld h x => some (semPatld h x)
  | .patsw h x => some (semPatsw h x)
  | .gred h x => some (semGred h x)
  | .gscan h x => some (semGscan h x)
  | .fadd h x => some (semFadd h x)
  | .faddSub h x => some (semFaddSub h x)
  | .fmul h x => some (semFmul h x)
  | .ffma h x => some (semFfma h x)
  | .ffmaMs h x => some (semFfmaMs h x)
  | .ffmaNm h x => some (semFfmaNm h x)
  | .fmnx h x => some (semFmnx h x)
  | .fmnxMax h x => some (semFmnxMax h x)
  | .fmnxMinn h x => some (semFmnxMinn h x)
  | .fmnxMaxn h x => some (semFmnxMaxn h x)
  | .fcmp h x => some (semFcmp h x)
  | .fcls h x => some (semFcls h x)
  | .fclsP h x => some (semFclsP h x)
  | .fscl h x => some (semFscl h x)
  | .frnd h x => some (semFrnd h x)
  | .fdiv h x => some (semFdiv h x)
  | .fsqrt h x => some (semFsqrt h x)
  | .sfu h x => some (semSfu h x)
  | .fcvt h x => some (semFcvt h x)
  | .f2i h x => some (semF2i h x)
  | .i2f h x => some (semI2f h x)
  | .dadd h x => some (semDadd h x)
  | .daddSub h x => some (semDaddSub h x)
  | .dmul h x => some (semDmul h x)
  | .dfma h x => some (semDfma h x)
  | .dfmaMs h x => some (semDfmaMs h x)
  | .dfmaNm h x => some (semDfmaNm h x)
  | .dcmp h x => some (semDcmp h x)
  | .dcvtF32F64 h x => some (semDcvtF32F64 h x)
  | .dcvtF64F32 h x => some (semDcvtF64F32 h x)
  | .dcvtIF64 h x => some (semDcvtIF64 h x)
  | .dcvtF64I h x => some (semDcvtF64I h x)
  | .fdot2 h x => some (semFdot2 h x)
  | .f8dot h x => some (semF8dot h x)
  | .f8dotMx h x => some (semF8dotMx h x)
  | .bxpk h x => some (semBxpk h x)
  | .bxup h x => some (semBxup h x)
  | .fxmFm h x => some (semFxmFm h x)
  | .fxmFe h x => some (semFxmFe h x)
  | .fxmIlogb h x => some (semFxmIlogb h x)
  | .ld h x => some (semLd h x)
  | .st h x => some (semSt h x)
  | .ldnc h x => some (semLdnc h x)
  | .ldacq h x => some (semLdacq h x)
  | .strel h x => some (semStrel h x)
  | .lds h x => some (semLds h x)
  | .sts h x => some (semSts h x)
  | .ldh h x => some (semLdh h x)
  | .sth h x => some (semSth h x)
  | .ldt h x => some (semLdt h x)
  | .stt h x => some (semStt h x)
  | .atom h x => some (semAtom h x)
  | .atomf h x => some (semAtomf h x)
  | .cas h x => some (semCas h x)
  | .atoms h x => some (semAtoms h x)
  | .fence h x => some (semFence h x)
  | .fenceRel h x => some (semFenceRel h x)
  | .fenceAcq h x => some (semFenceAcq h x)
  | .fenceAr h x => some (semFenceAr h x)
  | .fencex h x => some (semFencex h x)
  | .xlat h x => some (semXlat h x)
  | .xlatW h x => some (semXlatW h x)
  | .hdrop h x => some (semHdrop h x)
  | .hdropAll h x => some (semHdropAll h x)
  | .pref h x => some (semPref h x)
  | .prefL2 h x => some (semPrefL2 h x)
  | .prefEvict h x => some (semPrefEvict h x)
  | .prefDiscard h x => some (semPrefDiscard h x)
  | .cmntWb h x => some (semCmntWb h x)
  | .cmntWbinv h x => some (semCmntWbinv h x)
  | .cmntInv1 h x => some (semCmntInv1 h x)
  | .watch h x => some (semWatch h x)
  | .waitw h x => some (semWaitw h x)
  | .fpost h x => some (semFpost h x)
  | .fpostR h x => some (semFpostR h x)
  | .fwait h x => some (semFwait h x)
  | .fread h x => some (semFread h x)
  | .freadAddr h x => some (semFreadAddr h x)
  | .barArrive h x => some (semBarArrive h x)
  | .barWait h x => some (semBarWait h x)
  | .tdef h x => some (semTdef h x)
  | .tacqOwn h x => some (semTacqOwn h x)
  | .tacqPub h x => some (semTacqPub h x)
  | .tacqRel h x => some (semTacqRel h x)
  | .spawn h x => some (semSpawn h x)
  | .spawnOne h x => some (semSpawnOne h x)
  | .futRes h x => some (semFutRes h x)
  | .futPoison h x => some (semFutPoison h x)
  | .futJoin h x => some (semFutJoin h x)
  | .futPoll h x => some (semFutPoll h x)
  | .grecTs h x => some (semGrecTs h x)
  | .grecTsx h x => some (semGrecTsx h x)
  | .grecSrc h x => some (semGrecSrc h x)
  | .grecWord h x => some (semGrecWord h x)
  | .rdtm h x => some (semRdtm h x)
  | .rdtmX h x => some (semRdtmX h x)
  | .rdtmQ h x => some (semRdtmQ h x)
  | .pbr h x => some (semPbr h x)
  | .pbrr h x => some (semPbrr h x)
  | .pbrrGet h x => some (semPbrrGet h x)
  | .br h x => some (semBr h x)
  | .brAny h x => some (semBrAny h x)
  | .brAll h x => some (semBrAll h x)
  | .join h x => some (semJoin h x)
  | .call h x => some (semCall h x)
  | .ret h x => some (semRet h x)
  | .exit h x => some (semExit h x)
  | .fuse h x => some (semFuse h x)
  | .split h x => some (semSplit h x)
  | .loop h x => some (semLoop h x)
  | .lend h x => some (semLend h x)
  | .lendPop h x => some (semLendPop h x)
  | .lendBrk h x => some (semLendBrk h x)
  | .cont h x => some (semCont h x)
  | .contB h x => some (semContB h x)
  | .bgtTop h x => some (semBgtTop h x)
  | .bgtRel h x => some (semBgtRel h x)
  | .yield h x => some (semYield h x)
  | .trap h x => some (semTrap h x)
  | .trapBkpt h x => some (semTrapBkpt h x)
  | .rdctr h x => some (semRdctr h x)
  | .privMfp h x => some (semPrivMfp h x)
  | .privMtp h x => some (semPrivMtp h x)
  | .privInval h x => some (semPrivInval h x)
  | .privYreq h x => some (semPrivYreq h x)
  | .tret h x => some (semTret h x)
  | .tretSkip h x => some (semTretSkip h x)
  | .ldx h x => some (semLdx h x)
  | .stx h x => some (semStx h x)
  | .ldxPi h x => some (semLdxPi h x)
  | .stxPi h x => some (semStxPi h x)
  | .brx h x => some (semBrx h x)
  | .atmx h x => some (semAtmx h x)
  | .mma h x => some (semMma h x)
  | .mmag h x => some (semMmag h x)
  | .zld h x => some (semZld h x)
  | .zst h x => some (semZst h x)
  | .zclr h x => some (semZclr h x)
  | .zrowRd h x => some (semZrowRd h x)
  | .zrowWr h x => some (semZrowWr h x)
  | .copy h x => some (semCopy h x)
  | .strmIn h x => some (semStrmIn h x)
  | .strmOut h x => some (semStrmOut h x)
  | .netx h x => some (semNetx h x)
  | .gset h x => some (semGset h x)
  | .estsQ h x => some (semEstsQ h x)
  | .estsErr h x => some (semEstsErr h x)
  | .pauseExpiry _ => none
  | .watchRegistration _ => none
  | .waitwTimeout _ => none
  | .waitwEarlyReturn _ => none
  | .tileDrainComplete _ _ => none
  | .homeSliceJoin _ => none
  | .homeSliceResolve _ => none
  | .cellDecrement _ => none
  | .slotRelease _ => none
  | .laneGroupAcquire _ => none
  | .matrixStart _ => none
  | .matrixCompletion _ => none
  | .engineCommandTakeUp _ => none
  | .engineCommandCompletion _ => none
  | .strmChunkEnd _ => none
  | .netxFrameSent _ => none
  | .bundle _ _ => none
  | .faultEntryDeferred _ => none
  | .walkCompletion _ => none
  | .atomicApply _ => none
  | .storeRegistration _ => none
  | .revocation _ => none
  | .loadResultReturn _ => none
  | .decoupledAccessCompletion _ => none
  | .pathWriteMerge _ => none
  | .remoteFlagPost _ => none
  | .fabricAccessAtTarget _ => none
  | .auditResult _ => none
  | .auditAgeExpiry _ _ _ => none
  | .recordAppend _ _ => none
  | .binTimerExpiry _ _ => none
  | .overflowReturn _ => none
  | .waiterPlacement _ => none
  | .schedulerWriteDelivery _ => none
  | .deadlineReached _ => none
  | .yieldSequence _ => none
  | .yieldRecordFreed _ => none
  | .correctableErrorFreeze _ => none
  | .freezeEnd _ => none
  | .uncorrectableError _ => none
  | .fullSave _ => none
  | .fullRestore _ => none
  | .worldSwitch _ _ => none
  | .sliceWrite _ _ _ => none
  | .percalePass => none
  | .residencyQuantum => none
  | .dispatch _ => none
  | .dispatchDefine _ => none
  | .lockstep _ => none
  | .lockstepRelease _ => none
  | .recordPacket _ => none
  | .copyPacket _ => none
  | .waitflag _ => none
  | .waitmem _ => none
  | .waitConditionMet _ => none
  | .waitTimeout _ => none
  | .signalWrite _ => none
  | .signalAdd _ => none
  | .signalResolve _ => none
  | .signalPoison _ => none
  | .signalPost _ => none
  | .timestamp _ => none
  | .budgetAdd _ => none
  | .budgetSet _ => none
  | .budgetReclaim _ => none
  | .deadline _ => none
  | .launchCompletion _ => none
  | .interruptDelayExpiry _ => none
  | .doorbell _ _ _ => none
  | .queueEnable _ _ _ => none
  | .contextCreate _ _ _ => none
  | .contextDestroy _ _ _ => none
  | .faultRetire _ _ _ => none
  | .faultRetireAll _ _ _ => none
  | .hostShootdown _ _ _ => none
  | .slotPin _ _ _ _ => none
  | .slotUnpin _ _ _ _ => none
  | .formatWindowEnable _ _ _ _ => none
  | .filterEnable _ _ _ _ => none
  | .portBreakout _ _ _ => none
  | .linkUp _ => none
  | .frameFirstByte _ _ => none
  | .frameEnd _ _ => none
  | .ptpMessage _ _ => none
  | .assignmentWrite _ _ _ => none
  | .hostWrite _ _ => none
  | .semaphoreAcquire _ _ => none
  | .semaphoreRelease _ _ => none
  | .portUnfreeze _ _ => none
  | .functionLevelReset _ _ => none
  | .timeAdjust _ _ => none
  | .timeSet _ _ => none
  | .deviceTimeLatchRead _ => none
  | .tenantFailsRead _ _ => none
  | .portCounterRead _ _ _ => none
  | .throttleCountRead _ => none
  | .counterValueWrite _ _ _ _ => none
  | .ginghamClear _ _ _ => none
  | .debugStop _ _ _ => none
  | .debugStopEffect _ => none
  | .debugGo _ _ _ => none
  | .debugDataWrite _ _ _ => none
  | .moduleReset => none
  | .recoveryProgram _ => none
  | .firmwareUpdate _ => none
  | .attestationReport _ => none
  | .raiseRollbackFloor _ => none
  | .throttleChange _ _ _ _ => none
  | .thermalTrip => none
  | .registerWrite _ _ _ => none
  | .linkDown _ => none
  | .fabricLinkDown _ => none
  | .muslinReplayInjection _ => none
  | .timeSlewEnd => none

end Sys2Proof.Machine
end

