-- ==== Sys2Proof/Machine/Bundle.lean ====
section
/-! DEFINITION. Bundles (R60, R67, R163 to R176): their words, their checks, what they wait for, how their slots issue together and land
apart, the sync and loop fields, and lane groups (R30, R31). -/

namespace Sys2Proof.Machine

/-! ## Words (R163, R164) -/

/-- The places that a header announces, in the order of their words; none for the immediate slot. -/
def bundlePlaces (hdr : Word64) : List (Option Place) :=
  ((List.range 16).filterMap (fun k => if hdr.getLsbD (41 + k) then some (some (Place.lane k)) else none)) ++
  (if hdr.getLsbD 40 then [some (.mem 0)] else []) ++ (if hdr.getLsbD 39 then [some (.mem 1)] else []) ++
  (if hdr.getLsbD 38 then [some .eng] else []) ++ (if hdr.getLsbD 37 then [some .br] else []) ++
  (if hdr.getLsbD 36 then [some .shuf] else []) ++ (if hdr.getLsbD 35 then [none] else [])

/-- A slot: its place, the address of its word, and the word. -/
structure SlotWord where
  place : Place
  pc    : Word64
  word  : Word64

def bundleSlots (hdr : Word64) (ws : List Word64) (pc : Word64) : List SlotWord :=
  let ps := bundlePlaces hdr
  (List.range ps.length).filterMap (fun i => match ps.getD i none with
    | some p => some { place := p, pc := pc + BitVec.ofNat 64 (8 * (i + 1)), word := ws.getD i 0 }
    | none => none)
/-- The immediate slot's word, which is the last. -/
def bundleImm (hdr : Word64) (ws : List Word64) : Option Word64 := if hdr.getLsbD 35 then some (ws.getD (headerSlots hdr - 1) 0) else none
def bundleSize (hdr : Word64) : Nat := 8 * (1 + headerSlots hdr)

/-! ## Checks (R169 step 1) -/

/-- Code 15 belongs to LDS, STS, LDH and STH of a memory slot (R173). -/
def decoupledMajor (maj : Nat) : Bool := 0x45 ≤ maj && maj ≤ 0x48

/-- The latency rule of a slot (R172, R173). DESIGN CHOICE (assumption 113): the bound of a major holds for all its instructions, zrow.wr among them, which
writes no register. -/
def latOk (ilk : Bool) (i : Instr) : Bool :=
  if i.hd.lat == 15#4 then decoupledMajor i.maj
  else ilk || latMax i.maj ≤ latCycles i.hd.lat

/-- A decoded slot, or a fault. -/
structure Slot where
  place : Place
  pc    : Word64
  instr : Instr
  deriving DecidableEq, Repr

def decodeSlot (ilk imm : Bool) (w : SlotWord) : Option Slot :=
  match decodeWord w.place imm w.word with
  | .ok i => if latOk ilk i then some { place := w.place, pc := w.pc, instr := i } else none
  | .error _ => none

/-- The slots that break a rule about the whole bundle: a second mov.bc, a second mov.x from one cluster (R204), a FENCE beside m1 (R126). -/
def crossFaults (m1 : Bool) : List Slot → List Slot → List Nat
  | _, [] => []
  | before, x :: l =>
    let bad := match x.instr with
      | .movBc .. => before.any (fun y => match y.instr with | .movBc .. => true | _ => false)
      | .xmov _ r => before.any (fun y => match y.instr with | .xmov _ q => q.b.toNat % 16 == r.b.toNat % 16 | _ => false)
      | i => i.maj == 0x4F && m1
    (if bad then [x.place.slotNo] else []) ++ crossFaults m1 (before ++ [x]) l

/-- The fields of a header. -/
def hdrSyop (hdr : Word64) : Nat := bits64 hdr 34 33
def hdrFlag (hdr : Word64) : Nat := bits64 hdr 32 27
def hdrCount (hdr : Word64) : Nat := bits64 hdr 26 24 + 1
def hdrLpop (hdr : Word64) : Nat := bits64 hdr 23 21
/-- The flag that the sync field posts (R167). -/
def hdrPost (hdr : Word64) : Nat := if hdrSyop hdr = 3 then Nat.xor (hdrFlag hdr) 1 else hdrFlag hdr

def Entry.isLoop : Entry → Bool
  | .loop .. => true
  | .div .. => false

/-- The header's own faults: its fields, flags outside the window, and an advance or a pop without a loop on top (R38, R163, R167, R168). -/
def Gang.headerFault (g : Gang) (hdr : Word64) (n : Nat) : Bool :=
  !headerOk hdr || n != headerSlots hdr ||
  (hdrSyop hdr != 0 && (g.window.size ≤ hdrFlag hdr || (hdrSyop hdr == 3 && g.window.size ≤ hdrPost hdr))) ||
  ((hdrLpop hdr == 2 || hdrLpop hdr == 3) && !(g.ctl.stack.head?.any Entry.isLoop))

/-- The numbers of the faulting slots of R169 step 1, and the decoded slots. -/
def State.bundleCheck (s : State) (g : Gang) (hdr : Word64) (ws : List Word64) : List Nat × List Slot :=
  let imm := hdr.getLsbD 35
  let ilk := (s.ctx g.ctx).ilk
  let sw := bundleSlots hdr ws g.pc
  let bad := sw.filter (fun w => (decodeSlot ilk imm w).isNone)
  let good := sw.filterMap (decodeSlot ilk imm)
  (bad.map (fun w => w.place.slotNo) ++ crossFaults (hdr.getLsbD 39) [] good ++ (if g.headerFault hdr ws.length then [22] else []), good)

/-- The trap of faulting slots: all in the mask, the lowest-numbered one the primary cause (R175). -/
def bundleTrap (fs : List (Nat × TrapInfo)) : TrapInfo :=
  let t := fs.foldl (fun (best : Option (Nat × TrapInfo)) f => match best with
    | none => some f
    | some b => if f.1 < b.1 then some f else best) none
  match t with
  | none => { cause := causeBundle, bnd := true }
  | some b => { b.2 with pslot := b.1, bnd := true, mask := fs.foldl (fun m f => Nat.lor m (2 ^ f.1)) 0 }

/-! ## Issue (R169 steps 2 to 6) -/

/-- What the slots of a bundle come to: the state after those that took effect, their effects, their traps, and whether one waits. -/
structure SlotRun where
  st    : State
  effs  : List (Slot × Eff) := []
  traps : List (Nat × TrapInfo) := []
  waits : Bool := false

def runSlot (base : Env) (acc : SlotRun) (x : Slot) : SlotRun :=
  match semOf x.instr with
  | none => acc
  | some m =>
    match m.op { base with s := acc.st, place := x.place, pc := x.pc, h := x.instr.hd } with
    | .wait _ => { acc with waits := true }
    | .trap t => { acc with traps := acc.traps ++ [(x.place.slotNo, t)] }
    | .ok f => { acc with st := { f.st with flights := f.st.flights.map (fun y => if acc.st.next ≤ y.id then { y with slot := x.place.slotNo } else y) }, effs := acc.effs ++ [(x, f)] }

/-- An LDH or STH through an off-core handle, which steps nc. -/
def Slot.stepsNc (g : Gang) (x : Slot) : Bool :=
  match x.instr with
  | .ldh _ y => !(g.h y.base.toNat).oncore
  | .sth _ y => !(g.h y.base.toNat).oncore
  | _ => false

/-- The order in which the slots are taken: by number, but for the two memory slots, which are not ordered between themselves (R119). -/
def slotOrder (g : Gang) (draw : Nat) (l : List Slot) : List Slot :=
  let mem := l.filter (fun x => match x.place with | .mem _ => true | _ => false)
  if mem.length = 2 && (Config.freeWord draw).getLsbD 0 && !mem.all (fun x => x.stepsNc g) then
    l.filter (fun x => match x.place with | .mem _ => false | _ => true) ++ mem.reverse
  else l

/-- A slot whose landing cycle a read of fx must wait for: an arithmetic one with an exposed latency (R140, R209). -/
def Slot.fxWindow (x : Slot) : Bool := x.instr.maj < 0x40 && latMax x.instr.maj != 0

/-- The writes of a slot, which land L cycles after its issue; its fx bits, set or not, land with them (R171, R209). -/
def pendOf (now stall seq : Nat) (x : Slot) (f : Eff) : List PendWrite :=
  (f.writes ++ (if f.fx = 0 && !x.fxWindow then [] else [({ dst := .fx, val := f.fx.setWidth 64 } : RegWrite)])).map (fun w =>
    { land := now + latCycles x.instr.hd.lat, key := now - stall + latCycles x.instr.hd.lat, seq := seq, slot := x.place.slotNo, w := w })

/-- A register operand that an instruction reads: its field and width, whether the field is in the uniform column, and whether cluster 0 alone
reads it. -/
structure Rd where
  f    : Reg
  w    : OpW := .w32
  base : Bool := false
  lead : Bool := false

/-- Source b, unless the immediate slot gives it (R166). -/
def rdB (x : RF) (w : OpW) : List Rd := if x.mod.getLsbD 0 then [] else [{ f := x.b, w := w }]
def rdA (x : RF) (w : OpW) : List Rd := [{ f := x.a, w := w }]
def rdAB (x : RF) (w : OpW) : List Rd := rdA x w ++ rdB x w
def rdABC (x : RF) (w : OpW) : List Rd := rdAB x w ++ [{ f := x.c, w := w }]
/-- A uniform operand. -/
def rdU (f : Reg) (w : OpW) : List Rd := [{ f := f, w := w, base := true, lead := true }]
/-- The index of a memory slot; 255 is none (R160). -/
def rdIndex (x : MF) : List Rd := if x.index == 255#8 then [] else [{ f := x.index }]

/-- The v-registers and s-registers that an instruction of a bundle reads (R193 to R298). -/
def sourcesOf (i : Instr) : List Rd :=
  match i with
  | .iadd _ x | .iaddAddc _ x | .iaddSub _ x | .iaddSubb _ x | .iaddRsub _ x | .imul _ x | .imulHi _ x | .idiv _ x | .idivRem _ x
  | .imnx _ x | .imnxMax _ x | .and _ x | .andNot _ x | .or _ x | .orNot _ x | .xor _ x | .xorNot _ x | .icmp _ x | .sel _ x => rdAB x (wTy x)
  | .imulWide _ x | .pack _ x | .packSs _ x | .packNn _ x | .fadd _ x | .faddSub _ x | .fmul _ x | .fmnx _ x | .fmnxMax _ x | .fmnxMinn _ x
  | .fmnxMaxn _ x | .fcmp _ x | .fclsP _ x | .fscl _ x | .fdiv _ x => rdAB x .w32
  | .imad _ x | .iclmp _ x => rdABC x (wTy x)
  | .imadWide _ x => rdAB x .w32 ++ [{ f := x.c, w := .w64 }]
  | .iabsSad _ x | .lut3 _ x | .rotShfl _ x | .rotShfr _ x | .prmt _ x | .idot _ x | .idotH _ x | .ffma _ x | .ffmaMs _ x | .ffmaNm _ x
  | .fdot2 _ x | .f8dot _ x | .f8dotMx _ x => rdABC x .w32
  | .iabs _ x | .iabsNeg _ x | .popc _ x | .clz _ x | .clzCtz _ x | .clzCls _ x | .brev _ x | .brevByte _ x | .mov _ x | .movBc _ x | .xmov _ x
  | .shufRev _ x | .patsw _ x => rdA x (wTy x)
  | .fcls _ x | .frnd _ x | .fsqrt _ x | .sfu _ x | .fcvt _ x | .f2i _ x | .fxmFm _ x | .fxmFe _ x | .fxmIlogb _ x | .dcvtF64F32 _ x
  | .bxpk _ x | .bxup _ x | .gred _ x | .gscan _ x | .patld _ x => rdA x .w32
  | .shl _ x | .shr _ x | .shrAr _ x | .rot _ x | .rotRr _ x => rdA x (wTy x) ++ rdB x .w32
  | .shuf _ x => rdA x (wTy x) ++ [{ f := x.b }]
  | .lea _ x | .leaN _ x => rdA x .w64 ++ rdB x .w32
  | .bfx _ x => rdA x (wTy x) ++ rdB x .w32 ++ [{ f := x.c }]
  | .bfi _ x => rdAB x (wTy x) ++ [{ f := x.c }]
  | .i2f _ x => rdA x (wIty x.fn)
  | .dcvtF64I _ x => rdA x (wIty x.c)
  | .dcvtF32F64 _ x | .dcvtIF64 _ x => rdA x .w64
  | .dadd _ x | .daddSub _ x | .dmul _ x | .dcmp _ x => rdAB x .w64
  | .dfma _ x | .dfmaMs _ x | .dfmaNm _ x => rdABC x .w64
  | .rdlane _ x | .shufRot _ x | .shufXor _ x => rdA x (wTy x) ++ rdU x.b .w32
  | .wrlane _ x => rdU x.a (wTy x) ++ rdU x.b .w32
  | .movh _ x => [{ f := x.d, w := .w64 }]
  | .movhX32 _ x => [{ f := x.d }]
  | .mts _ x => rdU x.a (wSpr x.d)
  | .lds _ x => { f := x.base, base := true } :: rdIndex x
  | .sts _ x => { f := x.base, base := true } :: { f := x.d, w := mWidth x } :: rdIndex x
  | .ldh _ x | .ldt _ x => rdIndex x
  | .sth _ x | .stt _ x => { f := x.d, w := mWidth x } :: rdIndex x
  | .atoms _ x => { f := x.a, base := true } :: { f := x.b, w := wAtom x } :: (if x.fn == 0x10#8 then [{ f := x.c, w := wAtom x }] else [])
  | .xlat _ x | .xlatW _ x | .pbrr _ x | .tdef _ x | .gset _ x => rdU x.a .w64
  | .fpost _ x | .tacqPub _ x | .privYreq _ x => rdU x.a .w32
  | .fpostR _ x => rdU x.a .w32 ++ rdU x.b .w32
  | .privMtp _ x => rdU x.b (wPriv x.a)
  | .privInval _ x => rdU x.a .w64 ++ rdU x.b .w32
  | .loop _ x | .cont _ x | .contB _ x => rdU x.d .w64
  | .bgtTop _ x | .bgtRel _ x => rdU x.d .w32 ++ rdU x.a .w32
  | _ => []
/-- The predicates that an instruction of a bundle reads beside its guard. -/
def predSourcesOf (i : Instr) : List Reg :=
  match i with
  | .iaddAddc _ x | .iaddSubb _ x | .icmp _ x | .sel _ x | .fcmp _ x | .dcmp _ x => [x.c]
  | .plog _ x => [x.a, x.b, x.c]
  | .voteAny _ x | .voteAll _ x | .voteBallot _ x | .voteCount _ x | .voteFirst _ x => [x.a]
  | _ => []
/-- The b-registers that an instruction reads. -/
def bSourcesOf (i : Instr) : List Nat :=
  match i with
  | .br _ x | .brAny _ x | .brAll _ x | .call _ x | .ret _ x | .lendBrk _ x => [x.tgt.toNat]
  | .contB _ x => [x.imm.toNat % 8]
  | .pbrrGet _ x => [x.a.toNat % 8]
  | _ => []
/-- The g-registers that an engine instruction reads: its staging registers, and the one that holds a flag address (R158, R287, R294 to R297). -/
def gSourcesOf (i : Instr) : List Nat :=
  let from_ (x : EF) (n : Nat) : List Nat := (List.range n).map (fun k => x.stg.toNat + k) ++ (if x.fkind = 2 then [x.flag.toNat % 16] else [])
  match i with
  | .mma _ x | .zld _ x | .zst _ x | .zclr _ x | .zrowWr _ x => from_ x 0
  | .mmag _ x => from_ x 1
  | .copy _ x => from_ x (3 + (if x.fn.getLsbD 1 then 1 else 0) + (if x.fn.getLsbD 0 then 1 else 0))
  | .strmIn _ x | .strmOut _ x => from_ x (3 + (if x.fn.getLsbD 0 then 1 else 0))
  | .netx _ x => from_ x (1 + (if x.qual == 1#4 then 1 else 0) + (if x.fn.getLsbD 0 then 1 else 0))
  | _ => []

/-- A slot reads the operands of a cluster: a lane those of its own, or of the one that XMOV names; the engine and branch slots those of cluster 0;
a memory or shuffle slot those of all. -/
def Slot.here (x : Slot) (c : Nat) : Bool :=
  match x.place, x.instr with
  | .lane _, .xmov _ r => c == r.b.toNat % 16
  | .lane k, _ => c == k
  | .eng, _ => c == 0
  | .br, _ => c == 0
  | _, _ => true
/-- An operand of a slot is a register (R160). -/
def Slot.names (x : Slot) (r : Rd) (d : Dst) : Bool :=
  let n := r.f.toNat
  match d with
  | .v st k =>
    let q := 128 * (st % 2) + k
    (wideColumn x.place r.base || n < 128) && n ≤ q && q < n + (match r.w with | .w32 => 1 | .w64 => 2 | .w128 => 4)
      && x.here (st / 2) && (!r.lead || st / 2 == 0)
  | .s k => !wideColumn x.place r.base && n == 128 + k
  | _ => false
/-- Does a slot read a register (R176)? -/
def Slot.reads (g : Gang) (x : Slot) (d : Dst) : Bool :=
  (sourcesOf x.instr).any (fun r => x.names r d) ||
  match d with
  | .v _ r => (match x.instr with
    | .mmag _ y => bits64 (g.g (y.stg.toNat % 16)) 47 40 == r
    | .zrowWr _ y => y.ta.toNat == r
    | _ => false)
  | .p st r => st % 2 == 0 && r < 8 && ((x.instr.hd.gd.toNat == r && (match x.place with | .lane k => k == st / 2 | _ => x.here (st / 2)))
    || (x.here (st / 2) && (predSourcesOf x.instr).any (fun f => f.toNat == r)))
  | .b r => (bSourcesOf x.instr).contains r
  | .g r => (gSourcesOf x.instr).contains r
  | .h r => (match x.instr with | .ldh _ y => y.base.toNat == r | .sth _ y => y.base.toNat == r | _ => false)
  | .pt k => (match x.instr with | .patsw _ y => y.fn.toNat % 4 == k / 32 | _ => false)
  | .fx => (match x.instr with | .mfs _ y => y.a == 7#8 | _ => false)
  | .s _ => false

/-- The class of a lane of an issued bundle (R416). -/
def laneClass (e : Env) (l : List Slot) (k : Nat) : Nat :=
  match l.find? (fun x => x.place == .lane k) with
  | none => 4
  | some x => if ({ e with place := .lane k, h := x.instr.hd } : Env).guard k then 0 else 2

/-- A bundle takes effect. Where it holds a CONT beside a sealing slot, the continuation point of the seal, the next bundle, stands in place of
CONT's label (DESIGN CHOICE, assumption 97: R67 sets cp to the following bundle, and R62's CONT gives its mask). -/
def State.commitBundle (e : Env) (hdr : Word64) (slots : List Slot) (r : SlotRun) (loop : Eff) (ci ct : Nat) : State :=
  let uid := e.g.uid
  let s0 := if hdrSyop hdr ≥ 2 then
      loop.st.launchFlight ({ e.flight (.localPost e.g.gcore (e.g.flagNo (hdrPost hdr)) (hdrCount hdr)) true with vliw := true, slot := 22 } : Flight)
    else loop.st
  let s1 := (((s0.firstIssue e.g).countIssue e.g ci ct).gingham e.g true e.pc ((List.range 16).map (laneClass e slots))).modCore e.g.gcore (fun c =>
    { c with beat := SMap.set c.beat (e.g.slot % 4) (s0.cycle + 1), last := SMap.set c.last (e.g.slot % 4) (s0.cycle, uid)
             vrr := (e.g.slot + 1) % 4 })
  let next := (loop.next.or ((r.effs.filterMap (fun f => f.2.next)).head?)).getD e.npc
  let seals := slots.any (fun x => x.instr.seals)
  let pend := (r.effs.map (fun f => pendOf (s1.gclk e.g) e.g.iss.stall e.g.iss.bundles f.1 f.2)).flatten
  let s2 := s1.modGang uid (fun g =>
    let g1 := ((g.ctr 9 (· + 1)).ctr 10 (· + ci)).ctr 11 (· + ct)
    { g1 with
      pc := next
      pend := g1.pend ++ pend
      iss := { g1.iss with issued := true, exhausted := none, age := 0, waitFrom := none, waited := false, first := false, bundles := g1.iss.bundles + 1
                           sealTo := if seals then some next else g1.iss.sealTo, contOnly := g1.iss.contOnly && !seals } })
  let s3 := match s2.gang? uid with
    | some g =>
      if !g.iss.block.isEmpty || g.park.isSome || g.iss.yieldReq then s2.blockGroup uid
      else if g.iss.splitTo.isSome || g.iss.tretTo.isSome || g.iss.dueTrap.isSome || g.iss.exiting then s2.dropGroup uid
      else s2
    | none => s2
  { (s3.payAll uid e.s.flights ci ct) with note := .issued }.pump

/-- The walks that a sealing bundle makes for its XLAT slots before it takes effect (R67): those that one run of its slots would leave in flight. -/
def SlotRun.walks (r : SlotRun) (from_ : Nat) : List Nat :=
  r.st.flights.filterMap (fun f => match f.kind with
    | .xlat _ va .. => if from_ ≤ f.id then some va else none
    | _ => none)

/-- A sealing bundle one of whose slots finds no translation (R67): nothing of it takes effect, the faults are recorded, and the whole bundle is
issued again once their pages have been retired (R385). DESIGN CHOICE (assumption 112): no charge stands while it is parked, and the issue that follows is
charged; R61 and R67 say it of a park and of a sealing bundle in different words. -/
def State.parkBundle (s : State) (g : Gang) (k : Park) : State :=
  let s1 := k.parts.foldl (fun st p => match st.translate g.gcore g.ctx p.pa with
    | .fault kd l => st.fault g.ctx p.pa kd l (128 + (match k.instr with | .xlatW .. => 8 | _ => 0)) g.code none
    | .page .. => st) s
  (s1.count g 0x0C 1).modGang g.uid (fun x => { x with park := some { k with parts := [] } })

/-- What a bundle does once its words are checked; a wait for results that land by themselves holds the lane group (R31), and one of the
interlocked mode for a window stalls its thread beside (R176, R356). -/
inductive BundleRes where
  | wait
  | hold
  | window
  | park (k : Park)
  | exhaust
  | trap (ci ct : Nat) (t : TrapInfo)
  | go (st : State)

/-- Bundle attempts: waits, charge, slots, sync post and loop field. -/
def State.bundleTry (s : State) (g : Gang) (hdr : Word64) (slots : List Slot) (imm : Option Word64) : BundleRes :=
  let sync := hdrSyop hdr == 1 || hdrSyop hdr == 3
  let flag := (SMap.get (s.core g.gcore).flags (g.flagNo (hdrFlag hdr)) 0).toNat
  let ilkWait := (s.ctx g.ctx).ilk && g.pend.any (fun p => p.free &&
    (slots.any (fun x => x.reads g p.w.dst) || (hdrLpop hdr == 1 && p.w.dst == .s (bits64 hdr 20 15))))
  let seals := slots.any (fun x => x.instr.seals)
  let out := seals && (s.resultsOut g.uid || g.pend.any (fun p => p.flight.isSome))
  if (sync && (flag < hdrCount hdr || !s.orderOk g.ctx (.flag g.gcore (g.flagNo (hdrFlag hdr))) g.mark)) || out then .wait
  else if ilkWait then .window
  else if seals && !g.landed then .hold
  else
    let s1 := if sync then s.takeFlag g.uid (hdrFlag hdr) (hdrCount hdr) else s
    let g1 := (s1.gang? g.uid).getD g
    let npc := g.pc + BitVec.ofNat 64 (bundleSize hdr)
    let env (st : State) (x : Gang) : Env := { s := st, g := x, place := .br, pc := g.pc, npc := npc, h := { neg := false, gd := 15, lat := 0 }, imm := imm }
    let at0 := env s1 g1
    let ci := (slots.map (fun x => ciOf x.instr.maj)).sum
    let ct := (slots.map (fun x => match semOf x.instr with
      | some m => m.ct { at0 with place := x.place, pc := x.pc, h := x.instr.hd }
      | none => 0)).sum
    let g2 := g1.charge ci ct
    let runAll (st : State) : SlotRun :=
      let e := env (st.setGang g2) g2
      (slotOrder g2 s1.draw slots).foldl (runSlot e) { st := { e.s with draw := s1.draw + 1 } }
    let first := runAll s1
    let walks := if seals then first.walks s1.next else []
    let r := if walks.isEmpty then first else runAll (walks.foldl (fun st va => st.cache g.gcore g.ctx va (st.translate g.gcore g.ctx va)) s1)
    let e := env (s1.setGang g2) g2
    let parked := if seals then (r.st.gang? g.uid).bind Gang.park else none
    let lp : Res := match hdrLpop hdr with
      | 1 => e.loopPush r.st ((g2.s (bits64 hdr 20 15)).setWidth 32) (bits64 hdr 14 12 + 1)
      | 2 => e.loopAdvance r.st
      | 3 => e.loopPop r.st
      | _ => .ok { st := r.st }
    let poison : Option TrapInfo := if hdrLpop hdr = 1 && g2.poisonS (bits64 hdr 20 15) then some { cause := causePoison } else none
    let rel := (if hdrSyop hdr ≥ 2 then e.releaseTrap else none).or (if sync then e.acquireTrap else none)
    let own : List (Nat × TrapInfo) := ((poison.or rel).map (fun t => (22, t))).toList ++ (match lp with | .trap t => [(22, t)] | _ => [])
    if r.waits then .wait
    else if !g1.fits ci ct then .exhaust
    else match r.traps ++ own, lp with
      | [], .ok f => (match parked with
        | some k => .park k
        | none => .go (State.commitBundle e hdr slots r f ci ct))
      | ts, _ => .trap ci ct (bundleTrap ts)

/-- An attempt of a VLIW thread to issue a bundle. It needs its lane group; a wait or a block gives that up (R31). -/
def runBundle (hdr : Word64) (ws : List Word64) (g : Gang) (s : State) : State :=
  let npc := g.pc + BitVec.ofNat 64 (bundleSize hdr)
  if g.cannotIssue s.cycle then { s with note := .waiting }
  else if g.iss.reclaim then { (s.requestYield g.uid false).blockGroup g.uid with note := .exhausted }
  else if !g.ctl.vliw then s.takeTrap g.uid { cause := causeIllegal } g.pc (g.pc + 8)
  else
    let c := s.bundleCheck g hdr ws
    let out (st : State) : State :=
      { st.blockGroup g.uid with note := .waiting }
    if !c.1.isEmpty then
      if g.iss.group then s.takeTrap g.uid (bundleTrap (c.1.map (fun n => (n, { cause := causeBundle })))) g.pc npc else { s with note := .waiting }
    else match s.bundleTry g hdr c.2 (bundleImm hdr ws) with
      | .wait => (out s).modGang g.uid (fun x => { x with iss := { x.iss with waited := true } })
      | .hold => { s with note := .waiting }
      | .window => { s with note := .waiting }
      | .park k => if g.iss.group then { ((s.parkBundle g k).blockGroup g.uid) with note := .waiting } else { s with note := .waiting }
      | .exhaust => (s.blockGroup g.uid).exhaust g.uid g.pc npc
      | .trap ci ct t => if g.iss.group then s.chargedTrap g ci ct t g.pc npc else { s with note := .waiting }
      | .go st => if g.iss.group then st else { s with note := .waiting }

/-- BUNDLE. -/
def execBundle (hdr : BitVec 64) (words : List (BitVec 64)) (s : State) : Host.Outcome State Fault Refusal :=
  match s.turn.bind s.gang? with
  | none => .fault .noIssuingGang
  | some g => .next (runBundle hdr words g s)

/-! ## Lane groups (R30) -/

/-- A VLIW thread is ready: its next bundle would issue, trap, park or exhaust its budget, or the thread would yield or leave for a fetch fault,
if it held its group. -/
def State.bundleReady (s : State) (g : Gang) : Bool :=
  if g.cannotIssue s.cycle then false
  else if g.iss.reclaim then true
  else match s.fetch g with
    | .words (hdr :: ws) =>
      if !isHeader hdr then true
      else
        let c := s.bundleCheck g hdr ws
        if !c.1.isEmpty then true
        else match s.bundleTry g hdr c.2 (bundleImm hdr ws) with
          | .wait => false
          | .hold => false
          | .window => false
          | _ => true
    | .words [] => false
    | .missing .. => (s.failTiles g.gcore g.slot).saveable g
    | _ => true

/-- The interlocked mode stalls a thread that holds its group: a slot of its next bundle reads a register in a window (R176, R356). -/
def State.windowed (s : State) (g : Gang) : Bool :=
  g.iss.group && (s.ctx g.ctx).ilk && !g.pend.isEmpty && !g.cannotIssue s.cycle &&
  match s.fetch g with
  | .words (hdr :: ws) =>
    let c := s.bundleCheck g hdr ws
    isHeader hdr && c.1.isEmpty && (match s.bundleTry g hdr c.2 (bundleImm hdr ws) with | .window => true | _ => false)
  | _ => false

/-- A VLIW thread may take its lane group now (R29, R30): it has been ready since the boundary, the group is in SIMT state between instructions,
the reservation permits, and no thread of the group has waited longer. -/
def State.canAcquire (s : State) (g : Gang) : Bool :=
  let c := s.core g.gcore
  let q := g.slot % 4
  let rival (x : Gang) : Bool := x.uid != g.uid && x.inSlot && x.gcore == g.gcore && x.slot % 4 == q && x.ctl.vliw && !x.iss.group
    && x.iss.groupFrom.getD (s.cycle + 1) < g.iss.groupFrom.getD s.cycle && s.admits x.ctx && s.bundleReady x
  g.inSlot && g.ctl.vliw && !g.iss.group && g.iss.groupFrom.isSome && s.admits g.ctx && (SMap.find c.group q).isNone && SMap.get c.beat q 0 ≤ s.cycle
    && c.group.length < s.vres g.gcore && s.bundleReady g && !s.gangs.any rival

/-- LANE_GROUP_ACQUIRE: a ready VLIW thread takes its group. -/
def execLaneGroupAcquire (uid : Nat) (s : State) : Host.Outcome State Fault Refusal :=
  match s.gang? uid with
  | none => .next s
  | some g =>
    if s.canAcquire g then
      .next ((s.modCore g.gcore (fun c => { c with group := SMap.set c.group (g.slot % 4) uid })).modGang uid (fun g =>
        { g with iss := { g.iss with group := true, groupFrom := none } }))
    else .next s

end Sys2Proof.Machine
end

