-- ==== Sys2Proof/Machine/TakeUp.lean ====
section
/-! DEFINITION. The taking up of engine commands in the order of R97: an instruction that moves a tile entry in the same cycle goes first. -/

namespace Sys2Proof.Machine

/-- The lane group of a gang. -/
def Gang.lane (g : Gang) : Nat := g.slot % 4
/-- The groups of a core on which a decoder has issued in this cycle. A group that is given up counts with its bundle until the boundary. -/
def State.portsUsed (s : State) (core : Nat) (vliw : Bool) : Nat :=
  let c := s.core core
  (c.last.filter (fun (x : Nat × Nat × Nat) => x.2.1 == s.cycle && (SMap.find c.group x.1).isSome == vliw)).length

/-- The instructions that a gang would issue next: one, or the slots of its bundle. -/
def State.nextInstrs (s : State) (g : Gang) : List Instr :=
  match s.fetch g with
  | .words (w :: ws) =>
    (if g.ctl.vliw then ws else [w]).filterMap (fun x => match decodeWord (if g.ctl.vliw then placeOf x else .simt) (w.getLsbD 35 && g.ctl.vliw) x with
      | .ok i => some i
      | .error _ => none)
  | _ => []
/-- An instruction names a tile entry and moves it out of its state. -/
def movesTile (i : Instr) (slot k : Nat) (t : Tile) : Bool :=
  let names (d : Reg) : Bool := (if d.toNat < 16 then 16 * slot + d.toNat else d.toNat) == k
  match i with
  | .tacqOwn _ x => names x.d && t.state == 0
  | .tacqPub _ x => names x.d && t.state == 1 && t.filler == 1
  | .tacqRel _ x => names x.d && t.state == 2
  | _ => false
/-- What an attempt of a gang to issue now would leave. -/
def State.tried (s : State) (g : Gang) : State :=
  match s.fetch g with
  | .words (w :: ws) =>
    if g.ctl.vliw then (if isHeader w then runBundle w ws g s else s)
    else match decodeWord .simt false w with
      | .ok i => match semOf i with
        | some (m : Sem) => runSimt i m g s
        | none => s
      | .error _ => s
  | _ => s
/-- A gang that owns an entry would issue in this cycle the instruction that moves it: nothing that the instruction waits for is missing, and its
guard holds. It goes before an engine and a filter (R97). -/
def State.claimed (s : State) (gcore k : Nat) : Bool :=
  let c := s.core gcore
  s.gangs.any (fun g => g.gcore == gcore && (g.slot == k / 16 || s.pinnedTo gcore (k / 16) == some g.ctx) && g.inSlot && !g.cannotIssue s.cycle && s.admits g.ctx
    && !c.frozen && SMap.get c.beat g.lane 0 ≤ s.cycle && s.portsUsed gcore g.ctl.vliw < 2 && (if g.ctl.vliw then g.iss.group else (SMap.find c.group g.lane).isNone)
    && (s.nextInstrs g).any (fun i => movesTile i g.slot k (s.tile gcore k))
    && (s.tried g).note == .issued && ((s.tried g).tile gcore k).state != (s.tile gcore k).state)
/-- A command could be taken up now, or its next chunk begun. -/
def State.takeable (s : State) (c : Cmd) : Bool :=
  !c.taken && c.err == 0 && s.cmdFirst c && !s.cmdFrozen c && c.drains.all (fun k => (s.tile c.gcore k).state == 2)
    && c.fills.all (fun k => (s.tile c.gcore k).state == 0) && (match c.kind with | .strm _ _ _ _ m _ _ _ => c.chunk < m | _ => true)
/-- A command waits in this cycle for a gang, or for an engine of a lower number, that moves one of its tiles out of the same state (R97). -/
def State.yieldsTile (s : State) (c : Cmd) : Bool :=
  c.drains.any (fun k => s.claimed c.gcore k || s.cmds.any (fun x => x.id != c.id && x.gcore == c.gcore && x.rank < c.rank && x.drains.contains k && s.takeable x)) ||
  c.fills.any (fun k => s.claimed c.gcore k || s.cmds.any (fun x => x.id != c.id && x.gcore == c.gcore && x.rank < c.rank && x.fills.contains k && s.takeable x))

/-- ENGINE_COMMAND_TAKE_UP. Where it and an instruction or another engine would move one entry, R97 gives the order. -/
def execEngineCommandTakeUp (id : Nat) (s : State) : Host.Outcome State Fault Refusal :=
  match s.cmd? id with
  | none => .next s
  | some c => .next (if c.taken || c.err != 0 || !s.cmdFirst c || s.cmdFrozen c || s.yieldsTile c then s else s.takeUp c)

end Sys2Proof.Machine
end

