-- ==== Sys2Proof/Machine/Ports.lean ====
section
/-! DEFINITION. The Ethernet ports (R399 to R401, R326): links, receive filters, frames that arrive; the 1588 clock's messages (R404); and the
link-down events of the fabric ports (R414). -/

namespace Sys2Proof.Machine

def State.port (s : State) (pp : Nat) : Port := SMap.get s.ports pp {}
def State.modPort (s : State) (pp : Nat) (f : Port → Port) : State := { s with ports := SMap.set s.ports pp (f (s.port pp)) }
/-- A counter of 32 bits that saturates. -/
def sat32 (n : Nat) : Nat := min (2 ^ 32 - 1) (n + 1)

/-! ## Links (R399) -/

def State.broken (s : State) (pp : Nat) : Bool := (s.reg (portBlock pp)).getLsbD 0
/-- A logical port exists: lane 0 of an unbroken port, each lane of a broken one. -/
def State.lportExists (s : State) (lport : Nat) : Bool := lport < 8 && (lport % 4 == 0 || s.broken (lport / 4))

/-- The reception of a frame ends without it: its tile is empty again, unless the entry has been taken away meanwhile. At a frozen
core it ends so after the freeze (R114). -/
def State.dropRx (s : State) (lport : Nat) : State :=
  match SMap.find (s.port (lport / 4)).rx (lport % 4) with
  | none => s
  | some r =>
    if (s.core (32 * r.cluster + r.core)).frozen then
      s.modPort (lport / 4) (fun p => { p with rx := SMap.set p.rx (lport % 4) { r with ended := some false } })
    else
    let s1 := s.modPort (lport / 4) (fun p => { p with rx := SMap.erase p.rx (lport % 4) })
    s1.modTile (32 * r.cluster + r.core) r.entry (fun t => if t.state == 1 && t.filler == 0 then { t with state := 0 } else t)

/-- A write of the port's control word: a change of brk drops every link and the frames in flight. -/
def State.portControl (s : State) (pp : Nat) (v : Word64) : State :=
  if (s.reg (portBlock pp)).getLsbD 0 = v.getLsbD 0 then s
  else
    let s1 := (List.range 4).foldl (fun st k => st.dropRx (4 * pp + k)) s
    (s1.modPort pp (fun p => { p with up := 0 })).setBits (portBlock pp) 1 v
/-- PORT_BREAKOUT. -/
def execPortBreakout (who : Who) (pp : Nat) (v : BitVec 64) (s : State) : Host.Outcome State Fault Refusal :=
  if pp < 2 then .next (s.writeBy who (portBlock pp) (fun st => st.portControl pp v)) else .next s

def linkBit (lport : Nat) : BitVec 4 := BitVec.ofNat 4 (2 ^ (lport % 4))
/-- LINK_UP. -/
def execLinkUp (lport : Nat) (s : State) : Host.Outcome State Fault Refusal :=
  if s.lportExists lport then .next (s.modPort (lport / 4) (fun p => { p with up := p.up ||| linkBit lport })) else .next s
/-- LINK_DOWN: a frame that was arriving is lost. -/
def execLinkDown (lport : Nat) (s : State) : Host.Outcome State Fault Refusal :=
  if lport < 8 then .next ((s.dropRx lport).modPort (lport / 4) (fun p => { p with up := p.up &&& ~~~linkBit lport })) else .next s

/-! ## Filters (R400) -/

def filterReg (pp f k : Nat) : Nat := portBlock pp + 0x100 + 0x20 * f + 8 * k
def State.filterWord (s : State) (pp f k : Nat) : Word64 := s.reg (filterReg pp f k)
def State.filterCtx (s : State) (pp f : Nat) : Nat := bits64 (s.filterWord pp f 0) 34 25
def State.filterCore (s : State) (pp f : Nat) : Nat := 32 * bits64 (s.filterWord pp f 1) 2 0 + bits64 (s.filterWord pp f 1) 7 3
def State.filterCur (s : State) (pp f : Nat) : Nat := SMap.get (s.port pp).cur f 0

/-- The conditions under which a filter may be enabled. -/
def State.filterOk (s : State) (pp f : Nat) : Bool :=
  let w := s.filterWord pp f 0
  let first := bits64 (s.filterWord pp f 1) 15 8
  let t := s.tile (s.filterCore pp f) first
  bits64 w 2 1 != 3 && t.ring && t.defd && s.pinnedTo (s.filterCore pp f) (first / 16) == some (s.filterCtx pp f) &&
  (!w.getLsbD 24 || (s.nodeOf (s.filterCtx pp f) (bits64 (s.filterWord pp f 1) 31 16)).valid)

/-- A write of a filter's word k. While the filter is enabled only en changes; a reserved kind is ignored, and refuses an enabling; a first below
128 is out of its range (R7). -/
def State.filterWrite (s : State) (pp f k : Nat) (v : Word64) : State :=
  let on := (s.filterWord pp f 0).getLsbD 0
  let a := filterReg pp f k
  match k with
  | 0 =>
    if on then (if v.getLsbD 0 then s else s.setBits a 1 v)
    else
      let s1 := s.setBits a ((if bits64 v 2 1 = 3 then 0 else bitMask 2 1) ||| bitMask 34 4 ||| bitMask 36 36) v
      let err (bad : Bool) (st : State) : State := st.modPort pp (fun p => { p with ferr := if bad then NSet.add p.ferr f else NSet.del p.ferr f })
      if !v.getLsbD 0 then s1
      else if bits64 v 2 1 != 3 && s1.filterOk pp f then
        err false ((s1.setBits a 1 v).modPort pp (fun p => { p with cur := SMap.set p.cur f (bits64 (s1.filterWord pp f 1) 15 8) }))
      else err true s1
  | 1 => if on then s else s.setBits a (bitMask 7 0 ||| bitMask 31 16 ||| (if 128 ≤ bits64 v 15 8 then bitMask 15 8 else 0)) v
  | 2 => if on then s else s.setBits a (bitMask 48 0) v
  | _ => s
/-- FILTER_ENABLE. -/
def execFilterEnable (who : Who) (pp f : Nat) (v : BitVec 64) (s : State) : Host.Outcome State Fault Refusal :=
  if pp < 2 && f < 8 then .next (s.writeBy who (filterReg pp f 0) (fun st => st.filterWrite pp f 0 v)) else .next s

/-! ## Headers of a frame -/

/-- Where the ethertype stands: after one 802.1Q tag, if there is one. -/
def typeOffset (frame : List Byte) : Nat := if wordAt frame 12 = 0x8100 then 16 else 12
def etherType (frame : List Byte) : Nat := wordAt frame (typeOffset frame)

/-- The UDP header of an IPv4 (4) or IPv6 (6) datagram. -/
def udpOffset (version : Nat) (frame : List Byte) : Option Nat :=
  let h := typeOffset frame + 2
  let byte (i : Nat) : Nat := (frame.getD (h + i) 0).toNat
  let at_ : Option Nat :=
    if version = 4 then
      (if etherType frame = 0x0800 && byte 0 / 16 = 4 && byte 9 = 17 && wordAt frame (h + 6) % 8192 = 0 then some (h + 4 * (byte 0 % 16)) else none)
    else (if etherType frame = 0x86DD && byte 0 / 16 = 6 && byte 6 = 17 then some (h + 40) else none)
  at_.filter (fun o => o + 8 ≤ frame.length)

/-- Does a filter match a frame of a logical port (R400)? -/
def State.filterMatches (s : State) (lport f : Nat) (frame : List Byte) : Bool :=
  let pp := lport / 4
  let w := s.filterWord pp f 0
  let m := s.filterWord pp f 2
  let val := bits64 w 23 8
  let kind := match bits64 w 2 1 with
    | 0 => etherType frame == val
    | 1 => (udpOffset 4 frame).any (fun o => wordAt frame (o + 2) == val)
    | 2 => (udpOffset 6 frame).any (fun o => wordAt frame (o + 2) == val)
    | _ => false
  w.getLsbD 0 && w.getLsbD (4 + lport % 4) && kind && (!m.getLsbD 48 || beNat (frame.take 6) == bits64 m 47 0)
    && !s.replaying (s.filterCtx pp f)

/-! ## The 1588 clock (R404) -/

def ptpReg : Nat := timeBlock + 0x40
/-- Where a PTP message of the configured transport begins in a frame. -/
def State.ptpOffset (s : State) (frame : List Byte) : Option Nat :=
  let udp (v : Nat) : Option Nat := (udpOffset v frame).bind (fun o => if wordAt frame (o + 2) = 319 || wordAt frame (o + 2) = 320 then some (o + 8) else none)
  match bits64 (s.rd ptpReg) 5 4 with
  | 0 => if etherType frame = 0x88F7 then some (typeOffset frame + 2) else none
  | 1 => udp 4
  | 2 => udp 6
  | _ => none
/-- The clock takes a frame: it is enabled, on this logical port, and the message is of its domain. -/
def State.ptpTakes (s : State) (lport : Nat) (frame : List Byte) : Bool :=
  let w := s.rd ptpReg
  w.getLsbD 0 && bits64 w 3 1 == lport &&
  (match s.ptpOffset frame with
    | some o => o + 5 ≤ frame.length && (frame.getD (o + 4) 0).toNat == bits64 w 15 8
    | none => false)

/-! The manual names IEEE 1588 and does not restate it. What the standard leaves no choice in is here (PRESUMED, assumption 72); all else is free: which
state the best master clock algorithm or a timeout brings, when a message is sent, and its other fields. -/

/-- May the port state new follow old? A slave-only clock is never about to be master, master or passive; the slave state is entered from uncalibrated. -/
def ptpStep (slaveOnly : Bool) (old new : Nat) : Bool :=
  1 ≤ new && new ≤ 9 && !(slaveOnly && (new = 5 || new = 6 || new = 7)) && (old > 3 || new ≤ 4) && (new != 9 || old = 8 || old = 9)
def State.ptpNext (s : State) (w : Word64) : BitVec 4 :=
  let new := bits64 w 3 0
  if ptpStep ((s.rd ptpReg).getLsbD 16) s.ptp.toNat new then BitVec.ofNat 4 new else s.ptp
/-- The message types that a port state sends: Sync 0, Delay_Req 1, Pdelay_Req 2, Pdelay_Resp 3, Follow_Up 8, Delay_Resp 9, Pdelay_Resp_Follow_Up 10,
Announce 11. -/
def ptpSends (p2p : Bool) (state type : Nat) : Bool :=
  if type = 0 || type = 8 || type = 11 then state = 6
  else if type = 9 then !p2p && state = 6
  else if type = 1 then !p2p && (state = 8 || state = 9)
  else (type = 2 || type = 3 || type = 10) && p2p && 3 < state
/-- A frame that the clock may send: of its transport and domain, of a type for its state, from its identity and port 1, and an Announce with the
configured offset from UTC. -/
def State.ptpMay (s : State) (frame : List Byte) : Bool :=
  let w := s.rd ptpReg
  match s.ptpOffset frame with
  | none => false
  | some o =>
    let type := (frame.getD o 0).toNat % 16
    o + 34 ≤ frame.length && (frame.getD (o + 4) 0).toNat == bits64 w 15 8 && ptpSends (w.getLsbD 6) s.ptp.toNat type &&
    leBytes 8 (Config.clockIdentity Config.fusedEui).toNat == ((frame.drop (o + 20)).take 8).reverse && wordAt frame (o + 28) == 1 &&
    (type != 11 || (o + 64 ≤ frame.length && wordAt frame (o + 44) == bits64 w 39 24))
/-- The enabled clock sends a message on its link, or does not. -/
def State.ptpSend (s : State) : State :=
  let lport := bits64 (s.rd ptpReg) 3 1
  let f := Config.ptpFrame s.draw
  { s with draw := s.draw + 1, out := if s.portUp lport && s.ptpMay f then s.out ++ [.frame lport f s.clock.t] else s.out }
/-- What the enabled clock does by itself in a cycle, at a timeout of its own: a port state follows, and a message goes out. -/
def State.ptpTurn (s : State) : State :=
  if (s.rd ptpReg).getLsbD 0 && s.boot.ready then ({ s with ptp := s.ptpNext (Config.freeWord s.draw), draw := s.draw + 1 } : State).ptpSend else s

/-! ## Device time is set (R402) -/

/-- Device time is 48 bits of seconds, nanoseconds and a fraction. -/
def timeWrap (t : Nat) : Nat := t % (2 ^ 48 * 1000000000 * 65536)
/-- A signed offset in ns: forward at once; back as a slew of -500 ppm, which lasts 1,999 ns of elapsed device time for each. -/
def State.adjustTime (s : State) (ns : Int) : State :=
  if 0 ≤ ns then { s with clock := { s.clock with t := timeWrap (s.clock.t + ns.toNat * 65536) } }
  else { s with clock := { s.clock with slew := s.clock.slew + (-ns).toNat * 1999 * 65536, slewOn := true } }
/-- A rate adjustment saturates at 500 ppm either way. -/
def freqSat (v : Word64) : Word64 :=
  let f := toSigned 32 (bits64 v 31 0)
  BitVec.ofNat 64 (ofInt 32 (max (-(500 * 65536)) (min (500 * 65536) f)))
def State.setFreq (s : State) (v : Word64) : State := s.setBits (timeBlock + 0x18) (bitMask 31 0) (freqSat v)

/-- PTP_MESSAGE: the clock takes the message with its timestamp. The port state that follows, in the slave state what Percale writes to
adj and freq, and the message that answers it are those of the standard. -/
def execPtpMessage (lport : Nat) (frame : List (BitVec 8)) (s : State) : Host.Outcome State Fault Refusal :=
  if !(s.portUp lport && s.ptpTakes lport frame) then .next s
  else
    let s1 : State := { s with draw := s.draw + 2, ptpIn := s.ptpIn ++ [(s.clock.t, frame)], ptp := s.ptpNext (Config.freeWord s.draw) }
    let w := Config.freeWord (s.draw + 1)
    .next (if s1.ptp = 9 then (s1.setFreq w).adjustTime (toSigned 32 (bits64 w 63 32)) else s1).ptpSend

/-! ## Receiving (R401, R326) -/

/-- Is the ring's next tile free for a frame? It is not while its slot is unpinned, nor while its function is switched out. -/
def State.ringOpen (s : State) (pp f : Nat) : Bool :=
  let ctx := s.filterCtx pp f
  let cur := s.filterCur pp f
  let back := match s.vfOf ctx with
    | some v => s.worlds.leaving.isSome && s.worlds.current == some v
    | none => false
  (s.pinnedTo (s.filterCore pp f) (cur / 16)).isSome && (s.tile (s.filterCore pp f) cur).state == 0 && s.admits ctx && !back

/-- The filter comes after the gang and the engines that may move its ring's next tile out of empty in this cycle (R97), and its arrival at a
frozen core is held (R114). -/
def State.filterYields (s : State) (pp f : Nat) : Bool :=
  let core := s.filterCore pp f
  let cur := s.filterCur pp f
  (s.core core).frozen || (s.ringOpen pp f && (s.claimed core cur || s.cmds.any (fun c => c.gcore == core && c.fills.contains cur && s.takeable c)))

/-- A frame and its header have no room in a tile (R401). -/
def State.tooLong (s : State) (gcore entry len : Nat) : Bool := 64 + len > 2048 || 64 + len > (s.tile gcore entry).bytes

/-- FRAME_FIRST_BYTE. DESIGN CHOICE (assumption 70): a free bit tells whether a frame is found too long now or while it arrives. -/
def execFrameFirstByte (lport : Nat) (frame : List (BitVec 8)) (s : State) : Host.Outcome State Fault Refusal :=
  let pp := lport / 4
  let len := frame.length
  if !s.portUp lport || (SMap.find (s.port pp).rx (lport % 4)).isSome || len > 9216 || etherType frame = 0x8808 || s.ptpTakes lport frame then .next s
  else match (List.range 8).find? (fun f => s.filterMatches lport f frame) with
    | none => .next (s.modPort pp (fun p => { p with unmatched := sat32 p.unmatched }))
    | some f =>
      let core := s.filterCore pp f
      let cur := s.filterCur pp f
      if (s.pinnedTo core (cur / 16)).isSome && s.tooLong core cur len && !(s.ringOpen pp f && (Config.freeWord s.draw).getLsbD 0) then
        .next { s.modPort pp (fun p => { p with long := sat32 p.long }) with draw := s.draw + 2 }
      else if s.filterYields pp f then .next s
      else if !s.ringOpen pp f then .next (s.modPort pp (fun p => { p with full := sat32 p.full }))
      else
        let r : Rx := { filter := f, ctx := s.filterCtx pp f, cluster := core / 32, core := core % 32, entry := cur, frame := frame, time := s.clock.t }
        .next { (s.modPort pp (fun p => { p with rx := SMap.set p.rx (lport % 4) r })).modTile core cur (fun t => { t with state := 1, filler := 0 }) with draw := s.draw + 2 }

/-- The header of a received frame in its tile. -/
def rxHeader (time lport filter len : Nat) : List Byte :=
  timeBytes time ++ leBytes 4 0 ++ leBytes 2 len ++ leBytes 1 lport ++ leBytes 1 filter ++ List.replicate 44 0#8

/-- A frame has reached its tile: header and frame go through the NET path and are merged (R128), the tile is ready, the ring moves on, and the
record is sent. -/
def State.landFrame (s : State) (lport : Nat) (r : Rx) (bytes : List Byte) : State :=
  let pp := lport / 4
  let gcore := 32 * r.cluster + r.core
  let t := s.tile gcore r.entry
  let w := s.filterWord pp r.filter 0
  let ea := tileEa r.core r.entry 0 t
  let len := bytes.length - 64
  let s0 := s.muslin r.ctx 2 [lport, r.filter] bytes
  let s1 := s0.pathWrite .net s.next (spadPa r.cluster ea) bytes false { tenant := s.tenantOf r.ctx }
  let s2 := ((s1.mergeSpad (spadPa r.cluster ea) bytes.length).modTile gcore r.entry (fun t => { t with state := 2, len := bytes.length })).modPort pp (fun p => { p with cur := SMap.set p.cur r.filter t.next })
  if !w.getLsbD 24 then s2
  else
    let words : List Word32 := [BitVec.ofNat 32 r.entry, BitVec.ofNat 32 ea, BitVec.ofNat 32 len, BitVec.ofNat 32 (lport + 8 * r.filter)]
    let rec_ : Record := { words := words, time := 0, elapsed := 0, src := 3, topup := w.getLsbD 36 }
    s2.launchFlight { id := 0, uid := none, ctx := r.ctx, core := 0, queue := none
                      kind := .append 3 (64 * pp + r.filter) (bits64 (s.filterWord pp r.filter 1) 31 16) 0 [rec_] }

/-- A good frame lands, unless its tile entry has been taken away; a bad one, and one found too long, which is counted, leave the tile empty. -/
def State.endFrame (s : State) (lport : Nat) (r : Rx) (good : Bool) : State :=
  let t := s.tile (32 * r.cluster + r.core) r.entry
  if s.tooLong (32 * r.cluster + r.core) r.entry r.frame.length then
    (s.dropRx lport).modPort (lport / 4) (fun p => { p with long := sat32 p.long })
  else if good && t.defd && t.state == 1 && t.filler == 0 then
    let s1 := s.modPort (lport / 4) (fun p => { p with rx := SMap.erase p.rx (lport % 4) })
    (s1.landFrame lport r (rxHeader r.time lport r.filter r.frame.length ++ r.frame)).pump
  else s.dropRx lport
/-- FRAME_END: the frame's end takes effect, at a frozen core after its freeze (R114). -/
def execFrameEnd (lport : Nat) (good : Bool) (s : State) : Host.Outcome State Fault Refusal :=
  match SMap.find (s.port (lport / 4)).rx (lport % 4) with
  | none => .next s
  | some r =>
    if r.ended.isSome then .next s
    else if (s.core (32 * r.cluster + r.core)).frozen then
      .next (s.modPort (lport / 4) (fun p => { p with rx := SMap.set p.rx (lport % 4) { r with ended := some good } }))
    else .next (s.endFrame lport r good)
/-- The frames that ended at a core while it was frozen. -/
def State.thawFrames (s : State) : State :=
  (List.range 8).foldl (fun st lport => match SMap.find (st.port (lport / 4)).rx (lport % 4) with
    | some r => match r.ended with
      | some good => if (st.core (32 * r.cluster + r.core)).frozen then st else st.endFrame lport r good
      | none => st
    | none => st) s

/-! ## Counters -/

/-- A read of a port's counters clears them. -/
def State.portCounters (s : State) (pp off : Nat) : State :=
  match off with
  | 0x08 => s.modPort pp (fun p => { p with unmatched := 0, full := 0 })
  | 0x10 => s.modPort pp (fun p => { p with long := 0, nospawn := 0 })
  | _ => s
/-- PORT_COUNTER_READ. -/
def execPortCounterRead (who : Who) (pp off : Nat) (s : State) : Host.Outcome State Fault Refusal :=
  if pp < 2 && s.mayRead who (portBlock pp) then .next (s.portCounters pp off) else .next s

/-- FABRIC_LINK_DOWN. -/
def execFabricLinkDown (port : Nat) (s : State) : Host.Outcome State Fault Refusal :=
  if port < 12 then .next { s with links := SMap.upd s.links port 0 (fun n => min (2 ^ 64 - 1) (n + 1)) } else .next s

end Sys2Proof.Machine
end

