-- ==== Sys2Proof/Machine/Boot.lean ====
section
/-! DEFINITION. Reset and boot, recovery, firmware images, attestation (R430 to R433), and power management (R435 to R437). -/

namespace Sys2Proof.Machine

/-! ## Images (R432) -/

def imgField (l : List Byte) (off n : Nat) : List Byte := (l.drop off).take n
/-- The fail code of an image (R431): 0 where the boot ROM accepts it. -/
def imageFault (floor : BitVec 16) (l : List Byte) : Nat :=
  let body := leNat (imgField l 12 4)
  if imgField l 0 4 != [0x4B#8, 0x46#8, 0x57#8, 0x31#8] || body > 480 * 1024 || l.length < 256 + body then 1
  else if Config.sha384 (imgField l 64 96) != Config.fusedKeyDigest || Config.sha384 (imgField l 256 body) != imgField l 16 48 then 2
  else if !Config.ecdsaVerifies (imgField l 64 96) (imgField l 160 96) (Config.sha384 (imgField l 0 160)) then 3
  else if (imageRollback l).toNat < floor.toNat then 4
  else 0

/-! ## Reset (R430) -/

/-- The boot ROM's choice: slot 0, else slot 1, else recovery; a device whose memory does not train goes no further than that step (R431). -/
def Boot.start (b : Boot) (trained : Bool) : Boot :=
  let f0 := imageFault b.floor b.image0
  let f1 := imageFault b.floor b.image1
  let run (slot : Nat) (l : List Byte) : Boot :=
    { ready := trained, recov := false, slot := slot, fail := if trained then f0 else 5, fwver := imageVersion l, rbidx := imageRollback l, floor := b.floor
      header := l.take 256, image0 := b.image0, image1 := b.image1, node := if trained then Config.fabricNode l else 0 }
  if f0 = 0 then run 0 b.image0
  else if f1 = 0 then run 1 b.image1
  else { recov := true, fail := f0, floor := b.floor, image0 := b.image0, image1 := b.image1 }

/-- What has left the device: a message that a frozen port holds has not. -/
def State.sent (s : State) : List Out := s.out.filter (fun o => match o with | .irq _ _ _ held => !held | _ => true)
/-- The module is reset: every register block, count (R277) and SRAM is as at first; flash and fuses stay, and what DRAM holds. -/
def State.moduleReset (s : State) : State :=
  { State.reset with
    tape := s.tape, draw := s.draw + 1, next := s.next, dram := s.dram, dpoison := s.dpoison, out := s.sent, logs := s.logs
    boot := s.boot.start (Config.trained s.draw) }
/-- MODULE_RESET, at power-on or by PERST#. It does not end the hold after a thermal trip, for which power has to be cycled (R437, Turn.powerOn). -/
def execModuleReset (s : State) : Host.Outcome State Fault Refusal :=
  .next (if s.power.tripped then s else s.moduleReset)

/-! ## Recovery and update (R431, R432) -/

/-- The recovery window's bytes, as many as rwlen says. -/
def State.recovered (s : State) : List Byte := (List.range (min (512 * 1024) (bits64 (s.reg (bootBlock + 0x10)) 31 0))).map (fun i => SMap.get s.boot.rwin i 0)
/-- Slot 1 takes the image, and the module is reset. -/
def State.recover (s : State) : State :=
  if s.boot.recov then ({ s with boot := { s.boot with image1 := s.recovered } } : State).moduleReset else s
/-- What the ports accept in recovery. -/
def State.recoveryWrite (s : State) (a : Nat) (v : Word64) : State :=
  if a = bootBlock + 0x10 then s.setBits a (bitMask 31 0) v
  else if a = bootBlock + 0x18 then (if v.getLsbD 0 then s.recover else s)
  else if bootBlock + 0x10000 ≤ a && a + 8 ≤ bootBlock + 0x90000 then
    { s with boot := { s.boot with rwin := (List.range 8).foldl (fun m i => SMap.set m (a - (bootBlock + 0x10000) + i) ((v >>> (8 * i)).setWidth 8)) s.boot.rwin } }
  else s
/-- RECOVERY_PROGRAM. -/
def execRecoveryProgram (who : Who) (s : State) : Host.Outcome State Fault Refusal :=
  match who with
  | .pf p => .next (if p < 2 && !s.power.tripped then s.recover else s)
  | _ => .next s
/-- FIRMWARE_UPDATE: the image is that of slot 0 at the next reset. -/
def execFirmwareUpdate (image : List (BitVec 8)) (s : State) : Host.Outcome State Fault Refusal :=
  if s.boot.ready then .next { s with boot := { s.boot with image0 := image } } else .next s

/-! ## Attestation (R433) -/

/-- A request of the attestation block: a report is under way, or, where the host asks, the floor rises to the running image's index (R432). -/
def State.attestGo (s : State) (who : Who) (v : Word64) : State :=
  if !v.getLsbD 2 || s.boot.busy then s
  else match bits64 v 1 0, who with
    | 0, _ => { s with boot := { s.boot with busy := true } }
    | 1, .pf _ => { s with boot := { s.boot with floor := if s.boot.floor.toNat < s.boot.rbidx.toNat then s.boot.rbidx else s.boot.floor } }
    | _, _ => s

def nonce (s : State) : List Byte := ((List.range 4).map (fun i => leBytes 8 (s.reg (attestBlock + 8 + 8 * i)).toNat)).flatten
/-- A field of n bytes. -/
def fitBytes (n : Nat) (l : List Byte) : List Byte := (l ++ List.replicate n 0#8).take n
/-- The report's bytes 0 to 111. -/
def State.reportBody (s : State) : List Byte :=
  let b := s.boot
  leBytes 6 Config.fusedEui.toNat ++ leBytes 2 0 ++ leBytes 4 b.fwver.toNat ++ leBytes 2 b.rbidx.toNat ++ leBytes 2 b.floor.toNat
  ++ fitBytes 48 (Config.sha384 b.header) ++ nonce s ++ timeBytes s.clock.t ++ leBytes 4 ((if s.clock.tvalid then 1 else 0) + (if b.recov then 2 else 0))
/-- A report is done, with its signature. -/
def State.report (s : State) : State :=
  { s with boot := { s.boot with busy := false, report := s.reportBody ++ fitBytes 96 (Config.ecdsaSign (Config.sha384 s.reportBody)) } }

/-- ATTESTATION_REPORT: the request under way, or one that this party makes, is answered. -/
def execAttestationReport (who : Who) (s : State) : Host.Outcome State Fault Refusal :=
  if s.boot.busy then .next s.report
  else .next (s.writeBy who attestBlock (fun st => (st.attestGo who 4).report))
/-- RAISE_ROLLBACK_FLOOR. -/
def execRaiseRollbackFloor (who : Who) (s : State) : Host.Outcome State Fault Refusal :=
  .next (s.writeBy who attestBlock (fun st => st.attestGo who 5))

/-! ## Power (R435 to R437) -/

/-- The fraction of device time below one unit keeps its value when the clock, and with it the unit's denominator, changes. -/
def Clock.rescale (c : Clock) (old new : Nat) : Clock := { c with rem := c.rem * (27 - new) / (27 - old) }

/-- The readings of power and temperature, which are free (assumption 74). -/
def Power.sense (p : Power) (draw : Nat) : Power :=
  { p with pwr := (Config.sensor draw).toNat, tj := (Config.sensor (draw + 1)).toNat % 256, inlet := (Config.sensor (draw + 2)).toNat % 256, due := true }
/-- The three conditions under which f is lowered, by the readings. -/
def State.overPower (s : State) : Bool := bits64 (s.rd powerBlock) 10 0 < s.power.pwr
def Power.overJunction (p : Power) : Bool := 100 < p.tj
def Power.overInlet (p : Power) : Bool := 45 < p.inlet
def State.mustSlow (s : State) : Bool := s.overPower || s.power.overJunction || s.power.overInlet

/-- THROTTLE_CHANGE: f takes another step of the ladder, on every core at once, for the reasons that hold: a lower one where one does, a higher one
where none does. -/
def execThrottleChange (step : Nat) (power junction coolant : Bool) (s : State) : Host.Outcome State Fault Refusal :=
  let p := s.power
  if 15 < step || power != s.overPower || junction != p.overJunction || coolant != p.overInlet || (p.step < step && !s.mustSlow) || (step < p.step && s.mustSlow) then
    .next s
  else
    .next { s with
      clock := s.clock.rescale p.step step
      power :=
        { p with
          step := step, rpwr := power, rtemp := junction, rcool := coolant, due := false
          thr := if step = p.step then p.thr else sat32 p.thr } }
/-- The device lowers f by a step while a condition holds, once for a reading. -/
def State.slowDown (s : State) : Host.Outcome State Fault Refusal :=
  if s.power.due && s.mustSlow && s.power.step < 15 then
    execThrottleChange (s.power.step + 1) s.overPower s.power.overJunction s.power.overInlet s
  else .next s
/-- THROTTLE_COUNT_READ. -/
def execThrottleCountRead (who : Who) (s : State) : Host.Outcome State Fault Refusal :=
  if s.mayRead who powerBlock then .next { s with power := { s.power with thr := 0 } } else .next s

/-- A junction has reached 110 °C: nothing runs any more, the host links are withdrawn, and the module stays in reset until power is cycled. -/
def State.trip (s : State) : State :=
  if s.power.tj < 110 then s
  else { State.reset with
    cycle := s.cycle, tape := s.tape, draw := s.draw, next := s.next, dram := s.dram, dpoison := s.dpoison, out := s.sent, logs := s.logs
    boot := { floor := s.boot.floor, image0 := s.boot.image0, image1 := s.boot.image1 }
    power := { tripped := true } }
/-- THERMAL_TRIP. -/
def execThermalTrip (s : State) : Host.Outcome State Fault Refusal := .next s.trip

end Sys2Proof.Machine
end

