-- ==== Sys2Proof/Machine/Host.lean ====
section
/-! DEFINITION. The host's side (R8, R391 to R398): the assignment table, semaphores and port registers, device time, every write of the
register space, what its registers read as, host writes through a BAR, and function-level resets. -/

namespace Sys2Proof.Machine

/-! ## Assignment (R392) -/

/-- How many queues (or contexts) stand with a virtual function, one of them left out. -/
def State.givenTo (s : State) (base n : Nat) (fn : Nat × Nat) (but : Nat) : Nat :=
  ((List.range n).filter (fun i => base + 4 * i != but && s.assigned (base + 4 * i) == fn)).length

/-- A write of the assignment table; too much for one virtual function is refused. -/
def State.assignWrite (s : State) (off : Nat) (v : Word64) : State :=
  let vf := if bits64 v 5 0 ≤ 32 then bits64 v 5 0 else (s.assigned off).1
  let fn := (vf, bits64 v 6 6)
  let full := if off < 0x1000 then 64 ≤ s.givenTo 0 1024 fn off else 32 ≤ s.givenTo 0x1000 1024 fn off
  if vf != 0 && full then { s with asgErr := NSet.add s.asgErr off }
  else { s.setReg (assignBlock + off) (BitVec.ofNat 64 (vf + 64 * fn.2)) with asgErr := NSet.del s.asgErr off }
/-- ASSIGNMENT_WRITE. -/
def execAssignmentWrite (who : Who) (off : Nat) (v : BitVec 64) (s : State) : Host.Outcome State Fault Refusal :=
  if off < 0x2000 && off % 4 = 0 && !Who.isVf who then .next (s.writeBy who (assignBlock + off) (fun st => st.assignWrite off v)) else .next s

/-! ## Semaphores (R395 to R398) -/

def semReg (k : Nat) : Nat := semBlock + 8 * k
/-- A port takes a free semaphore, or frees its own. -/
def State.semAcquire (s : State) (port k : Nat) : State := if s.semOwner k = 0 then { s with sems := SMap.set s.sems k (port + 1) } else s
def State.semRelease (s : State) (port k : Nat) : State := if s.semOwner k = port + 1 then { s with sems := SMap.set s.sems k 0 } else s
def State.semWrite (s : State) (port k : Nat) (v : Word64) : State :=
  let s1 := if v.getLsbD 8 then s.semAcquire port k else s
  if v.getLsbD 9 then s1.semRelease port k else s1
/-- SEMAPHORE_ACQUIRE. -/
def execSemaphoreAcquire (port sem : Nat) (s : State) : Host.Outcome State Fault Refusal :=
  if sem < 64 then .next (s.writeBy (.pf port) (semReg sem) (fun st => st.semAcquire port sem)) else .next s
/-- SEMAPHORE_RELEASE. -/
def execSemaphoreRelease (port sem : Nat) (s : State) : Host.Outcome State Fault Refusal :=
  if sem < 64 then .next (s.writeBy (.pf port) (semReg sem) (fun st => st.semRelease port sem)) else .next s

/-- A write of guard entry g, word k. -/
def State.guardWrite (s : State) (who : Who) (g k : Nat) (v : Word64) : State :=
  let mine := match Who.port who with | some p => s.semOwner (bits64 (s.reg (guardReg g)) 5 0) != 2 - p | none => true
  if !mine then s else s.setBits (guardReg g + 8 * k) (if k = 0 then bitMask 6 0 ||| bitMask 51 12 else bitMask 51 12) v

def portCtl (p : Nat) : Nat := semBlock + 0x800 + 16 * p
/-- A port that was frozen takes requests again, and what was held for it is sent. -/
def State.thawPort (s : State) (p : Nat) : State :=
  { s with
    hosts := SMap.set s.hosts p { s.hostPort p with frz := false, addr := 0, at_ := 0 }
    out := s.out.map (fun o => match o with
      | .irq q fn vec held => .irq q fn vec (held && q != p)
      | x => x) }
/-- A write of unfrz from the other port. -/
def State.unfreeze (s : State) (port target : Nat) : State := if port != target && (s.hostPort target).frz then s.thawPort target else s
/-- PORT_UNFREEZE. -/
def execPortUnfreeze (port target : Nat) (s : State) : Host.Outcome State Fault Refusal :=
  if target < 2 then .next (s.writeBy (.pf port) (portCtl target) (fun st => st.unfreeze port target)) else .next s

/-! ## Device time (R402) -/

/-- Writes of adj and freq by a host are ignored while the 1588 clock is in the slave state. -/
def State.slaved (s : State) (who : Who) : Bool := (Who.port who).isSome && s.ptp == 9 && (s.rd ptpReg).getLsbD 0
/-- The dl layout: only whole nanoseconds below a second are a time. -/
def State.setTime (s : State) (v : Word64) : State :=
  if s.clock.tvalid || bits64 v 31 0 > 999999999 then s
  else
    let secs := bits64 (s.reg (timeBlock + 0x28)) 15 0 * 2 ^ 32 + bits64 v 63 32
    { s with clock := { s.clock with t := (secs * 1000000000 + bits64 v 31 0) * 65536, tvalid := true } }
/-- TIME_ADJUST. -/
def execTimeAdjust (who : Who) (v : BitVec 64) (s : State) : Host.Outcome State Fault Refusal :=
  .next (s.writeBy who (timeBlock + 0x10) (fun st => if st.slaved who then st else st.adjustTime (toSigned 32 (bits64 v 31 0))))
/-- TIME_SET. -/
def execTimeSet (who : Who) (v : BitVec 64) (s : State) : Host.Outcome State Fault Refusal :=
  .next (s.writeBy who (timeBlock + 0x20) (fun st => st.setTime v))
/-- TIME_SLEW_END: the offset is used up. -/
def execTimeSlewEnd (s : State) : Host.Outcome State Fault Refusal :=
  if s.clock.slewOn && s.clock.slew = 0 then .next { s with clock := { s.clock with slewOn := false } } else .next s
/-- A read of the nanoseconds latches the whole time. -/
def State.latchTime (s : State) : State :=
  { s with clock := { s.clock with latch := BitVec.ofNat 32 (timeSec s.clock.t / 2 ^ 32 + 2 ^ 16 * timeFrac s.clock.t) } }
/-- DEVICE_TIME_LATCH_READ. -/
def execDeviceTimeLatchRead (who : Who) (s : State) : Host.Outcome State Fault Refusal :=
  .next (if s.mayRead who timeBlock then s.latchTime else s)

/-! ## Counters (R409, R411, R413, R415) -/

/-- A control word with an overflow bit that a 1 clears. -/
def State.w1cWrite (s : State) (a : Nat) (mask : Word64) (bit : Nat) (v : Word64) : State :=
  let s1 := s.setBits a mask v
  if v.getLsbD bit then { s1.setBits a (bitMask bit bit) 0 with wrote := SMap.set s.wrote a (s.cycle, (s.reg a).getLsbD bit) } else s1
/-- A counter's value is replaced, and what the cycle has counted is not added (R411, R413). -/
def State.valueWrite (s : State) (a : Nat) (v : Word64) : State :=
  { s.setBits a (bitMask 47 0) v with wrote := SMap.set s.wrote a (s.cycle, false), wrapped := NSet.del s.wrapped (a - 8) }
/-- COUNTER_VALUE_WRITE. -/
def execCounterValueWrite (who : Who) (core n : Nat) (v : BitVec 64) (s : State) : Host.Outcome State Fault Refusal :=
  let a := counterBlock core + 16 * n + 8
  if core < 256 && n < 8 then .next (s.writeBy who a (fun st => st.valueWrite a v)) else .next s
def State.ginghamWrite (s : State) (core : Nat) (v : Word64) : State :=
  let s1 := s.setBits (counterBlock core + 0x80) (bitMask 10 0) v
  if v.getLsbD 11 then s1.modCore core (fun c => { c with gingham := [] }) else s1
/-- GINGHAM_CLEAR. -/
def execGinghamClear (who : Who) (core : Nat) (v : BitVec 64) (s : State) : Host.Outcome State Fault Refusal :=
  if core < 256 then .next (s.writeBy who (counterBlock core + 0x80) (fun st => st.ginghamWrite core v)) else .next s

/-! ## Debug stop: its registers (R418, R421) -/

/-- A write of the stop word: the decoders, a request to stop, and the release, which comes at the next cycle (R419). A request while a stop is in
force, or for no decoder, is ignored; one while another waits for its cycle adds its decoders to that. -/
def State.stopWrite (s : State) (core : Nat) (v : Word64) : State :=
  let c := s.core core
  let a := counterBlock core + 0x900
  let dec := bits64 v 1 0
  if v.getLsbD 2 && (c.stopped || dec = 0) then s
  else
    let s1 := s.setBits a 3 v
    let s2 := if v.getLsbD 2 then
        s1.modCore core (fun c => { c with stop := some (c.stop.getD (s.cycle + 64)), stopDec := if c.stop.isSome then Nat.lor c.stopDec dec else dec })
      else s1
    if v.getLsbD 3 && c.stopped then s2.modCore core (fun c => { c with go := true }) else s2

/-- The stopped gang that dbsel names, with file, index and strand. -/
def State.dbGang (s : State) (core : Nat) : Option (Gang × Nat × Nat × Nat) :=
  let w := s.reg (counterBlock core + 0x910)
  if !(s.core core).stopped then none
  else (s.gangs.find? (fun g => g.inSlot && g.gcore == core && g.slot == bits64 w 3 0 && g.iss.stopped)).map (fun g => (g, bits64 w 7 4, bits64 w 15 8, bits64 w 20 16))

/-- The register that dbsel names, if the gang has it; p15 of a strand reads true and discards writes (R24). -/
def dbDst (g : Gang) (file ix who : Nat) : Option Dst :=
  let v := g.ctl.vliw
  match file with
  | 0 => if (if v then who < 16 else ix < 128) then some (vDst v who ix) else none
  | 1 => if ix < 64 then some (.s ix) else none
  | 2 => if (if v then ix < 8 && who < 16 else ix < 16) then some (.p (if v then 2 * who else who) ix) else none
  | 3 => if ix < 8 then some (.b ix) else none
  | _ => none
def trapWord (t : TrapRec) : Nat → Word64
  | 0 => t.tinfo | 1 => t.tpc | 2 => t.tiaddr | 3 => t.taddr | 4 => t.tmask.setWidth 64 | _ => t.tact.setWidth 64
def setTrapWord (t : TrapRec) (ix : Nat) (v : Word64) : TrapRec :=
  match ix with
  | 0 => { t with tinfo := v &&& ~~~(bitMask 31 17 ||| bitMask 63 53) }
  | 1 => { t with tpc := v }
  | 2 => { t with tiaddr := v }
  | 3 => { t with taddr := v }
  | 4 => { t with tmask := v.setWidth 32 }
  | _ => { t with tact := v.setWidth 32 }
/-- What a read of dbdata returns. -/
def State.dbRead (s : State) (core : Nat) : Word64 :=
  match s.dbGang core with
  | none => 0
  | some (g, file, ix, who) =>
    if file = 4 && ix < 6 then trapWord g.ctl.trap ix
    else match dbDst g file ix who with
      | some (.v st r) => (g.regs.v.get (128 * st + r)).setWidth 64
      | some (.s r) => g.regs.s.get r
      | some (.p st r) => if (r = 15 && !g.ctl.vliw) || (SMap.get g.ctl.p r 0).getLsbD st then 1 else 0
      | some (.b r) => (SMap.get g.ctl.b r 0).setWidth 64
      | _ => 0
def State.dbWrite (s : State) (core : Nat) (v : Word64) : State :=
  let err (b : Bool) (st : State) : State := st.modCore core (fun c => { c with dberr := b })
  match s.dbGang core with
  | none => err true s
  | some (g, file, ix, who) =>
    if file = 4 && ix < 6 then err false (s.modCtl g.uid (fun c => { c with trap := setTrapWord c.trap ix v }))
    else match dbDst g file ix who with
      | some d => err false (if !g.ctl.vliw && file = 2 && ix = 15 then s else s.modGang g.uid (fun g => g.put { dst := d, val := v }))
      | none => err true s
/-- DEBUG_STOP. -/
def execDebugStop (who : Who) (core : Nat) (v : BitVec 64) (s : State) : Host.Outcome State Fault Refusal :=
  if core < 256 then .next (s.writeBy who (counterBlock core + 0x900) (fun st => st.stopWrite core v)) else .next s
/-- DEBUG_GO. -/
def execDebugGo (who : Who) (core : Nat) (v : BitVec 64) (s : State) : Host.Outcome State Fault Refusal :=
  if core < 256 then .next (s.writeBy who (counterBlock core + 0x900) (fun st => st.stopWrite core v)) else .next s
/-- DEBUG_DATA_WRITE. -/
def execDebugDataWrite (who : Who) (core : Nat) (v : BitVec 64) (s : State) : Host.Outcome State Fault Refusal :=
  if core < 256 then .next (s.writeBy who (counterBlock core + 0x918) (fun st => st.dbWrite core v)) else .next s

/-! ## A write of the register space (R7, R8) -/

/-- A block of equal parts: the part that an address lies in, and the offset within it. -/
def inBlock (a base n size : Nat) : Option (Nat × Nat) :=
  if base ≤ a && a < base + n * size then some ((a - base) / size, (a - base) % size) else none

def State.schedWrite (s : State) (core off : Nat) (v : Word64) : State :=
  if off = 0 then (if bits64 v 2 0 ≤ 4 then s.setBits (schedBlock core) 7 v else s)
  else if 0x10 ≤ off && off < 0x30 && off % 4 = 0 then s.pinWrite core ((off - 0x10) / 4) v
  else s

def State.queueWrite (s : State) (who : Who) (q off : Nat) (v : Word64) : State :=
  let a := queueBlock q + off
  match off with
  | 0x00 => s.setBits a (bitMask 51 12) v
  | 0x08 => s.queueControl who q v
  | 0x10 => s.ring who q v
  | 0x20 => s.setBits a (bitMask 51 6) v
  | 0x28 => s.setBits a (bitMask 3 0) v
  | 0x38 => s.setBits a (bitMask 35 0) v
  | _ => s

/-- The fields of a context block; most of them only while the context is not live. -/
def State.ctxBlockWrite (s : State) (who : Who) (c off : Nat) (v : Word64) : State :=
  let a := ctxBlock c + off
  let quiet (m : Word64) : State := if (s.ctx c).live then s else s.setBits a m v
  match off with
  | 0x00 => quiet (bitMask 51 21)
  | 0x08 => quiet (bitMask 51 6)
  | 0x10 => quiet (bitMask 31 0)
  | 0x28 => s.ctxWrite who c v
  | 0x30 => quiet (bitMask 51 11)
  | 0x38 => quiet (bitMask 51 6)
  | 0x40 => quiet (bitMask 3 0)
  | 0x48 => s.setBits a (bitMask 63 32) v
  | 0x50 => s.retireWrite c v
  | 0x58 => quiet (bitMask 51 6)
  | 0x60 => s.setBits a (if (s.ctx c).live then bitMask 15 4 else bitMask 15 0) v
  | 0x68 => s.setBits a (bitMask 63 32) v
  | 0x78 => s.hostShoot c v
  | _ => s

def State.yieldBlockWrite (s : State) (c off : Nat) (v : Word64) : State :=
  if (s.ctx c).live then s
  else match off with
    | 0 => s.setBits (yieldBlock c) (bitMask 51 12) v
    | 8 => s.setBits (yieldBlock c + 8) (bitMask 23 0) v
    | _ => s

def State.semBlockWrite (s : State) (who : Who) (off : Nat) (v : Word64) : State :=
  if off < 0x200 && off % 8 = 0 then (match Who.port who with | some p => s.semWrite p (off / 8) v | none => s)
  else if 0x400 ≤ off && off < 0x800 && off % 8 = 0 then s.guardWrite who ((off - 0x400) / 16) ((off - 0x400) % 16 / 8) v
  else match off, Who.port who with
    | 0x800, some p => if v.getLsbD 1 then s.unfreeze p 0 else s
    | 0x810, some p => if v.getLsbD 1 then s.unfreeze p 1 else s
    | 0x808, _ => s.setBits (semBlock + 0x808) (bitMask 39 30) v
    | 0x818, _ => s.setBits (semBlock + 0x818) (bitMask 39 30) v
    | _, _ => s

def State.portBlockWrite (s : State) (pp off : Nat) (v : Word64) : State :=
  if off = 0 then s.portControl pp v
  else if 0x100 ≤ off && off < 0x200 && off % 8 = 0 then s.filterWrite pp ((off - 0x100) / 0x20) ((off - 0x100) % 0x20 / 8) v
  else s

def State.timeWrite (s : State) (who : Who) (off : Nat) (v : Word64) : State :=
  match off with
  | 0x10 => if s.slaved who then s else s.adjustTime (toSigned 32 (bits64 v 31 0))
  | 0x18 => if s.slaved who then s else s.setFreq v
  | 0x20 => s.setTime v
  | 0x28 => s.setBits (timeBlock + 0x28) (bitMask 15 0) v
  | 0x40 =>
    let m := bitMask 3 0 ||| bitMask 16 6 ||| bitMask 39 24 ||| (if bits64 v 5 4 = 3 then 0 else bitMask 5 4)
    s.setReg ptpReg ((s.rd ptpReg &&& ~~~(m &&& ~~~bitMask 7 7)) ||| (v &&& (m &&& ~~~bitMask 7 7)))
  | _ => s

/-- Fabric windows and exports, which only firmware writes (R406). -/
def State.fabricWrite (s : State) (off : Nat) (v : Word64) : State :=
  match inBlock off 0x1000 4096 8, inBlock off 0x9000 2048 8 with
  | some (k, 0), _ => { s with windows := SMap.set s.windows k (v &&& (if k % 2 = 0 then bitMask 22 0 ||| bitMask 47 32 else bitMask 9 0)) }
  | _, some (k, 0) => { s with exports := SMap.set s.exports k (v &&& (if k % 2 = 0 then bitMask 39 0 ||| bitMask 63 63 else bitMask 39 16)) }
  | _, _ => if off = 0 then { s with boot := { s.boot with node := v.setWidth 18 } } else s

def State.counterBlockWrite (s : State) (core off : Nat) (v : Word64) : State :=
  let a := counterBlock core + off
  if off % 8 != 0 then s
  else if off < 0x80 then
    (if off % 16 = 0 then s.w1cWrite a (bitMask 19 0 ||| bitMask 36 21) 20 v else s.valueWrite a v)
  else if 0x100 ≤ off && off < 0x300 then s.setBits a (if off % 16 = 0 then bitMask 0 0 ||| bitMask 55 3 else bitMask 55 3) v
  else match off with
    | 0x80 => s.ginghamWrite core v
    | 0x900 => s.stopWrite core v
    | 0x908 => s.setBits a (bitMask 51 6) v
    | 0x910 => s.setBits a (if 4 < bits64 v 7 4 then bitMask 3 0 ||| bitMask 20 8 else bitMask 20 0) v
    | 0x918 => s.dbWrite core v
    | _ => s

def State.sliceBlockWrite (s : State) (h off : Nat) (v : Word64) : State :=
  let a := sliceBlock h + off
  if 0x40 ≤ off then s
  else match off % 16 with
    | 0 => s.w1cWrite a (bitMask 24 0) 25 v
    | 8 => s.valueWrite a v
    | _ => s

def State.muslinWrite (s : State) (c off : Nat) (v : Word64) : State :=
  let a := muslinBlock c + off
  if (s.ctx c).live then s
  else match off with
    | 0x00 => if bits64 v 1 0 = 3 then s else s.setBits a 3 v
    | 0x08 => s.setBits a (bitMask 51 6) v
    | 0x10 => s.setBits a (bitMask 31 0) v
    | _ => s

def State.attestWrite (s : State) (who : Who) (off : Nat) (v : Word64) : State :=
  if off = 0 then s.attestGo who v
  else if 8 ≤ off && off < 0x28 && off % 8 = 0 then s.setReg (attestBlock + off) v
  else s

/-- A register is written by a party that reaches it. -/
def State.write (s : State) (who : Who) (a : Nat) (v : Word64) : State :=
  if (mcOf a).isSome then s.mcWrite a v
  else match inBlock a (tenantReg 0) 64 8 with
  | some (t, off) => if off = 0 then s.tenantWrite t v else s
  | none => match inBlock a (worldBlock 0) 64 16 with
  | some (x, off) => if off = 0 then s.sliceWrite x v else s
  | none => match inBlock a (schedBlock 0) 256 64 with
  | some (c, off) => s.schedWrite c off v
  | none => match inBlock a (queueBlock 0) 1024 0x40 with
  | some (q, off) => s.queueWrite who q off v
  | none => match inBlock a (ctxBlock 0) 1024 0x80 with
  | some (c, off) => s.ctxBlockWrite who c off v
  | none => match inBlock a (yieldBlock 0) 1024 0x10 with
  | some (c, off) => s.yieldBlockWrite c off v
  | none => match inBlock a assignBlock 0x2000 1 with
  | some (off, _) => if off % 4 = 0 then s.assignWrite off v else s
  | none => match inBlock a semBlock 0x1000 1 with
  | some (off, _) => s.semBlockWrite who off v
  | none => match inBlock a (portBlock 0) 2 0x1000 with
  | some (pp, off) => s.portBlockWrite pp off v
  | none => match inBlock a timeBlock 0x100 1 with
  | some (off, _) => s.timeWrite who off v
  | none => match inBlock a fabricBlock 0xE000 1 with
  | some (off, _) => s.fabricWrite off v
  | none => match inBlock a (counterBlock 0) 256 0x1000 with
  | some (c, off) => s.counterBlockWrite c off v
  | none => match inBlock a (sliceBlock 0) 256 0x100 with
  | some (h, off) => s.sliceBlockWrite h off v
  | none => match inBlock a (muslinBlock 0) 1024 0x40 with
  | some (c, off) => s.muslinWrite c off v
  | none => match inBlock a attestBlock 0x1000 1 with
  | some (off, _) => s.attestWrite who off v
  | none =>
    if a = powerBlock then (if 600 ≤ bits64 v 10 0 && bits64 v 10 0 ≤ 1500 then s.setReg a (BitVec.ofNat 64 (bits64 v 10 0)) else s)
    else if a = bootBlock + 0x10 then s.setBits a (bitMask 31 0) v
    else s

/-- A write that reaches the device: in recovery only the recovery window takes any (R430). -/
def State.arrive (s : State) (who : Who) (a : Nat) (v : Word64) : State :=
  if s.boot.recov then (match who with | .pf p => if p < 2 && !s.power.tripped then s.recoveryWrite a v else s | _ => s)
  else s.writeBy who a (fun st => (st.write who a v).pump)
/-- REGISTER_WRITE. -/
def execRegisterWrite (who : Who) (addr : Nat) (v : BitVec 64) (s : State) : Host.Outcome State Fault Refusal := .next (s.arrive who addr v)

/-! ## What the registers read as -/

/-- state, ecode and epkt of a queue (R358). -/
def State.queueState (s : State) (q : Nat) : Nat :=
  let x := s.queue q
  if x.error then 3 + 4 * x.ecode + 2 ^ 32 * x.epkt.toNat
  else if x.wait.isSome then 2
  else if s.qPending q then 1 else 0

def State.queueRead (s : State) (q off : Nat) : Word64 :=
  match off with
  | 0x18 => (s.queue q).rptr.setWidth 64
  | 0x28 => s.reg (queueBlock q + off) ||| ((s.queue q).cwptr.setWidth 64 <<< 32)
  | 0x30 => BitVec.ofNat 64 (s.queueState q)
  | _ => s.reg (queueBlock q + off)

def State.ctxBlockRead (s : State) (c off : Nat) : Word64 :=
  let x := s.ctx c
  let w := s.reg (ctxBlock c + off)
  match off with
  | 0x18 => BitVec.ofNat 64 x.ibpool
  | 0x20 => BitVec.ofNat 64 x.tbpool
  | 0x28 => w ||| (if x.err then 0x100 else 0)
  | 0x48 => w ||| x.fqwptr.setWidth 64
  | 0x68 => w ||| x.elwptr.setWidth 64
  | 0x70 => x.loss.setWidth 64 ||| (if s.sdbusy c then 0x10000 else 0)
  | _ => w

/-- The device-time block (R402, R404). -/
def State.timeRead (s : State) (off : Nat) : Word64 :=
  match off with
  | 0x00 => timeDl s.clock.t
  | 0x08 => s.clock.latch.setWidth 64
  | 0x28 => s.reg (timeBlock + 0x28) ||| (if s.clock.tvalid then 0x10000 else 0)
  | 0x40 => (s.rd ptpReg &&& ~~~bitMask 23 20) ||| (s.ptp.setWidth 64 <<< 20)
  | _ => s.rd (timeBlock + off)

def State.portRead (s : State) (pp off : Nat) : Word64 :=
  let p := s.port pp
  let f := (off - 0x100) / 0x20
  match off with
  | 0x00 => s.reg (portBlock pp) ||| (p.up.setWidth 64 <<< 4)
  | 0x08 => BitVec.ofNat 64 (p.unmatched + 2 ^ 32 * p.full)
  | 0x10 => BitVec.ofNat 64 (p.long + 2 ^ 32 * p.nospawn)
  | _ =>
    if 0x100 ≤ off && off < 0x200 && off % 0x20 = 0x18 then BitVec.ofNat 64 (s.filterCur pp f)
    else s.reg (portBlock pp + off) ||| (if 0x100 ≤ off && off % 0x20 = 0 && NSet.has p.ferr f then bitMask 35 35 else 0)

def State.counterRead (s : State) (core off : Nat) : Word64 :=
  let c := s.core core
  if off = 0x900 then s.reg (counterBlock core + off) ||| (if c.stopped then 16 else 0) ||| (if c.dberr then 32 else 0)
  else if off = 0x918 then s.dbRead core
  else if 0x400 ≤ off && off < 0x900 then BitVec.ofNat 64 (SMap.get c.gingham ((off - 0x400) / 8) 0)
  else s.reg (counterBlock core + off) ||| (if off < 0x80 then s.ovfNow (counterBlock core + off) 20 else 0)

/-- The fabric block (R405, R406, R414). -/
def State.fabricRead (s : State) (off : Nat) : Word64 :=
  if off = 0 then s.boot.node.setWidth 64
  else if 0x1000 ≤ off && off < 0x9000 then SMap.get s.windows ((off - 0x1000) / 8) 0
  else if 0x9000 ≤ off && off < 0xD000 then SMap.get s.exports ((off - 0x9000) / 8) 0
  else if 0xE000 ≤ off && off < 0xE180 then
    let port := (off - 0xE000) / 32
    BitVec.ofNat 64 (if off % 32 = 24 then SMap.get s.links port 0 else SMap.get s.flits (3 * port + off % 32 / 8) 0)
  else 0

def State.bootRead (s : State) (off : Nat) : Word64 :=
  let b := s.boot
  match off with
  | 0x00 => BitVec.ofNat 64 ((if b.ready then 1 else 0) + (if b.recov then 2 else 0) + 4 * b.slot + 16 * b.fail + 2 ^ 16 * b.fwver.toNat + 2 ^ 48 * b.floor.toNat)
  | 0x08 => Config.fusedEui.setWidth 64
  | 0x10 => s.reg (bootBlock + 0x10)
  | _ => 0
def State.attestRead (s : State) (off : Nat) : Word64 :=
  if off = 0 then (if s.boot.busy then 8 else 0)
  else if 0x100 ≤ off && off < 0x300 then BitVec.ofNat 64 (leNat ((s.boot.report.drop (off - 0x100)).take 8))
  else if 8 ≤ off && off < 0x28 then s.reg (attestBlock + off) else Config.identity off
def State.powerRead (s : State) (off : Nat) : Word64 :=
  let p := s.power
  match off with
  | 0x00 => s.rd powerBlock ||| BitVec.ofNat 64 (2 ^ 16 * (p.pwr % 2048))
  | 0x08 => BitVec.ofNat 64 (p.step + (if p.rpwr then 256 else 0) + (if p.rtemp then 512 else 0) + (if p.rcool then 1024 else 0))
  | 0x10 => BitVec.ofNat 64 p.thr
  | 0x18 => BitVec.ofNat 64 (p.tj % 256)
  | _ => 0

/-- The value that a read of a register returns; a read that changes something is an event of its own. -/
def State.read (s : State) (a : Nat) : Word64 :=
  match inBlock a (tenantReg 0) 64 8 with
  | some (t, _) => s.tenantValue t
  | none => match inBlock a (worldBlock 0) 64 16 with
  | some (x, off) =>
    if off = 0 then s.rd a ||| BitVec.ofNat 64 (2 ^ 32 * s.meas x)
    else
      let eff := SMap.get s.worlds.eff x 1000000
      BitVec.ofNat 64 (eff + (if eff > s.sliceOf x then 2 ^ 32 else 0))
  | none => match inBlock a (schedBlock 0) 256 64 with
  | some (c, off) => if off = 0 then s.schctl c else s.reg a
  | none => match inBlock a (queueBlock 0) 1024 0x40 with
  | some (q, off) => s.queueRead q off
  | none => match inBlock a (ctxBlock 0) 1024 0x80 with
  | some (c, off) => s.ctxBlockRead c off
  | none => match inBlock a (yieldBlock 0) 1024 0x10 with
  | some (c, off) => s.reg a ||| (if off = 8 && (s.ctx c).live then BitVec.ofNat 64 (2 ^ 24 * (s.yieldCount c - (s.ctx c).yused.length)) else 0)
  | none => match inBlock a assignBlock 0x2000 1 with
  | some (off, _) => s.reg a ||| (if NSet.has s.asgErr off then 128 else 0)
  | none => match inBlock a semBlock 0x1000 1 with
  | some (off, _) =>
    if off < 0x200 then BitVec.ofNat 64 (s.semOwner (off / 8))
    else if off = 0x800 || off = 0x810 then
      let h := s.hostPort ((off - 0x800) / 16)
      BitVec.ofNat 64 ((if h.frz then 1 else 0) + 4096 * h.addr)
    else s.reg a
  | none => match inBlock a (portBlock 0) 2 0x1000 with
  | some (pp, off) => s.portRead pp off
  | none => match inBlock a timeBlock 0x100 1 with
  | some (off, _) => s.timeRead off
  | none => match inBlock a fabricBlock 0xF000 1 with
  | some (off, _) => s.fabricRead off
  | none => match inBlock a (counterBlock 0) 256 0x1000 with
  | some (c, off) => s.counterRead c off
  | none => match inBlock a (sliceBlock 0) 256 0x100 with
  | some _ => s.reg a ||| s.ovfNow a 25
  | none => match inBlock a (muslinBlock 0) 1024 0x40 with
  | some (c, off) => (match off with
    | 0x18 => BitVec.ofNat 64 (s.ctx c).lptr
    | 0x20 => BitVec.ofNat 64 (s.ctx c).mst
    | 0x28 => BitVec.ofNat 64 (s.ctx c).dvptr
    | _ => s.reg a)
  | none => match inBlock a bootBlock 0x20 1 with
  | some (off, _) => s.bootRead off
  | none => match inBlock a attestBlock 0x1000 1 with
  | some (off, _) => s.attestRead off
  | none => match inBlock a powerBlock 0x20 1 with
  | some (off, _) => s.powerRead off
  | none => s.rd a

/-! ## Host writes (R391, R393, R396) -/

/-- The i-th queue or context given to a virtual function. -/
def State.nthGiven (s : State) (base : Nat) (fn : Nat × Nat) (i : Nat) : Option Nat :=
  ((List.range 1024).filter (fun k => s.assigned (base + 4 * k) == fn))[i]?

/-- The register that an offset of a function's BAR0 names. -/
def State.bar0 (s : State) (port fn off : Nat) : Option Nat :=
  if fn = 0 then (if off < 2 ^ 32 then some (devBase + off) else none)
  else if off < 0x8000 then (s.nthGiven 0 (fn, port) (off / 0x40)).map (fun q => queueBlock q + off % 0x40)
  else if off < 0xF000 then (s.nthGiven 0x1000 (fn, port) ((off - 0x8000) / 0x80)).map (fun c => ctxBlock c + (off - 0x8000) % 0x80)
  else none
/-- What a read of a virtual function's BAR0 returns. -/
def State.vfRead (s : State) (port fn off : Nat) : Word64 :=
  if 0xF000 ≤ off && off < 0xF010 then s.read (worldBlock (32 * port + fn - 1) + (off - 0xF000))
  else if 0xF300 ≤ off && off < 0xF600 then s.read (attestBlock + (off - 0xF300))
  else match s.bar0 port fn off with
    | some a => s.read a
    | none => 0

/-- Does a page of a context lie at a physical address? A walk over its tables, on the levels left. -/
def State.mapsFrom (s : State) (pa : Nat) : Nat → Nat → Bool
  | 0, _ => false
  | k + 1, t =>
    (List.range (if k = 4 then 256 else 512)).any (fun i =>
      let w := (s.tableWord (t + 8 * i)).1
      if !w.getLsbD 0 then false
      else if w.getLsbD 1 then
        let base := bits64 w 51 12 * 4096
        base ≤ pa && pa < base + pageBytes (bits64 w 5 2)
      else State.mapsFrom s pa k (bits64 w 51 12 * 4096))
def State.mapsPage (s : State) (ctx pa : Nat) : Bool := s.mapsFrom pa 5 (bits64 (s.reg (ctxBlock ctx + 0x30)) 51 11 * 2048)

/-- A host write to main memory: through the HOST path, logged for the contexts that record (R424); the pages of a context in a replay take
none (R425). -/
def State.hostStore (s : State) (pa : Nat) (data : List Byte) : State :=
  let owners := (s.ctxs.map Prod.fst).filter (fun c => s.muslinMode c != 0 && s.mapsPage c pa)
  if owners.any (fun c => s.replaying c) then s
  else (owners.foldl (fun st c => st.muslin c 3 [pa, data.length] data) s).pathWrite .host s.next pa data

/-- The address in main memory that an offset of a physical function's BAR2 names: its base is aligned to its size (R395). -/
def State.bar2 (s : State) (port off : Nat) : Nat :=
  let size := 2 ^ (s.hostPort port).bar2
  bits64 (s.reg (semBlock + 0x808 + 16 * port)) 39 30 * 2 ^ 30 / size * size + off
/-- A range of BAR2 lies within its size. -/
def State.inBar2 (s : State) (port off n : Nat) : Bool := n != 0 && off + n ≤ 2 ^ (s.hostPort port).bar2
/-- A host reads main memory through the HOST path (R116); the reads count at their home slices. Reads never freeze a port (R396). -/
def State.hostLoad (s : State) (port pa n : Nat) : State :=
  let s1 := (List.range ((pa + n + 63) / 64 - pa / 64)).foldl (fun (st : State) i => st.touch2 (pa / 64 * 64 + 64 * i) {}) s
  { s1 with out := s1.out ++ [.hostRead port pa ((List.range n).map (fun i => (s1.pathByte .host (pa + i)).1))] }

/-- What a read of a register changes (R113, R399, R402, R436). -/
def State.readEffect (s : State) (a : Nat) : State :=
  if a = timeBlock then s.latchTime
  else if a = powerBlock + 0x10 then { s with power := { s.power with thr := 0 } }
  else match inBlock a (tenantReg 0) 64 8 with
  | some (t, _) => s.tenantRead t
  | none => match inBlock a (portBlock 0) 2 0x1000 with
  | some (pp, off) => s.portCounters pp off
  | none => s
/-- A host reads a register word through a function's BAR0. -/
def State.bar0Load (s : State) (port fn off : Nat) : State :=
  let a := (s.bar0 port fn off).getD 0
  if !s.portReads port a then s
  else
    let who : Who := if fn = 0 then .pf port else .vf port fn
    let v := if fn = 0 then s.read a else s.vfRead port fn off
    let s1 := if s.reaches who a then s.readEffect a else s
    { s1 with out := s1.out ++ [.hostRead port a (leBytes 8 v.toNat)] }

/-- A function's MSI-X vector is masked, or unmasked: what is pending is sent then (R394). -/
def State.maskVector (s : State) (port fn vec : Nat) (mask : Bool) : State :=
  let h := s.hostPort port
  let k := 2048 * fn + vec
  if 32 < fn || (if fn = 0 then 2048 else 64) ≤ vec then s
  else if mask then { s with hosts := SMap.set s.hosts port { h with opened := NSet.del h.opened k } }
  else
    { s with
      hosts := SMap.set s.hosts port { h with opened := NSet.add h.opened k, pending := NSet.del h.pending k }
      out := if NSet.has h.pending k then s.out ++ [.irq port fn vec false] else s.out }
/-- The Completer Abort of a request at a frozen port (R396, R397). -/
def State.abortHost (s : State) (port : Nat) : State := { s with out := s.out ++ [.abort port] }

/-- Requests that are answered; every other one is posted. -/
def nonPosted (req : HostReq) : Bool :=
  match req with
  | .barSize _ => true
  | .bar0Read .. => true
  | .bar2Read .. => true
  | _ => false

/-- HOST_WRITE: a request of a host. A write carries at most 512 bytes, a read asks for at most 4 KiB (R391). At a frozen port one that is answered
ends with Completer Abort, and the others are discarded (R396). Configuration requests are taken before the device has come up (R430). -/
def execHostWrite (port : Nat) (req : HostReq) (s : State) : Host.Outcome State Fault Refusal :=
  if 2 ≤ port || s.power.tripped then .next s
  else if (s.hostPort port).frz then .next (if nonPosted req then s.abortHost port else s)
  else match req with
  | .barSize k => .next (if 30 ≤ k && k ≤ 40 then { s with hosts := SMap.set s.hosts port { s.hostPort port with bar2 := k } } else s)
  | .msix fn vec mask => .next (if s.portOpen port then s.maskVector port fn vec mask else s)
  | .bar0Read fn off => .next (if fn ≤ 32 && off % 8 = 0 then s.bar0Load port fn off else s)
  | .bar0 fn off v =>
    let who : Who := if fn = 0 then .pf port else .vf port fn
    match s.bar0 port fn off with
    | some a => .next (s.arrive who a v)
    | none => .next s
  | .bar2 off data =>
    let pa := s.bar2 port off
    if !s.portOpen port || !s.inBar2 port off data.length || 512 < data.length || 2 ^ 40 < pa + data.length then .next s
    else if s.guarded port pa then .next (s.freezePort port pa)
    else if s.guarded port (pa + data.length - 1) then .next (s.freezePort port (pa + data.length - 1))
    else .next (s.hostStore pa data).pump
  | .bar2Read off n =>
    let pa := s.bar2 port off
    if !s.portOpen port || !s.inBar2 port off n || 4096 < n || 2 ^ 40 < pa + n then .next s else .next (s.hostLoad port pa n)

/-! ## Function-level reset (R397) -/

/-- A virtual function is reset: its contexts are destroyed, and its blocks hold their reset values. -/
def State.resetVf (s : State) (port fn : Nat) : State :=
  let mine (base : Nat) : List Nat := (List.range 1024).filter (fun k => s.assigned (base + 4 * k) == (fn, port))
  let ctxs := mine 0x1000
  let queues := mine 0
  let s1 := ctxs.foldl (fun st c => if (st.ctx c).live then st.destroyCtx c else st) s
  let gone (a : Nat) : Bool :=
    queues.any (fun q => queueBlock q ≤ a && a < queueBlock q + 0x40) || ctxs.any (fun c => ctxBlock c ≤ a && a < ctxBlock c + 0x80)
  let s2 : State := { s1 with
    dev := s1.dev.filter (fun (x : Nat × Word64) => !gone x.1)
    ctxs := s1.ctxs.filter (fun (x : Nat × Ctx) => !ctxs.contains x.1)
    queues := s1.queues.filter (fun (x : Nat × Queue) => !queues.contains x.1)
    percale := { s1.percale with resident := s1.percale.resident.filter (fun q => !queues.contains q)
                                 took := s1.percale.took.filter (fun q => !queues.contains q)
                                 pass := s1.percale.pass.filter (fun (x : Nat × List Byte) => !queues.contains x.1) } }
  if s2.percale.busy && s2.percale.pass.isEmpty then s2.endPass else s2

/-- The MSI-X vectors of a reset function are masked, and none is pending. -/
def HostPort.closeFn (h : HostPort) (fn : Nat) : HostPort :=
  { h with opened := h.opened.filter (fun k => k / 2048 != fn), pending := h.pending.filter (fun k => k / 2048 != fn) }

/-- FUNCTION_LEVEL_RESET. That of a frozen port's physical function counts only from 100 ms after the freeze on; before, and for a virtual function of a
frozen port, the request ends with Completer Abort (R396, R397). -/
def execFunctionLevelReset (port fn : Nat) (s : State) : Host.Outcome State Fault Refusal :=
  let h := s.hostPort port
  if 2 ≤ port || 32 < fn || s.power.tripped then .next s
  else if fn != 0 then
    .next (if h.frz then s.abortHost port
      else ({ s with hosts := SMap.set s.hosts port (h.closeFn fn) } : State).resetVf port fn |>.pump)
  else if h.frz && s.clock.el < h.at_ + 100000000 * 65536 then .next (s.abortHost port)
  else
    let s0 : State := { s with hosts := SMap.set s.hosts port { frz := h.frz, addr := h.addr, at_ := h.at_ } }
    let s1 := (List.range 32).foldl (fun st i => st.resetVf port (i + 1)) s0
    let free : State := if h.frz then
        { s1 with
          hosts := SMap.set s1.hosts port {}
          sems := s1.sems.filter (fun (x : Nat × Nat) => x.2 != port + 1)
          out := s1.out.filter (fun o => match o with | .irq p _ _ held => !(held && p == port) | _ => true) }
      else s1
    .next free.pump

end Sys2Proof.Machine
end

