-- ==== Sys2Proof/Machine/Debug.lean ====
section
/-! DEFINITION. The effect of a debug stop with its dump (R419, R420, R345), and the inputs that a Muslin replay takes from its log
(R425). -/

namespace Sys2Proof.Machine

/-! ## Debug stop (R419) -/

/-- A gang is under a stop's decoders. -/
def underStop (dec : Nat) (g : Gang) : Bool := if g.ctl.vliw then dec.testBit 1 else dec.testBit 0

/-- One pending write as the dump lists it: file, index, the strand or cluster, the bound. -/
structure Pending where
  file  : Nat
  index : Nat
  bit   : Option Nat
  bound : Nat
  deriving DecidableEq, Repr

/-- File and index of a destination, as dbsel codes them; others have no code. -/
def dumpDst (vliw : Bool) : Dst → Option (Nat × Nat × Option Nat)
  | .v st r => some (0, if vliw then r + 128 * (st % 2) else r, some (if vliw then st / 2 else st))
  | .s r => some (1, r, none)
  | .p st r => some (2, r, some (if vliw then st / 2 else st))
  | .b r => some (3, r, none)
  | .h r => some (5, r, none)
  | _ => none

/-- An access to scratchpad is bounded by nothing if it is decoupled or goes to another core. -/
def Flight.offCore (f : Flight) : Bool := f.post != .none || f.parts.any (fun p => (spadLoc p.pa).1 != f.core)

/-- The registers of a result that has not come back, and whether it is an off-core one, which nothing bounds. Those of a VLIW thread are among its
pending writes (R173). -/
def Flight.dumpRegs (f : Flight) : List (Nat × Nat × Bool) :=
  let regs (d : Reg) (bytes : Nat) (off : Bool) : List (Nat × Nat × Bool) :=
    if f.vliw then []
    else if d.toNat < 128 then (List.range (max 1 (bytes / 4))).map (fun j => (0, d.toNat + j, off))
    else if d.toNat < 192 then (List.range (max 1 (bytes / 8))).map (fun j => (1, d.toNat - 128 + j, off))
    else []
  match f.kind with
  | .load w _ d _ _ => regs d w true
  | .ldx w _ _ d => regs d w true
  | .atomic _ w d => regs d w true
  | .join d => regs d 4 true
  | .resolve _ d => regs d 4 true
  | .poll d => regs d 8 true
  | .spadLoad w _ d => regs d w f.offCore
  | .spadAtomic _ w d => regs d w f.offCore
  | .xlat h _ _ d _ => (5, h, false) :: regs d 4 false
  | _ => []

/-- Everything that a gang waits to have written, one register and one strand or cluster each. -/
def State.pendings (s : State) (g : Gang) : List Pending :=
  let exposed := g.pend.filterMap (fun p => (dumpDst g.ctl.vliw p.w.dst).map (fun d =>
    ({ file := d.1, index := d.2.1, bit := d.2.2, bound := if p.free then p.land - s.gclk g else 0xFFFF } : Pending)))
  let back := ((s.flightsOf g.uid).map (fun f => (f.dumpRegs.map (fun r =>
    let bound := if r.2.2 then 0xFFFF else (Config.freeWord (s.draw + f.id)).toNat % 65535
    if r.1 = 0 then f.parts.map (fun p => ({ file := 0, index := r.2.1, bit := some p.strand, bound := bound } : Pending))
    else [({ file := r.1, index := r.2.1, bit := none, bound := bound } : Pending)])).flatten)).flatten
  exposed ++ back

/-- Writes of one register with one bound share an entry of the dump. -/
def dumpWrites (l : List Pending) : List Byte :=
  let keys := (l.map (fun p => (p.file, p.index, p.bound))).eraseDups
  (keys.map (fun k =>
    let mask := (l.filter (fun p => (p.file, p.index, p.bound) == k)).foldl (fun (m : Nat) p => match p.bit with | some b => Nat.lor m (2 ^ b) | none => m) 0
    leBytes 1 k.1 ++ leBytes 1 k.2.1 ++ leBytes 4 mask ++ leBytes 2 k.2.2 ++ leBytes 8 0)).flatten
def dumpCount (l : List Pending) : Nat := (l.map (fun p => (p.file, p.index, p.bound))).eraseDups.length

/-- The dump record of a gang (R420). -/
def State.dump (s : State) (g : Gang) : List Byte :=
  let l := s.pendings g
  let bits := (if g.ctl.vliw then 1 else 0) + (if g.ctl.tdepth = 0 then 0 else 2) + (if g.park.isSome then 4 else 0)
    + (if g.iss.yieldReq || g.iss.yielding then 8 else 0)
  leBytes 1 g.slot ++ leBytes 1 bits ++ leBytes 2 (dumpCount l) ++ leBytes 4 0 ++ leBytes 8 g.pc.toNat ++ leBytes 8 g.ctl.trap.tinfo.toNat
  ++ leBytes 4 g.spec.ib.toNat ++ leBytes 4 g.spec.tb.toNat ++ leBytes 4 g.ctl.active.toNat ++ List.replicate 28 0#8 ++ dumpWrites l

/-- A stop in force holds what has come under its decoders: a gang in its yield, from its request on, completes that first (R345). -/
def State.holdStopped (s : State) : State :=
  { s with gangs := s.gangs.map (fun (g : Gang) =>
      let c := s.core g.gcore
      if c.stopped && underStop c.stopDec g && g.inSlot && !g.iss.yieldReq && !g.iss.yielding && !g.iss.exiting && !g.iss.stopped then { g with iss := { g.iss with stopped := true } }
      else g) }

/-- A gang under a stop's decoders has issued on the core in this cycle. -/
def State.issuedUnder (s : State) (c : Core) : Bool :=
  c.last.any (fun x => x.2.1 == s.cycle && s.gangs.any (fun g => g.uid == x.2.2 && underStop c.stopDec g))
/-- DEBUG_STOP_EFFECT: the cycle S, in which no gang that it stops has issued. -/
def execDebugStopEffect (core : Nat) (s : State) : Host.Outcome State Fault Refusal :=
  let c := s.core core
  if c.stop.isNone || c.frozen || s.issuedUnder c then .next s
  else
    let mine := (List.range 16).filterMap (fun k => s.gangs.find? (fun g => g.inSlot && g.gcore == core && g.slot == k && underStop c.stopDec g && !g.iss.exiting))
    let base := bits64 (s.reg (counterBlock core + 0x908)) 51 6 * 64
    let r := mine.foldl (fun (acc : State × Nat) g => let bs := s.dump g; (acc.1.deviceWrite g.ctx acc.2 bs, acc.2 + bs.length)) (s, base)
    .next (({ r.1 with draw := s.draw + s.next + 1 } : State).modCore core (fun c => { c with stop := none, stopped := true })).holdStopped

/-! ## Muslin replay (R425) -/

/-- The payload of an entry at unit k. -/
def State.payload (s : State) (ctx k : Nat) (e : LogEntry) : List Byte := s.deviceRead (32 * (s.logUnit ctx k + 1)) (32 * (e.units - 1))

/-- A packet of the log stands in its ring, with its record array in memory, and the doorbell counts it. -/
def State.injectPacket (s : State) (ctx q : Nat) (body : List Byte) : State :=
  let bs := body.take 64
  let arr := if pkType bs = 2 then pk bs 32 8 else pk bs 16 8
  let n := (s.packetInput ctx bs).length - 64
  let s1 := if n = 0 then s else s.deviceWrite ctx arr ((body.drop 64).take n)
  let s2 := s1.deviceWrite ctx (s.ringBase q + 64 * ((s.queue q).rptr.toNat % s.ringSize q)) bs
  let s3 := s2.setBits (queueBlock q + 0x10) (bitMask 31 0) (((s.queue q).rptr + 1).setWidth 64)
  if s3.percale.resident.contains q then s3 else { s3 with percale := { s3.percale with bells := NSet.add s3.percale.bells q } }

/-- A frame of the log lands in its filter's ring. -/
def State.injectFrame (s : State) (lport f : Nat) (body : List Byte) : State :=
  let pp := lport / 4
  let core := s.filterCore pp f
  let r : Rx := { filter := f, ctx := s.filterCtx pp f, cluster := core / 32, core := core % 32, entry := s.filterCur pp f, frame := [], time := 0 }
  s.landFrame lport r (body.take (64 + leNat ((body.drop 16).take 2)))

/-- MUSLIN_REPLAY_INJECTION: the next packet, frame, host write or bin trigger of the log, in log order, once the context can take it. -/
def execMuslinReplayInjection (ctx : Nat) (s : State) : Host.Outcome State Fault Refusal :=
  match s.nextEntry ctx (fun e => e.kind ≤ 4) with
  | none => .next s
  | some x =>
    let body := s.payload ctx x.1 x.2
    let fld (i : Nat) : Nat := x.2.fields.getD i 0
    let used := s.useEntry ctx x
    match x.2.kind with
    | 1 =>
      if (List.range 1024).any (fun q => s.qCtx q == ctx && s.qPending q) || s.percale.busy then .next s
      else .next (used.injectPacket ctx (fld 0) body).swapQueues
    | 2 => if s.ringOpen (fld 0 / 4) (fld 1) then .next (used.injectFrame (fld 0) (fld 1) body).pump else .next s
    | 3 => .next (used.pathWrite .host s.next (fld 0) (body.take (fld 1))).pump
    | _ =>
      if ((s.bin ctx (fld 0)).recs.filter (fun r => !r.marked)).length ≥ fld 1 then .next ((used.form ctx (fld 0) (fun r => !r.marked) (fld 1)).pump)
      else .next s

/-- A deadline or a scheduler yield of the log strikes its gang when counter 9 has come to its value. -/
def State.strike (s : State) (g : Gang) : Option State :=
  (s.nextEntry g.ctx (fun e => (e.kind == 5 || e.kind == 6) && e.fields == g.mark)).map (fun x =>
    let s1 := s.useEntry g.ctx x
    if x.2.kind = 5 then s1.takeDeadline g else s1.reclaim g.uid)

end Sys2Proof.Machine
end

