-- ==== Sys2Proof/Machine/Errors.lean ====
section
/-! DEFINITION. Errors of the stores (R114, R115, R129, R388, R389): freezes of a core on a correctable error, and what an uncorrectable
one does where it is found. -/

namespace Sys2Proof.Machine

/-- The state that an event leaves. -/
def after (s : State) (o : Host.Outcome State Fault Refusal) : State :=
  match o with
  | .next t => t
  | _ => s

/-! ## Freezes (R114) -/

/-- CORRECTABLE_ERROR_FREEZE: 20 cycles, or 20 more. -/
def execCorrectableErrorFreeze (core : Nat) (s : State) : Host.Outcome State Fault Refusal :=
  if core < Config.cores then
    let s1 := s.modCore core (fun c => { c with freeze := (if c.freeze = 0 then 1 else c.freeze) + Config.freezeCycles, freezes := c.freezes + 1 })
    .next (s1.countAt core 0x11 1 (fun ctx sm => s.gangs.any (fun g => g.inSlot && g.gcore == core && g.ctx == ctx && (sm == 0 || sm.testBit g.slot))))
  else .next s

/-- What was held at a core is applied, in its order of arrival; scratchpad writes that waited for it are merged, and writes of its pin
registers made. -/
def State.thaw (s0 : State) (core : Nat) : State :=
  let s1 := s0.mergeWhere (fun w => isSpad w.pa && (spadLoc w.pa).1 == core)
  let s := (s1.core core).pinHeld.foldl (fun st x => st.pinNow core x.1 x.2) (s1.modCore core (fun c => { c with pinHeld := [] }))
  (s.flights.filter (fun f => f.uid.isNone && f.where_.contains core)).foldl (fun st f => match f.kind with
    | .post .. => after st (execRemoteFlagPost f.id st)
    | .revoke .. => after st (execRevocation f.id st)
    | .sched _ => after st (execSchedulerWriteDelivery f.id st)
    | _ => st) s

/-- FREEZE_END, in the cycle after the last frozen one. -/
def execFreezeEnd (core : Nat) (s : State) : Host.Outcome State Fault Refusal :=
  if (s.core core).freeze = 1 then .next (((s.modCore core (fun c => { c with freeze := 0 })).thaw core).replayWhere (fun x => x.gcore == core)).pump else .next s

/-! ## Uncorrectable errors (R388, R389) -/

/-- A lost dirty sector is charged to contexts: their loss counts rise, and each gets an entry of kind 2. -/
def State.chargeLoss (s : State) (pick : Nat → Bool) (pa : Nat) : State :=
  s.ctxs.foldl (fun (st : State) (c : Nat × Ctx) =>
    if c.2.live && pick (s.tenantOf c.1) then (st.modCtx c.1 (fun x => { x with loss := x.loss + 1 })).log c.1 2 pa 0 0 else st) s

/-- A dirty sector of a line is lost: poisoned, written to memory poisoned, and charged. -/
def State.loseSector (s : State) (l : L2Line) (k : Nat) (pick : Nat → Bool) : State :=
  (s.ctlWrite (2 * l.line + k) (dataBytes l.data (64 * k) 64) true (fun i => l.has (64 * k + i))).chargeLoss pick (128 * l.line + 64 * k)

/-- An error in a sector of a home slice: a clean one is invalidated, and an audit of its line ends without a result (R111); a dirty one is
lost. -/
def State.l2Error (s : State) (slice set way k : Nat) : State :=
  let key := 16 * set + way
  match SMap.find (s.slice slice).lines key with
  | none => s
  | some l =>
    let bit := BitVec.ofNat 2 (2 ^ k)
    let put (st : State) (x : L2Line) : State := st.modSlice slice (fun h => { h with lines := SMap.set h.lines key x })
    if l.dirty.getLsbD k then
      (fun (st : State) => st.tidy2 (128 * l.line)) <| put (s.loseSector l k (fun t => t == l.tenant)) { l with dirty := l.dirty &&& ~~~bit, poison := l.poison ||| bit, wmask := l.wmask &&& ~~~byteMask (64 * k) 64 }
    else if l.valid.getLsbD k then (fun (st : State) => st.tidy2 (128 * l.line)) <| put s { l with valid := l.valid &&& ~~~bit, poison := l.poison &&& ~~~bit, audit := none }
    else s

/-- An error in the tag or state of a line: its dirty sectors are lost, and the line goes. Whether its tenant can still be read is free. -/
def State.l2TagError (s : State) (slice set way : Nat) : State :=
  let key := 16 * set + way
  match SMap.find (s.slice slice).lines key with
  | none => s
  | some l =>
    let unreadable := (Config.freeWord s.draw).getLsbD 0
    let s1 := (List.range 2).foldl (fun st k =>
      if l.dirty.getLsbD k then st.loseSector l k (fun t => unreadable || t == l.tenant) else st) { s with draw := s.draw + 1 }
    s1.modSlice slice (fun h => { h with lines := SMap.erase h.lines key })

/-- Bytes of a saved region read as poisoned from now on. -/
def State.poisonSaved (s : State) (pa n : Nat) : State :=
  (List.range (n / 64)).foldl (fun st i => st.pathWrite .host st.next (pa + 64 * i) (st.deviceRead (pa + 64 * i) 64) true) s

/-- A gang whose saved state is lost is killed (R344, R388). -/
def State.killSaved (s : State) (g : Gang) : State :=
  let s1 := s.kill g.uid 0 g.pc true 8
  if g.inSlot then s1 else match s1.gang? g.uid with
    | some x => s1.forget x
    | none => s1

/-- A lost atomic returns unpredictable values. -/
def State.lostResult (s : State) (f : Flight) (d : Reg) (w : OpW) : State :=
  (f.parts.foldl (fun st p => ({ st with draw := st.draw + 1 } : State).result f d w p.strand ((Config.freeWord st.draw).setWidth 128) false) s).dropFlight f.id
/-- A store or atomic, a join or a resolve among them, that its home slice cannot apply is lost (R129); what an atomic would have returned is
unpredictable. -/
def State.lostAt (s : State) (f : Flight) : State :=
  let s1 := s.loseStore f (f.parts.headD { strand := 0, pa := 0 }).pa
  match f.kind with
  | .store _ =>
    match f.post with
    | .own cl co fl _ => s1.postLeft f (32 * cl + co) fl
    | _ => s1.dropFlight f.id
  | .atomic _ n d => s1.lostResult f d (bytesOpw n)
  | .join d => s1.lostResult f d .w32
  | .resolve _ d => s1.lostResult f d .w32
  | _ => s

/-- UNCORRECTABLE_ERROR. -/
def execUncorrectableError (site : ErrSite) (s : State) : Host.Outcome State Fault Refusal :=
  match site with
  | .vreg uid key => .next (if key < 4160 then s.modGang uid (fun g => { g with regs := { g.regs with poison := NSet.add g.regs.poison key } }) else s)
  | .shadowReg uid key =>
    .next (if key < 4160 then s.modGang uid (fun g => { g with shadow := { g.shadow with poison := NSet.add g.shadow.poison key } }) else s)
  | .scratchpad pa =>
    let l := spadLoc pa
    .next (if isSpad pa then s.modCore l.1 (fun c =>
      let sh := SMap.get c.shares l.2.1 {}
      { c with shares := SMap.set c.shares l.2.1 { sh with poison := NSet.add sh.poison (l.2.2 / 16) } }) else s)
  | .accTile core tile => .next (s.modCore core (fun c => { c with acc := SMap.upd c.acc tile {} (fun (t : AccTile) => { t with poison := true }) }))
  | .l1Line core set way => .next (s.modCore core (fun c => { c with l1 := SMap.erase c.l1 (16 * set + way) }))
  | .l2Sector slice set way k => .next (s.l2Error slice set way k)
  | .l2Tag slice set way => .next (s.l2TagError slice set way)
  | .dram pa => .next (if isDram pa then { s with dpoison := NSet.add s.dpoison (pa / 64) } else s)
  | .savedReg uid key =>
    match s.gang? uid with
    | some g => match g.loc with
      | .queued .. => .next (s.modGang uid (fun g => { g with shadow := { g.shadow with poison := NSet.add g.shadow.poison key } }))
      | .saved => .next (s.modGang uid (fun g => { g with regs := { g.regs with poison := NSet.add g.regs.poison key } }))
      | .fetchOut .. => .next (s.modGang uid (fun g => { g with regs := { g.regs with poison := NSet.add g.regs.poison key } }))
      | _ => .next s
    | none => .next s
  | .savedShare uid =>
    match s.gang? uid with
    | some g => match g.loc with
      | .saved => .next (s.poisonSaved (s.saveBase g + 0x4000) 131072)
      | .fetchOut .. => .next (s.poisonSaved (s.saveBase g + 0x4000) 131072)
      | _ => .next s
    | none => .next s
  | .savedState uid =>
    match s.gang? uid with
    | some g => .next (if g.inSlot then s else s.killSaved g)
    | none => .next s
  | .storeLost id =>
    match s.ready id with
    | some f => .next (s.lostAt f).pump
    | none => .next s

end Sys2Proof.Machine
end

