-- ==== Sys2Proof/Machine/Dispatch.lean ====
section
/-! DEFINITION. One arm for each instruction: the call of its meaning. -/

namespace Sys2Proof.Machine

def exec (i : Instr) (s : State) : Host.Outcome State Fault Refusal :=
  match i with
  | .nop h x => Sys2Proof.Machine.execNop h x s
  | .nopPause h x => Sys2Proof.Machine.execNopPause h x s
  | .pauseExpiry uid => Sys2Proof.Machine.execPauseExpiry uid s
  | .iadd h x => Sys2Proof.Machine.execIadd h x s
  | .iaddAddc h x => Sys2Proof.Machine.execIaddAddc h x s
  | .iaddSub h x => Sys2Proof.Machine.execIaddSub h x s
  | .iaddSubb h x => Sys2Proof.Machine.execIaddSubb h x s
  | .iaddRsub h x => Sys2Proof.Machine.execIaddRsub h x s
  | .imul h x => Sys2Proof.Machine.execImul h x s
  | .imulHi h x => Sys2Proof.Machine.execImulHi h x s
  | .imulWide h x => Sys2Proof.Machine.execImulWide h x s
  | .imad h x => Sys2Proof.Machine.execImad h x s
  | .imadWide h x => Sys2Proof.Machine.execImadWide h x s
  | .idiv h x => Sys2Proof.Machine.execIdiv h x s
  | .idivRem h x => Sys2Proof.Machine.execIdivRem h x s
  | .imnx h x => Sys2Proof.Machine.execImnx h x s
  | .imnxMax h x => Sys2Proof.Machine.execImnxMax h x s
  | .iabs h x => Sys2Proof.Machine.execIabs h x s
  | .iabsNeg h x => Sys2Proof.Machine.execIabsNeg h x s
  | .iabsSad h x => Sys2Proof.Machine.execIabsSad h x s
  | .iclmp h x => Sys2Proof.Machine.execIclmp h x s
  | .and h x => Sys2Proof.Machine.execAnd h x s
  | .andNot h x => Sys2Proof.Machine.execAndNot h x s
  | .or h x => Sys2Proof.Machine.execOr h x s
  | .orNot h x => Sys2Proof.Machine.execOrNot h x s
  | .xor h x => Sys2Proof.Machine.execXor h x s
  | .xorNot h x => Sys2Proof.Machine.execXorNot h x s
  | .lut3 h x => Sys2Proof.Machine.execLut3 h x s
  | .shl h x => Sys2Proof.Machine.execShl h x s
  | .shr h x => Sys2Proof.Machine.execShr h x s
  | .shrAr h x => Sys2Proof.Machine.execShrAr h x s
  | .rot h x => Sys2Proof.Machine.execRot h x s
  | .rotRr h x => Sys2Proof.Machine.execRotRr h x s
  | .rotShfl h x => Sys2Proof.Machine.execRotShfl h x s
  | .rotShfr h x => Sys2Proof.Machine.execRotShfr h x s
  | .popc h x => Sys2Proof.Machine.execPopc h x s
  | .clz h x => Sys2Proof.Machine.execClz h x s
  | .clzCtz h x => Sys2Proof.Machine.execClzCtz h x s
  | .clzCls h x => Sys2Proof.Machine.execClzCls h x s
  | .brev h x => Sys2Proof.Machine.execBrev h x s
  | .brevByte h x => Sys2Proof.Machine.execBrevByte h x s
  | .bfx h x => Sys2Proof.Machine.execBfx h x s
  | .bfi h x => Sys2Proof.Machine.execBfi h x s
  | .prmt h x => Sys2Proof.Machine.execPrmt h x s
  | .pack h x => Sys2Proof.Machine.execPack h x s
  | .packSs h x => Sys2Proof.Machine.execPackSs h x s
  | .packNn h x => Sys2Proof.Machine.execPackNn h x s
  | .icmp h x => Sys2Proof.Machine.execIcmp h x s
  | .sel h x => Sys2Proof.Machine.execSel h x s
  | .plog h x => Sys2Proof.Machine.execPlog h x s
  | .movi h x => Sys2Proof.Machine.execMovi h x s
  | .moviX64 h x => Sys2Proof.Machine.execMoviX64 h x s
  | .movh h x => Sys2Proof.Machine.execMovh h x s
  | .movhX32 h x => Sys2Proof.Machine.execMovhX32 h x s
  | .mov h x => Sys2Proof.Machine.execMov h x s
  | .movBc h x => Sys2Proof.Machine.execMovBc h x s
  | .xmov h x => Sys2Proof.Machine.execXmov h x s
  | .lea h x => Sys2Proof.Machine.execLea h x s
  | .leaN h x => Sys2Proof.Machine.execLeaN h x s
  | .idot h x => Sys2Proof.Machine.execIdot h x s
  | .idotH h x => Sys2Proof.Machine.execIdotH h x s
  | .mfs h x => Sys2Proof.Machine.execMfs h x s
  | .mts h x => Sys2Proof.Machine.execMts h x s
  | .voteAny h x => Sys2Proof.Machine.execVoteAny h x s
  | .voteAll h x => Sys2Proof.Machine.execVoteAll h x s
  | .voteBallot h x => Sys2Proof.Machine.execVoteBallot h x s
  | .voteCount h x => Sys2Proof.Machine.execVoteCount h x s
  | .voteFirst h x => Sys2Proof.Machine.execVoteFirst h x s
  | .rdlane h x => Sys2Proof.Machine.execRdlane h x s
  | .wrlane h x => Sys2Proof.Machine.execWrlane h x s
  | .shuf h x => Sys2Proof.Machine.execShuf h x s
  | .shufRot h x => Sys2Proof.Machine.execShufRot h x s
  | .shufXor h x => Sys2Proof.Machine.execShufXor h x s
  | .shufRev h x => Sys2Proof.Machine.execShufRev h x s
  | .patld h x => Sys2Proof.Machine.execPatld h x s
  | .patsw h x => Sys2Proof.Machine.execPatsw h x s
  | .gred h x => Sys2Proof.Machine.execGred h x s
  | .gscan h x => Sys2Proof.Machine.execGscan h x s
  | .fadd h x => Sys2Proof.Machine.execFadd h x s
  | .faddSub h x => Sys2Proof.Machine.execFaddSub h x s
  | .fmul h x => Sys2Proof.Machine.execFmul h x s
  | .ffma h x => Sys2Proof.Machine.execFfma h x s
  | .ffmaMs h x => Sys2Proof.Machine.execFfmaMs h x s
  | .ffmaNm h x => Sys2Proof.Machine.execFfmaNm h x s
  | .fmnx h x => Sys2Proof.Machine.execFmnx h x s
  | .fmnxMax h x => Sys2Proof.Machine.execFmnxMax h x s
  | .fmnxMinn h x => Sys2Proof.Machine.execFmnxMinn h x s
  | .fmnxMaxn h x => Sys2Proof.Machine.execFmnxMaxn h x s
  | .fcmp h x => Sys2Proof.Machine.execFcmp h x s
  | .fcls h x => Sys2Proof.Machine.execFcls h x s
  | .fclsP h x => Sys2Proof.Machine.execFclsP h x s
  | .fscl h x => Sys2Proof.Machine.execFscl h x s
  | .frnd h x => Sys2Proof.Machine.execFrnd h x s
  | .fdiv h x => Sys2Proof.Machine.execFdiv h x s
  | .fsqrt h x => Sys2Proof.Machine.execFsqrt h x s
  | .sfu h x => Sys2Proof.Machine.execSfu h x s
  | .fcvt h x => Sys2Proof.Machine.execFcvt h x s
  | .f2i h x => Sys2Proof.Machine.execF2i h x s
  | .i2f h x => Sys2Proof.Machine.execI2f h x s
  | .dadd h x => Sys2Proof.Machine.execDadd h x s
  | .daddSub h x => Sys2Proof.Machine.execDaddSub h x s
  | .dmul h x => Sys2Proof.Machine.execDmul h x s
  | .dfma h x => Sys2Proof.Machine.execDfma h x s
  | .dfmaMs h x => Sys2Proof.Machine.execDfmaMs h x s
  | .dfmaNm h x => Sys2Proof.Machine.execDfmaNm h x s
  | .dcmp h x => Sys2Proof.Machine.execDcmp h x s
  | .dcvtF32F64 h x => Sys2Proof.Machine.execDcvtF32F64 h x s
  | .dcvtF64F32 h x => Sys2Proof.Machine.execDcvtF64F32 h x s
  | .dcvtIF64 h x => Sys2Proof.Machine.execDcvtIF64 h x s
  | .dcvtF64I h x => Sys2Proof.Machine.execDcvtF64I h x s
  | .fdot2 h x => Sys2Proof.Machine.execFdot2 h x s
  | .f8dot h x => Sys2Proof.Machine.execF8dot h x s
  | .f8dotMx h x => Sys2Proof.Machine.execF8dotMx h x s
  | .bxpk h x => Sys2Proof.Machine.execBxpk h x s
  | .bxup h x => Sys2Proof.Machine.execBxup h x s
  | .fxmFm h x => Sys2Proof.Machine.execFxmFm h x s
  | .fxmFe h x => Sys2Proof.Machine.execFxmFe h x s
  | .fxmIlogb h x => Sys2Proof.Machine.execFxmIlogb h x s
  | .ld h x => Sys2Proof.Machine.execLd h x s
  | .st h x => Sys2Proof.Machine.execSt h x s
  | .ldnc h x => Sys2Proof.Machine.execLdnc h x s
  | .ldacq h x => Sys2Proof.Machine.execLdacq h x s
  | .strel h x => Sys2Proof.Machine.execStrel h x s
  | .lds h x => Sys2Proof.Machine.execLds h x s
  | .sts h x => Sys2Proof.Machine.execSts h x s
  | .ldh h x => Sys2Proof.Machine.execLdh h x s
  | .sth h x => Sys2Proof.Machine.execSth h x s
  | .ldt h x => Sys2Proof.Machine.execLdt h x s
  | .stt h x => Sys2Proof.Machine.execStt h x s
  | .atom h x => Sys2Proof.Machine.execAtom h x s
  | .atomf h x => Sys2Proof.Machine.execAtomf h x s
  | .cas h x => Sys2Proof.Machine.execCas h x s
  | .atoms h x => Sys2Proof.Machine.execAtoms h x s
  | .fence h x => Sys2Proof.Machine.execFence h x s
  | .fenceRel h x => Sys2Proof.Machine.execFenceRel h x s
  | .fenceAcq h x => Sys2Proof.Machine.execFenceAcq h x s
  | .fenceAr h x => Sys2Proof.Machine.execFenceAr h x s
  | .fencex h x => Sys2Proof.Machine.execFencex h x s
  | .xlat h x => Sys2Proof.Machine.execXlat h x s
  | .xlatW h x => Sys2Proof.Machine.execXlatW h x s
  | .hdrop h x => Sys2Proof.Machine.execHdrop h x s
  | .hdropAll h x => Sys2Proof.Machine.execHdropAll h x s
  | .pref h x => Sys2Proof.Machine.execPref h x s
  | .prefL2 h x => Sys2Proof.Machine.execPrefL2 h x s
  | .prefEvict h x => Sys2Proof.Machine.execPrefEvict h x s
  | .prefDiscard h x => Sys2Proof.Machine.execPrefDiscard h x s
  | .cmntWb h x => Sys2Proof.Machine.execCmntWb h x s
  | .cmntWbinv h x => Sys2Proof.Machine.execCmntWbinv h x s
  | .cmntInv1 h x => Sys2Proof.Machine.execCmntInv1 h x s
  | .watch h x => Sys2Proof.Machine.execWatch h x s
  | .watchRegistration id => Sys2Proof.Machine.execWatchRegistration id s
  | .waitw h x => Sys2Proof.Machine.execWaitw h x s
  | .waitwTimeout uid => Sys2Proof.Machine.execWaitwTimeout uid s
  | .waitwEarlyReturn uid => Sys2Proof.Machine.execWaitwEarlyReturn uid s
  | .fpost h x => Sys2Proof.Machine.execFpost h x s
  | .fpostR h x => Sys2Proof.Machine.execFpostR h x s
  | .fwait h x => Sys2Proof.Machine.execFwait h x s
  | .fread h x => Sys2Proof.Machine.execFread h x s
  | .freadAddr h x => Sys2Proof.Machine.execFreadAddr h x s
  | .barArrive h x => Sys2Proof.Machine.execBarArrive h x s
  | .barWait h x => Sys2Proof.Machine.execBarWait h x s
  | .tdef h x => Sys2Proof.Machine.execTdef h x s
  | .tacqOwn h x => Sys2Proof.Machine.execTacqOwn h x s
  | .tacqPub h x => Sys2Proof.Machine.execTacqPub h x s
  | .tacqRel h x => Sys2Proof.Machine.execTacqRel h x s
  | .tileDrainComplete core entry => Sys2Proof.Machine.execTileDrainComplete core entry s
  | .spawn h x => Sys2Proof.Machine.execSpawn h x s
  | .spawnOne h x => Sys2Proof.Machine.execSpawnOne h x s
  | .futRes h x => Sys2Proof.Machine.execFutRes h x s
  | .futPoison h x => Sys2Proof.Machine.execFutPoison h x s
  | .futJoin h x => Sys2Proof.Machine.execFutJoin h x s
  | .futPoll h x => Sys2Proof.Machine.execFutPoll h x s
  | .homeSliceJoin id => Sys2Proof.Machine.execHomeSliceJoin id s
  | .homeSliceResolve id => Sys2Proof.Machine.execHomeSliceResolve id s
  | .cellDecrement id => Sys2Proof.Machine.execCellDecrement id s
  | .grecTs h x => Sys2Proof.Machine.execGrecTs h x s
  | .grecTsx h x => Sys2Proof.Machine.execGrecTsx h x s
  | .grecSrc h x => Sys2Proof.Machine.execGrecSrc h x s
  | .grecWord h x => Sys2Proof.Machine.execGrecWord h x s
  | .rdtm h x => Sys2Proof.Machine.execRdtm h x s
  | .rdtmX h x => Sys2Proof.Machine.execRdtmX h x s
  | .rdtmQ h x => Sys2Proof.Machine.execRdtmQ h x s
  | .pbr h x => Sys2Proof.Machine.execPbr h x s
  | .pbrr h x => Sys2Proof.Machine.execPbrr h x s
  | .pbrrGet h x => Sys2Proof.Machine.execPbrrGet h x s
  | .br h x => Sys2Proof.Machine.execBr h x s
  | .brAny h x => Sys2Proof.Machine.execBrAny h x s
  | .brAll h x => Sys2Proof.Machine.execBrAll h x s
  | .join h x => Sys2Proof.Machine.execJoin h x s
  | .call h x => Sys2Proof.Machine.execCall h x s
  | .ret h x => Sys2Proof.Machine.execRet h x s
  | .exit h x => Sys2Proof.Machine.execExit h x s
  | .slotRelease uid => Sys2Proof.Machine.execSlotRelease uid s
  | .fuse h x => Sys2Proof.Machine.execFuse h x s
  | .laneGroupAcquire uid => Sys2Proof.Machine.execLaneGroupAcquire uid s
  | .split h x => Sys2Proof.Machine.execSplit h x s
  | .loop h x => Sys2Proof.Machine.execLoop h x s
  | .lend h x => Sys2Proof.Machine.execLend h x s
  | .lendPop h x => Sys2Proof.Machine.execLendPop h x s
  | .lendBrk h x => Sys2Proof.Machine.execLendBrk h x s
  | .cont h x => Sys2Proof.Machine.execCont h x s
  | .contB h x => Sys2Proof.Machine.execContB h x s
  | .bgtTop h x => Sys2Proof.Machine.execBgtTop h x s
  | .bgtRel h x => Sys2Proof.Machine.execBgtRel h x s
  | .yield h x => Sys2Proof.Machine.execYield h x s
  | .trap h x => Sys2Proof.Machine.execTrap h x s
  | .trapBkpt h x => Sys2Proof.Machine.execTrapBkpt h x s
  | .rdctr h x => Sys2Proof.Machine.execRdctr h x s
  | .privMfp h x => Sys2Proof.Machine.execPrivMfp h x s
  | .privMtp h x => Sys2Proof.Machine.execPrivMtp h x s
  | .privInval h x => Sys2Proof.Machine.execPrivInval h x s
  | .privYreq h x => Sys2Proof.Machine.execPrivYreq h x s
  | .tret h x => Sys2Proof.Machine.execTret h x s
  | .tretSkip h x => Sys2Proof.Machine.execTretSkip h x s
  | .ldx h x => Sys2Proof.Machine.execLdx h x s
  | .stx h x => Sys2Proof.Machine.execStx h x s
  | .ldxPi h x => Sys2Proof.Machine.execLdxPi h x s
  | .stxPi h x => Sys2Proof.Machine.execStxPi h x s
  | .brx h x => Sys2Proof.Machine.execBrx h x s
  | .atmx h x => Sys2Proof.Machine.execAtmx h x s
  | .mma h x => Sys2Proof.Machine.execMma h x s
  | .mmag h x => Sys2Proof.Machine.execMmag h x s
  | .zld h x => Sys2Proof.Machine.execZld h x s
  | .zst h x => Sys2Proof.Machine.execZst h x s
  | .zclr h x => Sys2Proof.Machine.execZclr h x s
  | .zrowRd h x => Sys2Proof.Machine.execZrowRd h x s
  | .zrowWr h x => Sys2Proof.Machine.execZrowWr h x s
  | .matrixStart core => Sys2Proof.Machine.execMatrixStart core s
  | .matrixCompletion core => Sys2Proof.Machine.execMatrixCompletion core s
  | .copy h x => Sys2Proof.Machine.execCopy h x s
  | .strmIn h x => Sys2Proof.Machine.execStrmIn h x s
  | .strmOut h x => Sys2Proof.Machine.execStrmOut h x s
  | .netx h x => Sys2Proof.Machine.execNetx h x s
  | .gset h x => Sys2Proof.Machine.execGset h x s
  | .estsQ h x => Sys2Proof.Machine.execEstsQ h x s
  | .estsErr h x => Sys2Proof.Machine.execEstsErr h x s
  | .engineCommandTakeUp id => Sys2Proof.Machine.execEngineCommandTakeUp id s
  | .engineCommandCompletion id => Sys2Proof.Machine.execEngineCommandCompletion id s
  | .strmChunkEnd id => Sys2Proof.Machine.execStrmChunkEnd id s
  | .netxFrameSent id => Sys2Proof.Machine.execNetxFrameSent id s
  | .bundle hdr words => Sys2Proof.Machine.execBundle hdr words s
  | .faultEntryDeferred ctx => Sys2Proof.Machine.execFaultEntryDeferred ctx s
  | .walkCompletion id => Sys2Proof.Machine.execWalkCompletion id s
  | .atomicApply id => Sys2Proof.Machine.execAtomicApply id s
  | .storeRegistration id => Sys2Proof.Machine.execStoreRegistration id s
  | .revocation id => Sys2Proof.Machine.execRevocation id s
  | .loadResultReturn id => Sys2Proof.Machine.execLoadResultReturn id s
  | .decoupledAccessCompletion id => Sys2Proof.Machine.execDecoupledAccessCompletion id s
  | .pathWriteMerge n => Sys2Proof.Machine.execPathWriteMerge n s
  | .remoteFlagPost id => Sys2Proof.Machine.execRemoteFlagPost id s
  | .fabricAccessAtTarget acc => Sys2Proof.Machine.execFabricAccessAtTarget acc s
  | .auditResult n => Sys2Proof.Machine.execAuditResult n s
  | .auditAgeExpiry slice set way => Sys2Proof.Machine.execAuditAgeExpiry slice set way s
  | .recordAppend ctx node => Sys2Proof.Machine.execRecordAppend ctx node s
  | .binTimerExpiry ctx node => Sys2Proof.Machine.execBinTimerExpiry ctx node s
  | .overflowReturn ctx => Sys2Proof.Machine.execOverflowReturn ctx s
  | .waiterPlacement cluster => Sys2Proof.Machine.execWaiterPlacement cluster s
  | .schedulerWriteDelivery n => Sys2Proof.Machine.execSchedulerWriteDelivery n s
  | .deadlineReached uid => Sys2Proof.Machine.execDeadlineReached uid s
  | .yieldSequence uid => Sys2Proof.Machine.execYieldSequence uid s
  | .yieldRecordFreed uid => Sys2Proof.Machine.execYieldRecordFreed uid s
  | .correctableErrorFreeze core => Sys2Proof.Machine.execCorrectableErrorFreeze core s
  | .freezeEnd core => Sys2Proof.Machine.execFreezeEnd core s
  | .uncorrectableError site => Sys2Proof.Machine.execUncorrectableError site s
  | .fullSave uid => Sys2Proof.Machine.execFullSave uid s
  | .fullRestore uid => Sys2Proof.Machine.execFullRestore uid s
  | .worldSwitch vfOut vfIn => Sys2Proof.Machine.execWorldSwitch vfOut vfIn s
  | .sliceWrite who vf v => Sys2Proof.Machine.execSliceWrite who vf v s
  | .percalePass => Sys2Proof.Machine.execPercalePass s
  | .residencyQuantum => Sys2Proof.Machine.execResidencyQuantum s
  | .dispatch q => Sys2Proof.Machine.execDispatch q s
  | .dispatchDefine q => Sys2Proof.Machine.execDispatchDefine q s
  | .lockstep q => Sys2Proof.Machine.execLockstep q s
  | .lockstepRelease launch => Sys2Proof.Machine.execLockstepRelease launch s
  | .recordPacket q => Sys2Proof.Machine.execRecordPacket q s
  | .copyPacket q => Sys2Proof.Machine.execCopyPacket q s
  | .waitflag q => Sys2Proof.Machine.execWaitflag q s
  | .waitmem q => Sys2Proof.Machine.execWaitmem q s
  | .waitConditionMet q => Sys2Proof.Machine.execWaitConditionMet q s
  | .waitTimeout q => Sys2Proof.Machine.execWaitTimeout q s
  | .signalWrite q => Sys2Proof.Machine.execSignalWrite q s
  | .signalAdd q => Sys2Proof.Machine.execSignalAdd q s
  | .signalResolve q => Sys2Proof.Machine.execSignalResolve q s
  | .signalPoison q => Sys2Proof.Machine.execSignalPoison q s
  | .signalPost q => Sys2Proof.Machine.execSignalPost q s
  | .timestamp q => Sys2Proof.Machine.execTimestamp q s
  | .budgetAdd q => Sys2Proof.Machine.execBudgetAdd q s
  | .budgetSet q => Sys2Proof.Machine.execBudgetSet q s
  | .budgetReclaim q => Sys2Proof.Machine.execBudgetReclaim q s
  | .deadline q => Sys2Proof.Machine.execDeadline q s
  | .launchCompletion launch => Sys2Proof.Machine.execLaunchCompletion launch s
  | .interruptDelayExpiry q => Sys2Proof.Machine.execInterruptDelayExpiry q s
  | .doorbell who q v => Sys2Proof.Machine.execDoorbell who q v s
  | .queueEnable who q v => Sys2Proof.Machine.execQueueEnable who q v s
  | .contextCreate who ctx v => Sys2Proof.Machine.execContextCreate who ctx v s
  | .contextDestroy who ctx v => Sys2Proof.Machine.execContextDestroy who ctx v s
  | .faultRetire who ctx v => Sys2Proof.Machine.execFaultRetire who ctx v s
  | .faultRetireAll who ctx v => Sys2Proof.Machine.execFaultRetireAll who ctx v s
  | .hostShootdown who ctx v => Sys2Proof.Machine.execHostShootdown who ctx v s
  | .slotPin who core k v => Sys2Proof.Machine.execSlotPin who core k v s
  | .slotUnpin who core k v => Sys2Proof.Machine.execSlotUnpin who core k v s
  | .formatWindowEnable who mc n v => Sys2Proof.Machine.execFormatWindowEnable who mc n v s
  | .filterEnable who pp f v => Sys2Proof.Machine.execFilterEnable who pp f v s
  | .portBreakout who pp v => Sys2Proof.Machine.execPortBreakout who pp v s
  | .linkUp lport => Sys2Proof.Machine.execLinkUp lport s
  | .frameFirstByte lport frame => Sys2Proof.Machine.execFrameFirstByte lport frame s
  | .frameEnd lport good => Sys2Proof.Machine.execFrameEnd lport good s
  | .ptpMessage lport frame => Sys2Proof.Machine.execPtpMessage lport frame s
  | .assignmentWrite who off v => Sys2Proof.Machine.execAssignmentWrite who off v s
  | .hostWrite port req => Sys2Proof.Machine.execHostWrite port req s
  | .semaphoreAcquire port sem => Sys2Proof.Machine.execSemaphoreAcquire port sem s
  | .semaphoreRelease port sem => Sys2Proof.Machine.execSemaphoreRelease port sem s
  | .portUnfreeze port target => Sys2Proof.Machine.execPortUnfreeze port target s
  | .functionLevelReset port fn => Sys2Proof.Machine.execFunctionLevelReset port fn s
  | .timeAdjust who v => Sys2Proof.Machine.execTimeAdjust who v s
  | .timeSet who v => Sys2Proof.Machine.execTimeSet who v s
  | .deviceTimeLatchRead who => Sys2Proof.Machine.execDeviceTimeLatchRead who s
  | .tenantFailsRead who t => Sys2Proof.Machine.execTenantFailsRead who t s
  | .portCounterRead who pp off => Sys2Proof.Machine.execPortCounterRead who pp off s
  | .throttleCountRead who => Sys2Proof.Machine.execThrottleCountRead who s
  | .counterValueWrite who core n v => Sys2Proof.Machine.execCounterValueWrite who core n v s
  | .ginghamClear who core v => Sys2Proof.Machine.execGinghamClear who core v s
  | .debugStop who core v => Sys2Proof.Machine.execDebugStop who core v s
  | .debugStopEffect core => Sys2Proof.Machine.execDebugStopEffect core s
  | .debugGo who core v => Sys2Proof.Machine.execDebugGo who core v s
  | .debugDataWrite who core v => Sys2Proof.Machine.execDebugDataWrite who core v s
  | .moduleReset => Sys2Proof.Machine.execModuleReset s
  | .recoveryProgram who => Sys2Proof.Machine.execRecoveryProgram who s
  | .firmwareUpdate image => Sys2Proof.Machine.execFirmwareUpdate image s
  | .attestationReport who => Sys2Proof.Machine.execAttestationReport who s
  | .raiseRollbackFloor who => Sys2Proof.Machine.execRaiseRollbackFloor who s
  | .throttleChange step power junction coolant => Sys2Proof.Machine.execThrottleChange step power junction coolant s
  | .thermalTrip => Sys2Proof.Machine.execThermalTrip s
  | .registerWrite who addr v => Sys2Proof.Machine.execRegisterWrite who addr v s
  | .linkDown lport => Sys2Proof.Machine.execLinkDown lport s
  | .fabricLinkDown port => Sys2Proof.Machine.execFabricLinkDown port s
  | .muslinReplayInjection ctx => Sys2Proof.Machine.execMuslinReplayInjection ctx s
  | .timeSlewEnd => Sys2Proof.Machine.execTimeSlewEnd s

end Sys2Proof.Machine
end

