-- ==== Sys2Proof/Machine/Schedule.lean ====
section
/-! DEFINITION. What a step does: an event, an attempt of a gang to issue (R27 to R32, R378, R387), or one core cycle (R4, R28, R114,
R402, R403, R419); and which of these comes next when the schedule of the state names none. -/

namespace Sys2Proof.Machine

/-! ## Issue -/

/-- What an attempt leaves behind it: where it issued or trapped, its n words have been fetched. -/
def State.fetched (s old : State) (g : Gang) (n : Nat) : State :=
  match s.note with
  | .issued => s.noteFetch old g n
  | .trapped _ => s.noteFetch old g n
  | _ => s
def fetchedBy (o : Host.Outcome State Fault Refusal) (old : State) (g : Gang) (n : Nat) : Host.Outcome State Fault Refusal :=
  match o with
  | .next t => .next (t.fetched old g n)
  | x => x

/-- A trap of a fetch (R115, R377): DESIGN CHOICE (assumption 96): in a bundle it is reported as the header's. -/
def State.fetchTrap (s : State) (g : Gang) (cause : Nat) (taddr : Word64) : State :=
  s.takeTrap g.uid { cause := cause, taddr := taddr, bnd := g.ctl.vliw, pslot := if g.ctl.vliw then 22 else 0, mask := if g.ctl.vliw then 2 ^ 22 else 0 } g.pc (g.pc + 8)

/-- A VLIW thread finds a word that is no bundle header (R178). It needs its lane group. -/
def State.notBundle (s : State) (g : Gang) : State :=
  if g.iss.group then s.takeTrap g.uid { cause := causeBundle, pslot := 22, mask := 2 ^ 22, bnd := true } g.pc (g.pc + 8) else { s with note := .waiting }

/-- The instruction of fetched words under a gang's decoder. -/
def decodeFetched (vliw : Bool) (ws : List Word64) : Option Instr :=
  match ws with
  | [] => none
  | w :: rest =>
    if vliw then (if isHeader w then some (.bundle w rest) else none)
    else match decodeWord .simt false w with
      | .ok i => some i
      | .error _ => none

/-- An attempt of a gang to issue what stands at its next address. In a replay, a deadline or yield of the log strikes first. -/
def State.attempt (s : State) (uid : Nat) : Host.Outcome State Fault Refusal :=
  match s.gang? uid with
  | none => .next s
  | some g =>
    if g.cannotIssue s.cycle then .next { s with note := .waiting }
    else match s.strike g with
      | some t => .next t
      | none => match s.fetch g with
        | .denied _ => fetchedBy (.next (s.fetchTrap g causeProtection g.pc)) s g 1
        | .poisoned => fetchedBy (.next (s.fetchTrap g causePoison 0)) s g 1
        | .missing va kind level => .next { (s.fetchFault uid va kind level).blockGroup uid with note := .waiting }
        | .words ws => match decodeFetched g.ctl.vliw ws with
          | some i => fetchedBy (exec i { s with turn := some uid }) s g ws.length
          | none =>
            if g.ctl.vliw then fetchedBy (.next (s.notBundle g)) s g ws.length
            else if g.iss.reclaim then .next { s.requestYield uid false with note := .exhausted }
            else fetchedBy (.next (s.illegalWord g (bits64 (ws.getD 0 0) 63 57))) s g ws.length

/-- May a gang issue in this cycle (R22, R27, R29, R30, R32, R114, R347)? A VLIW thread that may take the group goes ahead of every SIMT gang. -/
def State.mayIssue (s : State) (g : Gang) : Bool :=
  let c := s.core g.gcore
  !c.frozen && g.inSlot && s.admits g.ctx && SMap.get c.beat g.lane 0 ≤ s.cycle && s.portsUsed g.gcore g.ctl.vliw < 2 &&
  (if g.ctl.vliw then g.iss.group
    else (SMap.find c.group g.lane).isNone && !s.gangs.any (fun x => x.gcore == g.gcore && x.lane == g.lane && x.ctl.vliw && s.canAcquire x))

/-- A gang is ready (R27): its next instruction would issue or trap. -/
def State.isReady (s : State) (g : Gang) : Bool :=
  if g.ctl.vliw then s.bundleReady g
  else if !g.inSlot || g.cannotIssue s.cycle then false
  else match (after s (s.attempt g.uid)).note with
    | .issued => true
    | .trapped _ => true
    | _ => false

/-- The order of the gangs of a core that may issue (R27, R28): groups in the turn of the ports of their decoder; the aged, then by
priority, then by age. -/
def issueKey (c : Core) (g : Gang) : List Nat :=
  let aged := if Config.agedAt ≤ g.iss.age then 0 else 1
  [(g.lane + 4 - (if g.ctl.vliw then c.vrr else c.rr)) % 4, aged, if aged = 0 then 0 else 15 - g.prio, g.placed, g.slot]
def issueLe (c : Core) (a b : Gang) : Bool := decide (issueKey c a ≤ issueKey c b)

/-- The SIMT decoder picks a gang (R27, R28): no ready gang of its lane group goes before it, and its group is among the first in turn that have
a ready gang, as many as ports are left. -/
def State.isPick (s : State) (g : Gang) : Bool :=
  let c := s.core g.gcore
  let rivals := s.gangs.filter (fun x => x.uid != g.uid && x.gcore == g.gcore && !x.ctl.vliw && s.mayIssue x && s.isReady x)
  g.ctl.vliw || (!rivals.any (fun x => x.lane == g.lane && !issueLe c g x) &&
    ((rivals.filter (fun x => (x.lane + 4 - c.rr) % 4 < (g.lane + 4 - c.rr) % 4)).map Gang.lane).eraseDups.length + s.portsUsed g.gcore false < 2)

/-! ## One cycle -/

/-- The device-time units (2^-16 ns) of one cycle as a fraction: 10 / (27 - step) ns at the rate of freq, and a slew in progress takes 500 ppm of
that away (R402, R435; DEDUCED, assumption 107). -/
def State.timeRate (s : State) : Nat × Nat :=
  let raw := toSigned 32 (bits64 (s.reg (timeBlock + 0x18)) 31 0)
  ((655360 * (65536000000 + raw)).toNat * (if s.clock.slewOn && s.clock.slew != 0 then 1999 else 2000), (27 - s.power.step) * 65536000000 * 2000)

/-- Device time and elapsed time move on by one cycle; so does a slew. -/
def Clock.advance (c : Clock) (r : Nat × Nat) : Clock :=
  let n := (c.rem + r.1) / r.2
  { c with t := timeWrap (c.t + n), el := c.el + n, rem := (c.rem + r.1) % r.2, slew := c.slew - n }

/-- One cycle of a core: a freeze counts down, or its landing clock counts on (R114); a lane group that was given up is in SIMT state from the
boundary on (R29, R31); a debug stop that was released has ended (R419). -/
def Core.tick (c : Core) : Core :=
  let c1 := { c with group := c.freed.foldl SMap.erase c.group, freed := [], stopped := c.stopped && !c.go, go := false }
  if c.frozen then { c1 with freeze := c.freeze - 1 } else { c1 with clk := c.clk + 1 }

/-- What a cycle of its core counts on a gang: the time that a debug stop takes from its landing counts (R419), and that which the interlocked
mode stalls it (R176); a release ends the stop at the boundary. -/
def State.gangTick (s : State) (g : Gang) : Gang :=
  let c := s.core g.gcore
  let g1 := if c.frozen then g
    else if g.iss.stopped && g.ctl.vliw then { g with iss := { g.iss with halted := g.iss.halted + 1 } }
    else if s.mayIssue g && s.windowed g then { g with iss := { g.iss with stall := g.iss.stall + 1 } }
    else g
  if c.go && g.inSlot then { g1 with iss := { g1.iss with stopped := false } } else g1

/-- The tick of device time at which a deadline is found reached (R56, R80, R331). In a replay the deadlines are those of the log (R425). -/
def State.dlTick (s : State) (g : Gang) : Gang :=
  if dlReached s.clock.t g.spec.dl && g.loc != .saved && !g.iss.exiting && !s.replaying g.ctx then { g with iss := { g.iss with dlDue := true } } else g

/-- What a cycle counts: gangs ready without an issue (R277, event 0x08), and the matrix engine's occupied cycles (event 0x0D). -/
def State.countCycle (s : State) : State :=
  let idle := s.gangs.filter (fun g => SMap.get (s.core g.gcore).last g.lane (0, 0) != (s.cycle, g.uid) && s.isReady g)
  let s1 := idle.foldl (fun st g =>
    let held := (SMap.find (s.core g.gcore).group g.lane).isSome
    (st.count g 0x08 1).modGang g.uid (fun x =>
      let y := x.ctr 12 (· + 1)
      if x.ctl.vliw || held then y else { y with iss := { y.iss with age := y.iss.age + 1 } })) s
  s.cores.foldl (fun (st : State) (c : Nat × Core) =>
    if !c.2.frozen && c.2.clk < c.2.mfree then
      match (c.2.mq.filter (fun m => m.started.isSome)).getLast? with
      | some m => match st.gang? m.uid with
        | some g => st.count g 0x0D 1
        | none => st
      | none => st
    else st) s1

/-- The waiting time of VLIW threads for their lane group (R30) runs from the cycle in which they became ready. -/
def State.markWaits (s : State) : State :=
  { s with gangs := s.gangs.map (fun (g : Gang) =>
      if g.ctl.vliw && g.inSlot && !g.iss.group then
        { g with iss := { g.iss with groupFrom := if s.bundleReady g then g.iss.groupFrom.or (some s.cycle) else none } }
      else g) }

/-- One core cycle. Arrivals that a freeze still holds in the cycle after it are applied by then (R114). -/
def State.tick (s0 : State) : State :=
  let s := (s0.cores.foldl (fun st c => if c.2.freeze = 1 then after st (execFreezeEnd c.1 st) else st) s0).thawFrames.countCycle.settleWraps
  let s1 : State := { s with
    cycle := s.cycle + 1
    draw := s.draw + 3
    clock := s.clock.advance s.timeRate
    power := s.power.sense s.draw
    cores := s.cores.map (fun (c : Nat × Core) => (c.1, c.2.tick))
    gangs := s.gangs.map s.gangTick }
  let s2 : State := { s1 with gangs := s1.gangs.map (fun (g : Gang) => s1.dlTick (if g.inSlot then g.landTo (s1.gclk g) else g)) }
  (s2.replayWhere (fun x => (s.core x.gcore).go)).pump.endSwitch.buryCtxs.markWaits.ptpTurn.trip

/-! ## Turns -/

/-- After every turn, a debug stop in force holds the gangs that have come under it (R419). -/
def holdAfter (o : Host.Outcome State Fault Refusal) : Host.Outcome State Fault Refusal :=
  match o with
  | .next s => .next (if s.cores.any (fun (c : Nat × Core) => c.2.stopped) then s.holdStopped else s)
  | x => x

/-- The gangs that LOCKSTEP_RELEASE has just released attempt their first instruction in this very cycle, past whatever holds their lane group or the
ports of their core (R371). -/
def State.firstIssues (s : State) : Host.Outcome State Fault Refusal :=
  match (s.gangs.filter (fun g => g.iss.first)).foldl (fun (o : Host.Outcome State Fault Refusal) g => match o with
    | .next t => (t.modGang g.uid (fun x => { x with iss := { x.iss with first := false } })).attempt g.uid
    | x => x) (.next s) with
  | .next t => .next { t with turn := s.turn, note := s.note }
  | x => x
/-- What follows an event: the first issues of a common release. -/
def releaseAfter (o : Host.Outcome State Fault Refusal) : Host.Outcome State Fault Refusal :=
  match o with
  | .next s => if s.gangs.any (fun g => g.iss.first) then s.firstIssues else .next s
  | x => x

/-- The power is cycled: nothing holds the module any more, and it is reset. -/
def State.cyclePower (s : State) : Host.Outcome State Fault Refusal := exec .moduleReset { s with turn := none, power := { s.power with tripped := false } }

/-- A turn. After a thermal trip only a cycle of the power is taken (R437). -/
def State.take (s : State) (t : Turn) : Host.Outcome State Fault Refusal :=
  if s.power.tripped then (match t with | .powerOn => s.cyclePower | _ => .next { s with cycle := s.cycle + 1 })
  else match t with
    | .powerOn => s.cyclePower
    | .event i => holdAfter (releaseAfter (exec i { s with turn := none }))
    | .tick => holdAfter (.next s.tick)
    | .issue uid => match s.gang? uid with
      | some g => holdAfter (if s.mayIssue g && (s.isPick g || !s.isReady g) then s.attempt uid else .next { s with note := .waiting })
      | none => .next s

/-! ## Requests of the two ports in one cycle (R398) -/

/-- The party and the register of an event that is a write of the register space. -/
def writeOf (i : Instr) : Option (Who × Nat) :=
  match i with
  | .sliceWrite who vf _ => some (who, worldBlock vf)
  | .doorbell who q _ => some (who, queueBlock q + 0x10)
  | .queueEnable who q _ => some (who, queueBlock q + 8)
  | .contextCreate who c _ => some (who, ctxBlock c + 0x28)
  | .contextDestroy who c _ => some (who, ctxBlock c + 0x28)
  | .faultRetire who c _ => some (who, ctxBlock c + 0x50)
  | .faultRetireAll who c _ => some (who, ctxBlock c + 0x50)
  | .hostShootdown who c _ => some (who, ctxBlock c + 0x78)
  | .slotPin who core k _ => some (who, pinAddr core k)
  | .slotUnpin who core k _ => some (who, pinAddr core k)
  | .formatWindowEnable who mc n _ => some (who, windowWord mc n 3)
  | .filterEnable who pp f _ => some (who, filterReg pp f 0)
  | .portBreakout who pp _ => some (who, portBlock pp)
  | .assignmentWrite who off _ => some (who, assignBlock + off)
  | .semaphoreAcquire port k => some (.pf port, semReg k)
  | .semaphoreRelease port k => some (.pf port, semReg k)
  | .portUnfreeze port t => some (.pf port, portCtl t)
  | .timeAdjust who _ => some (who, timeBlock + 0x10)
  | .timeSet who _ => some (who, timeBlock + 0x20)
  | .counterValueWrite who core n _ => some (who, counterBlock core + 16 * n + 8)
  | .ginghamClear who core _ => some (who, counterBlock core + 0x80)
  | .debugStop who core _ => some (who, counterBlock core + 0x900)
  | .debugGo who core _ => some (who, counterBlock core + 0x900)
  | .debugDataWrite who core _ => some (who, counterBlock core + 0x918)
  | .attestationReport who => some (who, attestBlock)
  | .raiseRollbackFloor who => some (who, attestBlock)
  | .registerWrite who a _ => some (who, a)
  | _ => none

/-- An address lies in an enabled guarded range. -/
def State.inGuard (s : State) (a : Nat) : Bool :=
  (List.range 64).any (fun g =>
    let w := s.reg (guardReg g)
    w.getLsbD 6 && bits64 w 51 12 ≤ a / 4096 && a / 4096 ≤ bits64 (s.reg (guardReg g + 8)) 51 12)
/-- The port of an event that the semaphore unit applies: an acquire, a release, a guarded write. -/
def State.unitRequest (s : State) (i : Instr) : Option Nat :=
  let at_ (p a : Nat) : Option Nat := if (semBlock ≤ a && a < semBlock + 0x200) || s.inGuard a then some p else none
  match i with
  | .hostWrite p (.bar0 fn off _) => (s.bar0 p fn off).bind (at_ p)
  | .hostWrite p (.bar2 off data) => (at_ p (s.bar2 p off)).or (at_ p (s.bar2 p off + data.length - 1))
  | _ => (writeOf i).bind (fun x => (Who.port x.1).bind (fun p => at_ p x.2))

/-- The first request of port 0 to the semaphore unit before the cycle ends, and the turns without it. -/
def State.ahead (s : State) : List Turn → Option (Turn × List Turn)
  | [] => none
  | .tick :: _ => none
  | .powerOn :: _ => none
  | .event i :: rest => if s.unitRequest i = some 0 then some (.event i, rest) else (State.ahead s rest).map (fun x => (x.1, .event i :: x.2))
  | t :: rest => (State.ahead s rest).map (fun x => (x.1, t :: x.2))
/-- The next turn of the tape and those after it. Of requests to the semaphore unit that arrive in one cycle port 0's are applied first. -/
def State.nextTurn (s : State) (t : Turn) (rest : List Turn) : Turn × List Turn :=
  match t with
  | .event i => if s.unitRequest i = some 1 then (match s.ahead rest with | some x => (x.1, t :: x.2) | none => (t, rest)) else (t, rest)
  | _ => (t, rest)

/-! ## The device's own order -/

/-- What a turn may end as. -/
abbrev Result := Host.Outcome State Fault Refusal
/-- An event that the device takes by itself: the meaning of an event of the table, with its operands. -/
abbrev Own := State → Result

/-- The events that may end or carry on an operation in flight. -/
def Flight.events (f : Flight) : List Own :=
  match f.kind with
  | .atomic .. => [execAtomicApply f.id, execDecoupledAccessCompletion f.id]
  | .spadAtomic .. => [execAtomicApply f.id]
  | .join _ => [execHomeSliceJoin f.id]
  | .poll _ => [execHomeSliceJoin f.id]
  | .resolve .. => [execHomeSliceResolve f.id]
  | .cell .. => [execCellDecrement f.id]
  | .xlat .. => [execWalkCompletion f.id]
  | .watch _ => [execWatchRegistration f.id]
  | .revoke .. => [execRevocation f.id]
  | .post .. => [execRemoteFlagPost f.id]
  | .append _ _ node _ _ => [execRecordAppend f.ctx node]
  | .sched _ => [execSchedulerWriteDelivery f.id]
  | _ => [execLoadResultReturn f.id, execStoreRegistration f.id, execDecoupledAccessCompletion f.id]

def Gang.events (g : Gang) : List Own :=
  [execDeadlineReached g.uid, execPauseExpiry g.uid, execWaitwTimeout g.uid, execYieldSequence g.uid, execYieldRecordFreed g.uid,
    execSlotRelease g.uid, execFullSave g.uid, execFullRestore g.uid, execLaneGroupAcquire g.uid]

def coreEvents (c : Nat × Core) : List Own :=
  (if c.2.freeze = 1 then [execFreezeEnd c.1] else []) ++ (if c.2.stop.isSome then [execDebugStopEffect c.1] else []) ++
  (if c.2.mq.isEmpty then [] else [execMatrixCompletion c.1, execMatrixStart c.1]) ++
  (c.2.tiles.filter (fun (t : Nat × Tile) => t.2.state == 3)).map (fun t => execTileDrainComplete c.1 t.1)

def Cmd.events (c : Cmd) : List Own :=
  [execEngineCommandTakeUp c.id, execStrmChunkEnd c.id, execNetxFrameSent c.id, execEngineCommandCompletion c.id]

def ctxEvents (c : Nat × Ctx) : List Own :=
  (if c.2.faults.isEmpty then [] else [execFaultEntryDeferred c.1]) ++ (if c.2.ovr.isEmpty then [] else [execOverflowReturn c.1]) ++
  (c.2.bins.map (fun (b : Nat × Bin) => [execRecordAppend c.1 b.1, execBinTimerExpiry c.1 b.1])).flatten ++ (if c.2.live then [execMuslinReplayInjection c.1] else [])

def sliceEvents (h : Nat × Slice) : List Own :=
  (h.2.lines.filter (fun (l : Nat × L2Line) => l.2.audit.isSome)).map (fun l => execAuditAgeExpiry h.1 (l.1 / 16) (l.1 % 16))

def queueEvents (q : Nat × Queue) : List Own := [execWaitConditionMet q.1, execWaitTimeout q.1, execInterruptDelayExpiry q.1]

/-- The event that runs a packet of the pass (R362). -/
def packetEvent (q : Nat) (bs : List Byte) : Own :=
  match pkType bs, pk bs 8 1 with
  | 1, _ => if pkBit bs 83 then execDispatchDefine q else execDispatch q
  | 2, _ => execLockstep q
  | 3, _ => execRecordPacket q
  | 4, _ => execCopyPacket q
  | 5, _ => execWaitflag q
  | 6, _ => execWaitmem q
  | 7, 0 => execSignalWrite q
  | 7, 1 => execSignalAdd q
  | 7, 2 => execSignalResolve q
  | 7, 3 => execSignalPoison q
  | 7, _ => execSignalPost q
  | 8, _ => execTimestamp q
  | 9, 0 => execBudgetAdd q
  | 9, 1 => execBudgetSet q
  | 9, _ => execBudgetReclaim q
  | _, _ => execDeadline q

/-- The world switch that is due: to the next function in turn that has something to run. The first one takes place when two functions have. -/
def State.switchEvents (s : State) : List Own :=
  match s.worlds.current with
  | none =>
    match (List.range 64).filter (fun u => !s.idleVf u) with
    | a :: b :: _ => [execWorldSwitch b a]
    | _ => []
  | some v =>
    match ((List.range 64).map (fun i => (v + i + 1) % 64)).find? (fun u => u != v && !s.idleVf u) with
    | some u => [execWorldSwitch v u]
    | none => []

/-- Every event that the device may take by itself, in the order in which the model tries them. -/
def State.ownEvents (s : State) : List Own :=
  (s.cores.map coreEvents).flatten ++ (s.flights.map Flight.events).flatten ++ (s.gangs.map Gang.events).flatten ++ (s.cmds.map Cmd.events).flatten ++
  (if s.audits.isEmpty then [] else [execAuditResult 0]) ++ (s.slices.map sliceEvents).flatten ++ (s.ctxs.map ctxEvents).flatten ++
  (s.launches.map (fun (l : Launch) => [execLaunchCompletion l.id, execLockstepRelease l.id])).flatten ++ (s.queues.map queueEvents).flatten ++
  (match s.percale.pass with | (q, bs) :: _ => [packetEvent q bs] | [] => []) ++ [execResidencyQuantum, execPercalePass] ++
  ((List.range 8).map execWaiterPlacement) ++ s.switchEvents ++ [execTimeSlewEnd, State.slowDown] ++
  (if s.paths.isEmpty then [] else [execPathWriteMerge 0])

def insertGang (le : Gang → Gang → Bool) (x : Gang) : List Gang → List Gang
  | [] => [x]
  | y :: l => if le x y then x :: y :: l else y :: insertGang le x l
def State.issueOrder (s : State) (c : Nat × Core) : List Gang :=
  (s.gangs.filter (fun g => g.gcore == c.1 && s.mayIssue g)).foldr (insertGang (issueLe c.2)) []

/-- Does a turn do anything? How the attempt ended does not count. -/
def State.changes (s : State) (r : Result) : Bool :=
  match r with
  | .next x => decide ({ x with note := s.note, turn := s.turn } ≠ s)
  | _ => false

/-- The turn that the device takes by itself: the first event that does something, else the first gang that can issue, else a cycle. -/
def State.natural (s : State) : Result :=
  if s.power.tripped then .next { s with cycle := s.cycle + 1 }
  else
    let quiet : State := { s with turn := none }
    match s.ownEvents.find? (fun e => s.changes (e quiet)) with
    | some e => holdAfter (releaseAfter (e quiet))
    | none =>
      match ((s.cores.map (fun c => s.issueOrder c)).flatten).find? (fun g => s.changes (s.attempt g.uid)) with
      | some g => s.take (.issue g.uid)
      | none => s.take .tick

end Sys2Proof.Machine
end

