-- ==== Sys2Proof/Machine/Step.lean ====
section
/-! DEFINITION. One step of the module: the turn that the tape of the state names, or the one that the device takes by itself; and how a
program is loaded and started from outside (notes/assumptions/2.md). -/

namespace Sys2Proof.Machine

/-- One step. -/
def step (s : State) : Host.Outcome State Fault Refusal :=
  match s.tape with
  | t :: rest =>
    let n := s.nextTurn t rest
    State.take { s with tape := n.2 } n.1
  | [] => s.natural

/-! ## Loading a program -/

/-- The bit of a header that announces a place. -/
def placeBit : Place → Nat
  | .simt => 37
  | .lane k => 41 + k % 16
  | .mem 0 => 40
  | .mem _ => 39
  | .eng => 38
  | .br => 37
  | .shuf => 36

/-- The words under which the decoder meets an instruction: a bundle as it is, a word of the SIMT decoder as it is, and a word that only a
slot may hold in a bundle of that slot alone. The second part names the decoder. -/
def loadWords (w : Nat) : List Word64 × Bool :=
  let ws := tableWords w
  let w0 := ws.getD 0 0
  if isHeader w0 then (ws.take (1 + headerSlots w0), true)
  else match placeOf w0 with
    | .simt => ([w0], false)
    | p => ([BitVec.ofNat 64 (0x7F * 2 ^ 57 + 2 ^ placeBit p), w0], true)

/-- The address of the loaded words: both the virtual one and that in main memory. -/
def loadAddress : Nat := 0x1000

/-- The gang that runs the loaded words: slot 0 of core 0 of cluster 0, context 0, all 32 strands, full budgets. -/
def loadGang (uid : Nat) (vliw : Bool) : Gang where
  uid := uid
  ctx := 0
  node := 0
  ent := {}
  gid := 0
  cluster := 0
  core := 0
  slot := 0
  gen := 0
  prio := 8
  placed := 0
  launch := none
  topup := false
  loss := 0
  present := BitVec.allOnes 32
  recs := []
  loc := .resident
  pc := BitVec.ofNat 64 loadAddress
  ctl := { active := BitVec.allOnes 32, vliw := vliw }
  regs := {}
  spec := { ib := 0x40000000, tb := 0x40000000 }
  shadow := {}
  window := {}
  monitor := none
  park := none
  pend := []
  lostStore := false
  iss := { group := vliw }

/-- The state with an instruction's words in main memory, a page over them, a gang whose next address they stand at in place of what is in
slot 0 of core 0, and its attempt to issue as the next turn. -/
def State.withFetchWord (s : State) (_nbits w : Nat) : State :=
  let l := loadWords w
  { s with
    tape := .issue s.next :: s.tape
    next := s.next + 1
    gangs := loadGang s.next l.2 :: s.gangs.filter (fun g => !(g.gcore == 0 && g.slot == 0))
    cores := SMap.upd s.cores 0 {} (fun c =>
      { c with freeze := 0, freed := [], beat := SMap.erase c.beat 0, last := [], group := if l.2 then SMap.set c.group 0 s.next else SMap.erase c.group 0 })
    tlbs := { unit := 0, ctx := 0, va := loadAddress, size := 0, pa := loadAddress, rd := true, wr := true, ex := true } :: s.tlbs
    dram := Memory.writeN s.dram loadAddress ((l.1.map (fun x => leBytes 8 x.toNat)).flatten) }

end Sys2Proof.Machine
end

