-- ==== Sys2Proof/Safety.lean ====
section
/-! DEFINITION. The terms in which the statements speak: what a safe run is, when a gang issues an instruction of the SIMT decoder, which
strands execute it, and what of a gang others change in passing. -/

namespace Sys2Proof.Machine

/-- No step of the first n stops with a fault or a refusal. -/
def State.safeFor : Nat → State → Prop
  | 0, _ => True
  | n + 1, s => ∃ t, step s = .next t ∧ State.safeFor n t

/-- No gang has a trap or a return from one that waits (R256, R276, R341), nor a lost store to tell a release in flight of (R129),
nor a loss of its context to hear of (R130, R389). -/
def State.noLateTrap (s : State) : Prop :=
  ∀ x ∈ s.gangs, x.iss.dueTrap = none ∧ x.iss.tretTo = none ∧ x.lostStore = false ∧ x.loss = (s.ctx x.ctx).loss

/-- A gang under the SIMT decoder comes to issue an instruction: it is its turn, nothing holds it back (R27, R66, R70), the word is an
instruction (R178), no operand is outstanding, a seal finds every result back (R65), and its instruction budget pays (R57). -/
structure Issues (s : State) (g : Gang) (i : Instr) : Prop where
  turn   : s.turn = some g.uid
  here   : s.gang? g.uid = some g
  free   : g.cannotIssue s.cycle = false
  keeps  : g.iss.reclaim = false
  simt   : g.ctl.vliw = false
  legal  : i.legal .simt false = true
  clear  : s.scoreboard g.uid i = false
  back   : i.seals = true → s.resultsOut g.uid = false
  pays   : ciOf i.maj ≤ g.spec.ib.toNat
  fresh  : g.iss.drained = false
  calm   : s.noLateTrap

/-- A gang under the SIMT decoder attempts an instruction, whether or not its budgets pay for it (R57). -/
structure Attempts (s : State) (g : Gang) (i : Instr) : Prop where
  turn   : s.turn = some g.uid
  here   : s.gang? g.uid = some g
  free   : g.cannotIssue s.cycle = false
  keeps  : g.iss.reclaim = false
  simt   : g.ctl.vliw = false
  legal  : i.legal .simt false = true
  clear  : s.scoreboard g.uid i = false
  back   : i.seals = true → s.resultsOut g.uid = false

/-- The environment of an instruction of the SIMT decoder. -/
def simtEnv (s : State) (g : Gang) (i : Instr) : Env :=
  { s := s.setGang g, g := g, place := .simt, pc := g.pc, npc := g.pc + 8, h := i.hd, imm := none }

/-- A strand executes an instruction of the SIMT decoder: it is active and its guard holds (R153). -/
def Gang.executes (g : Gang) (i : Instr) (st : Nat) : Bool :=
  decide (st < 32) && g.ctl.active.getLsbD st && (g.p st i.hd.gd.toNat != i.hd.neg)

/-- A pending write without the time of its landing and what has landed before it. -/
def PendWrite.pass (p : PendWrite) : PendWrite := { p with flight := none, hold := none, land := 0, key := 0, passed := false }

/-- A park without the charge noted in it. -/
def Park.pass (k : Park) : Park := { k with ci := 0, ct := 0 }

/-- A gang without what others change in passing: the monitor (R102), the phases of its cohorts (R49), the shadow bank (R62), the landing times
of its decoupled results (R174), the charge noted in a park (R61), and the blocks, log marks and times of issue. -/
def Gang.pass (g : Gang) : Gang :=
  { g with monitor := none, shadow := {}, ctl := { g.ctl with k := [] }, pend := g.pend.map PendWrite.pass
           park := g.park.map Park.pass
           iss := { g.iss with block := [], recStale := false, mseal := false, mloads := [], since := none } }

/-! ## What an instruction leaves as it was -/

/-- The 32-bit registers of a width. -/
def OpW.words : OpW → Nat
  | .w32 => 1
  | .w64 => 2
  | .w128 => 4

/-- A v-register (its key is 128 * strand + register) is one that an instruction with destination field d of a width writes: in an
executing strand, d or one that follows it in its pair or quad (R135, R160). -/
def writesV (g : Gang) (i : Instr) (d : Reg) (w : OpW) (k : Nat) : Bool :=
  g.executes i (k / 128) && decide (d.toNat < 128) && (List.range (OpW.words w)).any (fun q => (d.toNat + q) % 128 == k % 128)

/-- All of a gang besides its registers, predicates, branch registers, fx and address: the budgets are charged (R57), the counters of R277
count, a seal may have moved cp and cpm (R63, R66), and nothing else of it has changed but what others change in passing. -/
structure Leaves (g g' : Gang) (i : Instr) (ct : Nat) : Prop where
  spec : g'.spec = { g.spec with ib := g.spec.ib - BitVec.ofNat 32 (ciOf i.maj), tb := g.spec.tb - BitVec.ofNat 32 ct, ctrs := g'.spec.ctrs
                                 cp := if i.seals then g'.spec.cp else g.spec.cp, cpm := if i.seals then g'.spec.cpm else g.spec.cpm }
  ctl  : g'.ctl = { g.ctl with p := g'.ctl.p, b := g'.ctl.b, fx := g'.ctl.fx, k := g'.ctl.k }
  rest : g' = { g with pc := g'.pc, ctl := g'.ctl, regs := g'.regs, spec := g'.spec, shadow := g'.shadow, monitor := g'.monitor, iss := g'.iss
                       pend := g'.pend, park := g'.park }
  park : g'.park.map Park.pass = g.park.map Park.pass
  pend : g'.pend.map PendWrite.pass = g.pend.map PendWrite.pass

/-- Of the registers, only the destination d of a width has changed: its v-registers in the executing strands, or the s-register that it
names (R160, R161). -/
structure WroteOnly (x y : Gang) (i : Instr) (d : Reg) (w : OpW) : Prop where
  v  : ∀ k, writesV x i d w k = false → y.regs.v.get k = x.regs.v.get k
  s  : ∀ n, d.toNat ≠ 128 + n → y.regs.s.get n = x.regs.s.get n
  g  : y.regs.g = x.regs.g
  h  : y.regs.h = x.regs.h
  pt : y.regs.pt = x.regs.pt
  p  : y.ctl.p = x.ctl.p
  b  : y.ctl.b = x.ctl.b

/-- After an instruction with destination field d of a width, that field holds val of each executing strand: its v-registers, low word first
(R135, R160), or the s-register, which takes the value of the lowest executing strand (R161). -/
def gets (x y : Gang) (i : Instr) (d : Reg) (w : OpW) (val : Nat → Nat) : Prop :=
  (d.toNat < 128 → ∀ st, x.executes i st = true → ∀ q < OpW.words w,
    y.regs.v.get (128 * st + (d.toNat + q) % 128) = BitVec.ofNat 32 (val st / 2 ^ (32 * q))) ∧
  (128 ≤ d.toNat → d.toNat < 192 → ∀ st, x.executes i st = true → (∀ st' < st, x.executes i st' = false) →
    y.regs.s.get (d.toNat - 128) = BitVec.ofNat 64 (val st % 2 ^ (32 * min 2 (OpW.words w))))

/-- An instruction completes with a value in its destination d of a width, in each executing strand one of which P holds, and leaves all else as it was. -/
def yields (s : State) (g : Gang) (i : Instr) (d : Reg) (w : OpW) (P : Nat → Nat → Prop) : Prop :=
  Issues s g i → ∃ t g' val, exec i s = .next t ∧ t.gang? g.uid = some g' ∧ g'.pc = g.pc + 8 ∧ Leaves g g' i 0 ∧ WroteOnly g g' i d w ∧
    gets g g' i d w val ∧ ∀ st, P st (val st)

/-- An instruction completes with a predicate in field d, that of each executing strand. -/
def tells (s : State) (g : Gang) (i : Instr) (d : Reg) (P : Nat → Bool) : Prop :=
  Issues s g i → ∃ t g', exec i s = .next t ∧ t.gang? g.uid = some g' ∧ g'.pc = g.pc + 8 ∧ Leaves g g' i 0 ∧
    ∀ st, g.executes i st = true → g'.p st (d.toNat % 16) = P st

/-- A local release or a fence, which takes effect at the end of a step once its gang's earlier accesses are complete (R121, R126). -/
def Flight.releases (f : Flight) : Bool :=
  match f.kind with
  | .localPost .. => true
  | .arrive .. => true
  | .maintain op => decide (16 ≤ op)
  | _ => false

/-- Nothing else is about to happen in the step in which a gang issues: no local release waits for its turn (R121), no seal is due (R66), no
counter counts on the gang's core (R410) and Gingham is off there (R416). -/
def State.calmFor (s : State) (g : Gang) : Bool :=
  s.flights.all (fun f => !f.releases) &&
  s.gangs.all (fun x => x.iss.sealTo.isNone && x.iss.splitTo.isNone && !x.iss.mseal) &&
  (List.range 8).all (fun n => !(s.reg (counterBlock g.gcore + 16 * n)).getLsbD 18) &&
  !(s.reg (counterBlock g.gcore + 0x80)).getLsbD 10

/-- Main memory reads as before through every path. Where the controllers' windows differ (R148), what it reads is unpredictable at each read. -/
def State.sameMain (s t : State) : Prop :=
  (∀ pa : Nat, t.windowBad pa = s.windowBad pa) ∧ ∀ (p : Path) (pa : Nat), isDram pa = true → s.windowBad pa = false → t.pathByte p pa = s.pathByte p pa

/-- Every byte reads as before: main memory through every path, and every scratchpad bank. -/
def State.sameBytes (s t : State) : Prop := s.sameMain t ∧ ∀ (p : Path) (pa : Nat), isSpad pa = true → t.spadByte p pa = s.spadByte p pa

/-- The writes that wait for a range of n bytes of scratchpad have reached their banks (R127, R128): main memory reads as before, so does every scratchpad byte that
none of them covers, and within the range every byte that only writes of VEC cover reads as VEC had it. -/
def State.mergedSpad (s t : State) (lo n : Nat) : Prop :=
  s.sameMain t ∧ ((∀ w ∈ s.paths, isSpad w.pa = true → w.pa + w.data.length ≤ 2 ^ 48 + 2 ^ 29) →
    (∀ (p : Path) (pa : Nat), isSpad pa = true →
      (∀ w ∈ s.paths, isSpad w.pa = true → w.pa < lo + n → lo < w.pa + w.data.length → pa < w.pa ∨ w.pa + w.data.length ≤ pa) →
      (t.spadByte p pa).1 = (s.spadByte p pa).1) ∧
    (∀ pa, isSpad pa = true → lo ≤ pa → pa < lo + n → (∀ w ∈ s.paths, w.pa ≤ pa → pa < w.pa + w.data.length → w.path = .vec ∧ isSpad w.pa = true) →
      (t.spadByte .vec pa).1 = (s.spadByte .vec pa).1))

/-! ## Families by what they write -/

/-- The integer instructions with one destination field, and its width (R192 to R209). -/
def intDest (i : Instr) : Option (Reg × OpW) :=
  match i with
  | .iadd _ x | .iaddSub _ x | .iaddRsub _ x | .imul _ x | .imulHi _ x | .imad _ x | .idiv _ x | .idivRem _ x | .imnx _ x | .imnxMax _ x
  | .iabs _ x | .iabsNeg _ x | .iclmp _ x | .and _ x | .andNot _ x | .or _ x | .orNot _ x | .xor _ x | .xorNot _ x | .shl _ x | .shr _ x
  | .shrAr _ x | .rot _ x | .rotRr _ x | .brev _ x | .brevByte _ x | .bfx _ x | .bfi _ x | .sel _ x | .mov _ x => some (x.d, (iType x.mod).opw)
  | .iabsSad _ x | .lut3 _ x | .rotShfl _ x | .rotShfr _ x | .popc _ x | .clz _ x | .clzCtz _ x | .clzCls _ x | .prmt _ x | .pack _ x
  | .packSs _ x | .packNn _ x | .idot _ x | .idotH _ x => some (x.d, .w32)
  | .imulWide _ x | .imadWide _ x | .lea _ x | .leaN _ x => some (x.d, .w64)
  | .movi _ x => some (x.d, if 128 ≤ x.d.toNat then .w64 else .w32)
  | .moviX64 _ x | .movh _ x => some (x.d, .w64)
  | .movhX32 _ x => some (x.d, .w32)
  | .mfs _ x => some (x.d, wSpr x.a)
  | _ => none

/-- What the element-wise instructions compute of one element of a, b and c, exactly (R196): the register fields and the function. -/
def elementFn (i : Instr) : Option (RF × (Int → Int → Int → Int)) :=
  match i with
  | .iadd _ x => some (x, fun a b _ => a + b)
  | .iaddSub _ x => some (x, fun a b _ => a - b)
  | .iaddRsub _ x => some (x, fun a b _ => b - a)
  | .imul _ x => some (x, fun a b _ => a * b)
  | .imad _ x => some (x, fun a b c => a * b + c)
  | .imnx _ x => some (x, fun a b _ => min a b)
  | .imnxMax _ x => some (x, fun a b _ => max a b)
  | .iabs _ x => some (x, fun a _ _ => if a < 0 then -a else a)
  | .iabsNeg _ x => some (x, fun a _ _ => -a)
  | .iclmp _ x => some (x, fun a b c => min (max a b) c)
  | _ => none

/-- What the bitwise instructions compute of one bit of a and b (R198). -/
def bitFn (i : Instr) : Option (RF × (Bool → Bool → Bool)) :=
  match i with
  | .and _ x => some (x, fun a b => a && b)
  | .andNot _ x => some (x, fun a b => a && !b)
  | .or _ x => some (x, fun a b => a || b)
  | .orNot _ x => some (x, fun a b => a || !b)
  | .xor _ x => some (x, fun a b => a != b)
  | .xorNot _ x => some (x, fun a b => a == b)
  | _ => none

/-- The cross-lane instructions with one destination field in every executing strand (R210 to R215, R226, R227). -/
def laneDest (i : Instr) : Option (Reg × OpW) :=
  match i with
  | .voteBallot _ x | .voteCount _ x | .voteFirst _ x | .gred _ x | .gscan _ x | .bxpk _ x | .bxup _ x => some (x.d, .w32)
  | .rdlane _ x | .shuf _ x | .shufRot _ x | .shufXor _ x | .shufRev _ x | .patsw _ x => some (x.d, (iType x.mod).opw)
  | _ => none

/-- The floating-point instructions with one destination field (R216 to R225). -/
def fpDest (i : Instr) : Option (Reg × OpW) :=
  match i with
  | .fadd _ x | .faddSub _ x | .fmul _ x | .ffma _ x | .ffmaMs _ x | .ffmaNm _ x | .fmnx _ x | .fmnxMax _ x | .fmnxMinn _ x | .fmnxMaxn _ x
  | .fcls _ x | .fscl _ x | .frnd _ x | .fdiv _ x | .fsqrt _ x | .sfu _ x | .dadd _ x | .daddSub _ x | .dmul _ x | .dfma _ x | .dfmaMs _ x
  | .dfmaNm _ x | .fxmFm _ x | .fxmFe _ x | .fxmIlogb _ x => some (x.d, Fmt.opw (fmtOf x))
  | .fcvt _ x | .i2f _ x | .dcvtF32F64 _ x | .fdot2 _ x | .f8dot _ x | .f8dotMx _ x => some (x.d, .w32)
  | .dcvtF64F32 _ x | .dcvtF64I _ x => some (x.d, .w64)
  | .f2i _ x => some (x.d, if (ity x.fn.toNat).1 = 64 then .w64 else .w32)
  | .dcvtIF64 _ x => some (x.d, if (ity x.c.toNat).1 = 64 then .w64 else .w32)
  | _ => none

/-- The source participant of a lane read, a shuffle or a pattern switch (R212 to R214). -/
def laneSrc (i : Instr) : Option (RF × (Env → Nat → Nat)) :=
  match i with
  | .rdlane _ x => some (x, fun e _ => (e.uni { f := x.b }).toNat % e.width)
  | .shuf _ x => some (x, fun e k => k - k % segment x + (e.read { f := x.b } k).toNat % segment x)
  | .shufRot _ x => some (x, fun e k => k - k % segment x + (k % segment x + (e.uni { f := x.b }).toNat % 256) % segment x)
  | .shufXor _ x => some (x, fun e k => k - k % segment x + Nat.xor (k % segment x) ((e.uni { f := x.b }).toNat % 256) % segment x)
  | .shufRev _ x => some (x, fun _ k => k - k % segment x + (segment x - 1 - k % segment x))
  | .patsw _ x => some (x, fun e k => e.g.pt (x.fn.toNat % 4) k % e.width)
  | _ => none

/-- An operand of a floating-point instruction as an exact value, after FTZ on it (R133, R138). -/
def fpVal (x : RF) (v : Nat) : Num := decodeF (fmtOf x) (flushIn (fmtOf x) (ftzOf x) v)
/-- An exact value rounded once, with FTZ on the result (R137, R138). -/
def fpOut (x : RF) (y : Num) : Nat := (flushOut (fmtOf x) (ftzOf x) (roundTo (fmtOf x) (rmOf x) false y)).1
/-- The minimum or maximum of R217: −0 below +0, a NaN given back or passed over. -/
def fpPick (x : RF) (larger keep : Bool) (a b : Nat) : Nat :=
  let p := flushIn (fmtOf x) (ftzOf x) a
  let q := flushIn (fmtOf x) (ftzOf x) b
  if (fpVal x a).isNan then (if keep && !(fpVal x b).isNan then q else canonNaN (fmtOf x))
  else if (fpVal x b).isNan then (if keep then p else canonNaN (fmtOf x))
  else if fpLess (fpVal x a) (fpVal x b) == larger then q else p

/-- What the element-wise floating-point instructions give for one element of a, b and c (R216, R217, R219, R220, R222): of sums, products, quotients, roots and scales the exact result rounded once, where
an invalid operation is exactly NaN; a scale beyond 1,000 rounds every f32 as 1,000 does. -/
def fpElem (i : Instr) : Option (RF × (Nat → Nat → Nat → Nat)) :=
  match i with
  | .fadd _ x | .dadd _ x => some (x, fun a b _ => fpOut x (sumNum (rmOf x) [fpVal x a, fpVal x b]))
  | .faddSub _ x | .daddSub _ x => some (x, fun a b _ => fpOut x (sumNum (rmOf x) [fpVal x a, (fpVal x b).negate]))
  | .fmul _ x | .dmul _ x => some (x, fun a b _ => fpOut x (mulNum (fpVal x a) (fpVal x b)))
  | .ffma _ x | .dfma _ x => some (x, fun a b c => fpOut x (sumNum (rmOf x) [mulNum (fpVal x a) (fpVal x b), fpVal x c]))
  | .ffmaMs _ x | .dfmaMs _ x => some (x, fun a b c => fpOut x (sumNum (rmOf x) [mulNum (fpVal x a) (fpVal x b), (fpVal x c).negate]))
  | .ffmaNm _ x | .dfmaNm _ x => some (x, fun a b c => fpOut x (sumNum (rmOf x) [(mulNum (fpVal x a) (fpVal x b)).negate, fpVal x c]))
  | .fdiv _ x => some (x, fun a b _ => fpOut x (divNum (fpVal x a) (fpVal x b)))
  | .fsqrt _ x => some (x, fun a _ _ => fpOut x (sqrtNum (fpVal x a)))
  | .fscl _ x => some (x, fun a b _ => fpOut x (match fpVal x a with
    | .fin n m e => .fin n m (e + max (-1000) (min 1000 (toSigned 32 b)))
    | y => y))
  | .fmnx _ x => some (x, fun a b _ => fpPick x false false a b)
  | .fmnxMax _ x => some (x, fun a b _ => fpPick x true false a b)
  | .fmnxMinn _ x => some (x, fun a b _ => fpPick x false true a b)
  | .fmnxMaxn _ x => some (x, fun a b _ => fpPick x true true a b)
  | .fcls _ x => some (x, fun a _ _ => 2 ^ fpClass (fmtOf x) a)
  | .frnd _ x => some (x, fun a _ _ => (roundTo (fmtOf x) .rne false (match fpVal x a with
    | .fin n m e => .fin n (roundInt (rmOf x) (.fin n m e)).1.natAbs 0
    | y => y)).1)
  | .fxmFm _ x => some (x, fun a _ _ => (roundTo (fmtOf x) .rne false (match fpVal x a with
    | .fin n m e => if m = 0 then .fin n m e else .fin n m (e - fracExp (.fin n m e))
    | y => y)).1)
  | .fxmFe _ x => some (x, fun a _ _ => match fpVal x a with
    | .fin n m e => if m = 0 then 0 else ofInt 32 (fracExp (.fin n m e))
    | _ => 0)
  | .fxmIlogb _ x => some (x, fun a _ _ => match fpVal x a with
    | .nan => 0x80000000
    | .inf _ => 0x7FFFFFFF
    | .fin n m e => if m = 0 then 0x80000000 else ofInt 32 (fracExp (.fin n m e) - 1))
  | _ => none

/-- The operand of a conversion to an integer type, rounded and limited to it (R141). -/
def toIntType (rm : Rm) (t : Nat × Bool) (y : Num) : Int :=
  match y with
  | .nan => 0
  | .inf neg => if neg then intMin t.1 t.2 else intMax t.1 t.2
  | y => clampInt t.1 t.2 (roundInt rm y).1

/-- The results of SFU that R221 gives exactly, of an operand after FTZ: of NaN, zeros and infinities, and of the arguments at which the function is exact. -/
def sfuExact (fn a : Nat) : Option Nat :=
  let y := decodeF .f32 a
  let integral := match y with | .fin .. => (fixFloor y).2 == 0 | _ => false
  if y.isNan then some (canonNaN .f32)
  else match fn with
    | 0 => if y.isZero then some (infBits .f32 y.neg?) else if y.isInf then some (zeroBits .f32 y.neg?) else none
    | 1 => if y.isZero then some (infBits .f32 y.neg?) else if y.neg? then some (canonNaN .f32) else if y.isInf then some 0 else none
    | 2 => if y.isInf then some (if y.neg? then 0 else infBits .f32 false) else if integral then exactPower (fixFloor y).1 else none
    | 3 => if y.isZero then some (infBits .f32 true) else if y.neg? then some (canonNaN .f32) else if y.isInf then some (infBits .f32 false)
      else if a = 0x3F800000 then some 0 else none
    | 4 => if y.isInf then some (canonNaN .f32) else if integral then some 0 else none
    | 5 => if y.isInf then some (canonNaN .f32) else if integral then some 0x3F800000 else none
    | 6 => if y.isInf then some (if y.neg? then 0xBF800000 else 0x3F800000) else if y.isZero then some a else none
    | _ => if y.isInf then some (if y.neg? then 0 else 0x3F800000) else none

/-- The instructions whose destination is the predicate that field d names (R193, R201, R202, R211, R218, R219). -/
def predDest (i : Instr) : Option Reg :=
  match i with
  | .icmp _ x | .plog _ x | .voteAny _ x | .voteAll _ x | .fcmp _ x | .dcmp _ x | .fclsP _ x => some x.d
  | _ => none

/-! ## What an instruction sends and stores -/

/-- No register, predicate, branch register or fx bit has changed. -/
def keepsRegs (x y : Gang) : Prop := y.regs = x.regs ∧ y.ctl.p = x.ctl.p ∧ y.ctl.b = x.ctl.b ∧ y.ctl.fx = x.ctl.fx

/-- A memory instruction with generic addresses (R233, R237 to R239, R243 to R245): what it asks for, whether each sector is charged (R59), and
each strand's request at its virtual address. -/
structure Generic where
  req     : Req
  charged : Bool
  parts   : Env → List Part

def generic (i : Instr) : Option Generic :=
  match i with
  | .ld _ x => some ⟨reqLd x, true, loadParts x⟩
  | .ldnc _ x => some ⟨reqLdnc x, true, loadParts x⟩
  | .ldacq _ x => some ⟨reqLdacq x, true, loadParts x⟩
  | .st _ x => some ⟨reqSt x, true, storeParts x⟩
  | .strel _ x => some ⟨reqStrel x, true, storeParts x⟩
  | .atom _ x => some ⟨reqAtom x x.fn.toNat, true, atomParts x false⟩
  | .atomf _ x => some ⟨reqAtom x (0x20 + x.fn.toNat), true, atomParts x false⟩
  | .cas _ x => some ⟨reqAtom x 0x10, true, atomParts x true⟩
  | .prefDiscard _ x => some ⟨reqDiscard x, false, discardParts x⟩
  | .cmntWb _ x => some ⟨reqCmnt x 0, false, cmntParts x⟩
  | .cmntWbinv _ x => some ⟨reqCmnt x 1, false, cmntParts x⟩
  | .cmntInv1 _ x => some ⟨reqCmnt x 2, false, cmntParts x⟩
  | .watch _ x => some ⟨reqWatch, false, watchParts x⟩
  | _ => none

/-- The traffic charge of an instruction (R59): distinct sectors of a generic access, of an access through a handle that is not the core's own, and of a
prefetch; 64-byte units of an engine command; else nothing. -/
def trafficOf (i : Instr) (e : Env) : Nat :=
  match i with
  | .ldh _ x | .sth _ x => handleCt x e
  | .pref _ x | .prefL2 _ x => sectors 1 (prefSectors x e)
  | .copy _ x => if e.acts then (copyCount x e + 63) / 64 else 0
  | .strmIn _ x | .strmOut _ x => if e.acts then (strmCount x e + 63) / 64 else 0
  | .netx _ x => if e.acts then (netxCount x e + 63) / 64 else 0
  | _ => match generic i with
    | some m => if m.charged then sectors m.req.align (m.parts e) else 0
    | none => 0

/-- The operations that a step adds to those in flight: each is the gang's, of one kind, held back by no trap, and together they carry the
parts. -/
def sends (s t : State) (g : Gang) (k : FlightKind) (rel : Bool) (queue : Option Nat) (ps : List Part) : Prop :=
  ∃ new, t.flights = s.flights ++ new ∧
    (∀ f ∈ new, f.uid = some g.uid ∧ f.ctx = g.ctx ∧ f.kind = k ∧ f.rel = rel ∧ f.queue = queue ∧ f.shelved = false) ∧
    ∀ p, p ∈ ps ↔ ∃ f ∈ new, p ∈ f.parts

/-- Stores of n bytes by strands at scratchpad addresses: main memory reads as before, scratchpad outside the stored bytes reads as before, and
the bytes stored, as the VEC path has them (R127), are those of the highest strand that stores there (R231). -/
def storedOnly (s t : State) (who : Nat → Bool) (addr : Nat → Nat) (n : Nat) (data : Nat → BitVec 128) : Prop :=
  s.sameMain t ∧
  (∀ (p : Path) (pa : Nat), isSpad pa = true → (∀ st, who st = true → pa < addr st ∨ addr st + n ≤ pa) → t.spadByte p pa = s.spadByte p pa) ∧
  (∀ st k, who st = true → k < n → (∀ st', st < st' → who st' = true → addr st + k < addr st' ∨ addr st' + n ≤ addr st + k) →
    (t.spadByte .vec (addr st + k)).1 = BitVec.ofNat 8 ((data st).toNat / 2 ^ (8 * k)))

/-- The value that a scratchpad load of n bytes brings a strand (R119, R231). -/
def spadValue (s : State) (g : Gang) (n : Nat) (sgn : Bool) (pa : Nat) : Nat :=
  (loaded n sgn ((List.range n).map (fun k => (s.spadLoadByte g.uid false (pa + k)).1))).toNat

/-- The requests of a FUT (R255): the future word of each executing strand, with its value. -/
def futParts (x : RF) (val : Nat → Nat) (e : Env) : List Part :=
  e.parts.map (fun i => { strand := i, pa := (e.read { f := x.a, w := .w64, base := true } i).toNat, val := BitVec.ofNat 128 (val i)
                          swap := e.read { f := x.a, w := .w64, base := true } i })

/-- A gang has taken a trap (R276, R335, R336, R341, R342): the record holds what is told, the mode, the masks and the address are those of the handler, and
nothing else of its registers, predicates, stack or budgets has changed. -/
structure Trapped (s : State) (g g' : Gang) (cause code : Nat) (taddr tpc : Word64) : Prop where
  pc   : g'.pc = (s.ctx g.ctx).tvec + BitVec.ofNat 64 (64 * cause)
  ctl  : g'.ctl = { g.ctl with trap := g'.ctl.trap, tdepth := 1, active := g.ctl.nmask, vliw := false }
  cause : bits64 g'.ctl.trap.tinfo 7 0 = cause
  code : bits64 g'.ctl.trap.tinfo 47 32 = code
  depth : bits64 g'.ctl.trap.tinfo 52 48 = g.ctl.stack.length % 32
  mode : g'.ctl.trap.tinfo.getLsbD 16 = g.ctl.vliw
  tpc  : g'.ctl.trap.tpc = tpc
  tiaddr : g'.ctl.trap.tiaddr = g.pc
  taddr : g'.ctl.trap.taddr = taddr
  tact : g'.ctl.trap.tact = g.ctl.active
  regs : g'.regs = g.regs
  spec : g'.spec = g.spec

/-- A VLIW thread comes to issue a bundle of these slots: it is its turn, nothing holds it back, it has its lane group (R31), the words pass the checks of R169
with no sync and no loop field, nothing is outstanding, and its budgets pay. -/
structure IssuesSlots (s : State) (g : Gang) (hdr : Word64) (ws : List Word64) (xs : List Slot) : Prop where
  turn   : s.turn = some g.uid
  here   : s.gang? g.uid = some g
  free   : g.cannotIssue s.cycle = false
  keeps  : g.iss.reclaim = false
  vliw   : g.ctl.vliw = true
  group  : g.iss.group = true
  check  : s.bundleCheck g hdr ws = ([], xs)
  plain  : hdrSyop hdr = 0 ∧ hdrLpop hdr = 0
  landed : g.pend = []
  back   : s.resultsOut g.uid = false
  poison : g.regs.poison = []
  pays   : (xs.map (fun x => ciOf x.instr.maj)).sum ≤ g.spec.ib.toNat
  fresh  : g.iss.drained = false
  calm   : s.noLateTrap
  quiet  : s.calmFor g = true

/-- A bundle of one slot. -/
abbrev IssuesSlot (s : State) (g : Gang) (hdr : Word64) (ws : List Word64) (x : Slot) : Prop := IssuesSlots s g hdr ws [x]

/-- The environment of a slot of a bundle. -/
def slotEnv (s : State) (g : Gang) (hdr : Word64) (ws : List Word64) (x : Slot) : Env :=
  { s := s, g := g, place := x.place, pc := x.pc, npc := g.pc + BitVec.ofNat 64 (bundleSize hdr), h := x.instr.hd, imm := bundleImm hdr ws }

/-- The lane of a place. -/
def laneOf : Place → Nat
  | .lane c => c
  | _ => 0

/-- The writes of a slot that gives a cluster a value, low word first: when they land, from which slot, where and what (R160, R171). -/
def landing (s : State) (g : Gang) (x : Slot) (c : Nat) (d : Reg) (w : OpW) (val : Nat) : List (Nat × Nat × Dst × Word64) :=
  (List.range (OpW.words w)).map (fun q =>
    (s.gclk g + latCycles x.instr.hd.lat, x.place.slotNo, vDst true c (d.toNat + q), ((BitVec.ofNat 128 val >>> (32 * q)).setWidth 32).setWidth 64))

/-- The writes of a gang that wait to land, the bits of fx left aside. -/
def Gang.waiting (g : Gang) : List (Nat × Nat × Dst × Word64) :=
  (g.pend.filter (fun p => p.w.dst ≠ .fx)).map (fun p => (p.land, p.slot, p.w.dst, p.w.val))

/-- A bundle has issued: the thread goes on behind it, and no register of it has changed yet. -/
def bundleLeft (s t : State) (g g' : Gang) (hdr : Word64) (ws : List Word64) : Prop :=
  exec (.bundle hdr ws) s = .next t ∧ t.gang? g.uid = some g' ∧ g'.pc = g.pc + BitVec.ofNat 64 (8 * (1 + headerSlots hdr)) ∧
    g'.regs = g.regs ∧ g'.ctl = g.ctl

/-! ## Events -/

/-- Nothing is about to happen at the end of a step: no local release stands in flight, no seal, split, return or late trap is due, and no lost
store is to be told. -/
def State.settled (s : State) : Bool :=
  s.flights.all (fun f => !f.releases) &&
  s.gangs.all (fun x => x.iss.sealTo.isNone && x.iss.splitTo.isNone && !x.iss.mseal && x.iss.dueTrap.isNone && x.iss.tretTo.isNone && !x.lostStore)

/-- An operation that may take effect, of a gang under the SIMT decoder, with one strand's part, in a context that Muslin leaves alone. -/
structure Lone (s : State) (id : Nat) (f : Flight) (g : Gang) (p : Part) : Prop where
  ready  : s.ready id = some f
  gang   : f.uid = some g.uid
  here   : s.gang? g.uid = some g
  simt   : f.vliw = false
  post   : f.post = .none
  part   : f.parts = [p]
  dram   : isDram p.pa = true
  quiet  : s.settled = true
  muslin : s.muslinMode f.ctx = 0 ∧ s.muslinMode g.ctx = 0
  alone  : s.revoking f = false
  old    : id < s.next

/-- A strand's v-registers hold a value, low word first. -/
def Gang.holds (g : Gang) (strand : Nat) (d : Reg) (w : OpW) (val : Nat) : Prop :=
  ∀ q < OpW.words w, g.regs.v.get (128 * strand + (d.toNat + q) % 128) = BitVec.ofNat 32 (val / 2 ^ (32 * q))

/-- Bytes of main memory as the home slice has them. -/
def State.homeHolds (s : State) (pa : Nat) (bs : List Byte) : Prop := ∀ i < bs.length, (s.homeByte (pa + i)).1 = bs.getD i 0

/-- Percale comes to run a packet of a queue (R362), the first of the queue in its pass, in a type group that is under way or after one that is over; with Muslin
off and nothing due at the end of the step. -/
structure Packet (s : State) (q : Nat) (bs : List Byte) : Prop where
  queue   : q < 1024
  busy    : s.percale.busy = true
  head    : s.percale.pass.head? = some (q, bs)
  group   : groupOrder (pkType bs) = s.percale.group ∨ s.groupOver = true
  first   : q ∉ s.percale.took
  settled : s.settled = true
  muslin  : ∀ c, s.muslinMode c = 0

/-- A queue has written a completion record (R373): its status stands at the place of the record, and the write pointer has moved on. -/
def State.recorded (s t : State) (q status : Nat) : Prop :=
  (t.queue q).cwptr = (s.queue q).cwptr + 1 ∧
  (t.pathByte .host (bits64 (s.qReg q 0x20) 51 6 * 64 + 64 * ((s.queue q).cwptr.toNat % 2 ^ (bits64 (s.qReg q 0x28) 3 0 + 4)) + 2)).1 = BitVec.ofNat 8 status

/-- A packet has been taken (R358, R362): the read pointer moves past it when its type group ends, at the latest with the pass. -/
def State.packetPassed (s t : State) (q : Nat) : Prop :=
  (t.percale.busy = true → q ∈ t.percale.took ∧ (t.queue q).rptr = (s.queue q).rptr) ∧
  (t.percale.busy = false → (t.queue q).rptr = (s.queue q).rptr + 1)

/-- A packet has been taken and is over (R358, R373): with its record, where it asks for one or has been rejected. -/
def State.taken (s t : State) (q : Nat) (bs : List Byte) (status : Nat) (rejected : Bool) : Prop :=
  s.packetPassed t q ∧ ((rejected || pkBit bs 9) = true → s.recorded t q status)

/-- Every write that waits in a path's buffer is one of the host's path. -/
def State.onlyHost (s : State) : Prop := ∀ w ∈ s.paths, w.path = .host

end Sys2Proof.Machine
end

