-- ==== Sys2Proof/Certificates/Slice0/Obligations.lean ====
section
/-! DEFINITION. The obligations: what the provers are to show of the model. Each docstring names the rules of the spec that the statement
formalises, or says that the clause is the model's own. -/

open Sys2Proof Sys2Proof.Machine

/-! ## Words -/

/-- Decode and encode agree (R152 to R159): the one word of a legal instruction, at every value that its fields admit, decodes to that instruction, in
the place in which it is legal; and a well-formed bundle with a valid header decodes to itself. -/
def Obligations.RoundTrip : Prop :=
  (∀ (p : Place) (imm : Bool) (i : Instr), i.layout.isSome = true → i.legal p imm = true →
    ∃ w, encode i = [w] ∧ decodeWord p imm w = .ok i) ∧
  (∀ (hdr : Word64) (ws : List Word64), headerOk hdr = true → (Instr.bundle hdr ws).wf = true →
    encode (.bundle hdr ws) = hdr :: ws ∧ decodeBundle hdr ws = .ok (.bundle hdr ws))

/-- No word is accepted for two reasons, and no bit of a word is dropped: a word that decodes is legal, and it is the one word of the instruction that
it decodes to. A word whose major has no format of R154 to R159 (that of a bundle header) is no instruction of a slot or of the SIMT decoder, nor is a
word of Format B with reserved bits set, nor one whose fields break its description (R177, R178): the decoder rejects each by name. -/
def Obligations.AcceptedAndReservedWords : Prop :=
  (∀ (p : Place) (imm : Bool) (w : Word64) (i : Instr), decodeWord p imm w = .ok i → i.legal p imm = true ∧ encode i = [w]) ∧
  (∀ (p : Place) (imm : Bool) (w : Word64),
      (formatOf (w.extractLsb' 57 7).toNat = none → decodeWord p imm w = .error .opcode) ∧
      (formatOf (w.extractLsb' 57 7).toNat = some .b → w.extractLsb' 0 36 ≠ 0#36 → decodeWord p imm w = .error .reservedBits) ∧
      (∀ i, parseWord w = .ok i → i.legal p imm = false → decodeWord p imm w = .error .field))

/-- Words of the spec's own examples decode to the instructions that they stand for, one or more of each format and family. -/
def Obligations.SpecWordsDecode : Prop :=
  decodeWord .simt false 0x02F0010402030110 = .ok (.iaddAddc ⟨false, 15, 0⟩ ⟨1, 4, 2, 3, 1, 0x10⟩) ∧
  decodeWord .simt false 0x80F04E0180000000 = .ok (.ld ⟨false, 15, 0⟩ ⟨2, false, 14, 1, 128, 0, 0, 0⟩) ∧
  decodeWord .simt false 0xC0F0001000000006 = .ok (.pbr ⟨false, 15, 0⟩ ⟨0, 1, 0, 6⟩) ∧
  decodeWord .simt false 0xC410028000000000 = .ok (.br ⟨false, 1, 0⟩ ⟨0, 1, 2, 0⟩) ∧
  decodeWord .simt false 0xE0F0340000000100 = .ok (.mma ⟨false, 15, 0⟩ ⟨3, 4, 0, 0, 0, 0, 1, 0⟩) ∧
  decodeWord .simt false 0xF8F0000000000000 = .ok (.tret ⟨false, 15, 0⟩ ⟨0, 0, 0, 0⟩)

/-! ## Steps -/

/-- A step runs the decoded instruction: a gang whose turn it is, that may issue in this cycle, that its decoder picks (R27) and that nothing holds
back, runs exec of the instruction that its fetched words decode to, with itself as the gang of the turn; where that issues or traps, the fetch unit's
reads count (R105, R380; how often it reads is the model's choice, assumption 105); then a debug stop in force takes hold (R419). A turn that names an
event runs exec of that event, with no gang of the turn, and then the first issues of a common release (R371); a request of port 1 to the semaphore
unit lets those of port 0 in the same cycle go ahead (R398); and with nothing named, the device takes a turn by itself. The tape that names turns, and
the natural order without it, are the model's (assumption 3). -/
def Obligations.StepRunsDecoded : Prop :=
  (∀ (s : State) (g : Gang) (ws : List Word64) (i : Instr), s.power.tripped = false → s.gang? g.uid = some g → s.mayIssue g = true →
      s.isPick g = true ∨ s.isReady g = false → g.cannotIssue s.cycle = false → s.strike g = none → s.fetch g = .words ws → decodeFetched g.ctl.vliw ws = some i →
      step { s with tape := .issue g.uid :: s.tape } = holdAfter (fetchedBy (exec i { s with turn := some g.uid }) s g ws.length)) ∧
  ((∀ (s : State) (i : Instr), s.power.tripped = false → s.unitRequest i ≠ some 1 ∨ s.ahead s.tape = none →
      step { s with tape := .event i :: s.tape } = holdAfter (releaseAfter (exec i { s with turn := none }))) ∧
    (∀ (s : State) (i : Instr) (u : Turn) (rest : List Turn), s.unitRequest i = some 1 → s.ahead s.tape = some (u, rest) →
      step { s with tape := .event i :: s.tape } = State.take { s with tape := .event i :: rest } u) ∧
    (∀ s : State, s.tape = [] → step s = s.natural))

/-- What a gang under the SIMT decoder fetches is the word of eight bytes at the translation of its next address, in a page of main memory that may be
executed, least significant byte first (R152, R377, R387); a poisoned word is not executed (R115). Where a LOCKSTEP packet has loaded the address into
the core's fetch unit, it is the word as it was loaded (R370; that a loaded word is a copy is the model's choice, assumption 105). -/
def Obligations.FetchReadsMemory : Prop :=
  (∀ (s : State) (g : Gang) (w : Word64 × Bool), g.ctl.vliw = false → s.loadedWord g.gcore g.ctx g.pc.toNat = some w →
    s.fetch g = if w.2 then .poisoned else .words [w.1]) ∧
  ∀ (s : State) (g : Gang) (pa size : Nat) (rd wr : Bool), g.ctl.vliw = false → s.loadedWord g.gcore g.ctx g.pc.toNat = none →
    s.fetchPage g.gcore g.ctx g.pc.toNat = .page pa size rd wr true → isDram (pageAddr pa size g.pc.toNat) = true →
    ((s.tableWord (pageAddr pa size g.pc.toNat)).2 = true → s.fetch g = .poisoned) ∧
    ((s.tableWord (pageAddr pa size g.pc.toNat)).2 = false → s.fetch g = .words [(s.tableWord (pageAddr pa size g.pc.toNat)).1]) ∧
    (∀ i, decodeWord .simt false (s.tableWord (pageAddr pa size g.pc.toNat)).1 = .ok i →
      decodeFetched g.ctl.vliw [(s.tableWord (pageAddr pa size g.pc.toNat)).1] = some i)

/-! ## Reset -/

/-- What a module reset leaves (R5, R113, R402, R430): device time zero with tvalid clear, no gang resident, no context live, format windows disabled,
tenant controls at score 15 and cap 16. That a reset state is the module after bring-up with firmware from slot 0 is the model's reading (assumption
6). -/
def Obligations.ResetValues : Prop :=
  State.reset.clock.t = 0 ∧ State.reset.clock.tvalid = false ∧ State.reset.gangs = [] ∧ State.reset.flights = [] ∧
  (∀ c, (State.reset.ctx c).live = false) ∧
  (∀ pa, State.reset.window pa = none) ∧
  (∀ t, State.reset.score t = 15 ∧ State.reset.wayCap t = 16) ∧
  (∀ k, (State.reset.core k).freeze = 0 ∧ (State.reset.core k).clk = 0)

/-- Reset's main memory is in the canonical form. That an unwritten byte reads zero is the model's choice (assumption 1). -/
def Obligations.ResetMemoryCanonical : Prop :=
  Memory.wf State.reset.dram = true

/-! ## Registers: what completes, and what stays -/

/-- The integer instructions, moves and MFS complete (R57, R192 to R209): with no poisoned operand, the gang goes on at the next word, its budgets are
charged, the destination is the only register that may change, and fx stays. -/
def Obligations.IntegerCompletes : Prop :=
  ∀ (s : State) (g : Gang) (i : Instr) (d : Reg) (w : OpW), intDest i = some (d, w) → Issues s g i → g.regs.poison = [] →
    ∃ t g', exec i s = .next t ∧ t.gang? g.uid = some g' ∧ g'.pc = g.pc + 8 ∧ Leaves g g' i 0 ∧ WroteOnly g g' i d w ∧ g'.ctl.fx = g.ctl.fx

/-- The votes with a register result, lane reads, shuffles, PATSW, reductions, scans and block formats complete (R210 to R215, R226, R227): the
destination is the only register that may change, and no bit of fx is lost. What they give: register a of the source strand; the mask, the number and
the first of the executing strands whose predicate holds; the tree of R147 over 32 leaves, where a strand that does not execute gives the identity;
its simultaneous steps of distances 1 to 16 for a scan; and the words, or the elements, of the block of each half of the gang. That a combination
rounds and flushes as the mod byte says is the model's reading of R147 and R215 against R136 (assumption 13). -/
def Obligations.LaneCompletes : Prop :=
  (∀ (s : State) (g : Gang) (i : Instr) (d : Reg) (w : OpW), laneDest i = some (d, w) → Issues s g i → g.regs.poison = [] →
    ∃ t g', exec i s = .next t ∧ t.gang? g.uid = some g' ∧ g'.pc = g.pc + 8 ∧ Leaves g g' i 0 ∧ WroteOnly g g' i d w ∧
      g'.ctl.fx &&& g.ctl.fx = g.ctl.fx) ∧
  (∀ (s : State) (g : Gang) (i : Instr) (x : RF) (src : Env → Nat → Nat), laneSrc i = some (x, src) → g.regs.poison = [] →
    yields s g i x.d (iType x.mod).opw (fun st v =>
      v = ((simtEnv s g i).read { f := x.a, w := (iType x.mod).opw } (src (simtEnv s g i) st)).toNat)) ∧
  (∀ (s : State) (g : Gang) (h : Hd) (x : RF), g.regs.poison = [] →
    let on (i : Instr) (j : Nat) : Bool := g.executes i j && g.p j x.a.toNat
    yields s g (.voteBallot h x) x.d .w32 (fun _ v => ∀ j, v.testBit j = on (.voteBallot h x) j) ∧
    yields s g (.voteCount h x) x.d .w32 (fun _ v => v = ((List.range 32).filter (on (.voteCount h x))).length) ∧
    yields s g (.voteFirst h x) x.d .w32 (fun _ v => v ≤ 32 ∧ (v < 32 → on (.voteFirst h x) v = true) ∧ ∀ j < v, on (.voteFirst h x) j = false)) ∧
  (∀ (s : State) (g : Gang) (h : Hd) (x : RF), g.regs.poison = [] →
    let leaves (i : Instr) : List Nat := (List.range 32).map (fun j =>
      if g.executes i j then ((simtEnv s g i).read { f := x.a } j).toNat else redIdentity x.fn.toNat)
    let scan := (scanAll (combine x.fn.toNat x.mod) [1, 2, 4, 8, 16] (leaves (.gscan h x))).1
    yields s g (.gred h x) x.d .w32 (fun _ v => v = (redTree (combine x.fn.toNat x.mod) 5 (leaves (.gred h x))).1) ∧
    yields s g (.gscan h x) x.d .w32 (fun st v =>
      v = if x.fn.toNat < 16 then scan.getD st 0 else if st = 0 then redIdentity x.fn.toNat else scan.getD (st - 1) 0)) ∧
  (∀ (s : State) (g : Gang) (h : Hd) (x : RF), g.regs.poison = [] →
    let f : Fmt := if x.fn = 0#8 then .f32 else .b16
    let m := bxMag (modCode x.mod)
    let element (j : Nat) : Machine.Num := if g.executes (.bxpk h x) j
      then decodeF f (((simtEnv s g (.bxpk h x)).read { f := x.a, fc := if x.fn = 0#8 then .bits else .packed .b16 } j).toNat % 2 ^ f.width)
      else .fin false 0 0
    let packed (half : Nat) : List Byte := (bxEncode m ((List.range 16).map (fun j => element (16 * half + j)))).1
    let words (half : Nat) : List Byte := ((List.range ((bxBytes m + 3) / 4)).map (fun k =>
      leBytes 4 ((simtEnv s g (.bxup h x)).read { f := x.a } (16 * half + k)).toNat)).flatten
    yields s g (.bxpk h x) x.d .w32 (fun st v => st < 32 → v = leNat (((packed (st / 16)).drop (4 * (st % 16))).take 4)) ∧
    yields s g (.bxup h x) x.d .w32 (fun st v => v = bxDecode m f (words (st / 16)) (st % 16)))

/-- The floating-point instructions with a register result complete (R140, R216 to R225): the destination is the only register that may change, and fx
is sticky, no bit of it is lost. What they give: each element the exact result rounded once (R137), the minimum or maximum, the class, the integral
value or the parts of a number; a conversion the value rounded into the type it goes to (R141), its other elements kept; a dot product every product
and c, rounded once; SFU the results that R221 gives exactly. -/
def Obligations.FloatCompletes : Prop :=
  (∀ (s : State) (g : Gang) (i : Instr) (d : Reg) (w : OpW), fpDest i = some (d, w) → Issues s g i → g.regs.poison = [] →
    ∃ t g', exec i s = .next t ∧ t.gang? g.uid = some g' ∧ g'.pc = g.pc + 8 ∧ Leaves g g' i 0 ∧ WroteOnly g g' i d w ∧
      g'.ctl.fx &&& g.ctl.fx = g.ctl.fx) ∧
  (∀ (s : State) (g : Gang) (i : Instr) (x : RF) (f : Nat → Nat → Nat → Nat), fpElem i = some (x, f) → g.regs.poison = [] →
    let fm := fmtOf x
    let src (r : Reg) : Src := { f := r, w := fm.opw, fc := fm.fc }
    let el (v : Word64) (k : Nat) : Nat := elemBits fm.width v k
    yields s g i x.d fm.opw (fun st v => ∀ k < fm.elems, v / 2 ^ (fm.width * k) % 2 ^ fm.width =
      f (el ((simtEnv s g i).read (src x.a) st) k) (el ((simtEnv s g i).readB x.mod (src x.b) st) k) (el ((simtEnv s g i).read (src x.c) st) k))) ∧
  (∀ (s : State) (g : Gang) (h : Hd) (x : RF), g.regs.poison = [] →
    let f := fmtOf x
    let sat := x.mod.getLsbD 1
    let k := elemIx x
    let read (i : Instr) (r : Reg) (w : OpW) (fc : FC) (st : Nat) : Word64 := (simtEnv s g i).read { f := r, w := w, fc := fc } st
    let put (i : Instr) (fm : Fmt) (r st v : Nat) : Prop :=
      v = if fm = .f32 then r else (setElem fm.width (read i x.d .w32 .bits st) k r).toNat
    let from_ : Fmt := (Fmt.ofCode x.fn.toNat).getD .f32
    let t := ity x.fn.toNat
    let tc := ity x.c.toNat
    yields s g (.fcvt h x) x.d .w32 (fun st v => put (.fcvt h x) f
      (if f = .f32 then (roundTo .f32 .rne false (decodeF from_ (elemBits from_.width (read (.fcvt h x) x.a .w32 from_.fc st) k))).1
       else (roundTo f (rmOf x) sat (decodeF .f32 (read (.fcvt h x) x.a .w32 from_.fc st).toNat)).1) st v) ∧
    yields s g (.f2i h x) x.d (if t.1 = 64 then .w64 else .w32) (fun st v =>
      v = ofInt (if t.1 = 64 then 64 else 32) (toIntType (rmOf x) t (decodeF f (elemBits f.width (read (.f2i h x) x.a .w32 f.fc st) k)))) ∧
    yields s g (.i2f h x) x.d .w32 (fun st v => put (.i2f h x) f
      (roundTo f (rmOf x) sat (Num.ofInt (intOperand t (read (.i2f h x) x.a (if t.1 = 64 then .w64 else .w32) .bits st)))).1 st v) ∧
    yields s g (.dcvtF32F64 h x) x.d .w32 (fun st v =>
      v = (roundTo .f32 (rmOf x) sat (decodeF .f64 (read (.dcvtF32F64 h x) x.a .w64 .f64 st).toNat)).1) ∧
    yields s g (.dcvtF64F32 h x) x.d .w64 (fun st v =>
      v = (roundTo .f64 .rne false (decodeF .f32 (read (.dcvtF64F32 h x) x.a .w32 .bits st).toNat)).1) ∧
    yields s g (.dcvtIF64 h x) x.d (if tc.1 = 64 then .w64 else .w32) (fun st v =>
      v = ofInt (if tc.1 = 64 then 64 else 32) (toIntType (rmOf x) tc (decodeF .f64 (read (.dcvtIF64 h x) x.a .w64 .f64 st).toNat))) ∧
    yields s g (.dcvtF64I h x) x.d .w64 (fun st v =>
      v = (roundTo .f64 (rmOf x) false (Num.ofInt (intOperand tc (read (.dcvtF64I h x) x.a (if tc.1 = 64 then .w64 else .w32) .bits st)))).1)) ∧
  (∀ (s : State) (g : Gang) (h : Hd) (x : RF), g.regs.poison = [] →
    let ftz := ftzOf x
    let value (fm : Fmt) (v : Nat) : Machine.Num := decodeF fm (flushIn fm ftz v)
    let dot (i : Instr) (fa fb : Fmt) : Prop := yields s g i x.d .w32 (fun st v =>
      let a := (simtEnv s g i).read { f := x.a, fc := fa.fc } st
      let b := (simtEnv s g i).readB x.mod { f := x.b, fc := fb.fc } st
      let products := (List.range fa.elems).map (fun k => mulNum (value fa (elemBits fa.width a k)) (value fb (elemBits fb.width b k)))
      v = (flushOut .f32 ftz (roundTo .f32 (rmOf x) false
        (sumNum (rmOf x) (products ++ [value .f32 ((simtEnv s g i).read { f := x.c } st).toNat])))).1)
    dot (.fdot2 h x) (fmtOf x) (fmtOf x) ∧ dot (.f8dot h x) (fmtOf x) (fmtOf x) ∧ dot (.f8dotMx h x) .f8n .f8w ∧
    (fmtOf x = .f32 → yields s g (.sfu h x) x.d .w32 (fun st v => ∀ r,
      sfuExact x.fn.toNat (flushIn .f32 ftz ((simtEnv s g (.sfu h x)).read { f := x.a } st).toNat) = some r → v = (flushOut .f32 ftz (r, 0)).1)))

/-- The instructions with a predicate result complete (R24, R193, R201, R202, R211, R218, R219): no register changes, no other predicate, and of the
one named only the bits of executing strands; p15 takes nothing. -/
def Obligations.PredicateCompletes : Prop :=
  ∀ (s : State) (g : Gang) (i : Instr) (d : Reg), predDest i = some d → Issues s g i → g.regs.poison = [] →
    ∃ t g', exec i s = .next t ∧ t.gang? g.uid = some g' ∧ g'.pc = g.pc + 8 ∧ Leaves g g' i 0 ∧
      g'.regs.v = g.regs.v ∧ g'.regs.s = g.regs.s ∧ g'.regs.g = g.regs.g ∧ g'.regs.h = g.regs.h ∧ g'.regs.pt = g.regs.pt ∧ g'.ctl.b = g.ctl.b ∧
      (∀ n st, n ≠ d.toNat % 16 ∨ n = 15 ∨ g.executes i st = false →
        (SMap.get g'.ctl.p n 0).getLsbD st = (SMap.get g.ctl.p n 0).getLsbD st) ∧
      g'.ctl.fx &&& g.ctl.fx = g.ctl.fx

/-- Sums and differences with a carry (R196, R201): d takes a + b + p(c), or a - b - p(c), modulo 2^w, and p(c) takes the carry out, or the borrow. -/
def Obligations.CarryForms : Prop :=
  (∀ (s : State) (g : Gang) (h : Hd) (x : RF), Issues s g (.iaddAddc h x) → g.regs.poison = [] → g.pend = [] →
    let w := (iType x.mod).w
    let e := simtEnv s g (.iaddAddc h x)
    let a (st : Nat) : Nat := (e.read { f := x.a, w := (iType x.mod).opw } st).toNat
    let b (st : Nat) : Nat := (e.readB x.mod { f := x.b, w := (iType x.mod).opw } st).toNat % 2 ^ w
    let c (st : Nat) : Nat := if g.p st (x.c.toNat % 16) then 1 else 0
    ∃ t g', exec (.iaddAddc h x) s = .next t ∧ t.gang? g.uid = some g' ∧ g'.pc = g.pc + 8 ∧ Leaves g g' (.iaddAddc h x) 0 ∧
      gets g g' (.iaddAddc h x) x.d (iType x.mod).opw (fun st => (a st + b st + c st) % 2 ^ w) ∧
      (∀ st, g.executes (.iaddAddc h x) st = true → x.c.toNat % 16 ≠ 15 → g'.p st (x.c.toNat % 16) = decide (2 ^ w ≤ a st + b st + c st))) ∧
  (∀ (s : State) (g : Gang) (h : Hd) (x : RF), Issues s g (.iaddSubb h x) → g.regs.poison = [] → g.pend = [] →
    let w := (iType x.mod).w
    let e := simtEnv s g (.iaddSubb h x)
    let a (st : Nat) : Nat := (e.read { f := x.a, w := (iType x.mod).opw } st).toNat
    let b (st : Nat) : Nat := (e.readB x.mod { f := x.b, w := (iType x.mod).opw } st).toNat % 2 ^ w
    let c (st : Nat) : Nat := if g.p st (x.c.toNat % 16) then 1 else 0
    ∃ t g', exec (.iaddSubb h x) s = .next t ∧ t.gang? g.uid = some g' ∧ g'.pc = g.pc + 8 ∧ Leaves g g' (.iaddSubb h x) 0 ∧
      gets g g' (.iaddSubb h x) x.d (iType x.mod).opw (fun st => (2 * 2 ^ w + a st - b st - c st) % 2 ^ w) ∧
      (∀ st, g.executes (.iaddSubb h x) st = true → x.c.toNat % 16 ≠ 15 → g'.p st (x.c.toNat % 16) = decide (a st < b st + c st)))

/-! ## Integer results -/

/-- Element i of d is the exact result on elements i of the sources, clamped to the type where sat is set, else modulo 2^w (R194, R195, R196): iadd,
iadd.sub, iadd.rsub, imul, imad, imnx and its max, iabs and its negation, iclmp, of every type. No carry crosses elements. imul.hi gives the upper
half of the product; imul.wide and imad.wide the product of 32 bits by 32, the latter plus c, modulo 2^64; iabs.sad c plus the sum of the absolute
differences (R196); idot and idot.h c plus the products of the elements, modulo 2^32 or clamped to 32 bits (R206). -/
def Obligations.ElementwiseInteger : Prop :=
  (∀ (s : State) (g : Gang) (i : Instr) (x : RF) (f : Int → Int → Int → Int), elementFn i = some (x, f) → Issues s g i → g.regs.poison = [] →
    let ty := iType x.mod
    let e := simtEnv s g i
    let exact (st k : Nat) : Int := f (ty.val (e.read { f := x.a, w := ty.opw } st) k) (ty.val (e.readB x.mod { f := x.b, w := ty.opw } st) k)
      (ty.val (e.read { f := x.c, w := ty.opw } st) k)
    ∃ t g' val, exec i s = .next t ∧ t.gang? g.uid = some g' ∧ g'.pc = g.pc + 8 ∧ Leaves g g' i 0 ∧ WroteOnly g g' i x.d ty.opw ∧
      gets g g' i x.d ty.opw val ∧
      ∀ st k, k < ty.n → val st / 2 ^ (ty.w * k) % 2 ^ ty.w =
        ofInt ty.w (if sat x then clampInt ty.w ty.signed (exact st k) else exact st k)) ∧
  (∀ (s : State) (g : Gang) (h : Hd) (x : RF), g.regs.poison = [] →
    let ty := iType x.mod
    let a (i : Instr) (w : OpW) (st : Nat) : Word64 := (simtEnv s g i).read { f := x.a, w := w } st
    let b (i : Instr) (w : OpW) (st : Nat) : Word64 := (simtEnv s g i).readB x.mod { f := x.b, w := w } st
    let c (i : Instr) (w : OpW) (st : Nat) : Nat := ((simtEnv s g i).read { f := x.c, w := w } st).toNat
    let product (i : Instr) (st k : Nat) : Int := ty.val (a i .w32 st) k * ty.val (b i .w32 st) k
    let differences (i : Instr) (st : Nat) : Nat := ((List.range ty.n).map (fun k => (ty.val (a i .w32 st) k - ty.val (b i .w32 st) k).natAbs)).sum
    let dot (i : Instr) : Prop := yields s g i x.d .w32 (fun st v =>
      let sum := (if ty.signed then toSigned 32 (c i .w32 st) else (c i .w32 st : Int)) + ((List.range ty.n).map (product i st)).sum
      v = ofInt 32 (if sat x then clampInt 32 ty.signed sum else sum))
    yields s g (.imulHi h x) x.d ty.opw (fun st v => ∀ k < ty.n, v / 2 ^ (ty.w * k) % 2 ^ ty.w =
      ofInt ty.w (ty.val (a (.imulHi h x) ty.opw st) k * ty.val (b (.imulHi h x) ty.opw st) k / (2 ^ ty.w : Nat))) ∧
    yields s g (.imulWide h x) x.d .w64 (fun st v => v = ofInt 64 (product (.imulWide h x) st 0)) ∧
    yields s g (.imadWide h x) x.d .w64 (fun st v => v = ofInt 64 (product (.imadWide h x) st 0 + c (.imadWide h x) .w64 st)) ∧
    yields s g (.iabsSad h x) x.d .w32 (fun st v => v = (c (.iabsSad h x) .w32 st + differences (.iabsSad h x) st) % 2 ^ 32) ∧
    dot (.idot h x) ∧ dot (.idotH h x))

/-- IDIV of R197: by zero the quotient has every bit set and the remainder is a; the most negative value by -1 gives itself and 0; else the quotient
is rounded toward zero, and quotient times b plus remainder is a. It completes on every operand and sets no bit of fx. -/
def Obligations.DivisionCorners : Prop :=
  ∀ (s : State) (g : Gang) (h : Hd) (x : RF), g.regs.poison = [] →
    let ty := iType x.mod
    let a (i : Instr) (st : Nat) : Int := ty.val ((simtEnv s g i).read { f := x.a, w := ty.opw } st) 0
    let b (i : Instr) (st : Nat) : Int := ty.val ((simtEnv s g i).readB x.mod { f := x.b, w := ty.opw } st) 0
    (Issues s g (.idiv h x) → ∃ t g' val, exec (.idiv h x) s = .next t ∧ t.gang? g.uid = some g' ∧ g'.pc = g.pc + 8 ∧ Leaves g g' (.idiv h x) 0 ∧
      WroteOnly g g' (.idiv h x) x.d ty.opw ∧ g'.ctl.fx = g.ctl.fx ∧ gets g g' (.idiv h x) x.d ty.opw val ∧
      ∀ st, (b (.idiv h x) st = 0 → val st = 2 ^ ty.w - 1) ∧
        (ty.signed = true → a (.idiv h x) st = -2 ^ (ty.w - 1) → b (.idiv h x) st = -1 → val st = 2 ^ (ty.w - 1)) ∧
        (b (.idiv h x) st ≠ 0 → val st = ofInt ty.w (Int.tdiv (a (.idiv h x) st) (b (.idiv h x) st)))) ∧
    (Issues s g (.idivRem h x) → ∃ t g' val, exec (.idivRem h x) s = .next t ∧ t.gang? g.uid = some g' ∧ g'.pc = g.pc + 8 ∧
      Leaves g g' (.idivRem h x) 0 ∧ WroteOnly g g' (.idivRem h x) x.d ty.opw ∧ g'.ctl.fx = g.ctl.fx ∧ gets g g' (.idivRem h x) x.d ty.opw val ∧
      ∀ st, (b (.idivRem h x) st = 0 → val st = ofInt ty.w (a (.idivRem h x) st)) ∧
        (ty.signed = true → a (.idivRem h x) st = -2 ^ (ty.w - 1) → b (.idivRem h x) st = -1 → val st = 0) ∧
        (b (.idivRem h x) st ≠ 0 → val st = ofInt ty.w
          (a (.idivRem h x) st - Int.tdiv (a (.idivRem h x) st) (b (.idivRem h x) st) * b (.idivRem h x) st)))

/-- Shifts of R198, by k = bits 7:0 of b: left, logical right, and arithmetic right, bit by bit; k at or beyond the width leaves 0, or the top bit of
a in every bit. Rotations left and right by k modulo the width; the upper word of a:b shifted left by c modulo 32, and the lower word of it shifted
right. The bitwise instructions and LUT3 (R198): each bit of d is the function of the same bits of a and b, or the bit of the table fn that a, b and c
select, with a in bit 0 of the index. The bits that are set, the zeros above the highest set bit and below the lowest, and the bits below the top bit
that repeat it are counted; bits, or bytes, are reversed; a field is taken out, or put in (R199); PRMT gives each byte as its selector says; PACK
joins two halves, clamped or not (R200). -/
def Obligations.ShiftsAndLogic : Prop :=
  (∀ (s : State) (g : Gang) (h : Hd) (x : RF), g.regs.poison = [] →
      let ty := iType x.mod
      let a (i : Instr) (st : Nat) : Word64 := (simtEnv s g i).read { f := x.a, w := ty.opw } st
      let k (i : Instr) (st : Nat) : Nat := ((simtEnv s g i).readB x.mod { f := x.b } st).toNat % 256
      (Issues s g (.shl h x) → ∃ t g' val, exec (.shl h x) s = .next t ∧ t.gang? g.uid = some g' ∧ g'.pc = g.pc + 8 ∧ Leaves g g' (.shl h x) 0 ∧
        WroteOnly g g' (.shl h x) x.d ty.opw ∧ gets g g' (.shl h x) x.d ty.opw val ∧
        ∀ st j, j < ty.w → (val st).testBit j = (decide (k (.shl h x) st ≤ j) && (a (.shl h x) st).getLsbD (j - k (.shl h x) st))) ∧
      (Issues s g (.shr h x) → ∃ t g' val, exec (.shr h x) s = .next t ∧ t.gang? g.uid = some g' ∧ g'.pc = g.pc + 8 ∧ Leaves g g' (.shr h x) 0 ∧
        WroteOnly g g' (.shr h x) x.d ty.opw ∧ gets g g' (.shr h x) x.d ty.opw val ∧
        ∀ st j, j < ty.w → (val st).testBit j = (decide (j + k (.shr h x) st < ty.w) && (a (.shr h x) st).getLsbD (j + k (.shr h x) st))) ∧
      (Issues s g (.shrAr h x) → ∃ t g' val, exec (.shrAr h x) s = .next t ∧ t.gang? g.uid = some g' ∧ g'.pc = g.pc + 8 ∧
        Leaves g g' (.shrAr h x) 0 ∧ WroteOnly g g' (.shrAr h x) x.d ty.opw ∧ gets g g' (.shrAr h x) x.d ty.opw val ∧
        ∀ st j, j < ty.w → (val st).testBit j = (a (.shrAr h x) st).getLsbD (min (j + k (.shrAr h x) st) (ty.w - 1))) ∧
      (yields s g (.rot h x) x.d ty.opw (fun st v => ∀ j < ty.w,
        v.testBit j = (a (.rot h x) st).getLsbD ((j + ty.w - k (.rot h x) st % ty.w) % ty.w))) ∧
      (yields s g (.rotRr h x) x.d ty.opw (fun st v => ∀ j < ty.w,
        v.testBit j = (a (.rotRr h x) st).getLsbD ((j + k (.rotRr h x) st) % ty.w))) ∧
      (let joined (i : Instr) (st : Nat) : Nat := ((simtEnv s g i).read { f := x.a } st).toNat * 2 ^ 32 + ((simtEnv s g i).readB x.mod { f := x.b } st).toNat
       let c (i : Instr) (st : Nat) : Nat := ((simtEnv s g i).read { f := x.c } st).toNat % 32
       yields s g (.rotShfl h x) x.d .w32 (fun st v => v = joined (.rotShfl h x) st * 2 ^ c (.rotShfl h x) st / 2 ^ 32 % 2 ^ 32) ∧
       yields s g (.rotShfr h x) x.d .w32 (fun st v => v = joined (.rotShfr h x) st / 2 ^ c (.rotShfr h x) st % 2 ^ 32))) ∧
  ((∀ (s : State) (g : Gang) (i : Instr) (x : RF) (f : Bool → Bool → Bool), bitFn i = some (x, f) → Issues s g i → g.regs.poison = [] →
      let ty := iType x.mod
      let e := simtEnv s g i
      ∃ t g' val, exec i s = .next t ∧ t.gang? g.uid = some g' ∧ g'.pc = g.pc + 8 ∧ Leaves g g' i 0 ∧ WroteOnly g g' i x.d ty.opw ∧
        gets g g' i x.d ty.opw val ∧
        ∀ st j, j < ty.w → (val st).testBit j =
          f ((e.read { f := x.a, w := ty.opw } st).getLsbD j) ((e.readB x.mod { f := x.b, w := ty.opw } st).getLsbD j)) ∧
    (∀ (s : State) (g : Gang) (h : Hd) (x : RF), Issues s g (.lut3 h x) → g.regs.poison = [] →
      let e := simtEnv s g (.lut3 h x)
      ∃ t g' val, exec (.lut3 h x) s = .next t ∧ t.gang? g.uid = some g' ∧ g'.pc = g.pc + 8 ∧ Leaves g g' (.lut3 h x) 0 ∧
        WroteOnly g g' (.lut3 h x) x.d .w32 ∧ gets g g' (.lut3 h x) x.d .w32 val ∧
        ∀ st j, j < 32 → (val st).testBit j = x.fn.getLsbD (((e.read { f := x.a } st).getLsbD j).toNat +
          2 * ((e.readB x.mod { f := x.b } st).getLsbD j).toNat + 4 * ((e.read { f := x.c } st).getLsbD j).toNat)) ∧
    (∀ (s : State) (g : Gang) (h : Hd) (x : RF), g.regs.poison = [] →
      let ty := iType x.mod
      let bit (i : Instr) (st j : Nat) : Bool := ((simtEnv s g i).read { f := x.a, w := ty.opw } st).getLsbD j
      yields s g (.popc h x) x.d .w32 (fun st v => v = ((List.range ty.w).map (fun j => (bit (.popc h x) st j).toNat)).sum) ∧
      yields s g (.clz h x) x.d .w32 (fun st v => v ≤ ty.w ∧ (∀ j < v, bit (.clz h x) st (ty.w - 1 - j) = false) ∧
        (v < ty.w → bit (.clz h x) st (ty.w - 1 - v) = true)) ∧
      yields s g (.clzCtz h x) x.d .w32 (fun st v => v ≤ ty.w ∧ (∀ j < v, bit (.clzCtz h x) st j = false) ∧
        (v < ty.w → bit (.clzCtz h x) st v = true)) ∧
      yields s g (.clzCls h x) x.d .w32 (fun st v => v < ty.w ∧
        (∀ j ≤ v, bit (.clzCls h x) st (ty.w - 1 - j) = bit (.clzCls h x) st (ty.w - 1)) ∧
        (v + 1 < ty.w → bit (.clzCls h x) st (ty.w - 2 - v) ≠ bit (.clzCls h x) st (ty.w - 1))) ∧
      yields s g (.brev h x) x.d ty.opw (fun st v => ∀ j < ty.w, v.testBit j = bit (.brev h x) st (ty.w - 1 - j)) ∧
      yields s g (.brevByte h x) x.d ty.opw (fun st v => ∀ q < ty.w / 8, ∀ j < 8,
        v.testBit (8 * q + j) = bit (.brevByte h x) st (ty.w - 8 - 8 * q + j)) ∧
      yields s g (.bfx h x) x.d ty.opw (fun st v =>
        let pos := ((simtEnv s g (.bfx h x)).readB x.mod { f := x.b } st).toNat % 256
        let len := min (((simtEnv s g (.bfx h x)).read { f := x.c } st).toNat % 256) (ty.w - pos)
        ∀ j < ty.w, v.testBit j = if j < len then bit (.bfx h x) st (pos + j)
          else ty.signed && decide (0 < len) && bit (.bfx h x) st (pos + len - 1)) ∧
      yields s g (.bfi h x) x.d ty.opw (fun st v =>
        let c := ((simtEnv s g (.bfi h x)).read { f := x.c } st).toNat
        let pos := c % 256
        ∀ j < ty.w, v.testBit j = if pos ≤ j ∧ j < pos + c / 256 % 256
          then ((simtEnv s g (.bfi h x)).readB x.mod { f := x.b, w := ty.opw } st).getLsbD (j - pos) else bit (.bfi h x) st j)) ∧
    (∀ (s : State) (g : Gang) (h : Hd) (x : RF), g.regs.poison = [] →
      let a (i : Instr) (st : Nat) : Nat := ((simtEnv s g i).read { f := x.a } st).toNat
      let b (i : Instr) (st : Nat) : Nat := ((simtEnv s g i).readB x.mod { f := x.b } st).toNat
      let c (i : Instr) (st : Nat) : Nat := ((simtEnv s g i).read { f := x.c } st).toNat
      let clamped (signed : Bool) (v : Nat) : Nat := ofInt 16 (clampInt 16 signed (toSigned 32 v))
      yields s g (.prmt h x) x.d .w32 (fun st v => ∀ k < 4,
        let sel := c (.prmt h x) st / 2 ^ (5 * k) % 32
        let y := (a (.prmt h x) st * 2 ^ 32 + b (.prmt h x) st) / 2 ^ (8 * (sel % 8)) % 256
        v / 2 ^ (8 * k) % 256 = match sel / 8 with
          | 0 => y
          | 1 => 0
          | 2 => y % 16 * 16 + y / 16
          | _ => if 128 ≤ y then 255 else 0) ∧
      yields s g (.pack h x) x.d .w32 (fun st v => v = a (.pack h x) st % 2 ^ 16 + 2 ^ 16 * (b (.pack h x) st % 2 ^ 16)) ∧
      yields s g (.packSs h x) x.d .w32 (fun st v => v = clamped true (a (.packSs h x) st) + 2 ^ 16 * clamped true (b (.packSs h x) st)) ∧
      yields s g (.packNn h x) x.d .w32 (fun st v => v = clamped false (a (.packNn h x) st) + 2 ^ 16 * clamped false (b (.packNn h x) st))))

/-- ICMP, PLOG and SEL (R201, R202): the comparison that fn names, ANDed with p(c); the bit of the table fn that three predicates select; and a or b
as p(c) says. FCMP and DCMP compare exact values, a NaN unordered with everything, −0 equal to +0 (R218); FCLS tests the class of a against the mask b
(R219); the votes say whether any, or every, executing strand's predicate holds (R211). -/
def Obligations.CompareAndSelect : Prop :=
  (∀ (s : State) (g : Gang) (h : Hd) (x : RF), Issues s g (.icmp h x) → g.regs.poison = [] → g.pend = [] → x.d.toNat % 16 ≠ 15 →
    let ty := iType x.mod
    let a (st : Nat) : Int := ty.val ((simtEnv s g (.icmp h x)).read { f := x.a, w := ty.opw } st) 0
    let b (st : Nat) : Int := ty.val ((simtEnv s g (.icmp h x)).readB x.mod { f := x.b, w := ty.opw } st) 0
    ∃ t g', exec (.icmp h x) s = .next t ∧ t.gang? g.uid = some g' ∧ ∀ st, g.executes (.icmp h x) st = true →
      g'.p st (x.d.toNat % 16) = (g.p st x.c.toNat &&
        ((x.fn == 0 && decide (a st = b st)) || (x.fn == 1 && decide (a st ≠ b st)) || (x.fn == 2 && decide (a st < b st)) ||
         (x.fn == 3 && decide (a st ≤ b st)) || (x.fn == 4 && decide (a st > b st)) || (x.fn == 5 && decide (a st ≥ b st))))) ∧
  (∀ (s : State) (g : Gang) (h : Hd) (x : RF), Issues s g (.plog h x) → g.pend = [] → x.d.toNat % 16 ≠ 15 →
    ∃ t g', exec (.plog h x) s = .next t ∧ t.gang? g.uid = some g' ∧ ∀ st, g.executes (.plog h x) st = true →
      g'.p st (x.d.toNat % 16) =
        x.fn.getLsbD ((g.p st x.a.toNat).toNat + 2 * (g.p st x.b.toNat).toNat + 4 * (g.p st x.c.toNat).toNat)) ∧
  (∀ (s : State) (g : Gang) (h : Hd) (x : RF), Issues s g (.sel h x) → g.regs.poison = [] →
    let w := (iType x.mod).opw
    let e := simtEnv s g (.sel h x)
    ∃ t g', exec (.sel h x) s = .next t ∧ t.gang? g.uid = some g' ∧ g'.pc = g.pc + 8 ∧ Leaves g g' (.sel h x) 0 ∧
      gets g g' (.sel h x) x.d w (fun st => if g.p st x.c.toNat then (e.read { f := x.a, w := w } st).toNat
        else (e.readB x.mod { f := x.b, w := w } st).toNat)) ∧
  (∀ (s : State) (g : Gang) (h : Hd) (x : RF), g.regs.poison = [] → g.pend = [] → x.d.toNat % 16 ≠ 15 →
    let src (r : Reg) : Src := { f := r, w := (fmtOf x).opw, fc := (fmtOf x).fc }
    let compared (i : Instr) (st : Nat) : Bool :=
      let a := fpVal x ((simtEnv s g i).read (src x.a) st).toNat
      let b := fpVal x ((simtEnv s g i).readB x.mod (src x.b) st).toNat
      let ordered := !a.isNan && !b.isNan
      g.p st x.c.toNat &&
        ((x.fn == 0 && ordered && cmpNum a b == .eq) || (x.fn == 1 && !(ordered && cmpNum a b == .eq)) ||
         (x.fn == 2 && ordered && cmpNum a b == .lt) || (x.fn == 3 && ordered && cmpNum a b != .gt) ||
         (x.fn == 4 && ordered && cmpNum a b == .gt) || (x.fn == 5 && ordered && cmpNum a b != .lt) || (x.fn == 6 && !ordered) || (x.fn == 7 && ordered))
    let on (i : Instr) (st : Nat) : Bool := g.executes i st && g.p st x.a.toNat
    tells s g (.fcmp h x) x.d (compared (.fcmp h x)) ∧ tells s g (.dcmp h x) x.d (compared (.dcmp h x)) ∧
    tells s g (.fclsP h x) x.d (fun st => ((simtEnv s g (.fclsP h x)).readB x.mod { f := x.b } st).getLsbD
      (fpClass .f32 ((simtEnv s g (.fclsP h x)).read { f := x.a } st).toNat)) ∧
    tells s g (.voteAny h x) x.d (fun _ => (List.range 32).any (on (.voteAny h x))) ∧
    tells s g (.voteAll h x) x.d (fun _ => (List.range 32).all (fun j => !g.executes (.voteAll h x) j || g.p j x.a.toNat)))

/-- Moves and addresses (R203, R204, R205): MOV copies; MOVI and its x64 form give the sign-extended immediate; MOVH adds it times 2^28, its x32 form
modulo 2^32; LEA adds the index, signed or unsigned, times 2^sh to the base. MFS gives the special register that a names, each at its own issue: ib
after its own charge of 1 (R208). -/
def Obligations.MovesAndAddresses : Prop :=
  ∀ (s : State) (g : Gang) (h : Hd), g.regs.poison = [] →
    (∀ x : RF, Issues s g (.mov h x) → ∃ t g', exec (.mov h x) s = .next t ∧ t.gang? g.uid = some g' ∧ g'.pc = g.pc + 8 ∧
      gets g g' (.mov h x) x.d (iType x.mod).opw (fun st => ((simtEnv s g (.mov h x)).read { f := x.a, w := (iType x.mod).opw } st).toNat)) ∧
    (∀ x : IF, Issues s g (.movi h x) → ∃ t g', exec (.movi h x) s = .next t ∧ t.gang? g.uid = some g' ∧ g'.pc = g.pc + 8 ∧
      gets g g' (.movi h x) x.d (if 128 ≤ x.d.toNat then .w64 else .w32) (fun _ => (x.imm.signExtend 64).toNat)) ∧
    (∀ x : IF, Issues s g (.moviX64 h x) → ∃ t g', exec (.moviX64 h x) s = .next t ∧ t.gang? g.uid = some g' ∧ g'.pc = g.pc + 8 ∧
      gets g g' (.moviX64 h x) x.d .w64 (fun _ => (x.imm.signExtend 64).toNat)) ∧
    (∀ x : IF, Issues s g (.movh h x) → ∃ t g', exec (.movh h x) s = .next t ∧ t.gang? g.uid = some g' ∧ g'.pc = g.pc + 8 ∧
      gets g g' (.movh h x) x.d .w64 (fun st =>
        ((simtEnv s g (.movh h x)).read { f := x.d, w := .w64 } st + x.imm.signExtend 64 * BitVec.ofNat 64 (2 ^ 28)).toNat)) ∧
    (∀ x : IF, Issues s g (.movhX32 h x) → ∃ t g', exec (.movhX32 h x) s = .next t ∧ t.gang? g.uid = some g' ∧ g'.pc = g.pc + 8 ∧
      gets g g' (.movhX32 h x) x.d .w32 (fun st =>
        ((simtEnv s g (.movhX32 h x)).read { f := x.d } st + x.imm.signExtend 64 * BitVec.ofNat 64 (2 ^ 28)).toNat)) ∧
    (∀ x : RF, Issues s g (.lea h x) → ∃ t g', exec (.lea h x) s = .next t ∧ t.gang? g.uid = some g' ∧ g'.pc = g.pc + 8 ∧
      gets g g' (.lea h x) x.d .w64 (fun st => ((simtEnv s g (.lea h x)).read { f := x.a, w := .w64 } st +
        (((simtEnv s g (.lea h x)).readB x.mod { f := x.b } st).setWidth 32).signExtend 64 * BitVec.ofNat 64 (2 ^ (x.mod.toNat / 16 % 8))).toNat)) ∧
    (∀ x : RF, Issues s g (.leaN h x) → ∃ t g', exec (.leaN h x) s = .next t ∧ t.gang? g.uid = some g' ∧ g'.pc = g.pc + 8 ∧
      gets g g' (.leaN h x) x.d .w64 (fun st => ((simtEnv s g (.leaN h x)).read { f := x.a, w := .w64 } st +
        (((simtEnv s g (.leaN h x)).readB x.mod { f := x.b } st).setWidth 32).setWidth 64 * BitVec.ofNat 64 (2 ^ (x.mod.toNat / 16 % 8))).toNat)) ∧
    (∀ x : RF, yields s g (.mfs h x) x.d (wSpr x.a) (fun st v =>
      (x.a = 0 → v = g.spec.ib.toNat - 1) ∧ (x.a = 1 → v = g.spec.tb.toNat) ∧ (x.a = 2 → v = g.spec.cp.toNat) ∧ (x.a = 3 → v = g.spec.cpm.toNat) ∧
      (x.a = 4 → v = g.spec.dl.toNat) ∧ (x.a = 5 → v = g.spec.dcp.toNat) ∧ (x.a = 6 → v = g.ctl.nc.toNat) ∧ (x.a = 7 → v = g.fx.toNat) ∧
      (x.a = 8 → v = g.gid.toNat) ∧ (x.a = 9 → v = st) ∧ (x.a = 10 → v = g.slot) ∧ (x.a = 11 → v = g.core) ∧ (x.a = 12 → v = g.cluster) ∧
      (x.a = 13 → v = 0) ∧ (x.a = 14 → v = g.ctl.nmask.toNat) ∧ (x.a = 15 → v = g.spec.tstat.toNat)))

/-! ## Memory instructions -/

/-- Generic loads, stores, atomics, discards, maintenance and WATCH complete (R59, R106, R229, R230, R233, R237 to R239, R243 to R245): where every
strand's address passes its checks and is mapped, and the traffic fits, requests with the physical addresses leave the gang; no register and no byte
of memory changes yet, and the reuse clock steps by one for each but CMNT and WATCH. -/
def Obligations.GenericCompletes : Prop :=
  ∀ (s : State) (g : Gang) (i : Instr) (m : Generic) (ts : List (Part × Walk)), generic i = some m → Issues s g i → g.regs.poison = [] →
    (∃ st, g.executes i st = true) → g.lostStore = false → g.loss = (s.ctx g.ctx).loss →
    (simtEnv s g i).check m.req (m.parts (simtEnv s g i)) = .ok ts → missing ts = [] → s.calmFor g = true → s.muslinMode g.ctx = 0 →
    let ct := if m.charged then sectors m.req.align (m.parts (simtEnv s g i)) else 0
    ct ≤ g.spec.tb.toNat →
    ∃ t g', exec i s = .next t ∧ t.gang? g.uid = some g' ∧ g'.pc = g.pc + 8 ∧
      Leaves { g with ctl := { g.ctl with nc := if m.req.steps then g.ctl.nc + 1 else g.ctl.nc } } g' i ct ∧ keepsRegs g g' ∧
      s.sameBytes t ∧ sends s t g m.req.kind m.req.rel m.req.queue (found ts)

/-- The addresses and checks of generic accesses (R157, R229, R230): the address is base + Ix * W + offset modulo 2^64; beyond 2^56 a protection trap,
then misalignment, told for the lowest strand; a check that passes leaves no such strand. -/
def Obligations.GenericAddresses : Prop :=
  (∀ (s : State) (g : Gang) (i : Instr) (x : MF) (st : Nat),
    let e := simtEnv s g i
    let ix : Int := if x.index = 255#8 then 0 else ((e.read { f := x.index } st).setWidth 32).toInt
    (e.genAddr x st : Int) = ((e.read { f := x.base, w := .w64, base := true } st).toNat + ix * 2 ^ x.width.toNat + x.off.toInt) % 2 ^ 64) ∧
  (∀ (s : State) (g : Gang) (i : Instr) (m : Generic) (ts : List (Part × Walk)), generic i = some m →
    (simtEnv s g i).check m.req (m.parts (simtEnv s g i)) = .ok ts →
      ∀ p ∈ m.parts (simtEnv s g i), p.pa < 2 ^ 56 ∧ p.pa % m.req.align = 0) ∧
  (∀ (s : State) (g : Gang) (i : Instr) (m : Generic) (p : Part) (ps qs : List Part), generic i = some m →
    m.parts (simtEnv s g i) = ps ++ p :: qs → (∀ q ∈ ps, q.pa < 2 ^ 56) → 2 ^ 56 ≤ p.pa →
      (simtEnv s g i).check m.req (m.parts (simtEnv s g i)) = .error { cause := 4, taddr := BitVec.ofNat 64 p.pa }) ∧
  (∀ (s : State) (g : Gang) (i : Instr) (m : Generic) (p : Part) (ps qs : List Part), generic i = some m →
    m.parts (simtEnv s g i) = ps ++ p :: qs → (∀ q ∈ ps ++ p :: qs, q.pa < 2 ^ 56) → (∀ q ∈ ps, q.pa % m.req.align = 0) → p.pa % m.req.align ≠ 0 →
      (simtEnv s g i).check m.req (m.parts (simtEnv s g i)) = .error { cause := 3, taddr := BitVec.ofNat 64 p.pa })

/-- LDS and STS at the own core (R86, R119, R231, R234): a load brings each strand the bytes that its path sees in the banks, or those from before
them where a store of the last four cycles is not visible to it yet (R119; the moment is a free value); a store makes its bytes what its path sees and
changes no other byte of any path; no other register and no byte of main memory changes. Between store and merge other paths may see the old bytes
(R127; assumption 31). -/
def Obligations.ScratchpadAccess : Prop :=
  ∀ (s : State) (g : Gang) (h : Hd) (x : MF), g.regs.poison = [] → s.calmFor g = true → g.cluster < 8 →
    let n := mBytes x
    (Issues s g (.lds h x) → (∃ st, g.executes (.lds h x) st = true) →
      let e := simtEnv s g (.lds h x)
      let a (st : Nat) : Int := e.spAddr x st
      e.spadCheck n (e.parts.map (fun st => (st, a st))) = none → (∀ st, g.executes (.lds h x) st = true → eaCore (a st).toNat = g.core) →
      ∃ t g', exec (.lds h x) s = .next t ∧ t.gang? g.uid = some g' ∧ g'.pc = g.pc + 8 ∧ Leaves g g' (.lds h x) 0 ∧
        WroteOnly g g' (.lds h x) x.d (bytesOpw n) ∧ g'.ctl.fx = g.ctl.fx ∧ s.sameBytes t ∧ t.flights = s.flights ∧
        gets g g' (.lds h x) x.d (bytesOpw n) (fun st => spadValue s g n x.sgn (spadPa g.cluster (a st).toNat))) ∧
    (Issues s g (.sts h x) → (∃ st, g.executes (.sts h x) st = true) →
      let e := simtEnv s g (.sts h x)
      let a (st : Nat) : Int := e.spAddr x st
      e.spadCheck n (e.parts.map (fun st => (st, a st))) = none → (∀ st, g.executes (.sts h x) st = true → eaCore (a st).toNat = g.core) →
      ∃ t g', exec (.sts h x) s = .next t ∧ t.gang? g.uid = some g' ∧ g'.pc = g.pc + 8 ∧ Leaves g g' (.sts h x) 0 ∧ keepsRegs g g' ∧
        t.flights = s.flights ∧
        storedOnly s t (g.executes (.sts h x)) (fun st => spadPa g.cluster (a st).toNat) n (fun st => e.data x.d n st))

/-- LDS and STS at another core (R86, R234): one request for all strands leaves the gang, and nothing else changes. LDH and STH through a handle of
another place (R59, R91, R106, R235): requests for the checked addresses leave the gang, charged by the sector, with a step of the reuse clock; no
register and no byte changes yet. -/
def Obligations.ScratchpadAndHandleAway : Prop :=
  (∀ (s : State) (g : Gang) (h : Hd) (x : MF), g.regs.poison = [] → s.calmFor g = true →
      let n := mBytes x
      (Issues s g (.lds h x) → (∃ st, g.executes (.lds h x) st = true) →
        let e := simtEnv s g (.lds h x)
        let a (st : Nat) : Int := e.spAddr x st
        e.spadCheck n (e.parts.map (fun st => (st, a st))) = none → (∀ st, g.executes (.lds h x) st = true → eaCore (a st).toNat ≠ g.core) →
        ∃ t g', exec (.lds h x) s = .next t ∧ t.gang? g.uid = some g' ∧ g'.pc = g.pc + 8 ∧ Leaves g g' (.lds h x) 0 ∧ keepsRegs g g' ∧
          s.sameBytes t ∧ sends s t g (.spadLoad n x.sgn x.d) false (qOf x)
            (e.parts.map (fun st => { strand := st, pa := spadPa g.cluster (a st).toNat }))) ∧
      (Issues s g (.sts h x) → (∃ st, g.executes (.sts h x) st = true) →
        let e := simtEnv s g (.sts h x)
        let a (st : Nat) : Int := e.spAddr x st
        e.spadCheck n (e.parts.map (fun st => (st, a st))) = none → (∀ st, g.executes (.sts h x) st = true → eaCore (a st).toNat ≠ g.core) →
        ∃ t g', exec (.sts h x) s = .next t ∧ t.gang? g.uid = some g' ∧ g'.pc = g.pc + 8 ∧ Leaves g g' (.sts h x) 0 ∧ keepsRegs g g' ∧
          s.sameBytes t ∧ sends s t g (.spadStore n) false (qOf x)
            (e.parts.map (fun st => { strand := st, pa := spadPa g.cluster (a st).toNat, val := e.data x.d n st })))) ∧
  (∀ (s : State) (g : Gang) (h : Hd) (x : MF) (hd : Handle) (ps : List (Nat × Nat)), g.regs.poison = [] → s.calmFor g = true →
      (g.h x.base.toNat).pending = false → (g.h x.base.toNat).oncore = false → hd.oncore = false →
      let n := mBytes x
      (Issues s g (.ldh h x) → (∃ st, g.executes (.ldh h x) st = true) → (simtEnv s g (.ldh h x)).handleCheck x false = .go hd ps →
        handleCt x (simtEnv s g (.ldh h x)) ≤ g.spec.tb.toNat →
          ∃ t g', exec (.ldh h x) s = .next t ∧ t.gang? g.uid = some g' ∧ g'.pc = g.pc + 8 ∧
            Leaves { g with ctl := { g.ctl with nc := g.ctl.nc + 1 } } g' (.ldh h x) (handleCt x (simtEnv s g (.ldh h x))) ∧ keepsRegs g g' ∧
            s.sameBytes t ∧ sends s t g (.load n x.sgn x.d false false) false (qOf x) (ps.map (fun p => { strand := p.1, pa := p.2 }))) ∧
      (Issues s g (.sth h x) → (∃ st, g.executes (.sth h x) st = true) → (simtEnv s g (.sth h x)).handleCheck x true = .go hd ps →
        handleCt x (simtEnv s g (.sth h x)) ≤ g.spec.tb.toNat →
          ∃ t g', exec (.sth h x) s = .next t ∧ t.gang? g.uid = some g' ∧ g'.pc = g.pc + 8 ∧
            Leaves { g with ctl := { g.ctl with nc := g.ctl.nc + 1 } } g' (.sth h x) (handleCt x (simtEnv s g (.sth h x))) ∧ keepsRegs g g' ∧
            s.sameBytes t ∧ sends s t g (.store n) false (qOf x)
              (ps.map (fun p => { strand := p.1, pa := p.2, val := (simtEnv s g (.sth h x)).data x.d n p.1 }))))

/-- LDH and STH through an on-core handle (R91, R92, R235): where the checks pass, a load brings the bytes of the handle's page at the displacement, a
store writes them and no others. -/
def Obligations.HandleNear : Prop :=
  ∀ (s : State) (g : Gang) (h : Hd) (x : MF) (ps : List (Nat × Nat)), g.regs.poison = [] → s.calmFor g = true → g.cluster < 8 →
    (g.h x.base.toNat).pending = false → (g.h x.base.toNat).oncore = true →
    let n := mBytes x
    let ea (i : Instr) (st : Nat) : Nat := ((g.h x.base.toNat).page + (simtEnv s g i).disp x st).toNat - 2 ^ 48 - g.cluster * 2 ^ 26
    (Issues s g (.ldh h x) → (∃ st, g.executes (.ldh h x) st = true) →
      (simtEnv s g (.ldh h x)).handleCheck x false = .go (g.h x.base.toNat) ps →
      (∀ st, g.executes (.ldh h x) st = true → eaCore (ea (.ldh h x) st) = g.core) →
      ∃ t g', exec (.ldh h x) s = .next t ∧ t.gang? g.uid = some g' ∧ g'.pc = g.pc + 8 ∧ Leaves g g' (.ldh h x) 0 ∧
        WroteOnly g g' (.ldh h x) x.d (bytesOpw n) ∧ s.sameBytes t ∧
        gets g g' (.ldh h x) x.d (bytesOpw n) (fun st => spadValue s g n x.sgn (spadPa g.cluster (ea (.ldh h x) st)))) ∧
    (Issues s g (.sth h x) → (∃ st, g.executes (.sth h x) st = true) →
      (simtEnv s g (.sth h x)).handleCheck x true = .go (g.h x.base.toNat) ps →
      (∀ st, g.executes (.sth h x) st = true → eaCore (ea (.sth h x) st) = g.core ∧ ea (.sth h x) st + n ≤ 2 ^ 26) →
      ∃ t g', exec (.sth h x) s = .next t ∧ t.gang? g.uid = some g' ∧ g'.pc = g.pc + 8 ∧ Leaves g g' (.sth h x) 0 ∧ keepsRegs g g' ∧
        storedOnly s t (g.executes (.sth h x)) (fun st => spadPa g.cluster (ea (.sth h x) st)) n (fun st => (simtEnv s g (.sth h x)).data x.d n st))

/-- LDT and STT (R95, R96, R98, R236): a ready tile's bytes are read, a tile that the gang fills is written, at the displacement from its base; tstat
takes what the instruction saw. -/
def Obligations.TileAccess : Prop :=
  ∀ (s : State) (g : Gang) (h : Hd) (x : MF), g.regs.poison = [] → s.calmFor g = true → g.cluster < 8 → g.core < 32 → g.slot < 16 →
    let n := mBytes x
    let k (i : Instr) : Nat := (simtEnv s g i).tileIx x.base
    let ti (i : Instr) : Tile := s.tile g.gcore (k i)
    let pa (i : Instr) (st : Nat) : Nat := spadPa g.cluster (tileEa g.core (k i) ((simtEnv s g i).disp x st).toNat (ti i))
    (Issues s g (.ldt h x) → (∃ st, g.executes (.ldt h x) st = true) → (ti (.ldt h x)).defd = true →
      (simtEnv s g (.ldt h x)).tileNamed x.base = true → (ti (.ldt h x)).state = 2 → (ti (.ldt h x)).len ≤ (ti (.ldt h x)).bytes →
      ((ti (.ldt h x)).base + (ti (.ldt h x)).size + 1) * 128 ≤ 2 ^ 17 →
      (∀ st, g.executes (.ldt h x) st = true → 0 ≤ (simtEnv s g (.ldt h x)).disp x st ∧
        (simtEnv s g (.ldt h x)).disp x st + n ≤ (if (ti (.ldt h x)).len > 0 then (ti (.ldt h x)).len else (ti (.ldt h x)).bytes : Nat) ∧
        ((ti (.ldt h x)).base * 128 + ((simtEnv s g (.ldt h x)).disp x st).toNat) % n = 0) →
      ∃ t g', exec (.ldt h x) s = .next t ∧ t.gang? g.uid = some g' ∧ g'.pc = g.pc + 8 ∧
        Leaves { g with spec := { g.spec with tstat := (simtEnv s g (.ldt h x)).tstat (k (.ldt h x)) } } g' (.ldt h x) 0 ∧
        WroteOnly g g' (.ldt h x) x.d (bytesOpw n) ∧ s.sameBytes t ∧
        gets g g' (.ldt h x) x.d (bytesOpw n) (fun st => spadValue s g n x.sgn (pa (.ldt h x) st))) ∧
    (Issues s g (.stt h x) → (∃ st, g.executes (.stt h x) st = true) → (ti (.stt h x)).defd = true →
      (simtEnv s g (.stt h x)).tileNamed x.base = true → (ti (.stt h x)).state = 1 → (ti (.stt h x)).filler = 1 →
      ((ti (.stt h x)).base + (ti (.stt h x)).size + 1) * 128 ≤ 2 ^ 17 →
      (∀ st, g.executes (.stt h x) st = true → 0 ≤ (simtEnv s g (.stt h x)).disp x st ∧
        (simtEnv s g (.stt h x)).disp x st + n ≤ ((ti (.stt h x)).bytes : Nat) ∧
        ((ti (.stt h x)).base * 128 + ((simtEnv s g (.stt h x)).disp x st).toNat) % n = 0) →
      ∃ t g', exec (.stt h x) s = .next t ∧ t.gang? g.uid = some g' ∧ g'.pc = g.pc + 8 ∧
        Leaves { g with spec := { g.spec with tstat := (simtEnv s g (.stt h x)).tstat (k (.stt h x)) } } g' (.stt h x) 0 ∧ keepsRegs g g' ∧
        storedOnly s t (g.executes (.stt h x)) (pa (.stt h x)) n (fun st => (simtEnv s g (.stt h x)).data x.d n st))

/-- The tile states (R94 to R98, R251, R252): TDEF defines an empty tile from its descriptor; TACQ takes an empty one to filling, a filling one to
ready with its length, a ready one to draining. Each gives tstat what it saw, and touches no other entry and no register; none stores a byte, but a
tile that becomes ready shows its bytes to every path (R127, R128). -/
def Obligations.TileStates : Prop :=
  ∀ (s : State) (g : Gang) (h : Hd) (x : RF), g.regs.poison = [] → s.calmFor g = true →
    let k (i : Instr) : Nat := (simtEnv s g i).tileIx x.d
    let ti (i : Instr) : Tile := s.tile g.gcore (k i)
    let stored (i : Instr) (new : Tile) (after : State → Prop) : Prop := ∃ t g', exec i s = .next t ∧ t.gang? g.uid = some g' ∧ g'.pc = g.pc + 8 ∧
      Leaves { g with spec := { g.spec with tstat := (simtEnv s g i).tstat (k i) } } g' i 0 ∧ keepsRegs g g' ∧ after t ∧
      t.tile g.gcore (k i) = new ∧ (∀ c j, c ≠ g.gcore ∨ j ≠ k i → t.tile c j = s.tile c j)
    let done (i : Instr) (new : Tile) : Prop := stored i new s.sameBytes
    (Issues s g (.tdef h x) → (∃ st, g.executes (.tdef h x) st = true) →
      let e := simtEnv s g (.tdef h x)
      let v := e.uniform { f := x.a, w := .w64, base := true }
      let nx : Reg := BitVec.ofNat 8 (bits64 v 55 48)
      x.d.toNat < 128 → bits64 v 7 0 = 0 → bits64 v 63 57 = 0 → (bits64 v 17 8 + bits64 v 27 18 + 1) * 128 ≤ g.spad → (ti (.tdef h x)).state = 0 →
      e.tileNamed nx = true →
      done (.tdef h x) { state := 0, filler := 0, base := bits64 v 17 8, size := bits64 v 27 18, fmt := bits64 v 31 28, stride := bits64 v 47 32
                         next := e.tileIx nx, ring := v.getLsbD 56, defd := true, len := 0 }) ∧
    (Issues s g (.tacqOwn h x) → (∃ st, g.executes (.tacqOwn h x) st = true) → (ti (.tacqOwn h x)).defd = true →
      (simtEnv s g (.tacqOwn h x)).tileNamed x.d = true → (ti (.tacqOwn h x)).state = 0 →
      done (.tacqOwn h x) { ti (.tacqOwn h x) with state := 1, filler := 1 }) ∧
    (Issues s g (.tacqPub h x) → (∃ st, g.executes (.tacqPub h x) st = true) → (ti (.tacqPub h x)).defd = true →
      (simtEnv s g (.tacqPub h x)).tileNamed x.d = true → (ti (.tacqPub h x)).state = 1 → (ti (.tacqPub h x)).filler ≠ 0 →
      (simtEnv s g (.tacqPub h x)).storesOut (k (.tacqPub h x)) (ti (.tacqPub h x)) = false →
      let len := bits64 ((simtEnv s g (.tacqPub h x)).uniform { f := x.a, base := true }) 17 0
      len ≤ (ti (.tacqPub h x)).bytes → stored (.tacqPub h x) { ti (.tacqPub h x) with state := 2, len := len }
        (fun t => s.mergedSpad t (spadPa g.cluster (tileEa g.core (k (.tacqPub h x)) 0 (ti (.tacqPub h x)))) (ti (.tacqPub h x)).bytes)) ∧
    (Issues s g (.tacqRel h x) → (∃ st, g.executes (.tacqRel h x) st = true) → (ti (.tacqRel h x)).defd = true →
      (simtEnv s g (.tacqRel h x)).tileNamed x.d = true → (ti (.tacqRel h x)).state = 2 →
      done (.tacqRel h x) { ti (.tacqRel h x) with state := 3 })

/-- ATOMS (R86, R237, R240): at the own core's banks the words change at once, and no other byte; a single strand takes the old word and leaves what
R237's function makes of it. At another core a request leaves the gang. The register destination is the only register that may change. -/
def Obligations.ScratchpadAtomics : Prop :=
  ∀ (s : State) (g : Gang) (h : Hd) (x : RF), Issues s g (.atoms h x) → g.regs.poison = [] → s.calmFor g = true → g.cluster < 8 →
    s.muslinMode g.ctx = 0 →
    let i : Instr := .atoms h x
    let e := simtEnv s g i
    let n := atomBytes x
    let a (st : Nat) : Nat := (e.read (spSrc x.a) st).toNat
    let b (st : Nat) : Nat := (e.read { f := x.b, w := wAtom x } st).toNat % 2 ^ (8 * n)
    let c (st : Nat) : Nat := if x.fn = 0x10#8 then (e.read { f := x.c, w := wAtom x } st).toNat % 2 ^ (8 * n) else 0
    (∃ st, g.executes i st = true) → e.spadCheck n (e.parts.map (fun st => (st, (a st : Int)))) = none →
    ((∀ st, g.executes i st = true → eaCore (a st) = g.core) →
      ∃ t g', exec i s = .next t ∧ t.gang? g.uid = some g' ∧ g'.pc = g.pc + 8 ∧ Leaves g g' i 0 ∧ WroteOnly g g' i x.d (wAtom x) ∧
        s.sameMain t ∧
        (∀ (p : Path) (pa : Nat), isSpad pa = true →
          (∀ st, g.executes i st = true → pa < spadPa g.cluster (a st) ∨ spadPa g.cluster (a st) + n ≤ pa) → t.spadByte p pa = s.spadByte p pa) ∧
        (∀ st, g.executes i st = true → (∀ st', st' ≠ st → g.executes i st' = false) →
          let pa := spadPa g.cluster (a st)
          let old := leNat ((List.range n).map (fun k => (s.spadByte .vec (pa + k)).1))
          gets g g' i x.d (wAtom x) (fun _ => old) ∧
          (∀ v, atomNew x.fn.toNat n old (b st) (c st) = some v → ∀ k < n, (t.spadByte .vec (pa + k)).1 = BitVec.ofNat 8 (v / 2 ^ (8 * k))))) ∧
    ((∀ st, g.executes i st = true → eaCore (a st) ≠ g.core) →
      ∃ t g', exec i s = .next t ∧ t.gang? g.uid = some g' ∧ g'.pc = g.pc + 8 ∧ Leaves g g' i 0 ∧ keepsRegs g g' ∧ s.sameBytes t ∧
        sends s t g (.spadAtomic x.fn.toNat n x.d) false (some 0)
          (e.parts.map (fun st => { strand := st, pa := spadPa g.cluster (a st), val := (e.read { f := x.b, w := wAtom x } st).setWidth 128
                                    swap := if x.fn = 0x10#8 then e.read { f := x.c, w := wAtom x } st else 0 })))

/-- PREF (R59, R106, R243): it completes whatever its addresses are, touches no register, and steps the reuse clock; where no address is mapped to
readable main memory it does nothing else, and .evict changes no byte. Fences (R126): behind an access of the gang that is still outstanding or not
visible yet, its matrix instructions among them, a fence waits in flight, and the gang issues nothing; where there is none, it has done its work when
it ends: an acquire leaves the core's L1 no word it does not own outside constant sectors, and a FENCEX has merged every write of its producer path
and, towards VEC or MTX, emptied the core's L1. No register changes. -/
def Obligations.PrefetchAndFences : Prop :=
  (∀ (s : State) (g : Gang) (h : Hd) (x : MF), g.regs.poison = [] → s.calmFor g = true →
      let g1 : Gang := { g with ctl := { g.ctl with nc := g.ctl.nc + 1 } }
      let dropped (i : Instr) : Prop := ∀ p ∈ prefSectors x (simtEnv s g i), 2 ^ 56 ≤ p.pa ∨ ∃ k l, s.translate g.gcore g.ctx p.pa = .fault k l
      (Issues s g (.pref h x) → sectors 1 (prefSectors x (simtEnv s g (.pref h x))) ≤ g.spec.tb.toNat →
        ∃ t g', exec (.pref h x) s = .next t ∧ t.gang? g.uid = some g' ∧ g'.pc = g.pc + 8 ∧
          Leaves g1 g' (.pref h x) (sectors 1 (prefSectors x (simtEnv s g (.pref h x)))) ∧ keepsRegs g g' ∧ (dropped (.pref h x) → s.sameBytes t)) ∧
      (Issues s g (.prefL2 h x) → sectors 1 (prefSectors x (simtEnv s g (.prefL2 h x))) ≤ g.spec.tb.toNat →
        ∃ t g', exec (.prefL2 h x) s = .next t ∧ t.gang? g.uid = some g' ∧ g'.pc = g.pc + 8 ∧
          Leaves g1 g' (.prefL2 h x) (sectors 1 (prefSectors x (simtEnv s g (.prefL2 h x)))) ∧ keepsRegs g g' ∧ (dropped (.prefL2 h x) → s.sameBytes t)) ∧
      (Issues s g (.prefEvict h x) →
        ∃ t g', exec (.prefEvict h x) s = .next t ∧ t.gang? g.uid = some g' ∧ g'.pc = g.pc + 8 ∧ Leaves g1 g' (.prefEvict h x) 0 ∧ keepsRegs g g' ∧
          s.sameBytes t)) ∧
  (∀ (s : State) (g : Gang) (h : Hd) (x : RF), s.calmFor g = true → g.lostStore = false → g.loss = (s.ctx g.ctx).loss → (s.core g.gcore).freeze = 0 →
      s.muslinMode g.ctx = 0 →
      let op (i : Instr) : Nat := match i with
        | .fence .. => 16 | .fenceRel .. => 17 | .fenceAcq .. => 18 | .fenceAr .. => 19 | _ => 32 + 8 * x.a.toNat + x.b.toNat
      let waits (i : Instr) : Prop := Issues s g i → (∃ st, g.executes i st = true) →
        (∃ f ∈ s.flights, f.uid = some g.uid ∧ f.ordered = true ∧ f.seq < s.next ∧ f.shelved = false) ∨ (s.core g.gcore).storing g.uid = true ∨
          (∃ m ∈ (s.core g.gcore).mq, m.uid = g.uid ∧ m.id < s.next) → 0 < s.next →
        ∃ t g', exec i s = .next t ∧ t.gang? g.uid = some g' ∧ g'.pc = g.pc + 8 ∧ Leaves g g' i 0 ∧ keepsRegs g g' ∧ s.sameBytes t ∧
          (∃ f, t.flights = s.flights ++ [f] ∧ f.kind = .maintain (op i) ∧ f.uid = some g.uid ∧ f.rel = (op i == 17 || op i == 19)) ∧ g'.cannotIssue t.cycle = true
      let ends (i : Instr) (after : State → Prop) : Prop := Issues s g i → (∃ st, g.executes i st = true) →
        (∀ f ∈ s.flights, f.uid ≠ some g.uid ∧ f.id ≠ s.next ∧ f.seq ≠ s.next) → (s.core g.gcore).storing g.uid = false →
        (∀ m ∈ (s.core g.gcore).mq, m.uid ≠ g.uid) →
        ∃ t g', exec i s = .next t ∧ t.gang? g.uid = some g' ∧ g'.pc = g.pc + 8 ∧ Leaves g g' i 0 ∧ keepsRegs g g' ∧ t.flights = s.flights ∧
          g'.iss.block = [] ∧ after t
      (waits (.fence h x) ∧ ends (.fence h x) (fun t => s.sameBytes t)) ∧
      (waits (.fenceRel h x) ∧ ends (.fenceRel h x) (fun t => s.sameBytes t)) ∧
      (waits (.fenceAcq h x) ∧ ends (.fenceAcq h x) (fun t => s.sameBytes t ∧
        (t.core g.gcore).l1 = (s.core g.gcore).l1.map (fun kl => (kl.1, selfInvalidateLine kl.2)))) ∧
      (waits (.fenceAr h x) ∧ ends (.fenceAr h x) (fun t => s.sameBytes t ∧
        (t.core g.gcore).l1 = (s.core g.gcore).l1.map (fun kl => (kl.1, selfInvalidateLine kl.2)))) ∧
      (waits (.fencex h x) ∧ ends (.fencex h x) (fun t => (∀ w ∈ t.paths, w.path ≠ pathOf x.a.toNat) ∧
        (x.b.toNat < 2 → (t.core g.gcore).l1 = []))))

/-- XLAT (R90, R91, R241): from the TLB, the handle takes the page, its size, permissions and place, and field b the offset in the page; where a walk
is needed the handle is pending and the walk leaves the gang. No other handle and no other register changes. HDROP (R91, R242): a handle that is not
pending becomes invalid; .all does so with every handle, and marks each walk under way as dropped. No other register changes. XLAT and HDROP of a
handle that is pending wait at their own address. That HDROP of a pending handle waits is the model's reading (assumption 28). -/
def Obligations.HandlesMadeAndDropped : Prop :=
  (∀ (s : State) (g : Gang) (h : Hd) (x : RF) (write : Bool), g.regs.poison = [] → s.calmFor g = true →
      let i : Instr := if write then .xlatW h x else .xlat h x
      let n := x.d.toNat % 16
      let va := ((simtEnv s g i).uniform { f := x.a, w := .w64, base := true }).toNat
      Issues s g i → (∃ st, g.executes i st = true) → (g.h n).pending = false → va < 2 ^ 56 →
      ∀ pa size rd wr ex, s.translate g.gcore g.ctx va = .page pa size rd wr ex → xlatTarget g.cluster pa = true → (if write then wr else rd) = true →
      ((s.tlbHit g.gcore g.ctx va).isSome = true →
        ∃ t g', exec i s = .next t ∧ t.gang? g.uid = some g' ∧ g'.pc = g.pc + 8 ∧ Leaves g g' i 0 ∧ s.sameBytes t ∧ t.flights = s.flights ∧
          SMap.get g'.regs.h n {} = { valid := true, pending := false, page := pa, size := size, rd := rd, wr := wr
                                      oncore := isSpad pa && (pa - 2 ^ 48) / 2 ^ 26 == g.cluster, vpage := va / pageBytes size * pageBytes size } ∧
          (∀ m, m ≠ n → SMap.get g'.regs.h m {} = SMap.get g.regs.h m {}) ∧
          gets g g' i x.b .w32 (fun _ => va % pageBytes size) ∧
          (∀ k, writesV g i x.b .w32 k = false → g'.regs.v.get k = g.regs.v.get k) ∧ (∀ m, x.b.toNat ≠ 128 + m → g'.regs.s.get m = g.regs.s.get m)) ∧
      ((s.tlbHit g.gcore g.ctx va).isSome = false →
        ∃ t g', exec i s = .next t ∧ t.gang? g.uid = some g' ∧ g'.pc = g.pc + 8 ∧ s.sameBytes t ∧
          Leaves { g with regs := { g.regs with h := SMap.set g.regs.h n { pending := true } } } g' i 0 ∧
          g'.regs = { g.regs with h := SMap.set g.regs.h n { pending := true } } ∧
          ∃ f, t.flights = s.flights ++ [f] ∧ f.uid = some g.uid ∧ f.kind = .xlat n va write x.b false)) ∧
  (∀ (s : State) (g : Gang) (h : Hd) (x : RF), s.calmFor g = true →
      let regsKept (g' : Gang) : Prop := g'.regs = { g.regs with h := g'.regs.h } ∧ g'.ctl.p = g.ctl.p ∧ g'.ctl.b = g.ctl.b ∧ g'.ctl.fx = g.ctl.fx
      (Issues s g (.hdrop h x) → (∃ st, g.executes (.hdrop h x) st = true) → (g.h (x.d.toNat % 16)).pending = false →
        ∃ t g', exec (.hdrop h x) s = .next t ∧ t.gang? g.uid = some g' ∧ g'.pc = g.pc + 8 ∧ Leaves g g' (.hdrop h x) 0 ∧ regsKept g' ∧ s.sameBytes t ∧
          (SMap.get g'.regs.h (x.d.toNat % 16) {}).valid = false ∧
          (∀ m, m ≠ x.d.toNat % 16 → SMap.get g'.regs.h m {} = SMap.get g.regs.h m {})) ∧
      (∀ i ∈ [Instr.xlat h x, .xlatW h x, .hdrop h x], Issues s g i → (∃ st, g.executes i st = true) → (g.h (x.d.toNat % 16)).pending = true →
        ∃ t g', exec i s = .next t ∧ t.gang? g.uid = some g' ∧ g'.pc = g.pc ∧ g'.regs = g.regs ∧ g'.ctl = g.ctl ∧ g'.spec = g.spec ∧ s.sameBytes t) ∧
      (Issues s g (.hdropAll h x) → (∃ st, g.executes (.hdropAll h x) st = true) →
        ∃ t g', exec (.hdropAll h x) s = .next t ∧ t.gang? g.uid = some g' ∧ g'.pc = g.pc + 8 ∧ Leaves g g' (.hdropAll h x) 0 ∧ regsKept g' ∧
          s.sameBytes t ∧ (∀ m, (SMap.get g'.regs.h m {}).valid = false) ∧
          (∀ f ∈ t.flights, ∀ n va w d dropped, f.uid = some g.uid → f.kind = .xlat n va w d dropped → dropped = true)))

/-- WAITW (R102, R245, R246): it returns 3 with no monitor armed, the status of one that has fired, or 2 once its time since it came to be next has
passed; the monitor is disarmed and the core's L1 invalidates itself (R122). Before that it waits at its own address. The status 4 is given only by an
event (assumption 37). -/
def Obligations.LineWait : Prop :=
  ∀ (s : State) (g : Gang) (h : Hd) (x : IF), Issues s g (.waitw h x) → (∃ st, g.executes (.waitw h x) st = true) → s.calmFor g = true →
    s.muslinMode g.ctx = 0 → g.loss = (s.ctx g.ctx).loss →
    (∀ st0, (g.monitor = none ∧ st0 = 3) ∨ (∃ m, g.monitor = some m ∧ m.fired = some st0) ∨
        (∃ m, g.monitor = some m ∧ m.fired = none ∧ 0 < x.imm.toNat ∧ st0 = 2 ∧
          g.iss.waitFrom.getD (g.iss.since.getD s.clock.el) + x.imm.toNat * 65536 ≤ s.clock.el) →
      ∃ t g', exec (.waitw h x) s = .next t ∧ t.gang? g.uid = some g' ∧ g'.pc = g.pc + 8 ∧ Leaves g g' (.waitw h x) 0 ∧
        WroteOnly g g' (.waitw h x) x.d .w32 ∧ gets g g' (.waitw h x) x.d .w32 (fun _ => st0) ∧ g'.monitor = none ∧ s.sameBytes t ∧
        (t.core g.gcore).l1 = (s.core g.gcore).l1.map (fun kl => (kl.1, selfInvalidateLine kl.2))) ∧
    (∀ m, g.monitor = some m → m.fired = none →
        (x.imm = 0 ∨ s.clock.el < g.iss.waitFrom.getD (g.iss.since.getD s.clock.el) + x.imm.toNat * 65536) →
      ∃ t g', exec (.waitw h x) s = .next t ∧ t.gang? g.uid = some g' ∧ g'.pc = g.pc ∧ g'.regs = g.regs ∧ g'.ctl = g.ctl ∧
        g'.spec = g.spec ∧ s.sameBytes t)

/-- Flags (R99 to R101, R247 to R249): FPOST adds to a flag of the gang's window at once where no earlier access is outstanding; its remote form sends
a post, a count of 0 too, which is still a release (R247); FWAIT takes its amount or waits; FREAD gives the count, and its address form the flag's
address. -/
def Obligations.Flags : Prop :=
  ∀ (s : State) (g : Gang) (h : Hd), g.regs.poison = [] → s.calmFor g = true → s.muslinMode g.ctx = 0 → g.lostStore = false →
    g.loss = (s.ctx g.ctx).loss → (s.core g.gcore).freeze = 0 → g.pend = [] →
    let flag (t : State) (n : Nat) : BitVec 16 := SMap.get (t.core g.gcore).flags n 0
    let otherFlags (t : State) (n : Nat) : Prop := (∀ m, m ≠ n → flag t m = flag s m) ∧ ∀ c, c ≠ g.gcore → (t.core c).flags = (s.core c).flags
    (∀ x : RF, Issues s g (.fpost h x) → (∃ st, g.executes (.fpost h x) st = true) → x.d.toNat < g.window.size →
      let n := bits64 ((simtEnv s g (.fpost h x)).uniform { f := x.a, base := true }) 15 0
      (flag s (g.flagNo x.d.toNat)).toNat + n ≤ 65535 → (∀ f ∈ s.flights, f.uid ≠ some g.uid ∧ f.id ≠ s.next ∧ f.seq ≠ s.next) →
      (s.core g.gcore).storing g.uid = false → (∀ m ∈ (s.core g.gcore).mq, m.uid ≠ g.uid) →
      ∃ t g', exec (.fpost h x) s = .next t ∧ t.gang? g.uid = some g' ∧ g'.pc = g.pc + 8 ∧ Leaves g g' (.fpost h x) 0 ∧ keepsRegs g g' ∧
        s.sameBytes t ∧ t.flights = s.flights ∧ (flag t (g.flagNo x.d.toNat)).toNat = (flag s (g.flagNo x.d.toNat)).toNat + n ∧
        otherFlags t (g.flagNo x.d.toNat)) ∧
    (∀ x : RF, Issues s g (.fpostR h x) → (∃ st, g.executes (.fpostR h x) st = true) →
      let n := bits64 ((simtEnv s g (.fpostR h x)).uniform { f := x.b, base := true }) 15 0
      ∃ t g' f, exec (.fpostR h x) s = .next t ∧ t.gang? g.uid = some g' ∧ g'.pc = g.pc + 8 ∧ Leaves g g' (.fpostR h x) 0 ∧ keepsRegs g g' ∧
        s.sameBytes t ∧ t.flights = s.flights ++ [f] ∧ f.rel = true ∧ f.uid = some g.uid ∧
        f.kind = .post (((simtEnv s g (.fpostR h x)).uniform { f := x.a, base := true }).setWidth 32) n g.ctx) ∧
    (∀ x : IF, Issues s g (.fwait h x) → (∃ st, g.executes (.fwait h x) st = true) → x.d.toNat < g.window.size →
      (x.imm.toNat ≤ (flag s (g.flagNo x.d.toNat)).toNat →
        ∃ t g', exec (.fwait h x) s = .next t ∧ t.gang? g.uid = some g' ∧ g'.pc = g.pc + 8 ∧ Leaves g g' (.fwait h x) 0 ∧ keepsRegs g g' ∧
          s.sameBytes t ∧ (flag t (g.flagNo x.d.toNat)).toNat = (flag s (g.flagNo x.d.toNat)).toNat - x.imm.toNat ∧
          otherFlags t (g.flagNo x.d.toNat) ∧ (t.core g.gcore).l1 = (s.core g.gcore).l1.map (fun kl => (kl.1, selfInvalidateLine kl.2))) ∧
      ((flag s (g.flagNo x.d.toNat)).toNat < x.imm.toNat →
        ∃ t g', exec (.fwait h x) s = .next t ∧ t.gang? g.uid = some g' ∧ g'.pc = g.pc ∧ g'.regs = g.regs ∧ g'.ctl = g.ctl ∧ g'.spec = g.spec ∧
          s.sameBytes t ∧ ∀ m, flag t m = flag s m)) ∧
    (∀ x : RF, Issues s g (.fread h x) → (∃ st, g.executes (.fread h x) st = true) → x.a.toNat < g.window.size →
      ∃ t g', exec (.fread h x) s = .next t ∧ t.gang? g.uid = some g' ∧ g'.pc = g.pc + 8 ∧ Leaves g g' (.fread h x) 0 ∧
        WroteOnly g g' (.fread h x) x.d .w32 ∧ gets g g' (.fread h x) x.d .w32 (fun _ => (flag s (g.flagNo x.a.toNat)).toNat) ∧
        s.sameBytes t ∧ ∀ m, flag t m = flag s m) ∧
    (∀ x : RF, Issues s g (.freadAddr h x) → (∃ st, g.executes (.freadAddr h x) st = true) → x.a.toNat < g.window.size →
      ∃ t g', exec (.freadAddr h x) s = .next t ∧ t.gang? g.uid = some g' ∧ g'.pc = g.pc + 8 ∧ Leaves g g' (.freadAddr h x) 0 ∧
        WroteOnly g g' (.freadAddr h x) x.d .w32 ∧ s.sameBytes t ∧
        gets g g' (.freadAddr h x) x.d .w32 (fun _ => g.window.base + x.a.toNat + 64 * g.core + 2048 * g.cluster + 65536 * g.window.serial.toNat))

/-- Cohort barriers (R48, R49, R250): an arrival counts at once where no earlier access is outstanding, the last one advances the phase; the wait
completes once the phase has passed the one recorded, and else waits at its own address. When an arrival counts is the model's reading (assumption
38). -/
def Obligations.CohortBarriers : Prop :=
  ∀ (s : State) (g : Gang) (h : Hd) (x : RF), s.calmFor g = true → s.muslinMode g.ctx = 0 → g.lostStore = false → g.loss = (s.ctx g.ctx).loss →
    (s.core g.gcore).freeze = 0 →
    let n := x.a.toNat % 4
    let idx := (g.k n).idx.toNat
    let c := s.cohort g.ctx idx
    (Issues s g (.barArrive h x) → (∃ st, g.executes (.barArrive h x) st = true) → (g.k n).valid = true →
      (∀ f ∈ s.flights, f.uid ≠ some g.uid ∧ f.id ≠ s.next ∧ f.seq ≠ s.next) → (s.core g.gcore).storing g.uid = false →
      (∀ m ∈ (s.core g.gcore).mq, m.uid ≠ g.uid) →
      ∃ t g', exec (.barArrive h x) s = .next t ∧ t.gang? g.uid = some g' ∧ g'.pc = g.pc + 8 ∧ Leaves g g' (.barArrive h x) 0 ∧ keepsRegs g g' ∧
        s.sameBytes t ∧ t.flights = s.flights ∧ g'.k n = { g.k n with phase := c.phase, arrived := true } ∧
        (∀ m, m ≠ n → g'.k m = g.k m) ∧ (∀ j, j ≠ idx → t.cohort g.ctx j = s.cohort g.ctx j) ∧
        t.cohort g.ctx idx = if c.arrived + 1 = c.members then { c with arrived := 0, phase := c.phase + 1 } else { c with arrived := c.arrived + 1 }) ∧
    (Issues s g (.barWait h x) → (∃ st, g.executes (.barWait h x) st = true) → (g.k n).valid = true →
      ((g.k n).arrived = false ∨ (s.arriving g.uid n = false ∧ c.phase ≠ (g.k n).phase) →
        ∃ t g', exec (.barWait h x) s = .next t ∧ t.gang? g.uid = some g' ∧ g'.pc = g.pc + 8 ∧ Leaves g g' (.barWait h x) 0 ∧ keepsRegs g g' ∧
          s.sameBytes t ∧ g'.k n = { g.k n with arrived := false } ∧ t.cohort g.ctx idx = c ∧
          (t.core g.gcore).l1 = (s.core g.gcore).l1.map (fun kl => (kl.1, selfInvalidateLine kl.2))) ∧
      ((g.k n).arrived = true → c.phase = (g.k n).phase →
        ∃ t g', exec (.barWait h x) s = .next t ∧ t.gang? g.uid = some g' ∧ g'.pc = g.pc ∧ g'.regs = g.regs ∧ g'.ctl = g.ctl ∧ g'.spec = g.spec ∧
          s.sameBytes t ∧ t.cohort g.ctx idx = c))

/-- A page that is not mapped parks the gang (R383, R384): a generic access whose checks pass and which finds no translation for some strand leaves
the gang parked at its own instruction, with the pages it waits for, each outstanding among the context's faults; one that parks as a whole sends
nothing. That faults are told apart by pages of 4 KiB is the model's reading (assumption 26). -/
def Obligations.PageFaultParks : Prop :=
  ∀ (s : State) (g : Gang) (i : Instr) (m : Generic) (ts : List (Part × Walk)), generic i = some m → Issues s g i → g.regs.poison = [] →
    (∃ st, g.executes i st = true) → g.lostStore = false → g.loss = (s.ctx g.ctx).loss →
    (simtEnv s g i).check m.req (m.parts (simtEnv s g i)) = .ok ts → missing ts ≠ [] →
    (if m.charged then sectors m.req.align (m.parts (simtEnv s g i)) else 0) ≤ g.spec.tb.toNat → s.calmFor g = true → s.muslinMode g.ctx = 0 →
    ∃ t g' k, exec i s = .next t ∧ t.gang? g.uid = some g' ∧ g'.park = some k ∧ k.instr = i ∧ k.pc = g.pc ∧ g'.regs = g.regs ∧
      (∀ page, page ∈ k.pages ↔ ∃ q ∈ missing ts, q.1.pa / 4096 = page) ∧
      (∀ page ∈ k.pages, ∃ f ∈ (t.ctx g.ctx).faults, f.page = page) ∧
      (m.req.whole = true → t.flights = s.flights)

/-! ## Work: records, futures, time -/

/-- SPAWN (R77, R253, R254): with a valid node, registers for the record, and room, one append leaves the gang, with a record for each executing
strand (or for the lowest alone); its grants come from the gang's budgets, strand by strand; the room is reserved, and the gang waits. When a gang
whose grant empties a budget yields is the model's reading (assumption 39). -/
def Obligations.Spawn : Prop :=
  ∀ (s : State) (g : Gang) (h : Hd) (x : IF) (one : Bool), g.regs.poison = [] → s.calmFor g = true → g.lostStore = false →
    let i : Instr := if one then .spawnOne h x else .spawn h x
    let e := simtEnv s g i
    let node := x.imm.toNat % 65536
    let nd := s.nodeOf g.ctx node
    let who := if one then e.parts.take 1 else e.parts
    let amount : Word64 := if x.a = 255#8 then 0 else e.uniform { f := x.a, w := .w64, base := true }
    let gr := grants who.length (bits64 amount 31 0) (bits64 amount 63 32) (g.spec.ib.toNat - 4) g.spec.tb.toNat
    Issues s g i → (∃ st, g.executes i st = true) → nd.valid = true → x.d.toNat + nd.recw ≤ 128 →
    ∀ keep, s.roomFor g.ctx node who.length = some keep →
      ∃ t g' f recs, exec i s = .next t ∧ t.gang? g.uid = some g' ∧ g'.pc = g.pc + 8 ∧ keepsRegs g g' ∧
        Leaves { g with spec := { g.spec with ib := g'.spec.ib + BitVec.ofNat 32 (ciOf i.maj), tb := g'.spec.tb } } g' i 0 ∧
        g'.spec.ib = BitVec.ofNat 32 gr.2.1 ∧ g'.spec.tb = BitVec.ofNat 32 gr.2.2 ∧ s.sameBytes t ∧
        t.flights = s.flights ++ [f] ∧ f.uid = some g.uid ∧ f.kind = .append 2 (16 * g.gcore + g.slot) node keep recs ∧
        recs.map Record.words = who.map (fun st => (List.range nd.recw).map (fun j => g.v st (x.d.toNat + j))) ∧
        recs.map (fun r => (r.gi, r.gt)) = gr.1 ∧ (t.bin g.ctx node).reserved = (s.bin g.ctx node).reserved + keep ∧ g'.cannotIssue t.cycle = true

/-- FUT (R52, R53, R255): where the future words (and the cells of a join) pass their checks and are mapped, one request for each future leaves the
gang with the value, or the cell, and the gang waits for the answers; nothing else changes yet. -/
def Obligations.Futures : Prop :=
  ∀ (s : State) (g : Gang) (h : Hd) (x : RF) (ts : List (Part × Walk)), g.regs.poison = [] → s.calmFor g = true → g.lostStore = false →
    let sent (i : Instr) (ps : Env → List Part) (write : Bool) (k : FlightKind) (rel : Bool) : Prop :=
      Issues s g i → (∃ st, g.executes i st = true) → (simtEnv s g i).check (reqFut write) (ps (simtEnv s g i)) = .ok ts → missing ts = [] →
      ∃ t g', exec i s = .next t ∧ t.gang? g.uid = some g' ∧ g'.pc = g.pc + 8 ∧ Leaves g g' i 0 ∧ keepsRegs g g' ∧ s.sameBytes t ∧
        sends s t g k rel none (found ts) ∧ g'.cannotIssue t.cycle = true
    sent (.futRes h x) (fun e => futParts x (fun st => bits64 (e.read { f := x.b, w := .w64 } st) 47 0) e) true (.resolve false x.d) true ∧
    sent (.futPoison h x) (fun e => futParts x (fun _ => 0) e) true (.resolve true x.d) true ∧
    sent (.futPoll h x) (fun e => futParts x (fun _ => 0) e) false (.poll x.d) false ∧
    (let i : Instr := .futJoin h x
     let e := simtEnv s g i
     let a (st : Nat) : Nat := (e.read { f := x.a, w := .w64, base := true } st).toNat
     let b (st : Nat) : Nat := (e.read { f := x.b, w := .w64, base := true } st).toNat
     Issues s g i → (∃ st, g.executes i st = true) →
     (∀ st, g.executes i st = true → a st < 2 ^ 56 ∧ b st < 2 ^ 56 ∧ a st % 8 = 0 ∧ b st % 32 = 0) →
     ∀ (P Q : Nat → Nat × Nat), (∀ st, g.executes i st = true →
       (∃ ex, s.translate g.gcore g.ctx (a st) = .page (P st).1 (P st).2 true true ex) ∧ isDram (pageAddr (P st).1 (P st).2 (a st)) = true ∧
       (∃ rd ex, s.translate g.gcore g.ctx (b st) = .page (Q st).1 (Q st).2 rd true ex) ∧ isDram (pageAddr (Q st).1 (Q st).2 (b st)) = true) →
     ∃ t g', exec i s = .next t ∧ t.gang? g.uid = some g' ∧ g'.pc = g.pc + 8 ∧ Leaves g g' i 0 ∧ keepsRegs g g' ∧ s.sameBytes t ∧
       g'.cannotIssue t.cycle = true ∧ ∃ new, t.flights = s.flights ++ new ∧ (∀ f ∈ new, f.uid = some g.uid ∧ f.kind = .join x.d) ∧
         ∀ st, g.executes i st = true → ∃ f ∈ new, ∃ p ∈ f.parts, p.strand = st ∧ p.pa = pageAddr (P st).1 (P st).2 (a st) ∧
           p.val = BitVec.ofNat 128 (pageAddr (Q st).1 (Q st).2 (b st)))

/-- What the gang may ask about its records, the time and the counters (R257 to R259, R277): the append time of a strand's record, its extension, its
source with the grant mark, its words, zero beyond the record; device time in the three layouts, never less than the gang has sampled before (R259;
that a second sample lies ahead of the first by what its form can tell apart, a nanosecond or one unit of the fraction, is the model's choice,
assumption 91); a counter. -/
def Obligations.RecordsTimeCounters : Prop :=
  ∀ (s : State) (g : Gang) (h : Hd) (x : RF), s.calmFor g = true → s.muslinMode g.ctx = 0 →
    let readsOf (g1 : Gang) (i : Instr) (w : OpW) (val : Nat → Nat) : Prop := Issues s g i → (∃ st, g.executes i st = true) → g.regs.poison = [] →
      ∃ t g', exec i s = .next t ∧ t.gang? g.uid = some g' ∧ g'.pc = g.pc + 8 ∧ Leaves g1 g' i 0 ∧ WroteOnly g g' i x.d w ∧
        g'.ctl.fx = g.ctl.fx ∧ s.sameBytes t ∧ gets g g' i x.d w val
    let reads : Instr → OpW → (Nat → Nat) → Prop := readsOf g
    let time (gap : Nat) : Nat := match g.lastTm with | none => s.clock.t | some t => max s.clock.t (t + gap)
    let samples (i : Instr) (w : OpW) (gap : Nat) (val : Nat → Nat) : Prop := readsOf { g with lastTm := some (time gap) } i w (fun _ => val (time gap))
    let ns (t : Nat) : Nat := t / 2 ^ 16 % 1000000000
    let sec (t : Nat) : Nat := t / 2 ^ 16 / 1000000000
    let dl (t : Nat) : Nat := sec t % 2 ^ 32 * 2 ^ 32 + ns t
    let ext (t : Nat) : Nat := t % 2 ^ 16 * 2 ^ 16 + sec t / 2 ^ 32 % 2 ^ 16
    reads (.grecTs h x) .w64 (fun st => dl (g.record st).time) ∧
    reads (.grecTsx h x) .w32 (fun st => ext (g.record st).time) ∧
    reads (.grecSrc h x) .w32 (fun st => (g.record st).src + if (g.record st).granted then 8 else 0) ∧
    reads (.grecWord h x) .w32 (fun st => ((padWords g.ent.recw (g.record st).words).getD (x.a.toNat - 192) 0).toNat) ∧
    samples (.rdtm h x) .w64 65536 dl ∧
    samples (.rdtmX h x) .w32 1 ext ∧
    samples (.rdtmQ h x) .w128 1 (fun t => ns t + sec t % 2 ^ 32 * 2 ^ 32 + ext t * 2 ^ 64) ∧
    reads (.rdctr h x) .w64 (fun _ => s.counter g (x.a.toNat - 192))

/-! ## Control -/

/-- Branch registers (R263, R264): PBR takes the word address, PBRR a register's, and pbrr.get gives one back; no other register changes. JOIN, CALL
and RET (R36, R266 to R268): a join turns to the other way, then pops the entry and goes on behind the join with the mask of the push; a call leaves
the next address in its link register. -/
def Obligations.BranchRegistersAndCalls : Prop :=
  (∀ (s : State) (g : Gang) (h : Hd), g.regs.poison = [] →
      let put (i : Instr) (n : Nat) (v : BitVec 56) : Prop := ∃ t g', exec i s = .next t ∧ t.gang? g.uid = some g' ∧ g'.pc = g.pc + 8 ∧ Leaves g g' i 0 ∧
        g'.regs = g.regs ∧ g'.ctl.p = g.ctl.p ∧ g'.ctl.fx = g.ctl.fx ∧ SMap.get g'.ctl.b n 0 = v ∧
        ∀ m, m ≠ n → SMap.get g'.ctl.b m 0 = SMap.get g.ctl.b m 0
      (∀ x : IF, Issues s g (.pbr h x) → (∃ st, g.executes (.pbr h x) st = true) →
        put (.pbr h x) (x.d.toNat % 8) ((g.pc + 8 * x.imm.signExtend 64).setWidth 56)) ∧
      (∀ x : RF, Issues s g (.pbrr h x) → (∃ st, g.executes (.pbrr h x) st = true) →
        let v := (simtEnv s g (.pbrr h x)).uniform { f := x.a, w := .w64, base := true }
        bits64 v 63 56 = 0 → put (.pbrr h x) (x.d.toNat % 8) (v.setWidth 56)) ∧
      (∀ x : RF, Issues s g (.pbrrGet h x) → (∃ st, g.executes (.pbrrGet h x) st = true) →
        ∃ t g', exec (.pbrrGet h x) s = .next t ∧ t.gang? g.uid = some g' ∧ g'.pc = g.pc + 8 ∧ Leaves g g' (.pbrrGet h x) 0 ∧
          WroteOnly g g' (.pbrrGet h x) x.d .w64 ∧ gets g g' (.pbrrGet h x) x.d .w64 (fun _ => (g.b (x.a.toNat % 8)).toNat))) ∧
  (∀ (s : State) (g : Gang) (h : Hd) (x : BF),
      (Issues s g (.join h x) → ∀ m o opc j rest, o ≠ 0 → g.ctl.stack = .div false m o opc j :: rest →
        ∃ t g', exec (.join h x) s = .next t ∧ t.gang? g.uid = some g' ∧ g'.pc = opc.setWidth 64 ∧ keepsRegs g g' ∧
          Leaves { g with ctl := { g.ctl with active := o, stack := .div true m o opc j :: rest } } g' (.join h x) 0) ∧
      (Issues s g (.join h x) → ∀ m o opc j rest, m ≠ 0 → g.ctl.stack = .div true m o opc j :: rest →
        ∃ t g', exec (.join h x) s = .next t ∧ t.gang? g.uid = some g' ∧ g'.pc = j.setWidth 64 + 8 ∧ keepsRegs g g' ∧
          Leaves { g with ctl := { g.ctl with active := m, stack := rest } } g' (.join h x) 0) ∧
      (Issues s g (.call h x) → (∃ st, g.executes (.call h x) st = true) → (g.b x.tgt.toNat).toNat % 8 = 0 →
        ∃ t g', exec (.call h x) s = .next t ∧ t.gang? g.uid = some g' ∧ g'.pc = (g.b x.tgt.toNat).setWidth 64 ∧ Leaves g g' (.call h x) 0 ∧
          g'.regs = g.regs ∧ g'.ctl.p = g.ctl.p ∧ g'.ctl.fx = g.ctl.fx ∧ SMap.get g'.ctl.b x.jn.toNat 0 = (g.pc + 8).setWidth 56 ∧
          ∀ m, m ≠ x.jn.toNat → SMap.get g'.ctl.b m 0 = SMap.get g.ctl.b m 0) ∧
      (Issues s g (.ret h x) → (∃ st, g.executes (.ret h x) st = true) → (g.b x.tgt.toNat).toNat % 8 = 0 →
        ∃ t g', exec (.ret h x) s = .next t ∧ t.gang? g.uid = some g' ∧ g'.pc = (g.b x.tgt.toNat).setWidth 64 ∧ Leaves g g' (.ret h x) 0 ∧ keepsRegs g g'))

/-- Branches of a gang (R35, R152, R262, R265): BR goes to its target when every active strand executes it, on when none does, and else splits: the
strands that take it become the active mask, and an entry with the others' way and the join is pushed. br.any and br.all take the whole mask. -/
def Obligations.Branches : Prop :=
  ∀ (s : State) (g : Gang) (h : Hd) (x : BF),
    let tgt : Word64 := (g.b x.tgt.toNat).setWidth 64
    let goes (i : Instr) (a : Word64) : Prop := ∃ t g', exec i s = .next t ∧ t.gang? g.uid = some g' ∧ g'.pc = a ∧ Leaves g g' i 0 ∧ keepsRegs g g'
    let any (i : Instr) : Prop := ∃ st, g.executes i st = true
    let all (i : Instr) : Prop := ∀ st < 32, g.ctl.active.getLsbD st = true → g.executes i st = true
    bits64 tgt 2 0 = 0 →
    (Issues s g (.br h x) → any (.br h x) → all (.br h x) → goes (.br h x) tgt) ∧
    (Issues s g (.br h x) → ¬ any (.br h x) → goes (.br h x) (g.pc + 8)) ∧
    (Issues s g (.br h x) → any (.br h x) → ¬ all (.br h x) → bits64 ((g.b x.jn.toNat).setWidth 64) 2 0 = 0 → g.ctl.stack.length < 16 →
      ∃ t g', exec (.br h x) s = .next t ∧ t.gang? g.uid = some g' ∧ g'.pc = tgt ∧ keepsRegs g g' ∧
        (∀ st < 32, g'.ctl.active.getLsbD st = g.executes (.br h x) st) ∧
        Leaves { g with ctl := { g.ctl with active := g'.ctl.active, stack := g'.ctl.stack } } g' (.br h x) 0 ∧
        g'.ctl.stack = .div false g.ctl.active (g.ctl.active &&& ~~~g'.ctl.active) ((g.pc + 8).setWidth 56) (g.b x.jn.toNat) :: g.ctl.stack) ∧
    (Issues s g (.brAny h x) → (any (.brAny h x) → goes (.brAny h x) tgt) ∧ (¬ any (.brAny h x) → goes (.brAny h x) (g.pc + 8))) ∧
    (Issues s g (.brAll h x) → (all (.brAll h x) → goes (.brAll h x) tgt) ∧ (¬ all (.brAll h x) → goes (.brAll h x) (g.pc + 8)))

/-- EXIT (R37, R269): the strands that execute it leave nmask, the active mask and the masks of the stack; while others stay active the gang goes on;
when none is left, and every store of the gang has been registered, it exits, with its budgets back in the pools (that it waits for its stores:
assumption 54). That the end of a gang reports a lost store is the model's reading (assumption 43), and the statement leaves that case out. -/
def Obligations.Exit : Prop :=
  ∀ (s : State) (g : Gang) (h : Hd) (x : BF), Issues s g (.exit h x) → (∃ st, g.executes (.exit h x) st = true) →
    ∀ m : Word32, (∀ st < 32, m.getLsbD st = g.executes (.exit h x) st) →
    (g.ctl.nmask &&& ~~~m ≠ 0 → g.ctl.active &&& ~~~m ≠ 0 →
      ∃ t g', exec (.exit h x) s = .next t ∧ t.gang? g.uid = some g' ∧ g'.pc = g.pc + 8 ∧ keepsRegs g g' ∧
        Leaves { g with ctl := { g.ctl with nmask := g.ctl.nmask &&& ~~~m, active := g.ctl.active &&& ~~~m, stack := g.ctl.stack.map (Entry.without m) } }
          g' (.exit h x) 0) ∧
    (g.ctl.nmask &&& ~~~m ≠ 0 → g.ctl.active &&& ~~~m = 0 → ∀ p o opc j rest, o &&& ~~~m ≠ 0 → g.ctl.stack = .div false p o opc j :: rest →
      ∃ t g', exec (.exit h x) s = .next t ∧ t.gang? g.uid = some g' ∧ g'.pc = opc.setWidth 64 ∧ keepsRegs g g' ∧
        g'.ctl.active = o &&& ~~~m ∧ g'.ctl.nmask = g.ctl.nmask &&& ~~~m) ∧
    (g.ctl.nmask &&& ~~~m = 0 → g.lostStore = false → s.unregistered g.uid = false → s.calmFor g = true →
      ∃ t g', exec (.exit h x) s = .next t ∧ t.gang? g.uid = some g' ∧ g'.iss.exiting = true ∧ g'.ctl.nmask = 0 ∧ g'.spec.ib = 0 ∧ g'.spec.tb = 0 ∧
        (t.ctx g.ctx).ibpool = min (2 ^ 64 - 1) ((s.ctx g.ctx).ibpool + (g.spec.ib.toNat - 1)) ∧
        (t.ctx g.ctx).tbpool = min (2 ^ 64 - 1) ((s.ctx g.ctx).tbpool + g.spec.tb.toNat) ∧ s.sameBytes t)

/-- The change of decoder and the hints (R39, R40, R63, R69, R192, R207, R270): FUSE of a converged gang on a core that runs VLIW threads puts it
under the VLIW decoder with a seal behind it; YIELD asks for a yield; NOP only goes on, and its pause form holds the gang back for 32 cycles. -/
def Obligations.FuseYieldNop : Prop :=
  ∀ (s : State) (g : Gang) (h : Hd),
    (∀ x : BF, Issues s g (.fuse h x) → (∃ st, g.executes (.fuse h x) st = true) → s.vres g.gcore ≠ 0 → g.ctl.active = 0xFFFFFFFF →
      g.ctl.nmask = 0xFFFFFFFF → g.ctl.stack = [] →
      ∃ t g', exec (.fuse h x) s = .next t ∧ t.gang? g.uid = some g' ∧ g'.pc = g.pc + 8 ∧ keepsRegs g g' ∧
        Leaves { g with ctl := { g.ctl with vliw := true }, spec := { g.spec with cp := g.pc + 8 } } g' (.fuse h x) 0) ∧
    (∀ x : BF, Issues s g (.yield h x) → (∃ st, g.executes (.yield h x) st = true) →
      ∃ t g', exec (.yield h x) s = .next t ∧ t.gang? g.uid = some g' ∧ g'.pc = g.pc + 8 ∧ keepsRegs g g' ∧ Leaves g g' (.yield h x) 0 ∧
        g'.iss.yieldReq = true ∧ (s.calmFor g = true → s.sameBytes t)) ∧
    (∀ x : RF, Issues s g (.nop h x) →
      ∃ t g', exec (.nop h x) s = .next t ∧ t.gang? g.uid = some g' ∧ g'.pc = g.pc + 8 ∧ keepsRegs g g' ∧ Leaves g g' (.nop h x) 0 ∧
        (s.calmFor g = true → s.sameBytes t)) ∧
    (∀ x : RF, Issues s g (.nopPause h x) → (∃ st, g.executes (.nopPause h x) st = true) →
      ∃ t g', exec (.nopPause h x) s = .next t ∧ t.gang? g.uid = some g' ∧ g'.pc = g.pc + 8 ∧ keepsRegs g g' ∧ Leaves g g' (.nopPause h x) 0 ∧
        g'.iss.pauseTo = some (s.cycle + 33) ∧ (∀ c, c < s.cycle + 33 → g'.cannotIssue c = true) ∧ (s.calmFor g = true → s.sameBytes t))

/-- CONT (R62, R63, R66, R69): with nothing outstanding, cp takes the target, cpm the mask, and the shadow bank the registers that the mask names,
with the control state. -/
def Obligations.ContinuationPoints : Prop :=
  ∀ (s : State) (g : Gang) (h : Hd) (x : IF), g.regs.poison = [] → g.pend = [] → s.calmFor g = true → s.muslinMode g.ctx = 0 → g.park = none →
    s.resultsOut g.uid = false →
    let seals (i : Instr) (a : Word64) : Prop := Issues s g i → (∃ st, g.executes i st = true) →
      let m := if x.d = 255#8 then g.spec.cpm else (simtEnv s g i).uniform { f := x.d, w := .w64, base := true }
      cpmOk m = true → bits64 a 2 0 = 0 → bits64 a 63 56 = 0 →
      ∃ t g', exec i s = .next t ∧ t.gang? g.uid = some g' ∧ g'.pc = g.pc + 8 ∧ keepsRegs g g' ∧ s.sameBytes t ∧
        Leaves { g with spec := { g.spec with cp := a, cpm := m } } g' i 0 ∧
        g'.shadow.v = (liveV m).map (fun k => (k, g.v (k / 128) (k % 128))) ∧ g'.shadow.s = (liveS m).map (fun r => (r, g.s r)) ∧
        g'.shadow.ctl = g.ctl
    seals (.cont h x) (g.pc + 8 * x.imm.signExtend 64) ∧ seals (.contB h x) ((g.b (x.imm.toNat % 8)).setWidth 64)

/-- Budget transfers (R79): BGT from the pools of the context, bounded by the amount, the pool and the register's range, in a gang that may top up;
and back to the pools, bounded by what the gang holds. No register and no byte changes. Budgets run out (R57, R59, R76): an instruction of any kind
whose instruction charge or traffic charge does not fit does nothing; the gang asks for a yield at its own address. The second time at one address
without an issue between, it takes the protection trap. An instruction that waits for something else is not charged yet; those that never wait come to
this at once. -/
def Obligations.Budgets : Prop :=
  (∀ (s : State) (g : Gang) (h : Hd) (x : IF), g.regs.poison = [] → s.calmFor g = true → s.muslinMode g.ctx = 0 →
      let c := s.ctx g.ctx
      let ib := g.spec.ib.toNat - 1
      let tb := g.spec.tb.toNat
      let moved (i : Instr) (ib' tb' ip tp : Nat) : Prop := ∃ t g', exec i s = .next t ∧ t.gang? g.uid = some g' ∧ g'.pc = g.pc + 8 ∧ keepsRegs g g' ∧
        Leaves { g with spec := { g.spec with ib := g'.spec.ib + 1, tb := g'.spec.tb } } g' i 0 ∧ s.sameBytes t ∧
        g'.spec.ib = BitVec.ofNat 32 ib' ∧ g'.spec.tb = BitVec.ofNat 32 tb' ∧ (t.ctx g.ctx).ibpool = ip ∧ (t.ctx g.ctx).tbpool = tp
      (Issues s g (.bgtTop h x) → (∃ st, g.executes (.bgtTop h x) st = true) → g.topup = true →
        let u := min ((simtEnv s g (.bgtTop h x)).amount x.d) (min c.ibpool (2 ^ 32 - 1 - ib))
        let v := min ((simtEnv s g (.bgtTop h x)).amount x.a) (min c.tbpool (2 ^ 32 - 1 - tb))
        moved (.bgtTop h x) (ib + u) (tb + v) (c.ibpool - u) (c.tbpool - v)) ∧
      (Issues s g (.bgtRel h x) → (∃ st, g.executes (.bgtRel h x) st = true) →
        let u := min ((simtEnv s g (.bgtRel h x)).amount x.d) ib
        let v := min ((simtEnv s g (.bgtRel h x)).amount x.a) tb
        moved (.bgtRel h x) (ib - u) (tb - v) (min (2 ^ 64 - 1) (c.ibpool + u)) (min (2 ^ 64 - 1) (c.tbpool + v)))) ∧
  (∀ (s : State) (g : Gang) (i : Instr), Attempts s g i → g.spec.ib.toNat < ciOf i.maj ∨ g.spec.tb.toNat < trafficOf i (simtEnv s g i) →
      ∃ t, exec i s = .next t ∧
        (t.note = .waiting ∨
          ((g.iss.exhausted ≠ some g.pc ∨ g.iss.issued = true →
              ∃ g', t.gang? g.uid = some g' ∧ g'.pc = g.pc ∧ g'.regs = g.regs ∧ g'.ctl = g.ctl ∧ g'.spec = g.spec ∧
                g'.iss.yieldReq = true ∧ g'.iss.exhausted = some g.pc ∧ t.flights = s.flights ∧ s.sameBytes t) ∧
           (g.iss.exhausted = some g.pc → g.iss.issued = false → g.ctl.tdepth = 0 → (s.ctx g.ctx).tvec ≠ 0 → g.pend = [] → s.resultsOut g.uid = false →
              ∃ g', t.gang? g.uid = some g' ∧ Trapped s g g' 4 0 0 g.pc))) ∧
        ((intDest i).isSome ∨ (laneDest i).isSome ∨ (fpDest i).isSome ∨ (predDest i).isSome ∨ (generic i).isSome → t.note ≠ .waiting))

/-! ## Traps -/

/-- TRAP and BKPT (R61, R275, R341, R342): the software trap's record holds its code and the address behind it, the breakpoint's its own address; the
charge is restored. While results of the gang are in flight, the trap waits for them, and the gang issues nothing (R175, R341). A trap at supervisor
level, or with no vector, kills the gang (R341, R344): it exits, and its context's error bit is set. -/
def Obligations.SoftwareTraps : Prop :=
  (∀ (s : State) (g : Gang) (h : Hd) (x : IF), g.ctl.tdepth = 0 → (s.ctx g.ctx).tvec ≠ 0 → g.pend = [] →
      let info (i : Instr) : TrapInfo := if i = .trap h x then { cause := 12, code := x.imm.toNat % 65536, after := true }
        else { cause := 11, code := x.imm.toNat % 65536 }
      (∀ i, i = .trap h x ∨ i = .trapBkpt h x → Issues s g i → (∃ st, g.executes i st = true) → s.resultsOut g.uid = true →
        ∃ t g', exec i s = .next t ∧ t.gang? g.uid = some g' ∧ g'.pc = g.pc ∧ g'.regs = g.regs ∧ g'.ctl = g.ctl ∧ g'.spec = g.spec ∧
          g'.iss.dueTrap = some { info := info i, at_ := g.pc, npc := g.pc + 8 } ∧ g'.cannotIssue t.cycle = true) ∧
      (Issues s g (.trap h x) → (∃ st, g.executes (.trap h x) st = true) → s.resultsOut g.uid = false →
        ∃ t g', exec (.trap h x) s = .next t ∧ t.gang? g.uid = some g' ∧ Trapped s g g' 12 (x.imm.toNat % 65536) 0 (g.pc + 8)) ∧
      (Issues s g (.trapBkpt h x) → (∃ st, g.executes (.trapBkpt h x) st = true) → s.resultsOut g.uid = false →
        ∃ t g', exec (.trapBkpt h x) s = .next t ∧ t.gang? g.uid = some g' ∧ Trapped s g g' 11 (x.imm.toNat % 65536) 0 g.pc)) ∧
  (∀ (s : State) (g : Gang) (h : Hd) (x : IF), g.ctl.tdepth ≠ 0 ∨ (s.ctx g.ctx).tvec = 0 → Issues s g (.trap h x) →
      (∃ st, g.executes (.trap h x) st = true) →
      ∃ t g', exec (.trap h x) s = .next t ∧ t.gang? g.uid = some g' ∧ g'.iss.killed = true ∧ g'.iss.exiting = true ∧ g'.ctl.nmask = 0 ∧
        (t.ctx g.ctx).err = true)

/-- Where an instruction traps instead (R178, R193, R230, R231, R338, R341): illegal fields of any word that decodes (cause 1), a poisoned source of
an integer instruction with a register result, whichever of its sources it is (10), a failed check of a generic access (its own cause and address),
PRIV at user level (4). Nothing of the instruction is done. -/
def Obligations.FaultingInstructions : Prop :=
  ∀ (s : State) (g : Gang), g.ctl.tdepth = 0 → (s.ctx g.ctx).tvec ≠ 0 → g.pend = [] → s.resultsOut g.uid = false →
    (∀ i : Instr, s.turn = some g.uid → s.gang? g.uid = some g → g.cannotIssue s.cycle = false → g.iss.reclaim = false → g.ctl.vliw = false →
      i.layout.isSome = true → i.legal .simt false = false → ciOf i.maj ≤ g.spec.ib.toNat → g.iss.drained = false →
      ∃ t g', exec i s = .next t ∧ t.gang? g.uid = some g' ∧ Trapped s g g' 1 0 0 g.pc) ∧
    (∀ i : Instr, (intDest i).isSome = true → Issues s g i →
      (∃ r ∈ sourcesOf i, ∃ st, g.executes i st = true ∧ (simtEnv s g i).srcPoison { f := r.f, w := r.w, base := r.base } st = true) →
      ∃ t g', exec i s = .next t ∧ t.gang? g.uid = some g' ∧ Trapped s g g' 10 0 0 g.pc) ∧
    (∀ (i : Instr) (m : Generic) (e : TrapInfo), generic i = some m → Issues s g i → g.regs.poison = [] → (∃ st, g.executes i st = true) →
      (simtEnv s g i).check m.req (m.parts (simtEnv s g i)) = .error e →
      (if m.charged then sectors m.req.align (m.parts (simtEnv s g i)) else 0) ≤ g.spec.tb.toNat →
      ∃ t g', exec i s = .next t ∧ t.gang? g.uid = some g' ∧ t.flights = s.flights ∧ Trapped s g g' e.cause 0 e.taddr g.pc) ∧
    (∀ (i : Instr) (h : Hd) (x : RF), i = .privMfp h x ∨ i = .privMtp h x ∨ i = .privInval h x ∨ i = .privYreq h x → Issues s g i →
      (∃ st, g.executes i st = true) → ∃ t g', exec i s = .next t ∧ t.gang? g.uid = some g' ∧ Trapped s g g' 4 0 0 g.pc)

/-- TRET and its skip form (R276, R342): at supervisor level, with nothing outstanding and the stack at the depth of the trap, the gang goes on at
tpc, or at the address behind, with the mask and the mode of the record, at user level. That the mask leaves out strands that have exited since is the
model's reading (assumption 42). -/
def Obligations.TrapReturn : Prop :=
  ∀ (s : State) (g : Gang) (h : Hd) (x : BF), g.ctl.tdepth ≠ 0 → s.awaiting g = false →
    g.ctl.stack.length = bits64 g.ctl.trap.tinfo 52 48 → g.ctl.trap.tact &&& g.ctl.nmask ≠ 0 →
    let back : Gang := { g with ctl := { g.ctl with active := g.ctl.trap.tact &&& g.ctl.nmask, vliw := g.ctl.trap.tinfo.getLsbD 16, tdepth := 0 } }
    (Issues s g (.tret h x) → ∃ t g', exec (.tret h x) s = .next t ∧ t.gang? g.uid = some g' ∧ g'.pc = g.ctl.trap.tpc ∧
      Leaves back g' (.tret h x) 0 ∧ keepsRegs g g' ∧ (s.calmFor g = true → s.sameBytes t)) ∧
    (Issues s g (.tretSkip h x) → ∃ t g', exec (.tretSkip h x) s = .next t ∧ t.gang? g.uid = some g' ∧ g'.pc = g.ctl.trap.next ∧
      Leaves back g' (.tretSkip h x) 0 ∧ keepsRegs g g' ∧ (s.calmFor g = true → s.sameBytes t))

/-- PRIV at supervisor level (R278, R335 to R340, R382): a read of a privileged register, of the device word or of the tenant register; writes of tpc,
rba and the scratch registers; a shootdown, which takes every overlapping translation and handle of the context; and a yield request, which holds the
gang until it has been delivered. -/
def Obligations.Privileged : Prop :=
  ∀ (s : State) (g : Gang) (h : Hd) (x : RF), g.ctl.tdepth ≠ 0 → g.regs.poison = [] → s.calmFor g = true →
    (Issues s g (.privMfp h x) → (∃ st, g.executes (.privMfp h x) st = true) → ∀ v, x.a.toNat ≠ 12 → s.privReg g x.a.toNat = some v →
      ∃ t g', exec (.privMfp h x) s = .next t ∧ t.gang? g.uid = some g' ∧ g'.pc = g.pc + 8 ∧ Leaves g g' (.privMfp h x) 0 ∧
        WroteOnly g g' (.privMfp h x) x.d (wPriv x.a) ∧ gets g g' (.privMfp h x) x.d (wPriv x.a) (fun _ => v.toNat) ∧ s.sameBytes t) ∧
    (Issues s g (.privMfp h x) → (∃ st, g.executes (.privMfp h x) st = true) → x.a.toNat = 12 → ∀ u, s.rbdTarget g = .tenant u →
      ∃ t g', exec (.privMfp h x) s = .next t ∧ t.gang? g.uid = some g' ∧ g'.pc = g.pc + 8 ∧ Leaves g g' (.privMfp h x) 0 ∧
        gets g g' (.privMfp h x) x.d .w64 (fun _ => (s.tenantValue u).toNat) ∧ SMap.get t.fails u 0 = 0) ∧
    (Issues s g (.privMtp h x) → (∃ st, g.executes (.privMtp h x) st = true) →
      let v := (simtEnv s g (.privMtp h x)).uniform { f := x.b, w := wPriv x.a, base := true }
      let done (g1 : Gang) : Prop := ∃ t g', exec (.privMtp h x) s = .next t ∧ t.gang? g.uid = some g' ∧ g'.pc = g.pc + 8 ∧
        Leaves g1 g' (.privMtp h x) 0 ∧ keepsRegs g g' ∧ s.sameBytes t
      (x.a.toNat = 1 → bits64 v 63 56 = 0 → bits64 v 2 0 = 0 → done { g with ctl := { g.ctl with trap := { g.ctl.trap with tpc := v } } }) ∧
      (x.a.toNat = 11 → done { g with spec := { g.spec with rba := v } }) ∧
      (∀ k < 4, x.a.toNat = 20 + k → done { g with spec := { g.spec with ksc := SMap.set g.spec.ksc k v } })) ∧
    (Issues s g (.privInval h x) → (∃ st, g.executes (.privInval h x) st = true) →
      let va := ((simtEnv s g (.privInval h x)).uniform { f := x.a, w := .w64, base := true }).toNat
      let n := bits64 ((simtEnv s g (.privInval h x)).uniform { f := x.b, base := true }) 31 0
      let size := pageBytes (x.mod.toNat / 16)
      va % size = 0 → va + n * size ≤ 2 ^ 56 → n ≠ 0 →
      ∃ t g', exec (.privInval h x) s = .next t ∧ t.gang? g.uid = some g' ∧ g'.pc = g.pc + 8 ∧ s.sameBytes t ∧
        (∀ e ∈ t.tlbs, e.ctx = g.ctx → e.va + pageBytes e.size ≤ va ∨ va + n * size ≤ e.va) ∧
        (∀ p ∈ t.pointers, p.ctx ≠ g.ctx) ∧
        (∀ y ∈ t.gangs, y.ctx = g.ctx → ∀ k, (SMap.get y.regs.h k {}).valid = true →
          (SMap.get y.regs.h k {}).vpage + pageBytes (SMap.get y.regs.h k {}).size ≤ va ∨ va + n * size ≤ (SMap.get y.regs.h k {}).vpage)) ∧
    (Issues s g (.privYreq h x) → (∃ st, g.executes (.privYreq h x) st = true) →
      let v := bits64 ((simtEnv s g (.privYreq h x)).uniform { f := x.a, base := true }) 31 0
      (2 ^ 12 ≤ v → ∃ t g', exec (.privYreq h x) s = .next t ∧ t.gang? g.uid = some g' ∧ g'.pc = g.pc + 8 ∧ Leaves g g' (.privYreq h x) 0 ∧
        gets g g' (.privYreq h x) x.d .w32 (fun _ => 0) ∧ s.sameBytes t ∧ t.flights = s.flights) ∧
      (v / 2 ^ 12 = 0 → ∀ y, (s.setGang g).gangs.find? (fun z => z.inSlot && z.ctx == g.ctx && z.slot == field v 3 0 && z.core == field v 8 4 &&
          z.cluster == field v 11 9) = some y → y.uid ≠ g.uid →
        ∃ t g' f, exec (.privYreq h x) s = .next t ∧ t.gang? g.uid = some g' ∧ g'.pc = g.pc + 8 ∧ Leaves g g' (.privYreq h x) 0 ∧
          gets g g' (.privYreq h x) x.d .w32 (fun _ => 1) ∧ s.sameBytes t ∧ t.flights = s.flights ++ [f] ∧ f.kind = .sched y.uid ∧
          g'.cannotIssue t.cycle = true))

/-! ## Other register effects -/

/-- MTS, MOV.BC, WRLANE and PATLD (R56, R204, R208, R209, R212, R214): the deadline, the delivery point and fx take the uniform value; a broadcast
reaches every present strand; WRLANE one strand; PATLD an entry for each executing strand. -/
def Obligations.GangWideWrites : Prop :=
  ∀ (s : State) (g : Gang) (h : Hd) (x : RF), g.regs.poison = [] →
    (Issues s g (.mts h x) → (∃ st, g.executes (.mts h x) st = true) →
      let v := (simtEnv s g (.mts h x)).uniform { f := x.a, w := wSpr x.d, base := true }
      let done (g1 : Gang) : Prop := ∃ t g', exec (.mts h x) s = .next t ∧ t.gang? g.uid = some g' ∧ g'.pc = g.pc + 8 ∧ Leaves g1 g' (.mts h x) 0 ∧
        g'.regs = g.regs ∧ g'.ctl.p = g.ctl.p ∧ g'.ctl.b = g.ctl.b ∧ g'.ctl.fx = g1.ctl.fx
      (x.d = 4#8 → bits64 v 31 0 ≤ 999999999 → done { g with spec := { g.spec with dl := v } }) ∧
      (x.d = 5#8 → bits64 v 63 56 = 0 → bits64 v 2 0 = 0 → done { g with spec := { g.spec with dcp := v } }) ∧
      (x.d = 7#8 → done { g with ctl := { g.ctl with fx := v.setWidth 32 &&& 0x3F } })) ∧
    (Issues s g (.movBc h x) → ∀ st0, g.executes (.movBc h x) st0 = true → (∀ st < st0, g.executes (.movBc h x) st = false) →
      let w := (iType x.mod).opw
      let v := ((simtEnv s g (.movBc h x)).read { f := x.a, w := w } st0).toNat
      ∃ t g', exec (.movBc h x) s = .next t ∧ t.gang? g.uid = some g' ∧ g'.pc = g.pc + 8 ∧ Leaves g g' (.movBc h x) 0 ∧
        g'.ctl.p = g.ctl.p ∧ g'.ctl.b = g.ctl.b ∧ g'.ctl.fx = g.ctl.fx ∧
        (x.d.toNat < 128 → g'.regs.s = g.regs.s ∧ (∀ st < 32, g.present.getLsbD st = true → ∀ q < OpW.words w,
            g'.regs.v.get (128 * st + (x.d.toNat + q) % 128) = BitVec.ofNat 32 (v / 2 ^ (32 * q))) ∧
          (∀ k, (∀ st < 32, ∀ q < OpW.words w, g.present.getLsbD st = true → k ≠ 128 * st + (x.d.toNat + q) % 128) → g'.regs.v.get k = g.regs.v.get k)) ∧
        (128 ≤ x.d.toNat → x.d.toNat < 192 → g'.regs.v = g.regs.v ∧ g'.regs.s.get (x.d.toNat - 128) = BitVec.ofNat 64 v ∧
          ∀ n, x.d.toNat ≠ 128 + n → g'.regs.s.get n = g.regs.s.get n)) ∧
    (Issues s g (.wrlane h x) → (∃ st, g.executes (.wrlane h x) st = true) →
      let w := (iType x.mod).opw
      let v := ((simtEnv s g (.wrlane h x)).uniform { f := x.a, w := w }).toNat
      let j := ((simtEnv s g (.wrlane h x)).uniform { f := x.b }).toNat % 32
      ∃ t g', exec (.wrlane h x) s = .next t ∧ t.gang? g.uid = some g' ∧ g'.pc = g.pc + 8 ∧ Leaves g g' (.wrlane h x) 0 ∧
        g'.ctl.p = g.ctl.p ∧ g'.ctl.b = g.ctl.b ∧ g'.ctl.fx = g.ctl.fx ∧ (g.present.getLsbD j = false → g'.regs = g.regs) ∧
        (x.d.toNat < 128 → g.present.getLsbD j = true → g'.regs.s = g.regs.s ∧
          (∀ q < OpW.words w, g'.regs.v.get (128 * j + (x.d.toNat + q) % 128) = BitVec.ofNat 32 (v / 2 ^ (32 * q))) ∧
          (∀ k, (∀ q < OpW.words w, k ≠ 128 * j + (x.d.toNat + q) % 128) → g'.regs.v.get k = g.regs.v.get k)) ∧
        (128 ≤ x.d.toNat → x.d.toNat < 192 → g.present.getLsbD j = true → g'.regs.v = g.regs.v ∧
          g'.regs.s.get (x.d.toNat - 128) = BitVec.ofNat 64 v ∧ ∀ n, x.d.toNat ≠ 128 + n → g'.regs.s.get n = g.regs.s.get n)) ∧
    (Issues s g (.patld h x) →
      ∃ t g', exec (.patld h x) s = .next t ∧ t.gang? g.uid = some g' ∧ g'.pc = g.pc + 8 ∧ Leaves g g' (.patld h x) 0 ∧
        g'.regs.v = g.regs.v ∧ g'.regs.s = g.regs.s ∧ g'.ctl.p = g.ctl.p ∧ g'.ctl.b = g.ctl.b ∧ g'.ctl.fx = g.ctl.fx ∧
        (∀ st, g.executes (.patld h x) st = true → ∀ dflt, SMap.get g'.regs.pt (32 * (x.fn.toNat % 4) + st) dflt =
          BitVec.ofNat 5 ((simtEnv s g (.patld h x)).read { f := x.a } st).toNat) ∧
        (∀ k, (∀ st, g.executes (.patld h x) st = true → k ≠ 32 * (x.fn.toNat % 4) + st) → SMap.find g'.regs.pt k = SMap.find g.regs.pt k))

/-! ## Matrix and data engines -/

/-- Matrix instructions enter the queue of their slot (R282, R286 to R290), with the operands that they name at issue, their flag and the clock; a row
read of an accumulator tile that nothing pending writes is answered at once. No byte changes. -/
def Obligations.MatrixIssue : Prop :=
  ∀ (s : State) (g : Gang) (h : Hd) (x : EF), g.regs.poison = [] → s.calmFor g = true →
    let mq (t : State) : List MEntry := (t.core g.gcore).mq
    let full : Bool := ((mq s).filter (fun m => m.slot == g.slot)).length ≥ 4
    let k (i : Instr) (f : Reg) : Nat := (simtEnv s g i).tileIx f
    let ti (i : Instr) (f : Reg) : Tile := s.tile g.gcore (k i f)
    let good (i : Instr) (f : Reg) (st row unit : Nat) (toLen : Bool) : Prop := (ti i f).defd = true ∧ (simtEnv s g i).tileNamed f = true ∧
      (ti i f).state = st ∧ (ti i f).rowsBad row unit toLen = false
    let rows (i : Instr) (f : Reg) (row : Nat) (slot off stride len : Nat) : Prop := slot = k i f / 16 ∧ off = (ti i f).base * 128 ∧
      stride = (if (ti i f).stride = 0 then row else (ti i f).stride) ∧ len = row
    let queued (i : Instr) (fl : FlagRef) (more : MEntry → Prop) : Prop := ∃ t g' m, exec i s = .next t ∧ t.gang? g.uid = some g' ∧ g'.pc = g.pc + 8 ∧
      Leaves { g with spec := { g.spec with tstat := g'.spec.tstat } } g' i 0 ∧ keepsRegs g g' ∧ s.sameBytes t ∧ mq t = mq s ++ [m] ∧
      m.instr = i ∧ m.uid = g.uid ∧ m.slot = g.slot ∧ m.prio = g.prio ∧ m.at_ = (s.core g.gcore).clk ∧ m.flag = fl ∧ m.started = none ∧ more m
    let ready (i : Instr) (fl : FlagRef) : Prop := Issues s g i ∧ (∃ st, g.executes i st = true) ∧ full = false ∧
      (simtEnv s g i).completionFlag x = some fl
    (∀ fl, ready (.mma h x) fl → good (.mma h x) x.ta 2 (mmaRow x.fn.toNat) 8 true → good (.mma h x) x.tb 2 (mmaRow (mmaB x)) 8 true →
      queued (.mma h x) fl (fun m => rows (.mma h x) x.ta (mmaRow x.fn.toNat) m.aSlot m.aOff m.aStride m.aLen ∧
        rows (.mma h x) x.tb (mmaRow (mmaB x)) m.bSlot m.bOff m.bStride m.bLen)) ∧
    (∀ fl, ready (.mmag h x) fl → good (.mmag h x) x.tb 2 (mmaRow (mmaB x)) 8 true →
      let gs := g.g (x.stg.toNat % 16)
      let a (st : Nat) : Int := (bits64 gs 20 0 : Nat) + (g.v st (bits64 gs 47 40)).toInt * (bits64 gs 39 24 : Nat)
      let ea (st : Nat) : Nat := g.core * 2 ^ 21 + (a st).toNat
      let ra := mmaRow x.fn.toNat
      bits64 gs 23 21 = 0 → bits64 gs 63 48 = 0 → bits64 gs 47 40 < 128 →
      (∀ st, g.executes (.mmag h x) st = true → 0 ≤ a st ∧ a st + ra ≤ 2 ^ 21 ∧ (a st).toNat % 8 = 0 ∧ eaSlot (ea st) = eaSlot (ea st + ra - 1) ∧
        (s.setGang g).spadOk g (ea st) = true ∧ (s.setGang g).spadOk g (ea st + ra - 1) = true) →
      queued (.mmag h x) fl (fun m => rows (.mmag h x) x.tb (mmaRow (mmaB x)) m.bSlot m.bOff m.bStride m.bLen ∧
        m.rows = (simtEnv s g (.mmag h x)).parts.map (fun st =>
          (st, (List.range ra).map (fun b => (s.spadLoadByte g.uid false (spadPa g.cluster (ea st) + b) .mtx).1))))) ∧
    (∀ fl, ready (.zld h x) fl → good (.zld h x) x.ta 2 (accRow x.fn.toNat) 4 true →
      queued (.zld h x) fl (fun m => rows (.zld h x) x.ta (accRow x.fn.toNat) m.aSlot m.aOff m.aStride m.aLen)) ∧
    (∀ fl, ready (.zst h x) fl → good (.zst h x) x.tb 1 (accRow x.fn.toNat) 4 false → (ti (.zst h x) x.tb).filler ≠ 0 →
      queued (.zst h x) fl (fun m => m.bSlot = k (.zst h x) x.tb / 16 ∧ m.bOff = (ti (.zst h x) x.tb).base * 128)) ∧
    (∀ fl, ready (.zclr h x) fl → queued (.zclr h x) fl (fun _ => True)) ∧
    (∀ fl, ready (.zrowWr h x) fl → queued (.zrowWr h x) fl (fun m => m.regs = (simtEnv s g (.zrowWr h x)).parts.map (fun st => (st, g.v st x.ta.toNat)))) ∧
    (Issues s g (.zrowRd h x) → (∃ st, g.executes (.zrowRd h x) st = true) → x.ta.toNat < 128 →
      let z := (s.core g.gcore).accTile (4 * g.slot + x.qual.toNat % 4)
      (mq s).any (fun m => m.slot == g.slot && m.z == some (x.qual.toNat % 4)) = false → z.poison = false →
      ∃ t g', exec (.zrowRd h x) s = .next t ∧ t.gang? g.uid = some g' ∧ g'.pc = g.pc + 8 ∧ Leaves g g' (.zrowRd h x) 0 ∧
        WroteOnly g g' (.zrowRd h x) x.ta .w32 ∧ s.sameBytes t ∧ mq t = mq s ∧
        gets g g' (.zrowRd h x) x.ta .w32 (fun st => (z.get (32 * (x.pat.toNat % 32) + st)).toNat))

/-- Engine instructions (R59, R292 to R298): a checked command enters its queue with what it moves, its future and its flag, charged by the sector;
staging registers take a value; ESTS counts what is outstanding, and its error form gives the error word and clears it. -/
def Obligations.EngineIssue : Prop :=
  ∀ (s : State) (g : Gang) (h : Hd), g.regs.poison = [] → s.calmFor g = true → s.muslinMode g.ctx = 0 →
    let issued (i : Instr) (x : EF) (count : Env → Nat) (plan : Env → Except TrapInfo Plan) : Prop := ∀ p fl, Issues s g i → (∃ st, g.executes i st = true) →
      plan (simtEnv s g i) = .ok p → (simtEnv s g i).completionFlag x = some fl → s.engineFull p.egress p.engine = false →
      (count (simtEnv s g i) + 63) / 64 ≤ g.spec.tb.toNat →
      ∃ t g' c, exec i s = .next t ∧ t.gang? g.uid = some g' ∧ g'.pc = g.pc + 8 ∧
        Leaves { g with spec := { g.spec with tstat := g'.spec.tstat } } g' i ((count (simtEnv s g i) + 63) / 64) ∧ keepsRegs g g' ∧ s.sameBytes t ∧
        t.cmds = s.cmds ++ [c] ∧ c.uid = some g.uid ∧ c.ctx = g.ctx ∧ c.kind = p.kind ∧ c.future = p.future ∧ c.flag = fl ∧ c.engine = p.engine ∧
        c.egress = p.egress ∧ c.moved = 0 ∧ c.taken = false
    (∀ x : EF, issued (.copy h x) x (copyCount x) (copyPlan x) ∧ issued (.strmIn h x) x (strmCount x) (strmPlan x false) ∧
      issued (.strmOut h x) x (strmCount x) (strmPlan x true) ∧ issued (.netx h x) x (netxCount x) (netxPlan x)) ∧
    (∀ x : RF, Issues s g (.gset h x) → (∃ st, g.executes (.gset h x) st = true) →
      ∃ t g', exec (.gset h x) s = .next t ∧ t.gang? g.uid = some g' ∧ g'.pc = g.pc + 8 ∧ Leaves g g' (.gset h x) 0 ∧
        g'.regs.g.get (x.d.toNat % 16) = (simtEnv s g (.gset h x)).uniform { f := x.a, w := .w64, base := true } ∧
        (∀ n, n ≠ x.d.toNat % 16 → g'.regs.g.get n = g.regs.g.get n) ∧ g'.regs.v = g.regs.v ∧ g'.regs.s = g.regs.s ∧ s.sameBytes t) ∧
    (∀ x : RF, Issues s g (.estsQ h x) → (∃ st, g.executes (.estsQ h x) st = true) →
      let mine := s.cmds.filter (fun c => c.uid == some g.uid)
      ∃ t g', exec (.estsQ h x) s = .next t ∧ t.gang? g.uid = some g' ∧ g'.pc = g.pc + 8 ∧ Leaves g g' (.estsQ h x) 0 ∧
        WroteOnly g g' (.estsQ h x) x.d .w32 ∧ s.sameBytes t ∧ t.cmds = s.cmds ∧
        gets g g' (.estsQ h x) x.d .w32 (fun _ => min 255 (mine.filter (fun c => !c.egress)).length + 256 * min 255 (mine.filter (fun c => c.egress)).length +
          65536 * ((s.core g.gcore).mq.filter (fun m => m.uid == g.uid)).length)) ∧
    (∀ x : RF, Issues s g (.estsErr h x) → (∃ st, g.executes (.estsErr h x) st = true) →
      ∃ t g', exec (.estsErr h x) s = .next t ∧ t.gang? g.uid = some g' ∧ g'.pc = g.pc + 8 ∧
        Leaves { g with spec := { g.spec with eerr := 0 } } g' (.estsErr h x) 0 ∧ WroteOnly g g' (.estsErr h x) x.d .w32 ∧ s.sameBytes t ∧
        gets g g' (.estsErr h x) x.d .w32 (fun _ => g.spec.eerr.toNat))

/-! ## Legacy forms -/

/-- LGM (R279 to R281): a load or store of any alignment leaves as its two aligned units, of which the second is there where the address is not
aligned; the .pi forms add the width to their base, and ldx.pi into its own base keeps that sum (the model's reading, assumption 44). BRX goes to a
register's address, ATMX exchanges the active mask within nmask. -/
def Obligations.LegacyForms : Prop :=
  ∀ (s : State) (g : Gang) (h : Hd), g.regs.poison = [] → s.calmFor g = true →
    let mem (i : Instr) (x : MF) (store pi : Bool) : Prop :=
      let e := simtEnv s g i
      let w := mBytes x
      let a (st : Nat) : Nat := e.genAddr x st
      let two (st : Nat) : Nat := (a st / w + 1) * w
      ∀ P Q : Nat → Nat × Nat, Issues s g i → (∃ st, g.executes i st = true) →
      (∀ st, g.executes i st = true → a st < 2 ^ 56 ∧
        (∃ rd wr ex, s.translate g.gcore g.ctx (a st) = .page (P st).1 (P st).2 rd wr ex ∧ (if store then wr else rd) = true) ∧ isDram (pageAddr (P st).1 (P st).2 (a st)) = true) →
      (∀ st, g.executes i st = true → a st % w ≠ 0 → two st < 2 ^ 56 ∧
        (∃ rd wr ex, s.translate g.gcore g.ctx (two st) = .page (Q st).1 (Q st).2 rd wr ex ∧ (if store then wr else rd) = true) ∧ isDram (pageAddr (Q st).1 (Q st).2 (two st)) = true) →
      ∃ t g', exec i s = .next t ∧ t.gang? g.uid = some g' ∧ g'.pc = g.pc + 8 ∧ Leaves g g' i 0 ∧ g'.regs.v = g.regs.v ∧ g'.ctl.p = g.ctl.p ∧
        s.sameBytes t ∧ (∀ n, pi = false ∨ x.base.toNat ≠ 128 + n → g'.regs.s.get n = g.regs.s.get n) ∧
        (pi = true → 128 ≤ x.base.toNat → x.base.toNat < 192 →
          g'.regs.s.get (x.base.toNat - 128) = g.s (x.base.toNat - 128) + BitVec.ofNat 64 w) ∧
        ∃ new, t.flights = s.flights ++ new ∧ (∀ f ∈ new, f.uid = some g.uid ∧ f.queue = some 0) ∧
          (∀ st, g.executes i st = true → store = false → ∃ f ∈ new, ∃ p, f.parts.head? = some p ∧ p.strand = st ∧ p.pa = pageAddr (P st).1 (P st).2 (a st) ∧
            f.kind = .ldx w (min w (w - a st % w)) x.sgn (if pi = true ∧ x.d = x.base then 255#8 else x.d) ∧
            (a st % w = 0 → f.parts.length = 1) ∧
            (a st % w ≠ 0 → ∃ q, f.parts = [p, q] ∧ q.pa = pageAddr (Q st).1 (Q st).2 (two st))) ∧
          (∀ st, g.executes i st = true → store = true →
            (∃ f ∈ new, f.kind = .store (min w (w - a st % w)) ∧ f.parts = [{ strand := st, pa := pageAddr (P st).1 (P st).2 (a st), val := e.data x.d w st }]) ∧
            (a st % w ≠ 0 → ∃ f ∈ new, f.kind = .store (a st % w) ∧
              f.parts = [{ strand := st, pa := pageAddr (Q st).1 (Q st).2 (two st), val := e.data x.d w st >>> (8 * (w - a st % w)) }]))
    (∀ x : MF, mem (.ldx h x) x false false ∧ mem (.stx h x) x true false ∧ mem (.ldxPi h x) x false true ∧ mem (.stxPi h x) x true true) ∧
    (∀ x : RF, Issues s g (.brx h x) → (∃ st, g.executes (.brx h x) st = true) →
      let a := (simtEnv s g (.brx h x)).uniform { f := x.a, w := .w64, base := true }
      bits64 a 2 0 = 0 → bits64 a 63 56 = 0 →
      ∃ t g', exec (.brx h x) s = .next t ∧ t.gang? g.uid = some g' ∧ g'.pc = a ∧ Leaves g g' (.brx h x) 0 ∧ keepsRegs g g' ∧ s.sameBytes t) ∧
    (∀ x : RF, Issues s g (.atmx h x) → (∃ st, g.executes (.atmx h x) st = true) →
      let new := ((simtEnv s g (.atmx h x)).uniform { f := x.a, base := true }).setWidth 32 &&& g.ctl.nmask
      new ≠ 0 →
      ∃ t g', exec (.atmx h x) s = .next t ∧ t.gang? g.uid = some g' ∧ g'.pc = g.pc + 8 ∧
        Leaves { g with ctl := { g.ctl with active := new } } g' (.atmx h x) 0 ∧ g'.ctl.p = g.ctl.p ∧ s.sameBytes t ∧
        (x.d.toNat < 128 → g'.regs.s = g.regs.s ∧
          (∀ st < 32, g.ctl.active.getLsbD st = true → g'.regs.v.get (128 * st + x.d.toNat) = g.ctl.active) ∧
          (∀ k, (∀ st < 32, g.ctl.active.getLsbD st = true → k ≠ 128 * st + x.d.toNat) → g'.regs.v.get k = g.regs.v.get k)) ∧
        (128 ≤ x.d.toNat → x.d.toNat < 192 → g'.regs.v = g.regs.v ∧ g'.regs.s.get (x.d.toNat - 128) = g.ctl.active.setWidth 64 ∧
          ∀ n, x.d.toNat ≠ 128 + n → g'.regs.s.get n = g.regs.s.get n) ∧
        (192 ≤ x.d.toNat → g'.regs = g.regs))

/-! ## Bundles -/

/-- Bundles (R160, R169, R171, R174, R204): an element-wise instruction of a lane leaves the registers as they are, and its results, read at issue,
wait to land after the latency that its word names, no flag of fx set among them (R209); so do those of the exchange between clusters; of several lane
slots together, each from the registers as they were at issue, in the order of their numbers; of a load and a store in a memory slot (R234), of GSET
in the engine slot (R293), and of the shuffle slot over the 16 clusters (R210, R212 to R214). A write that has waited lands when its cycle comes, and
not before. -/
def Obligations.BundleResultsLand : Prop :=
  (∀ (s : State) (g : Gang) (hdr : Word64) (ws : List Word64) (c : Nat) (pc : Word64) (i : Instr),
    let x : Slot := ⟨.lane c, pc, i⟩
    let e := slotEnv s g hdr ws x
    let leaves (w : OpW) (d : Reg) (val : Nat) : Prop := ∃ t g', bundleLeft s t g g' hdr ws ∧ s.sameBytes t ∧
      (∀ p ∈ g'.pend, p.w.dst = .fx → p.w.val = 0 ∧ p.land = s.gclk g + latCycles i.hd.lat) ∧ g'.waiting = landing s g x c d w val
    IssuesSlot s g hdr ws x → e.guard c = true →
    (∀ y f, elementFn i = some (y, f) → ∃ val, leaves (iType y.mod).opw y.d val ∧ ∀ k < (iType y.mod).n,
      let exact := f ((iType y.mod).val (e.read { f := y.a, w := (iType y.mod).opw } c) k) ((iType y.mod).val (e.readB y.mod { f := y.b, w := (iType y.mod).opw } c) k)
        ((iType y.mod).val (e.read { f := y.c, w := (iType y.mod).opw } c) k)
      val / 2 ^ ((iType y.mod).w * k) % 2 ^ (iType y.mod).w =
        ofInt (iType y.mod).w (if sat y then clampInt (iType y.mod).w (iType y.mod).signed exact else exact)) ∧
    (∀ h y, i = .xmov h y → leaves (iType y.mod).opw y.d (e.read { f := y.a, w := (iType y.mod).opw } (y.b.toNat % 16)).toNat)) ∧
  (∀ (s : State) (g : Gang) (hdr : Word64) (ws : List Word64) (xs : List Slot), IssuesSlots s g hdr ws xs →
    (∀ x ∈ xs, (elementFn x.instr).isSome = true) → (∀ x ∈ xs, x.place = .lane (laneOf x.place)) →
    let e (x : Slot) := slotEnv s g hdr ws x
    ∃ t g', ∃ val : Slot → Nat, bundleLeft s t g g' hdr ws ∧ s.sameBytes t ∧
      g'.waiting = xs.flatMap (fun x => match elementFn x.instr with
        | some (y, _) => if (e x).guard (laneOf x.place) then landing s g x (laneOf x.place) y.d (iType y.mod).opw (val x) else []
        | none => []) ∧
      ∀ x ∈ xs, ∀ y f, elementFn x.instr = some (y, f) → ∀ k < (iType y.mod).n,
        let read (r : Reg) : Word64 := (e x).read { f := r, w := (iType y.mod).opw } (laneOf x.place)
        let exact := f ((iType y.mod).val (read y.a) k) ((iType y.mod).val ((e x).readB y.mod { f := y.b, w := (iType y.mod).opw } (laneOf x.place)) k)
          ((iType y.mod).val (read y.c) k)
        val x / 2 ^ ((iType y.mod).w * k) % 2 ^ (iType y.mod).w =
          ofInt (iType y.mod).w (if sat y then clampInt (iType y.mod).w (iType y.mod).signed exact else exact)) ∧
  (∀ (s : State) (g : Gang) (hdr : Word64) (ws : List Word64) (m : Nat) (pc : Word64) (h : Hd) (y : MF), h.lat ≠ 15#4 → g.cluster < 8 →
    let n := mBytes y
    let on (x : Slot) : List Nat := (List.range 16).filter (slotEnv s g hdr ws x).guard
    let a (x : Slot) (c : Nat) : Int := (slotEnv s g hdr ws x).spAddr y c
    (let x : Slot := ⟨.mem m, pc, .lds h y⟩
     IssuesSlot s g hdr ws x → on x ≠ [] → (slotEnv s g hdr ws x).spadCheck n ((on x).map (fun c => (c, a x c))) = none →
     ∃ t g', bundleLeft s t g g' hdr ws ∧ s.sameBytes t ∧ t.flights = s.flights ∧
       g'.waiting = (on x).flatMap (fun c => landing s g x c y.d (bytesOpw n)
         (loaded n y.sgn ((List.range n).map (fun k => (s.spadLoadByte g.uid true (spadPa g.cluster (a x c).toNat + k)).1))).toNat)) ∧
    (let x : Slot := ⟨.mem m, pc, .sts h y⟩
     IssuesSlot s g hdr ws x → on x ≠ [] → (slotEnv s g hdr ws x).spadCheck n ((on x).map (fun c => (c, a x c))) = none →
     ∃ t g', bundleLeft s t g g' hdr ws ∧ g'.pend = [] ∧ t.flights = s.flights ∧
       storedOnly s t (fun c => decide (c < 16) && (slotEnv s g hdr ws x).guard c) (fun c => spadPa g.cluster (a x c).toNat) n
         (fun c => (slotEnv s g hdr ws x).data y.d n c))) ∧
  (∀ (s : State) (g : Gang) (hdr : Word64) (ws : List Word64) (pc : Word64) (h : Hd) (y : RF),
    let x : Slot := ⟨.eng, pc, .gset h y⟩
    IssuesSlot s g hdr ws x → (slotEnv s g hdr ws x).guard 0 = true →
    ∃ t g', bundleLeft s t g g' hdr ws ∧ s.sameBytes t ∧
      g'.waiting = [(s.gclk g + latCycles h.lat, 18, .g (y.d.toNat % 16), (slotEnv s g hdr ws x).read { f := y.a, w := .w64, base := true } 0)]) ∧
  (∀ (s : State) (g : Gang) (hdr : Word64) (ws : List Word64) (pc : Word64) (i : Instr) (y : RF) (src : Env → Nat → Nat), laneSrc i = some (y, src) →
    let x : Slot := ⟨.shuf, pc, i⟩
    let e := slotEnv s g hdr ws x
    IssuesSlot s g hdr ws x →
    ∃ t g', bundleLeft s t g g' hdr ws ∧ s.sameBytes t ∧
      g'.waiting = ((List.range 16).filter e.guard).flatMap (fun c => landing s g x c y.d (iType y.mod).opw
        (e.read { f := y.a, w := (iType y.mod).opw } (src e c)).toNat)) ∧
  (∀ (g : Gang) (p : PendWrite) (now : Nat), g.pend = [p] → p.free = true → p.passed = false → g.iss.ghosts = [] →
    (p.land ≤ now → (g.landTo now).pend = [] ∧ (g.landTo now).regs = (g.put p.w).regs ∧ (g.landTo now).ctl = (g.put p.w).ctl) ∧
    (now < p.land → (g.landTo now).pend = [p] ∧ (g.landTo now).regs = g.regs ∧ (g.landTo now).ctl = g.ctl))

/-- The instructions of the branch slot alone (R38, R41, R271 to R273), in a bundle of that one slot: LOOP pushes an entry of its count and stages;
LEND goes back to the start while passes are left, and else pops; its pop form pops, its break form also branches; SPLIT gives a gang with an empty
stack back to the SIMT decoder, with every strand active and a seal behind the bundle. -/
def Obligations.BranchSlot : Prop :=
  ∀ (s : State) (g : Gang) (hdr : Word64) (ws : List Word64) (pc : Word64) (i : Instr) (h : Hd),
    let x : Slot := ⟨.br, pc, i⟩
    let e := slotEnv s g hdr ws x
    let npc := g.pc + BitVec.ofNat 64 (8 * (1 + headerSlots hdr))
    let turns (a : Word64) (stack : List Entry) : Prop := ∃ t g', exec (.bundle hdr ws) s = .next t ∧ t.gang? g.uid = some g' ∧ g'.pc = a ∧
      g'.regs = g.regs ∧ g'.pend = [] ∧ g'.ctl = { g.ctl with stack := stack } ∧ s.sameBytes t
    IssuesSlot s g hdr ws x → e.guard 0 = true →
    (∀ y, i = .loop h y → g.ctl.stack.length < 16 →
      turns npc (.loop (y.imm.toNat % 8 + 1) ((e.read { f := y.d } 0).setWidth 32) 0 (npc.setWidth 56) :: g.ctl.stack)) ∧
    (∀ y m n k start rest, i = .lend h y → g.ctl.stack = .loop m n k start :: rest →
      (k + 1 < (if n = 0 then 1 else n.toNat + m - 1) → turns (start.setWidth 64) (.loop m n (k + 1) start :: rest)) ∧
      ((if n = 0 then 1 else n.toNat + m - 1) ≤ k + 1 → turns npc rest)) ∧
    (∀ y m n k start rest, i = .lendPop h y → g.ctl.stack = .loop m n k start :: rest → turns npc rest) ∧
    (∀ y m n k start rest, i = .lendBrk h y → g.ctl.stack = .loop m n k start :: rest → (g.b y.tgt.toNat).toNat % 8 = 0 →
      turns ((g.b y.tgt.toNat).setWidth 64) rest) ∧
    (∀ y, i = .split h y → g.ctl.stack = [] → s.muslinMode g.ctx = 0 →
      ∃ t g', exec (.bundle hdr ws) s = .next t ∧ t.gang? g.uid = some g' ∧ g'.pc = npc ∧ g'.regs = g.regs ∧
        g'.ctl = { g.ctl with vliw := false, active := 0xFFFFFFFF } ∧ g'.spec.cp = npc ∧ g'.iss.group = false ∧ s.sameBytes t)

/-! ## Events -/

/-- Operations of one strand take effect at their targets (R53, R103, R117, R120, R127, R173, R231, R256): a load's bytes reach its registers; a
store's bytes, and no others, are what the VEC path reads; an atomic's, a join's, a resolve's answer is the old word or its status, and the new word
stands at the home slice; a revoked word's sector leaves its core. -/
def Obligations.MemoryOperations : Prop :=
  (∀ s id f g p n sgn d mark, Lone s id f g p → f.kind = .load n sgn d mark false → d.toNat < 128 →
    ∃ t g', exec (.loadResultReturn id) s = .next t ∧ t.gang? g.uid = some g' ∧ (∀ x ∈ t.flights, x.id ≠ id) ∧
      g'.holds p.strand d (bytesOpw n) (loaded n sgn (s.vecLoad f p.pa n mark false).1).toNat ∧ g'.pc = g.pc) ∧
  (∀ s id f g p n, Lone s id f g p → f.kind = .store n → s.foreign f.core p.pa n = [] →
    ∃ t, exec (.storeRegistration id) s = .next t ∧
      ∀ (pth : Path) (pa : Nat), t.pathByte pth pa =
        if pth = .vec ∧ p.pa ≤ pa ∧ pa < p.pa + n then ((leBytes n p.val.toNat).getD (pa - p.pa) 0, false) else s.pathByte pth pa) ∧
  (∀ s id f g p n word core, Lone s id f g p → f.kind = .store n → 0 < id → (word, core) ∈ s.foreign f.core p.pa n →
    ∃ t, exec (.storeRegistration id) s = .next t ∧ (∃ x ∈ t.flights, x.kind = .revoke word core ∧ x.core = core) ∧ t.ready id = none ∧ f ∈ t.flights ∧
      ∀ (pth : Path) (pa : Nat), t.pathByte pth pa = s.pathByte pth pa) ∧
  (∀ s id f g p fn n d, Lone s id f g p → f.kind = .atomic fn n d → n = 4 ∨ n = 8 → p.pa % n = 0 → d.toNat < 128 → s.foreign f.core p.pa n = [] →
    let old := ((s.settleLine p.pa).homeWord p.pa n).1
    ∃ t g', exec (.atomicApply id) s = .next t ∧ t.gang? g.uid = some g' ∧ g'.holds p.strand d (bytesOpw n) old ∧
      ∀ v, atomNew fn n old (p.val.toNat % 2 ^ (8 * n)) (p.swap.toNat % 2 ^ (8 * n)) = some v → t.homeHolds p.pa (leBytes n v)) ∧
  (∀ s id f word core, s.ready id = some f → f.kind = .revoke word core → s.settled = true → s.muslinMode f.ctx = 0 →
    ∃ t, exec (.revocation id) s = .next t ∧ (∀ c, c ≠ core → t.core c = s.core c) ∧
      ∀ l, (t.core core).l1Line (4 * word) = some l → l.valid &&& sectorMask (4 * word) = 0 ∧ l.owned.getLsbD (word % 32) = false) ∧
  (∀ s id f g p n cl co fl ser, s.ready id = some f → f.uid = some g.uid → s.gang? g.uid = some g → f.parts = [p] → isSpad p.pa = true →
    f.kind = .spadStore n → f.post = .own cl co fl ser → s.settled = true → s.muslinMode f.ctx = 0 → p.got = none →
    s.flights.filter (fun x => x.id == id || x.uid == some g.uid) = [f] → (s.core f.core).storing g.uid = false → (s.core (32 * cl + co)).freeze = 0 → (s.core f.core).freeze = 0 → s.revoking f = false → p.pa + n ≤ 2 ^ 48 + 2 ^ 29 →
    (SMap.get (s.core (32 * cl + co)).flags fl 0).toNat < 65535 →
    ∃ t, exec (.decoupledAccessCompletion id) s = .next t ∧ (∀ x ∈ t.flights, x.id ≠ id) ∧
      (∀ k < n, (t.spadByte .vec (p.pa + k)).1 = (leBytes n p.val.toNat).getD k 0) ∧
      SMap.get (t.core (32 * cl + co)).flags fl 0 = SMap.get (s.core (32 * cl + co)).flags fl 0 + 1) ∧
  (∀ s id f addr n ctx core fl, s.ready id = some f → f.kind = .post addr n ctx → s.settled = true → s.muslinMode f.ctx = 0 →
    s.flagAt addr ctx = some (core, fl) → (SMap.get (s.core core).flags fl 0).toNat + n ≤ 65535 →
    ∃ t, exec (.remoteFlagPost id) s = .next t ∧ (SMap.get (t.core core).flags fl 0).toNat = (SMap.get (s.core core).flags fl 0).toNat + n ∧
      ∀ m, m ≠ fl → SMap.get (t.core core).flags m 0 = SMap.get (s.core core).flags m 0) ∧
  (∀ s w, s.paths = [w] → isDram w.pa = true → w.pa % 64 + w.data.length ≤ 64 →
    ∃ t, exec (.pathWriteMerge 0) s = .next t ∧ t.paths = [] ∧ t.homeHolds w.pa w.data) ∧
  (∀ s id f g p d, Lone s id f g p → f.kind = .join d → d.toNat < 128 → p.pa % 8 = 0 → g.loss = (s.ctx g.ctx).loss → s.foreign f.core p.pa 8 = [] →
    let w := ((s.settleLine p.pa).homeWord p.pa 8).1
    ∃ t g', exec (.homeSliceJoin id) s = .next t ∧ t.gang? g.uid = some g' ∧ g'.holds p.strand d .w32 (w / 2 ^ 62) ∧
      (w / 2 ^ 62 = 0 → t.homeHolds p.pa (leBytes 8 (2 ^ 62 + p.val.toNat / 32))) ∧
      (2 ≤ w / 2 ^ 62 → ∃ x ∈ t.flights, ∃ tp l, x.kind = .cell p.val.toNat (decide (w / 2 ^ 62 = 3)) tp l)) ∧
  (∀ s id f g p poison d, Lone s id f g p → f.kind = .resolve poison d → d.toNat < 128 → p.pa % 8 = 0 → s.foreign f.core p.pa 8 = [] →
    let w := ((s.settleLine p.pa).homeWord p.pa 8).1
    w / 2 ^ 62 < 2 →
    ∃ t g', exec (.homeSliceResolve id) s = .next t ∧ t.gang? g.uid = some g' ∧ g'.holds p.strand d .w32 (w / 2 ^ 62) ∧
      t.homeHolds p.pa (leBytes 8 (if poison then 3 * 2 ^ 62 else 2 * 2 ^ 62 + p.val.toNat % 2 ^ 48)) ∧
      (w / 2 ^ 62 = 1 → ∃ x ∈ t.flights, ∃ tp l, x.kind = .cell (w % 2 ^ 48 * 32) poison tp l)) ∧
  (∀ s id f pa poison tp l, s.ready id = some f → f.kind = .cell pa poison tp l → s.settled = true → s.muslinMode f.ctx = 0 → pa % 32 = 0 → isDram pa = true →
    id < s.next → s.foreign f.core pa 32 = [] →
    let b := (List.range 32).map (fun i => ((s.settleLine pa).homeByte (pa + i)).1)
    let count := (leNat (b.take 4) + 2 ^ 32 - 1) % 2 ^ 32
    ∃ t, exec (.cellDecrement id) s = .next t ∧ t.homeHolds pa (leBytes 4 count) ∧
      (count = 0 → ∃ x ∈ t.flights, ∃ r, x.kind = .append 1 (homeSlice pa) (leNat ((b.drop 4).take 2)) 0 [r] ∧ r.src = 4 ∧ r.launch = l))

/-- What happens to a gang from outside (R27, R31, R68, R80, R91, R102, R246, R301, R384): a pause ends; WAITW is told of its time or of an early
return; a walk ends in a handle, or in none where the handle was dropped, and a page that the XLAT may not name in a protection trap, with the charge
restored (it names the XLAT, and the gang resumes where it is if it has gone on: assumption 26); a home slice registers a monitor; an exited gang that
is quiet leaves its slot, tiles and window; a VLIW thread takes a free lane group; a scheduler's write takes ib back into the pool; a deadline that a
tick of device time finds reached stops the gang's issue, clears dl and requests a yield towards dcp, or ends the gang where dcp is 0; and a deferred
fault gets its entry. That a WAITW may return early of its own is the device's choice. The moment of the early return is the model's choice
(assumption 37). -/
def Obligations.GangEvents : Prop :=
  (∀ s uid g c, s.gang? uid = some g → g.iss.pauseTo = some c → c ≤ s.cycle ∨ g.iss.yieldReq = true →
    ∃ t, exec (.pauseExpiry uid) s = .next t ∧ t.gang? uid = some { g with iss := { g.iss with pauseTo := none } } ∧ t = { s with gangs := t.gangs }) ∧
  (∀ s uid g m t0, s.gang? uid = some g → g.monitor = some m → m.fired = none → g.iss.waitFrom = some t0 →
    (g.iss.waitNs ≠ 0 → t0 + g.iss.waitNs * 65536 ≤ s.clock.el → ∃ t, exec (.waitwTimeout uid) s = .next t ∧
      t.gang? uid = some { g with monitor := some { m with fired := some 2 } } ∧ t = { s with gangs := t.gangs }) ∧
    ∃ t, exec (.waitwEarlyReturn uid) s = .next t ∧ t.gang? uid = some { g with monitor := some { m with fired := some 4 } } ∧ t = { s with gangs := t.gangs }) ∧
  (∀ s id f uid g n va write b, s.ready id = some f → f.uid = some uid → s.gang? uid = some g → f.vliw = false → s.walking f = true → f.acted = false → s.settled = true →
    (f.kind = .xlat n va write b true → ∃ t g', exec (.walkCompletion id) s = .next t ∧ t.gang? uid = some g' ∧ g'.pc = g.pc ∧ (∀ x ∈ t.flights, x.id ≠ id) ∧
      SMap.get g'.regs.h n {} = {} ∧ g'.regs = { g.regs with h := g'.regs.h } ∧ g'.ctl = g.ctl) ∧
    ∀ pa size rd wr ex, f.kind = .xlat n va write b false → b.toNat < 128 → s.translate g.gcore g.ctx va = .page pa size rd wr ex → xlatTarget g.cluster pa = true →
      (if write then wr else rd) = true →
      ∃ t g', exec (.walkCompletion id) s = .next t ∧ t.gang? uid = some g' ∧ g'.pc = g.pc ∧ (∀ x ∈ t.flights, x.id ≠ id) ∧
        SMap.get g'.regs.h n {} = mkHandle g.cluster va pa size rd wr ∧ ∀ p ∈ f.parts, g'.holds p.strand b .w32 (va % pageBytes size)) ∧
  (∀ s id f uid g n va write b pa size rd wr ex, s.ready id = some f → f.uid = some uid → s.gang? uid = some g → f.kind = .xlat n va write b false →
    s.walking f = true → f.acted = false → s.translate g.gcore g.ctx va = .page pa size rd wr ex → (xlatTarget g.cluster pa && (if write then wr else rd)) = false → s.settled = true → g.pend = [] → g.ctl.tdepth = 0 →
    (∀ x ∈ s.flights, x.uid = some uid → x.id = id) → (s.ctx g.ctx).tvec ≠ 0 →
    ∃ t g', exec (.walkCompletion id) s = .next t ∧ t.gang? uid = some g' ∧ SMap.get g'.regs.h n {} = {} ∧ g'.pc = (s.ctx g.ctx).tvec + BitVec.ofNat 64 (64 * causeProtection) ∧
      g'.ctl.tdepth = 1 ∧ g'.ctl.vliw = false ∧ bits64 g'.ctl.trap.tinfo 7 0 = causeProtection ∧ g'.ctl.trap.tiaddr = f.pc ∧ g'.ctl.trap.tpc = (if f.vliw = true ∨ g.pc ≠ f.pc + 8 then g.pc else f.pc) ∧
      g'.ctl.trap.taddr = BitVec.ofNat 64 va ∧ g'.spec.ib = g.spec.ib + BitVec.ofNat 32 f.paid.1 ∧ g'.spec.tb = g.spec.tb + BitVec.ofNat 32 f.paid.2) ∧
  (∀ s id f uid g p l, s.ready id = some f → f.uid = some uid → s.gang? uid = some g → f.kind = .watch l → f.parts.head? = some p → s.settled = true →
    ∃ t g', exec (.watchRegistration id) s = .next t ∧ t.gang? uid = some g' ∧ g'.monitor = some { line := p.pa / 128 } ∧ g'.pc = g.pc ∧ g'.regs = g.regs ∧
      (uid, p.pa / 128) ∈ (t.slice (homeSlice (128 * (p.pa / 128)))).monitors) ∧
  (∀ s uid g, s.gang? uid = some g → g.iss.exiting = true → g.inSlot = true → s.quiet g = true → (s.core g.gcore).frozen = false →
    ∃ t, exec (.slotRelease uid) s = .next t ∧ t.gang? uid = none ∧ (∀ w ∈ (t.core g.gcore).wins, w ≠ (g.ctx, g.window)) ∧
      ∀ k, k / 16 = g.slot → (t.tile g.gcore k).state = 0 ∧ (t.tile g.gcore k).defd = false) ∧
  (∀ s uid g, s.gang? uid = some g → g.inSlot = true → g.ctl.vliw = true → g.iss.group = false → SMap.find (s.core g.gcore).group (g.slot % 4) = none →
    SMap.get (s.core g.gcore).beat (g.slot % 4) 0 ≤ s.cycle → (s.core g.gcore).group.length < s.vres g.gcore → s.bundleReady g = true → s.admits g.ctx = true → g.iss.groupFrom.isSome = true →
    (∀ x ∈ s.gangs, x.uid ≠ uid → x.gcore = g.gcore → x.slot % 4 = g.slot % 4 → x.ctl.vliw = true →
      x.iss.group = true ∨ g.iss.groupFrom.getD s.cycle ≤ x.iss.groupFrom.getD (s.cycle + 1)) →
    ∃ t, exec (.laneGroupAcquire uid) s = .next t ∧ SMap.find (t.core g.gcore).group (g.slot % 4) = some uid ∧
      t.gang? uid = some { g with iss := { g.iss with group := true, groupFrom := none } }) ∧
  (∀ s n f uid g, s.ready n = some f → f.kind = .sched uid → s.gang? uid = some g → g.loc = .resident → g.iss.exiting = false → g.iss.stopped = false →
    s.muslinMode g.ctx = 0 →
    ∃ t g', exec (.schedulerWriteDelivery n) s = .next t ∧ t.gang? uid = some g' ∧ g'.spec = { g.spec with ib := 0 } ∧ g'.iss.reclaim = true ∧
      g'.regs = g.regs ∧ g'.ctl = g.ctl ∧ g'.pc = g.pc ∧ (t.ctx g.ctx).ibpool = min (2 ^ 64 - 1) ((s.ctx g.ctx).ibpool + g.spec.ib.toNat)) ∧
  (∀ (s : State) g, dlReached s.clock.t g.spec.dl = true → g.loc = .resident → g.iss.exiting = false → s.replaying g.ctx = false →
    (s.dlTick g).iss.dlDue = true ∧ ∀ c, (s.dlTick g).cannotIssue c = true) ∧
  (∀ s uid g, s.gang? uid = some g → g.iss.dlDue = true → g.loc = .resident → g.iss.exiting = false → g.iss.stopped = false →
    s.muslinMode g.ctx = 0 → s.settled = true →
    ∃ t g', exec (.deadlineReached uid) s = .next t ∧ t.gang? uid = some g' ∧ g'.spec.dl = 0 ∧
      (g.spec.dcp ≠ 0 → g'.iss.yieldReq = true ∧ g'.iss.toDcp = true ∧ g'.regs = g.regs ∧ g'.ctl = g.ctl ∧ g'.pc = g.pc) ∧
      (g.spec.dcp = 0 → g'.iss.exiting = true ∧ g'.spec.ib = 0 ∧ g'.spec.tb = 0)) ∧
  (∀ s ctx f, (s.ctx ctx).faults.find? (fun x => x.id.isNone) = some f → s.faultRoom ctx = true →
    ∃ t, exec (.faultEntryDeferred ctx) s = .next t ∧ (t.ctx ctx).fqwptr = (s.ctx ctx).fqwptr + 1 ∧
      ∃ x ∈ (t.ctx ctx).faults, x.page = f.page ∧ x.id = some ((s.ctx ctx).fqwptr.setWidth 16))

/-- How a gang comes into a slot and leaves it (R26, R46, R47, R71, R72, R347, R350, R351, R353, R354): a yield returns both budgets and queues the
gang at a free record, at once or when a record frees; a full save writes v0 to v127 of every strand first; a saved gang comes back to its slot; a
waiting launch starts with its records in v0 to v15 and its argument in s0 at the entry address; a slice that has run out stops the outgoing
function's admission; a written slice is recomputed. Where a saved gang's registers without a place in R349 are kept is the model's choice (assumption
59). -/
def Obligations.ResidenceEvents : Prop :=
  (∀ s uid g r, s.gang? uid = some g → g.yieldDue = true → g.iss.yielding = false → (s.core g.gcore).freeze = 0 → s.settled = true → s.muslinMode g.ctx = 0 →
    g.ctx < 1024 → (∀ m ∈ (s.core g.gcore).mq, m.uid = uid → m.started = none) → s.shareBusy g.gcore g.slot = false → s.freeYield g.ctx = some r →
    ∃ t g', exec (.yieldSequence uid) s = .next t ∧ t.gang? uid = some g' ∧ g'.loc = .queued r s.clock.t ∧ g'.spec.ib = 0 ∧ g'.spec.tb = 0 ∧
      g'.spec.cp = (if g.iss.toDcp then g.spec.dcp else g.spec.cp) ∧ NSet.has (t.ctx g.ctx).yused r = true ∧
      (t.ctx g.ctx).ibpool = min (2 ^ 64 - 1) ((s.ctx g.ctx).ibpool + g.spec.ib.toNat) ∧
      (t.ctx g.ctx).tbpool = min (2 ^ 64 - 1) ((s.ctx g.ctx).tbpool + g.spec.tb.toNat)) ∧
  (∀ s uid g r, s.gang? uid = some g → g.loc = .resident → g.iss.yielding = true → g.iss.exiting = false → s.settled = true → (s.core g.gcore).frozen = false →
    (∀ m ∈ (s.core g.gcore).mq, m.uid ≠ uid) → s.shareBusy g.gcore g.slot = false → s.freeYield g.ctx = some r →
    ∃ t g', exec (.yieldRecordFreed uid) s = .next t ∧ t.gang? uid = some g' ∧ g'.loc = .queued r s.clock.t ∧ NSet.has (t.ctx g.ctx).yused r = true) ∧
  (∀ s uid g, s.gang? uid = some g → s.admits g.ctx = false → g.loc = .resident → (s.failTiles g.gcore g.slot).saveable g = true → (s.core g.gcore).frozen = false → s.settled = true →
    ∃ t g', exec (.fullSave uid) s = .next t ∧ t.gang? uid = some g' ∧ g'.loc = .saved ∧ (∀ w ∈ (t.core g.gcore).wins, w ≠ (g.ctx, g.window)) ∧
      ∀ k < 4096, ∀ i < 4, (t.pathByte .host (s.saveBase g + 4 * k + i)).1 = (leBytes 4 (g.settle.regs.v.get k).toNat).getD i 0) ∧
  (∀ s uid g, s.gang? uid = some g → g.loc = .saved → s.admits g.ctx = true → s.worlds.leaving = none → s.occupied g.gcore g.slot = false →
    (∀ w ∈ (s.core g.gcore).wins, w.2.base + w.2.size ≤ g.window.base ∨ g.window.base + g.window.size ≤ w.2.base) →
    s.devicePoison (s.saveBase g + 0x28800) 2048 = false → g.heldFor = none → s.altered (s.saveBase g + 0x28800) g = false → (∀ x ∈ s.gangs, x.park = none) →
    ∃ t g', exec (.fullRestore uid) s = .next t ∧ t.gang? uid = some g' ∧ g'.loc = .resident ∧ g'.cluster = g.cluster ∧ g'.core = g.core ∧ g'.slot = g.slot ∧
      g'.window = g.window ∧ g'.pc = g.pc ∧ (g.window.size ≠ 0 → (g.ctx, g.window) ∈ (t.core g.gcore).wins)) ∧
  (∀ s cluster ctx node f ib tb c k, s.waiters cluster = [.launch ctx node f] → s.settled = true → SMap.get s.placed cluster 0 ≠ s.cycle + 1 →
    let nd := s.nodeOf ctx node
    grantOf f.recs = some (ib, tb) → s.pickCore nd.home (if nd.affv then some nd.aff else none) (fun c => ((s.core c).windowBase nd.flags).isSome) = some c →
    s.pickSlot (32 * nd.home + c) = some k → (s.launchOf f.recs).2.1 = 0 →
    ∃ t, exec (.waiterPlacement cluster) s = .next t ∧ ∃ g ∈ t.gangs, g.uid = s.next ∧ g.ctx = ctx ∧ g.gcore = 32 * nd.home + c ∧ g.slot = k ∧
      g.loc = .resident ∧ g.gid = f.gid ∧ g.pc = BitVec.ofNat 64 (bits64 nd.entry 55 3 * 8) ∧ g.spec.ib = BitVec.ofNat 32 ib ∧ g.spec.tb = BitVec.ofNat 32 tb ∧
      g.ctl.active = BitVec.ofNat 32 (2 ^ f.recs.length - 1) ∧ g.ctl.nmask = g.ctl.active ∧ g.ctl.vliw = false ∧ g.ctl.tdepth = 0 ∧ g.ctl.stack = [] ∧
      g.regs.s.get 0 = nd.arg ∧ (∀ n, n ≠ 0 → g.regs.s.get n = 0) ∧
      ∀ i < f.recs.length, ∀ j < 16, g.regs.v.get (128 * i + j) =
        (padWords nd.recw (f.recs.getD i { words := [], time := 0, elapsed := 0, src := 0 }).words).getD j 0) ∧
  (∀ s a b t0, s.worlds.leaving = none → s.worlds.current = some a → s.worlds.started = some t0 → t0 + SMap.get s.worlds.eff a 1000000 * 65536 ≤ s.clock.el →
    a < 64 → b < 64 → a ≠ b →
    ∃ t, exec (.worldSwitch a b) s = .next t ∧ t.worlds.current = some b ∧ t.worlds.leaving = some a ∧ NSet.has t.worlds.stopped a = true ∧
      NSet.has t.worlds.stopped b = false) ∧
  (∀ s who vf v, vf < 64 → s.mayWrite who (worldBlock vf) = true →
    ∃ t, exec (.sliceWrite who vf v) s = .next t ∧ bits64 (t.reg (worldBlock vf)) 31 0 = bits64 v 31 0 ∧
      SMap.get t.worlds.eff vf 0 = min (2 ^ 32 - 1) (max (bits64 v 31 0) (max 10000 (2 * s.meas vf))))

/-- The matrix engine, tiles and data engines at work (R97, R282 to R284, R286, R290, R292, R294, R296, R297): the engine starts the head it chooses
and is occupied; a clear fills its accumulator tile, a multiplication gives every element; a drained tile is empty; a copy that is taken up changes
its tiles; a physical copy of a packet writes its bytes through the CPY path; a stream's chunk ends; a frame leaves with its check sequence. -/
def Obligations.EngineEvents : Prop :=
  (∀ s core m, (s.core core).freeze = 0 → (s.core core).mfree ≤ (s.core core).clk → s.mNext core = some m →
    ∃ t, exec (.matrixStart core) s = .next t ∧ (t.core core).mfree = (s.core core).clk + m.occupancy ∧
      (∀ x ∈ (t.core core).mq, x.id = m.id → x.started = some (s.core core).clk) ∧ (∀ c, c ≠ core → t.core c = s.core c)) ∧
  (∀ s core m t0, (s.core core).mq = [m] → m.started = some t0 → t0 + m.occupancy + 4 ≤ (s.core core).clk → (s.core core).freeze = 0 → m.flag = .none →
    s.settled = true →
    (∀ h x, m.instr = .zclr h x → ∃ t, exec (.matrixCompletion core) s = .next t ∧ (t.core core).mq = [] ∧
      ∀ k < 1024, ((t.core core).accTile (4 * m.slot + zNum x)).get k = (match x.pat.toNat % 4 with | 0 => 0 | 1 => 0xFF800000 | _ => 0x7F800000)) ∧
    (∀ h x, m.instr = .mma h x → m.bad = false → m.hitA = [] → m.hitB = [] → ∃ t, exec (.matrixCompletion core) s = .next t ∧ (t.core core).mq = [] ∧
      ∀ i < 32, ∀ j < 32, ((t.core core).accTile (4 * m.slot + zNum x)).get (32 * i + j) =
        BitVec.ofNat 32 (mmaCell x.fn.toNat (mmaB x) x.pat.toNat (m.rowOf i) (m.colOf j)
          (if x.qual.getLsbD 2 then 0 else (((s.core core).accTile (4 * m.slot + zNum x)).get (32 * i + j)).toNat)))) ∧
  (∀ s core k, (s.tile core k).state = 3 → s.tileBusy core k = false → (s.core core).freeze = 0 →
    ∃ t, exec (.tileDrainComplete core k) s = .next t ∧ t.tile core k = { s.tile core k with state := 0 } ∧ ∀ j, j ≠ k → t.tile core j = s.tile core j) ∧
  (∀ s id c sk dk src dst n rows ss ds st dt, s.cmd? id = some c → c.kind = .copy sk dk src dst n rows ss ds st dt → c.taken = false → c.err = 0 →
    s.cmdFirst c = true → s.cmdFrozen c = false → s.yieldsTile c = false → (sk = 2 → (s.tile c.gcore st).state = 2) → (dk = 2 → (s.tile c.gcore dt).state = 0) →
    ∃ t, exec (.engineCommandTakeUp id) s = .next t ∧ t.cmd? id = some { c with taken := true, held := (c.drains ++ c.fills).map (fun k => (k, s.tile c.gcore k)) } ∧ (sk = 2 → (t.tile c.gcore st).state = 3) ∧
      (dk = 2 → (t.tile c.gcore dt).state = 1 ∧ (t.tile c.gcore dt).filler = 0)) ∧
  (∀ s id c src dst n, s.cmd? id = some c → c.kind = .copy 0 0 src dst n 1 0 0 0 0 → c.uid = none → c.taken = true → c.err = 0 → c.wait = [] → c.moved = 0 →
    c.kept = [] → c.flag = .none → c.future = none → c.egress = false → isDram src = true → isDram dst = true → src % 64 + n ≤ 64 → dst % 64 + n ≤ 64 →
    src + n ≤ dst ∨ dst + n ≤ src → s.settled = true → s.myTurn c = true →
    ∃ t, exec (.engineCommandCompletion id) s = .next t ∧ t.cmd? id = none ∧
      ∀ i < n, (t.pathByte .cpy (dst + i)).1 = (s.pathByte .cpy (src + i)).1) ∧
  (∀ s id c mk base n m step wrap k a pa, s.cmd? id = some c → c.kind = .strm false mk base n m step wrap k → mk = 0 → c.taken = true → c.err = 0 →
    c.wait = [] → c.moved = 0 → c.chunk < m → c.flag = .none → (s.core c.gcore).freeze = 0 → s.settled = true → s.myTurn c = true → s.stalled c c.mv = false →
    a = base + (if wrap = 0 then c.chunk * step else c.chunk * step % wrap) → s.cmdGeneric c a false = .at_ pa → isDram pa = true → pa % 64 + n ≤ 64 →
    (s.cmdRead c pa n).2.1 = false → s.tileStill c k = true → (s.tile c.gcore k).state = 1 → (s.tile c.gcore k).filler = 0 → isSpad (spadPa c.cluster (tileEa c.core k 0 (s.cmdTile c k))) = true →
    ∃ t c', exec (.strmChunkEnd id) s = .next t ∧ t.cmd? id = some c' ∧ c'.chunk = c.chunk + 1 ∧ c'.taken = false ∧
      c'.kind = .strm false mk base n m step wrap (s.tile c.gcore k).next ∧ (t.tile c.gcore k).state = 2 ∧ (t.tile c.gcore k).len = n) ∧
  (∀ s id c port len off ck va k, s.cmd? id = some c → c.kind = .netx port len 0 off ck va k → c.taken = true → c.sent = none → c.err = 0 →
    s.cmdFirst c = true → (s.core c.gcore).freeze = 0 → s.portUp port = true → c.egress = true → c.future = none → c.flag = .none → s.settled = true →
    let pa := spadPa c.cluster (tileEa c.core k 0 (s.cmdTile c k))
    isDram pa = false → isSpad pa = true → (∀ i < len, (s.spadByte .net (pa + i)).2 = false) →
    let wire := (List.range len).map (fun i => (s.spadByte .net (pa + i)).1) ++ List.replicate (60 - len) 0#8
    ∃ t, exec (.netxFrameSent id) s = .next t ∧ t.cmd? id = none ∧ .frame port (wire ++ fcs wire) s.clock.t ∈ t.out)

/-- Bins at work (R44, R45, R46, R254): an arriving record stands last in its bin with the device time of its arrival; the record that makes up the
node's number forms a launch with the next formation count; a timer that runs out forms one of what waits; and the overflow area returns a record that
finds room. A bin controller works once in a core cycle. -/
def Obligations.BinEvents : Prop :=
  ∀ (s : State) (ctx node : Nat), s.settled = true → s.muslinMode ctx = 0 → (s.ctx ctx).live = true → (s.bin ctx node).ran ≠ some s.cycle →
    let b := s.bin ctx node
    let nd := s.nodeOf ctx node
    (nd.timer = 0 → (∀ x ∈ b.recs, x.marked = false) →
      (∀ a r, s.arrivals ctx node = [a] → a.port = 1 → a.recs = [r] → r.marked = false → (s.ctx ctx).ovr = [] → s.roomFor ctx node 1 = some 1 →
        let r' := { r with time := s.clock.t, elapsed := s.clock.el }
        ∃ t, exec (.recordAppend ctx node) s = .next t ∧
          (b.recs.length + 1 < nd.coal → (t.bin ctx node).recs = b.recs ++ [r'] ∧ (t.bin ctx node).formed = b.formed) ∧
          (b.recs.length + 1 = nd.coal → (t.bin ctx node).recs = [] ∧ ∃ f, (t.bin ctx node).formed = b.formed ++ [f] ∧ f.recs = b.recs ++ [r'] ∧
            f.gid = BitVec.ofNat 32 nd.formed ∧ f.at_ = s.clock.t ∧ (t.nodeOf ctx node).formed = nd.formed + 1)) ∧
      (∀ r, (s.ctx ctx).ovr = [(node, r)] → s.arrivals ctx node = [] → r.marked = false → 0 < b.room → b.recs.length + 1 < nd.coal →
        ∃ t, exec (.overflowReturn ctx) s = .next t ∧ (t.ctx ctx).ovr = [] ∧ (t.bin ctx node).recs = b.recs ++ [r] ∧ (t.bin ctx node).formed = b.formed)) ∧
    (s.timerDue ctx node = true → s.arrivals ctx node = [] → (∀ r ∈ (s.ctx ctx).ovr, r.1 ≠ node) → (∀ l ∈ b.markedLaunches, s.markedTimes ctx node l = 0) →
      ∃ t f, exec (.binTimerExpiry ctx node) s = .next t ∧ (t.bin ctx node).formed = b.formed ++ [f] ∧ f.recs = (b.recs.filter (fun r => !r.marked)).take nd.coal ∧
        f.gid = BitVec.ofNat 32 nd.formed)

/-- Percale at work (R358, R361 to R374, R439): a pass fetches the packet of a resident pending queue, and at its end the read pointers have moved
past the packets taken; a quantum chooses the residents again; every packet that is in order has its effect, and where it is over it is taken, with
its record where it asks for one; waits end when their condition holds or their time is up; a completed launch writes its record; a LOCKSTEP's gangs
are released together, late in whole nanoseconds (that the comparison is one of whole nanoseconds is the model's reading, assumption 63); the delay of
an interrupt ends, and its vector fires, or becomes pending where it is masked; a doorbell makes a queue pending, or puts it in error with code 1; and
en cleared and then set leaves error and skips what was written. The order of the tests of a define packet is the model's reading (assumption 64), and
so is the home slice's part in SIGNAL (assumption 68). -/
def Obligations.PacketEvents : Prop :=
  (∀ s q, s.percale.busy = false → s.percale.resident = [q] → s.qReady q = true → s.ringBase q + 64 * s.ringSize q ≤ 2 ^ 40 → (s.ctx (s.qCtx q)).live = true →
    pkOk (s.packetAt q) = true → (pkBit (s.packetAt q) 8 = true → s.qOutstanding q = false) →
    ∃ t, exec .percalePass s = .next t ∧ t.percale.busy = true ∧ t.percale.pass = [(q, s.packetAt q)]) ∧
  (∀ s, s.percale.busy = true → s.percale.pass = [] → s.groupOver = true →
    ∃ t, exec .percalePass s = .next t ∧ t.percale.busy = false ∧ t.percale.took = [] ∧
      ∀ q, (t.queue q).rptr = (s.queue q).rptr + BitVec.ofNat 32 (s.percale.took.count q)) ∧
  (∀ s, s.percale.busy = false → s.percale.quantum + 50000 * 65536 ≤ s.clock.el →
    ∃ t, exec .residencyQuantum s = .next t ∧ t.percale.quantum = s.clock.el ∧ t.percale.resident.length ≤ 32 ∧ t.percale.bells = [] ∧
      (∀ q ∈ t.percale.resident, q < 1024 ∧ s.qReady q = true) ∧
      ∀ q < 1024, s.qReady q = true → q ∈ t.percale.resident ∨ t.percale.resident.length = 32) ∧
  (∀ s q bs, Packet s q bs →
    let ctx := s.qCtx q
    let node := pk bs 8 2
    let nd := s.nodeOf ctx node
    let pa := pk bs 16 8
    (∀ keep, pkType bs = 1 → pkBit bs 83 = false → nd.valid = true → pa + 4 * nd.recw * pk bs 12 4 ≤ 2 ^ 40 →
      s.cohortStatus ctx ((pk bs 12 4 + nd.coal - 1) / nd.coal) (s.capacity nd.home nd.flags) (descsOf bs ((pk bs 12 4 + nd.coal - 1) / nd.coal)) = none →
      s.admits ctx = true → s.roomFor ctx node (pk bs 12 4) = some keep →
      ∃ t l f rs k, exec (.dispatch q) s = .next t ∧ s.packetPassed t q ∧ l ∈ t.launches ∧ l.id = s.next ∧ l.isLaunch = true ∧
        l.total = pk bs 12 4 ∧ l.dl = BitVec.ofNat 64 (pk bs 24 8) ∧ l.dcp = BitVec.ofNat 64 (pk bs 32 8) ∧ f ∈ t.flights ∧ f.kind = .append 4 k node keep rs ∧
        rs.length = pk bs 12 4 ∧ ∀ i < pk bs 12 4, ∀ r, rs[i]? = some r → r.src = 2 ∧ r.launch = some s.next ∧
          r.words = (List.range nd.recw).map (fun j => BitVec.ofNat 32 (leNat (s.deviceRead (pa + 4 * (nd.recw * i + j)) 4)))) ∧
    (pkType bs = 1 → pkBit bs 83 = true → (nd.valid = true → (s.bin ctx node).held = 0 ∧ (s.ctx ctx).ovr = [] ∧
        ∀ f ∈ s.flights, f.ctx = ctx → ∀ k keep rs, f.kind ≠ .append 4 k node keep rs) →
      let w := (List.range 8).map (fun i => BitVec.ofNat 64 (leNat (((s.deviceRead pa 64).drop (8 * i)).take 8)))
      ∃ t, exec (.dispatchDefine q) s = .next t ∧ s.taken t q bs (if nodeOk w then 0 else 3) (!nodeOk w) ∧
        (nodeOk w = true → t.nodeOf ctx node = { entry := w.getD 0 0, arg := w.getD 1 0, bud := w.getD 2 0, shape := w.getD 3 0, res := w.getD 4 0 ||| bitMask 63 63 }) ∧
        (nodeOk w = false → (t.nodeOf ctx node).valid = false)) ∧
    (∀ places, pkType bs = 2 → (∀ l ∈ s.launches, l.id ≠ s.next) →
      let cores := (List.range 32).filter (fun c => (pk bs 12 4).testBit c)
      let len := pk bs 24 4
      nd.valid = true → (∀ i < pk bs 10 1, pk bs (48 + 4 * i) 1 < nd.flags) →
      (∀ i < (pa + len + 4095) / 4096 - pa / 4096, ∃ a size rd wr ex, s.walk ctx ((pa / 4096 + i) * 4096) = .page a size rd wr ex) →
      pk bs 32 8 + 128 * nd.recw * cores.length ≤ 2 ^ 40 → pa + len ≤ 2 ^ 56 → s.lockSlots nd.home nd.flags cores = some places → s.admits ctx = true →
      nd.ibdef * cores.length ≤ (s.ctx ctx).ibpool → nd.tbdef * cores.length ≤ (s.ctx ctx).tbpool →
      ∃ t, exec (.lockstep q) s = .next t ∧ s.packetPassed t q ∧ (∃ l ∈ t.launches, l.id = s.next ∧ l.release = some (BitVec.ofNat 64 (pk bs 40 8))) ∧
        (t.ctx ctx).ibpool = (s.ctx ctx).ibpool - nd.ibdef * cores.length ∧
        ∀ p ∈ places, ∃ g ∈ t.gangs, g.gcore = p.1 ∧ g.slot = p.2 ∧ g.ctx = ctx ∧ g.loc = .held s.next) ∧
    (∀ keep, pkType bs = 3 → nd.valid = true → pk bs 10 1 + 1 ≤ nd.recw → s.roomFor ctx node 1 = some keep →
      ∃ t f k r, exec (.recordPacket q) s = .next t ∧ s.packetPassed t q ∧ f ∈ t.flights ∧ f.kind = .append 4 k node keep [r] ∧ r.src = 1 ∧
        r.words = (List.range (pk bs 10 1 + 1)).map (fun j => BitVec.ofNat 32 (pk bs (16 + 4 * j) 4))) ∧
    (pkType bs = 4 → s.engineFull false (12 * pk bs 8 1 + pk bs 9 1) = false →
      ∃ t c, exec (.copyPacket q) s = .next t ∧ s.packetPassed t q ∧ c ∈ t.cmds ∧ c.uid = none ∧ c.engine = 12 * pk bs 8 1 + pk bs 9 1 ∧
        c.kind = .copy 0 0 pa (pk bs 24 8) (pk bs 12 4) 1 0 0 0 0 ∧ ∀ w ∈ t.paths, w.path ≠ .host) ∧
    (∀ p, pkType bs = 5 → s.flagAt (BitVec.ofNat 32 (pk bs 8 4)) ctx = some p →
      ∃ t, exec (.waitflag q) s = .next t ∧ s.packetPassed t q ∧
        (t.queue q).wait = some (.flag (BitVec.ofNat 32 (pk bs 8 4)) (pk bs 12 2) (pkBit bs 112))) ∧
    (pkType bs = 6 → ∃ t, exec (.waitmem q) s = .next t ∧ s.packetPassed t q ∧
      (t.queue q).wait = some (.mem (pk bs 8 8) (BitVec.ofNat 64 (pk bs 16 8)) (BitVec.ofNat 64 (pk bs 24 8)) (pk bs 32 1))) ∧
    (s.onlyHost → pa % 8 = 0 → isDram pa = true → pkType bs = 7 →
      let w := ((s.settleLine pa .host).homeWord pa 8).1
      (pk bs 8 1 = 0 → ∃ t, exec (.signalWrite q) s = .next t ∧ s.taken t q bs 0 false ∧ t.homeHolds pa (leBytes 8 (pk bs 24 8))) ∧
      (pk bs 8 1 = 1 → ∃ t, exec (.signalAdd q) s = .next t ∧ s.taken t q bs 0 false ∧ t.homeHolds pa (leBytes 8 ((w + pk bs 24 8) % 2 ^ 64))) ∧
      (pk bs 8 1 = 2 → w < 2 ^ 63 → ∃ t, exec (.signalResolve q) s = .next t ∧ s.taken t q bs 0 false ∧ t.homeHolds pa (leBytes 8 (2 ^ 63 + pk bs 24 8 % 2 ^ 48))) ∧
      (pk bs 8 1 = 3 → w < 2 ^ 63 → ∃ t, exec (.signalPoison q) s = .next t ∧ s.taken t q bs 0 false ∧ t.homeHolds pa (leBytes 8 (2 ^ 63 + 2 ^ 62)))) ∧
    (∀ core fl, pkType bs = 7 → pk bs 8 1 = 4 → s.flagAt (BitVec.ofNat 32 (pk bs 16 4)) ctx = some (core, fl) →
      (SMap.get (s.core core).flags fl 0).toNat + pk bs 24 2 ≤ 65535 →
      ∃ t, exec (.signalPost q) s = .next t ∧ s.taken t q bs 0 false ∧ (SMap.get (t.core core).flags fl 0).toNat = (SMap.get (s.core core).flags fl 0).toNat + pk bs 24 2) ∧
    (s.onlyHost → pa % 16 = 0 → isDram pa = true → pkType bs = 8 →
      ∃ t, exec (.timestamp q) s = .next t ∧ s.taken t q bs 0 false ∧ t.homeHolds pa (timeRecord s.clock.t)) ∧
    (pkType bs = 9 →
      (pk bs 8 1 = 0 → ∃ t, exec (.budgetAdd q) s = .next t ∧ s.taken t q bs 0 false ∧ (t.ctx ctx).ibpool = min (2 ^ 64 - 1) ((s.ctx ctx).ibpool + pa) ∧
        (t.ctx ctx).tbpool = min (2 ^ 64 - 1) ((s.ctx ctx).tbpool + pk bs 24 8)) ∧
      (pk bs 8 1 = 1 → ∃ t, exec (.budgetSet q) s = .next t ∧ s.taken t q bs 0 false ∧ (t.ctx ctx).ibpool = pa ∧ (t.ctx ctx).tbpool = pk bs 24 8) ∧
      (pk bs 8 1 = 2 → ∃ t, exec (.budgetReclaim q) s = .next t ∧ s.taken t q bs 0 false ∧
        ∀ g ∈ s.gangs, g.inSlot = true → g.ctx = ctx → g.iss.exiting = false → ∃ f ∈ t.flights, f.kind = .sched g.uid ∧ f.core = g.gcore)) ∧
    (∀ l, pkType bs = 10 → s.launches.find? (fun l => l.queue == q && l.dispatch && l.pkt.toNat == pk bs 8 4) = some l →
      ∃ t, exec (.deadline q) s = .next t ∧ s.packetPassed t q ∧
        (∀ g ∈ t.gangs, g.launch = some l.id → g.spec.dl = BitVec.ofNat 64 pa ∧ g.spec.dcp = BitVec.ofNat 64 (pk bs 24 8)) ∧
        ∀ x ∈ t.launches, x.id = l.id → x.dl = BitVec.ofNat 64 pa ∧ x.dcp = BitVec.ofNat 64 (pk bs 24 8))) ∧
  (∀ s n l r, s.launches.find? (fun l => l.id == n) = some l → l.release = some r → r = 0 ∨ dlReached s.clock.t r = true → (∃ g ∈ s.gangs, g.loc = .held n) →
    (∀ g ∈ s.gangs, g.heldFor ≠ some n ∧ (g.loc = .held n → (s.core g.gcore).frozen = false ∧ g.iss.stopped = false ∧ s.admits g.ctx = true)) →
    ∃ t, exec (.lockstepRelease n) s = .next t ∧ t.gangs = s.gangs.map (fun g => if g.loc = .held n then { g with loc := .resident, iss := { g.iss with first := true } } else g) ∧
      ∀ x ∈ t.launches, x.id = n → x.start = some s.clock.t ∧ x.late = (timeDl s.clock.t != r)) ∧
  (∀ s q, q < 1024 → (∀ c, s.muslinMode c = 0) →
    (∀ addr n consume core fl, (s.queue q).wait = some (.flag addr n consume) → s.flagAt addr (s.qCtx q) = some (core, fl) →
      n ≤ (SMap.get (s.core core).flags fl 0).toNat →
      ∃ t, exec (.waitConditionMet q) s = .next t ∧ (t.queue q).wait = none ∧
        (SMap.get (t.core core).flags fl 0).toNat = (SMap.get (s.core core).flags fl 0).toNat - (if consume then n else 0)) ∧
    (∀ pa m v op, (s.queue q).wait = some (.mem pa m v op) → memHolds (BitVec.ofNat 64 (leNat (s.deviceRead pa 8))) m v op = true →
      ∃ t, exec (.waitConditionMet q) s = .next t ∧ (t.queue q).wait = none) ∧
    (∀ w t0 l, (s.queue q).wait = some w → (s.queue q).waitTo = some t0 → t0 ≤ s.clock.el → w ≠ .room → w ≠ .slot → w ≠ .engine →
      s.launches.find? (fun l => l.id == (s.queue q).waitPkt) = some l → l.cmpl = true →
      ∃ t, exec (.waitTimeout q) s = .next t ∧ (t.queue q).wait = none ∧ s.recorded t q 7)) ∧
  (∀ s n l, s.launches.find? (fun l => l.id == n) = some l → l.isLaunch = true → s.launchOver l = true → (s.queue l.queue).wait = none → l.queue < 1024 →
    (∀ c, s.muslinMode c = 0) →
    ∃ t, exec (.launchCompletion n) s = .next t ∧ (∀ x ∈ t.launches, x.id ≠ n) ∧ (l.cmpl = true → s.recorded t l.queue (if l.killed then 9 else 0))) ∧
  (∀ s q, let w := s.qReg q 0x38
    let a := s.reg (assignBlock + 4 * q)
    w.getLsbD 11 = true → (s.queue q).irqN ≠ 0 → (s.queue q).irqFrom + max 1 (bits64 w 35 20) * 65536 ≤ s.clock.el →
    bits64 w 10 0 < (if bits64 a 5 0 = 0 then 2048 else 64) →
    let vec := 2048 * bits64 a 5 0 + bits64 w 10 0
    ∃ t, exec (.interruptDelayExpiry q) s = .next t ∧ (t.queue q).irqN = 0 ∧
      (NSet.has (s.hostPort (bits64 a 6 6)).opened vec = true → ∃ held, .irq (bits64 a 6 6) (bits64 a 5 0) (bits64 w 10 0) held ∈ t.out) ∧
      (NSet.has (s.hostPort (bits64 a 6 6)).opened vec = false → NSet.has (t.hostPort (bits64 a 6 6)).pending vec = true)) ∧
  (∀ s who q v, q < 1024 → Who.isVf who = false → s.mayWrite who (queueBlock q + 0x10) = true → s.muslinMode (s.qCtx q) = 0 → (s.queue q).error = false →
    ∃ t, exec (.doorbell who q v) s = .next t ∧ t.wptr q = v.setWidth 32 ∧
      ((v.setWidth 32 - (s.queue q).rptr).toNat ≤ s.ringSize q → t.queue q = s.queue q) ∧
      (s.ringSize q < (v.setWidth 32 - (s.queue q).rptr).toNat → (t.queue q).error = true ∧ (t.queue q).ecode = 1)) ∧
  (∀ s who q v, q < 1024 → s.mayWrite who (queueBlock q + 8) = true →
    ∃ t, exec (.queueEnable who q v) s = .next t ∧ (t.qReg q 8).getLsbD 19 = v.getLsbD 19 ∧
      (v.getLsbD 19 = false → (s.queue q).error = true → (t.queue q).error = true ∧ (t.queue q).off = true) ∧
      (v.getLsbD 19 = true → (s.queue q).off = true → (s.queue q).error = true → (t.queue q).error = false ∧ (t.queue q).rptr = s.wptr q))

/-- Contexts, faults and errors (R111, R114, R357, R381, R382, R385, R388, R406): creation and destruction of a context; retiring one fault, or all
that have an entry; a host's shootdown; an audit's result and its age limit; a correctable error's freeze of 20 cycles and its end; what an
uncorrectable error marks; a fabric access at its target. That tvec is an opaque function of the context is the model's choice (assumption 22). -/
def Obligations.DeviceEvents : Prop :=
  (∀ s who ctx v, ctx < 1024 → s.mayWrite who (ctxBlock ctx + 0x28) = true → s.settled = true →
    (v.getLsbD 7 = true → (s.ctx ctx).live = false → ∃ t, exec (.contextCreate who ctx v) s = .next t ∧ (t.ctx ctx).live = true ∧
      (t.ctx ctx).tvec = Config.handlerBase ctx &&& bitMask 55 12 ∧ (t.ctx ctx).tag = (v >>> 16).setWidth 16 ∧ (t.ctx ctx).yused = [] ∧ (t.ctx ctx).err = false) ∧
    (v.getLsbD 7 = false → (s.ctx ctx).live = true → ∃ t, exec (.contextDestroy who ctx v) s = .next t ∧ (t.ctx ctx).live = false ∧
      ∀ g ∈ t.gangs, g.ctx = ctx → g.iss.exiting = true)) ∧
  (∀ s who ctx v, s.mayWrite who (ctxBlock ctx + 0x50) = true → (∀ g ∈ s.gangs, g.park = none ∧ ∀ p r, g.loc ≠ .fetchOut p r) →
    (v.getLsbD 16 = false → ∃ t, exec (.faultRetire who ctx v) s = .next t ∧
      (t.ctx ctx).faults = (s.ctx ctx).faults.filter (fun f => f.id != some (v.setWidth 16))) ∧
    (v.getLsbD 16 = true → ∃ t, exec (.faultRetireAll who ctx v) s = .next t ∧ (t.ctx ctx).faults = (s.ctx ctx).faults.filter (fun f => f.id.isNone))) ∧
  (∀ s who ctx v, s.mayWrite who (ctxBlock ctx + 0x78) = true → s.sdbusy ctx = false →
    let va := bits64 v 43 0 * 4096
    let size := pageBytes (bits64 v 47 44)
    let n := bits64 v 63 48
    bits64 v 47 44 ≤ 11 → va % size = 0 → n ≠ 0 →
    ∃ t, exec (.hostShootdown who ctx v) s = .next t ∧
      (∀ e ∈ t.tlbs, e.ctx = ctx → e.va + pageBytes e.size ≤ va ∨ va + n * size ≤ e.va) ∧
      (∀ p ∈ t.pointers, p.ctx ≠ ctx) ∧
      ∀ g ∈ t.gangs, g.ctx = ctx → ∀ h ∈ g.regs.h, h.2.valid = true → h.2.vpage + pageBytes h.2.size ≤ va ∨ va + n * size ≤ h.2.vpage) ∧
  (∀ s k pass rest, s.audits = (k, pass) :: rest → s.noAudit k = false →
    ∃ t, exec (.auditResult 0) s = .next t ∧ t.audits = rest ∧ t.score k = (if pass then min 15 (s.score k + 1) else s.score k - 2) ∧
      SMap.get t.fails k 0 = (if pass then SMap.get s.fails k 0 else min 65535 (SMap.get s.fails k 0 + 1))) ∧
  (∀ s slice set way l k c, SMap.find (s.slice slice).lines (16 * set + way) = some l → l.audit = some (k, c) → 2 ^ c < (s.slice slice).age l →
    ∃ t, exec (.auditAgeExpiry slice set way) s = .next t ∧ t.audits = s.audits ++ [(k, false)] ∧
      SMap.find (t.slice slice).lines (16 * set + way) = some { l with audit := none }) ∧
  (∀ s core, core < 256 → ∃ t, exec (.correctableErrorFreeze core) s = .next t ∧
    (t.core core).freeze = (if (s.core core).freeze = 0 then 1 else (s.core core).freeze) + 20 ∧ (t.core core).clk = (s.core core).clk ∧ (t.core core).flags = (s.core core).flags) ∧
  (∀ s core, (s.core core).freeze = 1 → s.settled = true → (∀ f ∈ s.flights, f.uid = none → core ∉ f.where_) → (s.core core).pinHeld = [] →
    (∀ w ∈ s.paths, isSpad w.pa = false) → (∀ g ∈ s.gangs, g.park = none) →
    ∃ t, exec (.freezeEnd core) s = .next t ∧ (t.core core).freeze = 0 ∧ t.gangs = s.gangs ∧ t.flights = s.flights ∧ s.sameBytes t) ∧
  (∀ s, (∀ pa, isDram pa = true → ∃ t, exec (.uncorrectableError (.dram pa)) s = .next t ∧ NSet.has t.dpoison (pa / 64) = true ∧ t.dram = s.dram) ∧
    (∀ pa, isSpad pa = true → ∃ t, exec (.uncorrectableError (.scratchpad pa)) s = .next t ∧ t.bankByte pa = ((s.bankByte pa).1, true)) ∧
    (∀ core n, ∃ t, exec (.uncorrectableError (.accTile core n)) s = .next t ∧ ((t.core core).accTile n).poison = true) ∧
    (∀ uid g key, s.gang? uid = some g → key < 4096 → ∃ t g', exec (.uncorrectableError (.vreg uid key)) s = .next t ∧ t.gang? uid = some g' ∧
      g'.poisonV (key / 128) (key % 128) = true) ∧
    (∀ slice set way k l, SMap.find (s.slice slice).lines (16 * set + way) = some l → l.valid.getLsbD k = true → l.dirty.getLsbD k = false →
      ∃ t, exec (.uncorrectableError (.l2Sector slice set way k)) s = .next t ∧
        ∀ x, SMap.find (t.slice slice).lines (16 * set + way) = some x → x.valid.getLsbD k = false)) ∧
  (∀ s (x : FabricAccess) pa, s.exported x = some pa →
    (∀ bs, x.kind = .store bs → ∃ t, exec (.fabricAccessAtTarget x) s = .next t ∧ ∀ i < bs.length, (t.pathByte .host (pa + i)).1 = bs.getD i 0) ∧
    (∀ fn wide b c v, x.kind = .atomic fn wide b c →
      let n := if wide then 8 else 4
      pa % n = 0 → isDram pa = true → atomNew fn.toNat n ((s.settleLine pa .host).homeWord pa n).1 (b.toNat % 2 ^ (8 * n)) (c.toNat % 2 ^ (8 * n)) = some v →
      ∃ t, exec (.fabricAccessAtTarget x) s = .next t ∧ t.homeHolds pa (leBytes n v)))

/-- The register space (R8, R113, R148, R340, R392, R395 to R399, R402, R411, R415, R418, R419, R421, R436): what the writes and reads that have an
effect of their own do for a party that reaches the register; a vector that is masked becomes pending, and is sent when it is unmasked (R394); a
request at a frozen port that is to be answered ends with Completer Abort; a plain field takes what is written and no other register changes. That a
virtual function's reset destroys the contexts given to it is the model's reading (assumption 75). The bound of 512 bytes on a host write is the
model's reading (assumption 76). -/
def Obligations.RegisterEvents : Prop :=
  (∀ s who core k v, core < 256 → k < 8 → s.mayWrite who (pinAddr core k) = true → (s.core core).frozen = false →
    (v.getLsbD 31 = true → (∀ g ∈ s.gangs, g.inSlot = true → g.gcore = core → g.slot ≠ 8 + k) →
      ((s.pinReg core k).getLsbD 31 = true → s.pinReg core k &&& 0x3FF = v &&& 0x3FF) → s.shareElse core (8 + k) (v &&& 0x3FF).toNat = false →
      ∃ t, exec (.slotPin who core k v) s = .next t ∧ t.pinnedTo core (8 + k) = some (bits64 v 9 0)) ∧
    (v.getLsbD 31 = false → ∃ t, exec (.slotUnpin who core k v) s = .next t ∧ t.pinnedTo core (8 + k) = none ∧
      ∀ j, j / 16 = 8 + k → (t.tile core j).state = 0 ∧ (t.tile core j).defd = false)) ∧
  (∀ s who mc n v, mc < 32 → n < 16 → v.getLsbD 3 = true → s.mayWrite who (windowWord mc n 3) = true →
    ∃ t, exec (.formatWindowEnable who mc n v) s = .next t ∧
      let fields := if bits64 v 1 0 = 3 then (v &&& 4) ||| (s.reg (windowWord mc n 3) &&& 3) else v &&& 7
      t.reg (windowWord mc n 3) = (if s.windowOk mc n (v &&& 7) then fields ||| 8 else fields ||| 16)) ∧
  (∀ s who off v, off < 0x2000 → off % 4 = 0 → Who.isVf who = false → s.mayWrite who (assignBlock + off) = true → bits64 v 5 0 ≤ 32 →
    bits64 v 5 0 = 0 ∨ s.givenTo (if off < 0x1000 then 0 else 0x1000) 1024 (bits64 v 5 0, bits64 v 6 6) off < (if off < 0x1000 then 64 else 32) →
    ∃ t, exec (.assignmentWrite who off v) s = .next t ∧ t.assigned off = (bits64 v 5 0, bits64 v 6 6)) ∧
  (∀ s port k, k < 64 → s.mayWrite (.pf port) (semReg k) = true →
    (s.semOwner k = 0 → ∃ t, exec (.semaphoreAcquire port k) s = .next t ∧ t.semOwner k = port + 1 ∧ ∀ j, j ≠ k → t.semOwner j = s.semOwner j) ∧
    (s.semOwner k = port + 1 → ∃ t, exec (.semaphoreRelease port k) s = .next t ∧ t.semOwner k = 0 ∧ ∀ j, j ≠ k → t.semOwner j = s.semOwner j)) ∧
  (∀ s port p, p < 2 → port ≠ p → s.mayWrite (.pf port) (portCtl p) = true → (s.hostPort p).frz = true →
    ∃ t, exec (.portUnfreeze port p) s = .next t ∧ (t.hostPort p).frz = false ∧ ∀ fn vec, .irq p fn vec true ∉ t.out) ∧
  (∀ s port fn, port < 2 → 1 ≤ fn → fn ≤ 32 → (s.hostPort port).frz = false → s.power.tripped = false → s.settled = true →
    ∃ t, exec (.functionLevelReset port fn) s = .next t ∧ ∀ c < 1024, s.assigned (0x1000 + 4 * c) = (fn, port) → (t.ctx c).live = false) ∧
  (∀ s port off v, off < 2 ^ 32 → port < 2 → s.power.tripped = false → (s.hostPort port).frz = false →
    exec (.hostWrite port (.bar0 0 off v)) s = exec (.registerWrite (.pf port) (devBase + off) v) s) ∧
  (∀ s port fn vec, port < 2 → fn ≤ 32 → vec < (if fn = 0 then 2048 else 64) → s.power.tripped = false → s.portOpen port = true →
    (∃ t, exec (.hostWrite port (.msix fn vec true)) s = .next t ∧ NSet.has (t.hostPort port).opened (2048 * fn + vec) = false ∧ t.out = s.out) ∧
    ∃ t, exec (.hostWrite port (.msix fn vec false)) s = .next t ∧ NSet.has (t.hostPort port).opened (2048 * fn + vec) = true ∧
      NSet.has (t.hostPort port).pending (2048 * fn + vec) = false ∧
      t.out = (if NSet.has (s.hostPort port).pending (2048 * fn + vec) = true then s.out ++ [.irq port fn vec false] else s.out)) ∧
  (∀ s port off n, port < 2 → s.power.tripped = false → (s.hostPort port).frz = true →
    exec (.hostWrite port (.bar0Read n off)) s = .next { s with out := s.out ++ [.abort port] } ∧
    exec (.hostWrite port (.bar2Read off n)) s = .next { s with out := s.out ++ [.abort port] }) ∧
  (∀ s port off data, port < 2 → s.power.tripped = false → s.portOpen port = true → s.inBar2 port off data.length = true → data.length ≤ 512 →
    let pa := s.bar2 port off
    pa + data.length ≤ 2 ^ 40 → s.settled = true → (∀ c, s.muslinMode c = 0) →
    (s.guarded port pa = false → s.guarded port (pa + data.length - 1) = false →
      ∃ t, exec (.hostWrite port (.bar2 off data)) s = .next t ∧ (∀ i < data.length, (t.pathByte .host (pa + i)).1 = data.getD i 0) ∧
        ∀ a p, p ≠ .host ∨ a < pa ∨ pa + data.length ≤ a → t.pathByte p a = s.pathByte p a) ∧
    (s.guarded port pa = true → ∃ t, exec (.hostWrite port (.bar2 off data)) s = .next t ∧ (t.hostPort port).frz = true ∧ (t.hostPort port).addr = pa / 4096 ∧
      s.sameBytes t)) ∧
  (∀ s port off n, port < 2 → s.power.tripped = false → s.portOpen port = true → s.inBar2 port off n = true → n ≤ 4096 → s.bar2 port off + n ≤ 2 ^ 40 →
    ∃ t, exec (.hostWrite port (.bar2Read off n)) s = .next t ∧ s.sameBytes t ∧
      .hostRead port (s.bar2 port off) ((List.range n).map (fun i => (s.pathByte .host (s.bar2 port off + i)).1)) ∈ t.out) ∧
  (∀ s who q v, q < 1024 → s.boot.recov = false → s.mayWrite who (queueBlock q) = true → s.settled = true →
    ∃ t, exec (.registerWrite who (queueBlock q) v) s = .next t ∧ bits64 (t.reg (queueBlock q)) 51 12 = bits64 v 51 12 ∧
      ∀ a, a ≠ queueBlock q → t.rd a = s.rd a) ∧
  (∀ s k, s.mayRead .fw (tenantReg k) = true → k < 64 → ∃ t, exec (.tenantFailsRead .fw k) s = .next t ∧ SMap.get t.fails k 0 = 0) ∧
  (∀ s c, ∃ t, exec (.tenantFailsRead (.gang c) (s.tenantOf c)) s = .next t ∧ SMap.get t.fails (s.tenantOf c) 0 = 0) ∧
  (∀ s who pp, pp < 2 → s.mayRead who (portBlock pp) = true →
    (∃ t, exec (.portCounterRead who pp 0x08) s = .next t ∧ (t.port pp).unmatched = 0 ∧ (t.port pp).full = 0 ∧ (t.port pp).long = (s.port pp).long) ∧
    (∃ t, exec (.portCounterRead who pp 0x10) s = .next t ∧ (t.port pp).long = 0 ∧ (t.port pp).nospawn = 0 ∧ (t.port pp).full = (s.port pp).full)) ∧
  (∀ s who, s.mayRead who powerBlock = true → ∃ t, exec (.throttleCountRead who) s = .next t ∧ t.power.thr = 0) ∧
  (∀ s who core n v, core < 256 → n < 8 → s.mayWrite who (counterBlock core + 16 * n + 8) = true →
    ∃ t, exec (.counterValueWrite who core n v) s = .next t ∧ bits64 (t.reg (counterBlock core + 16 * n + 8)) 47 0 = bits64 v 47 0) ∧
  (∀ s who core v, core < 256 → s.mayWrite who (counterBlock core + 0x80) = true → v.getLsbD 11 = true →
    ∃ t, exec (.ginghamClear who core v) s = .next t ∧ (t.core core).gingham = []) ∧
  (∀ s who core v, core < 256 → s.mayWrite who (counterBlock core + 0x900) = true →
    (v.getLsbD 2 = true → bits64 v 1 0 ≠ 0 → (s.core core).stopped = false → (s.core core).stop = none →
      ∃ t, exec (.debugStop who core v) s = .next t ∧ (t.core core).stop = some (s.cycle + 64) ∧ (t.core core).stopDec = bits64 v 1 0) ∧
    (v.getLsbD 3 = true → v.getLsbD 2 = false → (s.core core).stopped = true →
      ∃ t, exec (.debugGo who core v) s = .next t ∧ (t.core core).tick.stopped = false ∧
        ∀ g, g.inSlot = true → g.gcore = core → (t.gangTick g).iss.stopped = false)) ∧
  (∀ s core, (s.core core).stop ≠ none → (s.core core).freeze = 0 → s.issuedUnder (s.core core) = false →
    ∃ t, exec (.debugStopEffect core) s = .next t ∧ (t.core core).stopped = true ∧ (t.core core).stop = none ∧
      ∀ g ∈ t.gangs, g.inSlot = true → g.gcore = core → underStop (s.core core).stopDec g = true → g.iss.yieldReq = false → g.iss.yielding = false → g.iss.exiting = false →
        g.iss.stopped = true) ∧
  (∀ s who core v g ix who', core < 256 → s.mayWrite who (counterBlock core + 0x918) = true → s.dbGang core = some (g, 1, ix, who') → ix < 64 →
    ∃ t g', exec (.debugDataWrite who core v) s = .next t ∧ t.gang? g.uid = some g' ∧ g'.regs.s.get ix = v ∧ (t.core core).dberr = false)

/-- Ports, time, boot and power (R399 to R402, R404, R414, R425, R430 to R433, R435, R437): links, filters, frames, messages of the 1588 clock; the
adjustment, setting and latching of device time; reset, a cycle of the power after a thermal trip, recovery, update, the report with its nonce, the
rollback floor; the clock's step and the thermal stop; and an input that a replay takes from its log. A frame that no filter matches is counted at its
first byte, whatever its check sequence will be: the model's reading (assumption 70). That main memory outlives a reset is the model's reading
(assumption 9); the EtherTypes are presumed (assumption 71); what a log entry holds is the model's choice (assumption 78). -/
def Obligations.PlatformEvents : Prop :=
  (∀ s who pp v, pp < 2 → s.mayWrite who (portBlock pp) = true → (s.reg (portBlock pp)).getLsbD 0 ≠ v.getLsbD 0 →
    ∃ t, exec (.portBreakout who pp v) s = .next t ∧ (t.reg (portBlock pp)).getLsbD 0 = v.getLsbD 0 ∧ (t.port pp).up = 0) ∧
  (∀ s lport, lport < 8 → (s.lportExists lport = true → ∃ t, exec (.linkUp lport) s = .next t ∧ t.portUp lport = true) ∧
    ∃ t, exec (.linkDown lport) s = .next t ∧ t.portUp lport = false) ∧
  (∀ s who pp f v, pp < 2 → f < 8 → s.mayWrite who (filterReg pp f 0) = true → (s.filterWord pp f 0).getLsbD 0 = false → v.getLsbD 0 = true →
    (s.setBits (filterReg pp f 0) (bitMask 2 1 ||| bitMask 34 4 ||| bitMask 36 36) v).filterOk pp f = true →
    ∃ t, exec (.filterEnable who pp f v) s = .next t ∧ (t.filterWord pp f 0).getLsbD 0 = true ∧ t.filterCur pp f = bits64 (s.filterWord pp f 1) 15 8 ∧
      NSet.has (t.port pp).ferr f = false) ∧
  (∀ s lport frame, s.portUp lport = true → SMap.find (s.port (lport / 4)).rx (lport % 4) = none → frame.length ≤ 9216 → etherType frame ≠ 0x8808 →
    s.ptpTakes lport frame = false →
    let pp := lport / 4
    ((∀ f < 8, s.filterMatches lport f frame = false) → ∃ t, exec (.frameFirstByte lport frame) s = .next t ∧
      (t.port pp).unmatched = min (2 ^ 32 - 1) ((s.port pp).unmatched + 1)) ∧
    (∀ f, (List.range 8).find? (fun f => s.filterMatches lport f frame) = some f → 64 + frame.length ≤ 2048 →
      64 + frame.length ≤ (s.tile (s.filterCore pp f) (s.filterCur pp f)).bytes → s.ringOpen pp f = true → s.filterYields pp f = false →
      ∃ t r, exec (.frameFirstByte lport frame) s = .next t ∧ SMap.find (t.port pp).rx (lport % 4) = some r ∧ r.frame = frame ∧ r.filter = f ∧
        r.time = s.clock.t ∧ (t.tile (s.filterCore pp f) (s.filterCur pp f)).state = 1)) ∧
  (∀ s lport r, SMap.find (s.port (lport / 4)).rx (lport % 4) = some r →
    let core := 32 * r.cluster + r.core
    (s.tile core r.entry).defd = true → (s.tile core r.entry).state = 1 → (s.tile core r.entry).filler = 0 → s.settled = true → r.ended = none →
    (s.core core).frozen = false →
    (64 + r.frame.length ≤ 2048 → 64 + r.frame.length ≤ (s.tile core r.entry).bytes → ∃ t, exec (.frameEnd lport true) s = .next t ∧ (t.tile core r.entry).state = 2 ∧ (t.tile core r.entry).len = 64 + r.frame.length ∧
      SMap.get (t.port (lport / 4)).cur r.filter 0 = (s.tile core r.entry).next) ∧
    (∀ good, 2048 < 64 + r.frame.length ∨ (s.tile core r.entry).bytes < 64 + r.frame.length → ∃ t, exec (.frameEnd lport good) s = .next t ∧
      (t.tile core r.entry).state = 0 ∧ (t.port (lport / 4)).long = min (2 ^ 32 - 1) ((s.port (lport / 4)).long + 1)) ∧
    ∃ t, exec (.frameEnd lport false) s = .next t ∧ (t.tile core r.entry).state = 0) ∧
  (∀ s lport frame, s.portUp lport = true → s.ptpTakes lport frame = true →
    ∃ t, exec (.ptpMessage lport frame) s = .next t ∧ t.ptpIn = s.ptpIn ++ [(s.clock.t, frame)]) ∧
  (∀ s who v, s.mayWrite who (timeBlock + 0x10) = true → s.slaved who = false →
    (0 ≤ toSigned 32 (bits64 v 31 0) → ∃ t, exec (.timeAdjust who v) s = .next t ∧
      t.clock = { s.clock with t := timeWrap (s.clock.t + (toSigned 32 (bits64 v 31 0)).toNat * 65536) }) ∧
    (toSigned 32 (bits64 v 31 0) < 0 → ∃ t, exec (.timeAdjust who v) s = .next t ∧ t.clock.t = s.clock.t ∧ t.clock.slewOn = true)) ∧
  (∀ s who v, s.mayWrite who (timeBlock + 0x20) = true → s.clock.tvalid = false → bits64 v 31 0 ≤ 999999999 →
    ∃ t, exec (.timeSet who v) s = .next t ∧ t.clock.tvalid = true ∧ timeDl t.clock.t = v) ∧
  (∀ s who, s.mayRead who timeBlock = true → ∃ t, exec (.deviceTimeLatchRead who) s = .next t ∧ t.clock.latch = BitVec.ofNat 32 (timeSec s.clock.t / 2 ^ 32 + 2 ^ 16 * timeFrac s.clock.t)) ∧
  (∀ s, s.clock.slewOn = true → s.clock.slew = 0 → ∃ t, exec .timeSlewEnd s = .next t ∧ t.clock = { s.clock with slewOn := false }) ∧
  (∀ s, s.power.tripped = false → ∃ t, exec .moduleReset s = .next t ∧ t.dram = s.dram ∧ t.gangs = [] ∧ t.cores = [] ∧ t.ctxs = [] ∧ t.queues = [] ∧ t.dev = [] ∧ t.slices = [] ∧ t.clock = {} ∧
    t.boot.image0 = s.boot.image0 ∧ t.boot.image1 = s.boot.image1 ∧ t.boot.floor = s.boot.floor) ∧
  (∀ s, s.power.tripped = true → exec .moduleReset s = .next s ∧ ∃ t, s.take .powerOn = .next t ∧ t.power = {} ∧ t.dram = s.dram ∧ t.gangs = [] ∧ t.cores = [] ∧ t.ctxs = []) ∧
  (∀ s p, s.boot.recov = true → p < 2 → s.power.tripped = false →
    ∃ t, exec (.recoveryProgram (.pf p)) s = .next t ∧ t.boot.image1 = s.recovered ∧ t.gangs = []) ∧
  (∀ s image, s.boot.ready = true → ∃ t, exec (.firmwareUpdate image) s = .next t ∧ t = { s with boot := { s.boot with image0 := image } }) ∧
  (∀ s who, s.boot.busy = true ∨ s.mayWrite who attestBlock = true →
    ∃ t, exec (.attestationReport who) s = .next t ∧ t.boot.busy = false ∧ t.boot.report.length = 208 ∧ (t.boot.report.drop 64).take 32 = nonce s) ∧
  (∀ s p, s.mayWrite (.pf p) attestBlock = true → s.boot.busy = false →
    ∃ t, exec (.raiseRollbackFloor (.pf p)) s = .next t ∧ t.boot.floor.toNat = max s.boot.floor.toNat s.boot.rbidx.toNat) ∧
  (∀ s step, step ≤ 15 → (s.power.step < step → s.mustSlow = true) → (step < s.power.step → s.mustSlow = false) →
    let power := decide (bits64 (s.rd powerBlock) 10 0 < s.power.pwr)
    let junction := decide (100 < s.power.tj)
    let coolant := decide (45 < s.power.inlet)
    ∃ t, exec (.throttleChange step power junction coolant) s = .next t ∧ t.power.step = step ∧ t.power.rpwr = power ∧ t.power.rtemp = junction ∧
      t.power.rcool = coolant ∧ t.power.thr = (if step = s.power.step then s.power.thr else min (2 ^ 32 - 1) (s.power.thr + 1))) ∧
  (∀ s, 110 ≤ s.power.tj → ∃ t, exec .thermalTrip s = .next t ∧ t.power.tripped = true ∧ t.gangs = [] ∧ t.boot.ready = false ∧ t.dram = s.dram) ∧
  (∀ s port, port < 12 → ∃ t, exec (.fabricLinkDown port) s = .next t ∧ SMap.get t.links port 0 = min (2 ^ 64 - 1) (SMap.get s.links port 0 + 1) ∧
    ∀ p, p ≠ port → SMap.get t.links p 0 = SMap.get s.links p 0) ∧
  (∀ s ctx k e, s.nextEntry ctx (fun e => e.kind ≤ 4) = some (k, e) → e.kind = 3 → s.settled = true →
    ∃ t, exec (.muslinReplayInjection ctx) s = .next t ∧
      ∀ i < min (e.fields.getD 1 0) (s.payload ctx k e).length, (t.pathByte .host (e.fields.getD 0 0 + i)).1 = (s.payload ctx k e).getD i 0)

/-- Main memory keeps its canonical form: addresses rise strictly, and no listed byte is the zero that an unlisted one reads as (the model's form of
R83; assumption 1), whatever a step does. -/
def Obligations.MemoryStaysCanonical : Prop :=
  ∀ s t : State, Memory.wf s.dram = true → step s = .next t → Memory.wf t.dram = true
end

