-- ==== Sys2Proof/Laws/Map.lean ====
section
/-! SUPPORT. The laws of the finite maps and sets: what a key reads after a write or a removal, and that the keys stay in order. -/

namespace Sys2Proof.Machine

/-! ## Reading after writing -/

theorem SMap.find_set_same {α : Type} (m : SMap α) (k : Nat) (a : α) : SMap.find (SMap.set m k a) k = some a := by
  induction m with
  | nil => simp [SMap.set, SMap.find]
  | cons x m ih =>
    obtain ⟨j, b⟩ := x
    simp only [SMap.set]
    split
    · simp [SMap.find]
    · split
      · simp [SMap.find]
      · next h => simp [SMap.find, Ne.symm h, ih]

theorem SMap.find_set_ne {α : Type} (m : SMap α) {k x : Nat} (a : α) (h : k ≠ x) :
    SMap.find (SMap.set m k a) x = SMap.find m x := by
  induction m with
  | nil => simp [SMap.set, SMap.find, h]
  | cons y m ih =>
    obtain ⟨j, b⟩ := y
    simp only [SMap.set]
    split
    · simp [SMap.find, h]
    · split
      · next hk => subst hk; simp [SMap.find, h]
      · simp only [SMap.find, ih]

theorem SMap.find_set {α : Type} (m : SMap α) (k x : Nat) (a : α) :
    SMap.find (SMap.set m k a) x = if k = x then some a else SMap.find m x := by
  split
  · next h => subst h; exact SMap.find_set_same m k a
  · next h => exact SMap.find_set_ne m a h

@[simp] theorem SMap.get_set_same {α : Type} (m : SMap α) (k : Nat) (a d : α) : SMap.get (SMap.set m k a) k d = a := by
  simp [SMap.get, SMap.find_set_same]

theorem SMap.get_set_ne {α : Type} (m : SMap α) {k x : Nat} (a d : α) (h : k ≠ x) :
    SMap.get (SMap.set m k a) x d = SMap.get m x d := by
  simp [SMap.get, SMap.find_set_ne m a h]

theorem SMap.get_set {α : Type} (m : SMap α) (k x : Nat) (a d : α) :
    SMap.get (SMap.set m k a) x d = if k = x then a else SMap.get m x d := by
  split
  · next h => subst h; simp
  · next h => exact SMap.get_set_ne m a d h

theorem SMap.find_upd {α : Type} (m : SMap α) (k x : Nat) (d : α) (f : α → α) :
    SMap.find (SMap.upd m k d f) x = if k = x then some (f (SMap.get m k d)) else SMap.find m x := by
  simp [SMap.upd, SMap.find_set]

theorem SMap.find_erase_ne {α : Type} (m : SMap α) {k x : Nat} (h : k ≠ x) : SMap.find (SMap.erase m k) x = SMap.find m x := by
  induction m with
  | nil => rfl
  | cons y m ih =>
    obtain ⟨j, b⟩ := y
    simp only [SMap.erase]
    split
    · next hk => subst hk; simp [SMap.find, h]
    · simp only [SMap.find, ih]

/-! ## Keys in order -/

/-- The form of a map under a lower bound. -/
theorem SMap.sortedFrom_mono {α : Type} {m : SMap α} {lo lo' : Nat} (h : SMap.sortedFrom lo m = true) (hl : lo' ≤ lo) :
    SMap.sortedFrom lo' m = true := by
  cases m with
  | nil => rfl
  | cons x m =>
    simp only [SMap.sortedFrom, Bool.and_eq_true, decide_eq_true_eq] at h ⊢
    exact ⟨Nat.le_trans hl h.1, h.2⟩

theorem SMap.sortedFrom_set {α : Type} {m : SMap α} {lo k : Nat} (a : α) (h : SMap.sortedFrom lo m = true) (hk : lo ≤ k) :
    SMap.sortedFrom lo (SMap.set m k a) = true := by
  induction m generalizing lo with
  | nil => simp [SMap.set, SMap.sortedFrom, hk]
  | cons x m ih =>
    obtain ⟨j, b⟩ := x
    simp only [SMap.sortedFrom, Bool.and_eq_true, decide_eq_true_eq] at h
    simp only [SMap.set]
    split
    · next hlt => simp [SMap.sortedFrom, hk, h.2]; exact hlt
    · split
      · next he => subst he; simp [SMap.sortedFrom, hk, h.2]
      · simp only [SMap.sortedFrom, Bool.and_eq_true, decide_eq_true_eq]
        exact ⟨h.1, ih h.2 (by omega)⟩

theorem SMap.sorted_set {α : Type} {m : SMap α} (k : Nat) (a : α) (h : SMap.sorted m = true) : SMap.sorted (SMap.set m k a) = true :=
  SMap.sortedFrom_set a h (Nat.zero_le _)

theorem SMap.sortedFrom_erase {α : Type} {m : SMap α} {lo : Nat} (k : Nat) (h : SMap.sortedFrom lo m = true) :
    SMap.sortedFrom lo (SMap.erase m k) = true := by
  induction m generalizing lo with
  | nil => rfl
  | cons x m ih =>
    obtain ⟨j, b⟩ := x
    simp only [SMap.sortedFrom, Bool.and_eq_true, decide_eq_true_eq] at h
    simp only [SMap.erase]
    split
    · exact SMap.sortedFrom_mono h.2 (by omega)
    · simp only [SMap.sortedFrom, Bool.and_eq_true, decide_eq_true_eq]
      exact ⟨h.1, ih h.2⟩

theorem SMap.sorted_erase {α : Type} {m : SMap α} (k : Nat) (h : SMap.sorted m = true) : SMap.sorted (SMap.erase m k) = true :=
  SMap.sortedFrom_erase k h

/-- A key below the bound is not listed. -/
theorem SMap.find_below {α : Type} {m : SMap α} {lo k : Nat} (h : SMap.sortedFrom lo m = true) (hk : k < lo) : SMap.find m k = none := by
  induction m generalizing lo with
  | nil => rfl
  | cons x m ih =>
    obtain ⟨j, b⟩ := x
    simp only [SMap.sortedFrom, Bool.and_eq_true, decide_eq_true_eq] at h
    have hj : j ≠ k := by omega
    simp [SMap.find, hj, ih h.2 (by omega)]

theorem SMap.find_erase_same {α : Type} {m : SMap α} {lo k : Nat} (h : SMap.sortedFrom lo m = true) :
    SMap.find (SMap.erase m k) k = none := by
  induction m generalizing lo with
  | nil => rfl
  | cons x m ih =>
    obtain ⟨j, b⟩ := x
    simp only [SMap.sortedFrom, Bool.and_eq_true, decide_eq_true_eq] at h
    simp only [SMap.erase]
    split
    · next hj => subst hj; exact SMap.find_below h.2 (by omega)
    · next hj => simp [SMap.find, hj, ih h.2]

/-! ## Sets -/

theorem NSet.mem_add (l : NSet) (x y : Nat) : y ∈ NSet.add l x ↔ y = x ∨ y ∈ l := by
  induction l with
  | nil => simp [NSet.add]
  | cons z l ih =>
    simp only [NSet.add]
    split
    · simp
    · split
      · next h => subst h; simp
      · simp [ih]; tauto

theorem NSet.has_iff (l : NSet) (x : Nat) : NSet.has l x = true ↔ x ∈ l := by
  simp [NSet.has, List.any_eq_true]

theorem NSet.mem_del (l : NSet) (x y : Nat) : y ∈ NSet.del l x ↔ y ∈ l ∧ y ≠ x := by
  simp [NSet.del, List.mem_filter]

end Sys2Proof.Machine
end

