-- ==== Sys2Proof/Laws/State.lean ====
section
/-! SUPPORT. What each named update of the state changes: one lemma for each update and field, and what a core, slice, context or queue
reads after its own update. -/

namespace Sys2Proof.Machine

/-! ## State.setReg -/

@[simp] theorem State.setReg_cycle (s : State) (a : Nat) (v : Word64) : (s.setReg a v).cycle = s.cycle := rfl
@[simp] theorem State.setReg_clock (s : State) (a : Nat) (v : Word64) : (s.setReg a v).clock = s.clock := rfl
@[simp] theorem State.setReg_tape (s : State) (a : Nat) (v : Word64) : (s.setReg a v).tape = s.tape := rfl
@[simp] theorem State.setReg_turn (s : State) (a : Nat) (v : Word64) : (s.setReg a v).turn = s.turn := rfl
@[simp] theorem State.setReg_note (s : State) (a : Nat) (v : Word64) : (s.setReg a v).note = s.note := rfl
@[simp] theorem State.setReg_draw (s : State) (a : Nat) (v : Word64) : (s.setReg a v).draw = s.draw := rfl
@[simp] theorem State.setReg_next (s : State) (a : Nat) (v : Word64) : (s.setReg a v).next = s.next := rfl
@[simp] theorem State.setReg_gangs (s : State) (a : Nat) (v : Word64) : (s.setReg a v).gangs = s.gangs := rfl
@[simp] theorem State.setReg_cores (s : State) (a : Nat) (v : Word64) : (s.setReg a v).cores = s.cores := rfl
@[simp] theorem State.setReg_flights (s : State) (a : Nat) (v : Word64) : (s.setReg a v).flights = s.flights := rfl
@[simp] theorem State.setReg_dram (s : State) (a : Nat) (v : Word64) : (s.setReg a v).dram = s.dram := rfl
@[simp] theorem State.setReg_dpoison (s : State) (a : Nat) (v : Word64) : (s.setReg a v).dpoison = s.dpoison := rfl
@[simp] theorem State.setReg_slices (s : State) (a : Nat) (v : Word64) : (s.setReg a v).slices = s.slices := rfl
@[simp] theorem State.setReg_owners (s : State) (a : Nat) (v : Word64) : (s.setReg a v).owners = s.owners := rfl
@[simp] theorem State.setReg_paths (s : State) (a : Nat) (v : Word64) : (s.setReg a v).paths = s.paths := rfl
@[simp] theorem State.setReg_scores (s : State) (a : Nat) (v : Word64) : (s.setReg a v).scores = s.scores := rfl
@[simp] theorem State.setReg_fails (s : State) (a : Nat) (v : Word64) : (s.setReg a v).fails = s.fails := rfl
@[simp] theorem State.setReg_audits (s : State) (a : Nat) (v : Word64) : (s.setReg a v).audits = s.audits := rfl
@[simp] theorem State.setReg_ctxs (s : State) (a : Nat) (v : Word64) : (s.setReg a v).ctxs = s.ctxs := rfl
@[simp] theorem State.setReg_queues (s : State) (a : Nat) (v : Word64) : (s.setReg a v).queues = s.queues := rfl
@[simp] theorem State.setReg_launches (s : State) (a : Nat) (v : Word64) : (s.setReg a v).launches = s.launches := rfl
@[simp] theorem State.setReg_cmds (s : State) (a : Nat) (v : Word64) : (s.setReg a v).cmds = s.cmds := rfl
@[simp] theorem State.setReg_turns (s : State) (a : Nat) (v : Word64) : (s.setReg a v).turns = s.turns := rfl
@[simp] theorem State.setReg_placed (s : State) (a : Nat) (v : Word64) : (s.setReg a v).placed = s.placed := rfl
@[simp] theorem State.setReg_wrote (s : State) (a : Nat) (v : Word64) : (s.setReg a v).wrote = s.wrote := rfl
@[simp] theorem State.setReg_wrapped (s : State) (a : Nat) (v : Word64) : (s.setReg a v).wrapped = s.wrapped := rfl
@[simp] theorem State.setReg_dev (s : State) (a : Nat) (v : Word64) : (s.setReg a v).dev = SMap.set s.dev a v := rfl
@[simp] theorem State.setReg_ports (s : State) (a : Nat) (v : Word64) : (s.setReg a v).ports = s.ports := rfl
@[simp] theorem State.setReg_percale (s : State) (a : Nat) (v : Word64) : (s.setReg a v).percale = s.percale := rfl
@[simp] theorem State.setReg_worlds (s : State) (a : Nat) (v : Word64) : (s.setReg a v).worlds = s.worlds := rfl
@[simp] theorem State.setReg_sems (s : State) (a : Nat) (v : Word64) : (s.setReg a v).sems = s.sems := rfl
@[simp] theorem State.setReg_hosts (s : State) (a : Nat) (v : Word64) : (s.setReg a v).hosts = s.hosts := rfl
@[simp] theorem State.setReg_asgErr (s : State) (a : Nat) (v : Word64) : (s.setReg a v).asgErr = s.asgErr := rfl
@[simp] theorem State.setReg_winErr (s : State) (a : Nat) (v : Word64) : (s.setReg a v).winErr = s.winErr := rfl
@[simp] theorem State.setReg_windows (s : State) (a : Nat) (v : Word64) : (s.setReg a v).windows = s.windows := rfl
@[simp] theorem State.setReg_exports (s : State) (a : Nat) (v : Word64) : (s.setReg a v).exports = s.exports := rfl
@[simp] theorem State.setReg_links (s : State) (a : Nat) (v : Word64) : (s.setReg a v).links = s.links := rfl
@[simp] theorem State.setReg_flits (s : State) (a : Nat) (v : Word64) : (s.setReg a v).flits = s.flits := rfl
@[simp] theorem State.setReg_tlbs (s : State) (a : Nat) (v : Word64) : (s.setReg a v).tlbs = s.tlbs := rfl
@[simp] theorem State.setReg_pointers (s : State) (a : Nat) (v : Word64) : (s.setReg a v).pointers = s.pointers := rfl
@[simp] theorem State.setReg_ptp (s : State) (a : Nat) (v : Word64) : (s.setReg a v).ptp = s.ptp := rfl
@[simp] theorem State.setReg_ptpIn (s : State) (a : Nat) (v : Word64) : (s.setReg a v).ptpIn = s.ptpIn := rfl
@[simp] theorem State.setReg_boot (s : State) (a : Nat) (v : Word64) : (s.setReg a v).boot = s.boot := rfl
@[simp] theorem State.setReg_power (s : State) (a : Nat) (v : Word64) : (s.setReg a v).power = s.power := rfl
@[simp] theorem State.setReg_out (s : State) (a : Nat) (v : Word64) : (s.setReg a v).out = s.out := rfl
@[simp] theorem State.setReg_logs (s : State) (a : Nat) (v : Word64) : (s.setReg a v).logs = s.logs := rfl

/-! ## State.modCore -/

@[simp] theorem State.modCore_cycle (s : State) (c : Nat) (f : Core → Core) : (s.modCore c f).cycle = s.cycle := rfl
@[simp] theorem State.modCore_clock (s : State) (c : Nat) (f : Core → Core) : (s.modCore c f).clock = s.clock := rfl
@[simp] theorem State.modCore_tape (s : State) (c : Nat) (f : Core → Core) : (s.modCore c f).tape = s.tape := rfl
@[simp] theorem State.modCore_turn (s : State) (c : Nat) (f : Core → Core) : (s.modCore c f).turn = s.turn := rfl
@[simp] theorem State.modCore_note (s : State) (c : Nat) (f : Core → Core) : (s.modCore c f).note = s.note := rfl
@[simp] theorem State.modCore_draw (s : State) (c : Nat) (f : Core → Core) : (s.modCore c f).draw = s.draw := rfl
@[simp] theorem State.modCore_next (s : State) (c : Nat) (f : Core → Core) : (s.modCore c f).next = s.next := rfl
@[simp] theorem State.modCore_gangs (s : State) (c : Nat) (f : Core → Core) : (s.modCore c f).gangs = s.gangs := rfl
@[simp] theorem State.modCore_cores (s : State) (c : Nat) (f : Core → Core) : (s.modCore c f).cores = SMap.set s.cores c (f (s.core c)) := rfl
@[simp] theorem State.modCore_flights (s : State) (c : Nat) (f : Core → Core) : (s.modCore c f).flights = s.flights := rfl
@[simp] theorem State.modCore_dram (s : State) (c : Nat) (f : Core → Core) : (s.modCore c f).dram = s.dram := rfl
@[simp] theorem State.modCore_dpoison (s : State) (c : Nat) (f : Core → Core) : (s.modCore c f).dpoison = s.dpoison := rfl
@[simp] theorem State.modCore_slices (s : State) (c : Nat) (f : Core → Core) : (s.modCore c f).slices = s.slices := rfl
@[simp] theorem State.modCore_owners (s : State) (c : Nat) (f : Core → Core) : (s.modCore c f).owners = s.owners := rfl
@[simp] theorem State.modCore_paths (s : State) (c : Nat) (f : Core → Core) : (s.modCore c f).paths = s.paths := rfl
@[simp] theorem State.modCore_scores (s : State) (c : Nat) (f : Core → Core) : (s.modCore c f).scores = s.scores := rfl
@[simp] theorem State.modCore_fails (s : State) (c : Nat) (f : Core → Core) : (s.modCore c f).fails = s.fails := rfl
@[simp] theorem State.modCore_audits (s : State) (c : Nat) (f : Core → Core) : (s.modCore c f).audits = s.audits := rfl
@[simp] theorem State.modCore_ctxs (s : State) (c : Nat) (f : Core → Core) : (s.modCore c f).ctxs = s.ctxs := rfl
@[simp] theorem State.modCore_queues (s : State) (c : Nat) (f : Core → Core) : (s.modCore c f).queues = s.queues := rfl
@[simp] theorem State.modCore_launches (s : State) (c : Nat) (f : Core → Core) : (s.modCore c f).launches = s.launches := rfl
@[simp] theorem State.modCore_cmds (s : State) (c : Nat) (f : Core → Core) : (s.modCore c f).cmds = s.cmds := rfl
@[simp] theorem State.modCore_turns (s : State) (c : Nat) (f : Core → Core) : (s.modCore c f).turns = s.turns := rfl
@[simp] theorem State.modCore_placed (s : State) (c : Nat) (f : Core → Core) : (s.modCore c f).placed = s.placed := rfl
@[simp] theorem State.modCore_wrote (s : State) (c : Nat) (f : Core → Core) : (s.modCore c f).wrote = s.wrote := rfl
@[simp] theorem State.modCore_wrapped (s : State) (c : Nat) (f : Core → Core) : (s.modCore c f).wrapped = s.wrapped := rfl
@[simp] theorem State.modCore_dev (s : State) (c : Nat) (f : Core → Core) : (s.modCore c f).dev = s.dev := rfl
@[simp] theorem State.modCore_ports (s : State) (c : Nat) (f : Core → Core) : (s.modCore c f).ports = s.ports := rfl
@[simp] theorem State.modCore_percale (s : State) (c : Nat) (f : Core → Core) : (s.modCore c f).percale = s.percale := rfl
@[simp] theorem State.modCore_worlds (s : State) (c : Nat) (f : Core → Core) : (s.modCore c f).worlds = s.worlds := rfl
@[simp] theorem State.modCore_sems (s : State) (c : Nat) (f : Core → Core) : (s.modCore c f).sems = s.sems := rfl
@[simp] theorem State.modCore_hosts (s : State) (c : Nat) (f : Core → Core) : (s.modCore c f).hosts = s.hosts := rfl
@[simp] theorem State.modCore_asgErr (s : State) (c : Nat) (f : Core → Core) : (s.modCore c f).asgErr = s.asgErr := rfl
@[simp] theorem State.modCore_winErr (s : State) (c : Nat) (f : Core → Core) : (s.modCore c f).winErr = s.winErr := rfl
@[simp] theorem State.modCore_windows (s : State) (c : Nat) (f : Core → Core) : (s.modCore c f).windows = s.windows := rfl
@[simp] theorem State.modCore_exports (s : State) (c : Nat) (f : Core → Core) : (s.modCore c f).exports = s.exports := rfl
@[simp] theorem State.modCore_links (s : State) (c : Nat) (f : Core → Core) : (s.modCore c f).links = s.links := rfl
@[simp] theorem State.modCore_flits (s : State) (c : Nat) (f : Core → Core) : (s.modCore c f).flits = s.flits := rfl
@[simp] theorem State.modCore_tlbs (s : State) (c : Nat) (f : Core → Core) : (s.modCore c f).tlbs = s.tlbs := rfl
@[simp] theorem State.modCore_pointers (s : State) (c : Nat) (f : Core → Core) : (s.modCore c f).pointers = s.pointers := rfl
@[simp] theorem State.modCore_ptp (s : State) (c : Nat) (f : Core → Core) : (s.modCore c f).ptp = s.ptp := rfl
@[simp] theorem State.modCore_ptpIn (s : State) (c : Nat) (f : Core → Core) : (s.modCore c f).ptpIn = s.ptpIn := rfl
@[simp] theorem State.modCore_boot (s : State) (c : Nat) (f : Core → Core) : (s.modCore c f).boot = s.boot := rfl
@[simp] theorem State.modCore_power (s : State) (c : Nat) (f : Core → Core) : (s.modCore c f).power = s.power := rfl
@[simp] theorem State.modCore_out (s : State) (c : Nat) (f : Core → Core) : (s.modCore c f).out = s.out := rfl
@[simp] theorem State.modCore_logs (s : State) (c : Nat) (f : Core → Core) : (s.modCore c f).logs = s.logs := rfl

/-! ## State.modSlice -/

@[simp] theorem State.modSlice_cycle (s : State) (h : Nat) (f : Slice → Slice) : (s.modSlice h f).cycle = s.cycle := rfl
@[simp] theorem State.modSlice_clock (s : State) (h : Nat) (f : Slice → Slice) : (s.modSlice h f).clock = s.clock := rfl
@[simp] theorem State.modSlice_tape (s : State) (h : Nat) (f : Slice → Slice) : (s.modSlice h f).tape = s.tape := rfl
@[simp] theorem State.modSlice_turn (s : State) (h : Nat) (f : Slice → Slice) : (s.modSlice h f).turn = s.turn := rfl
@[simp] theorem State.modSlice_note (s : State) (h : Nat) (f : Slice → Slice) : (s.modSlice h f).note = s.note := rfl
@[simp] theorem State.modSlice_draw (s : State) (h : Nat) (f : Slice → Slice) : (s.modSlice h f).draw = s.draw := rfl
@[simp] theorem State.modSlice_next (s : State) (h : Nat) (f : Slice → Slice) : (s.modSlice h f).next = s.next := rfl
@[simp] theorem State.modSlice_gangs (s : State) (h : Nat) (f : Slice → Slice) : (s.modSlice h f).gangs = s.gangs := rfl
@[simp] theorem State.modSlice_cores (s : State) (h : Nat) (f : Slice → Slice) : (s.modSlice h f).cores = s.cores := rfl
@[simp] theorem State.modSlice_flights (s : State) (h : Nat) (f : Slice → Slice) : (s.modSlice h f).flights = s.flights := rfl
@[simp] theorem State.modSlice_dram (s : State) (h : Nat) (f : Slice → Slice) : (s.modSlice h f).dram = s.dram := rfl
@[simp] theorem State.modSlice_dpoison (s : State) (h : Nat) (f : Slice → Slice) : (s.modSlice h f).dpoison = s.dpoison := rfl
@[simp] theorem State.modSlice_slices (s : State) (h : Nat) (f : Slice → Slice) : (s.modSlice h f).slices = SMap.set s.slices h (f (s.slice h)) := rfl
@[simp] theorem State.modSlice_owners (s : State) (h : Nat) (f : Slice → Slice) : (s.modSlice h f).owners = s.owners := rfl
@[simp] theorem State.modSlice_paths (s : State) (h : Nat) (f : Slice → Slice) : (s.modSlice h f).paths = s.paths := rfl
@[simp] theorem State.modSlice_scores (s : State) (h : Nat) (f : Slice → Slice) : (s.modSlice h f).scores = s.scores := rfl
@[simp] theorem State.modSlice_fails (s : State) (h : Nat) (f : Slice → Slice) : (s.modSlice h f).fails = s.fails := rfl
@[simp] theorem State.modSlice_audits (s : State) (h : Nat) (f : Slice → Slice) : (s.modSlice h f).audits = s.audits := rfl
@[simp] theorem State.modSlice_ctxs (s : State) (h : Nat) (f : Slice → Slice) : (s.modSlice h f).ctxs = s.ctxs := rfl
@[simp] theorem State.modSlice_queues (s : State) (h : Nat) (f : Slice → Slice) : (s.modSlice h f).queues = s.queues := rfl
@[simp] theorem State.modSlice_launches (s : State) (h : Nat) (f : Slice → Slice) : (s.modSlice h f).launches = s.launches := rfl
@[simp] theorem State.modSlice_cmds (s : State) (h : Nat) (f : Slice → Slice) : (s.modSlice h f).cmds = s.cmds := rfl
@[simp] theorem State.modSlice_turns (s : State) (h : Nat) (f : Slice → Slice) : (s.modSlice h f).turns = s.turns := rfl
@[simp] theorem State.modSlice_placed (s : State) (h : Nat) (f : Slice → Slice) : (s.modSlice h f).placed = s.placed := rfl
@[simp] theorem State.modSlice_wrote (s : State) (h : Nat) (f : Slice → Slice) : (s.modSlice h f).wrote = s.wrote := rfl
@[simp] theorem State.modSlice_wrapped (s : State) (h : Nat) (f : Slice → Slice) : (s.modSlice h f).wrapped = s.wrapped := rfl
@[simp] theorem State.modSlice_dev (s : State) (h : Nat) (f : Slice → Slice) : (s.modSlice h f).dev = s.dev := rfl
@[simp] theorem State.modSlice_ports (s : State) (h : Nat) (f : Slice → Slice) : (s.modSlice h f).ports = s.ports := rfl
@[simp] theorem State.modSlice_percale (s : State) (h : Nat) (f : Slice → Slice) : (s.modSlice h f).percale = s.percale := rfl
@[simp] theorem State.modSlice_worlds (s : State) (h : Nat) (f : Slice → Slice) : (s.modSlice h f).worlds = s.worlds := rfl
@[simp] theorem State.modSlice_sems (s : State) (h : Nat) (f : Slice → Slice) : (s.modSlice h f).sems = s.sems := rfl
@[simp] theorem State.modSlice_hosts (s : State) (h : Nat) (f : Slice → Slice) : (s.modSlice h f).hosts = s.hosts := rfl
@[simp] theorem State.modSlice_asgErr (s : State) (h : Nat) (f : Slice → Slice) : (s.modSlice h f).asgErr = s.asgErr := rfl
@[simp] theorem State.modSlice_winErr (s : State) (h : Nat) (f : Slice → Slice) : (s.modSlice h f).winErr = s.winErr := rfl
@[simp] theorem State.modSlice_windows (s : State) (h : Nat) (f : Slice → Slice) : (s.modSlice h f).windows = s.windows := rfl
@[simp] theorem State.modSlice_exports (s : State) (h : Nat) (f : Slice → Slice) : (s.modSlice h f).exports = s.exports := rfl
@[simp] theorem State.modSlice_links (s : State) (h : Nat) (f : Slice → Slice) : (s.modSlice h f).links = s.links := rfl
@[simp] theorem State.modSlice_flits (s : State) (h : Nat) (f : Slice → Slice) : (s.modSlice h f).flits = s.flits := rfl
@[simp] theorem State.modSlice_tlbs (s : State) (h : Nat) (f : Slice → Slice) : (s.modSlice h f).tlbs = s.tlbs := rfl
@[simp] theorem State.modSlice_pointers (s : State) (h : Nat) (f : Slice → Slice) : (s.modSlice h f).pointers = s.pointers := rfl
@[simp] theorem State.modSlice_ptp (s : State) (h : Nat) (f : Slice → Slice) : (s.modSlice h f).ptp = s.ptp := rfl
@[simp] theorem State.modSlice_ptpIn (s : State) (h : Nat) (f : Slice → Slice) : (s.modSlice h f).ptpIn = s.ptpIn := rfl
@[simp] theorem State.modSlice_boot (s : State) (h : Nat) (f : Slice → Slice) : (s.modSlice h f).boot = s.boot := rfl
@[simp] theorem State.modSlice_power (s : State) (h : Nat) (f : Slice → Slice) : (s.modSlice h f).power = s.power := rfl
@[simp] theorem State.modSlice_out (s : State) (h : Nat) (f : Slice → Slice) : (s.modSlice h f).out = s.out := rfl
@[simp] theorem State.modSlice_logs (s : State) (h : Nat) (f : Slice → Slice) : (s.modSlice h f).logs = s.logs := rfl

/-! ## State.modCtx -/

@[simp] theorem State.modCtx_cycle (s : State) (c : Nat) (f : Ctx → Ctx) : (s.modCtx c f).cycle = s.cycle := rfl
@[simp] theorem State.modCtx_clock (s : State) (c : Nat) (f : Ctx → Ctx) : (s.modCtx c f).clock = s.clock := rfl
@[simp] theorem State.modCtx_tape (s : State) (c : Nat) (f : Ctx → Ctx) : (s.modCtx c f).tape = s.tape := rfl
@[simp] theorem State.modCtx_turn (s : State) (c : Nat) (f : Ctx → Ctx) : (s.modCtx c f).turn = s.turn := rfl
@[simp] theorem State.modCtx_note (s : State) (c : Nat) (f : Ctx → Ctx) : (s.modCtx c f).note = s.note := rfl
@[simp] theorem State.modCtx_draw (s : State) (c : Nat) (f : Ctx → Ctx) : (s.modCtx c f).draw = s.draw := rfl
@[simp] theorem State.modCtx_next (s : State) (c : Nat) (f : Ctx → Ctx) : (s.modCtx c f).next = s.next := rfl
@[simp] theorem State.modCtx_gangs (s : State) (c : Nat) (f : Ctx → Ctx) : (s.modCtx c f).gangs = s.gangs := rfl
@[simp] theorem State.modCtx_cores (s : State) (c : Nat) (f : Ctx → Ctx) : (s.modCtx c f).cores = s.cores := rfl
@[simp] theorem State.modCtx_flights (s : State) (c : Nat) (f : Ctx → Ctx) : (s.modCtx c f).flights = s.flights := rfl
@[simp] theorem State.modCtx_dram (s : State) (c : Nat) (f : Ctx → Ctx) : (s.modCtx c f).dram = s.dram := rfl
@[simp] theorem State.modCtx_dpoison (s : State) (c : Nat) (f : Ctx → Ctx) : (s.modCtx c f).dpoison = s.dpoison := rfl
@[simp] theorem State.modCtx_slices (s : State) (c : Nat) (f : Ctx → Ctx) : (s.modCtx c f).slices = s.slices := rfl
@[simp] theorem State.modCtx_owners (s : State) (c : Nat) (f : Ctx → Ctx) : (s.modCtx c f).owners = s.owners := rfl
@[simp] theorem State.modCtx_paths (s : State) (c : Nat) (f : Ctx → Ctx) : (s.modCtx c f).paths = s.paths := rfl
@[simp] theorem State.modCtx_scores (s : State) (c : Nat) (f : Ctx → Ctx) : (s.modCtx c f).scores = s.scores := rfl
@[simp] theorem State.modCtx_fails (s : State) (c : Nat) (f : Ctx → Ctx) : (s.modCtx c f).fails = s.fails := rfl
@[simp] theorem State.modCtx_audits (s : State) (c : Nat) (f : Ctx → Ctx) : (s.modCtx c f).audits = s.audits := rfl
@[simp] theorem State.modCtx_ctxs (s : State) (c : Nat) (f : Ctx → Ctx) : (s.modCtx c f).ctxs = SMap.set s.ctxs c (f (s.ctx c)) := rfl
@[simp] theorem State.modCtx_queues (s : State) (c : Nat) (f : Ctx → Ctx) : (s.modCtx c f).queues = s.queues := rfl
@[simp] theorem State.modCtx_launches (s : State) (c : Nat) (f : Ctx → Ctx) : (s.modCtx c f).launches = s.launches := rfl
@[simp] theorem State.modCtx_cmds (s : State) (c : Nat) (f : Ctx → Ctx) : (s.modCtx c f).cmds = s.cmds := rfl
@[simp] theorem State.modCtx_turns (s : State) (c : Nat) (f : Ctx → Ctx) : (s.modCtx c f).turns = s.turns := rfl
@[simp] theorem State.modCtx_placed (s : State) (c : Nat) (f : Ctx → Ctx) : (s.modCtx c f).placed = s.placed := rfl
@[simp] theorem State.modCtx_wrote (s : State) (c : Nat) (f : Ctx → Ctx) : (s.modCtx c f).wrote = s.wrote := rfl
@[simp] theorem State.modCtx_wrapped (s : State) (c : Nat) (f : Ctx → Ctx) : (s.modCtx c f).wrapped = s.wrapped := rfl
@[simp] theorem State.modCtx_dev (s : State) (c : Nat) (f : Ctx → Ctx) : (s.modCtx c f).dev = s.dev := rfl
@[simp] theorem State.modCtx_ports (s : State) (c : Nat) (f : Ctx → Ctx) : (s.modCtx c f).ports = s.ports := rfl
@[simp] theorem State.modCtx_percale (s : State) (c : Nat) (f : Ctx → Ctx) : (s.modCtx c f).percale = s.percale := rfl
@[simp] theorem State.modCtx_worlds (s : State) (c : Nat) (f : Ctx → Ctx) : (s.modCtx c f).worlds = s.worlds := rfl
@[simp] theorem State.modCtx_sems (s : State) (c : Nat) (f : Ctx → Ctx) : (s.modCtx c f).sems = s.sems := rfl
@[simp] theorem State.modCtx_hosts (s : State) (c : Nat) (f : Ctx → Ctx) : (s.modCtx c f).hosts = s.hosts := rfl
@[simp] theorem State.modCtx_asgErr (s : State) (c : Nat) (f : Ctx → Ctx) : (s.modCtx c f).asgErr = s.asgErr := rfl
@[simp] theorem State.modCtx_winErr (s : State) (c : Nat) (f : Ctx → Ctx) : (s.modCtx c f).winErr = s.winErr := rfl
@[simp] theorem State.modCtx_windows (s : State) (c : Nat) (f : Ctx → Ctx) : (s.modCtx c f).windows = s.windows := rfl
@[simp] theorem State.modCtx_exports (s : State) (c : Nat) (f : Ctx → Ctx) : (s.modCtx c f).exports = s.exports := rfl
@[simp] theorem State.modCtx_links (s : State) (c : Nat) (f : Ctx → Ctx) : (s.modCtx c f).links = s.links := rfl
@[simp] theorem State.modCtx_flits (s : State) (c : Nat) (f : Ctx → Ctx) : (s.modCtx c f).flits = s.flits := rfl
@[simp] theorem State.modCtx_tlbs (s : State) (c : Nat) (f : Ctx → Ctx) : (s.modCtx c f).tlbs = s.tlbs := rfl
@[simp] theorem State.modCtx_pointers (s : State) (c : Nat) (f : Ctx → Ctx) : (s.modCtx c f).pointers = s.pointers := rfl
@[simp] theorem State.modCtx_ptp (s : State) (c : Nat) (f : Ctx → Ctx) : (s.modCtx c f).ptp = s.ptp := rfl
@[simp] theorem State.modCtx_ptpIn (s : State) (c : Nat) (f : Ctx → Ctx) : (s.modCtx c f).ptpIn = s.ptpIn := rfl
@[simp] theorem State.modCtx_boot (s : State) (c : Nat) (f : Ctx → Ctx) : (s.modCtx c f).boot = s.boot := rfl
@[simp] theorem State.modCtx_power (s : State) (c : Nat) (f : Ctx → Ctx) : (s.modCtx c f).power = s.power := rfl
@[simp] theorem State.modCtx_out (s : State) (c : Nat) (f : Ctx → Ctx) : (s.modCtx c f).out = s.out := rfl
@[simp] theorem State.modCtx_logs (s : State) (c : Nat) (f : Ctx → Ctx) : (s.modCtx c f).logs = s.logs := rfl

/-! ## State.modQueue -/

@[simp] theorem State.modQueue_cycle (s : State) (q : Nat) (f : Queue → Queue) : (s.modQueue q f).cycle = s.cycle := rfl
@[simp] theorem State.modQueue_clock (s : State) (q : Nat) (f : Queue → Queue) : (s.modQueue q f).clock = s.clock := rfl
@[simp] theorem State.modQueue_tape (s : State) (q : Nat) (f : Queue → Queue) : (s.modQueue q f).tape = s.tape := rfl
@[simp] theorem State.modQueue_turn (s : State) (q : Nat) (f : Queue → Queue) : (s.modQueue q f).turn = s.turn := rfl
@[simp] theorem State.modQueue_note (s : State) (q : Nat) (f : Queue → Queue) : (s.modQueue q f).note = s.note := rfl
@[simp] theorem State.modQueue_draw (s : State) (q : Nat) (f : Queue → Queue) : (s.modQueue q f).draw = s.draw := rfl
@[simp] theorem State.modQueue_next (s : State) (q : Nat) (f : Queue → Queue) : (s.modQueue q f).next = s.next := rfl
@[simp] theorem State.modQueue_gangs (s : State) (q : Nat) (f : Queue → Queue) : (s.modQueue q f).gangs = s.gangs := rfl
@[simp] theorem State.modQueue_cores (s : State) (q : Nat) (f : Queue → Queue) : (s.modQueue q f).cores = s.cores := rfl
@[simp] theorem State.modQueue_flights (s : State) (q : Nat) (f : Queue → Queue) : (s.modQueue q f).flights = s.flights := rfl
@[simp] theorem State.modQueue_dram (s : State) (q : Nat) (f : Queue → Queue) : (s.modQueue q f).dram = s.dram := rfl
@[simp] theorem State.modQueue_dpoison (s : State) (q : Nat) (f : Queue → Queue) : (s.modQueue q f).dpoison = s.dpoison := rfl
@[simp] theorem State.modQueue_slices (s : State) (q : Nat) (f : Queue → Queue) : (s.modQueue q f).slices = s.slices := rfl
@[simp] theorem State.modQueue_owners (s : State) (q : Nat) (f : Queue → Queue) : (s.modQueue q f).owners = s.owners := rfl
@[simp] theorem State.modQueue_paths (s : State) (q : Nat) (f : Queue → Queue) : (s.modQueue q f).paths = s.paths := rfl
@[simp] theorem State.modQueue_scores (s : State) (q : Nat) (f : Queue → Queue) : (s.modQueue q f).scores = s.scores := rfl
@[simp] theorem State.modQueue_fails (s : State) (q : Nat) (f : Queue → Queue) : (s.modQueue q f).fails = s.fails := rfl
@[simp] theorem State.modQueue_audits (s : State) (q : Nat) (f : Queue → Queue) : (s.modQueue q f).audits = s.audits := rfl
@[simp] theorem State.modQueue_ctxs (s : State) (q : Nat) (f : Queue → Queue) : (s.modQueue q f).ctxs = s.ctxs := rfl
@[simp] theorem State.modQueue_queues (s : State) (q : Nat) (f : Queue → Queue) : (s.modQueue q f).queues = SMap.set s.queues q (f (s.queue q)) := rfl
@[simp] theorem State.modQueue_launches (s : State) (q : Nat) (f : Queue → Queue) : (s.modQueue q f).launches = s.launches := rfl
@[simp] theorem State.modQueue_cmds (s : State) (q : Nat) (f : Queue → Queue) : (s.modQueue q f).cmds = s.cmds := rfl
@[simp] theorem State.modQueue_turns (s : State) (q : Nat) (f : Queue → Queue) : (s.modQueue q f).turns = s.turns := rfl
@[simp] theorem State.modQueue_placed (s : State) (q : Nat) (f : Queue → Queue) : (s.modQueue q f).placed = s.placed := rfl
@[simp] theorem State.modQueue_wrote (s : State) (q : Nat) (f : Queue → Queue) : (s.modQueue q f).wrote = s.wrote := rfl
@[simp] theorem State.modQueue_wrapped (s : State) (q : Nat) (f : Queue → Queue) : (s.modQueue q f).wrapped = s.wrapped := rfl
@[simp] theorem State.modQueue_dev (s : State) (q : Nat) (f : Queue → Queue) : (s.modQueue q f).dev = s.dev := rfl
@[simp] theorem State.modQueue_ports (s : State) (q : Nat) (f : Queue → Queue) : (s.modQueue q f).ports = s.ports := rfl
@[simp] theorem State.modQueue_percale (s : State) (q : Nat) (f : Queue → Queue) : (s.modQueue q f).percale = s.percale := rfl
@[simp] theorem State.modQueue_worlds (s : State) (q : Nat) (f : Queue → Queue) : (s.modQueue q f).worlds = s.worlds := rfl
@[simp] theorem State.modQueue_sems (s : State) (q : Nat) (f : Queue → Queue) : (s.modQueue q f).sems = s.sems := rfl
@[simp] theorem State.modQueue_hosts (s : State) (q : Nat) (f : Queue → Queue) : (s.modQueue q f).hosts = s.hosts := rfl
@[simp] theorem State.modQueue_asgErr (s : State) (q : Nat) (f : Queue → Queue) : (s.modQueue q f).asgErr = s.asgErr := rfl
@[simp] theorem State.modQueue_winErr (s : State) (q : Nat) (f : Queue → Queue) : (s.modQueue q f).winErr = s.winErr := rfl
@[simp] theorem State.modQueue_windows (s : State) (q : Nat) (f : Queue → Queue) : (s.modQueue q f).windows = s.windows := rfl
@[simp] theorem State.modQueue_exports (s : State) (q : Nat) (f : Queue → Queue) : (s.modQueue q f).exports = s.exports := rfl
@[simp] theorem State.modQueue_links (s : State) (q : Nat) (f : Queue → Queue) : (s.modQueue q f).links = s.links := rfl
@[simp] theorem State.modQueue_flits (s : State) (q : Nat) (f : Queue → Queue) : (s.modQueue q f).flits = s.flits := rfl
@[simp] theorem State.modQueue_tlbs (s : State) (q : Nat) (f : Queue → Queue) : (s.modQueue q f).tlbs = s.tlbs := rfl
@[simp] theorem State.modQueue_pointers (s : State) (q : Nat) (f : Queue → Queue) : (s.modQueue q f).pointers = s.pointers := rfl
@[simp] theorem State.modQueue_ptp (s : State) (q : Nat) (f : Queue → Queue) : (s.modQueue q f).ptp = s.ptp := rfl
@[simp] theorem State.modQueue_ptpIn (s : State) (q : Nat) (f : Queue → Queue) : (s.modQueue q f).ptpIn = s.ptpIn := rfl
@[simp] theorem State.modQueue_boot (s : State) (q : Nat) (f : Queue → Queue) : (s.modQueue q f).boot = s.boot := rfl
@[simp] theorem State.modQueue_power (s : State) (q : Nat) (f : Queue → Queue) : (s.modQueue q f).power = s.power := rfl
@[simp] theorem State.modQueue_out (s : State) (q : Nat) (f : Queue → Queue) : (s.modQueue q f).out = s.out := rfl
@[simp] theorem State.modQueue_logs (s : State) (q : Nat) (f : Queue → Queue) : (s.modQueue q f).logs = s.logs := rfl

/-! ## State.setGang -/

@[simp] theorem State.setGang_cycle (s : State) (g : Gang) : (s.setGang g).cycle = s.cycle := rfl
@[simp] theorem State.setGang_clock (s : State) (g : Gang) : (s.setGang g).clock = s.clock := rfl
@[simp] theorem State.setGang_tape (s : State) (g : Gang) : (s.setGang g).tape = s.tape := rfl
@[simp] theorem State.setGang_turn (s : State) (g : Gang) : (s.setGang g).turn = s.turn := rfl
@[simp] theorem State.setGang_note (s : State) (g : Gang) : (s.setGang g).note = s.note := rfl
@[simp] theorem State.setGang_draw (s : State) (g : Gang) : (s.setGang g).draw = s.draw := rfl
@[simp] theorem State.setGang_next (s : State) (g : Gang) : (s.setGang g).next = s.next := rfl
@[simp] theorem State.setGang_gangs (s : State) (g : Gang) : (s.setGang g).gangs = s.gangs.map (fun x => if x.uid == g.uid then g else x) := rfl
@[simp] theorem State.setGang_cores (s : State) (g : Gang) : (s.setGang g).cores = s.cores := rfl
@[simp] theorem State.setGang_flights (s : State) (g : Gang) : (s.setGang g).flights = s.flights := rfl
@[simp] theorem State.setGang_dram (s : State) (g : Gang) : (s.setGang g).dram = s.dram := rfl
@[simp] theorem State.setGang_dpoison (s : State) (g : Gang) : (s.setGang g).dpoison = s.dpoison := rfl
@[simp] theorem State.setGang_slices (s : State) (g : Gang) : (s.setGang g).slices = s.slices := rfl
@[simp] theorem State.setGang_owners (s : State) (g : Gang) : (s.setGang g).owners = s.owners := rfl
@[simp] theorem State.setGang_paths (s : State) (g : Gang) : (s.setGang g).paths = s.paths := rfl
@[simp] theorem State.setGang_scores (s : State) (g : Gang) : (s.setGang g).scores = s.scores := rfl
@[simp] theorem State.setGang_fails (s : State) (g : Gang) : (s.setGang g).fails = s.fails := rfl
@[simp] theorem State.setGang_audits (s : State) (g : Gang) : (s.setGang g).audits = s.audits := rfl
@[simp] theorem State.setGang_ctxs (s : State) (g : Gang) : (s.setGang g).ctxs = s.ctxs := rfl
@[simp] theorem State.setGang_queues (s : State) (g : Gang) : (s.setGang g).queues = s.queues := rfl
@[simp] theorem State.setGang_launches (s : State) (g : Gang) : (s.setGang g).launches = s.launches := rfl
@[simp] theorem State.setGang_cmds (s : State) (g : Gang) : (s.setGang g).cmds = s.cmds := rfl
@[simp] theorem State.setGang_turns (s : State) (g : Gang) : (s.setGang g).turns = s.turns := rfl
@[simp] theorem State.setGang_placed (s : State) (g : Gang) : (s.setGang g).placed = s.placed := rfl
@[simp] theorem State.setGang_wrote (s : State) (g : Gang) : (s.setGang g).wrote = s.wrote := rfl
@[simp] theorem State.setGang_wrapped (s : State) (g : Gang) : (s.setGang g).wrapped = s.wrapped := rfl
@[simp] theorem State.setGang_dev (s : State) (g : Gang) : (s.setGang g).dev = s.dev := rfl
@[simp] theorem State.setGang_ports (s : State) (g : Gang) : (s.setGang g).ports = s.ports := rfl
@[simp] theorem State.setGang_percale (s : State) (g : Gang) : (s.setGang g).percale = s.percale := rfl
@[simp] theorem State.setGang_worlds (s : State) (g : Gang) : (s.setGang g).worlds = s.worlds := rfl
@[simp] theorem State.setGang_sems (s : State) (g : Gang) : (s.setGang g).sems = s.sems := rfl
@[simp] theorem State.setGang_hosts (s : State) (g : Gang) : (s.setGang g).hosts = s.hosts := rfl
@[simp] theorem State.setGang_asgErr (s : State) (g : Gang) : (s.setGang g).asgErr = s.asgErr := rfl
@[simp] theorem State.setGang_winErr (s : State) (g : Gang) : (s.setGang g).winErr = s.winErr := rfl
@[simp] theorem State.setGang_windows (s : State) (g : Gang) : (s.setGang g).windows = s.windows := rfl
@[simp] theorem State.setGang_exports (s : State) (g : Gang) : (s.setGang g).exports = s.exports := rfl
@[simp] theorem State.setGang_links (s : State) (g : Gang) : (s.setGang g).links = s.links := rfl
@[simp] theorem State.setGang_flits (s : State) (g : Gang) : (s.setGang g).flits = s.flits := rfl
@[simp] theorem State.setGang_tlbs (s : State) (g : Gang) : (s.setGang g).tlbs = s.tlbs := rfl
@[simp] theorem State.setGang_pointers (s : State) (g : Gang) : (s.setGang g).pointers = s.pointers := rfl
@[simp] theorem State.setGang_ptp (s : State) (g : Gang) : (s.setGang g).ptp = s.ptp := rfl
@[simp] theorem State.setGang_ptpIn (s : State) (g : Gang) : (s.setGang g).ptpIn = s.ptpIn := rfl
@[simp] theorem State.setGang_boot (s : State) (g : Gang) : (s.setGang g).boot = s.boot := rfl
@[simp] theorem State.setGang_power (s : State) (g : Gang) : (s.setGang g).power = s.power := rfl
@[simp] theorem State.setGang_out (s : State) (g : Gang) : (s.setGang g).out = s.out := rfl
@[simp] theorem State.setGang_logs (s : State) (g : Gang) : (s.setGang g).logs = s.logs := rfl

/-! ## State.modGang -/

@[simp] theorem State.modGang_cycle (s : State) (uid : Nat) (f : Gang → Gang) : (s.modGang uid f).cycle = s.cycle := rfl
@[simp] theorem State.modGang_clock (s : State) (uid : Nat) (f : Gang → Gang) : (s.modGang uid f).clock = s.clock := rfl
@[simp] theorem State.modGang_tape (s : State) (uid : Nat) (f : Gang → Gang) : (s.modGang uid f).tape = s.tape := rfl
@[simp] theorem State.modGang_turn (s : State) (uid : Nat) (f : Gang → Gang) : (s.modGang uid f).turn = s.turn := rfl
@[simp] theorem State.modGang_note (s : State) (uid : Nat) (f : Gang → Gang) : (s.modGang uid f).note = s.note := rfl
@[simp] theorem State.modGang_draw (s : State) (uid : Nat) (f : Gang → Gang) : (s.modGang uid f).draw = s.draw := rfl
@[simp] theorem State.modGang_next (s : State) (uid : Nat) (f : Gang → Gang) : (s.modGang uid f).next = s.next := rfl
@[simp] theorem State.modGang_gangs (s : State) (uid : Nat) (f : Gang → Gang) : (s.modGang uid f).gangs = s.gangs.map (fun x => if x.uid == uid then f x else x) := rfl
@[simp] theorem State.modGang_cores (s : State) (uid : Nat) (f : Gang → Gang) : (s.modGang uid f).cores = s.cores := rfl
@[simp] theorem State.modGang_flights (s : State) (uid : Nat) (f : Gang → Gang) : (s.modGang uid f).flights = s.flights := rfl
@[simp] theorem State.modGang_dram (s : State) (uid : Nat) (f : Gang → Gang) : (s.modGang uid f).dram = s.dram := rfl
@[simp] theorem State.modGang_dpoison (s : State) (uid : Nat) (f : Gang → Gang) : (s.modGang uid f).dpoison = s.dpoison := rfl
@[simp] theorem State.modGang_slices (s : State) (uid : Nat) (f : Gang → Gang) : (s.modGang uid f).slices = s.slices := rfl
@[simp] theorem State.modGang_owners (s : State) (uid : Nat) (f : Gang → Gang) : (s.modGang uid f).owners = s.owners := rfl
@[simp] theorem State.modGang_paths (s : State) (uid : Nat) (f : Gang → Gang) : (s.modGang uid f).paths = s.paths := rfl
@[simp] theorem State.modGang_scores (s : State) (uid : Nat) (f : Gang → Gang) : (s.modGang uid f).scores = s.scores := rfl
@[simp] theorem State.modGang_fails (s : State) (uid : Nat) (f : Gang → Gang) : (s.modGang uid f).fails = s.fails := rfl
@[simp] theorem State.modGang_audits (s : State) (uid : Nat) (f : Gang → Gang) : (s.modGang uid f).audits = s.audits := rfl
@[simp] theorem State.modGang_ctxs (s : State) (uid : Nat) (f : Gang → Gang) : (s.modGang uid f).ctxs = s.ctxs := rfl
@[simp] theorem State.modGang_queues (s : State) (uid : Nat) (f : Gang → Gang) : (s.modGang uid f).queues = s.queues := rfl
@[simp] theorem State.modGang_launches (s : State) (uid : Nat) (f : Gang → Gang) : (s.modGang uid f).launches = s.launches := rfl
@[simp] theorem State.modGang_cmds (s : State) (uid : Nat) (f : Gang → Gang) : (s.modGang uid f).cmds = s.cmds := rfl
@[simp] theorem State.modGang_turns (s : State) (uid : Nat) (f : Gang → Gang) : (s.modGang uid f).turns = s.turns := rfl
@[simp] theorem State.modGang_placed (s : State) (uid : Nat) (f : Gang → Gang) : (s.modGang uid f).placed = s.placed := rfl
@[simp] theorem State.modGang_wrote (s : State) (uid : Nat) (f : Gang → Gang) : (s.modGang uid f).wrote = s.wrote := rfl
@[simp] theorem State.modGang_wrapped (s : State) (uid : Nat) (f : Gang → Gang) : (s.modGang uid f).wrapped = s.wrapped := rfl
@[simp] theorem State.modGang_dev (s : State) (uid : Nat) (f : Gang → Gang) : (s.modGang uid f).dev = s.dev := rfl
@[simp] theorem State.modGang_ports (s : State) (uid : Nat) (f : Gang → Gang) : (s.modGang uid f).ports = s.ports := rfl
@[simp] theorem State.modGang_percale (s : State) (uid : Nat) (f : Gang → Gang) : (s.modGang uid f).percale = s.percale := rfl
@[simp] theorem State.modGang_worlds (s : State) (uid : Nat) (f : Gang → Gang) : (s.modGang uid f).worlds = s.worlds := rfl
@[simp] theorem State.modGang_sems (s : State) (uid : Nat) (f : Gang → Gang) : (s.modGang uid f).sems = s.sems := rfl
@[simp] theorem State.modGang_hosts (s : State) (uid : Nat) (f : Gang → Gang) : (s.modGang uid f).hosts = s.hosts := rfl
@[simp] theorem State.modGang_asgErr (s : State) (uid : Nat) (f : Gang → Gang) : (s.modGang uid f).asgErr = s.asgErr := rfl
@[simp] theorem State.modGang_winErr (s : State) (uid : Nat) (f : Gang → Gang) : (s.modGang uid f).winErr = s.winErr := rfl
@[simp] theorem State.modGang_windows (s : State) (uid : Nat) (f : Gang → Gang) : (s.modGang uid f).windows = s.windows := rfl
@[simp] theorem State.modGang_exports (s : State) (uid : Nat) (f : Gang → Gang) : (s.modGang uid f).exports = s.exports := rfl
@[simp] theorem State.modGang_links (s : State) (uid : Nat) (f : Gang → Gang) : (s.modGang uid f).links = s.links := rfl
@[simp] theorem State.modGang_flits (s : State) (uid : Nat) (f : Gang → Gang) : (s.modGang uid f).flits = s.flits := rfl
@[simp] theorem State.modGang_tlbs (s : State) (uid : Nat) (f : Gang → Gang) : (s.modGang uid f).tlbs = s.tlbs := rfl
@[simp] theorem State.modGang_pointers (s : State) (uid : Nat) (f : Gang → Gang) : (s.modGang uid f).pointers = s.pointers := rfl
@[simp] theorem State.modGang_ptp (s : State) (uid : Nat) (f : Gang → Gang) : (s.modGang uid f).ptp = s.ptp := rfl
@[simp] theorem State.modGang_ptpIn (s : State) (uid : Nat) (f : Gang → Gang) : (s.modGang uid f).ptpIn = s.ptpIn := rfl
@[simp] theorem State.modGang_boot (s : State) (uid : Nat) (f : Gang → Gang) : (s.modGang uid f).boot = s.boot := rfl
@[simp] theorem State.modGang_power (s : State) (uid : Nat) (f : Gang → Gang) : (s.modGang uid f).power = s.power := rfl
@[simp] theorem State.modGang_out (s : State) (uid : Nat) (f : Gang → Gang) : (s.modGang uid f).out = s.out := rfl
@[simp] theorem State.modGang_logs (s : State) (uid : Nat) (f : Gang → Gang) : (s.modGang uid f).logs = s.logs := rfl

/-! ## State.modFlight -/

@[simp] theorem State.modFlight_cycle (s : State) (id : Nat) (f : Flight → Flight) : (s.modFlight id f).cycle = s.cycle := rfl
@[simp] theorem State.modFlight_clock (s : State) (id : Nat) (f : Flight → Flight) : (s.modFlight id f).clock = s.clock := rfl
@[simp] theorem State.modFlight_tape (s : State) (id : Nat) (f : Flight → Flight) : (s.modFlight id f).tape = s.tape := rfl
@[simp] theorem State.modFlight_turn (s : State) (id : Nat) (f : Flight → Flight) : (s.modFlight id f).turn = s.turn := rfl
@[simp] theorem State.modFlight_note (s : State) (id : Nat) (f : Flight → Flight) : (s.modFlight id f).note = s.note := rfl
@[simp] theorem State.modFlight_draw (s : State) (id : Nat) (f : Flight → Flight) : (s.modFlight id f).draw = s.draw := rfl
@[simp] theorem State.modFlight_next (s : State) (id : Nat) (f : Flight → Flight) : (s.modFlight id f).next = s.next := rfl
@[simp] theorem State.modFlight_gangs (s : State) (id : Nat) (f : Flight → Flight) : (s.modFlight id f).gangs = s.gangs := rfl
@[simp] theorem State.modFlight_cores (s : State) (id : Nat) (f : Flight → Flight) : (s.modFlight id f).cores = s.cores := rfl
@[simp] theorem State.modFlight_flights (s : State) (id : Nat) (f : Flight → Flight) : (s.modFlight id f).flights = s.flights.map (fun x => if x.id == id then f x else x) := rfl
@[simp] theorem State.modFlight_dram (s : State) (id : Nat) (f : Flight → Flight) : (s.modFlight id f).dram = s.dram := rfl
@[simp] theorem State.modFlight_dpoison (s : State) (id : Nat) (f : Flight → Flight) : (s.modFlight id f).dpoison = s.dpoison := rfl
@[simp] theorem State.modFlight_slices (s : State) (id : Nat) (f : Flight → Flight) : (s.modFlight id f).slices = s.slices := rfl
@[simp] theorem State.modFlight_owners (s : State) (id : Nat) (f : Flight → Flight) : (s.modFlight id f).owners = s.owners := rfl
@[simp] theorem State.modFlight_paths (s : State) (id : Nat) (f : Flight → Flight) : (s.modFlight id f).paths = s.paths := rfl
@[simp] theorem State.modFlight_scores (s : State) (id : Nat) (f : Flight → Flight) : (s.modFlight id f).scores = s.scores := rfl
@[simp] theorem State.modFlight_fails (s : State) (id : Nat) (f : Flight → Flight) : (s.modFlight id f).fails = s.fails := rfl
@[simp] theorem State.modFlight_audits (s : State) (id : Nat) (f : Flight → Flight) : (s.modFlight id f).audits = s.audits := rfl
@[simp] theorem State.modFlight_ctxs (s : State) (id : Nat) (f : Flight → Flight) : (s.modFlight id f).ctxs = s.ctxs := rfl
@[simp] theorem State.modFlight_queues (s : State) (id : Nat) (f : Flight → Flight) : (s.modFlight id f).queues = s.queues := rfl
@[simp] theorem State.modFlight_launches (s : State) (id : Nat) (f : Flight → Flight) : (s.modFlight id f).launches = s.launches := rfl
@[simp] theorem State.modFlight_cmds (s : State) (id : Nat) (f : Flight → Flight) : (s.modFlight id f).cmds = s.cmds := rfl
@[simp] theorem State.modFlight_turns (s : State) (id : Nat) (f : Flight → Flight) : (s.modFlight id f).turns = s.turns := rfl
@[simp] theorem State.modFlight_placed (s : State) (id : Nat) (f : Flight → Flight) : (s.modFlight id f).placed = s.placed := rfl
@[simp] theorem State.modFlight_wrote (s : State) (id : Nat) (f : Flight → Flight) : (s.modFlight id f).wrote = s.wrote := rfl
@[simp] theorem State.modFlight_wrapped (s : State) (id : Nat) (f : Flight → Flight) : (s.modFlight id f).wrapped = s.wrapped := rfl
@[simp] theorem State.modFlight_dev (s : State) (id : Nat) (f : Flight → Flight) : (s.modFlight id f).dev = s.dev := rfl
@[simp] theorem State.modFlight_ports (s : State) (id : Nat) (f : Flight → Flight) : (s.modFlight id f).ports = s.ports := rfl
@[simp] theorem State.modFlight_percale (s : State) (id : Nat) (f : Flight → Flight) : (s.modFlight id f).percale = s.percale := rfl
@[simp] theorem State.modFlight_worlds (s : State) (id : Nat) (f : Flight → Flight) : (s.modFlight id f).worlds = s.worlds := rfl
@[simp] theorem State.modFlight_sems (s : State) (id : Nat) (f : Flight → Flight) : (s.modFlight id f).sems = s.sems := rfl
@[simp] theorem State.modFlight_hosts (s : State) (id : Nat) (f : Flight → Flight) : (s.modFlight id f).hosts = s.hosts := rfl
@[simp] theorem State.modFlight_asgErr (s : State) (id : Nat) (f : Flight → Flight) : (s.modFlight id f).asgErr = s.asgErr := rfl
@[simp] theorem State.modFlight_winErr (s : State) (id : Nat) (f : Flight → Flight) : (s.modFlight id f).winErr = s.winErr := rfl
@[simp] theorem State.modFlight_windows (s : State) (id : Nat) (f : Flight → Flight) : (s.modFlight id f).windows = s.windows := rfl
@[simp] theorem State.modFlight_exports (s : State) (id : Nat) (f : Flight → Flight) : (s.modFlight id f).exports = s.exports := rfl
@[simp] theorem State.modFlight_links (s : State) (id : Nat) (f : Flight → Flight) : (s.modFlight id f).links = s.links := rfl
@[simp] theorem State.modFlight_flits (s : State) (id : Nat) (f : Flight → Flight) : (s.modFlight id f).flits = s.flits := rfl
@[simp] theorem State.modFlight_tlbs (s : State) (id : Nat) (f : Flight → Flight) : (s.modFlight id f).tlbs = s.tlbs := rfl
@[simp] theorem State.modFlight_pointers (s : State) (id : Nat) (f : Flight → Flight) : (s.modFlight id f).pointers = s.pointers := rfl
@[simp] theorem State.modFlight_ptp (s : State) (id : Nat) (f : Flight → Flight) : (s.modFlight id f).ptp = s.ptp := rfl
@[simp] theorem State.modFlight_ptpIn (s : State) (id : Nat) (f : Flight → Flight) : (s.modFlight id f).ptpIn = s.ptpIn := rfl
@[simp] theorem State.modFlight_boot (s : State) (id : Nat) (f : Flight → Flight) : (s.modFlight id f).boot = s.boot := rfl
@[simp] theorem State.modFlight_power (s : State) (id : Nat) (f : Flight → Flight) : (s.modFlight id f).power = s.power := rfl
@[simp] theorem State.modFlight_out (s : State) (id : Nat) (f : Flight → Flight) : (s.modFlight id f).out = s.out := rfl
@[simp] theorem State.modFlight_logs (s : State) (id : Nat) (f : Flight → Flight) : (s.modFlight id f).logs = s.logs := rfl

/-! ## Reading after an update -/

@[simp] theorem State.core_modCore_same (s : State) (c : Nat) (f : Core → Core) : (s.modCore c f).core c = f (s.core c) := by
  simp [State.core, State.modCore, SMap.get, SMap.find_set_same]

theorem State.core_modCore_ne (s : State) {c d : Nat} (f : Core → Core) (h : c ≠ d) : (s.modCore c f).core d = s.core d := by
  simp [State.core, State.modCore, SMap.get, SMap.find_set_ne _ _ h]

@[simp] theorem State.ctx_modCtx_same (s : State) (c : Nat) (f : Ctx → Ctx) : (s.modCtx c f).ctx c = f (s.ctx c) := by
  simp [State.ctx, State.modCtx, SMap.get, SMap.find_set_same]

theorem State.ctx_modCtx_ne (s : State) {c d : Nat} (f : Ctx → Ctx) (h : c ≠ d) : (s.modCtx c f).ctx d = s.ctx d := by
  simp [State.ctx, State.modCtx, SMap.get, SMap.find_set_ne _ _ h]

@[simp] theorem State.slice_modSlice_same (s : State) (c : Nat) (f : Slice → Slice) : (s.modSlice c f).slice c = f (s.slice c) := by
  simp [State.slice, State.modSlice, SMap.get, SMap.find_set_same]

@[simp] theorem State.queue_modQueue_same (s : State) (c : Nat) (f : Queue → Queue) : (s.modQueue c f).queue c = f (s.queue c) := by
  simp [State.queue, State.modQueue, SMap.get, SMap.find_set_same]

theorem State.reg_setReg (s : State) (a b : Nat) (v d : Word64) : (s.setReg a v).reg b d = if a = b then v else s.reg b d := by
  simp [State.reg, State.setReg, SMap.get_set]

@[simp] theorem State.reg_modCore (s : State) (c : Nat) (f : Core → Core) (a : Nat) (d : Word64) : (s.modCore c f).reg a d = s.reg a d := rfl
@[simp] theorem State.reg_modCtx (s : State) (c : Nat) (f : Ctx → Ctx) (a : Nat) (d : Word64) : (s.modCtx c f).reg a d = s.reg a d := rfl
@[simp] theorem State.reg_modGang (s : State) (u : Nat) (f : Gang → Gang) (a : Nat) (d : Word64) : (s.modGang u f).reg a d = s.reg a d := rfl
@[simp] theorem State.reg_setGang (s : State) (g : Gang) (a : Nat) (d : Word64) : (s.setGang g).reg a d = s.reg a d := rfl
@[simp] theorem State.core_modGang (s : State) (u : Nat) (f : Gang → Gang) (c : Nat) : (s.modGang u f).core c = s.core c := rfl
@[simp] theorem State.core_setGang (s : State) (g : Gang) (c : Nat) : (s.setGang g).core c = s.core c := rfl
@[simp] theorem State.core_modCtx (s : State) (x : Nat) (f : Ctx → Ctx) (c : Nat) : (s.modCtx x f).core c = s.core c := rfl
@[simp] theorem State.ctx_modCore (s : State) (c : Nat) (f : Core → Core) (x : Nat) : (s.modCore c f).ctx x = s.ctx x := rfl
@[simp] theorem State.ctx_modGang (s : State) (u : Nat) (f : Gang → Gang) (x : Nat) : (s.modGang u f).ctx x = s.ctx x := rfl
@[simp] theorem State.ctx_setGang (s : State) (g : Gang) (x : Nat) : (s.setGang g).ctx x = s.ctx x := rfl

/-! ## Gangs by number -/

theorem State.gang?_uid {s : State} {uid : Nat} {g : Gang} (h : s.gang? uid = some g) : g.uid = uid := by
  have := List.find?_some h
  simpa using this

theorem State.gang?_mem {s : State} {uid : Nat} {g : Gang} (h : s.gang? uid = some g) : g ∈ s.gangs := List.mem_of_find?_eq_some h

/-- Finding in a list whose entries are changed without changing their numbers. -/
theorem find_uid_map (l : List Gang) (uid : Nat) (f : Gang → Gang) (hf : ∀ x ∈ l, (f x).uid = x.uid) :
    (l.map f).find? (fun g => g.uid == uid) = (l.find? (fun g => g.uid == uid)).map f := by
  induction l with
  | nil => rfl
  | cons x l ih =>
    have hx := hf x (List.mem_cons_self ..)
    simp only [List.map_cons, List.find?_cons, hx]
    cases hc : (x.uid == uid) with
    | true => rfl
    | false => exact ih (fun y hy => hf y (List.mem_cons_of_mem _ hy))

theorem State.gang?_modGang (s : State) (uid u : Nat) (f : Gang → Gang) (hf : ∀ x, (f x).uid = x.uid) :
    (s.modGang u f).gang? uid = (s.gang? uid).map (fun x => if x.uid == u then f x else x) := by
  unfold State.gang? State.modGang
  refine find_uid_map _ _ _ (fun x _ => ?_)
  show (if x.uid == u then f x else x).uid = x.uid
  split
  · exact hf x
  · rfl

theorem State.gang?_modGang_same {s : State} {uid : Nat} {g : Gang} (f : Gang → Gang) (hf : ∀ x, (f x).uid = x.uid)
    (h : s.gang? uid = some g) : (s.modGang uid f).gang? uid = some (f g) := by
  rw [State.gang?_modGang s uid uid f hf, h]
  simp [State.gang?_uid h]

theorem State.gang?_modGang_ne {s : State} {uid u : Nat} (f : Gang → Gang) (hf : ∀ x, (f x).uid = x.uid)
    (h : uid ≠ u) : (s.modGang u f).gang? uid = s.gang? uid := by
  rw [State.gang?_modGang s uid u f hf]
  cases hg : s.gang? uid with
  | none => rfl
  | some g => simp [State.gang?_uid hg, h]

theorem State.gang?_setGang_same {s : State} {g x : Gang} (h : s.gang? g.uid = some x) : (s.setGang g).gang? g.uid = some g := by
  have : (s.setGang g) = s.modGang g.uid (fun y => if y.uid == g.uid then g else y) := by
    simp only [State.setGang, State.modGang]
    congr 1
    refine List.map_congr_left (fun y _ => ?_)
    split <;> simp_all
  rw [this, State.gang?_modGang_same _ _ h]
  · simp [State.gang?_uid h]
  · intro y
    split
    · next hy => exact (beq_iff_eq.1 hy).symm
    · rfl


end Sys2Proof.Machine
end

