-- ==== Sys2Proof/Laws/Gangs.lean ====
section
/-! SUPPORT. What passed by a gang without touching it: counting, logs, interrupts, caches, path writes and the releases of other gangs
change nothing of a gang's view. -/

namespace Sys2Proof.Machine

/-! ## Folds -/

/-- A fold whose every step keeps a part of the state keeps it. -/
theorem foldl_keep {β γ : Type} (p : State → γ) (f : State → β → State) (h : ∀ st x, p (f st x) = p st) (l : List β) (s : State) :
    p (l.foldl f s) = p s := by
  induction l generalizing s with
  | nil => rfl
  | cons x l ih => rw [List.foldl_cons, ih, h]

/-- The same for a predicate. -/
theorem foldl_inv {σ β : Type} (p : σ → Prop) (f : σ → β → σ) (h : ∀ st x, p st → p (f st x)) (l : List β) (s : σ) (hs : p s) :
    p (l.foldl f s) := by
  induction l generalizing s with
  | nil => exact hs
  | cons x l ih => rw [List.foldl_cons]; exact ih _ (h s x hs)

/-- A fold whose every step leaves the state as it is. -/
theorem foldl_id {σ β : Type} (f : σ → β → σ) (l : List β) (s : σ) (h : ∀ x ∈ l, f s x = s) : l.foldl f s = s := by
  induction l with
  | nil => rfl
  | cons x l ih =>
    rw [List.foldl_cons, h x (List.mem_cons_self ..)]
    exact ih (fun y hy => h y (List.mem_cons_of_mem _ hy))

/-! ## What leaves the list of gangs alone -/

@[simp] theorem State.bump_gangs (s : State) (c a : Nat) : (s.bump c a).gangs = s.gangs := by
  unfold State.bump; dsimp only; repeat' split
  all_goals simp

@[simp] theorem State.sliceCount_gangs (s : State) (h e t : Nat) (o : Option Nat) : (s.sliceCount h e t o).gangs = s.gangs := by
  unfold State.sliceCount
  refine foldl_keep State.gangs _ (fun st n => ?_) _ _
  dsimp only
  repeat' split
  all_goals simp

@[simp] theorem State.encodeBlocks_gangs (s : State) (x : Nat × Nat × Fmt × Nat) (pa : Nat) (bs : List Byte) (f : Nat → Bool) (p : Bool) :
    (s.encodeBlocks x pa bs f p).gangs = s.gangs := by
  unfold State.encodeBlocks
  refine foldl_keep State.gangs _ (fun st i => ?_) _ _
  rfl

@[simp] theorem State.ctlWrite_gangs (s : State) (sec : Nat) (bs : List Byte) (p : Bool) (f : Nat → Bool) :
    (s.ctlWrite sec bs p f).gangs = s.gangs := by
  unfold State.ctlWrite
  dsimp only
  split
  all_goals first
    | exact foldl_keep State.gangs _ (fun st x => State.encodeBlocks_gangs ..) _ _
    | (rw [State.encodeBlocks_gangs]; exact foldl_keep State.gangs _ (fun st x => State.encodeBlocks_gangs ..) _ _)

@[simp] theorem State.auditEnd_gangs (s : State) (h : Nat) (l : L2Line) (p : Bool) : (s.auditEnd h l p).gangs = s.gangs := by
  unfold State.auditEnd; repeat' split
  all_goals simp

@[simp] theorem State.spoilPast_gangs (s : State) (l : L2Line) (k : Nat) : (s.spoilPast l k).gangs = s.gangs := by
  unfold State.spoilPast
  exact foldl_keep State.gangs _ (fun st x => State.encodeBlocks_gangs ..) _ _

@[simp] theorem State.writeBack_gangs (s : State) (l : L2Line) : (s.writeBack l).gangs = s.gangs := by
  unfold State.writeBack
  refine foldl_keep State.gangs _ (fun st n => ?_) _ _
  split <;> simp

@[simp] theorem State.evict2_gangs (s : State) (h k : Nat) : (s.evict2 h k).gangs = s.gangs := by
  unfold State.evict2
  split
  · rfl
  · dsimp only; split <;> simp

@[simp] theorem State.modLine2_gangs (s : State) (pa : Nat) (f : L2Line → L2Line) : (s.modLine2 pa f).gangs = s.gangs := by
  unfold State.modLine2
  split <;> rfl

@[simp] theorem State.alloc2_gangs (s : State) (pa : Nat) (a : Asker) : (s.alloc2 pa a).gangs = s.gangs := by
  unfold State.alloc2
  dsimp only
  split <;> simp

@[simp] theorem State.fill2_gangs (s : State) (pa : Nat) (a : Asker) : (s.fill2 pa a).gangs = s.gangs := by
  unfold State.fill2
  dsimp only
  simp

@[simp] theorem State.stamp2_gangs (s : State) (pa : Nat) (a : Asker) (b : Bool) : (s.stamp2 pa a b).gangs = s.gangs := by
  unfold State.stamp2
  dsimp only
  split <;> simp

@[simp] theorem State.touch2_gangs (s : State) (pa : Nat) (a : Asker) : (s.touch2 pa a).gangs = s.gangs := by
  unfold State.touch2
  dsimp only
  split
  · simp
  · split
    · simp
    · split
      · split <;> simp
      · simp

@[simp] theorem State.homeRead_gangs (s : State) (p : Path) (pa n : Nat) (a : Asker) : (s.homeRead p pa n a).2.2.gangs = s.gangs := by
  unfold State.homeRead State.pathRead
  dsimp only
  repeat' split
  all_goals simp

@[simp] theorem State.homeStore_gangs (s : State) (pa : Nat) (bs : List Byte) (p : Bool) (a : Asker) (f : Bool) :
    (s.homeStore pa bs p a f).gangs = s.gangs := by
  unfold State.homeStore
  dsimp only
  simp only [State.stamp2_gangs, State.modLine2_gangs]
  repeat' split
  all_goals simp

@[simp] theorem State.bankStore_gangs (s : State) (pa : Nat) (bs : List Byte) (p f : Bool) : (s.bankStore pa bs p f).gangs = s.gangs := by
  unfold State.bankStore
  refine foldl_keep State.gangs _ (fun st i => ?_) _ _
  rfl

@[simp] theorem State.spadStore_gangs (s : State) (u : Option Nat) (pa : Nat) (bs : List Byte) (p : Bool) :
    (s.spadStore u pa bs p).gangs = s.gangs := rfl

@[simp] theorem State.spoil_gangs (s : State) (w : Option Nat) (pa n : Nat) : (s.spoil w pa n).gangs = s.gangs := rfl

@[simp] theorem State.mergeOne_gangs (s : State) (w : PathWrite) : (s.mergeOne w).gangs = s.gangs := by
  unfold State.mergeOne
  split
  · simp
  · split <;> simp

@[simp] theorem State.mergeWhere_gangs (s : State) (f : PathWrite → Bool) : (s.mergeWhere f).gangs = s.gangs := by
  unfold State.mergeWhere
  rw [foldl_keep State.gangs _ (fun st w => State.mergeOne_gangs st w)]

@[simp] theorem State.mergePath_gangs (s : State) (p : Path) : (s.mergePath p).gangs = s.gangs := State.mergeWhere_gangs _ _
@[simp] theorem State.mergeCmd_gangs (s : State) (c : Nat) : (s.mergeCmd c).gangs = s.gangs := State.mergeWhere_gangs _ _
@[simp] theorem State.mergeLine_gangs (s : State) (l : Nat) : (s.mergeLine l).gangs = s.gangs := State.mergeWhere_gangs _ _
@[simp] theorem State.selfInvalidate_gangs (s : State) (c : Nat) : (s.selfInvalidate c).gangs = s.gangs := rfl
@[simp] theorem State.flushL1_gangs (s : State) (c : Nat) : (s.flushL1 c).gangs = s.gangs := rfl
@[simp] theorem State.modCohort_gangs (s : State) (c i : Nat) (f : Cohort → Cohort) : (s.modCohort c i f).gangs = s.gangs := rfl
@[simp] theorem State.refund_gangs (s : State) (c i t : Nat) : (s.refund c i t).gangs = s.gangs := rfl
@[simp] theorem State.gingham_gangs (s : State) (g : Gang) (v : Bool) (pc : Word64) (cs : List Nat) :
    (s.gingham g v pc cs).gangs = s.gangs := by
  unfold State.gingham
  dsimp only
  split
  · split <;> simp
  · rfl
@[simp] theorem State.firstIssue_gangs (s : State) (g : Gang) : (s.firstIssue g).gangs = s.gangs := by
  unfold State.firstIssue; split <;> rfl

/-! ## What passed by -/

def passed (l : List Gang) : List Gang := l.map Gang.pass

/-- A change of every gang that only passed by. -/
theorem passed_map (l : List Gang) (f : Gang → Gang) (hf : ∀ x, (f x).pass = x.pass) : passed (l.map f) = passed l := by
  unfold passed
  rw [List.map_map]
  exact List.map_congr_left (fun x _ => hf x)

theorem State.passed_modGang (s : State) (u : Nat) (f : Gang → Gang) (hf : ∀ x, (f x).pass = x.pass) :
    passed (s.modGang u f).gangs = passed s.gangs :=
  passed_map _ (fun x => if x.uid == u then f x else x) (fun x => by split <;> simp [hf])

theorem passed_find {l l' : List Gang} (h : passed l' = passed l) {uid : Nat} {g : Gang}
    (hg : l.find? (fun g => g.uid == uid) = some g) : ∃ g', l'.find? (fun g => g.uid == uid) = some g' ∧ g'.pass = g.pass := by
  have hu : ∀ x : Gang, x.pass.uid = x.uid := fun _ => rfl
  have h1 := find_uid_map l uid Gang.pass (fun x _ => hu x)
  have h2 := find_uid_map l' uid Gang.pass (fun x _ => hu x)
  unfold passed at h
  rw [h, h1, hg] at h2
  simpa [eq_comm] using h2

/-- The gang of a number, after what only passed by. -/
theorem State.gang?_passed {s t : State} (h : passed t.gangs = passed s.gangs) {uid : Nat} {g : Gang} (hg : s.gang? uid = some g) :
    ∃ g', t.gang? uid = some g' ∧ g'.pass = g.pass := passed_find h hg

@[simp] theorem State.fireLine_passed (s : State) (l st : Nat) : passed (s.fireLine l st).gangs = passed s.gangs := by
  refine passed_map s.gangs (fun g => if (s.slice (homeSlice (128 * l))).monitors.any (fun m => m.1 == g.uid && m.2 == l) then
        { g with monitor := g.monitor.map (fun m => { m with fired := m.fired.or (some st) }) } else g) (fun x => ?_)
  split <;> rfl

@[simp] theorem State.pathWrite_passed (s : State) (p : Path) (c pa : Nat) (bs : List Byte) (po : Bool) (a : Asker) :
    passed (s.pathWrite p c pa bs po a).gangs = passed s.gangs := by
  unfold State.pathWrite
  refine foldl_keep (fun x => passed x.gangs) _ (fun st r => ?_) _ _
  dsimp only
  split
  · rw [State.spoil_gangs, State.fireLine_passed]
  · rfl

@[simp] theorem State.homeWriteAll_passed (s : State) (pa : Nat) (bs : List Byte) (a : Asker) :
    passed (s.homeWriteAll pa bs a).gangs = passed s.gangs := by
  unfold State.homeWriteAll
  refine foldl_keep (fun x => passed x.gangs) _ (fun st r => ?_) _ _
  rw [State.spoil_gangs, State.fireLine_passed, State.homeStore_gangs]

@[simp] theorem State.muslin_passed (s : State) (c k : Nat) (fs : List Nat) (bs : List Byte) :
    passed (s.muslin c k fs bs).gangs = passed s.gangs := by
  unfold State.muslin
  dsimp only
  repeat' split
  all_goals simp

@[simp] theorem State.useEntry_gangs (s : State) (c : Nat) (x : Nat × LogEntry) : (s.useEntry c x).gangs = s.gangs := by
  unfold State.useEntry
  dsimp only
  split <;> simp

@[simp] theorem State.noteOrder_passed (s : State) (c : Nat) (l : Location) (m : List Nat) :
    passed (s.noteOrder c l m).gangs = passed s.gangs := by
  unfold State.noteOrder
  split <;> simp

@[simp] theorem State.noteValue_passed (s : State) (g : Gang) (v : List Nat) : passed (s.noteValue g v).gangs = passed s.gangs := by
  unfold State.noteValue
  split <;> simp

@[simp] theorem State.fire_passed (s : State) (c o v : Nat) : passed (s.fire c o v).gangs = passed s.gangs := by
  unfold State.fire
  dsimp only
  repeat' split
  all_goals simp

@[simp] theorem State.log_passed (s : State) (c k pa w d : Nat) : passed (s.log c k pa w d).gangs = passed s.gangs := by
  unfold State.log
  dsimp only
  repeat' split
  all_goals simp

@[simp] theorem State.countAt_passed (s : State) (c e a : Nat) (p : Nat → Nat → Bool) :
    passed (s.countAt c e a p).gangs = passed s.gangs := by
  unfold State.countAt
  refine foldl_keep (fun x => passed x.gangs) _ (fun st n => ?_) _ _
  dsimp only
  repeat' split
  all_goals simp

@[simp] theorem State.count_passed (s : State) (g : Gang) (e a : Nat) : passed (s.count g e a).gangs = passed s.gangs :=
  State.countAt_passed ..

@[simp] theorem State.countIssue_passed (s : State) (g : Gang) (ci ct : Nat) : passed (s.countIssue g ci ct).gangs = passed s.gangs := by
  simp [State.countIssue]

@[simp] theorem State.postFlag_passed (s : State) (c f n x : Nat) : passed (s.postFlag c f n x).gangs = passed s.gangs := by
  unfold State.postFlag
  dsimp only
  repeat' split
  all_goals simp

@[simp] theorem State.noteFlight_passed (s : State) (f : Flight) : passed (s.noteFlight f).gangs = passed s.gangs :=
  foldl_keep (fun x => passed x.gangs) _ (fun _ _ => State.noteOrder_passed ..) _ _

/-- An operation that is over no longer blocks its gang. -/
theorem passed_unblock (l : List Gang) (id : Nat) :
    passed (l.map (fun g => { g with iss := { g.iss with block := g.iss.block.filter (fun b => b != id) } })) = passed l :=
  passed_map l (fun g => { g with iss := { g.iss with block := g.iss.block.filter (fun b => b != id) } }) (fun _ => rfl)

@[simp] theorem State.dropFlight_passed (s : State) (id : Nat) : passed (s.dropFlight id).gangs = passed s.gangs := by
  unfold State.dropFlight
  dsimp only
  rw [passed_unblock]
  split
  · exact State.noteFlight_passed ..
  · rfl

/-- Landing times that change pass by. -/
theorem Gang.pass_pend (g : Gang) (f : PendWrite → PendWrite) (h : ∀ p, (f p).pass = p.pass) : ({ g with pend := g.pend.map f } : Gang).pass = g.pass := by
  simp only [Gang.pass, List.map_map, Function.comp_def, h]

/-- The noted charge passes by. -/
@[simp] theorem State.payAll_passed (s : State) (u : Nat) (old : List Flight) (ci ct : Nat) : passed (s.payAll u old ci ct).gangs = passed s.gangs := by
  unfold State.payAll
  refine State.passed_modGang _ _ _ (fun x => ?_)
  have : ((x.park.map (fun k => { k with ci := ci, ct := ct })).map Park.pass) = x.park.map Park.pass := by cases x.park <;> rfl
  simp only [Gang.pass, this]

@[simp] theorem State.endDecoupled_passed (s : State) (f : Flight) (n : Nat) : passed (s.endDecoupled f n).gangs = passed s.gangs := by
  unfold State.endDecoupled
  split
  · rfl
  · exact State.passed_modGang s _ _ (fun x => Gang.pass_pend x _ (fun p => by split <;> rfl))

theorem State.modGang_k_passed (s : State) (u : Nat) (f : Gang → SMap KReg) (sh : Gang → Shadow) (i : Gang → Bool) :
    passed (s.modGang u (fun g => { g with ctl := { g.ctl with k := f g }, shadow := sh g, iss := { g.iss with recStale := i g } })).gangs = passed s.gangs :=
  State.passed_modGang s u _ (fun _ => rfl)

@[simp] theorem State.applyFence_passed (s : State) (f : Flight) (op : Nat) : passed (s.applyFence f op).gangs = passed s.gangs := by
  unfold State.applyFence
  dsimp only
  repeat' split
  all_goals simp

@[simp] theorem State.applyReleases_passed (s : State) : passed s.applyReleases.gangs = passed s.gangs := by
  unfold State.applyReleases
  refine foldl_keep (fun x => passed x.gangs) _ (fun st f => ?_) _ _
  dsimp only
  split
  · split
    · rw [State.dropFlight_passed, State.endDecoupled_passed]
      split
      · rfl
      · exact State.postFlag_passed ..
    · rfl
  · split
    · rw [State.dropFlight_passed, State.modCohort_gangs]
      split
      · exact State.modGang_k_passed ..
      · rfl
    · rfl
  · split
    · rw [State.dropFlight_passed, State.applyFence_passed]
    · rfl
  · rfl

theorem State.noteSeal_start (s : State) (u : Nat) :
    passed (s.modGang u (fun x => { x with iss := { x.iss with mseal := false, mloads := [] } })).gangs = passed s.gangs :=
  State.passed_modGang s _ _ (fun _ => rfl)

@[simp] theorem State.noteSeal_passed (s : State) (g : Gang) : passed (s.noteSeal g).gangs = passed s.gangs := by
  rw [← State.noteSeal_start s g.uid]
  unfold State.noteSeal
  generalize s.modGang g.uid (fun x => { x with iss := { x.iss with mseal := false, mloads := [] } }) = s1
  dsimp only
  repeat' split
  all_goals simp

end Sys2Proof.Machine
end

