-- ==== Sys2Proof/Laws/Losses.lean ====
section
/-! SUPPORT. What leaves alone the counts of losses of the contexts (R389): whatever does not touch the contexts, and what touches other fields of them. -/

namespace Sys2Proof.Machine

/-! ## What leaves the contexts alone -/

@[simp] theorem State.bump_ctxs (s : State) (c a : Nat) : (s.bump c a).ctxs = s.ctxs := by
  unfold State.bump; dsimp only; repeat' split
  all_goals simp

@[simp] theorem State.sliceCount_ctxs (s : State) (h e t : Nat) (o : Option Nat) : (s.sliceCount h e t o).ctxs = s.ctxs := by
  unfold State.sliceCount
  refine foldl_keep State.ctxs _ (fun st n => ?_) _ _
  dsimp only
  repeat' split
  all_goals simp

@[simp] theorem State.encodeBlocks_ctxs (s : State) (x : Nat × Nat × Fmt × Nat) (pa : Nat) (bs : List Byte) (f : Nat → Bool) (p : Bool) :
    (s.encodeBlocks x pa bs f p).ctxs = s.ctxs := by
  unfold State.encodeBlocks
  refine foldl_keep State.ctxs _ (fun st i => ?_) _ _
  rfl

@[simp] theorem State.ctlWrite_ctxs (s : State) (sec : Nat) (bs : List Byte) (p : Bool) (f : Nat → Bool) :
    (s.ctlWrite sec bs p f).ctxs = s.ctxs := by
  unfold State.ctlWrite
  dsimp only
  split
  all_goals first
    | exact foldl_keep State.ctxs _ (fun st x => State.encodeBlocks_ctxs ..) _ _
    | (rw [State.encodeBlocks_ctxs]; exact foldl_keep State.ctxs _ (fun st x => State.encodeBlocks_ctxs ..) _ _)

@[simp] theorem State.auditEnd_ctxs (s : State) (h : Nat) (l : L2Line) (p : Bool) : (s.auditEnd h l p).ctxs = s.ctxs := by
  unfold State.auditEnd; repeat' split
  all_goals simp

@[simp] theorem State.spoilPast_ctxs (s : State) (l : L2Line) (k : Nat) : (s.spoilPast l k).ctxs = s.ctxs := by
  unfold State.spoilPast
  exact foldl_keep State.ctxs _ (fun st x => State.encodeBlocks_ctxs ..) _ _

@[simp] theorem State.writeBack_ctxs (s : State) (l : L2Line) : (s.writeBack l).ctxs = s.ctxs := by
  unfold State.writeBack
  refine foldl_keep State.ctxs _ (fun st n => ?_) _ _
  split <;> simp

@[simp] theorem State.evict2_ctxs (s : State) (h k : Nat) : (s.evict2 h k).ctxs = s.ctxs := by
  unfold State.evict2
  split
  · rfl
  · dsimp only; split <;> simp

@[simp] theorem State.modLine2_ctxs (s : State) (pa : Nat) (f : L2Line → L2Line) : (s.modLine2 pa f).ctxs = s.ctxs := by
  unfold State.modLine2
  split <;> rfl

@[simp] theorem State.alloc2_ctxs (s : State) (pa : Nat) (a : Asker) : (s.alloc2 pa a).ctxs = s.ctxs := by
  unfold State.alloc2
  dsimp only
  split <;> simp

@[simp] theorem State.fill2_ctxs (s : State) (pa : Nat) (a : Asker) : (s.fill2 pa a).ctxs = s.ctxs := by
  unfold State.fill2
  dsimp only
  simp

@[simp] theorem State.stamp2_ctxs (s : State) (pa : Nat) (a : Asker) (b : Bool) : (s.stamp2 pa a b).ctxs = s.ctxs := by
  unfold State.stamp2
  dsimp only
  split <;> simp

@[simp] theorem State.touch2_ctxs (s : State) (pa : Nat) (a : Asker) : (s.touch2 pa a).ctxs = s.ctxs := by
  unfold State.touch2
  dsimp only
  split
  · simp
  · split
    · simp
    · split
      · split <;> simp
      · simp

@[simp] theorem State.homeRead_ctxs (s : State) (p : Path) (pa n : Nat) (a : Asker) : (s.homeRead p pa n a).2.2.ctxs = s.ctxs := by
  unfold State.homeRead State.pathRead
  dsimp only
  repeat' split
  all_goals simp

@[simp] theorem State.homeStore_ctxs (s : State) (pa : Nat) (bs : List Byte) (p : Bool) (a : Asker) (f : Bool) :
    (s.homeStore pa bs p a f).ctxs = s.ctxs := by
  unfold State.homeStore
  dsimp only
  simp only [State.stamp2_ctxs, State.modLine2_ctxs]
  repeat' split
  all_goals simp

@[simp] theorem State.bankStore_ctxs (s : State) (pa : Nat) (bs : List Byte) (p f : Bool) : (s.bankStore pa bs p f).ctxs = s.ctxs := by
  unfold State.bankStore
  refine foldl_keep State.ctxs _ (fun st i => ?_) _ _
  rfl

@[simp] theorem State.spadStore_ctxs (s : State) (u : Option Nat) (pa : Nat) (bs : List Byte) (p : Bool) :
    (s.spadStore u pa bs p).ctxs = s.ctxs := rfl

@[simp] theorem State.spoil_ctxs (s : State) (w : Option Nat) (pa n : Nat) : (s.spoil w pa n).ctxs = s.ctxs := rfl

@[simp] theorem State.mergeOne_ctxs (s : State) (w : PathWrite) : (s.mergeOne w).ctxs = s.ctxs := by
  unfold State.mergeOne
  split
  · simp
  · split <;> simp

@[simp] theorem State.mergeWhere_ctxs (s : State) (f : PathWrite → Bool) : (s.mergeWhere f).ctxs = s.ctxs := by
  unfold State.mergeWhere
  rw [foldl_keep State.ctxs _ (fun st w => State.mergeOne_ctxs st w)]

@[simp] theorem State.mergePath_ctxs (s : State) (p : Path) : (s.mergePath p).ctxs = s.ctxs := State.mergeWhere_ctxs _ _
@[simp] theorem State.mergeCmd_ctxs (s : State) (c : Nat) : (s.mergeCmd c).ctxs = s.ctxs := State.mergeWhere_ctxs _ _
@[simp] theorem State.mergeLine_ctxs (s : State) (l : Nat) : (s.mergeLine l).ctxs = s.ctxs := State.mergeWhere_ctxs _ _
@[simp] theorem State.selfInvalidate_ctxs (s : State) (c : Nat) : (s.selfInvalidate c).ctxs = s.ctxs := rfl
@[simp] theorem State.flushL1_ctxs (s : State) (c : Nat) : (s.flushL1 c).ctxs = s.ctxs := rfl
@[simp] theorem State.gingham_ctxs (s : State) (g : Gang) (v : Bool) (pc : Word64) (cs : List Nat) :
    (s.gingham g v pc cs).ctxs = s.ctxs := by
  unfold State.gingham
  dsimp only
  split
  · split <;> simp
  · rfl
@[simp] theorem State.firstIssue_ctxs (s : State) (g : Gang) : (s.firstIssue g).ctxs = s.ctxs := by
  unfold State.firstIssue; split <;> rfl


/-! ## The counts of losses -/

/-- The count of losses of each context. -/
def State.losses (s : State) : Nat → BitVec 16 := fun c => (s.ctx c).loss

theorem State.losses_of_ctxs {s t : State} (h : t.ctxs = s.ctxs) : t.losses = s.losses := by
  unfold State.losses State.ctx; rw [h]

/-- A change of a context that leaves its count. -/
theorem State.losses_modCtx (s : State) (c : Nat) (f : Ctx → Ctx) (hf : ∀ x, (f x).loss = x.loss) : (s.modCtx c f).losses = s.losses := by
  funext k
  unfold State.losses
  rcases Nat.decEq k c with h | h
  · rw [State.ctx_modCtx_ne _ _ (Ne.symm h)]
  · subst h; rw [State.ctx_modCtx_same, hf]

/-- The same after what left it. -/
theorem State.losses_mod {s t : State} (c : Nat) {f : Ctx → Ctx} (h : t.losses = s.losses) (hf : ∀ x, (f x).loss = x.loss) :
    (t.modCtx c f).losses = s.losses := (State.losses_modCtx t c f hf).trans h

theorem State.losses_modCohort (s : State) (c i : Nat) (f : Cohort → Cohort) : (s.modCohort c i f).losses = s.losses :=
  State.losses_modCtx s c _ (fun _ => rfl)

@[simp] theorem State.fireLine_ctxs (s : State) (l st : Nat) : (s.fireLine l st).ctxs = s.ctxs := rfl

@[simp] theorem State.pathWrite_ctxs (s : State) (p : Path) (c pa : Nat) (bs : List Byte) (po : Bool) (a : Asker) :
    (s.pathWrite p c pa bs po a).ctxs = s.ctxs := by
  unfold State.pathWrite
  refine foldl_keep State.ctxs _ (fun st r => ?_) _ _
  dsimp only
  split
  · rw [State.spoil_ctxs, State.fireLine_ctxs]
  · rfl

@[simp] theorem State.homeWriteAll_ctxs (s : State) (pa : Nat) (bs : List Byte) (a : Asker) : (s.homeWriteAll pa bs a).ctxs = s.ctxs := by
  unfold State.homeWriteAll
  refine foldl_keep State.ctxs _ (fun st r => ?_) _ _
  rw [State.spoil_ctxs, State.fireLine_ctxs, State.homeStore_ctxs]

@[simp] theorem State.muslin_losses (s : State) (c k : Nat) (fs : List Nat) (bs : List Byte) : (s.muslin c k fs bs).losses = s.losses := by
  unfold State.muslin
  dsimp only
  split
  · rfl
  · split
    · exact State.losses_modCtx s c _ (fun _ => rfl)
    · generalize hq : State.pathWrite _ _ _ _ _ _ _ = q
      have h : q.losses = s.losses := hq ▸ State.losses_of_ctxs (State.pathWrite_ctxs ..)
      exact (State.losses_of_ctxs rfl).trans (State.losses_mod c h (f := fun x => { x with lptr := _ }) (fun _ => rfl))

@[simp] theorem State.useEntry_losses (s : State) (c : Nat) (x : Nat × LogEntry) : (s.useEntry c x).losses = s.losses := by
  unfold State.useEntry
  dsimp only
  split
  · exact State.losses_mod c (State.losses_modCtx s c _ (fun _ => rfl)) (fun _ => rfl)
  · exact State.losses_modCtx s c _ (fun _ => rfl)

@[simp] theorem State.noteOrder_losses (s : State) (c : Nat) (l : Location) (m : List Nat) : (s.noteOrder c l m).losses = s.losses := by
  unfold State.noteOrder
  split <;> simp

@[simp] theorem State.noteValue_losses (s : State) (g : Gang) (v : List Nat) : (s.noteValue g v).losses = s.losses := by
  unfold State.noteValue
  split <;> simp

@[simp] theorem State.fire_losses (s : State) (c o v : Nat) : (s.fire c o v).losses = s.losses := by
  unfold State.fire
  dsimp only
  repeat' split
  all_goals exact State.muslin_losses ..

@[simp] theorem State.log_losses (s : State) (c k pa w d : Nat) : (s.log c k pa w d).losses = s.losses := by
  unfold State.log
  dsimp only
  split
  · rfl
  · split
    · exact State.losses_modCtx s c _ (fun _ => rfl)
    · generalize hq : State.pathWrite _ _ _ _ _ _ _ = q
      have h : q.losses = s.losses := hq ▸ State.losses_of_ctxs (State.pathWrite_ctxs ..)
      split
      · exact (State.fire_losses ..).trans (State.losses_mod c h (fun _ => rfl))
      · exact State.losses_mod c h (fun _ => rfl)

@[simp] theorem State.countAt_ctxs (s : State) (c e a : Nat) (p : Nat → Nat → Bool) : (s.countAt c e a p).ctxs = s.ctxs := by
  unfold State.countAt
  refine foldl_keep State.ctxs _ (fun st n => ?_) _ _
  dsimp only
  split
  · exact State.bump_ctxs ..
  · rfl

@[simp] theorem State.count_ctxs (s : State) (g : Gang) (e a : Nat) : (s.count g e a).ctxs = s.ctxs := State.countAt_ctxs ..

@[simp] theorem State.countIssue_ctxs (s : State) (g : Gang) (ci ct : Nat) : (s.countIssue g ci ct).ctxs = s.ctxs := by
  simp [State.countIssue]

@[simp] theorem State.postFlag_losses (s : State) (c f n x : Nat) : (s.postFlag c f n x).losses = s.losses := by
  unfold State.postFlag
  dsimp only
  repeat' split
  all_goals (try rw [State.log_losses])
  all_goals first
    | rfl
    | exact State.losses_of_ctxs (State.count_ctxs ..)

@[simp] theorem State.noteFlight_losses (s : State) (f : Flight) : (s.noteFlight f).losses = s.losses :=
  foldl_keep State.losses _ (fun _ _ => State.noteOrder_losses ..) _ _

@[simp] theorem State.dropFlight_losses (s : State) (id : Nat) : (s.dropFlight id).losses = s.losses := by
  unfold State.dropFlight
  split
  · exact State.noteFlight_losses ..
  · rfl

@[simp] theorem State.payAll_losses (s : State) (u : Nat) (old : List Flight) (ci ct : Nat) : (s.payAll u old ci ct).losses = s.losses := rfl

@[simp] theorem State.endDecoupled_losses (s : State) (f : Flight) (n : Nat) : (s.endDecoupled f n).losses = s.losses := by
  unfold State.endDecoupled
  split <;> rfl

@[simp] theorem State.applyFence_losses (s : State) (f : Flight) (op : Nat) : (s.applyFence f op).losses = s.losses := by
  refine State.losses_of_ctxs ?_
  unfold State.applyFence
  dsimp only
  repeat' split
  all_goals simp

@[simp] theorem State.applyReleases_losses (s : State) : s.applyReleases.losses = s.losses := by
  unfold State.applyReleases
  refine foldl_keep State.losses _ (fun st f => ?_) _ _
  dsimp only
  split
  · split
    · rw [State.dropFlight_losses, State.endDecoupled_losses]
      split
      · rfl
      · exact State.postFlag_losses ..
    · rfl
  · split
    · rw [State.dropFlight_losses, State.losses_modCohort]
      split <;> rfl
    · rfl
  · split
    · rw [State.dropFlight_losses, State.applyFence_losses]
    · rfl
  · rfl

@[simp] theorem State.noteSeal_losses (s : State) (g : Gang) : (s.noteSeal g).losses = s.losses := by
  unfold State.noteSeal
  dsimp only
  split
  · rw [State.useEntry_losses]
    split
    · rfl
    · exact State.losses_modCtx _ g.ctx _ (fun _ => rfl)
  · rw [State.muslin_losses]; rfl

/-! ## No trap that waits -/

/-- What only passed by the gangs and left the counts of losses leaves no late trap where there was none. -/
theorem State.noLateTrap_passed {s t : State} (h : passed t.gangs = passed s.gangs) (hl : t.losses = s.losses) (hs : s.noLateTrap) : t.noLateTrap := by
  intro x hx
  have : x.pass ∈ passed s.gangs := h ▸ List.mem_map_of_mem hx
  obtain ⟨y, hy, hxy⟩ := List.mem_map.1 this
  have h1 : y.iss.dueTrap = x.iss.dueTrap := congrArg (fun g => g.iss.dueTrap) hxy
  have h2 : y.iss.tretTo = x.iss.tretTo := congrArg (fun g => g.iss.tretTo) hxy
  have h3 : y.lostStore = x.lostStore := congrArg (fun g => g.lostStore) hxy
  have h4 : y.loss = x.loss := congrArg (fun g => g.loss) hxy
  have h5 : y.ctx = x.ctx := congrArg (fun g => g.ctx) hxy
  have := hs y hy
  refine ⟨h1 ▸ this.1, h2 ▸ this.2.1, h3 ▸ this.2.2.1, ?_⟩
  rw [← h4, ← h5, this.2.2.2]
  exact (congrFun hl y.ctx).symm

end Sys2Proof.Machine
end

