-- ==== Sys2Proof/Laws/Issue.lean ====
section
/-! SUPPORT. What an issue does, said once: when a gang issues an instruction whose meaning takes effect, the step answers the state with the
effect committed, and what the commit leaves of the gang is its registers, its budgets and its next address. -/

namespace Sys2Proof.Machine

/-! ## Register writes and what passes by -/

theorem Gang.put_pass (g : Gang) (w : RegWrite) : (g.put w).pass = g.pass.put w := by
  unfold Gang.put
  cases w.dst <;> try rfl
  dsimp only [Gang.pass]
  split <;> rfl

theorem Gang.putAll_pass (ws : List RegWrite) (g : Gang) : (g.putAll ws).pass = g.pass.putAll ws := by
  unfold Gang.putAll
  induction ws generalizing g with
  | nil => rfl
  | cons w ws ih => rw [List.foldl_cons, List.foldl_cons, ih, Gang.put_pass]

theorem Gang.ctr_pass (g : Gang) (n : Nat) (f : Nat → Nat) : (g.ctr n f).pass = g.pass.ctr n f := rfl

theorem Gang.issueMarks_pass {g g' : Gang} (h : g'.pass = g.pass) (f : Eff) (n : Word64) (ci ct : Nat) :
    (g'.issueMarks f n ci ct).pass = (g.issueMarks f n ci ct).pass := by
  have key : ∀ x : Gang, (x.issueMarks f n ci ct).pass =
      (fun y : Gang => { y with pc := f.next.getD n, ctl := { y.ctl with fx := fxSet y.ctl.fx f.fx }
                                iss := { y.iss with issued := true, exhausted := none, age := 0, waitFrom := none, waited := false, first := false } })
        ((((x.pass.putAll f.writes).ctr 9 (· + 1)).ctr 10 (· + ci)).ctr 11 (· + ct)) := by
    intro x
    rw [← Gang.putAll_pass, ← Gang.ctr_pass, ← Gang.ctr_pass, ← Gang.ctr_pass]
    rfl
  rw [key, key, h]

@[simp] theorem Gang.put_uid (g : Gang) (w : RegWrite) : (g.put w).uid = g.uid := by
  unfold Gang.put
  cases w.dst <;> try rfl
  dsimp only
  split <;> rfl

/-- Register writes change registers, predicates, branch registers and fx, and nothing else. -/
theorem Gang.put_frame (g : Gang) (w : RegWrite) :
    g.put w = { g with regs := (g.put w).regs, ctl := { g.ctl with p := (g.put w).ctl.p, b := (g.put w).ctl.b, fx := (g.put w).ctl.fx } } := by
  unfold Gang.put
  cases w.dst <;> try rfl
  dsimp only
  split <;> rfl

theorem Gang.putAll_frame (ws : List RegWrite) (g : Gang) :
    g.putAll ws = { g with regs := (g.putAll ws).regs
                           ctl := { g.ctl with p := (g.putAll ws).ctl.p, b := (g.putAll ws).ctl.b, fx := (g.putAll ws).ctl.fx } } := by
  unfold Gang.putAll
  induction ws generalizing g with
  | nil => rfl
  | cons w ws ih =>
    rw [List.foldl_cons]
    conv_lhs => rw [ih (g.put w)]
    rw [Gang.put_frame g w]

@[simp] theorem Gang.putAll_uid (g : Gang) (ws : List RegWrite) : (g.putAll ws).uid = g.uid := by rw [Gang.putAll_frame]
@[simp] theorem Gang.issueMarks_uid (g : Gang) (f : Eff) (n : Word64) (ci ct : Nat) : (g.issueMarks f n ci ct).uid = g.uid := by
  simp [Gang.issueMarks, Gang.ctr]
@[simp] theorem Gang.putAll_iss (g : Gang) (ws : List RegWrite) : (g.putAll ws).iss = g.iss := by rw [Gang.putAll_frame]
@[simp] theorem Gang.putAll_spec (g : Gang) (ws : List RegWrite) : (g.putAll ws).spec = g.spec := by rw [Gang.putAll_frame]
@[simp] theorem Gang.putAll_lostStore (g : Gang) (ws : List RegWrite) : (g.putAll ws).lostStore = g.lostStore := by rw [Gang.putAll_frame]
@[simp] theorem Gang.putAll_pend (g : Gang) (ws : List RegWrite) : (g.putAll ws).pend = g.pend := by rw [Gang.putAll_frame]

/-! ## Seals -/

/-- The parts of a gang that tell of a late trap. -/
def Gang.late (g : Gang) : Option DueTrap × Option (Word64 × Bool) × Bool × BitVec 16 × Nat :=
  (g.iss.dueTrap, g.iss.tretTo, g.lostStore, g.loss, g.ctx)

theorem Gang.takeSeal_late (g : Gang) : g.takeSeal.late = g.late := by
  unfold Gang.takeSeal
  split
  · rfl
  · dsimp only; split <;> rfl

theorem Gang.takeSplit_late (g : Gang) (out : Bool) : (g.takeSplit out).late = g.late := by
  unfold Gang.takeSplit
  split
  · rfl
  · dsimp only; split <;> rfl

theorem Gang.takeSeal_uid (g : Gang) : g.takeSeal.uid = g.uid := by
  unfold Gang.takeSeal
  split
  · rfl
  · dsimp only; split <;> rfl

theorem Gang.takeSplit_uid (g : Gang) (out : Bool) : (g.takeSplit out).uid = g.uid := by
  unfold Gang.takeSplit
  split
  · rfl
  · dsimp only; split <;> rfl

theorem Gang.takeSeal_none {g : Gang} (h : g.iss.sealTo = none) : g.takeSeal = g := by unfold Gang.takeSeal; rw [h]
theorem Gang.takeSplit_none {g : Gang} (h : g.iss.splitTo = none) (out : Bool) : g.takeSplit out = g := by unfold Gang.takeSplit; rw [h]

/-- What a seal that is taken changes: cp, cpm, the shadow bank and the marks (R62, R66). -/
theorem Gang.takeSeal_frame (g : Gang) :
    g.takeSeal = { g with spec := { g.spec with cp := g.takeSeal.spec.cp, cpm := g.takeSeal.spec.cpm }, shadow := g.takeSeal.shadow, iss := g.takeSeal.iss } := by
  unfold Gang.takeSeal
  split
  · rfl
  · dsimp only; split <;> rfl

theorem Gang.takeSeal_split (g : Gang) : g.takeSeal.iss.splitTo = g.iss.splitTo := by
  unfold Gang.takeSeal
  split
  · rfl
  · dsimp only; split <;> rfl

/-! ## The end of every step -/

theorem noLate_of_late {f : Nat → Ctx} {x y : Gang} (h : x.late = y.late)
    (hy : y.iss.dueTrap = none ∧ y.iss.tretTo = none ∧ y.lostStore = false ∧ y.loss = (f y.ctx).loss) :
    x.iss.dueTrap = none ∧ x.iss.tretTo = none ∧ x.lostStore = false ∧ x.loss = (f x.ctx).loss := by
  simp only [Gang.late, Prod.mk.injEq] at h
  obtain ⟨h1, h2, h3, h4, h5⟩ := h
  exact ⟨h1 ▸ hy.1, h2 ▸ hy.2.1, h3 ▸ hy.2.2.1, by rw [h4, h5]; exact hy.2.2.2⟩

theorem State.takeLate_none {s : State} (h : s.noLateTrap) : s.takeLate = s := by
  unfold State.takeLate
  refine foldl_id _ _ s (fun x _ => ?_)
  cases hg : s.gang? x.uid with
  | none => rfl
  | some g =>
    have hl := h g (State.gang?_mem hg)
    have hr : s.lostRelease g = none := by simp [State.lostRelease, hl.2.2.1]
    have hf : s.lossFence g = none := by simp [State.lossFence, hl.2.2.2]
    dsimp only
    rw [hl.1, hr, hf]
    split <;> rfl

theorem State.takeReturns_none {s : State} (h : s.noLateTrap) : s.takeReturns = s := by
  unfold State.takeReturns
  refine foldl_id _ _ s (fun x hx => ?_)
  rw [(h x hx).2.1]

theorem State.takeSeals_noLateTrap {s : State} (h : s.noLateTrap) : s.takeSeals.noLateTrap := by
  unfold State.takeSeals
  dsimp only
  have h1 : ({ s with gangs := s.gangs.map (fun g => g.takeSeal.takeSplit (s.resultsOut g.uid)) } : State).noLateTrap := by
    intro x hx
    obtain ⟨y, hy, rfl⟩ := List.mem_map.1 hx
    exact noLate_of_late ((Gang.takeSplit_late ..).trans (Gang.takeSeal_late y)) (h y hy)
  exact foldl_inv State.noLateTrap _ (fun st g hst => by
    split
    · exact State.noLateTrap_passed (State.noteSeal_passed st g) (State.noteSeal_losses st g) hst
    · exact hst) _ _ h1

/-- The end of a step, for a gang: releases pass by it, and its own seal or split is taken. -/
theorem State.pump_gang {s : State} (h : s.noLateTrap) {uid : Nat} {g : Gang} (hg : s.gang? uid = some g) :
    ∃ (g1 g' : Gang) (out : Bool), g1.pass = g.pass ∧ s.pump.gang? uid = some g' ∧ g'.pass = (g1.takeSeal.takeSplit out).pass := by
  have hr : s.applyReleases.noLateTrap := State.noLateTrap_passed (State.applyReleases_passed s) (State.applyReleases_losses s) h
  obtain ⟨g1, hg1, hp1⟩ := State.gang?_passed (State.applyReleases_passed s) hg
  unfold State.pump
  rw [State.takeReturns_none (State.takeSeals_noLateTrap hr), State.takeLate_none (State.takeSeals_noLateTrap hr)]
  refine ⟨g1, ?_⟩
  have hm : ({ s.applyReleases with gangs := s.applyReleases.gangs.map (fun g => g.takeSeal.takeSplit (s.applyReleases.resultsOut g.uid)) } : State).gang? uid
      = some (g1.takeSeal.takeSplit (s.applyReleases.resultsOut g1.uid)) := by
    unfold State.gang? at hg1 ⊢
    dsimp only
    rw [find_uid_map _ _ _ (fun x _ => by rw [Gang.takeSplit_uid, Gang.takeSeal_uid]), hg1]
    rfl
  have hk : passed s.applyReleases.takeSeals.gangs =
      passed ({ s.applyReleases with gangs := s.applyReleases.gangs.map (fun g => g.takeSeal.takeSplit (s.applyReleases.resultsOut g.uid)) } : State).gangs := by
    unfold State.takeSeals
    refine foldl_keep (fun x => passed x.gangs) _ (fun st g => ?_) _ _
    split
    · exact State.noteSeal_passed st g
    · rfl
  obtain ⟨g', hg', hp'⟩ := State.gang?_passed hk hm
  exact ⟨g', _, hp1, hg', hp'⟩

/-- For a gang with nothing to seal, the end of a step only passes by. -/
theorem State.pump_quiet {s : State} (h : s.noLateTrap) {uid : Nat} {g : Gang} (hg : s.gang? uid = some g) (hs : g.iss.sealTo = none)
    (hp : g.iss.splitTo = none) : ∃ g', s.pump.gang? uid = some g' ∧ g'.pass = g.pass := by
  obtain ⟨g1, g', out, h1, h2, h3⟩ := State.pump_gang h hg
  have e1 : g1.iss.sealTo = none := by
    have := congrArg (fun x => x.iss.sealTo) h1; simpa [Gang.pass, hs] using this
  have e2 : g1.iss.splitTo = none := by
    have := congrArg (fun x => x.iss.splitTo) h1; simpa [Gang.pass, hp] using this
  refine ⟨g', h2, ?_⟩
  rw [h3, Gang.takeSeal_none e1, Gang.takeSplit_none e2, h1]

/-- A gang without cp, cpm and all marks of issue besides what passes by. -/
def Gang.body (g : Gang) : Gang :=
  { g.pass with iss := {}, spec := { g.spec with cp := 0, cpm := 0 } }

theorem Gang.body_of_pass {g g' : Gang} (h : g'.pass = g.pass) : g'.body = g.body := by
  have key : ∀ x : Gang, x.body = { x.pass with iss := {}, spec := { x.pass.spec with cp := 0, cpm := 0 } } := fun _ => rfl
  rw [key, key, h]

/-- The end of a step with a seal: everything but cp, cpm and the marks. -/
theorem State.pump_body {s : State} (h : s.noLateTrap) {uid : Nat} {g : Gang} (hg : s.gang? uid = some g)
    (hp : g.iss.splitTo = none) : ∃ g', s.pump.gang? uid = some g' ∧ g'.body = g.body := by
  obtain ⟨g1, g', out, h1, h2, h3⟩ := State.pump_gang h hg
  have e2 : g1.takeSeal.iss.splitTo = none := by
    rw [Gang.takeSeal_split]
    have := congrArg (fun x => x.iss.splitTo) h1; simpa [Gang.pass, hp] using this
  refine ⟨g', h2, ?_⟩
  rw [Gang.body_of_pass h3, Gang.takeSplit_none e2, ← Gang.body_of_pass h1]
  rw [Gang.takeSeal_frame g1]
  rfl

/-! ## Committing -/

/-- What a commit does to its gang before the end of the step. -/
theorem State.commit_gang {i : Instr} {e : Env} {f : Eff} {ci ct : Nat} {g1 : Gang} (h1 : f.st.gang? e.g.uid = some g1)
    (hl : f.st.noLateTrap) (hseal : g1.iss.sealTo = none) (hsplit : g1.iss.splitTo = none) :
    ∃ g', (State.commit i e f ci ct).gang? e.g.uid = some g' ∧ g'.body = (g1.issueMarks f e.npc ci ct).body ∧
      (i.seals = false → g'.pass = (g1.issueMarks f e.npc ci ct).pass) := by
  have hu : g1.uid = e.g.uid := State.gang?_uid h1
  unfold State.commit
  dsimp only
  generalize hA : State.modCore _ e.g.gcore _ = A
  have hApass : passed A.gangs = passed f.st.gangs := by rw [← hA]; simp
  obtain ⟨a, ha, hap⟩ := State.gang?_passed hApass h1
  have haseal : a.iss.sealTo = none := by
    have := congrArg (fun x => x.iss.sealTo) hap; simpa [Gang.pass, hseal] using this
  have hasplit : a.iss.splitTo = none := by
    have := congrArg (fun x => x.iss.splitTo) hap; simpa [Gang.pass, hsplit] using this
  have hAl : A.noLateTrap := State.noLateTrap_passed hApass (State.losses_of_ctxs (by rw [← hA]; simp)) hl
  have hB : (A.modGang e.g.uid (fun g => g.issueMarks f e.npc ci ct)).gang? e.g.uid = some (a.issueMarks f e.npc ci ct) :=
    State.gang?_modGang_same _ (fun x => by simp) ha
  have hBl : (A.modGang e.g.uid (fun g => g.issueMarks f e.npc ci ct)).noLateTrap := by
    intro x hx
    simp only [State.modGang_gangs, List.mem_map] at hx
    obtain ⟨y, hy, rfl⟩ := hx
    have := hAl y hy
    split
    · exact noLate_of_late (by simp [Gang.late, Gang.issueMarks, Gang.ctr]; rw [Gang.putAll_frame]; exact ⟨rfl, rfl⟩) this
    · exact this
  have hbseal : (a.issueMarks f e.npc ci ct).iss.sealTo = none := by simpa [Gang.issueMarks, Gang.ctr] using haseal
  have hbsplit : (a.issueMarks f e.npc ci ct).iss.splitTo = none := by simpa [Gang.issueMarks, Gang.ctr] using hasplit
  generalize hBe : A.modGang e.g.uid (fun g => g.issueMarks f e.npc ci ct) = B at hB hBl
  by_cases hs : i.seals = true
  · rw [if_pos hs]
    generalize hCe : B.modGang e.g.uid (fun g => { g with iss := { g.iss with sealTo := some (f.next.getD e.npc) } }) = C
    have hC : C.gang? e.g.uid = some { a.issueMarks f e.npc ci ct with
        iss := { (a.issueMarks f e.npc ci ct).iss with sealTo := some (f.next.getD e.npc) } } := by
      rw [← hCe]; exact State.gang?_modGang_same _ (fun x => rfl) hB
    have hCl : C.noLateTrap := by
      rw [← hCe]
      intro x hx
      simp only [State.modGang_gangs, List.mem_map] at hx
      obtain ⟨y, hy, rfl⟩ := hx
      split
      · exact hBl y hy
      · exact hBl y hy
    obtain ⟨c, hc, hcp⟩ := State.gang?_passed (State.payAll_passed C e.g.uid e.s.flights ci ct) hC
    have hcsplit : c.iss.splitTo = none := by
      have := congrArg (fun x => x.iss.splitTo) hcp; simpa [Gang.pass, hbsplit] using this
    obtain ⟨g', hg', hb'⟩ := State.pump_body (s := { C.payAll e.g.uid e.s.flights ci ct with note := .issued })
      (State.noLateTrap_passed (State.payAll_passed C e.g.uid e.s.flights ci ct) (State.payAll_losses C e.g.uid e.s.flights ci ct) hCl) hc hcsplit
    refine ⟨g', hg', ?_, fun h => by simp [hs] at h⟩
    rw [hb', Gang.body_of_pass hcp, ← Gang.body_of_pass (Gang.issueMarks_pass hap f e.npc ci ct)]
    rfl
  · rw [if_neg hs]
    obtain ⟨c, hc, hcp⟩ := State.gang?_passed (State.payAll_passed B e.g.uid e.s.flights ci ct) hB
    have hcseal : c.iss.sealTo = none := by
      have := congrArg (fun x => x.iss.sealTo) hcp; simpa [Gang.pass, hbseal] using this
    have hcsplit : c.iss.splitTo = none := by
      have := congrArg (fun x => x.iss.splitTo) hcp; simpa [Gang.pass, hbsplit] using this
    obtain ⟨g', hg', hp'⟩ := State.pump_quiet (s := { B.payAll e.g.uid e.s.flights ci ct with note := .issued })
      (State.noLateTrap_passed (State.payAll_passed B e.g.uid e.s.flights ci ct) (State.payAll_losses B e.g.uid e.s.flights ci ct) hBl) hc hcseal hcsplit
    refine ⟨g', hg', ?_, fun _ => ?_⟩
    · rw [Gang.body_of_pass hp', Gang.body_of_pass hcp, Gang.body_of_pass (Gang.issueMarks_pass hap f e.npc ci ct)]
    · rw [hp', hcp, Gang.issueMarks_pass hap]

/-! ## Issuing -/

theorem run_gang {i : Instr} {m : Sem} {s : State} {g : Gang} (ht : s.turn = some g.uid) (hg : s.gang? g.uid = some g) :
    run i m s = .next (runSimt i m g s) := by
  simp [run, ht, hg]

/-- A gang that issues an instruction: the step answers what the instruction's meaning says. -/
theorem run_issues {i : Instr} {m : Sem} {s : State} {g : Gang} (h : Issues s g i) :
    run i m s = .next (
      let ct := m.ct (simtEnv s g i)
      let e := simtEnv s (g.charge (ciOf i.maj) ct) i
      match m.op e with
      | .wait st => { st with note := .waiting, gangs := st.gangs.map (fun x =>
          if x.uid == g.uid then { x with spec := { x.spec with ib := g.spec.ib, tb := g.spec.tb }, iss := { x.iss with waited := true } } else x) }
      | .trap t => if g.fits (ciOf i.maj) ct then s.chargedTrap g (ciOf i.maj) ct t g.pc (g.pc + 8) else s.exhaust g.uid g.pc (g.pc + 8)
      | .ok f => if g.fits (ciOf i.maj) ct then State.commit i e f (ciOf i.maj) ct else s.exhaust g.uid g.pc (g.pc + 8)) := by
  rw [run_gang h.turn h.here]
  unfold runSimt
  have hb : (s.scoreboard g.uid i || (i.seals && s.resultsOut g.uid)) = false := by
    rw [h.clear, Bool.false_or]
    cases hs : i.seals with
    | false => rfl
    | true => simpa using h.back hs
  rw [if_neg (by simp [h.free]), if_neg (by simp [h.keeps]), if_neg (by simp [h.simt]), if_neg (by simp [h.legal]), if_neg (by simp [hb])]
  rfl

theorem Gang.fits_of {g : Gang} {ci ct : Nat} (h1 : ci ≤ g.spec.ib.toNat) (h2 : ct ≤ g.spec.tb.toNat) (h3 : g.iss.drained = false) :
    g.fits ci ct = true := by
  simp [Gang.fits, h1, h2, h3]

/-- A meaning that takes effect is committed. -/
theorem run_ok {i : Instr} {m : Sem} {s : State} {g : Gang} {f : Eff} (h : Issues s g i)
    (hct : m.ct (simtEnv s g i) ≤ g.spec.tb.toNat)
    (hop : m.op (simtEnv s (g.charge (ciOf i.maj) (m.ct (simtEnv s g i))) i) = .ok f) :
    run i m s = .next (State.commit i (simtEnv s (g.charge (ciOf i.maj) (m.ct (simtEnv s g i))) i) f (ciOf i.maj) (m.ct (simtEnv s g i))) := by
  rw [run_issues h]
  dsimp only
  rw [hop]
  dsimp only
  rw [if_pos (Gang.fits_of h.pays hct h.fresh)]

@[simp] theorem Gang.charge_uid (g : Gang) (ci ct : Nat) : (g.charge ci ct).uid = g.uid := rfl

/-- The gang in the environment of its own instruction. -/
theorem simtEnv_gang {s : State} {g : Gang} (hg : s.gang? g.uid = some g) (x : Gang) (hx : x.uid = g.uid) (i : Instr) :
    (simtEnv s x i).s.gang? x.uid = some x := by
  show (s.setGang x).gang? x.uid = some x
  exact State.gang?_setGang_same (by rw [hx]; exact hg)

theorem simtEnv_noLateTrap {s : State} {g : Gang} (hg : s.gang? g.uid = some g) (hl : s.noLateTrap) (x : Gang)
    (hx : x.late = g.late) (i : Instr) : (simtEnv s x i).s.noLateTrap := by
  intro y hy
  have hy' : y ∈ s.gangs.map (fun z => if z.uid == x.uid then x else z) := hy
  obtain ⟨z, hz, rfl⟩ := List.mem_map.1 hy'
  split
  · exact noLate_of_late hx (hl g (State.gang?_mem hg))
  · exact hl z hz

theorem Issues.unsealed {s : State} {g : Gang} {i : Instr} (h : Issues s g i) : g.iss.sealTo = none ∧ g.iss.splitTo = none := by
  have := h.free
  simp only [Gang.cannotIssue, Bool.or_eq_false_iff, Option.isSome_eq_false_iff, Option.isNone_iff_eq_none] at this
  tauto

/-- An instruction whose meaning writes registers and does nothing else: it completes, and this is its gang after it. -/
theorem run_writes {i : Instr} {m : Sem} {s : State} {g : Gang} {ws : List RegWrite} {fx : Fx} {nx : Option Word64} (h : Issues s g i)
    (hct : m.ct (simtEnv s g i) = 0)
    (hop : m.op (simtEnv s (g.charge (ciOf i.maj) 0) i) =
      .ok { st := (simtEnv s (g.charge (ciOf i.maj) 0) i).s, writes := ws, fx := fx, next := nx }) (hs : i.seals = false) :
    ∃ t g', run i m s = .next t ∧ t.gang? g.uid = some g' ∧
      g'.pass = ((g.charge (ciOf i.maj) 0).issueMarks { st := s, writes := ws, fx := fx, next := nx } (g.pc + 8) (ciOf i.maj) 0).pass := by
  have hr := run_ok (m := m) h (by omega) (by rw [hct]; exact hop)
  rw [hct] at hr
  have hu := h.unsealed
  have hg : (simtEnv s (g.charge (ciOf i.maj) 0) i).s.gang? g.uid = some (g.charge (ciOf i.maj) 0) :=
    simtEnv_gang h.here (g.charge (ciOf i.maj) 0) rfl i
  obtain ⟨g', h1, _, h3⟩ := State.commit_gang (i := i) (e := simtEnv s (g.charge (ciOf i.maj) 0) i)
    (f := { st := (simtEnv s (g.charge (ciOf i.maj) 0) i).s, writes := ws, fx := fx, next := nx }) (ci := ciOf i.maj) (ct := 0) hg
    (simtEnv_noLateTrap h.here h.calm (g.charge (ciOf i.maj) 0) rfl i) hu.1 hu.2
  exact ⟨_, g', hr, h1, h3 hs⟩

end Sys2Proof.Machine
end

