-- ==== Sys2Proof/Laws/Shapes.lean ====
section
/-! SUPPORT. The shapes of the arithmetic instructions: which registers their writes name, and that an instruction which takes effect in
each executing strand completes and changes only those. -/

namespace Sys2Proof.Machine

/-! ## Files -/

theorem File.get_put {w : Nat} (f : File w) (k x : Nat) (v : BitVec w) : (f.put k v).get x = if k = x then v else f.get x := by
  by_cases h : k = x <;> simp [File.get, File.put, SMap.find_set, h]

/-! ## What writes leave alone -/

theorem Gang.put_v (g : Gang) (w : RegWrite) (k : Nat) (h : ∀ st r, w.dst = .v st r → 128 * st + r ≠ k) :
    (g.put w).regs.v.get k = g.regs.v.get k := by
  unfold Gang.put
  cases hw : w.dst <;> try rfl
  · next st r => dsimp only; rw [File.get_put, if_neg (h st r hw)]
  · dsimp only; split <;> rfl

theorem Gang.put_s (g : Gang) (w : RegWrite) (n : Nat) (h : ∀ r, w.dst = .s r → r ≠ n) : (g.put w).regs.s.get n = g.regs.s.get n := by
  unfold Gang.put
  cases hw : w.dst <;> try rfl
  · next r => dsimp only; rw [File.get_put, if_neg (h r hw)]
  · dsimp only; split <;> rfl

theorem Gang.put_p (g : Gang) (w : RegWrite) (h : ∀ st r, w.dst ≠ .p st r) : (g.put w).ctl.p = g.ctl.p := by
  unfold Gang.put
  cases hw : w.dst <;> try rfl
  next st r => exact absurd hw (h st r)

theorem Gang.put_b (g : Gang) (w : RegWrite) (h : ∀ r, w.dst ≠ .b r) : (g.put w).ctl.b = g.ctl.b := by
  unfold Gang.put
  cases hw : w.dst <;> try rfl
  · dsimp only; split <;> rfl
  · next r => exact absurd hw (h r)

theorem Gang.put_g (g : Gang) (w : RegWrite) (h : ∀ r, w.dst ≠ .g r) : (g.put w).regs.g = g.regs.g := by
  unfold Gang.put
  cases hw : w.dst <;> try rfl
  · dsimp only; split <;> rfl
  · next r => exact absurd hw (h r)

theorem Gang.put_h (g : Gang) (w : RegWrite) (h : ∀ r, w.dst ≠ .h r) : (g.put w).regs.h = g.regs.h := by
  unfold Gang.put
  cases hw : w.dst <;> try rfl
  · dsimp only; split <;> rfl
  · next r => exact absurd hw (h r)

theorem Gang.put_pt (g : Gang) (w : RegWrite) (h : ∀ r, w.dst ≠ .pt r) : (g.put w).regs.pt = g.regs.pt := by
  unfold Gang.put
  cases hw : w.dst <;> try rfl
  · dsimp only; split <;> rfl
  · next r => exact absurd hw (h r)

theorem Gang.put_fx (g : Gang) (w : RegWrite) (h : w.dst ≠ .fx) : (g.put w).ctl.fx = g.ctl.fx := by
  unfold Gang.put
  cases hw : w.dst <;> try rfl
  · dsimp only; split <;> rfl
  · exact absurd hw h

/-- A part of the gang that every write of a list keeps. -/
theorem Gang.putAll_keep {γ : Type} (p : Gang → γ) (ws : List RegWrite) (g : Gang) (h : ∀ w ∈ ws, ∀ x : Gang, p (x.put w) = p x) :
    p (g.putAll ws) = p g := by
  unfold Gang.putAll
  induction ws generalizing g with
  | nil => rfl
  | cons w ws ih =>
    rw [List.foldl_cons, ih _ (fun y hy => h y (List.mem_cons_of_mem _ hy)), h w (List.mem_cons_self ..)]

/-! ## Environments of the SIMT decoder -/

@[simp] theorem simtEnv_vliw (s : State) (g : Gang) (i : Instr) : (simtEnv s g i).vliw = false := rfl
@[simp] theorem simtEnv_g (s : State) (g : Gang) (i : Instr) : (simtEnv s g i).g = g := rfl
@[simp] theorem simtEnv_place (s : State) (g : Gang) (i : Instr) : (simtEnv s g i).place = .simt := rfl

theorem simtEnv_runs (s : State) (g : Gang) (i : Instr) (ci ct st : Nat) :
    (simtEnv s (g.charge ci ct) i).runs st = g.executes i st := by
  simp only [Env.runs, simtEnv, Gang.executes, Env.guard, Env.vliw, Gang.charge, Gang.pred]
  rfl

theorem simtEnv_parts (s : State) (g : Gang) (i : Instr) (ci ct : Nat) :
    (simtEnv s (g.charge ci ct) i).parts = (List.range 32).filter (g.executes i) := by
  unfold Env.parts
  exact List.filter_congr (fun st _ => simtEnv_runs s g i ci ct st)

theorem Env.unpoisoned {e : Env} (h : e.g.regs.poison = []) (xs : List Src) : e.poisoned xs = false := by
  have hp : ∀ x i, e.srcPoison x i = false := by
    intro x i; unfold Env.srcPoison; rw [if_pos (by simp [h])]
  simp [Env.poisoned, hp]

/-- Results for each participant, with no poison among the sources. -/
theorem Env.each_ok {e : Env} (h : e.g.regs.poison = []) (xs : List Src) (f : Nat → List RegWrite × Fx) :
    e.each xs f = .ok { st := e.s, writes := ((e.parts.map f).map Prod.fst).flatten, fx := (e.parts.map f).foldl (fun a r => a ||| r.2) 0 } := by
  unfold Env.each
  rw [if_neg (by simp [Env.unpoisoned h])]

/-- The destinations of a result field under the SIMT decoder. -/
theorem simtEnv_dst {s : State} {g : Gang} {i : Instr} {d : Reg} {w : OpW} {st : Nat} {v : BitVec 128} {x : RegWrite}
    (h : x ∈ (simtEnv s g i).dst d w st v) :
    (d.toNat < 128 ∧ ∃ q, q < OpW.words w ∧ x.dst = .v st ((d.toNat + q) % 128)) ∨ (128 ≤ d.toNat ∧ d.toNat < 192 ∧ x.dst = .s (d.toNat - 128)) := by
  unfold Env.dst dstRegs at h
  simp only [simtEnv_place, wideColumn, simtEnv_vliw, Bool.false_or, decide_eq_true_eq] at h
  split at h
  · next hn =>
    left
    refine ⟨hn, ?_⟩
    obtain ⟨q, hq, rfl⟩ := List.mem_map.1 h
    refine ⟨q, ?_, rfl⟩
    have := List.mem_range.1 hq
    cases w <;> simpa [OpW.words] using this
  · next hn =>
    right
    split at h
    · next hm =>
      split at h
      · simp only [List.mem_singleton] at h
        subst h
        exact ⟨by omega, hm, rfl⟩
      · simp at h
    · simp at h

/-! ## Instructions that write one destination field -/

/-- What the writes of an instruction with one destination field name. -/
def DstOnly (g : Gang) (i : Instr) (d : Reg) (w : OpW) (ws : List RegWrite) : Prop :=
  ∀ x ∈ ws, (∃ st q, g.executes i st = true ∧ d.toNat < 128 ∧ q < OpW.words w ∧ x.dst = .v st ((d.toNat + q) % 128)) ∨
    (128 ≤ d.toNat ∧ x.dst = .s (d.toNat - 128))

theorem DstOnly.wrote {g : Gang} {i : Instr} {d : Reg} {w : OpW} {ws : List RegWrite} (h : DstOnly g i d w ws) :
    WroteOnly g (g.putAll ws) i d w where
  v k hk := by
    refine Gang.putAll_keep (fun x => x.regs.v.get k) ws g (fun x hx y => Gang.put_v y x k (fun st r hd => ?_))
    rcases h x hx with ⟨st', q, he, hd128, hq, hdst⟩ | ⟨_, hdst⟩
    · rw [hd] at hdst
      injection hdst with h1 h2
      intro hkk
      have hr : r < 128 := by omega
      have hst : k / 128 = st := by omega
      have hmod : k % 128 = r := by omega
      have : writesV g i d w k = true := by
        simp only [writesV, Bool.and_eq_true, decide_eq_true_eq, List.any_eq_true, List.mem_range, beq_iff_eq]
        exact ⟨⟨by rw [hst, h1]; exact he, hd128⟩, q, hq, by rw [hmod, h2]⟩
      rw [hk] at this
      exact Bool.false_ne_true this
    · rw [hd] at hdst; cases hdst
  s n hn := by
    refine Gang.putAll_keep (fun x => x.regs.s.get n) ws g (fun x hx y => Gang.put_s y x n (fun r hd => ?_))
    rcases h x hx with ⟨st', q, he, hd128, hq, hdst⟩ | ⟨h128, hdst⟩
    · rw [hd] at hdst; cases hdst
    · rw [hd] at hdst; injection hdst with h1; omega
  g := Gang.putAll_keep (fun x => x.regs.g) ws g (fun x hx y => Gang.put_g y x (fun r hd => by
    rcases h x hx with ⟨_, _, _, _, _, hdst⟩ | ⟨_, hdst⟩ <;> (rw [hd] at hdst; cases hdst)))
  h := Gang.putAll_keep (fun x => x.regs.h) ws g (fun x hx y => Gang.put_h y x (fun r hd => by
    rcases h x hx with ⟨_, _, _, _, _, hdst⟩ | ⟨_, hdst⟩ <;> (rw [hd] at hdst; cases hdst)))
  pt := Gang.putAll_keep (fun x => x.regs.pt) ws g (fun x hx y => Gang.put_pt y x (fun r hd => by
    rcases h x hx with ⟨_, _, _, _, _, hdst⟩ | ⟨_, hdst⟩ <;> (rw [hd] at hdst; cases hdst)))
  p := Gang.putAll_keep (fun x => x.ctl.p) ws g (fun x hx y => Gang.put_p y x (fun st r hd => by
    rcases h x hx with ⟨_, _, _, _, _, hdst⟩ | ⟨_, hdst⟩ <;> (rw [hd] at hdst; cases hdst)))
  b := Gang.putAll_keep (fun x => x.ctl.b) ws g (fun x hx y => Gang.put_b y x (fun r hd => by
    rcases h x hx with ⟨_, _, _, _, _, hdst⟩ | ⟨_, hdst⟩ <;> (rw [hd] at hdst; cases hdst)))

/-- The writes of an instruction with a result in each executing strand. -/
theorem each_dstOnly {s : State} {g : Gang} {i j : Instr} {ci ct : Nat} {d : Reg} {w : OpW} (f : Nat → List RegWrite × Fx)
    (hf : ∀ st x, x ∈ (f st).1 → ∃ v, x ∈ (simtEnv s (g.charge ci ct) j).dst d w st v) :
    DstOnly g i d w ((((simtEnv s (g.charge ci ct) i).parts.map f).map Prod.fst).flatten) := by
  intro x hx
  simp only [List.map_map, List.mem_flatten, List.mem_map] at hx
  obtain ⟨l, ⟨st, hst, rfl⟩, hx⟩ := hx
  rw [simtEnv_parts] at hst
  have hex := (List.mem_filter.1 hst).2
  obtain ⟨v, hv⟩ := hf st x hx
  rcases simtEnv_dst hv with ⟨h1, q, hq, hdst⟩ | ⟨h1, h2, hdst⟩
  · exact Or.inl ⟨st, q, hex, h1, hq, hdst⟩
  · exact Or.inr ⟨h1, hdst⟩

/-! ## Completion -/

theorem Gang.putAll_charge (ci ct : Nat) (ws : List RegWrite) (x : Gang) : (x.charge ci ct).putAll ws = (x.putAll ws).charge ci ct := by
  induction ws generalizing x with
  | nil => rfl
  | cons w ws ih =>
    have : (x.charge ci ct).put w = (x.put w).charge ci ct := by
      unfold Gang.put
      cases w.dst <;> try rfl
      dsimp only [Gang.charge]
      split <;> rfl
    unfold Gang.putAll at ih ⊢
    rw [List.foldl_cons, List.foldl_cons, this, ih]

theorem Gang.body_pc {x y : Gang} (h : x.body = y.body) : x.pc = y.pc := congrArg (fun z => z.pc) h
theorem Gang.body_regs {x y : Gang} (h : x.body = y.body) : x.regs = y.regs := congrArg (fun z => z.regs) h
theorem Gang.body_ctl {x y : Gang} (h : x.body = y.body) : { x.ctl with k := [] } = { y.ctl with k := [] } := congrArg (fun z => z.ctl) h
theorem Gang.body_spec {x y : Gang} (h : x.body = y.body) : { x.spec with cp := 0, cpm := 0 } = { y.spec with cp := 0, cpm := 0 } :=
  congrArg (fun z => z.spec) h

/-- The marks of issue, field by field. -/
theorem Gang.issueMarks_eq (g : Gang) (f : Eff) (n : Word64) (ci ct : Nat) : ∃ cs is,
    (g.charge ci ct).issueMarks f n ci ct =
      { g with pc := f.next.getD n, regs := (g.putAll f.writes).regs, iss := is
               ctl := { g.ctl with p := (g.putAll f.writes).ctl.p, b := (g.putAll f.writes).ctl.b, fx := fxSet (g.putAll f.writes).ctl.fx f.fx }
               spec := { g.spec with ib := g.spec.ib - BitVec.ofNat 32 ci, tb := g.spec.tb - BitVec.ofNat 32 ct, ctrs := cs } } := by
  obtain ⟨y, hy⟩ : ∃ y, g.putAll f.writes = y := ⟨_, rfl⟩
  have hf : y = { g with regs := y.regs, ctl := { g.ctl with p := y.ctl.p, b := y.ctl.b, fx := y.ctl.fx } } := hy ▸ Gang.putAll_frame f.writes g
  have hx : (g.charge ci ct).putAll f.writes = y.charge ci ct := by rw [Gang.putAll_charge, hy]
  rw [hy]
  refine ⟨((((y.charge ci ct).ctr 9 (· + 1)).ctr 10 (· + ci)).ctr 11 (· + ct)).spec.ctrs, ((g.charge ci ct).issueMarks f n ci ct).iss, ?_⟩
  simp only [Gang.issueMarks, hx]
  rw [hf]
  rfl

/-- What the marks of issue leave of a gang. -/
theorem leaves_of_body {g g' : Gang} {i : Instr} {f : Eff} {ct : Nat} {n : Word64}
    (h : g'.body = ((g.charge (ciOf i.maj) ct).issueMarks f n (ciOf i.maj) ct).body)
    (hp : i.seals = false → g'.pass = ((g.charge (ciOf i.maj) ct).issueMarks f n (ciOf i.maj) ct).pass) :
    Leaves g g' i ct ∧ g'.pc = f.next.getD n ∧ g'.regs = (g.putAll f.writes).regs ∧ g'.ctl.p = (g.putAll f.writes).ctl.p ∧
      g'.ctl.b = (g.putAll f.writes).ctl.b ∧ g'.ctl.fx = fxSet (g.putAll f.writes).ctl.fx f.fx := by
  obtain ⟨cs, is, he⟩ := Gang.issueMarks_eq g f n (ciOf i.maj) ct
  rw [he] at h hp
  have hctl := Gang.body_ctl h
  have hspec := Gang.body_spec h
  simp only [Ctl.mk.injEq, Spec.mk.injEq] at hctl hspec
  refine ⟨⟨?_, ?_, ?_, congrArg (fun z => z.park) h, congrArg (fun z => z.pend) h⟩, (Gang.body_pc h :), (Gang.body_regs h :), hctl.1, by tauto, by tauto⟩
  · have hcp : i.seals = false → g'.spec.cp = g.spec.cp ∧ g'.spec.cpm = g.spec.cpm := by
      intro hs
      have := congrArg (fun z => z.spec) (hp hs)
      simp only [Gang.pass] at this
      rw [this]
      exact ⟨rfl, rfl⟩
    cases hg : g'.spec
    rw [hg] at hspec hcp
    simp only [Spec.mk.injEq] at hspec ⊢
    cases hs : i.seals with
    | false => have := hcp hs; simp only [Bool.false_eq_true, if_false]; tauto
    | true => simp only [if_true]; tauto
  · cases hg : g'.ctl
    rw [hg] at hctl
    simp only [Ctl.mk.injEq] at hctl ⊢
    tauto
  · cases hg' : g'
    rw [hg'] at h
    simp only [Gang.body, Gang.pass, Gang.mk.injEq] at h ⊢
    tauto

/-- An instruction that takes effect: what its step leaves of its gang, told from a gang g0 that holds the effect on the gang itself. -/
theorem run_leaves {i : Instr} {m : Sem} {s : State} {g g0 g1 : Gang} {f : Eff} {ct : Nat} (h : Issues s g i) (hct : m.ct (simtEnv s g i) = ct)
    (hfit : ct ≤ g.spec.tb.toNat) (hop : m.op (simtEnv s (g.charge (ciOf i.maj) ct) i) = .ok f) (hl : f.st.noLateTrap)
    (hg1 : f.st.gang? g.uid = some g1) (hp1 : g1.pass = (g0.charge (ciOf i.maj) ct).pass) (h0 : g0.iss.sealTo = none ∧ g0.iss.splitTo = none) :
    ∃ t g', run i m s = .next t ∧ t.gang? g.uid = some g' ∧ Leaves g0 g' i ct ∧ g'.pc = f.next.getD (g.pc + 8) ∧
      g'.regs = (g0.putAll f.writes).regs ∧ g'.ctl.p = (g0.putAll f.writes).ctl.p ∧ g'.ctl.b = (g0.putAll f.writes).ctl.b ∧
      g'.ctl.fx = fxSet (g0.putAll f.writes).ctl.fx f.fx := by
  subst hct
  have hr := run_ok h hfit hop
  have hs1 : g1.iss.sealTo = none := by
    have := congrArg (fun z => z.iss.sealTo) hp1
    simpa [Gang.pass, Gang.charge, h0.1] using this
  have hs2 : g1.iss.splitTo = none := by
    have := congrArg (fun z => z.iss.splitTo) hp1
    simpa [Gang.pass, Gang.charge, h0.2] using this
  obtain ⟨g', h1, h2, h3⟩ := State.commit_gang (i := i) (e := simtEnv s (g.charge (ciOf i.maj) (m.ct (simtEnv s g i))) i) (f := f)
    (ci := ciOf i.maj) (ct := m.ct (simtEnv s g i)) hg1 hl hs1 hs2
  have hm := Gang.issueMarks_pass hp1 f (g.pc + 8) (ciOf i.maj) (m.ct (simtEnv s g i))
  obtain ⟨a, b, c, d, e, f'⟩ := leaves_of_body (g := g0) (g' := g') (i := i) (f := f) (ct := m.ct (simtEnv s g i)) (n := g.pc + 8)
    (by rw [h2]; exact Gang.body_of_pass hm) (fun hs => by rw [h3 hs]; exact hm)
  exact ⟨_, g', hr, h1, a, b, c, d, e, f'⟩

/-- The same where the effect on other parts of the state only passes by the gangs. -/
theorem run_passes {i : Instr} {m : Sem} {s : State} {g : Gang} {f : Eff} {ct : Nat} (h : Issues s g i) (hct : m.ct (simtEnv s g i) = ct)
    (hfit : ct ≤ g.spec.tb.toNat) (hop : m.op (simtEnv s (g.charge (ciOf i.maj) ct) i) = .ok f)
    (hp : passed f.st.gangs = passed (simtEnv s (g.charge (ciOf i.maj) ct) i).s.gangs) (hl : f.st.losses = s.losses) :
    ∃ t g', run i m s = .next t ∧ t.gang? g.uid = some g' ∧ Leaves g g' i ct ∧ g'.pc = f.next.getD (g.pc + 8) ∧
      g'.regs = (g.putAll f.writes).regs ∧ g'.ctl.p = (g.putAll f.writes).ctl.p ∧ g'.ctl.b = (g.putAll f.writes).ctl.b ∧
      g'.ctl.fx = fxSet (g.putAll f.writes).ctl.fx f.fx := by
  obtain ⟨g1, hg1, hp1⟩ := State.gang?_passed hp (simtEnv_gang h.here (g.charge (ciOf i.maj) ct) rfl i)
  exact run_leaves h hct hfit hop (State.noLateTrap_passed hp hl (simtEnv_noLateTrap h.here h.calm (g.charge (ciOf i.maj) ct) rfl i)) hg1 hp1 h.unsealed

/-- An instruction whose meaning writes one destination field and nothing else completes. -/
theorem run_dst {i : Instr} {m : Sem} {s : State} {g : Gang} {ws : List RegWrite} {fx : Fx} {d : Reg} {w : OpW} (h : Issues s g i)
    (hct : m.ct (simtEnv s g i) = 0)
    (hop : m.op (simtEnv s (g.charge (ciOf i.maj) 0) i) = .ok { st := (simtEnv s (g.charge (ciOf i.maj) 0) i).s, writes := ws, fx := fx })
    (hw : DstOnly g i d w ws) :
    ∃ t g', run i m s = .next t ∧ t.gang? g.uid = some g' ∧ g'.pc = g.pc + 8 ∧ Leaves g g' i 0 ∧ WroteOnly g g' i d w ∧
      g'.regs = (g.putAll ws).regs ∧ g'.ctl.fx = fxSet g.ctl.fx fx := by
  obtain ⟨t, g', h1, h2, hl, hpc, hr, hp, hb, hf⟩ := run_passes h hct (Nat.zero_le _) hop rfl rfl
  have hwr := hw.wrote
  have hfx : (g.putAll ws).ctl.fx = g.ctl.fx := Gang.putAll_keep (fun x => x.ctl.fx) ws g (fun x hx y => Gang.put_fx y x (fun hd => by
    rcases hw x hx with ⟨_, _, _, _, _, hdst⟩ | ⟨_, hdst⟩ <;> (rw [hd] at hdst; cases hdst)))
  refine ⟨t, g', h1, h2, hpc, hl, ⟨?_, ?_, ?_, ?_, ?_, ?_, ?_⟩, hr, by rw [hf, hfx]⟩
  · intro k hk; rw [hr]; exact hwr.v k hk
  · intro n hn; rw [hr]; exact hwr.s n hn
  · rw [hr]; exact hwr.g
  · rw [hr]; exact hwr.h
  · rw [hr]; exact hwr.pt
  · rw [hp]; exact hwr.p
  · rw [hb]; exact hwr.b

/-! ## Results -/

/-- Where every write of a key writes one value, and some write writes the key, that value stands there. -/
theorem Gang.putAll_v {ws : List RegWrite} {k : Nat} {val : Word32} (g : Gang)
    (hall : ∀ w ∈ ws, ∀ st r, w.dst = .v st r → 128 * st + r = k → w.val.setWidth 32 = val)
    (hex : (∃ w ∈ ws, ∃ st r, w.dst = .v st r ∧ 128 * st + r = k) ∨ g.regs.v.get k = val) : (g.putAll ws).regs.v.get k = val := by
  induction ws generalizing g with
  | nil =>
    rcases hex with ⟨w, hw, _⟩ | h
    · cases hw
    · exact h
  | cons w ws ih =>
    show ((g.put w).putAll ws).regs.v.get k = val
    have hrest : ∀ x ∈ ws, ∀ st r, x.dst = .v st r → 128 * st + r = k → x.val.setWidth 32 = val :=
      fun x hx => hall x (List.mem_cons_of_mem _ hx)
    by_cases hw : ∃ st r, w.dst = .v st r ∧ 128 * st + r = k
    · obtain ⟨st, r, hd, hk⟩ := hw
      refine ih (g.put w) hrest (Or.inr ?_)
      unfold Gang.put
      rw [hd]
      dsimp only
      rw [File.get_put, if_pos hk]
      exact hall w (List.mem_cons_self ..) st r hd hk
    · refine ih (g.put w) hrest ?_
      rcases hex with ⟨x, hx, st, r, hd, hk⟩ | h
      · rcases List.mem_cons.1 hx with rfl | hx
        · exact absurd ⟨st, r, hd, hk⟩ hw
        · exact Or.inl ⟨x, hx, st, r, hd, hk⟩
      · exact Or.inr (by rw [Gang.put_v g w k (fun st r hd hk => hw ⟨st, r, hd, hk⟩), h])

theorem Gang.putAll_s {ws : List RegWrite} {k : Nat} {val : Word64} (g : Gang)
    (hall : ∀ w ∈ ws, w.dst = .s k → w.val = val) (hex : (∃ w ∈ ws, w.dst = .s k) ∨ g.regs.s.get k = val) :
    (g.putAll ws).regs.s.get k = val := by
  induction ws generalizing g with
  | nil =>
    rcases hex with ⟨w, hw, _⟩ | h
    · cases hw
    · exact h
  | cons w ws ih =>
    show ((g.put w).putAll ws).regs.s.get k = val
    have hrest : ∀ x ∈ ws, x.dst = .s k → x.val = val := fun x hx => hall x (List.mem_cons_of_mem _ hx)
    by_cases hw : w.dst = .s k
    · refine ih (g.put w) hrest (Or.inr ?_)
      unfold Gang.put
      rw [hw]
      dsimp only
      rw [File.get_put, if_pos rfl]
      exact hall w (List.mem_cons_self ..) hw
    · refine ih (g.put w) hrest ?_
      rcases hex with ⟨x, hx, hd⟩ | h
      · rcases List.mem_cons.1 hx with rfl | hx
        · exact absurd hd hw
        · exact Or.inl ⟨x, hx, hd⟩
      · exact Or.inr (by rw [Gang.put_s g w k (fun r hd hk => hw (by rw [hd, hk])), h])

theorem simtEnv_lead {s : State} {g : Gang} {i : Instr} {ci ct st : Nat} (h : g.executes i st = true)
    (hl : ∀ st' < st, g.executes i st' = false) : (simtEnv s (g.charge ci ct) i).lead = st := by
  have hst : st < 32 := by
    simp only [Gang.executes, Bool.and_eq_true, decide_eq_true_eq] at h; exact h.1.1
  unfold Env.lead
  rw [simtEnv_vliw, if_neg Bool.false_ne_true, simtEnv_parts]
  have : ((List.range 32).filter (g.executes i)).head? = (List.range 32).find? (g.executes i) := by
    rw [List.head?_filter]
  rw [this, List.find?_range_eq_some.2 ⟨h, List.mem_range.2 hst, fun j hj => by simp [hl j hj]⟩]
  rfl

/-- What an s-register takes of a result. -/
def sPart (w : OpW) (v : BitVec 128) : Word64 :=
  match w with
  | .w32 => (v.setWidth 32).setWidth 64
  | _ => v.setWidth 64

theorem sPart_eq (w : OpW) (v : BitVec 128) : sPart w v = BitVec.ofNat 64 (v.toNat % 2 ^ (32 * min 2 (OpW.words w))) := by
  apply BitVec.eq_of_toNat_eq
  cases w <;> simp [OpW.words, sPart]

/-- The results of an instruction that writes one field in each executing strand. -/
theorem each_gets {s : State} {g : Gang} {i : Instr} {ci ct : Nat} {d : Reg} {w : OpW} {ws : List RegWrite} {y : Gang} (v : Nat → BitVec 128)
    (hws : ws = ((simtEnv s (g.charge ci ct) i).parts.map (fun st => (simtEnv s (g.charge ci ct) i).dst d w st (v st))).flatten)
    (hy : y.regs = (g.putAll ws).regs) : gets g y i d w (fun st => (v st).toNat) := by
  have hmem : ∀ x, x ∈ ws ↔ ∃ st, g.executes i st = true ∧ x ∈ (simtEnv s (g.charge ci ct) i).dst d w st (v st) := by
    intro x
    rw [hws]
    simp only [List.mem_flatten, List.mem_map, simtEnv_parts, List.mem_filter, List.mem_range]
    constructor
    · rintro ⟨l, ⟨st, ⟨_, he⟩, rfl⟩, hx⟩; exact ⟨st, he, hx⟩
    · rintro ⟨st, he, hx⟩
      have : st < 32 := by
        simp only [Gang.executes, Bool.and_eq_true, decide_eq_true_eq] at he; exact he.1.1
      exact ⟨_, ⟨st, ⟨this, he⟩, rfl⟩, hx⟩
  refine ⟨fun hd st he q hq => ?_, fun hd1 hd2 st he hlow => ?_⟩
  · rw [hy]
    have hdst : ∀ st', (simtEnv s (g.charge ci ct) i).dst d w st' (v st') = (List.range (OpW.words w)).map (fun q =>
        { dst := .v st' ((d.toNat + q) % 128), val := ((v st' >>> (32 * q)).setWidth 32).setWidth 64 }) := by
      intro st'
      unfold Env.dst dstRegs
      simp only [simtEnv_place, wideColumn, simtEnv_vliw, Bool.false_or, decide_eq_true_eq, if_pos hd, vDst, Bool.false_eq_true, if_false]
      cases w <;> rfl
    have h4 : OpW.words w ≤ 4 := by cases w <;> decide
    have hval : ∀ st' q', q' < OpW.words w → 128 * st' + (d.toNat + q') % 128 = 128 * st + (d.toNat + q) % 128 → st' = st ∧ q' = q := by
      intro st' q' hq' he'
      omega
    refine Gang.putAll_v g (fun x hx st' r hxd hk => ?_) (Or.inl ?_)
    · obtain ⟨st'', _, hx⟩ := (hmem x).1 hx
      rw [hdst] at hx
      obtain ⟨q', hq', rfl⟩ := List.mem_map.1 hx
      have hq' := List.mem_range.1 hq'
      injection hxd with h1 h2
      subst h1 h2
      obtain ⟨rfl, rfl⟩ := hval _ _ hq' hk
      apply BitVec.eq_of_toNat_eq
      simp only [BitVec.toNat_setWidth, BitVec.toNat_ofNat, BitVec.toNat_ushiftRight, Nat.shiftRight_eq_div_pow]
      omega
    · refine ⟨{ dst := .v st ((d.toNat + q) % 128), val := ((v st >>> (32 * q)).setWidth 32).setWidth 64 }, ?_, st, _, rfl, rfl⟩
      exact (hmem _).2 ⟨st, he, by rw [hdst]; exact List.mem_map.2 ⟨q, List.mem_range.2 hq, rfl⟩⟩
  · rw [hy]
    have hlead : (simtEnv s (g.charge ci ct) i).lead = st := simtEnv_lead he hlow
    have hdst : ∀ st', (simtEnv s (g.charge ci ct) i).dst d w st' (v st') = if st' == st then
        [{ dst := .s (d.toNat - 128), val := sPart w (v st') }] else [] := by
      intro st'
      unfold Env.dst dstRegs
      simp only [simtEnv_place, wideColumn, simtEnv_vliw, Bool.false_or, decide_eq_true_eq, if_neg (Nat.not_lt.2 hd1), if_pos hd2, hlead]
      rfl
    refine Gang.putAll_s g (fun x hx hxd => ?_) (Or.inl ?_)
    · obtain ⟨st'', _, hx⟩ := (hmem x).1 hx
      rw [hdst] at hx
      split at hx
      · next heq =>
        have heq := eq_of_beq heq
        subst heq
        simp only [List.mem_singleton] at hx
        subst hx
        exact sPart_eq w (v st'')
      · cases hx
    · refine ⟨{ dst := .s (d.toNat - 128), val := sPart w (v st) }, (hmem _).2 ⟨st, he, ?_⟩, rfl⟩
      rw [hdst, if_pos (beq_self_eq_true st)]
      exact List.mem_singleton.2 rfl

/-! ## Instructions with a result in each executing strand -/

@[simp] theorem fxSet_zero (x : Word32) : fxSet x 0 = x := by simp [fxSet]
/-- fx is sticky. -/
theorem fxSet_keeps (x : Word32) (q : Fx) : fxSet x q &&& x = x := by
  simp only [fxSet]
  ext i hi
  simp
  tauto

/-- An instruction whose effect is a result for field d in each executing strand completes; its frame, its results and its flags. -/
theorem run_strands {i : Instr} {m : Sem} {s : State} {g : Gang} {d : Reg} {w : OpW} {fx : Fx} (h : Issues s g i)
    (hct : m.ct (simtEnv s g i) = 0) (v : Nat → BitVec 128)
    (hop : m.op (simtEnv s (g.charge (ciOf i.maj) 0) i) = .ok { st := (simtEnv s (g.charge (ciOf i.maj) 0) i).s, fx := fx
                                                                writes := ((simtEnv s (g.charge (ciOf i.maj) 0) i).parts.map (fun st =>
      (simtEnv s (g.charge (ciOf i.maj) 0) i).dst d w st (v st))).flatten }) :
    ∃ t g', run i m s = .next t ∧ t.gang? g.uid = some g' ∧ g'.pc = g.pc + 8 ∧ Leaves g g' i 0 ∧ WroteOnly g g' i d w ∧
      gets g g' i d w (fun st => (v st).toNat) ∧ g'.ctl.fx = fxSet g.ctl.fx fx := by
  have hw : DstOnly g i d w (((simtEnv s (g.charge (ciOf i.maj) 0) i).parts.map (fun st =>
      (simtEnv s (g.charge (ciOf i.maj) 0) i).dst d w st (v st))).flatten) := by
    have := each_dstOnly (s := s) (g := g) (i := i) (j := i) (d := d) (w := w) (ct := 0) (ci := ciOf i.maj)
      (fun st => ((simtEnv s (g.charge (ciOf i.maj) 0) i).dst d w st (v st), 0)) (fun st x hx => ⟨v st, hx⟩)
    rwa [List.map_map] at this
  obtain ⟨t, g', h1, h2, h3, h4, h5, h6, h7⟩ := run_dst h hct hop hw
  exact ⟨t, g', h1, h2, h3, h4, h5, each_gets (ci := ciOf i.maj) (ct := 0) v rfl h6, h7⟩

/-- The flags of all strands together are none, where each strand's are. -/
theorem flags_none {α : Type} (f : α → List RegWrite × Fx) (l : List α) (h : ∀ x, (f x).2 = 0) : (l.map f).foldl (fun a r => a ||| r.2) (0 : Fx) = 0 := by
  simp only [List.foldl_map, h]
  induction l with
  | nil => rfl
  | cons a l ih => simp

/-- The same for a meaning that is told by each strand's result and flags. -/
theorem run_each {i : Instr} {m : Sem} {s : State} {g : Gang} {d : Reg} {w : OpW} (h : Issues s g i) (hp : g.regs.poison = [])
    (hct : m.ct (simtEnv s g i) = 0) (xs : List Src) (v : Nat → BitVec 128) (fx : Nat → Fx)
    (hop : m.op (simtEnv s (g.charge (ciOf i.maj) 0) i) = (simtEnv s (g.charge (ciOf i.maj) 0) i).each xs
      (fun st => ((simtEnv s (g.charge (ciOf i.maj) 0) i).dst d w st (v st), fx st))) :
    ∃ t g', run i m s = .next t ∧ t.gang? g.uid = some g' ∧ g'.pc = g.pc + 8 ∧ Leaves g g' i 0 ∧ WroteOnly g g' i d w ∧
      gets g g' i d w (fun st => (v st).toNat) ∧ ∃ q, g'.ctl.fx = fxSet g.ctl.fx q ∧ ((∀ st, fx st = 0) → q = 0) := by
  rw [Env.each_ok (e := simtEnv s (g.charge (ciOf i.maj) 0) i) hp, List.map_map] at hop
  obtain ⟨t, g', h1, h2, h3, h4, h5, h6, h7⟩ := run_strands h hct v hop
  exact ⟨t, g', h1, h2, h3, h4, h5, h6, _, h7, fun hz => flags_none _ _ hz⟩

/-- The lane instructions that read register a of another strand. -/
theorem gather_ok {x : RF} {others : List Src} {uni : Bool} {src : Env → Nat → Nat} {e : Env} (h : e.g.regs.poison = []) :
    (gather x others uni src).op e = .ok { st := e.s, writes :=
      (e.parts.map (fun i => e.dst x.d (iType x.mod).opw i ((e.read { f := x.a, w := (iType x.mod).opw } (src e i)).setWidth 128))).flatten } := by
  have hs : ∀ (x : Src) (i : Nat), e.srcPoison x i = false := by
    intro x i; unfold Env.srcPoison; rw [if_pos (by simp [h])]
  have h1 : others.any e.uniPoison = false := by
    rw [List.any_eq_false]
    intro x _
    unfold Env.uniPoison
    simp [hs]
  have h2 := Env.unpoisoned h others
  simp only [gather, hs, h1, h2]
  simp

end Sys2Proof.Machine
end

