-- ==== Sys2Proof/Laws/Calm.lean ====
section
/-! SUPPORT. An issue with nothing else about to happen in its step: the next state, written out, and that every byte of memory reads as it did
where the effect of the instruction stands. -/

namespace Sys2Proof.Machine

/-! ## Parts that stay -/

theorem State.countAt_off {s : State} {core : Nat} (h : (List.range 8).all (fun n => !(s.reg (counterBlock core + 16 * n)).getLsbD 18) = true)
    (ev amount : Nat) (pass : Nat → Nat → Bool) : s.countAt core ev amount pass = s := by
  unfold State.countAt
  refine foldl_id _ _ s (fun n hn => ?_)
  have := List.all_eq_true.1 h n hn
  simp only [Bool.not_eq_true'] at this
  dsimp only
  rw [this]
  rfl

theorem State.calm_countIssue {s : State} {g : Gang} (h : s.calmFor g = true) (ci ct : Nat) : s.countIssue g ci ct = s := by
  simp only [State.calmFor, Bool.and_eq_true] at h
  unfold State.countIssue State.count
  rw [State.countAt_off h.1.2, State.countAt_off h.1.2, State.countAt_off h.1.2]

theorem State.calm_gingham {s : State} {g : Gang} (h : s.calmFor g = true) (v : Bool) (pc : Word64) (cs : List Nat) :
    s.gingham g v pc cs = s := by
  simp only [State.calmFor, Bool.and_eq_true, Bool.not_eq_true'] at h
  unfold State.gingham
  dsimp only
  rw [h.2]
  rfl

theorem State.calm_firstIssue {s : State} {g : Gang} (h : s.calmFor g = true) (x : Gang) : (s.firstIssue x).calmFor g = true := by
  unfold State.firstIssue
  split
  · exact h
  · exact h

theorem State.applyReleases_off {s : State} (h : s.flights.all (fun f => !f.releases) = true) : s.applyReleases = s := by
  unfold State.applyReleases
  refine foldl_id _ _ s (fun f hf => ?_)
  have hr := List.all_eq_true.1 h f hf
  simp only [Bool.not_eq_true'] at hr
  unfold Flight.releases at hr
  cases hk : f.kind <;> rw [hk] at hr <;> dsimp only at hr ⊢ <;> first | rfl | exact absurd hr (by decide) | (rw [hr]; rfl)

theorem State.takeSeals_off {s : State} (h : ∀ x ∈ s.gangs, x.iss.sealTo = none ∧ x.iss.splitTo = none ∧ x.iss.mseal = false) : s.takeSeals = s := by
  unfold State.takeSeals
  dsimp only
  have hm : s.gangs.map (fun g => g.takeSeal.takeSplit (s.resultsOut g.uid)) = s.gangs := by
    have : s.gangs.map (fun g => g.takeSeal.takeSplit (s.resultsOut g.uid)) = s.gangs.map id := List.map_congr_left (fun x hx => by
      rw [Gang.takeSeal_none (h x hx).1, Gang.takeSplit_none (h x hx).2.1]; rfl)
    rw [this, List.map_id]
  rw [hm]
  refine foldl_id _ _ s (fun x hx => ?_)
  rw [(h x hx).2.2]
  rfl

/-- A release that stays in its kind after the charge is noted. -/
theorem State.payAll_releases (s : State) (uid : Nat) (old : List Flight) (ci ct : Nat) :
    (s.payAll uid old ci ct).flights.all (fun f => !f.releases) = s.flights.all (fun f => !f.releases) := by
  unfold State.payAll
  simp only [State.modGang_flights, List.all_map]
  congr 1
  funext f
  simp only [Function.comp]
  split <;> rfl

/-- The next state of an issue with nothing else about to happen. -/
theorem State.commit_calm {i : Instr} {e : Env} {f : Eff} {ci ct : Nat} (hq : f.st.calmFor e.g = true) (hl : f.st.noLateTrap)
    (hs : i.seals = false) : ∃ F, (∀ c, (F c).shares = c.shares) ∧ State.commit i e f ci ct =
      { ((((f.st.firstIssue e.g).modCore e.g.gcore F).modGang e.g.uid (fun g => g.issueMarks f e.npc ci ct)).payAll e.g.uid e.s.flights ci ct) with
        note := .issued } := by
  have hq' := State.calm_firstIssue hq e.g
  unfold State.commit
  dsimp only
  rw [State.calm_countIssue hq', State.calm_gingham hq', hs]
  simp only [Bool.false_eq_true, if_false]
  generalize hF : (fun (c : Core) => ({ c with
      beat := SMap.set c.beat (e.g.slot % 4) (f.st.cycle + 2 * (if isF64 i.maj then 4 else 1))
      last := SMap.set c.last (e.g.slot % 4) (f.st.cycle, e.g.uid), rr := (e.g.slot + 1) % 4 } : Core)) = F
  refine ⟨F, fun c => by rw [← hF], ?_⟩
  have hfl : (f.st.firstIssue e.g).flights = f.st.flights := by unfold State.firstIssue; split <;> rfl
  have hgs : (f.st.firstIssue e.g).gangs = f.st.gangs := State.firstIssue_gangs ..
  generalize hX : ({ ((((f.st.firstIssue e.g).modCore e.g.gcore F).modGang e.g.uid (fun g => g.issueMarks f e.npc ci ct)).payAll e.g.uid e.s.flights ci ct) with
    note := .issued } : State) = X
  have hXf : X.flights.all (fun f => !f.releases) = f.st.flights.all (fun f => !f.releases) := by
    rw [← hX]
    refine (State.payAll_releases ..).trans ?_
    simp only [State.modGang_flights, State.modCore_flights, hfl]
  have hXg : ∀ x ∈ X.gangs, ∃ y ∈ f.st.gangs, x.iss.sealTo = y.iss.sealTo ∧ x.iss.splitTo = y.iss.splitTo ∧ x.iss.mseal = y.iss.mseal ∧
      x.late = y.late := by
    intro x hx
    rw [← hX] at hx
    have hx' : x ∈ ((((f.st.firstIssue e.g).modCore e.g.gcore F).modGang e.g.uid (fun g => g.issueMarks f e.npc ci ct)).payAll e.g.uid e.s.flights ci ct).gangs := hx
    unfold State.payAll at hx'
    simp only [State.modGang_gangs, List.map_map, List.mem_map, Function.comp] at hx'
    obtain ⟨y, hy, rfl⟩ := hx'
    refine ⟨y, ?_, ?_⟩
    · have : y ∈ (f.st.firstIssue e.g).gangs := hy
      rwa [hgs] at this
    · repeat' split
      all_goals first
        | exact ⟨rfl, rfl, rfl, rfl⟩
        | (simp [Gang.issueMarks, Gang.ctr, Gang.late]; rw [Gang.putAll_frame]; exact ⟨rfl, rfl⟩)
  simp only [State.calmFor, Bool.and_eq_true] at hq
  have h1 : X.applyReleases = X := State.applyReleases_off (by rw [hXf]; exact hq.1.1.1)
  have h2 : X.takeSeals = X := State.takeSeals_off (fun x hx => by
    obtain ⟨y, hy, a, b, c, _⟩ := hXg x hx
    have := List.all_eq_true.1 hq.1.1.2 y hy
    simp only [Bool.and_eq_true, Option.isNone_iff_eq_none, Bool.not_eq_true'] at this
    rw [a, b, c]
    exact ⟨this.1.1, this.1.2, this.2⟩)
  have h3 : X.noLateTrap := fun x hx => by
    obtain ⟨y, hy, _, _, _, a⟩ := hXg x hx
    have hc : X.ctx = f.st.ctx := by
      rw [← hX]
      unfold State.firstIssue
      split <;> rfl
    exact noLate_of_late (f := X.ctx) a (by rw [hc]; exact hl y hy)
  unfold State.pump
  rw [h1, h2, State.takeReturns_none h3, State.takeLate_none h3]

/-! ## Bytes -/

theorem State.reg_of {s t : State} (hd : t.dev = s.dev) (a : Nat) : t.reg a = s.reg a := by
  unfold State.reg
  rw [hd]

theorem State.windowAt_of {s t : State} (hd : t.dev = s.dev) : t.windowAt = s.windowAt := by
  funext mc n pa
  unfold State.windowAt
  simp only [State.reg_of hd]

theorem State.window_of {s t : State} (hd : t.dev = s.dev) : t.window = s.window := by
  funext pa
  unfold State.window
  rw [State.windowAt_of hd]

theorem State.windowBad_of {s t : State} (hd : t.dev = s.dev) : t.windowBad = s.windowBad := by
  have hw : t.windowWords = s.windowWords := by
    funext mc n
    unfold State.windowWords
    simp only [State.reg_of hd]
  funext pa
  unfold State.windowBad State.windowsApart
  rw [hd, hw, State.windowAt_of hd]

/-- A window covers whole sectors (R148). -/
theorem State.windowAt_sector (s : State) (mc n pa : Nat) : s.windowAt mc n (64 * (pa / 64)) = s.windowAt mc n pa := by
  unfold State.windowAt
  dsimp only
  generalize bits64 (s.reg (mcBlock mc + 0x100 + 32 * n)) 51 16 = a
  generalize bits64 (s.reg (mcBlock mc + 0x100 + 32 * n + 8)) 51 16 = b
  have h1 : (decide (a * 65536 ≤ 64 * (pa / 64))) = decide (a * 65536 ≤ pa) := by rw [decide_eq_decide]; omega
  have h2 : (decide (64 * (pa / 64) < (b + 1) * 65536)) = decide (pa < (b + 1) * 65536) := by rw [decide_eq_decide]; omega
  rw [h1, h2]

theorem State.windowBad_sector (s : State) (pa : Nat) : s.windowBad (64 * (pa / 64)) = s.windowBad pa := by
  unfold State.windowBad State.windowsApart
  simp only [State.windowAt_sector]

/-- What the reads of main memory depend on. -/
theorem State.sameMain_of {s t : State} (hp : t.paths = s.paths) (hs : t.slices = s.slices) (hd : t.dev = s.dev) (hm : t.dram = s.dram)
    (hx : t.dpoison = s.dpoison) : s.sameMain t := by
  have hw : t.window = s.window := State.window_of hd
  have hB : t.windowBad = s.windowBad := State.windowBad_of hd
  have hsl : ∀ h, t.slice h = s.slice h := by intro h; simp only [State.slice, hs]
  have hl : ∀ pa, t.line2 pa = s.line2 pa := by intro pa; simp only [State.line2, hsl]
  refine ⟨fun pa => by rw [hB], fun p pa _ hpa => ?_⟩
  have hq : s.windowBad (64 * (pa / 64)) = s.windowBad pa := State.windowBad_sector s pa
  have hr : t.ctlRead (pa / 64) = s.ctlRead (pa / 64) := by
    simp only [State.ctlRead, State.poisonAt, hw, hm, hx, hB, hq, hpa, Bool.false_eq_true, if_false]
  have hb : t.homeByte pa = s.homeByte pa := by
    unfold State.homeByte
    simp only [hw, hl, hm, hx, hr, hB]
  unfold State.pathByte
  rw [hp, hb]

/-- What the reads of bytes depend on. -/
theorem State.sameBytes_of {s t : State} (hp : t.paths = s.paths) (hs : t.slices = s.slices) (hd : t.dev = s.dev) (hm : t.dram = s.dram)
    (hx : t.dpoison = s.dpoison) (hc : ∀ n, (t.core n).shares = (s.core n).shares) : s.sameBytes t := by
  have hk : ∀ pa, t.bankByte pa = s.bankByte pa := by
    intro pa
    unfold State.bankByte
    simp only [hc]
  exact ⟨State.sameMain_of hp hs hd hm hx, fun p pa _ => by unfold State.spadByte; rw [hp, hk]⟩

theorem State.sameMain_trans {s t u : State} (h1 : s.sameMain t) (h2 : t.sameMain u) : s.sameMain u :=
  ⟨fun pa => (h2.1 pa).trans (h1.1 pa), fun p pa d h => (h2.2 p pa d ((h1.1 pa).trans h)).trans (h1.2 p pa d h)⟩

theorem State.sameBytes_trans {s t u : State} (h1 : s.sameBytes t) (h2 : t.sameBytes u) : s.sameBytes u :=
  ⟨State.sameMain_trans h1.1 h2.1, fun p pa d => (h2.2 p pa d).trans (h1.2 p pa d)⟩

/-- Committing changes no byte. -/
theorem State.commit_bytes {i : Instr} {e : Env} {f : Eff} {ci ct : Nat} (hq : f.st.calmFor e.g = true) (hl : f.st.noLateTrap)
    (hs : i.seals = false) : f.st.sameBytes (State.commit i e f ci ct) := by
  obtain ⟨F, hF, h⟩ := State.commit_calm (ci := ci) (ct := ct) hq hl hs
  rw [h]
  have key : ∀ {γ : Type} (p : State → γ), (∀ (st : State) l, p { st with launches := l } = p st) → p (f.st.firstIssue e.g) = p f.st := by
    intro γ p hp
    unfold State.firstIssue
    split
    · rfl
    · exact hp _ _
  refine State.sameBytes_of (key State.paths (fun _ _ => rfl)) (key State.slices (fun _ _ => rfl)) (key State.dev (fun _ _ => rfl))
    (key State.dram (fun _ _ => rfl)) (key State.dpoison (fun _ _ => rfl)) (fun n => ?_)
  have hcore : (f.st.firstIssue e.g).cores = f.st.cores := key State.cores (fun _ _ => rfl)
  show ((((f.st.firstIssue e.g).modCore e.g.gcore F)).core n).shares = _
  by_cases hn : n = e.g.gcore
  · subst hn
    rw [State.core_modCore_same, hF]
    simp only [State.core, hcore]
  · rw [State.core_modCore_ne _ _ (Ne.symm hn)]
    simp only [State.core, hcore]

end Sys2Proof.Machine
end

