-- ==== Sys2Proof/Laws/Memory.lean ====
section
/-! SUPPORT. The laws of main memory: every operation keeps its canonical form, a write is read back, and it leaves every other byte alone. -/

namespace Sys2Proof.Machine

/-! ## The canonical form -/

/-- The form, with a lower bound on the addresses. -/
def Memory.wfFrom (lo : Nat) (m : Memory) : Prop := SMap.sortedFrom lo m = true ∧ ∀ c ∈ m, c.2 ≠ Memory.unlisted

theorem Memory.wf_iff (m : Memory) : Memory.wf m = true ↔ Memory.wfFrom 0 m := by
  simp [Memory.wf, Memory.wfFrom, SMap.sorted]

theorem Memory.wfFrom_mono {m : Memory} {lo lo' : Nat} (h : Memory.wfFrom lo m) (hl : lo' ≤ lo) : Memory.wfFrom lo' m :=
  ⟨SMap.sortedFrom_mono h.1 hl, h.2⟩

theorem Memory.wfFrom_nil (lo : Nat) : Memory.wfFrom lo [] := ⟨rfl, by simp⟩

theorem Memory.wfFrom_cons {lo a : Nat} {b : Byte} {m : Memory} :
    Memory.wfFrom lo ((a, b) :: m) ↔ lo ≤ a ∧ b ≠ Memory.unlisted ∧ Memory.wfFrom (a + 1) m := by
  simp only [Memory.wfFrom, SMap.sortedFrom, Bool.and_eq_true, decide_eq_true_eq, List.mem_cons, forall_eq_or_imp]
  constructor
  · rintro ⟨⟨h1, h2⟩, h3, h4⟩; exact ⟨h1, h3, h2, h4⟩
  · rintro ⟨h1, h3, h2, h4⟩; exact ⟨⟨h1, h2⟩, h3, h4⟩

/-- The empty memory of reset has the form. -/
theorem Memory.wf_nil : Memory.wf [] = true := rfl

theorem SMap.mem_set {α : Type} {m : SMap α} {k : Nat} {a : α} {c : Nat × α} (h : c ∈ SMap.set m k a) : c = (k, a) ∨ c ∈ m := by
  induction m with
  | nil => simpa [SMap.set] using h
  | cons x m ih =>
    obtain ⟨j, b⟩ := x
    simp only [SMap.set] at h
    split at h
    · simpa using h
    · split at h
      · simp only [List.mem_cons] at h ⊢
        rcases h with h | h
        · exact Or.inl h
        · exact Or.inr (Or.inr h)
      · simp only [List.mem_cons] at h ⊢
        rcases h with h | h
        · exact Or.inr (Or.inl h)
        · rcases ih h with h | h
          · exact Or.inl h
          · exact Or.inr (Or.inr h)

theorem SMap.mem_erase {α : Type} {m : SMap α} {k : Nat} {c : Nat × α} (h : c ∈ SMap.erase m k) : c ∈ m := by
  induction m with
  | nil => simp [SMap.erase] at h
  | cons x m ih =>
    obtain ⟨j, b⟩ := x
    simp only [SMap.erase] at h
    split at h
    · exact List.mem_cons_of_mem _ h
    · simp only [List.mem_cons] at h ⊢
      rcases h with h | h
      · exact Or.inl h
      · exact Or.inr (ih h)

/-- A write of one byte keeps the form. -/
theorem Memory.wf_write {m : Memory} (h : Memory.wf m = true) (a : Nat) (b : Byte) : Memory.wf (Memory.write m a b) = true := by
  rw [Memory.wf_iff] at h ⊢
  unfold Memory.write
  split
  · exact ⟨SMap.sortedFrom_erase a h.1, fun c hc => h.2 c (SMap.mem_erase hc)⟩
  · next hb =>
    refine ⟨SMap.sortedFrom_set b h.1 (Nat.zero_le _), fun c hc => ?_⟩
    rcases SMap.mem_set hc with rfl | hc
    · exact hb
    · exact h.2 c hc

theorem Memory.wfFrom_cells (a : Nat) (bs : List Byte) : Memory.wfFrom a (Memory.cells a bs) := by
  induction bs generalizing a with
  | nil => exact Memory.wfFrom_nil a
  | cons b bs ih =>
    simp only [Memory.cells]
    split
    · exact Memory.wfFrom_mono (ih (a + 1)) (by omega)
    · next hb => exact Memory.wfFrom_cons.2 ⟨Nat.le_refl _, hb, ih (a + 1)⟩

theorem Memory.mem_cells {a : Nat} {bs : List Byte} {c : Nat × Byte} (h : c ∈ Memory.cells a bs) : a ≤ c.1 ∧ c.1 < a + bs.length := by
  induction bs generalizing a with
  | nil => simp [Memory.cells] at h
  | cons b bs ih =>
    simp only [Memory.cells] at h
    simp only [List.length_cons]
    split at h
    · have := ih h; omega
    · simp only [List.mem_cons] at h
      rcases h with rfl | h
      · simp
      · have := ih h; omega

/-- Two canonical memories of which the second lies above the first. -/
theorem Memory.wfFrom_append {lo hi : Nat} {m n : Memory} (hm : Memory.wfFrom lo m) (hn : Memory.wfFrom hi n) (hb : ∀ c ∈ m, c.1 < hi)
    (hl : lo ≤ hi) : Memory.wfFrom lo (m ++ n) := by
  induction m generalizing lo with
  | nil => exact Memory.wfFrom_mono hn hl
  | cons x m ih =>
    obtain ⟨j, b⟩ := x
    have hj := hb (j, b) (List.mem_cons_self ..)
    rw [Memory.wfFrom_cons] at hm
    simp only [List.cons_append]
    rw [Memory.wfFrom_cons]
    exact ⟨hm.1, hm.2.1, ih hm.2.2 (fun c hc => hb c (List.mem_cons_of_mem _ hc)) (by simpa using hj)⟩

theorem Memory.wfFrom_filter {lo : Nat} {m : Memory} (p : Nat × Byte → Bool) (h : Memory.wfFrom lo m) : Memory.wfFrom lo (m.filter p) := by
  induction m generalizing lo with
  | nil => exact Memory.wfFrom_nil lo
  | cons x m ih =>
    obtain ⟨j, b⟩ := x
    rw [Memory.wfFrom_cons] at h
    simp only [List.filter_cons]
    split
    · exact Memory.wfFrom_cons.2 ⟨h.1, h.2.1, ih h.2.2⟩
    · exact Memory.wfFrom_mono (ih h.2.2) (by omega)

/-- The part above a bound has that bound. -/
theorem Memory.wfFrom_above {lo hi : Nat} {m : Memory} (h : Memory.wfFrom lo m) :
    Memory.wfFrom hi (m.filter (fun c => hi ≤ c.1)) := by
  induction m generalizing lo with
  | nil => exact Memory.wfFrom_nil hi
  | cons x m ih =>
    obtain ⟨j, b⟩ := x
    rw [Memory.wfFrom_cons] at h
    simp only [List.filter_cons]
    split
    · next hj =>
      simp only [decide_eq_true_eq] at hj
      exact Memory.wfFrom_cons.2 ⟨hj, h.2.1, Memory.wfFrom_filter _ h.2.2⟩
    · exact ih h.2.2

/-- A write of a run of bytes keeps the form. -/
theorem Memory.wf_writeN {m : Memory} (h : Memory.wf m = true) (a : Nat) (bs : List Byte) : Memory.wf (Memory.writeN m a bs) = true := by
  rw [Memory.wf_iff] at h ⊢
  unfold Memory.writeN
  rw [List.append_assoc]
  refine Memory.wfFrom_append (Memory.wfFrom_filter _ h) (hi := a) ?_ ?_ (Nat.zero_le _)
  · refine Memory.wfFrom_append (Memory.wfFrom_cells a bs) (hi := a + bs.length) (Memory.wfFrom_above h) ?_ (by omega)
    exact fun c hc => (Memory.mem_cells hc).2
  · intro c hc; simpa using (List.mem_filter.1 hc).2

/-! ## Reading after writing -/

theorem Memory.read_write_same {m : Memory} (h : Memory.wf m = true) (a : Nat) (b : Byte) : Memory.read (Memory.write m a b) a = b := by
  rw [Memory.wf_iff] at h
  unfold Memory.read Memory.write
  split
  · next hb => simp [SMap.get, SMap.find_erase_same h.1, hb]
  · simp

theorem Memory.read_write_ne (m : Memory) {a x : Nat} (b : Byte) (h : a ≠ x) : Memory.read (Memory.write m a b) x = Memory.read m x := by
  unfold Memory.read Memory.write
  split
  · simp [SMap.get, SMap.find_erase_ne m h]
  · simp [SMap.get, SMap.find_set_ne m b h]

theorem SMap.find_append {α : Type} (m n : SMap α) (x : Nat) : SMap.find (m ++ n) x = (SMap.find m x).or (SMap.find n x) := by
  induction m with
  | nil => rfl
  | cons y m ih =>
    obtain ⟨j, b⟩ := y
    simp only [List.cons_append, SMap.find]
    split
    · rfl
    · exact ih

theorem SMap.find_none {α : Type} {m : SMap α} {x : Nat} (h : ∀ c ∈ m, c.1 ≠ x) : SMap.find m x = none := by
  induction m with
  | nil => rfl
  | cons y m ih =>
    obtain ⟨j, b⟩ := y
    have hj := h (j, b) (List.mem_cons_self ..)
    simp only at hj
    simp [SMap.find, hj, ih (fun c hc => h c (List.mem_cons_of_mem _ hc))]

theorem SMap.find_filter {α : Type} (m : SMap α) (p : Nat × α → Bool) (x : Nat) (h : ∀ a, p (x, a) = true) :
    SMap.find (m.filter p) x = SMap.find m x := by
  induction m with
  | nil => rfl
  | cons y m ih =>
    obtain ⟨j, b⟩ := y
    simp only [List.filter_cons]
    split
    · simp only [SMap.find, ih]
    · next hp =>
      have hj : j ≠ x := fun hj => hp (hj ▸ h b)
      simp [SMap.find, hj, ih]

/-- Outside a run of bytes, a write of it leaves every byte as it was. -/
theorem Memory.read_writeN_out (m : Memory) (a : Nat) (bs : List Byte) {x : Nat} (h : x < a ∨ a + bs.length ≤ x) :
    Memory.read (Memory.writeN m a bs) x = Memory.read m x := by
  unfold Memory.read Memory.writeN SMap.get
  rw [SMap.find_append, SMap.find_append]
  have hc : SMap.find (Memory.cells a bs) x = none := SMap.find_none (fun c hc => by have := Memory.mem_cells hc; omega)
  rw [hc]
  rcases h with h | h
  · have h1 : SMap.find (m.filter (fun c => decide (a + bs.length ≤ c.1))) x = none :=
      SMap.find_none (fun c hc => by have := (List.mem_filter.1 hc).2; simp at this; omega)
    rw [h1, SMap.find_filter _ _ _ (fun _ => by simpa using h)]
    simp
  · have h1 : SMap.find (m.filter (fun c => decide (c.1 < a))) x = none :=
      SMap.find_none (fun c hc => by have := (List.mem_filter.1 hc).2; simp at this; omega)
    rw [h1, SMap.find_filter _ _ _ (fun _ => by simpa using h)]
    simp

theorem Memory.get_cells (a : Nat) (bs : List Byte) (i : Nat) (h : i < bs.length) :
    (SMap.find (Memory.cells a bs) (a + i)).getD Memory.unlisted = bs.getD i 0 := by
  induction bs generalizing a i with
  | nil => simp at h
  | cons b bs ih =>
    simp only [Memory.cells]
    cases i with
    | zero =>
      split
      · next hb =>
        rw [SMap.find_none (fun c hc => by have := Memory.mem_cells hc; omega)]
        simp [hb]
      · simp [SMap.find]
    | succ i =>
      have := ih (a + 1) i (by simpa using h)
      rw [show a + (i + 1) = a + 1 + i by omega]
      split
      · simpa using this
      · simp only [SMap.find]
        rw [if_neg (by omega)]
        simpa using this

/-- Inside it, the byte written. -/
theorem Memory.read_writeN_in (m : Memory) (a : Nat) (bs : List Byte) (i : Nat) (h : i < bs.length) :
    Memory.read (Memory.writeN m a bs) (a + i) = bs.getD i 0 := by
  unfold Memory.read Memory.writeN SMap.get
  rw [SMap.find_append, SMap.find_append]
  have h1 : SMap.find (m.filter (fun c => decide (c.1 < a))) (a + i) = none :=
    SMap.find_none (fun c hc => by have := (List.mem_filter.1 hc).2; simp at this; omega)
  have h2 : SMap.find (m.filter (fun c => decide (a + bs.length ≤ c.1))) (a + i) = none :=
    SMap.find_none (fun c hc => by have := (List.mem_filter.1 hc).2; simp at this; omega)
  rw [h1, h2]
  simpa using Memory.get_cells a bs i h

end Sys2Proof.Machine
end

