-- ==== Sys2Proof/Laws/Words.lean ====
section
/-! SUPPORT. The words of instructions: cutting a packed word along its format gives the fields back, and packing the fields of a word gives
the word. -/

namespace Sys2Proof

/-! ## The fields of a packed word -/

theorem packWord_maj (m : BitVec 7) (h : Hd) (f : Fields) : (packWord m h f).extractLsb' 57 7 = m := by
  apply BitVec.eq_of_getLsbD_eq
  intro i hi
  simp only [packWord, BitVec.getLsbD_extractLsb', BitVec.getLsbD_append, hi, decide_true, Bool.true_and]
  rw [if_neg (by omega), if_neg (by omega), if_neg (by omega), if_neg (by omega)]
  congr 1
  omega

theorem unpackHd_packWord (m : BitVec 7) (h : Hd) (f : Fields) : unpackHd (packWord m h f) = h := by
  obtain ⟨n, g, l⟩ := h
  simp only [unpackHd, packWord, Hd.mk.injEq]
  refine ⟨?_, ?_, ?_⟩
  · simp only [BitVec.getLsbD_append]
    rw [if_neg (by omega), if_neg (by omega), if_neg (by omega), if_pos (by omega)]
    simp
  all_goals
    apply BitVec.eq_of_getLsbD_eq
    intro i hi
    simp only [BitVec.getLsbD_extractLsb', BitVec.getLsbD_append, hi, decide_true, Bool.true_and]
    repeat (first | rw [if_pos (by omega)] | rw [if_neg (by omega)])
    congr 1
    omega

/-- Bits 47:0 of a packed word are its fields. -/
theorem packWord_low (m : BitVec 7) (h : Hd) (f : Fields) (s n : Nat) (hn : s + n ≤ 48) :
    (packWord m h f).extractLsb' s n = (packFields f).extractLsb' s n := by
  apply BitVec.eq_of_getLsbD_eq
  intro i hi
  simp only [packWord, BitVec.getLsbD_extractLsb', BitVec.getLsbD_append, hi, decide_true, Bool.true_and]
  rw [if_pos (by omega)]

theorem packWord_bit (m : BitVec 7) (h : Hd) (f : Fields) (s : Nat) (hn : s < 48) :
    (packWord m h f).getLsbD s = (packFields f).getLsbD s := by
  simp only [packWord, BitVec.getLsbD_append]
  rw [if_pos (by omega)]

theorem unpackR_packWord (m : BitVec 7) (h : Hd) (x : RF) : unpackR (packWord m h (.r x)) = x := by
  obtain ⟨fn, d, a, b, c, md⟩ := x
  simp only [unpackR, RF.mk.injEq]
  refine ⟨?_, ?_, ?_, ?_, ?_, ?_⟩
  all_goals
    rw [packWord_low _ _ _ _ _ (by omega)]
    apply BitVec.eq_of_getLsbD_eq
    intro i hi
    simp only [packFields, BitVec.getLsbD_extractLsb', BitVec.getLsbD_append, hi, decide_true, Bool.true_and]
    repeat (first | rw [if_pos (by omega)] | rw [if_neg (by omega)])
    congr 1
    omega

theorem unpackI_packWord (m : BitVec 7) (h : Hd) (x : IF) : unpackI (packWord m h (.i x)) = x := by
  obtain ⟨fn, d, a, imm⟩ := x
  simp only [unpackI, IF.mk.injEq]
  refine ⟨?_, ?_, ?_, ?_⟩
  all_goals
    rw [packWord_low _ _ _ _ _ (by omega)]
    apply BitVec.eq_of_getLsbD_eq
    intro i hi
    simp only [packFields, BitVec.getLsbD_extractLsb', BitVec.getLsbD_append, hi, decide_true, Bool.true_and]
    repeat (first | rw [if_pos (by omega)] | rw [if_neg (by omega)])
    congr 1
    omega

theorem unpackM_packWord (m : BitVec 7) (h : Hd) (x : MF) : unpackM (packWord m h (.m x)) = x := by
  obtain ⟨w, s, n, d, b, ix, q, o⟩ := x
  simp only [unpackM, MF.mk.injEq]
  refine ⟨?_, ?_, ?_, ?_, ?_, ?_, ?_, ?_⟩
  case refine_2 =>
    rw [packWord_bit _ _ _ _ (by omega)]
    simp only [packFields, BitVec.getLsbD_append]
    repeat (first | rw [if_pos (by omega)] | rw [if_neg (by omega)])
    simp
  all_goals
    rw [packWord_low _ _ _ _ _ (by omega)]
    apply BitVec.eq_of_getLsbD_eq
    intro i hi
    simp only [packFields, BitVec.getLsbD_extractLsb', BitVec.getLsbD_append, hi, decide_true, Bool.true_and]
    repeat (first | rw [if_pos (by omega)] | rw [if_neg (by omega)])
    congr 1
    omega

theorem unpackE_packWord (m : BitVec 7) (h : Hd) (x : EF) : unpackE (packWord m h (.e x)) = x := by
  obtain ⟨fn, q, s, fk, fl, ta, tb, p⟩ := x
  simp only [unpackE, EF.mk.injEq]
  refine ⟨?_, ?_, ?_, ?_, ?_, ?_, ?_, ?_⟩
  all_goals
    rw [packWord_low _ _ _ _ _ (by omega)]
    apply BitVec.eq_of_getLsbD_eq
    intro i hi
    simp only [packFields, BitVec.getLsbD_extractLsb', BitVec.getLsbD_append, hi, decide_true, Bool.true_and]
    repeat (first | rw [if_pos (by omega)] | rw [if_neg (by omega)])
    congr 1
    omega

theorem unpackB_packWord (m : BitVec 7) (h : Hd) (x : BF) : unpackB (packWord m h (.b x)) = x := by
  obtain ⟨fn, t, j, hi⟩ := x
  simp only [unpackB, BF.mk.injEq]
  refine ⟨?_, ?_, ?_, ?_⟩
  all_goals
    rw [packWord_low _ _ _ _ _ (by omega)]
    apply BitVec.eq_of_getLsbD_eq
    intro i hi
    simp only [packFields, BitVec.getLsbD_extractLsb', BitVec.getLsbD_append, hi, decide_true, Bool.true_and]
    repeat (first | rw [if_pos (by omega)] | rw [if_neg (by omega)])
    congr 1
    omega

/-- The reserved bits of Format B. -/
theorem packWord_reserved (m : BitVec 7) (h : Hd) (x : BF) : (packWord m h (.b x)).extractLsb' 0 36 = 0#36 := by
  rw [packWord_low _ _ _ _ _ (by omega)]
  apply BitVec.eq_of_getLsbD_eq
  intro i hi
  simp only [packFields, BitVec.getLsbD_extractLsb', BitVec.getLsbD_append, hi, decide_true, Bool.true_and]
  rw [if_pos (by omega), Nat.zero_add]

/-! ## Parsing a packed word -/

theorem parse_r {m : BitVec 7} (h : Hd) (x : RF) {i : Instr} (hf : formatOf m.toNat = some .r) (hb : buildR m.toNat h x = some i) :
    parseWord (packWord m h (.r x)) = .ok i := by
  simp only [parseWord, packWord_maj, unpackHd_packWord, unpackR_packWord, hf, hb]

theorem parse_i {m : BitVec 7} (h : Hd) (x : IF) {i : Instr} (hf : formatOf m.toNat = some .i) (hb : buildI m.toNat h x = some i) :
    parseWord (packWord m h (.i x)) = .ok i := by
  simp only [parseWord, packWord_maj, unpackHd_packWord, unpackI_packWord, hf, hb]

theorem parse_m {m : BitVec 7} (h : Hd) (x : MF) {i : Instr} (hf : formatOf m.toNat = some .m) (hb : buildM m.toNat h x = some i) :
    parseWord (packWord m h (.m x)) = .ok i := by
  simp only [parseWord, packWord_maj, unpackHd_packWord, unpackM_packWord, hf, hb]

theorem parse_e {m : BitVec 7} (h : Hd) (x : EF) {i : Instr} (hf : formatOf m.toNat = some .e) (hb : buildE m.toNat h x = some i) :
    parseWord (packWord m h (.e x)) = .ok i := by
  simp only [parseWord, packWord_maj, unpackHd_packWord, unpackE_packWord, hf, hb]

theorem parse_b {m : BitVec 7} (h : Hd) (x : BF) {i : Instr} (hf : formatOf m.toNat = some .b) (hb : buildB m.toNat h x = some i) :
    parseWord (packWord m h (.b x)) = .ok i := by
  simp only [parseWord, packWord_maj, unpackHd_packWord, unpackB_packWord, packWord_reserved, hf, hb, beq_self_eq_true, if_true]

end Sys2Proof
end

