-- ==== Sys2Proof/Laws/PerInstr.lean ====
section
/-! SUPPORT. The statement that is made instruction by instruction: a legal instruction's packed word parses as that instruction. An event, and
a bundle, has no word of its own. -/

namespace Sys2Proof.Laws.RoundTrip

/-- The word of an instruction that is legal at some place parses as it. -/
def Statement (i : Instr) : Prop :=
  ∀ (p : Place) (imm : Bool), i.legal p imm = true →
    match i.layout with
    | some (m, h, f) => parseWord (packWord m h f) = .ok i
    | none => True

theorem wf_of_legal {i : Instr} {p : Place} {imm : Bool} (h : i.legal p imm = true) : i.wf = true := by
  unfold Instr.legal at h
  exact (Bool.and_eq_true_iff.1 h).1

/-- A function code is one of those below a bound, as a literal. -/
theorem code_lit {w : Nat} (f : BitVec w) {k : Nat} (h : f.toNat = k) : f = BitVec.ofNat w k := by
  rw [← h]; simp

theorem nop (h : Hd) (x : RF) : Statement (.nop h x) := fun p imm hl => by
  have hw := eq_of_beq (wf_of_legal hl : (x.fn == 0#8) = true)
  obtain ⟨fn, d, a, b, c, md⟩ := x
  subst hw
  exact parse_r h _ (by decide) rfl
theorem nopPause (h : Hd) (x : RF) : Statement (.nopPause h x) := fun p imm hl => by
  have hw := eq_of_beq (wf_of_legal hl : (x.fn == 1#8) = true)
  obtain ⟨fn, d, a, b, c, md⟩ := x
  subst hw
  exact parse_r h _ (by decide) rfl
theorem pauseExpiry {a0} : Statement (.pauseExpiry a0) := fun _ _ _ => trivial
theorem iadd (h : Hd) (x : RF) : Statement (.iadd h x) := fun p imm hl => by
  have hw := eq_of_beq (wf_of_legal hl : (x.fn == 0#8) = true)
  obtain ⟨fn, d, a, b, c, md⟩ := x
  subst hw
  exact parse_r h _ (by decide) rfl
theorem iaddAddc (h : Hd) (x : RF) : Statement (.iaddAddc h x) := fun p imm hl => by
  have hw := eq_of_beq (wf_of_legal hl : (x.fn == 1#8) = true)
  obtain ⟨fn, d, a, b, c, md⟩ := x
  subst hw
  exact parse_r h _ (by decide) rfl
theorem iaddSub (h : Hd) (x : RF) : Statement (.iaddSub h x) := fun p imm hl => by
  have hw := eq_of_beq (wf_of_legal hl : (x.fn == 2#8) = true)
  obtain ⟨fn, d, a, b, c, md⟩ := x
  subst hw
  exact parse_r h _ (by decide) rfl
theorem iaddSubb (h : Hd) (x : RF) : Statement (.iaddSubb h x) := fun p imm hl => by
  have hw := eq_of_beq (wf_of_legal hl : (x.fn == 3#8) = true)
  obtain ⟨fn, d, a, b, c, md⟩ := x
  subst hw
  exact parse_r h _ (by decide) rfl
theorem iaddRsub (h : Hd) (x : RF) : Statement (.iaddRsub h x) := fun p imm hl => by
  have hw := eq_of_beq (wf_of_legal hl : (x.fn == 4#8) = true)
  obtain ⟨fn, d, a, b, c, md⟩ := x
  subst hw
  exact parse_r h _ (by decide) rfl
theorem imul (h : Hd) (x : RF) : Statement (.imul h x) := fun p imm hl => by
  have hw := eq_of_beq (wf_of_legal hl : (x.fn == 0#8) = true)
  obtain ⟨fn, d, a, b, c, md⟩ := x
  subst hw
  exact parse_r h _ (by decide) rfl
theorem imulHi (h : Hd) (x : RF) : Statement (.imulHi h x) := fun p imm hl => by
  have hw := eq_of_beq (wf_of_legal hl : (x.fn == 1#8) = true)
  obtain ⟨fn, d, a, b, c, md⟩ := x
  subst hw
  exact parse_r h _ (by decide) rfl
theorem imulWide (h : Hd) (x : RF) : Statement (.imulWide h x) := fun p imm hl => by
  have hw := eq_of_beq (wf_of_legal hl : (x.fn == 2#8) = true)
  obtain ⟨fn, d, a, b, c, md⟩ := x
  subst hw
  exact parse_r h _ (by decide) rfl
theorem imad (h : Hd) (x : RF) : Statement (.imad h x) := fun p imm hl => by
  have hw := eq_of_beq (wf_of_legal hl : (x.fn == 0#8) = true)
  obtain ⟨fn, d, a, b, c, md⟩ := x
  subst hw
  exact parse_r h _ (by decide) rfl
theorem imadWide (h : Hd) (x : RF) : Statement (.imadWide h x) := fun p imm hl => by
  have hw := eq_of_beq (wf_of_legal hl : (x.fn == 1#8) = true)
  obtain ⟨fn, d, a, b, c, md⟩ := x
  subst hw
  exact parse_r h _ (by decide) rfl
theorem idiv (h : Hd) (x : RF) : Statement (.idiv h x) := fun p imm hl => by
  have hw := eq_of_beq (wf_of_legal hl : (x.fn == 0#8) = true)
  obtain ⟨fn, d, a, b, c, md⟩ := x
  subst hw
  exact parse_r h _ (by decide) rfl
theorem idivRem (h : Hd) (x : RF) : Statement (.idivRem h x) := fun p imm hl => by
  have hw := eq_of_beq (wf_of_legal hl : (x.fn == 1#8) = true)
  obtain ⟨fn, d, a, b, c, md⟩ := x
  subst hw
  exact parse_r h _ (by decide) rfl
theorem imnx (h : Hd) (x : RF) : Statement (.imnx h x) := fun p imm hl => by
  have hw := eq_of_beq (wf_of_legal hl : (x.fn == 0#8) = true)
  obtain ⟨fn, d, a, b, c, md⟩ := x
  subst hw
  exact parse_r h _ (by decide) rfl
theorem imnxMax (h : Hd) (x : RF) : Statement (.imnxMax h x) := fun p imm hl => by
  have hw := eq_of_beq (wf_of_legal hl : (x.fn == 1#8) = true)
  obtain ⟨fn, d, a, b, c, md⟩ := x
  subst hw
  exact parse_r h _ (by decide) rfl
theorem iabs (h : Hd) (x : RF) : Statement (.iabs h x) := fun p imm hl => by
  have hw := eq_of_beq (wf_of_legal hl : (x.fn == 0#8) = true)
  obtain ⟨fn, d, a, b, c, md⟩ := x
  subst hw
  exact parse_r h _ (by decide) rfl
theorem iabsNeg (h : Hd) (x : RF) : Statement (.iabsNeg h x) := fun p imm hl => by
  have hw := eq_of_beq (wf_of_legal hl : (x.fn == 1#8) = true)
  obtain ⟨fn, d, a, b, c, md⟩ := x
  subst hw
  exact parse_r h _ (by decide) rfl
theorem iabsSad (h : Hd) (x : RF) : Statement (.iabsSad h x) := fun p imm hl => by
  have hw := eq_of_beq (wf_of_legal hl : (x.fn == 2#8) = true)
  obtain ⟨fn, d, a, b, c, md⟩ := x
  subst hw
  exact parse_r h _ (by decide) rfl
theorem iclmp (h : Hd) (x : RF) : Statement (.iclmp h x) := fun p imm hl => by
  have hw := eq_of_beq (wf_of_legal hl : (x.fn == 0#8) = true)
  obtain ⟨fn, d, a, b, c, md⟩ := x
  subst hw
  exact parse_r h _ (by decide) rfl
theorem and (h : Hd) (x : RF) : Statement (.and h x) := fun p imm hl => by
  have hw := eq_of_beq (wf_of_legal hl : (x.fn == 0#8) = true)
  obtain ⟨fn, d, a, b, c, md⟩ := x
  subst hw
  exact parse_r h _ (by decide) rfl
theorem andNot (h : Hd) (x : RF) : Statement (.andNot h x) := fun p imm hl => by
  have hw := eq_of_beq (wf_of_legal hl : (x.fn == 1#8) = true)
  obtain ⟨fn, d, a, b, c, md⟩ := x
  subst hw
  exact parse_r h _ (by decide) rfl
theorem or (h : Hd) (x : RF) : Statement (.or h x) := fun p imm hl => by
  have hw := eq_of_beq (wf_of_legal hl : (x.fn == 0#8) = true)
  obtain ⟨fn, d, a, b, c, md⟩ := x
  subst hw
  exact parse_r h _ (by decide) rfl
theorem orNot (h : Hd) (x : RF) : Statement (.orNot h x) := fun p imm hl => by
  have hw := eq_of_beq (wf_of_legal hl : (x.fn == 1#8) = true)
  obtain ⟨fn, d, a, b, c, md⟩ := x
  subst hw
  exact parse_r h _ (by decide) rfl
theorem xor (h : Hd) (x : RF) : Statement (.xor h x) := fun p imm hl => by
  have hw := eq_of_beq (wf_of_legal hl : (x.fn == 0#8) = true)
  obtain ⟨fn, d, a, b, c, md⟩ := x
  subst hw
  exact parse_r h _ (by decide) rfl
theorem xorNot (h : Hd) (x : RF) : Statement (.xorNot h x) := fun p imm hl => by
  have hw := eq_of_beq (wf_of_legal hl : (x.fn == 1#8) = true)
  obtain ⟨fn, d, a, b, c, md⟩ := x
  subst hw
  exact parse_r h _ (by decide) rfl
theorem lut3 (h : Hd) (x : RF) : Statement (.lut3 h x) := fun p imm hl => by
  exact parse_r h x (by decide) rfl
theorem shl (h : Hd) (x : RF) : Statement (.shl h x) := fun p imm hl => by
  have hw := eq_of_beq (wf_of_legal hl : (x.fn == 0#8) = true)
  obtain ⟨fn, d, a, b, c, md⟩ := x
  subst hw
  exact parse_r h _ (by decide) rfl
theorem shr (h : Hd) (x : RF) : Statement (.shr h x) := fun p imm hl => by
  have hw := eq_of_beq (wf_of_legal hl : (x.fn == 0#8) = true)
  obtain ⟨fn, d, a, b, c, md⟩ := x
  subst hw
  exact parse_r h _ (by decide) rfl
theorem shrAr (h : Hd) (x : RF) : Statement (.shrAr h x) := fun p imm hl => by
  have hw := eq_of_beq (wf_of_legal hl : (x.fn == 1#8) = true)
  obtain ⟨fn, d, a, b, c, md⟩ := x
  subst hw
  exact parse_r h _ (by decide) rfl
theorem rot (h : Hd) (x : RF) : Statement (.rot h x) := fun p imm hl => by
  have hw := eq_of_beq (wf_of_legal hl : (x.fn == 0#8) = true)
  obtain ⟨fn, d, a, b, c, md⟩ := x
  subst hw
  exact parse_r h _ (by decide) rfl
theorem rotRr (h : Hd) (x : RF) : Statement (.rotRr h x) := fun p imm hl => by
  have hw := eq_of_beq (wf_of_legal hl : (x.fn == 1#8) = true)
  obtain ⟨fn, d, a, b, c, md⟩ := x
  subst hw
  exact parse_r h _ (by decide) rfl
theorem rotShfl (h : Hd) (x : RF) : Statement (.rotShfl h x) := fun p imm hl => by
  have hw := eq_of_beq (wf_of_legal hl : (x.fn == 2#8) = true)
  obtain ⟨fn, d, a, b, c, md⟩ := x
  subst hw
  exact parse_r h _ (by decide) rfl
theorem rotShfr (h : Hd) (x : RF) : Statement (.rotShfr h x) := fun p imm hl => by
  have hw := eq_of_beq (wf_of_legal hl : (x.fn == 3#8) = true)
  obtain ⟨fn, d, a, b, c, md⟩ := x
  subst hw
  exact parse_r h _ (by decide) rfl
theorem popc (h : Hd) (x : RF) : Statement (.popc h x) := fun p imm hl => by
  have hw := eq_of_beq (wf_of_legal hl : (x.fn == 0#8) = true)
  obtain ⟨fn, d, a, b, c, md⟩ := x
  subst hw
  exact parse_r h _ (by decide) rfl
theorem clz (h : Hd) (x : RF) : Statement (.clz h x) := fun p imm hl => by
  have hw := eq_of_beq (wf_of_legal hl : (x.fn == 0#8) = true)
  obtain ⟨fn, d, a, b, c, md⟩ := x
  subst hw
  exact parse_r h _ (by decide) rfl
theorem clzCtz (h : Hd) (x : RF) : Statement (.clzCtz h x) := fun p imm hl => by
  have hw := eq_of_beq (wf_of_legal hl : (x.fn == 1#8) = true)
  obtain ⟨fn, d, a, b, c, md⟩ := x
  subst hw
  exact parse_r h _ (by decide) rfl
theorem clzCls (h : Hd) (x : RF) : Statement (.clzCls h x) := fun p imm hl => by
  have hw := eq_of_beq (wf_of_legal hl : (x.fn == 2#8) = true)
  obtain ⟨fn, d, a, b, c, md⟩ := x
  subst hw
  exact parse_r h _ (by decide) rfl
theorem brev (h : Hd) (x : RF) : Statement (.brev h x) := fun p imm hl => by
  have hw := eq_of_beq (wf_of_legal hl : (x.fn == 0#8) = true)
  obtain ⟨fn, d, a, b, c, md⟩ := x
  subst hw
  exact parse_r h _ (by decide) rfl
theorem brevByte (h : Hd) (x : RF) : Statement (.brevByte h x) := fun p imm hl => by
  have hw := eq_of_beq (wf_of_legal hl : (x.fn == 1#8) = true)
  obtain ⟨fn, d, a, b, c, md⟩ := x
  subst hw
  exact parse_r h _ (by decide) rfl
theorem bfx (h : Hd) (x : RF) : Statement (.bfx h x) := fun p imm hl => by
  have hw := eq_of_beq (wf_of_legal hl : (x.fn == 0#8) = true)
  obtain ⟨fn, d, a, b, c, md⟩ := x
  subst hw
  exact parse_r h _ (by decide) rfl
theorem bfi (h : Hd) (x : RF) : Statement (.bfi h x) := fun p imm hl => by
  have hw := eq_of_beq (wf_of_legal hl : (x.fn == 0#8) = true)
  obtain ⟨fn, d, a, b, c, md⟩ := x
  subst hw
  exact parse_r h _ (by decide) rfl
theorem prmt (h : Hd) (x : RF) : Statement (.prmt h x) := fun p imm hl => by
  have hw := eq_of_beq (wf_of_legal hl : (x.fn == 0#8) = true)
  obtain ⟨fn, d, a, b, c, md⟩ := x
  subst hw
  exact parse_r h _ (by decide) rfl
theorem pack (h : Hd) (x : RF) : Statement (.pack h x) := fun p imm hl => by
  have hw := eq_of_beq (wf_of_legal hl : (x.fn == 0#8) = true)
  obtain ⟨fn, d, a, b, c, md⟩ := x
  subst hw
  exact parse_r h _ (by decide) rfl
theorem packSs (h : Hd) (x : RF) : Statement (.packSs h x) := fun p imm hl => by
  have hw := eq_of_beq (wf_of_legal hl : (x.fn == 1#8) = true)
  obtain ⟨fn, d, a, b, c, md⟩ := x
  subst hw
  exact parse_r h _ (by decide) rfl
theorem packNn (h : Hd) (x : RF) : Statement (.packNn h x) := fun p imm hl => by
  have hw := eq_of_beq (wf_of_legal hl : (x.fn == 2#8) = true)
  obtain ⟨fn, d, a, b, c, md⟩ := x
  subst hw
  exact parse_r h _ (by decide) rfl
theorem icmp (h : Hd) (x : RF) : Statement (.icmp h x) := fun p imm hl => by
  obtain ⟨fn, d, a, b, c, md⟩ := x
  have hw : fn.toNat < 6 := of_decide_eq_true (wf_of_legal hl)
  generalize hk : fn.toNat = k at hw
  obtain rfl := code_lit fn hk
  interval_cases k
  all_goals exact parse_r h _ (by decide) rfl
theorem sel (h : Hd) (x : RF) : Statement (.sel h x) := fun p imm hl => by
  have hw := eq_of_beq (wf_of_legal hl : (x.fn == 0#8) = true)
  obtain ⟨fn, d, a, b, c, md⟩ := x
  subst hw
  exact parse_r h _ (by decide) rfl
theorem plog (h : Hd) (x : RF) : Statement (.plog h x) := fun p imm hl => by
  exact parse_r h x (by decide) rfl
theorem movi (h : Hd) (x : IF) : Statement (.movi h x) := fun p imm hl => by
  have hw := eq_of_beq (wf_of_legal hl : (x.fn == 0#4) = true)
  obtain ⟨fn, d, a, imm⟩ := x
  subst hw
  exact parse_i h _ (by decide) rfl
theorem moviX64 (h : Hd) (x : IF) : Statement (.moviX64 h x) := fun p imm hl => by
  have hw := eq_of_beq (wf_of_legal hl : (x.fn == 1#4) = true)
  obtain ⟨fn, d, a, imm⟩ := x
  subst hw
  exact parse_i h _ (by decide) rfl
theorem movh (h : Hd) (x : IF) : Statement (.movh h x) := fun p imm hl => by
  have hw := eq_of_beq (wf_of_legal hl : (x.fn == 0#4) = true)
  obtain ⟨fn, d, a, imm⟩ := x
  subst hw
  exact parse_i h _ (by decide) rfl
theorem movhX32 (h : Hd) (x : IF) : Statement (.movhX32 h x) := fun p imm hl => by
  have hw := eq_of_beq (wf_of_legal hl : (x.fn == 1#4) = true)
  obtain ⟨fn, d, a, imm⟩ := x
  subst hw
  exact parse_i h _ (by decide) rfl
theorem mov (h : Hd) (x : RF) : Statement (.mov h x) := fun p imm hl => by
  have hw := eq_of_beq (wf_of_legal hl : (x.fn == 0#8) = true)
  obtain ⟨fn, d, a, b, c, md⟩ := x
  subst hw
  exact parse_r h _ (by decide) rfl
theorem movBc (h : Hd) (x : RF) : Statement (.movBc h x) := fun p imm hl => by
  have hw := eq_of_beq (wf_of_legal hl : (x.fn == 1#8) = true)
  obtain ⟨fn, d, a, b, c, md⟩ := x
  subst hw
  exact parse_r h _ (by decide) rfl
theorem xmov (h : Hd) (x : RF) : Statement (.xmov h x) := fun p imm hl => by
  have hw := eq_of_beq (wf_of_legal hl : (x.fn == 2#8) = true)
  obtain ⟨fn, d, a, b, c, md⟩ := x
  subst hw
  exact parse_r h _ (by decide) rfl
theorem lea (h : Hd) (x : RF) : Statement (.lea h x) := fun p imm hl => by
  have hw := eq_of_beq (wf_of_legal hl : (x.fn == 0#8) = true)
  obtain ⟨fn, d, a, b, c, md⟩ := x
  subst hw
  exact parse_r h _ (by decide) rfl
theorem leaN (h : Hd) (x : RF) : Statement (.leaN h x) := fun p imm hl => by
  have hw := eq_of_beq (wf_of_legal hl : (x.fn == 1#8) = true)
  obtain ⟨fn, d, a, b, c, md⟩ := x
  subst hw
  exact parse_r h _ (by decide) rfl
theorem idot (h : Hd) (x : RF) : Statement (.idot h x) := fun p imm hl => by
  have hw := eq_of_beq (wf_of_legal hl : (x.fn == 0#8) = true)
  obtain ⟨fn, d, a, b, c, md⟩ := x
  subst hw
  exact parse_r h _ (by decide) rfl
theorem idotH (h : Hd) (x : RF) : Statement (.idotH h x) := fun p imm hl => by
  have hw := eq_of_beq (wf_of_legal hl : (x.fn == 1#8) = true)
  obtain ⟨fn, d, a, b, c, md⟩ := x
  subst hw
  exact parse_r h _ (by decide) rfl
theorem mfs (h : Hd) (x : RF) : Statement (.mfs h x) := fun p imm hl => by
  have hw := eq_of_beq (wf_of_legal hl : (x.fn == 0#8) = true)
  obtain ⟨fn, d, a, b, c, md⟩ := x
  subst hw
  exact parse_r h _ (by decide) rfl
theorem mts (h : Hd) (x : RF) : Statement (.mts h x) := fun p imm hl => by
  have hw := eq_of_beq (wf_of_legal hl : (x.fn == 0#8) = true)
  obtain ⟨fn, d, a, b, c, md⟩ := x
  subst hw
  exact parse_r h _ (by decide) rfl
theorem voteAny (h : Hd) (x : RF) : Statement (.voteAny h x) := fun p imm hl => by
  have hw := eq_of_beq (wf_of_legal hl : (x.fn == 0#8) = true)
  obtain ⟨fn, d, a, b, c, md⟩ := x
  subst hw
  exact parse_r h _ (by decide) rfl
theorem voteAll (h : Hd) (x : RF) : Statement (.voteAll h x) := fun p imm hl => by
  have hw := eq_of_beq (wf_of_legal hl : (x.fn == 1#8) = true)
  obtain ⟨fn, d, a, b, c, md⟩ := x
  subst hw
  exact parse_r h _ (by decide) rfl
theorem voteBallot (h : Hd) (x : RF) : Statement (.voteBallot h x) := fun p imm hl => by
  have hw := eq_of_beq (wf_of_legal hl : (x.fn == 2#8) = true)
  obtain ⟨fn, d, a, b, c, md⟩ := x
  subst hw
  exact parse_r h _ (by decide) rfl
theorem voteCount (h : Hd) (x : RF) : Statement (.voteCount h x) := fun p imm hl => by
  have hw := eq_of_beq (wf_of_legal hl : (x.fn == 3#8) = true)
  obtain ⟨fn, d, a, b, c, md⟩ := x
  subst hw
  exact parse_r h _ (by decide) rfl
theorem voteFirst (h : Hd) (x : RF) : Statement (.voteFirst h x) := fun p imm hl => by
  have hw := eq_of_beq (wf_of_legal hl : (x.fn == 4#8) = true)
  obtain ⟨fn, d, a, b, c, md⟩ := x
  subst hw
  exact parse_r h _ (by decide) rfl
theorem rdlane (h : Hd) (x : RF) : Statement (.rdlane h x) := fun p imm hl => by
  have hw := eq_of_beq (wf_of_legal hl : (x.fn == 0#8) = true)
  obtain ⟨fn, d, a, b, c, md⟩ := x
  subst hw
  exact parse_r h _ (by decide) rfl
theorem wrlane (h : Hd) (x : RF) : Statement (.wrlane h x) := fun p imm hl => by
  have hw := eq_of_beq (wf_of_legal hl : (x.fn == 0#8) = true)
  obtain ⟨fn, d, a, b, c, md⟩ := x
  subst hw
  exact parse_r h _ (by decide) rfl
theorem shuf (h : Hd) (x : RF) : Statement (.shuf h x) := fun p imm hl => by
  have hw := eq_of_beq (wf_of_legal hl : (x.fn == 0#8) = true)
  obtain ⟨fn, d, a, b, c, md⟩ := x
  subst hw
  exact parse_r h _ (by decide) rfl
theorem shufRot (h : Hd) (x : RF) : Statement (.shufRot h x) := fun p imm hl => by
  have hw := eq_of_beq (wf_of_legal hl : (x.fn == 1#8) = true)
  obtain ⟨fn, d, a, b, c, md⟩ := x
  subst hw
  exact parse_r h _ (by decide) rfl
theorem shufXor (h : Hd) (x : RF) : Statement (.shufXor h x) := fun p imm hl => by
  have hw := eq_of_beq (wf_of_legal hl : (x.fn == 2#8) = true)
  obtain ⟨fn, d, a, b, c, md⟩ := x
  subst hw
  exact parse_r h _ (by decide) rfl
theorem shufRev (h : Hd) (x : RF) : Statement (.shufRev h x) := fun p imm hl => by
  have hw := eq_of_beq (wf_of_legal hl : (x.fn == 3#8) = true)
  obtain ⟨fn, d, a, b, c, md⟩ := x
  subst hw
  exact parse_r h _ (by decide) rfl
theorem patld (h : Hd) (x : RF) : Statement (.patld h x) := fun p imm hl => by
  obtain ⟨fn, d, a, b, c, md⟩ := x
  have hw : fn.toNat < 4 := of_decide_eq_true (wf_of_legal hl)
  generalize hk : fn.toNat = k at hw
  obtain rfl := code_lit fn hk
  interval_cases k
  all_goals exact parse_r h _ (by decide) rfl
theorem patsw (h : Hd) (x : RF) : Statement (.patsw h x) := fun p imm hl => by
  obtain ⟨fn, d, a, b, c, md⟩ := x
  have hw : fn.toNat < 4 := of_decide_eq_true (wf_of_legal hl)
  generalize hk : fn.toNat = k at hw
  obtain rfl := code_lit fn hk
  interval_cases k
  all_goals exact parse_r h _ (by decide) rfl
theorem gred (h : Hd) (x : RF) : Statement (.gred h x) := fun p imm hl => by
  obtain ⟨fn, d, a, b, c, md⟩ := x
  have hw : fn.toNat < 11 := of_decide_eq_true (wf_of_legal hl)
  generalize hk : fn.toNat = k at hw
  obtain rfl := code_lit fn hk
  interval_cases k
  all_goals exact parse_r h _ (by decide) rfl
theorem gscan (h : Hd) (x : RF) : Statement (.gscan h x) := fun p imm hl => by
  obtain ⟨fn, d, a, b, c, md⟩ := x
  have hw : ((decide (fn.toNat < 11) || (decide (16 ≤ fn.toNat) &&decide (fn.toNat < 27) ))) = true := wf_of_legal hl
  have hb : fn.toNat < 27 := by
    simp only [Bool.or_eq_true, Bool.and_eq_true, decide_eq_true_eq] at hw
    omega
  generalize hk : fn.toNat = k at hb
  obtain rfl := code_lit fn hk
  clear hl
  interval_cases k
  all_goals first | exact parse_r h _ (by decide) rfl | exact absurd hw (by decide)
theorem fadd (h : Hd) (x : RF) : Statement (.fadd h x) := fun p imm hl => by
  have hw := eq_of_beq (wf_of_legal hl : (x.fn == 0#8) = true)
  obtain ⟨fn, d, a, b, c, md⟩ := x
  subst hw
  exact parse_r h _ (by decide) rfl
theorem faddSub (h : Hd) (x : RF) : Statement (.faddSub h x) := fun p imm hl => by
  have hw := eq_of_beq (wf_of_legal hl : (x.fn == 1#8) = true)
  obtain ⟨fn, d, a, b, c, md⟩ := x
  subst hw
  exact parse_r h _ (by decide) rfl
theorem fmul (h : Hd) (x : RF) : Statement (.fmul h x) := fun p imm hl => by
  have hw := eq_of_beq (wf_of_legal hl : (x.fn == 0#8) = true)
  obtain ⟨fn, d, a, b, c, md⟩ := x
  subst hw
  exact parse_r h _ (by decide) rfl
theorem ffma (h : Hd) (x : RF) : Statement (.ffma h x) := fun p imm hl => by
  have hw := eq_of_beq (wf_of_legal hl : (x.fn == 0#8) = true)
  obtain ⟨fn, d, a, b, c, md⟩ := x
  subst hw
  exact parse_r h _ (by decide) rfl
theorem ffmaMs (h : Hd) (x : RF) : Statement (.ffmaMs h x) := fun p imm hl => by
  have hw := eq_of_beq (wf_of_legal hl : (x.fn == 1#8) = true)
  obtain ⟨fn, d, a, b, c, md⟩ := x
  subst hw
  exact parse_r h _ (by decide) rfl
theorem ffmaNm (h : Hd) (x : RF) : Statement (.ffmaNm h x) := fun p imm hl => by
  have hw := eq_of_beq (wf_of_legal hl : (x.fn == 2#8) = true)
  obtain ⟨fn, d, a, b, c, md⟩ := x
  subst hw
  exact parse_r h _ (by decide) rfl
theorem fmnx (h : Hd) (x : RF) : Statement (.fmnx h x) := fun p imm hl => by
  have hw := eq_of_beq (wf_of_legal hl : (x.fn == 0#8) = true)
  obtain ⟨fn, d, a, b, c, md⟩ := x
  subst hw
  exact parse_r h _ (by decide) rfl
theorem fmnxMax (h : Hd) (x : RF) : Statement (.fmnxMax h x) := fun p imm hl => by
  have hw := eq_of_beq (wf_of_legal hl : (x.fn == 1#8) = true)
  obtain ⟨fn, d, a, b, c, md⟩ := x
  subst hw
  exact parse_r h _ (by decide) rfl
theorem fmnxMinn (h : Hd) (x : RF) : Statement (.fmnxMinn h x) := fun p imm hl => by
  have hw := eq_of_beq (wf_of_legal hl : (x.fn == 2#8) = true)
  obtain ⟨fn, d, a, b, c, md⟩ := x
  subst hw
  exact parse_r h _ (by decide) rfl
theorem fmnxMaxn (h : Hd) (x : RF) : Statement (.fmnxMaxn h x) := fun p imm hl => by
  have hw := eq_of_beq (wf_of_legal hl : (x.fn == 3#8) = true)
  obtain ⟨fn, d, a, b, c, md⟩ := x
  subst hw
  exact parse_r h _ (by decide) rfl
theorem fcmp (h : Hd) (x : RF) : Statement (.fcmp h x) := fun p imm hl => by
  obtain ⟨fn, d, a, b, c, md⟩ := x
  have hw : fn.toNat < 8 := of_decide_eq_true (wf_of_legal hl)
  generalize hk : fn.toNat = k at hw
  obtain rfl := code_lit fn hk
  interval_cases k
  all_goals exact parse_r h _ (by decide) rfl
theorem fcls (h : Hd) (x : RF) : Statement (.fcls h x) := fun p imm hl => by
  have hw := eq_of_beq (wf_of_legal hl : (x.fn == 0#8) = true)
  obtain ⟨fn, d, a, b, c, md⟩ := x
  subst hw
  exact parse_r h _ (by decide) rfl
theorem fclsP (h : Hd) (x : RF) : Statement (.fclsP h x) := fun p imm hl => by
  have hw := eq_of_beq (wf_of_legal hl : (x.fn == 1#8) = true)
  obtain ⟨fn, d, a, b, c, md⟩ := x
  subst hw
  exact parse_r h _ (by decide) rfl
theorem fscl (h : Hd) (x : RF) : Statement (.fscl h x) := fun p imm hl => by
  have hw := eq_of_beq (wf_of_legal hl : (x.fn == 0#8) = true)
  obtain ⟨fn, d, a, b, c, md⟩ := x
  subst hw
  exact parse_r h _ (by decide) rfl
theorem frnd (h : Hd) (x : RF) : Statement (.frnd h x) := fun p imm hl => by
  have hw := eq_of_beq (wf_of_legal hl : (x.fn == 0#8) = true)
  obtain ⟨fn, d, a, b, c, md⟩ := x
  subst hw
  exact parse_r h _ (by decide) rfl
theorem fdiv (h : Hd) (x : RF) : Statement (.fdiv h x) := fun p imm hl => by
  have hw := eq_of_beq (wf_of_legal hl : (x.fn == 0#8) = true)
  obtain ⟨fn, d, a, b, c, md⟩ := x
  subst hw
  exact parse_r h _ (by decide) rfl
theorem fsqrt (h : Hd) (x : RF) : Statement (.fsqrt h x) := fun p imm hl => by
  have hw := eq_of_beq (wf_of_legal hl : (x.fn == 0#8) = true)
  obtain ⟨fn, d, a, b, c, md⟩ := x
  subst hw
  exact parse_r h _ (by decide) rfl
theorem sfu (h : Hd) (x : RF) : Statement (.sfu h x) := fun p imm hl => by
  obtain ⟨fn, d, a, b, c, md⟩ := x
  have hw : fn.toNat < 8 := of_decide_eq_true (wf_of_legal hl)
  generalize hk : fn.toNat = k at hw
  obtain rfl := code_lit fn hk
  interval_cases k
  all_goals exact parse_r h _ (by decide) rfl
theorem fcvt (h : Hd) (x : RF) : Statement (.fcvt h x) := fun p imm hl => by
  obtain ⟨fn, d, a, b, c, md⟩ := x
  have hw : fn.toNat < 16 := of_decide_eq_true (wf_of_legal hl)
  generalize hk : fn.toNat = k at hw
  obtain rfl := code_lit fn hk
  interval_cases k
  all_goals exact parse_r h _ (by decide) rfl
theorem f2i (h : Hd) (x : RF) : Statement (.f2i h x) := fun p imm hl => by
  obtain ⟨fn, d, a, b, c, md⟩ := x
  have hw : fn.toNat < 8 := of_decide_eq_true (wf_of_legal hl)
  generalize hk : fn.toNat = k at hw
  obtain rfl := code_lit fn hk
  interval_cases k
  all_goals exact parse_r h _ (by decide) rfl
theorem i2f (h : Hd) (x : RF) : Statement (.i2f h x) := fun p imm hl => by
  obtain ⟨fn, d, a, b, c, md⟩ := x
  have hw : fn.toNat < 8 := of_decide_eq_true (wf_of_legal hl)
  generalize hk : fn.toNat = k at hw
  obtain rfl := code_lit fn hk
  interval_cases k
  all_goals exact parse_r h _ (by decide) rfl
theorem dadd (h : Hd) (x : RF) : Statement (.dadd h x) := fun p imm hl => by
  have hw := eq_of_beq (wf_of_legal hl : (x.fn == 0#8) = true)
  obtain ⟨fn, d, a, b, c, md⟩ := x
  subst hw
  exact parse_r h _ (by decide) rfl
theorem daddSub (h : Hd) (x : RF) : Statement (.daddSub h x) := fun p imm hl => by
  have hw := eq_of_beq (wf_of_legal hl : (x.fn == 1#8) = true)
  obtain ⟨fn, d, a, b, c, md⟩ := x
  subst hw
  exact parse_r h _ (by decide) rfl
theorem dmul (h : Hd) (x : RF) : Statement (.dmul h x) := fun p imm hl => by
  have hw := eq_of_beq (wf_of_legal hl : (x.fn == 0#8) = true)
  obtain ⟨fn, d, a, b, c, md⟩ := x
  subst hw
  exact parse_r h _ (by decide) rfl
theorem dfma (h : Hd) (x : RF) : Statement (.dfma h x) := fun p imm hl => by
  have hw := eq_of_beq (wf_of_legal hl : (x.fn == 0#8) = true)
  obtain ⟨fn, d, a, b, c, md⟩ := x
  subst hw
  exact parse_r h _ (by decide) rfl
theorem dfmaMs (h : Hd) (x : RF) : Statement (.dfmaMs h x) := fun p imm hl => by
  have hw := eq_of_beq (wf_of_legal hl : (x.fn == 1#8) = true)
  obtain ⟨fn, d, a, b, c, md⟩ := x
  subst hw
  exact parse_r h _ (by decide) rfl
theorem dfmaNm (h : Hd) (x : RF) : Statement (.dfmaNm h x) := fun p imm hl => by
  have hw := eq_of_beq (wf_of_legal hl : (x.fn == 2#8) = true)
  obtain ⟨fn, d, a, b, c, md⟩ := x
  subst hw
  exact parse_r h _ (by decide) rfl
theorem dcmp (h : Hd) (x : RF) : Statement (.dcmp h x) := fun p imm hl => by
  obtain ⟨fn, d, a, b, c, md⟩ := x
  have hw : fn.toNat < 8 := of_decide_eq_true (wf_of_legal hl)
  generalize hk : fn.toNat = k at hw
  obtain rfl := code_lit fn hk
  interval_cases k
  all_goals exact parse_r h _ (by decide) rfl
theorem dcvtF32F64 (h : Hd) (x : RF) : Statement (.dcvtF32F64 h x) := fun p imm hl => by
  have hw := eq_of_beq (wf_of_legal hl : (x.fn == 0#8) = true)
  obtain ⟨fn, d, a, b, c, md⟩ := x
  subst hw
  exact parse_r h _ (by decide) rfl
theorem dcvtF64F32 (h : Hd) (x : RF) : Statement (.dcvtF64F32 h x) := fun p imm hl => by
  have hw := eq_of_beq (wf_of_legal hl : (x.fn == 1#8) = true)
  obtain ⟨fn, d, a, b, c, md⟩ := x
  subst hw
  exact parse_r h _ (by decide) rfl
theorem dcvtIF64 (h : Hd) (x : RF) : Statement (.dcvtIF64 h x) := fun p imm hl => by
  have hw := eq_of_beq (wf_of_legal hl : (x.fn == 2#8) = true)
  obtain ⟨fn, d, a, b, c, md⟩ := x
  subst hw
  exact parse_r h _ (by decide) rfl
theorem dcvtF64I (h : Hd) (x : RF) : Statement (.dcvtF64I h x) := fun p imm hl => by
  have hw := eq_of_beq (wf_of_legal hl : (x.fn == 3#8) = true)
  obtain ⟨fn, d, a, b, c, md⟩ := x
  subst hw
  exact parse_r h _ (by decide) rfl
theorem fdot2 (h : Hd) (x : RF) : Statement (.fdot2 h x) := fun p imm hl => by
  have hw := eq_of_beq (wf_of_legal hl : (x.fn == 0#8) = true)
  obtain ⟨fn, d, a, b, c, md⟩ := x
  subst hw
  exact parse_r h _ (by decide) rfl
theorem f8dot (h : Hd) (x : RF) : Statement (.f8dot h x) := fun p imm hl => by
  have hw := eq_of_beq (wf_of_legal hl : (x.fn == 0#8) = true)
  obtain ⟨fn, d, a, b, c, md⟩ := x
  subst hw
  exact parse_r h _ (by decide) rfl
theorem f8dotMx (h : Hd) (x : RF) : Statement (.f8dotMx h x) := fun p imm hl => by
  have hw := eq_of_beq (wf_of_legal hl : (x.fn == 1#8) = true)
  obtain ⟨fn, d, a, b, c, md⟩ := x
  subst hw
  exact parse_r h _ (by decide) rfl
theorem bxpk (h : Hd) (x : RF) : Statement (.bxpk h x) := fun p imm hl => by
  obtain ⟨fn, d, a, b, c, md⟩ := x
  have hw : fn.toNat < 2 := of_decide_eq_true (wf_of_legal hl)
  generalize hk : fn.toNat = k at hw
  obtain rfl := code_lit fn hk
  interval_cases k
  all_goals exact parse_r h _ (by decide) rfl
theorem bxup (h : Hd) (x : RF) : Statement (.bxup h x) := fun p imm hl => by
  obtain ⟨fn, d, a, b, c, md⟩ := x
  have hw : fn.toNat < 2 := of_decide_eq_true (wf_of_legal hl)
  generalize hk : fn.toNat = k at hw
  obtain rfl := code_lit fn hk
  interval_cases k
  all_goals exact parse_r h _ (by decide) rfl
theorem fxmFm (h : Hd) (x : RF) : Statement (.fxmFm h x) := fun p imm hl => by
  have hw := eq_of_beq (wf_of_legal hl : (x.fn == 0#8) = true)
  obtain ⟨fn, d, a, b, c, md⟩ := x
  subst hw
  exact parse_r h _ (by decide) rfl
theorem fxmFe (h : Hd) (x : RF) : Statement (.fxmFe h x) := fun p imm hl => by
  have hw := eq_of_beq (wf_of_legal hl : (x.fn == 1#8) = true)
  obtain ⟨fn, d, a, b, c, md⟩ := x
  subst hw
  exact parse_r h _ (by decide) rfl
theorem fxmIlogb (h : Hd) (x : RF) : Statement (.fxmIlogb h x) := fun p imm hl => by
  have hw := eq_of_beq (wf_of_legal hl : (x.fn == 2#8) = true)
  obtain ⟨fn, d, a, b, c, md⟩ := x
  subst hw
  exact parse_r h _ (by decide) rfl
theorem ld (h : Hd) (x : MF) : Statement (.ld h x) := fun p imm hl => by
  exact parse_m h x (by decide) rfl
theorem st (h : Hd) (x : MF) : Statement (.st h x) := fun p imm hl => by
  exact parse_m h x (by decide) rfl
theorem ldnc (h : Hd) (x : MF) : Statement (.ldnc h x) := fun p imm hl => by
  exact parse_m h x (by decide) rfl
theorem ldacq (h : Hd) (x : MF) : Statement (.ldacq h x) := fun p imm hl => by
  exact parse_m h x (by decide) rfl
theorem strel (h : Hd) (x : MF) : Statement (.strel h x) := fun p imm hl => by
  exact parse_m h x (by decide) rfl
theorem lds (h : Hd) (x : MF) : Statement (.lds h x) := fun p imm hl => by
  exact parse_m h x (by decide) rfl
theorem sts (h : Hd) (x : MF) : Statement (.sts h x) := fun p imm hl => by
  exact parse_m h x (by decide) rfl
theorem ldh (h : Hd) (x : MF) : Statement (.ldh h x) := fun p imm hl => by
  exact parse_m h x (by decide) rfl
theorem sth (h : Hd) (x : MF) : Statement (.sth h x) := fun p imm hl => by
  exact parse_m h x (by decide) rfl
theorem ldt (h : Hd) (x : MF) : Statement (.ldt h x) := fun p imm hl => by
  exact parse_m h x (by decide) rfl
theorem stt (h : Hd) (x : MF) : Statement (.stt h x) := fun p imm hl => by
  exact parse_m h x (by decide) rfl
theorem atom (h : Hd) (x : RF) : Statement (.atom h x) := fun p imm hl => by
  obtain ⟨fn, d, a, b, c, md⟩ := x
  have hw : fn.toNat < 11 := of_decide_eq_true (wf_of_legal hl)
  generalize hk : fn.toNat = k at hw
  obtain rfl := code_lit fn hk
  interval_cases k
  all_goals exact parse_r h _ (by decide) rfl
theorem atomf (h : Hd) (x : RF) : Statement (.atomf h x) := fun p imm hl => by
  obtain ⟨fn, d, a, b, c, md⟩ := x
  have hw : fn.toNat < 5 := of_decide_eq_true (wf_of_legal hl)
  generalize hk : fn.toNat = k at hw
  obtain rfl := code_lit fn hk
  interval_cases k
  all_goals exact parse_r h _ (by decide) rfl
theorem cas (h : Hd) (x : RF) : Statement (.cas h x) := fun p imm hl => by
  have hw := eq_of_beq (wf_of_legal hl : (x.fn == 0#8) = true)
  obtain ⟨fn, d, a, b, c, md⟩ := x
  subst hw
  exact parse_r h _ (by decide) rfl
theorem atoms (h : Hd) (x : RF) : Statement (.atoms h x) := fun p imm hl => by
  obtain ⟨fn, d, a, b, c, md⟩ := x
  have hw : ((decide (fn.toNat < 11) || fn == 0x10#8 || (decide (0x20 ≤ fn.toNat) &&decide (fn.toNat < 0x23) ))) = true := wf_of_legal hl
  have hb : fn.toNat < 35 := by
    simp only [Bool.or_eq_true, Bool.and_eq_true, decide_eq_true_eq, beq_iff_eq, ← BitVec.toNat_inj, BitVec.toNat_ofNat] at hw
    omega
  generalize hk : fn.toNat = k at hb
  obtain rfl := code_lit fn hk
  clear hl
  interval_cases k
  all_goals first | exact parse_r h _ (by decide) rfl | exact absurd hw (by decide)
theorem fence (h : Hd) (x : RF) : Statement (.fence h x) := fun p imm hl => by
  have hw := eq_of_beq (wf_of_legal hl : (x.fn == 0#8) = true)
  obtain ⟨fn, d, a, b, c, md⟩ := x
  subst hw
  exact parse_r h _ (by decide) rfl
theorem fenceRel (h : Hd) (x : RF) : Statement (.fenceRel h x) := fun p imm hl => by
  have hw := eq_of_beq (wf_of_legal hl : (x.fn == 1#8) = true)
  obtain ⟨fn, d, a, b, c, md⟩ := x
  subst hw
  exact parse_r h _ (by decide) rfl
theorem fenceAcq (h : Hd) (x : RF) : Statement (.fenceAcq h x) := fun p imm hl => by
  have hw := eq_of_beq (wf_of_legal hl : (x.fn == 2#8) = true)
  obtain ⟨fn, d, a, b, c, md⟩ := x
  subst hw
  exact parse_r h _ (by decide) rfl
theorem fenceAr (h : Hd) (x : RF) : Statement (.fenceAr h x) := fun p imm hl => by
  have hw := eq_of_beq (wf_of_legal hl : (x.fn == 3#8) = true)
  obtain ⟨fn, d, a, b, c, md⟩ := x
  subst hw
  exact parse_r h _ (by decide) rfl
theorem fencex (h : Hd) (x : RF) : Statement (.fencex h x) := fun p imm hl => by
  have hw := eq_of_beq (wf_of_legal hl : (x.fn == 16#8) = true)
  obtain ⟨fn, d, a, b, c, md⟩ := x
  subst hw
  exact parse_r h _ (by decide) rfl
theorem xlat (h : Hd) (x : RF) : Statement (.xlat h x) := fun p imm hl => by
  have hw := eq_of_beq (wf_of_legal hl : (x.fn == 0#8) = true)
  obtain ⟨fn, d, a, b, c, md⟩ := x
  subst hw
  exact parse_r h _ (by decide) rfl
theorem xlatW (h : Hd) (x : RF) : Statement (.xlatW h x) := fun p imm hl => by
  have hw := eq_of_beq (wf_of_legal hl : (x.fn == 1#8) = true)
  obtain ⟨fn, d, a, b, c, md⟩ := x
  subst hw
  exact parse_r h _ (by decide) rfl
theorem hdrop (h : Hd) (x : RF) : Statement (.hdrop h x) := fun p imm hl => by
  have hw := eq_of_beq (wf_of_legal hl : (x.fn == 0#8) = true)
  obtain ⟨fn, d, a, b, c, md⟩ := x
  subst hw
  exact parse_r h _ (by decide) rfl
theorem hdropAll (h : Hd) (x : RF) : Statement (.hdropAll h x) := fun p imm hl => by
  have hw := eq_of_beq (wf_of_legal hl : (x.fn == 1#8) = true)
  obtain ⟨fn, d, a, b, c, md⟩ := x
  subst hw
  exact parse_r h _ (by decide) rfl
theorem pref (h : Hd) (x : MF) : Statement (.pref h x) := fun p imm hl => by
  have hw := eq_of_beq (wf_of_legal hl : (x.d.extractLsb' 0 2 == 0#2) = true)
  exact parse_m h x (by decide) (by simp only [buildM, hw]; rfl)
theorem prefL2 (h : Hd) (x : MF) : Statement (.prefL2 h x) := fun p imm hl => by
  have hw := eq_of_beq (wf_of_legal hl : (x.d.extractLsb' 0 2 == 1#2) = true)
  exact parse_m h x (by decide) (by simp only [buildM, hw]; rfl)
theorem prefEvict (h : Hd) (x : MF) : Statement (.prefEvict h x) := fun p imm hl => by
  have hw := eq_of_beq (wf_of_legal hl : (x.d.extractLsb' 0 2 == 2#2) = true)
  exact parse_m h x (by decide) (by simp only [buildM, hw]; rfl)
theorem prefDiscard (h : Hd) (x : MF) : Statement (.prefDiscard h x) := fun p imm hl => by
  have hw := eq_of_beq (wf_of_legal hl : (x.d.extractLsb' 0 2 == 3#2) = true)
  exact parse_m h x (by decide) (by simp only [buildM, hw]; rfl)
theorem cmntWb (h : Hd) (x : MF) : Statement (.cmntWb h x) := fun p imm hl => by
  have hw := eq_of_beq (wf_of_legal hl : (x.d.extractLsb' 0 2 == 0#2) = true)
  exact parse_m h x (by decide) (by simp only [buildM, hw]; rfl)
theorem cmntWbinv (h : Hd) (x : MF) : Statement (.cmntWbinv h x) := fun p imm hl => by
  have hw := eq_of_beq (wf_of_legal hl : (x.d.extractLsb' 0 2 == 1#2) = true)
  exact parse_m h x (by decide) (by simp only [buildM, hw]; rfl)
theorem cmntInv1 (h : Hd) (x : MF) : Statement (.cmntInv1 h x) := fun p imm hl => by
  have hw := eq_of_beq (wf_of_legal hl : (x.d.extractLsb' 0 2 == 2#2) = true)
  exact parse_m h x (by decide) (by simp only [buildM, hw]; rfl)
theorem watch (h : Hd) (x : MF) : Statement (.watch h x) := fun p imm hl => by
  exact parse_m h x (by decide) rfl
theorem watchRegistration {a0} : Statement (.watchRegistration a0) := fun _ _ _ => trivial
theorem waitw (h : Hd) (x : IF) : Statement (.waitw h x) := fun p imm hl => by
  have hw := eq_of_beq (wf_of_legal hl : (x.fn == 0#4) = true)
  obtain ⟨fn, d, a, imm⟩ := x
  subst hw
  exact parse_i h _ (by decide) rfl
theorem waitwTimeout {a0} : Statement (.waitwTimeout a0) := fun _ _ _ => trivial
theorem waitwEarlyReturn {a0} : Statement (.waitwEarlyReturn a0) := fun _ _ _ => trivial
theorem fpost (h : Hd) (x : RF) : Statement (.fpost h x) := fun p imm hl => by
  have hw := eq_of_beq (wf_of_legal hl : (x.fn == 0#8) = true)
  obtain ⟨fn, d, a, b, c, md⟩ := x
  subst hw
  exact parse_r h _ (by decide) rfl
theorem fpostR (h : Hd) (x : RF) : Statement (.fpostR h x) := fun p imm hl => by
  have hw := eq_of_beq (wf_of_legal hl : (x.fn == 1#8) = true)
  obtain ⟨fn, d, a, b, c, md⟩ := x
  subst hw
  exact parse_r h _ (by decide) rfl
theorem fwait (h : Hd) (x : IF) : Statement (.fwait h x) := fun p imm hl => by
  have hw := eq_of_beq (wf_of_legal hl : (x.fn == 0#4) = true)
  obtain ⟨fn, d, a, imm⟩ := x
  subst hw
  exact parse_i h _ (by decide) rfl
theorem fread (h : Hd) (x : RF) : Statement (.fread h x) := fun p imm hl => by
  have hw := eq_of_beq (wf_of_legal hl : (x.fn == 0#8) = true)
  obtain ⟨fn, d, a, b, c, md⟩ := x
  subst hw
  exact parse_r h _ (by decide) rfl
theorem freadAddr (h : Hd) (x : RF) : Statement (.freadAddr h x) := fun p imm hl => by
  have hw := eq_of_beq (wf_of_legal hl : (x.fn == 1#8) = true)
  obtain ⟨fn, d, a, b, c, md⟩ := x
  subst hw
  exact parse_r h _ (by decide) rfl
theorem barArrive (h : Hd) (x : RF) : Statement (.barArrive h x) := fun p imm hl => by
  have hw := eq_of_beq (wf_of_legal hl : (x.fn == 0#8) = true)
  obtain ⟨fn, d, a, b, c, md⟩ := x
  subst hw
  exact parse_r h _ (by decide) rfl
theorem barWait (h : Hd) (x : RF) : Statement (.barWait h x) := fun p imm hl => by
  have hw := eq_of_beq (wf_of_legal hl : (x.fn == 1#8) = true)
  obtain ⟨fn, d, a, b, c, md⟩ := x
  subst hw
  exact parse_r h _ (by decide) rfl
theorem tdef (h : Hd) (x : RF) : Statement (.tdef h x) := fun p imm hl => by
  have hw := eq_of_beq (wf_of_legal hl : (x.fn == 0#8) = true)
  obtain ⟨fn, d, a, b, c, md⟩ := x
  subst hw
  exact parse_r h _ (by decide) rfl
theorem tacqOwn (h : Hd) (x : RF) : Statement (.tacqOwn h x) := fun p imm hl => by
  have hw := eq_of_beq (wf_of_legal hl : (x.fn == 0#8) = true)
  obtain ⟨fn, d, a, b, c, md⟩ := x
  subst hw
  exact parse_r h _ (by decide) rfl
theorem tacqPub (h : Hd) (x : RF) : Statement (.tacqPub h x) := fun p imm hl => by
  have hw := eq_of_beq (wf_of_legal hl : (x.fn == 1#8) = true)
  obtain ⟨fn, d, a, b, c, md⟩ := x
  subst hw
  exact parse_r h _ (by decide) rfl
theorem tacqRel (h : Hd) (x : RF) : Statement (.tacqRel h x) := fun p imm hl => by
  have hw := eq_of_beq (wf_of_legal hl : (x.fn == 2#8) = true)
  obtain ⟨fn, d, a, b, c, md⟩ := x
  subst hw
  exact parse_r h _ (by decide) rfl
theorem tileDrainComplete {a0} {a1} : Statement (.tileDrainComplete a0 a1) := fun _ _ _ => trivial
theorem spawn (h : Hd) (x : IF) : Statement (.spawn h x) := fun p imm hl => by
  have hw := eq_of_beq (wf_of_legal hl : (x.fn == 0#4) = true)
  obtain ⟨fn, d, a, imm⟩ := x
  subst hw
  exact parse_i h _ (by decide) rfl
theorem spawnOne (h : Hd) (x : IF) : Statement (.spawnOne h x) := fun p imm hl => by
  have hw := eq_of_beq (wf_of_legal hl : (x.fn == 1#4) = true)
  obtain ⟨fn, d, a, imm⟩ := x
  subst hw
  exact parse_i h _ (by decide) rfl
theorem futRes (h : Hd) (x : RF) : Statement (.futRes h x) := fun p imm hl => by
  have hw := eq_of_beq (wf_of_legal hl : (x.fn == 0#8) = true)
  obtain ⟨fn, d, a, b, c, md⟩ := x
  subst hw
  exact parse_r h _ (by decide) rfl
theorem futPoison (h : Hd) (x : RF) : Statement (.futPoison h x) := fun p imm hl => by
  have hw := eq_of_beq (wf_of_legal hl : (x.fn == 1#8) = true)
  obtain ⟨fn, d, a, b, c, md⟩ := x
  subst hw
  exact parse_r h _ (by decide) rfl
theorem futJoin (h : Hd) (x : RF) : Statement (.futJoin h x) := fun p imm hl => by
  have hw := eq_of_beq (wf_of_legal hl : (x.fn == 2#8) = true)
  obtain ⟨fn, d, a, b, c, md⟩ := x
  subst hw
  exact parse_r h _ (by decide) rfl
theorem futPoll (h : Hd) (x : RF) : Statement (.futPoll h x) := fun p imm hl => by
  have hw := eq_of_beq (wf_of_legal hl : (x.fn == 3#8) = true)
  obtain ⟨fn, d, a, b, c, md⟩ := x
  subst hw
  exact parse_r h _ (by decide) rfl
theorem homeSliceJoin {a0} : Statement (.homeSliceJoin a0) := fun _ _ _ => trivial
theorem homeSliceResolve {a0} : Statement (.homeSliceResolve a0) := fun _ _ _ => trivial
theorem cellDecrement {a0} : Statement (.cellDecrement a0) := fun _ _ _ => trivial
theorem grecTs (h : Hd) (x : RF) : Statement (.grecTs h x) := fun p imm hl => by
  have hw := eq_of_beq (wf_of_legal hl : (x.fn == 0#8) = true)
  obtain ⟨fn, d, a, b, c, md⟩ := x
  subst hw
  exact parse_r h _ (by decide) rfl
theorem grecTsx (h : Hd) (x : RF) : Statement (.grecTsx h x) := fun p imm hl => by
  have hw := eq_of_beq (wf_of_legal hl : (x.fn == 1#8) = true)
  obtain ⟨fn, d, a, b, c, md⟩ := x
  subst hw
  exact parse_r h _ (by decide) rfl
theorem grecSrc (h : Hd) (x : RF) : Statement (.grecSrc h x) := fun p imm hl => by
  have hw := eq_of_beq (wf_of_legal hl : (x.fn == 2#8) = true)
  obtain ⟨fn, d, a, b, c, md⟩ := x
  subst hw
  exact parse_r h _ (by decide) rfl
theorem grecWord (h : Hd) (x : RF) : Statement (.grecWord h x) := fun p imm hl => by
  have hw := eq_of_beq (wf_of_legal hl : (x.fn == 3#8) = true)
  obtain ⟨fn, d, a, b, c, md⟩ := x
  subst hw
  exact parse_r h _ (by decide) rfl
theorem rdtm (h : Hd) (x : RF) : Statement (.rdtm h x) := fun p imm hl => by
  have hw := eq_of_beq (wf_of_legal hl : (x.fn == 0#8) = true)
  obtain ⟨fn, d, a, b, c, md⟩ := x
  subst hw
  exact parse_r h _ (by decide) rfl
theorem rdtmX (h : Hd) (x : RF) : Statement (.rdtmX h x) := fun p imm hl => by
  have hw := eq_of_beq (wf_of_legal hl : (x.fn == 1#8) = true)
  obtain ⟨fn, d, a, b, c, md⟩ := x
  subst hw
  exact parse_r h _ (by decide) rfl
theorem rdtmQ (h : Hd) (x : RF) : Statement (.rdtmQ h x) := fun p imm hl => by
  have hw := eq_of_beq (wf_of_legal hl : (x.fn == 2#8) = true)
  obtain ⟨fn, d, a, b, c, md⟩ := x
  subst hw
  exact parse_r h _ (by decide) rfl
theorem pbr (h : Hd) (x : IF) : Statement (.pbr h x) := fun p imm hl => by
  have hw := eq_of_beq (wf_of_legal hl : (x.fn == 0#4) = true)
  obtain ⟨fn, d, a, imm⟩ := x
  subst hw
  exact parse_i h _ (by decide) rfl
theorem pbrr (h : Hd) (x : RF) : Statement (.pbrr h x) := fun p imm hl => by
  have hw := eq_of_beq (wf_of_legal hl : (x.fn == 0#8) = true)
  obtain ⟨fn, d, a, b, c, md⟩ := x
  subst hw
  exact parse_r h _ (by decide) rfl
theorem pbrrGet (h : Hd) (x : RF) : Statement (.pbrrGet h x) := fun p imm hl => by
  have hw := eq_of_beq (wf_of_legal hl : (x.fn == 1#8) = true)
  obtain ⟨fn, d, a, b, c, md⟩ := x
  subst hw
  exact parse_r h _ (by decide) rfl
theorem br (h : Hd) (x : BF) : Statement (.br h x) := fun p imm hl => by
  have hw := eq_of_beq (wf_of_legal hl : (x.fn == 0#4) = true)
  obtain ⟨fn, tg, jn, hi⟩ := x
  subst hw
  exact parse_b h _ (by decide) rfl
theorem brAny (h : Hd) (x : BF) : Statement (.brAny h x) := fun p imm hl => by
  have hw := eq_of_beq (wf_of_legal hl : (x.fn == 1#4) = true)
  obtain ⟨fn, tg, jn, hi⟩ := x
  subst hw
  exact parse_b h _ (by decide) rfl
theorem brAll (h : Hd) (x : BF) : Statement (.brAll h x) := fun p imm hl => by
  have hw := eq_of_beq (wf_of_legal hl : (x.fn == 2#4) = true)
  obtain ⟨fn, tg, jn, hi⟩ := x
  subst hw
  exact parse_b h _ (by decide) rfl
theorem join (h : Hd) (x : BF) : Statement (.join h x) := fun p imm hl => by
  have hw := eq_of_beq (wf_of_legal hl : (x.fn == 0#4) = true)
  obtain ⟨fn, tg, jn, hi⟩ := x
  subst hw
  exact parse_b h _ (by decide) rfl
theorem call (h : Hd) (x : BF) : Statement (.call h x) := fun p imm hl => by
  have hw := eq_of_beq (wf_of_legal hl : (x.fn == 0#4) = true)
  obtain ⟨fn, tg, jn, hi⟩ := x
  subst hw
  exact parse_b h _ (by decide) rfl
theorem ret (h : Hd) (x : BF) : Statement (.ret h x) := fun p imm hl => by
  have hw := eq_of_beq (wf_of_legal hl : (x.fn == 0#4) = true)
  obtain ⟨fn, tg, jn, hi⟩ := x
  subst hw
  exact parse_b h _ (by decide) rfl
theorem exit (h : Hd) (x : BF) : Statement (.exit h x) := fun p imm hl => by
  have hw := eq_of_beq (wf_of_legal hl : (x.fn == 0#4) = true)
  obtain ⟨fn, tg, jn, hi⟩ := x
  subst hw
  exact parse_b h _ (by decide) rfl
theorem slotRelease {a0} : Statement (.slotRelease a0) := fun _ _ _ => trivial
theorem fuse (h : Hd) (x : BF) : Statement (.fuse h x) := fun p imm hl => by
  have hw := eq_of_beq (wf_of_legal hl : (x.fn == 0#4) = true)
  obtain ⟨fn, tg, jn, hi⟩ := x
  subst hw
  exact parse_b h _ (by decide) rfl
theorem laneGroupAcquire {a0} : Statement (.laneGroupAcquire a0) := fun _ _ _ => trivial
theorem split (h : Hd) (x : BF) : Statement (.split h x) := fun p imm hl => by
  have hw := eq_of_beq (wf_of_legal hl : (x.fn == 0#4) = true)
  obtain ⟨fn, tg, jn, hi⟩ := x
  subst hw
  exact parse_b h _ (by decide) rfl
theorem loop (h : Hd) (x : IF) : Statement (.loop h x) := fun p imm hl => by
  have hw := eq_of_beq (wf_of_legal hl : (x.fn == 0#4) = true)
  obtain ⟨fn, d, a, imm⟩ := x
  subst hw
  exact parse_i h _ (by decide) rfl
theorem lend (h : Hd) (x : BF) : Statement (.lend h x) := fun p imm hl => by
  have hw := eq_of_beq (wf_of_legal hl : (x.fn == 0#4) = true)
  obtain ⟨fn, tg, jn, hi⟩ := x
  subst hw
  exact parse_b h _ (by decide) rfl
theorem lendPop (h : Hd) (x : BF) : Statement (.lendPop h x) := fun p imm hl => by
  have hw := eq_of_beq (wf_of_legal hl : (x.fn == 1#4) = true)
  obtain ⟨fn, tg, jn, hi⟩ := x
  subst hw
  exact parse_b h _ (by decide) rfl
theorem lendBrk (h : Hd) (x : BF) : Statement (.lendBrk h x) := fun p imm hl => by
  have hw := eq_of_beq (wf_of_legal hl : (x.fn == 2#4) = true)
  obtain ⟨fn, tg, jn, hi⟩ := x
  subst hw
  exact parse_b h _ (by decide) rfl
theorem cont (h : Hd) (x : IF) : Statement (.cont h x) := fun p imm hl => by
  have hw := eq_of_beq (wf_of_legal hl : (x.fn == 0#4) = true)
  obtain ⟨fn, d, a, imm⟩ := x
  subst hw
  exact parse_i h _ (by decide) rfl
theorem contB (h : Hd) (x : IF) : Statement (.contB h x) := fun p imm hl => by
  have hw := eq_of_beq (wf_of_legal hl : (x.fn == 1#4) = true)
  obtain ⟨fn, d, a, imm⟩ := x
  subst hw
  exact parse_i h _ (by decide) rfl
theorem bgtTop (h : Hd) (x : IF) : Statement (.bgtTop h x) := fun p imm hl => by
  have hw := eq_of_beq (wf_of_legal hl : (x.fn == 0#4) = true)
  obtain ⟨fn, d, a, imm⟩ := x
  subst hw
  exact parse_i h _ (by decide) rfl
theorem bgtRel (h : Hd) (x : IF) : Statement (.bgtRel h x) := fun p imm hl => by
  have hw := eq_of_beq (wf_of_legal hl : (x.fn == 1#4) = true)
  obtain ⟨fn, d, a, imm⟩ := x
  subst hw
  exact parse_i h _ (by decide) rfl
theorem yield (h : Hd) (x : BF) : Statement (.yield h x) := fun p imm hl => by
  have hw := eq_of_beq (wf_of_legal hl : (x.fn == 0#4) = true)
  obtain ⟨fn, tg, jn, hi⟩ := x
  subst hw
  exact parse_b h _ (by decide) rfl
theorem trap (h : Hd) (x : IF) : Statement (.trap h x) := fun p imm hl => by
  have hw := eq_of_beq (wf_of_legal hl : (x.fn == 0#4) = true)
  obtain ⟨fn, d, a, imm⟩ := x
  subst hw
  exact parse_i h _ (by decide) rfl
theorem trapBkpt (h : Hd) (x : IF) : Statement (.trapBkpt h x) := fun p imm hl => by
  have hw := eq_of_beq (wf_of_legal hl : (x.fn == 1#4) = true)
  obtain ⟨fn, d, a, imm⟩ := x
  subst hw
  exact parse_i h _ (by decide) rfl
theorem rdctr (h : Hd) (x : RF) : Statement (.rdctr h x) := fun p imm hl => by
  have hw := eq_of_beq (wf_of_legal hl : (x.fn == 0#8) = true)
  obtain ⟨fn, d, a, b, c, md⟩ := x
  subst hw
  exact parse_r h _ (by decide) rfl
theorem privMfp (h : Hd) (x : RF) : Statement (.privMfp h x) := fun p imm hl => by
  have hw := eq_of_beq (wf_of_legal hl : (x.fn == 0#8) = true)
  obtain ⟨fn, d, a, b, c, md⟩ := x
  subst hw
  exact parse_r h _ (by decide) rfl
theorem privMtp (h : Hd) (x : RF) : Statement (.privMtp h x) := fun p imm hl => by
  have hw := eq_of_beq (wf_of_legal hl : (x.fn == 1#8) = true)
  obtain ⟨fn, d, a, b, c, md⟩ := x
  subst hw
  exact parse_r h _ (by decide) rfl
theorem privInval (h : Hd) (x : RF) : Statement (.privInval h x) := fun p imm hl => by
  have hw := eq_of_beq (wf_of_legal hl : (x.fn == 2#8) = true)
  obtain ⟨fn, d, a, b, c, md⟩ := x
  subst hw
  exact parse_r h _ (by decide) rfl
theorem privYreq (h : Hd) (x : RF) : Statement (.privYreq h x) := fun p imm hl => by
  have hw := eq_of_beq (wf_of_legal hl : (x.fn == 3#8) = true)
  obtain ⟨fn, d, a, b, c, md⟩ := x
  subst hw
  exact parse_r h _ (by decide) rfl
theorem tret (h : Hd) (x : BF) : Statement (.tret h x) := fun p imm hl => by
  have hw := eq_of_beq (wf_of_legal hl : (x.fn == 0#4) = true)
  obtain ⟨fn, tg, jn, hi⟩ := x
  subst hw
  exact parse_b h _ (by decide) rfl
theorem tretSkip (h : Hd) (x : BF) : Statement (.tretSkip h x) := fun p imm hl => by
  have hw := eq_of_beq (wf_of_legal hl : (x.fn == 1#4) = true)
  obtain ⟨fn, tg, jn, hi⟩ := x
  subst hw
  exact parse_b h _ (by decide) rfl
theorem ldx (h : Hd) (x : MF) : Statement (.ldx h x) := fun p imm hl => by
  have hw := eq_of_beq (wf_of_legal hl : (x.queue == 0#2) = true)
  obtain ⟨wd, sg, nu, d, ba, ix, qu, of⟩ := x
  subst hw
  exact parse_m h _ (by decide) rfl
theorem stx (h : Hd) (x : MF) : Statement (.stx h x) := fun p imm hl => by
  have hw := eq_of_beq (wf_of_legal hl : (x.queue == 1#2) = true)
  obtain ⟨wd, sg, nu, d, ba, ix, qu, of⟩ := x
  subst hw
  exact parse_m h _ (by decide) rfl
theorem ldxPi (h : Hd) (x : MF) : Statement (.ldxPi h x) := fun p imm hl => by
  have hw := eq_of_beq (wf_of_legal hl : (x.queue == 2#2) = true)
  obtain ⟨wd, sg, nu, d, ba, ix, qu, of⟩ := x
  subst hw
  exact parse_m h _ (by decide) rfl
theorem stxPi (h : Hd) (x : MF) : Statement (.stxPi h x) := fun p imm hl => by
  have hw := eq_of_beq (wf_of_legal hl : (x.queue == 3#2) = true)
  obtain ⟨wd, sg, nu, d, ba, ix, qu, of⟩ := x
  subst hw
  exact parse_m h _ (by decide) rfl
theorem brx (h : Hd) (x : RF) : Statement (.brx h x) := fun p imm hl => by
  have hw := eq_of_beq (wf_of_legal hl : (x.fn == 0#8) = true)
  obtain ⟨fn, d, a, b, c, md⟩ := x
  subst hw
  exact parse_r h _ (by decide) rfl
theorem atmx (h : Hd) (x : RF) : Statement (.atmx h x) := fun p imm hl => by
  have hw := eq_of_beq (wf_of_legal hl : (x.fn == 1#8) = true)
  obtain ⟨fn, d, a, b, c, md⟩ := x
  subst hw
  exact parse_r h _ (by decide) rfl
theorem mma (h : Hd) (x : EF) : Statement (.mma h x) := fun p imm hl => by
  exact parse_e h x (by decide) rfl
theorem mmag (h : Hd) (x : EF) : Statement (.mmag h x) := fun p imm hl => by
  exact parse_e h x (by decide) rfl
theorem zld (h : Hd) (x : EF) : Statement (.zld h x) := fun p imm hl => by
  exact parse_e h x (by decide) rfl
theorem zst (h : Hd) (x : EF) : Statement (.zst h x) := fun p imm hl => by
  exact parse_e h x (by decide) rfl
theorem zclr (h : Hd) (x : EF) : Statement (.zclr h x) := fun p imm hl => by
  exact parse_e h x (by decide) rfl
theorem zrowRd (h : Hd) (x : EF) : Statement (.zrowRd h x) := fun p imm hl => by
  have hw := eq_of_beq (wf_of_legal hl : (x.fn == 0#4) = true)
  obtain ⟨fn, ql, st, fk, fl, ta, tb, pt⟩ := x
  subst hw
  exact parse_e h _ (by decide) rfl
theorem zrowWr (h : Hd) (x : EF) : Statement (.zrowWr h x) := fun p imm hl => by
  have hw := eq_of_beq (wf_of_legal hl : (x.fn == 1#4) = true)
  obtain ⟨fn, ql, st, fk, fl, ta, tb, pt⟩ := x
  subst hw
  exact parse_e h _ (by decide) rfl
theorem matrixStart {a0} : Statement (.matrixStart a0) := fun _ _ _ => trivial
theorem matrixCompletion {a0} : Statement (.matrixCompletion a0) := fun _ _ _ => trivial
theorem copy (h : Hd) (x : EF) : Statement (.copy h x) := fun p imm hl => by
  exact parse_e h x (by decide) rfl
theorem strmIn (h : Hd) (x : EF) : Statement (.strmIn h x) := fun p imm hl => by
  have hw := eq_of_beq (wf_of_legal hl : (x.fn.getLsbD 1 == false) = true)
  exact parse_e h x (by decide) (by simp only [buildE, hw]; rfl)
theorem strmOut (h : Hd) (x : EF) : Statement (.strmOut h x) := fun p imm hl => by
  have hw := eq_of_beq (wf_of_legal hl : (x.fn.getLsbD 1 == true) = true)
  exact parse_e h x (by decide) (by simp only [buildE, hw]; rfl)
theorem netx (h : Hd) (x : EF) : Statement (.netx h x) := fun p imm hl => by
  exact parse_e h x (by decide) rfl
theorem gset (h : Hd) (x : RF) : Statement (.gset h x) := fun p imm hl => by
  have hw := eq_of_beq (wf_of_legal hl : (x.fn == 0#8) = true)
  obtain ⟨fn, d, a, b, c, md⟩ := x
  subst hw
  exact parse_r h _ (by decide) rfl
theorem estsQ (h : Hd) (x : RF) : Statement (.estsQ h x) := fun p imm hl => by
  have hw := eq_of_beq (wf_of_legal hl : (x.fn == 0#8) = true)
  obtain ⟨fn, d, a, b, c, md⟩ := x
  subst hw
  exact parse_r h _ (by decide) rfl
theorem estsErr (h : Hd) (x : RF) : Statement (.estsErr h x) := fun p imm hl => by
  have hw := eq_of_beq (wf_of_legal hl : (x.fn == 1#8) = true)
  obtain ⟨fn, d, a, b, c, md⟩ := x
  subst hw
  exact parse_r h _ (by decide) rfl
theorem engineCommandTakeUp {a0} : Statement (.engineCommandTakeUp a0) := fun _ _ _ => trivial
theorem engineCommandCompletion {a0} : Statement (.engineCommandCompletion a0) := fun _ _ _ => trivial
theorem strmChunkEnd {a0} : Statement (.strmChunkEnd a0) := fun _ _ _ => trivial
theorem netxFrameSent {a0} : Statement (.netxFrameSent a0) := fun _ _ _ => trivial
theorem bundle {a0} {a1} : Statement (.bundle a0 a1) := fun _ _ _ => trivial
theorem faultEntryDeferred {a0} : Statement (.faultEntryDeferred a0) := fun _ _ _ => trivial
theorem walkCompletion {a0} : Statement (.walkCompletion a0) := fun _ _ _ => trivial
theorem atomicApply {a0} : Statement (.atomicApply a0) := fun _ _ _ => trivial
theorem storeRegistration {a0} : Statement (.storeRegistration a0) := fun _ _ _ => trivial
theorem revocation {a0} : Statement (.revocation a0) := fun _ _ _ => trivial
theorem loadResultReturn {a0} : Statement (.loadResultReturn a0) := fun _ _ _ => trivial
theorem decoupledAccessCompletion {a0} : Statement (.decoupledAccessCompletion a0) := fun _ _ _ => trivial
theorem pathWriteMerge {a0} : Statement (.pathWriteMerge a0) := fun _ _ _ => trivial
theorem remoteFlagPost {a0} : Statement (.remoteFlagPost a0) := fun _ _ _ => trivial
theorem fabricAccessAtTarget {a0} : Statement (.fabricAccessAtTarget a0) := fun _ _ _ => trivial
theorem auditResult {a0} : Statement (.auditResult a0) := fun _ _ _ => trivial
theorem auditAgeExpiry {a0} {a1} {a2} : Statement (.auditAgeExpiry a0 a1 a2) := fun _ _ _ => trivial
theorem recordAppend {a0} {a1} : Statement (.recordAppend a0 a1) := fun _ _ _ => trivial
theorem binTimerExpiry {a0} {a1} : Statement (.binTimerExpiry a0 a1) := fun _ _ _ => trivial
theorem overflowReturn {a0} : Statement (.overflowReturn a0) := fun _ _ _ => trivial
theorem waiterPlacement {a0} : Statement (.waiterPlacement a0) := fun _ _ _ => trivial
theorem schedulerWriteDelivery {a0} : Statement (.schedulerWriteDelivery a0) := fun _ _ _ => trivial
theorem deadlineReached {a0} : Statement (.deadlineReached a0) := fun _ _ _ => trivial
theorem yieldSequence {a0} : Statement (.yieldSequence a0) := fun _ _ _ => trivial
theorem yieldRecordFreed {a0} : Statement (.yieldRecordFreed a0) := fun _ _ _ => trivial
theorem correctableErrorFreeze {a0} : Statement (.correctableErrorFreeze a0) := fun _ _ _ => trivial
theorem freezeEnd {a0} : Statement (.freezeEnd a0) := fun _ _ _ => trivial
theorem uncorrectableError {a0} : Statement (.uncorrectableError a0) := fun _ _ _ => trivial
theorem fullSave {a0} : Statement (.fullSave a0) := fun _ _ _ => trivial
theorem fullRestore {a0} : Statement (.fullRestore a0) := fun _ _ _ => trivial
theorem worldSwitch {a0} {a1} : Statement (.worldSwitch a0 a1) := fun _ _ _ => trivial
theorem sliceWrite {a0} {a1} {a2} : Statement (.sliceWrite a0 a1 a2) := fun _ _ _ => trivial
theorem percalePass : Statement (.percalePass) := fun _ _ _ => trivial
theorem residencyQuantum : Statement (.residencyQuantum) := fun _ _ _ => trivial
theorem dispatch {a0} : Statement (.dispatch a0) := fun _ _ _ => trivial
theorem dispatchDefine {a0} : Statement (.dispatchDefine a0) := fun _ _ _ => trivial
theorem lockstep {a0} : Statement (.lockstep a0) := fun _ _ _ => trivial
theorem lockstepRelease {a0} : Statement (.lockstepRelease a0) := fun _ _ _ => trivial
theorem recordPacket {a0} : Statement (.recordPacket a0) := fun _ _ _ => trivial
theorem copyPacket {a0} : Statement (.copyPacket a0) := fun _ _ _ => trivial
theorem waitflag {a0} : Statement (.waitflag a0) := fun _ _ _ => trivial
theorem waitmem {a0} : Statement (.waitmem a0) := fun _ _ _ => trivial
theorem waitConditionMet {a0} : Statement (.waitConditionMet a0) := fun _ _ _ => trivial
theorem waitTimeout {a0} : Statement (.waitTimeout a0) := fun _ _ _ => trivial
theorem signalWrite {a0} : Statement (.signalWrite a0) := fun _ _ _ => trivial
theorem signalAdd {a0} : Statement (.signalAdd a0) := fun _ _ _ => trivial
theorem signalResolve {a0} : Statement (.signalResolve a0) := fun _ _ _ => trivial
theorem signalPoison {a0} : Statement (.signalPoison a0) := fun _ _ _ => trivial
theorem signalPost {a0} : Statement (.signalPost a0) := fun _ _ _ => trivial
theorem timestamp {a0} : Statement (.timestamp a0) := fun _ _ _ => trivial
theorem budgetAdd {a0} : Statement (.budgetAdd a0) := fun _ _ _ => trivial
theorem budgetSet {a0} : Statement (.budgetSet a0) := fun _ _ _ => trivial
theorem budgetReclaim {a0} : Statement (.budgetReclaim a0) := fun _ _ _ => trivial
theorem deadline {a0} : Statement (.deadline a0) := fun _ _ _ => trivial
theorem launchCompletion {a0} : Statement (.launchCompletion a0) := fun _ _ _ => trivial
theorem interruptDelayExpiry {a0} : Statement (.interruptDelayExpiry a0) := fun _ _ _ => trivial
theorem doorbell {a0} {a1} {a2} : Statement (.doorbell a0 a1 a2) := fun _ _ _ => trivial
theorem queueEnable {a0} {a1} {a2} : Statement (.queueEnable a0 a1 a2) := fun _ _ _ => trivial
theorem contextCreate {a0} {a1} {a2} : Statement (.contextCreate a0 a1 a2) := fun _ _ _ => trivial
theorem contextDestroy {a0} {a1} {a2} : Statement (.contextDestroy a0 a1 a2) := fun _ _ _ => trivial
theorem faultRetire {a0} {a1} {a2} : Statement (.faultRetire a0 a1 a2) := fun _ _ _ => trivial
theorem faultRetireAll {a0} {a1} {a2} : Statement (.faultRetireAll a0 a1 a2) := fun _ _ _ => trivial
theorem hostShootdown {a0} {a1} {a2} : Statement (.hostShootdown a0 a1 a2) := fun _ _ _ => trivial
theorem slotPin {a0} {a1} {a2} {a3} : Statement (.slotPin a0 a1 a2 a3) := fun _ _ _ => trivial
theorem slotUnpin {a0} {a1} {a2} {a3} : Statement (.slotUnpin a0 a1 a2 a3) := fun _ _ _ => trivial
theorem formatWindowEnable {a0} {a1} {a2} {a3} : Statement (.formatWindowEnable a0 a1 a2 a3) := fun _ _ _ => trivial
theorem filterEnable {a0} {a1} {a2} {a3} : Statement (.filterEnable a0 a1 a2 a3) := fun _ _ _ => trivial
theorem portBreakout {a0} {a1} {a2} : Statement (.portBreakout a0 a1 a2) := fun _ _ _ => trivial
theorem linkUp {a0} : Statement (.linkUp a0) := fun _ _ _ => trivial
theorem frameFirstByte {a0} {a1} : Statement (.frameFirstByte a0 a1) := fun _ _ _ => trivial
theorem frameEnd {a0} {a1} : Statement (.frameEnd a0 a1) := fun _ _ _ => trivial
theorem ptpMessage {a0} {a1} : Statement (.ptpMessage a0 a1) := fun _ _ _ => trivial
theorem assignmentWrite {a0} {a1} {a2} : Statement (.assignmentWrite a0 a1 a2) := fun _ _ _ => trivial
theorem hostWrite {a0} {a1} : Statement (.hostWrite a0 a1) := fun _ _ _ => trivial
theorem semaphoreAcquire {a0} {a1} : Statement (.semaphoreAcquire a0 a1) := fun _ _ _ => trivial
theorem semaphoreRelease {a0} {a1} : Statement (.semaphoreRelease a0 a1) := fun _ _ _ => trivial
theorem portUnfreeze {a0} {a1} : Statement (.portUnfreeze a0 a1) := fun _ _ _ => trivial
theorem functionLevelReset {a0} {a1} : Statement (.functionLevelReset a0 a1) := fun _ _ _ => trivial
theorem timeAdjust {a0} {a1} : Statement (.timeAdjust a0 a1) := fun _ _ _ => trivial
theorem timeSet {a0} {a1} : Statement (.timeSet a0 a1) := fun _ _ _ => trivial
theorem deviceTimeLatchRead {a0} : Statement (.deviceTimeLatchRead a0) := fun _ _ _ => trivial
theorem tenantFailsRead {a0} {a1} : Statement (.tenantFailsRead a0 a1) := fun _ _ _ => trivial
theorem portCounterRead {a0} {a1} {a2} : Statement (.portCounterRead a0 a1 a2) := fun _ _ _ => trivial
theorem throttleCountRead {a0} : Statement (.throttleCountRead a0) := fun _ _ _ => trivial
theorem counterValueWrite {a0} {a1} {a2} {a3} : Statement (.counterValueWrite a0 a1 a2 a3) := fun _ _ _ => trivial
theorem ginghamClear {a0} {a1} {a2} : Statement (.ginghamClear a0 a1 a2) := fun _ _ _ => trivial
theorem debugStop {a0} {a1} {a2} : Statement (.debugStop a0 a1 a2) := fun _ _ _ => trivial
theorem debugStopEffect {a0} : Statement (.debugStopEffect a0) := fun _ _ _ => trivial
theorem debugGo {a0} {a1} {a2} : Statement (.debugGo a0 a1 a2) := fun _ _ _ => trivial
theorem debugDataWrite {a0} {a1} {a2} : Statement (.debugDataWrite a0 a1 a2) := fun _ _ _ => trivial
theorem moduleReset : Statement .moduleReset := fun _ _ _ => trivial
theorem recoveryProgram {a0} : Statement (.recoveryProgram a0) := fun _ _ _ => trivial
theorem firmwareUpdate {a0} : Statement (.firmwareUpdate a0) := fun _ _ _ => trivial
theorem attestationReport {a0} : Statement (.attestationReport a0) := fun _ _ _ => trivial
theorem raiseRollbackFloor {a0} : Statement (.raiseRollbackFloor a0) := fun _ _ _ => trivial
theorem throttleChange {a0} {a1} {a2} {a3} : Statement (.throttleChange a0 a1 a2 a3) := fun _ _ _ => trivial
theorem thermalTrip : Statement (.thermalTrip) := fun _ _ _ => trivial
theorem registerWrite {a0} {a1} {a2} : Statement (.registerWrite a0 a1 a2) := fun _ _ _ => trivial
theorem linkDown {a0} : Statement (.linkDown a0) := fun _ _ _ => trivial
theorem fabricLinkDown {a0} : Statement (.fabricLinkDown a0) := fun _ _ _ => trivial
theorem muslinReplayInjection {a0} : Statement (.muslinReplayInjection a0) := fun _ _ _ => trivial
theorem timeSlewEnd : Statement (.timeSlewEnd) := fun _ _ _ => trivial

end Sys2Proof.Laws.RoundTrip
end

