-- ==== Sys2Proof/Tests/Slice0.lean ====
section
/-! SUPPORT. Tests: words written out from the spec's encodings, ill-formed terms, single steps with results from the rules, and for each
obligation a state and operands that meet its hypotheses. -/

namespace Sys2Proof.Tests

open Sys2Proof Sys2Proof.Machine

-- One theorem at a time: many kernel evaluations side by side would start more threads than the memory holds.
set_option Elab.async false

/-! ## Words (R153 to R159, and the examples of the spec) -/

/-- The guard p15, no negation, latency code 0: what an unguarded word of the SIMT decoder carries. -/
def all : Hd := ⟨false, 15, 0⟩

/-- What the SIMT decoder reads from a word, and what the branch slot of a bundle does. -/
def simtWord (w : Word64) : Option Instr := (decodeWord .simt false w).toOption
def branchWord (w : Word64) : Option Instr := (decodeWord .br false w).toOption
/-- Why the SIMT decoder rejects a word. -/
def whyNot (w : Word64) : Option Reject := match decodeWord .simt false w with | .error e => some e | .ok _ => none

theorem test_decode_arithmetic :
    simtWord 0x02F0010402030110 = some (.iaddAddc all ⟨1, 4, 2, 3, 1, 0x10⟩) ∧
    simtWord 0x2CF0020101830F10 = some (.icmp all ⟨2, 1, 1, 0x83, 0x0F, 0x10⟩) ∧
    simtWord 0x46F0010201C1C310 = some (.shufRot all ⟨1, 2, 1, 0xC1, 0xC3, 0x10⟩) ∧
    simtWord 0x4CF0000302000010 = some (.gred all ⟨0, 3, 2, 0, 0, 0x10⟩) ∧
    simtWord 0x4EF0000706000010 = some (.gscan all ⟨0, 7, 6, 0, 0, 0x10⟩) := by decide

theorem test_decode_memory :
    simtWord 0x80F04E0180000000 = some (.ld all ⟨2, false, 14, 1, 0x80, 0, 0, 0⟩) ∧
    simtWord 0x80F0608380FF0008 = some (.ld all ⟨3, false, 0, 0x83, 0x80, 0xFF, 0, 8⟩) ∧
    simtWord 0x82F04F0180001000 = some (.st all ⟨2, false, 15, 1, 0x80, 0, 0, 0x1000⟩) ∧
    simtWord 0x82F0000382010000 = some (.st all ⟨0, false, 0, 3, 0x82, 1, 0, 0⟩) ∧
    simtWord 0x82F0609182FF0038 = some (.st all ⟨3, false, 0, 0x91, 0x82, 0xFF, 0, 0x38⟩) ∧
    simtWord 0x88F0400984FF8000 = some (.strel all ⟨2, false, 0, 9, 0x84, 0xFF, 2, 0⟩) ∧
    simtWord 0x96F0000502060034 = some (.atom all ⟨0, 5, 2, 6, 0, 0x34⟩) ∧
    simtWord 0x9EF0100002000000 = some (.fencex all ⟨0x10, 0, 2, 0, 0, 0⟩) ∧
    simtWord 0xFAF0400382FF0006 = some (.ldx all ⟨2, false, 0, 3, 0x82, 0xFF, 0, 6⟩) := by decide

theorem test_decode_work_and_control :
    simtWord 0xB8F00088A000000C = some (.spawn all ⟨0, 8, 0x8A, 12⟩) ∧
    simtWord 0xBAF0000A04060000 = some (.futRes all ⟨0, 10, 4, 6, 0, 0⟩) ∧
    simtWord 0xC0F0001000000006 = some (.pbr all ⟨0, 1, 0, 6⟩) ∧
    simtWord 0xC410028000000000 = some (.br ⟨false, 1, 0⟩ ⟨0, 1, 2, 0⟩) ∧
    simtWord 0xC4F0140000000000 = some (.brAny all ⟨1, 2, 0, 0⟩) ∧
    simtWord 0xC6F0000000000000 = some (.join all ⟨0, 0, 0, 0⟩) ∧
    simtWord 0xCCF0000000000000 = some (.exit all ⟨0, 0, 0, 0⟩) ∧
    simtWord 0xCEF0000000000000 = some (.fuse all ⟨0, 0, 0, 0⟩) ∧
    simtWord 0xD6F0085000000008 = some (.cont all ⟨0, 0x85, 0, 8⟩) := by decide

theorem test_decode_system_and_engines :
    simtWord 0xDEF00084C9000000 = some (.rdctr all ⟨0, 0x84, 0xC9, 0, 0, 0⟩) ∧
    simtWord 0xF6F0008403000000 = some (.privMfp all ⟨0, 0x84, 3, 0, 0, 0⟩) ∧
    simtWord 0xF6F0010001850000 = some (.privMtp all ⟨1, 0, 1, 0x85, 0, 0⟩) ∧
    simtWord 0xF6F0020084850050 = some (.privInval all ⟨2, 0, 0x84, 0x85, 0, 0x50⟩) ∧
    simtWord 0xF8F0000000000000 = some (.tret all ⟨0, 0, 0, 0⟩) ∧
    simtWord 0xE0F0340000000100 = some (.mma all ⟨3, 4, 0, 0, 0, 0, 1, 0⟩) ∧
    simtWord 0xEAF0000000080005 = some (.zrowRd all ⟨0, 0, 0, 0, 0, 8, 0, 5⟩) ∧
    simtWord 0xECF0100042000000 = some (.copy all ⟨1, 0, 0, 1, 2, 0, 0, 0⟩) ∧
    simtWord 0xF2F000008A000000 = some (.gset all ⟨0, 0, 0x8A, 0, 0, 0⟩) := by decide

theorem test_decode_slots :
    branchWord 0xD0F0000000000000 = some (.split all ⟨0, 0, 0, 0⟩) ∧
    branchWord 0xD2F0083000000002 = some (.loop all ⟨0, 0x83, 0, 2⟩) ∧
    branchWord 0xDA20000000000000 = some (.yield ⟨false, 2, 0⟩ ⟨0, 0, 0, 0⟩) ∧
    simtWord 0xD0F0000000000000 = none ∧
    headerOk 0xFE00072A08000000 = true := by decide

/-- The major of a bundle header, a reserved bit of Format B, and a function code that no row has (R177, R178). -/
theorem test_decode_rejects :
    whyNot 0xCCF0000000000001 = some .reservedBits ∧
    simtWord 0x02F0070402030110 = none ∧
    whyNot 0xFEF0000000000000 = some .opcode := by decide

/-! ## Ill-formed terms: every check of WellFormed refuses one -/

def rf : RF := ⟨0, 0, 0, 0, 0, 0⟩
def immf : IF := ⟨0, 0, 0, 0⟩
def mf : MF := ⟨0, false, 0, 0, 0, 0, 0, 0⟩
def ef : EF := ⟨0, 0, 0, 0, 0, 0, 0, 0⟩
def bf : BF := ⟨0, 0, 0, 0⟩
def wfNone (l : List Instr) : Bool := l.all (fun i => !i.wf)

theorem test_wf_registers_1 : wfNone [
    .nop all { rf with fn := 15 }, .nopPause all { rf with fn := 15 }, .iadd all { rf with fn := 15 }, .iaddAddc all { rf with fn := 15 },
    .iaddSub all { rf with fn := 15 }, .iaddSubb all { rf with fn := 15 }, .iaddRsub all { rf with fn := 15 }, .imul all { rf with fn := 15 },
    .imulHi all { rf with fn := 15 }, .imulWide all { rf with fn := 15 }, .imad all { rf with fn := 15 }, .imadWide all { rf with fn := 15 },
    .idiv all { rf with fn := 15 }, .idivRem all { rf with fn := 15 }, .imnx all { rf with fn := 15 }, .imnxMax all { rf with fn := 15 },
    .iabs all { rf with fn := 15 }, .iabsNeg all { rf with fn := 15 }, .iabsSad all { rf with fn := 15 }, .iclmp all { rf with fn := 15 },
    .and all { rf with fn := 15 }, .andNot all { rf with fn := 15 }, .or all { rf with fn := 15 }, .orNot all { rf with fn := 15 }] = true := by decide

theorem test_wf_registers_2 : wfNone [
    .xor all { rf with fn := 15 }, .xorNot all { rf with fn := 15 }, .shl all { rf with fn := 15 }, .shr all { rf with fn := 15 },
    .shrAr all { rf with fn := 15 }, .rot all { rf with fn := 15 }, .rotRr all { rf with fn := 15 }, .rotShfl all { rf with fn := 15 },
    .rotShfr all { rf with fn := 15 }, .popc all { rf with fn := 15 }, .clz all { rf with fn := 15 }, .clzCtz all { rf with fn := 15 },
    .clzCls all { rf with fn := 15 }, .brev all { rf with fn := 15 }, .brevByte all { rf with fn := 15 }, .bfx all { rf with fn := 15 },
    .bfi all { rf with fn := 15 }, .prmt all { rf with fn := 15 }, .pack all { rf with fn := 15 }, .packSs all { rf with fn := 15 },
    .packNn all { rf with fn := 15 }, .icmp all { rf with fn := 6 }, .sel all { rf with fn := 15 }, .mov all { rf with fn := 15 }] = true := by decide

theorem test_wf_registers_3 : wfNone [
    .movBc all { rf with fn := 15 }, .xmov all { rf with fn := 15 }, .lea all { rf with fn := 15 }, .leaN all { rf with fn := 15 },
    .idot all { rf with fn := 15 }, .idotH all { rf with fn := 15 }, .mfs all { rf with fn := 15 }, .mts all { rf with fn := 15 },
    .voteAny all { rf with fn := 15 }, .voteAll all { rf with fn := 15 }, .voteBallot all { rf with fn := 15 }, .voteCount all { rf with fn := 15 },
    .voteFirst all { rf with fn := 15 }, .rdlane all { rf with fn := 15 }, .wrlane all { rf with fn := 15 }, .shuf all { rf with fn := 15 },
    .shufRot all { rf with fn := 15 }, .shufXor all { rf with fn := 15 }, .shufRev all { rf with fn := 15 }, .patld all { rf with fn := 4 },
    .patsw all { rf with fn := 4 }, .gred all { rf with fn := 11 }, .gscan all { rf with fn := 27 }, .fadd all { rf with fn := 15 }] = true := by decide

theorem test_wf_registers_4 : wfNone [
    .faddSub all { rf with fn := 15 }, .fmul all { rf with fn := 15 }, .ffma all { rf with fn := 15 }, .ffmaMs all { rf with fn := 15 },
    .ffmaNm all { rf with fn := 15 }, .fmnx all { rf with fn := 15 }, .fmnxMax all { rf with fn := 15 }, .fmnxMinn all { rf with fn := 15 },
    .fmnxMaxn all { rf with fn := 15 }, .fcmp all { rf with fn := 8 }, .fcls all { rf with fn := 15 }, .fclsP all { rf with fn := 15 },
    .fscl all { rf with fn := 15 }, .frnd all { rf with fn := 15 }, .fdiv all { rf with fn := 15 }, .fsqrt all { rf with fn := 15 },
    .sfu all { rf with fn := 8 }, .fcvt all { rf with fn := 16 }, .f2i all { rf with fn := 8 }, .i2f all { rf with fn := 8 },
    .dadd all { rf with fn := 15 }, .daddSub all { rf with fn := 15 }, .dmul all { rf with fn := 15 }, .dfma all { rf with fn := 15 }] = true := by decide

theorem test_wf_registers_5 : wfNone [
    .dfmaMs all { rf with fn := 15 }, .dfmaNm all { rf with fn := 15 }, .dcmp all { rf with fn := 8 }, .dcvtF32F64 all { rf with fn := 15 },
    .dcvtF64F32 all { rf with fn := 15 }, .dcvtIF64 all { rf with fn := 15 }, .dcvtF64I all { rf with fn := 15 }, .fdot2 all { rf with fn := 15 },
    .f8dot all { rf with fn := 15 }, .f8dotMx all { rf with fn := 15 }, .bxpk all { rf with fn := 2 }, .bxup all { rf with fn := 2 },
    .fxmFm all { rf with fn := 15 }, .fxmFe all { rf with fn := 15 }, .fxmIlogb all { rf with fn := 15 }, .atom all { rf with fn := 11 },
    .atomf all { rf with fn := 5 }, .cas all { rf with fn := 15 }, .atoms all { rf with fn := 35 }, .fence all { rf with fn := 15 },
    .fenceRel all { rf with fn := 15 }, .fenceAcq all { rf with fn := 15 }, .fenceAr all { rf with fn := 15 }, .fencex all { rf with fn := 15 }] = true := by decide

theorem test_wf_registers_6 : wfNone [
    .xlat all { rf with fn := 15 }, .xlatW all { rf with fn := 15 }, .hdrop all { rf with fn := 15 }, .hdropAll all { rf with fn := 15 },
    .fpost all { rf with fn := 15 }, .fpostR all { rf with fn := 15 }, .fread all { rf with fn := 15 }, .freadAddr all { rf with fn := 15 },
    .barArrive all { rf with fn := 15 }, .barWait all { rf with fn := 15 }, .tdef all { rf with fn := 15 }, .tacqOwn all { rf with fn := 15 },
    .tacqPub all { rf with fn := 15 }, .tacqRel all { rf with fn := 15 }, .futRes all { rf with fn := 15 }, .futPoison all { rf with fn := 15 },
    .futJoin all { rf with fn := 15 }, .futPoll all { rf with fn := 15 }, .grecTs all { rf with fn := 15 }, .grecTsx all { rf with fn := 15 },
    .grecSrc all { rf with fn := 15 }, .grecWord all { rf with fn := 15 }, .rdtm all { rf with fn := 15 }, .rdtmX all { rf with fn := 15 }] = true := by decide

theorem test_wf_registers_7 : wfNone [
    .rdtmQ all { rf with fn := 15 }, .pbrr all { rf with fn := 15 }, .pbrrGet all { rf with fn := 15 }, .rdctr all { rf with fn := 15 },
    .privMfp all { rf with fn := 15 }, .privMtp all { rf with fn := 15 }, .privInval all { rf with fn := 15 }, .privYreq all { rf with fn := 15 },
    .brx all { rf with fn := 15 }, .atmx all { rf with fn := 15 }, .gset all { rf with fn := 15 }, .estsQ all { rf with fn := 15 },
    .estsErr all { rf with fn := 15 }] = true := by decide

theorem test_wf_immediates : wfNone [
    .movi all { immf with fn := 15 }, .moviX64 all { immf with fn := 15 }, .movh all { immf with fn := 15 }, .movhX32 all { immf with fn := 15 },
    .waitw all { immf with fn := 15 }, .fwait all { immf with fn := 15 }, .spawn all { immf with fn := 15 }, .spawnOne all { immf with fn := 15 },
    .pbr all { immf with fn := 15 }, .loop all { immf with fn := 15 }, .cont all { immf with fn := 15 }, .contB all { immf with fn := 15 },
    .bgtTop all { immf with fn := 15 }, .bgtRel all { immf with fn := 15 }, .trap all { immf with fn := 15 }, .trapBkpt all { immf with fn := 15 }] = true := by decide

theorem test_wf_memory : wfNone [
    .pref all { mf with d := 1 }, .prefL2 all { mf with d := 2 }, .prefEvict all { mf with d := 3 }, .prefDiscard all { mf with d := 0 },
    .cmntWb all { mf with d := 1 }, .cmntWbinv all { mf with d := 2 }, .cmntInv1 all { mf with d := 3 }, .ldx all { mf with queue := 1 },
    .stx all { mf with queue := 2 }, .ldxPi all { mf with queue := 3 }, .stxPi all { mf with queue := 0 }] = true := by decide

theorem test_wf_engines : wfNone [
    .zrowRd all { ef with fn := 15 }, .zrowWr all { ef with fn := 15 }, .strmIn all { ef with fn := 2 }, .strmOut all { ef with fn := 0 }] = true := by decide

theorem test_wf_branches : wfNone [
    .br all { bf with fn := 15 }, .brAny all { bf with fn := 15 }, .brAll all { bf with fn := 15 }, .join all { bf with fn := 15 },
    .call all { bf with fn := 15 }, .ret all { bf with fn := 15 }, .exit all { bf with fn := 15 }, .fuse all { bf with fn := 15 },
    .split all { bf with fn := 15 }, .lend all { bf with fn := 15 }, .lendPop all { bf with fn := 15 }, .lendBrk all { bf with fn := 15 },
    .yield all { bf with fn := 15 }, .tret all { bf with fn := 15 }, .tretSkip all { bf with fn := 15 }] = true := by decide

theorem test_wf_bundles : wfNone [.bundle 0 [], .bundle 0xFE00000000000000 [0], .bundle 0xFE00002000000000 []] = true := by decide

/-! ## Small states -/

/-- Registers of a gang in place of its own: s-registers, and v-registers of strand 0 on (the key is 128 * strand + register). -/
def withS (l : List (Nat × Word64)) (g : Gang) : Gang := { g with regs := { g.regs with s := { cells := l } } }
def withV (l : List (Nat × Word32)) (g : Gang) : Gang := { g with regs := { g.regs with v := { cells := l } } }
/-- A gang with one strand active. -/
def single (g : Gang) : Gang := { g with ctl := { g.ctl with active := 1 } }
/-- A gang in slot 0 of core 0 with every strand active, 128 KiB of scratchpad and four window flags. -/
def gang : Gang := { loadGang 1 false with ent := { res := 0x10000 }, window := { size := 4 } }

/-- A module whose next turn is the gang's: its context is live with a trap vector and budgets, and the page at 1000 is in the core's TLB. -/
def world (g : Gang) : State :=
  { State.reset with
    next := 2, turn := some 1, gangs := [g]
    ctxs := [(0, { live := true, tvec := 0x8000, ibpool := 100, tbpool := 100 })]
    tlbs := [{ unit := 0, ctx := 0, va := 0x1000, size := 0, pa := 0x1000, rd := true, wr := true, ex := true }] }

/-- What Issues asks for, as a check that runs. -/
def issues (s : State) (g : Gang) (i : Instr) : Bool :=
  decide (s.turn = some g.uid) && decide (s.gang? g.uid = some g) && !g.cannotIssue s.cycle && !g.iss.reclaim && !g.ctl.vliw && i.legal .simt false &&
  !s.scoreboard g.uid i && (!i.seals || !s.resultsOut g.uid) && decide (ciOf i.maj ≤ g.spec.ib.toNat) && !g.iss.drained &&
  s.gangs.all (fun x => x.iss.dueTrap.isNone && x.iss.tretTo.isNone && !x.lostStore && decide (x.loss = (s.ctx x.ctx).loss))

theorem issues_of {s : State} {g : Gang} {i : Instr} (h : issues s g i = true) : Issues s g i := by
  simp only [issues, Bool.and_eq_true, decide_eq_true_eq, Bool.not_eq_true', Bool.or_eq_true, List.all_eq_true, Option.isNone_iff_eq_none] at h
  obtain ⟨⟨⟨⟨⟨⟨⟨⟨⟨⟨a, b⟩, c⟩, d⟩, e⟩, f⟩, k⟩, l⟩, m⟩, n⟩, o⟩ := h
  refine ⟨a, b, c, d, e, f, k, fun hs => ?_, m, n, fun x hx => ⟨(o x hx).1.1.1, (o x hx).1.1.2, (o x hx).1.2, (o x hx).2⟩⟩
  simpa [hs] using l

/-- The gang issues each of these instructions. -/
theorem all_issue {s : State} {g : Gang} {l : List Instr} (h : l.all (issues s g) = true) : ∀ i ∈ l, Issues s g i :=
  fun i hi => issues_of (List.all_eq_true.mp h i hi)

/-- A strand executes: the lowest one shows it. -/
theorem acts_of {g : Gang} {i : Instr} (h : g.executes i 0 = true) : ∃ st, g.executes i st = true := ⟨0, h⟩

theorem ok_of {α β : Type} {x : Except α β} {p : β → Bool} (h : (match x with | .ok t => p t | .error _ => false) = true) : ∃ t, x = .ok t ∧ p t = true := by
  cases x with
  | ok t => exact ⟨t, rfl, h⟩
  | error e => simp at h

/-! ## The hypotheses of the obligations are met -/

theorem meets_RoundTrip :
    (Instr.iadd all rf).layout.isSome = true ∧ (Instr.iadd all rf).legal .simt false = true ∧
    headerOk 0xFE00002000000000 = true ∧ (Instr.bundle 0xFE00002000000000 [0xD0F0000000000000]).wf = true := by decide +kernel

theorem meets_AcceptedAndReservedWords :
    simtWord 0xCCF0000000000000 = some (.exit all bf) ∧ formatOf 0x7F = none ∧ formatOf 0x66 = some .b ∧
    (match parseWord 0xD0F0000000000000 with | .ok i => !i.legal .simt false | .error _ => false) = true := by decide +kernel

/-- A gang whose next word is iadd.addc, with that word's page. -/
def loaded1 : State := { State.reset.withFetchWord 64 0x02F0010402030110 with tape := [] }
def loadedGang : Gang := loadGang 1 false

theorem meets_StepRunsDecoded :
    loaded1.power.tripped = false ∧ loaded1.gang? 1 = some loadedGang ∧ loaded1.mayIssue loadedGang = true ∧ loaded1.isPick loadedGang = true ∧ loadedGang.cannotIssue loaded1.cycle = false ∧
    loaded1.strike loadedGang = none ∧ (match loaded1.fetch loadedGang with | .words ws => decide (ws = [0x02F0010402030110]) | _ => false) = true ∧
    decodeFetched false [0x02F0010402030110] = some (.iaddAddc all ⟨1, 4, 2, 3, 1, 0x10⟩) ∧
    loaded1.unitRequest (.linkDown 0) ≠ some 1 ∧
    (let zero : Instr := .registerWrite (.pf 0) (semReg 0) 1
     let one : Instr := .registerWrite (.pf 1) (semReg 63) 0
     let s : State := { loaded1 with tape := [.event (.linkDown 0), .event zero] }
     s.unitRequest one = some 1 ∧ s.ahead s.tape = some (.event zero, [.event (.linkDown 0)]) ∧ loaded1.ahead loaded1.tape = none) := by decide +kernel

/-- The same gang on a core whose fetch unit a LOCKSTEP packet has loaded. -/
def codeLoaded (bad : Bool) : State :=
  { loaded1 with cores := [(0, { code := [{ launch := 0, ctx := 0, va := 0x1000, words := [some (0, false), some (0x02F0010402030110, bad)] }] })] }
def second : Gang := { loadedGang with pc := 0x1008 }

theorem meets_FetchReadsMemory :
    (∀ bad ∈ [false, true], (codeLoaded bad).loadedWord second.gcore second.ctx second.pc.toNat = some (0x02F0010402030110, bad)) ∧ second.ctl.vliw = false ∧
    loaded1.loadedWord loadedGang.gcore loadedGang.ctx loadedGang.pc.toNat = none ∧
    loadedGang.ctl.vliw = false ∧
    (match loaded1.fetchPage 0 0 loadedGang.pc.toNat with
      | .page pa size _ _ ex => ex && isDram (pageAddr pa size loadedGang.pc.toNat) && !(loaded1.tableWord (pageAddr pa size loadedGang.pc.toNat)).2 &&
        (({ loaded1 with dpoison := NSet.add [] (pageAddr pa size loadedGang.pc.toNat / 64) } : State).tableWord (pageAddr pa size loadedGang.pc.toNat)).2
      | .fault .. => false) = true ∧
    (decodeWord .simt false 0x02F0010402030110).toOption.isSome = true := by decide +kernel

theorem meets_IntegerCompletes : intDest (.iadd all rf) = some (0, .w32) ∧ Issues (world gang) gang (.iadd all rf) ∧ gang.regs.poison = [] :=
  ⟨by decide +kernel, issues_of (by decide +kernel), rfl⟩

theorem meets_LaneCompletes :
    laneDest (.shufRot all ⟨1, 2, 1, 0xC1, 0xC3, 0x10⟩) = some (2, .w32) ∧ Issues (world gang) gang (.shufRot all ⟨1, 2, 1, 0xC1, 0xC3, 0x10⟩) ∧ gang.regs.poison = [] :=
  ⟨by decide +kernel, issues_of (by decide +kernel), rfl⟩

/-- The value clauses: each instruction is issued by the gang, with its fields as the spec has them. -/
theorem meets_LaneCompletes_values :
    (∀ i ∈ [Instr.rdlane all { rf with b := 0x9F }, .shuf all { rf with c := 0xC5 }, .shufRot all ⟨1, 2, 1, 0xC1, 0xC5, 0⟩,
        .shufXor all { rf with fn := 2, b := 0xC1, c := 0xC1 }, .shufRev all { rf with fn := 3, c := 0xC5 }, .patsw all { rf with fn := 3 }],
      Issues (world gang) gang i ∧ (laneSrc i).isSome = true) ∧
    (∀ i ∈ [Instr.voteBallot all { rf with fn := 2, a := 15 }, .voteCount all { rf with fn := 3, a := 15 }, .voteFirst all { rf with fn := 4, a := 14 },
        .gred all { rf with mod := 0x1C }, .gscan all { rf with fn := 0x1A }, .bxpk all { rf with mod := 0x70 }, .bxup all { rf with fn := 1, mod := 0x70 }],
      Issues (world gang) gang i) ∧ gang.regs.poison = [] :=
  ⟨fun i hi => ⟨all_issue (l := [Instr.rdlane all { rf with b := 0x9F }, .shuf all { rf with c := 0xC5 }, .shufRot all ⟨1, 2, 1, 0xC1, 0xC5, 0⟩,
        .shufXor all { rf with fn := 2, b := 0xC1, c := 0xC1 }, .shufRev all { rf with fn := 3, c := 0xC5 }, .patsw all { rf with fn := 3 }]) (by decide +kernel) i hi,
      List.all_eq_true.mp (by decide +kernel : [Instr.rdlane all { rf with b := 0x9F }, .shuf all { rf with c := 0xC5 }, .shufRot all ⟨1, 2, 1, 0xC1, 0xC5, 0⟩,
        .shufXor all { rf with fn := 2, b := 0xC1, c := 0xC1 }, .shufRev all { rf with fn := 3, c := 0xC5 }, .patsw all { rf with fn := 3 }].all (fun i => (laneSrc i).isSome) = true) i hi⟩,
    all_issue (by decide +kernel), rfl⟩

theorem meets_FloatCompletes_values :
    ([Instr.fadd all { rf with mod := 0x30 }, .faddSub all { rf with fn := 1, mod := 0x1E }, .fmul all { rf with mod := 0x20 }, .ffma all { rf with mod := 0x10 },
      .ffmaMs all { rf with fn := 1, mod := 0x10 }, .ffmaNm all { rf with fn := 2, mod := 0x10 }, .fmnx all { rf with mod := 0x12 }, .fmnxMax all { rf with fn := 1, mod := 0x10 },
      .fmnxMinn all { rf with fn := 2, mod := 0x10 }, .fmnxMaxn all { rf with fn := 3, mod := 0x10 }, .fcls all { rf with mod := 0x10 }, .fscl all { rf with mod := 0x10 },
      .frnd all { rf with mod := 0x18 }, .fdiv all { rf with mod := 0x10 }, .fsqrt all { rf with mod := 0x10 }, .dadd all { rf with mod := 0xF0 }, .daddSub all { rf with fn := 1, mod := 0xFE },
      .dmul all { rf with mod := 0xF0 }, .dfma all { rf with mod := 0xF0 }, .dfmaMs all { rf with fn := 1, mod := 0xF0 }, .dfmaNm all { rf with fn := 2, mod := 0xF0 }, .fxmFm all { rf with mod := 0x10 },
      .fxmFe all { rf with fn := 1, mod := 0x10 }, .fxmIlogb all { rf with fn := 2, mod := 0x10 }].all (fun i => issues (world gang) gang i && (fpElem i).isSome)) = true ∧
    (∀ i ∈ [Instr.fcvt all { rf with fn := 1, mod := 0x20, b := 0xC1 }, .fcvt all { rf with fn := 2, mod := 0x10, b := 0xC1 }, .f2i all { rf with fn := 2, mod := 0x10, b := 0xC0 },
        .i2f all { rf with fn := 3, mod := 0x20, b := 0xC1 }, .dcvtF32F64 all { rf with mod := 0xF2 }, .dcvtF64F32 all { rf with fn := 1, mod := 0xF0 }, .dcvtIF64 all { rf with fn := 2, c := 3, mod := 0xF0 },
        .dcvtF64I all { rf with fn := 3, c := 2, mod := 0xFC },
        .fdot2 all { rf with mod := 0x30 }, .f8dot all { rf with mod := 0x40 }, .f8dotMx all { rf with fn := 1, mod := 0x40 }, .sfu all { rf with fn := 7, mod := 0x10 }],
      Issues (world gang) gang i) ∧ fmtOf { rf with fn := 7, mod := 0x10 } = .f32 ∧ sfuExact 7 0xFF800000 = some 0 :=
  ⟨by decide +kernel, all_issue (by decide +kernel), by decide +kernel⟩

theorem meets_FloatCompletes : fpDest (.fadd all { rf with mod := 0x10 }) = some (0, .w32) ∧ Issues (world gang) gang (.fadd all { rf with mod := 0x10 }) ∧ gang.regs.poison = [] :=
  ⟨by decide +kernel, issues_of (by decide +kernel), rfl⟩

theorem meets_PredicateCompletes :
    predDest (.icmp all { rf with c := 15 }) = some 0 ∧ Issues (world gang) gang (.icmp all { rf with c := 15 }) ∧ gang.regs.poison = [] :=
  ⟨by decide +kernel, issues_of (by decide +kernel), rfl⟩

theorem meets_CarryForms : (∀ i ∈ [Instr.iaddAddc all { rf with fn := 1, mod := 0x10 }, .iaddSubb all { rf with fn := 3, mod := 0x10 }],
    Issues (world gang) gang i) ∧ gang.regs.poison = [] ∧ gang.pend = [] :=
  ⟨all_issue (by decide +kernel), rfl, rfl⟩

theorem meets_ElementwiseInteger :
    ([Instr.iadd all { rf with mod := 2 }, .iaddSub all { rf with fn := 2, mod := 0x70 }, .iaddRsub all { rf with fn := 4 }, .imul all { rf with mod := 0x20 },
      .imad all { rf with mod := 0x10 }, .imnx all { rf with mod := 0x40 }, .imnxMax all { rf with fn := 1 }, .iabs all rf, .iabsNeg all { rf with fn := 1 },
      .iclmp all rf].all (fun i => issues (world gang) gang i && (elementFn i).isSome)) = true ∧
    (∀ i ∈ [Instr.imulHi all { rf with fn := 1, mod := 0x30 }, .imulWide all { rf with fn := 2 }, .imadWide all { rf with fn := 1, mod := 0x10 },
        .iabsSad all { rf with fn := 2, mod := 0x60 }, .idot all { rf with mod := 0x62 }, .idotH all { rf with fn := 1, mod := 0x40 }], Issues (world gang) gang i) ∧
    gang.regs.poison = [] :=
  ⟨by decide +kernel, all_issue (by decide +kernel), rfl⟩

/-- Strand 0 divides by zero, strand 1 the most negative value by -1, strand 2 seven by two. -/
def divider : Gang := withV [(2, 9), (128 + 2, 0x80000000), (128 + 3, 0xFFFFFFFF), (256 + 2, 7), (256 + 3, 2)] gang

theorem meets_DivisionCorners :
    let x : RF := { rf with a := 2, b := 3 }
    let ty := iType x.mod
    let a (st : Nat) : Int := ty.val ((simtEnv (world divider) divider (.idiv all x)).read { f := x.a, w := ty.opw } st) 0
    let b (st : Nat) : Int := ty.val ((simtEnv (world divider) divider (.idiv all x)).readB x.mod { f := x.b, w := ty.opw } st) 0
    (Issues (world divider) divider (.idiv all x) ∧ Issues (world divider) divider (.idivRem all { x with fn := 1 })) ∧ divider.regs.poison = [] ∧
      b 0 = 0 ∧ ty.signed = true ∧ a 1 = -2 ^ (ty.w - 1) ∧ b 1 = -1 ∧ a 2 = 7 ∧ b 2 = 2 :=
  ⟨⟨issues_of (by decide +kernel), issues_of (by decide +kernel)⟩, rfl, by decide +kernel⟩

theorem meets_ShiftsAndLogic :
    (∀ i ∈ [Instr.shl all rf, .shr all rf, .shrAr all { rf with fn := 1 }, .xorNot all { rf with fn := 1 }, .lut3 all rf, .rot all { rf with mod := 0x20 },
        .rotRr all { rf with fn := 1 }, .rotShfl all { rf with fn := 2 }, .rotShfr all { rf with fn := 3 }, .popc all rf, .clz all rf, .clzCtz all { rf with fn := 1 },
        .clzCls all { rf with fn := 2 }, .brev all rf, .brevByte all { rf with fn := 1 }, .bfx all rf, .bfi all { rf with mod := 0x20 }, .prmt all rf, .pack all rf,
        .packSs all { rf with fn := 1 }, .packNn all { rf with fn := 2 }], Issues (world gang) gang i) ∧
    (bitFn (.xorNot all { rf with fn := 1 })).isSome = true ∧ gang.regs.poison = [] :=
  ⟨all_issue (by decide +kernel), by decide, rfl⟩

theorem meets_CompareAndSelect :
    (∀ i ∈ [Instr.icmp all { rf with fn := 5, d := 14, c := 15 }, .plog all { rf with d := 14 }, .sel all { rf with c := 14 },
        .fcmp all { rf with fn := 7, d := 14, c := 15, mod := 0x12 }, .dcmp all { rf with fn := 6, d := 0, c := 14, mod := 0xF0 }, .fclsP all { rf with fn := 1, d := 14, mod := 0x10 },
        .voteAny all { rf with d := 14, a := 15 }, .voteAll all { rf with fn := 1, d := 14, a := 15 }], Issues (world gang) gang i) ∧
    gang.regs.poison = [] ∧ gang.pend = [] :=
  ⟨all_issue (by decide +kernel), rfl, rfl⟩

theorem meets_MovesAndAddresses :
    (∀ i ∈ [Instr.mov all rf, .movi all immf, .moviX64 all { immf with fn := 1 }, .movh all immf, .movhX32 all { immf with fn := 1 }, .lea all rf,
      .leaN all { rf with fn := 1 }], Issues (world gang) gang i) ∧
    (∀ n ∈ (List.range 16), issues (world gang) gang (.mfs all { rf with a := BitVec.ofNat 8 n }) = true) ∧ gang.regs.poison = [] :=
  ⟨all_issue (by decide +kernel), by decide +kernel, rfl⟩

/-- A gang of one strand whose s0 holds the address 1000. -/
def loader : Gang := withS [(0, 0x1000)] (single gang)
def plainLoad : MF := ⟨2, false, 14, 1, 0x80, 0xFF, 0, 0⟩

/-- A generic access of the loader passes its checks, with a translation for every strand. -/
def passes (i : Instr) : Bool :=
  match generic i with
  | some m => issues (world loader) loader i && (match (simtEnv (world loader) loader i).check m.req (m.parts (simtEnv (world loader) loader i)) with
    | .ok ts => (missing ts).isEmpty
    | .error _ => false) && decide ((if m.charged then sectors m.req.align (m.parts (simtEnv (world loader) loader i)) else 0) ≤ loader.spec.tb.toNat)
  | none => false

theorem meets_GenericCompletes :
    [Instr.ld all plainLoad, .ldnc all plainLoad, .ldacq all { plainLoad with nud := 0 }, .st all plainLoad, .strel all { plainLoad with nud := 0 },
      .atom all { rf with a := 0x80, d := 1, b := 2 }, .prefDiscard all { plainLoad with d := 3, width := 0, nud := 0 }, .watch all { mf with base := 0x80, index := 0xFF }].all passes = true ∧
    loader.executes (.ld all plainLoad) 0 = true ∧ loader.regs.poison = [] ∧ loader.lostStore = false ∧ loader.loss = ((world loader).ctx 0).loss ∧
    (world loader).calmFor loader = true ∧ (world loader).muslinMode 0 = 0 := by decide +kernel

/-- The first strand's address is beyond 2^56, or is not aligned, in the loader with another base. -/
theorem meets_GenericAddresses :
    let far := withS [(0, 0x0100000000000000)] loader
    let odd := withS [(0, 0x1001)] loader
    generic (.ld all plainLoad) = some ⟨reqLd plainLoad, true, loadParts plainLoad⟩ ∧
    loadParts plainLoad (simtEnv (world loader) loader (.ld all plainLoad)) = [{ strand := 0, pa := 0x1000 }] ∧ passes (.ld all plainLoad) = true ∧
    loadParts plainLoad (simtEnv (world far) far (.ld all plainLoad)) = [] ++ [{ strand := 0, pa := 2 ^ 56 }] ∧
    loadParts plainLoad (simtEnv (world odd) odd (.ld all plainLoad)) = [] ++ [{ strand := 0, pa := 0x1001 }] ∧
    0x1001 % (reqLd plainLoad).align ≠ 0 :=
  ⟨rfl, by decide +kernel⟩

/-- A word of the scratchpad: at the base s1, at the core that bits 25:21 of it name. -/
def spadWord : MF := ⟨2, false, 0, 4, 0x81, 0xFF, 0, 0⟩
def bank (n : Word64) : Gang := withS [(1, n)] (single gang)
/-- A gang of the same context in slot 0 of core 1. -/
def neighbour : Gang := { gang with uid := 2, core := 1 }
def pair (g : Gang) : State := { world g with gangs := [g, neighbour], next := 3 }

def spadMet (s : State) (g : Gang) (i : Instr) (core : Nat) : Bool :=
  let e := simtEnv s g i
  issues s g i && g.executes i 0 && (e.spadCheck 4 (e.parts.map (fun st => (st, e.spAddr spadWord st)))).isNone &&
  eaCore (e.spAddr spadWord 0).toNat == core && s.calmFor g && decide (g.regs.poison = [])

theorem meets_ScratchpadAccess :
    (spadMet (world (bank 0x1FFFC)) (bank 0x1FFFC) (.lds all spadWord) 0 = true ∧ spadMet (world (bank 0)) (bank 0) (.sts all spadWord) 0 = true) ∧
    (bank 0).cluster < 8 := by decide +kernel

/-- A handle on a page of main memory, and one on the scratchpad page of the gang's own share. -/
def withH (h : Handle) (g : Gang) : Gang := { g with regs := { g.regs with h := [(3, h)] } }
def awayHandle : Handle := { valid := true, page := 0x1000, rd := true, wr := true, vpage := 0x1000 }
def nearHandle : Handle := { valid := true, page := 2 ^ 48, rd := true, wr := true, oncore := true, vpage := 0x5000 }
def handleWord : MF := ⟨2, false, 0, 4, 3, 0xFF, 0, 4092⟩
def goes (f : Found) : Bool := match f with | .go .. => true | _ => false
def handleMet (h : Handle) (i : Instr) (write : Bool) : Bool :=
  let g := withH h (single gang)
  issues (world g) g i && g.executes i 0 && goes ((simtEnv (world g) g i).handleCheck handleWord write) &&
  decide (handleCt handleWord (simtEnv (world g) g i) ≤ g.spec.tb.toNat) && (world g).calmFor g && !(g.h 3).pending

theorem meets_ScratchpadAndHandleAway :
    (spadMet (pair (bank 0x200000)) (bank 0x200000) (.lds all spadWord) 1 = true ∧
     spadMet (pair (bank 0x21FFFC)) (bank 0x21FFFC) (.sts all spadWord) 1 = true) ∧
    handleMet awayHandle (.ldh all handleWord) false = true ∧ handleMet awayHandle (.sth all handleWord) true = true ∧ awayHandle.oncore = false := by
  decide +kernel

theorem meets_HandleNear :
    handleMet nearHandle (.ldh all handleWord) false = true ∧ handleMet nearHandle (.sth all handleWord) true = true ∧
    ((withH nearHandle (single gang)).h 3).oncore = true ∧
    eaCore (((withH nearHandle (single gang)).h 3).page + 4092 - 2 ^ 48) = 0 ∧ ((withH nearHandle (single gang)).h 3).page + 4092 - 2 ^ 48 + 4 ≤ 2 ^ 26 := by
  decide +kernel

/-- A module whose tile 0 of the gang's slot is in a state. -/
def tiled (t : Tile) (g : Gang) : State := { world g with cores := [(0, { tiles := [(0, t)] })] }
def tile (state filler : Nat) : Tile := { state := state, filler := filler, size := 1023, defd := true }
def tileWord : MF := ⟨2, false, 0, 4, 0, 0xFF, 0, 0⟩

def tileMet (t : Tile) (i : Instr) : Bool :=
  let g := single gang
  let s := tiled t g
  let e := simtEnv s g i
  issues s g i && g.executes i 0 && s.calmFor g && decide (s.tile g.gcore (e.tileIx 0) = t) && e.tileNamed 0 && t.defd &&
  decide ((t.base + t.size + 1) * 128 ≤ 2 ^ 17) && decide (0 ≤ e.disp tileWord 0 ∧ e.disp tileWord 0 + 4 ≤ (t.bytes : Nat))

theorem meets_TileAccess :
    tileMet (tile 2 0) (.ldt all tileWord) = true ∧ tileMet (tile 1 1) (.stt all tileWord) = true ∧ (single gang).regs.poison = [] ∧
    (single gang).cluster < 8 ∧ (single gang).core < 32 ∧ (single gang).slot < 16 := by decide +kernel

/-- The descriptor of a tile over the whole share stands in s2. -/
def definer : Gang := withS [(2, 0xFFC0000)] (single gang)

theorem meets_TileStates :
    (let x : RF := { rf with a := 0x82 }
     let e := simtEnv (world definer) definer (.tdef all x)
     let v := e.uniform { f := x.a, w := .w64, base := true }
     issues (world definer) definer (.tdef all x) = true ∧ definer.executes (.tdef all x) 0 = true ∧ bits64 v 7 0 = 0 ∧ bits64 v 63 57 = 0 ∧
       (bits64 v 17 8 + bits64 v 27 18 + 1) * 128 = definer.spad ∧ ((world definer).tile 0 0).state = 0 ∧ e.tileNamed (BitVec.ofNat 8 (bits64 v 55 48)) = true) ∧
    tileMet (tile 0 0) (.tacqOwn all rf) = true ∧ tileMet (tile 1 1) (.tacqPub all { rf with fn := 1, a := 0xFF }) = true ∧
    (simtEnv (tiled (tile 1 1) (single gang)) (single gang) (.tacqPub all { rf with fn := 1, a := 0xFF })).storesOut 0 (tile 1 1) = false ∧
    tileMet (tile 2 0) (.tacqRel all { rf with fn := 2 }) = true := by decide +kernel

theorem meets_ScratchpadAtomics :
    let x : RF := { rf with a := 0x81, d := 4, b := 5 }
    let met (s : State) (g : Gang) (core : Nat) : Bool :=
      let e := simtEnv s g (.atoms all x)
      issues s g (.atoms all x) && g.executes (.atoms all x) 0 && (e.spadCheck (atomBytes x) (e.parts.map (fun st => (st, ((e.read (spSrc x.a) st).toNat : Int))))).isNone &&
      eaCore (e.read (spSrc x.a) 0).toNat == core && s.calmFor g && s.muslinMode 0 == 0 && decide (g.regs.poison = [] ∧ g.cluster < 8)
    met (world (bank 0x40)) (bank 0x40) 0 = true ∧ met (pair (bank 0x200040)) (bank 0x200040) 1 = true := by decide +kernel

def prefX (op : Reg) : MF := { mf with d := op, base := 0x80, index := 0xFF }
def behind (g : Gang) (f : FlightKind) : State :=
  { world g with next := 9, flights := [{ id := 5, seq := 5, uid := some 1, ctx := 0, core := 0, queue := none, kind := f }] }

/-- A byte that the gang has stored is not visible yet (R119). -/
def unseen (g : Gang) : State := { world g with cores := [(0, { recent := [(2, 1, 2 ^ 48, 0)] })] }

theorem meets_PrefetchAndFences :
    (∀ i ∈ [Instr.pref all (prefX 0), .prefL2 all (prefX 1), .prefEvict all (prefX 2)], Issues (world loader) loader i) ∧
    sectors 1 (prefSectors (prefX 0) (simtEnv (world loader) loader (.pref all (prefX 0)))) ≤ loader.spec.tb.toNat ∧
    (∀ i ∈ [Instr.fence all rf, .fenceRel all { rf with fn := 1 }, .fenceAcq all { rf with fn := 2 }, .fenceAr all { rf with fn := 3 },
        .fencex all { rf with fn := 16, a := 2 }], Issues (world gang) gang i ∧ Issues (behind gang (.store 4)) gang i) ∧
    (∃ f ∈ (behind gang (.store 4)).flights, f.uid = some gang.uid ∧ f.ordered = true ∧ f.seq < (behind gang (.store 4)).next ∧ f.shelved = false) ∧
    gang.executes (.fence all rf) 0 = true ∧ (world gang).calmFor gang = true ∧ (behind gang (.store 4)).calmFor gang = true ∧
    ((world gang).core 0).freeze = 0 ∧ ((world gang).core 0).storing 1 = false ∧ gang.lostStore = false ∧ gang.loss = ((world gang).ctx 0).loss ∧
    issues (unseen gang) gang (.fence all rf) = true ∧ ((unseen gang).core 0).storing 1 = true ∧ (unseen gang).calmFor gang = true ∧
    (let m : MEntry := { id := 1, uid := 1, slot := 0, prio := 8, at_ := 0, instr := .zst all { ef with tb := 2 } }
     let s : State := { world gang with next := 3, cores := [(0, { mq := [m] })] }
     issues s gang (.fenceRel all { rf with fn := 1 }) = true ∧ m ∈ (s.core 0).mq ∧ m.uid = gang.uid ∧ m.id < s.next ∧ s.calmFor gang = true) ∧
    ((world gang).core 0).mq = [] :=
  ⟨all_issue (by decide +kernel), by decide +kernel,
    fun i hi => ⟨all_issue (l := [Instr.fence all rf, .fenceRel all { rf with fn := 1 }, .fenceAcq all { rf with fn := 2 },
        .fenceAr all { rf with fn := 3 }, .fencex all { rf with fn := 16, a := 2 }]) (by decide +kernel) i hi, all_issue (by decide +kernel) i hi⟩,
    ⟨_, List.mem_singleton_self _, by decide +kernel⟩, by decide +kernel⟩

/-- The tables of context 0 map the page at 2000 to itself: the table at 0 is its own child at every level. -/
def tables (g : Gang) : State := { world g with dram := [(0, 1), (16, 0xC3), (17, 0x21)] }
/-- A gang whose handle 15 is pending. -/
def walking : Gang := { loader with regs := { loader.regs with h := SMap.set loader.regs.h 15 { pending := true } } }
def xlatX : RF := { rf with d := 15, a := 0x80, b := 4 }

theorem meets_HandlesMadeAndDropped :
    let far := withS [(0, 0x2FFF)] (single gang)
    (issues (world loader) loader (.xlat all xlatX) = true ∧ issues (world loader) loader (.xlatW all { xlatX with fn := 1 }) = true ∧
      loader.executes (.xlat all xlatX) 0 = true ∧ (loader.h 15).pending = false ∧ ((world loader).tlbHit 0 0 0x1000).isSome = true ∧
      (world loader).translate 0 0 0x1000 = .page 0x1000 0 true true true ∧ xlatTarget 0 0x1000 = true) ∧
    (issues (tables far) far (.xlat all xlatX) = true ∧ ((simtEnv (tables far) far (.xlat all xlatX)).uniform { f := xlatX.a, w := .w64, base := true }).toNat = 0x2FFF ∧
      (tables far).translate 0 0 0x2FFF = .page 0x2000 0 true true true ∧ ((tables far).tlbHit 0 0 0x2FFF).isSome = false ∧ xlatTarget 0 0x2000 = true) ∧
    issues (world gang) gang (.hdrop all { rf with d := 15 }) = true ∧ (gang.h 15).pending = false ∧
    ((walking.h 15).pending = true ∧ (world walking).calmFor walking = true ∧
      ∀ i ∈ [Instr.xlat all xlatX, .xlatW all { xlatX with fn := 1 }, .hdrop all { rf with d := 15 }], issues (world walking) walking i = true ∧
        walking.executes i 0 = true) ∧
    issues (world gang) gang (.hdropAll all { rf with fn := 1 }) = true ∧ gang.executes (.hdropAll all { rf with fn := 1 }) 0 = true ∧
    (world gang).calmFor gang = true := by decide +kernel

/-- A gang with a line monitor, and one that has waited for two units of 65536 ns since it began. -/
def watcher (fired : Option Nat) : Gang := { single gang with monitor := some { line := 32, fired := fired }, iss := { gang.iss with waitFrom := some 5 } }
def late (g : Gang) : State := { world g with clock := { el := 5 + 2 * 65536 } }

theorem meets_LineWait :
    let x : IF := { immf with d := 4 }
    (issues (world (single gang)) (single gang) (.waitw all x) = true ∧ (single gang).monitor = none) ∧
    issues (world (watcher (some 1))) (watcher (some 1)) (.waitw all x) = true ∧
    issues (late (watcher none)) (watcher none) (.waitw all { x with imm := 2 }) = true ∧ 5 + 2 * 65536 ≤ (late (watcher none)).clock.el ∧
    issues (world (watcher none)) (watcher none) (.waitw all x) = true ∧
    issues (late (watcher none)) (watcher none) (.waitw all { x with imm := 3 }) = true ∧ (late (watcher none)).clock.el < 5 + 3 * 65536 ∧
    (world (watcher none)).calmFor (watcher none) = true ∧ (world (watcher none)).muslinMode 0 = 0 ∧ (watcher none).loss = ((world (watcher none)).ctx 0).loss := by
  decide +kernel

/-- A gang whose s2 holds a count, on a core whose flag 3 holds another. -/
def poster (n : Word64) : Gang := withS [(2, n)] (single gang)
def flagged (n : BitVec 16) (g : Gang) : State := { world g with cores := [(0, { flags := [(3, n)] })] }

theorem meets_Flags :
    let g := poster 5
    (issues (flagged 65530 g) g (.fpost all { rf with d := 3, a := 0x82 }) = true ∧ 3 < g.window.size ∧
      bits64 ((simtEnv (flagged 65530 g) g (.fpost all { rf with d := 3, a := 0x82 })).uniform { f := 0x82, base := true }) 15 0 = 5 ∧
      issues (flagged 65535 (poster 0)) (poster 0) (.fpost all { rf with d := 3, a := 0x82 }) = true ∧ ((flagged 65530 g).core 0).mq = []) ∧
    issues (flagged 0 g) g (.fpostR all { rf with fn := 1, a := 0x82, b := 0x82 }) = true ∧
    (issues (flagged 7 g) g (.fwait all { immf with d := 3, imm := 7 }) = true ∧ issues (flagged 6 g) g (.fwait all { immf with d := 3, imm := 7 }) = true) ∧
    issues (flagged 6 g) g (.fread all { rf with d := 4, a := 3 }) = true ∧ issues (flagged 6 g) g (.freadAddr all { rf with fn := 1, d := 4, a := 3 }) = true ∧
    (flagged 6 g).calmFor g = true ∧ g.executes (.fpost all rf) 0 = true ∧ g.pend = [] ∧ g.lostStore = false ∧ ((flagged 6 g).core 0).freeze = 0 ∧ ((flagged 6 g).core 0).storing 1 = false := by decide +kernel

/-- A gang that is one of two members of cohort 5, through its register k1. -/
def member (arrived : Bool) (phase : BitVec 8) : Gang := { gang with ctl := { gang.ctl with k := [(1, { valid := true, idx := 5, phase := phase, arrived := arrived })] } }
def cohorted (n : Nat) (phase : BitVec 8) (g : Gang) : State :=
  { world g with ctxs := [(0, { live := true, cohorts := [(5, { members := 2, arrived := n, phase := phase })] })] }

theorem meets_CohortBarriers :
    let arrive : Instr := .barArrive all { rf with a := 1 }
    let wait : Instr := .barWait all { rf with fn := 1, a := 1 }
    (issues (cohorted 0 7 (member false 0)) (member false 0) arrive = true ∧ issues (cohorted 1 255 (member false 0)) (member false 0) arrive = true) ∧
    (issues (cohorted 0 7 (member false 0)) (member false 0) wait = true ∧ (member false 0).k 1 = { valid := true, idx := 5, phase := 0, arrived := false }) ∧
    (issues (cohorted 0 8 (member true 7)) (member true 7) wait = true ∧ (cohorted 0 8 (member true 7)).arriving 1 1 = false) ∧
    (issues (cohorted 1 7 (member true 7)) (member true 7) wait = true ∧ ((cohorted 1 7 (member true 7)).cohort 0 5).phase = ((member true 7).k 1).phase) ∧
    (cohorted 1 7 (member true 7)).calmFor (member true 7) = true ∧ ((cohorted 1 7 (member true 7)).core 0).storing 1 = false ∧
    ((cohorted 1 7 (member true 7)).core 0).mq = [] ∧ (member true 7).lostStore = false := by decide +kernel

theorem meets_PageFaultParks :
    let far := withS [(0, 0x2000)] (single gang)
    issues (world far) far (.ld all plainLoad) = true ∧
    (match (simtEnv (world far) far (.ld all plainLoad)).check (reqLd plainLoad) (loadParts plainLoad (simtEnv (world far) far (.ld all plainLoad))) with
      | .ok ts => !(missing ts).isEmpty
      | .error _ => false) = true ∧
    sectors (reqLd plainLoad).align (loadParts plainLoad (simtEnv (world far) far (.ld all plainLoad))) ≤ far.spec.tb.toNat ∧ (world far).calmFor far = true := by decide +kernel

/-- A module with node 3 of context 0: records of two words, launches of four. -/
def noded (g : Gang) : State :=
  { world g with ctxs := [(0, { live := true, nodes := [(3, { shape := 0x2300000000, res := 0x8000000000000000 })] })] }

theorem meets_Spawn :
    let x : IF := { immf with d := 126, a := 0xFF, imm := 3 }
    (issues (noded gang) gang (.spawn all x) = true ∧ issues (noded gang) gang (.spawnOne all { x with fn := 1 }) = true) ∧
    ((noded gang).nodeOf 0 3).valid = true ∧ 126 + ((noded gang).nodeOf 0 3).recw = 128 ∧ ((noded gang).roomFor 0 3 32).isSome = true ∧
    ((noded gang).roomFor 0 3 1).isSome = true ∧ gang.executes (.spawn all x) 0 = true ∧ (noded gang).calmFor gang = true := by decide +kernel

/-- A future word at 1000 and a cell at 1020. -/
def joiner : Gang := withS [(0, 0x1000), (1, 0x1020)] (single gang)

theorem meets_Futures :
    let s := world joiner
    let ok (i : Instr) (write : Bool) (ps : Env → List Part) : Bool := issues s joiner i && (match (simtEnv s joiner i).check (reqFut write) (ps (simtEnv s joiner i)) with
      | .ok ts => (missing ts).isEmpty
      | .error _ => false)
    let x : RF := { rf with d := 8, a := 0x80 }
    ok (.futRes all { x with b := 4 }) true (fun e => futParts x (fun st => bits64 (e.read { f := 4, w := .w64 } st) 47 0) e) = true ∧
    ok (.futPoison all { x with fn := 1 }) true (fun e => futParts x (fun _ => 0) e) = true ∧
    ok (.futPoll all { x with fn := 3 }) false (fun e => futParts x (fun _ => 0) e) = true ∧
    (issues s joiner (.futJoin all { x with fn := 2, b := 0x81 }) = true ∧ s.translate 0 0 0x1000 = .page 0x1000 0 true true true ∧
      s.translate 0 0 0x1020 = .page 0x1000 0 true true true ∧ isDram (pageAddr 0x1000 0 0x1000) = true ∧ isDram (pageAddr 0x1000 0 0x1020) = true) ∧
    s.calmFor joiner = true ∧ joiner.executes (.futRes all x) 0 = true := by decide +kernel

theorem meets_RecordsTimeCounters :
    (∀ i ∈ [Instr.grecTs all { rf with d := 4 }, .grecTsx all { rf with fn := 1, d := 4 }, .grecSrc all { rf with fn := 2, d := 4 },
        .grecWord all { rf with fn := 3, d := 4, a := 207 }, .rdtm all { rf with d := 4 }, .rdtmX all { rf with fn := 1, d := 4 }, .rdtmQ all { rf with fn := 2, d := 4 },
        .rdctr all { rf with d := 4, a := 192 }], Issues (world gang) gang i) ∧
    gang.executes (.rdtm all rf) 0 = true ∧ (world gang).calmFor gang = true ∧ (world gang).muslinMode 0 = 0 ∧ gang.regs.poison = [] ∧
    (let g := { gang with lastTm := some 5 }
     issues (world g) g (.rdtm all { rf with d := 4 }) = true ∧ issues (world g) g (.rdtmQ all { rf with fn := 2, d := 4 }) = true) :=
  ⟨all_issue (by decide +kernel), by decide +kernel⟩

/-- A gang whose branch registers b1, b2 and whose s2 hold addresses, half of its strands with p1 set. -/
def brancher (active : Word32) : Gang :=
  { withS [(2, 0x40)] gang with ctl := { gang.ctl with b := [(1, 0x40), (2, 0x80)], p := [(1, 0x0000FFFF)], active := active } }
def on1 : Hd := ⟨false, 1, 0⟩
def br12 : BF := ⟨0, 1, 2, 0⟩
def stacked (l : List Entry) (g : Gang) : Gang := { g with ctl := { g.ctl with stack := l } }

theorem meets_BranchRegistersAndCalls :
    let g := brancher 0xFFFFFFFF
    let first := stacked [.div false 0xFFFFFFFF 0xFFFF0000 0x48 0x80] g
    let second := stacked [.div true 0xFFFFFFFF 0xFFFF0000 0x48 0x80] g
    (issues (world g) g (.pbr all { immf with d := 7, imm := 0xFFFFFFF }) = true ∧ issues (world g) g (.pbrr all { rf with d := 7, a := 0x82 }) = true ∧
      bits64 ((simtEnv (world g) g (.pbrr all { rf with a := 0x82 })).uniform { f := 0x82, w := .w64, base := true }) 63 56 = 0 ∧
      issues (world g) g (.pbrrGet all { rf with fn := 1, d := 4, a := 1 }) = true) ∧
    (issues (world first) first (.join all bf) = true ∧ issues (world second) second (.join all bf) = true) ∧
    (issues (world g) g (.call all br12) = true ∧ issues (world g) g (.ret all ⟨0, 1, 0, 0⟩) = true ∧ (g.b 1).toNat % 8 = 0) ∧
    g.executes (.call all br12) 0 = true := by decide +kernel

theorem meets_Branches :
    let g := brancher 0xFFFFFFFF
    let lower := brancher 0x0000FFFF
    let upper := brancher 0xFFFF0000
    let all32 (h : Gang) (i : Instr) : Bool := (List.range 32).all (fun st => !h.ctl.active.getLsbD st || h.executes i st)
    let none32 (h : Gang) (i : Instr) : Bool := (List.range 32).all (fun st => !h.executes i st)
    (issues (world lower) lower (.br on1 br12) && all32 lower (.br on1 br12) && lower.executes (.br on1 br12) 0) = true ∧
    (issues (world upper) upper (.br on1 br12) && none32 upper (.br on1 br12)) = true ∧
    (issues (world g) g (.br on1 br12) && !all32 g (.br on1 br12) && g.executes (.br on1 br12) 0 && decide (g.ctl.stack.length < 16) &&
      bits64 ((g.b 2).setWidth 64) 2 0 == 0 && bits64 ((g.b 1).setWidth 64) 2 0 == 0) = true ∧
    (issues (world g) g (.brAny on1 ⟨1, 1, 0, 0⟩) && issues (world upper) upper (.brAny on1 ⟨1, 1, 0, 0⟩)) = true ∧
    (issues (world lower) lower (.brAll on1 ⟨2, 1, 0, 0⟩) && issues (world g) g (.brAll on1 ⟨2, 1, 0, 0⟩)) = true := by decide +kernel

theorem meets_Exit :
    let some_ := { brancher 0xFFFFFFFF with ctl := { (brancher 0xFFFFFFFF).ctl with nmask := 0xFFFFFFFF } }
    let taken := stacked [.div false 0xFFFFFFFF 0xFFFF0000 0x48 0x80] { brancher 0x0000FFFF with ctl := { (brancher 0x0000FFFF).ctl with nmask := 0xFFFFFFFF } }
    let last := { gang with ctl := { gang.ctl with nmask := 0xFFFFFFFF } }
    let mask (g : Gang) (i : Instr) : Word32 := BitVec.ofNat 32 ((List.range 32).foldl (fun n st => if g.executes i st then n + 2 ^ st else n) 0)
    (issues (world some_) some_ (.exit on1 bf) = true ∧ mask some_ (.exit on1 bf) = 0x0000FFFF) ∧
    (issues (world taken) taken (.exit all bf) = true ∧ mask taken (.exit all bf) = 0x0000FFFF) ∧
    (issues (world last) last (.exit all bf) = true ∧ mask last (.exit all bf) = 0xFFFFFFFF ∧ last.lostStore = false ∧
      (world last).unregistered 1 = false ∧ (world last).calmFor last = true) := by decide +kernel

/-- A core whose schctl lets four VLIW threads run (R340). -/
def vliwCore (g : Gang) : State := { world g with dev := [(schedBlock 0, 4)] }
def converged : Gang := { gang with ctl := { gang.ctl with nmask := 0xFFFFFFFF } }

theorem meets_FuseYieldNop :
    (issues (vliwCore converged) converged (.fuse all bf) = true ∧ (vliwCore converged).vres 0 ≠ 0 ∧ converged.ctl.active = 0xFFFFFFFF ∧ converged.ctl.stack = []) ∧
    (∀ i ∈ [Instr.yield all bf, .nop all rf, .nopPause all { rf with fn := 1 }], Issues (world gang) gang i) ∧ gang.executes (.fuse all bf) 0 = true :=
  ⟨by decide +kernel, all_issue (by decide +kernel), by decide +kernel⟩

theorem meets_ContinuationPoints :
    let g := { withS [(3, 0x00000F0F00000003)] (brancher 0xFFFFFFFF) with spec := { gang.spec with cpm := 0 } }
    (∀ i ∈ [Instr.cont all { immf with d := 0xFF, imm := 1 }, .contB all { immf with fn := 1, d := 0xFF, imm := 1 }], Issues (world g) g i) ∧
    cpmOk g.spec.cpm = true ∧ bits64 ((g.b 1).setWidth 64) 2 0 = 0 ∧ g.park = none ∧ (world g).resultsOut 1 = false ∧ (world g).calmFor g = true :=
  ⟨all_issue (by decide +kernel), by decide +kernel⟩

/-- What Attempts asks for, as a check that runs. -/
def attempts (s : State) (g : Gang) (i : Instr) : Bool :=
  decide (s.turn = some g.uid) && decide (s.gang? g.uid = some g) && !g.cannotIssue s.cycle && !g.iss.reclaim && !g.ctl.vliw && i.legal .simt false &&
  !s.scoreboard g.uid i && (!i.seals || !s.resultsOut g.uid)

theorem attempts_of {s : State} {g : Gang} {i : Instr} (h : attempts s g i = true) : Attempts s g i := by
  simp only [attempts, Bool.and_eq_true, decide_eq_true_eq, Bool.not_eq_true', Bool.or_eq_true] at h
  obtain ⟨⟨⟨⟨⟨⟨⟨a, b⟩, c⟩, d⟩, e⟩, f⟩, k⟩, l⟩ := h
  exact ⟨a, b, c, d, e, f, k, fun hs => by simpa [hs] using l⟩

/-- A gang without budgets, at its first attempt or at its second; and one with an instruction budget alone. -/
def poor (again : Bool) : Gang := { gang with spec := {}, iss := { gang.iss with exhausted := if again then some gang.pc else none } }

theorem meets_Budgets :
    let g := { gang with topup := true }
    (issues (world g) g (.bgtTop all { immf with d := 0xFF, a := 0xFF }) = true ∧ issues (world g) g (.bgtRel all { immf with fn := 1, d := 0xFF, a := 0xFF }) = true) ∧
    ((∀ again ∈ [false, true], ∀ i ∈ [Instr.iadd all rf, .fadd all { rf with mod := 0x10 }, .icmp all { rf with c := 15 }, .shufRev all { rf with fn := 3, c := 0xC5 },
        .barWait all { rf with fn := 1 }, .fence all rf], Attempts (world (poor again)) (poor again) i ∧ (poor again).spec.ib.toNat < ciOf i.maj) ∧
      (poor false).iss.exhausted ≠ some (poor false).pc ∧ (poor true).iss.exhausted = some (poor true).pc ∧ (poor true).iss.issued = false ∧
      (poor true).ctl.tdepth = 0 ∧ (world (poor true)).resultsOut 1 = false ∧ ((world (poor true)).ctx 0).tvec ≠ 0 ∧ (poor true).pend = []) ∧
    (let frugal := { loader with spec := { loader.spec with tb := 0 } }
     Attempts (world frugal) frugal (.ld all plainLoad) ∧ frugal.spec.tb.toNat < trafficOf (.ld all plainLoad) (simtEnv (world frugal) frugal (.ld all plainLoad))) ∧
    (world g).calmFor g = true :=
  ⟨by decide +kernel, ⟨fun again ha i hi => ⟨attempts_of (List.all_eq_true.mp (List.all_eq_true.mp (by decide +kernel : [false, true].all (fun again =>
      [Instr.iadd all rf, .fadd all { rf with mod := 0x10 }, .icmp all { rf with c := 15 }, .shufRev all { rf with fn := 3, c := 0xC5 }, .barWait all { rf with fn := 1 },
        .fence all rf].all (fun i => attempts (world (poor again)) (poor again) i)) = true) again ha) i hi),
      of_decide_eq_true (List.all_eq_true.mp (List.all_eq_true.mp (by decide +kernel : [false, true].all (fun again =>
      [Instr.iadd all rf, .fadd all { rf with mod := 0x10 }, .icmp all { rf with c := 15 }, .shufRev all { rf with fn := 3, c := 0xC5 }, .barWait all { rf with fn := 1 },
        .fence all rf].all (fun i => decide ((poor again).spec.ib.toNat < ciOf i.maj))) = true) again ha) i hi)⟩, by decide +kernel⟩,
    ⟨attempts_of (by decide +kernel), by decide +kernel⟩, by decide +kernel⟩

theorem meets_SoftwareTraps :
    let deep := { gang with ctl := { gang.ctl with tdepth := 1 } }
    (∀ i ∈ [Instr.trap all { immf with imm := 0xFFFF }, .trapBkpt all { immf with fn := 1 }], Issues (world gang) gang i) ∧
    gang.ctl.tdepth = 0 ∧ ((world gang).ctx 0).tvec ≠ 0 ∧ gang.pend = [] ∧ gang.executes (.trap all immf) 0 = true ∧
    issues (world deep) deep (.trap all immf) = true ∧ deep.ctl.tdepth ≠ 0 ∧ deep.executes (.trap all immf) 0 = true ∧
    (world gang).resultsOut 1 = false ∧
    (let s : State := { world gang with flights := [{ id := 5, seq := 5, uid := some 1, ctx := 0, core := 0, queue := some 0, kind := .load 4 false 4 false false, parts := [{ strand := 0, pa := 0x1000 }] }] }
     s.resultsOut 1 = true ∧ issues s gang (.trap all immf) = true ∧ issues s gang (.trapBkpt all { immf with fn := 1 }) = true) :=
  ⟨all_issue (by decide +kernel), by decide +kernel⟩

theorem meets_FaultingInstructions :
    let bad : Instr := .iadd all { rf with mod := 0xE0 }
    let poisoned := { gang with regs := { gang.regs with poison := [2] } }
    let odd := withS [(0, 0x1001)] (single gang)
    ((world gang).turn = some gang.uid ∧ (world gang).gang? 1 = some gang ∧ (world gang).resultsOut 1 = false ∧ (world poisoned).resultsOut 1 = false ∧ (world odd).resultsOut 1 = false ∧ bad.layout.isSome = true ∧ bad.legal .simt false = false ∧
      (Instr.br all ⟨3, 0, 0, 0⟩).layout.isSome = true ∧ (Instr.br all ⟨3, 0, 0, 0⟩).legal .simt false = false ∧
      ciOf bad.maj ≤ gang.spec.ib.toNat) ∧
    ([Instr.iadd all { rf with a := 2 }, .iadd all { rf with b := 2 }, .imad all { rf with c := 2 }, .movh all { immf with d := 2 }, .popc all { rf with a := 2 }].all (fun i =>
      issues (world poisoned) poisoned i && (intDest i).isSome && poisoned.executes i 0 &&
      (sourcesOf i).any (fun r => (simtEnv (world poisoned) poisoned i).srcPoison { f := r.f, w := r.w, base := r.base } 0)) = true) ∧
    (issues (world odd) odd (.ld all plainLoad) = true ∧ odd.executes (.ld all plainLoad) 0 = true ∧
      (match (simtEnv (world odd) odd (.ld all plainLoad)).check (reqLd plainLoad) (loadParts plainLoad (simtEnv (world odd) odd (.ld all plainLoad))) with
        | .ok _ => false
        | .error e => decide (e.cause = 3)) = true) ∧
    (issues (world gang) gang (.privMfp all { rf with d := 4, a := 1 }) = true ∧ issues (world gang) gang (.privMtp all { rf with fn := 1, a := 1, b := 0x82 }) = true ∧
      issues (world gang) gang (.privInval all { rf with fn := 2, a := 0x82, b := 0x82 }) = true ∧ issues (world gang) gang (.privYreq all { rf with fn := 3, d := 4, a := 0x82 }) = true) := by decide +kernel

/-- A gang in its trap handler. -/
def handler : Gang := { gang with ctl := { gang.ctl with tdepth := 1, nmask := 0xFFFFFFFF, trap := { tpc := 0x2008, next := 0x2010, tact := 0x0000FFFF } } }

theorem meets_TrapReturn :
    (issues (world handler) handler (.tret all bf) = true ∧ issues (world handler) handler (.tretSkip all { bf with fn := 1 }) = true) ∧
    handler.ctl.tdepth ≠ 0 ∧ (world handler).awaiting handler = false ∧ handler.ctl.stack.length = bits64 handler.ctl.trap.tinfo 52 48 ∧
    handler.ctl.trap.tact &&& handler.ctl.nmask ≠ 0 := by decide +kernel

theorem meets_Privileged :
    let mfp (a : Reg) : Instr := .privMfp all { rf with d := 4, a := a }
    let mtp (a : Reg) : Instr := .privMtp all { rf with fn := 1, a := a, b := 0x82 }
    let at12 := { handler with spec := { handler.spec with rba := BitVec.ofNat 64 (tenantReg 0) } }
    let inval := withS [(2, 0x00FFFFFFFFFFF000), (3, 1)] handler
    let asks := withS [(2, 0x0020)] handler
    let world2 : State := { world asks with gangs := [asks, { neighbour with core := 2 }], next := 3 }
    (issues (world handler) handler (mfp 1) = true ∧ (world handler).privReg handler 1 = some 0x2008) ∧
    (issues (world at12) at12 (mfp 12) = true ∧ (match (world at12).rbdTarget at12 with | .tenant u => decide (u = 0) | _ => false) = true) ∧
    (issues (world handler) handler (mtp 1) = true ∧ issues (world handler) handler (mtp 11) = true ∧ issues (world handler) handler (mtp 23) = true) ∧
    (issues (world inval) inval (.privInval all { rf with fn := 2, a := 0x82, b := 0x83 }) = true ∧ 0x00FFFFFFFFFFF000 % pageBytes 0 = 0 ∧
      0x00FFFFFFFFFFF000 + 1 * pageBytes 0 ≤ 2 ^ 56) ∧
    (issues world2 asks (.privYreq all { rf with fn := 3, d := 4, a := 0x82 }) = true ∧
      (match (world2.setGang asks).gangs.find? (fun z => z.inSlot && z.ctx == asks.ctx && z.slot == field 0x20 3 0 && z.core == field 0x20 8 4 && z.cluster == field 0x20 11 9) with
        | some y => decide (y.uid ≠ asks.uid)
        | none => false) = true ∧ (let none_ := withS [(2, 0x1000)] handler
       issues (world none_) none_ (.privYreq all { rf with fn := 3, d := 4, a := 0x82 }) = true ∧
       2 ^ 12 ≤ bits64 ((simtEnv (world none_) none_ (.privYreq all { rf with a := 0x82 })).uniform { f := 0x82, base := true }) 31 0)) ∧
    handler.executes (mfp 1) 0 = true ∧ (world handler).calmFor handler = true ∧ handler.regs.poison = [] := by decide +kernel

theorem meets_GangWideWrites :
    let g := withS [(2, 999999999)] gang
    (∀ i ∈ [Instr.mts all { rf with d := 4, a := 0x82 }, .mts all { rf with d := 5, a := 0x83 }, .mts all { rf with d := 7, a := 0x82 },
        .movBc all { rf with fn := 1, d := 0x84, a := 0x82 }, .wrlane all { rf with d := 4 }, .patld all { rf with fn := 3 }], Issues (world g) g i) ∧
    bits64 ((simtEnv (world g) g (.mts all { rf with d := 4, a := 0x82 })).uniform { f := 0x82, w := .w64, base := true }) 31 0 ≤ 999999999 ∧
    bits64 ((simtEnv (world g) g (.mts all { rf with d := 5, a := 0x83 })).uniform { f := 0x83, w := .w64, base := true }) 63 56 = 0 ∧
    g.present.getLsbD 0 = true ∧ g.executes (.movBc all rf) 0 = true ∧ g.regs.poison = [] :=
  ⟨all_issue (by decide +kernel), by decide +kernel⟩

/-- Two ready tiles for a multiplication, and one that the gang fills. -/
def mats (g : Gang) : State := { world g with cores := [(0, { tiles := [(0, { tile 2 0 with size := 31 }), (1, { tile 2 0 with base := 64, size := 31 }), (2, { tile 1 1 with base := 128, size := 31 })] })] }

theorem meets_MatrixIssue :
    let s := mats gang
    let good (i : Instr) (f : Reg) (st row unit : Nat) (toLen : Bool) : Bool :=
      (s.tile 0 f.toNat).defd && (simtEnv s gang i).tileNamed f && (s.tile 0 f.toNat).state == st && !(s.tile 0 f.toNat).rowsBad row unit toLen
    let x : EF := { ef with fn := 3, qual := 4, ta := 0, tb := 1 }
    (issues s gang (.mma all x) && good (.mma all x) 0 2 (mmaRow 3) 8 true && good (.mma all x) 1 2 (mmaRow (mmaB x)) 8 true) = true ∧
    (issues s gang (.mmag all { x with ta := 0 }) && good (.mmag all x) 1 2 (mmaRow (mmaB x)) 8 true) = true ∧
    (issues s gang (.zld all { ef with fn := 1 }) && good (.zld all ef) 0 2 (accRow 1) 4 true) = true ∧
    (issues s gang (.zst all { ef with fn := 1, tb := 2 }) && good (.zst all ef) 2 1 (accRow 1) 4 false) = true ∧
    (issues s gang (.zclr all ef) && issues s gang (.zrowWr all { ef with fn := 1 }) && issues s gang (.zrowRd all ef)) = true ∧
    (simtEnv s gang (.mma all x)).completionFlag x = some .none ∧ s.calmFor gang = true ∧ ((s.core 0).accTile 0).poison = false ∧ gang.executes (.mma all x) 0 = true := by decide +kernel

/-- A gang with its staging registers: two addresses in main memory, a byte count, a future. -/
def stager : Gang := { gang with regs := { gang.regs with g := { cells := [(0, 0x1000), (1, 0x1100), (2, 64), (3, 0x1200)] } } }

theorem meets_EngineIssue :
    let frame := { gang with regs := { gang.regs with g := { cells := [(0, 60)] } } }
    let stream := { gang with regs := { gang.regs with g := { cells := [(0, 0x1000), (1, 0x100000040), (2, 0)] } } }
    let out (s : State) (g : Gang) (i : Instr) (x : EF) (count : Env → Nat) (plan : Env → Except TrapInfo Plan) : Bool := issues s g i && (match plan (simtEnv s g i) with
      | .ok p => !s.engineFull p.egress p.engine && decide ((count (simtEnv s g i) + 63) / 64 ≤ g.spec.tb.toNat) && decide ((simtEnv s g i).completionFlag x = some .none)
      | .error _ => false)
    out (mats stager) stager (.copy all { ef with fn := 1 }) { ef with fn := 1 } (copyCount { ef with fn := 1 }) (copyPlan { ef with fn := 1 }) = true ∧
    out (mats stream) stream (.strmIn all ef) ef (strmCount ef) (strmPlan ef false) = true ∧
    out (mats stream) stream (.strmOut all { ef with fn := 2 }) { ef with fn := 2 } (strmCount { ef with fn := 2 }) (strmPlan { ef with fn := 2 } true) = true ∧
    out (mats frame) frame (.netx all ef) ef (netxCount ef) (netxPlan ef) = true ∧
    (issues (world gang) gang (.gset all { rf with d := 15, a := 0x82 }) && issues (world gang) gang (.estsQ all { rf with d := 4 }) &&
      issues (world gang) gang (.estsErr all { rf with fn := 1, d := 4 })) = true ∧
    (mats stager).calmFor stager = true ∧ (mats stager).muslinMode 0 = 0 ∧ stager.executes (.copy all ef) 0 = true := by decide +kernel

theorem meets_LegacyForms :
    let old := withS [(2, 0x1002)] (single gang)
    let s := world old
    let x (q : BitVec 2) : MF := ⟨2, false, 0, 4, 0x82, 0xFF, q, 0⟩
    (issues s old (.ldx all (x 0)) && issues s old (.stx all (x 1)) && issues s old (.ldxPi all (x 2)) && issues s old (.stxPi all (x 3))) = true ∧
    (let r : State := { s with tlbs := [{ unit := 0, ctx := 0, va := 0x1000, size := 0, pa := 0x1000, rd := true, wr := false, ex := false }] }
     issues r old (.ldx all (x 0)) = true ∧ r.translate 0 0 0x1002 = .page 0x1000 0 true false false) ∧
    (simtEnv s old (.ldx all (x 0))).genAddr (x 0) 0 = 0x1002 ∧ mBytes (x 0) = 4 ∧
    s.translate 0 0 0x1002 = .page 0x1000 0 true true true ∧ s.translate 0 0 0x1004 = .page 0x1000 0 true true true ∧ isDram (pageAddr 0x1000 0 0x1004) = true ∧
    (issues (world definer) definer (.brx all { rf with a := 0x82 }) && issues (world converged) converged (.atmx all { rf with fn := 1, d := 4, a := 0xC1 })) = true ∧
    ((simtEnv (world converged) converged (.atmx all { rf with fn := 1, d := 4, a := 0xC1 })).uniform { f := 0xC1, base := true }).setWidth 32 &&& converged.ctl.nmask ≠ 0 ∧
    s.calmFor old = true ∧ old.executes (.ldx all (x 0)) 0 = true := by decide +kernel

/-- A VLIW thread with its lane group, whose next bundle has one slot. -/
def vthread (l : List Entry) : Gang :=
  let g := loadGang 1 true
  { g with ctl := { g.ctl with nmask := 0xFFFFFFFF, stack := l, b := [(1, 0x40)] } }
def vworld (l : List Entry) : State := world (vthread l)

/-- What IssuesSlots asks for, as a check that runs. -/
def issuesSlots (s : State) (g : Gang) (hdr : Word64) (ws : List Word64) (xs : List Slot) : Bool :=
  decide (s.turn = some g.uid) && decide (s.gang? g.uid = some g) && !g.cannotIssue s.cycle && !g.iss.reclaim && g.ctl.vliw && g.iss.group &&
  decide (s.bundleCheck g hdr ws = ([], xs)) && decide (hdrSyop hdr = 0 ∧ hdrLpop hdr = 0) && decide (g.pend = []) && !s.resultsOut g.uid &&
  decide (g.regs.poison = []) && decide ((xs.map (fun x => ciOf x.instr.maj)).sum ≤ g.spec.ib.toNat) && !g.iss.drained &&
  s.gangs.all (fun x => x.iss.dueTrap.isNone && x.iss.tretTo.isNone && !x.lostStore && decide (x.loss = (s.ctx x.ctx).loss)) && s.calmFor g

theorem issuesSlots_of {s : State} {g : Gang} {hdr : Word64} {ws : List Word64} {xs : List Slot} (h : issuesSlots s g hdr ws xs = true) :
    IssuesSlots s g hdr ws xs := by
  simp only [issuesSlots, Bool.and_eq_true, decide_eq_true_eq, Bool.not_eq_true', List.all_eq_true, Option.isNone_iff_eq_none] at h
  obtain ⟨⟨⟨⟨⟨⟨⟨⟨⟨⟨⟨⟨⟨⟨a, b⟩, c⟩, d⟩, e⟩, f⟩, k⟩, l⟩, m⟩, n⟩, o⟩, p⟩, q⟩, r⟩, t⟩ := h
  exact ⟨a, b, c, d, e, f, k, l, m, n, o, p, q, fun x hx => ⟨(r x hx).1.1.1, (r x hx).1.1.2, (r x hx).1.2, (r x hx).2⟩, t⟩

/-- iadd.s32 v1, v2, v3 with the latency code of 4 cycles, and mov.x, in lane slot 0. -/
def laneAdd : Instr := .iadd ⟨false, 15, 3⟩ ⟨0, 1, 2, 3, 0, 0⟩
def laneMove : Instr := .xmov ⟨false, 15, 3⟩ ⟨2, 1, 2, 5, 0, 0⟩

theorem meets_BundleResultsLand :
    (IssuesSlot (vworld []) (vthread []) 0xFE00020000000000 [0x02F3000102030000] ⟨.lane 0, 0x1008, laneAdd⟩ ∧
     IssuesSlot (vworld []) (vthread []) 0xFE00020000000000 [0x34F3020102050000] ⟨.lane 0, 0x1008, laneMove⟩) ∧
    (slotEnv (vworld []) (vthread []) 0xFE00020000000000 [0x02F3000102030000] ⟨.lane 0, 0x1008, laneAdd⟩).guard 0 = true ∧
    (elementFn laneAdd).isSome = true :=
  ⟨⟨issuesSlots_of (by decide +kernel), issuesSlots_of (by decide +kernel)⟩, by decide +kernel⟩

/-- A VLIW thread that owns its scratchpad, and bundles of several lanes, or of one memory, engine or shuffle slot. -/
def vowner : Gang := { vthread [] with ent := { res := 0x10000 } }
def later (i : Instr) : Slot := ⟨.lane 15, 0x1010, i⟩
def ldsSlot : Instr := .lds ⟨false, 15, 5⟩ ⟨2, false, 0, 4, 6, 0xFF, 0, 64⟩
def stsSlot : Instr := .sts ⟨false, 15, 0⟩ ⟨2, false, 0, 4, 6, 0xFF, 0, 64⟩
def gsetSlot : Instr := .gset ⟨false, 15, 1⟩ ⟨0, 15, 2, 0, 0, 0⟩
def rdlaneSlot : Instr := .rdlane ⟨false, 15, 3⟩ ⟨0, 4, 2, 3, 0, 0⟩

theorem meets_BundleResultsLand_slots :
    IssuesSlots (world vowner) vowner 0xFF00020000000000 [0x02F3000102030000, 0x02F3000102030000] [⟨.lane 0, 0x1008, laneAdd⟩, later laneAdd] ∧
    (∀ x ∈ [ldsSlot, stsSlot], IssuesSlot (world vowner) vowner 0xFE00010000000000 (encode x) ⟨.mem 0, 0x1008, x⟩ ∧
      (slotEnv (world vowner) vowner 0xFE00010000000000 (encode x) ⟨.mem 0, 0x1008, x⟩).guard 15 = true) ∧
    (slotEnv (world vowner) vowner 0xFE00010000000000 (encode ldsSlot) ⟨.mem 0, 0x1008, ldsSlot⟩).spadCheck 4 ((List.range 16).map (fun c => (c, 64))) = none ∧
    vowner.cluster < 8 ∧
    IssuesSlot (world vowner) vowner 0xFE00004000000000 (encode gsetSlot) ⟨.eng, 0x1008, gsetSlot⟩ ∧
    (slotEnv (world vowner) vowner 0xFE00004000000000 (encode gsetSlot) ⟨.eng, 0x1008, gsetSlot⟩).guard 0 = true ∧
    IssuesSlot (world vowner) vowner 0xFE00001000000000 (encode rdlaneSlot) ⟨.shuf, 0x1008, rdlaneSlot⟩ ∧ (laneSrc rdlaneSlot).isSome = true :=
  ⟨issuesSlots_of (by decide +kernel),
    fun x hx => ⟨issuesSlots_of (List.all_eq_true.mp (by decide +kernel : [ldsSlot, stsSlot].all (fun x => issuesSlots (world vowner) vowner 0xFE00010000000000 (encode x)
        [⟨.mem 0, 0x1008, x⟩]) = true) x hx),
      List.all_eq_true.mp (by decide +kernel : [ldsSlot, stsSlot].all (fun x => (slotEnv (world vowner) vowner 0xFE00010000000000 (encode x) ⟨.mem 0, 0x1008, x⟩).guard 15) = true) x hx⟩,
    by decide +kernel, by decide, issuesSlots_of (by decide +kernel), by decide +kernel, issuesSlots_of (by decide +kernel), by decide⟩

theorem meets_BundleResultsLand_landing :
    let p : PendWrite := { w := { dst := .v 0 1, val := 7 }, land := 4, seq := 1, slot := 0 }
    let g := { vowner with pend := [p] }
    g.pend = [p] ∧ p.free = true ∧ p.passed = false ∧ g.iss.ghosts = [] ∧ p.land ≤ 4 ∧ 3 < p.land := by decide +kernel

theorem meets_BranchSlot :
    let one (l : List Entry) (w : Word64) (i : Instr) : Bool := issuesSlots (vworld l) (vthread l) 0xFE00002000000000 [w] [⟨.br, 0x1008, i⟩]
    let turn (k n : Nat) : List Entry := [.loop k 3 n 0x1000]
    one [] 0xD2F0083000000002 (.loop all ⟨0, 0x83, 0, 2⟩) = true ∧
    (one (turn 1 1) 0xD4F0000000000000 (.lend all bf) = true ∧ one (turn 1 2) 0xD4F0000000000000 (.lend all bf) = true ∧ 2 + 1 = (3#32).toNat + 1 - 1) ∧
    one (turn 1 1) 0xD4F0100000000000 (.lendPop all { bf with fn := 1 }) = true ∧
    (one (turn 1 1) 0xD4F0220000000000 (.lendBrk all ⟨2, 1, 0, 0⟩) = true ∧ ((vthread []).b 1).toNat % 8 = 0) ∧
    (one [] 0xD0F0000000000000 (.split all bf) = true ∧ (vworld []).muslinMode 0 = 0) ∧
    (slotEnv (vworld []) (vthread []) 0xFE00002000000000 [0xD0F0000000000000] ⟨.br, 0x1008, .split all bf⟩).guard 0 = true := by decide +kernel

/-! ## Events -/

/-- A module with one operation in flight, of the gang's queue 0. -/
def flight (k : FlightKind) (ps : List Part) : Flight := { id := 5, seq := 5, uid := some 1, ctx := 0, core := 0, queue := some 0, kind := k, parts := ps }
def inFlight (g : Gang) (f : Flight) : State := { world g with turn := none, next := 9, flights := [f] }
def lone (s : State) (id : Nat) (f : Flight) (g : Gang) (p : Part) : Bool :=
  decide (s.ready id = some f) && decide (f.uid = some g.uid) && decide (s.gang? g.uid = some g) && !f.vliw && decide (f.post = .none) &&
  decide (f.parts = [p]) && isDram p.pa && s.settled && decide (s.muslinMode f.ctx = 0 ∧ s.muslinMode g.ctx = 0) && !s.revoking f && decide (id < s.next)

theorem lone_of {s : State} {id : Nat} {f : Flight} {g : Gang} {p : Part} (h : lone s id f g p = true) : Lone s id f g p := by
  simp only [lone, Bool.and_eq_true, decide_eq_true_eq, Bool.not_eq_true'] at h
  obtain ⟨⟨⟨⟨⟨⟨⟨⟨⟨⟨a, b⟩, c⟩, d⟩, e⟩, k⟩, l⟩, m⟩, n⟩, o⟩, q⟩ := h
  exact ⟨a, b, c, d, e, k, l, m, n, o, q⟩

def byStrand0 (pa : Nat) : Part := { strand := 0, pa := pa }
theorem all_lone {l : List (FlightKind × Part)}
    (h : l.all (fun x => lone (inFlight gang (flight x.1 [x.2])) 5 (flight x.1 [x.2]) gang x.2) = true) :
    ∀ x ∈ l, Lone (inFlight gang (flight x.1 [x.2])) 5 (flight x.1 [x.2]) gang x.2 :=
  fun x hx => lone_of (List.all_eq_true.mp h x hx)

/-- An operation of no strand is ready, and nothing is about to happen. -/
def readyAlone (s : State) (f : Flight) : Bool := decide (s.ready f.id = some f) && s.settled && s.muslinMode f.ctx == 0
/-- Core 0 with flags 0 to 3 as a window of context 0, flag 3 counting n. -/
def windowed (n : BitVec 16) (s : State) : State := { s with cores := [(0, { wins := [(0, { size := 4 })], flags := [(3, n)] })] }

theorem meets_MemoryOperations :
    (∀ x ∈ [(FlightKind.load 4 false 4 false false, byStrand0 0x1000), (.store 4, byStrand0 0x1FFE), (.atomic 0 4 4, byStrand0 0x1004),
        (.join 4, byStrand0 0x1008), (.resolve false 4, byStrand0 0x1008), (.resolve true 4, byStrand0 0x1008)],
      Lone (inFlight gang (flight x.1 [x.2])) 5 (flight x.1 [x.2]) gang x.2) ∧
    (∀ x ∈ [(4, 0x1FFE), (4, 0x1004), (8, 0x1008), (32, 0x1020)], (inFlight gang (flight (.store x.1) [byStrand0 x.2])).foreign 0 x.2 x.1 = []) ∧
    (let f := flight (.store 4) [byStrand0 0x1000]
     let s : State := { inFlight gang f with owners := [(0x400, 1)] }
     lone s 5 f gang (byStrand0 0x1000) = true ∧ (0x400, 1) ∈ s.foreign f.core 0x1000 4) ∧
    (let f : Flight := { flight (.revoke 3 0) [] with uid := none, seq := 4 }
     readyAlone (inFlight gang f) f = true) ∧
    (let f : Flight := { flight (.spadStore 4) [byStrand0 (2 ^ 48)] with post := .own 0 0 3 0 }
     readyAlone (windowed 65534 (inFlight gang f)) f = true ∧ isSpad (2 ^ 48) = true ∧ ((windowed 65534 (inFlight gang f)).core 0).freeze = 0 ∧
       ((windowed 65534 (inFlight gang f)).core 0).storing 1 = false ∧ (byStrand0 (2 ^ 48)).got = none ∧ (inFlight gang f).flights.filter (fun x => x.id == 5 || x.uid == some 1) = [f] ∧
       (windowed 65534 (inFlight gang f)).revoking f = false ∧ 2 ^ 48 + 4 ≤ 2 ^ 48 + 2 ^ 29) ∧
    (let f := flight (.post 3 5 0) []
     readyAlone (windowed 65530 (inFlight gang f)) f = true ∧ (windowed 65530 (inFlight gang f)).flagAt 3 0 = some (0, 3)) ∧
    (let w : PathWrite := { path := .cpy, cmd := 7, pa := 0x103C, data := [1, 2, 3, 4] }
     ({ world gang with paths := [w] } : State).paths = [w] ∧ isDram w.pa = true ∧ w.pa % 64 + w.data.length ≤ 64) ∧
    gang.loss = ((inFlight gang (flight (.join 4) [byStrand0 0x1008])).ctx 0).loss ∧
    (((inFlight gang (flight (.resolve true 4) [byStrand0 0x1008])).settleLine 0x1008).homeWord 0x1008 8).1 / 2 ^ 62 < 2 ∧
    0x1020 % 32 = 0 ∧ readyAlone (inFlight gang (flight (.cell 0x1020 false false none) [])) (flight (.cell 0x1020 false false none) []) = true :=
  ⟨all_lone (by decide +kernel), by decide +kernel⟩

theorem meets_GangEvents :
    (let g := { gang with iss := { gang.iss with pauseTo := some 0 } }
     (world g).gang? 1 = some g ∧ 0 ≤ (world g).cycle) ∧
    (let g := { watcher none with iss := { (watcher none).iss with waitNs := 2 } }
     (late g).gang? 1 = some g ∧ g.iss.waitFrom = some 5 ∧ g.iss.waitNs ≠ 0 ∧ 5 + g.iss.waitNs * 65536 ≤ (late g).clock.el) ∧
    (∀ dropped ∈ [false, true], let f := flight (.xlat 15 0x2FFF true 4 dropped) [byStrand0 0]
     let s : State := { inFlight gang f with dram := (tables gang).dram }
     readyAlone s f = true ∧ s.walking f = true ∧ f.acted = false ∧ f.vliw = false ∧ s.translate 0 0 0x2FFF = .page 0x2000 0 true true true ∧
       xlatTarget gang.cluster 0x2000 = true) ∧
    (let f := flight (.watch 0) [byStrand0 0x1000]
     readyAlone (inFlight gang f) f = true ∧ (inFlight gang f).gang? 1 = some gang) ∧
    (let g := { gang with iss := { gang.iss with exiting := true } }
     (world g).gang? 1 = some g ∧ g.inSlot = true ∧ (world g).quiet g = true ∧ ((world g).core 0).frozen = false) ∧
    (let f : Flight := { flight (.sched 1) [] with uid := none }
     readyAlone (inFlight gang f) f = true ∧ gang.loc = .resident ∧ gang.iss.stopped = false) ∧
    (let f : PageFault := { page := 2, id := none, va := 0x2000, kind := 0, level := 0, flags := 0, who := 0, engine := none, time := 0 }
     let s : State := { world gang with ctxs := [(0, { live := true, faults := [f] })] }
     (s.ctx 0).faults.find? (fun x => x.id.isNone) = some f ∧ s.faultRoom 0 = true) := by decide +kernel

theorem meets_GangEvents_denied :
    (let f := flight (.xlat 15 0x1000 true 4 false) [byStrand0 0]
     let s : State := { inFlight gang f with dram := [(0, 1), (8, 0x43), (9, 0x10)], tlbs := [] }
     readyAlone s f = true ∧ s.walking f = true ∧ f.acted = false ∧ (match s.translate 0 0 0x1000 with | .page _ _ _ wr _ => !wr | _ => false) = true ∧
       gang.pend = [] ∧ gang.ctl.tdepth = 0 ∧
       (∀ x ∈ s.flights, x.uid = some 1 → x.id = 5) ∧ (s.ctx 0).tvec ≠ 0) := by decide +kernel

theorem meets_GangEvents_group :
    (let s0 := State.reset.withFetchWord 64 0xD0F0000000000000
     let g := { loadGang 1 true with iss := { groupFrom := some 0 } }
     let s : State := { s0 with gangs := [g], cores := [], dev := [(schedBlock 0, 1)] }
     s.gang? 1 = some g ∧ g.inSlot = true ∧ g.ctl.vliw = true ∧ SMap.find (s.core 0).group 0 = none ∧ SMap.get (s.core 0).beat 0 0 ≤ s.cycle ∧
       (s.core 0).group.length < s.vres 0 ∧ s.bundleReady g = true ∧ s.admits g.ctx = true ∧ g.iss.group = false) := by decide +kernel

/-- A gang whose deadline a tick has found reached. -/
def overdue (dcp : Word64) : Gang := { gang with spec := { gang.spec with dl := 0x100000000, dcp := dcp }, iss := { gang.iss with dlDue := true } }

theorem meets_GangEvents_deadline :
    (let g := { gang with spec := { gang.spec with dl := 0x100000000, dcp := 0x2000 } }
     let s : State := { world g with clock := { t := 1000000000 * 65536, el := 1000000000 * 65536 } }
     dlReached s.clock.t g.spec.dl = true ∧ g.loc = .resident ∧ g.iss.exiting = false ∧ s.replaying g.ctx = false) ∧
    ((world (overdue 0)).gang? 1 = some (overdue 0) ∧ (world (overdue 0x2000)).gang? 1 = some (overdue 0x2000)) ∧
    ([(0 : Word64), 0x2000].all (fun dcp => (overdue dcp).iss.dlDue && (overdue dcp).loc == .resident && !(overdue dcp).iss.exiting &&
      !(overdue dcp).iss.stopped && (world (overdue dcp)).muslinMode 0 == 0 && (world (overdue dcp)).settled) = true) := by
  decide +kernel

/-- Device registers in place of their reset values. -/
def withDev (l : List (Nat × Word64)) (s : State) : State := { s with dev := l }

/-- With an empty cache and no device register written, the poison of a byte is that of its sector, at any path with no write waiting. -/
theorem byte_poison {s : State} (p : Path) (pa : Nat) (h1 : s.slices = []) (h2 : s.dev = []) (h3 : s.dpoison = []) (h4 : s.paths = []) :
    (s.pathByte p pa).2 = false := by
  have hw : s.window pa = none := by
    simp [State.window, State.windowAt, State.reg, h2, SMap.get, SMap.find, List.findSome?_eq_none_iff]
  have hb : s.windowBad pa = false := by simp [State.windowBad, State.windowsApart, h2]
  have hs : s.line2 pa = none := by simp [State.line2, State.slice, Slice.wayOf, h1, SMap.get, SMap.find]
  simp [State.pathByte, State.homeByte, h4, hs, hw, hb, h3, NSet.has]

theorem bytes_poison {s : State} (pa n : Nat) (h1 : s.slices = []) (h2 : s.dev = []) (h3 : s.dpoison = []) (h4 : s.paths = []) :
    s.devicePoison pa n = false := by
  simp [State.devicePoison, byte_poison _ _ h1 h2 h3 h4]

theorem meets_ResidenceEvents :
    (let g := { gang with iss := { gang.iss with yieldReq := true } }
     let s := withDev [(yieldBlock 0, 0x8000), (yieldBlock 0 + 8, 1)] (world g)
     s.gang? 1 = some g ∧ g.yieldDue = true ∧ g.iss.yielding = false ∧ (s.core 0).freeze = 0 ∧ s.settled = true ∧ s.muslinMode 0 = 0 ∧
       (s.core 0).mq = [] ∧ s.shareBusy 0 0 = false ∧ s.freeYield 0 = some 0) ∧
    (let g := { gang with iss := { gang.iss with yielding := true } }
     let s := withDev [(yieldBlock 0, 0x8000), (yieldBlock 0 + 8, 1)] (world g)
     s.gang? 1 = some g ∧ g.loc = .resident ∧ s.settled = true ∧ s.freeYield 0 = some 0 ∧ (s.core 0).frozen = false) ∧
    (let s : State := { withDev [(assignBlock + 0x1000, 1)] (world gang) with worlds := { stopped := [0] } }
     s.gang? 1 = some gang ∧ s.admits 0 = false ∧ (s.failTiles 0 0).saveable gang = true ∧ (s.core 0).frozen = false ∧ s.settled = true) ∧
    (let g := { gang with loc := .saved }
     (world g).gang? 1 = some g ∧ (world g).admits 0 = true ∧ (world g).worlds.leaving = none ∧ (world g).occupied 0 0 = false ∧
       (∀ w ∈ ((world g).core 0).wins, w.2.base + w.2.size ≤ g.window.base ∨ g.window.base + g.window.size ≤ w.2.base) ∧
       g.park = none ∧ g.heldFor = none) ∧
    (let r : Record := { words := [7, 8], time := 0, elapsed := 0, src := 1, granted := true, gi := 9, gt := 4 }
     let f : Formed := { fid := 3, recs := [r], gid := 0, at_ := 0, launch := none, index := 0 }
     let s : State := { noded gang with ctxs := [(0, { live := true, nodes := ((noded gang).ctx 0).nodes, bins := [(3, { formed := [f] })] })] }
     (match s.waiters 0 with | [.launch 0 3 f'] => decide (f' = f) | _ => false) = true ∧ s.settled = true ∧ SMap.get s.placed 0 0 ≠ s.cycle + 1 ∧ grantOf f.recs = some (9, 4) ∧
       s.pickCore 0 none (fun c => ((s.core c).windowBase (s.nodeOf 0 3).flags).isSome) = some 1 ∧ s.pickSlot 1 = some 0 ∧ (s.launchOf f.recs).2.1 = 0 ∧
       (s.nodeOf 0 3).home = 0 ∧ (s.nodeOf 0 3).affv = false) ∧
    (let s : State := { world gang with worlds := { current := some 0, started := some 0 }, clock := { el := 1000000 * 65536 } }
     s.worlds.leaving = none ∧ s.worlds.current = some 0 ∧ s.worlds.started = some 0 ∧ 0 + SMap.get s.worlds.eff 0 1000000 * 65536 ≤ s.clock.el) ∧
    (world gang).mayWrite (.pf 0) (worldBlock 63) = true := by decide +kernel

theorem meets_ResidenceEvents_saved_image :
    (world { gang with loc := .saved }).devicePoison ((world { gang with loc := .saved }).saveBase { gang with loc := .saved } + 0x28800) 2048 = false ∧
    ∀ base, (world { gang with loc := .saved }).altered base { gang with loc := .saved } = false :=
  ⟨bytes_poison _ _ rfl rfl rfl rfl, fun _ => rfl⟩

/-- A matrix entry of the gang that clears accumulator tile 0, and one that multiplies. -/
def clearing (started : Option Nat) : MEntry := { id := 4, uid := 1, slot := 0, prio := 8, at_ := 0, instr := .zclr all ef, started := started }
def multiplying : MEntry := { clearing (some 2) with instr := .mma all { ef with fn := 3, qual := 4, tb := 1 } }
def queued (m : MEntry) (clk : Nat) : State := { world gang with cores := [(0, { mq := [m], clk := clk })] }

/-- A command of a gang, or of a packet. -/
def command (uid : Option Nat) (k : CmdKind) (taken : Bool) : Cmd :=
  { id := 6, uid := uid, ctx := 0, launch := none, topup := false, cluster := 0, core := 0, slot := 0, gen := 0, engine := 0, egress := false, kind := k
    flag := .none, future := none, taken := taken }
def commanded (c : Cmd) (s : State) : State := { s with cmds := [c] }

theorem meets_EngineEvents :
    (let s := queued (clearing none) 2
     (s.core 0).freeze = 0 ∧ (s.core 0).mfree ≤ (s.core 0).clk ∧ s.mNext 0 = some (clearing none)) ∧
    (((queued (clearing (some 2)) 8).core 0).mq = [clearing (some 2)] ∧ 2 + (clearing (some 2)).occupancy + 4 ≤ 8 ∧ (queued (clearing (some 2)) 8).settled = true) ∧
    (((queued multiplying 40).core 0).mq = [multiplying] ∧ 2 + multiplying.occupancy + 4 ≤ 40 ∧ multiplying.bad = false ∧ multiplying.hitA = [] ∧ multiplying.hitB = []) ∧
    (((tiled (tile 3 0) gang).tile 0 0).state = 3 ∧ (tiled (tile 3 0) gang).tileBusy 0 0 = false ∧ ((tiled (tile 3 0) gang).core 0).freeze = 0) ∧
    (let c := command (some 1) (.copy 2 0 0 0x1000 64 1 0 0 0 0) false
     let s := commanded c (tiled (tile 2 0) gang)
     s.cmd? 6 = some c ∧ s.cmdFirst c = true ∧ s.cmdFrozen c = false ∧ s.yieldsTile c = false ∧ (s.tile c.gcore 0).state = 2) ∧
    (let c := command none (.copy 0 0 0x1000 0x1100 64 1 0 0 0 0) true
     (commanded c (world gang)).cmd? 6 = some c ∧ c.kept = [] ∧ (commanded c (world gang)).settled = true ∧ (commanded c (world gang)).myTurn c = true ∧ isDram 0x1000 = true ∧ 0x1000 + 64 ≤ 0x1100 ∧ 0x1100 % 64 + 64 ≤ 64) ∧
    (let c := command (some 1) (.strm false 0 0x1000 4 1 0 0 0) true
     let s : State := { commanded c (tiled (tile 1 0) gang) with
       tlbs := [{ unit := c.unit, ctx := 0, va := 0x1000, size := 0, pa := 0x1000, rd := true, wr := true, ex := false }] }
     s.cmd? 6 = some c ∧ c.chunk < 1 ∧ s.myTurn c = true ∧ s.stalled c c.mv = false ∧ s.cmdGeneric c 0x1000 false = .at_ 0x1000 ∧ (s.cmdRead c 0x1000 4).2.1 = false ∧ s.tileStill c 0 = true ∧
       (s.tile c.gcore 0).state = 1 ∧ isSpad (spadPa 0 (tileEa 0 0 0 (s.tile c.gcore 0))) = true ∧ s.settled = true) ∧
    (let c := { command (some 1) (.netx 0 2 0 0 0 0 0) true with egress := true }
     let s : State := { commanded c (tiled (tile 2 0) gang) with ports := [(0, { up := 1 })] }
     s.cmd? 6 = some c ∧ s.cmdFirst c = true ∧ s.portUp 0 = true ∧ s.settled = true ∧
       (List.range 2).all (fun i => !(s.spadByte .net (spadPa 0 (tileEa 0 0 0 (s.tile 0 0)) + i)).2) = true) := by decide +kernel

theorem meets_BinEvents :
    let r : Record := { words := [7, 8], time := 0, elapsed := 0, src := 2 }
    let binned (b : Bin) (shape : Word64) (ovr : List (Nat × Record)) : Ctx :=
      { live := true, nodes := [(3, { shape := shape, res := 0x8000000000000000 })], bins := [(3, b)], ovr := ovr }
    let f : Flight := { flight (.append 1 0 3 1 [r]) [] with uid := none }
    let s (b : Bin) : State := { inFlight gang f with ctxs := [(0, binned b 0x2100000000 [])] }
    let o : State := { world gang with ctxs := [(0, binned {} 0x2100000000 [(3, r)])] }
    let timed : State := { world gang with ctxs := [(0, binned { recs := [r] } 0x2100000005 [])], clock := { el := 5 * 65536 } }
    (∀ b ∈ [({ reserved := 1 } : Bin), { recs := [r], reserved := 1 }],
      (match (s b).arrivals 0 3 with | [a] => decide (a.port = 1 ∧ a.recs = [r]) | _ => false) = true ∧ (s b).roomFor 0 3 1 = some 1 ∧ (s b).settled = true ∧
        (s b).muslinMode 0 = 0 ∧ ((s b).ctx 0).live = true ∧ ((s b).bin 0 3).ran ≠ some (s b).cycle ∧ ((s b).ctx 0).ovr = [] ∧ (∀ x ∈ ((s b).bin 0 3).recs, x.marked = false)) ∧
    (((s {}).nodeOf 0 3).timer = 0 ∧ ((s {}).nodeOf 0 3).coal = 2) ∧
    ((o.ctx 0).ovr = [(3, r)] ∧ o.settled = true ∧ o.arrivals 0 3 = [] ∧ r.marked = false ∧ (o.bin 0 3).ran ≠ some o.cycle ∧ 0 < (o.bin 0 3).room ∧ (o.bin 0 3).recs.length + 1 < (o.nodeOf 0 3).coal) ∧
    timed.timerDue 0 3 = true ∧ timed.settled = true ∧ timed.arrivals 0 3 = [] ∧ (timed.ctx 0).ovr = [] ∧ (∀ l ∈ (timed.bin 0 3).markedLaunches, timed.markedTimes 0 3 l = 0) := by decide +kernel

/-- A packet of queue 2 that Percale is about to run, from the bytes that are not zero. -/
def packet (l : List (Nat × Byte)) : List Byte := (List.range 64).map (fun i => ((l.find? (fun x => x.1 == i)).map Prod.snd).getD 0)
def serving (l : List (Nat × Byte)) (s : State) : State := { s with percale := { busy := true, pass := [(2, packet l)] } }

theorem muslin_off {s : State} (h : s.dev = []) (c : Nat) : s.muslinMode c = 0 := by
  simp [State.muslinMode, State.reg, h, SMap.get, SMap.find, bits64, field]

theorem packet_of {l : List (Nat × Byte)} {s : State} (h1 : s.settled = true) (h2 : s.dev = []) (h3 : s.flights = []) : Packet (serving l s) 2 (packet l) :=
  ⟨by decide, rfl, rfl, .inr (by simp [State.groupOver, serving, h3]), by simp [serving], h1, muslin_off h2⟩

/-- Packets are met in small modules without registers written: here their own fields, next to packet_of. -/
theorem meets_PacketEvents_packet : Packet (serving [(0, 6)] (noded gang)) 2 (packet [(0, 6)]) ∧ Packet (serving [(0, 7)] (windowed 3 (world gang))) 2 (packet [(0, 7)]) :=
  ⟨packet_of (by decide +kernel) rfl rfl, packet_of (by decide +kernel) rfl rfl⟩

theorem meets_PacketEvents :
    (let s : State := { world gang with percale := { busy := true, took := [2] } }
     s.percale.busy = true ∧ s.percale.pass = [] ∧ s.groupOver = true ∧ s.percale.took.count 2 = 1) ∧
    (let s : State := { withDev [(queueBlock 2 + 8, 0x80000), (queueBlock 2 + 0x10, 1)] (world gang) with percale := { resident := [2] }, dram := [(0, 8)] }
     s.qReady 2 = true ∧ s.ringBase 2 + 64 * s.ringSize 2 ≤ 2 ^ 40 ∧ (s.ctx (s.qCtx 2)).live = true ∧ pkOk (s.packetAt 2) = true ∧ pkBit (s.packetAt 2) 8 = false) ∧
    (let s : State := { world gang with clock := { el := 50000 * 65536 } }
     s.percale.busy = false ∧ s.percale.quantum + 50000 * 65536 ≤ s.clock.el) ∧
    (let bs := packet [(0, 1), (8, 3), (12, 32), (17, 0x10)]
     let s := serving [(0, 1), (8, 3), (12, 32), (17, 0x10)] (noded gang)
     pkType bs = 1 ∧ pkBit bs 83 = false ∧ pk bs 8 2 = 3 ∧ pk bs 12 4 = 32 ∧ (s.nodeOf 0 3).valid = true ∧ pk bs 16 8 + 4 * (s.nodeOf 0 3).recw * 32 ≤ 2 ^ 40 ∧
       s.cohortStatus 0 8 (s.capacity 0 0) (descsOf bs 8) = none ∧ s.admits 0 = true ∧ (s.roomFor 0 3 32).isSome = true) ∧
    (let bs := packet [(0, 1), (8, 3), (10, 8), (17, 0x10)]
     pkType bs = 1 ∧ pkBit bs 83 = true ∧ ((noded gang).bin 0 3).held = 0 ∧ ((noded gang).ctx 0).ovr = [] ∧ (noded gang).flights = []) ∧
    (let bs := packet [(0, 2), (8, 3), (12, 5), (17, 0x20), (24, 4)]
     let s : State := { noded gang with dram := (tables gang).dram }
     pkType bs = 2 ∧ (List.range 32).filter (fun c => (pk bs 12 4).testBit c) = [0, 2] ∧ pk bs 16 8 = 0x2000 ∧ (0x2000 + 4 + 4095) / 4096 - 0x2000 / 4096 = 1 ∧
       s.walk 0 0x2000 = .page 0x2000 0 true true true ∧ s.lockSlots 0 0 [0, 2] = some [(0, 1), (2, 0)] ∧ s.admits 0 = true ∧
       (s.nodeOf 0 3).ibdef * 2 ≤ (s.ctx 0).ibpool ∧ s.launches = []) ∧
    (pkType (packet [(0, 3), (8, 3), (10, 1)]) = 3 ∧ pk (packet [(0, 3), (8, 3), (10, 1)]) 10 1 + 1 ≤ ((noded gang).nodeOf 0 3).recw ∧ ((noded gang).roomFor 0 3 1).isSome = true) ∧
    (pkType (packet [(0, 4), (8, 7), (9, 11)]) = 4 ∧ (world gang).engineFull false (12 * 7 + 11) = false) ∧
    (pkType (packet [(0, 5), (8, 3)]) = 5 ∧ (windowed 9 (world gang)).flagAt (BitVec.ofNat 32 (pk (packet [(0, 5), (8, 3)]) 8 4)) 0 = some (0, 3)) ∧
    pkType (packet [(0, 6)]) = 6 ∧
    (∀ op ∈ [0, 1, 2, 3, 4], pkType (packet [(0, 7), (8, BitVec.ofNat 8 op)]) = 7 ∧ pk (packet [(0, 7), (8, BitVec.ofNat 8 op)]) 8 1 = op) ∧
    ((((world gang).settleLine 0x1008).homeWord 0x1008 8).1 < 2 ^ 63 ∧ isDram 0x1008 = true ∧ (world gang).paths = []) ∧
    (let bs := packet [(0, 7), (8, 4), (16, 3), (24, 9)]
     (windowed 65526 (world gang)).flagAt (BitVec.ofNat 32 (pk bs 16 4)) 0 = some (0, 3) ∧ 65526 + pk bs 24 2 = 65535) ∧
    (pkType (packet [(0, 8), (17, 0x10)]) = 8 ∧ pk (packet [(0, 8), (17, 0x10)]) 16 8 % 16 = 0) ∧
    (∀ op ∈ [0, 1, 2], pkType (packet [(0, 9), (8, BitVec.ofNat 8 op)]) = 9 ∧ pk (packet [(0, 9), (8, BitVec.ofNat 8 op)]) 8 1 = op) := by decide +kernel

/-- A launch of queue 2. -/
def launch (cmpl : Bool) : Launch :=
  { id := 3, queue := 2, ctx := 0, pkt := 0, tag := 0, cmpl := cmpl, urgent := false, topup := false, isLaunch := true, dispatch := true }
def launched (l : Launch) (s : State) : State := { s with launches := [l] }

theorem meets_PacketEvents_later :
    ((launched (launch false) (world gang)).launches.find? (fun l => l.queue == 2 && l.dispatch && l.pkt.toNat == pk (packet [(0, 10)]) 8 4) = some (launch false) ∧
      pkType (packet [(0, 10)]) = 10) ∧
    (let l := { launch false with release := some 0 }
     let g := { gang with loc := .held 3 }
     (launched l (world g)).launches.find? (fun l => l.id == 3) = some l ∧ (∃ x ∈ (launched l (world g)).gangs, x.loc = .held 3) ∧
       g.heldFor = none ∧ ((world g).core 0).frozen = false ∧ g.iss.stopped = false ∧ (world g).admits 0 = true ∧
       (let later := { l with release := some 0x100000000 }
        let s : State := { launched later (world g) with clock := { t := 1000000000 * 65536 } }
        dlReached s.clock.t 0x100000000 = true)) ∧
    (let waits (w : QWait) : State := { windowed 7 (world gang) with queues := [(2, { wait := some w, waitTo := some 4, waitPkt := 3 })], launches := [launch true], clock := { el := 4 } }
     ((waits (.flag 3 7 true)).queue 2).wait = some (.flag 3 7 true) ∧ (waits (.flag 3 7 true)).flagAt 3 0 = some (0, 3) ∧
       memHolds (BitVec.ofNat 64 (leNat ((waits (.mem 0x1000 0 0 0)).deviceRead 0x1000 8))) 0 0 0 = true ∧
       ((waits (.mem 0x1000 0 0 1)).queue 2).waitTo = some 4 ∧ 4 ≤ (waits (.mem 0x1000 0 0 1)).clock.el ∧
       (waits (.mem 0x1000 0 0 1)).launches.find? (fun l => l.id == ((waits (.mem 0x1000 0 0 1)).queue 2).waitPkt) = some (launch true)) ∧
    ((launched (launch true) (world gang)).launchOver (launch true) = true ∧ ((launched (launch true) (world gang)).queue 2).wait = none) ∧
    (let s : State := { withDev [(queueBlock 2 + 0x38, 0x80F)] (world gang) with queues := [(2, { irqN := 1, irqFrom := 0 })], clock := { el := 65536 } }
     let opened : State := { s with hosts := [(0, { opened := [15] })] }
     (s.qReg 2 0x38).getLsbD 11 = true ∧ (s.queue 2).irqN ≠ 0 ∧ NSet.has (s.hostPort 0).opened 15 = false ∧ NSet.has (opened.hostPort 0).opened 15 = true ∧ (s.queue 2).irqFrom + max 1 (bits64 (s.qReg 2 0x38) 35 20) * 65536 ≤ s.clock.el ∧
       bits64 (s.qReg 2 0x38) 10 0 < 2048) ∧
    (let s : State := { withDev [(queueBlock 2 + 8, 0x80000)] (world gang) with queues := [(2, { error := true, off := true })] }
     s.mayWrite (.pf 1) (queueBlock 2 + 8) = true ∧ (s.queue 2).off = true ∧ (s.queue 2).error = true) ∧
    ((world gang).mayWrite (.pf 0) (queueBlock 1023 + 0x10) = true ∧ ((world gang).queue 1023).error = false ∧ (world gang).ringSize 1023 = 16) ∧
    (let s : State := { world gang with queues := [(2, { error := true })] }
     s.mayWrite (.pf 1) (queueBlock 2 + 8) = true ∧ (s.qReg 2 8).getLsbD 19 = false ∧ (s.queue 2).error = true) := by decide +kernel

theorem meets_DeviceEvents :
    (let s := world gang
     s.mayWrite (.pf 0) (ctxBlock 1023 + 0x28) = true ∧ (s.ctx 1023).live = false ∧ s.mayWrite (.pf 0) (ctxBlock 0 + 0x28) = true ∧ (s.ctx 0).live = true ∧ s.settled = true) ∧
    ((world gang).mayWrite (.pf 0) (ctxBlock 0 + 0x50) = true ∧ (∀ g ∈ (world gang).gangs, g.park = none ∧ g.loc = .resident)) ∧
    (let v : Word64 := 0x0001000000000001
     (world gang).mayWrite (.pf 0) (ctxBlock 0 + 0x78) = true ∧ (world gang).sdbusy 0 = false ∧ bits64 v 47 44 ≤ 11 ∧ bits64 v 43 0 * 4096 % pageBytes (bits64 v 47 44) = 0 ∧
       bits64 v 63 48 = 1) ∧
    ((world gang).noAudit 5 = false ∧ ({ world gang with audits := [(5, true)] } : State).audits = (5, true) :: [] ∧ ({ world gang with audits := [(5, false)] } : State).audits = (5, false) :: []) ∧
    (let l : L2Line := { line := 0, valid := 3, dirty := 0, data := 0, tenant := 5, owner := 0, cls := 2, stamp := 0, dead := false, audit := some (5, 2), fill := 0 }
     let s : State := { world gang with slices := [(0, { lines := [(17, l)], accesses := 2 ^ 30 })] }
     SMap.find (s.slice 0).lines (16 * 1 + 1) = some l ∧ 2 ^ 2 < (s.slice 0).age l ∧ l.valid.getLsbD 1 = true ∧ l.dirty.getLsbD 1 = false) ∧
    (let s : State := { world gang with cores := [(255, { freeze := 1 })] }
     (s.core 255).freeze = 1 ∧ s.settled = true ∧ s.flights = [] ∧ (s.core 255).pinHeld = [] ∧ s.paths = [] ∧ (∀ g ∈ s.gangs, g.park = none)) ∧
    (isDram 0 = true ∧ isSpad (2 ^ 48) = true ∧ (world gang).gang? 1 = some gang) ∧
    (let s : State := { world gang with exports := [(4, 0x8000000000010007), (5, 0x10000)] }
     let x : FabricAccess := { tctx := 2, key := 7, off := 8, kind := .atomic 0 false 1 0 }
     s.exported x = some 0x10008 ∧ s.exported { x with kind := .store [1, 2] } = some 0x10008 ∧ isDram 0x10008 = true ∧
       atomNew 0 4 ((s.settleLine 0x10008).homeWord 0x10008 4).1 1 0 = some 1) := by decide +kernel

theorem meets_RegisterEvents :
    (let s := world gang
     let pinned := withDev [(schedBlock 0 + 0x10 + 4 * 7, 0x80000000)] (world gang)
     s.mayWrite (.pf 0) (pinAddr 0 7) = true ∧ (s.core 0).frozen = false ∧ (∀ g ∈ s.gangs, g.slot ≠ 15) ∧ (s.pinReg 0 7).getLsbD 31 = false ∧ s.shareElse 0 15 0 = false ∧ (pinned.pinReg 0 7).getLsbD 31 = true) ∧
    ((world gang).mayWrite (.pf 0) (windowWord 31 15 3) = true ∧ (0xF#64 : Word64).getLsbD 3 = true ∧ bits64 (0xF : Word64) 1 0 = 3 ∧ (8#64 : Word64).getLsbD 3 = true) ∧
    ((world gang).mayWrite (.pf 0) (assignBlock + 0x1FFC) = true ∧ (world gang).givenTo 0x1000 1024 (32, 1) 0x1FFC < 32 ∧ (world gang).givenTo 0 1024 (32, 1) 0xFFC < 64) ∧
    (let s : State := { world gang with sems := [(63, 2)] }
     s.mayWrite (.pf 1) (semReg 63) = true ∧ (world gang).semOwner 63 = 0 ∧ s.semOwner 63 = 2) ∧
    (let s : State := { world gang with hosts := [(0, { frz := true })] }
     let masked : State := { world gang with hosts := [(0, { pending := [2048 * 32 + 63] })] }
     NSet.has (masked.hostPort 0).pending (2048 * 32 + 63) = true ∧ masked.portOpen 0 = true ∧ masked.power.tripped = false ∧
     s.mayWrite (.pf 1) (portCtl 0) = true ∧ s.power.tripped = false ∧ (s.hostPort 0).frz = true ∧ (s.hostPort 1).frz = false ∧ s.settled = true) ∧
    ((world gang).portOpen 0 = true ∧ (world gang).guarded 0 (0x1000 : Nat) = false ∧ (world gang).power.tripped = false ∧ ((world gang).hostPort 0).frz = false ∧
      (world gang).inBar2 0 (2 ^ 30 - 512) 512 = true ∧ (world gang).bar2 0 (2 ^ 30 - 512) + 512 ≤ 2 ^ 40 ∧ (world gang).inBar2 0 0x1000 4096 = true ∧
      (world gang).bar2 0 0x1000 + 4096 ≤ 2 ^ 40 ∧ (world gang).settled = true ∧ (world gang).dev = []) ∧
    (let s : State := { withDev [(guardReg 0, 0x1040), (guardReg 0 + 8, 0x2000)] (world gang) with sems := [(0, 2)] }
     s.guarded 0 0x1000 = true ∧ s.portOpen 0 = true) ∧
    ((world gang).mayWrite (.pf 0) (queueBlock 1023) = true ∧ (world gang).boot.recov = false) ∧
    ((world gang).mayRead .fw (tenantReg 63) = true ∧ (world gang).mayRead (.pf 0) (portBlock 1) = true ∧ (world gang).mayRead (.pf 0) powerBlock = true) ∧
    ((world gang).mayWrite (.pf 0) (counterBlock 255 + 16 * 7 + 8) = true ∧ (world gang).mayWrite (.pf 0) (counterBlock 255 + 0x80) = true) ∧
    (let s : State := { world gang with cores := [(0, { stop := some 5, stopDec := 1 })] }
     let held : State := { world gang with cores := [(0, { stopped := true, stopDec := 1 })] }
     (world gang).mayWrite (.pf 0) (counterBlock 0 + 0x900) = true ∧ ((world gang).core 0).stopped = false ∧ ((world gang).core 0).stop = none ∧
       (held.core 0).stopped = true ∧ (s.core 0).stop ≠ none ∧ (s.core 0).freeze = 0 ∧ s.issuedUnder (s.core 0) = false) ∧
    (let g := { gang with iss := { gang.iss with stopped := true } }
     let s : State := { withDev [(counterBlock 0 + 0x910, 0x510)] (world g) with cores := [(0, { stopped := true, stopDec := 1 })] }
     s.mayWrite (.pf 0) (counterBlock 0 + 0x918) = true ∧ (match s.dbGang 0 with | some (x, 1, ix, _) => decide (x = g ∧ ix < 64) | _ => false) = true) := by decide +kernel

/-- A PTP message and a frame that a filter may take. -/
def frame60 : List Byte := List.replicate 60 2

theorem meets_PlatformEvents :
    ((world gang).mayWrite (.pf 0) (portBlock 1) = true ∧ (world gang).lportExists 0 = true ∧ (world gang).mayWrite (.pf 0) (filterReg 1 7 0) = true) ∧
    (let s : State := { world gang with ports := [(0, { up := 1 })] }
     s.portUp 0 = true ∧ SMap.find (s.port 0).rx 0 = none ∧ etherType frame60 ≠ 0x8808 ∧ s.ptpTakes 0 frame60 = false ∧
       (List.range 8).all (fun f => !s.filterMatches 0 f frame60) = true) ∧
    (let r : Rx := { filter := 0, ctx := 0, cluster := 0, core := 0, entry := 0, frame := frame60, time := 0 }
     let s : State := { tiled (tile 1 0) gang with ports := [(0, { up := 1, rx := [(0, r)] })] }
     SMap.find (s.port 0).rx 0 = some r ∧ (s.tile 0 0).defd = true ∧ (s.tile 0 0).state = 1 ∧ (s.tile 0 0).filler = 0 ∧ s.settled = true ∧ r.ended = none ∧
       (s.core 0).frozen = false ∧ 64 + r.frame.length ≤ 2048 ∧ 64 + r.frame.length ≤ (s.tile 0 0).bytes ∧
       2048 < 64 + (List.replicate 1985 (2 : Byte)).length) ∧
    ((world gang).mayWrite (.pf 0) (timeBlock + 0x10) = true ∧ (world gang).slaved (.pf 0) = false ∧ (world gang).mayWrite (.pf 0) (timeBlock + 0x20) = true ∧
      (world gang).clock.tvalid = false ∧ (world gang).mayRead (.pf 0) timeBlock = true) ∧
    (let s : State := { world gang with boot := { (world gang).boot with recov := true } }
     s.boot.recov = true ∧ (Who.port (.pf 0)).isSome = true ∧ s.power.tripped = false) ∧
    ((world gang).boot.ready = true ∧ (world gang).mayWrite (.pf 0) attestBlock = true ∧ (world gang).boot.busy = false) ∧
    (let s : State := { world gang with clock := { slewOn := true } }
     s.clock.slewOn = true ∧ s.clock.slew = 0) ∧
    (let hot : State := { world gang with power := { tj := 110 } }
     let cool : State := { world gang with power := { step := 15 } }
     hot.power.step < 3 ∧ hot.mustSlow = true ∧ 110 ≤ hot.power.tj ∧ cool.mustSlow = false ∧ 2 < cool.power.step) ∧
    ({ world gang with power := { tripped := true } } : State).power.tripped = true ∧ (world gang).power.tripped = false := by decide +kernel

/-- A ring tile in a pinned slot, and filter 0 on EtherType 0202 for it, off and on. -/
def ring (w0 : Word64) : State :=
  { withDev [(schedBlock 0 + 0x10 + 4, 0x80000000), (filterReg 0 0 0, w0), (filterReg 0 0 1, 0x9000)] (world gang) with
    cores := [(0, { tiles := [(144, { tile 0 0 with ring := true, next := 144 })] })]
    ports := [(0, { up := 1, cur := [(0, 144)] })] }
def ptpFrame : List Byte := List.replicate 12 2 ++ [0x88, 0xF7, 0, 2, 0, 44, 3] ++ List.replicate 41 0

theorem meets_PlatformEvents_frames :
    ((ring 0x20210).mayWrite (.pf 0) (filterReg 0 0 0) = true ∧ ((ring 0x20210).filterWord 0 0 0).getLsbD 0 = false ∧
      ((ring 0x20210).setBits (filterReg 0 0 0) (bitMask 2 1 ||| bitMask 34 4 ||| bitMask 36 36) 0x20211).filterOk 0 0 = true) ∧
    ((ring 0x20211).portUp 0 = true ∧ SMap.find ((ring 0x20211).port 0).rx 0 = none ∧ (ring 0x20211).ptpTakes 0 frame60 = false ∧
      (List.range 8).find? (fun f => (ring 0x20211).filterMatches 0 f frame60) = some 0 ∧ 64 + frame60.length ≤ 2048 ∧
      64 + frame60.length ≤ ((ring 0x20211).tile 0 144).bytes ∧ (ring 0x20211).ringOpen 0 0 = true ∧ (ring 0x20211).filterYields 0 0 = false) ∧
    (let s : State := { withDev [(ptpReg, 0x301)] (world gang) with ports := [(0, { up := 1 })] }
     s.portUp 0 = true ∧ s.ptpTakes 0 ptpFrame = true) := by decide +kernel

/-- A log with one host write in it, replayed. -/
def written : LogEntry := { kind := 3, time := 0, fields := [0x1000, 4], units := 1 }
def replayed : State :=
  { withDev [(muslinBlock 0, 2), (muslinBlock 0 + 0x10, 1)] (world gang) with
    logs := [(0, written)], paths := [{ path := .host, cmd := 0, pa := 0, data := written.header }] }

theorem written_stands : replayed.entryAt 0 = some written := by
  have hl : written.header.length = 32 := by simp [LogEntry.header, timeBytes, leBytes]
  have hb : (List.range 32).map (fun i => (replayed.pathByte .host (32 * 0 + i)).1) = written.header := by
    refine List.ext_getElem (by simp [hl]) (fun i h1 h2 => ?_)
    have hi : i < 32 := by simpa using h1
    simp [State.pathByte, replayed, hl, hi, List.getD_eq_getElem?_getD]
  have hf : SMap.find replayed.logs 0 = some written := rfl
  simp only [State.entryAt, hf, Option.filter, hb, beq_self_eq_true, if_true]

theorem meets_PlatformEvents_replay :
    replayed.nextEntry 0 (fun e => e.kind ≤ 4) = some (0, written) ∧ written.kind = 3 ∧ replayed.settled = true := by
  refine ⟨?_, rfl, by decide +kernel⟩
  have h1 : (replayed.muslinMode 0 == 2 && (replayed.ctx 0).live && (replayed.ctx 0).mst != 3) = true := by decide +kernel
  have h2 : replayed.logSize 0 = 1 := by decide +kernel
  have h3 : replayed.logUnit 0 0 = 0 := by decide +kernel
  have h4 : (replayed.ctx 0).mdone = [] := by decide +kernel
  simp [State.nextEntry, h1, State.logLeft, h2, State.entriesFrom, h3, written_stands, h4, NSet.has, written]

theorem meets_MemoryStaysCanonical : Memory.wf State.reset.dram = true ∧ (match step { State.reset with tape := [.event (.linkDown 0)] } with | .next _ => true | _ => false) = true := by decide +kernel

/-! ## Single steps, with the results that the rules give -/

/-- Two registers in and v4 out, of strand 0: what the instruction leaves there. -/
def out4 (i : Instr) (v2 v3 v6 : Word32) : Option Word32 :=
  let g := withV [(2, v2), (3, v3), (4, 0xDEADBEEF), (6, v6)] gang
  match exec i (world g) with
  | .next t => (t.gang? 1).map (fun g' => g'.settle.regs.v.get 4)
  | _ => none
/-- The predicate p1 of strand 0 after the instruction. -/
def outP (i : Instr) (v2 v3 : Word32) : Option Bool :=
  match exec i (world (withV [(2, v2), (3, v3)] gang)) with
  | .next t => (t.gang? 1).map (fun g' => g'.settle.p 0 1)
  | _ => none
def x3 : RF := { rf with d := 4, a := 2, b := 3 }

/-- R197's example: the sum wraps to 0 and carries out; R196's signed clamp. -/
theorem test_add : out4 (.iaddAddc all { x3 with fn := 1, c := 1, mod := 0x10 }) 0xFFFFFFFF 1 0 = some 0 ∧
    outP (.iaddAddc all { x3 with fn := 1, c := 1, mod := 0x10 }) 0xFFFFFFFF 1 = some true ∧
    out4 (.iadd all { x3 with mod := 2 }) 0x7FFFFFFF 1 0 = some 0x7FFFFFFF := by decide +kernel
/-- R197's corners. -/
theorem test_divide : out4 (.idiv all x3) 9 0 0 = some 0xFFFFFFFF ∧ out4 (.idivRem all { x3 with fn := 1 }) 9 0 0 = some 9 ∧
    out4 (.idiv all x3) 0x80000000 0xFFFFFFFF 0 = some 0x80000000 ∧ out4 (.idiv all x3) 0xFFFFFFF9 2 0 = some 0xFFFFFFFD ∧
    out4 (.idivRem all { x3 with fn := 1 }) 0xFFFFFFF9 2 0 = some 0xFFFFFFFF := by decide +kernel
/-- R196: the high half of a product, signed and unsigned. -/
theorem test_multiply : out4 (.imulHi all { x3 with fn := 1 }) 0xFFFFFFFF 2 0 = some 0xFFFFFFFF ∧
    out4 (.imulHi all { x3 with fn := 1, mod := 0x10 }) 0xFFFFFFFF 2 0 = some 1 := by decide +kernel
/-- R198: a shift by the width, and R198's tables fn 22 and 96 of LUT3. -/
theorem test_shift : out4 (.shl all x3) 5 32 0 = some 0 ∧ out4 (.shrAr all { x3 with fn := 1 }) 0x80000000 200 0 = some 0xFFFFFFFF ∧
    out4 (.shr all x3) 0x80000000 31 0 = some 1 := by decide +kernel
theorem test_lut3 : out4 (.lut3 all { x3 with fn := 0x22, c := 6 }) 0b1100 0b1010 0 = some 0b0100 ∧
    out4 (.lut3 all { x3 with fn := 0x96, c := 6 }) 0b11110000 0b11001100 0b10101010 = some 0b10010110 := by decide +kernel
/-- R198: counts of zero, and the two reversals. -/
theorem test_counts : out4 (.clz all { x3 with b := 0 }) 0 0 0 = some 32 ∧ out4 (.clzCtz all { x3 with fn := 1, b := 0 }) 0x8000 0 0 = some 15 ∧
    out4 (.brev all { x3 with b := 0 }) 1 0 0 = some 0x80000000 ∧ out4 (.brevByte all { x3 with fn := 1, b := 0 }) 0x01020304 0 0 = some 0x04030201 := by
  decide +kernel
/-- R199: bytes 4, 3 and 1 by the selectors 00100, 00011 and 00001, and 0 by 01000; a field that reaches beyond the top. -/
theorem test_fields : out4 (.prmt all { x3 with c := 6 }) 0x44332211 0x88776655 0x00040464 = some 0x00668811 ∧
    out4 (.bfx all { x3 with c := 6 }) 0x80000000 28 8 = some 0xFFFFFFF8 := by decide +kernel
/-- R201 and R202: signed and unsigned comparison. -/
theorem test_compare : outP (.icmp all { x3 with d := 1, fn := 2, c := 15 }) 0xFFFFFFFF 1 = some true ∧
    outP (.icmp all { x3 with d := 1, fn := 2, c := 15, mod := 0x10 }) 0xFFFFFFFF 1 = some false := by decide +kernel
/-- Elements of eight bits: no carry crosses them (R194, R196). -/
theorem test_elements : out4 (.iadd all { x3 with mod := 0x60 }) 0x010203FF 0x01010101 0 = some 0x02030400 ∧
    out4 (.iaddSub all { x3 with fn := 2, mod := 0x72 }) 0x00050001 0x01010101 0 = some 0x00040000 := by decide +kernel
/-- FADD of f32: 1 + 2 = 3 (R216). -/
theorem test_fadd : out4 (.fadd all { x3 with mod := 0x10 }) 0x3F800000 0x40000000 0 = some 0x40400000 := by decide +kernel

/-- What v4 of each strand holds after the instruction, from v2 of each. -/
def row (i : Instr) (g : Gang) (v2 : Nat → Word32) : List Word32 :=
  match exec i (world (withV ((List.range 32).map (fun k => (128 * k + 2, v2 k))) g)) with
  | .next t => ((t.gang? 1).map (fun g' => (List.range 32).map (fun k => g'.settle.regs.v.get (128 * k + 4)))).getD []
  | _ => []

/-- The example of R147: 2^24 + 30, which the order of the tree gives and no other order does. -/
theorem test_tree_order : (row (.gred all ⟨0, 4, 2, 0, 0, 0x10⟩) gang (fun k => if k = 0 then 0x4B800000 else 0x3F800000)).getD 7 0 = 0x4B80000F := by
  decide +kernel
/-- The example of R213: strand 4 reads the inactive strand 5, which keeps its own v4; strand 7 reads strand 0. -/
theorem test_rotation : (row (.shufRot all ⟨1, 4, 2, 0xC1, 0xC3, 0x10⟩) { gang with ctl := { gang.ctl with active := 0xFFFFFFDF } }
    (fun k => BitVec.ofNat 32 (100 + k))).take 9 = [101, 102, 103, 104, 105, 0, 107, 100, 109] := by decide +kernel
/-- The example of R145 and R226: the bytes of a bx4 block. -/
theorem test_block : (row (.bxpk all ⟨0, 4, 2, 0, 0, 0x70⟩) gang
    (fun k => [0x40B00000, 0xBFA00000, 0x3E99999A, 0xBE4CCCCD, 0x40D00000, 0, 0x40FCCCCD].getD k 0)).take 4 = [0x864BF281, 0x0003C0D8, 0, 0] := by
  decide +kernel
/-- R36: a branch that some strands take leaves the others on the stack; the software trap goes to the handler of its cause, 12, at supervisor level (R341). -/
theorem test_divergence : (match exec (.br ⟨false, 1, 0⟩ ⟨0, 1, 2, 0⟩) (world { gang with ctl := { gang.ctl with p := [(1, 3)], b := [(1, 0x40), (2, 0x80)] } }) with
    | .next t => (t.gang? 1).map (fun g => (g.pc, g.ctl.active, g.ctl.stack.length)) | _ => none) = some (0x40, 3, 1) := by decide +kernel
theorem test_trap : (match exec (.trap all { immf with imm := 7 }) (world gang) with
    | .next t => (t.gang? 1).map (fun g => (g.pc, g.ctl.tdepth, g.ctl.trap.tpc)) | _ => none) = some (0x8300, 1, 0x1008) := by decide +kernel

end Sys2Proof.Tests
end

section
/-! SUPPORT. Rules that proofs about events share: writes by a party and the fields of a register word (R8), the end of a step in which nothing is due, what
the home slices hold and which accesses change no byte of it (R105), and what a path's waiting writes leave of the bytes of main memory (R127). -/

namespace Sys2Proof.Machine

/-! ## Register words (R8) -/

theorem State.writeBy_of_mayWrite {s : State} {who : Who} {a : Nat} (h : s.mayWrite who a = true) (act : State → State) :
    s.writeBy who a act = act s := by
  simp [State.writeBy, h]

theorem State.reg_setBits (s : State) (a : Nat) (mask v d : Word64) : (s.setBits a mask v).reg a d = (s.rd a &&& ~~~mask) ||| (v &&& mask) := by
  simp [State.setBits, State.reg_setReg]

theorem State.rd_setBits_ne (s : State) {a b : Nat} (mask v : Word64) (h : b ≠ a) : (s.setBits a mask v).rd b = s.rd b := by
  simp [State.rd, State.setBits, State.reg_setReg, Ne.symm h]

theorem getLsbD_bitMask (hi lo i : Nat) : (bitMask hi lo).getLsbD i = decide (i < 64 ∧ lo ≤ i ∧ i ≤ hi) := by
  rw [bitMask, BitVec.getLsbD_ofNat, Nat.testBit_mul_two_pow, Nat.testBit_two_pow_sub_one]
  by_cases hl : lo ≤ i
  · have : i - lo < hi + 1 - lo ↔ i ≤ hi := by omega
    simp [hl, this]
  · simp [hl]

/-- A field depends on its own bits. -/
theorem bits64_congr {x y : Word64} {hi lo : Nat} (h : ∀ i, lo ≤ i → i ≤ hi → x.getLsbD i = y.getLsbD i) : bits64 x hi lo = bits64 y hi lo := by
  refine Nat.eq_of_testBit_eq (fun i => ?_)
  simp only [bits64, field, Nat.testBit_mod_two_pow, Nat.testBit_div_two_pow]
  by_cases hi' : i < hi + 1 - lo
  · have := h (i + lo) (by omega) (by omega)
    simp only [BitVec.getLsbD] at this
    rw [this]
  · simp [hi']

/-- A field that a write's mask covers takes the bits written. -/
theorem bits64_setBits (s : State) (a : Nat) (v : Word64) (hi lo : Nat) (h : hi < 64) :
    bits64 ((s.setBits a (bitMask hi lo) v).reg a) hi lo = bits64 v hi lo := by
  rw [State.reg_setBits]
  refine bits64_congr (fun i h1 h2 => ?_)
  have hm : (bitMask hi lo).getLsbD i = true := by rw [getLsbD_bitMask]; exact decide_eq_true ⟨by omega, h1, h2⟩
  simp only [BitVec.getLsbD_or, BitVec.getLsbD_and, BitVec.getLsbD_not, hm]
  simp

/-! ## The end of a step in which nothing is due -/

/-- No seal, split, return or late trap of the gang is due, and no lost store of it is to be told. -/
def Gang.atRest (g : Gang) : Bool :=
  g.iss.sealTo.isNone && g.iss.splitTo.isNone && !g.iss.mseal && g.iss.dueTrap.isNone && g.iss.tretTo.isNone && !g.lostStore

theorem State.settled_iff (s : State) : s.settled = true ↔ (∀ f ∈ s.flights, f.releases = false) ∧ ∀ g ∈ s.gangs, g.atRest = true := by
  rw [State.settled, Bool.and_eq_true, List.all_eq_true, List.all_eq_true]
  simp only [Bool.not_eq_true']
  rfl

theorem Gang.atRest_iff (g : Gang) : g.atRest = true ↔ g.iss.sealTo = none ∧ g.iss.splitTo = none ∧ g.iss.mseal = false ∧ g.iss.dueTrap = none ∧
    g.iss.tretTo = none ∧ g.lostStore = false := by
  simp [Gang.atRest, and_assoc]

/-- Operations that go, and gangs that come to rest or go, leave nothing due. -/
theorem State.settled_mono {s t : State} (hf : ∀ f ∈ t.flights, f ∈ s.flights)
    (hg : ∀ g ∈ t.gangs, ∃ x ∈ s.gangs, x.atRest = true → g.atRest = true) (h : s.settled = true) : t.settled = true := by
  rw [State.settled_iff] at h ⊢
  refine ⟨fun f hm => h.1 f (hf f hm), fun g hm => ?_⟩
  obtain ⟨x, hx, hr⟩ := hg g hm
  exact hr (h.2 x hx)

theorem State.settled_of_eq {s t : State} (hf : t.flights = s.flights) (hg : t.gangs = s.gangs) : t.settled = s.settled := by
  simp only [State.settled, hf, hg]

theorem State.settled_modGang {s : State} (u : Nat) {f : Gang → Gang} (hf : ∀ g, g.atRest = true → (f g).atRest = true) (h : s.settled = true) :
    (s.modGang u f).settled = true := by
  refine State.settled_mono (s := s) (fun _ hm => hm) (fun g hm => ?_) h
  obtain ⟨x, hx, rfl⟩ := List.mem_map.1 hm
  refine ⟨x, hx, fun hr => ?_⟩
  split
  · exact hf x hr
  · exact hr

/-- A fence is one of the local releases. -/
theorem Flight.fence_of_releases {f : Flight} (h : f.releases = false) : f.fence = false := by
  unfold Flight.releases at h
  unfold Flight.fence
  split <;> simp_all

/-- Where nothing is due at the end of a step, nothing happens there. -/
theorem State.pump_settled {s : State} (h : s.settled = true) : s.pump = s := by
  obtain ⟨hf, hg⟩ := (State.settled_iff s).1 h
  have hrel : s.applyReleases = s := State.applyReleases_off (List.all_eq_true.2 (fun f hm => by simp [hf f hm]))
  have hseal : s.takeSeals = s := State.takeSeals_off (fun x hm => by
    obtain ⟨h1, h2, h3, -⟩ := x.atRest_iff.1 (hg x hm)
    exact ⟨h1, h2, h3⟩)
  have hret : s.takeReturns = s := foldl_id _ _ s (fun x hm => by
    obtain ⟨-, -, -, -, h5, -⟩ := x.atRest_iff.1 (hg x hm)
    rw [h5])
  have hlate : s.takeLate = s := foldl_id _ _ s (fun x _ => by
    cases hx : s.gang? x.uid with
    | none => rfl
    | some g =>
      obtain ⟨-, -, -, h4, -, h6⟩ := g.atRest_iff.1 (hg g (State.gang?_mem hx))
      have hl : s.lostRelease g = none := by simp [State.lostRelease, h6]
      have hn : s.lossFence g = none := by
        unfold State.lossFence
        split
        · rfl
        · exact List.find?_eq_none.2 (fun f hm => by simp [Flight.fence_of_releases (hf f hm)])
      dsimp only
      rw [h4, hl, hn]
      split <;> rfl)
  rw [State.pump, hrel, hseal, hret, hlate]

/-! ## What the home slices hold -/

/-- A line without its audit, which no read sees. -/
def L2Line.unaudited (l : L2Line) : L2Line := { l with audit := none }

/-- The home slices and main memory hold the same bytes: the same memory, marks, windows and lines; only counts, monitors and audits may differ. -/
structure State.SameHome (s t : State) : Prop where
  dram    : t.dram = s.dram
  dpoison : t.dpoison = s.dpoison
  draw    : t.draw = s.draw
  windows : ∀ a < mcBlock 32, t.reg a = s.reg a
  listed  : t.dev.any (fun r => mcBlock 0 ≤ r.1 && r.1 < mcBlock 32) = s.dev.any (fun r => mcBlock 0 ≤ r.1 && r.1 < mcBlock 32)
  lines   : ∀ h k, (SMap.find (t.slice h).lines k).map L2Line.unaudited = (SMap.find (s.slice h).lines k).map L2Line.unaudited

/-- The same, with what waits in the paths' buffers and the cores: every read of bytes is the same. -/
structure State.SameReads (s t : State) : Prop extends s.SameHome t where
  paths : t.paths = s.paths
  cores : t.cores = s.cores

theorem State.SameHome.refl (s : State) : s.SameHome s := ⟨rfl, rfl, rfl, fun _ _ => rfl, rfl, fun _ _ => rfl⟩

theorem State.SameHome.trans {s t u : State} (h : s.SameHome t) (k : t.SameHome u) : s.SameHome u where
  dram := k.dram.trans h.dram
  dpoison := k.dpoison.trans h.dpoison
  draw := k.draw.trans h.draw
  windows a ha := (k.windows a ha).trans (h.windows a ha)
  listed := k.listed.trans h.listed
  lines x y := (k.lines x y).trans (h.lines x y)

theorem State.SameReads.refl (s : State) : s.SameReads s := ⟨State.SameHome.refl s, rfl, rfl⟩

theorem State.SameReads.trans {s t u : State} (h : s.SameReads t) (k : t.SameReads u) : s.SameReads u :=
  ⟨h.toSameHome.trans k.toSameHome, k.paths.trans h.paths, k.cores.trans h.cores⟩

/-- Changes outside the registers and the lines. -/
theorem State.SameHome.of_eq {s t : State} (hm : t.dram = s.dram) (hx : t.dpoison = s.dpoison) (hd : t.draw = s.draw) (hr : t.dev = s.dev)
    (hl : ∀ h, (t.slice h).lines = (s.slice h).lines) : s.SameHome t :=
  ⟨hm, hx, hd, fun a _ => State.reg_of hr a, by rw [hr], fun h k => by rw [hl]⟩

theorem memCtl_lt (pa : Nat) : memCtl pa < 32 := by
  unfold memCtl field
  exact Nat.xor_lt_two_pow (n := 5) (Nat.mod_lt _ (by decide)) (Nat.mod_lt _ (by decide))

section
variable {s t : State} (h : s.SameHome t)
include h

theorem State.SameHome.windowReg {mc n k : Nat} (hmc : mc < 32) (hn : n < 16) (hk : k ≤ 0x18) :
    t.reg (mcBlock mc + 0x100 + 32 * n + k) = s.reg (mcBlock mc + 0x100 + 32 * n + k) :=
  h.windows _ (by simp only [mcBlock, devBase]; omega)

theorem State.SameHome.windowAt {mc n : Nat} (hmc : mc < 32) (hn : n < 16) (pa : Nat) : t.windowAt mc n pa = s.windowAt mc n pa := by
  have h0 := h.windowReg hmc hn (Nat.zero_le _)
  have h1 := h.windowReg hmc hn (k := 8) (by decide)
  have h2 := h.windowReg hmc hn (k := 0x10) (by decide)
  have h3 := h.windowReg hmc hn (Nat.le_refl _)
  unfold State.windowAt
  simp only [Nat.add_zero] at h0
  simp only [h0, h1, h2, h3]

theorem State.SameHome.windowWords {mc n : Nat} (hmc : mc < 32) (hn : n < 16) : t.windowWords mc n = s.windowWords mc n := by
  have h0 := h.windowReg hmc hn (Nat.zero_le _)
  have h1 := h.windowReg hmc hn (k := 8) (by decide)
  have h2 := h.windowReg hmc hn (k := 0x10) (by decide)
  have h3 := h.windowReg hmc hn (Nat.le_refl _)
  unfold State.windowWords
  simp only [Nat.add_zero] at h0
  simp only [h0, h1, h2, h3]

theorem State.SameHome.window : t.window = s.window := by
  funext pa
  unfold State.window
  rw [← List.head?_filterMap, ← List.head?_filterMap]
  exact congrArg List.head? (List.filterMap_congr (fun n hn => h.windowAt (memCtl_lt pa) (List.mem_range.1 hn) pa))

theorem State.SameHome.windowsApart (pa : Nat) : t.windowsApart pa = s.windowsApart pa := by
  have hw : ∀ n ∈ List.range 16, ((List.range 32).any fun mc => t.windowWords mc n != t.windowWords 0 n) =
      (List.range 32).any fun mc => s.windowWords mc n != s.windowWords 0 n := fun n hn => by
    rw [Bool.eq_iff_iff, List.any_eq_true, List.any_eq_true]
    refine exists_congr (fun mc => and_congr_right (fun hmc => ?_))
    rw [h.windowWords (List.mem_range.1 hmc) (List.mem_range.1 hn), h.windowWords (by decide) (List.mem_range.1 hn)]
  unfold State.windowsApart
  rw [h.listed, List.filter_congr hw]
  refine ite_congr rfl (fun _ => List.flatMap_congr (fun n hn => List.filterMap_congr (fun mc hmc => ?_))) (fun _ => rfl)
  exact h.windowAt (List.mem_range.1 hmc) (List.mem_range.1 (List.mem_of_mem_filter hn)) pa

theorem State.SameHome.windowBad : t.windowBad = s.windowBad := by
  funext pa
  rw [State.windowBad, State.windowBad, h.windowsApart]

theorem State.SameHome.wayOf (x pa : Nat) : (t.slice x).wayOf pa = (s.slice x).wayOf pa := by
  unfold Slice.wayOf
  congr 1
  funext w
  have hl := h.lines x (16 * setOf2 pa + w)
  match h1 : SMap.find (t.slice x).lines (16 * setOf2 pa + w), h2 : SMap.find (s.slice x).lines (16 * setOf2 pa + w) with
  | none, none => rfl
  | some l, some m => exact congrArg (fun y => y.line == pa / 128) (show l.unaudited = m.unaudited by rw [h1, h2] at hl; exact Option.some.inj hl)
  | none, some _ => rw [h1, h2] at hl; cases hl
  | some _, none => rw [h1, h2] at hl; cases hl

theorem State.SameHome.line2 (pa : Nat) :
    (t.line2 pa).map (fun x => x.2.unaudited) = (s.line2 pa).map (fun x => x.2.unaudited) := by
  unfold State.line2
  rw [h.wayOf]
  cases (s.slice (homeSlice pa)).wayOf pa with
  | none => rfl
  | some w => simpa [Function.comp_def] using h.lines (homeSlice pa) (16 * setOf2 pa + w)

theorem State.SameHome.ctlRead (sec : Nat) : t.ctlRead sec = s.ctlRead sec := by
  unfold State.ctlRead State.freeBytes State.poisonAt
  rw [h.windowBad, h.window, h.dram, h.dpoison, h.draw]

theorem State.SameHome.homeByte (pa : Nat) : t.homeByte pa = s.homeByte pa := by
  have key : ∀ u : State, u.homeByte pa = match ((u.line2 pa).map (fun x => x.2.unaudited)).filter (fun l => l.has pa) with
      | some l => (dataByte l.data (pa % 128), l.poison.getLsbD (pa / 64 % 2))
      | none => if (u.window pa).isNone && !u.windowBad pa then (Memory.read u.dram pa, NSet.has u.dpoison (pa / 64))
        else ((u.ctlRead (pa / 64)).1.getD (pa % 64) 0, (u.ctlRead (pa / 64)).2) := fun u => by
    unfold State.homeByte
    cases hl : u.line2 pa with
    | none => rfl
    | some x =>
      have hx : x.2.unaudited.has pa = x.2.has pa := rfl
      simp only [Option.map_some, Option.filter_some, hx]
      cases x.2.has pa <;> rfl
  rw [key t, key s, h.line2, h.window, h.windowBad, h.dram, h.dpoison, h.ctlRead]

end

theorem State.SameReads.pathByte {s t : State} (h : s.SameReads t) (p : Path) (pa : Nat) : t.pathByte p pa = s.pathByte p pa := by
  rw [State.pathByte, State.pathByte, h.paths, h.homeByte]

theorem State.SameReads.sameBytes {s t : State} (h : s.SameReads t) : s.sameBytes t :=
  ⟨⟨fun pa => by rw [h.windowBad], fun p pa _ _ => h.pathByte p pa⟩,
    fun p pa _ => by simp only [State.spadByte, State.bankByte, State.core, h.paths, h.cores]⟩

/-! ## Accesses that change no byte -/

/-- A register behind the memory controllers' blocks is no window. -/
theorem State.sameReads_setReg (s : State) {a : Nat} (v : Word64) (ha : mcBlock 32 ≤ a) : s.SameReads (s.setReg a v) where
  dram := rfl
  dpoison := rfl
  draw := rfl
  windows b hb := by rw [State.reg_setReg, if_neg (by omega)]
  listed := by
    have hk : (decide (mcBlock 0 ≤ a) && decide (a < mcBlock 32)) = false := by simp [ha]
    simp only [State.setReg_dev]
    induction s.dev with
    | nil => simp [SMap.set, hk]
    | cons r m ih =>
      obtain ⟨j, w⟩ := r
      simp only [SMap.set]
      split
      · simp [List.any_cons, hk]
      · split
        · next hj => subst hj; simp only [List.any_cons]
        · simp only [List.any_cons, ih]
  lines _ _ := rfl
  paths := rfl
  cores := rfl

theorem State.sameReads_bump (s : State) {ctl : Nat} (n : Nat) (h : mcBlock 32 ≤ ctl) : s.SameReads (s.bump ctl n) := by
  have hr := s.sameReads_setReg (BitVec.ofNat 64 (((s.reg (ctl + 8)).toNat + n) % 2 ^ 48)) (Nat.le_trans h (Nat.le_add_right ctl 8))
  unfold State.bump
  dsimp only
  split
  · exact .refl s
  · split
    · exact hr.trans ⟨.of_eq rfl rfl rfl rfl (fun _ => rfl), rfl, rfl⟩
    · exact hr

theorem State.sameReads_sliceCount (s : State) (h ev tenant : Nat) (o : Option Nat) : s.SameReads (s.sliceCount h ev tenant o) := by
  refine foldl_inv s.SameReads _ (fun st n hst => ?_) _ s (.refl s)
  have hb : ∀ c : Bool, st.SameReads (if c then st.bump (sliceBlock h + 16 * n) 1 else st) := fun c => by
    cases c
    · exact .refl st
    · exact st.sameReads_bump 1 (by simp only [mcBlock, sliceBlock, devBase]; omega)
  exact hst.trans (hb _)

theorem State.sameReads_auditEnd (s : State) (h : Nat) (l : L2Line) (pass : Bool) : s.SameReads (s.auditEnd h l pass) := by
  have ha : ∀ x, s.SameReads { s with audits := x } := fun _ => ⟨.of_eq rfl rfl rfl rfl (fun _ => rfl), rfl, rfl⟩
  unfold State.auditEnd
  split
  · exact .refl s
  · split
    · exact .refl s
    · exact (ha _).trans (State.sameReads_sliceCount ..)

theorem State.slice_modSlice (s : State) (h k : Nat) (f : Slice → Slice) : (s.modSlice h f).slice k = if h = k then f (s.slice h) else s.slice k := by
  simp [State.slice, State.modSlice, SMap.get_set]

/-- A slice whose lines differ in their audits alone. -/
theorem State.sameReads_modSlice (s : State) (h : Nat) (f : Slice → Slice)
    (hf : ∀ k, (SMap.find (f (s.slice h)).lines k).map L2Line.unaudited = (SMap.find (s.slice h).lines k).map L2Line.unaudited) :
    s.SameReads (s.modSlice h f) := by
  refine ⟨⟨rfl, rfl, rfl, fun _ _ => rfl, rfl, fun x k => ?_⟩, rfl, rfl⟩
  rw [State.slice_modSlice]
  split
  · next hx => rw [hf, hx]
  · rfl

/-- An access that counts at a home slice changes no byte. -/
theorem State.sameReads_touch2 (s : State) (pa : Nat) (a : Asker) : s.SameReads (s.touch2 pa a) := by
  have h1 : s.SameReads (s.modSlice (homeSlice pa) (fun x => { x with accesses := x.accesses + 1 })) := s.sameReads_modSlice _ _ (fun _ => rfl)
  unfold State.touch2
  dsimp only
  generalize s.modSlice (homeSlice pa) (fun x => { x with accesses := x.accesses + 1 }) = s1 at h1 ⊢
  split
  · exact h1.trans (State.sameReads_sliceCount ..)
  · next w _ =>
    split
    · exact h1
    · next l hl =>
      have h2 := s1.sameReads_sliceCount (homeSlice pa) (if l.valid.getLsbD (pa / 64 % 2) then 1 else 2) a.tenant a.owner
      generalize s1.sliceCount _ _ _ _ = s2 at h2 ⊢
      refine h1.trans (h2.trans ?_)
      split
      · split
        · refine (s2.sameReads_auditEnd ..).trans (State.sameReads_modSlice _ _ _ (fun k => ?_))
          rw [SMap.find_set]
          split
          · next hk =>
            subst hk
            rw [(h2.trans (s2.sameReads_auditEnd ..)).lines, hl]
            rfl
          · rfl
        · exact .refl s2
      · exact .refl s2

/-! ## What waiting path writes leave of a byte (R127) -/

/-- A byte, and whether it is poisoned, under one waiting write as its path sees it. -/
def PathWrite.over (p : Path) (x : Nat) (b : Byte × Bool) (w : PathWrite) : Byte × Bool :=
  if w.path == p && w.pa ≤ x && x < w.pa + w.data.length then (w.data.getD (x - w.pa) 0, w.poison) else b

theorem State.pathByte_eq (s : State) (p : Path) (x : Nat) : s.pathByte p x = s.paths.foldl (PathWrite.over p x) (s.homeByte x) := rfl

theorem PathWrite.over_eq (p : Path) (x : Nat) (b : Byte × Bool) (w : PathWrite) :
    w.over p x b = if w.path = p ∧ w.pa ≤ x ∧ x < w.pa + w.data.length then (w.data.getD (x - w.pa) 0, w.poison) else b := by
  simp [PathWrite.over, and_assoc]

/-- The pieces of a run of bytes, laid over a byte in their order, leave what the whole run leaves. -/
theorem over_sectorRuns (p : Path) (x : Nat) (w : PathWrite) (fuel pa : Nat) (bs : List Byte) (b : Byte × Bool) (hfuel : bs.length + pa % 64 ≤ 64 * fuel) :
    ((sectorRuns fuel pa bs).map (fun r => { w with pa := r.1, data := r.2 })).foldl (PathWrite.over p x) b =
      PathWrite.over p x b { w with pa := pa, data := bs } := by
  induction fuel generalizing pa bs b with
  | zero =>
    have : bs = [] := List.length_eq_zero_iff.1 (by omega)
    subst this
    simp [sectorRuns, PathWrite.over_eq]
  | succ fuel ih =>
    cases bs with
    | nil =>
      simp [sectorRuns, PathWrite.over_eq]
    | cons c cs =>
      simp only [sectorRuns, List.map_cons, List.foldl_cons]
      generalize c :: cs = bs at hfuel ⊢
      rw [ih _ _ _ (by simp only [List.length_drop]; omega)]
      simp only [PathWrite.over_eq, List.length_drop, List.length_take, List.getD_eq_getElem?_getD, List.getElem?_take, List.getElem?_drop]
      generalize hn : 64 - pa % 64 = n
      by_cases hx : pa + n ≤ x
      · have hi : n + (x - (pa + n)) = x - pa := by omega
        have hlow : ¬ x < pa + min n bs.length := by omega
        have hhigh : x < pa + n + (bs.length - n) ↔ x < pa + bs.length := by omega
        have hpa : pa ≤ x := by omega
        simp [hi, hlow, hhigh, hx, hpa]
      · have hi : pa ≤ x → x - pa < n := by omega
        have hlow : x < pa + min n bs.length ↔ x < pa + bs.length := by omega
        simp +contextual [hi, hlow, hx]

theorem over_runsOf (p : Path) (x : Nat) (w : PathWrite) (pa : Nat) (bs : List Byte) (b : Byte × Bool) :
    ((runsOf pa bs).map (fun r => { w with pa := r.1, data := r.2 })).foldl (PathWrite.over p x) b = PathWrite.over p x b { w with pa := pa, data := bs } :=
  over_sectorRuns p x w _ pa bs b (by omega)

/-! ## Writes of a path (R127) -/

/-- A fold whose every step adds a write to the buffers. -/
theorem foldl_paths {β : Type} (f : State → β → State) (w : β → PathWrite) (h : ∀ st x, (f st x).paths = st.paths ++ [w x]) (l : List β) (s : State) :
    (l.foldl f s).paths = s.paths ++ l.map w := by
  induction l generalizing s with
  | nil => simp
  | cons x l ih => rw [List.foldl_cons, ih, h, List.map_cons, List.append_assoc, List.singleton_append]

/-- A part of the state that neither the buffers, nor the monitors of a line (R102), nor the marks of constant sectors (R123) touch. -/
theorem State.pathWrite_keep {γ : Type} (f : State → γ) (hp : ∀ (s : State) w, f { s with paths := w } = f s)
    (hl : ∀ (s : State) l st, f (s.fireLine l st) = f s) (hs : ∀ (s : State) w pa n, f (s.spoil w pa n) = f s)
    (s : State) (p : Path) (c pa : Nat) (bs : List Byte) (po : Bool) (a : Asker) : f (s.pathWrite p c pa bs po a) = f s := by
  refine foldl_keep f _ (fun st r => ?_) _ _
  dsimp only
  split
  · rw [hs, hl, hp]
  · exact hp st _

section
variable (s : State) (p : Path) (c pa : Nat) (bs : List Byte) (po : Bool) (a : Asker)

@[simp] theorem State.pathWrite_dev : (s.pathWrite p c pa bs po a).dev = s.dev :=
  State.pathWrite_keep State.dev (fun _ _ => rfl) (fun _ _ _ => rfl) (fun _ _ _ _ => rfl) ..

theorem State.fireLine_settled (l st : Nat) : (s.fireLine l st).settled = s.settled := by
  have hm : ∀ (g : Gang) (c : Prop) [Decidable c] m, (if c then { g with monitor := m } else g).atRest = g.atRest := fun g c _ m => by
    split <;> rfl
  have hg : (s.fireLine l st).gangs.all Gang.atRest = s.gangs.all Gang.atRest := by
    simp only [State.fireLine, List.all_map]
    refine List.all_congr rfl (fun g => hm g _ _)
  exact congrArg (s.flights.all (fun f => !f.releases) && ·) hg

@[simp] theorem State.pathWrite_settled : (s.pathWrite p c pa bs po a).settled = s.settled :=
  State.pathWrite_keep State.settled (fun _ _ => rfl) (fun s => s.fireLine_settled) (fun _ _ _ _ => rfl) ..

theorem State.pathWrite_lines (h : Nat) : ((s.pathWrite p c pa bs po a).slice h).lines = (s.slice h).lines :=
  State.pathWrite_keep (fun st => (st.slice h).lines) (fun _ _ => rfl)
    (fun st l _ => by
      show ((st.modSlice (homeSlice (128 * l)) (fun y => { y with monitors := y.monitors.filter (fun m => m.2 != l) })).slice h).lines = _
      rw [State.slice_modSlice]
      split
      · next hh => subst hh; rfl
      · rfl) (fun _ _ _ _ => rfl) ..

theorem State.sameHome_pathWrite : s.SameHome (s.pathWrite p c pa bs po a) :=
  .of_eq (State.pathWrite_keep State.dram (fun _ _ => rfl) (fun _ _ _ => rfl) (fun _ _ _ _ => rfl) ..)
    (State.pathWrite_keep State.dpoison (fun _ _ => rfl) (fun _ _ _ => rfl) (fun _ _ _ _ => rfl) ..)
    (State.pathWrite_keep State.draw (fun _ _ => rfl) (fun _ _ _ => rfl) (fun _ _ _ _ => rfl) ..)
    (s.pathWrite_dev ..) (fun h => s.pathWrite_lines p c pa bs po a h)

theorem State.pathWrite_paths : (s.pathWrite p c pa bs po a).paths =
    s.paths ++ (runsOf pa bs).map (fun r => { path := p, cmd := c, pa := r.1, data := r.2, poison := po, asker := a }) :=
  foldl_paths _ _ (fun st r => by
    dsimp only
    split <;> rfl) _ s

/-- What a path sees of a byte after a path write: the byte written, if it is the path's own and covers it, else what it saw before. -/
theorem State.pathByte_pathWrite (q : Path) (x : Nat) : (s.pathWrite p c pa bs po a).pathByte q x =
    if p = q ∧ pa ≤ x ∧ x < pa + bs.length then (bs.getD (x - pa) 0, po) else s.pathByte q x := by
  rw [State.pathByte_eq, s.pathWrite_paths, List.foldl_append, (s.sameHome_pathWrite p c pa bs po a).homeByte, ← State.pathByte_eq]
  exact (over_runsOf q x { path := p, cmd := c, pa := 0, data := [], poison := po, asker := a } pa bs _).trans (PathWrite.over_eq ..)

end

end Sys2Proof.Machine
end

section
/-! PROOFS. The register space (R8, R113, R148, R340, R392 to R399, R411, R415 to R421, R436): what the writes and reads that have an effect of their own
do, one theorem for each clause of the statement. -/

namespace Sys2Proof.Machine

/-! ## Pinned slots (R88, R340) -/

theorem State.pinnedTo_setReg (s : State) (core k : Nat) (v : Word64) :
    (s.setReg (pinAddr core k) v).pinnedTo core (8 + k) = if v.getLsbD 31 then some (bits64 v 9 0) else none := by
  have hr : (s.setReg (pinAddr core k) v).pinReg core k = v := by
    rw [State.pinReg, ← pinAddr, State.reg_setReg, if_pos rfl]
  simp [State.pinnedTo, hr]

theorem bitMask_9_0 : (0x3FF : Word64) = bitMask 9 0 := by decide
theorem bitMask_31_31 : (0x80000000 : Word64) = bitMask 31 31 := by decide
theorem bitMask_30_30 : (0x40000000 : Word64) = bitMask 30 30 := by decide

/-- A pin that is not refused. -/
theorem State.pinNow_pins {s : State} {core k : Nat} {v : Word64} (hv : v.getLsbD 31 = true)
    (hg : ∀ g ∈ s.gangs, g.inSlot = true → g.gcore = core → g.slot ≠ 8 + k)
    (ho : (s.pinReg core k).getLsbD 31 = true → s.pinReg core k &&& 0x3FF = v &&& 0x3FF) (he : s.shareElse core (8 + k) (v &&& 0x3FF).toNat = false) :
    s.pinNow core k v = s.setReg (pinAddr core k) ((v &&& 0x3FF) ||| 0x80000000) := by
  have hgang : s.gangs.any (fun g => g.inSlot && g.gcore == core && g.slot == 8 + k) = false := by
    simpa [List.any_eq_false] using hg
  have hown : ((s.pinReg core k).getLsbD 31 && s.pinReg core k &&& 0x3FF != v &&& 0x3FF) = false := by
    cases hb : (s.pinReg core k).getLsbD 31
    · rfl
    · rw [ho hb]; simp
  unfold State.pinNow
  simp only [hv, if_true, hgang, hown, he, Bool.or_self, Bool.false_eq_true, if_false]

/-- After a key of each of a list of numbers has been set, a key among them holds what one of them set. -/
theorem SMap.get_foldl_set {α : Type} (key : Nat → Nat) (f : Nat → α) (l : List Nat) (m : SMap α) (d : α) {j : Nat} (h : ∃ n ∈ l, key n = j) :
    ∃ n, SMap.get (l.foldl (fun m n => SMap.set m (key n) (f n)) m) j d = f n := by
  induction l using List.reverseRecOn with
  | nil => simp at h
  | append_singleton l n ih =>
    rw [List.foldl_append, List.foldl_cons, List.foldl_nil, SMap.get_set]
    by_cases hn : key n = j
    · exact ⟨n, if_pos hn⟩
    · rw [if_neg hn]
      obtain ⟨i, hi, hij⟩ := h
      rcases List.mem_append.1 hi with hi | hi
      · exact ih ⟨i, hi, hij⟩
      · exact absurd hij (List.mem_singleton.1 hi ▸ hn)

/-- The tile entries of a slot are empty and not defined once they are cleared. -/
theorem State.tile_clearTiles (s : State) {core slot j : Nat} (hj : j / 16 = slot) : ∃ x y, (s.clearTiles core slot).tile core j = freeTile x y := by
  obtain ⟨n, hn⟩ := SMap.get_foldl_set (j := j) (fun n => 16 * slot + n)
    (fun n => freeTile (Config.freeWord (s.draw + 2 * n)) (Config.freeWord (s.draw + 2 * n + 1))) (List.range 16) (s.core core).tiles { next := j }
    ⟨j % 16, List.mem_range.2 (Nat.mod_lt j (by decide)), by omega⟩
  refine ⟨_, _, Eq.trans ?_ hn⟩
  simp only [State.tile, State.clearTiles, State.core, State.modCore, SMap.get_set_same]

/-- SLOT_PIN and SLOT_UNPIN (R88, R340). -/
theorem slotPins (s : State) (who : Who) (core k : Nat) (v : BitVec 64) (hc : core < 256) (hk : k < 8)
    (hw : s.mayWrite who (pinAddr core k) = true) (hf : (s.core core).frozen = false) :
    (v.getLsbD 31 = true → (∀ g ∈ s.gangs, g.inSlot = true → g.gcore = core → g.slot ≠ 8 + k) →
      ((s.pinReg core k).getLsbD 31 = true → s.pinReg core k &&& 0x3FF = v &&& 0x3FF) → s.shareElse core (8 + k) (v &&& 0x3FF).toNat = false →
      ∃ t, exec (.slotPin who core k v) s = .next t ∧ t.pinnedTo core (8 + k) = some (bits64 v 9 0)) ∧
    (v.getLsbD 31 = false → ∃ t, exec (.slotUnpin who core k v) s = .next t ∧ t.pinnedTo core (8 + k) = none ∧
      ∀ j, j / 16 = 8 + k → (t.tile core j).state = 0 ∧ (t.tile core j).defd = false) := by
  have hpin : s.writeBy who (pinAddr core k) (fun st => st.pinWrite core k v) = s.pinNow core k v := by
    rw [State.writeBy_of_mayWrite hw, State.pinWrite, hf]
    rfl
  constructor
  · intro hv hg ho he
    refine ⟨s.pinNow core k v, ?_, ?_⟩
    · exact (if_pos (by rw [hv]; simp [hc, hk])).trans (congrArg _ hpin)
    · rw [State.pinNow_pins hv hg ho he, State.pinnedTo_setReg, bitMask_9_0, bitMask_31_31, if_pos (by simp only [BitVec.getLsbD_or, getLsbD_bitMask]; simp)]
      refine congrArg some (bits64_congr (fun i _ hi => ?_))
      simp only [BitVec.getLsbD_or, BitVec.getLsbD_and, getLsbD_bitMask]
      have h1 : i < 64 ∧ 0 ≤ i ∧ i ≤ 9 := by omega
      have h2 : ¬ (i < 64 ∧ 31 ≤ i ∧ i ≤ 31) := by omega
      rw [decide_eq_true h1, decide_eq_false h2, Bool.and_true, Bool.or_false]
  · intro hv
    have hnow : s.pinNow core k v = { ((s.failTiles core (8 + k) true).clearTiles core (8 + k)).setReg (pinAddr core k)
        ((v &&& 0x3FF) ||| (s.pinReg core k &&& 0x40000000)) with worlds := (s.pinNow core k v).worlds } := by
      simp only [State.pinNow, hv, Bool.false_eq_true, if_false]
    refine ⟨s.pinNow core k v, ?_, ?_, fun j hj => ?_⟩
    · exact (if_pos (by rw [hv]; simp [hc, hk])).trans (congrArg _ hpin)
    · rw [hnow]
      refine (State.pinnedTo_setReg ..).trans ?_
      rw [bitMask_9_0, bitMask_30_30, if_neg (by simp only [BitVec.getLsbD_or, BitVec.getLsbD_and, getLsbD_bitMask]; simp)]
    · obtain ⟨x, y, hxy⟩ := (s.failTiles core (8 + k) true).tile_clearTiles (core := core) hj
      have ht : (s.pinNow core k v).tile core j = freeTile x y := by
        rw [hnow]
        exact hxy
      rw [ht]
      exact ⟨rfl, rfl⟩

/-! ## Format windows (R148) -/

theorem State.windowStale_dev (s : State) (past : Nat → List (Nat × Nat × Fmt × Nat)) (r : Nat × Nat) : (s.windowStale past r).dev = s.dev := by
  unfold State.windowStale
  dsimp only
  split <;> rfl

/-- A change of a window's registers leaves the registers as the change itself does. -/
theorem State.windowChange_dev (s : State) (mc n : Nat) (act : State → State) : (s.windowChange mc n act).dev = (act s).dev := by
  unfold State.windowChange
  dsimp only
  split
  · rfl
  · exact foldl_keep State.dev _ (fun st r => st.windowStale_dev _ r) _ _

/-- FORMAT_WINDOW_ENABLE (R148). -/
theorem formatWindowEnables (s : State) (who : Who) (mc n : Nat) (v : BitVec 64) (hm : mc < 32) (hn : n < 16) (hv : v.getLsbD 3 = true)
    (hw : s.mayWrite who (windowWord mc n 3) = true) :
    ∃ t, exec (.formatWindowEnable who mc n v) s = .next t ∧
      let fields := if bits64 v 1 0 = 3 then (v &&& 4) ||| (s.reg (windowWord mc n 3) &&& 3) else v &&& 7
      t.reg (windowWord mc n 3) = (if s.windowOk mc n (v &&& 7) then fields ||| 8 else fields ||| 16) := by
  refine ⟨s.windowControl mc n v, (if_pos (by simp [hm, hn])).trans (congrArg _ (State.writeBy_of_mayWrite hw _)), ?_⟩
  intro fields
  refine (State.reg_of (State.windowChange_dev s mc n _) _).trans ?_
  rw [if_pos hv, State.reg_setReg, if_pos rfl]

/-! ## The assignment table (R392) -/

theorem bits64_ofNat (x hi lo : Nat) (h : x < 2 ^ 64) : bits64 (BitVec.ofNat 64 x) hi lo = field x hi lo := by
  rw [bits64, BitVec.toNat_ofNat, Nat.mod_eq_of_lt h]

theorem bits64_lt (v : Word64) (hi lo : Nat) : bits64 v hi lo < 2 ^ (hi + 1 - lo) := Nat.mod_lt _ (Nat.two_pow_pos _)

/-- ASSIGNMENT_WRITE (R392). -/
theorem assignmentWrites (s : State) (who : Who) (off : Nat) (v : BitVec 64) (ho : off < 0x2000) (ha : off % 4 = 0) (hvf : Who.isVf who = false)
    (hw : s.mayWrite who (assignBlock + off) = true) (hv : bits64 v 5 0 ≤ 32)
    (hroom : bits64 v 5 0 = 0 ∨ s.givenTo (if off < 0x1000 then 0 else 0x1000) 1024 (bits64 v 5 0, bits64 v 6 6) off < (if off < 0x1000 then 64 else 32)) :
    ∃ t, exec (.assignmentWrite who off v) s = .next t ∧ t.assigned off = (bits64 v 5 0, bits64 v 6 6) := by
  refine ⟨s.assignWrite off v, (if_pos (by simp [ho, ha, hvf])).trans (congrArg _ (State.writeBy_of_mayWrite hw _)), ?_⟩
  have hlow := bits64_lt v 5 0
  have hport := bits64_lt v 6 6
  have hfit : ¬ (bits64 v 5 0 ≠ 0 ∧ if off < 0x1000 then 64 ≤ s.givenTo 0 1024 (bits64 v 5 0, bits64 v 6 6) off
      else 32 ≤ s.givenTo 0x1000 1024 (bits64 v 5 0, bits64 v 6 6) off) := fun ⟨hne, hfull⟩ => by
    have hlt := hroom.resolve_left hne
    split at hfull
    · next hq => rw [if_pos hq, if_pos hq] at hlt; omega
    · next hq => rw [if_neg hq, if_neg hq] at hlt; omega
  have hset : (s.assignWrite off v).reg (assignBlock + off) = BitVec.ofNat 64 (bits64 v 5 0 + 64 * bits64 v 6 6) := by
    unfold State.assignWrite
    simp only [if_pos hv]
    rw [if_neg (by simpa using hfit)]
    exact (s.reg_setReg ..).trans (if_pos rfl)
  simp only [State.assigned, hset]
  rw [bits64_ofNat _ _ _ (by omega), bits64_ofNat _ _ _ (by omega)]
  simp only [field]
  refine Prod.ext ?_ ?_ <;> dsimp only <;> omega

/-! ## Semaphores and frozen ports (R395 to R397) -/

/-- SEMAPHORE_ACQUIRE and SEMAPHORE_RELEASE (R395). -/
theorem semaphoreTurns (s : State) (port k : Nat) (hk : k < 64) (hw : s.mayWrite (.pf port) (semReg k) = true) :
    (s.semOwner k = 0 → ∃ t, exec (.semaphoreAcquire port k) s = .next t ∧ t.semOwner k = port + 1 ∧ ∀ j, j ≠ k → t.semOwner j = s.semOwner j) ∧
    (s.semOwner k = port + 1 → ∃ t, exec (.semaphoreRelease port k) s = .next t ∧ t.semOwner k = 0 ∧ ∀ j, j ≠ k → t.semOwner j = s.semOwner j) := by
  have hset : ∀ v, ({ s with sems := SMap.set s.sems k v } : State).semOwner k = v ∧
      ∀ j, j ≠ k → ({ s with sems := SMap.set s.sems k v } : State).semOwner j = s.semOwner j := fun v =>
    ⟨SMap.get_set_same .., fun j hj => SMap.get_set_ne _ _ _ (Ne.symm hj)⟩
  constructor <;> intro ho
  · exact ⟨_, (if_pos hk).trans (congrArg _ ((State.writeBy_of_mayWrite hw _).trans (if_pos ho))), hset _⟩
  · exact ⟨_, (if_pos hk).trans (congrArg _ ((State.writeBy_of_mayWrite hw _).trans (if_pos ho))), hset _⟩

theorem State.hostPort_of {s t : State} {p : Nat} {h : HostPort} (ht : t.hosts = SMap.set s.hosts p h) (q : Nat) :
    t.hostPort q = if p = q then h else s.hostPort q := by
  simp only [State.hostPort, ht, SMap.get_set]

/-- What was held for a port is sent when it is thawed. -/
theorem State.thawPort_out (s : State) (p fn vec : Nat) : .irq p fn vec true ∉ (s.thawPort p).out := by
  intro h
  obtain ⟨o, -, ho⟩ := List.mem_map.1 h
  cases o with
  | irq q f x held =>
    injection ho with hq _ _ hh
    simp [hq] at hh
  | _ => cases ho

/-- PORT_UNFREEZE (R396). -/
theorem portUnfreezes (s : State) (port p : Nat) (hp : p < 2) (hne : port ≠ p) (hw : s.mayWrite (.pf port) (portCtl p) = true)
    (hf : (s.hostPort p).frz = true) :
    ∃ t, exec (.portUnfreeze port p) s = .next t ∧ (t.hostPort p).frz = false ∧ ∀ fn vec, .irq p fn vec true ∉ t.out := by
  have ht : s.unfreeze port p = s.thawPort p := if_pos (by simp [hne, hf])
  refine ⟨s.thawPort p, (if_pos hp).trans (congrArg _ ((State.writeBy_of_mayWrite hw _).trans ht)), ?_, s.thawPort_out p⟩
  rw [State.hostPort_of (s := s) (t := s.thawPort p) rfl, if_pos rfl]

/-! ## Gangs that end, and contexts that are destroyed, leave nothing due -/

theorem State.settled_dropWhere {s : State} (f : Flight → Bool) (h : s.settled = true) : (s.dropWhere f).settled = true :=
  State.settled_mono (fun _ hm => List.mem_of_mem_filter hm) (fun g hm => by
    obtain ⟨x, hx, rfl⟩ := List.mem_map.1 hm
    exact ⟨x, hx, id⟩) h

theorem State.settled_leaveCohorts {s : State} (g : Gang) (h : s.settled = true) : (s.leaveCohorts g).settled = true := by
  refine foldl_inv (fun st => State.settled st = true) _ (fun st n hst => ?_) _ s h
  dsimp only
  split
  · exact hst
  · exact hst

theorem State.settled_exitGang {s : State} (uid : Nat) (h : s.settled = true) : (s.exitGang uid).settled = true := by
  unfold State.exitGang
  split
  · exact h
  · next g _ =>
    refine State.settled_modGang uid (fun g hg => ?_) (State.settled_dropWhere _ ?_)
    · obtain ⟨-, -, h3, -, -, h6⟩ := g.atRest_iff.1 hg
      exact (Gang.atRest_iff _).2 ⟨rfl, rfl, h3, rfl, rfl, h6⟩
    · exact State.settled_leaveCohorts g h

theorem State.settled_dropGroup {s : State} (uid : Nat) (h : s.settled = true) : (s.dropGroup uid).settled = true := by
  unfold State.dropGroup
  split
  · exact h
  · split
    · exact State.settled_modGang uid (fun _ hg => hg) h
    · exact h

/-- A gang that is killed without a record. -/
theorem State.settled_kill {s : State} (uid cause : Nat) (a : Word64) (kind : Nat) (h : s.settled = true) : (s.kill uid cause a false kind).settled = true := by
  unfold State.kill
  split
  · exact h
  · exact State.settled_modGang uid (fun _ hg => hg) (State.settled_dropGroup uid (State.settled_exitGang uid h))

theorem State.settled_forget {s : State} (g : Gang) (h : s.settled = true) : (s.forget g).settled = true := by
  have hq : ∀ s1 : State, s1.settled = true → (if s1.cmds.any (fun c => c.uid == some g.uid) then
      s1.modGang g.uid (fun x => { x with loc := .gone, iss := { x.iss with exiting := true } })
    else { s1.closeWindow g with gangs := (s1.closeWindow g).gangs.filter (fun x => x.uid != g.uid) }).settled = true := fun s1 h1 => by
    split
    · exact State.settled_modGang _ (fun _ hg => hg) h1
    · exact State.settled_mono (s := s1) (fun _ hm => hm) (fun x hm => ⟨x, List.mem_of_mem_filter hm, id⟩) h1
  unfold State.forget
  dsimp only
  refine hq _ ?_
  split
  · exact h
  · exact h

theorem State.settled_destroyCtx {s : State} (c : Nat) (h : s.settled = true) : (s.destroyCtx c).settled = true := by
  unfold State.destroyCtx
  extract_lets mine s1 s2
  have h1 : s1.settled = true := by
    refine foldl_inv (fun st => State.settled st = true) _ (fun st g hst => ?_) mine s h
    have hk := State.settled_kill g.uid 0 g.pc 7 hst
    dsimp only
    split
    · exact hk
    · split
      · exact State.settled_forget _ hk
      · exact hk
  exact State.settled_mono (s := s1) (fun _ hm => List.mem_of_mem_filter hm) (fun g hm => ⟨g, hm, id⟩) h1

/-! ## Function-level resets (R397) -/

theorem State.passBy_keep {γ : Type} (p : State → γ) (hp : ∀ (s : State) l, p { s with queues := l } = p s) (s : State) (qs : List Nat) :
    p (s.passBy qs) = p s := foldl_keep p _ (fun st _ => hp st _) qs s

theorem State.endPass_ctxs (s : State) : s.endPass.ctxs = s.ctxs := State.passBy_keep State.ctxs (fun _ _ => rfl) ..

theorem State.endPass_settled (s : State) : s.endPass.settled = s.settled :=
  State.settled_of_eq (State.passBy_keep State.flights (fun _ _ => rfl) ..) (State.passBy_keep State.gangs (fun _ _ => rfl) ..)

/-- A context that is not listed is not live. -/
theorem State.ctx_live_of_unlisted {s : State} {c : Nat} (h : ∀ x ∈ s.ctxs, x.1 ≠ c) : (s.ctx c).live = false := by
  rw [State.ctx, SMap.get, SMap.find_none h]
  rfl

theorem State.settled_resetVf {s : State} (port fn : Nat) (h : s.settled = true) : (s.resetVf port fn).settled = true := by
  unfold State.resetVf
  extract_lets mine ctxs queues s1 gone percale s2
  clear_value ctxs queues
  have h2 : s2.settled = true := foldl_inv (fun st => State.settled st = true) _ (fun st c hst => by
    split
    · exact State.settled_destroyCtx c hst
    · exact hst) ctxs s h
  split
  · exact (State.endPass_settled s2).trans h2
  · exact h2

/-- The contexts that a function's reset leaves listed are not the function's. -/
theorem State.resetVf_ctxs (s : State) (port fn : Nat) : ∀ x ∈ (s.resetVf port fn).ctxs,
    x.1 ∉ (List.range 1024).filter (fun k => s.assigned (0x1000 + 4 * k) == (fn, port)) := by
  unfold State.resetVf
  extract_lets mine ctxs queues s1 gone percale s2
  have hctxs : (List.range 1024).filter (fun k => s.assigned (0x1000 + 4 * k) == (fn, port)) = ctxs := rfl
  rw [hctxs]
  clear_value ctxs queues
  have hkept : ∀ x ∈ s2.ctxs, x.1 ∉ ctxs := fun x hx => by simpa using (List.mem_filter.1 hx).2
  intro x hx
  split at hx
  · rw [State.endPass_ctxs] at hx
    exact hkept x hx
  · exact hkept x hx

/-- The contexts given to a function are gone after its reset. -/
theorem State.resetVf_dead (s : State) {port fn c : Nat} (hc : c < 1024) (ha : s.assigned (0x1000 + 4 * c) = (fn, port)) :
    ((s.resetVf port fn).ctx c).live = false := by
  refine State.ctx_live_of_unlisted (fun x hx hxc => s.resetVf_ctxs port fn x hx ?_)
  exact List.mem_filter.2 ⟨List.mem_range.2 (hxc ▸ hc), by rw [hxc, ha]; exact beq_self_eq_true _⟩

/-- FUNCTION_LEVEL_RESET of a virtual function (R397). -/
theorem functionResets (s : State) (port fn : Nat) (hp : port < 2) (h1 : 1 ≤ fn) (h2 : fn ≤ 32) (hf : (s.hostPort port).frz = false)
    (ht : s.power.tripped = false) (hs : s.settled = true) :
    ∃ t, exec (.functionLevelReset port fn) s = .next t ∧ ∀ c < 1024, s.assigned (0x1000 + 4 * c) = (fn, port) → (t.ctx c).live = false := by
  let s1 : State := { s with hosts := SMap.set s.hosts port ((s.hostPort port).closeFn fn) }
  have hpump : (s1.resetVf port fn).pump = s1.resetVf port fn := State.pump_settled (State.settled_resetVf port fn hs)
  refine ⟨s1.resetVf port fn, ?_, fun c hc ha => s1.resetVf_dead hc ha⟩
  have hlow : ¬ (2 ≤ port ∨ 32 < fn) := by omega
  have hfn : (fn != 0) = true := by simp; omega
  show execFunctionLevelReset port fn s = _
  unfold execFunctionLevelReset
  dsimp only
  rw [if_neg (by simpa [ht] using hlow), if_pos hfn, if_neg (by rw [hf]; decide)]
  exact congrArg _ hpump

/-! ## Requests of a host (R391 to R396) -/

theorem NSet.has_add_same (l : NSet) (x : Nat) : NSet.has (NSet.add l x) x = true := by
  rw [NSet.has_iff, NSet.mem_add]
  exact .inl rfl

theorem NSet.has_del_same (l : NSet) (x : Nat) : NSet.has (NSet.del l x) x = false := by
  rw [← Bool.not_eq_true, NSet.has_iff, NSet.mem_del]
  exact fun h => h.2 rfl

/-- A port that takes requests is not frozen. -/
theorem State.frz_of_portOpen {s : State} {port : Nat} (h : s.portOpen port = true) : (s.hostPort port).frz = false := by
  simp only [State.portOpen, Bool.and_eq_true, Bool.not_eq_true'] at h
  exact h.1.2

/-- A write of the first function's BAR0 is a write of the register that the offset names. -/
theorem hostWrite_bar0 (s : State) (port off : Nat) (v : BitVec 64) (ho : off < 2 ^ 32) (hp : port < 2) (ht : s.power.tripped = false)
    (hf : (s.hostPort port).frz = false) : exec (.hostWrite port (.bar0 0 off v)) s = exec (.registerWrite (.pf port) (devBase + off) v) s := by
  have hb : s.bar0 port 0 off = some (devBase + off) := by rw [State.bar0, if_pos rfl, if_pos ho]
  show execHostWrite port (.bar0 0 off v) s = .next (s.arrive (.pf port) (devBase + off) v)
  simp [execHostWrite, ht, hf, hb, Nat.not_le.2 hp]

/-- The masks of MSI-X vectors (R394). -/
theorem hostWrite_msix (s : State) (port fn vec : Nat) (hp : port < 2) (hfn : fn ≤ 32) (hv : vec < if fn = 0 then 2048 else 64)
    (ht : s.power.tripped = false) (ho : s.portOpen port = true) :
    (∃ t, exec (.hostWrite port (.msix fn vec true)) s = .next t ∧ NSet.has (t.hostPort port).opened (2048 * fn + vec) = false ∧ t.out = s.out) ∧
    ∃ t, exec (.hostWrite port (.msix fn vec false)) s = .next t ∧ NSet.has (t.hostPort port).opened (2048 * fn + vec) = true ∧
      NSet.has (t.hostPort port).pending (2048 * fn + vec) = false ∧
      t.out = (if NSet.has (s.hostPort port).pending (2048 * fn + vec) = true then s.out ++ [.irq port fn vec false] else s.out) := by
  have hexec : ∀ m, exec (.hostWrite port (.msix fn vec m)) s = .next (s.maskVector port fn vec m) := fun m => by
    show execHostWrite port (.msix fn vec m) s = _
    simp [execHostWrite, ht, State.frz_of_portOpen ho, ho, Nat.not_le.2 hp]
  have hin : (decide (32 < fn) || decide ((if fn = 0 then 2048 else 64) ≤ vec)) = false := by simp [hfn, hv]
  refine ⟨⟨_, hexec true, ?_⟩, ⟨_, hexec false, ?_⟩⟩ <;> unfold State.maskVector <;> simp only [hin, Bool.false_eq_true, if_false, if_true]
  · rw [State.hostPort_of rfl, if_pos rfl]
    exact ⟨NSet.has_del_same .., trivial⟩
  · rw [State.hostPort_of rfl, if_pos rfl]
    exact ⟨NSet.has_add_same .., NSet.has_del_same .., trivial⟩

/-- Requests at a frozen port that are to be answered (R396). -/
theorem hostReads_frozen (s : State) (port off n : Nat) (hp : port < 2) (ht : s.power.tripped = false) (hf : (s.hostPort port).frz = true) :
    exec (.hostWrite port (.bar0Read n off)) s = .next { s with out := s.out ++ [.abort port] } ∧
    exec (.hostWrite port (.bar2Read off n)) s = .next { s with out := s.out ++ [.abort port] } := by
  have hexec : ∀ req, nonPosted req = true → execHostWrite port req s = .next { s with out := s.out ++ [.abort port] } := fun req hr => by
    simp [execHostWrite, ht, hf, hr, Nat.not_le.2 hp, State.abortHost]
  exact ⟨hexec _ rfl, hexec _ rfl⟩

/-- A port that a write freezes. -/
theorem State.sameBytes_freezePort (s : State) (port a : Nat) : s.sameBytes (s.freezePort port a) :=
  State.sameBytes_of rfl rfl rfl rfl rfl (fun _ => rfl)

/-- Where Muslin is off, a host write is a write of the HOST path. -/
theorem State.hostStore_off {s : State} (h : ∀ c, s.muslinMode c = 0) (pa : Nat) (data : List Byte) :
    s.hostStore pa data = s.pathWrite .host s.next pa data := by
  simp [State.hostStore, h]

/-- Writes through BAR2 (R391, R395, R396). -/
theorem hostWrite_bar2 (s : State) (port off : Nat) (data : List (BitVec 8)) (hp : port < 2) (ht : s.power.tripped = false)
    (ho : s.portOpen port = true) (hin : s.inBar2 port off data.length = true) (hn : data.length ≤ 512) :
    let pa := s.bar2 port off
    pa + data.length ≤ 2 ^ 40 → s.settled = true → (∀ c, s.muslinMode c = 0) →
    (s.guarded port pa = false → s.guarded port (pa + data.length - 1) = false →
      ∃ t, exec (.hostWrite port (.bar2 off data)) s = .next t ∧ (∀ i < data.length, (t.pathByte .host (pa + i)).1 = data.getD i 0) ∧
        ∀ a p, p ≠ .host ∨ a < pa ∨ pa + data.length ≤ a → t.pathByte p a = s.pathByte p a) ∧
    (s.guarded port pa = true → ∃ t, exec (.hostWrite port (.bar2 off data)) s = .next t ∧ (t.hostPort port).frz = true ∧ (t.hostPort port).addr = pa / 4096 ∧
      s.sameBytes t) := by
  intro pa hpa hs hm
  have hexec : exec (.hostWrite port (.bar2 off data)) s = if s.guarded port pa then .next (s.freezePort port pa)
      else if s.guarded port (pa + data.length - 1) then .next (s.freezePort port (pa + data.length - 1)) else .next (s.hostStore pa data).pump := by
    show execHostWrite port (.bar2 off data) s = _
    have hpa' : s.bar2 port off + data.length ≤ 2 ^ 40 := hpa
    simp only [execHostWrite, ht, State.frz_of_portOpen ho, ho, hin, Nat.not_le.2 hp, Nat.not_lt.2 hn, Nat.not_lt.2 hpa', decide_false, Bool.not_true,
      Bool.or_self, Bool.false_eq_true, if_false]
    rfl
  constructor
  · intro h1 h2
    refine ⟨s.pathWrite .host s.next pa data, ?_, fun i hi => ?_, fun a p ha => ?_⟩
    · rw [hexec, h1, h2, State.hostStore_off hm, State.pump_settled ((s.pathWrite_settled ..).trans hs)]
      rfl
    · rw [State.pathByte_pathWrite, if_pos ⟨rfl, by omega, by omega⟩, Nat.add_sub_cancel_left]
    · rw [State.pathByte_pathWrite, if_neg]
      rintro ⟨rfl, h3, h4⟩
      rcases ha with ha | ha | ha
      · exact ha rfl
      · omega
      · omega
  · intro h1
    refine ⟨s.freezePort port pa, by rw [hexec, if_pos h1], ?_, ?_, s.sameBytes_freezePort port pa⟩ <;>
      rw [State.hostPort_of (s := s) (t := s.freezePort port pa) rfl, if_pos rfl]

/-- A read through BAR2 changes no byte, and returns those that the HOST path sees (R116). -/
theorem State.hostLoad_reads (s : State) (port pa n : Nat) : s.sameBytes (s.hostLoad port pa n) ∧
    .hostRead port pa ((List.range n).map (fun i => (s.pathByte .host (pa + i)).1)) ∈ (s.hostLoad port pa n).out := by
  unfold State.hostLoad
  extract_lets s1
  have h1 : s.SameReads s1 := foldl_inv s.SameReads _ (fun st i hst => hst.trans (st.sameReads_touch2 _ _)) _ s (.refl s)
  refine ⟨State.sameBytes_trans h1.sameBytes (State.sameBytes_of rfl rfl rfl rfl rfl (fun _ => rfl)), List.mem_append_right _ ?_⟩
  simp only [h1.pathByte, List.mem_singleton]

/-- Reads through BAR2 (R391, R395, R396). -/
theorem hostRead_bar2 (s : State) (port off n : Nat) (hp : port < 2) (ht : s.power.tripped = false) (ho : s.portOpen port = true)
    (hin : s.inBar2 port off n = true) (hn : n ≤ 4096) (hpa : s.bar2 port off + n ≤ 2 ^ 40) :
    ∃ t, exec (.hostWrite port (.bar2Read off n)) s = .next t ∧ s.sameBytes t ∧
      .hostRead port (s.bar2 port off) ((List.range n).map (fun i => (s.pathByte .host (s.bar2 port off + i)).1)) ∈ t.out := by
  refine ⟨s.hostLoad port (s.bar2 port off) n, ?_, s.hostLoad_reads port _ n⟩
  show execHostWrite port (.bar2Read off n) s = _
  simp only [execHostWrite, ht, State.frz_of_portOpen ho, ho, hin, Nat.not_le.2 hp, Nat.not_lt.2 hn, Nat.not_lt.2 hpa, decide_false, Bool.not_true,
    Bool.or_self, Bool.false_eq_true, if_false]

/-! ## A plain field (R8) -/

theorem inBlock_none {a base n size : Nat} (h : a < base ∨ base + n * size ≤ a) : inBlock a base n size = none := by
  unfold inBlock
  rw [if_neg]
  simp only [Bool.and_eq_true, decide_eq_true_eq]
  omega

/-- A write of a queue's ring base (R358). -/
theorem State.write_queueBlock (s : State) (who : Who) {q : Nat} (hq : q < 1024) (v : Word64) :
    s.write who (queueBlock q) v = s.setBits (queueBlock q) (bitMask 51 12) v := by
  have hmc : mcOf (queueBlock q) = none := by
    rw [mcOf, if_neg]
    rw [Bool.and_eq_true, decide_eq_true_eq, decide_eq_true_eq]
    simp only [mcBlock, queueBlock, devBase]
    omega
  have hq' : inBlock (queueBlock q) (queueBlock 0) 1024 0x40 = some (q, 0) := by
    have hdiff : queueBlock q - queueBlock 0 = 0x40 * q := by simp only [queueBlock, devBase]; omega
    rw [inBlock, if_pos, hdiff, Nat.mul_div_cancel_left q (by decide), Nat.mul_mod_right]
    rw [Bool.and_eq_true, decide_eq_true_eq, decide_eq_true_eq]
    simp only [queueBlock, devBase]
    omega
  unfold State.write
  rw [hmc, inBlock_none (base := tenantReg 0) (by simp only [tenantReg, queueBlock, devBase]; omega),
    inBlock_none (base := worldBlock 0) (by simp only [worldBlock, queueBlock, devBase]; omega),
    inBlock_none (base := schedBlock 0) (by simp only [schedBlock, queueBlock, devBase]; omega), hq']
  rfl

/-- A write of a plain field leaves every other register as it was (R8). -/
theorem plainFieldWrite (s : State) (who : Who) (q : Nat) (v : BitVec 64) (hq : q < 1024) (hr : s.boot.recov = false)
    (hw : s.mayWrite who (queueBlock q) = true) (hs : s.settled = true) :
    ∃ t, exec (.registerWrite who (queueBlock q) v) s = .next t ∧ bits64 (t.reg (queueBlock q)) 51 12 = bits64 v 51 12 ∧
      ∀ a, a ≠ queueBlock q → t.rd a = s.rd a := by
  refine ⟨s.setBits (queueBlock q) (bitMask 51 12) v, ?_, bits64_setBits s _ v 51 12 (by decide), fun a ha => s.rd_setBits_ne _ v ha⟩
  show Host.Outcome.next (s.arrive who (queueBlock q) v) = _
  unfold State.arrive
  rw [hr, if_neg (by decide), State.writeBy_of_mayWrite hw, s.write_queueBlock who hq,
    State.pump_settled (s := s.setBits (queueBlock q) (bitMask 51 12) v) ((State.settled_of_eq rfl rfl).trans hs)]

/-! ## Reads that clear (R113, R399, R436) -/

/-- TENANT_FAILS_READ by firmware (R113). -/
theorem tenantFailsRead_fw (s : State) (k : Nat) (hr : s.mayRead .fw (tenantReg k) = true) (hk : k < 64) :
    ∃ t, exec (.tenantFailsRead .fw k) s = .next t ∧ SMap.get t.fails k 0 = 0 :=
  ⟨s.tenantRead k, congrArg Host.Outcome.next (if_pos (by simp [hk, hr])), SMap.get_set_same ..⟩

/-- TENANT_FAILS_READ by a gang, of its own tenant (R338). -/
theorem tenantFailsRead_gang (s : State) (c : Nat) :
    ∃ t, exec (.tenantFailsRead (.gang c) (s.tenantOf c)) s = .next t ∧ SMap.get t.fails (s.tenantOf c) 0 = 0 :=
  ⟨s.tenantRead (s.tenantOf c), congrArg Host.Outcome.next (if_pos rfl), SMap.get_set_same ..⟩

theorem State.port_modPort_same (s : State) (pp : Nat) (f : Port → Port) : (s.modPort pp f).port pp = f (s.port pp) := SMap.get_set_same ..

/-- PORT_COUNTER_READ (R399). -/
theorem portCounterReads (s : State) (who : Who) (pp : Nat) (hp : pp < 2) (hr : s.mayRead who (portBlock pp) = true) :
    (∃ t, exec (.portCounterRead who pp 0x08) s = .next t ∧ (t.port pp).unmatched = 0 ∧ (t.port pp).full = 0 ∧ (t.port pp).long = (s.port pp).long) ∧
    (∃ t, exec (.portCounterRead who pp 0x10) s = .next t ∧ (t.port pp).long = 0 ∧ (t.port pp).nospawn = 0 ∧ (t.port pp).full = (s.port pp).full) := by
  have hexec : ∀ off, exec (.portCounterRead who pp off) s = .next (s.portCounters pp off) := fun off => if_pos (by simp [hp, hr])
  refine ⟨⟨_, hexec 0x08, ?_⟩, ⟨_, hexec 0x10, ?_⟩⟩ <;> (simp only [State.portCounters]; rw [State.port_modPort_same]; exact ⟨rfl, rfl, rfl⟩)

/-- THROTTLE_COUNT_READ (R436). -/
theorem throttleCountReads (s : State) (who : Who) (hr : s.mayRead who powerBlock = true) :
    ∃ t, exec (.throttleCountRead who) s = .next t ∧ t.power.thr = 0 :=
  ⟨_, if_pos hr, rfl⟩

/-! ## Counters (R411, R415) -/

/-- COUNTER_VALUE_WRITE (R411). -/
theorem counterValueWrites (s : State) (who : Who) (core n : Nat) (v : BitVec 64) (hc : core < 256) (hn : n < 8)
    (hw : s.mayWrite who (counterBlock core + 16 * n + 8) = true) :
    ∃ t, exec (.counterValueWrite who core n v) s = .next t ∧ bits64 (t.reg (counterBlock core + 16 * n + 8)) 47 0 = bits64 v 47 0 :=
  ⟨_, (if_pos (by simp [hc, hn])).trans (congrArg _ (State.writeBy_of_mayWrite hw _)), bits64_setBits s _ v 47 0 (by decide)⟩

/-- GINGHAM_CLEAR (R415). -/
theorem ginghamClears (s : State) (who : Who) (core : Nat) (v : BitVec 64) (hc : core < 256)
    (hw : s.mayWrite who (counterBlock core + 0x80) = true) (hv : v.getLsbD 11 = true) :
    ∃ t, exec (.ginghamClear who core v) s = .next t ∧ (t.core core).gingham = [] := by
  refine ⟨s.ginghamWrite core v, (if_pos hc).trans (congrArg _ (State.writeBy_of_mayWrite hw _)), ?_⟩
  rw [State.ginghamWrite, if_pos hv, State.core_modCore_same]

/-! ## Debug stops (R418, R419, R421) -/

theorem State.core_setBits (s : State) (a : Nat) (m v : Word64) (c : Nat) : (s.setBits a m v).core c = s.core c := rfl

/-- DEBUG_STOP and DEBUG_GO: a stop is requested, and one in force is released at the next cycle (R418, R419). -/
theorem debugStops (s : State) (who : Who) (core : Nat) (v : BitVec 64) (hc : core < 256) (hw : s.mayWrite who (counterBlock core + 0x900) = true) :
    (v.getLsbD 2 = true → bits64 v 1 0 ≠ 0 → (s.core core).stopped = false → (s.core core).stop = none →
      ∃ t, exec (.debugStop who core v) s = .next t ∧ (t.core core).stop = some (s.cycle + 64) ∧ (t.core core).stopDec = bits64 v 1 0) ∧
    (v.getLsbD 3 = true → v.getLsbD 2 = false → (s.core core).stopped = true →
      ∃ t, exec (.debugGo who core v) s = .next t ∧ (t.core core).tick.stopped = false ∧
        ∀ g, g.inSlot = true → g.gcore = core → (t.gangTick g).iss.stopped = false) := by
  have hwrite : s.writeBy who (counterBlock core + 0x900) (fun st => st.stopWrite core v) = s.stopWrite core v := State.writeBy_of_mayWrite hw _
  constructor
  · intro h2 hd hs hn
    have ht : (s.stopWrite core v).core core = { s.core core with stop := some (s.cycle + 64), stopDec := bits64 v 1 0 } := by
      unfold State.stopWrite
      simp [-BitVec.getLsbD_eq_getElem, h2, hs, hd, hn, State.core_setBits]
    exact ⟨_, (if_pos hc).trans (congrArg _ hwrite), by rw [ht], by rw [ht]⟩
  · intro h3 h2 hs
    have ht : (s.stopWrite core v).core core = { s.core core with go := true } := by
      unfold State.stopWrite
      simp [-BitVec.getLsbD_eq_getElem, h2, h3, hs, State.core_setBits]
    refine ⟨_, (if_pos hc).trans (congrArg _ hwrite), ?_, fun g hg hgc => ?_⟩
    · rw [ht, Core.tick]
      dsimp only
      split <;> simp
    · have hgo : (((s.stopWrite core v).core g.gcore).go && g.inSlot) = true := by rw [hgc, ht, hg]; rfl
      unfold State.gangTick
      dsimp only
      rw [if_pos hgo]

/-- The core of a number after a change of every listed core that keeps a part of it. -/
theorem SMap.get_mapped {α γ : Type} (m : SMap α) (f : Nat × α → Nat × α) (p : α → γ) (hk : ∀ c, (f c).1 = c.1) (hp : ∀ c, p (f c).2 = p c.2)
    (k : Nat) (d : α) : p (SMap.get (m.map f) k d) = p (SMap.get m k d) := by
  induction m with
  | nil => rfl
  | cons c m ih =>
    simp only [SMap.get, List.map_cons, SMap.find, hk] at ih ⊢
    split
    · exact hp c
    · exact ih

theorem Core.modL1_stopDec (c : Core) (pa : Nat) (f : L1Line → L1Line) : (c.modL1 pa f).stopDec = c.stopDec := by
  unfold Core.modL1
  split
  · rfl
  · split <;> rfl

/-- A path write leaves the decoders of a debug stop. -/
theorem State.pathWrite_stopDec (s : State) (p : Path) (c pa : Nat) (bs : List Byte) (po : Bool) (a : Asker) (core : Nat) :
    ((s.pathWrite p c pa bs po a).core core).stopDec = (s.core core).stopDec := by
  refine State.pathWrite_keep (fun st => (st.core core).stopDec) (fun _ _ => rfl) (fun _ _ _ => rfl) (fun st w pa n => ?_) ..
  refine SMap.get_mapped st.cores _ Core.stopDec (fun x => ?_) (fun x => ?_) core {} <;> split
  · rfl
  · rfl
  · rfl
  · exact Core.modL1_stopDec ..

/-- A stop in force holds every gang under its decoders that is not on its way out. -/
theorem State.holdStopped_stops {s : State} {core : Nat} (hs : (s.core core).stopped = true) {g : Gang} (hg : g ∈ s.holdStopped.gangs)
    (hi : g.inSlot = true) (hc : g.gcore = core) (hu : underStop (s.core core).stopDec g = true) (h1 : g.iss.yieldReq = false)
    (h2 : g.iss.yielding = false) (h3 : g.iss.exiting = false) : g.iss.stopped = true := by
  obtain ⟨x, -, hx⟩ := List.mem_map.1 hg
  dsimp only at hx
  split at hx
  · rw [← hx]
  · next hheld =>
    subst hx hc
    by_contra hn
    exact hheld (by simp [hs, hu, hi, h1, h2, h3, hn])

/-- DEBUG_STOP_EFFECT (R419). -/
theorem debugStopEffects (s : State) (core : Nat) (hs : (s.core core).stop ≠ none) (hf : (s.core core).freeze = 0)
    (hi : s.issuedUnder (s.core core) = false) :
    ∃ t, exec (.debugStopEffect core) s = .next t ∧ (t.core core).stopped = true ∧ (t.core core).stop = none ∧
      ∀ g ∈ t.gangs, g.inSlot = true → g.gcore = core → underStop (s.core core).stopDec g = true → g.iss.yieldReq = false → g.iss.yielding = false → g.iss.exiting = false →
        g.iss.stopped = true := by
  have hgo : ((s.core core).stop.isNone || (s.core core).frozen || s.issuedUnder (s.core core)) = false := by
    simp [Option.isSome_iff_ne_none.2 hs, Core.frozen, hf, hi]
  show ∃ t, execDebugStopEffect core s = .next t ∧ _
  unfold execDebugStopEffect
  extract_lets c mine base r
  have hdec : (r.1.core core).stopDec = (s.core core).stopDec :=
    foldl_inv (fun acc : State × Nat => (acc.1.core core).stopDec = (s.core core).stopDec) _
      (fun acc g h => (State.pathWrite_stopDec ..).trans h) mine (s, base) rfl
  rw [if_neg (by rw [hgo]; decide)]
  refine ⟨_, rfl, ?_⟩
  have hcore := State.core_modCore_same { r.1 with draw := s.draw + s.next + 1 } core (fun c => { c with stop := none, stopped := true })
  generalize State.modCore _ core _ = u at hcore ⊢
  have hu : (u.core core).stopDec = (s.core core).stopDec := by rw [hcore]; exact hdec
  refine ⟨?_, ?_, fun g hg h1 h2 h3 h4 h5 h6 => ?_⟩
  · show (u.core core).stopped = true
    rw [hcore]
  · show (u.core core).stop = none
    rw [hcore]
  · exact State.holdStopped_stops (by rw [hcore]) hg h1 h2 (hu ▸ h3) h4 h5 h6

/-- DEBUG_DATA_WRITE, of an s-register (R421). -/
theorem debugDataWrites (s : State) (who : Who) (core : Nat) (v : BitVec 64) (g : Gang) (ix who' : Nat) (hc : core < 256)
    (hw : s.mayWrite who (counterBlock core + 0x918) = true) (hg : s.dbGang core = some (g, 1, ix, who')) (hix : ix < 64) :
    ∃ t g', exec (.debugDataWrite who core v) s = .next t ∧ t.gang? g.uid = some g' ∧ g'.regs.s.get ix = v ∧ (t.core core).dberr = false := by
  have hmem : g ∈ s.gangs := by
    unfold State.dbGang at hg
    dsimp only at hg
    split at hg
    · cases hg
    · obtain ⟨x, hx, he⟩ := Option.map_eq_some_iff.1 hg
      have hxg : x = g := congrArg Prod.fst he
      exact hxg ▸ List.mem_of_find?_eq_some hx
  obtain ⟨x, hx⟩ : ∃ x, s.gang? g.uid = some x := Option.isSome_iff_exists.1 (List.find?_isSome.2 ⟨g, hmem, beq_self_eq_true _⟩)
  have hwr : s.dbWrite core v = (s.modGang g.uid (fun y => y.put { dst := .s ix, val := v })).modCore core (fun c => { c with dberr := false }) := by
    unfold State.dbWrite
    rw [hg]
    simp [dbDst, hix]
  refine ⟨s.dbWrite core v, x.put { dst := .s ix, val := v }, (if_pos hc).trans (congrArg _ (State.writeBy_of_mayWrite hw _)), ?_, ?_, ?_⟩
  · rw [hwr]
    exact State.gang?_modGang_same _ (fun y => Gang.put_uid y _) hx
  · simp [Gang.put, File.get_put]
  · rw [hwr, State.core_modCore_same]

/-- Settles O58: each clause by the lemma on its event, and the ends of the steps, in which nothing is due, by `State.pump_settled`. -/
theorem registerEvents : Obligations.RegisterEvents :=
  ⟨slotPins, formatWindowEnables, assignmentWrites, semaphoreTurns, portUnfreezes, functionResets, hostWrite_bar0, hostWrite_msix, hostReads_frozen,
    hostWrite_bar2, hostRead_bar2, plainFieldWrite, tenantFailsRead_fw, tenantFailsRead_gang, portCounterReads, throttleCountReads, counterValueWrites,
    ginghamClears, debugStops, debugStopEffects, debugDataWrites⟩

end Sys2Proof.Machine
end

section
/-! PROOFS. What a step runs (R27, R152, R371, R398, R419): the turn of the tape, and the attempt of a gang. -/

namespace Sys2Proof.Machine

/-! ## Turns (R27, R371, R398) -/

/-- What a request to the semaphore unit goes by is not the tape. -/
theorem State.unitRequest_tape (s : State) (l : List Turn) (i : Instr) : ({ s with tape := l } : State).unitRequest i = s.unitRequest i := rfl

theorem State.ahead_tape (s : State) (l : List Turn) (ts : List Turn) : ({ s with tape := l } : State).ahead ts = s.ahead ts := by
  induction ts with
  | nil => rfl
  | cons t ts ih => cases t <;> simp only [State.ahead, State.unitRequest_tape, ih]

theorem step_issue (s : State) (uid : Nat) : step { s with tape := .issue uid :: s.tape } = s.take (.issue uid) := rfl

/-- An event that waits for no request of the other port is the next turn. -/
theorem step_event {s : State} {i : Instr} (h : s.unitRequest i ≠ some 1 ∨ s.ahead s.tape = none) :
    step { s with tape := .event i :: s.tape } = s.take (.event i) := by
  unfold step State.nextTurn
  dsimp only
  rw [State.unitRequest_tape, State.ahead_tape]
  by_cases hu : s.unitRequest i = some 1
  · rw [if_pos hu, h.resolve_left (not_not_intro hu)]
  · rw [if_neg hu]

/-- A request of port 1 lets that of port 0 go ahead (R398). -/
theorem step_ahead {s : State} {i : Instr} {u : Turn} {rest : List Turn} (hu : s.unitRequest i = some 1) (ha : s.ahead s.tape = some (u, rest)) :
    step { s with tape := .event i :: s.tape } = State.take { s with tape := .event i :: rest } u := by
  unfold step State.nextTurn
  dsimp only
  rw [State.unitRequest_tape, State.ahead_tape, if_pos hu, ha]

theorem State.take_event {s : State} (h : s.power.tripped = false) (i : Instr) :
    s.take (.event i) = holdAfter (releaseAfter (exec i { s with turn := none })) :=
  if_neg (by rw [h]; exact Bool.false_ne_true)

/-- The turn of a gang that may issue, and that its decoder picks or that would only wait (R27). -/
theorem State.take_issue {s : State} {g : Gang} (h : s.power.tripped = false) (hg : s.gang? g.uid = some g) (hm : s.mayIssue g = true)
    (hp : s.isPick g = true ∨ s.isReady g = false) : s.take (.issue g.uid) = holdAfter (s.attempt g.uid) := by
  have hpick : (s.mayIssue g && (s.isPick g || !s.isReady g)) = true := by rcases hp with h | h <;> simp [hm, h]
  unfold State.take
  rw [if_neg (by rw [h]; exact Bool.false_ne_true)]
  dsimp only
  rw [hg]
  dsimp only
  rw [if_pos hpick]

/-- An attempt with nothing in its way runs the instruction that the fetched words decode to. -/
theorem State.attempt_words {s : State} {g : Gang} {ws : List Word64} {i : Instr} (hg : s.gang? g.uid = some g) (hc : g.cannotIssue s.cycle = false)
    (hs : s.strike g = none) (hf : s.fetch g = .words ws) (hd : decodeFetched g.ctl.vliw ws = some i) :
    s.attempt g.uid = fetchedBy (exec i { s with turn := some g.uid }) s g ws.length := by
  unfold State.attempt
  simp only [hg, hc, hs, hf, hd, Bool.false_eq_true, if_false]

/-- Settles O4: a turn of the tape is taken as it stands, or lets a request of port 0 ahead; an issue is an attempt with nothing in its way. -/
theorem stepRunsDecoded : Obligations.StepRunsDecoded := by
  refine ⟨fun s g ws i ht hg hm hp hc hs hf hd => ?_, fun s i ht h => ?_, fun s i u rest hu ha => step_ahead hu ha, fun s h => ?_⟩
  · rw [step_issue, State.take_issue ht hg hm hp, State.attempt_words hg hc hs hf hd]
  · rw [step_event h, State.take_event ht]
  · unfold step
    rw [h]

end Sys2Proof.Machine
end

section
/-! PROOFS. The instructions with a predicate result (R24, R193, R201, R202, R211, R218, R219). -/

namespace Sys2Proof.Machine

/-! ## Predicate results (R24, R193) -/

/-- The writes of an instruction with a predicate result: in executing strands, to the predicate that field d names. -/
def PredOnly (g : Gang) (i : Instr) (d : Reg) (ws : List RegWrite) : Prop :=
  ∀ w ∈ ws, ∃ st < 32, g.executes i st = true ∧ w.dst = .p st (d.toNat % 16)

theorem getLsbD_strandBit (st j : Nat) (h : st < 32) : (BitVec.ofNat 32 (2 ^ st)).getLsbD j = decide (j = st) := by
  rw [BitVec.getLsbD_ofNat, Nat.testBit_two_pow]
  by_cases hj : j = st
  · simp [hj, h]
  · simp [hj, Ne.symm hj]

/-- A write to a predicate changes one bit of it; one to p15 is discarded (R24). -/
theorem Gang.put_p_bit (g : Gang) {w : RegWrite} {st r n j : Nat} (hw : w.dst = .p st r) (hst : st < 32) (h : n ≠ r ∨ n = 15 ∨ j ≠ st) :
    (SMap.get (g.put w).ctl.p n 0).getLsbD j = (SMap.get g.ctl.p n 0).getLsbD j := by
  unfold Gang.put
  rw [hw]
  dsimp only
  by_cases hr : r = 15
  · rw [if_pos hr]
  · rw [if_neg hr]
    dsimp only
    rw [SMap.get_set]
    split
    · next he =>
      have hj : j ≠ st := by rcases h with h | h | h <;> [exact absurd he.symm h; exact absurd (he.trans h) hr; exact h]
      subst he
      by_cases h32 : j < 32
      · split <;> simp only [BitVec.getLsbD_or, BitVec.getLsbD_and, BitVec.getLsbD_not, getLsbD_strandBit st j hst, hj, h32, decide_false, decide_true,
          Bool.or_false, Bool.not_false, Bool.and_true]
      · rw [BitVec.getLsbD_of_ge _ _ (by omega), BitVec.getLsbD_of_ge _ _ (by omega)]
    · rfl

theorem PredOnly.putAll_p {g : Gang} {i : Instr} {d : Reg} {ws : List RegWrite} (hw : PredOnly g i d ws) {n st : Nat}
    (h : n ≠ d.toNat % 16 ∨ n = 15 ∨ g.executes i st = false) :
    (SMap.get (g.putAll ws).ctl.p n 0).getLsbD st = (SMap.get g.ctl.p n 0).getLsbD st := by
  refine Gang.putAll_keep (fun x => (SMap.get x.ctl.p n 0).getLsbD st) ws g (fun w hmem y => ?_)
  obtain ⟨j, hj, he, hd⟩ := hw w hmem
  refine Gang.put_p_bit y hd hj (h.imp_right (Or.imp_right ?_))
  rintro hst rfl
  exact Bool.false_ne_true (hst.symm.trans he)

/-- Predicate writes leave the registers. -/
theorem PredOnly.putAll_regs {g : Gang} {i : Instr} {d : Reg} {ws : List RegWrite} (hw : PredOnly g i d ws) :
    (g.putAll ws).regs = g.regs ∧ (g.putAll ws).ctl.b = g.ctl.b ∧ (g.putAll ws).ctl.fx = g.ctl.fx := by
  have key : ∀ w ∈ ws, ∀ y : Gang, (y.put w).regs = y.regs ∧ (y.put w).ctl.b = y.ctl.b ∧ (y.put w).ctl.fx = y.ctl.fx := by
    intro w hmem y
    obtain ⟨j, _, _, hd⟩ := hw w hmem
    unfold Gang.put
    rw [hd]
    dsimp only
    split <;> exact ⟨rfl, rfl, rfl⟩
  exact ⟨Gang.putAll_keep Gang.regs ws g (fun w hm y => (key w hm y).1), Gang.putAll_keep (fun x => x.ctl.b) ws g (fun w hm y => (key w hm y).2.1),
    Gang.putAll_keep (fun x => x.ctl.fx) ws g (fun w hm y => (key w hm y).2.2)⟩

/-- A strand that executes is one of the 32. -/
theorem Gang.executes_lt {g : Gang} {i : Instr} {st : Nat} (h : g.executes i st = true) : st < 32 := by
  simp only [Gang.executes, Bool.and_eq_true, decide_eq_true_eq] at h
  exact h.1.1

theorem simtEnv_dstP_predOnly (s : State) (g : Gang) (i : Instr) (ci ct : Nat) (d : Reg) (b : Nat → Bool) :
    PredOnly g i d (((simtEnv s (g.charge ci ct) i).parts.map (fun st => (simtEnv s (g.charge ci ct) i).dstP d st (b st))).flatten) := by
  intro w hw
  simp only [List.mem_flatten, List.mem_map, simtEnv_parts, List.mem_filter] at hw
  obtain ⟨l, ⟨st, ⟨_, he⟩, rfl⟩, hw⟩ := hw
  refine ⟨st, Gang.executes_lt he, he, ?_⟩
  rw [List.mem_singleton.1 hw]
  rfl

/-- An instruction whose meaning is a predicate in each executing strand completes. -/
theorem run_pred {i : Instr} {m : Sem} {s : State} {g : Gang} {d : Reg} (h : Issues s g i) (hp : g.regs.poison = [])
    (hct : m.ct (simtEnv s g i) = 0) (xs : List Src) (b : Nat → Bool) (fx : Nat → Fx)
    (hop : m.op (simtEnv s (g.charge (ciOf i.maj) 0) i) = (simtEnv s (g.charge (ciOf i.maj) 0) i).each xs
      (fun st => ((simtEnv s (g.charge (ciOf i.maj) 0) i).dstP d st (b st), fx st))) :
    ∃ t g', run i m s = .next t ∧ t.gang? g.uid = some g' ∧ g'.pc = g.pc + 8 ∧ Leaves g g' i 0 ∧
      g'.regs.v = g.regs.v ∧ g'.regs.s = g.regs.s ∧ g'.regs.g = g.regs.g ∧ g'.regs.h = g.regs.h ∧ g'.regs.pt = g.regs.pt ∧ g'.ctl.b = g.ctl.b ∧
      (∀ n st, n ≠ d.toNat % 16 ∨ n = 15 ∨ g.executes i st = false →
        (SMap.get g'.ctl.p n 0).getLsbD st = (SMap.get g.ctl.p n 0).getLsbD st) ∧
      g'.ctl.fx &&& g.ctl.fx = g.ctl.fx := by
  rw [Env.each_ok (e := simtEnv s (g.charge (ciOf i.maj) 0) i) hp, List.map_map] at hop
  have hw := simtEnv_dstP_predOnly s g i (ciOf i.maj) 0 d b
  obtain ⟨hr, hb, hf⟩ := hw.putAll_regs
  obtain ⟨t, g', h1, h2, hl, hpc, hregs, hps, hbs, hfx⟩ := run_passes h hct (Nat.zero_le _) hop rfl rfl
  replace hregs := hregs.trans hr
  refine ⟨t, g', h1, h2, hpc, hl, by rw [hregs], by rw [hregs], by rw [hregs], by rw [hregs], by rw [hregs], hbs.trans hb, fun n st hn => ?_, ?_⟩
  · rw [hps]
    exact hw.putAll_p hn
  · rw [hfx.trans (congrArg (fun z => fxSet z _) hf), fxSet_keeps]

/-- Settles O11: each of the seven instructions gives a predicate in each executing strand. -/
theorem predicateCompletes : Obligations.PredicateCompletes := by
  intro s g i d hd h hp
  unfold predDest at hd
  split at hd
  case h_8 => cases hd
  all_goals
    cases hd
    exact run_pred h hp rfl _ _ _ rfl

end Sys2Proof.Machine
end

section
/-! SUPPORT. Instructions that write no register: what an issue with an effect on other parts of its gang or of the state leaves, and that it changes no byte. -/

namespace Sys2Proof.Machine

theorem State.noLateTrap_modGang {s : State} (u : Nat) {f : Gang → Gang} (hf : ∀ x, (f x).late = x.late) (h : s.noLateTrap) : (s.modGang u f).noLateTrap := by
  intro x hx
  obtain ⟨y, hy, rfl⟩ := List.mem_map.1 (show x ∈ s.gangs.map (fun g => if g.uid == u then f g else g) from hx)
  split
  · exact noLate_of_late (hf y) (h y hy)
  · exact h y hy

/-- The gang of an issue, and that no trap waits, in the environment in which its charge has been taken. -/
theorem Issues.charged {s : State} {g : Gang} {i : Instr} (h : Issues s g i) (ci ct : Nat) :
    (simtEnv s (g.charge ci ct) i).s.gang? g.uid = some (g.charge ci ct) ∧ (simtEnv s (g.charge ci ct) i).s.noLateTrap :=
  ⟨simtEnv_gang h.here (g.charge ci ct) rfl i, simtEnv_noLateTrap h.here h.calm (g.charge ci ct) rfl i⟩

/-- An instruction that writes no register completes: its next state, and what that leaves of its gang, told from a gang g0 that holds the
effect on the gang itself. -/
theorem run_keeps {i : Instr} {m : Sem} {s st : State} {g g0 g1 : Gang} {nx : Option Word64} (h : Issues s g i) (hct : m.ct (simtEnv s g i) = 0)
    (hop : m.op (simtEnv s (g.charge (ciOf i.maj) 0) i) = .ok { st := st, next := nx }) (hl : st.noLateTrap) (hg1 : st.gang? g.uid = some g1)
    (hp1 : g1.pass = (g0.charge (ciOf i.maj) 0).pass) (h0 : g0.iss.sealTo = none ∧ g0.iss.splitTo = none) :
    ∃ t g', run i m s = .next t ∧ t = State.commit i (simtEnv s (g.charge (ciOf i.maj) 0) i) { st := st, next := nx } (ciOf i.maj) 0 ∧
      t.gang? g.uid = some g' ∧ g'.pc = nx.getD (g.pc + 8) ∧ Leaves g0 g' i 0 ∧ keepsRegs g0 g' ∧
      (i.seals = false → g'.pass = ((g0.charge (ciOf i.maj) 0).issueMarks { st := st, next := nx } (g.pc + 8) (ciOf i.maj) 0).pass) := by
  obtain ⟨t, g', hr, hg', hlv, hpc, hregs, hp, hb, hfx⟩ := run_leaves h hct (Nat.zero_le _) hop hl hg1 hp1 h0
  have hrun := run_ok h (hct ▸ Nat.zero_le _) (hct ▸ hop)
  rw [hct] at hrun
  have ht := Host.Outcome.next.inj (hr.symm.trans hrun)
  have hs1 : g1.iss.sealTo = none ∧ g1.iss.splitTo = none :=
    ⟨(congrArg (fun z => z.iss.sealTo) hp1).trans h0.1, (congrArg (fun z => z.iss.splitTo) hp1).trans h0.2⟩
  obtain ⟨g2, hg2, _, hpass⟩ := State.commit_gang (i := i) (e := simtEnv s (g.charge (ciOf i.maj) 0) i) (f := { st := st, next := nx })
    (ci := ciOf i.maj) (ct := 0) hg1 hl hs1.1 hs1.2
  have he : g2 = g' := Option.some.inj (hg2.symm.trans (ht ▸ hg'))
  refine ⟨t, g', hr, ht, hg', hpc, hlv, ⟨hregs, hp, hb, hfx.trans (fxSet_zero _)⟩, fun hs => ?_⟩
  rw [← he, hpass hs]
  exact Gang.issueMarks_pass hp1 _ _ _ _

/-- The same where the effect is a change of the gang alone. -/
theorem run_modGang {i : Instr} {m : Sem} {s : State} {g g0 : Gang} {F : Gang → Gang} {nx : Option Word64} (h : Issues s g i)
    (hct : m.ct (simtEnv s g i) = 0)
    (hop : m.op (simtEnv s (g.charge (ciOf i.maj) 0) i) = .ok { st := (simtEnv s (g.charge (ciOf i.maj) 0) i).s.modGang g.uid F, next := nx })
    (hu : ∀ x, (F x).uid = x.uid) (hF : ∀ x, (F x).late = x.late) (hp : (F (g.charge (ciOf i.maj) 0)).pass = (g0.charge (ciOf i.maj) 0).pass)
    (h0 : g0.iss.sealTo = none ∧ g0.iss.splitTo = none) :
    ∃ t g', run i m s = .next t ∧
      t = State.commit i (simtEnv s (g.charge (ciOf i.maj) 0) i) { st := (simtEnv s (g.charge (ciOf i.maj) 0) i).s.modGang g.uid F, next := nx } (ciOf i.maj) 0 ∧
      t.gang? g.uid = some g' ∧ g'.pc = nx.getD (g.pc + 8) ∧ Leaves g0 g' i 0 ∧ keepsRegs g0 g' ∧
      (i.seals = false → g'.pass = ((g0.charge (ciOf i.maj) 0).issueMarks
        { st := (simtEnv s (g.charge (ciOf i.maj) 0) i).s.modGang g.uid F, next := nx } (g.pc + 8) (ciOf i.maj) 0).pass) :=
  run_keeps h hct hop (State.noLateTrap_modGang _ hF (h.charged _ _).2) (State.gang?_modGang_same F hu (h.charged _ _).1) hp h0

/-- The same where nothing but the address changes. -/
theorem run_goes {i : Instr} {m : Sem} {s : State} {g : Gang} {nx : Option Word64} (h : Issues s g i) (hct : m.ct (simtEnv s g i) = 0)
    (hop : m.op (simtEnv s (g.charge (ciOf i.maj) 0) i) = .ok { st := (simtEnv s (g.charge (ciOf i.maj) 0) i).s, next := nx }) :
    ∃ t g', run i m s = .next t ∧
      t = State.commit i (simtEnv s (g.charge (ciOf i.maj) 0) i) { st := (simtEnv s (g.charge (ciOf i.maj) 0) i).s, next := nx } (ciOf i.maj) 0 ∧
      t.gang? g.uid = some g' ∧ g'.pc = nx.getD (g.pc + 8) ∧ Leaves g g' i 0 ∧ keepsRegs g g' := by
  obtain ⟨t, g', h1, h2, h3, h4, h5, h6, _⟩ := run_keeps h hct hop (h.charged _ _).2 (h.charged _ _).1 rfl h.unsealed
  exact ⟨t, g', h1, h2, h3, h4, h5, h6⟩

/-! ## Calm states -/

/-- What calm rests on: the operations in flight, the marks of the gangs and the counter registers. -/
theorem State.calmFor_of {s t : State} {g : Gang} (hf : ∀ f ∈ t.flights, f ∈ s.flights ∨ f.releases = false)
    (hg : ∀ x ∈ t.gangs, ∃ y ∈ s.gangs, x.iss.sealTo = y.iss.sealTo ∧ x.iss.splitTo = y.iss.splitTo ∧ x.iss.mseal = y.iss.mseal)
    (hd : t.dev = s.dev) (h : s.calmFor g = true) : t.calmFor g = true := by
  simp only [State.calmFor, Bool.and_eq_true, List.all_eq_true, Bool.not_eq_true'] at h ⊢
  obtain ⟨⟨⟨h1, h2⟩, h3⟩, h4⟩ := h
  refine ⟨⟨⟨fun f hm => (hf f hm).elim (h1 f) id, fun x hm => ?_⟩, ?_⟩, ?_⟩
  · obtain ⟨y, hy, a, b, c⟩ := hg x hm
    rw [a, b, c]
    exact h2 y hy
  · simpa only [State.reg_of hd] using h3
  · simpa only [State.reg_of hd] using h4

theorem State.calmFor_modGang {s : State} {g : Gang} (u : Nat) {f : Gang → Gang}
    (hf : ∀ x, (f x).iss.sealTo = x.iss.sealTo ∧ (f x).iss.splitTo = x.iss.splitTo ∧ (f x).iss.mseal = x.iss.mseal) (h : s.calmFor g = true) :
    (s.modGang u f).calmFor g = true := by
  refine State.calmFor_of (s := s) (fun x hx => Or.inl hx) (fun x hx => ?_) rfl h
  obtain ⟨y, hy, rfl⟩ := List.mem_map.1 (show x ∈ s.gangs.map (fun g => if g.uid == u then f g else g) from hx)
  refine ⟨y, hy, ?_⟩
  split
  · exact hf y
  · exact ⟨rfl, rfl, rfl⟩

/-- Charging the gang leaves a calm state calm. -/
theorem State.calmFor_charged {s : State} {g : Gang} (hg : s.gang? g.uid = some g) (h : s.calmFor g = true) (ci ct : Nat) (i : Instr) :
    (simtEnv s (g.charge ci ct) i).s.calmFor g = true := by
  refine State.calmFor_of (s := s) (fun x hx => Or.inl hx) (fun x hx => ?_) rfl h
  obtain ⟨y, hy, rfl⟩ := List.mem_map.1 (show x ∈ s.gangs.map (fun z => if z.uid == (g.charge ci ct).uid then g.charge ci ct else z) from hx)
  split
  · exact ⟨g, State.gang?_mem hg, rfl, rfl, rfl⟩
  · exact ⟨y, hy, rfl, rfl, rfl⟩

theorem State.sameBytes_modGang (s : State) (u : Nat) (f : Gang → Gang) : s.sameBytes (s.modGang u f) :=
  State.sameBytes_of rfl rfl rfl rfl rfl (fun _ => rfl)

/-- An issue whose effect is a change of the gang alone changes no byte. -/
theorem State.commit_modGang_bytes {s : State} {g : Gang} {i : Instr} {F : Gang → Gang} {nx : Option Word64} (h : Issues s g i) (hq : s.calmFor g = true)
    (hF : ∀ x, (F x).late = x.late)
    (hi : ∀ x, (F x).iss.sealTo = x.iss.sealTo ∧ (F x).iss.splitTo = x.iss.splitTo ∧ (F x).iss.mseal = x.iss.mseal) (hs : i.seals = false) :
    s.sameBytes (State.commit i (simtEnv s (g.charge (ciOf i.maj) 0) i)
      { st := (simtEnv s (g.charge (ciOf i.maj) 0) i).s.modGang g.uid F, next := nx } (ciOf i.maj) 0) := by
  refine State.sameBytes_trans (State.sameBytes_of rfl rfl rfl rfl rfl (fun _ => rfl)) (State.commit_bytes ?_ ?_ hs)
  · exact State.calmFor_modGang _ hi (State.calmFor_charged h.here hq _ _ i)
  · exact State.noLateTrap_modGang _ hF (h.charged _ _).2

/-- A calm issue leaves the contexts as its effect has them. -/
theorem State.commit_ctx {i : Instr} {e : Env} {f : Eff} {ci ct : Nat} (hq : f.st.calmFor e.g = true) (hl : f.st.noLateTrap) (hs : i.seals = false) :
    (State.commit i e f ci ct).ctx = f.st.ctx := by
  obtain ⟨F, _, h⟩ := State.commit_calm (ci := ci) (ct := ct) hq hl hs
  rw [h]
  unfold State.firstIssue
  split <;> rfl

end Sys2Proof.Machine
end

section
/-! PROOFS. The control instructions of the SIMT decoder (R35, R37, R39, R207, R265, R269, R270): branches, exits, the change of decoder and the hints. -/

namespace Sys2Proof.Machine

/-! ## Strands and targets -/

theorem Env.acts_simt (s : State) (g : Gang) (i : Instr) (ci ct : Nat) :
    (simtEnv s (g.charge ci ct) i).acts = true ↔ ∃ st, g.executes i st = true := by
  unfold Env.acts
  rw [simtEnv_vliw, if_neg Bool.false_ne_true, simtEnv_parts]
  constructor
  · intro h
    obtain ⟨st, hst⟩ := List.exists_mem_of_ne_nil _ (show (List.range 32).filter (g.executes i) ≠ [] by simpa using h)
    exact ⟨st, (List.mem_filter.1 hst).2⟩
  · rintro ⟨st, he⟩
    have : st ∈ (List.range 32).filter (g.executes i) := List.mem_filter.2 ⟨List.mem_range.2 (Gang.executes_lt he), he⟩
    simpa using List.ne_nil_of_mem this

theorem getLsbD_maskOf {l : List Nat} (h : ∀ st ∈ l, st < 32) (j : Nat) : (maskOf l).getLsbD j = decide (j ∈ l) := by
  have key : ∀ (l : List Nat) (m : Word32), (∀ st ∈ l, st < 32) →
      (l.foldl (fun m i => m ||| BitVec.ofNat 32 (2 ^ i)) m).getLsbD j = (m.getLsbD j || decide (j ∈ l)) := by
    intro l
    induction l with
    | nil => intro m _; simp
    | cons st l ih =>
      intro m hl
      rw [List.foldl_cons, ih _ (fun x hx => hl x (List.mem_cons_of_mem _ hx)), BitVec.getLsbD_or, getLsbD_strandBit st j (hl st (List.mem_cons_self ..)),
        Bool.or_assoc, ← Bool.decide_or]
      simp only [List.mem_cons]
  rw [maskOf, key l 0 h]
  simp

/-- The mask of the strands that execute. -/
def Gang.strands (g : Gang) (i : Instr) : Word32 := maskOf ((List.range 32).filter (g.executes i))

theorem Gang.getLsbD_strands (g : Gang) (i : Instr) (st : Nat) : (g.strands i).getLsbD st = g.executes i st := by
  unfold Gang.strands
  rw [getLsbD_maskOf (fun j hj => List.mem_range.1 (List.mem_filter.1 hj).1)]
  cases he : g.executes i st with
  | false => simp [he]
  | true => simp [he, Gang.executes_lt he]

theorem Gang.strands_eq_iff (g : Gang) (i : Instr) (m : Word32) : g.strands i = m ↔ ∀ st < 32, g.executes i st = m.getLsbD st := by
  constructor
  · rintro rfl st _
    exact (g.getLsbD_strands i st).symm
  · intro h
    apply BitVec.eq_of_getLsbD_eq
    intro st hst
    rw [g.getLsbD_strands, h st hst]

theorem Gang.strands_eq_zero (g : Gang) (i : Instr) : g.strands i = 0 ↔ ¬ ∃ st, g.executes i st = true := by
  rw [g.strands_eq_iff]
  constructor
  · rintro h ⟨st, he⟩
    have := h st (Gang.executes_lt he)
    simp [he] at this
  · intro h st _
    cases he : g.executes i st with
    | false => simp
    | true => exact absurd ⟨st, he⟩ h

/-- Only active strands execute. -/
theorem Gang.strands_eq_active (g : Gang) (i : Instr) :
    g.strands i = g.ctl.active ↔ ∀ st < 32, g.ctl.active.getLsbD st = true → g.executes i st = true := by
  rw [g.strands_eq_iff]
  refine forall₂_congr (fun st _ => ?_)
  cases ha : g.ctl.active.getLsbD st with
  | true => simp
  | false =>
    have : g.executes i st = false := by simp [Gang.executes, ha]
    simp [this]

theorem simtEnv_mask (s : State) (g : Gang) (i : Instr) (ci ct : Nat) : maskOf (simtEnv s (g.charge ci ct) i).parts = g.strands i := by
  rw [simtEnv_parts]
  rfl

@[simp] theorem Gang.charge_ctl (g : Gang) (ci ct : Nat) : (g.charge ci ct).ctl = g.ctl := rfl

/-- The address in a branch register lies in the address space (R262). -/
theorem checkTarget_branch {b : BitVec 56} (h : bits64 (b.setWidth 64) 2 0 = 0) : checkTarget (b.setWidth 64) = none := by
  have hb := b.isLt
  have h2 : bits64 (b.setWidth 64) 63 56 = 0 := by
    unfold bits64 field
    rw [BitVec.toNat_setWidth]
    omega
  unfold checkTarget
  rw [if_neg (by simp [h]), if_neg (by simp [h2])]

theorem transfer_branch {b : BitVec 56} (h : bits64 (b.setWidth 64) 2 0 = 0) (st : State) (ws : List RegWrite) :
    transfer st ws (b.setWidth 64) = .ok { st := st, writes := ws, next := some (b.setWidth 64) } := by
  unfold transfer
  rw [checkTarget_branch h]

/-! ## Branches (R35, R265) -/

/-- A transfer of the whole gang: to the target where its condition holds, else on. -/
theorem run_goIf {i : Instr} {m : Sem} {s : State} {g : Gang} {n : Nat} {c : Bool} (h : Issues s g i) (hct : m.ct (simtEnv s g i) = 0)
    (hop : m.op (simtEnv s (g.charge (ciOf i.maj) 0) i) = goIf (simtEnv s (g.charge (ciOf i.maj) 0) i) c n)
    (ht : bits64 ((g.b n).setWidth 64) 2 0 = 0) :
    ∃ t g', run i m s = .next t ∧ t.gang? g.uid = some g' ∧ g'.pc = (if c = true then (g.b n).setWidth 64 else g.pc + 8) ∧
      Leaves g g' i 0 ∧ keepsRegs g g' := by
  cases c with
  | true =>
    obtain ⟨t, g', h1, _, h3, h4, h5, h6⟩ := run_goes h hct (hop.trans (transfer_branch ht _ _))
    exact ⟨t, g', h1, h3, h4, h5, h6⟩
  | false =>
    obtain ⟨t, g', h1, _, h3, h4, h5, h6⟩ := run_goes (nx := none) h hct hop
    exact ⟨t, g', h1, h3, h4, h5, h6⟩

section Br
variable {s : State} {g : Gang} {h : Hd} {x : BF}

/-- BR where the strands of the gang agree. -/
theorem semBr_whole {ci ct : Nat} (hw : g.strands (.br h x) = 0 ∨ g.strands (.br h x) = g.ctl.active) :
    (semBr h x).op (simtEnv s (g.charge ci ct) (.br h x)) =
      goIf (simtEnv s (g.charge ci ct) (.br h x)) (g.strands (.br h x) != 0) x.tgt.toNat := by
  simp only [semBr, simtEnv_vliw, simtEnv_mask]
  rw [if_neg Bool.false_ne_true, if_pos]
  rcases hw with hw | hw
  · simp [hw]
  · simp [hw, Gang.charge]

/-- The control state after a divergence: the strands of T go on, and the others' way is pushed with the join (R35). -/
def Ctl.diverge (c : Ctl) (T : Word32) (other join : BitVec 56) : Ctl :=
  { c with active := T, stack := .div false c.active (c.active &&& ~~~T) other join :: c.stack }

/-- BR where they do not: those that take it become the active mask, and the others' way is pushed (R35). -/
theorem semBr_splits {ci ct : Nat} (h0 : g.strands (.br h x) ≠ 0) (ha : g.strands (.br h x) ≠ g.ctl.active)
    (ht : bits64 ((g.b x.tgt.toNat).setWidth 64) 2 0 = 0) (hj : bits64 ((g.b x.jn.toNat).setWidth 64) 2 0 = 0) (hst : g.ctl.stack.length < 16) :
    (semBr h x).op (simtEnv s (g.charge ci ct) (.br h x)) =
      .ok { st := (simtEnv s (g.charge ci ct) (.br h x)).s.modCtl g.uid (fun c => { c with
              active := g.strands (.br h x)
              stack := .div false g.ctl.active (g.ctl.active &&& ~~~g.strands (.br h x)) ((g.pc + 8).setWidth 56) (g.b x.jn.toNat) :: c.stack })
            next := some ((g.b x.tgt.toNat).setWidth 64) } := by
  have hwhole : ¬ ((g.strands (.br h x) == 0 || g.strands (.br h x) == g.ctl.active) = true) := by
    rw [Bool.or_eq_true, beq_iff_eq, beq_iff_eq, not_or]
    exact ⟨h0, ha⟩
  have hroom : ¬ g.ctl.stack.length ≥ Config.stackEntries := Nat.not_le.2 hst
  have hcheck : (checkTarget ((simtEnv s (g.charge ci ct) (.br h x)).bAddr x.tgt.toNat)).or
      (checkTarget ((simtEnv s (g.charge ci ct) (.br h x)).bAddr x.jn.toNat)) = none :=
    (congrArg₂ Option.or (checkTarget_branch ht) (checkTarget_branch hj) : _)
  simp only [semBr, simtEnv_vliw, simtEnv_mask, simtEnv_g, Gang.charge_ctl, hcheck]
  rw [if_neg Bool.false_ne_true, if_neg hwhole, if_neg hroom]
  have hb : ((simtEnv s (g.charge ci ct) (.br h x)).bAddr x.jn.toNat).setWidth 56 = g.b x.jn.toNat :=
    (BitVec.setWidth_setWidth_of_le _ (by decide)).trans (BitVec.setWidth_eq _)
  rw [hb]
  rfl

end Br

/-- Settles O36: BR goes with the gang, or splits it; br.any and br.all take it whole. -/
theorem branches : Obligations.Branches := by
  intro s g h x tgt goes any all ht
  have go : ∀ {i : Instr} {m : Sem} {c : Bool} {a : Word64}, Issues s g i → exec i s = run i m s → m.ct (simtEnv s g i) = 0 →
      m.op (simtEnv s (g.charge (ciOf i.maj) 0) i) = goIf (simtEnv s (g.charge (ciOf i.maj) 0) i) c x.tgt.toNat → (if c = true then tgt else g.pc + 8) = a →
      goes i a := by
    rintro i m c a hi hx hct hop rfl
    obtain ⟨t, g', h1, h2, h3, h4, h5⟩ := run_goIf hi hct hop ht
    exact ⟨t, g', hx.trans h1, h2, h3, h4, h5⟩
  have hany : ∀ i, any i ↔ g.strands i ≠ 0 := fun i => by rw [ne_eq, g.strands_eq_zero i, not_not]
  have hall : ∀ i, all i ↔ g.strands i = g.ctl.active := fun i => (g.strands_eq_active i).symm
  refine ⟨fun hi ha hl => ?_, fun hi ha => ?_, fun hi ha hl hj hst => ?_, fun hi => ⟨fun ha => ?_, fun ha => ?_⟩, fun hi => ⟨fun hl => ?_, fun hl => ?_⟩⟩
  · exact go hi rfl rfl (semBr_whole (Or.inr ((hall _).1 hl))) (if_pos (by simpa using (hany _).1 ha))
  · have h0 := not_not.1 (fun hne => ha ((hany _).2 hne))
    exact go hi rfl rfl (semBr_whole (Or.inl h0)) (if_neg (by simp [h0]))
  · obtain ⟨t, g', h1, _, h3, h4, h5, h6, _⟩ := run_modGang
      (g0 := { g with ctl := g.ctl.diverge (g.strands (.br h x)) ((g.pc + 8).setWidth 56) (g.b x.jn.toNat) }) hi rfl
      (semBr_splits ((hany _).1 ha) (fun he => hl ((hall _).2 he)) ht hj hst) (fun _ => rfl) (fun _ => rfl) rfl hi.unsealed
    have hact : g'.ctl.active = g.strands (.br h x) := congrArg Ctl.active h5.ctl
    have hstack := congrArg Ctl.stack h5.ctl
    refine ⟨t, g', h1, h3, h4, h6, fun st _ => ?_, ?_, ?_⟩
    · rw [hact, g.getLsbD_strands]
    · rw [hact, hstack]
      exact h5
    · rw [hact]
      exact hstack
  · exact go hi rfl rfl (c := true) (congrArg (fun c => goIf _ c _) ((Env.acts_simt ..).2 ha)) rfl
  · exact go hi rfl rfl (c := false) (congrArg (fun c => goIf _ c _) (Bool.eq_false_iff.2 (mt (Env.acts_simt ..).1 ha))) rfl
  · exact go hi rfl rfl (c := true) (congrArg (fun c => goIf _ c _) (by rw [simtEnv_mask]; exact beq_iff_eq.2 ((hall _).1 hl))) rfl
  · exact go hi rfl rfl (c := false) (congrArg (fun c => goIf _ c _) (by rw [simtEnv_mask]; exact beq_eq_false_iff_ne.2 (mt (hall _).2 hl))) rfl

/-! ## The change of decoder and the hints (R39, R69, R207, R270) -/

/-- A yield request as two changes of the gang: its marks, and the status of its monitor (R68, R102). -/
theorem State.requestYield_eq {s : State} {uid : Nat} {g : Gang} (h : s.gang? uid = some g) (toDcp : Bool) :
    s.requestYield uid toDcp = (s.modGang uid (fun x => { x with iss := { x.iss with yieldReq := true, toDcp := x.iss.toDcp || toDcp } })).modGang uid
      (fun x => { x with monitor := g.monitor.map (fun m => { m with fired := m.fired.or (some 4) }) }) := by
  unfold State.requestYield
  dsimp only
  rw [State.gang?_modGang_same (fun x => { x with iss := { x.iss with yieldReq := true, toDcp := x.iss.toDcp || toDcp } }) (fun _ => rfl) h]

/-- FUSE of a converged gang (R39). -/
theorem fuse_converged {s : State} {g : Gang} {h : Hd} {x : BF} (hi : Issues s g (.fuse h x)) (he : ∃ st, g.executes (.fuse h x) st = true)
    (hv : s.vres g.gcore ≠ 0) (ha : g.ctl.active = 0xFFFFFFFF) (hn : g.ctl.nmask = 0xFFFFFFFF) (hs : g.ctl.stack = []) :
    ∃ t g', exec (.fuse h x) s = .next t ∧ t.gang? g.uid = some g' ∧ g'.pc = g.pc + 8 ∧ keepsRegs g g' ∧
      Leaves { g with ctl := { g.ctl with vliw := true }, spec := { g.spec with cp := g.pc + 8 } } g' (.fuse h x) 0 := by
  have hconv : (g.charge (ciOf (Instr.fuse h x).maj) 0).converged = true := by
    simp [Gang.converged, ha, hn, hs]
  have hop : (semFuse h x).op (simtEnv s (g.charge (ciOf (Instr.fuse h x).maj) 0) (.fuse h x)) =
      .ok { st := (simtEnv s (g.charge (ciOf (Instr.fuse h x).maj) 0) (.fuse h x)).s.modGang g.uid (fun y =>
        Gang.cont { y with ctl := { y.ctl with vliw := true }, iss := { y.iss with groupFrom := some s.cycle } } (g.pc + 8)) } := by
    unfold semFuse
    dsimp only
    exact (if_neg (by simp [(Env.acts_simt ..).2 he])).trans ((if_neg hv).trans ((if_neg (by simp [hconv])).trans rfl))
  obtain ⟨t, g', h1, _, h3, h4, h5, h6, _⟩ := run_modGang (nx := none) (g0 := { g with
      ctl := { g.ctl with vliw := true }, spec := { g.spec with cp := g.pc + 8 }, iss := { g.iss with groupFrom := some s.cycle } })
    hi rfl hop (fun _ => rfl) (fun _ => rfl) rfl hi.unsealed
  exact ⟨t, g', h1, h3, h4, h6, ⟨h5.spec, h5.ctl, h5.rest, h5.park, h5.pend⟩⟩

/-- YIELD asks for a yield (R69, R270). -/
theorem yield_asks {s : State} {g : Gang} {h : Hd} {x : BF} (hi : Issues s g (.yield h x)) (he : ∃ st, g.executes (.yield h x) st = true) :
    ∃ t g', exec (.yield h x) s = .next t ∧ t.gang? g.uid = some g' ∧ g'.pc = g.pc + 8 ∧ keepsRegs g g' ∧ Leaves g g' (.yield h x) 0 ∧
      g'.iss.yieldReq = true ∧ (s.calmFor g = true → s.sameBytes t) := by
  have hg := (hi.charged (ciOf (Instr.yield h x).maj) 0).1
  have hop : (semYield h x).op (simtEnv s (g.charge (ciOf (Instr.yield h x).maj) 0) (.yield h x)) =
      .ok { st := (simtEnv s (g.charge (ciOf (Instr.yield h x).maj) 0) (.yield h x)).s.requestYield g.uid false } := by
    unfold semYield
    dsimp only
    rw [if_neg (by simp [(Env.acts_simt ..).2 he])]
    rfl
  rw [State.requestYield_eq hg] at hop
  have hl := State.noLateTrap_modGang g.uid (f := fun x => { x with iss := { x.iss with yieldReq := true, toDcp := x.iss.toDcp || false } })
    (fun _ => rfl) (hi.charged (ciOf (Instr.yield h x).maj) 0).2
  have hl2 := State.noLateTrap_modGang g.uid (f := fun x => { x with monitor := g.monitor.map (fun m => { m with fired := m.fired.or (some 4) }) })
    (fun _ => rfl) hl
  obtain ⟨t, g', h1, h2, h3, h4, h5, h6, h7⟩ := run_keeps (nx := none)
    (g0 := { g with iss := { g.iss with yieldReq := true, toDcp := g.iss.toDcp || false } }) hi rfl hop hl2
    (State.gang?_modGang_same _ (fun _ => rfl) (State.gang?_modGang_same _ (fun _ => rfl) hg)) rfl hi.unsealed
  refine ⟨t, g', h1, h3, h4, h6, ⟨h5.spec, h5.ctl, h5.rest, h5.park, h5.pend⟩, congrArg (fun z => z.iss.yieldReq) (h7 rfl), fun hq => ?_⟩
  rw [h2]
  refine State.sameBytes_trans (State.sameBytes_of rfl rfl rfl rfl rfl (fun _ => rfl)) (State.commit_bytes ?_ hl2 rfl)
  exact State.calmFor_modGang _ (fun _ => ⟨rfl, rfl, rfl⟩) (State.calmFor_modGang _ (fun _ => ⟨rfl, rfl, rfl⟩) (State.calmFor_charged hi.here hq _ _ _))

theorem nop_goesOn {s : State} {g : Gang} {h : Hd} {x : RF} (hi : Issues s g (.nop h x)) :
    ∃ t g', exec (.nop h x) s = .next t ∧ t.gang? g.uid = some g' ∧ g'.pc = g.pc + 8 ∧ keepsRegs g g' ∧ Leaves g g' (.nop h x) 0 ∧
      (s.calmFor g = true → s.sameBytes t) := by
  obtain ⟨t, g', h1, h2, h3, h4, h5, h6⟩ := run_goes (m := semNop h x) (nx := none) hi rfl rfl
  refine ⟨t, g', h1, h3, h4, h6, h5, fun hq => ?_⟩
  rw [h2]
  exact State.sameBytes_trans (State.sameBytes_of rfl rfl rfl rfl rfl (fun _ => rfl))
    (State.commit_bytes (State.calmFor_charged hi.here hq _ _ (.nop h x)) (hi.charged _ _).2 rfl)

/-- NOP's pause form (R207): the gang is not ready for 32 cycles. -/
theorem nop_pauses {s : State} {g : Gang} {h : Hd} {x : RF} (hi : Issues s g (.nopPause h x)) (he : ∃ st, g.executes (.nopPause h x) st = true) :
    ∃ t g', exec (.nopPause h x) s = .next t ∧ t.gang? g.uid = some g' ∧ g'.pc = g.pc + 8 ∧ keepsRegs g g' ∧ Leaves g g' (.nopPause h x) 0 ∧
      g'.iss.pauseTo = some (s.cycle + 33) ∧ (∀ c, c < s.cycle + 33 → g'.cannotIssue c = true) ∧ (s.calmFor g = true → s.sameBytes t) := by
  have hop : (semNopPause h x).op (simtEnv s (g.charge (ciOf (Instr.nopPause h x).maj) 0) (.nopPause h x)) =
      .ok { st := (simtEnv s (g.charge (ciOf (Instr.nopPause h x).maj) 0) (.nopPause h x)).s.modGang g.uid (fun y =>
        { y with iss := { y.iss with pauseTo := some (s.cycle + 33) } }) } := by
    unfold semNopPause
    dsimp only
    rw [if_pos ((Env.acts_simt ..).2 he)]
    rfl
  obtain ⟨t, g', h1, h2, h3, h4, h5, h6, h7⟩ := run_modGang (nx := none) (g0 := { g with iss := { g.iss with pauseTo := some (s.cycle + 33) } })
    hi rfl hop (fun _ => rfl) (fun _ => rfl) rfl hi.unsealed
  have hpause : g'.iss.pauseTo = some (s.cycle + 33) := congrArg (fun z => z.iss.pauseTo) (h7 rfl)
  refine ⟨t, g', h1, h3, h4, h6, ⟨h5.spec, h5.ctl, h5.rest, h5.park, h5.pend⟩, hpause, fun c hc => ?_, fun hq => ?_⟩
  · simp [Gang.cannotIssue, hpause, hc]
  · rw [h2]
    exact State.commit_modGang_bytes hi hq (fun _ => rfl) (fun _ => ⟨rfl, rfl, rfl⟩) rfl

/-- Settles O38: FUSE, YIELD, NOP and NOP's pause form, each by its lemma. -/
theorem fuseYieldNop : Obligations.FuseYieldNop :=
  fun _ _ _ => ⟨fun _ => fuse_converged, fun _ => yield_asks, fun _ => nop_goesOn, fun _ => nop_pauses⟩

end Sys2Proof.Machine
end

section
/-! PROOFS. EXIT and the end of a gang (R37, R50, R269): what leaves a gang's masks and stack, and what returns to the pools. -/

namespace Sys2Proof.Machine

/-! ## Operations that end without effect -/

theorem State.dropWhere_passed (s : State) (f : Flight → Bool) : passed (s.dropWhere f).gangs = passed s.gangs :=
  passed_map s.gangs (fun g => { g with iss := { g.iss with block := g.iss.block.filter (fun b => !((s.flights.filter f).map Flight.id).contains b) } })
    (fun _ => rfl)

theorem State.gang?_dropWhere (s : State) (f : Flight → Bool) (uid : Nat) : (s.dropWhere f).gang? uid = (s.gang? uid).map (fun g =>
    { g with iss := { g.iss with block := g.iss.block.filter (fun b => !((s.flights.filter f).map Flight.id).contains b) } }) :=
  find_uid_map _ _ _ (fun _ _ => rfl)

theorem State.dropWhere_frame {γ : Type} (p : State → γ) (hg : ∀ s l, p { s with gangs := l } = p s) (hf : ∀ s l, p { s with flights := l } = p s)
    (s : State) (f : Flight → Bool) : p (s.dropWhere f) = p s :=
  (hg { s with flights := s.flights.filter (fun x => !f x) } _).trans (hf s _)

theorem State.abandon_passed (s : State) (uid : Nat) (m : Word32) : passed (s.abandon uid m).gangs = passed s.gangs :=
  State.dropWhere_passed { s with flights := s.flights.map (fun f =>
    if f.uid == some uid && f.abandoned then { f with parts := f.parts.filter (fun p => !m.getLsbD p.strand) } else f) } _

/-- What calm rests on is left by operations that end without effect. -/
theorem State.calmFor_dropWhere {s : State} {g : Gang} (f : Flight → Bool) (h : s.calmFor g = true) : (s.dropWhere f).calmFor g = true := by
  refine State.calmFor_of (s := s) (fun x hx => Or.inl (List.mem_filter.1 hx).1) (fun x hx => ?_) rfl h
  obtain ⟨y, hy, rfl⟩ := List.mem_map.1 hx
  exact ⟨y, hy, rfl, rfl, rfl⟩

theorem State.calmFor_abandon {s : State} {g : Gang} (uid : Nat) (m : Word32) (h : s.calmFor g = true) : (s.abandon uid m).calmFor g = true := by
  refine State.calmFor_dropWhere _ (State.calmFor_of (s := s) (fun x hx => ?_) (fun x hx => ⟨x, hx, rfl, rfl, rfl⟩) rfl h)
  obtain ⟨y, hy, rfl⟩ := List.mem_map.1 hx
  have hr : y.releases = false := by
    simp only [State.calmFor, Bool.and_eq_true, List.all_eq_true, Bool.not_eq_true'] at h
    exact h.1.1.1 y hy
  split
  · exact Or.inr hr
  · exact Or.inl hy

/-! ## Leaving the cohorts (R50) -/

theorem State.leaveCohorts_keep {γ : Type} (p : State → γ) (hp : ∀ s c i f, p (s.modCohort c i f) = p s) (s : State) (g : Gang) :
    p (s.leaveCohorts g) = p s := by
  unfold State.leaveCohorts
  refine foldl_keep p _ (fun st n => ?_) _ _
  dsimp only
  split
  · exact hp ..
  · rfl

theorem State.leaveCohorts_pools (s : State) (g : Gang) (c : Nat) :
    ((s.leaveCohorts g).ctx c).ibpool = (s.ctx c).ibpool ∧ ((s.leaveCohorts g).ctx c).tbpool = (s.ctx c).tbpool := by
  have key : ∀ {γ : Type} (p : Ctx → γ), (∀ x f, p { x with cohorts := f } = p x) → p ((s.leaveCohorts g).ctx c) = p (s.ctx c) := by
    intro γ p hp
    refine State.leaveCohorts_keep (fun st => p (st.ctx c)) (fun st d i f => ?_) s g
    by_cases hd : d = c
    · subst hd
      exact (congrArg p (State.ctx_modCtx_same ..)).trans (hp _ _)
    · exact congrArg p (State.ctx_modCtx_ne st _ hd)
  exact ⟨key Ctx.ibpool (fun _ _ => rfl), key Ctx.tbpool (fun _ _ => rfl)⟩

/-! ## The end of a gang (R37) -/

/-- A gang that has exited. -/
def Gang.exited (g : Gang) : Gang :=
  { g with
    ctl := { g.ctl with nmask := 0, active := 0, stack := [] }
    spec := { g.spec with ib := 0, tb := 0 }
    monitor := none, park := none, pend := []
    iss := { g.iss with exiting := true, yieldReq := false, yielding := false, sealTo := none, splitTo := none, tretTo := none, dueTrap := none } }

/-- What ends with the gang: its loads and its arrivals under way. -/
def Flight.endsWith (uid : Nat) (f : Flight) : Bool := f.uid == some uid && (f.abandoned || (match f.kind with | .arrive .. => true | _ => false))

theorem State.exitGang_eq {s : State} {uid : Nat} {g : Gang} (h : s.gang? uid = some g) :
    s.exitGang uid = (((s.leaveCohorts g).refund g.ctx g.spec.ib.toNat g.spec.tb.toNat).dropWhere
      (Flight.endsWith uid)).modGang uid Gang.exited := by
  unfold State.exitGang
  rw [h]
  rfl

theorem State.leaveCohorts_gangs (s : State) (g : Gang) : (s.leaveCohorts g).gangs = s.gangs := State.leaveCohorts_keep State.gangs (fun _ _ _ _ => rfl) s g

/-- What an exited gang is, but for the operations that it waited for. -/
theorem State.gang?_exitGang {s : State} {uid : Nat} {g : Gang} (h : s.gang? uid = some g) :
    ∃ b, (s.exitGang uid).gang? uid = some { g with iss := { g.iss with block := b } }.exited := by
  rw [State.exitGang_eq h]
  have h1 : ((s.leaveCohorts g).refund g.ctx g.spec.ib.toNat g.spec.tb.toNat).gang? uid = some g := by
    unfold State.gang?
    rw [State.refund_gangs, State.leaveCohorts_gangs]
    exact h
  exact ⟨_, State.gang?_modGang_same Gang.exited (fun _ => rfl) ((State.gang?_dropWhere _ _ uid).trans (congrArg (Option.map _) h1))⟩

/-- Both budgets return to the pools (R78). -/
theorem State.exitGang_pools {s : State} {uid : Nat} {g : Gang} (h : s.gang? uid = some g) :
    ((s.exitGang uid).ctx g.ctx).ibpool = min (2 ^ 64 - 1) ((s.ctx g.ctx).ibpool + g.spec.ib.toNat) ∧
    ((s.exitGang uid).ctx g.ctx).tbpool = min (2 ^ 64 - 1) ((s.ctx g.ctx).tbpool + g.spec.tb.toNat) := by
  have hctx : (s.exitGang uid).ctx g.ctx = ((s.leaveCohorts g).refund g.ctx g.spec.ib.toNat g.spec.tb.toNat).ctx g.ctx := by
    rw [State.exitGang_eq h]
    rfl
  obtain ⟨h1, h2⟩ := State.leaveCohorts_pools s g g.ctx
  rw [hctx]
  unfold State.refund
  rw [State.ctx_modCtx_same, h1, h2]
  exact ⟨rfl, rfl⟩

theorem State.exitGang_frame (s : State) (uid : Nat) {γ : Type} (p : State → γ) (hc : ∀ s l, p { s with ctxs := l } = p s)
    (hg : ∀ s l, p { s with gangs := l } = p s) (hf : ∀ s l, p { s with flights := l } = p s) : p (s.exitGang uid) = p s := by
  cases h : s.gang? uid with
  | none => unfold State.exitGang; rw [h]
  | some g =>
    rw [State.exitGang_eq h]
    exact (hg _ _).trans ((State.dropWhere_frame p hg hf _ _).trans ((hc _ _).trans (State.leaveCohorts_keep p (fun _ _ _ _ => hc _ _) s g)))

theorem State.sameBytes_exitGang (s : State) (uid : Nat) : s.sameBytes (s.exitGang uid) := by
  have key : ∀ {γ : Type} (p : State → γ), (∀ s l, p { s with ctxs := l } = p s) → (∀ s l, p { s with gangs := l } = p s) →
      (∀ s l, p { s with flights := l } = p s) → p (s.exitGang uid) = p s := fun p => State.exitGang_frame s uid p
  refine State.sameBytes_of (key State.paths (fun _ _ => rfl) (fun _ _ => rfl) (fun _ _ => rfl)) (key State.slices (fun _ _ => rfl) (fun _ _ => rfl) (fun _ _ => rfl))
    (key State.dev (fun _ _ => rfl) (fun _ _ => rfl) (fun _ _ => rfl)) (key State.dram (fun _ _ => rfl) (fun _ _ => rfl) (fun _ _ => rfl))
    (key State.dpoison (fun _ _ => rfl) (fun _ _ => rfl) (fun _ _ => rfl)) (fun n => ?_)
  exact congrArg Core.shares (key (fun s => s.core n) (fun _ _ => rfl) (fun _ _ => rfl) (fun _ _ => rfl))

theorem State.losses_refund (s : State) (c i t : Nat) : (s.refund c i t).losses = s.losses := State.losses_modCtx s c _ (fun _ => rfl)

theorem State.losses_exitGang (s : State) (uid : Nat) : (s.exitGang uid).losses = s.losses := by
  cases h : s.gang? uid with
  | none => unfold State.exitGang; rw [h]
  | some g =>
    rw [State.exitGang_eq h]
    exact (State.losses_refund (s.leaveCohorts g) g.ctx _ _).trans (State.leaveCohorts_keep State.losses (fun _ _ _ _ => State.losses_modCohort ..) s g)

theorem State.noLateTrap_exitGang {s : State} (uid : Nat) (h : s.noLateTrap) : (s.exitGang uid).noLateTrap := by
  cases hg : s.gang? uid with
  | none =>
    unfold State.exitGang
    rw [hg]
    exact h
  | some g =>
    have hl := State.losses_exitGang s uid
    intro x hx
    have hloss : ∀ c, ((s.exitGang uid).ctx c).loss = (s.ctx c).loss := congrFun hl
    rw [hloss]
    rw [State.exitGang_eq hg] at hx
    obtain ⟨y, hy, rfl⟩ := List.mem_map.1 hx
    obtain ⟨z, hz, rfl⟩ := List.mem_map.1 hy
    rw [State.refund_gangs, State.leaveCohorts_gangs] at hz
    obtain ⟨h1, h2, h3, h4⟩ := h z hz
    split
    · exact ⟨rfl, rfl, h3, h4⟩
    · exact ⟨h1, h2, h3, h4⟩

theorem State.calmFor_exitGang {s : State} {g : Gang} (uid : Nat) (h : s.calmFor g = true) : (s.exitGang uid).calmFor g = true := by
  cases hx : s.gang? uid with
  | none =>
    unfold State.exitGang
    rw [hx]
    exact h
  | some x =>
    rw [State.exitGang_eq hx]
    refine State.calmFor_of (s := s.leaveCohorts x) (fun f hf => Or.inl (List.mem_filter.1 hf).1) (fun y hy => ?_) rfl ?_
    · obtain ⟨z, hz, rfl⟩ := List.mem_map.1 hy
      obtain ⟨w, hw, rfl⟩ := List.mem_map.1 hz
      refine ⟨w, hw, ?_⟩
      have hw' : w ∈ s.gangs := by rwa [State.refund_gangs, State.leaveCohorts_gangs] at hw
      simp only [State.calmFor, Bool.and_eq_true, List.all_eq_true, Bool.not_eq_true', Option.isNone_iff_eq_none] at h
      obtain ⟨⟨h1, h2⟩, h3⟩ := h.1.1.2 w hw'
      split
      · exact ⟨h1.symm, h2.symm, rfl⟩
      · exact ⟨rfl, rfl, rfl⟩
    · rw [State.leaveCohorts_keep (fun s => s.calmFor g) (fun _ _ _ _ => rfl) s x]
      exact h

/-! ## EXIT (R37, R269) -/

/-- The control state of a gang without the strands of m. -/
def Ctl.leave (c : Ctl) (m : Word32) : Ctl := { c with nmask := c.nmask &&& ~~~m, stack := c.stack.map (Entry.without m) }

/-- The state in which the strands of m have left the gang: its loads go, and its masks and stack lose them. -/
def State.leaving (s : State) (g : Gang) (m : Word32) : State :=
  (s.abandon g.uid m).modCtl g.uid (fun c => { c with nmask := g.ctl.nmask &&& ~~~m, stack := c.stack.map (Entry.without m) })

/-- EXIT with some executing strand. -/
theorem semExit_op {s : State} {g : Gang} {h : Hd} {x : BF} {ci ct : Nat} (he : ∃ st, g.executes (.exit h x) st = true) :
    (semExit h x).op (simtEnv s (g.charge ci ct) (.exit h x)) =
      (let e := simtEnv s (g.charge ci ct) (.exit h x)
       let m := g.strands (.exit h x)
       if g.ctl.nmask &&& ~~~m == 0 then e.endGang (e.s.leaving g m)
       else e.goOn (e.s.leaving g m) (g.ctl.active &&& ~~~m, g.ctl.stack.map (Entry.without m), g.pc + 8)) := by
  have h0 : ¬ (g.strands (.exit h x) == 0) = true := by
    rw [beq_iff_eq, g.strands_eq_zero]
    exact not_not_intro he
  unfold semExit
  simp only [simtEnv_mask]
  rw [if_neg h0]
  rfl

section Leaving
variable {s : State} {g : Gang} {h : Hd} {x : BF} (hi : Issues s g (.exit h x))
include hi

/-- The gang of an EXIT once its strands have left. -/
theorem Issues.left (ci ct : Nat) (m : Word32) :
    ∃ g1, ((simtEnv s (g.charge ci ct) (.exit h x)).s.leaving g m).gang? g.uid = some g1 ∧
      g1.pass = (({ g with ctl := g.ctl.leave m } : Gang).charge ci ct).pass ∧ ((simtEnv s (g.charge ci ct) (.exit h x)).s.leaving g m).noLateTrap := by
  obtain ⟨hg, hl⟩ := hi.charged ci ct
  have hp := State.abandon_passed (simtEnv s (g.charge ci ct) (.exit h x)).s g.uid m
  obtain ⟨g1, hg1, hp1⟩ := State.gang?_passed hp hg
  have hpass : ∀ y : Gang, y.pass = (g.charge ci ct).pass →
      ({ y with ctl := { y.ctl with nmask := g.ctl.nmask &&& ~~~m, stack := y.ctl.stack.map (Entry.without m) } } : Gang).pass =
        (({ g with ctl := g.ctl.leave m } : Gang).charge ci ct).pass := fun y hy =>
    congrArg (fun z : Gang => { z with ctl := { z.ctl with nmask := g.ctl.nmask &&& ~~~m, stack := z.ctl.stack.map (Entry.without m) } }) hy
  exact ⟨_, State.gang?_modGang_same _ (fun _ => rfl) hg1, hpass g1 hp1, State.noLateTrap_modGang _ (fun _ => rfl) (State.noLateTrap_passed hp rfl hl)⟩

/-- EXIT of some strands, after which the gang goes on with a mask, a stack and an address. -/
theorem exit_goesOn {m : Word32} (hm : m = g.strands (.exit h x)) (he : ∃ st, g.executes (.exit h x) st = true) (hn : g.ctl.nmask &&& ~~~m ≠ 0)
    {q : Word32 × List Entry × Word64}
    (hq : (if g.ctl.active &&& ~~~m == 0 then settle settleFuel (g.ctl.stack.map (Entry.without m))
      else some (g.ctl.active &&& ~~~m, g.ctl.stack.map (Entry.without m), g.pc + 8)) = some q) :
    ∃ t g', exec (.exit h x) s = .next t ∧ t.gang? g.uid = some g' ∧ g'.pc = q.2.2 ∧ keepsRegs g g' ∧
      Leaves { g with ctl := { g.ctl with nmask := g.ctl.nmask &&& ~~~m, active := q.1, stack := q.2.1 } } g' (.exit h x) 0 := by
  obtain ⟨g1, hg1, hp1, hl⟩ := hi.left (ciOf (Instr.exit h x).maj) 0 m
  have hop := semExit_op (ci := ciOf (Instr.exit h x).maj) (ct := 0) (s := s) he
  dsimp only at hop
  rw [← hm, if_neg (by rw [beq_iff_eq]; exact hn)] at hop
  unfold Env.goOn at hop
  dsimp only at hop
  rw [hq] at hop
  have hpass : ∀ y : Gang, y.pass = (({ g with ctl := g.ctl.leave m } : Gang).charge (ciOf (Instr.exit h x).maj) 0).pass →
      ({ y with ctl := { y.ctl with active := q.1, stack := q.2.1 } } : Gang).pass =
        (({ g with ctl := { g.ctl with nmask := g.ctl.nmask &&& ~~~m, active := q.1, stack := q.2.1 } } : Gang).charge (ciOf (Instr.exit h x).maj) 0).pass :=
    fun y hy => congrArg (fun z : Gang => { z with ctl := { z.ctl with active := q.1, stack := q.2.1 } }) hy
  obtain ⟨t, g', h1, _, h3, h4, h5, h6, _⟩ := run_keeps (nx := some q.2.2) hi rfl hop (State.noLateTrap_modGang _ (fun _ => rfl) hl)
    (State.gang?_modGang_same _ (fun _ => rfl) hg1) (hpass g1 hp1) hi.unsealed
  exact ⟨t, g', h1, h3, h4, h6, h5⟩

omit hi in
/-- No store of the gang is still to be registered, with its charge taken too. -/
theorem State.unregistered_charged (hg : s.gang? g.uid = some g) (hl : g.lostStore = false) (hu : s.unregistered g.uid = false) (ci ct : Nat) (i : Instr) :
    (simtEnv s (g.charge ci ct) i).s.unregistered g.uid = false := by
  have hkept : ∀ (t : State) (y : Gang) (f : Flight), t.gang? g.uid = some y → y.lostStore = false → f.uid = some g.uid → t.lostBefore f = false := by
    intro t y f hy hly hf
    unfold State.lostBefore
    rw [hf, Option.bind_some, hy]
    simp [hly]
  rw [State.unregistered, List.any_eq_false] at hu ⊢
  intro f hf
  have hfu : f.uid = some g.uid := beq_iff_eq.1 (List.mem_filter.1 hf).2
  have := hu f hf
  rw [hkept _ g f hg hl hfu] at this
  rwa [hkept _ (g.charge ci ct) f (simtEnv_gang hg (g.charge ci ct) rfl i) hl hfu]

/-- EXIT of the last strand: the gang exits, and its budgets return to the pools. -/
theorem exit_ends {m : Word32} (hm : m = g.strands (.exit h x)) (he : ∃ st, g.executes (.exit h x) st = true) (hn : g.ctl.nmask &&& ~~~m = 0)
    (hls : g.lostStore = false) (hu : s.unregistered g.uid = false) (hq : s.calmFor g = true) :
    ∃ t g', exec (.exit h x) s = .next t ∧ t.gang? g.uid = some g' ∧ g'.iss.exiting = true ∧ g'.ctl.nmask = 0 ∧ g'.spec.ib = 0 ∧ g'.spec.tb = 0 ∧
      (t.ctx g.ctx).ibpool = min (2 ^ 64 - 1) ((s.ctx g.ctx).ibpool + (g.spec.ib.toNat - 1)) ∧
      (t.ctx g.ctx).tbpool = min (2 ^ 64 - 1) ((s.ctx g.ctx).tbpool + g.spec.tb.toNat) ∧ s.sameBytes t := by
  have hci : ciOf (Instr.exit h x).maj = 1 := rfl
  have hpays := hi.pays
  obtain ⟨g1, hg1, hp1, hl⟩ := hi.left 1 0 m
  have hop : (semExit h x).op (simtEnv s (g.charge 1 0) (.exit h x)) =
      .ok { st := ((simtEnv s (g.charge 1 0) (.exit h x)).s.leaving g m).exitGang g.uid } := by
    have htrap : (simtEnv s (g.charge 1 0) (.exit h x)).releaseTrap = none := if_neg (by rw [simtEnv_g]; simp [Gang.charge, hls])
    rw [semExit_op he]
    dsimp only
    rw [← hm, if_pos (by rw [beq_iff_eq]; exact hn), Env.endGang, if_neg, htrap]
    · rfl
    · rw [simtEnv_g, Gang.charge_uid, State.unregistered_charged hi.here hls hu]
      exact Bool.false_ne_true
  have hrun := run_ok (m := semExit h x) hi (Nat.zero_le _) hop
  obtain ⟨b, hb⟩ := State.gang?_exitGang hg1
  have hlate := State.noLateTrap_exitGang g.uid hl
  obtain ⟨g', hg', _, hpass⟩ := State.commit_gang (i := .exit h x) (e := simtEnv s (g.charge 1 0) (.exit h x))
    (f := { st := ((simtEnv s (g.charge 1 0) (.exit h x)).s.leaving g m).exitGang g.uid }) (ci := 1) (ct := 0) hb hlate rfl rfl
  replace hpass := hpass rfl
  have hcalm : (((simtEnv s (g.charge 1 0) (.exit h x)).s.leaving g m).exitGang g.uid).calmFor (g.charge 1 0) = true :=
    State.calmFor_exitGang _ (State.calmFor_modGang _ (fun _ => ⟨rfl, rfl, rfl⟩) (State.calmFor_abandon _ _ (State.calmFor_charged hi.here hq 1 0 (.exit h x))))
  obtain ⟨hib, htb⟩ := State.exitGang_pools hg1
  have hctx : g1.ctx = g.ctx := congrArg (fun z => z.ctx) hp1
  have hi1 : g1.spec.ib = g.spec.ib - 1 := congrArg (fun z => z.spec.ib) hp1
  have ht1 : g1.spec.tb = g.spec.tb := (congrArg (fun z => z.spec.tb) hp1 : g1.spec.tb = g.spec.tb - 0).trans (BitVec.sub_zero _)
  have hsub : (g.spec.ib - 1).toNat = g.spec.ib.toNat - 1 := BitVec.toNat_sub_of_le hpays
  rw [hctx] at hib htb
  rw [hi1, hsub] at hib
  rw [ht1] at htb
  refine ⟨_, g', hrun, hg', congrArg (fun z => z.iss.exiting) hpass, congrArg (fun z => z.ctl.nmask) hpass, congrArg (fun z => z.spec.ib) hpass,
    congrArg (fun z => z.spec.tb) hpass, ?_, ?_, ?_⟩
  · exact (congrArg Ctx.ibpool (congrFun (State.commit_ctx hcalm hlate rfl) g.ctx)).trans hib
  · exact (congrArg Ctx.tbpool (congrFun (State.commit_ctx hcalm hlate rfl) g.ctx)).trans htb
  · have hleft : s.sameBytes ((simtEnv s (g.charge 1 0) (.exit h x)).s.leaving g m) := State.sameBytes_of rfl rfl rfl rfl rfl (fun _ => rfl)
    exact State.sameBytes_trans (State.sameBytes_trans hleft (State.sameBytes_exitGang _ g.uid)) (State.commit_bytes hcalm hlate rfl)

end Leaving

/-- Settles O37: strands leave the masks and the stack; the rest of the gang goes on, settles to the entry below, or the gang ends. -/
theorem exit : Obligations.Exit := by
  intro s g h x hi he m hm
  have hms : m = g.strands (.exit h x) := ((g.strands_eq_iff _ _).2 (fun st hst => (hm st hst).symm)).symm
  refine ⟨fun hn ha => ?_, fun hn ha p o opc j rest ho hst => ?_, fun hn hl hu hq => exit_ends hi hms he hn hl hu hq⟩
  · exact exit_goesOn hi hms he hn (if_neg (by rw [beq_iff_eq]; exact ha))
  · have hsettle : settle settleFuel (g.ctl.stack.map (Entry.without m)) =
        some (o &&& ~~~m, .div true (p &&& ~~~m) (o &&& ~~~m) opc j :: rest.map (Entry.without m), opc.setWidth 64) := by
      rw [hst]
      exact if_neg (by rw [beq_iff_eq]; exact ho)
    obtain ⟨t, g', h1, h2, h3, h4, h5⟩ := exit_goesOn hi hms he hn ((if_pos (by rw [beq_iff_eq]; exact ha)).trans hsettle)
    exact ⟨t, g', h1, h2, h3, h4, congrArg Ctl.active h5.ctl, congrArg Ctl.nmask h5.ctl⟩

end Sys2Proof.Machine
end

section
/-! SUPPORT. A calm issue, told step by step: the state that its marks leave, and the end of its step, where a seal may be taken (R63, R65, R66). -/

namespace Sys2Proof.Machine

/-! ## What a core and a gang hold after an issue -/

/-- What an issue leaves at its core: the beats of its lane group, who issued last, and the turn of the ports. -/
def Core.issuedBy (i : Instr) (e : Env) (cycle : Nat) (c : Core) : Core :=
  { c with
    beat := SMap.set c.beat (e.g.slot % 4) (cycle + 2 * (if isF64 i.maj then 4 else 1))
    last := SMap.set c.last (e.g.slot % 4) (cycle, e.g.uid)
    rr := (e.g.slot + 1) % 4 }

/-- A sealing instruction makes its gang wait for its seal. -/
def Gang.sealing (i : Instr) (a : Word64) (g : Gang) : Gang := if i.seals then { g with iss := { g.iss with sealTo := some a } } else g

/-- The charge noted in a park, and the time from which the next instruction is next. -/
def Gang.paid (el ci ct : Nat) (g : Gang) : Gang :=
  { g with park := g.park.map (fun k => { k with ci := ci, ct := ct }), iss := { g.iss with since := some el } }

/-- The state that the marks of an issue leave, before the end of its step. -/
def State.issued (i : Instr) (e : Env) (f : Eff) (ci ct : Nat) : State :=
  let s := ((f.st.firstIssue e.g).modCore e.g.gcore (Core.issuedBy i e f.st.cycle)).modGang e.g.uid (fun g => g.issueMarks f e.npc ci ct)
  { (if i.seals then s.modGang e.g.uid (fun g => { g with iss := { g.iss with sealTo := some (f.next.getD e.npc) } }) else s).payAll e.g.uid e.s.flights ci ct
    with note := .issued }

theorem State.firstIssue_frame {γ : Type} (p : State → γ) (hp : ∀ (s : State) l, p { s with launches := l } = p s) (s : State) (g : Gang) :
    p (s.firstIssue g) = p s := by
  unfold State.firstIssue
  split
  · rfl
  · exact hp _ _

theorem State.issued_frame {γ : Type} (p : State → γ) (hl : ∀ (s : State) l, p { s with launches := l } = p s) (hc : ∀ (s : State) l, p { s with cores := l } = p s)
    (hg : ∀ (s : State) l, p { s with gangs := l } = p s) (hf : ∀ (s : State) l, p { s with flights := l } = p s) (hn : ∀ (s : State) n, p { s with note := n } = p s)
    (i : Instr) (e : Env) (f : Eff) (ci ct : Nat) : p (State.issued i e f ci ct) = p f.st := by
  have h1 : p (((f.st.firstIssue e.g).modCore e.g.gcore (Core.issuedBy i e f.st.cycle)).modGang e.g.uid (fun g => g.issueMarks f e.npc ci ct)) = p f.st :=
    (hg _ _).trans ((hc _ _).trans (State.firstIssue_frame p hl _ _))
  refine (hn _ _).trans ((hg _ _).trans ((hf _ _).trans ?_))
  split
  · exact (hg _ _).trans h1
  · exact h1

theorem State.issued_core (i : Instr) (e : Env) (f : Eff) (ci ct c : Nat) :
    (State.issued i e f ci ct).core c = if c = e.g.gcore then Core.issuedBy i e f.st.cycle (f.st.core c) else f.st.core c := by
  have h0 : (f.st.firstIssue e.g).core = f.st.core := State.firstIssue_frame State.core (fun _ _ => rfl) _ _
  have h1 : (State.issued i e f ci ct).core c = ((f.st.firstIssue e.g).modCore e.g.gcore (Core.issuedBy i e f.st.cycle)).core c := by
    unfold State.issued
    dsimp only
    split <;> rfl
  rw [h1]
  split
  · next h => rw [h, State.core_modCore_same, h0]
  · next h => rw [State.core_modCore_ne _ _ (Ne.symm h), h0]

theorem State.issued_flights (i : Instr) (e : Env) (f : Eff) (ci ct : Nat) :
    (State.issued i e f ci ct).flights = f.st.flights.map (fun x =>
      if !e.s.flights.any (fun y => y.id == x.id) && x.uid == some e.g.uid then { x with paid := (ci, ct) } else x) := by
  have h0 : (f.st.firstIssue e.g).flights = f.st.flights := State.firstIssue_frame State.flights (fun _ _ => rfl) _ _
  rw [← h0]
  unfold State.issued
  dsimp only
  split <;> rfl

section
variable (i : Instr) (e : Env) (f : Eff) (ci ct : Nat)

theorem State.issued_ctxs : (State.issued i e f ci ct).ctxs = f.st.ctxs :=
  State.issued_frame State.ctxs (fun _ _ => rfl) (fun _ _ => rfl) (fun _ _ => rfl) (fun _ _ => rfl) (fun _ _ => rfl) ..

theorem State.issued_dev : (State.issued i e f ci ct).dev = f.st.dev :=
  State.issued_frame State.dev (fun _ _ => rfl) (fun _ _ => rfl) (fun _ _ => rfl) (fun _ _ => rfl) (fun _ _ => rfl) ..

theorem State.issued_bytes : f.st.sameBytes (State.issued i e f ci ct) := by
  have frame : ∀ {γ : Type} (p : State → γ), (∀ (s : State) l, p { s with launches := l } = p s) → (∀ (s : State) l, p { s with cores := l } = p s) →
      (∀ (s : State) l, p { s with gangs := l } = p s) → (∀ (s : State) l, p { s with flights := l } = p s) → (∀ (s : State) n, p { s with note := n } = p s) →
      p (State.issued i e f ci ct) = p f.st := fun p h1 h2 h3 h4 h5 => State.issued_frame p h1 h2 h3 h4 h5 ..
  refine State.sameBytes_of (frame State.paths ?_ ?_ ?_ ?_ ?_) (frame State.slices ?_ ?_ ?_ ?_ ?_) (frame State.dev ?_ ?_ ?_ ?_ ?_) (frame State.dram ?_ ?_ ?_ ?_ ?_)
    (frame State.dpoison ?_ ?_ ?_ ?_ ?_) (fun n => ?_)
  case refine_26 =>
    rw [State.issued_core]
    split <;> rfl
  all_goals exact fun _ _ => rfl

end

/-- The gang after its own issue. -/
theorem State.gang?_issued {i : Instr} {e : Env} {f : Eff} {ci ct : Nat} {g1 : Gang} (h : f.st.gang? e.g.uid = some g1) :
    (State.issued i e f ci ct).gang? e.g.uid = some (((g1.issueMarks f e.npc ci ct).sealing i (f.next.getD e.npc)).paid f.st.clock.el ci ct) := by
  have h0 : (f.st.firstIssue e.g).gang? e.g.uid = some g1 := (State.firstIssue_frame (fun s => s.gang? e.g.uid) (fun _ _ => rfl) _ _).trans h
  have hel : (f.st.firstIssue e.g).clock.el = f.st.clock.el := State.firstIssue_frame (fun s => s.clock.el) (fun _ _ => rfl) _ _
  have hm : (((f.st.firstIssue e.g).modCore e.g.gcore (Core.issuedBy i e f.st.cycle)).modGang e.g.uid (fun g => g.issueMarks f e.npc ci ct)).gang? e.g.uid =
      some (g1.issueMarks f e.npc ci ct) :=
    State.gang?_modGang_same (s := (f.st.firstIssue e.g).modCore e.g.gcore (Core.issuedBy i e f.st.cycle)) _ (fun x => by simp) h0
  unfold State.issued Gang.sealing
  dsimp only
  rw [← hel]
  split
  · exact State.gang?_modGang_same (Gang.paid (f.st.firstIssue e.g).clock.el ci ct) (fun _ => rfl) (State.gang?_modGang_same _ (fun _ => rfl) hm)
  · exact State.gang?_modGang_same (Gang.paid (f.st.firstIssue e.g).clock.el ci ct) (fun _ => rfl) hm

/-- The other gangs after an issue. -/
theorem State.issued_others {i : Instr} {e : Env} {f : Eff} {ci ct : Nat} {x : Gang} (hx : x ∈ (State.issued i e f ci ct).gangs) :
    (∃ y ∈ f.st.gangs, y.uid = e.g.uid ∧ x = ((y.issueMarks f e.npc ci ct).sealing i (f.next.getD e.npc)).paid f.st.clock.el ci ct) ∨
      (x.uid ≠ e.g.uid ∧ x ∈ f.st.gangs) := by
  have hg : (f.st.firstIssue e.g).gangs = f.st.gangs := State.firstIssue_gangs ..
  have hel : (f.st.firstIssue e.g).clock.el = f.st.clock.el := State.firstIssue_frame (fun s => s.clock.el) (fun _ _ => rfl) _ _
  have hmap : (State.issued i e f ci ct).gangs = f.st.gangs.map (fun y =>
      if y.uid == e.g.uid then ((y.issueMarks f e.npc ci ct).sealing i (f.next.getD e.npc)).paid f.st.clock.el ci ct else y) := by
    rw [← hg, ← hel]
    unfold State.issued State.payAll Gang.sealing
    dsimp only
    split
    all_goals
      simp only [State.modGang_gangs, State.modCore_gangs, List.map_map]
      refine List.map_congr_left (fun y _ => ?_)
      by_cases hy : y.uid = e.g.uid
      · simp [Function.comp, hy, Gang.paid]
      · simp [Function.comp, hy]
  rw [hmap] at hx
  obtain ⟨y, hy, rfl⟩ := List.mem_map.1 hx
  by_cases hu : y.uid = e.g.uid
  · exact Or.inl ⟨y, hy, hu, if_pos (beq_iff_eq.2 hu)⟩
  · right
    rw [if_neg (fun h => hu (beq_iff_eq.1 h))]
    exact ⟨hu, hy⟩

theorem Gang.issued_late (g : Gang) (i : Instr) (f : Eff) (n a : Word64) (el ci ct : Nat) :
    (((g.issueMarks f n ci ct).sealing i a).paid el ci ct).late = g.late := by
  have h : (g.issueMarks f n ci ct).late = g.late := by
    simp [Gang.late, Gang.issueMarks, Gang.ctr]
    rw [Gang.putAll_frame]
    exact ⟨rfl, rfl⟩
  unfold Gang.sealing
  split <;> exact h

theorem State.issued_noLateTrap {i : Instr} {e : Env} {f : Eff} {ci ct : Nat} (h : f.st.noLateTrap) : (State.issued i e f ci ct).noLateTrap := by
  intro x hx
  have hctx : (State.issued i e f ci ct).ctx = f.st.ctx :=
    State.issued_frame State.ctx (fun _ _ => rfl) (fun _ _ => rfl) (fun _ _ => rfl) (fun _ _ => rfl) (fun _ _ => rfl) i e f ci ct
  rcases State.issued_others hx with ⟨y, hy, _, rfl⟩ | ⟨_, hy⟩
  · exact noLate_of_late (f := (State.issued i e f ci ct).ctx) (y.issued_late ..) (by rw [hctx]; exact h y hy)
  · rw [hctx]
    exact h x hy

/-! ## Gangs that may seal -/

/-- A gang that no seal, split or mark of Muslin is due for. -/
def Gang.sealless (x : Gang) : Prop := x.iss.sealTo = none ∧ x.iss.splitTo = none ∧ x.iss.mseal = false

/-- What bears the number of g is of its context, and no other gang has a seal due. -/
def State.onlySeals (s : State) (g : Gang) : Prop := ∀ x ∈ s.gangs, (x.uid = g.uid ∧ x.ctx = g.ctx) ∨ (x.uid ≠ g.uid ∧ x.sealless)

theorem State.calmFor_sealless {s : State} {g : Gang} (h : s.calmFor g = true) : ∀ x ∈ s.gangs, x.sealless := by
  simp only [State.calmFor, Bool.and_eq_true, List.all_eq_true, Bool.not_eq_true', Option.isNone_iff_eq_none] at h
  exact fun x hx => ⟨(h.1.1.2 x hx).1.1, (h.1.1.2 x hx).1.2, (h.1.1.2 x hx).2⟩

theorem State.calmFor_flights {s : State} {g : Gang} (h : s.calmFor g = true) : ∀ f ∈ s.flights, f.releases = false := by
  simp only [State.calmFor, Bool.and_eq_true, List.all_eq_true, Bool.not_eq_true'] at h
  exact h.1.1.1

/-! ## A calm issue -/

/-- Where the counters of the gang's core are off, no issue counts. -/
theorem State.calm_counters {s t : State} {g : Gang} (h : s.calmFor g = true) (hd : t.dev = s.dev) :
    (∀ ev n, t.count g ev n = t) ∧ ∀ v pc cs, t.gingham g v pc cs = t := by
  simp only [State.calmFor, Bool.and_eq_true, Bool.not_eq_true'] at h
  obtain ⟨⟨_, hc⟩, hgi⟩ := h
  refine ⟨fun ev n => State.countAt_off (by simpa only [State.reg_of hd] using hc) .., fun v pc cs => ?_⟩
  unfold State.gingham
  dsimp only
  rw [State.reg_of hd, hgi]
  rfl

theorem State.commit_issued {s : State} {i : Instr} {e : Env} {f : Eff} {ci ct : Nat} (h : s.calmFor e.g = true) (hd : f.st.dev = s.dev) :
    State.commit i e f ci ct = (State.issued i e f ci ct).pump := by
  obtain ⟨hc, hgi⟩ := State.calm_counters (t := f.st.firstIssue e.g) h ((State.firstIssue_frame State.dev (fun _ _ => rfl) _ _).trans hd)
  unfold State.commit State.countIssue
  dsimp only
  rw [hc, hc, hc, hgi]
  rfl

/-- The end of a step in which no release, seal or late trap is due. -/
theorem State.pump_calm {s : State} (hf : ∀ f ∈ s.flights, f.releases = false)
    (hg : ∀ x ∈ s.gangs, x.takeSeal = x ∧ x.iss.splitTo = none ∧ x.iss.mseal = false) (hl : s.noLateTrap) : s.pump = s := by
  have h1 : s.applyReleases = s := State.applyReleases_off (List.all_eq_true.2 (fun f h => by rw [hf f h]; rfl))
  have h2 : s.takeSeals = s := by
    have hm : s.gangs.map (fun g => g.takeSeal.takeSplit (s.resultsOut g.uid)) = s.gangs :=
      (List.map_congr_left (fun x hx => by rw [(hg x hx).1, Gang.takeSplit_none (hg x hx).2.1]; rfl)).trans (List.map_id _)
    unfold State.takeSeals
    dsimp only
    rw [hm]
    exact foldl_id _ _ s (fun x hx => by rw [(hg x hx).2.2]; rfl)
  unfold State.pump
  rw [h1, h2, State.takeReturns_none hl, State.takeLate_none hl]

/-- A calm issue of an instruction that does not seal ends with its marks. -/
theorem State.commit_eq_issued {i : Instr} {e : Env} {f : Eff} {ci ct : Nat} (hq : f.st.calmFor e.g = true) (hl : f.st.noLateTrap) (hs : i.seals = false) :
    State.commit i e f ci ct = State.issued i e f ci ct := by
  refine (State.commit_issued hq rfl).trans (State.pump_calm (fun x hx => ?_) (fun x hx => ?_) (State.issued_noLateTrap hl))
  · rw [State.issued_flights] at hx
    obtain ⟨y, hy, rfl⟩ := List.mem_map.1 hx
    have hr := State.calmFor_flights hq y hy
    split
    · exact hr
    · exact hr
  · rcases State.issued_others hx with ⟨y, hy, _, rfl⟩ | ⟨_, hy⟩
    · obtain ⟨h1, h2, h3⟩ := State.calmFor_sealless hq y hy
      have hno : ∀ z : Gang, z.sealing i (f.next.getD e.npc) = z := fun z => if_neg (by rw [hs]; decide)
      rw [hno]
      exact ⟨Gang.takeSeal_none (by simpa [Gang.paid, Gang.issueMarks, Gang.ctr] using h1), by simpa [Gang.paid, Gang.issueMarks, Gang.ctr] using h2,
        by simpa [Gang.paid, Gang.issueMarks, Gang.ctr] using h3⟩
    · obtain ⟨h1, h2, h3⟩ := State.calmFor_sealless hq x hy
      exact ⟨Gang.takeSeal_none h1, h2, h3⟩

/-- A gang that waits for operations of its own takes no seal. -/
theorem Gang.takeSeal_blocked {g : Gang} (h : g.iss.block ≠ []) : g.takeSeal = g := by
  unfold Gang.takeSeal
  split
  · rfl
  · exact if_neg (by simp [h])

/-! ## Muslin off (R422) -/

section MuslinOff
variable {s : State} {c : Nat} (h : s.muslinMode c = 0)
include h

theorem State.nextEntry_off (test : LogEntry → Bool) : s.nextEntry c test = none := if_neg (by rw [h]; simp)

theorem State.muslin_off (k : Nat) (fs : List Nat) (bs : List Byte) : s.muslin c k fs bs = s := if_pos (by simp [State.recording, h])

theorem State.orderOk_off (loc : Location) (mark : List Nat) : s.orderOk c loc mark = true := by
  unfold State.orderOk
  rw [State.nextEntry_off h]

theorem State.noteOrder_off (loc : Location) (mark : List Nat) : s.noteOrder c loc mark = s := by
  unfold State.noteOrder
  rw [State.nextEntry_off h]
  exact State.muslin_off h ..

end MuslinOff

theorem State.noteFlight_off {s : State} {f : Flight} (h : s.muslinMode f.ctx = 0) : s.noteFlight f = s :=
  foldl_id _ _ s (fun _ _ => State.noteOrder_off h ..)

/-! ## Seals that are taken at the end of a step -/

/-- A state that differs in its gangs alone, and in those only by what Muslin keeps for a seal. -/
structure State.SealNoted (s t : State) : Prop where
  rest : t = { s with gangs := t.gangs }
  gang : ∀ uid g, s.gang? uid = some g → ∃ m l, t.gang? uid = some { g with iss := { g.iss with mseal := m, mloads := l } }

theorem State.SealNoted.refl (s : State) : s.SealNoted s := ⟨rfl, fun _ g h => ⟨g.iss.mseal, g.iss.mloads, h⟩⟩

theorem State.SealNoted.trans {s t u : State} (h : s.SealNoted t) (k : t.SealNoted u) : s.SealNoted u where
  rest := k.rest.trans (by rw [h.rest])
  gang uid g hg := by
    obtain ⟨m, l, ht⟩ := h.gang uid g hg
    obtain ⟨m', l', hu⟩ := k.gang uid _ ht
    exact ⟨m', l', hu⟩

/-- A gang whose seal has been passed on to Muslin. -/
def Gang.sealTold (g : Gang) : Gang := { g with iss := { g.iss with mseal := false, mloads := [] } }

/-- With Muslin off a seal is not logged. -/
theorem State.noteSeal_off {s : State} {g : Gang} (h : s.muslinMode g.ctx = 0) : s.SealNoted (s.noteSeal g) := by
  have he : s.noteSeal g = s.modGang g.uid Gang.sealTold := by
    have hmode : (s.modGang g.uid Gang.sealTold).muslinMode g.ctx = 0 := h
    show (match (s.modGang g.uid Gang.sealTold).nextEntry g.ctx _ with | some e => _ | none => (s.modGang g.uid Gang.sealTold).muslin g.ctx 10 _) = _
    rw [State.nextEntry_off hmode]
    exact State.muslin_off hmode ..
  rw [he]
  refine ⟨rfl, fun uid x hx => ?_⟩
  by_cases hu : uid = g.uid
  · subst hu
    exact ⟨false, [], State.gang?_modGang_same Gang.sealTold (fun _ => rfl) hx⟩
  · exact ⟨x.iss.mseal, x.iss.mloads, (State.gang?_modGang_ne Gang.sealTold (fun _ => rfl) hu).trans hx⟩

/-- The end of a step with a seal or a split, Muslin off: each gang takes its own, and nothing else changes. -/
theorem State.takeSeals_off_muslin {s : State} (h : ∀ x ∈ s.gangs, ((x.takeSeal.takeSplit (s.resultsOut x.uid)).iss.mseal = true) → s.muslinMode x.ctx = 0) :
    ({ s with gangs := s.gangs.map (fun g => g.takeSeal.takeSplit (s.resultsOut g.uid)) } : State).SealNoted s.takeSeals := by
  unfold State.takeSeals
  dsimp only
  generalize hs : ({ s with gangs := s.gangs.map (fun g => g.takeSeal.takeSplit (s.resultsOut g.uid)) } : State) = s1
  have hmode : ∀ t, s1.SealNoted t → ∀ c, t.muslinMode c = s.muslinMode c := fun t ht c => by
    rw [ht.rest, ← hs]
    rfl
  have hctx : ∀ x : Gang, (x.takeSeal.takeSplit (s.resultsOut x.uid)).ctx = x.ctx := fun x =>
    congrArg (fun z => z.2.2.2.2) ((Gang.takeSplit_late _ _).trans (Gang.takeSeal_late x))
  have hall : ∀ x ∈ s1.gangs, x.iss.mseal = true → s.muslinMode x.ctx = 0 := by
    rw [← hs]
    intro x hx hm
    obtain ⟨y, hy, rfl⟩ := List.mem_map.1 hx
    rw [hctx]
    exact h y hy hm
  have key : ∀ (l : List Gang) (t : State), (∀ x ∈ l, x.iss.mseal = true → s.muslinMode x.ctx = 0) → s1.SealNoted t →
      s1.SealNoted (l.foldl (fun st g => if g.iss.mseal then st.noteSeal g else st) t) := by
    intro l
    induction l with
    | nil => intro t _ ht; exact ht
    | cons x l ih =>
      intro t hl ht
      rw [List.foldl_cons]
      refine ih _ (fun y hy => hl y (List.mem_cons_of_mem _ hy)) ?_
      split
      · next hm => exact ht.trans (State.noteSeal_off ((hmode t ht _).trans (hl x (List.mem_cons_self ..) hm)))
      · exact ht
  subst hs
  exact key _ _ hall (State.SealNoted.refl _)

/-- The gang of a number after a change of every gang that keeps the numbers. -/
theorem State.gang?_map {s : State} {u : Nat} {g : Gang} (F : Gang → Gang) (hF : ∀ x, (F x).uid = x.uid) (h : s.gang? u = some g) :
    ({ s with gangs := s.gangs.map F } : State).gang? u = some (F g) := by
  unfold State.gang? at h ⊢
  dsimp only
  rw [find_uid_map _ _ _ (fun x _ => hF x), h]
  rfl

theorem State.onlySeals_charged {s : State} {g : Gang} (h : s.calmFor g = true) (i : Instr) (ci ct : Nat) :
    (simtEnv s (g.charge ci ct) i).s.onlySeals g := by
  intro x hx
  obtain ⟨z, hz, rfl⟩ := List.mem_map.1 (show x ∈ s.gangs.map (fun z => if z.uid == (g.charge ci ct).uid then g.charge ci ct else z) from hx)
  split
  · exact Or.inl ⟨rfl, rfl⟩
  · next hu => exact Or.inr ⟨fun he => hu (beq_iff_eq.2 he), State.calmFor_sealless h z hz⟩

theorem State.onlySeals_modGang {s : State} {g : Gang} (h : s.onlySeals g) {F : Gang → Gang} (hu : ∀ x, (F x).uid = x.uid) (hc : ∀ x, (F x).ctx = x.ctx) :
    (s.modGang g.uid F).onlySeals g := by
  intro x hx
  obtain ⟨y, hy, rfl⟩ := List.mem_map.1 (show x ∈ s.gangs.map (fun z => if z.uid == g.uid then F z else z) from hx)
  split
  · next he =>
    rcases h y hy with ⟨_, h2⟩ | ⟨h1, _⟩
    · exact Or.inl ⟨(hu y).trans (beq_iff_eq.1 he), (hc y).trans h2⟩
    · exact absurd (beq_iff_eq.1 he) h1
  · exact h y hy

theorem State.onlySeals_map {s : State} {g : Gang} (h : s.onlySeals g) {F : Gang → Gang}
    (hF : ∀ x, (F x).uid = x.uid ∧ (F x).ctx = x.ctx ∧ (x.sealless → (F x).sealless)) : ({ s with gangs := s.gangs.map F } : State).onlySeals g := by
  intro x hx
  obtain ⟨y, hy, rfl⟩ := List.mem_map.1 hx
  obtain ⟨hu, hc, hs⟩ := hF y
  exact (h y hy).imp (fun h => ⟨hu.trans h.1, hc.trans h.2⟩) (fun h => ⟨fun he => h.1 (hu.symm.trans he), hs h.2⟩)

theorem State.onlySeals_issued {s : State} {g : Gang} {i : Instr} {f : Eff} {ci ct : Nat} (h : f.st.onlySeals g) :
    (State.issued i (simtEnv s (g.charge ci ct) i) f ci ct).onlySeals g := by
  intro x hx
  rcases State.issued_others hx with ⟨y, hy, hu, rfl⟩ | ⟨hu, hy⟩
  · have hy' := h y hy
    rcases hy' with ⟨h1, h2⟩ | ⟨h1, _⟩
    · have hl := congrArg (fun z => z.2.2.2.2) (y.issued_late i f (simtEnv s (g.charge ci ct) i).npc (f.next.getD (simtEnv s (g.charge ci ct) i).npc) f.st.clock.el ci ct)
      refine Or.inl ⟨?_, hl.trans h2⟩
      unfold Gang.sealing
      split <;> simpa [Gang.paid] using h1
    · exact absurd hu h1
  · exact h x hy

/-- At the end of a step in which only g may seal, and Muslin is off in its context, each gang takes its seal or split and nothing else happens. -/
theorem State.onlySeals_pump {s : State} {g : Gang} (h : s.applyReleases.onlySeals g) (hm : s.applyReleases.muslinMode g.ctx = 0)
    (hl : s.applyReleases.noLateTrap) :
    ({ s.applyReleases with gangs := s.applyReleases.gangs.map (fun g => g.takeSeal.takeSplit (s.applyReleases.resultsOut g.uid)) } : State).SealNoted s.pump := by
  have hl' := State.takeSeals_noLateTrap hl
  unfold State.pump
  rw [State.takeReturns_none hl', State.takeLate_none hl']
  refine State.takeSeals_off_muslin (fun x hx hmx => ?_)
  rcases h x hx with ⟨_, hc⟩ | ⟨_, hs⟩
  · rw [hc, hm]
  · rw [Gang.takeSeal_none hs.1, Gang.takeSplit_none hs.2.1, hs.2.2] at hmx
    cases hmx

end Sys2Proof.Machine
end

section
/-! PROOFS. Cohort barriers (R48, R49, R250): an arrival that counts in its own step, and the wait for a phase. -/

namespace Sys2Proof.Machine

/-! ## An arrival that may take effect at once (R121, R250) -/

section Arrive
variable {s : State} {g : Gang} {a : Flight} {c k : Nat}

theorem State.enabled_arrive {u : Nat} (hu : a.uid = some u) (hk : a.kind = .arrive c k) (hid : a.seq = a.id) (hsh : a.shelved = false)
    (hother : ∀ f ∈ s.flights, f = a ∨ (f.uid ≠ some u ∧ f.seq ≠ a.id)) (hg : s.gang? u = some g) (hl : g.lostStore = false)
    (hm : s.muslinMode a.ctx = 0) (hfr : (s.core a.core).freeze = 0) (hst : (s.core a.core).storing u = false)
    (hmq : ∀ m ∈ (s.core a.core).mq, m.uid ≠ u) : s.enabled a = true := by
  have hfence : a.fence = false := by unfold Flight.fence; rw [hk]
  have hearlier : ∀ f ∈ s.flights, (f.uid == a.uid && a.uid.isSome && decide (f.seq < a.seq)) = false := fun f hf => by
    rcases hother f hf with rfl | ⟨h, _⟩
    · simp
    · simp [hu, h]
  have h1 : s.revoking a = false := List.any_eq_false.2 (fun f hf => by
    rcases hother f hf with rfl | ⟨_, h⟩
    · simp [hk]
    · simp [h])
  have h2 : s.flights.filter (fun x => x.uid == a.uid && a.uid.isSome && x.seq < a.seq && !x.shelved) = [] :=
    List.filter_eq_nil_iff.2 (fun f hf => by simp [hearlier f hf])
  have h3 : s.flights.any a.follows = false := List.any_eq_false.2 (fun f hf => by
    unfold Flight.follows
    rcases hother f hf with rfl | ⟨h, _⟩
    · simp
    · simp [hu, h])
  have h4 : s.releaseDue a = true := by
    have hf : s.flights.any (fun x => x.uid == a.uid && a.uid.isSome && x.seq < a.seq && x.ordered && !x.shelved) = false :=
      List.any_eq_false.2 (fun f hf => by simp [hearlier f hf])
    have hq : (s.core a.core).mq.any (fun m => m.before a) = false := List.any_eq_false.2 (fun m hmem => by
      unfold MEntry.before
      have : u ≠ m.uid := Ne.symm (hmq m hmem)
      simp [hu, this])
    unfold State.releaseDue
    rw [hf, hq, hu]
    simp [hst]
  have h5 : s.lostBefore a = false := by
    unfold State.lostBefore
    rw [hu, Option.bind_some, hg]
    simp [hl]
  have h6 : s.lossBefore a = false := by simp [State.lossBefore, hfence]
  have h7 : s.held a = false := by simp [State.held, Flight.where_, hk, hu, hfr]
  have h8 : a.locs.all (fun l => s.orderOk a.ctx l a.mark) = true := List.all_eq_true.2 (fun l _ => State.orderOk_off hm l a.mark)
  unfold State.enabled
  simp only [hsh, h1, h2, h3, h4, h5, h6, h7, h8]
  simp

/-- What an arrival that takes effect records of the phase (R250). -/
def Gang.rephase (k : Nat) (now : BitVec 8) (g : Gang) : Gang :=
  { g with
    ctl := { g.ctl with k := SMap.set g.ctl.k k { g.k k with phase := now } }
    shadow := { g.shadow with ctl := { g.shadow.ctl with k := SMap.upd g.shadow.ctl.k k {} (fun x => if x.arrived then { x with phase := now } else x) } }
    iss := { g.iss with recStale := match g.loc with | .queued .. => true | _ => g.iss.recStale } }

/-- An arrival that stands last in flight behind no release takes effect at the end of the step. -/
theorem State.applyReleases_arrive {l : List Flight} {u : Nat} (hf : s.flights = l ++ [a]) (hl : ∀ f ∈ l, f.releases = false) (hu : a.uid = some u)
    (hk : a.kind = .arrive c k) (he : s.enabled a = true) :
    s.applyReleases = ((s.modGang u (Gang.rephase k (SMap.get (s.ctx a.ctx).cohorts c {}).phase)).modCohort a.ctx c Cohort.arrive).dropFlight a.id := by
  unfold State.applyReleases
  rw [hf, List.foldl_append, foldl_id _ l s (fun f hm => ?_), List.foldl_cons, List.foldl_nil, hk]
  · dsimp only
    rw [if_pos he, hu]
    rfl
  · have hr := hl f hm
    split
    · next hkf => simp [Flight.releases, hkf] at hr
    · next hkf => simp [Flight.releases, hkf] at hr
    · next op hkf =>
      have hop : ¬ 16 ≤ op := by simpa [Flight.releases, hkf] using hr
      rw [if_neg (by simp [hop])]
    · rfl

end Arrive

/-- An operation whose end Muslin does not log ends: it leaves flight, and no gang waits for it any more. -/
theorem State.dropFlight_off {s : State} {id : Nat} (h : ∀ f ∈ s.flights, f.id = id → s.muslinMode f.ctx = 0) :
    s.dropFlight id = { s with
      flights := s.flights.filter (fun f => f.id != id)
      gangs := s.gangs.map (fun g => { g with iss := { g.iss with block := g.iss.block.filter (fun b => b != id) } }) } := by
  unfold State.dropFlight
  split
  · next f hf =>
    have hid : f.id = id := by simpa using List.find?_some hf
    rw [State.noteFlight_off (h f (List.mem_of_find?_eq_some hf) hid)]
  · rfl

/-- An operation of a gang as it stands in flight, under its number. -/
def Gang.launched (g : Gang) (f : Flight) (id : Nat) : Flight :=
  { f with id := id, seq := if f.seq = 0 then id else f.seq, mark := g.mark, pc := g.pc, who := g.code, launch := g.launch, topup := g.topup }

theorem State.launchFlight_gang {s : State} {f : Flight} {g : Gang} (h : f.uid.bind s.gang? = some g) :
    s.launchFlight f = { s with next := s.next + 1, flights := s.flights ++ [g.launched f s.next] } := by
  unfold State.launchFlight
  dsimp only
  rw [h]
  rfl

theorem State.issued_launched {i : Instr} {e : Env} {f : Eff} {ci ct : Nat} {a : Flight} (hst : f.st.flights = e.s.flights ++ [a])
    (hu : a.uid = some e.g.uid) (hf : ∀ f ∈ e.s.flights, f.uid ≠ some e.g.uid ∧ f.id ≠ a.id) :
    (State.issued i e f ci ct).flights = e.s.flights ++ [{ a with paid := (ci, ct) }] := by
  rw [State.issued_flights, hst, List.map_append]
  congr 1
  · refine (List.map_congr_left (fun y hy => ?_)).trans (List.map_id _)
    have := (hf y hy).1
    simp [this]
  · have hn : e.s.flights.any (fun y => y.id == a.id) = false := List.any_eq_false.2 (fun y hy => by simpa using (hf y hy).2)
    show [if _ then _ else _] = _
    rw [hn, hu]
    simp

/-! ## BAR (R250) -/

section Bar
variable {s : State} {g : Gang} {h : Hd} {x : RF}

/-- The state in which the arrival of a gang stands in flight. -/
def State.arrived (s : State) (e : Env) (n : Nat) : State :=
  (s.setK e.g.uid n { e.g.k n with phase := (s.cohort e.g.ctx (e.g.k n).idx.toNat).phase, arrived := true }).launchFlight
    (e.flight (.arrive (e.g.k n).idx.toNat n) true)

theorem semBarArrive_op {ci ct : Nat} (he : ∃ st, g.executes (.barArrive h x) st = true) (hv : (g.k (x.a.toNat % 4)).valid = true) (hl : g.lostStore = false) :
    (semBarArrive h x).op (simtEnv s (g.charge ci ct) (.barArrive h x)) =
      .ok { st := (simtEnv s (g.charge ci ct) (.barArrive h x)).s.arrived (simtEnv s (g.charge ci ct) (.barArrive h x)) (x.a.toNat % 4) } := by
  have hk : (simtEnv s (g.charge ci ct) (.barArrive h x)).g.k (x.a.toNat % 4) = g.k (x.a.toNat % 4) := rfl
  have ht : (simtEnv s (g.charge ci ct) (.barArrive h x)).releaseTrap = none := if_neg (by rw [simtEnv_g]; simp [Gang.charge, hl])
  unfold semBarArrive
  dsimp only
  rw [if_neg (by simp [(Env.acts_simt ..).2 he]), if_neg (by rw [hk, hv]; decide), ht]
  rfl

theorem barArrive_seals (hi : Issues s g (.barArrive h x)) : (Instr.barArrive h x).seals = true := by
  have hw := eq_of_beq (Laws.RoundTrip.wf_of_legal hi.legal : (x.fn == 0#8) = true)
  show sealsOf 0x59 x.fn.toNat = true
  rw [hw]
  decide

/-- The arrival of a gang through barrier handle n. -/
def arrivalOf (e : Env) (n : Nat) : Flight := e.flight (.arrive (e.g.k n).idx.toNat n) true

/-- A gang whose arrival stands in flight: the handle says so. -/
def Gang.arrived (c : Cohort) (n : Nat) (g : Gang) : Gang := { g with ctl := { g.ctl with k := SMap.set g.ctl.k n { g.k n with phase := c.phase, arrived := true } } }

theorem State.arrived_eq {e : Env} {n : Nat} (hg : e.s.gang? e.g.uid = some e.g) :
    let c := e.s.cohort e.g.ctx (e.g.k n).idx.toNat
    ∃ t : State, e.s.arrived e n = t ∧ t.gang? e.g.uid = some (e.g.arrived c n) ∧
    t = { e.s.setK e.g.uid n { e.g.k n with phase := c.phase, arrived := true } with
      next := e.s.next + 1, flights := e.s.flights ++ [(e.g.arrived c n).launched (arrivalOf e n) e.s.next] } := by
  intro c
  have hg2 : (e.s.setK e.g.uid n { e.g.k n with phase := c.phase, arrived := true }).gang? e.g.uid = some (e.g.arrived c n) :=
    State.gang?_modGang_same (s := e.s) (fun g => { g with ctl := { g.ctl with k := SMap.set g.ctl.k n { e.g.k n with phase := c.phase, arrived := true } } })
      (fun _ => rfl) hg
  exact ⟨_, State.launchFlight_gang (f := arrivalOf e n) hg2, hg2, rfl⟩

/-- What an arrival needs in order to count in its own step: nothing of the gang is outstanding (R121, R250). -/
structure State.nothingOut (s : State) (g : Gang) : Prop where
  calm    : s.calmFor g = true
  muslin  : s.muslinMode g.ctx = 0
  stored  : g.lostStore = false
  thawed  : (s.core g.gcore).freeze = 0
  flights : ∀ f ∈ s.flights, f.uid ≠ some g.uid ∧ f.id ≠ s.next ∧ f.seq ≠ s.next
  seen    : (s.core g.gcore).storing g.uid = false
  mq      : ∀ m ∈ (s.core g.gcore).mq, m.uid ≠ g.uid

theorem Gang.issued_ctl (g : Gang) (i : Instr) (f : Eff) (n a : Word64) (el ci ct : Nat) (hw : f.writes = []) (hx : f.fx = 0) :
    (((g.issueMarks f n ci ct).sealing i a).paid el ci ct).ctl = g.ctl ∧
    (((g.issueMarks f n ci ct).sealing i a).paid el ci ct).lostStore = g.lostStore ∧
    (((g.issueMarks f n ci ct).sealing i a).paid el ci ct).iss.splitTo = g.iss.splitTo := by
  have h0 : fxSet g.ctl.fx 0#6 = g.ctl.fx := fxSet_zero _
  unfold Gang.sealing
  split <;> simp [Gang.paid, Gang.issueMarks, Gang.putAll, Gang.ctr, hw, hx, h0]

/-- The state that an arrival leaves before its seal: it has counted, and is no longer in flight. -/
def State.counted (X : State) (a : Flight) (u c n : Nat) (l : List Flight) : State :=
  let Y := (X.modGang u (Gang.rephase n (X.cohort a.ctx c).phase)).modCohort a.ctx c Cohort.arrive
  { Y with flights := l, gangs := Y.gangs.map (fun y => { y with iss := { y.iss with block := y.iss.block.filter (fun b => b != a.id) } }) }

theorem State.applyReleases_counted {X : State} {a : Flight} {u c n : Nat} {l : List Flight} (hf : X.flights = l ++ [a]) (hl : ∀ f ∈ l, f.releases = false)
    (hid : ∀ f ∈ l, f.id ≠ a.id) (hu : a.uid = some u) (hk : a.kind = .arrive c n) (he : X.enabled a = true) (hm : X.muslinMode a.ctx = 0) :
    X.applyReleases = X.counted a u c n l := by
  rw [State.applyReleases_arrive hf hl hu hk he, State.dropFlight_off]
  · have hfilter : X.flights.filter (fun f => f.id != a.id) = l := by
      rw [hf, List.filter_append, List.filter_eq_self.2 (fun f h => by simpa using hid f h)]
      simp
    unfold State.counted
    rw [← hfilter]
    rfl
  · intro f hfm hfid
    have hfm : f ∈ l ++ [a] := hf ▸ hfm
    rcases List.mem_append.1 hfm with h | h
    · exact absurd hfid (hid f h)
    · rw [List.mem_singleton.1 h]
      exact hm

/-- The environment of an issue whose charge has been taken. -/
def paidEnv (s : State) (g : Gang) (i : Instr) : Env := simtEnv s (g.charge (ciOf i.maj) 0) i
/-- The effect of an arrival. -/
def arriveEff (e : Env) (n : Nat) : Eff := { st := e.s.arrived e n }
/-- An arrival as it stands in flight after its issue. -/
def arrivalIn (s : State) (g : Gang) (i : Instr) (n : Nat) : Flight :=
  let e := paidEnv s g i
  { (e.g.arrived (s.cohort g.ctx (g.k n).idx.toNat) n).launched (arrivalOf e n) s.next with paid := (ciOf i.maj, 0) }

section Issue
variable {i : Instr} {n : Nat} (hn : s.nothingOut g) (hi : Issues s g i)
include hn hi

theorem State.issued_arrived :
    let X := State.issued i (paidEnv s g i) (arriveEff (paidEnv s g i) n) (ciOf i.maj) 0
    X.flights = s.flights ++ [arrivalIn s g i n] ∧ X.ctxs = s.ctxs ∧ X.dev = s.dev ∧ X.core g.gcore = Core.issuedBy i (paidEnv s g i) s.cycle (s.core g.gcore) ∧
    ∃ gX, X.gang? g.uid = some gX ∧ gX.ctl = (g.arrived (s.cohort g.ctx (g.k n).idx.toNat) n).ctl ∧ gX.lostStore = false ∧ gX.iss.splitTo = none := by
  have hg1 : (paidEnv s g i).s.gang? g.uid = some (g.charge (ciOf i.maj) 0) := (hi.charged _ _).1
  let k : KReg := { g.k n with phase := (s.cohort g.ctx (g.k n).idx.toNat).phase, arrived := true }
  have hg2 : ((paidEnv s g i).s.setK g.uid n k).gang? g.uid = some ((g.charge (ciOf i.maj) 0).arrived (s.cohort g.ctx (g.k n).idx.toNat) n) :=
    State.gang?_modGang_same (s := (paidEnv s g i).s) (fun y => { y with ctl := { y.ctl with k := SMap.set y.ctl.k n k } }) (fun _ => rfl) hg1
  have hst : (paidEnv s g i).s.arrived (paidEnv s g i) n = _ := State.launchFlight_gang (f := arrivalOf (paidEnv s g i) n) hg2
  have hX := State.gang?_issued (i := i) (e := paidEnv s g i) (f := arriveEff (paidEnv s g i) n) (ci := ciOf i.maj) (ct := 0)
    (show ((paidEnv s g i).s.arrived (paidEnv s g i) n).gang? g.uid = _ by rw [hst]; exact hg2)
  obtain ⟨h1, h2, h3⟩ := Gang.issued_ctl ((g.charge (ciOf i.maj) 0).arrived (s.cohort g.ctx (g.k n).idx.toNat) n) i (arriveEff (paidEnv s g i) n)
    (paidEnv s g i).npc ((arriveEff (paidEnv s g i) n).next.getD (paidEnv s g i).npc) (arriveEff (paidEnv s g i) n).st.clock.el (ciOf i.maj) 0 rfl rfl
  refine ⟨?_, ?_, ?_, ?_, _, hX, h1, h2.trans hn.stored, h3.trans hi.unsealed.2⟩
  · exact State.issued_launched (e := paidEnv s g i)
      (a := (g.charge (ciOf i.maj) 0).arrived (s.cohort g.ctx (g.k n).idx.toNat) n |>.launched (arrivalOf (paidEnv s g i) n) s.next)
      (congrArg State.flights hst) rfl (fun f hf => ⟨(hn.flights f hf).1, (hn.flights f hf).2.1⟩)
  · exact (State.issued_ctxs ..).trans ((congrArg State.ctxs hst).trans rfl)
  · exact (State.issued_dev ..).trans ((congrArg State.dev hst).trans rfl)
  · refine (State.issued_core ..).trans ((if_pos rfl).trans ?_)
    show Core.issuedBy i (paidEnv s g i) ((paidEnv s g i).s.arrived (paidEnv s g i) n).cycle (((paidEnv s g i).s.arrived (paidEnv s g i) n).core g.gcore) = _
    rw [hst]
    rfl

/-- An arrival behind which nothing is outstanding counts before its seal. -/
theorem State.applyReleases_arrived :
    (State.issued i (paidEnv s g i) (arriveEff (paidEnv s g i) n) (ciOf i.maj) 0).applyReleases =
      (State.issued i (paidEnv s g i) (arriveEff (paidEnv s g i) n) (ciOf i.maj) 0).counted (arrivalIn s g i n) g.uid (g.k n).idx.toNat n s.flights := by
  obtain ⟨hfl, hctx, hdev, hcore, gX, hgX, hctl, hlost, hsplit⟩ := State.issued_arrived (n := n) hn hi
  have hmus : (State.issued i (paidEnv s g i) (arriveEff (paidEnv s g i) n) (ciOf i.maj) 0).muslinMode g.ctx = 0 := by
    exact (congrArg (fun z => bits64 z 1 0) (State.reg_of hdev _)).trans hn.muslin
  refine State.applyReleases_counted hfl (State.calmFor_flights hn.calm) (fun f hf => (hn.flights f hf).2.1) rfl rfl ?_ hmus
  refine State.enabled_arrive (u := g.uid) (c := (g.k n).idx.toNat) (k := n) rfl rfl rfl rfl (fun f hf => ?_) hgX hlost hmus ?_ ?_ ?_
  · rw [hfl] at hf
    rcases List.mem_append.1 hf with h | h
    · exact Or.inr ⟨(hn.flights f h).1, (hn.flights f h).2.2⟩
    · exact Or.inl (List.mem_singleton.1 h)
  · exact (congrArg Core.freeze hcore).trans hn.thawed
  · exact (congrArg (fun c => c.storing g.uid) hcore).trans hn.seen
  · intro m hm
    exact hn.mq m ((congrArg Core.mq hcore) ▸ hm)

end Issue

/-- What handle n holds after an arrival. -/
def arrivedK (s : State) (g : Gang) (n : Nat) : KReg := { g.k n with phase := (s.cohort g.ctx (g.k n).idx.toNat).phase, arrived := true }

/-- A gang with a value in a barrier handle. -/
def Gang.withK (n : Nat) (k : KReg) (g : Gang) : Gang := { g with ctl := { g.ctl with k := SMap.set g.ctl.k n k } }

section Issue
variable {i : Instr} {n : Nat} (hn : s.nothingOut g) (hi : Issues s g i)
include hn hi

omit hi in
theorem State.counted_onlySeals :
    ((State.issued i (paidEnv s g i) (arriveEff (paidEnv s g i) n) (ciOf i.maj) 0).counted (arrivalIn s g i n) g.uid (g.k n).idx.toNat n s.flights).onlySeals g := by
  have h1 : ((paidEnv s g i).s.arrived (paidEnv s g i) n).onlySeals g :=
    State.onlySeals_modGang (State.onlySeals_charged hn.calm i _ _) (F := Gang.withK n (arrivedK s g n)) (fun _ => rfl) (fun _ => rfl)
  have h2 := State.onlySeals_issued (s := s) (i := i) (ci := ciOf i.maj) (ct := 0) (f := arriveEff (paidEnv s g i) n) h1
  exact State.onlySeals_map (State.onlySeals_modGang h2 (F := Gang.rephase n _) (fun _ => rfl) (fun _ => rfl))
    (F := fun y => { y with iss := { y.iss with block := y.iss.block.filter (fun b => b != (arrivalIn s g i n).id) } }) (fun _ => ⟨rfl, rfl, id⟩)

theorem State.counted_noLateTrap :
    ((State.issued i (paidEnv s g i) (arriveEff (paidEnv s g i) n) (ciOf i.maj) 0).counted (arrivalIn s g i n) g.uid (g.k n).idx.toNat n s.flights).noLateTrap := by
  have h1 : ((paidEnv s g i).s.arrived (paidEnv s g i) n).noLateTrap :=
    State.noLateTrap_modGang (f := Gang.withK n (arrivedK s g n)) _ (fun _ => rfl) (hi.charged _ _).2
  rw [← State.applyReleases_arrived hn hi]
  exact State.noLateTrap_passed (State.applyReleases_passed _) (State.applyReleases_losses _) (State.issued_noLateTrap h1)

omit hn hi in
theorem State.counted_bytes :
    s.sameBytes ((State.issued i (paidEnv s g i) (arriveEff (paidEnv s g i) n) (ciOf i.maj) 0).counted (arrivalIn s g i n) g.uid (g.k n).idx.toNat n s.flights) :=
  State.sameBytes_trans (State.sameBytes_of (s := s) (t := (arriveEff (paidEnv s g i) n).st) rfl rfl rfl rfl rfl (fun _ => rfl))
    (State.sameBytes_trans (State.issued_bytes ..) (State.sameBytes_of rfl rfl rfl rfl rfl (fun _ => rfl)))

end Issue
/-- A gang at the end of a step in which only g may seal, Muslin off: its masks, stack and barrier handles pass by. -/
theorem State.onlySeals_pump_gang {X : State} {gY : Gang} {u : Nat} (h : X.applyReleases.onlySeals g) (hm : X.applyReleases.muslinMode g.ctx = 0)
    (hl : X.applyReleases.noLateTrap) (hg : X.applyReleases.gang? u = some gY) (hs : gY.iss.splitTo = none) :
    X.pump = { X.applyReleases with gangs := X.pump.gangs } ∧ ∃ g', X.pump.gang? u = some g' ∧ g'.ctl = gY.ctl := by
  obtain ⟨hrest, hgang⟩ := State.onlySeals_pump h hm hl
  refine ⟨hrest, ?_⟩
  have hY : ({ X.applyReleases with gangs := X.applyReleases.gangs.map (fun g => g.takeSeal.takeSplit (X.applyReleases.resultsOut g.uid)) } : State).gang? u =
      some (gY.takeSeal.takeSplit (X.applyReleases.resultsOut gY.uid)) :=
    State.gang?_map (fun g => g.takeSeal.takeSplit (X.applyReleases.resultsOut g.uid)) (fun x => by rw [Gang.takeSplit_uid, Gang.takeSeal_uid]) hg
  obtain ⟨m, l, hg'⟩ := hgang u _ hY
  refine ⟨_, hg', ?_⟩
  rw [Gang.takeSplit_none ((Gang.takeSeal_split gY).trans hs), Gang.takeSeal_frame gY]

/-- An arrival behind which nothing is outstanding (R49, R250). -/
theorem barArrive_counts (hn : s.nothingOut g) (hi : Issues s g (.barArrive h x)) (he : ∃ st, g.executes (.barArrive h x) st = true)
    (hv : (g.k (x.a.toNat % 4)).valid = true) :
    let n := x.a.toNat % 4
    let idx := (g.k n).idx.toNat
    ∃ t g', exec (.barArrive h x) s = .next t ∧ t.gang? g.uid = some g' ∧ g'.pc = g.pc + 8 ∧ Leaves g g' (.barArrive h x) 0 ∧ keepsRegs g g' ∧
      s.sameBytes t ∧ t.flights = s.flights ∧ g'.k n = arrivedK s g n ∧ (∀ m, m ≠ n → g'.k m = g.k m) ∧
      t.ctxs = (s.modCohort g.ctx idx Cohort.arrive).ctxs := by
  intro n idx
  obtain ⟨hg1, hl1⟩ := hi.charged (ciOf (Instr.barArrive h x).maj) 0
  have hst : ((paidEnv s g (.barArrive h x)).s.arrived (paidEnv s g (.barArrive h x)) n).gang? g.uid =
      some ((g.charge (ciOf (Instr.barArrive h x).maj) 0).withK n (arrivedK s g n)) :=
    State.gang?_modGang_same (s := (paidEnv s g (.barArrive h x)).s) (Gang.withK n (arrivedK s g n)) (fun _ => rfl) hg1
  have hl2 : ((paidEnv s g (.barArrive h x)).s.arrived (paidEnv s g (.barArrive h x)) n).noLateTrap :=
    State.noLateTrap_modGang (f := Gang.withK n (arrivedK s g n)) _ (fun _ => rfl) hl1
  obtain ⟨t, g', hr, ht, hg', hpc, hlv, hkr, _⟩ := run_keeps hi (m := semBarArrive h x) (g0 := g) rfl (semBarArrive_op he hv hn.stored) hl2 hst rfl hi.unsealed
  obtain ⟨_, hctx, hdev, _, gX, hgX, hctl, _, hsplit⟩ := State.issued_arrived (n := n) hn hi
  have hY := State.applyReleases_arrived (n := n) hn hi
  have htp : t = (State.issued (.barArrive h x) (paidEnv s g (.barArrive h x)) (arriveEff (paidEnv s g (.barArrive h x)) n)
      (ciOf (Instr.barArrive h x).maj) 0).pump :=
    ht.trans (State.commit_issued (e := paidEnv s g (.barArrive h x)) (f := arriveEff (paidEnv s g (.barArrive h x)) n) hn.calm rfl)
  generalize hX : State.issued (.barArrive h x) (paidEnv s g (.barArrive h x)) (arriveEff (paidEnv s g (.barArrive h x)) n)
    (ciOf (Instr.barArrive h x).maj) 0 = X at *
  obtain ⟨gY, hgY, hkY, hsY⟩ : ∃ gY, (X.counted (arrivalIn s g (.barArrive h x) n) g.uid idx n s.flights).gang? g.uid = some gY ∧
      gY.ctl.k = SMap.set (SMap.set g.ctl.k n (arrivedK s g n)) n (arrivedK s g n) ∧ gY.iss.splitTo = none := by
    refine ⟨_, State.gang?_map (s := (X.modGang g.uid (Gang.rephase n (X.cohort g.ctx idx).phase)).modCohort g.ctx idx Cohort.arrive)
      (fun y => { y with iss := { y.iss with block := y.iss.block.filter (fun b => b != s.next) } }) (fun _ => rfl)
      (State.gang?_modGang_same _ (fun _ => rfl) hgX), ?_, hsplit⟩
    have hc : X.cohort g.ctx idx = s.cohort g.ctx idx := by unfold State.cohort State.ctx; rw [hctx]
    have hk : gX.ctl.k = SMap.set g.ctl.k n (arrivedK s g n) := congrArg Ctl.k hctl
    have hkn : gX.k n = arrivedK s g n := by unfold Gang.k; rw [hk, SMap.get_set_same]
    show SMap.set gX.ctl.k n { gX.k n with phase := (X.cohort g.ctx idx).phase } = _
    rw [hc, hkn, hk]
    rfl
  have hos := State.counted_onlySeals (i := .barArrive h x) (n := n) hn
  have hnl := State.counted_noLateTrap (n := n) hn hi
  have hb := State.counted_bytes (s := s) (g := g) (i := .barArrive h x) (n := n)
  rw [hX] at hos hnl hb
  have hmus : (X.counted (arrivalIn s g (.barArrive h x) n) g.uid idx n s.flights).muslinMode g.ctx = 0 :=
    (congrArg (fun z => bits64 z 1 0) (State.reg_of (s := s) hdev _)).trans hn.muslin
  rw [← hY] at hos hnl hb hgY hmus
  obtain ⟨hrest, g2, hg2, hctl2⟩ := State.onlySeals_pump_gang hos hmus hnl hgY hsY
  rw [hY] at hrest
  have hgg : g2 = g' := Option.some.inj (hg2.symm.trans (htp ▸ hg'))
  have hk2 : ∀ m, g'.k m = if n = m then arrivedK s g n else g.k m := fun m => by
    unfold Gang.k
    rw [← hgg, hctl2, hkY, SMap.get_set, SMap.get_set]
    split <;> rfl
  rw [← htp] at hrest
  refine ⟨t, g', hr, hg', hpc, hlv, hkr, State.sameBytes_trans (hY ▸ hb) ?_, ?_, ?_, ?_, ?_⟩
  · exact hrest ▸ State.sameBytes_of rfl rfl rfl rfl rfl (fun _ => rfl)
  · exact (congrArg State.flights hrest).trans rfl
  · rw [hk2, if_pos rfl]
  · exact fun m hm => by rw [hk2, if_neg (Ne.symm hm)]
  · refine (congrArg State.ctxs hrest).trans ?_
    show (X.modCohort g.ctx idx Cohort.arrive).ctxs = _
    simp only [State.modCohort, State.modCtx, State.ctx, hctx]
theorem barWait_seals (hi : Issues s g (.barWait h x)) : (Instr.barWait h x).seals = false := by
  have hw := eq_of_beq (Laws.RoundTrip.wf_of_legal hi.legal : (x.fn == 1#8) = true)
  show sealsOf 0x59 x.fn.toNat = false
  rw [hw]
  decide

/-- A wait whose phase has passed: the handle has no arrival any more, and the core's L1 invalidates itself (R122, R250). -/
theorem semBarWait_op {ci ct : Nat} (hm : s.muslinMode g.ctx = 0) (hloss : g.loss = (s.ctx g.ctx).loss) (he : ∃ st, g.executes (.barWait h x) st = true)
    (hv : (g.k (x.a.toNat % 4)).valid = true)
    (hp : (g.k (x.a.toNat % 4)).arrived = false ∨
      (s.arriving g.uid (x.a.toNat % 4) = false ∧ (s.cohort g.ctx (g.k (x.a.toNat % 4)).idx.toNat).phase ≠ (g.k (x.a.toNat % 4)).phase)) :
    (semBarWait h x).op (simtEnv s (g.charge ci ct) (.barWait h x)) =
      .ok { st := ((simtEnv s (g.charge ci ct) (.barWait h x)).s.setK g.uid (x.a.toNat % 4) { g.k (x.a.toNat % 4) with arrived := false }).acquire g.uid } := by
  have hcond : ((g.k (x.a.toNat % 4)).arrived && (s.arriving g.uid (x.a.toNat % 4) ||
      (s.cohort g.ctx (g.k (x.a.toNat % 4)).idx.toNat).phase == (g.k (x.a.toNat % 4)).phase)) = false := by
    rcases hp with h | ⟨h1, h2⟩
    · rw [h]; rfl
    · rw [h1, beq_false_of_ne h2]
      simp
  have hm' : (simtEnv s (g.charge ci ct) (.barWait h x)).s.muslinMode (simtEnv s (g.charge ci ct) (.barWait h x)).g.ctx = 0 := hm
  have ht : (simtEnv s (g.charge ci ct) (.barWait h x)).acquireTrap = none :=
    if_neg (show ¬ (g.loss != (s.ctx g.ctx).loss) = true by rw [hloss]; simp)
  unfold semBarWait
  dsimp only
  rw [if_neg (by simp [(Env.acts_simt ..).2 he])]
  refine (if_neg (show ¬ (!(g.k (x.a.toNat % 4)).valid) = true by rw [hv]; decide)).trans ?_
  refine (if_neg (show ¬ ((g.k (x.a.toNat % 4)).arrived && (s.arriving g.uid (x.a.toNat % 4) ||
      (s.cohort g.ctx (g.k (x.a.toNat % 4)).idx.toNat).phase == (g.k (x.a.toNat % 4)).phase)) = true by rw [hcond]; decide)).trans ?_
  rw [State.orderOk_off hm', State.noteOrder_off hm', ht]
  rfl

theorem semBarWait_waits {ci ct : Nat} (he : ∃ st, g.executes (.barWait h x) st = true) (hv : (g.k (x.a.toNat % 4)).valid = true)
    (ha : (g.k (x.a.toNat % 4)).arrived = true) (hp : (s.cohort g.ctx (g.k (x.a.toNat % 4)).idx.toNat).phase = (g.k (x.a.toNat % 4)).phase) :
    (semBarWait h x).op (simtEnv s (g.charge ci ct) (.barWait h x)) = .wait (simtEnv s (g.charge ci ct) (.barWait h x)).s := by
  unfold semBarWait
  dsimp only
  rw [if_neg (by simp [(Env.acts_simt ..).2 he])]
  refine (if_neg (show ¬ (!(g.k (x.a.toNat % 4)).valid) = true by rw [hv]; decide)).trans ?_
  refine (if_pos (show ((g.k (x.a.toNat % 4)).arrived && (s.arriving g.uid (x.a.toNat % 4) ||
      (s.cohort g.ctx (g.k (x.a.toNat % 4)).idx.toNat).phase == (g.k (x.a.toNat % 4)).phase)) = true by rw [ha, hp]; simp))

/-- The state that an acquire of a gang leaves, its counters off. -/
theorem State.acquire_calm {t : State} {g : Gang} {u : Nat} (hq : t.calmFor g = true) (hg : t.gang? u = some g) : t.acquire u = t.selfInvalidate g.gcore := by
  unfold State.acquire
  rw [hg]
  exact (State.calm_counters (t := t.selfInvalidate g.gcore) hq rfl).1 _ _

theorem State.selfInvalidate_core (s : State) (c : Nat) :
    (s.selfInvalidate c).core c = { s.core c with l1 := (s.core c).l1.map (fun kl => (kl.1, selfInvalidateLine kl.2)) } := State.core_modCore_same ..

theorem State.selfInvalidate_shares (s : State) (c n : Nat) : ((s.selfInvalidate c).core n).shares = (s.core n).shares := by
  by_cases h : c = n
  · rw [← h, State.selfInvalidate_core]
  · exact congrArg Core.shares (State.core_modCore_ne s _ h)

theorem State.calmFor_modCore {s : State} {g : Gang} {c : Nat} (F : Core → Core) (h : s.calmFor g = true) : (s.modCore c F).calmFor g = true :=
  State.calmFor_of (s := s) (fun _ hx => Or.inl hx) (fun x hx => ⟨x, hx, rfl, rfl, rfl⟩) rfl h

/-- A wait whose phase has passed completes (R49, R250). -/
theorem barWait_passes (hq : s.calmFor g = true) (hm : s.muslinMode g.ctx = 0) (hloss : g.loss = (s.ctx g.ctx).loss) (hi : Issues s g (.barWait h x))
    (he : ∃ st, g.executes (.barWait h x) st = true) (hv : (g.k (x.a.toNat % 4)).valid = true)
    (hp : (g.k (x.a.toNat % 4)).arrived = false ∨
      (s.arriving g.uid (x.a.toNat % 4) = false ∧ (s.cohort g.ctx (g.k (x.a.toNat % 4)).idx.toNat).phase ≠ (g.k (x.a.toNat % 4)).phase)) :
    ∃ t g', exec (.barWait h x) s = .next t ∧ t.gang? g.uid = some g' ∧ g'.pc = g.pc + 8 ∧ Leaves g g' (.barWait h x) 0 ∧ keepsRegs g g' ∧
      s.sameBytes t ∧ g'.k (x.a.toNat % 4) = { g.k (x.a.toNat % 4) with arrived := false } ∧ t.ctxs = s.ctxs ∧
      (t.core g.gcore).l1 = (s.core g.gcore).l1.map (fun kl => (kl.1, selfInvalidateLine kl.2)) := by
  let i : Instr := .barWait h x
  let k : KReg := { g.k (x.a.toNat % 4) with arrived := false }
  let g1 := (g.charge (ciOf i.maj) 0).withK (x.a.toNat % 4) k
  let st1 := (paidEnv s g i).s.setK g.uid (x.a.toNat % 4) k
  have hg1 : st1.gang? g.uid = some g1 := State.gang?_modGang_same (Gang.withK (x.a.toNat % 4) k) (fun _ => rfl) (hi.charged (ciOf i.maj) 0).1
  have hq1 : st1.calmFor g1 = true :=
    State.calmFor_modGang (f := Gang.withK (x.a.toNat % 4) k) _ (fun _ => ⟨rfl, rfl, rfl⟩) (State.calmFor_charged hi.here hq (ciOf i.maj) 0 i)
  have hl1 : st1.noLateTrap := State.noLateTrap_modGang (f := Gang.withK (x.a.toNat % 4) k) _ (fun _ => rfl) (hi.charged (ciOf i.maj) 0).2
  have hacq : st1.acquire g.uid = st1.selfInvalidate g.gcore := State.acquire_calm (g := g1) hq1 hg1
  have hop := semBarWait_op (ci := ciOf i.maj) (ct := 0) hm hloss he hv hp
  obtain ⟨t, g', hr, ht, hg', hpc, hlv, hkr, hpass⟩ := run_keeps hi (m := semBarWait h x) (g0 := g) (g1 := g1) rfl
    (hop.trans (congrArg (fun z => Res.ok { st := z }) hacq)) hl1 hg1 rfl hi.unsealed
  have hti : t = State.issued i (paidEnv s g i) { st := st1.selfInvalidate g.gcore } (ciOf i.maj) 0 :=
    ht.trans (State.commit_eq_issued (e := paidEnv s g i) (State.calmFor_modCore _ hq1) hl1 (barWait_seals hi))
  have hgX := State.gang?_issued (i := i) (e := paidEnv s g i) (f := { st := st1.selfInvalidate g.gcore }) (ci := ciOf i.maj) (ct := 0) hg1
  have hk : g'.ctl = g1.ctl := by
    rw [Option.some.inj ((hg'.symm.trans (congrArg (fun z => z.gang? g.uid) hti)).trans hgX)]
    exact (Gang.issued_ctl g1 i { st := st1.selfInvalidate g.gcore } _ _ _ _ _ rfl rfl).1
  refine ⟨t, g', hr, hg', hpc, hlv, hkr, ?_, ?_, ?_, ?_⟩
  · rw [hti]
    exact State.sameBytes_trans (State.sameBytes_of (s := s) (t := st1.selfInvalidate g.gcore) rfl rfl rfl rfl rfl
      (fun n => State.selfInvalidate_shares st1 g.gcore n)) (State.issued_bytes ..)
  · unfold Gang.k
    rw [hk]
    exact SMap.get_set_same ..
  · rw [hti, State.issued_ctxs]
    rfl
  · rw [hti, State.issued_core]
    exact congrArg Core.l1 ((if_pos rfl).trans (congrArg (Core.issuedBy _ _ _) (State.selfInvalidate_core st1 g.gcore)))

/-- A wait whose phase has not passed waits at its own address. -/
theorem barWait_waits (hi : Issues s g (.barWait h x)) (he : ∃ st, g.executes (.barWait h x) st = true) (hv : (g.k (x.a.toNat % 4)).valid = true)
    (ha : (g.k (x.a.toNat % 4)).arrived = true) (hp : (s.cohort g.ctx (g.k (x.a.toNat % 4)).idx.toNat).phase = (g.k (x.a.toNat % 4)).phase) :
    ∃ t g', exec (.barWait h x) s = .next t ∧ t.gang? g.uid = some g' ∧ g'.pc = g.pc ∧ g'.regs = g.regs ∧ g'.ctl = g.ctl ∧ g'.spec = g.spec ∧
      s.sameBytes t ∧ t.ctxs = s.ctxs := by
  have hr := run_issues (m := semBarWait h x) hi
  dsimp only at hr
  rw [semBarWait_waits he hv ha hp] at hr
  refine ⟨_, _, hr, State.gang?_modGang_same (s := (paidEnv s g (.barWait h x)).s)
    (fun y => { y with spec := { y.spec with ib := g.spec.ib, tb := g.spec.tb }, iss := { y.iss with waited := true } }) (fun _ => rfl)
    (hi.charged (ciOf (Instr.barWait h x).maj) 0).1, rfl, rfl, rfl, rfl, State.sameBytes_of rfl rfl rfl rfl rfl (fun _ => rfl), rfl⟩

end Bar

/-- Settles O30: an arrival with nothing outstanding counts before its seal; a wait asks for the phase. -/
theorem cohortBarriers : Obligations.CohortBarriers := by
  unfold Obligations.CohortBarriers
  intro s g h x hq hm hlost hloss hfr n idx c
  have hctx : ∀ {t : State}, t.ctxs = s.ctxs → t.cohort g.ctx idx = c := fun ht => by unfold State.cohort State.ctx; rw [ht]; rfl
  refine ⟨fun hi he hv hf hst hmq => ?_, fun hi he hv => ⟨fun hp => ?_, fun ha hp => ?_⟩⟩
  · obtain ⟨t, g', h1, h2, h3, h4, h5, h6, h7, h8, h9, h10⟩ := barArrive_counts ⟨hq, hm, hlost, hfr, hf, hst, hmq⟩ hi he hv
    have hco : ∀ j, t.cohort g.ctx j = (s.modCohort g.ctx idx Cohort.arrive).cohort g.ctx j := fun j => by
      unfold State.cohort State.ctx
      rw [h10]
    have hmod : ∀ j, (s.modCohort g.ctx idx Cohort.arrive).cohort g.ctx j = SMap.get (SMap.upd (s.ctx g.ctx).cohorts idx {} Cohort.arrive) j {} := fun j => by
      unfold State.modCohort State.cohort
      rw [State.ctx_modCtx_same]
    refine ⟨t, g', h1, h2, h3, h4, h5, h6, h7, h8, h9, fun j hj => ?_, ?_⟩
    · rw [hco, hmod]
      exact SMap.get_set_ne _ _ _ (Ne.symm hj)
    · rw [hco, hmod]
      exact SMap.get_set_same ..
  · obtain ⟨t, g', h1, h2, h3, h4, h5, h6, h7, h8, h9⟩ := barWait_passes hq hm hloss hi he hv hp
    exact ⟨t, g', h1, h2, h3, h4, h5, h6, h7, hctx h8, h9⟩
  · obtain ⟨t, g', h1, h2, h3, h4, h5, h6, h7, h8⟩ := barWait_waits hi he hv ha hp
    exact ⟨t, g', h1, h2, h3, h4, h5, h6, h7, hctx h8⟩

end Sys2Proof.Machine
end

section
/-! SUPPORT. Requests of a gang: what the walks behind them count at the home slices, and the operations that leave. -/

namespace Sys2Proof.Machine

/-! ## Accesses that count at a home slice (R105, R413) -/

section Frame
variable {γ : Type} (p : State → γ) (hs : ∀ (s : State) l, p { s with slices := l } = p s) (hw : ∀ (s : State) l, p { s with wrapped := l } = p s)
  (ha : ∀ (s : State) l, p { s with audits := l } = p s) (hr : ∀ (s : State) a v, a % 16 = 8 → p (s.setReg a v) = p s)
include hs hw ha hr

omit hs ha in
theorem State.sliceCount_frame (s : State) (h ev tenant : Nat) (o : Option Nat) : p (s.sliceCount h ev tenant o) = p s := by
  refine foldl_keep p _ (fun st n => ?_) _ _
  have hb : p (st.bump (sliceBlock h + 16 * n) 1) = p st := by
    have hreg : ∀ v, p (st.setReg (sliceBlock h + 16 * n + 8) v) = p st := fun v => hr _ _ _ (by simp only [sliceBlock, devBase]; omega)
    unfold State.bump
    dsimp only
    split
    · rfl
    · split
      · exact (hw _ _).trans (hreg _)
      · exact hreg _
  have key : ∀ c : Bool, p (if c then st.bump (sliceBlock h + 16 * n) 1 else st) = p st := fun c => by
    cases c
    · rfl
    · exact hb
  exact key _

omit hs in
theorem State.auditEnd_frame (s : State) (h : Nat) (l : L2Line) (pass : Bool) : p (s.auditEnd h l pass) = p s := by
  unfold State.auditEnd
  split
  · rfl
  · split
    · rfl
    · exact (State.sliceCount_frame p hw hr ..).trans (ha _ _)

/-- A part of the state that neither the slices, their counters nor the audits hold passes by an access of a home slice. -/
theorem State.touch2_frame (s : State) (pa : Nat) (a : Asker) : p (s.touch2 pa a) = p s := by
  have hm : ∀ (s : State) h f, p (s.modSlice h f) = p s := fun s h f => hs _ _
  unfold State.touch2
  dsimp only
  split
  · exact (State.sliceCount_frame p hw hr ..).trans (hm ..)
  · split
    · exact hm ..
    · split
      · split
        · exact (hm ..).trans ((State.auditEnd_frame p hw ha hr ..).trans ((State.sliceCount_frame p hw hr ..).trans (hm ..)))
        · exact (State.sliceCount_frame p hw hr ..).trans (hm ..)
      · exact (State.sliceCount_frame p hw hr ..).trans (hm ..)

end Frame

/-- What the walks of a core's accesses leave: every read of bytes is the same, and beside the slices, their counters, the TLBs and the walk
caches nothing has changed. -/
structure State.Walked (s t : State) : Prop extends s.SameReads t where
  flights : t.flights = s.flights
  gangs   : t.gangs = s.gangs
  ctxs    : t.ctxs = s.ctxs
  next    : t.next = s.next
  cycle   : t.cycle = s.cycle
  regs    : ∀ a, a % 16 = 0 → t.reg a = s.reg a

theorem State.Walked.refl (s : State) : s.Walked s := ⟨.refl s, rfl, rfl, rfl, rfl, rfl, fun _ _ => rfl⟩

theorem State.Walked.trans {s t u : State} (h : s.Walked t) (k : t.Walked u) : s.Walked u :=
  ⟨h.toSameReads.trans k.toSameReads, k.flights.trans h.flights, k.gangs.trans h.gangs, k.ctxs.trans h.ctxs, k.next.trans h.next, k.cycle.trans h.cycle,
    fun a ha => (k.regs a ha).trans (h.regs a ha)⟩

theorem State.walked_touch2 (s : State) (pa : Nat) (a : Asker) : s.Walked (s.touch2 pa a) := by
  have keep : ∀ {γ : Type} (p : State → γ), (∀ (s : State) l, p { s with slices := l } = p s) → (∀ (s : State) l, p { s with wrapped := l } = p s) →
      (∀ (s : State) l, p { s with audits := l } = p s) → (∀ (s : State) a v, a % 16 = 8 → p (s.setReg a v) = p s) → p (s.touch2 pa a) = p s :=
    fun p h1 h2 h3 h4 => State.touch2_frame p h1 h2 h3 h4 s pa a
  refine ⟨s.sameReads_touch2 pa a, keep State.flights ?_ ?_ ?_ ?_, keep State.gangs ?_ ?_ ?_ ?_, keep State.ctxs ?_ ?_ ?_ ?_, keep State.next ?_ ?_ ?_ ?_,
    keep State.cycle ?_ ?_ ?_ ?_, fun b hb => keep (fun s => s.reg b) ?_ ?_ ?_ (fun s a v ha => ?_)⟩
  case refine_24 =>
    rw [State.reg_setReg, if_neg]
    intro h
    omega
  all_goals intros; rfl

theorem State.walked_of {s t : State} (h : t = { s with tlbs := t.tlbs, pointers := t.pointers }) : s.Walked t := by
  rw [h]
  exact ⟨⟨.of_eq rfl rfl rfl rfl (fun _ => rfl), rfl, rfl⟩, rfl, rfl, rfl, rfl, rfl, fun _ _ => rfl⟩

/-- A walk counts its reads and fills the walk cache (R105, R380). -/
theorem State.walked_walked (s : State) (unit ctx va : Nat) : s.Walked (s.walked unit ctx va) := by
  unfold State.walked
  extract_lets path s1 new mine
  have h1 : s.Walked s1 := foldl_inv s.Walked _ (fun st x hst => hst.trans (st.walked_touch2 _ _)) _ s (.refl s)
  exact h1.trans (State.walked_of rfl)

theorem State.walked_cache (s : State) (unit ctx va : Nat) (w : Walk) : s.Walked (s.cache unit ctx va w) := by
  have hput : ∀ (t : State) e, t.Walked (t.tlbPut e) := fun t e => State.walked_of rfl
  unfold State.cache
  split
  · extract_lets e first
    have hfirst : ∀ t : State, t.Walked (first t) := fun t => by
      show t.Walked (if unit < 256 then t.tlbPut { e with unit := firstLevel unit } else t)
      split
      · exact hput ..
      · exact .refl t
    split
    · exact .refl s
    · split
      · exact hfirst s
      · exact (s.walked_walked unit ctx va).trans ((hput ..).trans (hfirst _))
  · exact s.walked_walked unit ctx va

theorem State.walked_cacheAll (s : State) (core ctx : Nat) (ts : List (Part × Walk)) : s.Walked (s.cacheAll core ctx ts) :=
  foldl_inv s.Walked _ (fun st _ hst => hst.trans (st.walked_cache ..)) _ s (.refl s)

section
variable {s t : State} (h : s.Walked t)
include h

theorem State.Walked.calmFor {g : Gang} (hq : s.calmFor g = true) : t.calmFor g = true := by
  have hr : ∀ n, t.reg (counterBlock g.gcore + 16 * n) = s.reg (counterBlock g.gcore + 16 * n) := fun n =>
    h.regs _ (by simp only [counterBlock, devBase]; omega)
  have hg : t.reg (counterBlock g.gcore + 0x80) = s.reg (counterBlock g.gcore + 0x80) := hr 8
  unfold State.calmFor at hq ⊢
  simpa only [h.flights, h.gangs, hr, hg] using hq

theorem State.Walked.gang? (u : Nat) : t.gang? u = s.gang? u := by
  unfold State.gang?
  rw [h.gangs]

theorem State.Walked.noLateTrap (hl : s.noLateTrap) : t.noLateTrap := by
  unfold State.noLateTrap State.ctx
  rw [h.gangs, h.ctxs]
  exact hl

end

/-! ## Checks of an instruction whose charge has been taken -/

theorem State.walkFrom_gangs (s : State) (l : List Gang) (va k t : Nat) : ({ s with gangs := l } : State).walkFrom va k t = s.walkFrom va k t := by
  induction k generalizing t with
  | zero => rfl
  | succ k ih =>
    unfold State.walkFrom
    have hw : ∀ a, ({ s with gangs := l } : State).tableWord a = s.tableWord a := fun a => rfl
    simp only [hw, ih]

/-- A translation does not ask the gangs. -/
theorem State.translate_gangs (s : State) (l : List Gang) (u c va : Nat) : ({ s with gangs := l } : State).translate u c va = s.translate u c va := by
  show State.pageOf { s with gangs := l } u c va (s.tlbHit u c va) = _
  unfold State.translate State.pageOf State.walkBy
  rw [State.walkFrom_gangs]
  rfl

theorem paidEnv_translate (s : State) (g : Gang) (i : Instr) (va : Nat) :
    (paidEnv s g i).s.translate (paidEnv s g i).g.gcore (paidEnv s g i).g.ctx va = s.translate g.gcore g.ctx va := State.translate_gangs ..

theorem simtEnv_translate (s : State) (g : Gang) (i : Instr) (va : Nat) :
    (simtEnv s g i).s.translate (simtEnv s g i).g.gcore (simtEnv s g i).g.ctx va = s.translate g.gcore g.ctx va := State.translate_gangs ..

theorem paidEnv_checkMix (s : State) (g : Gang) (i : Instr) (qs : List (Req × Part)) : (paidEnv s g i).checkMix qs = (simtEnv s g i).checkMix qs := by
  unfold Env.checkMix
  simp only [paidEnv_translate, simtEnv_translate]
  rfl

/-- What passes the checks is each part with its translation. -/
theorem Env.checkMix_ok {e : Env} {qs : List (Req × Part)} {ts : List (Part × Walk)} (h : e.checkMix qs = .ok ts) :
    ts = qs.map (fun q => (q.2, e.s.translate e.g.gcore e.g.ctx q.2.pa)) := by
  unfold Env.checkMix at h
  dsimp only at h
  split at h
  · cases h
  · split at h
    · cases h
    · split at h
      · cases h
      · rw [← Except.ok.inj h, List.map_map]
        rfl

/-- Where no page is missing, every part is found. -/
theorem found_length {ts : List (Part × Walk)} (h : missing ts = []) : (found ts).length = ts.length := by
  induction ts with
  | nil => rfl
  | cons t ts ih =>
    obtain ⟨p, w⟩ := t
    cases w with
    | page pa size rd wr ex =>
      show (found ts).length + 1 = ts.length + 1
      rw [ih h]
    | fault k l => cases h

/-! ## Operations that leave -/

/-- An operation without its number, its place in program order, and what a launch and an issue note in it. -/
def Flight.request (f : Flight) : Flight :=
  { f with id := 0, seq := 0, mark := [], pc := 0, who := 0, launch := none, topup := false, paid := (0, 0) }

theorem State.launchFlight_request (s : State) (f : Flight) :
    ∃ x, s.launchFlight f = { s with next := s.next + 1, flights := s.flights ++ [x] } ∧ x.request = f.request := by
  unfold State.launchFlight
  exact ⟨_, rfl, rfl⟩

theorem State.launchAll_requests (s : State) (fs : List Flight) :
    ∃ new, s.launchAll fs = { s with next := s.next + fs.length, flights := s.flights ++ new } ∧ new.map Flight.request = fs.map Flight.request := by
  have key : ∀ (q : Nat) (l : List Flight) (st : State), ∃ new,
      l.foldl (fun st f => st.launchFlight { f with seq := q }) st = { st with next := st.next + l.length, flights := st.flights ++ new } ∧
        new.map Flight.request = l.map Flight.request := by
    intro q l
    induction l with
    | nil => exact fun st => ⟨[], by simp, rfl⟩
    | cons f l ih =>
      intro st
      obtain ⟨x, hs, hx⟩ := st.launchFlight_request { f with seq := q }
      obtain ⟨new, ht, hn⟩ := ih (st.launchFlight { f with seq := q })
      refine ⟨x :: new, ?_, by rw [List.map_cons, List.map_cons, hn, hx]; rfl⟩
      rw [List.foldl_cons, ht, hs]
      simp [Nat.add_assoc, Nat.add_comm 1]
  exact key s.next fs s

/-- The operations in flight after an issue that added some: the old ones unchanged, the new ones as they were asked for. -/
theorem State.issued_requests {i : Instr} {e : Env} {f : Eff} {ci ct : Nat} {new : List Flight} (h : f.st.flights = e.s.flights ++ new) :
    ∃ l, l.map Flight.request = new.map Flight.request ∧ (State.issued i e f ci ct).flights = e.s.flights ++ l := by
  refine ⟨new.map (fun x => if !e.s.flights.any (fun y => y.id == x.id) && x.uid == some e.g.uid then { x with paid := (ci, ct) } else x), ?_, ?_⟩
  · rw [List.map_map]
    refine List.map_congr_left (fun y _ => ?_)
    dsimp only [Function.comp]
    split <;> rfl
  · rw [State.issued_flights, h, List.map_append]
    congr 1
    refine (List.map_congr_left (fun y hy => ?_)).trans (List.map_id _)
    have : e.s.flights.any (fun x => x.id == y.id) = true := List.any_eq_true.2 ⟨y, hy, beq_self_eq_true _⟩
    rw [this]
    rfl

end Sys2Proof.Machine
end

section
/-! PROOFS. Futures (R52, R53, R255): the requests of a FUT leave the gang, which waits for their answers. -/

namespace Sys2Proof.Machine

/-! ## An issue after which its gang waits for operations of its own -/

/-- A gang that waits for operations. -/
def Gang.awaits (ids : List Nat) (g : Gang) : Gang := { g with iss := { g.iss with block := g.iss.block ++ ids } }

theorem Gang.issued_block (g : Gang) (i : Instr) (f : Eff) (n a : Word64) (el ci ct : Nat) :
    (((g.issueMarks f n ci ct).sealing i a).paid el ci ct).iss.block = g.iss.block := by
  unfold Gang.sealing
  split <;> simp [Gang.paid, Gang.issueMarks, Gang.ctr]

theorem Gang.issued_split (g : Gang) (i : Instr) (f : Eff) (n a : Word64) (el ci ct : Nat) :
    (((g.issueMarks f n ci ct).sealing i a).paid el ci ct).iss.splitTo = g.iss.splitTo ∧
      (((g.issueMarks f n ci ct).sealing i a).paid el ci ct).iss.mseal = g.iss.mseal := by
  unfold Gang.sealing
  split <;> simp [Gang.paid, Gang.issueMarks, Gang.ctr]

theorem Gang.cannotIssue_of_block {g : Gang} (h : g.iss.block ≠ []) (c : Nat) : g.cannotIssue c = true := by
  simp [Gang.cannotIssue, h]

/-- The state in which operations of a gang stand in flight, and the gang waits for them. -/
def State.asked (s : State) (u : Nat) (fs : List Flight) (ids : List Nat) : State := (s.launchAll fs).modGang u (Gang.awaits ids)

section
variable {s s1 : State} {g : Gang} {i : Instr} {fs : List Flight} {ids : List Nat} (hw : (paidEnv s g i).s.Walked s1)
  (hrel : ∀ f ∈ fs, f.releases = false) (h : Issues s g i) (hq : s.calmFor g = true)
include hw hrel h hq

theorem State.asked_calm : (s1.asked g.uid fs ids).calmFor g = true := by
  obtain ⟨new, hl, hn⟩ := s1.launchAll_requests fs
  refine State.calmFor_modGang (f := Gang.awaits ids) _ (fun _ => ⟨rfl, rfl, rfl⟩) ?_
  rw [hl]
  refine State.calmFor_of (s := s1) (fun f hf => ?_) (fun x hx => ⟨x, hx, rfl, rfl, rfl⟩) rfl (hw.calmFor (State.calmFor_charged h.here hq _ _ i))
  rcases List.mem_append.1 hf with hf | hf
  · exact Or.inl hf
  · obtain ⟨f0, h0, he⟩ := List.mem_map.1 (hn ▸ List.mem_map_of_mem hf)
    exact Or.inr ((show f.releases = f.request.releases from rfl).trans ((congrArg Flight.releases he).symm.trans (hrel f0 h0)))

omit hrel hq in
theorem State.asked_gang : (s1.asked g.uid fs ids).gang? g.uid = some ((g.charge (ciOf i.maj) 0).awaits ids) := by
  obtain ⟨new, hl, _⟩ := s1.launchAll_requests fs
  have hg : (s1.launchAll fs).gang? g.uid = some (g.charge (ciOf i.maj) 0) := by
    rw [hl]
    exact (hw.gang? _).trans (h.charged _ _).1
  exact State.gang?_modGang_same (Gang.awaits ids) (fun _ => rfl) hg

omit hrel hq in
theorem State.asked_noLateTrap : (s1.asked g.uid fs ids).noLateTrap := by
  obtain ⟨new, hl, _⟩ := s1.launchAll_requests fs
  refine State.noLateTrap_modGang _ (f := Gang.awaits ids) (fun _ => rfl) ?_
  rw [hl]
  exact hw.noLateTrap (h.charged _ _).2

omit hrel h hq in
theorem State.asked_bytes : s.sameBytes (s1.asked g.uid fs ids) := by
  obtain ⟨new, hl, _⟩ := s1.launchAll_requests fs
  refine State.sameBytes_trans (State.sameBytes_of (t := (paidEnv s g i).s) rfl rfl rfl rfl rfl (fun _ => rfl)) (State.sameBytes_trans hw.sameBytes ?_)
  refine State.sameBytes_trans ?_ (State.sameBytes_modGang ..)
  rw [hl]
  exact State.sameBytes_of rfl rfl rfl rfl rfl (fun _ => rfl)

theorem State.commit_sent (hids : ids ≠ []) : State.commit i (paidEnv s g i) { st := s1.asked g.uid fs ids } (ciOf i.maj) 0 =
    State.issued i (paidEnv s g i) { st := s1.asked g.uid fs ids } (ciOf i.maj) 0 := by
  have hc := State.asked_calm (ids := ids) hw hrel h hq
  have hl : (State.issued i (paidEnv s g i) { st := s1.asked g.uid fs ids } (ciOf i.maj) 0).noLateTrap := State.issued_noLateTrap (State.asked_noLateTrap hw h)
  refine (State.commit_issued (s := s1.asked g.uid fs ids) (e := paidEnv s g i) (f := { st := s1.asked g.uid fs ids }) hc rfl).trans
    (State.pump_calm (fun x hx => ?_) (fun x hx => ?_) hl)
  · rw [State.issued_flights] at hx
    obtain ⟨y, hy, rfl⟩ := List.mem_map.1 hx
    have hr := State.calmFor_flights hc y hy
    split
    · exact hr
    · exact hr
  · rcases State.issued_others hx with ⟨y, hy, hu, rfl⟩ | ⟨_, hy⟩
    · obtain ⟨_, h2, h3⟩ := State.calmFor_sealless hc y hy
      have hb : y.iss.block ≠ [] := by
        obtain ⟨z, _, hz⟩ := List.mem_map.1 (show y ∈ (s1.launchAll fs).gangs.map (fun z => if z.uid == g.uid then z.awaits ids else z) from hy)
        split at hz
        · rw [← hz]
          simp [Gang.awaits, hids]
        · next hn => exact absurd (beq_iff_eq.2 ((congrArg Gang.uid hz).trans hu)) hn
      obtain ⟨h4, h5⟩ := y.issued_split i { st := s1.asked g.uid fs ids } (paidEnv s g i).npc (paidEnv s g i).npc (s1.asked g.uid fs ids).clock.el (ciOf i.maj) 0
      exact ⟨Gang.takeSeal_blocked (by rw [Gang.issued_block]; exact hb), h4.trans h2, h5.trans h3⟩
    · obtain ⟨h1, h2, h3⟩ := State.calmFor_sealless hc x hy
      exact ⟨Gang.takeSeal_none h1, h2, h3⟩

/-- An issue whose effect is that operations leave and the gang waits for them. -/
theorem run_sent {m : Sem} (hct : m.ct (simtEnv s g i) = 0) (hids : ids ≠ []) (hop : m.op (paidEnv s g i) = .ok { st := s1.asked g.uid fs ids }) :
    ∃ t g', run i m s = .next t ∧ t.gang? g.uid = some g' ∧ g'.pc = g.pc + 8 ∧ Leaves g g' i 0 ∧ keepsRegs g g' ∧ s.sameBytes t ∧
      g'.cannotIssue t.cycle = true ∧ ∃ new, t.flights = s.flights ++ new ∧ new.map Flight.request = fs.map Flight.request := by
  have hg1 := State.asked_gang (ids := ids) (fs := fs) hw h
  obtain ⟨t, g', hr, ht, hg', hpc, hlv, hkr, _⟩ := run_keeps h (g0 := g) hct hop (State.asked_noLateTrap hw h) hg1 rfl h.unsealed
  have hti := ht.trans (State.commit_sent hw hrel h hq hids)
  obtain ⟨new, hl, hn⟩ := s1.launchAll_requests fs
  have hfl : (s1.asked g.uid fs ids).flights = (paidEnv s g i).s.flights ++ new := by
    unfold State.asked
    rw [hl]
    exact congrArg (· ++ new) hw.flights
  obtain ⟨l, hl2, hf2⟩ := State.issued_requests (i := i) (e := paidEnv s g i) (f := { st := s1.asked g.uid fs ids }) (ci := ciOf i.maj) (ct := 0) hfl
  refine ⟨t, g', hr, hg', hpc, hlv, hkr, ?_, ?_, l, ?_, hl2.trans hn⟩
  · rw [hti]
    exact State.sameBytes_trans (State.asked_bytes hw) (State.issued_bytes ..)
  · have hgX := State.gang?_issued (i := i) (e := paidEnv s g i) (f := { st := s1.asked g.uid fs ids }) (ci := ciOf i.maj) (ct := 0) hg1
    rw [Option.some.inj ((hg'.symm.trans (congrArg (fun z => z.gang? g.uid) hti)).trans hgX)]
    exact Gang.cannotIssue_of_block (by rw [Gang.issued_block]; simp [Gang.awaits, hids]) _
  · rw [hti]
    exact hf2

end

/-! ## FUT (R255) -/

section
variable (x : RF) (write cell : Bool) (val : Env → Nat → Nat) (kind : FlightKind)

/-- The future word that a strand names, with its value. -/
def futPart (e : Env) (i : Nat) : Part :=
  { strand := i, pa := (e.read { f := x.a, w := .w64, base := true } i).toNat, val := BitVec.ofNat 128 (val e i)
    swap := e.read { f := x.a, w := .w64, base := true } i }

/-- What a FUT asks to be checked: each strand's future word, and for a join its cell. -/
def futAsks (e : Env) : List (Req × Part) :=
  (e.parts.map (fun i => (reqFut write, futPart x val e i) :: (if cell then [(reqCell, ({ strand := i, pa := val e i } : Part))] else []))).flatten

/-- What leaves of them: the future words, for a join each with the address of its cell. -/
def futGo (e : Env) (fs : List Part) : List Part :=
  if cell then e.parts.map (fun i =>
    { ((fs.filter (fun p => p.strand == i)).headD { strand := i, pa := 0 }) with
      val := BitVec.ofNat 128 (((fs.filter (fun p => p.strand == i)).getD 1 { strand := i, pa := 0 }).pa) })
  else fs

/-- The requests of a FUT. -/
def futFlights (s1 : State) (e : Env) (rel : Bool) (ps : List Part) : List Flight :=
  ps.map (fun p => { (({ e with s := s1 } : Env).flight kind rel [p]) with vliw := false })

variable {x write cell val kind}

theorem futSem_op {i : Instr} {rel : Bool} {srcs : List Src} {e : Env} {ts : List (Part × Walk)} (hp : e.parts ≠ []) (hpo : e.g.regs.poison = [])
    (hl : e.g.lostStore = false) (hc : e.checkMix (futAsks x write cell val e) = .ok ts) (hm : missing ts = []) :
    (futSem i x write rel cell srcs val kind).op e =
      .ok { st := (e.s.cacheAll e.g.gcore e.g.ctx ts).asked e.g.uid (futFlights kind (e.s.cacheAll e.g.gcore e.g.ctx ts) e rel (futGo cell e (found ts)))
              ((List.range (futFlights kind (e.s.cacheAll e.g.gcore e.g.ctx ts) e rel (futGo cell e (found ts))).length).map
                (fun j => (e.s.cacheAll e.g.gcore e.g.ctx ts).next + j)) } := by
  have ht : (if rel then e.releaseTrap else none) = none := by
    have : e.releaseTrap = none := if_neg (by rw [hl]; decide)
    rw [this, ite_self]
  show (if e.parts.isEmpty then _ else if e.poisoned _ then _ else match e.checkMix (futAsks x write cell val e) with | .error t => _ | .ok ts => _) = _
  rw [if_neg (by simpa using hp), if_neg (by rw [Env.unpoisoned hpo]; decide), hc]
  dsimp only
  rw [ht, hm]
  rfl

end

section
variable {x : RF} {write cell : Bool} {val : Env → Nat → Nat} {kind : FlightKind} {i : Instr} {rel : Bool} {srcs : List Src} {s : State} {g : Gang}

/-- A FUT whose checks pass and whose pages are mapped: its requests leave, and the gang waits for them. -/
theorem run_fut {ts : List (Part × Walk)} (h : Issues s g i) (hq : s.calmFor g = true) (hpo : g.regs.poison = []) (hl : g.lostStore = false)
    (he : ∃ st, g.executes i st = true) (hk : ∀ f : Flight, f.kind = kind → f.releases = false)
    (hc : (paidEnv s g i).checkMix (futAsks x write cell val (paidEnv s g i)) = .ok ts) (hm : missing ts = []) :
    ∃ t g', run i (futSem i x write rel cell srcs val kind) s = .next t ∧ t.gang? g.uid = some g' ∧ g'.pc = g.pc + 8 ∧ Leaves g g' i 0 ∧ keepsRegs g g' ∧
      s.sameBytes t ∧ g'.cannotIssue t.cycle = true ∧ ∃ s1 new, t.flights = s.flights ++ new ∧
        new.map Flight.request = (futFlights kind s1 (paidEnv s g i) rel (futGo cell (paidEnv s g i) (found ts))).map Flight.request := by
  have hp : (paidEnv s g i).parts ≠ [] := by
    obtain ⟨st, hst⟩ := he
    have : (paidEnv s g i).parts = (List.range 32).filter (g.executes i) := simtEnv_parts ..
    rw [this]
    exact List.ne_nil_of_mem (List.mem_filter.2 ⟨List.mem_range.2 (Gang.executes_lt hst), hst⟩)
  have hgo : futGo cell (paidEnv s g i) (found ts) ≠ [] := by
    unfold futGo
    split
    · simpa using hp
    · rw [← List.length_pos_iff_ne_nil, found_length hm, Env.checkMix_ok hc, List.length_map, List.length_pos_iff_ne_nil]
      unfold futAsks
      obtain ⟨st, hst⟩ := List.exists_mem_of_ne_nil _ hp
      exact List.ne_nil_of_mem (List.mem_flatten.2 ⟨_, List.mem_map_of_mem hst, List.mem_cons_self ..⟩)
  have hw := (paidEnv s g i).s.walked_cacheAll g.gcore g.ctx ts
  generalize hs1 : (paidEnv s g i).s.cacheAll g.gcore g.ctx ts = s1 at hw
  have hop := futSem_op (i := i) (rel := rel) (srcs := srcs) (kind := kind) (e := paidEnv s g i) hp hpo hl hc hm
  have hrel : ∀ f ∈ futFlights kind s1 (paidEnv s g i) rel (futGo cell (paidEnv s g i) (found ts)), f.releases = false := fun f hf => by
    obtain ⟨p, _, rfl⟩ := List.mem_map.1 hf
    exact hk _ rfl
  have hids : (List.range (futFlights kind s1 (paidEnv s g i) rel (futGo cell (paidEnv s g i) (found ts))).length).map (fun j => s1.next + j) ≠ [] := by
    simpa [futFlights] using hgo
  obtain ⟨t, g', h1, h2, h3, h4, h5, h6, h7, new, h8, h9⟩ := run_sent (m := futSem i x write rel cell srcs val kind) hw hrel h hq rfl hids (hs1 ▸ hop)
  exact ⟨t, g', h1, h2, h3, h4, h5, h6, h7, s1, new, h8, h9⟩
end

theorem sends_of_requests {s t s1 : State} {g : Gang} {e : Env} {kind : FlightKind} {rel : Bool} {ps : List Part} {new : List Flight}
    (hu : e.g.uid = g.uid) (hc : e.g.ctx = g.ctx) (hf : t.flights = s.flights ++ new)
    (hn : new.map Flight.request = (futFlights kind s1 e rel ps).map Flight.request) : sends s t g kind rel none ps := by
  have hfor : ∀ f ∈ new, ∃ p ∈ ps, f.request = ({ (({ e with s := s1 } : Env).flight kind rel [p]) with vliw := false } : Flight).request := fun f hm => by
    obtain ⟨f0, h0, he⟩ := List.mem_map.1 (hn ▸ List.mem_map_of_mem hm)
    obtain ⟨p, hp, rfl⟩ := List.mem_map.1 h0
    exact ⟨p, hp, he.symm⟩
  refine ⟨new, hf, fun f hm => ?_, fun p => ⟨fun hp => ?_, fun ⟨f, hm, hp⟩ => ?_⟩⟩
  · obtain ⟨p, _, he⟩ := hfor f hm
    exact ⟨(congrArg Flight.uid he).trans (congrArg some hu), (congrArg Flight.ctx he).trans hc, congrArg Flight.kind he, congrArg Flight.rel he,
      congrArg Flight.queue he, congrArg Flight.shelved he⟩
  · obtain ⟨f, hm, he⟩ := List.mem_map.1 (hn ▸ List.mem_map_of_mem (f := Flight.request) (List.mem_map_of_mem hp) :
      ({ (({ e with s := s1 } : Env).flight kind rel [p]) with vliw := false } : Flight).request ∈ new.map Flight.request)
    exact ⟨f, hm, (congrArg Flight.parts he) ▸ List.mem_singleton_self p⟩
  · obtain ⟨q, hq, he⟩ := hfor f hm
    have : f.parts = [q] := congrArg Flight.parts he
    rw [this] at hp
    exact List.mem_singleton.1 hp ▸ hq

/-- The requests of a FUT of one word for each strand, checked with its charge taken. -/
theorem futAsks_eq (x : RF) (write : Bool) (val : Env → Nat → Nat) (s : State) (g : Gang) (i : Instr)
    (hv : val (paidEnv s g i) = val (simtEnv s g i)) :
    futAsks x write false val (paidEnv s g i) = (futParts x (val (simtEnv s g i)) (simtEnv s g i)).map (fun p => (reqFut write, p)) := by
  have hparts : futParts x (val (simtEnv s g i)) (simtEnv s g i) = (paidEnv s g i).parts.map (futPart x val (paidEnv s g i)) := by
    rw [← hv]
    rfl
  rw [hparts, List.map_map]
  show ((paidEnv s g i).parts.map (fun st => [(reqFut write, futPart x val (paidEnv s g i) st)])).flatten = _
  rw [← List.flatMap_def, List.map_eq_flatMap]
  rfl

/-- What is shown of a FUT of one word for each strand. -/
theorem fut_sends {x : RF} {write rel : Bool} {val : Env → Nat → Nat} {kind : FlightKind} {i : Instr} {srcs : List Src} {s : State} {g : Gang}
    {ts : List (Part × Walk)} (h : Issues s g i) (hq : s.calmFor g = true) (hpo : g.regs.poison = []) (hl : g.lostStore = false)
    (he : ∃ st, g.executes i st = true) (hk : ∀ f : Flight, f.kind = kind → f.releases = false) (hv : val (paidEnv s g i) = val (simtEnv s g i))
    (hc : (simtEnv s g i).check (reqFut write) (futParts x (val (simtEnv s g i)) (simtEnv s g i)) = .ok ts) (hm : missing ts = []) :
    ∃ t g', run i (futSem i x write rel false srcs val kind) s = .next t ∧ t.gang? g.uid = some g' ∧ g'.pc = g.pc + 8 ∧ Leaves g g' i 0 ∧
      keepsRegs g g' ∧ s.sameBytes t ∧ sends s t g kind rel none (found ts) ∧ g'.cannotIssue t.cycle = true := by
  have hc' : (paidEnv s g i).checkMix (futAsks x write false val (paidEnv s g i)) = .ok ts := by
    rw [futAsks_eq x write val s g i hv, paidEnv_checkMix]
    exact hc
  obtain ⟨t, g', h1, h2, h3, h4, h5, h6, h7, s1, new, h8, h9⟩ := run_fut (cell := false) (rel := rel) (srcs := srcs) h hq hpo hl he hk hc' hm
  exact ⟨t, g', h1, h2, h3, h4, h5, h6, sends_of_requests (e := paidEnv s g i) rfl rfl h8 h9, h7⟩

/-! ## A join (R53, R255) -/

/-- A part that the checks of R230 let pass in main memory: its address, and the page that permits what its request asks. -/
structure Env.passes (e : Env) (q : Req × Part) (P : Nat × Nat) : Prop where
  addr  : q.2.pa < 2 ^ 56
  align : q.2.pa % q.1.align = 0
  page  : ∃ rd wr ex, e.s.translate e.g.gcore e.g.ctx q.2.pa = .page P.1 P.2 rd wr ex ∧ (!q.1.rd || rd) = true ∧ (!q.1.wr || wr) = true
  dram  : q.1.dram = true
  main  : isDram (pageAddr P.1 P.2 q.2.pa) = true

theorem Env.checkMix_passes {e : Env} {qs : List (Req × Part)} (h : ∀ q ∈ qs, ∃ P, e.passes q P) :
    e.checkMix qs = .ok (qs.map (fun q => (q.2, e.s.translate e.g.gcore e.g.ctx q.2.pa))) := by
  have h1 : qs.find? (fun q => q.2.pa ≥ 2 ^ 56) = none := List.find?_eq_none.2 (fun q hq => by
    obtain ⟨P, hp⟩ := h q hq
    simpa using hp.addr)
  have h2 : qs.find? (fun q => q.2.pa % q.1.align != 0) = none := List.find?_eq_none.2 (fun q hq => by
    obtain ⟨P, hp⟩ := h q hq
    simp [hp.align])
  unfold Env.checkMix
  dsimp only
  rw [h1, h2]
  dsimp only
  rw [List.find?_eq_none.2]
  · simp only [List.map_map]
    rfl
  · intro t ht
    obtain ⟨q, hq, rfl⟩ := List.mem_map.1 ht
    obtain ⟨P, hp⟩ := h q hq
    obtain ⟨rd, wr, ex, htr, hrd, hwr⟩ := hp.page
    dsimp only
    rw [htr]
    simp [hrd, hwr, hp.dram, hp.main]

/-- Where every part of a list is found. -/
theorem found_passes {e : Env} {qs : List (Req × Part)} {P : Req × Part → Nat × Nat} (h : ∀ q ∈ qs, e.passes q (P q)) :
    found (qs.map (fun q => (q.2, e.s.translate e.g.gcore e.g.ctx q.2.pa))) = qs.map (fun q => { q.2 with pa := pageAddr (P q).1 (P q).2 q.2.pa }) ∧
      missing (qs.map (fun q => (q.2, e.s.translate e.g.gcore e.g.ctx q.2.pa))) = [] := by
  induction qs with
  | nil => exact ⟨rfl, rfl⟩
  | cons q qs ih =>
    obtain ⟨h1, h2⟩ := ih (fun x hx => h x (List.mem_cons_of_mem _ hx))
    obtain ⟨rd, wr, ex, htr, _⟩ := (h q (List.mem_cons_self ..)).page
    unfold found at h1 ⊢
    unfold missing at h2 ⊢
    rw [List.map_cons, List.map_cons, htr, List.filterMap_cons, List.filterMap_cons]
    dsimp only
    exact ⟨congrArg _ h1, h2⟩

/-- What a list of blocks holds of the strand of one of them is that block. -/
theorem filter_flatMap_strand {l : List Nat} {F : Nat → List Part} (hF : ∀ i, ∀ p ∈ F i, p.strand = i) (hl : l.Nodup) {st : Nat} (hst : st ∈ l) :
    (l.flatMap F).filter (fun p => p.strand == st) = F st := by
  have hself : ∀ i, (F i).filter (fun p => p.strand == st) = if i = st then F i else [] := fun i => by
    split
    · next h => exact List.filter_eq_self.2 (fun p hp => by rw [hF i p hp, h]; exact beq_self_eq_true _)
    · next h => exact List.filter_eq_nil_iff.2 (fun p hp => by rw [hF i p hp]; simpa using h)
  induction l with
  | nil => cases hst
  | cons i l ih =>
    obtain ⟨hi, hl⟩ := List.nodup_cons.1 hl
    rw [List.flatMap_cons, List.filter_append, hself]
    by_cases h : i = st
    · subst h
      have : (l.flatMap F).filter (fun p => p.strand == i) = [] := List.filter_eq_nil_iff.2 (fun p hp => by
        obtain ⟨j, hj, hpj⟩ := List.mem_flatMap.1 hp
        rw [hF j p hpj]
        simp only [beq_iff_eq]
        rintro rfl
        exact hi hj)
      rw [if_pos rfl, this, List.append_nil]
    · rw [if_neg h, ih hl ((List.mem_cons.1 hst).resolve_left (Ne.symm h)), List.nil_append]

theorem executes_of_parts {s : State} {g : Gang} {i : Instr} {st : Nat} : st ∈ (paidEnv s g i).parts ↔ g.executes i st = true := by
  have : (paidEnv s g i).parts = (List.range 32).filter (g.executes i) := simtEnv_parts ..
  rw [this, List.mem_filter, List.mem_range]
  exact ⟨And.right, fun h => ⟨Gang.executes_lt h, h⟩⟩

theorem futAsks_join {x : RF} {val : Env → Nat → Nat} {e : Env} {q : Req × Part} (h : q ∈ futAsks x true true val e) :
    ∃ i ∈ e.parts, q = (reqFut true, futPart x val e i) ∨ q = (reqCell, { strand := i, pa := val e i }) := by
  unfold futAsks at h
  obtain ⟨l, hl, hq⟩ := List.mem_flatten.1 h
  obtain ⟨i, hi, rfl⟩ := List.mem_map.1 hl
  refine ⟨i, hi, (List.mem_cons.1 hq).imp id (fun h => List.mem_singleton.1 h)⟩

/-- The page of a part: that of its strand's future word, or of its cell. -/
def joinPage (P Q : Nat → Nat × Nat) (q : Req × Part) : Nat × Nat := if q.1.rd then P q.2.strand else Q q.2.strand

/-- The future word and the cell of a strand at their physical addresses. -/
def joinFound (x : RF) (val : Env → Nat → Nat) (e : Env) (P Q : Nat → Nat × Nat) (i : Nat) : List Part :=
  [{ futPart x val e i with pa := pageAddr (P i).1 (P i).2 (futPart x val e i).pa }, { strand := i, pa := pageAddr (Q i).1 (Q i).2 (val e i) }]

theorem futAsks_found (x : RF) (val : Env → Nat → Nat) (e : Env) (P Q : Nat → Nat × Nat) :
    (futAsks x true true val e).map (fun q => { q.2 with pa := pageAddr (joinPage P Q q).1 (joinPage P Q q).2 q.2.pa }) = e.parts.flatMap (joinFound x val e P Q) := by
  unfold futAsks
  rw [List.map_flatten, List.map_map, ← List.flatMap_def]
  rfl

theorem futGo_join {x : RF} {val : Env → Nat → Nat} {e : Env} {P Q : Nat → Nat × Nat} {st : Nat} (h : st ∈ e.parts) :
    { futPart x val e st with pa := pageAddr (P st).1 (P st).2 (futPart x val e st).pa, val := BitVec.ofNat 128 (pageAddr (Q st).1 (Q st).2 (val e st)) } ∈
      futGo true e (e.parts.flatMap (joinFound x val e P Q)) := by
  have hnd : e.parts.Nodup := List.Nodup.filter _ List.nodup_range
  have hf := filter_flatMap_strand (F := joinFound x val e P Q) (fun i p hp => by
    rcases List.mem_cons.1 hp with rfl | hp
    · rfl
    · rw [List.mem_singleton.1 hp]) hnd h
  refine List.mem_map.2 ⟨st, h, ?_⟩
  rw [hf]
  rfl

/-- A join whose future words and cells pass their checks and are mapped. -/
theorem run_join {h : Hd} {x : RF} {s : State} {g : Gang} (hi : Issues s g (.futJoin h x)) (hq : s.calmFor g = true) (hpo : g.regs.poison = [])
    (hl : g.lostStore = false) (he : ∃ st, g.executes (.futJoin h x) st = true)
    (P Q : Nat → Nat × Nat) (hp : ∀ q ∈ futAsks x true true (fun e i => (e.read { f := x.b, w := .w64, base := true } i).toNat) (paidEnv s g (.futJoin h x)),
      (paidEnv s g (.futJoin h x)).passes q (joinPage P Q q)) :
    ∃ t g', exec (.futJoin h x) s = .next t ∧ t.gang? g.uid = some g' ∧ g'.pc = g.pc + 8 ∧ Leaves g g' (.futJoin h x) 0 ∧ keepsRegs g g' ∧ s.sameBytes t ∧
      g'.cannotIssue t.cycle = true ∧ ∃ new, t.flights = s.flights ++ new ∧ (∀ f ∈ new, f.uid = some g.uid ∧ f.kind = .join x.d) ∧
        ∀ st, g.executes (.futJoin h x) st = true → ∃ f ∈ new, ∃ p ∈ f.parts, p.strand = st ∧
          p.pa = pageAddr (P st).1 (P st).2 ((paidEnv s g (.futJoin h x)).read { f := x.a, w := .w64, base := true } st).toNat ∧
          p.val = BitVec.ofNat 128 (pageAddr (Q st).1 (Q st).2 ((paidEnv s g (.futJoin h x)).read { f := x.b, w := .w64, base := true } st).toNat) := by
  obtain ⟨hfound, hmiss⟩ := found_passes hp
  obtain ⟨t, g', h1, h2, h3, h4, h5, h6, h7, s1, new, h8, h9⟩ := run_fut (rel := false) (srcs := [{ f := x.b, w := .w64, base := true }]) (kind := .join x.d)
    hi hq hpo hl he (fun f hf => by unfold Flight.releases; rw [hf]) (Env.checkMix_passes (fun q hq => ⟨_, hp q hq⟩)) hmiss
  rw [hfound, futAsks_found] at h9
  refine ⟨t, g', h1, h2, h3, h4, h5, h6, h7, new, h8, fun f hf => ?_, fun st hst => ?_⟩
  · obtain ⟨f0, h0, hr⟩ := List.mem_map.1 (h9 ▸ List.mem_map_of_mem hf)
    obtain ⟨p, _, rfl⟩ := List.mem_map.1 h0
    exact ⟨congrArg Flight.uid hr.symm, congrArg Flight.kind hr.symm⟩
  · have hgo := futGo_join (x := x) (val := fun e i => (e.read { f := x.b, w := .w64, base := true } i).toNat) (P := P) (Q := Q) ((executes_of_parts (s := s)).2 hst)
    obtain ⟨f, hm, hr⟩ := List.mem_map.1 (h9 ▸ List.mem_map_of_mem (f := Flight.request) (List.mem_map_of_mem hgo))
    exact ⟨f, hm, _, List.mem_of_mem_head? (congrArg (fun f => f.parts.head?) hr), rfl, rfl, rfl⟩

/-- Settles O33: the checks of a FUT do not ask its charge; its requests leave in one issue, and the gang waits for them. -/
theorem futures : Obligations.Futures := by
  unfold Obligations.Futures
  intro s g h x ts hpo hq hl sent
  refine ⟨fun hi he hc hm => ?_, fun hi he hc hm => ?_, fun hi he hc hm => ?_, ?_⟩
  · exact fut_sends hi hq hpo hl he (fun f hf => by unfold Flight.releases; rw [hf]) rfl hc hm
  · exact fut_sends hi hq hpo hl he (fun f hf => by unfold Flight.releases; rw [hf]) rfl hc hm
  · exact fut_sends hi hq hpo hl he (fun f hf => by unfold Flight.releases; rw [hf]) rfl hc hm
  · intro i e a b hi he hab P Q hPQ
    refine run_join hi hq hpo hl he P Q (fun q hqm => ?_)
    obtain ⟨st, hst, hcase⟩ := futAsks_join hqm
    have hex : g.executes i st = true := executes_of_parts.1 hst
    obtain ⟨ha, hb, ha8, hb32⟩ := hab st hex
    obtain ⟨⟨ex, hP⟩, hPd, ⟨rd, ex', hQ⟩, hQd⟩ := hPQ st hex
    rcases hcase with rfl | rfl
    · exact ⟨ha, ha8, ⟨true, true, ex, (paidEnv_translate s g i _).trans hP, rfl, rfl⟩, rfl, hPd⟩
    · exact ⟨hb, hb32, ⟨rd, true, ex', (paidEnv_translate s g i _).trans hQ, rfl, rfl⟩, rfl, hQd⟩

end Sys2Proof.Machine
end

section
/-! SUPPORT. A bundle of one slot in the branch place: how it is tried, and what its issue leaves (R169). -/

namespace Sys2Proof.Machine

/-! ## A bundle of one slot -/

section
variable {s : State} {g : Gang} {hdr : Word64} {ws : List Word64} {pc : Word64} {i : Instr}

/-- The environment of a bundle whose charge has been taken. -/
def bundleEnv (s : State) (g : Gang) (hdr : Word64) (ws : List Word64) (ci : Nat) : Env :=
  { s := s.setGang (g.charge ci 0), g := g.charge ci 0, place := .br, pc := g.pc, npc := g.pc + BitVec.ofNat 64 (bundleSize hdr)
    h := { neg := false, gd := 15, lat := 0 }, imm := bundleImm hdr ws }

/-- The environment of its slot in the branch place. -/
def branchEnv (s : State) (g : Gang) (hdr : Word64) (ws : List Word64) (pc : Word64) (i : Instr) : Env :=
  { bundleEnv s g hdr ws (ciOf i.maj) with s := { s.setGang (g.charge (ciOf i.maj) 0) with draw := s.draw + 1 }, pc := pc, h := i.hd }

/-- The state that the effect of the slot leaves; what it sent bears the number of the slot. -/
def slotted (s : State) (t : State) : State := { t with flights := t.flights.map (fun y => if s.next ≤ y.id then { y with slot := Place.br.slotNo } else y) }

theorem slotOrder_one (g : Gang) (draw : Nat) : slotOrder g draw [⟨.br, pc, i⟩] = [⟨.br, pc, i⟩] := rfl

theorem bundleTry_one {m : Sem} {f : Eff} (h : IssuesSlot s g hdr ws ⟨.br, pc, i⟩) (hm : semOf i = some m) (hct : ∀ e, m.ct e = 0) (hs : i.seals = false)
    (hop : m.op (branchEnv s g hdr ws pc i) = .ok f) :
    s.bundleTry g hdr [⟨.br, pc, i⟩] (bundleImm hdr ws) =
      .go (State.commitBundle (bundleEnv s g hdr ws (ciOf i.maj)) hdr [⟨.br, pc, i⟩] { st := slotted s f.st, effs := [(⟨.br, pc, i⟩, f)] } { st := slotted s f.st }
        (ciOf i.maj) 0) := by
  obtain ⟨hsy, hlp⟩ := h.plain
  have hfold : ∀ d, [(⟨.br, pc, i⟩ : Slot)].foldl (runSlot (bundleEnv s g hdr ws (ciOf i.maj))) { st := { s.setGang (g.charge (ciOf i.maj) 0) with draw := s.draw + 1 } } = d →
      d = { st := slotted s f.st, effs := [(⟨.br, pc, i⟩, f)] } := by
    rintro _ rfl
    rw [List.foldl_cons, List.foldl_nil]
    show (match semOf i with | none => _ | some m => _) = _
    rw [hm]
    show (match m.op (branchEnv s g hdr ws pc i) with | .wait _ => _ | .trap t => _ | .ok f => _) = _
    rw [hop]
    rfl
  have hg1 : ((s.gang? g.uid).getD g) = g := by rw [h.here]; rfl
  have hseals : [(⟨.br, pc, i⟩ : Slot)].any (fun x => x.instr.seals) = false := by simp [hs]
  have hilk : ∀ q, g.pend.any q = false := fun q => by rw [h.landed]; rfl
  have hsync : (hdrSyop hdr == 1 || hdrSyop hdr == 3) = false := by rw [hsy]; rfl
  have hci : ([(⟨.br, pc, i⟩ : Slot)].map (fun x => ciOf x.instr.maj)).sum = ciOf i.maj := by simp
  have hcts : ∀ F : Slot → Env, ([(⟨.br, pc, i⟩ : Slot)].map (fun x => match semOf x.instr with | some m => m.ct (F x) | none => 0)).sum = 0 := fun F => by
    show (match semOf i with | some m => m.ct (F ⟨.br, pc, i⟩) | none => 0) + 0 = 0
    rw [hm]
    exact congrArg (· + 0) (hct _)
  have hfits : g.fits (ciOf i.maj) 0 = true := Gang.fits_of (by simpa using h.pays) (Nat.zero_le _) h.fresh
  unfold State.bundleTry
  extract_lets sync flag ilkWait seals out s1 g1 npc env at0 ci ct g2 runAll first walks r e parked lp poison rel own
  have e1 : sync = false := hsync
  have e2 : seals = false := hseals
  have e3 : out = false := by simp only [out, e2, Bool.false_and]
  have e4 : ilkWait = false := by simp only [ilkWait, hilk, Bool.and_false]
  have e5 : s1 = s := by simp only [s1, e1, Bool.false_eq_true, if_false]
  have e6 : g1 = g := by simp only [g1, e5, hg1]
  have e7 : ci = ciOf i.maj := hci
  have e8 : ct = 0 := hcts _
  have e9 : g2 = g.charge (ciOf i.maj) 0 := by simp only [g2, e6, e7, e8]
  have e10 : e = bundleEnv s g hdr ws (ciOf i.maj) := by
    show env (s1.setGang g2) g2 = _
    rw [e5, e9]
    rfl
  have e11 : first = { st := slotted s f.st, effs := [(⟨.br, pc, i⟩, f)] } := by
    show (slotOrder g2 s1.draw [⟨.br, pc, i⟩]).foldl (runSlot (env (s1.setGang g2) g2)) { st := { (env (s1.setGang g2) g2).s with draw := s1.draw + 1 } } = _
    rw [e5, e9, slotOrder_one]
    exact hfold _ rfl
  have e12 : r = first := by simp only [r, walks, e2, Bool.false_eq_true, if_false, List.isEmpty_nil, if_true]
  have e13 : parked = none := by simp only [parked, e2, Bool.false_eq_true, if_false]
  have e14 : lp = .ok { st := r.st } := by simp only [lp, hlp]
  have e15 : own = [] := by
    have hp : poison = none := by simp [poison, hlp]
    have hr : rel = none := by simp [rel, hsy, e1]
    simp [own, hp, hr, e14]
  rw [e1, e3, e4, e2, e6, e7, e8, e12, e11, e13, e14, e15, e10]
  simp only [Bool.false_and, Bool.or_self, Bool.false_eq_true, if_false, hfits, Bool.not_true]
  rw [e12, e11]
  rfl

theorem exec_bundle_one {m : Sem} {f : Eff} (h : IssuesSlot s g hdr ws ⟨.br, pc, i⟩) (hm : semOf i = some m) (hct : ∀ e, m.ct e = 0) (hs : i.seals = false)
    (hop : m.op (branchEnv s g hdr ws pc i) = .ok f) :
    exec (.bundle hdr ws) s = .next (State.commitBundle (bundleEnv s g hdr ws (ciOf i.maj)) hdr [⟨.br, pc, i⟩]
      { st := slotted s f.st, effs := [(⟨.br, pc, i⟩, f)] } { st := slotted s f.st } (ciOf i.maj) 0) := by
  show execBundle hdr ws s = _
  unfold execBundle
  rw [h.turn, Option.bind_some, h.here]
  dsimp only
  congr 1
  unfold runBundle
  dsimp only
  rw [if_neg (by simp [h.free]), if_neg (by simp [h.keeps]), if_neg (by simp [h.vliw]), h.check]
  dsimp only
  rw [bundleTry_one h hm hct hs hop, if_neg (by simp)]
  exact if_pos h.group

/-! ## What it leaves -/

/-- What an issue leaves of the gang: the counters of R277, the next address and the marks. -/
def Gang.bundleMarks (next : Word64) (ci ct : Nat) (g : Gang) : Gang :=
  let g1 := ((g.ctr 9 (· + 1)).ctr 10 (· + ci)).ctr 11 (· + ct)
  { g1 with
    pc := next
    iss := { g1.iss with issued := true, exhausted := none, age := 0, waitFrom := none, waited := false, first := false, bundles := g1.iss.bundles + 1 } }

/-- What an issue leaves at its core. -/
def Core.bundledBy (e : Env) (cycle : Nat) (c : Core) : Core :=
  { c with beat := SMap.set c.beat (e.g.slot % 4) (cycle + 1), last := SMap.set c.last (e.g.slot % 4) (cycle, e.g.uid), vrr := (e.g.slot + 1) % 4 }

/-- The state that an issue leaves before it gives up its lane group or ends its step. -/
def State.bundled (F : State) (e : Env) (next : Word64) (ci : Nat) : State :=
  ((F.firstIssue e.g).modCore e.g.gcore (Core.bundledBy e F.cycle)).modGang e.g.uid (Gang.bundleMarks next ci 0)

/-- A gang that gives up its lane group once its bundle has issued (R31). -/
def State.afterBundle (s : State) (uid : Nat) : State :=
  match s.gang? uid with
  | some g =>
    if !g.iss.block.isEmpty || g.park.isSome || g.iss.yieldReq then s.blockGroup uid
    else if g.iss.splitTo.isSome || g.iss.tretTo.isSome || g.iss.dueTrap.isSome || g.iss.exiting then s.dropGroup uid
    else s
  | none => s

/-- The charge of an issue noted in what it left (R61). -/
def State.issuedAt (s : State) (u : Nat) (old : List Flight) (ci : Nat) : State := { s.payAll u old ci 0 with note := .issued }

/-- A calm bundle of one slot that gives no register a value. -/
theorem State.commitBundle_one {f : Eff} (hsy : hdrSyop hdr = 0) (hs : i.seals = false) (hw : f.writes = []) (hx : f.fx = 0)
    (hf : (⟨.br, pc, i⟩ : Slot).fxWindow = false) (hq : s.calmFor g = true) (hd : f.st.dev = s.dev) :
    State.commitBundle (bundleEnv s g hdr ws (ciOf i.maj)) hdr [⟨.br, pc, i⟩] { st := slotted s f.st, effs := [(⟨.br, pc, i⟩, f)] } { st := slotted s f.st }
        (ciOf i.maj) 0 =
      ((((slotted s f.st).bundled (bundleEnv s g hdr ws (ciOf i.maj)) (f.next.getD (g.pc + BitVec.ofNat 64 (bundleSize hdr))) (ciOf i.maj)).afterBundle g.uid).issuedAt
          g.uid s.flights (ciOf i.maj)).pump := by
  obtain ⟨hc, hgi⟩ := State.calm_counters (t := (slotted s f.st).firstIssue (g.charge (ciOf i.maj) 0)) (g := g.charge (ciOf i.maj) 0) hq
    ((State.firstIssue_frame State.dev (fun _ _ => rfl) _ _).trans hd)
  have hpend : ∀ now, pendOf now g.iss.stall g.iss.bundles ⟨.br, pc, i⟩ f = [] := fun now => by
    unfold pendOf
    rw [hw, hx, hf]
    rfl
  have hseals : [(⟨.br, pc, i⟩ : Slot)].any (fun x => x.instr.seals) = false := by simp [hs]
  unfold State.commitBundle
  extract_lets uid _ s0 s1 next seals pend s2 s3
  have e0 : s0 = slotted s f.st := by simp only [s0, hsy]; rfl
  have e1 : s1 = ((slotted s f.st).firstIssue (g.charge (ciOf i.maj) 0)).modCore g.gcore (Core.bundledBy (bundleEnv s g hdr ws (ciOf i.maj)) (slotted s f.st).cycle) := by
    simp only [s1, e0]
    show (State.gingham (State.countIssue _ _ _ _) _ _ _ _).modCore _ _ = _
    unfold State.countIssue
    rw [show (bundleEnv s g hdr ws (ciOf i.maj)).g = g.charge (ciOf i.maj) 0 from rfl, hc, hc, hc, hgi]
    rfl
  have e2 : pend = [] := by
    show (([(⟨.br, pc, i⟩, f)] : List (Slot × Eff)).map _).flatten = _
    simp only [List.map_cons, List.map_nil, List.flatten_cons, List.flatten_nil, List.append_nil]
    exact hpend _
  have e3 : next = f.next.getD (g.pc + BitVec.ofNat 64 (bundleSize hdr)) := by
    have hnext : (([(⟨.br, pc, i⟩, f)] : List (Slot × Eff)).filterMap (fun f => f.2.next)).head? = f.next := by cases hn : f.next <;> simp [hn]
    exact congrArg (fun z => z.getD (g.pc + BitVec.ofNat 64 (bundleSize hdr))) hnext
  have e4 : seals = false := hseals
  have e5 : s2 = (slotted s f.st).bundled (bundleEnv s g hdr ws (ciOf i.maj)) (f.next.getD (g.pc + BitVec.ofNat 64 (bundleSize hdr))) (ciOf i.maj) := by
    simp only [s2, e1, e2, e3, e4, List.append_nil, Bool.not_false, Bool.and_true, Bool.false_eq_true, if_false]
    rfl
  have e6 : s3 = State.afterBundle s2 g.uid := rfl
  exact congrArg (fun z => (z.issuedAt g.uid s.flights (ciOf i.maj)).pump) (e6.trans (congrArg (fun z => z.afterBundle g.uid) e5))

/-! ## A bundle whose effect is a change of its gang -/

/-- The gang after its bundle. -/
def Gang.bundled (g : Gang) (next : Word64) (ci el : Nat) : Gang := (g.bundleMarks next ci 0).paid el ci 0

theorem State.bundled_gang {F : State} {e : Env} {gF : Gang} {next : Word64} {ci : Nat} (h : F.gang? e.g.uid = some gF) :
    (F.bundled e next ci).gang? e.g.uid = some (gF.bundleMarks next ci 0) := by
  have h0 : (F.firstIssue e.g).gang? e.g.uid = some gF := (State.firstIssue_frame (fun s => s.gang? e.g.uid) (fun _ _ => rfl) _ _).trans h
  exact State.gang?_modGang_same (s := (F.firstIssue e.g).modCore e.g.gcore (Core.bundledBy e F.cycle)) (Gang.bundleMarks next ci 0)
    (fun x => by simp [Gang.bundleMarks, Gang.ctr]) h0

theorem Gang.bundleMarks_iss (g : Gang) (next : Word64) (ci ct : Nat) :
    (g.bundleMarks next ci ct).iss = { g.iss with issued := true, exhausted := none, age := 0, waitFrom := none, waited := false, first := false, bundles := g.iss.bundles + 1 } := by
  simp [Gang.bundleMarks, Gang.ctr]

theorem Gang.bundleMarks_park (g : Gang) (next : Word64) (ci ct : Nat) : (g.bundleMarks next ci ct).park = g.park ∧ (g.bundleMarks next ci ct).pend = g.pend := by
  simp [Gang.bundleMarks, Gang.ctr]

theorem State.bundled_frame {γ : Type} (p : State → γ) (hl : ∀ (s : State) l, p { s with launches := l } = p s) (hc : ∀ (s : State) l, p { s with cores := l } = p s)
    (hg : ∀ (s : State) l, p { s with gangs := l } = p s) (F : State) (e : Env) (next : Word64) (ci : Nat) : p (F.bundled e next ci) = p F :=
  (hg _ _).trans ((hc _ _).trans (State.firstIssue_frame p hl _ _))

theorem State.bundled_gangs (F : State) (e : Env) (next : Word64) (ci : Nat) :
    (F.bundled e next ci).gangs = F.gangs.map (fun x => if x.uid == e.g.uid then x.bundleMarks next ci 0 else x) := by
  show (F.firstIssue e.g).gangs.map _ = _
  rw [State.firstIssue_gangs]

theorem State.bundled_bytes (F : State) (e : Env) (next : Word64) (ci : Nat) : F.sameBytes (F.bundled e next ci) := by
  have frame : ∀ {γ : Type} (p : State → γ), (∀ (s : State) l, p { s with launches := l } = p s) → (∀ (s : State) l, p { s with cores := l } = p s) →
      (∀ (s : State) l, p { s with gangs := l } = p s) → p (F.bundled e next ci) = p F := fun p h1 h2 h3 => State.bundled_frame p h1 h2 h3 ..
  have h0 : (F.firstIssue e.g).core = F.core := State.firstIssue_frame State.core (fun _ _ => rfl) _ _
  refine State.sameBytes_of (frame State.paths ?_ ?_ ?_) (frame State.slices ?_ ?_ ?_) (frame State.dev ?_ ?_ ?_) (frame State.dram ?_ ?_ ?_)
    (frame State.dpoison ?_ ?_ ?_) (fun n => ?_)
  case refine_16 =>
    show (((F.firstIssue e.g).modCore e.g.gcore (Core.bundledBy e F.cycle)).core n).shares = _
    by_cases hn : e.g.gcore = n
    · subst hn
      rw [State.core_modCore_same, h0]
      rfl
    · rw [State.core_modCore_ne _ _ hn, h0]
  all_goals exact fun _ _ => rfl

/-- The end of a step in a calm state. -/
theorem State.pump_of_calm {X : State} {g : Gang} (hq : X.calmFor g = true) (hl : X.noLateTrap) : X.pump = X :=
  State.pump_calm (State.calmFor_flights hq) (fun x hx => by
    obtain ⟨h1, h2, h3⟩ := State.calmFor_sealless hq x hx
    exact ⟨Gang.takeSeal_none h1, h2, h3⟩) hl

end
section
variable {s : State} {g : Gang} {hdr : Word64} {ws : List Word64} {pc : Word64} {i : Instr}

/-- A gang that may issue waits for nothing. -/
theorem Gang.idle_of_free {g : Gang} {c : Nat} (h : g.cannotIssue c = false) :
    g.iss.block = [] ∧ g.iss.splitTo = none ∧ g.iss.tretTo = none ∧ g.iss.dueTrap = none ∧ g.park = none ∧ g.iss.yieldReq = false ∧ g.iss.exiting = false := by
  simp only [Gang.cannotIssue, Bool.or_eq_false_iff, Bool.not_eq_false', List.isEmpty_iff, Option.isSome_eq_false_iff, Option.isNone_iff_eq_none] at h
  tauto

/-- A gang that waits for nothing keeps its lane group. -/
theorem State.afterBundle_idle {X : State} {x : Gang} {u : Nat} (h : X.gang? u = some x) (hb : x.iss.block = []) (hp : x.park = none) (hy : x.iss.yieldReq = false)
    (hs : x.iss.splitTo = none) (ht : x.iss.tretTo = none) (hd : x.iss.dueTrap = none) (he : x.iss.exiting = false) : X.afterBundle u = X := by
  unfold State.afterBundle
  rw [h]
  dsimp only
  rw [hb, hp, hy, hs, ht, hd, he]
  rfl

theorem branchEnv_gang (h : IssuesSlot s g hdr ws ⟨.br, pc, i⟩) : (branchEnv s g hdr ws pc i).s.gang? g.uid = some (g.charge (ciOf i.maj) 0) :=
  State.gang?_setGang_same (g := g.charge (ciOf i.maj) 0) h.here

theorem branchEnv_calm (h : IssuesSlot s g hdr ws ⟨.br, pc, i⟩) : (branchEnv s g hdr ws pc i).s.calmFor g = true :=
  State.calmFor_charged h.here h.quiet (ciOf i.maj) 0 i

theorem branchEnv_noLateTrap (h : IssuesSlot s g hdr ws ⟨.br, pc, i⟩) : (branchEnv s g hdr ws pc i).s.noLateTrap :=
  simtEnv_noLateTrap h.here h.calm (g.charge (ciOf i.maj) 0) rfl i

/-- What a slot sent bears its number, which no one asks at the end of the step. -/
theorem slotted_calm {t : State} (h : t.calmFor g = true) : (slotted s t).calmFor g = true := by
  refine State.calmFor_of (s := t) (fun f hf => Or.inr ?_) (fun x hx => ⟨x, hx, rfl, rfl, rfl⟩) rfl h
  obtain ⟨y, hy, rfl⟩ := List.mem_map.1 hf
  have hr := State.calmFor_flights h y hy
  split
  · exact hr
  · exact hr

theorem bundled_calm {F : State} {e : Env} {next : Word64} {ci : Nat} (h : F.calmFor g = true) : (F.bundled e next ci).calmFor g = true := by
  refine State.calmFor_of (s := F) (fun f hf => Or.inl ?_) (fun x hx => ?_) (State.bundled_frame State.dev (fun _ _ => rfl) (fun _ _ => rfl) (fun _ _ => rfl) ..) h
  · rwa [State.bundled_frame State.flights (fun _ _ => rfl) (fun _ _ => rfl) (fun _ _ => rfl)] at hf
  · rw [State.bundled_gangs] at hx
    obtain ⟨y, hy, rfl⟩ := List.mem_map.1 hx
    refine ⟨y, hy, ?_⟩
    split
    · rw [Gang.bundleMarks_iss]
      exact ⟨rfl, rfl, rfl⟩
    · exact ⟨rfl, rfl, rfl⟩

theorem issuedAt_calm {F : State} {u ci : Nat} {old : List Flight} (h : F.calmFor g = true) : (F.issuedAt u old ci).calmFor g = true := by
  refine State.calmFor_modGang (s := { F with flights := (F.issuedAt u old ci).flights }) u (f := Gang.paid F.clock.el ci 0) (fun _ => ⟨rfl, rfl, rfl⟩) ?_
  refine State.calmFor_of (s := F) (fun f hf => Or.inr ?_) (fun x hx => ⟨x, hx, rfl, rfl, rfl⟩) rfl h
  obtain ⟨y, hy, rfl⟩ := List.mem_map.1 hf
  have hr := State.calmFor_flights h y hy
  split
  · exact hr
  · exact hr

theorem bundled_noLateTrap {F : State} {e : Env} {next : Word64} {ci : Nat} (h : F.noLateTrap) : (F.bundled e next ci).noLateTrap := by
  have h0 : (F.firstIssue e.g).noLateTrap := fun x hx => by
    rw [State.firstIssue_gangs] at hx
    have hc : (F.firstIssue e.g).ctx = F.ctx := State.firstIssue_frame State.ctx (fun _ _ => rfl) _ _
    rw [hc]
    exact h x hx
  exact State.noLateTrap_modGang _ (f := Gang.bundleMarks next ci 0) (fun x => by simp [Gang.late, Gang.bundleMarks, Gang.ctr]) h0

theorem issuedAt_noLateTrap {F : State} {u ci : Nat} {old : List Flight} (h : F.noLateTrap) : (F.issuedAt u old ci).noLateTrap :=
  State.noLateTrap_modGang (s := F) _ (f := Gang.paid F.clock.el ci 0) (fun _ => rfl) h

end

section
variable {s : State} {g : Gang} {hdr : Word64} {ws : List Word64} {pc : Word64} {i : Instr}

/-- The end of a calm bundle after which its gang waits for nothing. -/
theorem State.bundled_end {F : State} {gF : Gang} {e : Env} {next : Word64} {ci : Nat} {old : List Flight} (hg : F.gang? e.g.uid = some gF) (hq : F.calmFor g = true)
    (hl : F.noLateTrap) {c : Nat} (hfree : gF.cannotIssue c = false) :
    (((F.bundled e next ci).afterBundle e.g.uid).issuedAt e.g.uid old ci).pump = (F.bundled e next ci).issuedAt e.g.uid old ci := by
  obtain ⟨h1, h2, h3, h4, h5, h6, h7⟩ := Gang.idle_of_free hfree
  have hidle : (F.bundled e next ci).afterBundle e.g.uid = F.bundled e next ci :=
    State.afterBundle_idle (State.bundled_gang hg) (by rwa [Gang.bundleMarks_iss]) ((gF.bundleMarks_park ..).1.trans h5) (by rwa [Gang.bundleMarks_iss]) (by rwa [Gang.bundleMarks_iss])
      (by rwa [Gang.bundleMarks_iss]) (by rwa [Gang.bundleMarks_iss]) (by rwa [Gang.bundleMarks_iss])
  rw [hidle]
  exact State.pump_of_calm (issuedAt_calm (bundled_calm hq)) (issuedAt_noLateTrap (bundled_noLateTrap hl))

theorem State.bundled_end_gang {F : State} {gF : Gang} {e : Env} {next : Word64} {ci : Nat} {old : List Flight} (hg : F.gang? e.g.uid = some gF) :
    ∃ g', ((F.bundled e next ci).issuedAt e.g.uid old ci).gang? e.g.uid = some g' ∧ g'.pc = next ∧ g'.regs = gF.regs ∧ g'.pend = gF.pend ∧ g'.ctl = gF.ctl := by
  refine ⟨_, State.gang?_modGang_same (s := F.bundled e next ci) (Gang.paid (F.bundled e next ci).clock.el ci 0) (fun _ => rfl) (State.bundled_gang hg), ?_⟩
  simp [Gang.paid, Gang.bundleMarks, Gang.ctr]

theorem State.bundled_end_bytes (F : State) (e : Env) (next : Word64) (ci : Nat) (old : List Flight) : F.sameBytes ((F.bundled e next ci).issuedAt e.g.uid old ci) :=
  State.sameBytes_trans (State.bundled_bytes F e next ci) (State.sameBytes_of rfl rfl rfl rfl rfl (fun _ => rfl))

/-- A bundle whose slot changes the masks or the stack of its gang alone. -/
theorem exec_bundle_ctl {m : Sem} {C : Ctl → Ctl} {nx : Option Word64} (h : IssuesSlot s g hdr ws ⟨.br, pc, i⟩) (hm : semOf i = some m) (hct : ∀ e, m.ct e = 0)
    (hs : i.seals = false) (hf : (⟨.br, pc, i⟩ : Slot).fxWindow = false)
    (hop : m.op (branchEnv s g hdr ws pc i) = .ok { st := (branchEnv s g hdr ws pc i).s.modCtl g.uid C, next := nx }) :
    ∃ t g', exec (.bundle hdr ws) s = .next t ∧ t.gang? g.uid = some g' ∧ g'.pc = nx.getD (g.pc + BitVec.ofNat 64 (bundleSize hdr)) ∧ g'.regs = g.regs ∧
      g'.pend = [] ∧ g'.ctl = C g.ctl ∧ s.sameBytes t := by
  obtain ⟨hsy, _⟩ := h.plain
  have hgF : (slotted s ((branchEnv s g hdr ws pc i).s.modCtl g.uid C)).gang? g.uid = some { g.charge (ciOf i.maj) 0 with ctl := C g.ctl } :=
    State.gang?_modGang_same (fun x => { x with ctl := C x.ctl }) (fun _ => rfl) (branchEnv_gang h)
  have hqF : (slotted s ((branchEnv s g hdr ws pc i).s.modCtl g.uid C)).calmFor g = true :=
    slotted_calm (State.calmFor_modGang (f := fun x => { x with ctl := C x.ctl }) _ (fun _ => ⟨rfl, rfl, rfl⟩) (branchEnv_calm h))
  have hlF : (slotted s ((branchEnv s g hdr ws pc i).s.modCtl g.uid C)).noLateTrap :=
    State.noLateTrap_modGang (s := (branchEnv s g hdr ws pc i).s) (f := fun x => { x with ctl := C x.ctl }) _ (fun _ => rfl) (branchEnv_noLateTrap h)
  have hbF : s.sameBytes (slotted s ((branchEnv s g hdr ws pc i).s.modCtl g.uid C)) := State.sameBytes_of rfl rfl rfl rfl rfl (fun _ => rfl)
  have hcommit := State.commitBundle_one (pc := pc) (ws := ws) (f := { st := (branchEnv s g hdr ws pc i).s.modCtl g.uid C, next := nx }) hsy hs rfl rfl hf h.quiet rfl
  have hrun := (exec_bundle_one h hm hct hs hop).trans (congrArg Host.Outcome.next hcommit)
  dsimp only at hrun
  generalize slotted s ((branchEnv s g hdr ws pc i).s.modCtl g.uid C) = F at hgF hqF hlF hbF hrun
  have hend := State.bundled_end (e := bundleEnv s g hdr ws (ciOf i.maj)) (next := nx.getD (g.pc + BitVec.ofNat 64 (bundleSize hdr))) (ci := ciOf i.maj)
    (old := s.flights) hgF hqF hlF (c := s.cycle) h.free
  obtain ⟨g', h1, h2, h3, h4, h5⟩ := State.bundled_end_gang (e := bundleEnv s g hdr ws (ciOf i.maj)) (next := nx.getD (g.pc + BitVec.ofNat 64 (bundleSize hdr)))
    (ci := ciOf i.maj) (old := s.flights) hgF
  exact ⟨_, g', hrun.trans (congrArg _ hend), h1, h2, h3, h4.trans h.landed, h5, State.sameBytes_trans hbF (State.bundled_end_bytes ..)⟩
end

end Sys2Proof.Machine
end

section
/-! PROOFS. The instructions of the branch slot alone (R38, R41, R271 to R273). -/

namespace Sys2Proof.Machine
section
variable {s : State} {g : Gang} {hdr : Word64} {ws : List Word64} {pc : Word64} {h : Hd}

theorem branchEnv_acts {i : Instr} (hg : (slotEnv s g hdr ws ⟨.br, pc, i⟩).guard 0 = true) : (branchEnv s g hdr ws pc i).acts = true := hg

/-- What a bundle of one instruction of the branch slot leaves: the address and the stack. -/
def turnsTo (s : State) (g : Gang) (hdr : Word64) (ws : List Word64) (a : Word64) (stack : List Entry) : Prop :=
  ∃ t g', exec (.bundle hdr ws) s = .next t ∧ t.gang? g.uid = some g' ∧ g'.pc = a ∧ g'.regs = g.regs ∧ g'.pend = [] ∧ g'.ctl = { g.ctl with stack := stack } ∧ s.sameBytes t

/-- A stack with one more entry. -/
def Ctl.push (e : Entry) (c : Ctl) : Ctl := { c with stack := e :: c.stack }

theorem loop_turns {y : IF} (hi : IssuesSlot s g hdr ws ⟨.br, pc, .loop h y⟩) (hg : (slotEnv s g hdr ws ⟨.br, pc, .loop h y⟩).guard 0 = true)
    (hl : g.ctl.stack.length < 16) :
    turnsTo s g hdr ws (g.pc + BitVec.ofNat 64 (bundleSize hdr)) (.loop (y.imm.toNat % 8 + 1)
      (((slotEnv s g hdr ws ⟨.br, pc, .loop h y⟩).read { f := y.d } 0).setWidth 32) 0 ((g.pc + BitVec.ofNat 64 (bundleSize hdr)).setWidth 56) :: g.ctl.stack) := by
  refine exec_bundle_ctl (m := semLoop h y) (nx := none) hi rfl (fun _ => rfl) rfl rfl ?_
    (C := Ctl.push (.loop (y.imm.toNat % 8 + 1) (((slotEnv s g hdr ws ⟨.br, pc, .loop h y⟩).read { f := y.d } 0).setWidth 32) 0
      ((g.pc + BitVec.ofNat 64 (bundleSize hdr)).setWidth 56)))
  have hp : (branchEnv s g hdr ws pc (.loop h y)).srcPoison { f := y.d, w := .w32 } 0 = false :=
    if_pos (show g.regs.poison.isEmpty = true by rw [hi.poison]; rfl)
  unfold semLoop
  dsimp only
  rw [if_neg (by rw [branchEnv_acts hg]; decide), if_neg (by rw [hp]; decide)]
  exact if_neg (show ¬ g.ctl.stack.length ≥ 16 by omega)

theorem loopAdvance_loop {e : Env} {st : State} {m k : Nat} {n : BitVec 32} {start : BitVec 56} {rest : List Entry} (h : e.g.ctl.stack = .loop m n k start :: rest) :
    e.loopAdvance st = if k + 1 < passes m n then
      .ok { st := st.modCtl e.g.uid (fun c => { c with stack := .loop m n (k + 1) start :: rest }), next := some (start.setWidth 64) }
    else .ok { st := st.modCtl e.g.uid (fun c => { c with stack := rest }) } := by
  unfold Env.loopAdvance
  rw [h]

theorem loopPop_loop {e : Env} {st : State} {m k : Nat} {n : BitVec 32} {start : BitVec 56} {rest : List Entry} (h : e.g.ctl.stack = .loop m n k start :: rest) :
    e.loopPop st = .ok { st := st.modCtl e.g.uid (fun c => { c with stack := rest }) } := by
  unfold Env.loopPop
  rw [h]

theorem lend_turns {y : BF} {m k : Nat} {n : BitVec 32} {start : BitVec 56} {rest : List Entry} (hi : IssuesSlot s g hdr ws ⟨.br, pc, .lend h y⟩)
    (hl : g.ctl.stack = .loop m n k start :: rest) :
    (k + 1 < passes m n → turnsTo s g hdr ws (start.setWidth 64) (.loop m n (k + 1) start :: rest)) ∧
      (passes m n ≤ k + 1 → turnsTo s g hdr ws (g.pc + BitVec.ofNat 64 (bundleSize hdr)) rest) := by
  have hop : (semLend h y).op (branchEnv s g hdr ws pc (.lend h y)) = _ := loopAdvance_loop hl
  refine ⟨fun hk => ?_, fun hk => ?_⟩
  · exact exec_bundle_ctl (m := semLend h y) (nx := some (start.setWidth 64)) hi rfl (fun _ => rfl) rfl rfl (hop.trans (if_pos hk))
      (C := fun c => { c with stack := .loop m n (k + 1) start :: rest })
  · exact exec_bundle_ctl (m := semLend h y) (nx := none) hi rfl (fun _ => rfl) rfl rfl (hop.trans (if_neg (by omega))) (C := fun c => { c with stack := rest })

theorem lendPop_turns {y : BF} {m k : Nat} {n : BitVec 32} {start : BitVec 56} {rest : List Entry} (hi : IssuesSlot s g hdr ws ⟨.br, pc, .lendPop h y⟩)
    (hl : g.ctl.stack = .loop m n k start :: rest) : turnsTo s g hdr ws (g.pc + BitVec.ofNat 64 (bundleSize hdr)) rest :=
  exec_bundle_ctl (m := semLendPop h y) (nx := none) hi rfl (fun _ => rfl) rfl rfl (loopPop_loop hl) (C := fun c => { c with stack := rest })

theorem lendBrk_turns {y : BF} {m k : Nat} {n : BitVec 32} {start : BitVec 56} {rest : List Entry} (hi : IssuesSlot s g hdr ws ⟨.br, pc, .lendBrk h y⟩)
    (hg : (slotEnv s g hdr ws ⟨.br, pc, .lendBrk h y⟩).guard 0 = true) (hl : g.ctl.stack = .loop m n k start :: rest)
    (hal : (g.b y.tgt.toNat).toNat % 8 = 0) : turnsTo s g hdr ws ((g.b y.tgt.toNat).setWidth 64) rest := by
  refine exec_bundle_ctl (m := semLendBrk h y) (nx := some ((g.b y.tgt.toNat).setWidth 64)) hi rfl (fun _ => rfl) rfl rfl ?_ (C := fun c => { c with stack := rest })
  have hpop : (branchEnv s g hdr ws pc (.lendBrk h y)).loopPop (branchEnv s g hdr ws pc (.lendBrk h y)).s = _ := loopPop_loop hl
  unfold semLendBrk
  dsimp only
  rw [if_neg (by rw [branchEnv_acts hg]; decide), hpop]
  have hb : bits64 ((g.b y.tgt.toNat).setWidth 64) 2 0 = 0 := by
    unfold bits64 field
    rw [BitVec.toNat_setWidth]
    omega
  exact transfer_branch hb _ _

/-! ## SPLIT (R41, R271) -/

/-- A thread that a SPLIT waits for. -/
def Gang.willSplit (a : Word64) (g : Gang) : Gang := { g with iss := { g.iss with splitTo := some a } }
/-- A thread without its lane group. -/
def Gang.noGroup (g : Gang) : Gang := { g with iss := { g.iss with group := false, groupFrom := none } }
/-- A core one of whose lane groups is free. -/
def Core.freeGroup (slot : Nat) (c : Core) : Core := { c with freed := NSet.add c.freed (slot % 4) }

theorem State.dropGroup_group {X : State} {x : Gang} {u : Nat} (hx : X.gang? u = some x) (hg : x.iss.group = true) :
    X.dropGroup u = (X.modCore x.gcore (Core.freeGroup x.slot)).modGang u Gang.noGroup := by
  unfold State.dropGroup
  rw [hx]
  exact if_pos hg

theorem State.dropGroup_none {X : State} {x : Gang} {u : Nat} (hx : X.gang? u = some x) (hg : x.iss.group = false) : X.dropGroup u = X := by
  unfold State.dropGroup
  rw [hx]
  exact if_neg (by rw [hg]; decide)

theorem State.resultsOut_map {X Y : State} {F : Flight → Flight} (h : Y.flights = X.flights.map F) (hF : ∀ f, (F f).uid = f.uid ∧ (F f).dst? = f.dst?) (u : Nat) :
    Y.resultsOut u = X.resultsOut u := by
  unfold State.resultsOut State.flightsOf
  rw [h, List.filter_map, List.any_map]
  have h1 : (fun f : Flight => f.uid == some u) ∘ F = fun f => f.uid == some u := funext (fun f => by simp only [Function.comp, (hF f).1])
  have h2 : (fun f : Flight => f.dst?.isSome) ∘ F = fun f => f.dst?.isSome := funext (fun f => by simp only [Function.comp, (hF f).2])
  rw [h1, h2]

/-- The state that a SPLIT leaves before the marks of its issue. -/
def State.splitIn (X : State) (u : Nat) (a : Word64) : State := (X.modGang u (Gang.willSplit a)).dropGroup u

section
variable {X : State} {x : Gang} {a : Word64} {u : Nat} (hx : X.gang? u = some x) (hg : x.iss.group = true)
include hx hg

theorem State.splitIn_eq : X.splitIn u a = ((X.modGang u (Gang.willSplit a)).modCore x.gcore (Core.freeGroup x.slot)).modGang u Gang.noGroup :=
  State.dropGroup_group (x := x.willSplit a) (State.gang?_modGang_same (Gang.willSplit a) (fun _ => rfl) hx) hg

theorem State.splitIn_gang : (X.splitIn u a).gang? u = some (x.willSplit a).noGroup := by
  rw [State.splitIn_eq hx hg]
  exact State.gang?_modGang_same (s := (X.modGang u (Gang.willSplit a)).modCore x.gcore (Core.freeGroup x.slot)) Gang.noGroup (fun _ => rfl)
    (State.gang?_modGang_same (s := X) (Gang.willSplit a) (fun _ => rfl) hx)

theorem State.splitIn_onlySeals (hu : g.uid = u) (h : X.onlySeals g) : (X.splitIn u a).onlySeals g := by
  subst hu
  rw [State.splitIn_eq hx hg]
  exact State.onlySeals_modGang (s := (X.modGang g.uid (Gang.willSplit a)).modCore x.gcore (Core.freeGroup x.slot))
    (State.onlySeals_modGang h (F := Gang.willSplit a) (fun _ => rfl) (fun _ => rfl)) (F := Gang.noGroup) (fun _ => rfl) (fun _ => rfl)

theorem State.splitIn_noLateTrap (h : X.noLateTrap) : (X.splitIn u a).noLateTrap := by
  rw [State.splitIn_eq hx hg]
  exact State.noLateTrap_modGang (s := (X.modGang u (Gang.willSplit a)).modCore x.gcore (Core.freeGroup x.slot)) (f := Gang.noGroup) _ (fun _ => rfl)
    (State.noLateTrap_modGang _ (f := Gang.willSplit a) (fun _ => rfl) h)

theorem State.splitIn_keeps : X.sameBytes (X.splitIn u a) ∧ (X.splitIn u a).flights = X.flights ∧ (X.splitIn u a).dev = X.dev := by
  rw [State.splitIn_eq hx hg]
  refine ⟨State.sameBytes_of rfl rfl rfl rfl rfl (fun n => ?_), rfl, rfl⟩
  show ((X.modCore x.gcore (Core.freeGroup x.slot)).core n).shares = _
  by_cases hn : x.gcore = n
  · subst hn
    rw [State.core_modCore_same]
    rfl
  · rw [State.core_modCore_ne _ _ hn]

end

theorem State.bundled_onlySeals {F : State} {e : Env} {next : Word64} {ci : Nat} (h : F.onlySeals g) : (F.bundled e next ci).onlySeals g := by
  intro x hx
  rw [State.bundled_gangs] at hx
  obtain ⟨y, hy, rfl⟩ := List.mem_map.1 hx
  have hm : (y.bundleMarks next ci 0).uid = y.uid ∧ (y.bundleMarks next ci 0).ctx = y.ctx ∧ (y.sealless → (y.bundleMarks next ci 0).sealless) := by
    unfold Gang.sealless
    rw [Gang.bundleMarks_iss]
    exact ⟨by simp [Gang.bundleMarks, Gang.ctr], by simp [Gang.bundleMarks, Gang.ctr], id⟩
  split
  · exact (h y hy).imp (fun h => ⟨hm.1.trans h.1, hm.2.1.trans h.2⟩) (fun h => ⟨fun he => h.1 (hm.1.symm.trans he), hm.2.2 h.2⟩)
  · exact h y hy

theorem State.issuedAt_onlySeals {F : State} {u ci : Nat} {old : List Flight} (hu : g.uid = u) (h : F.onlySeals g) : (F.issuedAt u old ci).onlySeals g := by
  subst hu
  exact State.onlySeals_modGang (s := F) h (F := Gang.paid F.clock.el ci 0) (fun _ => rfl) (fun _ => rfl)

/-- A thread whose split is due takes it (R41, R63). -/
theorem Gang.takeSplit_due {x : Gang} {a : Word64} (hs : x.iss.splitTo = some a) (hb : x.iss.block = []) (hl : x.pend = []) (hp : x.park = none) :
    x.takeSplit false = { ({ x with ctl := { x.ctl with vliw := false, active := 0xFFFFFFFF } } : Gang).cont a with iss := { x.iss with mseal := true, splitTo := none } } := by
  have hland : x.landed = true := by
    unfold Gang.landed
    rw [hl]
    rfl
  unfold Gang.takeSplit
  rw [hs]
  exact if_pos (by rw [hb, hland, hp]; rfl)

/-- The end of a bundle with a SPLIT, Muslin off, where no result is outstanding. -/
theorem State.split_end {X : State} {x : Gang} {a : Word64} (hg : X.gang? g.uid = some x) (hf : ∀ f ∈ X.flights, f.releases = false) (ho : X.onlySeals g)
    (hm : X.muslinMode g.ctx = 0) (hl : X.noLateTrap) (hr : X.resultsOut g.uid = false) (hseal : x.iss.sealTo = none)
    (hs : x.iss.splitTo = some a) (hb : x.iss.block = []) (hpd : x.pend = []) (hp : x.park = none) :
    X.sameBytes X.pump ∧ ∃ g', X.pump.gang? g.uid = some g' ∧ g'.pc = x.pc ∧ g'.regs = x.regs ∧
      g'.ctl = { x.ctl with vliw := false, active := 0xFFFFFFFF } ∧ g'.spec.cp = a ∧ g'.iss.group = x.iss.group := by
  have hrel : X.applyReleases = X := State.applyReleases_off (List.all_eq_true.2 (fun f h => by rw [hf f h]; rfl))
  obtain ⟨hrest, hgang⟩ := State.onlySeals_pump (s := X) (g := g) (by rwa [hrel]) (by rwa [hrel]) (by rwa [hrel])
  rw [hrel] at hrest hgang
  have hx : ({ X with gangs := X.gangs.map (fun g => g.takeSeal.takeSplit (X.resultsOut g.uid)) } : State).gang? g.uid =
      some (x.takeSeal.takeSplit (X.resultsOut x.uid)) :=
    State.gang?_map (fun g => g.takeSeal.takeSplit (X.resultsOut g.uid)) (fun x => by rw [Gang.takeSplit_uid, Gang.takeSeal_uid]) hg
  rw [Gang.takeSeal_none hseal, State.gang?_uid hg, hr, Gang.takeSplit_due hs hb hpd hp] at hx
  obtain ⟨m, l, hg'⟩ := hgang _ _ hx
  refine ⟨?_, _, hg', rfl, rfl, rfl, rfl, rfl⟩
  rw [hrest]
  exact State.sameBytes_of rfl rfl rfl rfl rfl (fun _ => rfl)
end
section
variable {s : State} {g : Gang} {hdr : Word64} {ws : List Word64} {pc : Word64} {h : Hd}

/-- What an issue notes in the operations in flight. -/
def Flight.noted (s : State) (old : List Flight) (u ci : Nat) (f : Flight) : Flight :=
  let y : Flight := if s.next ≤ f.id then { f with slot := Place.br.slotNo } else f
  if !old.any (fun x => x.id == y.id) && y.uid == some u then { y with paid := (ci, 0) } else y

theorem Flight.noted_keeps (s : State) (old : List Flight) (u ci : Nat) (f : Flight) :
    (f.noted s old u ci).uid = f.uid ∧ (f.noted s old u ci).dst? = f.dst? ∧ (f.noted s old u ci).releases = f.releases := by
  unfold Flight.noted
  dsimp only
  split
  · split <;> exact ⟨rfl, rfl, rfl⟩
  · split <;> exact ⟨rfl, rfl, rfl⟩

theorem State.issuedAt_flights (s F : State) (e : Env) (next : Word64) (u ci : Nat) (old : List Flight) :
    (((slotted s F).bundled e next ci).issuedAt u old ci).flights = F.flights.map (Flight.noted s old u ci) := by
  show (((slotted s F).bundled e next ci).flights).map _ = _
  rw [State.bundled_frame State.flights (fun _ _ => rfl) (fun _ _ => rfl) (fun _ _ => rfl)]
  exact List.map_map

theorem State.issuedAt_gang {F : State} {u ci : Nat} {old : List Flight} {x : Gang} (h : F.gang? u = some x) :
    (F.issuedAt u old ci).gang? u = some (x.paid F.clock.el ci 0) := State.gang?_modGang_same (s := F) (Gang.paid F.clock.el ci 0) (fun _ => rfl) h

theorem State.issuedAt_reg {F : State} {u ci : Nat} {old : List Flight} (c : Nat) : (F.issuedAt u old ci).muslinMode c = F.muslinMode c := rfl

/-- A thread that waits for nothing but a split keeps its state until the marks of the issue. -/
theorem State.afterBundle_split {B : State} {u : Nat} {y : Gang} {a : Word64} (hB : B.gang? u = some y) (hp : y.park = none) (hb : y.iss.block = []) (hy : y.iss.yieldReq = false)
    (hs : y.iss.splitTo = some a) (hgr : y.iss.group = false) : B.afterBundle u = B := by
  unfold State.afterBundle
  rw [hB]
  dsimp only
  rw [hb, hp, hy, hs]
  exact State.dropGroup_none hB hgr

/-- The marks of an issue, and then the split. -/
theorem State.split_paid {B : State} {y : Gang} {a : Word64} {ci : Nat} {old : List Flight} (hB : B.gang? g.uid = some y)
    (hf : ∀ f ∈ (B.issuedAt g.uid old ci).flights, f.releases = false) (hr : (B.issuedAt g.uid old ci).resultsOut g.uid = false) (ho : B.onlySeals g)
    (hm : B.muslinMode g.ctx = 0) (hl : B.noLateTrap) (hseal : y.iss.sealTo = none) (hs : y.iss.splitTo = some a) (hb : y.iss.block = []) (hpd : y.pend = [])
    (hp : y.park = none) :
    B.sameBytes (B.issuedAt g.uid old ci).pump ∧ ∃ g', (B.issuedAt g.uid old ci).pump.gang? g.uid = some g' ∧ g'.pc = y.pc ∧ g'.regs = y.regs ∧
      g'.ctl = { y.ctl with vliw := false, active := 0xFFFFFFFF } ∧ g'.spec.cp = a ∧ g'.iss.group = y.iss.group := by
  have hbytes : B.sameBytes (B.issuedAt g.uid old ci) := State.sameBytes_of rfl rfl rfl rfl rfl (fun _ => rfl)
  obtain ⟨hend, hgang⟩ := State.split_end (X := B.issuedAt g.uid old ci) (x := y.paid B.clock.el ci 0) (a := a) (State.issuedAt_gang hB) hf
    (State.issuedAt_onlySeals rfl ho) hm (issuedAt_noLateTrap hl) hr hseal hs hb
    (by simpa [Gang.paid, Gang.ctr] using hpd) (by simpa [Gang.paid, Gang.ctr] using hp)
  exact ⟨State.sameBytes_trans hbytes hend, hgang⟩

/-- The end of a bundle with a SPLIT: the thread has given up its lane group, and takes the split. -/
theorem State.split_issue {F : State} {e : Env} {a : Word64} {ci : Nat} {x : Gang} (hg : F.gang? e.g.uid = some x) (hfl : F.flights = s.flights)
    (hrel : ∀ f ∈ s.flights, f.releases = false) (ho : F.onlySeals e.g) (hm : F.muslinMode e.g.ctx = 0) (hl : F.noLateTrap) (hr : s.resultsOut e.g.uid = false)
    (hseal : x.iss.sealTo = none) (hs : x.iss.splitTo = some a) (hgr : x.iss.group = false) (hb : x.iss.block = []) (hpd : x.pend = []) (hp : x.park = none)
    (hy : x.iss.yieldReq = false) :
    F.sameBytes ((((slotted s F).bundled e a ci).afterBundle e.g.uid).issuedAt e.g.uid s.flights ci).pump ∧
    ∃ g', ((((slotted s F).bundled e a ci).afterBundle e.g.uid).issuedAt e.g.uid s.flights ci).pump.gang? e.g.uid = some g' ∧ g'.pc = a ∧ g'.regs = x.regs ∧
      g'.ctl = { x.ctl with vliw := false, active := 0xFFFFFFFF } ∧ g'.spec.cp = a ∧ g'.iss.group = false := by
  have hB := State.bundled_gang (F := slotted s F) (e := e) (next := a) (ci := ci) hg
  have hbB := State.sameBytes_trans (State.sameBytes_of (s := F) (t := slotted s F) rfl rfl rfl rfl rfl (fun _ => rfl)) (State.bundled_bytes (slotted s F) e a ci)
  have hoB := State.bundled_onlySeals (F := slotted s F) (e := e) (next := a) (ci := ci) ho
  have hlB := bundled_noLateTrap (F := slotted s F) (e := e) (next := a) (ci := ci) hl
  have hmB : ((slotted s F).bundled e a ci).muslinMode e.g.ctx = 0 :=
    (State.bundled_frame (fun s => s.muslinMode e.g.ctx) (fun _ _ => rfl) (fun _ _ => rfl) (fun _ _ => rfl) (slotted s F) e a ci).trans hm
  have hfX := State.issuedAt_flights s F e a e.g.uid ci s.flights
  rw [hfl] at hfX
  obtain ⟨hpark, hpend⟩ := x.bundleMarks_park a ci 0
  have hiss := x.bundleMarks_iss a ci 0
  obtain ⟨hpc, hregs, hctl⟩ : (x.bundleMarks a ci 0).pc = a ∧ (x.bundleMarks a ci 0).regs = x.regs ∧ (x.bundleMarks a ci 0).ctl = x.ctl := by
    simp [Gang.bundleMarks, Gang.ctr]
  generalize x.bundleMarks a ci 0 = y at *
  generalize (slotted s F).bundled e a ci = B at *
  rw [State.afterBundle_split hB (hpark.trans hp) (by rwa [hiss]) (by rwa [hiss]) (by rwa [hiss]) (by rwa [hiss])]
  have hrel' : ∀ f ∈ (B.issuedAt e.g.uid s.flights ci).flights, f.releases = false := fun f hf => by
    rw [hfX] at hf
    obtain ⟨z, hz, rfl⟩ := List.mem_map.1 hf
    exact (z.noted_keeps s s.flights e.g.uid ci).2.2.trans (hrel z hz)
  have hr' : (B.issuedAt e.g.uid s.flights ci).resultsOut e.g.uid = false :=
    (State.resultsOut_map hfX (fun z => ⟨(z.noted_keeps s s.flights e.g.uid ci).1, (z.noted_keeps s s.flights e.g.uid ci).2.1⟩) _).trans hr
  obtain ⟨hend, g', h1, h2, h3, h4, h5, h6⟩ := State.split_paid hB hrel' hr' hoB hmB hlB (by rwa [hiss]) (by rwa [hiss]) (by rwa [hiss]) (hpend.trans hpd) (hpark.trans hp)
  refine ⟨State.sameBytes_trans hbB hend, g', h1, h2.trans hpc, h3.trans hregs, by rw [h4, hctl], h5, ?_⟩
  rw [h6, hiss]
  exact hgr

/-- SPLIT of a thread with an empty stack (R41, R271). -/
theorem split_turns {y : BF} (hi : IssuesSlot s g hdr ws ⟨.br, pc, .split h y⟩) (hg : (slotEnv s g hdr ws ⟨.br, pc, .split h y⟩).guard 0 = true)
    (hst : g.ctl.stack = []) (hm : s.muslinMode g.ctx = 0) :
    ∃ t g', exec (.bundle hdr ws) s = .next t ∧ t.gang? g.uid = some g' ∧ g'.pc = g.pc + BitVec.ofNat 64 (bundleSize hdr) ∧ g'.regs = g.regs ∧
      g'.ctl = { g.ctl with vliw := false, active := 0xFFFFFFFF } ∧ g'.spec.cp = g.pc + BitVec.ofNat 64 (bundleSize hdr) ∧ g'.iss.group = false ∧ s.sameBytes t := by
  obtain ⟨hsy, _⟩ := hi.plain
  have hE := branchEnv_gang hi
  have hgr : (g.charge (ciOf (Instr.split h y).maj) 0).iss.group = true := hi.group
  have hop : (semSplit h y).op (branchEnv s g hdr ws pc (.split h y)) =
      .ok { st := (branchEnv s g hdr ws pc (.split h y)).s.splitIn g.uid (g.pc + BitVec.ofNat 64 (bundleSize hdr)) } := by
    unfold semSplit
    dsimp only
    rw [if_neg (by rw [branchEnv_acts hg]; decide)]
    exact if_neg (show ¬ (!g.ctl.stack.isEmpty) = true by rw [hst]; decide)
  generalize ha : g.pc + BitVec.ofNat 64 (bundleSize hdr) = a at hop ⊢
  have hF := State.splitIn_gang (a := a) hE hgr
  obtain ⟨hbytes, hflights, hdev⟩ := State.splitIn_keeps (a := a) hE hgr
  have hos := State.splitIn_onlySeals (g := g) (a := a) hE hgr rfl (State.onlySeals_charged hi.quiet (.split h y) _ _)
  have hnl := State.splitIn_noLateTrap (a := a) hE hgr (branchEnv_noLateTrap hi)
  have hrun := (exec_bundle_one hi rfl (fun _ => rfl) rfl hop).trans
    (congrArg Host.Outcome.next (State.commitBundle_one (pc := pc) (ws := ws) hsy rfl rfl rfl rfl hi.quiet hdev))
  dsimp only at hrun
  rw [ha] at hrun
  generalize (branchEnv s g hdr ws pc (.split h y)).s.splitIn g.uid a = F at *
  obtain ⟨hb, _, _, _, hpark, hyr, _⟩ := Gang.idle_of_free hi.free
  have hseal : g.iss.sealTo = none := (State.calmFor_sealless hi.quiet g (State.gang?_mem hi.here)).1
  obtain ⟨h1, g', h2, h3, h4, h5, h6, h7⟩ := State.split_issue (s := s) (F := F) (e := bundleEnv s g hdr ws (ciOf (Instr.split h y).maj))
    (ci := ciOf (Instr.split h y).maj) hF hflights (State.calmFor_flights hi.quiet) hos ((congrArg (fun z => bits64 z 1 0) (State.reg_of (s := s) hdev _)).trans hm) hnl
    hi.back hseal rfl rfl hb hi.landed hpark hyr
  have hb0 : s.sameBytes (branchEnv s g hdr ws pc (.split h y)).s := State.sameBytes_of rfl rfl rfl rfl rfl (fun _ => rfl)
  exact ⟨_, g', hrun, h2, h3, h4, h5, h6, h7, State.sameBytes_trans (State.sameBytes_trans hb0 hbytes) h1⟩
end

/-- Settles O50: each case is its instruction in a bundle of one slot; the split is taken at the end of the step. -/
theorem branchSlot : Obligations.BranchSlot := by
  unfold Obligations.BranchSlot
  intro s g hdr ws pc i h x e npc turns hi hg
  refine ⟨fun y hy hl => ?_, fun y m n k start rest hy hl => ?_, fun y m n k start rest hy hl => ?_, fun y m n k start rest hy hl hal => ?_, fun y hy hst hm => ?_⟩
  · subst hy
    exact loop_turns hi hg hl
  · subst hy
    exact lend_turns hi hl
  · subst hy
    exact lendPop_turns hi hl
  · subst hy
    exact lendBrk_turns hi hg hl hal
  · subst hy
    exact split_turns hi hg hst hm

end Sys2Proof.Machine
end

section
/-! PROOFS. Bins at work (R44, R45, R46, R254). -/

namespace Sys2Proof.Machine

/-! ## Entries of a Muslin log (R422 to R426) -/

section Log
variable {γ : Type} (p : State → γ) (hw : ∀ (s : State) q c pa bs po a, p (s.pathWrite q c pa bs po a) = p s) (hl : ∀ (s : State) l, p { s with logs := l } = p s)
  (hm : ∀ (s : State) c (F : Ctx → Ctx), (∀ x, ∃ a b d, F x = { x with lptr := a, mst := b, mdone := d }) → p (s.modCtx c F) = p s)
include hm

theorem State.useEntry_frame (s : State) (c : Nat) (e : Nat × LogEntry) : p (s.useEntry c e) = p s := by
  unfold State.useEntry
  dsimp only
  split
  · exact (hm _ _ _ (fun x => ⟨_, _, _, rfl⟩)).trans (hm _ _ _ (fun x => ⟨_, _, _, rfl⟩))
  · exact hm _ _ _ (fun x => ⟨_, _, _, rfl⟩)

include hw hl

theorem State.muslin_frame (s : State) (c k : Nat) (fs : List Nat) (bs : List Byte) : p (s.muslin c k fs bs) = p s := by
  unfold State.muslin
  dsimp only
  split
  · rfl
  · split
    · exact hm _ _ _ (fun x => ⟨_, _, _, rfl⟩)
    · exact (hl _ _).trans ((hm _ _ _ (fun x => ⟨_, _, _, rfl⟩)).trans (hw ..))

/-- What neither a log nor the HOST path's writes hold passes by the notes of an operation's places in the orders. -/
theorem State.noteFlight_frame (s : State) (f : Flight) : p (s.noteFlight f) = p s := by
  refine foldl_keep p _ (fun st l => ?_) _ _
  unfold State.noteOrder
  split
  · exact State.useEntry_frame p hm ..
  · exact State.muslin_frame p hw hl hm ..

end Log

/-- What a bin controller asks of a context: its bins, its nodes, what lies in the overflow area. -/
def Ctx.work (x : Ctx) : SMap Bin × SMap Node × List (Nat × Record) := (x.bins, x.nodes, x.ovr)

/-- What neither the operations in flight nor their gangs hold passes by the end of an operation. -/
theorem State.dropFlight_frame {γ : Type} (p : State → γ) (hw : ∀ (s : State) q c pa bs po a, p (s.pathWrite q c pa bs po a) = p s)
    (hl : ∀ (s : State) l, p { s with logs := l } = p s)
    (hm : ∀ (s : State) c (F : Ctx → Ctx), (∀ x, ∃ a b d, F x = { x with lptr := a, mst := b, mdone := d }) → p (s.modCtx c F) = p s)
    (hf : ∀ (s : State) l, p { s with flights := l } = p s) (hg : ∀ (s : State) l, p { s with gangs := l } = p s) (s : State) (id : Nat) :
    p (s.dropFlight id) = p s := by
  have key : ∀ t : State, p { t with
      flights := t.flights.filter (fun f => f.id != id)
      gangs := t.gangs.map (fun g => { g with iss := { g.iss with block := g.iss.block.filter (fun b => b != id) } }) } = p t := fun t =>
    (hg { t with flights := t.flights.filter (fun f => f.id != id) } _).trans (hf t _)
  unfold State.dropFlight
  split
  · exact (key _).trans (State.noteFlight_frame p hw hl hm s _)
  · exact key s

/-- A part of a context that no log holds. -/
theorem State.dropFlight_ctx {γ : Type} (p : Ctx → γ) (hp : ∀ (x : Ctx) a b d, p { x with lptr := a, mst := b, mdone := d } = p x) (s : State) (id c : Nat) :
    p ((s.dropFlight id).ctx c) = p (s.ctx c) := by
  refine State.dropFlight_frame (fun s => p (s.ctx c)) (fun s q d pa bs po a => ?_) (fun _ _ => rfl) (fun s d F hF => ?_) (fun _ _ => rfl) (fun _ _ => rfl) s id
  · unfold State.ctx
    rw [State.pathWrite_ctxs]
  · by_cases hd : d = c
    · subst hd
      obtain ⟨a, b, m, h⟩ := hF (s.ctx d)
      rw [State.ctx_modCtx_same, h, hp]
    · rw [State.ctx_modCtx_ne _ _ hd]

theorem State.dropFlight_work (s : State) (id c : Nat) : ((s.dropFlight id).ctx c).work = (s.ctx c).work :=
  State.dropFlight_ctx Ctx.work (fun _ _ _ _ => rfl) s id c

theorem State.dropFlight_clock (s : State) (id : Nat) : (s.dropFlight id).clock = s.clock :=
  State.dropFlight_frame State.clock (fun _ _ _ _ _ _ _ => State.pathWrite_keep State.clock (fun _ _ => rfl) (fun _ _ _ => rfl) (fun _ _ _ _ => rfl) ..)
    (fun _ _ => rfl) (fun _ _ _ _ => rfl) (fun _ _ => rfl) (fun _ _ => rfl) s id

theorem State.dropFlight_dev (s : State) (id : Nat) : (s.dropFlight id).dev = s.dev :=
  State.dropFlight_frame State.dev (fun s _ _ _ _ _ _ => s.pathWrite_dev ..) (fun _ _ => rfl) (fun _ _ _ _ => rfl) (fun _ _ => rfl) (fun _ _ => rfl) s id

theorem State.dropFlight_settled {s : State} (id : Nat) (h : s.settled = true) : (s.dropFlight id).settled = true := by
  have key : ∀ t : State, t.settled = true → ({ t with
      flights := t.flights.filter (fun f => f.id != id)
      gangs := t.gangs.map (fun g => { g with iss := { g.iss with block := g.iss.block.filter (fun b => b != id) } }) } : State).settled = true := fun t ht =>
    State.settled_mono (s := t) (fun f hf => (List.mem_filter.1 hf).1) (fun g hg => by
      obtain ⟨x, hx, rfl⟩ := List.mem_map.1 hg
      exact ⟨x, hx, fun h => h⟩) ht
  unfold State.dropFlight
  split
  · next f _ =>
    refine key _ ((State.noteFlight_frame State.settled (fun _ _ _ _ _ _ _ => State.pathWrite_settled ..) (fun _ _ => rfl) (fun _ _ _ _ => rfl) s f).trans h)
  · exact key _ h

/-! ## What the operations of a bin controller leave of a node's bin -/

section Bin
variable (s : State) (c n : Nat)

theorem State.bin_of_work {s t : State} {c : Nat} (h : (t.ctx c).work = (s.ctx c).work) (n : Nat) :
    t.bin c n = s.bin c n ∧ t.nodeOf c n = s.nodeOf c n ∧ (t.ctx c).ovr = (s.ctx c).ovr := by
  obtain ⟨h1, h2, h3⟩ : (t.ctx c).bins = (s.ctx c).bins ∧ (t.ctx c).nodes = (s.ctx c).nodes ∧ (t.ctx c).ovr = (s.ctx c).ovr := by
    simpa [Ctx.work] using h
  exact ⟨by rw [State.bin, State.bin, h1], by rw [State.nodeOf, State.nodeOf, h2], h3⟩

@[simp] theorem State.bin_modBin (f : Bin → Bin) : (s.modBin c n f).bin c n = f (s.bin c n) := by
  simp [State.bin, State.modBin, SMap.upd]
@[simp] theorem State.nodeOf_modBin (f : Bin → Bin) : (s.modBin c n f).nodeOf c n = s.nodeOf c n := by
  simp [State.nodeOf, State.modBin]
@[simp] theorem State.ovr_modBin (f : Bin → Bin) : ((s.modBin c n f).ctx c).ovr = (s.ctx c).ovr := by
  simp [State.modBin]
@[simp] theorem State.bin_modNode (f : Node → Node) : (s.modNode c n f).bin c n = s.bin c n := by
  simp [State.bin, State.modNode]
@[simp] theorem State.nodeOf_modNode (f : Node → Node) : (s.modNode c n f).nodeOf c n = f (s.nodeOf c n) := by
  simp [State.nodeOf, State.modNode, SMap.upd]
@[simp] theorem State.ovr_modNode (f : Node → Node) : ((s.modNode c n f).ctx c).ovr = (s.ctx c).ovr := by
  simp [State.modNode]

theorem State.enterBin_bin (r : Record) : (s.enterBin c n r).bin c n = { s.bin c n with recs := (s.bin c n).recs ++ [r] } ∧
    (s.enterBin c n r).nodeOf c n = s.nodeOf c n ∧ ((s.enterBin c n r).ctx c).ovr = (s.ctx c).ovr ∧ (s.enterBin c n r).clock = s.clock ∧
    (s.enterBin c n r).settled = s.settled := by
  have h1 := s.bin_modBin c n (fun b => { b with recs := b.recs ++ [r] })
  have h2 := s.nodeOf_modBin c n (fun b => { b with recs := b.recs ++ [r] })
  have h3 := s.ovr_modBin c n (fun b => { b with recs := b.recs ++ [r] })
  unfold State.enterBin
  dsimp only
  split
  · exact ⟨h1, h2, h3, rfl, rfl⟩
  · exact ⟨h1, h2, h3, rfl, rfl⟩

theorem State.enterBin_dev (r : Record) : (s.enterBin c n r).dev = s.dev := by
  unfold State.enterBin
  dsimp only
  split <;> rfl

/-- The records that stay when the first ones that are picked go. -/
def leftAfter (pick : Record → Bool) (k : Nat) (l : List Record) : List Record :=
  (l.foldl (fun (acc : List Record × Nat) r => if pick r && acc.2 > 0 then (acc.1, acc.2 - 1) else (acc.1 ++ [r], acc.2)) ([], k)).1

theorem leftAfter_all {pick : Record → Bool} {l : List Record} (h : ∀ r ∈ l, pick r = true) {k : Nat} (hk : l.length ≤ k) : leftAfter pick k l = [] := by
  have key : ∀ (l : List Record) (acc : List Record) (k : Nat), (∀ r ∈ l, pick r = true) → l.length ≤ k →
      (l.foldl (fun (acc : List Record × Nat) r => if pick r && acc.2 > 0 then (acc.1, acc.2 - 1) else (acc.1 ++ [r], acc.2)) (acc, k)).1 = acc := by
    intro l
    induction l with
    | nil => exact fun _ _ _ _ => rfl
    | cons r l ih =>
      intro acc k h hk
      rw [List.length_cons] at hk
      have hc : (pick r && decide (k > 0)) = true := by
        rw [h r (List.mem_cons_self ..), Bool.true_and, decide_eq_true_eq]
        omega
      rw [List.foldl_cons]
      dsimp only
      rw [if_pos hc]
      exact ih acc (k - 1) (fun x hx => h x (List.mem_cons_of_mem _ hx)) (by omega)
  exact key l [] k h hk

/-- A launch of the records of a bin that are picked (R44, R46). -/
theorem State.form_bin {pick : Record → Bool} {k : Nat} {s : State} {c n : Nat} (h : ((s.bin c n).recs.filter pick).take k ≠ []) :
    ∃ f, (s.form c n pick k).bin c n = { s.bin c n with recs := leftAfter pick k (s.bin c n).recs, formed := (s.bin c n).formed ++ [f] } ∧
      f.recs = ((s.bin c n).recs.filter pick).take k ∧ f.gid = BitVec.ofNat 32 (s.nodeOf c n).formed ∧ f.at_ = s.clock.t ∧
      ((s.form c n pick k).nodeOf c n).formed = (s.nodeOf c n).formed + 1 ∧ (s.form c n pick k).settled = s.settled := by
  unfold State.form
  extract_lets b nd taken rest
  have ht : taken = ((s.bin c n).recs.filter pick).take k := rfl
  clear_value taken
  cases taken with
  | nil => exact absurd ht.symm h
  | cons r l =>
    dsimp only
    refine ⟨{ fid := s.next, recs := r :: l, gid := BitVec.ofNat 32 nd.formed, at_ := s.clock.t, launch := r.launch
              index := ((if r.marked then s.launches.find? (fun l => some l.id == r.launch) else none).map (fun x => x.formed)).getD 0 },
      ?_, ht, rfl, rfl, ?_, rfl⟩
    · rw [State.bin_modNode, State.bin_modBin]
      rfl
    · rw [State.nodeOf_modNode, State.nodeOf_modBin]
      rfl

theorem State.form_settled (pick : Record → Bool) (k : Nat) : (s.form c n pick k).settled = s.settled := by
  unfold State.form
  dsimp only
  split <;> rfl

/-! ## One cycle of a bin controller -/

theorem State.formMarked_none {s : State} {l : Nat} (h : s.markedTimes c n l = 0) : s.formMarked c n l = s := by
  unfold State.formMarked
  rw [h]
  rfl

/-- Triggers where no marked launch can form one, Muslin off. -/
theorem State.trigger_unmarked {s : State} (h : ∀ l ∈ (s.bin c n).markedLaunches, s.markedTimes c n l = 0) (hm : s.muslinMode c = 0) :
    s.trigger c n =
      if (s.nodeOf c n).coal ≤ ((s.bin c n).recs.filter (fun r => !r.marked)).length ∨ s.timerDue c n = true then s.form c n (fun r => !r.marked) (s.nodeOf c n).coal else s := by
  have hr : s.replaying c = false := by simp [State.replaying, hm]
  have h0 : (s.bin c n).markedLaunches.foldl (fun st l => st.formMarked c n l) s = s := foldl_id _ _ s (fun l hl => State.formMarked_none c n (h l hl))
  unfold State.trigger
  rw [h0]
  dsimp only
  rw [hr, State.muslin_off hm]
  by_cases h1 : (s.nodeOf c n).coal ≤ ((s.bin c n).recs.filter (fun r => !r.marked)).length
  · rw [if_pos h1, if_pos (Or.inl h1)]
  · rw [if_neg h1]
    by_cases h2 : s.timerDue c n = true
    · rw [if_pos (by rw [h2]; rfl), if_pos (Or.inr h2)]
    · rw [if_neg (by simpa using h2), if_neg (by rintro (h | h); exacts [h1 h, h2 h])]

theorem State.timerDue_zero {s : State} (h : (s.nodeOf c n).timer = 0) : s.timerDue c n = false := by
  unfold State.timerDue
  dsimp only
  split
  · rw [h]
    rfl
  · rfl

theorem Bin.markedLaunches_none {b : Bin} (h : ∀ r ∈ b.recs, r.marked = false) : b.markedLaunches = [] := by
  have : b.recs.filterMap (fun r => if r.marked then r.launch else none) = [] := List.filterMap_eq_nil_iff.2 (fun r hr => by rw [h r hr]; rfl)
  unfold Bin.markedLaunches
  rw [this]
  rfl

/-- Triggers of a bin without marked records whose node has no timer: the records that make up its number form a launch. -/
theorem State.trigger_count {s : State} (hu : ∀ r ∈ (s.bin c n).recs, r.marked = false) (hm : s.muslinMode c = 0) (ht : (s.nodeOf c n).timer = 0) :
    ((s.bin c n).recs.length < (s.nodeOf c n).coal → s.trigger c n = s) ∧
    ((s.bin c n).recs.length = (s.nodeOf c n).coal → ∃ f, (s.trigger c n).bin c n = { s.bin c n with recs := [], formed := (s.bin c n).formed ++ [f] } ∧
      f.recs = (s.bin c n).recs ∧ f.gid = BitVec.ofNat 32 (s.nodeOf c n).formed ∧ f.at_ = s.clock.t ∧ ((s.trigger c n).nodeOf c n).formed = (s.nodeOf c n).formed + 1 ∧
      (s.trigger c n).settled = s.settled) := by
  have hall : (s.bin c n).recs.filter (fun r => !r.marked) = (s.bin c n).recs := List.filter_eq_self.2 (fun r hr => by rw [hu r hr]; rfl)
  rw [State.trigger_unmarked c n (fun l hl => by rw [Bin.markedLaunches_none hu] at hl; cases hl) hm, hall, State.timerDue_zero c n ht]
  refine ⟨fun h => if_neg (by rintro (h1 | h1); exacts [absurd h1 (by omega), by cases h1]), fun h => ?_⟩
  rw [if_pos (Or.inl h.ge)]
  have hpos : (s.bin c n).recs ≠ [] := by
    rw [← List.length_pos_iff_ne_nil, h]
    exact Nat.succ_pos _
  obtain ⟨f, h1, h2, h3, h4, h5, h6⟩ := State.form_bin (pick := fun r => !r.marked) (k := (s.nodeOf c n).coal) (s := s) (c := c) (n := n)
    (by rw [hall, ← h, List.take_length]; exact hpos)
  refine ⟨f, ?_, by rw [h2, hall, ← h, List.take_length], h3, h4, h5, h6⟩
  rw [h1, leftAfter_all (fun r hr => by rw [hu r hr]; rfl) h.le]

/-- What a bin controller's first steps leave beside the bin and what lies in the overflow area. -/
structure State.Works (s t : State) (c n : Nat) : Prop where
  node     : t.nodeOf c n = s.nodeOf c n
  dev      : t.dev = s.dev
  clock    : t.clock = s.clock
  launches : t.launches = s.launches
  live     : (t.ctx c).live = (s.ctx c).live
  overRes  : (t.ctx c).overRes = (s.ctx c).overRes
  settled  : t.settled = s.settled

theorem State.Works.trans {s t u : State} {c n : Nat} (h : s.Works t c n) (k : t.Works u c n) : s.Works u c n :=
  ⟨k.node.trans h.node, k.dev.trans h.dev, k.clock.trans h.clock, k.launches.trans h.launches, k.live.trans h.live, k.overRes.trans h.overRes, k.settled.trans h.settled⟩

theorem State.Works.muslin {s t : State} {c n : Nat} (h : s.Works t c n) (x : Nat) : t.muslinMode x = s.muslinMode x :=
  congrArg (fun z => bits64 z 1 0) (State.reg_of h.dev _)

theorem State.works_modBin (f : Bin → Bin) : s.Works (s.modBin c n f) c n :=
  ⟨s.nodeOf_modBin c n f, rfl, rfl, rfl, by simp [State.modBin], by simp [State.modBin], rfl⟩

theorem State.works_ovr (l : List (Nat × Record)) : s.Works (s.modCtx c (fun x => { x with ovr := l })) c n ∧
    (s.modCtx c (fun x => { x with ovr := l })).bin c n = s.bin c n ∧ ((s.modCtx c (fun x => { x with ovr := l })).ctx c).ovr = l := by
  refine ⟨⟨?_, rfl, rfl, rfl, ?_, ?_, rfl⟩, ?_, ?_⟩ <;> simp [State.nodeOf, State.bin]

/-- The controller marks the cycle in which it works. -/
theorem State.bin_ran : (s.modBin c n (fun b => { b with ran := some s.cycle })).bin c n = { s.bin c n with ran := some s.cycle } := s.bin_modBin ..

/-- The room of a bin and of the overflow area. -/
theorem State.Works.roomFor {s t : State} {c n : Nat} (h : s.Works t c n) (hb : (t.bin c n).room = (s.bin c n).room) (ho : (t.ctx c).ovr = (s.ctx c).ovr) (k : Nat) :
    t.roomFor c n k = s.roomFor c n k := by
  unfold State.roomFor State.spills State.overRoom
  simp only [hb, ho, h.overRes, State.reg_of h.dev]

/-- Where nothing of the node lies in the overflow area, nothing returns. -/
theorem State.returnOver_none {s : State} (h : ∀ r ∈ (s.ctx c).ovr, r.1 ≠ n) :
    s.returnOver c n = s.modCtx c (fun x => { x with ovr := (s.ctx c).ovr }) := by
  have hf : (s.ctx c).ovr.filter (fun r => r.1 == n) = [] := List.filter_eq_nil_iff.2 (fun r hr => by simpa using h r hr)
  have hleft : ∀ (l acc : List (Nat × Record)), (l.foldl (fun (acc : List (Nat × Record) × Nat) r =>
      if r.1 == n && acc.2 > 0 then (acc.1, acc.2 - 1) else (acc.1 ++ [r], acc.2)) (acc, 0)).1 = acc ++ l := by
    intro l
    induction l with
    | nil => intro acc; simp
    | cons r l ih =>
      intro acc
      rw [List.foldl_cons]
      dsimp only
      rw [if_neg (by simp), ih, List.append_assoc, List.singleton_append]
  unfold State.returnOver
  simp only [hf, List.take_nil, List.map_nil, List.length_nil, hleft, List.nil_append, List.foldl_nil]

/-- One record of the overflow area, with room for it in its bin. -/
theorem State.returnOver_one {s : State} {r : Record} (h : (s.ctx c).ovr = [(n, r)]) (hr : 0 < (s.bin c n).room) :
    s.returnOver c n = (s.modCtx c (fun x => { x with ovr := [] })).enterBin c n r := by
  unfold State.returnOver
  rw [h]
  have h1 : ([(n, r)].filter (fun x => x.1 == n)) = [(n, r)] := by simp
  have h2 : [(n, r)].take (s.bin c n).room = [(n, r)] := List.take_of_length_le (show 1 ≤ (s.bin c n).room from hr)
  dsimp only
  rw [h1, h2]
  simp

/-- A record that arrives alone, by a port that reserves nothing, where the bin has room for it (R45, R254). -/
theorem State.arriveAt_one {s : State} {a : Arrival} {r : Record} (hl : (s.ctx c).live = true) (hp : a.port = 1) (hr : a.recs = [r]) (hroom : s.roomFor c n 1 = some 1) :
    s.arriveAt c n a = (s.enterBin c n { r with time := s.clock.t, elapsed := s.clock.el }).dropFlight a.id := by
  unfold State.arriveAt
  rw [if_neg (by rw [hl]; simp), if_neg (by rw [hp]; decide), hr]
  dsimp only [List.length_cons, List.length_nil, Nat.zero_add]
  rw [hroom]
  rfl

end Bin

/-! ## The three events -/

section
variable {s : State} {c n : Nat}

/-- The state in which a controller's cycle begins: it is marked, and nothing has come yet. -/
def State.binStarts (s : State) (c n : Nat) : State := s.modBin c n (fun b => { b with ran := some s.cycle })

theorem State.binStarts_works (s : State) (c n : Nat) : s.Works (s.binStarts c n) c n ∧ (s.binStarts c n).bin c n = { s.bin c n with ran := some s.cycle } ∧
    ((s.binStarts c n).ctx c).ovr = (s.ctx c).ovr :=
  ⟨State.works_modBin .., State.bin_ran .., State.ovr_modBin ..⟩

theorem State.binCycle_due (hr : (s.bin c n).ran ≠ some s.cycle) (hd : s.binDue c n = true) :
    s.binCycle c n = (((s.arrivals c n).foldl (fun st a => st.arriveAt c n a) ((s.binStarts c n).returnOver c n)).trigger c n).pump := by
  unfold State.binCycle
  rw [if_neg (by simp [hd, hr])]
  rfl

/-- A cycle in which nothing returns from the overflow area. -/
theorem State.binStarts_returnOver (h : ∀ r ∈ (s.ctx c).ovr, r.1 ≠ n) :
    s.Works ((s.binStarts c n).returnOver c n) c n ∧ ((s.binStarts c n).returnOver c n).bin c n = { s.bin c n with ran := some s.cycle } ∧
      (((s.binStarts c n).returnOver c n).ctx c).ovr = (s.ctx c).ovr := by
  obtain ⟨hw, hb, ho⟩ := s.binStarts_works c n
  rw [State.returnOver_none c n (by rwa [ho])]
  obtain ⟨h1, h2, h3⟩ := (s.binStarts c n).works_ovr c n ((s.binStarts c n).ctx c).ovr
  exact ⟨hw.trans h1, h2.trans hb, h3.trans ho⟩

/-- The controller after a record has come into the bin: it stands last, or makes up the node's number (R44, R46). -/
theorem State.trigger_entered {t : State} {r : Record} (hs : t.settled = true) (hu : ∀ x ∈ (s.bin c n).recs, x.marked = false) (hr : r.marked = false)
    (hm : t.muslinMode c = 0) (hn : t.nodeOf c n = s.nodeOf c n) (ht : (s.nodeOf c n).timer = 0) (hc : t.clock = s.clock)
    (hb : t.bin c n = { s.bin c n with ran := some s.cycle, recs := (s.bin c n).recs ++ [r] }) :
    ((s.bin c n).recs.length + 1 < (s.nodeOf c n).coal → (t.trigger c n).pump = t) ∧
    ((s.bin c n).recs.length + 1 = (s.nodeOf c n).coal → ((t.trigger c n).pump.bin c n).recs = [] ∧ ∃ f, ((t.trigger c n).pump.bin c n).formed = (s.bin c n).formed ++ [f] ∧
      f.recs = (s.bin c n).recs ++ [r] ∧ f.gid = BitVec.ofNat 32 (s.nodeOf c n).formed ∧ f.at_ = s.clock.t ∧
      ((t.trigger c n).pump.nodeOf c n).formed = (s.nodeOf c n).formed + 1) := by
  have hu' : ∀ x ∈ (t.bin c n).recs, x.marked = false := by
    rw [hb]
    intro x hx
    obtain hx | hx := List.mem_append.1 hx
    · exact hu x hx
    · rw [List.mem_singleton.1 hx, hr]
  obtain ⟨hless, hfull⟩ := State.trigger_count c n hu' hm (by rw [hn, ht])
  have hlen : (t.bin c n).recs.length = (s.bin c n).recs.length + 1 := by
    rw [hb]
    exact List.length_append
  rw [hlen, hn] at hless hfull
  refine ⟨fun h => ?_, fun h => ?_⟩
  · rw [hless h, State.pump_settled hs]
  · obtain ⟨f, h1, h2, h3, h4, h5, h6⟩ := hfull h
    rw [State.pump_settled (h6.trans hs), h1, hb, h5]
    exact ⟨rfl, f, rfl, by rw [h2, hb], h3, by rw [h4, hc], rfl⟩

/-- A record arrives alone (R44, R45). -/
theorem recordAppend_one {a : Arrival} {r : Record} (hs : s.settled = true) (hm : s.muslinMode c = 0) (hl : (s.ctx c).live = true) (hran : (s.bin c n).ran ≠ some s.cycle)
    (ht : (s.nodeOf c n).timer = 0) (hu : ∀ x ∈ (s.bin c n).recs, x.marked = false) (ha : s.arrivals c n = [a]) (hp : a.port = 1) (hr : a.recs = [r])
    (hrm : r.marked = false) (ho : (s.ctx c).ovr = []) (hroom : s.roomFor c n 1 = some 1) :
    ∃ t, exec (.recordAppend c n) s = .next t ∧
      ((s.bin c n).recs.length + 1 < (s.nodeOf c n).coal →
        (t.bin c n).recs = (s.bin c n).recs ++ [{ r with time := s.clock.t, elapsed := s.clock.el }] ∧ (t.bin c n).formed = (s.bin c n).formed) ∧
      ((s.bin c n).recs.length + 1 = (s.nodeOf c n).coal → (t.bin c n).recs = [] ∧ ∃ f, (t.bin c n).formed = (s.bin c n).formed ++ [f] ∧
        f.recs = (s.bin c n).recs ++ [{ r with time := s.clock.t, elapsed := s.clock.el }] ∧ f.gid = BitVec.ofNat 32 (s.nodeOf c n).formed ∧ f.at_ = s.clock.t ∧
        (t.nodeOf c n).formed = (s.nodeOf c n).formed + 1) := by
  have hd : s.binDue c n = true := by simp [State.binDue, ha]
  obtain ⟨hw, hb, hov⟩ := State.binStarts_returnOver (s := s) (c := c) (n := n) (by rw [ho]; simp)
  refine ⟨_, rfl, ?_⟩
  rw [State.binCycle_due hran hd, ha]
  generalize (s.binStarts c n).returnOver c n = u at hw hb hov
  have hclk : u.clock = s.clock := hw.clock
  rw [show [a].foldl (fun st a => st.arriveAt c n a) u = u.arriveAt c n a from rfl, State.arriveAt_one c n (hw.live.trans hl) hp hr
    ((hw.roomFor (by rw [hb]; rfl) hov 1).trans hroom), hclk]
  set r' : Record := { r with time := s.clock.t, elapsed := s.clock.el } with hr'
  obtain ⟨he1, he2, -, he4, he5⟩ := u.enterBin_bin c n r'
  obtain ⟨hk1, hk2, -⟩ := State.bin_of_work ((u.enterBin c n r').dropFlight_work a.id c) n
  have hset := State.dropFlight_settled a.id (he5.trans (hw.settled.trans hs))
  have hdev : ((u.enterBin c n r').dropFlight a.id).dev = s.dev := ((u.enterBin c n r').dropFlight_dev a.id).trans ((State.enterBin_dev u c n r').trans hw.dev)
  have hclk' := ((u.enterBin c n r').dropFlight_clock a.id).trans (he4.trans hclk)
  have hbin : ((u.enterBin c n r').dropFlight a.id).bin c n = { s.bin c n with ran := some s.cycle, recs := (s.bin c n).recs ++ [r'] } := by
    rw [hk1, he1, hb]
  obtain ⟨hless, hfull⟩ := State.trigger_entered hset hu (r := r') hrm ((congrArg (fun z => bits64 z 1 0) (State.reg_of hdev _)).trans hm)
    (hk2.trans (he2.trans hw.node)) ht hclk' hbin
  refine ⟨fun h => ?_, hfull⟩
  rw [hless h, hbin]
  exact ⟨rfl, rfl⟩

/-- The one record of the overflow area comes back into its bin (R45). -/
theorem overflowReturn_one {r : Record} (hs : s.settled = true) (hm : s.muslinMode c = 0) (hran : (s.bin c n).ran ≠ some s.cycle)
    (ht : (s.nodeOf c n).timer = 0) (hu : ∀ x ∈ (s.bin c n).recs, x.marked = false) (ho : (s.ctx c).ovr = [(n, r)]) (ha : s.arrivals c n = [])
    (hrm : r.marked = false) (hroom : 0 < (s.bin c n).room) (hlen : (s.bin c n).recs.length + 1 < (s.nodeOf c n).coal) :
    ∃ t, exec (.overflowReturn c) s = .next t ∧ (t.ctx c).ovr = [] ∧ (t.bin c n).recs = (s.bin c n).recs ++ [r] ∧ (t.bin c n).formed = (s.bin c n).formed := by
  have hd : s.binDue c n = true := by simp [State.binDue, ho, Nat.pos_iff_ne_zero.1 hroom]
  have hfold : execOverflowReturn c s = .next (s.binCycle c n) := by simp [execOverflowReturn, ho, List.eraseDups_cons]
  refine ⟨_, hfold, ?_⟩
  rw [State.binCycle_due hran hd, ha, List.foldl_nil]
  obtain ⟨hw, hb, hov⟩ := s.binStarts_works c n
  generalize s.binStarts c n = u at hw hb hov
  rw [State.returnOver_one c n (hov.trans ho) (by rw [hb]; exact hroom)]
  obtain ⟨hw', hb', hov'⟩ := u.works_ovr c n []
  have hwu := hw.trans hw'
  have hbu := hb'.trans hb
  generalize u.modCtx c (fun x => { x with ovr := [] }) = v at hwu hbu hov'
  obtain ⟨he1, he2, he3, he4, he5⟩ := v.enterBin_bin c n r
  have hbin : (v.enterBin c n r).bin c n = { s.bin c n with ran := some s.cycle, recs := (s.bin c n).recs ++ [r] } := by rw [he1, hbu]
  have hdev := (State.enterBin_dev v c n r).trans hwu.dev
  obtain ⟨hless, -⟩ := State.trigger_entered (he5.trans (hwu.settled.trans hs)) hu hrm ((congrArg (fun z => bits64 z 1 0) (State.reg_of hdev _)).trans hm)
    (he2.trans hwu.node) ht (he4.trans hwu.clock) hbin
  rw [hless hlen, hbin]
  exact ⟨he3.trans hov', rfl, rfl⟩

/-- A bin's timer has run out where it holds an unmarked record (R46). -/
theorem State.timerDue_free (h : s.timerDue c n = true) : (s.bin c n).recs.filter (fun r => !r.marked) ≠ [] := by
  intro he
  unfold State.timerDue at h
  dsimp only at h
  rw [List.find?_eq_none.2 (fun r hr => by simpa using List.filter_eq_nil_iff.1 he r hr)] at h
  cases h

/-- A timer that runs out forms a launch of what waits (R46). -/
theorem binTimerExpiry_forms (hs : s.settled = true) (hm : s.muslinMode c = 0) (hran : (s.bin c n).ran ≠ some s.cycle)
    (hdue : s.timerDue c n = true) (ha : s.arrivals c n = []) (ho : ∀ r ∈ (s.ctx c).ovr, r.1 ≠ n) (hk : ∀ l ∈ (s.bin c n).markedLaunches, s.markedTimes c n l = 0) :
    ∃ t f, exec (.binTimerExpiry c n) s = .next t ∧ (t.bin c n).formed = (s.bin c n).formed ++ [f] ∧
      f.recs = ((s.bin c n).recs.filter (fun r => !r.marked)).take (s.nodeOf c n).coal ∧ f.gid = BitVec.ofNat 32 (s.nodeOf c n).formed := by
  have hrep : s.replaying c = false := by simp [State.replaying, hm]
  have hd : s.binDue c n = true := by simp [State.binDue, State.triggered, hdue, hrep]
  obtain ⟨hw, hb, -⟩ := State.binStarts_returnOver ho
  have hexec : execBinTimerExpiry c n s = .next (((s.binStarts c n).returnOver c n).trigger c n).pump := by
    unfold execBinTimerExpiry
    rw [hdue, hrep, State.binCycle_due hran hd, ha]
    rfl
  generalize (s.binStarts c n).returnOver c n = u at hw hb hexec
  have hrecs : (u.bin c n).recs = (s.bin c n).recs := by rw [hb]
  have hmarked : ∀ l ∈ (u.bin c n).markedLaunches, u.markedTimes c n l = 0 := by
    unfold State.markedTimes Bin.markedLaunches
    rw [hrecs, hw.node, hw.launches]
    exact hk
  have hdue' : u.timerDue c n = true := by
    unfold State.timerDue
    rw [hrecs, hw.node, hw.clock]
    exact hdue
  have htrig := State.trigger_unmarked c n hmarked ((hw.muslin c).trans hm)
  rw [if_pos (Or.inr hdue'), hw.node] at htrig
  have htaken : ((u.bin c n).recs.filter (fun r => !r.marked)).take (s.nodeOf c n).coal ≠ [] := by
    rw [hrecs, Ne, List.take_eq_nil_iff]
    rintro (h | h)
    · exact Nat.succ_ne_zero _ h
    · exact State.timerDue_free hdue h
  obtain ⟨f, h1, h2, h3, -, -, h6⟩ := State.form_bin htaken
  refine ⟨_, f, hexec, ?_, h2.trans (by rw [hrecs]), h3.trans (by rw [hw.node])⟩
  rw [htrig, State.pump_settled (h6.trans (hw.settled.trans hs)), h1, hb]

end

/-- Settles O55, by the rules of a bin controller's cycle. -/
theorem binEvents : Obligations.BinEvents := by
  intro s c n hs hm hl hran
  refine ⟨fun ht hu => ⟨fun a r ha hp hr hrm ho hroom => ?_, fun r ho ha hrm hroom hlen => ?_⟩, fun hdue ha ho hk => ?_⟩
  · exact recordAppend_one hs hm hl hran ht hu ha hp hr hrm ho hroom
  · exact overflowReturn_one hs hm hran ht hu ho ha hrm hroom hlen
  · exact binTimerExpiry_forms hs hm hran hdue ha ho hk

end Sys2Proof.Machine
end

section
/-! PROOFS. Events of a gang (R27, R31, R68, R80, R91, R102, R246, R301, R384). -/

namespace Sys2Proof.Machine

/-! ## Pauses, and the ends of a wait on a monitor (R207, R246) -/

theorem State.modGang_only (s : State) (u : Nat) (f : Gang → Gang) : s.modGang u f = { s with gangs := (s.modGang u f).gangs } := rfl

theorem pauseExpiry_ends {s : State} {uid : Nat} {g : Gang} {c : Nat} (hg : s.gang? uid = some g) (hp : g.iss.pauseTo = some c) (h : c ≤ s.cycle ∨ g.iss.yieldReq = true) :
    ∃ t, exec (.pauseExpiry uid) s = .next t ∧ t.gang? uid = some { g with iss := { g.iss with pauseTo := none } } ∧ t = { s with gangs := t.gangs } := by
  refine ⟨s.modGang uid (fun g => { g with iss := { g.iss with pauseTo := none } }), ?_, State.gang?_modGang_same _ (fun _ => rfl) hg, rfl⟩
  show execPauseExpiry uid s = _
  unfold execPauseExpiry
  rw [hg]
  dsimp only
  rw [hp]
  exact if_pos (by simpa using h)

/-- A gang whose monitor has not fired is told how its wait ends. -/
theorem State.wakeWatcher_gang {s : State} {uid : Nat} {g : Gang} {m : Monitor} (hg : s.gang? uid = some g) (hm : g.monitor = some m) (hf : m.fired = none) (st : Nat) :
    (s.wakeWatcher uid st).gang? uid = some { g with monitor := some { m with fired := some st } } := by
  refine (State.gang?_modGang_same (s := s) (fun g => { g with monitor := g.monitor.map (fun m => { m with fired := m.fired.or (some st) }) }) (fun _ => rfl) hg).trans ?_
  rw [hm, Option.map_some, hf]
  rfl

theorem waitwTimeout_ends {s : State} {uid : Nat} {g : Gang} {m : Monitor} {t0 : Nat} (hg : s.gang? uid = some g) (hm : g.monitor = some m) (hf : m.fired = none)
    (hw : g.iss.waitFrom = some t0) (hn : g.iss.waitNs ≠ 0) (ht : t0 + g.iss.waitNs * 65536 ≤ s.clock.el) :
    ∃ t, exec (.waitwTimeout uid) s = .next t ∧ t.gang? uid = some { g with monitor := some { m with fired := some 2 } } ∧ t = { s with gangs := t.gangs } := by
  refine ⟨s.wakeWatcher uid 2, ?_, State.wakeWatcher_gang hg hm hf 2, rfl⟩
  show execWaitwTimeout uid s = _
  unfold execWaitwTimeout
  rw [hg]
  dsimp only
  rw [hw]
  exact congrArg Host.Outcome.next (if_pos (by simp [hn, ht]))

theorem waitwEarlyReturn_ends {s : State} {uid : Nat} {g : Gang} {m : Monitor} {t0 : Nat} (hg : s.gang? uid = some g) (hm : g.monitor = some m) (hf : m.fired = none)
    (hw : g.iss.waitFrom = some t0) :
    ∃ t, exec (.waitwEarlyReturn uid) s = .next t ∧ t.gang? uid = some { g with monitor := some { m with fired := some 4 } } ∧ t = { s with gangs := t.gangs } := by
  refine ⟨s.wakeWatcher uid 4, ?_, State.wakeWatcher_gang hg hm hf 4, rfl⟩
  show execWaitwEarlyReturn uid s = _
  unfold execWaitwEarlyReturn
  rw [hg]
  exact congrArg Host.Outcome.next (if_pos (by rw [hw]; rfl))

/-! ## The end of an operation with no place in an order -/

/-- A gang that waits for an operation no more. -/
def Gang.unblock (id : Nat) (g : Gang) : Gang := { g with iss := { g.iss with block := g.iss.block.filter (fun b => b != id) } }

/-- The state without an operation, which no gang waits for any more. -/
def State.without (s : State) (id : Nat) : State := { s with flights := s.flights.filter (fun f => f.id != id), gangs := s.gangs.map (Gang.unblock id) }

theorem State.dropFlight_unplaced {s : State} {id : Nat} {f : Flight} (h : s.flights.find? (fun f => f.id == id) = some f) (hl : f.locs = []) : s.dropFlight id = s.without id := by
  have hn : s.noteFlight f = s := by
    unfold State.noteFlight
    rw [hl]
    rfl
  unfold State.dropFlight
  rw [h]
  dsimp only
  rw [hn]
  rfl

theorem State.gang?_without (s : State) (id u : Nat) : (s.without id).gang? u = (s.gang? u).map (Gang.unblock id) :=
  find_uid_map _ _ _ (fun _ _ => rfl)

theorem State.without_flights {s : State} {id : Nat} {x : Flight} (h : x ∈ (s.without id).flights) : x ∈ s.flights ∧ x.id ≠ id := by
  have := List.mem_filter.1 h
  exact ⟨this.1, by simpa using this.2⟩

theorem State.without_settled {s : State} {id : Nat} (h : s.settled = true) : (s.without id).settled = true :=
  State.settled_mono (s := s) (fun _ hf => (List.mem_filter.1 hf).1) (fun g hg => by
    obtain ⟨x, hx, rfl⟩ := List.mem_map.1 hg
    exact ⟨x, hx, fun hr => hr⟩) h

/-- What a ready operation is. -/
theorem State.ready_find {s : State} {id : Nat} {f : Flight} (h : s.ready id = some f) : s.flights.find? (fun f => f.id == id) = some f ∧ s.enabled f = true := by
  obtain ⟨h1, h2⟩ := Option.filter_eq_some_iff.1 h
  exact ⟨h1, h2⟩

/-! ## Slots (R99, R301) -/

/-- Writes to the scratchpad change nothing beside the cores and the waiting writes. -/
theorem State.mergeSpad_frame {γ : Type} (p : State → γ) (hp : ∀ (s : State) l, p { s with paths := l } = p s) (hc : ∀ (s : State) l, p { s with cores := l } = p s)
    (s : State) (pa n : Nat) : p (s.mergeSpad pa n) = p s := by
  have key : ∀ (l : List PathWrite) (t : State), (∀ w ∈ l, isSpad w.pa = true) → p (l.foldl State.mergeOne t) = p t := by
    intro l
    induction l with
    | nil => exact fun _ _ => rfl
    | cons w l ih =>
      intro t hl
      have hw := hl w (List.mem_cons_self ..)
      have hd : isDram w.pa = false := by
        simp only [isDram, isSpad, Bool.and_eq_true, decide_eq_true_eq, decide_eq_false_iff_not] at hw ⊢
        omega
      have hone : p (t.mergeOne w) = p t := by
        unfold State.mergeOne
        rw [if_neg (by rw [hd]; decide), if_pos hw]
        exact foldl_keep p _ (fun st _ => hc st _) _ t
      exact (ih _ (fun x hx => hl x (List.mem_cons_of_mem _ hx))).trans hone
  unfold State.mergeSpad State.mergeWhere
  refine (key _ _ (fun w hw => ?_)).trans (hp s _)
  have := (List.mem_filter.1 hw).2
  simp only [Bool.and_eq_true] at this
  exact this.1.1.1

theorem State.dropGroup_frame {γ : Type} (p : State → γ) (hg : ∀ (s : State) l, p { s with gangs := l } = p s) (hc : ∀ (s : State) l, p { s with cores := l } = p s)
    (s : State) (u : Nat) : p (s.dropGroup u) = p s := by
  unfold State.dropGroup
  split
  · rfl
  · split
    · exact (hg _ _).trans (hc s _)
    · rfl

theorem State.clearMarks_frame {γ : Type} (p : State → γ) (hc : ∀ (s : State) n f, (∀ c : Core, ∃ l, f c = { c with l1 := l }) → p (s.modCore n f) = p s)
    (s : State) (g : Gang) : p (s.clearMarks g) = p s := by
  unfold State.clearMarks
  split
  · rfl
  · exact hc s _ _ (fun c => ⟨_, rfl⟩)

theorem State.clearMarks_tiles (s : State) (g : Gang) (n : Nat) : ((s.clearMarks g).core n).tiles = (s.core n).tiles := by
  refine State.clearMarks_frame (fun s => (s.core n).tiles) (fun s m f hf => ?_) s g
  by_cases hm : m = n
  · subst hm
    obtain ⟨l, h⟩ := hf (s.core m)
    rw [State.core_modCore_same, h]
  · rw [State.core_modCore_ne _ _ hm]

/-- A gang of a slot that is forgotten with no engine command under way. -/
theorem State.forget_slot {s : State} {g : Gang} (hl : g.inSlot = true) (hc : s.cmds.any (fun c => c.uid == some g.uid) = false) :
    s.forget g = { s.closeWindow g with gangs := (s.closeWindow g).gangs.filter (fun x => x.uid != g.uid) } := by
  unfold State.forget
  dsimp only
  unfold Gang.inSlot at hl
  split
  · next h => rw [h] at hl; cases hl
  · exact if_neg (by rw [hc]; decide)

/-- A gang that has exited and of which nothing is outstanding leaves its slot. -/
theorem slotRelease_frees {s : State} {uid : Nat} {g : Gang} (hg : s.gang? uid = some g) (he : g.iss.exiting = true) (hs : g.inSlot = true) (hq : s.quiet g = true)
    (hf : (s.core g.gcore).frozen = false) :
    ∃ t, exec (.slotRelease uid) s = .next t ∧ t.gang? uid = none ∧ (∀ w ∈ (t.core g.gcore).wins, w ≠ (g.ctx, g.window)) ∧
      ∀ k, k / 16 = g.slot → (t.tile g.gcore k).state = 0 ∧ (t.tile g.gcore k).defd = false := by
  have hu := State.gang?_uid hg
  have hexec : execSlotRelease uid s = .next (((((s.dropGroup uid).mergeShare g.gcore g.slot).clearTiles g.gcore g.slot).clearMarks g).forget g) := by
    unfold execSlotRelease
    rw [hg]
    exact if_pos (by simp [he, hs, hq, hf])
  have hcmds : s.cmds.any (fun c => c.uid == some g.uid) = false := by
    simp only [State.quiet, Bool.and_eq_true, Bool.not_eq_true'] at hq
    exact hq.1.1.2
  have hkept : ((((s.dropGroup uid).mergeShare g.gcore g.slot).clearTiles g.gcore g.slot).clearMarks g).cmds = s.cmds :=
    (State.clearMarks_frame State.cmds (fun _ _ _ _ => rfl) _ g).trans
      ((State.mergeSpad_frame State.cmds (fun _ _ => rfl) (fun _ _ => rfl) _ _ _).trans (State.dropGroup_frame State.cmds (fun _ _ => rfl) (fun _ _ => rfl) s uid))
  have htiles := State.clearMarks_tiles (((s.dropGroup uid).mergeShare g.gcore g.slot).clearTiles g.gcore g.slot) g g.gcore
  have hfree := fun k (hk : k / 16 = g.slot) => ((s.dropGroup uid).mergeShare g.gcore g.slot).tile_clearTiles (core := g.gcore) hk
  generalize ((s.dropGroup uid).mergeShare g.gcore g.slot).clearTiles g.gcore g.slot = C at hexec hkept htiles hfree
  generalize C.clearMarks g = X at hexec hkept htiles
  refine ⟨_, hexec, ?_⟩
  rw [State.forget_slot hs (by rw [hkept]; exact hcmds)]
  have hcore : (X.closeWindow g).core g.gcore = { X.core g.gcore with wins := (X.core g.gcore).wins.filter (fun w => !(w.1 == g.ctx && w.2 == g.window)) } :=
    State.core_modCore_same ..
  refine ⟨?_, fun w hw => ?_, fun k hk => ?_⟩
  · exact List.find?_eq_none.2 (fun x hx => by simpa [hu] using (List.mem_filter.1 hx).2)
  · change w ∈ ((X.closeWindow g).core g.gcore).wins at hw
    rw [hcore] at hw
    rintro rfl
    simpa using (List.mem_filter.1 hw).2
  · obtain ⟨x, y, h⟩ := hfree k hk
    have ht : (X.closeWindow g).tile g.gcore k = freeTile x y := by
      rw [← h]
      unfold State.tile
      rw [hcore]
      exact congrArg (fun m => SMap.get m k _) htiles
    show ((X.closeWindow g).tile g.gcore k).state = 0 ∧ ((X.closeWindow g).tile g.gcore k).defd = false
    rw [ht]
    exact ⟨rfl, rfl⟩

/-! ## Lane groups (R30, R31) -/

theorem laneGroupAcquire_takes {s : State} {uid : Nat} {g : Gang} (hg : s.gang? uid = some g) (hs : g.inSlot = true) (hv : g.ctl.vliw = true) (hgr : g.iss.group = false)
    (hfree : SMap.find (s.core g.gcore).group (g.slot % 4) = none) (hb : SMap.get (s.core g.gcore).beat (g.slot % 4) 0 ≤ s.cycle)
    (hl : (s.core g.gcore).group.length < s.vres g.gcore) (hr : s.bundleReady g = true) (ha : s.admits g.ctx = true) (hf : g.iss.groupFrom.isSome = true)
    (hw : ∀ x ∈ s.gangs, x.uid ≠ uid → x.gcore = g.gcore → x.slot % 4 = g.slot % 4 → x.ctl.vliw = true →
      x.iss.group = true ∨ g.iss.groupFrom.getD s.cycle ≤ x.iss.groupFrom.getD (s.cycle + 1)) :
    ∃ t, exec (.laneGroupAcquire uid) s = .next t ∧ SMap.find (t.core g.gcore).group (g.slot % 4) = some uid ∧
      t.gang? uid = some { g with iss := { g.iss with group := true, groupFrom := none } } := by
  have hu := State.gang?_uid hg
  have hcan : s.canAcquire g = true := by
    have hrival : s.gangs.any (fun x => x.uid != g.uid && x.inSlot && x.gcore == g.gcore && x.slot % 4 == g.slot % 4 && x.ctl.vliw && !x.iss.group
        && x.iss.groupFrom.getD (s.cycle + 1) < g.iss.groupFrom.getD s.cycle && s.admits x.ctx && s.bundleReady x) = false := by
      rw [List.any_eq_false]
      intro x hx h
      simp only [Bool.and_eq_true, bne_iff_ne, ne_eq, beq_iff_eq, Bool.not_eq_true', decide_eq_true_eq] at h
      obtain ⟨⟨⟨⟨⟨⟨⟨⟨h1, -⟩, h3⟩, h4⟩, h5⟩, h6⟩, h7⟩, -⟩, -⟩ := h
      obtain h8 | h8 := hw x hx (by rwa [hu] at h1) h3 h4 h5
      · rw [h6] at h8
        cases h8
      · omega
    unfold State.canAcquire
    dsimp only
    rw [hrival]
    simp [hs, hv, hgr, hf, ha, hfree, hb, hl, hr]
  refine ⟨(s.modCore g.gcore (fun c => { c with group := SMap.set c.group (g.slot % 4) uid })).modGang uid (fun g => { g with iss := { g.iss with group := true, groupFrom := none } }),
    ?_, ?_, ?_⟩
  · show execLaneGroupAcquire uid s = _
    unfold execLaneGroupAcquire
    rw [hg]
    exact if_pos hcan
  · show SMap.find ((s.modCore g.gcore (fun c => { c with group := SMap.set c.group (g.slot % 4) uid })).core g.gcore).group _ = _
    rw [State.core_modCore_same]
    exact SMap.find_set_same ..
  · exact State.gang?_modGang_same (s := s.modCore g.gcore (fun c => { c with group := SMap.set c.group (g.slot % 4) uid }))
      (fun g => { g with iss := { g.iss with group := true, groupFrom := none } }) (fun _ => rfl) hg

/-! ## Scheduler writes and deadlines (R68, R80) -/

theorem State.replaying_off {s : State} {c : Nat} (h : s.muslinMode c = 0) : s.replaying c = false := by simp [State.replaying, h]

/-- A deadline that a tick of device time finds reached holds the issue of its gang back. -/
theorem State.dlTick_due {s : State} {g : Gang} (hd : dlReached s.clock.t g.spec.dl = true) (hl : g.loc = .resident) (he : g.iss.exiting = false)
    (hr : s.replaying g.ctx = false) : (s.dlTick g).iss.dlDue = true ∧ ∀ c, (s.dlTick g).cannotIssue c = true := by
  have h : s.dlTick g = { g with iss := { g.iss with dlDue := true } } := if_pos (by rw [hd, hl, he, hr]; rfl)
  rw [h]
  exact ⟨rfl, fun c => by simp [Gang.cannotIssue]⟩

/-- A scheduler's write takes ib back, and asks the gang to yield (R68). -/
def Gang.reclaimed (g : Gang) : Gang := { g with spec := { g.spec with ib := 0 }, iss := { g.iss with reclaim := true, pauseTo := none } }

theorem State.reclaim_eq {s : State} {uid : Nat} {g : Gang} (hg : s.gang? uid = some g) (hs : g.inSlot = true) (he : g.iss.exiting = false) :
    s.reclaim uid = (s.refund g.ctx g.spec.ib.toNat 0).modGang uid Gang.reclaimed := by
  unfold State.reclaim
  rw [hg]
  exact if_pos (by rw [hs, he]; rfl)

theorem schedulerWriteDelivery_reclaims {s : State} {n uid : Nat} {f : Flight} {g : Gang} (hr : s.ready n = some f) (hk : f.kind = .sched uid) (hg : s.gang? uid = some g)
    (hl : g.loc = .resident) (he : g.iss.exiting = false) (hst : g.iss.stopped = false) (hm : s.muslinMode g.ctx = 0) :
    ∃ t g', exec (.schedulerWriteDelivery n) s = .next t ∧ t.gang? uid = some g' ∧ g'.spec = { g.spec with ib := 0 } ∧ g'.iss.reclaim = true ∧
      g'.regs = g.regs ∧ g'.ctl = g.ctl ∧ g'.pc = g.pc ∧ (t.ctx g.ctx).ibpool = min (2 ^ 64 - 1) ((s.ctx g.ctx).ibpool + g.spec.ib.toNat) := by
  obtain ⟨hf, hen⟩ := State.ready_find hr
  have hexec : execSchedulerWriteDelivery n s = .next ((s.reclaim uid).dropFlight n) := by
    unfold execSchedulerWriteDelivery
    rw [hf]
    dsimp only
    rw [if_neg (by rw [hen]; decide), hk]
    dsimp only
    rw [hg]
    dsimp only
    rw [hst, hl, State.replaying_off hm]
    rfl
  rw [State.reclaim_eq hg (by rw [Gang.inSlot, hl]) he] at hexec
  have hgr : ((s.refund g.ctx g.spec.ib.toNat 0).modGang uid Gang.reclaimed).gang? uid = some g.reclaimed :=
    State.gang?_modGang_same (s := s.refund g.ctx g.spec.ib.toNat 0) Gang.reclaimed (fun _ => rfl) hg
  rw [State.dropFlight_unplaced (s := (s.refund g.ctx g.spec.ib.toNat 0).modGang uid Gang.reclaimed) hf (by rw [Flight.locs, hk])] at hexec
  refine ⟨_, _, hexec, (State.gang?_without _ n uid).trans (congrArg (Option.map _) hgr), rfl, rfl, rfl, rfl, rfl, ?_⟩
  show ((s.refund g.ctx g.spec.ib.toNat 0).ctx g.ctx).ibpool = _
  unfold State.refund
  rw [State.ctx_modCtx_same]

/-- A gang with its lane group given up. -/
theorem State.gang?_dropGroup {s : State} {u : Nat} {g : Gang} (hg : s.gang? u = some g) :
    ∃ b d, (s.dropGroup u).gang? u = some { g with iss := { g.iss with group := b, groupFrom := d } } := by
  cases hgr : g.iss.group with
  | true =>
    rw [State.dropGroup_group hg hgr]
    exact ⟨_, _, State.gang?_modGang_same (s := s.modCore g.gcore (Core.freeGroup g.slot)) Gang.noGroup (fun _ => rfl) hg⟩
  | false =>
    rw [State.dropGroup_none hg hgr]
    exact ⟨g.iss.group, g.iss.groupFrom, hg⟩

/-- A gang that is asked to yield. -/
def Gang.asked (toDcp : Bool) (g : Gang) : Gang := { g with iss := { g.iss with yieldReq := true, toDcp := g.iss.toDcp || toDcp } }
def Gang.monitored (m : Option Monitor) (g : Gang) : Gang := { g with monitor := m }

theorem State.gang?_requestYield {s : State} {u : Nat} {g : Gang} (hg : s.gang? u = some g) (toDcp : Bool) :
    ∃ m, (s.requestYield u toDcp).gang? u = some ((g.asked toDcp).monitored m) := by
  rw [State.requestYield_eq hg]
  exact ⟨_, State.gang?_modGang_same (s := s.modGang u (Gang.asked toDcp)) (Gang.monitored _) (fun _ => rfl) (State.gang?_modGang_same (Gang.asked toDcp) (fun _ => rfl) hg)⟩

/-- A gang whose deadline is taken. -/
def Gang.noDeadline (g : Gang) : Gang := { g with spec := { g.spec with dl := 0 }, iss := { g.iss with dlDue := false } }

/-- A resident gang takes its deadline, Muslin off. -/
theorem State.takeDeadline_resident {s : State} {uid : Nat} {g : Gang} (hg : s.gang? uid = some g) (hl : g.loc = .resident) (hst : g.iss.stopped = false)
    (hm : s.muslinMode g.ctx = 0) :
    s.takeDeadline g = (if g.spec.dcp == 0 then ((((s.modGang uid Gang.noDeadline).exitGang uid).dropGroup uid).noteDlExit g)
      else (s.modGang uid Gang.noDeadline).requestYield uid true).pump := by
  have hu := State.gang?_uid hg
  subst hu
  unfold State.takeDeadline
  dsimp only
  rw [State.muslin_off hm, hl]
  dsimp only
  rw [hst]
  rfl

theorem deadlineReached_taken {s : State} {uid : Nat} {g : Gang} (hg : s.gang? uid = some g) (hd : g.iss.dlDue = true) (hl : g.loc = .resident) (he : g.iss.exiting = false)
    (hst : g.iss.stopped = false) (hm : s.muslinMode g.ctx = 0) (hs : s.settled = true) :
    ∃ t g', exec (.deadlineReached uid) s = .next t ∧ t.gang? uid = some g' ∧ g'.spec.dl = 0 ∧
      (g.spec.dcp ≠ 0 → g'.iss.yieldReq = true ∧ g'.iss.toDcp = true ∧ g'.regs = g.regs ∧ g'.ctl = g.ctl ∧ g'.pc = g.pc) ∧
      (g.spec.dcp = 0 → g'.iss.exiting = true ∧ g'.spec.ib = 0 ∧ g'.spec.tb = 0) := by
  have hexec : execDeadlineReached uid s = .next (s.takeDeadline g) := by
    unfold execDeadlineReached
    rw [hg]
    exact if_neg (by rw [hd, he, State.replaying_off hm]; decide)
  have hcl : (s.modGang uid Gang.noDeadline).gang? uid = some g.noDeadline := State.gang?_modGang_same Gang.noDeadline (fun _ => rfl) hg
  have hset : (s.modGang uid Gang.noDeadline).settled = true := State.settled_modGang uid (fun _ h => h) hs
  rw [State.takeDeadline_resident hg hl hst hm] at hexec
  generalize s.modGang uid Gang.noDeadline = c at hexec hcl hset
  by_cases hdcp : g.spec.dcp = 0
  · obtain ⟨b, hx⟩ := State.gang?_exitGang hcl
    obtain ⟨b', d', hy⟩ := State.gang?_dropGroup hx
    have hend : (((c.exitGang uid).dropGroup uid).noteDlExit g).settled = true :=
      (State.settled_of_eq rfl rfl).trans (State.settled_dropGroup uid (State.settled_exitGang uid hset))
    rw [if_pos (by rw [hdcp]; rfl), State.pump_settled hend] at hexec
    exact ⟨_, _, hexec, hy, rfl, fun h => absurd hdcp h, fun _ => ⟨rfl, rfl, rfl⟩⟩
  · have hyield := State.requestYield_eq hcl true
    have hend : (c.requestYield uid true).settled = true := by
      rw [hyield]
      exact State.settled_modGang uid (fun _ h => h) (State.settled_modGang uid (fun _ h => h) hset)
    obtain ⟨m, hy⟩ := State.gang?_requestYield hcl true
    rw [if_neg (by rw [beq_iff_eq]; exact hdcp), State.pump_settled hend] at hexec
    exact ⟨_, _, hexec, hy, rfl, fun _ => ⟨rfl, Bool.or_true _, rfl, rfl, rfl⟩, fun h => absurd h hdcp⟩

/-! ## Monitors (R102, R246) -/

/-- Nothing has changed in the operations in flight, nor in the gangs but for their monitors. -/
def State.Remonitored (s t : State) : Prop := t.flights = s.flights ∧ ∃ m : Gang → Option Monitor, t.gangs = s.gangs.map (fun g => g.monitored (m g))

theorem State.Remonitored.of_map {s t : State} (hf : t.flights = s.flights) {F : Gang → Gang} (hg : t.gangs = s.gangs.map F) (hF : ∀ g, F g = g.monitored (F g).monitor) :
    s.Remonitored t := ⟨hf, fun g => (F g).monitor, hg.trans (List.map_congr_left (fun g _ => hF g))⟩

theorem State.Remonitored.refl (s : State) : s.Remonitored s := ⟨rfl, Gang.monitor, (List.map_id' s.gangs).symm⟩

theorem State.Remonitored.trans {s t u : State} (h : s.Remonitored t) (k : t.Remonitored u) : s.Remonitored u := by
  obtain ⟨hf, m, hm⟩ := h
  obtain ⟨kf, n, hn⟩ := k
  refine ⟨kf.trans hf, fun g => n (g.monitored (m g)), ?_⟩
  rw [hn, hm, List.map_map]
  rfl

theorem State.Remonitored.gang? {s t : State} (h : s.Remonitored t) {u : Nat} {g : Gang} (hg : s.gang? u = some g) : ∃ m, t.gang? u = some (g.monitored m) := by
  obtain ⟨-, m, hm⟩ := h
  refine ⟨m g, ?_⟩
  unfold State.gang?
  rw [hm]
  exact (find_uid_map s.gangs u (fun g : Gang => g.monitored (m g)) (fun _ _ => rfl)).trans (congrArg (Option.map _) hg)

theorem State.Remonitored.settled {s t : State} (h : s.Remonitored t) (hs : s.settled = true) : t.settled = true := by
  obtain ⟨hf, m, hm⟩ := h
  refine State.settled_mono (s := s) (fun f hx => hf ▸ hx) (fun g hg => ?_) hs
  rw [hm] at hg
  obtain ⟨x, hx, rfl⟩ := List.mem_map.1 hg
  exact ⟨x, hx, fun hr => hr⟩

theorem State.remonitored_modGang (s : State) (u : Nat) {F : Gang → Gang} (hF : ∀ g, F g = g.monitored (F g).monitor) : s.Remonitored (s.modGang u F) := by
  refine .of_map rfl (F := fun g => if g.uid == u then F g else g) rfl (fun g => ?_)
  split
  · exact hF g
  · rfl

theorem State.remonitored_disarm (s : State) (u : Nat) : s.Remonitored (s.disarm u) := by
  unfold State.disarm
  split
  · exact .refl s
  · next m _ =>
    exact State.remonitored_modGang (s.modSlice (homeSlice (128 * m.line)) (fun h => { h with monitors := h.monitors.filter (fun x => x.1 != u) })) u (F := Gang.monitored none) (fun _ => rfl)

/-- A home slice with its oldest monitor evicted, if it holds 64. -/
def State.evictMonitor (s : State) (h : Nat) : State :=
  if (s.slice h).monitors.length < Config.monitorsPerSlice then s
  else match (s.slice h).monitors.head? with
    | some old =>
      { (s.modSlice h (fun x => { x with monitors := x.monitors.drop 1 })).sliceCount h 7
          (((s.gang? old.1).map (fun g => s.tenantOf g.ctx)).getD 0) ((s.gang? old.1).map (fun g => 16 * g.gcore + g.slot)) with
        gangs := s.gangs.map (fun g => if g.uid == old.1 then
          { g with monitor := g.monitor.map (fun m => { m with fired := m.fired.or (some 1) }) } else g) }
    | none => s

theorem State.remonitored_evictMonitor (s : State) (h : Nat) : s.Remonitored (s.evictMonitor h) := by
  unfold State.evictMonitor
  split
  · exact .refl s
  · split
    · next old _ =>
      refine .of_map (State.sliceCount_frame State.flights (fun _ _ => rfl) (fun _ _ _ _ => rfl) ..) (F := fun g => if g.uid == old.1 then
          { g with monitor := g.monitor.map (fun m => { m with fired := m.fired.or (some 1) }) } else g) rfl (fun g => ?_)
      split <;> rfl
    · exact .refl s

/-- The gang's new monitor at the line's home slice. -/
def State.arm (s : State) (u line : Nat) : State :=
  (s.modSlice (homeSlice (128 * line)) (fun x => { x with monitors := x.monitors ++ [(u, line)] })).modGang u (Gang.monitored (some { line := line }))

theorem State.arm_slice (s : State) (u line : Nat) : (u, line) ∈ ((s.arm u line).slice (homeSlice (128 * line))).monitors := by
  show (u, line) ∈ ((s.modSlice (homeSlice (128 * line)) (fun x => { x with monitors := x.monitors ++ [(u, line)] })).slice (homeSlice (128 * line))).monitors
  rw [State.slice_modSlice, if_pos rfl]
  exact List.mem_append_right _ (List.mem_singleton.2 rfl)

theorem watchRegistration_arms {s : State} {id uid : Nat} {f : Flight} {g : Gang} {p : Part} {l : Nat} (hr : s.ready id = some f) (hu : f.uid = some uid)
    (hg : s.gang? uid = some g) (hk : f.kind = .watch l) (hp : f.parts.head? = some p) (hs : s.settled = true) :
    ∃ t g', exec (.watchRegistration id) s = .next t ∧ t.gang? uid = some g' ∧ g'.monitor = some { line := p.pa / 128 } ∧ g'.pc = g.pc ∧ g'.regs = g.regs ∧
      (uid, p.pa / 128) ∈ (t.slice (homeSlice (128 * (p.pa / 128)))).monitors := by
  obtain ⟨hf, hen⟩ := State.ready_find hr
  have hexec : execWatchRegistration id s = .next (((((s.disarm uid).modCore f.core (fun c => c.modL1 p.pa (fun l => { l with valid := l.valid &&& l.owned }))).evictMonitor
      (homeSlice (128 * (p.pa / 128)))).arm uid (p.pa / 128)).dropFlight id).pump := by
    unfold execWatchRegistration
    rw [hf]
    dsimp only
    rw [hk, hu, hp]
    exact if_neg (by rw [hen]; decide)
  have h1 : s.Remonitored (((s.disarm uid).modCore f.core (fun c => c.modL1 p.pa (fun l => { l with valid := l.valid &&& l.owned }))).evictMonitor
      (homeSlice (128 * (p.pa / 128)))) :=
    (s.remonitored_disarm uid).trans (State.remonitored_evictMonitor ((s.disarm uid).modCore f.core (fun c => c.modL1 p.pa (fun l => { l with valid := l.valid &&& l.owned }))) _)
  generalize ((s.disarm uid).modCore f.core (fun c => c.modL1 p.pa (fun l => { l with valid := l.valid &&& l.owned }))).evictMonitor _ = e at hexec h1
  have h2 : s.Remonitored (e.arm uid (p.pa / 128)) := h1.trans (State.remonitored_modGang (e.modSlice (homeSlice (128 * (p.pa / 128)))
    (fun x => { x with monitors := x.monitors ++ [(uid, p.pa / 128)] })) uid (F := Gang.monitored _) (fun _ => rfl))
  rw [State.dropFlight_unplaced (by rw [h2.1]; exact hf) (by rw [Flight.locs, hk]), State.pump_settled (State.without_settled (h2.settled hs))] at hexec
  obtain ⟨m, hm⟩ := h1.gang? hg
  have ha : (e.arm uid (p.pa / 128)).gang? uid = some ((g.monitored m).monitored (some { line := p.pa / 128 })) :=
    State.gang?_modGang_same (s := e.modSlice (homeSlice (128 * (p.pa / 128))) (fun x => { x with monitors := x.monitors ++ [(uid, p.pa / 128)] }))
      (Gang.monitored (some { line := p.pa / 128 })) (fun _ => rfl) hm
  exact ⟨_, _, hexec, (State.gang?_without _ id uid).trans (congrArg _ ha), rfl, rfl, rfl, e.arm_slice uid (p.pa / 128)⟩

/-! ## Page faults that waited for room (R384) -/

theorem State.fire_ctx {γ : Type} (p : Ctx → γ) (hp : ∀ (x : Ctx) a b d, p { x with lptr := a, mst := b, mdone := d } = p x) (s : State) (c off vec d : Nat) :
    p ((s.fire c off vec).ctx d) = p (s.ctx d) := by
  have hm : ∀ k fs, p ((s.muslin c k fs).ctx d) = p (s.ctx d) := fun k fs => by
    refine State.muslin_frame (fun s => p (s.ctx d)) (fun s q c pa bs po a => ?_) (fun _ _ => rfl) (fun s c F hF => ?_) s c k fs []
    · unfold State.ctx
      rw [State.pathWrite_ctxs]
    · by_cases hc : c = d
      · subst hc
        obtain ⟨a, b, m, h⟩ := hF (s.ctx c)
        rw [State.ctx_modCtx_same, h, hp]
      · rw [State.ctx_modCtx_ne _ _ hc]
  unfold State.fire
  extract_lets s1 w fn port limit h
  have h1 : p (s1.ctx d) = p (s.ctx d) := hm ..
  clear_value limit h
  split
  · exact h1
  · split
    · exact h1
    · exact h1

theorem faultEntryDeferred_writes {s : State} {c : Nat} {f : PageFault} (hf : (s.ctx c).faults.find? (fun x => x.id.isNone) = some f) (hr : s.faultRoom c = true) :
    ∃ t, exec (.faultEntryDeferred c) s = .next t ∧ (t.ctx c).fqwptr = (s.ctx c).fqwptr + 1 ∧
      ∃ x ∈ (t.ctx c).faults, x.page = f.page ∧ x.id = some ((s.ctx c).fqwptr.setWidth 16) := by
  have hexec : execFaultEntryDeferred c s = .next (s.writeFault c f) := by
    unfold execFaultEntryDeferred
    rw [hf]
    exact congrArg Host.Outcome.next (if_pos hr)
  have hw : ((s.writeFault c f).ctx c).fqwptr = (s.ctx c).fqwptr + 1 ∧
      ((s.writeFault c f).ctx c).faults = (s.ctx c).faults.map (fun x => if x.page == f.page then { x with id := some ((s.ctx c).fqwptr.setWidth 16) } else x) := by
    unfold State.writeFault
    extract_lets b c0 id size bytes s1 s2 vec
    have hs1 : s1.ctx c = c0 := by
      show (s.pathWrite ..).ctx c = s.ctx c
      unfold State.ctx
      rw [State.pathWrite_ctxs]
    have hs2 : s2.ctx c = { c0 with fqwptr := c0.fqwptr + 1, faults := c0.faults.map (fun x => if x.page == f.page then { x with id := some id } else x) } := by
      rw [← hs1]
      exact State.ctx_modCtx_same ..
    have hend : ∀ {γ : Type} (p : Ctx → γ), (∀ (x : Ctx) a b d, p { x with lptr := a, mst := b, mdone := d } = p x) →
        p ((if vec.getLsbD 15 = true then s2.fire c (0x1000 + 4 * c) (bits64 vec 14 4) else s2).ctx c) = p (s2.ctx c) := fun p hp => by
      split
      · exact State.fire_ctx p hp ..
      · rfl
    exact ⟨(hend Ctx.fqwptr (fun _ _ _ _ => rfl)).trans (by rw [hs2]), (hend Ctx.faults (fun _ _ _ _ => rfl)).trans (by rw [hs2])⟩
  refine ⟨_, hexec, hw.1, { f with id := some ((s.ctx c).fqwptr.setWidth 16) }, ?_, rfl, rfl⟩
  rw [hw.2]
  exact List.mem_map.2 ⟨f, List.mem_of_find?_eq_some hf, if_pos (by simp)⟩

/-! ## Walks (R91, R241, R242) -/

def Gang.setHandle (n : Nat) (h : Handle) (g : Gang) : Gang := { g with regs := { g.regs with h := SMap.set g.regs.h n h } }

theorem Gang.holds_put {g : Gang} {st k : Nat} {b : Reg} {val : Nat} {r : RegWrite} (hr : r.dst = .v k (b.toNat % 128)) (hv : r.val.setWidth 32 = BitVec.ofNat 32 val) :
    (g.put r).holds k b .w32 val ∧ (g.holds st b .w32 val → (g.put r).holds st b .w32 val) := by
  have hget : ∀ x, (g.put r).regs.v.get x = if 128 * k + b.toNat % 128 = x then BitVec.ofNat 32 val else g.regs.v.get x := fun x => by
    unfold Gang.put
    rw [hr]
    dsimp only
    rw [File.get_put, hv]
  have hval : BitVec.ofNat 32 (val / 2 ^ (32 * 0)) = BitVec.ofNat 32 val := by simp
  refine ⟨fun q hq => ?_, fun h q hq => ?_⟩
  · obtain rfl : q = 0 := Nat.lt_one_iff.1 hq
    rw [hget, hval]
    exact if_pos rfl
  · have hold := h q hq
    obtain rfl : q = 0 := Nat.lt_one_iff.1 hq
    rw [hget]
    split
    · exact hval.symm
    · exact hold

/-- One strand's word result of an operation that is no bundle's. -/
theorem State.result_word {s : State} {f : Flight} {u : Nat} (hu : f.uid = some u) (hv : f.vliw = false) {b : Reg} (hb : b.toNat < 128) (strand val : Nat) :
    ∃ r : RegWrite, s.result f b .w32 strand (BitVec.ofNat 128 val) false = s.modGang u (fun g => g.put r) ∧ r.dst = .v strand (b.toNat % 128) ∧
      r.val.setWidth 32 = BitVec.ofNat 32 val := by
  refine ⟨{ dst := .v strand (b.toNat % 128), val := ((BitVec.ofNat 128 val).setWidth 32).setWidth 64 }, ?_, rfl, ?_⟩
  · unfold State.result dstRegs vDst
    rw [hu, hv]
    simp [hb, Gang.putAll]
  · apply BitVec.eq_of_toNat_eq
    simp

/-- The word results of an operation's strands. -/
theorem State.results_hold {f : Flight} {u : Nat} (hu : f.uid = some u) (hv : f.vliw = false) {b : Reg} (hb : b.toNat < 128) (val : Nat) (l : List Part) :
    ∀ (s : State) (x : Gang), s.gang? u = some x →
      let t := l.foldl (fun st p => st.result f b .w32 p.strand (BitVec.ofNat 128 val) false) s
      t.flights = s.flights ∧ (s.settled = true → t.settled = true) ∧ ∃ y, t.gang? u = some y ∧ y.pc = x.pc ∧ y.regs.h = x.regs.h ∧ (∀ p ∈ l, y.holds p.strand b .w32 val) ∧
        ∀ st, x.holds st b .w32 val → y.holds st b .w32 val := by
  induction l with
  | nil => exact fun s x hx => ⟨rfl, id, x, hx, rfl, rfl, fun _ h => absurd h (List.not_mem_nil), fun _ h => h⟩
  | cons p l ih =>
    intro s x hx
    obtain ⟨r, hr, hd, hval⟩ := State.result_word (s := s) hu hv hb p.strand val
    have hx1 : (s.modGang u (fun g => g.put r)).gang? u = some (x.put r) := State.gang?_modGang_same _ (fun y => Gang.put_uid y r) hx
    have hrest : ∀ y : Gang, (y.put r).atRest = y.atRest := fun y => by
      unfold Gang.put
      rw [hd]
      rfl
    obtain ⟨hfl, hset, y, hy, hpc, hh, hl, hk⟩ := ih _ _ hx1
    rw [List.foldl_cons, hr]
    refine ⟨hfl, fun h => hset (State.settled_modGang u (fun y hy => (hrest y).trans hy) h), y, hy, ?_, ?_, fun q hq => ?_, fun st h => hk st ((Gang.holds_put hd hval).2 h)⟩
    · rw [hpc]
      unfold Gang.put
      rw [hd]
    · rw [hh]
      unfold Gang.put
      rw [hd]
    · obtain rfl | hq := List.mem_cons.1 hq
      · exact hk _ (Gang.holds_put (st := 0) hd hval).1
      · exact hl q hq

/-- A walk in flight has no place in an order. -/
theorem Flight.locs_xlat {f : Flight} {n va : Nat} {write d : Bool} {b : Reg} (h : f.kind = .xlat n va write b d) : f.locs = [] := by
  rw [Flight.locs, h]

/-- The gang whose handle a completed walk sets. -/
theorem State.cached_handle {s : State} {uid : Nat} {g : Gang} (hg : s.gang? uid = some g) (va n : Nat) (w : Walk) (h : Handle) :
    ((s.cache g.gcore g.ctx va w).modGang g.uid (Gang.setHandle n h)).gang? uid = some (g.setHandle n h) ∧
    ((s.cache g.gcore g.ctx va w).modGang g.uid (Gang.setHandle n h)).flights = s.flights ∧
    ((s.cache g.gcore g.ctx va w).modGang g.uid (Gang.setHandle n h)).ctxs = s.ctxs ∧
    (s.settled = true → ((s.cache g.gcore g.ctx va w).modGang g.uid (Gang.setHandle n h)).settled = true) := by
  have hw := s.walked_cache g.gcore g.ctx va w
  have hu := State.gang?_uid hg
  generalize s.cache g.gcore g.ctx va w = c at hw
  subst hu
  refine ⟨State.gang?_modGang_same (s := c) (Gang.setHandle n h) (fun _ => rfl) ((hw.gang? _).trans hg), hw.flights, hw.ctxs, fun hs => ?_⟩
  exact State.settled_modGang _ (fun _ h => h) ((State.settled_of_eq hw.flights hw.gangs).trans hs)

/-! ## Entering a trap (R341) -/

/-- What no counter holds passes by a count. -/
theorem State.count_frame {γ : Type} (p : State → γ) (hw : ∀ (s : State) l, p { s with wrapped := l } = p s)
    (hd : ∀ (s : State) a v, counterBlock 0 ≤ a → p (s.setReg a v) = p s) (s : State) (g : Gang) (ev n : Nat) : p (s.count g ev n) = p s := by
  refine foldl_keep p _ (fun st k => ?_) _ _
  have hreg : ∀ v, p (st.setReg (counterBlock g.gcore + 16 * k + 8) v) = p st := fun v => hd _ _ _ (by simp only [counterBlock]; omega)
  dsimp only
  split
  · unfold State.bump
    dsimp only
    split
    · rfl
    · split
      · exact (hw _ _).trans (hreg _)
      · exact hreg _
  · rfl

/-- A gang with no result under way lands nothing. -/
theorem Gang.landAll_idle {g : Gang} (h : g.pend = []) : ∃ l, g.landAll = { g with iss := { g.iss with ghosts := l } } := by
  unfold Gang.landAll Gang.landTo
  rw [h]
  refine ⟨[], ?_⟩
  simp [Gang.putAll]

/-- A gang whose trap is entered. -/
def Gang.trapped (g : Gang) (tvec : Word64) (t : TrapInfo) (at_ npc : Word64) (el : Nat) : Gang :=
  { g with
    pc := tvec + BitVec.ofNat 64 (64 * t.cause)
    ctl := { g.ctl with
      trap := { tinfo := packTinfo t g.ctl.vliw g.ctl.stack.length, tpc := if t.after then npc else at_, tiaddr := at_, taddr := t.taddr
                tmask := BitVec.ofNat 32 t.mask, tact := g.ctl.active, next := npc }
      tdepth := 1, active := g.ctl.nmask, vliw := false }
    iss := { g.iss with sealTo := none, cpmTo := none, splitTo := none, tretTo := none, since := some el } }

/-- The marks of a gang at a trap, before its record is written. -/
def Gang.atTrap (s : State) (t : TrapInfo) (g : Gang) : Gang :=
  { g with lostStore := g.lostStore && !t.lost, loss := if t.loss then (s.ctx g.ctx).loss else g.loss, park := none }

theorem State.enterTrap_eq {s : State} {u : Nat} {t : TrapInfo} {at_ npc : Word64} {g : Gang} (hg : s.gang? u = some g) (hc : t.cause ≠ causePoison)
    (hd : g.ctl.tdepth = 0) (hv : (s.ctx g.ctx).tvec ≠ 0) :
    s.enterTrap u t at_ npc = (({ (s.modGang u (Gang.atTrap s t)).count g 0x03 1 with note := .trapped t.cause } : State).dropGroup u).modGang u
      (fun x => x.landAll.trapped (s.ctx g.ctx).tvec t at_ npc s.clock.el) := by
  unfold State.enterTrap
  rw [hg]
  dsimp only
  have hne : ¬ (g.ctl.tdepth != 0 || (s.ctx g.ctx).tvec == 0) = true := by
    rw [hd, Bool.or_eq_true]
    rintro (h | h)
    · cases h
    · exact hv (beq_iff_eq.1 h)
  simp only [show (t.cause == causePoison) = false from beq_eq_false_iff_ne.2 hc, Bool.false_eq_true, if_false]
  exact if_neg hne

/-- A gang with no result under way enters a trap. -/
theorem State.enterTrap_idle {s : State} {u : Nat} {t : TrapInfo} {at_ npc : Word64} {g : Gang} (hg : s.gang? u = some g) (hc : t.cause ≠ causePoison)
    (hd : g.ctl.tdepth = 0) (hv : (s.ctx g.ctx).tvec ≠ 0) (hp : g.pend = []) (hs : s.settled = true) :
    (s.enterTrap u t at_ npc).settled = true ∧
    ∃ i b l, (s.enterTrap u t at_ npc).gang? u = some (({ g with iss := i, lostStore := b, loss := l, park := none } : Gang).trapped
      (s.ctx g.ctx).tvec t at_ npc s.clock.el) := by
  rw [State.enterTrap_eq hg hc hd hv]
  have h1 : (s.modGang u (Gang.atTrap s t)).gang? u = some (g.atTrap s t) := State.gang?_modGang_same (Gang.atTrap s t) (fun _ => rfl) hg
  have hs1 : (s.modGang u (Gang.atTrap s t)).settled = true := State.settled_modGang u (fun x hx => by
    obtain ⟨a, b, c, d, e, f⟩ := x.atRest_iff.1 hx
    exact (Gang.atRest_iff _).2 ⟨a, b, c, d, e, by simp [Gang.atTrap, f]⟩) hs
  generalize s.modGang u (Gang.atTrap s t) = m at h1 hs1
  have h2 : ({ m.count g 0x03 1 with note := .trapped t.cause } : State).gang? u = some (g.atTrap s t) :=
    (State.count_frame (fun s => s.gang? u) (fun _ _ => rfl) (fun _ _ _ _ => rfl) m g 3 1).trans h1
  have hs2 : ({ m.count g 0x03 1 with note := .trapped t.cause } : State).settled = true :=
    (State.count_frame State.settled (fun _ _ => rfl) (fun _ _ _ _ => rfl) m g 3 1).trans hs1
  generalize ({ m.count g 0x03 1 with note := .trapped t.cause } : State) = c at h2 hs2
  obtain ⟨b, d, h3⟩ := State.gang?_dropGroup h2
  have hs3 := State.settled_dropGroup u hs2
  generalize c.dropGroup u = k at h3 hs3
  constructor
  · refine State.settled_modGang u (fun x hx => ?_) hs3
    obtain ⟨h1, h2, h3, h4, h5, h6⟩ := x.atRest_iff.1 hx
    have hland : x.landAll.iss.mseal = x.iss.mseal ∧ x.landAll.iss.dueTrap = x.iss.dueTrap ∧ x.landAll.lostStore = x.lostStore := by
      simp [Gang.landAll, Gang.landTo]
    exact (Gang.atRest_iff _).2 ⟨rfl, rfl, hland.1.trans h3, hland.2.1.trans h4, rfl, hland.2.2.trans h6⟩
  · obtain ⟨l, hl⟩ := Gang.landAll_idle (g := { g.atTrap s t with iss := { (g.atTrap s t).iss with group := b, groupFrom := d } }) hp
    refine ⟨{ g.iss with group := b, groupFrom := d, ghosts := l }, g.lostStore && !t.lost, (g.atTrap s t).loss, (State.gang?_modGang_same (s := k) (fun x => x.landAll.trapped (s.ctx g.ctx).tvec t at_ npc s.clock.el) (fun x => ?_) h3).trans ?_⟩
    · simp [Gang.trapped, Gang.landAll, Gang.landTo]
    · rw [hl]
      rfl

/-- The charge of an operation is restored. -/
def Gang.refunded (ci ct : Nat) (g : Gang) : Gang := g.takeBack ci ct

/-- A trap of an operation that has issued, of a gang with no result under way. -/
theorem State.lateTrap_idle {s : State} {g x : Gang} {f : Flight} {t : TrapInfo} (hx : s.gang? g.uid = some x) (hr : s.resultsOut g.uid = false) (hp : x.pend = [])
    (hd : x.ctl.tdepth = 0) (hv : (s.ctx x.ctx).tvec ≠ 0) (hc : (f.trapIn t).cause ≠ causePoison) (hs : s.settled = true) :
    (s.lateTrap g f t).settled = true ∧ ∃ i b l, (s.lateTrap g f t).gang? g.uid = some (({ x.refunded f.paid.1 f.paid.2 with iss := i, lostStore := b, loss := l, park := none } : Gang).trapped
      (s.ctx x.ctx).tvec { f.trapIn t with after := f.vliw || g.pc != f.pc + 8 } f.pc g.pc s.clock.el) := by
  have hkeep : ∀ y : Gang, (y.refunded f.paid.1 f.paid.2).uid = y.uid ∧ (y.refunded f.paid.1 f.paid.2).ctx = y.ctx ∧ (y.refunded f.paid.1 f.paid.2).pend = y.pend ∧
      (y.refunded f.paid.1 f.paid.2).ctl = y.ctl ∧ (y.refunded f.paid.1 f.paid.2).atRest = y.atRest := fun y => by
    simp [Gang.refunded, Gang.takeBack, Gang.ctr, Gang.atRest]
  have hx1 : (s.modGang g.uid (Gang.refunded f.paid.1 f.paid.2)).gang? g.uid = some (x.refunded f.paid.1 f.paid.2) := State.gang?_modGang_same _ (fun y => (hkeep y).1) hx
  have hs1 : (s.modGang g.uid (Gang.refunded f.paid.1 f.paid.2)).settled = true := State.settled_modGang _ (fun y h => (hkeep y).2.2.2.2.trans h) hs
  obtain ⟨huid, hctx, hpend, hctl, -⟩ := hkeep x
  have hwait : (s.modGang g.uid (Gang.refunded f.paid.1 f.paid.2)).trapWaits (x.refunded f.paid.1 f.paid.2) = false := by
    have ha : (s.modGang g.uid (Gang.refunded f.paid.1 f.paid.2)).awaiting (x.refunded f.paid.1 f.paid.2) = false := by
      unfold State.awaiting
      rw [hpend, hp, huid, State.gang?_uid hx]
      exact (Bool.or_false _).trans hr
    unfold State.trapWaits
    rw [ha]
    rfl
  have heq : s.lateTrap g f t = (s.modGang g.uid (Gang.refunded f.paid.1 f.paid.2)).enterTrap g.uid { f.trapIn t with after := f.vliw || g.pc != f.pc + 8 } f.pc g.pc := by
    show (s.modGang g.uid (Gang.refunded f.paid.1 f.paid.2)).takeTrap g.uid _ f.pc g.pc = _
    unfold State.takeTrap
    rw [hx1]
    exact if_neg (by rw [hwait]; decide)
  obtain ⟨hset, i, b, l, h⟩ := State.enterTrap_idle (at_ := f.pc) (npc := g.pc) (t := { f.trapIn t with after := f.vliw || g.pc != f.pc + 8 }) hx1 hc (by rw [hctl, hd]) (by rw [hctx]; exact hv)
    (hpend.trans hp) hs1
  rw [heq]
  refine ⟨hset, i, b, l, h.trans ?_⟩
  rw [hctx]
  rfl

/-- A trap's cause stands in the low byte of tinfo (R336). -/
theorem packTinfo_cause (t : TrapInfo) (vliw : Bool) (depth : Nat) (h : t.cause < 256) : bits64 (packTinfo t vliw depth) 7 0 = t.cause := by
  unfold bits64 field packTinfo
  rw [BitVec.toNat_ofNat]
  have hb : ∀ c : Bool, ∀ k : Nat, (if c = true then 2 ^ k else 0) = (if c = true then 1 else 0) * 2 ^ k := fun c k => by
    cases c <;> simp
  rw [hb t.bnd, hb vliw]
  omega

section
variable {s : State} {id uid n va : Nat} {f : Flight} {g : Gang} {write : Bool} {b : Reg} (hr : s.ready id = some f) (hu : f.uid = some uid)
  (hg : s.gang? uid = some g) (hw : s.walking f = true) (ha : f.acted = false) (hs : s.settled = true)
include hr hu hg hw ha

/-- A walk of a handle that was dropped meanwhile. -/
theorem walkCompletion_dropped (hk : f.kind = .xlat n va write b true) :
    execWalkCompletion id s = .next (((s.cache g.gcore g.ctx va (s.translate g.gcore g.ctx va)).modGang g.uid (Gang.setHandle n {})).dropFlight id).pump := by
  unfold execWalkCompletion
  rw [hr, Option.bind_some, hu, Option.bind_some, hg]
  dsimp only
  rw [hk]
  dsimp only
  rw [hw, ha]
  rfl

/-- A walk that finds a page. -/
theorem walkCompletion_page {pa size : Nat} {rd wr ex : Bool} (hk : f.kind = .xlat n va write b false) (hp : s.translate g.gcore g.ctx va = .page pa size rd wr ex) :
    execWalkCompletion id s =
      let s1 := s.cache g.gcore g.ctx va (.page pa size rd wr ex)
      if xlatTarget g.cluster pa && (if write then wr else rd) then
        .next ((f.parts.foldl (fun st p => st.result f b .w32 p.strand (BitVec.ofNat 128 (va % pageBytes size)) false)
          (s1.modGang g.uid (Gang.setHandle n (mkHandle g.cluster va pa size rd wr)))).dropFlight id).pump
      else .next (((s1.modGang g.uid (Gang.setHandle n {})).dropFlight id).lateTrap g f { cause := causeProtection, taddr := BitVec.ofNat 64 va }).pump := by
  unfold execWalkCompletion
  rw [hr, Option.bind_some, hu, Option.bind_some, hg]
  dsimp only
  rw [hk]
  dsimp only
  rw [hw, ha, hp]
  dsimp only
  cases hm : (xlatTarget g.cluster pa && (if write then wr else rd)) with
  | true => rfl
  | false => rfl

include hs

theorem walkCompletion_forgets (hk : f.kind = .xlat n va write b true) :
    ∃ t g', exec (.walkCompletion id) s = .next t ∧ t.gang? uid = some g' ∧ g'.pc = g.pc ∧ (∀ x ∈ t.flights, x.id ≠ id) ∧
      SMap.get g'.regs.h n {} = {} ∧ g'.regs = { g.regs with h := g'.regs.h } ∧ g'.ctl = g.ctl := by
  have hexec := walkCompletion_dropped hr hu hg hw ha hk
  obtain ⟨hg1, hf1, -, hs1⟩ := State.cached_handle hg va n (s.translate g.gcore g.ctx va) {}
  generalize (s.cache g.gcore g.ctx va (s.translate g.gcore g.ctx va)).modGang g.uid (Gang.setHandle n {}) = c at hexec hg1 hf1 hs1
  rw [State.dropFlight_unplaced (by rw [hf1]; exact (State.ready_find hr).1) (Flight.locs_xlat hk), State.pump_settled (State.without_settled (hs1 hs))] at hexec
  exact ⟨_, _, hexec, (State.gang?_without c id uid).trans (congrArg _ hg1), rfl, fun x hx => (State.without_flights hx).2, SMap.get_set_same .., rfl, rfl⟩

theorem walkCompletion_names {pa size : Nat} {rd wr ex : Bool} (hv : f.vliw = false) (hk : f.kind = .xlat n va write b false) (hb : b.toNat < 128)
    (hp : s.translate g.gcore g.ctx va = .page pa size rd wr ex) (ht : xlatTarget g.cluster pa = true) (hm : (if write then wr else rd) = true) :
    ∃ t g', exec (.walkCompletion id) s = .next t ∧ t.gang? uid = some g' ∧ g'.pc = g.pc ∧ (∀ x ∈ t.flights, x.id ≠ id) ∧
      SMap.get g'.regs.h n {} = mkHandle g.cluster va pa size rd wr ∧ ∀ p ∈ f.parts, g'.holds p.strand b .w32 (va % pageBytes size) := by
  have hexec := walkCompletion_page hr hu hg hw ha hk hp
  dsimp only at hexec
  rw [if_pos (by rw [ht, hm]; rfl)] at hexec
  obtain ⟨hg1, hf1, -, hs1⟩ := State.cached_handle hg va n (.page pa size rd wr ex) (mkHandle g.cluster va pa size rd wr)
  obtain ⟨hf2, hs2, y, hy, hpc, hh, hold, -⟩ := State.results_hold hu hv hb (va % pageBytes size) f.parts _ _ hg1
  generalize f.parts.foldl (fun (st : State) p => st.result f b .w32 p.strand (BitVec.ofNat 128 (va % pageBytes size)) false) _ = c at hexec hf2 hs2 hy
  rw [State.dropFlight_unplaced (by rw [hf2, hf1]; exact (State.ready_find hr).1) (Flight.locs_xlat hk),
    State.pump_settled (State.without_settled (hs2 (hs1 hs)))] at hexec
  refine ⟨_, _, hexec, (State.gang?_without c id uid).trans (congrArg _ hy), hpc, fun x hx => (State.without_flights hx).2, ?_, hold⟩
  show SMap.get y.regs.h n {} = _
  rw [hh]
  exact SMap.get_set_same ..

/-- A page that the XLAT may not name is a protection trap, with the charge restored. -/
theorem walkCompletion_traps {pa size : Nat} {rd wr ex : Bool} (hk : f.kind = .xlat n va write b false) (hp : s.translate g.gcore g.ctx va = .page pa size rd wr ex)
    (hm : (xlatTarget g.cluster pa && (if write then wr else rd)) = false) (hpend : g.pend = []) (hd : g.ctl.tdepth = 0)
    (hmine : ∀ x ∈ s.flights, x.uid = some uid → x.id = id) (hv : (s.ctx g.ctx).tvec ≠ 0) :
    ∃ t g', exec (.walkCompletion id) s = .next t ∧ t.gang? uid = some g' ∧ SMap.get g'.regs.h n {} = {} ∧ g'.pc = (s.ctx g.ctx).tvec + BitVec.ofNat 64 (64 * causeProtection) ∧
      g'.ctl.tdepth = 1 ∧ g'.ctl.vliw = false ∧ bits64 g'.ctl.trap.tinfo 7 0 = causeProtection ∧ g'.ctl.trap.tiaddr = f.pc ∧
      g'.ctl.trap.tpc = (if f.vliw = true ∨ g.pc ≠ f.pc + 8 then g.pc else f.pc) ∧
      g'.ctl.trap.taddr = BitVec.ofNat 64 va ∧ g'.spec.ib = g.spec.ib + BitVec.ofNat 32 f.paid.1 ∧ g'.spec.tb = g.spec.tb + BitVec.ofNat 32 f.paid.2 := by
  have hexec := walkCompletion_page hr hu hg hw ha hk hp
  dsimp only at hexec
  rw [if_neg (by rw [hm]; decide)] at hexec
  obtain ⟨hg1, hf1, hc1, hs1⟩ := State.cached_handle hg va n (.page pa size rd wr ex) {}
  generalize (s.cache g.gcore g.ctx va (.page pa size rd wr ex)).modGang g.uid (Gang.setHandle n {}) = c at hexec hg1 hf1 hc1 hs1
  rw [State.dropFlight_unplaced (by rw [hf1]; exact (State.ready_find hr).1) (Flight.locs_xlat hk)] at hexec
  have hg2 := (State.gang?_without c id uid).trans (congrArg _ hg1)
  have hs2 := State.without_settled (id := id) (hs1 hs)
  have hfree : (c.without id).resultsOut uid = false := by
    unfold State.resultsOut State.flightsOf
    rw [List.any_eq_false]
    intro x hx
    obtain ⟨hx1, hx2⟩ := List.mem_filter.1 hx
    obtain ⟨hx3, hx4⟩ := State.without_flights hx1
    exact absurd (hmine x (hf1 ▸ hx3) (beq_iff_eq.1 hx2)) hx4
  have hctx : (c.without id).ctx g.ctx = s.ctx g.ctx := by
    unfold State.ctx State.without
    rw [hc1]
  have hgu := State.gang?_uid hg
  subst hgu
  have hcause : (f.trapIn { cause := causeProtection, taddr := BitVec.ofNat 64 va }).cause = causeProtection ∧
      (f.trapIn { cause := causeProtection, taddr := BitVec.ofNat 64 va }).taddr = BitVec.ofNat 64 va := by
    unfold Flight.trapIn
    split <;> exact ⟨rfl, rfl⟩
  obtain ⟨hset, i, l, k, h⟩ := State.lateTrap_idle (f := f) (t := { cause := causeProtection, taddr := BitVec.ofNat 64 va }) hg2 hfree hpend hd (by rw [show ((g.setHandle n {}).unblock id).ctx = g.ctx from rfl, hctx]; exact hv) (by rw [hcause.1]; decide) hs2
  rw [State.pump_settled hset] at hexec
  have hspec : (((g.setHandle n {}).unblock id).refunded f.paid.1 f.paid.2).spec.ib = g.spec.ib + BitVec.ofNat 32 f.paid.1 := by
    simp [Gang.refunded, Gang.takeBack, Gang.ctr, Gang.unblock, Gang.setHandle]
  have hspec' : (((g.setHandle n {}).unblock id).refunded f.paid.1 f.paid.2).spec.tb = g.spec.tb + BitVec.ofNat 32 f.paid.2 := by
    simp [Gang.refunded, Gang.takeBack, Gang.ctr, Gang.unblock, Gang.setHandle]
  refine ⟨_, _, hexec, h, ?_, ?_, rfl, rfl, ?_, rfl, ?_, hcause.2, hspec, hspec'⟩
  · exact SMap.get_set_same ..
  · show ((c.without id).ctx g.ctx).tvec + BitVec.ofNat 64 (64 * (f.trapIn { cause := causeProtection, taddr := BitVec.ofNat 64 va }).cause) = _
    rw [hctx, hcause.1]
  · refine (packTinfo_cause _ _ _ ?_).trans hcause.1
    show (f.trapIn { cause := causeProtection, taddr := BitVec.ofNat 64 va }).cause < 256
    rw [hcause.1]
    decide
  · show (if (f.vliw || g.pc != f.pc + 8) = true then g.pc else f.pc) = _
    simp

end

/-- Settles O52: each clause by the lemma on its event. -/
theorem gangEvents : Obligations.GangEvents := by
  refine ⟨fun s uid g c => pauseExpiry_ends, fun s uid g m t0 hg hm hf hw => ⟨waitwTimeout_ends hg hm hf hw, waitwEarlyReturn_ends hg hm hf hw⟩, ?_, ?_,
    fun s id f uid g p l => watchRegistration_arms, fun s uid g => slotRelease_frees, fun s uid g => laneGroupAcquire_takes,
    fun s n f uid g => schedulerWriteDelivery_reclaims, fun s g => State.dlTick_due, fun s uid g => deadlineReached_taken, fun s c f => faultEntryDeferred_writes⟩
  · intro s id f uid g n va write b hr hu hg hv hw ha hs
    refine ⟨walkCompletion_forgets hr hu hg hw ha hs, fun pa size rd wr ex hk hb hp ht hm => ?_⟩
    exact walkCompletion_names hr hu hg hw ha hs hv hk hb hp ht hm
  · intro s id f uid g n va write b pa size rd wr ex hr hu hg hk hw ha hp hm hs hpend hd hmine hv
    exact walkCompletion_traps hr hu hg hw ha hs hk hp hm hpend hd hmine hv

end Sys2Proof.Machine
end

section
/-! PROOFS. Yields, saves, restores, placements and world switches (R26, R46, R47, R71, R72, R347, R350, R351, R353, R354). -/

namespace Sys2Proof.Machine

/-! ## World switches and slices (R353, R354) -/

theorem worldSwitch_stops {s : State} {a b t0 : Nat} (hl : s.worlds.leaving = none) (hc : s.worlds.current = some a) (ht : s.worlds.started = some t0)
    (hd : t0 + SMap.get s.worlds.eff a 1000000 * 65536 ≤ s.clock.el) (ha : a < 64) (hb : b < 64) (hab : a ≠ b) :
    ∃ t, exec (.worldSwitch a b) s = .next t ∧ t.worlds.current = some b ∧ t.worlds.leaving = some a ∧ NSet.has t.worlds.stopped a = true ∧
      NSet.has t.worlds.stopped b = false := by
  have hexec : ∃ s1 : State, execWorldSwitch a b s = .next { s1 with worlds := { s.worlds with
      current := some b, started := none, leaving := some a, from_ := s.clock.el, stopped := NSet.del (NSet.add s.worlds.stopped a) b } } := by
    unfold execWorldSwitch
    dsimp only
    rw [hc, ht]
    exact ⟨_, if_neg (by simp [hl, hd, ha, hb, hab])⟩
  obtain ⟨s1, hexec⟩ := hexec
  refine ⟨_, hexec, rfl, rfl, ?_, NSet.has_del_same ..⟩
  exact (NSet.has_iff _ _).2 ((NSet.mem_del _ _ _).2 ⟨(NSet.mem_add _ _ _).2 (Or.inl rfl), hab⟩)

theorem sliceWrite_recomputes {s : State} {who : Who} {vf : Nat} {v : Word64} (hv : vf < 64) (hw : s.mayWrite who (worldBlock vf) = true) :
    ∃ t, exec (.sliceWrite who vf v) s = .next t ∧ bits64 (t.reg (worldBlock vf)) 31 0 = bits64 v 31 0 ∧
      SMap.get t.worlds.eff vf 0 = min (2 ^ 32 - 1) (max (bits64 v 31 0) (max 10000 (2 * s.meas vf))) := by
  have hreg : ∀ d, (s.setBits (worldBlock vf) (bitMask 31 0) v).reg (worldBlock vf) d = (s.setBits (worldBlock vf) (bitMask 31 0) v).reg (worldBlock vf) := fun d => by
    rw [State.reg_setBits, State.reg_setBits]
  have hbits := bits64_setBits s (worldBlock vf) v 31 0 (by decide)
  have hslice : (s.setBits (worldBlock vf) (bitMask 31 0) v).sliceOf vf = bits64 v 31 0 := by
    unfold State.sliceOf
    rw [hreg, hbits]
  refine ⟨s.sliceWrite vf v, ?_, hbits, ?_⟩
  · exact (if_pos hv).trans (congrArg _ (State.writeBy_of_mayWrite hw _))
  · unfold State.sliceWrite State.recompute
    dsimp only
    rw [SMap.get_set_same]
    unfold State.effSlice
    rw [hslice]
    rfl

/-! ## The start of a waiting launch (R26, R46, R47) -/

section Merge
variable {γ : Type} (p : State → γ) (hs : ∀ (s : State) l, p { s with slices := l } = p s) (hw : ∀ (s : State) l, p { s with wrapped := l } = p s)
  (ha : ∀ (s : State) l, p { s with audits := l } = p s) (hr : ∀ (s : State) a v, a % 16 = 8 → p (s.setReg a v) = p s)
  (hp : ∀ (s : State) l, p { s with paths := l } = p s) (hd : ∀ (s : State) n, p { s with draw := n } = p s) (hc : ∀ (s : State) l, p { s with cores := l } = p s)
  (hm : ∀ (s : State) d q, p { s with dram := d, dpoison := q } = p s)
include hm

theorem State.encodeBlocks_frame (s : State) (x : Nat × Nat × Fmt × Nat) (pa : Nat) (bs : List Byte) (f : Nat → Bool) (po : Bool) : p (s.encodeBlocks x pa bs f po) = p s :=
  foldl_keep p _ (fun st _ => hm st _ _) _ s

theorem State.ctlWrite_frame (s : State) (sec : Nat) (bs : List Byte) (po : Bool) (f : Nat → Bool) : p (s.ctlWrite sec bs po f) = p s := by
  unfold State.ctlWrite
  extract_lets pa all apart new s1 old bytes
  have h1 : p s1 = p s := foldl_keep p _ (fun st _ => State.encodeBlocks_frame p hm ..) _ s
  clear_value s1
  split
  · exact (hm s1 _ _).trans h1
  · exact (State.encodeBlocks_frame p hm ..).trans h1

theorem State.writeBack_frame (s : State) (l : L2Line) : p (s.writeBack l) = p s := by
  refine foldl_keep p _ (fun st k => ?_) _ _
  split
  · exact (State.ctlWrite_frame p hm ..).trans (foldl_keep p _ (fun st _ => State.encodeBlocks_frame p hm ..) _ st)
  · rfl

include hs hw ha hr hp

theorem State.evict2_frame (s : State) (h k : Nat) : p (s.evict2 h k) = p s := by
  unfold State.evict2
  split
  · rfl
  · extract_lets mine m l' s1 s2 s3
    have h2 : p s2 = p s := (State.writeBack_frame p hm s1 l').trans (hp s _)
    have h3 : p s3 = p s := by
      show p (if _ then _ else _) = _
      split
      · exact (State.sliceCount_frame p hw hr ..).trans h2
      · exact h2
    exact (hs _ _).trans ((State.auditEnd_frame p hw ha hr ..).trans h3)

theorem State.alloc2_frame (s : State) (pa : Nat) (a : Asker) : p (s.alloc2 pa a) = p s := by
  unfold State.alloc2
  dsimp only
  split
  · rfl
  · exact (hs _ _).trans (State.evict2_frame p hs hw ha hr hp hm ..)

omit hw ha hr hp hm in
theorem State.modLine2_frame (s : State) (pa : Nat) (f : L2Line → L2Line) : p (s.modLine2 pa f) = p s := by
  unfold State.modLine2
  split
  · exact hs s _
  · rfl

include hd

theorem State.fill2_frame (s : State) (pa : Nat) (a : Asker) : p (s.fill2 pa a) = p s := by
  unfold State.fill2
  dsimp only
  exact (hd _ _).trans ((State.modLine2_frame p hs ..).trans ((State.sliceCount_frame p hw hr ..).trans (State.alloc2_frame p hs hw ha hr hp hm ..)))

/-- A part of the state that no store to main memory holds. -/
theorem State.homeStore_frame (s : State) (pa : Nat) (bs : List Byte) (po : Bool) (a : Asker) (f : Bool) : p (s.homeStore pa bs po a f) = p s := by
  have hstamp : ∀ t : State, p (t.stamp2 pa a true) = p t := fun t => by
    unfold State.stamp2
    dsimp only
    split
    · rfl
    · exact hs t _
  unfold State.homeStore
  extract_lets s1 s2 s3
  have h1 : p s1 = p s := State.touch2_frame p hs hw ha hr ..
  have h2 : p s2 = p s := by
    show p (if _ then _ else _) = _
    split
    · exact h1
    · split
      · exact (State.fill2_frame p hs hw ha hr hp hd hm ..).trans h1
      · exact (State.alloc2_frame p hs hw ha hr hp hm ..).trans h1
  exact (hstamp _).trans ((State.modLine2_frame p hs ..).trans h2)

include hc

/-- A part of the state that no merge of waiting writes changes. -/
theorem State.mergeWhere_frame (s : State) (f : PathWrite → Bool) : p (s.mergeWhere f) = p s := by
  unfold State.mergeWhere
  refine (foldl_keep p _ (fun st w => ?_) _ _).trans (hp s _)
  unfold State.mergeOne
  split
  · exact (hd _ _).trans (State.homeStore_frame p hs hw ha hr hp hd hm ..)
  · split
    · exact foldl_keep p _ (fun st _ => hc st _) _ _
    · rfl

end Merge

theorem State.mergePath_flights (s : State) (q : Path) : (s.mergePath q).flights = s.flights :=
  State.mergeWhere_frame State.flights (fun _ _ => rfl) (fun _ _ => rfl) (fun _ _ => rfl) (fun _ _ _ _ => rfl) (fun _ _ => rfl) (fun _ _ => rfl) (fun _ _ => rfl)
    (fun _ _ _ => rfl) s _

/-- The implicit fences of a start leave the gangs and the operations in flight. -/
theorem State.startFences_keep (s : State) (core : Nat) (recs : List Record) (l : Bool) :
    (s.startFences core recs l).gangs = s.gangs ∧ (s.startFences core recs l).flights = s.flights := by
  unfold State.startFences
  extract_lets s1 s2
  have h1 : s1.gangs = s.gangs ∧ s1.flights = s.flights := by
    show (if l = true then _ else _ : State).gangs = _ ∧ (if l = true then _ else _ : State).flights = _
    split
    · exact ⟨State.mergePath_gangs s .host, State.mergePath_flights s .host⟩
    · exact ⟨rfl, rfl⟩
  clear_value s1
  have h2 : s2.gangs = s1.gangs ∧ s2.flights = s1.flights := by
    show (if _ then _ else _ : State).gangs = _ ∧ (if _ then _ else _ : State).flights = _
    split
    · exact ⟨State.mergePath_gangs s1 .net, State.mergePath_flights s1 .net⟩
    · exact ⟨rfl, rfl⟩
  exact ⟨h2.1.trans h1.1, h2.2.trans h1.2⟩

theorem State.openWindow_keep (s : State) (core c n : Nat) : (s.openWindow core c n).2.gangs = s.gangs ∧ (s.openWindow core c n).2.flights = s.flights := by
  unfold State.openWindow
  dsimp only
  split <;> exact ⟨rfl, rfl⟩

theorem SMap.find_of_only {α : Type} {m : SMap α} {k : Nat} {a : α} (h : (k, a) ∈ m) (hu : ∀ x ∈ m, x.1 = k → x.2 = a) : SMap.find m k = some a := by
  induction m with
  | nil => cases h
  | cons y m ih =>
    obtain ⟨j, b⟩ := y
    unfold SMap.find
    split
    · next hj => exact congrArg some (hu (j, b) (List.mem_cons_self ..) hj)
    · next hj =>
      obtain h | h := List.mem_cons.1 h
      · exact absurd (congrArg Prod.fst h).symm hj
      · exact ih h (fun x hx => hu x (List.mem_cons_of_mem _ hx))

/-- The records of a launched gang stand in v0 to v15 (R26). -/
theorem launchV_get (w : Nat) (recs : List Record) (draw : Nat) {i j : Nat} (hi : i < recs.length) (hj : j < 16) :
    (launchV w recs draw).get (128 * i + j) = (padWords w (recs.getD i { words := [], time := 0, elapsed := 0, src := 0 }).words).getD j 0 := by
  have hfind : SMap.find (launchV w recs draw).cells (128 * i + j) = some ((padWords w (recs.getD i { words := [], time := 0, elapsed := 0, src := 0 }).words).getD j 0) := by
    refine SMap.find_of_only ?_ (fun x hx hk => ?_)
    · exact List.mem_flatten.2 ⟨_, List.mem_map.2 ⟨i, List.mem_range.2 hi, rfl⟩, List.mem_map.2 ⟨j, List.mem_range.2 hj, rfl⟩⟩
    · obtain ⟨l, hl, hx⟩ := List.mem_flatten.1 hx
      obtain ⟨i', -, rfl⟩ := List.mem_map.1 hl
      obtain ⟨j', hj', rfl⟩ := List.mem_map.1 hx
      have hj' := List.mem_range.1 hj'
      dsimp only at hk
      obtain rfl : i' = i := by omega
      obtain rfl : j' = j := by omega
      rfl
  unfold File.get
  rw [hfind]

/-- What a gang that has started without a deadline is (R26). -/
structure Gang.Started (g : Gang) (x : Start) (nd : Node) (uid : Nat) : Prop where
  uid    : g.uid = uid
  ctx    : g.ctx = x.ctx
  gcore  : g.gcore = x.core
  slot   : g.slot = x.slot
  loc    : g.loc = x.loc
  gid    : g.gid = x.gid
  pc     : g.pc = BitVec.ofNat 64 (bits64 nd.entry 55 3 * 8)
  ib     : g.spec.ib = BitVec.ofNat 32 x.ib
  tb     : g.spec.tb = BitVec.ofNat 32 x.tb
  active : g.ctl.active = BitVec.ofNat 32 (2 ^ x.recs.length - 1)
  nmask  : g.ctl.nmask = g.ctl.active
  simt   : g.ctl.vliw = false
  depth  : g.ctl.tdepth = 0
  stack  : g.ctl.stack = []
  arg    : g.regs.s.get 0 = nd.arg
  clear  : ∀ n, n ≠ 0 → g.regs.s.get n = 0
  recs   : ∃ d, g.regs.v = launchV nd.recw x.recs d
  rest   : g.atRest = true

theorem State.startGang_starts {s : State} {x : Start} (h : (s.launchOf x.recs).2.1 = 0) :
    (s.startGang x).flights = s.flights ∧ ∃ g, (s.startGang x).gangs = s.gangs ++ [g] ∧ g.Started x (s.nodeOf x.ctx x.node) s.next := by
  unfold State.startGang
  extract_lets nd l w present entry late pc dl ctl g s1 s2 s3
  have hlate : late = false := by
    show dlReached s.clock.t (s.launchOf x.recs).2.1 = false
    rw [h]
    rfl
  have hw := s.openWindow_keep x.core x.ctx nd.flags
  have hf := (w.2.setGen x.core x.slot).startFences_keep x.core x.recs l.1.isSome
  rw [if_neg (by rw [hlate, Bool.false_and]; exact Bool.false_ne_true)]
  refine ⟨hf.2.trans hw.2, g, congrArg (· ++ [g]) (hf.1.trans hw.1), ?_⟩
  have hpc : pc = entry := if_neg (by rw [hlate]; decide)
  exact
    { uid := rfl, ctx := rfl, slot := rfl, loc := rfl, gid := rfl, pc := hpc, ib := rfl, tb := rfl, active := rfl, nmask := rfl, simt := rfl, depth := rfl, stack := rfl
      arg := rfl, recs := ⟨_, rfl⟩, rest := rfl
      gcore := Nat.div_add_mod x.core 32
      clear := fun n hn => by
        show File.get { seed := none, cells := [(0, nd.arg)] } n = 0
        unfold File.get SMap.find
        rw [if_neg (Ne.symm hn)]
        rfl }

/-- A cluster with one waiter, which has placed none in this cycle. -/
theorem State.firstWaiter_one {s : State} {cluster : Nat} {w : Waiter} (h : s.waiters cluster = [w]) (hp : SMap.get s.placed cluster 0 ≠ s.cycle + 1) :
    s.firstWaiter cluster = (({ s with draw := s.draw + 1, placed := SMap.set s.placed cluster (s.cycle + 1) } : State).place w).map (fun t => (w, t)) := by
  unfold State.firstWaiter
  rw [if_neg hp, h]
  dsimp only [List.length_singleton, List.range_one, List.zip_cons_cons, List.zip_nil_left, List.foldl_cons, List.foldl_nil, insertKeyed, List.findSome?_cons]
  cases ({ s with draw := s.draw + 1, placed := SMap.set s.placed cluster (s.cycle + 1) } : State).place w <;> rfl

/-- A formed launch whose records bring their budget is placed where there is a core and a slot. -/
theorem State.placeLaunch_granted {s : State} {c n ib tb k core : Nat} {f : Formed} (hg : grantOf f.recs = some (ib, tb))
    (hc : s.pickCore (s.nodeOf c n).home (if (s.nodeOf c n).affv then some (s.nodeOf c n).aff else none) (fun d => ((s.core d).windowBase (s.nodeOf c n).flags).isSome) = some core)
    (hk : s.pickSlot (32 * (s.nodeOf c n).home + core) = some k) :
    s.placeLaunch c n f = some ((s.modBin c n (fun b => { b with formed := b.formed.filter (fun x => x.fid != f.fid) })).startGang
      { ctx := c, node := n, gid := f.gid, recs := f.recs, core := 32 * (s.nodeOf c n).home + core, slot := k, ib := ib, tb := tb, index := f.index, loc := .resident }) := by
  unfold State.placeLaunch
  dsimp only
  rw [hg, hc]
  dsimp only
  rw [hk]

theorem waiterPlacement_starts {s : State} {cluster c n ib tb core k : Nat} {f : Formed} (hw : s.waiters cluster = [.launch c n f]) (hs : s.settled = true)
    (hp : SMap.get s.placed cluster 0 ≠ s.cycle + 1) (hg : grantOf f.recs = some (ib, tb))
    (hc : s.pickCore (s.nodeOf c n).home (if (s.nodeOf c n).affv then some (s.nodeOf c n).aff else none) (fun d => ((s.core d).windowBase (s.nodeOf c n).flags).isSome) = some core)
    (hk : s.pickSlot (32 * (s.nodeOf c n).home + core) = some k) (hl : (s.launchOf f.recs).2.1 = 0) :
    ∃ t, exec (.waiterPlacement cluster) s = .next t ∧ ∃ g ∈ t.gangs, g.uid = s.next ∧ g.ctx = c ∧ g.gcore = 32 * (s.nodeOf c n).home + core ∧ g.slot = k ∧
      g.loc = .resident ∧ g.gid = f.gid ∧ g.pc = BitVec.ofNat 64 (bits64 (s.nodeOf c n).entry 55 3 * 8) ∧ g.spec.ib = BitVec.ofNat 32 ib ∧ g.spec.tb = BitVec.ofNat 32 tb ∧
      g.ctl.active = BitVec.ofNat 32 (2 ^ f.recs.length - 1) ∧ g.ctl.nmask = g.ctl.active ∧ g.ctl.vliw = false ∧ g.ctl.tdepth = 0 ∧ g.ctl.stack = [] ∧
      g.regs.s.get 0 = (s.nodeOf c n).arg ∧ (∀ n, n ≠ 0 → g.regs.s.get n = 0) ∧
      ∀ i < f.recs.length, ∀ j < 16, g.regs.v.get (128 * i + j) =
        (padWords (s.nodeOf c n).recw (f.recs.getD i { words := [], time := 0, elapsed := 0, src := 0 }).words).getD j 0 := by
  set s1 : State := { s with draw := s.draw + 1, placed := SMap.set s.placed cluster (s.cycle + 1) } with hs1
  set x : Start := { ctx := c, node := n, gid := f.gid, recs := f.recs, core := 32 * (s.nodeOf c n).home + core, slot := k, ib := ib, tb := tb, index := f.index, loc := .resident } with hx
  set s2 : State := s1.modBin c n (fun b => { b with formed := b.formed.filter (fun x => x.fid != f.fid) }) with hs2
  have hplace : s1.placeLaunch c n f = some (s2.startGang x) := State.placeLaunch_granted (s := s1) hg hc hk
  have hexec : execWaiterPlacement cluster s = .next (s2.startGang x).pump := by
    unfold execWaiterPlacement
    rw [State.firstWaiter_one hw hp]
    show (match (s1.placeLaunch c n f).map (fun t => (Waiter.launch c n f, t)) with | some y => Host.Outcome.next y.2.pump | none => Host.Outcome.next s) = _
    rw [hplace]
    rfl
  obtain ⟨hfl, g, hga, hst⟩ := State.startGang_starts (s := s2) (x := x) hl
  have hnode : s2.nodeOf c n = s.nodeOf c n := s1.nodeOf_modBin c n _
  have hset : (s2.startGang x).settled = true := by
    obtain ⟨h1, h2⟩ := (State.settled_iff s).1 hs
    refine (State.settled_iff _).2 ⟨fun y hy => h1 y (hfl ▸ hy), fun y hy => ?_⟩
    rw [hga] at hy
    obtain hy | hy := List.mem_append.1 hy
    · exact h2 y hy
    · rw [List.mem_singleton.1 hy]
      exact hst.rest
  rw [State.pump_settled hset] at hexec
  refine ⟨_, hexec, g, by rw [hga]; exact List.mem_append_right _ (List.mem_singleton.2 rfl), hst.uid, hst.ctx, hst.gcore, hst.slot, hst.loc, hst.gid, ?_, hst.ib, hst.tb,
    hst.active, hst.nmask, hst.simt, hst.depth, hst.stack, ?_, hst.clear, fun i hi j hj => ?_⟩
  · rw [hst.pc, show s2.nodeOf x.ctx x.node = s.nodeOf c n from hnode]
  · rw [hst.arg, show s2.nodeOf x.ctx x.node = s.nodeOf c n from hnode]
  · obtain ⟨d, hd⟩ := hst.recs
    rw [hd, show s2.nodeOf x.ctx x.node = s.nodeOf c n from hnode]
    exact launchV_get _ f.recs d hi hj

/-! ## Yield records (R71, R350) -/

theorem State.remonitored_fireLine (s : State) (line st : Nat) : s.Remonitored (s.fireLine line st) := by
  refine .of_map rfl (F := fun g => if (s.slice (homeSlice (128 * line))).monitors.any (fun m => m.1 == g.uid && m.2 == line) then
    { g with monitor := g.monitor.map (fun m => { m with fired := m.fired.or (some st) }) } else g) rfl (fun g => ?_)
  split <;> rfl

/-- A path's write fires monitors, and changes nothing else of the gangs (R102). -/
theorem State.remonitored_pathWrite (s : State) (p : Path) (c pa : Nat) (bs : List Byte) (po : Bool) (a : Asker) : s.Remonitored (s.pathWrite p c pa bs po a) := by
  refine foldl_inv s.Remonitored _ (fun st r hst => ?_) _ s (.refl s)
  have hq : ∀ l, st.Remonitored { st with paths := l } := fun l => ⟨rfl, (State.Remonitored.refl st).2⟩
  have hfire : ∀ (t : State) n w pa k, t.Remonitored ((t.fireLine n 0).spoil w pa k) := fun t n _ _ _ => State.remonitored_fireLine t n 0
  dsimp only
  split
  · exact (hst.trans (hq _)).trans (hfire ..)
  · exact hst.trans (hq _)

/-- The bytes that a gang's region holds. -/
def Gang.imaged (l : List Byte) (g : Gang) : Gang := { g with image := l }
/-- The record of the gang is up to date. -/
def Gang.recorded (g : Gang) : Gang := { g with iss := { g.iss with recStale := false } }

/-- The two regions of a yield record are written. -/
def State.putRecord (s : State) (c u base : Nat) (shadow image : List Byte) : State :=
  { ((s.deviceWrite c base shadow).modGang u (Gang.imaged image)).deviceWrite c (base + 2048) image with draw := s.draw + 1 }

theorem State.writeYield_eq (s : State) (g : Gang) (r : Nat) :
    s.writeYield g r = s.putRecord g.ctx g.uid (s.yieldBase g.ctx r) (regionShadow g s.draw) (yieldState g (s.core g.gcore) s.draw) := rfl

theorem State.putRecord_keeps {s : State} {g : Gang} {u : Nat} (hg : s.gang? u = some g) (c base : Nat) (shadow image : List Byte) :
    (s.settled = true → (s.putRecord c u base shadow image).settled = true) ∧ (s.putRecord c u base shadow image).ctxs = s.ctxs ∧
      ∃ m, (s.putRecord c u base shadow image).gang? u = some ((g.monitored m).imaged image) := by
  have h1 := s.remonitored_pathWrite .host s.next base shadow false { tenant := s.tenantOf c }
  have hc1 : (s.deviceWrite c base shadow).ctxs = s.ctxs := s.pathWrite_ctxs ..
  have hd : s.Remonitored (s.deviceWrite c base shadow) := h1
  unfold State.putRecord
  generalize s.deviceWrite c base shadow = a at hc1 hd
  obtain ⟨m, hm⟩ := hd.gang? hg
  have hb : (a.modGang u (Gang.imaged image)).gang? u = some ((g.monitored m).imaged image) := State.gang?_modGang_same (Gang.imaged image) (fun _ => rfl) hm
  have hs1 : s.settled = true → (a.modGang u (Gang.imaged image)).settled = true := fun h => State.settled_modGang u (fun _ h => h) (hd.settled h)
  have hcb : (a.modGang u (Gang.imaged image)).ctxs = s.ctxs := hc1
  generalize a.modGang u (Gang.imaged image) = b at hb hs1 hcb
  have hd2 : b.Remonitored (b.deviceWrite c (base + 2048) image) := b.remonitored_pathWrite ..
  have hc2 : (b.deviceWrite c (base + 2048) image).ctxs = s.ctxs := (b.pathWrite_ctxs ..).trans hcb
  obtain ⟨m', hm'⟩ := hd2.gang? hb
  exact ⟨fun h => hd2.settled (hs1 h), hc2, m', hm'⟩

/-- A gang in its yield record. -/
def Gang.queuedAt (r t : Nat) (g : Gang) : Gang :=
  { g with
    loc := .queued r t
    spec := { g.spec with cp := if g.iss.toDcp then g.spec.dcp else g.spec.cp }
    iss := { g.iss with yieldReq := false, yielding := false, reclaim := false } }

/-- What frees a slot for good leaves the gangs, the contexts and the operations in flight. -/
theorem State.emptySlot_frame {γ : Type} (p : State → γ) (hp : ∀ (s : State) l, p { s with paths := l } = p s) (hc : ∀ (s : State) l, p { s with cores := l } = p s)
    (hm : ∀ (s : State) l, p { s with cmds := l } = p s) (hd : ∀ (s : State) n, p { s with draw := n } = p s) (s : State) (core slot : Nat) :
    p (((s.mergeShare core slot).failTiles core slot).clearTiles core slot) = p s := by
  have h1 : p (s.mergeShare core slot) = p s := State.mergeSpad_frame p hp hc s _ _
  have h2 : p ((s.mergeShare core slot).failTiles core slot) = p (s.mergeShare core slot) := hm _ _
  have h3 : ∀ t : State, p (t.clearTiles core slot) = p t := fun t => (hd (t.modCore core _) _).trans (hc t _)
  exact (h3 _).trans (h2.trans h1)

/-- A yield record is taken, and the slot emptied. -/
def State.vacated (s : State) (g : Gang) (r : Nat) : State :=
  (((s.modCtx g.ctx (fun c => { c with yused := NSet.add c.yused r })).mergeShare g.gcore g.slot).failTiles g.gcore g.slot).clearTiles g.gcore g.slot

theorem State.yieldLeave_eq {s : State} {u r : Nat} {g : Gang} (hg : s.gang? u = some g) (hr : s.freeYield g.ctx = some r) :
    s.yieldLeave u = (((s.vacated g r).modGang u (Gang.queuedAt r s.clock.t)).clearMarks g).refreshRecord u := by
  unfold State.yieldLeave
  rw [hg]
  dsimp only
  rw [hr]
  rfl

/-- Steps 5 to 7 of a yield, with a record free. -/
theorem State.yieldLeave_queues {s : State} {u r : Nat} {g : Gang} (hg : s.gang? u = some g) (hr : s.freeYield g.ctx = some r) (hs : s.settled = true) :
    (s.yieldLeave u).settled = true ∧ NSet.has ((s.yieldLeave u).ctx g.ctx).yused r = true ∧ ((s.yieldLeave u).ctx g.ctx).ibpool = (s.ctx g.ctx).ibpool ∧
      ((s.yieldLeave u).ctx g.ctx).tbpool = (s.ctx g.ctx).tbpool ∧
      ∃ g', (s.yieldLeave u).gang? u = some g' ∧ g'.loc = .queued r s.clock.t ∧ g'.spec = { g.spec with cp := if g.iss.toDcp then g.spec.dcp else g.spec.cp } := by
  rw [State.yieldLeave_eq hg hr]
  have keep1 : ∀ {γ : Type} (p : State → γ), (∀ (s : State) l, p { s with paths := l } = p s) → (∀ (s : State) l, p { s with cores := l } = p s) →
      (∀ (s : State) l, p { s with cmds := l } = p s) → (∀ (s : State) n, p { s with draw := n } = p s) →
      p (s.vacated g r) = p (s.modCtx g.ctx (fun c => { c with yused := NSet.add c.yused r })) := fun p h1 h2 h3 h4 =>
    State.emptySlot_frame p h1 h2 h3 h4 (s.modCtx g.ctx (fun c => { c with yused := NSet.add c.yused r })) g.gcore g.slot
  have hg1 : (s.vacated g r).gang? u = some g := (keep1 (fun s => s.gang? u) (fun _ _ => rfl) (fun _ _ => rfl) (fun _ _ => rfl) (fun _ _ => rfl)).trans hg
  have hc1 : (s.vacated g r).ctx g.ctx = { s.ctx g.ctx with yused := NSet.add (s.ctx g.ctx).yused r } :=
    (keep1 (fun s => s.ctx g.ctx) (fun _ _ => rfl) (fun _ _ => rfl) (fun _ _ => rfl) (fun _ _ => rfl)).trans (State.ctx_modCtx_same ..)
  have hs1 : (s.vacated g r).settled = true := (keep1 State.settled (fun _ _ => rfl) (fun _ _ => rfl) (fun _ _ => rfl) (fun _ _ => rfl)).trans hs
  generalize s.vacated g r = s1 at hg1 hc1 hs1
  have keep2 : ∀ {γ : Type} (p : State → γ), (∀ (s : State) n f, p (s.modCore n f) = p s) → p ((s1.modGang u (Gang.queuedAt r s.clock.t)).clearMarks g) = p (s1.modGang u (Gang.queuedAt r s.clock.t)) := fun p h =>
    State.clearMarks_frame p (fun s n f _ => h s n f) (s1.modGang u (Gang.queuedAt r s.clock.t)) g
  have hg2 : ((s1.modGang u (Gang.queuedAt r s.clock.t)).clearMarks g).gang? u = some (g.queuedAt r s.clock.t) :=
    (keep2 (fun s => s.gang? u) (fun _ _ _ => rfl)).trans (State.gang?_modGang_same (Gang.queuedAt r s.clock.t) (fun _ => rfl) hg1)
  have hs2 : ((s1.modGang u (Gang.queuedAt r s.clock.t)).clearMarks g).settled = true := (keep2 State.settled (fun _ _ _ => rfl)).trans (State.settled_modGang u (fun _ h => h) hs1)
  have hc2 : ((s1.modGang u (Gang.queuedAt r s.clock.t)).clearMarks g).ctx = s1.ctx := keep2 State.ctx (fun _ _ _ => rfl)
  generalize (s1.modGang u (Gang.queuedAt r s.clock.t)).clearMarks g = s2 at hg2 hs2 hc2
  have href : s2.refreshRecord u = (s2.writeYield (g.queuedAt r s.clock.t) r).modGang u Gang.recorded := by
    unfold State.refreshRecord
    rw [hg2]
    rfl
  have hu : (g.queuedAt r s.clock.t).uid = u := State.gang?_uid hg2
  rw [State.writeYield_eq, hu] at href
  obtain ⟨hs3, hc3, m, hg3⟩ := State.putRecord_keeps hg2 (g.queuedAt r s.clock.t).ctx (s2.yieldBase (g.queuedAt r s.clock.t).ctx r) (regionShadow (g.queuedAt r s.clock.t) s2.draw)
    (yieldState (g.queuedAt r s.clock.t) (s2.core (g.queuedAt r s.clock.t).gcore) s2.draw)
  generalize regionShadow (g.queuedAt r s.clock.t) s2.draw = shadow at href hs3 hc3 hg3
  generalize yieldState (g.queuedAt r s.clock.t) (s2.core (g.queuedAt r s.clock.t).gcore) s2.draw = image at href hs3 hc3 hg3
  have hctx : (s2.refreshRecord u).ctx g.ctx = { s.ctx g.ctx with yused := NSet.add (s.ctx g.ctx).yused r } := by
    rw [← hc1, ← hc2, href]
    unfold State.ctx
    exact congrArg (fun x => SMap.get x g.ctx _) hc3
  refine ⟨?_, ?_, ?_, ?_, (((g.queuedAt r s.clock.t).monitored m).imaged image).recorded, ?_, rfl, rfl⟩
  · rw [href]
    exact State.settled_modGang u (fun _ h => h) (hs3 hs2)
  · rw [hctx]
    exact NSet.has_add_same ..
  · rw [hctx]
  · rw [hctx]
  · rw [href]
    exact State.gang?_modGang_same Gang.recorded (fun _ => rfl) hg3

theorem yieldRecordFreed_queues {s : State} {uid r : Nat} {g : Gang} (hg : s.gang? uid = some g) (hl : g.loc = .resident) (hy : g.iss.yielding = true) (he : g.iss.exiting = false)
    (hs : s.settled = true) (hf : (s.core g.gcore).frozen = false) (hm : ∀ m ∈ (s.core g.gcore).mq, m.uid ≠ uid) (hb : s.shareBusy g.gcore g.slot = false)
    (hr : s.freeYield g.ctx = some r) :
    ∃ t g', exec (.yieldRecordFreed uid) s = .next t ∧ t.gang? uid = some g' ∧ g'.loc = .queued r s.clock.t ∧ NSet.has (t.ctx g.ctx).yused r = true := by
  have hexec : execYieldRecordFreed uid s = .next (s.yieldLeave uid).pump := by
    unfold execYieldRecordFreed
    rw [hg]
    dsimp only
    rw [hl]
    have hmq : (s.core g.gcore).mq.any (fun m => m.uid == uid) = false := List.any_eq_false.2 (fun m h => by simpa using hm m h)
    exact if_pos (by rw [hy, he, hf, hmq, hb]; rfl)
  obtain ⟨hset, hu, -, -, g', h1, h2, -⟩ := State.yieldLeave_queues hg hr hs
  rw [State.pump_settled hset] at hexec
  exact ⟨_, g', hexec, h1, h2, hu⟩

/-! ## The first steps of a yield (R71, R72) -/

/-- A gang that yields. -/
def Gang.yielded (sealing : Bool) (g : Gang) : Gang :=
  { g with
    spec := { g.spec with ib := 0, tb := 0 }
    pend := if sealing then g.landAll.pend else []
    regs := { (if sealing then g.landAll.regs else g.regs) with h := g.regs.h.map (fun (h : Nat × Handle) => if h.2.pending then (h.1, ({} : Handle)) else h) }
    ctl := if sealing then g.landAll.ctl else g.ctl
    park := none
    iss := { g.iss with yielding := true, yieldReq := true, sealTo := if sealing then g.iss.sealTo else none, cpmTo := if sealing then g.iss.cpmTo else none, contOnly := false
                        splitTo := none, tretTo := none, dueTrap := g.iss.dueTrap.filter (fun d => d.info.after)
                        block := if g.park.isSome then [] else g.iss.block, pauseTo := none, waitFrom := none } }

theorem Gang.yielded_rest {g : Gang} (b : Bool) (h : g.atRest = true) : (g.yielded b).atRest = true := by
  obtain ⟨h1, h2, h3, h4, h5, h6⟩ := g.atRest_iff.1 h
  refine (Gang.atRest_iff _).2 ⟨?_, rfl, h3, ?_, rfl, h6⟩
  · show (if b = true then g.iss.sealTo else none) = none
    rw [h1]
    exact ite_self _
  · show g.iss.dueTrap.filter _ = none
    rw [h4]
    rfl

/-- Operations of the gang that a trap had set aside are under way again. -/
def Flight.taken (u : Nat) (f : Flight) : Flight := if f.uid == some u then { f with shelved := false } else f

/-- The matrix operations of a gang that have not begun go. -/
def Core.unqueued (u : Nat) (c : Core) : Core := { c with mq := c.mq.filter (fun m => m.uid != u || m.started.isSome) }

/-- A gang whose results are discarded, with its matrix operations and its monitor. -/
def State.halted (s : State) (g : Gang) (sealing : Bool) : State :=
  ((({ s with flights := s.flights.map (Flight.taken g.uid) } : State).dropWhere (fun f => f.uid == some g.uid && !sealing && f.dropped)).modCore g.gcore
    (Core.unqueued g.uid)).disarm g.uid

theorem State.yieldStop_eq {s : State} {g : Gang} (hm : s.muslinMode g.ctx = 0) :
    ∃ b, s.yieldStop g = ((((s.halted g b).blockGroup g.uid).refund g.ctx g.spec.ib.toNat g.spec.tb.toNat).modGang g.uid (Gang.yielded b)).count g 0x0B 1 := by
  have hs : (if g.iss.reclaim = true then s.muslin g.ctx 6 g.mark else s) = s := by
    split
    · exact State.muslin_off hm ..
    · rfl
  unfold State.yieldStop
  rw [hs]
  exact ⟨_, rfl⟩

theorem State.blockGroup_frame {γ : Type} (p : State → γ) (hw : ∀ (s : State) l, p { s with wrapped := l } = p s)
    (hd : ∀ (s : State) a v, counterBlock 0 ≤ a → p (s.setReg a v) = p s) (hg : ∀ (s : State) u, p (s.dropGroup u) = p s) (s : State) (u : Nat) : p (s.blockGroup u) = p s := by
  unfold State.blockGroup
  split
  · rfl
  · split
    · exact (hg _ u).trans (State.count_frame p hw hd ..)
    · rfl

theorem State.blockGroup_gang {s : State} {u : Nat} {g : Gang} (hg : s.gang? u = some g) (hs : s.settled = true) :
    (s.blockGroup u).settled = true ∧ ∃ b d, (s.blockGroup u).gang? u = some { g with iss := { g.iss with group := b, groupFrom := d } } := by
  unfold State.blockGroup
  rw [hg]
  dsimp only
  split
  · have h1 : (s.count g 0x09 1).gang? u = some g := (State.count_frame (fun s => s.gang? u) (fun _ _ => rfl) (fun _ _ _ _ => rfl) s g 9 1).trans hg
    have h2 : (s.count g 0x09 1).settled = true := (State.count_frame State.settled (fun _ _ => rfl) (fun _ _ _ _ => rfl) s g 9 1).trans hs
    exact ⟨State.settled_dropGroup u h2, State.gang?_dropGroup h1⟩
  · exact ⟨hs, g.iss.group, g.iss.groupFrom, hg⟩

theorem State.dropGroup_mq (s : State) (u n : Nat) : ((s.dropGroup u).core n).mq = (s.core n).mq := by
  unfold State.dropGroup
  split
  · rfl
  · next g _ =>
    split
    · show ((s.modCore g.gcore (Core.freeGroup g.slot)).core n).mq = _
      by_cases hn : g.gcore = n
      · subst hn
        rw [State.core_modCore_same]
        rfl
      · rw [State.core_modCore_ne _ _ hn]
    · rfl

/-- What halts leaves beside the gangs, the operations in flight, the core's matrix queue and the monitors. -/
theorem State.halted_frame {γ : Type} (p : State → γ) (hf : ∀ (s : State) l, p { s with flights := l } = p s) (hg : ∀ (s : State) l, p { s with gangs := l } = p s)
    (hc : ∀ (s : State) l, p { s with cores := l } = p s) (hs : ∀ (s : State) l, p { s with slices := l } = p s) (s : State) (g : Gang) (b : Bool) :
    p (s.halted g b) = p s := by
  have h1 : p ({ s with flights := s.flights.map (Flight.taken g.uid) } : State) = p s := hf s _
  have h2 := State.dropWhere_frame p hg hf { s with flights := s.flights.map (Flight.taken g.uid) } (fun f => f.uid == some g.uid && !b && f.dropped)
  have h3 : ∀ t : State, p (t.disarm g.uid) = p t := fun t => by
    unfold State.disarm
    split
    · rfl
    · exact (hg _ _).trans (hs t _)
  exact (h3 _).trans ((hc _ _).trans (h2.trans h1))

theorem State.halted_gang {s : State} {g : Gang} (hg : s.gang? g.uid = some g) (b : Bool) (hs : s.settled = true) :
    (s.halted g b).settled = true ∧ ∃ l m, (s.halted g b).gang? g.uid = some { g with iss := { g.iss with block := l }, monitor := m } := by
  have h0 : ({ s with flights := s.flights.map (Flight.taken g.uid) } : State).settled = true := by
    obtain ⟨h1, h2⟩ := (State.settled_iff s).1 hs
    refine (State.settled_iff _).2 ⟨fun f hf => ?_, h2⟩
    obtain ⟨y, hy, rfl⟩ := List.mem_map.1 hf
    unfold Flight.taken
    split
    · exact h1 y hy
    · exact h1 y hy
  have h1 := State.settled_dropWhere (fun f => f.uid == some g.uid && !b && f.dropped) h0
  have hg1 := (State.gang?_dropWhere ({ s with flights := s.flights.map (Flight.taken g.uid) } : State) (fun f => f.uid == some g.uid && !b && f.dropped) g.uid).trans
    (congrArg (Option.map _) (show ({ s with flights := s.flights.map (Flight.taken g.uid) } : State).gang? g.uid = some g from hg))
  have hr : ∀ t : State, t.Remonitored ((t.modCore g.gcore (Core.unqueued g.uid)).disarm g.uid) := fun t => (t.modCore g.gcore (Core.unqueued g.uid)).remonitored_disarm g.uid
  obtain ⟨m, hm⟩ := (hr _).gang? hg1
  exact ⟨(hr _).settled h1, _, m, hm⟩

theorem State.halted_flights {s : State} {g : Gang} {b : Bool} {f : Flight} (h : f ∈ (s.halted g b).flights) : ∃ y ∈ s.flights, f.parts = y.parts := by
  have hr : ∀ t : State, ((t.modCore g.gcore (Core.unqueued g.uid)).disarm g.uid).flights = t.flights := fun t => ((t.modCore g.gcore (Core.unqueued g.uid)).remonitored_disarm g.uid).1
  unfold State.halted at h
  rw [hr] at h
  obtain ⟨y, hy, rfl⟩ := List.mem_map.1 (List.mem_filter.1 h).1
  refine ⟨y, hy, ?_⟩
  unfold Flight.taken
  split <;> rfl

theorem State.halted_mq (s : State) (g : Gang) (b : Bool) : ((s.halted g b).core g.gcore).mq = (s.core g.gcore).mq.filter (fun m => m.uid != g.uid || m.started.isSome) := by
  have hd : ∀ t : State, (t.disarm g.uid).cores = t.cores := fun t => by
    unfold State.disarm
    split <;> rfl
  unfold State.halted State.core
  rw [hd]
  exact congrArg Core.mq (State.core_modCore_same _ g.gcore (Core.unqueued g.uid))

/-- What steps 1 to 4 of a yield leave, Muslin off. -/
structure State.Stops (s t : State) (g : Gang) : Prop where
  settled : t.settled = true
  gang    : ∃ g1, t.gang? g.uid = some g1 ∧ g1.ctx = g.ctx ∧ g1.gcore = g.gcore ∧ g1.slot = g.slot ∧ g1.spec = { g.spec with ib := 0, tb := 0 } ∧ g1.iss.toDcp = g.iss.toDcp
  ctx     : t.ctx g.ctx = (s.refund g.ctx g.spec.ib.toNat g.spec.tb.toNat).ctx g.ctx
  reg     : ∀ a < counterBlock 0, t.reg a = s.reg a
  flights : ∀ f ∈ t.flights, ∃ y ∈ s.flights, f.parts = y.parts
  mq      : (t.core g.gcore).mq = (s.core g.gcore).mq.filter (fun m => m.uid != g.uid || m.started.isSome)
  clock   : t.clock = s.clock

theorem State.yieldStop_stops {s : State} {g : Gang} (hg : s.gang? g.uid = some g) (hm : s.muslinMode g.ctx = 0) (hs : s.settled = true) : s.Stops (s.yieldStop g) g := by
  obtain ⟨b, heq⟩ := State.yieldStop_eq (g := g) hm
  obtain ⟨hs1, l, m, hg1⟩ := State.halted_gang hg b hs
  have keep1 : ∀ {γ : Type} (p : State → γ), (∀ (s : State) l, p { s with flights := l } = p s) → (∀ (s : State) l, p { s with gangs := l } = p s) →
    (∀ (s : State) l, p { s with cores := l } = p s) → (∀ (s : State) l, p { s with slices := l } = p s) → p (s.halted g b) = p s := fun p h1 h2 h3 h4 => State.halted_frame p h1 h2 h3 h4 s g b
  have hc1 := keep1 State.ctxs (fun _ _ => rfl) (fun _ _ => rfl) (fun _ _ => rfl) (fun _ _ => rfl)
  have hd1 := keep1 State.dev (fun _ _ => rfl) (fun _ _ => rfl) (fun _ _ => rfl) (fun _ _ => rfl)
  have ht1 := keep1 State.clock (fun _ _ => rfl) (fun _ _ => rfl) (fun _ _ => rfl) (fun _ _ => rfl)
  have hf1 : ∀ f ∈ (s.halted g b).flights, ∃ y ∈ s.flights, f.parts = y.parts := fun f => State.halted_flights
  have hq1 := s.halted_mq g b
  rw [heq]
  generalize s.halted g b = h at hs1 hg1 hc1 hd1 ht1 hf1 hq1
  obtain ⟨hs2, gr, gf, hg2⟩ := State.blockGroup_gang hg1 hs1
  have keep2 : ∀ {γ : Type} (p : State → γ), (∀ (s : State) l, p { s with wrapped := l } = p s) → (∀ (s : State) a v, counterBlock 0 ≤ a → p (s.setReg a v) = p s) →
    (∀ (s : State) u, p (s.dropGroup u) = p s) → p (h.blockGroup g.uid) = p h := fun p h1 h2 h3 => State.blockGroup_frame p h1 h2 h3 h g.uid
  have hc2 := (keep2 State.ctxs (fun _ _ => rfl) (fun _ _ _ _ => rfl) (State.dropGroup_frame State.ctxs (fun _ _ => rfl) (fun _ _ => rfl))).trans hc1
  have ht2 := (keep2 State.clock (fun _ _ => rfl) (fun _ _ _ _ => rfl) (State.dropGroup_frame State.clock (fun _ _ => rfl) (fun _ _ => rfl))).trans ht1
  have hf2 := keep2 State.flights (fun _ _ => rfl) (fun _ _ _ _ => rfl) (State.dropGroup_frame State.flights (fun _ _ => rfl) (fun _ _ => rfl))
  have hq2 := (keep2 (fun s => (s.core g.gcore).mq) (fun _ _ => rfl) (fun _ _ _ _ => rfl) (fun s u => s.dropGroup_mq u _)).trans hq1
  have hr2 : ∀ a < counterBlock 0, (h.blockGroup g.uid).reg a = s.reg a := fun a ha =>
    (keep2 (fun s => s.reg a) (fun _ _ => rfl) (fun s x v hx => by rw [State.reg_setReg, if_neg (by omega)])
      (State.dropGroup_frame (fun s => s.reg a) (fun _ _ => rfl) (fun _ _ => rfl))).trans (State.reg_of hd1 a)
  generalize h.blockGroup g.uid = k at hs2 hg2 hc2 ht2 hf2 hq2 hr2
  have hg3 : ((k.refund g.ctx g.spec.ib.toNat g.spec.tb.toNat).modGang g.uid (Gang.yielded b)).gang? g.uid = some _ :=
    State.gang?_modGang_same (s := k.refund g.ctx g.spec.ib.toNat g.spec.tb.toNat) (Gang.yielded b) (fun _ => rfl) hg2
  have hs3 : ((k.refund g.ctx g.spec.ib.toNat g.spec.tb.toNat).modGang g.uid (Gang.yielded b)).settled = true :=
    State.settled_modGang (s := k.refund g.ctx g.spec.ib.toNat g.spec.tb.toNat) g.uid (fun _ h => Gang.yielded_rest b h) hs2
  have hc3 : ((k.refund g.ctx g.spec.ib.toNat g.spec.tb.toNat).modGang g.uid (Gang.yielded b)).ctx g.ctx = (s.refund g.ctx g.spec.ib.toNat g.spec.tb.toNat).ctx g.ctx := by
    show (k.refund g.ctx g.spec.ib.toNat g.spec.tb.toNat).ctx g.ctx = _
    unfold State.refund
    rw [State.ctx_modCtx_same, State.ctx_modCtx_same, show k.ctx g.ctx = s.ctx g.ctx from congrArg (fun x => SMap.get x g.ctx _) hc2]
  have keep4 : ∀ {γ : Type} (p : State → γ) (t : State), (∀ (s : State) l, p { s with wrapped := l } = p s) → (∀ (s : State) a v, counterBlock 0 ≤ a → p (s.setReg a v) = p s) →
    p (t.count g 0x0B 1) = p t := fun p t h1 h2 => State.count_frame p h1 h2 t g 11 1
  refine ⟨(keep4 State.settled _ (fun _ _ => rfl) (fun _ _ _ _ => rfl)).trans hs3, ⟨_, (keep4 (fun s => s.gang? g.uid) _ (fun _ _ => rfl) (fun _ _ _ _ => rfl)).trans hg3, rfl, rfl, rfl, rfl, rfl⟩,
    (keep4 (fun s => s.ctx g.ctx) _ (fun _ _ => rfl) (fun _ _ _ _ => rfl)).trans hc3, fun a ha => ?_, fun f hf => ?_,
    (keep4 (fun s => (s.core g.gcore).mq) _ (fun _ _ => rfl) (fun _ _ _ _ => rfl)).trans hq2, (keep4 State.clock _ (fun _ _ => rfl) (fun _ _ _ _ => rfl)).trans ht2⟩
  · exact (keep4 (fun s => s.reg a) _ (fun _ _ => rfl) (fun s x v hx => by rw [State.reg_setReg, if_neg (by omega)])).trans (hr2 a ha)
  · rw [keep4 State.flights _ (fun _ _ => rfl) (fun _ _ _ _ => rfl)] at hf
    exact hf1 f (hf2 ▸ hf)

theorem yieldSequence_queues {s : State} {uid r : Nat} {g : Gang} (hg : s.gang? uid = some g) (hy : g.yieldDue = true) (hn : g.iss.yielding = false)
    (hf : (s.core g.gcore).freeze = 0) (hs : s.settled = true) (hm : s.muslinMode g.ctx = 0) (hc : g.ctx < 1024)
    (hq : ∀ m ∈ (s.core g.gcore).mq, m.uid = uid → m.started = none) (hb : s.shareBusy g.gcore g.slot = false) (hr : s.freeYield g.ctx = some r) :
    ∃ t g', exec (.yieldSequence uid) s = .next t ∧ t.gang? uid = some g' ∧ g'.loc = .queued r s.clock.t ∧ g'.spec.ib = 0 ∧ g'.spec.tb = 0 ∧
      g'.spec.cp = (if g.iss.toDcp then g.spec.dcp else g.spec.cp) ∧ NSet.has (t.ctx g.ctx).yused r = true ∧
      (t.ctx g.ctx).ibpool = min (2 ^ 64 - 1) ((s.ctx g.ctx).ibpool + g.spec.ib.toNat) ∧
      (t.ctx g.ctx).tbpool = min (2 ^ 64 - 1) ((s.ctx g.ctx).tbpool + g.spec.tb.toNat) := by
  have hu := State.gang?_uid hg
  subst hu
  have hst := State.yieldStop_stops hg hm hs
  have hexec : execYieldSequence g.uid s =
      if ((s.yieldStop g).core g.gcore).mq.any (fun m => m.uid == g.uid) || (s.yieldStop g).shareBusy g.gcore g.slot then .next (s.yieldStop g)
      else .next ((s.yieldStop g).yieldLeave g.uid).pump := by
    have hfz : (s.core g.gcore).frozen = false := by
      unfold Core.frozen
      rw [hf]
      rfl
    unfold execYieldSequence
    rw [hg]
    dsimp only
    rw [hy, hfz, hn]
    rfl
  generalize s.yieldStop g = e at hst hexec
  have hmq : (e.core g.gcore).mq.any (fun m => m.uid == g.uid) = false := by
    rw [hst.mq, List.any_eq_false]
    intro m hm h
    obtain ⟨h1, h2⟩ := List.mem_filter.1 hm
    rw [hq m h1 (beq_iff_eq.1 h), beq_iff_eq.1 h] at h2
    simp at h2
  have hbusy : e.shareBusy g.gcore g.slot = false := by
    unfold State.shareBusy at hb ⊢
    rw [List.any_eq_false] at hb ⊢
    intro f hf
    obtain ⟨y, hy, hp⟩ := hst.flights f hf
    rw [hp]
    exact hb y hy
  rw [if_neg (by rw [hmq, hbusy]; decide)] at hexec
  obtain ⟨g1, hg1, h1, h2, h3, h4, h5⟩ := hst.gang
  have hctx : e.ctx g.ctx = _ := hst.ctx
  unfold State.refund at hctx
  rw [State.ctx_modCtx_same] at hctx
  have hfree : e.freeYield g1.ctx = some r := by
    rw [h1, ← hr]
    unfold State.freeYield State.yieldCount
    rw [hctx, hst.reg _ (by simp only [yieldBlock, counterBlock, devBase]; omega)]
  obtain ⟨hset, hused, hib, htb, g', hg', hloc, hspec⟩ := State.yieldLeave_queues hg1 hfree hst.settled
  rw [State.pump_settled hset] at hexec
  rw [h1] at hused hib htb
  rw [hctx] at hib htb
  refine ⟨_, g', hexec, hg', by rw [hloc, hst.clock], ?_, ?_, ?_, hused, hib, htb⟩
  · rw [hspec, h4]
  · rw [hspec, h4]
  · rw [hspec, h4, h5]

end Sys2Proof.Machine
end

section
/-! PROOFS. Full saves and restores (R347, R349, R351, R353), and the statement on the residence of gangs. -/

namespace Sys2Proof.Machine

/-! ## Bytes of a save region -/

theorem leBytes_length (n v : Nat) : (leBytes n v).length = n := by
  induction n generalizing v with
  | zero => rfl
  | succ n ih => rw [leBytes, List.length_cons, ih]

theorem word32s_length (l : List Word32) : (word32s l).length = 4 * l.length := by
  induction l with
  | nil => rfl
  | cons w l ih =>
    rw [show word32s (w :: l) = leBytes 4 w.toNat ++ word32s l from rfl, List.length_append, leBytes_length, ih, List.length_cons]
    omega

/-- The bytes of the k-th word. -/
theorem word32s_getD (l : List Word32) {k i : Nat} (hk : k < l.length) (hi : i < 4) :
    (word32s l).getD (4 * k + i) 0 = (leBytes 4 (l.getD k 0).toNat).getD i 0 := by
  induction l generalizing k with
  | nil => cases hk
  | cons w l ih =>
    have hlen : (leBytes 4 w.toNat).length = 4 := leBytes_length ..
    rw [show word32s (w :: l) = leBytes 4 w.toNat ++ word32s l from rfl]
    cases k with
    | zero => rw [List.getD_append _ _ _ _ (by omega), List.getD_cons_zero, Nat.mul_zero, Nat.zero_add]
    | succ k =>
      rw [List.getD_append_right _ _ _ _ (by omega), List.getD_cons_succ, hlen, show 4 * (k + 1) + i - 4 = 4 * k + i by omega]
      exact ih (Nat.lt_of_succ_lt_succ hk)

theorem regionV_getD (g : Gang) {k i : Nat} (hk : k < 4096) (hi : i < 4) : (regionV g).getD (4 * k + i) 0 = (leBytes 4 (g.regs.v.get k).toNat).getD i 0 := by
  unfold regionV
  rw [word32s_getD _ (by simpa using hk) hi]
  simp [hk]

theorem regionV_length (g : Gang) : (regionV g).length = 16384 := by
  unfold regionV
  rw [word32s_length]
  simp

/-! ## The regions are written (R348, R349) -/

/-- What the path's writes of a list leave at an address, whatever lay there before. -/
def finalByte (l : List PathWrite) (p : Path) (x : Nat) (b : Byte) : Prop := ∀ b0, (l.foldl (PathWrite.over p x) b0).1 = b

theorem finalByte_pathByte {s : State} {p : Path} {x : Nat} {b : Byte} (h : finalByte s.paths p x b) : (s.pathByte p x).1 = b := h _

theorem State.deviceWrite_over (s : State) (c pa : Nat) (bs : List Byte) (x : Nat) (b0 : Byte × Bool) :
    (s.deviceWrite c pa bs).paths.foldl (PathWrite.over .host x) b0 =
      if pa ≤ x ∧ x < pa + bs.length then (bs.getD (x - pa) 0, false) else s.paths.foldl (PathWrite.over .host x) b0 := by
  unfold State.deviceWrite
  rw [State.pathWrite_paths, List.foldl_append]
  refine (over_runsOf .host x { path := .host, cmd := s.next, pa := 0, data := [], poison := false, asker := { tenant := s.tenantOf c } } pa bs _).trans ?_
  rw [PathWrite.over_eq]
  exact if_congr (by simp) rfl rfl

/-- The three regions that follow the share and the accumulators. -/
def State.putSave (s : State) (c base : Nat) (v shadow image : List Byte) : State :=
  [(0, v), (0x28000, shadow), (0x28800, image)].foldl (fun st x => st.deviceWrite c (base + x.1) x.2) s

theorem State.putSave_eq (s : State) (c base : Nat) (v shadow image : List Byte) : s.putSave c base v shadow image =
    ((s.deviceWrite c base v).deviceWrite c (base + 0x28000) shadow).deviceWrite c (base + 0x28800) image := by
  simp only [State.putSave, List.foldl_cons, List.foldl_nil, Nat.add_zero]

theorem State.putSave_seen (s : State) (c base : Nat) {v shadow image : List Byte} (hv : v.length ≤ 0x28000) {i : Nat} (hi : i < v.length) :
    finalByte (s.putSave c base v shadow image).paths .host (base + i) (v.getD i 0) := by
  intro b0
  rw [State.putSave_eq, State.deviceWrite_over, if_neg (by omega), State.deviceWrite_over, if_neg (by omega), State.deviceWrite_over, if_pos (by omega), Nat.add_sub_cancel_left]

theorem State.remonitored_deviceWrite (s : State) (c pa : Nat) (bs : List Byte) : s.Remonitored (s.deviceWrite c pa bs) := State.remonitored_pathWrite ..

theorem State.remonitored_putSave (s : State) (c base : Nat) (v shadow image : List Byte) : s.Remonitored (s.putSave c base v shadow image) :=
  s.putSave_eq c base v shadow image ▸ ((s.remonitored_deviceWrite ..).trans (State.remonitored_deviceWrite ..)).trans (State.remonitored_deviceWrite ..)

theorem State.remonitored_saveStores (s : State) (c core slot : Nat) : s.Remonitored (s.saveStores c core slot) := by
  have hsave : ∀ (t : State) pa bs bad, t.Remonitored (t.deviceSave c pa bs bad) := fun t pa bs bad =>
    foldl_inv t.Remonitored _ (fun _ _ h => h.trans (State.remonitored_pathWrite ..)) _ _ (t.remonitored_deviceWrite c pa bs)
  exact (hsave s _ _ _).trans (hsave _ _ _ _)

/-! ## A full save (R347, R351) -/

/-- A gang whose results have landed: new registers, control state and marks of landing. -/
def Gang.withLanded (g : Gang) (r : Regs) (c : Ctl) (p : List PendWrite) (l : List PendWrite) : Gang :=
  { g with regs := r, ctl := c, pend := p, iss := { g.iss with ghosts := l } }

theorem Gang.landTo_keeps (g : Gang) (n : Nat) : ∃ r c p l, g.landTo n = g.withLanded r c p l := by
  unfold Gang.landTo
  extract_lets due ordered g1
  obtain ⟨r, c, h⟩ : ∃ r c, g1 = { g with regs := r, ctl := c } := ⟨_, _, Gang.putAll_frame ..⟩
  clear_value g1
  subst h
  exact ⟨r, c, _, _, rfl⟩

theorem Gang.landAll_keeps (g : Gang) : ∃ r c p l, g.landAll = g.withLanded r c p l := by
  obtain ⟨r, c, p, l, h⟩ := g.landTo_keeps (g.pend.foldl (fun m p => max m p.land) 0)
  unfold Gang.landAll
  rw [h]
  exact ⟨r, c, p, _, rfl⟩

theorem Gang.settle_keeps (g : Gang) : ∃ r c p l, g.settle = g.withLanded r c p l := by
  obtain ⟨r, c, p, l, h⟩ := Gang.landAll_keeps { g with pend := g.pend.map PendWrite.release }
  exact ⟨r, c, p, l, h⟩

/-- A gang that has been saved. -/
def Gang.saved (loc : Loc) (tiles : SMap Tile) (flags : SMap (BitVec 16)) (g : Gang) : Gang :=
  { g with loc := loc, heldFor := (match g.loc with | .held l => some l | _ => none), keptTiles := tiles, keptFlags := flags }

/-- The state in which the regions of a save stand written. -/
def State.regionsOut (s : State) (g : Gang) : State := (((s.setGang g).mergeShare g.gcore g.slot).writeSave g).dropGroup g.uid

theorem State.writeSave_eq (s : State) (g : Gang) : ∃ sh im, s.writeSave g =
    { ((s.saveStores g.ctx g.gcore g.slot).putSave g.ctx (s.saveBase g) (regionV g) sh im).modGang g.uid (Gang.imaged im) with draw := s.draw + 1 } := by
  unfold State.writeSave
  extract_lets b sreg image put src
  refine ⟨regionShadow g s.draw, image, ?_⟩
  have hsrc : src = ((s.saveStores g.ctx g.gcore g.slot).putSave g.ctx b (regionV g) (regionShadow g s.draw) image).modGang g.uid (Gang.imaged image) := rfl
  rw [hsrc]

theorem State.saveGang_eq {s : State} {uid : Nat} {g0 : Gang} (hg : s.gang? uid = some g0) (loc : Loc) : ∃ tiles flags, s.saveGang uid loc false =
    ((((s.regionsOut g0.settle).modGang uid (Gang.saved loc tiles flags)).clearTiles g0.settle.gcore g0.settle.slot).clearMarks g0.settle).closeWindow g0.settle := by
  have hu : g0.settle.uid = uid := by
    obtain ⟨r, c, p, l, h⟩ := g0.settle_keeps
    exact (congrArg Gang.uid h).trans (show g0.uid = uid from State.gang?_uid hg)
  subst hu
  unfold State.saveGang
  rw [hg]
  exact ⟨_, _, rfl⟩

/-- The regions of a save: v0 to v127 of every strand stand in the first. -/
theorem State.regionsOut_keeps {s : State} {g x : Gang} (hg : s.gang? g.uid = some x) (hr : g.atRest = true) (hs : s.settled = true) :
    (s.regionsOut g).settled = true ∧ (∀ i < 16384, finalByte (s.regionsOut g).paths .host (s.saveBase g + i) ((regionV g).getD i 0)) ∧
      ∃ i m l, (s.regionsOut g).gang? g.uid = some { g with iss := i, monitor := m, image := l } := by
  have h1 : (s.setGang g).gang? g.uid = some g := State.gang?_setGang_same hg
  have hs1 : (s.setGang g).settled = true := by
    obtain ⟨h1, h2⟩ := (State.settled_iff s).1 hs
    refine (State.settled_iff _).2 ⟨h1, fun y hy => ?_⟩
    obtain ⟨z, hz, rfl⟩ := List.mem_map.1 hy
    split
    · exact hr
    · exact h2 z hz
  have h2 : ((s.setGang g).mergeShare g.gcore g.slot).gang? g.uid = some g :=
    (State.mergeSpad_frame (fun s => s.gang? g.uid) (fun _ _ => rfl) (fun _ _ => rfl) (s.setGang g) _ _).trans h1
  have hs2 : ((s.setGang g).mergeShare g.gcore g.slot).settled = true :=
    (State.mergeSpad_frame State.settled (fun _ _ => rfl) (fun _ _ => rfl) (s.setGang g) _ _).trans hs1
  have hb2 : ((s.setGang g).mergeShare g.gcore g.slot).saveBase g = s.saveBase g :=
    State.mergeSpad_frame (fun s => s.saveBase g) (fun _ _ => rfl) (fun _ _ => rfl) (s.setGang g) _ _
  unfold State.regionsOut
  generalize (s.setGang g).mergeShare g.gcore g.slot = a at h2 hs2 hb2
  obtain ⟨sh, im, hw⟩ := a.writeSave_eq g
  have hrem := (a.remonitored_saveStores g.ctx g.gcore g.slot).trans (State.remonitored_putSave _ g.ctx (a.saveBase g) (regionV g) sh im)
  have hseen : ∀ i < 16384, finalByte ((a.saveStores g.ctx g.gcore g.slot).putSave g.ctx (a.saveBase g) (regionV g) sh im).paths .host (s.saveBase g + i) ((regionV g).getD i 0) := fun i hi => by
    rw [← hb2]
    exact State.putSave_seen _ _ _ (by rw [regionV_length]; decide) (by rw [regionV_length]; exact hi)
  rw [hw]
  generalize (a.saveStores g.ctx g.gcore g.slot).putSave g.ctx (a.saveBase g) (regionV g) sh im = b at hrem hseen
  obtain ⟨m, hm⟩ := hrem.gang? h2
  have hs3 := hrem.settled hs2
  have h3 : ({ b.modGang g.uid (Gang.imaged im) with draw := a.draw + 1 } : State).gang? g.uid = some ((g.monitored m).imaged im) :=
    State.gang?_modGang_same (s := b) (Gang.imaged im) (fun _ => rfl) hm
  have hs4 : ({ b.modGang g.uid (Gang.imaged im) with draw := a.draw + 1 } : State).settled = true := State.settled_modGang (s := b) g.uid (fun _ h => h) hs3
  obtain ⟨gr, gf, h4⟩ := State.gang?_dropGroup h3
  have hp : (({ b.modGang g.uid (Gang.imaged im) with draw := a.draw + 1 } : State).dropGroup g.uid).paths = b.paths :=
    State.dropGroup_frame State.paths (fun _ _ => rfl) (fun _ _ => rfl) _ _
  exact ⟨State.settled_dropGroup g.uid hs4, fun i hi => by rw [hp]; exact hseen i hi, _, m, im, h4⟩

theorem fullSave_writes {s : State} {uid : Nat} {g : Gang} (hg : s.gang? uid = some g) (ha : s.admits g.ctx = false) (hl : g.loc = .resident)
    (hv : (s.failTiles g.gcore g.slot).saveable g = true) (hf : (s.core g.gcore).frozen = false) (hs : s.settled = true) :
    ∃ t g', exec (.fullSave uid) s = .next t ∧ t.gang? uid = some g' ∧ g'.loc = .saved ∧ (∀ w ∈ (t.core g.gcore).wins, w ≠ (g.ctx, g.window)) ∧
      ∀ k < 4096, ∀ i < 4, (t.pathByte .host (s.saveBase g + 4 * k + i)).1 = (leBytes 4 (g.settle.regs.v.get k).toNat).getD i 0 := by
  have hexec : execFullSave uid s = .next ((s.failTiles g.gcore g.slot).saveGang uid .saved false).pump := by
    have hin : g.inSlot = true := by rw [Gang.inSlot, hl]
    unfold execFullSave
    rw [hg]
    dsimp only
    rw [if_neg (by rw [ha, hin, hf]; decide), if_pos hv]
  have hg1 : (s.failTiles g.gcore g.slot).gang? uid = some g := hg
  have hs1 : (s.failTiles g.gcore g.slot).settled = true := hs
  have hb1 : (s.failTiles g.gcore g.slot).saveBase g.settle = s.saveBase g := by
    obtain ⟨r, c, p, l, h⟩ := g.settle_keeps
    rw [h]
    rfl
  obtain ⟨tiles, flags, heq⟩ := State.saveGang_eq hg1 .saved
  obtain ⟨r, c, p, l, hset⟩ := g.settle_keeps
  have hrest : g.settle.atRest = true := by
    rw [hset]
    exact ((State.settled_iff s).1 hs).2 g (State.gang?_mem hg)
  have hu : g.settle.uid = uid := by
    exact (congrArg Gang.uid hset).trans (show g.uid = uid from State.gang?_uid hg)
  obtain ⟨hs2, hseen, i, m, im, hg2⟩ := State.regionsOut_keeps (g := g.settle) (by rw [hu]; exact hg1) hrest hs1
  rw [hb1] at hseen
  rw [heq] at hexec
  generalize (s.failTiles g.gcore g.slot).regionsOut g.settle = o at hexec hs2 hseen hg2
  rw [hu] at hg2
  have hg3 : ((o.modGang uid (Gang.saved .saved tiles flags)).clearTiles g.settle.gcore g.settle.slot).gang? uid = some _ :=
    State.gang?_modGang_same (s := o) (Gang.saved .saved tiles flags) (fun _ => rfl) hg2
  have hs3 : ((o.modGang uid (Gang.saved .saved tiles flags)).clearTiles g.settle.gcore g.settle.slot).settled = true :=
    State.settled_modGang (s := o) uid (fun _ h => h) hs2
  have hp3 : ((o.modGang uid (Gang.saved .saved tiles flags)).clearTiles g.settle.gcore g.settle.slot).paths = o.paths := rfl
  generalize (o.modGang uid (Gang.saved .saved tiles flags)).clearTiles g.settle.gcore g.settle.slot = q at hexec hg3 hs3 hp3
  have hg4 := (State.clearMarks_frame (fun s => s.gang? uid) (fun _ _ _ _ => rfl) q g.settle).trans hg3
  have hs4 := (State.clearMarks_frame State.settled (fun _ _ _ _ => rfl) q g.settle).trans hs3
  have hp4 := (State.clearMarks_frame State.paths (fun _ _ _ _ => rfl) q g.settle).trans hp3
  generalize q.clearMarks g.settle = w at hexec hg4 hs4 hp4
  have hend : (w.closeWindow g.settle).settled = true := hs4
  rw [State.pump_settled hend] at hexec
  refine ⟨_, _, hexec, hg4, rfl, fun y hy => ?_, fun k hk j hj => ?_⟩
  · have hcore : ((w.closeWindow g.settle).core g.gcore).wins = (w.core g.gcore).wins.filter (fun y => !(y.1 == g.ctx && y.2 == g.window)) := by
      rw [hset]
      exact congrArg Core.wins (State.core_modCore_same ..)
    rw [hcore] at hy
    rintro rfl
    simpa using (List.mem_filter.1 hy).2
  · rw [← regionV_getD g.settle hk hj, Nat.add_assoc]
    refine finalByte_pathByte ?_
    show finalByte w.paths _ _ _
    rw [hp4]
    exact hseen (4 * k + j) (by omega)

/-! ## A full restore (R347, R353) -/

/-- A gang whose registers, shadow and points of continuation have been read back. -/
def Gang.readIn (g : Gang) (sp : Spec) (sh : Shadow) (r : Regs) : Gang := { g with spec := sp, shadow := sh, regs := r }

/-- A gang that is in a slot again, at generation n of it. -/
def Gang.restored (s : State) (n : BitVec 2) (x : Gang) : Gang :=
  { x with
    iss := { x.iss with dlDue := dlReached s.clock.t x.spec.dl && !s.replaying x.ctx, stopped := false }
    loc := (match x.heldFor with | some l => .held l | none => .resident)
    heldFor := none
    gen := n
    placed := s.clock.t
    keptTiles := []
    keptFlags := [] }

theorem Gang.restored_uid (s : State) (n : BitVec 2) (x : Gang) : (x.restored s n).uid = x.uid := rfl

/-- The core has the gang's window among those in use. -/
def Core.lists (g : Gang) (c : Core) : Bool := c.wins.any (fun w => w.1 == g.ctx && w.2 == g.window)

/-- A core that has a gang's tiles, flags and window back. -/
def Core.regained (g : Gang) (stays : Bool) (c : Core) : Core :=
  { c with
    tiles := g.keptTiles.foldl (fun m t => SMap.set m t.1 t.2) c.tiles
    wins := if stays || g.window.size = 0 then c.wins else c.wins ++ [(g.ctx, g.window)]
    flags := g.keptFlags.foldl (fun m f => SMap.set m f.1 f.2) c.flags }

/-- The state u, read from a save, in which a gang is in its slot again. -/
def State.regained (s u : State) (g : Gang) (stays : Bool) : State :=
  { (((u.modGang g.uid (Gang.restored s (u.nextGen g.gcore g.slot))).setGen g.gcore g.slot).modCore g.gcore (Core.regained g stays)) with draw := s.draw + 8 }

/-- A core that regains a gang has its window among those in use. -/
theorem Core.mem_regained_wins {g : Gang} {c : Core} (h : g.window.size ≠ 0) :
    (g.ctx, g.window) ∈ (c.regained g (c.lists g)).wins := by
  by_cases hs : c.lists g = true
  · obtain ⟨⟨x, w⟩, hw, he⟩ := List.any_eq_true.1 hs
    obtain ⟨rfl, rfl⟩ : x = g.ctx ∧ w = g.window := by simpa using he
    rw [hs]
    exact hw
  · rw [Core.regained, if_neg (by simp [hs, h])]
    exact List.mem_append_right _ (List.mem_singleton.2 rfl)

theorem State.regained_wins (s u : State) (g : Gang) (stays : Bool) :
    ((s.regained u g stays).core g.gcore).wins = ((u.core g.gcore).regained g stays).wins := by
  have hgen : ((u.setGen g.gcore g.slot).core g.gcore).wins = (u.core g.gcore).wins := by
    unfold State.setGen
    rw [State.core_modCore_same]
  have hcore := congrArg Core.wins (State.core_modCore_same (u.setGen g.gcore g.slot) g.gcore (Core.regained g stays))
  refine Eq.trans hcore ?_
  simp only [Core.regained, hgen]

theorem State.regained_gang? (s : State) {u : State} {g x : Gang} (stays : Bool) (h : u.gang? g.uid = some x) :
    (s.regained u g stays).gang? g.uid = some (x.restored s (u.nextGen g.gcore g.slot)) :=
  State.gang?_modGang_same (s := u) (Gang.restored s (u.nextGen g.gcore g.slot)) (fun y => Gang.restored_uid s _ y) h

/-- A gang with no parked access is not replayed. -/
theorem State.replayWhere_unparked {s : State} (pick : Gang → Bool) (h : ∀ x ∈ s.gangs, x.park = none) : s.replayWhere pick = s := by
  refine foldl_id _ _ s (fun g _ => ?_)
  cases hx : s.gang? g.uid with
  | none => rfl
  | some x => simp only [h x (State.gang?_mem hx)]

theorem State.walked_countRead (s : State) (ctx pa n : Nat) : s.Walked (s.countRead ctx pa n) := by
  refine foldl_inv s.Walked _ (fun st i hst => ?_) _ s (.refl s)
  split
  · exact hst.trans (st.walked_touch2 _ _)
  · exact hst

theorem State.readPoints_keeps (s : State) (g : Gang) (base : Nat) : ∃ sp, s.readPoints g base = g.readIn sp g.shadow g.regs := ⟨_, rfl⟩

/-- A save read back gives the gang its registers, and parks nothing. -/
theorem State.readSave_keeps {s t : State} {g x : Gang} {sp : Spec} (ht : s.readSave (g.readIn sp g.shadow g.regs) = t) (hg : s.gang? g.uid = some x)
    (hp : ∀ y ∈ s.gangs, y.park = none) :
    (∃ sh r, t.gang? g.uid = some (g.readIn sp sh r)) ∧ (t.core g.gcore).wins = (s.core g.gcore).wins ∧ (g.park = none → ∀ y ∈ t.gangs, y.park = none) := by
  subst ht
  unfold State.readSave
  extract_lets b vs g1 regs g2
  obtain ⟨sh, r, hg2⟩ : ∃ sh r, g2 = g.readIn sp sh r := ⟨_, _, rfl⟩
  clear_value g2
  subst hg2
  have hslot : ((s.readSlot b g.gcore g.slot).core g.gcore).wins = (s.core g.gcore).wins := by
    unfold State.readSlot
    rw [State.core_modCore_same]
  have hgs : (s.readSlot b g.gcore g.slot).gangs = s.gangs := rfl
  have hg1 : (s.readSlot b g.gcore g.slot).gang? g.uid = some x := hg
  have hw := ((s.readSlot b g.gcore g.slot).setGang (g.readIn sp sh r)).walked_countRead g.ctx b 0x29000
  refine ⟨⟨sh, r, (hw.gang? _).trans (State.gang?_setGang_same hg1)⟩, ?_, fun hk y hy => ?_⟩
  · exact Eq.trans (congrArg (fun l => (SMap.get l g.gcore {}).wins) hw.cores) hslot
  · have hy' := hw.gangs ▸ hy
    obtain ⟨z, hz, rfl⟩ := List.mem_map.1 hy'
    split
    · exact hk
    · exact hp z (hgs ▸ hz)

/-- A restore from a region that reads whole and unchanged. -/
theorem State.restoreGang_eq {s : State} {g : Gang} (ho : s.occupied g.gcore g.slot = false)
    (hroom : ∀ w ∈ (s.core g.gcore).wins, w.2.base + w.2.size ≤ g.window.base ∨ g.window.base + g.window.size ≤ w.2.base)
    (hd : s.devicePoison (s.saveBase g + 0x28800) 2048 = false) (ha : s.altered (s.saveBase g + 0x28800) g = false) :
    ∃ sp, s.restoreGang g = some ((s.regained (s.readSave (g.readIn sp g.shadow g.regs)) g ((s.core g.gcore).lists g)).replayAll g.ctx) := by
  have hall : (s.core g.gcore).wins.all (fun w => decide (w.2.base + w.2.size ≤ g.window.base) || decide (g.window.base + g.window.size ≤ w.2.base)) = true :=
    List.all_eq_true.2 fun w hw => by simpa using hroom w hw
  obtain ⟨sp, hpoints⟩ := s.readPoints_keeps g (s.saveBase g + 0x28800)
  refine ⟨sp, ?_⟩
  rw [← hpoints]
  unfold State.restoreGang
  extract_lets c stays room region dead u s2 s3 s4
  have hroom' : room = true := by
    simp only [room, c, hall, Bool.or_true]
  rw [if_neg (by rw [ho, hroom']; decide), if_neg (by rw [show dead = false from hd]; decide)]
  have h2 : s2 = u.modGang g.uid (Gang.restored s (u.nextGen g.gcore g.slot)) :=
    congrArg (u.modGang g.uid) (funext fun x => if_neg (by rw [show s.altered region g = false from ha]; decide))
  have h3 : s3 = ((u.modGang g.uid (Gang.restored s (u.nextGen g.gcore g.slot))).setGen g.gcore g.slot).modCore g.gcore (Core.regained g stays) := by
    rw [← h2]
    rfl
  show some (State.replayAll { s3 with draw := s.draw + 8 } g.ctx) = _
  rw [h3]
  rfl

/-- The gang is in its slot again, with its window. -/
theorem State.regained_returns {s u : State} {g : Gang} {sp : Spec} {sh : Shadow} {r : Regs} (hu : u.gang? g.uid = some (g.readIn sp sh r))
    (hw : (u.core g.gcore).wins = (s.core g.gcore).wins) (hp : ∀ y ∈ u.gangs, y.park = none) (hh : g.heldFor = none) :
    ∃ g', ((s.regained u g ((s.core g.gcore).lists g)).replayAll g.ctx).gang? g.uid = some g' ∧ g'.loc = .resident ∧
      g'.cluster = g.cluster ∧ g'.core = g.core ∧ g'.slot = g.slot ∧ g'.window = g.window ∧ g'.pc = g.pc ∧ (g.window.size ≠ 0 → (g.ctx, g.window) ∈
        (((s.regained u g ((s.core g.gcore).lists g)).replayAll g.ctx).core g.gcore).wins) := by
  have hunparked : ∀ stays, ∀ y ∈ (s.regained u g stays).gangs, y.park = none := fun stays y hy => by
    obtain ⟨z, hz, rfl⟩ := List.mem_map.1 hy
    split
    · exact hp z hz
    · exact hp z hz
  rw [State.replayAll, State.replayWhere_unparked _ (hunparked _)]
  refine ⟨_, s.regained_gang? _ hu, ?_, rfl, rfl, rfl, rfl, rfl, fun hsize => ?_⟩
  · show (match g.heldFor with | some l => Loc.held l | none => .resident) = .resident
    rw [hh]
  · have hlists : (s.core g.gcore).lists g = (u.core g.gcore).lists g := by rw [Core.lists, Core.lists, hw]
    rw [State.regained_wins, hlists]
    exact Core.mem_regained_wins hsize

theorem fullRestore_returns {s : State} {uid : Nat} {g : Gang} (hg : s.gang? uid = some g) (hl : g.loc = .saved) (ha : s.admits g.ctx = true)
    (hw : s.worlds.leaving = none) (ho : s.occupied g.gcore g.slot = false)
    (hroom : ∀ w ∈ (s.core g.gcore).wins, w.2.base + w.2.size ≤ g.window.base ∨ g.window.base + g.window.size ≤ w.2.base)
    (hd : s.devicePoison (s.saveBase g + 0x28800) 2048 = false) (hh : g.heldFor = none) (hs : s.altered (s.saveBase g + 0x28800) g = false)
    (hp : ∀ x ∈ s.gangs, x.park = none) :
    ∃ t g', exec (.fullRestore uid) s = .next t ∧ t.gang? uid = some g' ∧ g'.loc = .resident ∧ g'.cluster = g.cluster ∧ g'.core = g.core ∧ g'.slot = g.slot ∧
      g'.window = g.window ∧ g'.pc = g.pc ∧ (g.window.size ≠ 0 → (g.ctx, g.window) ∈ (t.core g.gcore).wins) := by
  obtain rfl : g.uid = uid := State.gang?_uid hg
  have hexec : exec (.fullRestore g.uid) s = .next ((s.restoreGang g).getD s) := by
    show execFullRestore g.uid s = _
    unfold execFullRestore
    simp only [hg, hl, ha, State.leftWorld, hw, Option.all_none, Bool.and_self, if_true]
  obtain ⟨sp, hback⟩ := State.restoreGang_eq ho hroom hd hs
  rw [hback, Option.getD_some] at hexec
  obtain ⟨⟨sh, r, hu⟩, hwins, hpark⟩ := State.readSave_keeps (sp := sp) rfl hg hp
  exact ⟨_, (State.regained_returns hu hwins (hpark (hp g (State.gang?_mem hg))) hh).imp fun _ h => ⟨hexec, h⟩⟩

/-- Settles O53: each clause by the lemma on its event. -/
theorem residenceEvents : Obligations.ResidenceEvents := by
  unfold Obligations.ResidenceEvents
  refine ⟨?yield, ?record, ?save, ?restore, ?place, ?switch, ?slice⟩
  case yield => exact fun _ _ _ _ hg hy hn hf hs hm hc hq hb hr => yieldSequence_queues hg hy hn hf hs hm hc hq hb hr
  case record => exact fun _ _ _ _ hg hl hy he hs hf hm hb hr => yieldRecordFreed_queues hg hl hy he hs hf hm hb hr
  case save => exact fun _ _ _ hg ha hl hv hf hs => fullSave_writes hg ha hl hv hf hs
  case restore => exact fun _ _ _ hg hl ha hw ho hroom hd hh hs hp => fullRestore_returns hg hl ha hw ho hroom hd hh hs hp
  case place => exact fun _ _ _ _ _ _ _ _ _ hw hs hp hg hc hk hl => waiterPlacement_starts hw hs hp hg hc hk hl
  case switch => exact fun _ _ _ _ hl hc ht hd ha hb hab => worldSwitch_stops hl hc ht hd ha hb hab
  case slice => exact fun _ _ _ _ hv hw => sliceWrite_recomputes hv hw

end Sys2Proof.Machine
end

section
/-! PROOFS. The integer instructions, the moves and MFS (R192 to R209). -/

namespace Sys2Proof.Machine

/-- An instruction whose meaning is one result field in each executing strand, without flags, completes: its frame. -/
theorem run_each_plain {i : Instr} {m : Sem} {s : State} {g : Gang} {d : Reg} {w : OpW} (h : Issues s g i) (hp : g.regs.poison = [])
    (hct : m.ct (simtEnv s g i) = 0) (xs : List Src) (v : Nat → BitVec 128)
    (hop : m.op (simtEnv s (g.charge (ciOf i.maj) 0) i) = (simtEnv s (g.charge (ciOf i.maj) 0) i).each xs
      (fun st => ((simtEnv s (g.charge (ciOf i.maj) 0) i).dst d w st (v st), 0))) :
    ∃ t g', run i m s = .next t ∧ t.gang? g.uid = some g' ∧ g'.pc = g.pc + 8 ∧ Leaves g g' i 0 ∧ WroteOnly g g' i d w ∧ g'.ctl.fx = g.ctl.fx := by
  obtain ⟨t, g', hr, hg, hpc, hl, hw, _, q, hfx, hq⟩ := run_each h hp hct xs v (fun _ => 0) hop
  exact ⟨t, g', hr, hg, hpc, hl, hw, by rw [hfx, hq fun _ => rfl, fxSet_zero]⟩

/-- MOVI gives an s-register 64 bits and a v-register 32 (R203). -/
theorem semMovi_op (h : Hd) (x : IF) {e : Env} (he : e.place = .simt) : (semMovi h x).op e =
    e.each [] (fun st => (e.dst x.d (if 128 ≤ x.d.toNat then .w64 else .w32) st ((simm x).setWidth 128), 0)) := by
  simp [semMovi, he, wideColumn]

/-- Settles O8: each of these instructions gives one field a value in each executing strand. -/
theorem integerCompletes : Obligations.IntegerCompletes := by
  intro s g i d w hd h hp
  unfold intDest at hd
  split at hd
  case h_49 => cases hd; exact run_each_plain h hp rfl _ _ (semMovi_op _ _ rfl)
  case h_54 => cases hd
  all_goals
    cases hd
    exact run_each_plain h hp rfl _ _ rfl

end Sys2Proof.Machine
end

section
/-! PROOFS. Traps of an issue (R57, R61, R76, R175, R275, R341, R342, R344): entering the handler, waiting for results, and nested traps. -/

namespace Sys2Proof.Machine

/-! ## The record of a trap (R336) -/

/-- The fields of tinfo for a trap of no bundle. -/
theorem packTinfo_simt {t : TrapInfo} (vliw : Bool) (depth : Nat) (hcause : t.cause < 256) (hcode : t.code < 65536) (hslot : t.pslot = 0)
    (hstep : t.step = 0) (hbnd : t.bnd = false) :
    bits64 (packTinfo t vliw depth) 47 32 = t.code ∧ bits64 (packTinfo t vliw depth) 52 48 = depth % 32 ∧ (packTinfo t vliw depth).getLsbD 16 = vliw := by
  have hn : (packTinfo t vliw depth).toNat = (t.cause + (if vliw then 2 ^ 16 else 0) + t.code * 2 ^ 32 + depth * 2 ^ 48) % 2 ^ 64 := by
    unfold packTinfo
    rw [BitVec.toNat_ofNat, hslot, hstep, hbnd]
    simp
  refine ⟨?_, ?_, ?_⟩
  · unfold bits64 field
    rw [hn]
    cases vliw <;> simp <;> omega
  · unfold bits64 field
    rw [hn]
    cases vliw <;> simp <;> omega
  · rw [← BitVec.testBit_toNat, hn, Nat.testBit_eq_decide_div_mod_eq]
    cases vliw <;> simp <;> omega

/-! ## Entering a trap (R341) -/

/-- A gang whose trap is entered has taken that trap, with what the record tells of it. -/
theorem Gang.trapped_takes {s : State} {g : Gang} {t : TrapInfo} {at_ npc : Word64} {el : Nat} (i : Issue) (b : Bool) (l : BitVec 16)
    (hcause : t.cause < 256) (hcode : t.code < 65536) (hslot : t.pslot = 0) (hstep : t.step = 0) (hbnd : t.bnd = false) (hat : at_ = g.pc) :
    Trapped s g (({ g with iss := i, lostStore := b, loss := l, park := none } : Gang).trapped (s.ctx g.ctx).tvec t at_ npc el) t.cause t.code t.taddr
      (if t.after then npc else g.pc) := by
  obtain ⟨h1, h2, h3⟩ := packTinfo_simt g.ctl.vliw g.ctl.stack.length hcause hcode hslot hstep hbnd
  subst hat
  exact ⟨rfl, rfl, packTinfo_cause t _ _ hcause, h1, h2, h3, rfl, rfl, rfl, rfl, rfl, rfl⟩

/-- A gang with no result under way, at user level and with a vector, enters its trap at once. -/
theorem State.takeTrap_enters {s : State} {u : Nat} {t : TrapInfo} {at_ npc : Word64} {g : Gang} (hg : s.gang? u = some g) (hc : t.cause ≠ causePoison)
    (hd : g.ctl.tdepth = 0) (hv : (s.ctx g.ctx).tvec ≠ 0) (hp : g.pend = []) (hr : s.resultsOut g.uid = false) :
    ∃ i b l, (s.takeTrap u t at_ npc).gang? u =
      some (({ g with iss := i, lostStore := b, loss := l, park := none } : Gang).trapped (s.ctx g.ctx).tvec t at_ npc s.clock.el) := by
  have hwait : s.trapWaits g = false := by simp [State.trapWaits, State.awaiting, hp, hr]
  have hentry : s.takeTrap u t at_ npc = s.enterTrap u t at_ npc := by
    unfold State.takeTrap
    rw [hg]
    exact if_neg (by rw [hwait]; decide)
  rw [hentry, State.enterTrap_eq hg hc hd hv]
  have h1 : (s.modGang u (Gang.atTrap s t)).gang? u = some (g.atTrap s t) := State.gang?_modGang_same (Gang.atTrap s t) (fun _ => rfl) hg
  have h2 : ({ (s.modGang u (Gang.atTrap s t)).count g 0x03 1 with note := .trapped t.cause } : State).gang? u = some (g.atTrap s t) :=
    (State.count_frame (fun s => s.gang? u) (fun _ _ => rfl) (fun _ _ _ _ => rfl) _ g 3 1).trans h1
  obtain ⟨b, d, h3⟩ := State.gang?_dropGroup h2
  obtain ⟨l, hl⟩ := Gang.landAll_idle (g := { g.atTrap s t with iss := { (g.atTrap s t).iss with group := b, groupFrom := d } }) hp
  refine ⟨{ g.iss with group := b, groupFrom := d, ghosts := l }, g.lostStore && !t.lost, (g.atTrap s t).loss,
    (State.gang?_modGang_same (fun x => x.landAll.trapped (s.ctx g.ctx).tvec t at_ npc s.clock.el) (fun x => ?_) h3).trans ?_⟩
  · simp [Gang.trapped, Gang.landAll, Gang.landTo]
  · rw [hl]
    rfl

/-- A gang that has results under way waits for them before its trap is entered. -/
theorem State.takeTrap_waits {s : State} {u : Nat} {t : TrapInfo} {at_ npc : Word64} {g : Gang} (hg : s.gang? u = some g)
    (hd : g.ctl.tdepth = 0) (hv : (s.ctx g.ctx).tvec ≠ 0) (hr : s.resultsOut g.uid = true) :
    (s.takeTrap u t at_ npc).gang? u = some { g with
      park := none
      iss := { g.iss with dueTrap := some { info := t, at_ := at_, npc := npc }, sealTo := none, cpmTo := none, splitTo := none, tretTo := none } } := by
  have hwait : s.trapWaits g = true := by simp [State.trapWaits, State.awaiting, hr, hd, show (s.ctx g.ctx).tvec ≠ 0#64 from hv]
  unfold State.takeTrap
  rw [hg]
  dsimp only
  rw [if_pos hwait]
  exact State.gang?_modGang_same (fun g => { g with
      park := none
      iss := { g.iss with dueTrap := some { info := t, at_ := at_, npc := npc }, sealTo := none, cpmTo := none, splitTo := none, tretTo := none } })
    (fun _ => rfl) hg

/-! ## A nested trap (R344) -/

/-- An entry in an error log leaves the error bits. -/
theorem State.log_err (s : State) (c k pa w d x : Nat) : ((s.log c k pa w d).ctx x).err = (s.ctx x).err := by
  have hmod : ∀ (t : State) (F : Ctx → Ctx), (∀ y, (F y).err = y.err) → ((t.modCtx c F).ctx x).err = (t.ctx x).err := fun t F hF => by
    by_cases hc : c = x
    · subst hc
      rw [State.ctx_modCtx_same, hF]
    · rw [State.ctx_modCtx_ne _ _ hc]
  unfold State.log
  dsimp only
  split
  · rfl
  · split
    · exact hmod s _ fun _ => rfl
    · generalize hq : State.pathWrite _ _ _ _ _ _ _ = q
      have hctxs : q.ctxs = s.ctxs := hq ▸ State.pathWrite_ctxs ..
      have h2 : ∀ F : Ctx → Ctx, (∀ y, (F y).err = y.err) → ((q.modCtx c F).ctx x).err = (s.ctx x).err := fun F hF =>
        (hmod q F hF).trans (by rw [State.ctx, hctxs, State.ctx])
      split
      · exact (State.fire_ctx Ctx.err (fun _ _ _ _ => rfl) ..).trans (h2 _ fun _ => rfl)
      · exact h2 _ fun _ => rfl

/-- A gang that is killed has exited, and its context's error bit is set. -/
theorem State.kill_ends {s : State} {u : Nat} {g : Gang} (hg : s.gang? u = some g) (cause : Nat) (at_ : Word64) (k : Nat) :
    ((s.kill u cause at_ true k).ctx g.ctx).err = true ∧
    ∃ g', (s.kill u cause at_ true k).gang? u = some g' ∧ g'.iss.killed = true ∧ g'.iss.exiting = true ∧ g'.ctl.nmask = 0 := by
  obtain ⟨l, h1⟩ := State.gang?_exitGang hg
  obtain ⟨b, d, h2⟩ := State.gang?_dropGroup h1
  have h3 := State.gang?_modGang_same (fun g => { g with iss := { g.iss with killed := true } }) (fun _ => rfl) h2
  unfold State.kill
  rw [hg]
  dsimp only
  rw [if_pos rfl]
  obtain ⟨g', h4, h5⟩ := State.gang?_passed (State.log_passed ((((s.exitGang u).dropGroup u).modGang u (fun g => { g with
    iss := { g.iss with killed := true } })).modCtx g.ctx (fun c => { c with err := true })) g.ctx k 0 g.code cause) h3
  refine ⟨(State.log_err _ g.ctx k 0 g.code cause g.ctx).trans (by rw [State.ctx_modCtx_same]), g', h4, ?_, ?_, ?_⟩
  · exact congrArg (fun x => x.iss.killed) h5
  · exact congrArg (fun x => x.iss.exiting) h5
  · exact congrArg (fun x => x.ctl.nmask) h5

/-- A trap at supervisor level, or without a vector, kills the gang. -/
theorem State.takeTrap_kills {s : State} {u : Nat} {t : TrapInfo} {at_ npc : Word64} {g : Gang} (hg : s.gang? u = some g) (hc : t.cause ≠ causePoison)
    (hn : g.ctl.tdepth ≠ 0 ∨ (s.ctx g.ctx).tvec = 0) :
    ((s.takeTrap u t at_ npc).ctx g.ctx).err = true ∧
    ∃ g', (s.takeTrap u t at_ npc).gang? u = some g' ∧ g'.iss.killed = true ∧ g'.iss.exiting = true ∧ g'.ctl.nmask = 0 := by
  have hwait : s.trapWaits g = false := by
    unfold State.trapWaits
    rcases hn with h | h
    · simp [h]
    · simp [show (s.ctx g.ctx).tvec = 0#64 from h]
  have hnest : (g.ctl.tdepth != 0 || (s.ctx g.ctx).tvec == 0) = true := by simpa using hn
  have hkill : s.takeTrap u t at_ npc = ({ (s.modGang u (Gang.atTrap s t)).count g 0x03 1 with note := .trapped t.cause } : State).kill u t.cause at_ true := by
    unfold State.takeTrap
    rw [hg]
    dsimp only
    rw [if_neg (by rw [hwait]; decide)]
    unfold State.enterTrap
    rw [hg]
    dsimp only
    simp only [show (t.cause == causePoison) = false from beq_eq_false_iff_ne.2 hc, Bool.false_eq_true, if_false]
    exact if_pos hnest
  rw [hkill]
  have h1 : (s.modGang u (Gang.atTrap s t)).gang? u = some (g.atTrap s t) := State.gang?_modGang_same (Gang.atTrap s t) (fun _ => rfl) hg
  exact State.kill_ends (s := { (s.modGang u (Gang.atTrap s t)).count g 0x03 1 with note := .trapped t.cause }) (g := g.atTrap s t) ((State.count_frame (fun s => s.gang? u) (fun _ _ => rfl) (fun _ _ _ _ => rfl) _ g 3 1).trans h1) ..

/-! ## An issue that traps (R61, R410) -/

/-- An instruction whose charge fits and whose meaning is a trap. -/
theorem run_traps {i : Instr} {m : Sem} {s : State} {g : Gang} {t : TrapInfo} (h : Issues s g i) (hct : m.ct (simtEnv s g i) = 0)
    (hop : m.op (simtEnv s (g.charge (ciOf i.maj) 0) i) = .trap t) : run i m s = .next (s.chargedTrap g (ciOf i.maj) 0 t g.pc (g.pc + 8)) := by
  rw [run_issues h]
  dsimp only
  rw [hct, hop]
  dsimp only
  rw [if_pos (Gang.fits_of h.pays (Nat.zero_le _) h.fresh)]

/-- What the counters of a core do not hold passes by the counts of a charge. -/
theorem State.chargeCounts_frame {γ : Type} (p : State → γ) (hw : ∀ (s : State) l, p { s with wrapped := l } = p s)
    (hd : ∀ (s : State) a v, counterBlock 0 ≤ a → p (s.setReg a v) = p s) (s : State) (g : Gang) (ci ct : Nat) :
    p ((s.count g 0x02 ci).count g 0x04 ct) = p s :=
  (State.count_frame p hw hd _ g 4 ct).trans (State.count_frame p hw hd s g 2 ci)

section
variable {s : State} {g : Gang} {t : TrapInfo} {npc : Word64} (hg : s.gang? g.uid = some g) (hc : t.cause ≠ causePoison) (ci ct : Nat)
include hg hc

theorem State.chargedTrap_enters (hd : g.ctl.tdepth = 0) (hv : (s.ctx g.ctx).tvec ≠ 0) (hp : g.pend = []) (hr : s.resultsOut g.uid = false)
    (hcause : t.cause < 256) (hcode : t.code < 65536) (hslot : t.pslot = 0) (hstep : t.step = 0) (hbnd : t.bnd = false) :
    ∃ g', (s.chargedTrap g ci ct t g.pc npc).gang? g.uid = some g' ∧ Trapped s g g' t.cause t.code t.taddr (if t.after then npc else g.pc) := by
  have keep : ∀ {γ : Type} (p : State → γ), (∀ (s : State) l, p { s with wrapped := l } = p s) → (∀ (s : State) a v, p (s.setReg a v) = p s) →
      p ((s.count g 0x02 ci).count g 0x04 ct) = p s := fun p h1 h2 => State.chargeCounts_frame p h1 (fun s a v _ => h2 s a v) s g ci ct
  have hctx : ((s.count g 0x02 ci).count g 0x04 ct).ctx g.ctx = s.ctx g.ctx := keep (fun s => s.ctx g.ctx) (fun _ _ => rfl) (fun _ _ _ => rfl)
  obtain ⟨i, b, l, h⟩ := State.takeTrap_enters (at_ := g.pc) (npc := npc) ((keep (fun s => s.gang? g.uid) (fun _ _ => rfl) (fun _ _ _ => rfl)).trans hg) hc hd
    (by rw [hctx]; exact hv) hp ((keep (fun s => s.resultsOut g.uid) (fun _ _ => rfl) (fun _ _ _ => rfl)).trans hr)
  rw [hctx] at h
  exact ⟨_, h, Gang.trapped_takes i b l hcause hcode hslot hstep hbnd rfl⟩

omit hc in
theorem State.chargedTrap_waits (hd : g.ctl.tdepth = 0) (hv : (s.ctx g.ctx).tvec ≠ 0) (hr : s.resultsOut g.uid = true) :
    ∃ g', (s.chargedTrap g ci ct t g.pc npc).gang? g.uid = some g' ∧ g'.pc = g.pc ∧ g'.regs = g.regs ∧ g'.ctl = g.ctl ∧ g'.spec = g.spec ∧
      g'.iss.dueTrap = some { info := t, at_ := g.pc, npc := npc } := by
  have keep : ∀ {γ : Type} (p : State → γ), (∀ (s : State) l, p { s with wrapped := l } = p s) → (∀ (s : State) a v, p (s.setReg a v) = p s) →
      p ((s.count g 0x02 ci).count g 0x04 ct) = p s := fun p h1 h2 => State.chargeCounts_frame p h1 (fun s a v _ => h2 s a v) s g ci ct
  exact ⟨_, State.takeTrap_waits (at_ := g.pc) (npc := npc) ((keep (fun s => s.gang? g.uid) (fun _ _ => rfl) (fun _ _ _ => rfl)).trans hg) hd
    (by rw [keep (fun s => s.ctx g.ctx) (fun _ _ => rfl) (fun _ _ _ => rfl)]; exact hv)
    ((keep (fun s => s.resultsOut g.uid) (fun _ _ => rfl) (fun _ _ _ => rfl)).trans hr), rfl, rfl, rfl, rfl, rfl⟩

theorem State.chargedTrap_kills (hn : g.ctl.tdepth ≠ 0 ∨ (s.ctx g.ctx).tvec = 0) :
    ((s.chargedTrap g ci ct t g.pc npc).ctx g.ctx).err = true ∧
    ∃ g', (s.chargedTrap g ci ct t g.pc npc).gang? g.uid = some g' ∧ g'.iss.killed = true ∧ g'.iss.exiting = true ∧ g'.ctl.nmask = 0 := by
  have keep : ∀ {γ : Type} (p : State → γ), (∀ (s : State) l, p { s with wrapped := l } = p s) → (∀ (s : State) a v, p (s.setReg a v) = p s) →
      p ((s.count g 0x02 ci).count g 0x04 ct) = p s := fun p h1 h2 => State.chargeCounts_frame p h1 (fun s a v _ => h2 s a v) s g ci ct
  exact State.takeTrap_kills ((keep (fun s => s.gang? g.uid) (fun _ _ => rfl) (fun _ _ _ => rfl)).trans hg) hc
    (by rw [keep (fun s => s.ctx g.ctx) (fun _ _ => rfl) (fun _ _ _ => rfl)]; exact hn)

end

/-! ## TRAP and BKPT (R275) -/

section
variable {s : State} {g : Gang} {h : Hd} {x : IF}

theorem run_trap (hi : Issues s g (.trap h x)) (he : ∃ st, g.executes (.trap h x) st = true) :
    exec (.trap h x) s = .next (s.chargedTrap g (ciOf (Instr.trap h x).maj) 0 { cause := causeSoftware, code := x.imm.toNat % 65536, after := true } g.pc (g.pc + 8)) :=
  run_traps (m := semTrap h x) hi rfl (if_neg (by simp [(Env.acts_simt ..).2 he]))

theorem run_trapBkpt (hi : Issues s g (.trapBkpt h x)) (he : ∃ st, g.executes (.trapBkpt h x) st = true) :
    exec (.trapBkpt h x) s = .next (s.chargedTrap g (ciOf (Instr.trapBkpt h x).maj) 0 { cause := causeBreakpoint, code := x.imm.toNat % 65536 } g.pc (g.pc + 8)) :=
  run_traps (m := semTrapBkpt h x) hi rfl (if_neg (by simp [(Env.acts_simt ..).2 he]))

end

/-- Settles O41: TRAP and BKPT by the cases of a trap: it waits, it is entered, or it kills the gang. -/
theorem softwareTraps : Obligations.SoftwareTraps := by
  refine ⟨fun s g h x hd hv hp => ⟨?wait, ?software, ?breakpoint⟩, ?nested⟩
  case wait =>
    rintro i (rfl | rfl) hi he hr
    · obtain ⟨g', hg', hpc, hregs, hctl, hspec, hdue⟩ := State.chargedTrap_waits hi.here _ 0 hd hv hr
      exact ⟨_, g', run_trap hi he, hg', hpc, hregs, hctl, hspec, hdue.trans (by simp [causeSoftware]), by simp [Gang.cannotIssue, hdue]⟩
    · obtain ⟨g', hg', hpc, hregs, hctl, hspec, hdue⟩ := State.chargedTrap_waits hi.here _ 0 hd hv hr
      exact ⟨_, g', run_trapBkpt hi he, hg', hpc, hregs, hctl, hspec, hdue.trans (by simp [causeBreakpoint]), by simp [Gang.cannotIssue, hdue]⟩
  case software =>
    intro hi he hr
    obtain ⟨g', hg', ht⟩ := State.chargedTrap_enters hi.here (t := { cause := causeSoftware, code := x.imm.toNat % 65536, after := true }) (show causeSoftware ≠ causePoison by decide) _ 0 hd hv hp hr
      (show causeSoftware < 256 by decide) (Nat.mod_lt _ (by decide)) rfl rfl rfl
    exact ⟨_, g', run_trap hi he, hg', ht⟩
  case breakpoint =>
    intro hi he hr
    obtain ⟨g', hg', ht⟩ := State.chargedTrap_enters hi.here (t := { cause := causeBreakpoint, code := x.imm.toNat % 65536 }) (show causeBreakpoint ≠ causePoison by decide) _ 0 hd hv hp hr
      (show causeBreakpoint < 256 by decide) (Nat.mod_lt _ (by decide)) rfl rfl rfl
    exact ⟨_, g', run_trapBkpt hi he, hg', ht⟩
  case nested =>
    intro s g h x hn hi he
    obtain ⟨herr, g', hg', hk⟩ := State.chargedTrap_kills (npc := g.pc + 8) hi.here
      (t := { cause := causeSoftware, code := x.imm.toNat % 65536, after := true }) (show causeSoftware ≠ causePoison by decide) (ciOf (Instr.trap h x).maj) 0 hn
    exact ⟨_, g', run_trap hi he, hg', hk.1, hk.2.1, hk.2.2, herr⟩

end Sys2Proof.Machine
end

section
/-! PROOFS. Exhausted budgets (R57, R76): an event is charged for nothing. -/

namespace Sys2Proof.Machine

/-- A gang without instruction budget. -/
def spentGang : Gang := { loadGang 1 false with spec := { tb := 1 } }

/-- A module in which it is that gang's turn. -/
def spentState : State := { State.reset with turn := some 1, gangs := [spentGang] }

/-- An event is legal as an instruction of the SIMT decoder is, and its major has an instruction charge: the gang attempts it, and cannot pay. -/
theorem spentGang_attempts (uid : Nat) : Attempts spentState spentGang (.pauseExpiry uid) :=
  ⟨rfl, rfl, rfl, rfl, rfl, rfl, rfl, fun _ => rfl⟩

/-- The end of a pause of a gang that is not there changes nothing. -/
theorem pauseExpiry_absent {s : State} {uid : Nat} (h : s.gang? uid = none) : exec (.pauseExpiry uid) s = .next s := by
  show execPauseExpiry uid s = _
  unfold execPauseExpiry
  rw [h]

/-- Refutes O40: its second part speaks of every term of Instr that is legal at the SIMT decoder, device events among them. Here the gang without budget
attempts the end of another gang's pause; the step changes nothing, so the gang does not ask for the yield that the statement promises. -/
theorem not_budgets : ¬ Obligations.Budgets := by
  rintro ⟨-, h⟩
  obtain ⟨t, ht, hend, -⟩ := h spentState spentGang (.pauseExpiry 0) (spentGang_attempts 0) (Or.inl (by decide))
  obtain rfl := Host.Outcome.next.inj ((pauseExpiry_absent rfl).symm.trans ht)
  rcases hend with hnote | ⟨hyield, -⟩
  · exact absurd hnote (by decide)
  · obtain ⟨g', hg', -, -, -, -, hy, -⟩ := hyield (Or.inl (by decide))
    obtain rfl : spentGang = g' := Option.some.inj hg'
    exact absurd hy (by decide)

end Sys2Proof.Machine
end

section
/-! SUPPORT. An issue after which its gang takes its own seal (R63, R65, R66), and nothing else is due. -/

namespace Sys2Proof.Machine

/-- The gangs after an issue at whose end each takes the seal or the split that is due. -/
def State.sealed (X : State) : State := { X with gangs := X.gangs.map (fun g => g.takeSeal.takeSplit (X.resultsOut g.uid)) }

/-- The marks of an issue make no flight release. -/
theorem State.issued_releases {i : Instr} {e : Env} {f : Eff} {ci ct : Nat} (hf : ∀ x ∈ f.st.flights, x.releases = false) :
    ∀ x ∈ (State.issued i e f ci ct).flights, x.releases = false := by
  intro x hx
  rw [State.issued_flights] at hx
  obtain ⟨y, hy, rfl⟩ := List.mem_map.1 hx
  have hr := hf y hy
  split
  · exact hr
  · exact hr

theorem State.applyReleases_none {X : State} (h : ∀ x ∈ X.flights, x.releases = false) : X.applyReleases = X :=
  State.applyReleases_off (List.all_eq_true.2 (fun x hx => by rw [h x hx]; rfl))

/-- The end of a step in which only g may seal, Muslin is off in its context, and nothing releases. -/
theorem State.pump_seals {X : State} {g : Gang} (hf : ∀ x ∈ X.flights, x.releases = false) (ho : X.onlySeals g) (hm : X.muslinMode g.ctx = 0)
    (hl : X.noLateTrap) : X.sealed.SealNoted X.pump := by
  have hr := State.applyReleases_none hf
  have h := State.onlySeals_pump (s := X) (g := g) (by rw [hr]; exact ho) (by rw [hr]; exact hm) (by rw [hr]; exact hl)
  rw [hr] at h
  exact h

/-- An issue in a calm state, of an effect that may leave a seal due for its own gang alone, ends with that seal. -/
theorem State.commit_sealed {s : State} {g : Gang} {i : Instr} {f : Eff} {ci ct : Nat} (hq : s.calmFor g = true) (hd : f.st.dev = s.dev)
    (hf : ∀ x ∈ f.st.flights, x.releases = false) (ho : f.st.onlySeals g) (hm : s.muslinMode g.ctx = 0) (hl : f.st.noLateTrap) :
    (State.issued i (simtEnv s (g.charge ci ct) i) f ci ct).sealed.SealNoted (State.commit i (simtEnv s (g.charge ci ct) i) f ci ct) := by
  have hmode : (State.issued i (simtEnv s (g.charge ci ct) i) f ci ct).muslinMode g.ctx = 0 :=
    (congrArg (fun w => bits64 w 1 0) (State.reg_of ((State.issued_dev ..).trans hd) _)).trans hm
  rw [State.commit_issued (s := s) (e := simtEnv s (g.charge ci ct) i) hq hd]
  exact State.pump_seals (State.issued_releases hf) (State.onlySeals_issued ho) hmode (State.issued_noLateTrap hl)

theorem State.sealed_bytes (X : State) : X.sameBytes X.sealed := State.sameBytes_of rfl rfl rfl rfl rfl (fun _ => rfl)

theorem State.SealNoted.bytes {s t : State} (h : s.SealNoted t) : s.sameBytes t := by
  rw [h.rest]
  exact State.sameBytes_of rfl rfl rfl rfl rfl (fun _ => rfl)

theorem Gang.sealed_uid (g : Gang) (out : Bool) : (g.takeSeal.takeSplit out).uid = g.uid := (Gang.takeSplit_uid ..).trans (Gang.takeSeal_uid g)

/-- What stands of a seal once it has been taken. -/
def Issue.sealGone (is : Issue) (l : Loc) : Issue :=
  { is with mseal := true, sealTo := none, cpmTo := none, contOnly := false, recStale := match l with | .queued .. => true | _ => false }

/-- A gang that has taken a seal at cp. -/
def Gang.sealTaken (cp : Word64) (g : Gang) : Gang :=
  { ({ g with spec := { g.spec with cpm := g.iss.cpmTo.getD g.spec.cpm, cp := cp } } : Gang).snapshot with iss := g.iss.sealGone g.loc }

/-- A gang with a seal due, that waits for nothing, takes it. -/
theorem Gang.takeSeal_due {g : Gang} {cp : Word64} (hs : g.iss.sealTo = some cp) (hb : g.iss.block = []) (hp : g.pend = []) (hk : g.park = none) :
    g.takeSeal = g.sealTaken cp := by
  have hnow : (g.iss.block.isEmpty && g.landed && g.park.isNone) = true := by simp [hb, hk, Gang.landed, hp]
  unfold Gang.takeSeal
  rw [hs]
  dsimp only
  rw [if_pos hnow]
  rfl

/-- The gang of a number once every gang has taken what is due. -/
theorem State.gang?_sealed {X : State} {u : Nat} {x : Gang} (h : X.gang? u = some x) : X.sealed.gang? u = some (x.takeSeal.takeSplit (X.resultsOut x.uid)) :=
  State.gang?_map (fun y => y.takeSeal.takeSplit (X.resultsOut y.uid)) (fun y => y.sealed_uid _) h

/-- A gang that has taken its seal, with no split due. -/
theorem Gang.takes_due {g : Gang} {cp : Word64} (hs : g.iss.sealTo = some cp) (hb : g.iss.block = []) (hp : g.pend = []) (hk : g.park = none)
    (hn : g.iss.splitTo = none) (out : Bool) : g.takeSeal.takeSplit out =
      g.sealTaken cp := by
  rw [Gang.takeSeal_due hs hb hp hk]
  exact Gang.takeSplit_none (g := g.sealTaken cp) hn out

end Sys2Proof.Machine
end

section
/-! PROOFS. CONT (R62, R63, R66, R69): the continuation point, its mask, and the shadow bank. -/

namespace Sys2Proof.Machine

/-- A gang for which a CONT has made a seal due. -/
def Gang.conting (a m : Word64) (g : Gang) : Gang := { g with iss := { g.iss with sealTo := some a, cpmTo := some m, contOnly := true } }

/-- A CONT with a good mask and target, behind which no result is outstanding. -/
theorem contSem_op {x : IF} {target : Env → Word64} {e : Env} {a m : Word64} (hact : e.acts = true) (hpo : e.g.regs.poison = [])
    (hm : (if x.d = 255#8 then e.g.spec.cpm else e.uniform { f := x.d, w := .w64, base := true }) = m) (ha : target e = a)
    (hmask : cpmOk m = true) (hlow : bits64 a 2 0 = 0) (hhigh : bits64 a 63 56 = 0) (hout : e.s.resultsOut e.g.uid = false) :
    (contSem x target).op e = .ok { st := e.s.modGang e.g.uid (Gang.conting a m) } := by
  have hsrc : ∀ y i, e.srcPoison y i = false := fun y i => by
    unfold Env.srcPoison
    rw [if_pos (by simp [hpo])]
  have hmb : (if (x.d == 255#8) = true then e.g.spec.cpm else e.uniform { f := x.d, w := .w64, base := true }) = m := by simpa only [beq_iff_eq] using hm
  unfold contSem
  dsimp only
  rw [hmb, ha, hsrc, hact, hmask, hlow, hhigh, hout, Bool.and_false, Bool.and_false]
  rfl

/-- A gang that has gone on to n with its charge taken; cs and is are its counters and its marks of issue. -/
def Gang.stepped (g : Gang) (n : Word64) (ci ct : Nat) (cs : SMap (BitVec 48)) (is : Issue) : Gang :=
  { g with pc := n, iss := is, spec := { g.spec with ib := g.spec.ib - BitVec.ofNat 32 ci, tb := g.spec.tb - BitVec.ofNat 32 ct, ctrs := cs } }

/-- A register outside the issue window or inside it (R167) reads as before where the count of bundles is. -/
theorem Gang.reads_stepped {g : Gang} {is : Issue} (h : is.bundles = g.iss.bundles) (n : Word64) (ci ct : Nat) (cs : SMap (BitVec 48)) :
    (∀ st r, (g.stepped n ci ct cs is).v st r = g.v st r) ∧ ∀ r, (g.stepped n ci ct cs is).s r = g.s r := by
  refine ⟨fun st r => ?_, fun r => ?_⟩
  · show (if g.inWindow _ then (Config.freeWindow g.uid is.bundles _).setWidth 32 else _) = _
    rw [h]
    rfl
  · show (if g.inWindow _ then Config.freeWindow g.uid is.bundles _ else _) = _
    rw [h]
    rfl

/-- The gang of a CONT after the marks of its issue. -/
theorem Gang.issued_conting (g : Gang) (a m : Word64) (f : Eff) (n : Word64) (el ci ct : Nat) (hw : f.writes = []) (hfx : f.fx = 0) (hk : g.park = none) :
    ∃ cs is, is.sealTo = some a ∧ is.cpmTo = some m ∧ is.block = g.iss.block ∧ is.splitTo = g.iss.splitTo ∧ is.bundles = g.iss.bundles ∧
      (((g.charge ci ct).conting a m).issueMarks f n ci ct).paid el ci ct =
        g.stepped (f.next.getD n) ci ct cs is := by
  obtain ⟨cs, is, h⟩ := Gang.issueMarks_eq (g.conting a m) f n ci ct
  have hq : ((g.charge ci ct).conting a m).issueMarks f n ci ct = ((g.conting a m).charge ci ct).issueMarks f n ci ct := rfl
  have hi : is = (((g.charge ci ct).conting a m).issueMarks f n ci ct).iss := (congrArg Gang.iss (hq.trans h)).symm
  have hz : (g.conting a m).putAll f.writes = g.conting a m := by rw [hw]; rfl
  rw [hz, hfx, fxSet_zero] at h
  have hs : is.sealTo = some a ∧ is.cpmTo = some m ∧ is.block = g.iss.block ∧ is.splitTo = g.iss.splitTo ∧ is.bundles = g.iss.bundles := by
    rw [hi]
    simp [Gang.issueMarks, Gang.ctr, Gang.conting, Gang.charge]
  obtain ⟨h1, h2, h3, h4, h5⟩ := hs
  refine ⟨cs, { is with since := some el }, h1, h2, h3, h4, h5, ?_⟩
  rw [hq, h]
  unfold Gang.paid
  rw [show (g.conting a m).park = none from hk]
  rw [Option.map_none, ← hk]
  rfl

section
variable {s : State} {g : Gang} {i : Instr} {a m : Word64}

/-- A CONT that takes effect: its gang takes the seal at the end of the step. -/
theorem run_cont {x : IF} {target : Env → Word64} (h : Issues s g i) (hpo : g.regs.poison = []) (hpe : g.pend = []) (hq : s.calmFor g = true)
    (hm : s.muslinMode g.ctx = 0) (hout : s.resultsOut g.uid = false) (hs : i.seals = false) (he : ∃ st, g.executes i st = true)
    (hmask : (if x.d = 255#8 then g.spec.cpm else (simtEnv s g i).uniform { f := x.d, w := .w64, base := true }) = m)
    (ha : target (simtEnv s (g.charge (ciOf i.maj) 0) i) = a) (hok : cpmOk m = true) (hlow : bits64 a 2 0 = 0) (hhigh : bits64 a 63 56 = 0) :
    ∃ t g', run i (contSem x target) s = .next t ∧ t.gang? g.uid = some g' ∧ g'.pc = g.pc + 8 ∧ keepsRegs g g' ∧ s.sameBytes t ∧
      Leaves { g with spec := { g.spec with cp := a, cpm := m } } g' i 0 ∧
      g'.shadow.v = (liveV m).map (fun k => (k, g.v (k / 128) (k % 128))) ∧ g'.shadow.s = (liveS m).map (fun r => (r, g.s r)) ∧
      g'.shadow.ctl = g.ctl := by
  have hop : (contSem x target).op (simtEnv s (g.charge (ciOf i.maj) 0) i) =
      .ok { st := (simtEnv s (g.charge (ciOf i.maj) 0) i).s.modGang g.uid (Gang.conting a m) } :=
    contSem_op ((Env.acts_simt s g i _ _).2 he) hpo hmask ha hok hlow hhigh hout
  have hrun := run_ok (m := contSem x target) h (Nat.zero_le _) hop
  have hseal := State.commit_sealed (i := i) (ci := ciOf i.maj) (ct := 0)
    (f := { st := (simtEnv s (g.charge (ciOf i.maj) 0) i).s.modGang g.uid (Gang.conting a m) }) hq rfl (fun y hy => State.calmFor_flights hq y hy)
    (State.onlySeals_modGang (State.onlySeals_charged hq i _ _) (fun _ => rfl) (fun _ => rfl)) hm
    (State.noLateTrap_modGang _ (fun _ => rfl) (h.charged _ _).2)
  obtain ⟨hblock, hsplit, _, _, hpark, _, _⟩ := Gang.idle_of_free h.free
  have hgX := State.gang?_issued (i := i) (e := simtEnv s (g.charge (ciOf i.maj) 0) i) (ci := ciOf i.maj) (ct := 0)
    (f := { st := (simtEnv s (g.charge (ciOf i.maj) 0) i).s.modGang g.uid (Gang.conting a m) })
    (State.gang?_modGang_same (Gang.conting a m) (fun _ => rfl) (h.charged _ _).1)
  have hno : ∀ z : Gang, ∀ b, z.sealing i b = z := fun z b => if_neg (by rw [hs]; decide)
  rw [hno] at hgX
  obtain ⟨cs, is, h1, h2, h3, h4, h5, hy⟩ := Gang.issued_conting g a m
    { st := (simtEnv s (g.charge (ciOf i.maj) 0) i).s.modGang g.uid (Gang.conting a m) } (g.pc + 8) s.clock.el (ciOf i.maj) 0 rfl rfl hpark
  have hgS := (State.gang?_sealed (hgX.trans (congrArg some hy))).trans
    (congrArg some (Gang.takes_due (g := g.stepped (g.pc + 8) (ciOf i.maj) 0 cs is) (cp := a) h1 (h3.trans hblock) hpe hpark (h4.trans hsplit) _))
  obtain ⟨ms, ml, hgT⟩ := hseal.gang _ _ hgS
  have hcpm : is.cpmTo.getD g.spec.cpm = m := by rw [h2]; rfl
  obtain ⟨hv, hsr⟩ := Gang.reads_stepped h5 (g.pc + 8) (ciOf i.maj) 0 cs
  refine ⟨_, _, hrun, hgT, rfl, ⟨rfl, rfl, rfl, rfl⟩, ?_, ⟨?_, rfl, rfl, rfl, rfl⟩, ?_, ?_, rfl⟩
  · exact State.sameBytes_trans (State.sameBytes_trans (State.sameBytes_of rfl rfl rfl rfl rfl (fun _ => rfl)) (State.issued_bytes ..))
      (State.sameBytes_trans (State.sealed_bytes _) hseal.bytes)
  · rw [hs, if_neg Bool.false_ne_true, if_neg Bool.false_ne_true]
    exact congrArg (fun c => ({ (g.stepped (g.pc + 8) (ciOf i.maj) 0 cs is).spec with cp := a, cpm := c } : Spec)) hcpm
  · refine Eq.trans (b := (liveV (is.cpmTo.getD g.spec.cpm)).map
      (fun k => (k, (g.stepped (g.pc + 8) (ciOf i.maj) 0 cs is).v (k / 128) (k % 128)))) rfl ?_
    rw [hcpm]
    exact List.map_congr_left (fun k _ => congrArg (Prod.mk k) (hv _ _))
  · refine Eq.trans (b := (liveS (is.cpmTo.getD g.spec.cpm)).map (fun r => (r, (g.stepped (g.pc + 8) (ciOf i.maj) 0 cs is).s r))) rfl ?_
    rw [hcpm]
    exact List.map_congr_left (fun r _ => congrArg (Prod.mk r) (hsr _))

end

/-- Settles O39: CONT seals at the end of its own step (R62, R63, R66, R69). -/
theorem continuationPoints : Obligations.ContinuationPoints := by
  unfold Obligations.ContinuationPoints
  intro s g h x hpo hpe hq hm hk hout
  refine ⟨fun hi he hok hlow hhigh => ?_, fun hi he hok hlow hhigh => ?_⟩
  · exact run_cont hi hpo hpe hq hm hout rfl he rfl rfl hok hlow hhigh
  · exact run_cont hi hpo hpe hq hm hout rfl he rfl rfl hok hlow hhigh

end Sys2Proof.Machine
end

section
/-! SUPPORT. A result that is broadcast: its writes in several strands, or in one s-register. -/

namespace Sys2Proof.Machine

theorem fpConst_lt (f : Reg) : fpConst f < 2 ^ 32 := by
  have h : ∀ x ∈ [0x3F000000, 0x3F800000, 0x40000000, 0x40800000, 0x41000000, 0x3E800000, 0xBF000000, 0xBF800000, 0xC0000000, 0xC0800000,
      0x80000000, 0x40490FDB, 0x3F317218, 0x3FB8AA3B, 0x3E22F983, 0x7F800000], x < 2 ^ 32 := by decide
  unfold fpConst
  rw [List.getD_eq_getElem?_getD]
  rcases hk : [0x3F000000, 0x3F800000, 0x40000000, 0x40800000, 0x41000000, 0x3E800000, 0xBF000000, 0xBF800000, 0xC0000000, 0xC0800000,
      0x80000000, 0x40490FDB, 0x3F317218, 0x3FB8AA3B, 0x3E22F983, 0x7F800000][f.toNat - 224]? with _ | x
  · decide
  · exact h x (List.mem_of_getElem? hk)

/-- A 32-bit source is at most 32 bits wide (R135, R162). -/
theorem Env.read_w32_lt (e : Env) (f : Reg) (b : Bool) (st : Nat) : (e.read { f := f, base := b } st).toNat < 2 ^ 32 := by
  have hw : ∀ v : Word32, (v.setWidth 64 : Word64).toNat < 2 ^ 32 := fun v => by
    rw [BitVec.toNat_setWidth]
    exact Nat.lt_of_le_of_lt (Nat.mod_le _ _) v.isLt
  unfold Env.read
  dsimp only
  split
  · exact hw _
  · split
    · exact hw _
    · split
      · exact hw _
      · split
        · rw [BitVec.toNat_ofNat]
          have := f.isLt
          omega
        · split
          · rw [BitVec.toNat_ofNat]
            exact Nat.lt_of_le_of_lt (Nat.mod_le _ _) (fpConst_lt f)
          · decide

/-- What an s-register takes of a source of the destination's width: the whole of it. -/
theorem sPart_read (e : Env) (t : IType) (f : Reg) (b : Bool) (st : Nat) :
    sPart t.opw ((e.read { f := f, w := t.opw, base := b } st).setWidth 128) = BitVec.ofNat 64 (e.read { f := f, w := t.opw, base := b } st).toNat := by
  unfold IType.opw
  split
  · apply BitVec.eq_of_toNat_eq
    simp [sPart]
  · have := e.read_w32_lt f b st
    apply BitVec.eq_of_toNat_eq
    simp only [sPart, BitVec.toNat_setWidth, BitVec.toNat_ofNat]
    omega

/-- The writes of a result to v-registers, strand by strand. -/
theorem simtEnv_dst_v {s : State} {g : Gang} {i : Instr} {d : Reg} (hd : d.toNat < 128) (w : OpW) (st : Nat) (v : BitVec 128) :
    (simtEnv s g i).dst d w st v = (List.range (OpW.words w)).map (fun q =>
      { dst := .v st ((d.toNat + q) % 128), val := ((v >>> (32 * q)).setWidth 32).setWidth 64 }) := by
  unfold Env.dst dstRegs
  simp only [simtEnv_place, wideColumn, simtEnv_vliw, Bool.false_or, decide_eq_true_eq, if_pos hd, vDst, Bool.false_eq_true, if_false]
  cases w <;> rfl

/-- The write of the lead's result to an s-register. -/
theorem simtEnv_dst_s {s : State} {g : Gang} {i : Instr} {d : Reg} (h1 : 128 ≤ d.toNat) (h2 : d.toNat < 192) (w : OpW) (v : BitVec 128) :
    (simtEnv s g i).dst d w (simtEnv s g i).lead v = [{ dst := .s (d.toNat - 128), val := sPart w v }] := by
  unfold Env.dst dstRegs
  simp only [simtEnv_place, wideColumn, simtEnv_vliw, Bool.false_or, decide_eq_true_eq, if_neg (Nat.not_lt.2 h1), if_pos h2, beq_self_eq_true, if_true]
  rfl

/-- Writes of v-registers and s-registers leave the predicates, branch registers and fx as they are. -/
theorem Gang.putAll_ctl {ws : List RegWrite} (h : ∀ w ∈ ws, (∃ st r, w.dst = .v st r) ∨ ∃ r, w.dst = .s r) (g : Gang) : (g.putAll ws).ctl = g.ctl := by
  refine Gang.putAll_keep Gang.ctl ws g (fun w hw x => ?_)
  unfold Gang.put
  rcases h w hw with ⟨st, r, hd⟩ | ⟨r, hd⟩
  · rw [hd]
  · rw [hd]

/-- What any result writes of a field. -/
theorem simtEnv_dst_kinds {s : State} {g : Gang} {i : Instr} {d : Reg} {w : OpW} {st : Nat} {v : BitVec 128} :
    ∀ x ∈ (simtEnv s g i).dst d w st v, (∃ st r, x.dst = .v st r) ∨ ∃ r, x.dst = .s r := by
  intro x hx
  rcases simtEnv_dst hx with ⟨_, q, _, hd⟩ | ⟨_, _, hd⟩
  · exact Or.inl ⟨_, _, hd⟩
  · exact Or.inr ⟨_, hd⟩

/-- A result in v-registers of several strands: what they read, and what else is left. -/
theorem Gang.putAll_broadcast {s : State} {x : Gang} {i : Instr} {d : Reg} {w : OpW} {v : BitVec 128} {l : List Nat} (g : Gang) (hd : d.toNat < 128) :
    let y := g.putAll (l.map (fun st => (simtEnv s x i).dst d w st v)).flatten
    y.regs.s = g.regs.s ∧
      (∀ st ∈ l, ∀ q < OpW.words w, y.regs.v.get (128 * st + (d.toNat + q) % 128) = BitVec.ofNat 32 (v.toNat / 2 ^ (32 * q))) ∧
      ∀ k, (∀ st ∈ l, ∀ q < OpW.words w, k ≠ 128 * st + (d.toNat + q) % 128) → y.regs.v.get k = g.regs.v.get k := by
  have hmem : ∀ z, z ∈ (l.map (fun st => (simtEnv s x i).dst d w st v)).flatten ↔ ∃ st ∈ l, ∃ q < OpW.words w,
      z = { dst := .v st ((d.toNat + q) % 128), val := ((v >>> (32 * q)).setWidth 32).setWidth 64 } := by
    intro z
    simp only [simtEnv_dst_v hd, List.mem_flatten, List.mem_map, exists_exists_and_eq_and, List.mem_range]
    exact exists_congr (fun st => and_congr_right (fun _ => exists_congr (fun q => and_congr_right (fun _ => eq_comm))))
  have hword : ∀ q, (((v >>> (32 * q)).setWidth 32).setWidth 64 : Word64).setWidth 32 = BitVec.ofNat 32 (v.toNat / 2 ^ (32 * q)) := fun q => by
    apply BitVec.eq_of_toNat_eq
    simp only [BitVec.toNat_setWidth, BitVec.toNat_ofNat, BitVec.toNat_ushiftRight, Nat.shiftRight_eq_div_pow]
    omega
  have h4 : OpW.words w ≤ 4 := by cases w <;> decide
  refine ⟨Gang.putAll_keep (fun z => z.regs.s) _ g (fun z hz y => ?_), fun st hst q hq => ?_, fun k hk => ?_⟩
  · obtain ⟨st, _, q, _, rfl⟩ := (hmem z).1 hz
    rfl
  · refine Gang.putAll_v g (fun z hz st' r hzd hkey => ?_) (Or.inl ⟨_, (hmem _).2 ⟨st, hst, q, hq, rfl⟩, _, _, rfl, rfl⟩)
    obtain ⟨st'', _, q', hq', rfl⟩ := (hmem z).1 hz
    injection hzd with ha hb
    subst ha hb
    have hqq : q' = q := by omega
    rw [hqq]
    exact hword q
  · refine Gang.putAll_keep (fun z => z.regs.v.get k) _ g (fun z hz y => Gang.put_v y z k (fun st r hzd hkey => ?_))
    obtain ⟨st', hst', q, hq, rfl⟩ := (hmem z).1 hz
    injection hzd with ha hb
    subst ha hb
    exact hk _ hst' q hq hkey.symm

/-- A result in one s-register: what it reads, and what else is left. -/
theorem Gang.putAll_scalar (g : Gang) (n : Nat) (v : Word64) :
    (g.putAll [{ dst := .s n, val := v }]).regs.v = g.regs.v ∧ (g.putAll [{ dst := .s n, val := v }]).regs.s.get n = v ∧
      ∀ m, m ≠ n → (g.putAll [{ dst := .s n, val := v }]).regs.s.get m = g.regs.s.get m := by
  refine ⟨rfl, ?_, fun m hm => ?_⟩
  · show (g.regs.s.put n v).get n = v
    rw [File.get_put, if_pos rfl]
  · exact Gang.put_s g { dst := .s n, val := v } m (fun r hr => by injection hr with hr; omega)

end Sys2Proof.Machine
end

section
/-! PROOFS. MTS, MOV.BC, WRLANE and PATLD (R56, R204, R208, R209, R212, R214). -/

namespace Sys2Proof.Machine

section
variable {s : State} {g : Gang} {i : Instr} {h : Hd} {x : RF}

theorem simtEnv_acts (he : ∃ st, g.executes i st = true) (ci ct : Nat) : (simtEnv s (g.charge ci ct) i).acts = true := (Env.acts_simt s g i ci ct).2 he

theorem Env.srcPoison_none {e : Env} (h : e.g.regs.poison = []) (y : Src) (st : Nat) : e.srcPoison y st = false := by
  unfold Env.srcPoison
  rw [if_pos (by simp [h])]

theorem Env.uniPoison_none {e : Env} (h : e.g.regs.poison = []) (y : Src) : e.uniPoison y = false := by
  unfold Env.uniPoison
  rw [Env.srcPoison_none h, Env.srcPoison_none h, ite_self, Bool.and_false]

/-! ## MTS (R56, R209) -/

/-- An MTS whose effect is a change of its gang that keeps its marks. -/
theorem run_mts {F : Gang → Gang} (hi : Issues s g (.mts h x))
    (hop : (semMts h x).op (simtEnv s (g.charge (ciOf (Instr.mts h x).maj) 0) (.mts h x)) =
      .ok { st := (simtEnv s (g.charge (ciOf (Instr.mts h x).maj) 0) (.mts h x)).s.modGang g.uid F })
    (hu : ∀ y, (F y).uid = y.uid) (hl : ∀ y, (F y).late = y.late) (hr : ∀ y, (F y).regs = y.regs) (hp : ∀ y, (F y).ctl.p = y.ctl.p)
    (hb : ∀ y, (F y).ctl.b = y.ctl.b) (hs : ∀ y, (F y).iss = y.iss) (hc : ∀ y : Gang, ∀ ci ct, F (y.charge ci ct) = (F y).charge ci ct) :
    ∃ t g', exec (.mts h x) s = .next t ∧ t.gang? g.uid = some g' ∧ g'.pc = g.pc + 8 ∧ Leaves (F g) g' (.mts h x) 0 ∧
      g'.regs = g.regs ∧ g'.ctl.p = g.ctl.p ∧ g'.ctl.b = g.ctl.b ∧ g'.ctl.fx = (F g).ctl.fx := by
  obtain ⟨t, g', h1, _, h2, h3, h4, ⟨k1, k2, k3, k4⟩, _⟩ := run_modGang (g0 := F g) (nx := none) hi rfl hop hu hl (by rw [hc])
    (by rw [hs]; exact hi.unsealed)
  exact ⟨t, g', h1, h2, h3, h4, k1.trans (hr g), k2.trans (hp g), k3.trans (hb g), k4⟩

/-- What an MTS does: its operand is read once, and the register it names decides. -/
theorem semMts_op {e : Env} (ha : e.acts = true) (hp : e.g.regs.poison = []) : (semMts h x).op e =
    (let v := e.uniform { f := x.a, w := wSpr x.d, base := true }
     let put (f : Gang → Gang) : Res := .ok { st := e.s.modGang e.g.uid f }
     if x.d == 4#8 then if bits64 v 31 0 > 999999999 then e.illegal else put (fun g => { g with spec := { g.spec with dl := v } })
     else if x.d == 5#8 then if bits64 v 63 56 != 0 || bits64 v 2 0 != 0 then e.illegal else put (fun g => { g with spec := { g.spec with dcp := v } })
     else if x.d == 7#8 then put (fun g => { g with ctl := { g.ctl with fx := v.setWidth 32 &&& 0x3F } })
     else e.illegal) := by
  unfold semMts
  dsimp only
  rw [ha, Env.srcPoison_none hp]
  rfl

/-! ## MOV.BC and WRLANE (R204, R212) -/

/-- An instruction that writes v-registers and s-registers alone. -/
theorem run_registers {m : Sem} {ws : List RegWrite} (hi : Issues s g i) (hct : m.ct (simtEnv s g i) = 0)
    (hop : m.op (simtEnv s (g.charge (ciOf i.maj) 0) i) = .ok { st := (simtEnv s (g.charge (ciOf i.maj) 0) i).s, writes := ws })
    (hw : ∀ w ∈ ws, (∃ st r, w.dst = .v st r) ∨ ∃ r, w.dst = .s r) :
    ∃ t g', run i m s = .next t ∧ t.gang? g.uid = some g' ∧ g'.pc = g.pc + 8 ∧ Leaves g g' i 0 ∧
      g'.ctl.p = g.ctl.p ∧ g'.ctl.b = g.ctl.b ∧ g'.ctl.fx = g.ctl.fx ∧ g'.regs = (g.putAll ws).regs := by
  obtain ⟨t, g', h1, h2, h3, h4, h5, h6, h7, h8⟩ := run_passes hi hct (Nat.zero_le _) hop rfl rfl
  have hc := Gang.putAll_ctl hw g
  rw [hc] at h6 h7 h8
  exact ⟨t, g', h1, h2, h4, h3, h6, h7, h8.trans (fxSet_zero _), h5⟩

/-- The writes of a broadcast: to the lead's s-register, or to the v-registers of the strands in l. -/
def bcWrites (e : Env) (d : Reg) (w : OpW) (l : List Nat) (v : BitVec 128) : List RegWrite :=
  if 128 ≤ d.toNat then e.dst d w e.lead v else (l.map (fun st => e.dst d w st v)).flatten

theorem bcWrites_kinds (s : State) (g : Gang) (i : Instr) (d : Reg) (w : OpW) (l : List Nat) (v : BitVec 128) :
    ∀ z ∈ bcWrites (simtEnv s g i) d w l v, (∃ st r, z.dst = .v st r) ∨ ∃ r, z.dst = .s r := by
  unfold bcWrites
  split
  · exact simtEnv_dst_kinds
  · intro z hz
    obtain ⟨_, hl, hz⟩ := List.mem_flatten.1 hz
    obtain ⟨st, _, rfl⟩ := List.mem_map.1 hl
    exact simtEnv_dst_kinds z hz

theorem semMovBc_op {e : Env} (hp : e.g.regs.poison = []) (ha : e.acts = true) (hs : e.place = .simt) : (semMovBc h x).op e =
    .ok { st := e.s
          writes := bcWrites e x.d (iType x.mod).opw ((List.range 32).filter (fun st => e.g.present.getLsbD st))
            ((e.read { f := x.a, w := (iType x.mod).opw } e.lead).setWidth 128) } := by
  unfold semMovBc bcWrites
  dsimp only
  rw [ha, Env.unpoisoned hp, hs, if_neg (by decide), if_neg (by decide)]
  dsimp only
  split
  · rfl
  · rfl

theorem semWrlane_op {e : Env} (hp : e.g.regs.poison = []) (ha : e.parts ≠ []) (hs : e.vliw = false) : (semWrlane h x).op e =
    if e.g.present.getLsbD ((e.uni { f := x.b }).toNat % e.width) then
      .ok { st := e.s, writes := bcWrites e x.d (iType x.mod).opw [(e.uni { f := x.b }).toNat % e.width] ((e.uni { f := x.a, w := (iType x.mod).opw }).setWidth 128) }
    else e.nothing := by
  unfold semWrlane bcWrites
  dsimp only
  rw [if_neg (by simpa using ha), Env.uniPoison_none hp, Env.uniPoison_none hp, hs]
  cases e.g.present.getLsbD ((e.uni { f := x.b }).toNat % e.width) with
  | false => rfl
  | true =>
    simp only [Bool.or_self, Bool.false_eq_true, if_false, Bool.not_false, Bool.not_true, Bool.and_false, Bool.true_and, decide_eq_true_eq, if_true,
      List.map_cons, List.map_nil, List.flatten_cons, List.flatten_nil, List.append_nil]
    split
    · rfl
    · rfl

/-- What a broadcast leaves in the registers. -/
theorem bc_regs {s : State} {g y : Gang} {i : Instr} {d : Reg} {t : IType} {l : List Nat} {a : Reg} {b : Bool} {st0 ci ct : Nat}
    (hy : y.regs = (g.putAll (bcWrites (simtEnv s (g.charge ci ct) i) d t.opw l
      (((simtEnv s (g.charge ci ct) i).read { f := a, w := t.opw, base := b } st0).setWidth 128))).regs) :
    let v := ((simtEnv s g i).read { f := a, w := t.opw, base := b } st0).toNat
    (d.toNat < 128 → y.regs.s = g.regs.s ∧
      (∀ st ∈ l, ∀ q < OpW.words t.opw, y.regs.v.get (128 * st + (d.toNat + q) % 128) = BitVec.ofNat 32 (v / 2 ^ (32 * q))) ∧
      ∀ k, (∀ st ∈ l, ∀ q < OpW.words t.opw, k ≠ 128 * st + (d.toNat + q) % 128) → y.regs.v.get k = g.regs.v.get k) ∧
    (128 ≤ d.toNat → d.toNat < 192 → y.regs.v = g.regs.v ∧ y.regs.s.get (d.toNat - 128) = BitVec.ofNat 64 v ∧
      ∀ n, d.toNat ≠ 128 + n → y.regs.s.get n = g.regs.s.get n) := by
  dsimp only
  refine ⟨fun hd => ?_, fun h1 h2 => ?_⟩
  · rw [hy, bcWrites, if_neg (Nat.not_le.2 hd)]
    have hv : (((simtEnv s (g.charge ci ct) i).read { f := a, w := t.opw, base := b } st0).setWidth 128 : BitVec 128).toNat =
        ((simtEnv s g i).read { f := a, w := t.opw, base := b } st0).toNat := by
      rw [BitVec.toNat_setWidth, Nat.mod_eq_of_lt (Nat.lt_of_lt_of_le (BitVec.isLt _) (by decide))]
      rfl
    rw [← hv]
    exact Gang.putAll_broadcast g hd
  · rw [hy, bcWrites, if_pos h1, simtEnv_dst_s h1 h2, sPart_read]
    obtain ⟨k1, k2, k3⟩ := g.putAll_scalar (d.toNat - 128) (BitVec.ofNat 64 ((simtEnv s g i).read { f := a, w := t.opw, base := b } st0).toNat)
    exact ⟨k1, k2, fun n hn => k3 n (by omega)⟩

/-! ## PATLD (R214) -/

/-- Writes of pattern entries touch no other register. -/
theorem Gang.putAll_patterns {ws : List RegWrite} (h : ∀ w ∈ ws, ∃ k, w.dst = .pt k) (g : Gang) :
    (g.putAll ws).regs.v = g.regs.v ∧ (g.putAll ws).regs.s = g.regs.s ∧ (g.putAll ws).ctl = g.ctl := by
  have keep : ∀ {γ : Type} (p : Gang → γ), (∀ (z : Gang) m, p { z with regs := { z.regs with pt := m } } = p z) → p (g.putAll ws) = p g :=
    fun p hp => Gang.putAll_keep p ws g (fun w hw z => by
      obtain ⟨k, hk⟩ := h w hw
      unfold Gang.put
      rw [hk]
      exact hp _ _)
  exact ⟨keep (fun z => z.regs.v) (fun _ _ => rfl), keep (fun z => z.regs.s) (fun _ _ => rfl), keep Gang.ctl (fun _ _ => rfl)⟩

/-- The pattern entries after writes of them, one for each of the keys of l. -/
theorem Gang.putAll_pt (key : Nat → Nat) (val : Nat → Word64) (hk : ∀ a b, key a = key b → a = b) (l : List Nat) (g : Gang) (k : Nat) :
    SMap.find (g.putAll (l.map (fun st => { dst := .pt (key st), val := val st }))).regs.pt k =
      match l.find? (fun st => key st == k) with
      | some st => some ((val st).setWidth 5)
      | none => SMap.find g.regs.pt k := by
  induction l generalizing g with
  | nil => rfl
  | cons a l ih =>
    show SMap.find ((g.put { dst := .pt (key a), val := val a }).putAll _).regs.pt k = _
    rw [ih, List.find?_cons]
    have hput : SMap.find (g.put { dst := .pt (key a), val := val a }).regs.pt k =
      if key a = k then some ((val a).setWidth 5) else SMap.find g.regs.pt k := SMap.find_set ..
    rw [hput]
    by_cases ha : key a = k
    · rw [if_pos ha, beq_iff_eq.2 ha]
      rcases hf : l.find? (fun st => key st == k) with _ | b
      · rfl
      · have hb : key b = k := by simpa using List.find?_some hf
        rw [hk b a (hb.trans ha.symm)]
    · rw [if_neg ha, beq_eq_false_iff_ne.2 ha]

/-- The pattern entries that a PATLD loads. -/
def patWrites (x : RF) (e : Env) : List RegWrite :=
  e.parts.map (fun st => { dst := .pt (32 * (x.fn.toNat % 4) + st), val := BitVec.ofNat 64 ((e.read { f := x.a } st).toNat % e.width) })

theorem semPatld_op {e : Env} (hp : e.g.regs.poison = []) : (semPatld h x).op e = .ok { st := e.s, writes := patWrites x e } := by
  refine (Env.each_ok hp _ _).trans ?_
  rw [flags_none _ _ (fun _ => rfl), List.map_map]
  unfold patWrites
  rw [← List.flatMap_def, List.map_eq_flatMap]
  rfl

theorem run_patld (hp : g.regs.poison = []) (hi : Issues s g (.patld h x)) :
    ∃ t g', exec (.patld h x) s = .next t ∧ t.gang? g.uid = some g' ∧ g'.pc = g.pc + 8 ∧ Leaves g g' (.patld h x) 0 ∧
      g'.regs.v = g.regs.v ∧ g'.regs.s = g.regs.s ∧ g'.ctl.p = g.ctl.p ∧ g'.ctl.b = g.ctl.b ∧ g'.ctl.fx = g.ctl.fx ∧
      (∀ st, g.executes (.patld h x) st = true → ∀ dflt, SMap.get g'.regs.pt (32 * (x.fn.toNat % 4) + st) dflt =
        BitVec.ofNat 5 ((simtEnv s g (.patld h x)).read { f := x.a } st).toNat) ∧
      (∀ k, (∀ st, g.executes (.patld h x) st = true → k ≠ 32 * (x.fn.toNat % 4) + st) → SMap.find g'.regs.pt k = SMap.find g.regs.pt k) := by
  let e := simtEnv s (g.charge (ciOf (Instr.patld h x).maj) 0) (.patld h x)
  obtain ⟨t, g', h1, h2, h3, h4, h5, h6, h7, h8⟩ := run_passes (m := semPatld h x) hi rfl (Nat.zero_le _) (semPatld_op (e := e) hp) rfl rfl
  obtain ⟨k1, k2, k3⟩ := Gang.putAll_patterns (ws := patWrites x e) (fun w hw => by
    obtain ⟨st, _, rfl⟩ := List.mem_map.1 hw
    exact ⟨_, rfl⟩) g
  have hfind := Gang.putAll_pt (fun st => 32 * (x.fn.toNat % 4) + st) (fun st => BitVec.ofNat 64 ((e.read { f := x.a } st).toNat % e.width))
    (fun a b h => by omega) e.parts g
  have hmem : ∀ st, st ∈ e.parts ↔ g.executes (.patld h x) st = true := fun st => by
    rw [simtEnv_parts]
    exact ⟨fun hs => (List.mem_filter.1 hs).2, fun hs => List.mem_filter.2 ⟨List.mem_range.2 (Gang.executes_lt hs), hs⟩⟩
  refine ⟨t, g', h1, h2, h4, h3, by rw [h5, k1], by rw [h5, k2], by rw [h6, k3], by rw [h7, k3], by rw [h8, k3]; exact fxSet_zero _, fun st hst dflt => ?_, fun k hk => ?_⟩
  · have hf := hfind (32 * (x.fn.toNat % 4) + st)
    have hone : e.parts.find? (fun a => 32 * (x.fn.toNat % 4) + a == 32 * (x.fn.toNat % 4) + st) = some st := by
      rcases hq : e.parts.find? (fun a => 32 * (x.fn.toNat % 4) + a == 32 * (x.fn.toNat % 4) + st) with _ | b
      · exact absurd (List.find?_eq_none.1 hq st ((hmem st).2 hst)) (by simp)
      · have hb := List.find?_some hq
        rw [beq_iff_eq] at hb
        rw [show b = st by omega]
    rw [hone] at hf
    unfold SMap.get
    rw [h5]
    refine (congrArg (fun o => Option.getD o dflt) hf).trans ?_
    apply BitVec.eq_of_toNat_eq
    show (BitVec.setWidth 5 _).toNat = _
    have hr : e.read { f := x.a } st = (simtEnv s g (.patld h x)).read { f := x.a } st := rfl
    rw [hr]
    have hw : e.width = 32 := rfl
    rw [hw]
    simp only [BitVec.toNat_setWidth, BitVec.toNat_ofNat]
    omega
  · have hf := hfind k
    rw [List.find?_eq_none.2 (fun st hst => by
      rw [beq_iff_eq]
      exact fun he => hk st ((hmem st).1 hst) he.symm)] at hf
    rw [h5]
    exact hf

/-- A broadcast reaches every present strand, or the s-register. -/
theorem run_movBc {st0 : Nat} (hp : g.regs.poison = []) (hi : Issues s g (.movBc h x)) (he : g.executes (.movBc h x) st0 = true)
    (hlow : ∀ st < st0, g.executes (.movBc h x) st = false) :
    let w := (iType x.mod).opw
    let v := ((simtEnv s g (.movBc h x)).read { f := x.a, w := w } st0).toNat
    ∃ t g', exec (.movBc h x) s = .next t ∧ t.gang? g.uid = some g' ∧ g'.pc = g.pc + 8 ∧ Leaves g g' (.movBc h x) 0 ∧
      g'.ctl.p = g.ctl.p ∧ g'.ctl.b = g.ctl.b ∧ g'.ctl.fx = g.ctl.fx ∧
      (x.d.toNat < 128 → g'.regs.s = g.regs.s ∧ (∀ st < 32, g.present.getLsbD st = true → ∀ q < OpW.words w,
          g'.regs.v.get (128 * st + (x.d.toNat + q) % 128) = BitVec.ofNat 32 (v / 2 ^ (32 * q))) ∧
        (∀ k, (∀ st < 32, ∀ q < OpW.words w, g.present.getLsbD st = true → k ≠ 128 * st + (x.d.toNat + q) % 128) → g'.regs.v.get k = g.regs.v.get k)) ∧
      (128 ≤ x.d.toNat → x.d.toNat < 192 → g'.regs.v = g.regs.v ∧ g'.regs.s.get (x.d.toNat - 128) = BitVec.ofNat 64 v ∧
        ∀ n, x.d.toNat ≠ 128 + n → g'.regs.s.get n = g.regs.s.get n) := by
  intro w v
  have hlead := simtEnv_lead (s := s) (ci := ciOf (Instr.movBc h x).maj) (ct := 0) he hlow
  have hop := semMovBc_op (h := h) (x := x) (e := simtEnv s (g.charge (ciOf (Instr.movBc h x).maj) 0) (.movBc h x)) hp (simtEnv_acts ⟨st0, he⟩ _ _) rfl
  rw [hlead] at hop
  obtain ⟨t, g', h1, h2, h3, h4, h5, h6, h7, h8⟩ := run_registers hi rfl hop (bcWrites_kinds _ _ _ _ _ _ _)
  obtain ⟨hv, hs⟩ := bc_regs h8
  have hmem : ∀ st, st ∈ (List.range 32).filter (fun st => g.present.getLsbD st) ↔ st < 32 ∧ g.present.getLsbD st = true := fun st => by
    rw [List.mem_filter, List.mem_range]
  refine ⟨t, g', h1, h2, h3, h4, h5, h6, h7, fun hd => ?_, hs⟩
  obtain ⟨k1, k2, k3⟩ := hv hd
  exact ⟨k1, fun st hst hpr q hq => k2 st ((hmem st).2 ⟨hst, hpr⟩) q hq, fun k hk => k3 k (fun st hst q hq => hk st ((hmem st).1 hst).1 q hq ((hmem st).1 hst).2)⟩

/-- A write of a lane reaches that strand where it is present, or the s-register. -/
theorem run_wrlane (hp : g.regs.poison = []) (hi : Issues s g (.wrlane h x)) (he : ∃ st, g.executes (.wrlane h x) st = true) :
    let w := (iType x.mod).opw
    let v := ((simtEnv s g (.wrlane h x)).uniform { f := x.a, w := w }).toNat
    let j := ((simtEnv s g (.wrlane h x)).uniform { f := x.b }).toNat % 32
    ∃ t g', exec (.wrlane h x) s = .next t ∧ t.gang? g.uid = some g' ∧ g'.pc = g.pc + 8 ∧ Leaves g g' (.wrlane h x) 0 ∧
      g'.ctl.p = g.ctl.p ∧ g'.ctl.b = g.ctl.b ∧ g'.ctl.fx = g.ctl.fx ∧ (g.present.getLsbD j = false → g'.regs = g.regs) ∧
      (x.d.toNat < 128 → g.present.getLsbD j = true → g'.regs.s = g.regs.s ∧
        (∀ q < OpW.words w, g'.regs.v.get (128 * j + (x.d.toNat + q) % 128) = BitVec.ofNat 32 (v / 2 ^ (32 * q))) ∧
        (∀ k, (∀ q < OpW.words w, k ≠ 128 * j + (x.d.toNat + q) % 128) → g'.regs.v.get k = g.regs.v.get k)) ∧
      (128 ≤ x.d.toNat → x.d.toNat < 192 → g.present.getLsbD j = true → g'.regs.v = g.regs.v ∧
        g'.regs.s.get (x.d.toNat - 128) = BitVec.ofNat 64 v ∧ ∀ n, x.d.toNat ≠ 128 + n → g'.regs.s.get n = g.regs.s.get n) := by
  intro w v j
  have hparts : (simtEnv s (g.charge (ciOf (Instr.wrlane h x).maj) 0) (.wrlane h x)).parts ≠ [] := by
    obtain ⟨st, hst⟩ := he
    rw [simtEnv_parts]
    exact List.ne_nil_of_mem (List.mem_filter.2 ⟨List.mem_range.2 (Gang.executes_lt hst), hst⟩)
  have hop := semWrlane_op (h := h) (x := x) (e := simtEnv s (g.charge (ciOf (Instr.wrlane h x).maj) 0) (.wrlane h x)) hp hparts rfl
  by_cases hpr : g.present.getLsbD j = true
  · obtain ⟨t, g', h1, h2, h3, h4, h5, h6, h7, h8⟩ := run_registers hi rfl (hop.trans (if_pos hpr)) (bcWrites_kinds _ _ _ _ _ _ _)
    obtain ⟨hv, hs⟩ := bc_regs (b := true) (st0 := (simtEnv s g (.wrlane h x)).lead) h8
    refine ⟨t, g', h1, h2, h3, h4, h5, h6, h7, fun hn => absurd (hpr.symm.trans hn) (by decide), fun hd _ => ?_, fun hd1 hd2 _ => hs hd1 hd2⟩
    obtain ⟨k1, k2, k3⟩ := hv hd
    exact ⟨k1, k2 j (List.mem_singleton_self j), fun k hk => k3 k (fun st hst q hq => List.mem_singleton.1 hst ▸ hk q hq)⟩
  · obtain ⟨t, g', h1, h2, h3, h4, h5, h6, h7, h8⟩ := run_registers (ws := []) hi rfl (hop.trans (if_neg hpr)) (fun _ hz => by cases hz)
    exact ⟨t, g', h1, h2, h3, h4, h5, h6, h7, fun _ => h8, fun _ hn => absurd hn hpr, fun _ _ hn => absurd hn hpr⟩

end

/-- Settles O45: each of the four completes with the register effects that R56, R204, R208, R209, R212 and R214 say. -/
theorem gangWideWrites : Obligations.GangWideWrites := by
  unfold Obligations.GangWideWrites
  intro s g h x hp
  refine ⟨fun hi he => ⟨fun hd hv => ?_, fun hd h1 h2 => ?_, fun hd => ?_⟩, fun hi st0 he hlow => ?_, fun hi he => ?_, run_patld hp⟩
  · refine run_mts (F := fun y => { y with spec := { y.spec with dl := _ } }) hi ((semMts_op (simtEnv_acts he _ _) hp).trans ?_)
      (fun _ => rfl) (fun _ => rfl) (fun _ => rfl) (fun _ => rfl) (fun _ => rfl) (fun _ => rfl) (fun _ _ _ => rfl)
    dsimp only
    rw [if_pos (beq_iff_eq.2 hd)]
    exact if_neg (Nat.not_lt.2 hv)
  · refine run_mts (F := fun y => { y with spec := { y.spec with dcp := _ } }) hi ((semMts_op (simtEnv_acts he _ _) hp).trans ?_)
      (fun _ => rfl) (fun _ => rfl) (fun _ => rfl) (fun _ => rfl) (fun _ => rfl) (fun _ => rfl) (fun _ _ _ => rfl)
    dsimp only
    rw [if_neg (by rw [hd]; decide), if_pos (beq_iff_eq.2 hd)]
    refine if_neg ?_
    rw [Bool.or_eq_true, bne_iff_ne, bne_iff_ne]
    exact fun hn => hn.elim (fun k => k h1) (fun k => k h2)
  · refine run_mts (F := fun y => { y with ctl := { y.ctl with fx := _ } }) hi ((semMts_op (simtEnv_acts he _ _) hp).trans ?_)
      (fun _ => rfl) (fun _ => rfl) (fun _ => rfl) (fun _ => rfl) (fun _ => rfl) (fun _ => rfl) (fun _ _ _ => rfl)
    dsimp only
    rw [if_neg (by rw [hd]; decide), if_neg (by rw [hd]; decide)]
    exact if_pos (beq_iff_eq.2 hd)
  · exact run_movBc hp hi he hlow
  · exact run_wrlane hp hi he

end Sys2Proof.Machine
end

section
/-! SUPPORT. One result for all executing strands, and what a change of the special state leaves of its writes. -/

namespace Sys2Proof.Machine

/-- A list that is empty but at one of its distinct members. -/
theorem flatten_map_one {α β : Type} [DecidableEq α] (l : List α) (a : α) (b : β) (hn : l.Nodup) (ha : a ∈ l) :
    (l.map (fun x => if x = a then [b] else [])).flatten = [b] := by
  have hz : ∀ l : List α, a ∉ l → (l.map (fun x => if x = a then [b] else [])).flatten = [] := fun l hl => by
    rw [List.flatten_eq_nil_iff]
    intro y hy
    obtain ⟨x, hx, rfl⟩ := List.mem_map.1 hy
    exact if_neg (fun (h : x = a) => hl (h ▸ hx))
  induction l with
  | nil => cases ha
  | cons x l ih =>
    rw [List.map_cons, List.flatten_cons]
    obtain ⟨hx, hl⟩ := List.nodup_cons.1 hn
    by_cases h : x = a
    · rw [if_pos h, hz l (h ▸ hx)]
      rfl
    · rw [if_neg h]
      exact ih hl (Or.resolve_left (List.mem_cons.1 ha) (fun h' => h h'.symm))

/-- A result that is the same for the gang is written as each executing strand's (R135). -/
theorem simtEnv_dstWide {s : State} {g : Gang} {i : Instr} {ci ct : Nat} (he : ∃ st, g.executes i st = true) (d : Reg) (w : OpW) (v : BitVec 128) :
    (simtEnv s (g.charge ci ct) i).dstWide d w v =
      ((simtEnv s (g.charge ci ct) i).parts.map (fun st => (simtEnv s (g.charge ci ct) i).dst d w st v)).flatten := by
  unfold Env.dstWide
  simp only [simtEnv_vliw, Bool.false_eq_true, if_false, ite_self]
  unfold Env.dstAll
  simp only [simtEnv_place, wideColumn, Bool.false_eq_true, if_false, Bool.and_eq_true, decide_eq_true_eq]
  split
  · next hd =>
    have hne : (List.range 32).filter (g.executes i) ≠ [] := by
      obtain ⟨st, hst⟩ := he
      exact List.ne_nil_of_mem (List.mem_filter.2 ⟨List.mem_range.2 (Gang.executes_lt hst), hst⟩)
    have hmem : (simtEnv s (g.charge ci ct) i).lead ∈ (simtEnv s (g.charge ci ct) i).parts := by
      unfold Env.lead
      rw [simtEnv_vliw, if_neg Bool.false_ne_true, simtEnv_parts]
      rcases hl : (List.range 32).filter (g.executes i) with _ | ⟨a, l⟩
      · exact absurd hl hne
      · exact List.mem_cons_self ..
    have hnodup : (simtEnv s (g.charge ci ct) i).parts.Nodup := by
      rw [simtEnv_parts]
      exact List.nodup_range.filter _
    refine (flatten_map_one _ _ ({ dst := .s (d.toNat - 128), val := sPart w v } : RegWrite) hnodup hmem).symm.trans
      (congrArg List.flatten (List.map_congr_left (fun st _ => ?_))).symm
    by_cases hst : st = (simtEnv s (g.charge ci ct) i).lead
    · rw [if_pos hst, hst]
      exact simtEnv_dst_s hd.1 hd.2 w v
    · rw [if_neg hst]
      unfold Env.dst dstRegs
      simp only [simtEnv_place, wideColumn, simtEnv_vliw, Bool.false_or, decide_eq_true_eq, if_neg (Nat.not_lt.2 hd.1), if_pos hd.2]
      exact if_neg (fun h => hst (beq_iff_eq.1 h))
  · rfl

/-- A gang with another special state. -/
def Gang.respec (sp : Spec) (g : Gang) : Gang := { g with spec := sp }

theorem Gang.putAll_respec (sp : Spec) (ws : List RegWrite) (x : Gang) : (x.respec sp).putAll ws = (x.putAll ws).respec sp := by
  induction ws generalizing x with
  | nil => rfl
  | cons w ws ih =>
    have : (x.respec sp).put w = (x.put w).respec sp := by
      unfold Gang.put
      cases w.dst <;> try rfl
      dsimp only [Gang.respec]
      split <;> rfl
    unfold Gang.putAll at ih ⊢
    rw [List.foldl_cons, List.foldl_cons, this, ih]

/-- A result in each executing strand of an instruction that also changes the special state of its gang. -/
theorem run_respec {i : Instr} {m : Sem} {s st : State} {g g1 : Gang} {sp : Spec} {d : Reg} {w : OpW} {v : BitVec 128} (h : Issues s g i)
    (hct : m.ct (simtEnv s g i) = 0)
    (hop : m.op (simtEnv s (g.charge (ciOf i.maj) 0) i) = .ok { st := st, writes := ((simtEnv s (g.charge (ciOf i.maj) 0) i).parts.map (fun st =>
      (simtEnv s (g.charge (ciOf i.maj) 0) i).dst d w st v)).flatten })
    (hl : st.noLateTrap) (hg : st.gang? g.uid = some g1) (hp : g1.pass = ((g.respec sp).charge (ciOf i.maj) 0).pass) :
    ∃ t g', run i m s = .next t ∧ t.gang? g.uid = some g' ∧ g'.pc = g.pc + 8 ∧ Leaves (g.respec sp) g' i 0 ∧ WroteOnly g g' i d w ∧
      gets g g' i d w (fun _ => v.toNat) := by
  obtain ⟨t, g', h1, h2, h3, h4, h5, h6, h7, _⟩ := run_leaves h hct (Nat.zero_le _) hop hl hg hp h.unsealed
  have hw : DstOnly g i d w ((simtEnv s (g.charge (ciOf i.maj) 0) i).parts.map (fun st => (simtEnv s (g.charge (ciOf i.maj) 0) i).dst d w st v)).flatten := by
    have := each_dstOnly (s := s) (g := g) (i := i) (j := i) (d := d) (w := w) (ct := 0) (ci := ciOf i.maj)
      (fun st => ((simtEnv s (g.charge (ciOf i.maj) 0) i).dst d w st v, 0)) (fun st x hx => ⟨v, hx⟩)
    rwa [List.map_map] at this
  have hwr := hw.wrote
  rw [Gang.putAll_respec] at h5 h6 h7
  refine ⟨t, g', h1, h2, h4, h3, ⟨?_, ?_, ?_, ?_, ?_, ?_, ?_⟩, each_gets (ci := ciOf i.maj) (ct := 0) (fun _ => v) rfl h5⟩
  · intro k hk; rw [h5]; exact hwr.v k hk
  · intro n hn; rw [h5]; exact hwr.s n hn
  · rw [h5]; exact hwr.g
  · rw [h5]; exact hwr.h
  · rw [h5]; exact hwr.pt
  · rw [h6]; exact hwr.p
  · rw [h7]; exact hwr.b

end Sys2Proof.Machine
end

section
/-! PROOFS. Engine commands, GSET and ESTS (R59, R292 to R298): a checked command enters its queue, and its gang seals. -/

namespace Sys2Proof.Machine

/-! ## What a charge leaves of the checks -/

/-- The shares that a gang may address do not depend on its budgets. -/
theorem spadOk_charged (s : State) (g : Gang) (ci ct : Nat) (ea : Nat) : (s.setGang (g.charge ci ct)).spadOk (g.charge ci ct) ea = (s.setGang g).spadOk g ea := by
  unfold State.spadOk
  dsimp only
  have hany : ∀ p : Gang → Bool, p (g.charge ci ct) = p g → (s.setGang (g.charge ci ct)).gangs.any p = (s.setGang g).gangs.any p := fun p hp => by
    show (s.gangs.map _).any p = (s.gangs.map _).any p
    rw [List.any_map, List.any_map]
    congr 1
    funext x
    show p (if x.uid == g.uid then g.charge ci ct else x) = p (if x.uid == g.uid then g else x)
    split
    · exact hp
    · rfl
  rw [hany _ rfl]
  rfl

theorem spanTarget_charged (s : State) (g : Gang) (i : Instr) (ci ct kind a span : Nat) (f : Reg) :
    (simtEnv s (g.charge ci ct) i).spanTarget kind a span f = (simtEnv s g i).spanTarget kind a span f := by
  have hok : ∀ ea, (simtEnv s (g.charge ci ct) i).s.spadOk (simtEnv s (g.charge ci ct) i).g ea = (simtEnv s g i).s.spadOk (simtEnv s g i).g ea :=
    fun ea => spadOk_charged s g ci ct ea
  unfold Env.spanTarget
  simp only [hok]
  rfl

theorem copyPlan_charged (s : State) (g : Gang) (i : Instr) (x : EF) (ci ct : Nat) : copyPlan x (simtEnv s (g.charge ci ct) i) = copyPlan x (simtEnv s g i) := by
  unfold copyPlan
  simp only [spanTarget_charged]
  rfl

theorem strmPlan_charged (s : State) (g : Gang) (i : Instr) (x : EF) (out : Bool) (ci ct : Nat) :
    strmPlan x out (simtEnv s (g.charge ci ct) i) = strmPlan x out (simtEnv s g i) := by
  unfold strmPlan
  simp only [spanTarget_charged]
  rfl

theorem netxPlan_charged (s : State) (g : Gang) (i : Instr) (x : EF) (ci ct : Nat) : netxPlan x (simtEnv s (g.charge ci ct) i) = netxPlan x (simtEnv s g i) := rfl

/-! ## Acceptance of a command (R292) -/

/-- A gang whose tstat an instruction sets, or leaves. -/
def Gang.tells (v : Option Word64) (g : Gang) : Gang := { g with spec := { g.spec with tstat := v.getD g.spec.tstat } }

/-- The state in which a command has been accepted. -/
def State.accepted (s : State) (u : Nat) (v : Option Word64) (c : Cmd) (d : Nat) : State :=
  { s.modGang u (Gang.tells v) with next := s.next + 1, cmds := s.cmds ++ [c], draw := d }

theorem State.modGang_tells_none (s : State) (u : Nat) : s.modGang u (Gang.tells none) = s := by
  have : s.gangs.map (fun x => if x.uid == u then Gang.tells none x else x) = s.gangs := by
    refine (List.map_congr_left (fun x _ => ?_)).trans (List.map_id _)
    split <;> rfl
  unfold State.modGang
  rw [this]

theorem State.accepted_none (s : State) (u : Nat) (c : Cmd) : s.accepted u none c s.draw = { s with next := s.next + 1, cmds := s.cmds ++ [c] } := by
  unfold State.accepted
  rw [State.modGang_tells_none]

theorem State.accepted_bytes (s : State) (u : Nat) (v : Option Word64) (c : Cmd) (d : Nat) : s.sameBytes (s.accepted u v c d) :=
  State.sameBytes_of rfl rfl rfl rfl rfl (fun _ => rfl)

theorem simtEnv_bytes (s : State) (g : Gang) (i : Instr) : s.sameBytes (simtEnv s g i).s := State.sameBytes_of rfl rfl rfl rfl rfl (fun _ => rfl)

/-- The command of a plan. -/
def Env.cmdOf (e : Env) (p : Plan) (fl : FlagRef) : Cmd :=
  let occupant := p.dst.bind (fun d => e.s.gangs.find? (fun g => g.inSlot && g.gcore == d.1 && g.slot == d.2))
  { id := e.s.next, uid := some e.g.uid, ctx := e.g.ctx, launch := e.g.launch, topup := e.g.topup, cluster := e.g.cluster, core := e.g.core
    slot := e.g.slot, gen := e.g.gen, engine := p.engine, egress := p.egress, kind := p.kind, flag := fl, mark := e.g.mark, future := p.future
    dstUid := occupant.map Gang.uid, dstGen := (occupant.map Gang.gen).getD 0 }

theorem engineSem_op {x : EF} {count : Env → Nat} {plan : Env → Except TrapInfo Plan} {e : Env} {p : Plan} {fl : FlagRef} (ha : e.acts = true)
    (hf : e.completionFlag x = some fl) (hp : plan e = .ok p) (hq : e.s.engineFull p.egress p.engine = false)
    (hc : ∀ t : State, t.dev = e.s.dev → ∀ ev n, t.count e.g ev n = t) :
    ∃ v d, (engineSem x count plan).op e = .ok { st := e.s.accepted e.g.uid v (e.cmdOf p fl) d } := by
  have hok : ∀ t : State, t.dev = e.s.dev → (.ok { st := t.count e.g 0x0E 1 } : Res) = .ok { st := t } := fun t ht => by rw [hc t ht]
  unfold engineSem
  dsimp only
  rw [hf, ha, hp]
  dsimp only
  rw [if_neg (by decide), hq, if_neg (by decide)]
  rcases p.tiles with _ | ⟨k, _ | ⟨j, l⟩⟩
  · refine ⟨none, e.s.draw, ?_⟩
    rw [State.accepted_none]
    exact hok { e.s with next := e.s.next + 1, cmds := e.s.cmds ++ [e.cmdOf p fl] } rfl
  · exact ⟨some (e.tstat k), e.s.draw, hok _ rfl⟩
  · exact ⟨some (e.tstat (if (Config.freeWord e.s.draw).getLsbD 0 then k else j)), e.s.draw + 1, hok _ rfl⟩

section
variable {s : State} {g : Gang} {i : Instr} {x : EF} {count : Env → Nat} {plan : Env → Except TrapInfo Plan} {p : Plan} {fl : FlagRef}

/-- A command that is accepted: it stands last in the list of commands, and its charge is that of its sectors (R59). -/
theorem run_engine (hq : s.calmFor g = true) (hm : s.muslinMode g.ctx = 0) (hi : Issues s g i) (he : ∃ st, g.executes i st = true)
    (hplan : ∀ ci ct, plan (simtEnv s (g.charge ci ct) i) = plan (simtEnv s g i)) (hp : plan (simtEnv s g i) = .ok p)
    (hf : (simtEnv s g i).completionFlag x = some fl) (hfull : s.engineFull p.egress p.engine = false) (hb : (count (simtEnv s g i) + 63) / 64 ≤ g.spec.tb.toNat) :
    ∃ t g' c, run i (engineSem x count plan) s = .next t ∧ t.gang? g.uid = some g' ∧ g'.pc = g.pc + 8 ∧
      Leaves { g with spec := { g.spec with tstat := g'.spec.tstat } } g' i ((count (simtEnv s g i) + 63) / 64) ∧ keepsRegs g g' ∧ s.sameBytes t ∧
      t.cmds = s.cmds ++ [c] ∧ c.uid = some g.uid ∧ c.ctx = g.ctx ∧ c.kind = p.kind ∧ c.future = p.future ∧ c.flag = fl ∧ c.engine = p.engine ∧
      c.egress = p.egress ∧ c.moved = 0 ∧ c.taken = false := by
  have hct : (engineSem x count plan).ct (simtEnv s g i) = (count (simtEnv s g i) + 63) / 64 := if_pos (simtEnv_acts (s := s) he 0 0)
  generalize hn : (count (simtEnv s g i) + 63) / 64 = ct at hct hb
  let e := simtEnv s (g.charge (ciOf i.maj) ct) i
  obtain ⟨v, d, hop⟩ := engineSem_op (count := count) (e := e) (simtEnv_acts he _ _) hf ((hplan _ _).trans hp) hfull
    (fun t ht => (State.calm_counters hq ht).1)
  have hl : (e.s.accepted g.uid v (e.cmdOf p fl) d).noLateTrap := State.noLateTrap_modGang g.uid (f := Gang.tells v) (fun _ => rfl) (hi.charged _ _).2
  have hg : (e.s.accepted g.uid v (e.cmdOf p fl) d).gang? g.uid = some ((g.charge (ciOf i.maj) ct).tells v) :=
    State.gang?_modGang_same (Gang.tells v) (fun _ => rfl) (hi.charged _ _).1
  have ho : (e.s.accepted g.uid v (e.cmdOf p fl) d).onlySeals g :=
    State.onlySeals_modGang (State.onlySeals_charged hq i _ _) (F := Gang.tells v) (fun _ => rfl) (fun _ => rfl)
  have hseal := State.commit_sealed (i := i) (ci := ciOf i.maj) (ct := ct) (f := { st := e.s.accepted g.uid v (e.cmdOf p fl) d }) hq rfl
    (fun y hy => State.calmFor_flights hq y hy) ho hm hl
  obtain ⟨t, g', h1, h2, h3, h4, h5, h6, h7, h8⟩ := run_leaves (g0 := g.tells v) hi hct hb hop hl hg rfl hi.unsealed
  have ht : t = State.commit i e { st := e.s.accepted g.uid v (e.cmdOf p fl) d } (ciOf i.maj) ct := by
    have hrun := run_ok (m := engineSem x count plan) hi (by rw [hct]; exact hb) (by rw [hct]; exact hop)
    rw [hct] at hrun
    exact Host.Outcome.next.inj (h1.symm.trans hrun)
  have hb1 : s.sameBytes (e.s.accepted g.uid v (e.cmdOf p fl) d) := State.sameBytes_trans (simtEnv_bytes s (g.charge (ciOf i.maj) ct) i) (State.accepted_bytes ..)
  have htell : g'.spec.tstat = (g.tells v).spec.tstat := (congrArg Spec.tstat h3.spec :)
  refine ⟨t, g', e.cmdOf p fl, h1, h2, h4, ?_, ⟨h5, h6, h7, h8.trans (fxSet_zero _)⟩, ?_, ?_, rfl, rfl, rfl, rfl, rfl, rfl, rfl, rfl, rfl⟩
  · rw [htell]
    exact h3
  · rw [ht]
    exact State.sameBytes_trans hb1 (State.sameBytes_trans (State.issued_bytes ..) (State.sameBytes_trans (State.sealed_bytes _) hseal.bytes))
  · rw [ht]
    exact (congrArg State.cmds hseal.rest).trans (State.issued_frame State.cmds (fun _ _ => rfl) (fun _ _ => rfl) (fun _ _ => rfl) (fun _ _ => rfl) (fun _ _ => rfl) ..)

end

/-! ## GSET and ESTS (R293, R298) -/

section
variable {s t : State} {g : Gang} {i : Instr} {m : Sem}

/-- A calm instruction that does not seal, with an effect that keeps the calm, changes no byte and accepts no command that its effect does not. -/
theorem run_frame {f : Eff} (hi : Issues s g i) (hs : i.seals = false) (hct : m.ct (simtEnv s g i) = 0)
    (hop : m.op (simtEnv s (g.charge (ciOf i.maj) 0) i) = .ok f) (hq : f.st.calmFor g = true) (hl : f.st.noLateTrap) (hr : run i m s = .next t) :
    f.st.sameBytes t ∧ t.cmds = f.st.cmds := by
  have hrun := run_ok (m := m) hi (by rw [hct]; exact Nat.zero_le _) (by rw [hct]; exact hop)
  rw [hct] at hrun
  have ht := (Host.Outcome.next.inj (hr.symm.trans hrun)).trans (State.commit_eq_issued (e := simtEnv s (g.charge (ciOf i.maj) 0) i) hq hl hs)
  rw [ht]
  exact ⟨State.issued_bytes .., State.issued_frame State.cmds (fun _ _ => rfl) (fun _ _ => rfl) (fun _ _ => rfl) (fun _ _ => rfl) (fun _ _ => rfl) ..⟩

/-- The same where its effect is on registers alone. -/
theorem run_frame_regs {ws : List RegWrite} (hi : Issues s g i) (hs : i.seals = false) (hct : m.ct (simtEnv s g i) = 0)
    (hop : m.op (simtEnv s (g.charge (ciOf i.maj) 0) i) = .ok { st := (simtEnv s (g.charge (ciOf i.maj) 0) i).s, writes := ws })
    (hq : s.calmFor g = true) (hr : run i m s = .next t) : s.sameBytes t ∧ t.cmds = s.cmds := by
  obtain ⟨h1, h2⟩ := run_frame hi hs hct hop (State.calmFor_charged hi.here hq _ _ i) (hi.charged _ _).2 hr
  exact ⟨State.sameBytes_trans (simtEnv_bytes s (g.charge (ciOf i.maj) 0) i) h1, h2⟩

end

section
variable {s : State} {g : Gang} {h : Hd} {x : RF}

/-- A 32-bit register takes no more of a number than its 128-bit pattern holds. -/
theorem gets_ofNat {y : Gang} {i : Instr} {d : Reg} {n : Nat} (hg : gets g y i d .w32 (fun _ => (BitVec.ofNat 128 n).toNat)) :
    gets g y i d .w32 (fun _ => n) := by
  refine ⟨fun hd st he q hq => (hg.1 hd st he q hq).trans ?_, fun h1 h2 st he hlow => (hg.2 h1 h2 st he hlow).trans ?_⟩
  · have hq0 : q = 0 := Nat.lt_one_iff.1 hq
    subst hq0
    apply BitVec.eq_of_toNat_eq
    simp only [BitVec.toNat_ofNat]
    omega
  · have hw : 2 ^ (32 * min 2 (OpW.words .w32)) = 2 ^ 32 := rfl
    rw [hw]
    apply BitVec.eq_of_toNat_eq
    simp only [BitVec.toNat_ofNat]
    omega

theorem run_gset (hpo : g.regs.poison = []) (hq : s.calmFor g = true) (hi : Issues s g (.gset h x)) (he : ∃ st, g.executes (.gset h x) st = true) :
    ∃ t g', exec (.gset h x) s = .next t ∧ t.gang? g.uid = some g' ∧ g'.pc = g.pc + 8 ∧ Leaves g g' (.gset h x) 0 ∧
      g'.regs.g.get (x.d.toNat % 16) = (simtEnv s g (.gset h x)).uniform { f := x.a, w := .w64, base := true } ∧
      (∀ n, n ≠ x.d.toNat % 16 → g'.regs.g.get n = g.regs.g.get n) ∧ g'.regs.v = g.regs.v ∧ g'.regs.s = g.regs.s ∧ s.sameBytes t := by
  have hop : (semGset h x).op (simtEnv s (g.charge (ciOf (Instr.gset h x).maj) 0) (.gset h x)) =
      .ok { st := (simtEnv s (g.charge (ciOf (Instr.gset h x).maj) 0) (.gset h x)).s
            writes := [{ dst := .g (x.d.toNat % 16), val := (simtEnv s g (.gset h x)).uniform { f := x.a, w := .w64, base := true } }] } := by
    unfold semGset
    dsimp only
    rw [simtEnv_acts he, Env.srcPoison_none (e := simtEnv s (g.charge (ciOf (Instr.gset h x).maj) 0) (.gset h x)) hpo]
    rfl
  obtain ⟨t, g', h1, h2, h3, h4, h5, _⟩ := run_passes (m := semGset h x) hi rfl (Nat.zero_le _) hop rfl rfl
  refine ⟨t, g', h1, h2, h4, h3, ?_, fun n hn => ?_, by rw [h5]; rfl, by rw [h5]; rfl, (run_frame_regs hi rfl rfl hop hq h1).1⟩
  · rw [h5]
    exact (File.get_put ..).trans (if_pos rfl)
  · rw [h5]
    exact (File.get_put ..).trans (if_neg (Ne.symm hn))

theorem run_estsQ (hq : s.calmFor g = true) (hi : Issues s g (.estsQ h x)) (he : ∃ st, g.executes (.estsQ h x) st = true) :
    let mine := s.cmds.filter (fun c => c.uid == some g.uid)
    ∃ t g', exec (.estsQ h x) s = .next t ∧ t.gang? g.uid = some g' ∧ g'.pc = g.pc + 8 ∧ Leaves g g' (.estsQ h x) 0 ∧
      WroteOnly g g' (.estsQ h x) x.d .w32 ∧ s.sameBytes t ∧ t.cmds = s.cmds ∧
      gets g g' (.estsQ h x) x.d .w32 (fun _ => min 255 (mine.filter (fun c => !c.egress)).length + 256 * min 255 (mine.filter (fun c => c.egress)).length +
        65536 * ((s.core g.gcore).mq.filter (fun m => m.uid == g.uid)).length) := by
  intro mine
  generalize hn : min 255 (mine.filter (fun c => !c.egress)).length + 256 * min 255 (mine.filter (fun c => c.egress)).length +
        65536 * ((s.core g.gcore).mq.filter (fun m => m.uid == g.uid)).length = n
  have hop : (semEstsQ h x).op (simtEnv s (g.charge (ciOf (Instr.estsQ h x).maj) 0) (.estsQ h x)) =
      .ok { st := (simtEnv s (g.charge (ciOf (Instr.estsQ h x).maj) 0) (.estsQ h x)).s
            writes := ((simtEnv s (g.charge (ciOf (Instr.estsQ h x).maj) 0) (.estsQ h x)).parts.map (fun st =>
              (simtEnv s (g.charge (ciOf (Instr.estsQ h x).maj) 0) (.estsQ h x)).dst x.d .w32 st (BitVec.ofNat 128 n))).flatten } := by
    rw [← simtEnv_dstWide he, ← hn]
    unfold semEstsQ
    dsimp only
    rw [simtEnv_acts he]
    rfl
  obtain ⟨t, g', h1, h2, h3, h4, h5, h6, _⟩ := run_strands (m := semEstsQ h x) hi rfl (fun _ => BitVec.ofNat 128 n) hop
  obtain ⟨hb, hc⟩ := run_frame_regs hi rfl rfl hop hq h1
  exact ⟨t, g', h1, h2, h3, h4, h5, hb, hc, gets_ofNat h6⟩

theorem run_estsErr (hq : s.calmFor g = true) (hi : Issues s g (.estsErr h x)) (he : ∃ st, g.executes (.estsErr h x) st = true) :
    ∃ t g', exec (.estsErr h x) s = .next t ∧ t.gang? g.uid = some g' ∧ g'.pc = g.pc + 8 ∧
      Leaves { g with spec := { g.spec with eerr := 0 } } g' (.estsErr h x) 0 ∧ WroteOnly g g' (.estsErr h x) x.d .w32 ∧ s.sameBytes t ∧
      gets g g' (.estsErr h x) x.d .w32 (fun _ => g.spec.eerr.toNat) := by
  let e := simtEnv s (g.charge (ciOf (Instr.estsErr h x).maj) 0) (.estsErr h x)
  let F : Gang → Gang := fun g => { g with spec := { g.spec with eerr := 0 } }
  have hop : (semEstsErr h x).op e = .ok { st := e.s.modGang g.uid F, writes := (e.parts.map (fun st => e.dst x.d .w32 st (g.spec.eerr.setWidth 128))).flatten } := by
    rw [← simtEnv_dstWide he]
    unfold semEstsErr
    dsimp only
    rw [simtEnv_acts he]
    rfl
  have hl : (e.s.modGang g.uid F).noLateTrap := State.noLateTrap_modGang g.uid (f := F) (fun _ => rfl) (hi.charged _ _).2
  obtain ⟨t, g', h1, h2, h3, h4, h5, h6⟩ := run_respec (m := semEstsErr h x) (sp := { g.spec with eerr := 0 }) hi rfl hop hl
    (State.gang?_modGang_same F (fun _ => rfl) (hi.charged _ _).1) rfl
  obtain ⟨hb, _⟩ := run_frame hi rfl rfl hop (State.calmFor_modGang g.uid (f := F) (fun _ => ⟨rfl, rfl, rfl⟩) (State.calmFor_charged hi.here hq _ _ _)) hl h1
  refine ⟨t, g', h1, h2, h3, h4, h5, State.sameBytes_trans (State.sameBytes_trans (simtEnv_bytes ..) (State.sameBytes_modGang ..)) hb, ?_⟩
  have hv : (g.spec.eerr.setWidth 128 : BitVec 128).toNat = g.spec.eerr.toNat := by
    rw [BitVec.toNat_setWidth]
    exact Nat.mod_eq_of_lt (Nat.lt_of_lt_of_le g.spec.eerr.isLt (by decide))
  rw [← hv]
  exact h6

/-- Settles O47: engine commands are accepted with their charge, GSET writes a staging register, ESTS counts and tells errors. -/
theorem engineIssue : Obligations.EngineIssue := by
  unfold Obligations.EngineIssue
  intro s g h hpo hq hm
  refine ⟨fun x => ⟨fun p fl hi he hp hf hfull hb => ?_, fun p fl hi he hp hf hfull hb => ?_, fun p fl hi he hp hf hfull hb => ?_,
    fun p fl hi he hp hf hfull hb => ?_⟩, fun x hi he => run_gset hpo hq hi he, fun x hi he => run_estsQ hq hi he, fun x hi he => run_estsErr hq hi he⟩
  · exact run_engine hq hm hi he (fun ci ct => copyPlan_charged s g _ x ci ct) hp hf hfull hb
  · exact run_engine hq hm hi he (fun ci ct => strmPlan_charged s g _ x false ci ct) hp hf hfull hb
  · exact run_engine hq hm hi he (fun ci ct => strmPlan_charged s g _ x true ci ct) hp hf hfull hb
  · exact run_engine hq hm hi he (fun ci ct => netxPlan_charged s g _ x ci ct) hp hf hfull hb

end

end Sys2Proof.Machine
end

section
/-! SUPPORT. An issue whose effect leaves operations in flight, at any charge: no seal is due, or the gang waits before it takes it. -/

namespace Sys2Proof.Machine

/-- Every gang of a number waits for operations of its own. -/
def State.blocked (s : State) (u : Nat) : Prop := ∀ y ∈ s.gangs, y.uid = u → y.iss.block ≠ []

/-- A calm issue after which its gang waits, or that does not seal, ends with its marks. -/
theorem State.commit_blocked {i : Instr} {e : Env} {f : Eff} {ci ct : Nat} (hq : f.st.calmFor e.g = true) (hl : f.st.noLateTrap)
    (hb : i.seals = true → f.st.blocked e.g.uid) : State.commit i e f ci ct = State.issued i e f ci ct := by
  cases hs : i.seals with
  | false => exact State.commit_eq_issued hq hl hs
  | true =>
    refine (State.commit_issued hq rfl).trans (State.pump_calm (fun x hx => ?_) (fun x hx => ?_) (State.issued_noLateTrap hl))
    · rw [State.issued_flights] at hx
      obtain ⟨y, hy, rfl⟩ := List.mem_map.1 hx
      have hr := State.calmFor_flights hq y hy
      split
      · exact hr
      · exact hr
    · rcases State.issued_others hx with ⟨y, hy, hu, rfl⟩ | ⟨_, hy⟩
      · obtain ⟨_, h2, h3⟩ := State.calmFor_sealless hq y hy
        obtain ⟨h4, h5⟩ := y.issued_split i f e.npc (f.next.getD e.npc) f.st.clock.el ci ct
        exact ⟨Gang.takeSeal_blocked (by rw [Gang.issued_block]; exact hb hs y hy hu), h4.trans h2, h5.trans h3⟩
      · obtain ⟨h1, h2, h3⟩ := State.calmFor_sealless hq x hy
        exact ⟨Gang.takeSeal_none h1, h2, h3⟩

theorem State.blocked_awaits (s : State) (u : Nat) {ids : List Nat} (h : ids ≠ []) : (s.modGang u (Gang.awaits ids)).blocked u := by
  intro y hy hu
  obtain ⟨z, _, rfl⟩ := List.mem_map.1 (show y ∈ s.gangs.map (fun z => if z.uid == u then z.awaits ids else z) from hy)
  split
  · simp [Gang.awaits, h]
  · next hn =>
    rw [if_neg hn] at hu
    exact absurd (beq_iff_eq.2 hu) hn

/-- What an effect that changes no register and no byte must be for its issue to leave it as it is. -/
structure Sends (s Y : State) (g y g0 : Gang) (i : Instr) (ct : Nat) (new : List Flight) : Prop where
  calm  : Y.calmFor g = true
  late  : Y.noLateTrap
  gang  : Y.gang? g.uid = some y
  pass  : y.pass = (g0.charge (ciOf i.maj) ct).pass
  unsealed : g0.iss.sealTo = none ∧ g0.iss.splitTo = none
  out   : Y.flights = s.flights ++ new
  bytes : s.sameBytes Y

/-- An issue of such an effect. -/
theorem run_sends {s Y : State} {g y g0 : Gang} {i : Instr} {m : Sem} {ct : Nat} {new : List Flight} (h : Issues s g i) (hs : Sends s Y g y g0 i ct new)
    (hb : i.seals = true → Y.blocked g.uid) (hct : m.ct (simtEnv s g i) = ct) (hfit : ct ≤ g.spec.tb.toNat) (hop : m.op (simtEnv s (g.charge (ciOf i.maj) ct) i) = .ok { st := Y }) :
    ∃ t g', run i m s = .next t ∧ t.gang? g.uid = some g' ∧ g'.pc = g.pc + 8 ∧ Leaves g0 g' i ct ∧ keepsRegs g0 g' ∧ s.sameBytes t ∧
      (y.iss.block ≠ [] → g'.cannotIssue t.cycle = true) ∧ t.ctxs = Y.ctxs ∧
      ∃ l, t.flights = s.flights ++ l ∧ l.map Flight.request = new.map Flight.request := by
  obtain ⟨t, g', h1, h2, h3, h4, h5, h6, h7, h8⟩ := run_leaves (g0 := g0) h hct hfit hop hs.late hs.gang hs.pass hs.unsealed
  have hrun := run_ok (m := m) h (by rw [hct]; exact hfit) (by rw [hct]; exact hop)
  rw [hct] at hrun
  have ht : t = State.issued i (simtEnv s (g.charge (ciOf i.maj) ct) i) { st := Y } (ciOf i.maj) ct :=
    (Host.Outcome.next.inj (h1.symm.trans hrun)).trans (State.commit_blocked (e := simtEnv s (g.charge (ciOf i.maj) ct) i) hs.calm hs.late hb)
  obtain ⟨l, hl, hf⟩ := State.issued_requests (i := i) (e := simtEnv s (g.charge (ciOf i.maj) ct) i) (f := { st := Y }) (ci := ciOf i.maj) (ct := ct) hs.out
  refine ⟨t, g', h1, h2, h4, h3, ⟨h5, h6, h7, h8.trans (fxSet_zero _)⟩, ?_, fun hb => ?_, ?_, l, ?_, hl⟩
  · rw [ht]
    exact State.sameBytes_trans hs.bytes (State.issued_bytes ..)
  · have hgX := State.gang?_issued (i := i) (e := simtEnv s (g.charge (ciOf i.maj) ct) i) (f := { st := Y }) (ci := ciOf i.maj) (ct := ct) hs.gang
    rw [Option.some.inj ((h2.symm.trans (congrArg (fun z => z.gang? g.uid) ht)).trans hgX)]
    exact Gang.cannotIssue_of_block (by rw [Gang.issued_block]; exact hb) _
  · rw [ht]
    exact State.issued_ctxs ..
  · rw [ht]
    exact hf

/-- One operation that leaves and for which its gang waits. -/
theorem State.launchBlocking_sends {s Z : State} {g z g0 : Gang} {i : Instr} {ct : Nat} {f : Flight} (hq : Z.calmFor g = true) (hl : Z.noLateTrap)
    (hg : Z.gang? g.uid = some z) (hp : z.pass = (g0.charge (ciOf i.maj) ct).pass) (h0 : g0.iss.sealTo = none ∧ g0.iss.splitTo = none)
    (hf : Z.flights = s.flights) (hb : s.sameBytes Z) (hr : f.releases = false) :
    ∃ x, x.request = f.request ∧ (Z.launchBlocking g.uid f).blocked g.uid ∧ Sends s (Z.launchBlocking g.uid f) g (z.awaits [Z.next]) g0 i ct [x] := by
  obtain ⟨x, hx, hreq⟩ := Z.launchFlight_request f
  have hY : Z.launchBlocking g.uid f = ({ Z with next := Z.next + 1, flights := Z.flights ++ [x] } : State).modGang g.uid (Gang.awaits [Z.next]) :=
    congrArg (fun t : State => t.modGang g.uid (Gang.awaits [Z.next])) hx
  refine ⟨x, hreq, State.blocked_awaits _ g.uid (List.cons_ne_nil _ _), ⟨?_, ?_, ?_, hp, h0, ?_, ?_⟩⟩
  · rw [hY]
    refine State.calmFor_modGang g.uid (f := Gang.awaits [Z.next]) (fun _ => ⟨rfl, rfl, rfl⟩) (State.calmFor_of (s := Z) (fun y hy => ?_) (fun y hy => ⟨y, hy, rfl, rfl, rfl⟩) rfl hq)
    rcases List.mem_append.1 (show y ∈ Z.flights ++ [x] from hy) with h | h
    · exact Or.inl h
    · right
      rw [List.mem_singleton.1 h]
      exact (congrArg Flight.releases hreq :).trans hr
  · rw [hY]
    exact State.noLateTrap_modGang (s := { Z with next := Z.next + 1, flights := Z.flights ++ [x] }) g.uid (f := Gang.awaits [Z.next]) (fun _ => rfl) hl
  · rw [hY]
    exact State.gang?_modGang_same (s := { Z with next := Z.next + 1, flights := Z.flights ++ [x] }) (Gang.awaits [Z.next]) (fun _ => rfl) hg
  · rw [hY]
    exact congrArg (· ++ [x]) hf
  · rw [hY]
    exact State.sameBytes_trans hb (State.sameBytes_of rfl rfl rfl rfl rfl (fun _ => rfl))

end Sys2Proof.Machine
end

section
/-! PROOFS. SPAWN (R77, R253, R254): one append with its grants leaves the gang, its room is reserved, and the gang waits. -/

namespace Sys2Proof.Machine

/-! ## Grants and room -/

theorem grants_length (n G T ib tb : Nat) : (grants n G T ib tb).1.length = n := by
  have key : ∀ (l : List Nat) (acc : List (Nat × Nat) × Nat × Nat), (l.foldl (fun acc _ =>
      let gi := min G acc.2.1
      let gt := min T acc.2.2
      (acc.1 ++ [(gi, gt)], acc.2.1 - gi, acc.2.2 - gt)) acc).1.length = acc.1.length + l.length := by
    intro l
    induction l with
    | nil => exact fun _ => rfl
    | cons a l ih =>
      intro acc
      rw [List.foldl_cons, ih]
      simp only [List.length_append, List.length_cons, List.length_nil]
      omega
  exact (key (List.range n) ([], ib, tb)).trans (by simp)

/-- Reserving room changes the context alone, its count of lost stores not with it. -/
theorem State.reserve_eq (s : State) (c n k m : Nat) : s.reserve c n k m = { s with ctxs := (s.reserve c n k m).ctxs } := by
  unfold State.reserve
  dsimp only
  split <;> rfl

theorem State.reserve_losses (s : State) (c n k m : Nat) : (s.reserve c n k m).losses = s.losses := by
  have h1 : (s.modBin c n (fun b => { b with reserved := b.reserved + k })).losses = s.losses := State.losses_modCtx _ _ _ (fun _ => rfl)
  unfold State.reserve
  dsimp only
  split
  · exact h1
  · refine Eq.trans ?_ h1
    exact State.losses_modCtx _ _ _ (fun _ => rfl)

theorem State.reserve_bin (s : State) (c n k m : Nat) : ((s.reserve c n k m).bin c n).reserved = (s.bin c n).reserved + k := by
  have h1 : ((s.modBin c n (fun b => { b with reserved := b.reserved + k })).bin c n).reserved = (s.bin c n).reserved + k := by
    rw [State.bin_modBin]
  unfold State.reserve
  dsimp only
  split
  · exact h1
  · refine Eq.trans ?_ h1
    unfold State.bin
    rw [State.ctx_modCtx_same]

/-! ## The append of a SPAWN -/

/-- The gang of a SPAWN once its grants have been taken from its budgets. -/
def Gang.granting (ib tb : Nat) (g : Gang) : Gang :=
  { g with spec := { g.spec with ib := BitVec.ofNat 32 ib, tb := BitVec.ofNat 32 tb }, iss := { g.iss with drained := ib == 0 || tb == 0 } }

/-- The strands whose records a SPAWN sends. -/
def spawning (one : Bool) (e : Env) : List Nat := if one then e.parts.take 1 else e.parts

/-- The amount of a SPAWN: what each record may take of both budgets. -/
def spawnAmount (x : IF) (e : Env) : Word64 := if x.a = 255#8 then 0 else e.uniform { f := x.a, w := .w64, base := true }

/-- The records of a SPAWN. -/
def spawnRecs (x : IF) (one : Bool) (e : Env) (w : Nat) (gr : List (Nat × Nat)) : List Record :=
  ((spawning one e).zip gr).map (fun p => { words := e.recordOf x.d.toNat w p.1, time := 0, elapsed := 0, src := 0, granted := spawnAmount x e != 0,
                                             gi := p.2.1, gt := p.2.2, launch := e.g.launch, topup := e.g.topup })

/-- The grants of a SPAWN and the budgets that they leave. -/
def spawnGrants (x : IF) (one : Bool) (e : Env) : List (Nat × Nat) × Nat × Nat :=
  grants (spawning one e).length (bits64 (spawnAmount x e) 31 0) (bits64 (spawnAmount x e) 63 32) e.g.spec.ib.toNat e.g.spec.tb.toNat

/-- The append of a SPAWN to a node, with room for k of its records in the bin. -/
def spawnFlight (x : IF) (one : Bool) (e : Env) (k : Nat) (s : State) : Flight :=
  ({ e with s := s } : Env).flight (.append 2 (16 * e.g.gcore + e.g.slot) (x.imm.toNat % 65536) k
    (spawnRecs x one e (e.s.nodeOf e.g.ctx (x.imm.toNat % 65536)).recw (spawnGrants x one e).1)) true

/-- The state of a SPAWN before its append: its room is reserved and its grants are taken. -/
def spawnState (x : IF) (one : Bool) (e : Env) (k : Nat) : State :=
  (e.s.reserve e.g.ctx (x.imm.toNat % 65536) k (spawning one e).length).modGang e.g.uid (Gang.granting (spawnGrants x one e).2.1 (spawnGrants x one e).2.2)

theorem spawnSem_op {x : IF} {one : Bool} {e : Env} {k : Nat} (hpo : e.g.regs.poison = []) (hl : e.g.lostStore = false) (hp : e.parts ≠ [])
    (hv : (e.s.nodeOf e.g.ctx (x.imm.toNat % 65536)).valid = true) (hd : x.d.toNat + (e.s.nodeOf e.g.ctx (x.imm.toNat % 65536)).recw ≤ 128)
    (hr : e.s.roomFor e.g.ctx (x.imm.toNat % 65536) (spawning one e).length = some k) :
    (spawnSem x one).op e = .ok { st := (spawnState x one e k).launchBlocking e.g.uid (spawnFlight x one e k e.s) } := by
  have hpv : ∀ st r, e.g.poisonV st r = false := fun st r => by
    unfold Gang.poisonV
    rw [hpo]
    rfl
  have hrt : e.releaseTrap = none := if_neg (by rw [hl]; decide)
  have ham : (if (x.a == 255#8) = true then 0 else e.uniform { f := x.a, w := .w64, base := true }) = spawnAmount x e := by
    simp only [spawnAmount, beq_iff_eq]
  unfold spawnSem
  dsimp only
  rw [if_neg (by simpa using hp), if_neg (by rw [hv]; simpa using hd), if_neg (by simp [hpv, Env.srcPoison_none hpo]), hrt]
  dsimp only
  rw [show (if one = true then List.take 1 e.parts else e.parts) = spawning one e from rfl, hr, ham]
  rfl

section
variable {s : State} {g : Gang} {i : Instr} {x : IF} {one : Bool} {k : Nat}

/-- The gang from which a SPAWN's own is told: its budgets are what the grants leave, and its charge is still to be taken. -/
def Gang.beforeGrants (i : Instr) (ib tb : Nat) (g : Gang) : Gang :=
  { g.granting ib tb with spec := { g.spec with ib := BitVec.ofNat 32 ib + BitVec.ofNat 32 (ciOf i.maj), tb := BitVec.ofNat 32 tb } }

theorem Gang.beforeGrants_charge (i : Instr) (ib tb : Nat) (g : Gang) :
    (g.beforeGrants i ib tb).charge (ciOf i.maj) 0 = (g.charge (ciOf i.maj) 0).granting ib tb := by
  have h1 : BitVec.ofNat 32 ib + BitVec.ofNat 32 (ciOf i.maj) - BitVec.ofNat 32 (ciOf i.maj) = BitVec.ofNat 32 ib := BitVec.add_sub_cancel ..
  have h2 : BitVec.ofNat 32 tb - BitVec.ofNat 32 0 = BitVec.ofNat 32 tb := BitVec.sub_zero _
  unfold Gang.charge Gang.beforeGrants
  rw [h1, h2]
  rfl

/-- The state of a SPAWN before its append is as calm as the one that it issued in. -/
theorem spawnState_facts (hi : Issues s g i) (hq : s.calmFor g = true) :
    let Z := spawnState x one (paidEnv s g i) k
    Z.calmFor g = true ∧ Z.noLateTrap ∧
      Z.gang? g.uid = some ((g.charge (ciOf i.maj) 0).granting (spawnGrants x one (paidEnv s g i)).2.1 (spawnGrants x one (paidEnv s g i)).2.2) ∧
      Z.flights = s.flights ∧ s.sameBytes Z ∧ (Z.bin g.ctx (x.imm.toNat % 65536)).reserved = (s.bin g.ctx (x.imm.toNat % 65536)).reserved + k := by
  intro Z
  generalize hG : Gang.granting (spawnGrants x one (paidEnv s g i)).2.1 (spawnGrants x one (paidEnv s g i)).2.2 = G
  have hGu : ∀ y, (G y).uid = y.uid := fun _ => by rw [← hG]; rfl
  have hGl : ∀ y, (G y).late = y.late := fun _ => by rw [← hG]; rfl
  have hGi : ∀ y, (G y).iss.sealTo = y.iss.sealTo ∧ (G y).iss.splitTo = y.iss.splitTo ∧ (G y).iss.mseal = y.iss.mseal := fun _ => by rw [← hG]; exact ⟨rfl, rfl, rfl⟩
  have hZ : Z = ((paidEnv s g i).s.reserve g.ctx (x.imm.toNat % 65536) k (spawning one (paidEnv s g i)).length).modGang g.uid G := by rw [← hG]; rfl
  generalize hR : (paidEnv s g i).s.reserve g.ctx (x.imm.toNat % 65536) k (spawning one (paidEnv s g i)).length = R at hZ
  have hRe : R = { (paidEnv s g i).s with ctxs := R.ctxs } := by rw [← hR]; exact State.reserve_eq ..
  have hgangs : R.gangs = (paidEnv s g i).s.gangs := by rw [hRe]
  rw [hZ]
  refine ⟨?_, ?_, ?_, ?_, ?_, ?_⟩
  · refine State.calmFor_modGang g.uid hGi ?_
    rw [hRe]
    exact State.calmFor_charged hi.here hq (ciOf i.maj) 0 i
  · refine State.noLateTrap_modGang g.uid hGl (State.noLateTrap_passed (s := (paidEnv s g i).s) (congrArg passed hgangs) ?_ (hi.charged _ _).2)
    rw [← hR]
    exact State.reserve_losses ..
  · refine State.gang?_modGang_same G hGu ?_
    rw [hRe]
    exact (hi.charged _ _).1
  · show R.flights = _
    rw [hRe]
    rfl
  · refine State.sameBytes_trans ?_ (State.sameBytes_modGang ..)
    rw [hRe]
    exact State.sameBytes_of rfl rfl rfl rfl rfl (fun _ => rfl)
  · show (R.bin _ _).reserved = _
    rw [← hR]
    exact State.reserve_bin ..

/-- What a SPAWN leaves of its gang: its grants taken from the budgets that its charge has left. -/
theorem run_spawn (hm : ciOf i.maj = 4) (hpo : g.regs.poison = []) (hq : s.calmFor g = true) (hl : g.lostStore = false) (hi : Issues s g i)
    (he : ∃ st, g.executes i st = true) (hv : (s.nodeOf g.ctx (x.imm.toNat % 65536)).valid = true)
    (hd : x.d.toNat + (s.nodeOf g.ctx (x.imm.toNat % 65536)).recw ≤ 128)
    (hr : s.roomFor g.ctx (x.imm.toNat % 65536) (spawning one (simtEnv s g i)).length = some k) :
    let e := simtEnv s g i
    let who := spawning one e
    let nd := s.nodeOf g.ctx (x.imm.toNat % 65536)
    let gr := grants who.length (bits64 (spawnAmount x e) 31 0) (bits64 (spawnAmount x e) 63 32) (g.spec.ib.toNat - 4) g.spec.tb.toNat
    ∃ t g' f recs, run i (spawnSem x one) s = .next t ∧ t.gang? g.uid = some g' ∧ g'.pc = g.pc + 8 ∧ keepsRegs g g' ∧
      Leaves { g with spec := { g.spec with ib := g'.spec.ib + BitVec.ofNat 32 (ciOf i.maj), tb := g'.spec.tb } } g' i 0 ∧
      g'.spec.ib = BitVec.ofNat 32 gr.2.1 ∧ g'.spec.tb = BitVec.ofNat 32 gr.2.2 ∧ s.sameBytes t ∧
      t.flights = s.flights ++ [f] ∧ f.uid = some g.uid ∧ f.kind = .append 2 (16 * g.gcore + g.slot) (x.imm.toNat % 65536) k recs ∧
      recs.map Record.words = who.map (fun st => (List.range nd.recw).map (fun j => g.v st (x.d.toNat + j))) ∧
      recs.map (fun r => (r.gi, r.gt)) = gr.1 ∧ (t.bin g.ctx (x.imm.toNat % 65536)).reserved = (s.bin g.ctx (x.imm.toNat % 65536)).reserved + k ∧
      g'.cannotIssue t.cycle = true := by
  intro e0 who nd gr
  let e := paidEnv s g i
  have hib : (g.charge (ciOf i.maj) 0).spec.ib.toNat = g.spec.ib.toNat - 4 := by
    have hpay := hi.pays
    show (g.spec.ib - BitVec.ofNat 32 (ciOf i.maj)).toNat = _
    rw [hm] at hpay ⊢
    bv_omega
  have htb : (g.charge (ciOf i.maj) 0).spec.tb.toNat = g.spec.tb.toNat := by
    show (g.spec.tb - BitVec.ofNat 32 0).toNat = _
    bv_omega
  have hgr : spawnGrants x one e = gr := by
    show grants who.length _ _ (g.charge (ciOf i.maj) 0).spec.ib.toNat (g.charge (ciOf i.maj) 0).spec.tb.toNat = _
    rw [hib, htb]
    rfl
  have hparts : e.parts ≠ [] := by
    obtain ⟨st, hst⟩ := he
    have : e.parts = (List.range 32).filter (g.executes i) := simtEnv_parts ..
    rw [this]
    exact List.ne_nil_of_mem (List.mem_filter.2 ⟨List.mem_range.2 (Gang.executes_lt hst), hst⟩)
  have hop := spawnSem_op (one := one) (e := e) hpo hl hparts hv hd hr
  obtain ⟨hZq, hZl, hZg, hZf, hZb, hZr⟩ := spawnState_facts (x := x) (one := one) (k := k) hi hq
  obtain ⟨f, hf, hblk, hsend⟩ := State.launchBlocking_sends (i := i) (ct := 0) (g0 := g.beforeGrants i (spawnGrants x one e).2.1 (spawnGrants x one e).2.2)
    (f := spawnFlight x one e k e.s) hZq hZl hZg (by rw [Gang.beforeGrants_charge]) hi.unsealed hZf hZb rfl
  obtain ⟨t, g', h1, h2, h3, h4, h5, h6, h7, h8, l, h9, h10⟩ := run_sends (m := spawnSem x one) hi hsend (fun _ => hblk) rfl (Nat.zero_le _) hop
  obtain ⟨f', hl', hreq⟩ : ∃ f', l = [f'] ∧ f'.request = (spawnFlight x one e k e.s).request := by
    rcases l with _ | ⟨f', _ | ⟨_, _⟩⟩
    · cases h10
    · exact ⟨f', rfl, (List.cons.inj h10).1.trans hf⟩
    · cases (List.cons.inj h10).2
  subst hl'
  have hlen : (spawnGrants x one e).1.length = (spawning one e).length := grants_length ..
  have hspec := h4.spec
  have hib' : g'.spec.ib = BitVec.ofNat 32 (spawnGrants x one e).2.1 := (congrArg Spec.ib hspec :).trans (BitVec.add_sub_cancel ..)
  have htb' : g'.spec.tb = BitVec.ofNat 32 (spawnGrants x one e).2.2 := (congrArg Spec.tb hspec :).trans (BitVec.sub_zero _)
  refine ⟨t, g', f', spawnRecs x one e nd.recw (spawnGrants x one e).1, h1, h2, h3, h5, ?_, hgr ▸ hib', hgr ▸ htb', h6, h9,
    (congrArg Flight.uid hreq :), (congrArg Flight.kind hreq :), ?_, ?_, ?_, h7 (by simp [Gang.awaits])⟩
  · rw [hib', htb']
    exact ⟨h4.spec, h4.ctl, h4.rest, h4.park, h4.pend⟩
  · unfold spawnRecs
    rw [List.map_map]
    have hz := List.map_fst_zip (l₁ := spawning one e) (l₂ := (spawnGrants x one e).1) (by omega)
    have hw : who = spawning one e := rfl
    rw [hw, ← hz, List.map_map, hz]
    rfl
  · rw [← hgr]
    unfold spawnRecs
    rw [List.map_map]
    exact List.map_snd_zip (by omega)
  · unfold State.bin State.ctx
    rw [h8]
    exact hZr

end

/-- Settles O32: both forms of SPAWN send their records with their grants in one append. -/
theorem spawn : Obligations.Spawn := by
  unfold Obligations.Spawn
  intro s g h x one hpo hq hl i e node nd who amount gr hi he hv hd keep hr
  have hm : ciOf i.maj = 4 := by cases one <;> rfl
  have hx : exec i s = run i (spawnSem x one) s := by cases one <;> rfl
  rw [hx]
  exact run_spawn hm hpo hq hl hi he hv hd hr

end Sys2Proof.Machine
end

section
/-! SUPPORT. Requests that leave a gang in groups (R103), and the state that holds them. -/

namespace Sys2Proof.Machine

/-! ## Grouping -/

/-- Grouping loses no part and adds none. -/
theorem mem_groupParts (w : Nat) (ps : List Part) (acc : List (Nat × List Part)) (p : Part) :
    (∃ a ∈ groupParts w ps acc, p ∈ a.2) ↔ p ∈ ps ∨ ∃ a ∈ acc, p ∈ a.2 := by
  induction ps generalizing acc with
  | nil => simp [groupParts]
  | cons q ps ih =>
    have hacc : (∃ a ∈ (if acc.any (fun a => a.1 == q.pa / w) then acc.map (fun a => if a.1 == q.pa / w then (q.pa / w, a.2 ++ [q]) else a)
        else acc ++ [(q.pa / w, [q])]), p ∈ a.2) ↔ p = q ∨ ∃ a ∈ acc, p ∈ a.2 := by
      split
      · next hany =>
        obtain ⟨b, hb, hbk⟩ := List.any_eq_true.1 hany
        constructor
        · rintro ⟨a, ha, hp⟩
          obtain ⟨c, hc, rfl⟩ := List.mem_map.1 ha
          split at hp
          · rcases List.mem_append.1 hp with h | h
            · exact Or.inr ⟨c, hc, h⟩
            · exact Or.inl (List.mem_singleton.1 h)
          · exact Or.inr ⟨c, hc, hp⟩
        · rintro (rfl | ⟨a, ha, hp⟩)
          · exact ⟨_, List.mem_map_of_mem hb, by rw [if_pos hbk]; exact List.mem_append_right _ (List.mem_singleton_self _)⟩
          · refine ⟨_, List.mem_map_of_mem ha, ?_⟩
            split
            · exact List.mem_append_left _ hp
            · exact hp
      · simp only [List.mem_append, List.mem_singleton]
        constructor
        · rintro ⟨a, ha | rfl, hp⟩
          · exact Or.inr ⟨a, ha, hp⟩
          · exact Or.inl (List.mem_singleton.1 hp)
        · rintro (rfl | ⟨a, ha, hp⟩)
          · exact ⟨_, Or.inr rfl, List.mem_singleton_self _⟩
          · exact ⟨a, Or.inl ha, hp⟩
    rw [groupParts, ih, hacc, List.mem_cons]
    tauto

/-! ## Operations in flight after a launch -/

theorem simtEnv_checkMix (s : State) (g : Gang) (i : Instr) (ci ct : Nat) (qs : List (Req × Part)) :
    (simtEnv s (g.charge ci ct) i).checkMix qs = (simtEnv s g i).checkMix qs := by
  unfold Env.checkMix
  simp only [simtEnv_translate]
  rfl

/-- The operations that stand in flight, told by the requests that were made. -/
theorem sends_of_flights {s t : State} {g : Gang} {fs new : List Flight} {k : FlightKind} {rel : Bool} {queue : Option Nat} {ps : List Part}
    (hf : t.flights = s.flights ++ new) (hn : new.map Flight.request = fs.map Flight.request)
    (hall : ∀ f ∈ fs, f.uid = some g.uid ∧ f.ctx = g.ctx ∧ f.kind = k ∧ f.rel = rel ∧ f.queue = queue ∧ f.shelved = false)
    (hp : ∀ p, p ∈ ps ↔ ∃ f ∈ fs, p ∈ f.parts) : sends s t g k rel queue ps := by
  have hback : ∀ f ∈ new, ∃ f0 ∈ fs, f0.request = f.request := fun f hm => List.mem_map.1 (hn ▸ List.mem_map_of_mem hm)
  have hforth : ∀ f0 ∈ fs, ∃ f ∈ new, f.request = f0.request := fun f0 hm => List.mem_map.1 (hn.symm ▸ List.mem_map_of_mem hm)
  refine ⟨new, hf, fun f hm => ?_, fun p => (hp p).trans ⟨fun ⟨f0, h0, hpf⟩ => ?_, fun ⟨f, hm, hpf⟩ => ?_⟩⟩
  · obtain ⟨f0, h0, he⟩ := hback f hm
    obtain ⟨h1, h2, h3, h4, h5, h6⟩ := hall f0 h0
    exact ⟨(congrArg Flight.uid he).symm.trans h1, (congrArg Flight.ctx he).symm.trans h2, (congrArg Flight.kind he).symm.trans h3,
      (congrArg Flight.rel he).symm.trans h4, (congrArg Flight.queue he).symm.trans h5, (congrArg Flight.shelved he).symm.trans h6⟩
  · obtain ⟨f, hm, he⟩ := hforth f0 h0
    exact ⟨f, hm, (congrArg Flight.parts he).symm ▸ hpf⟩
  · obtain ⟨f0, h0, he⟩ := hback f hm
    exact ⟨f0, h0, (congrArg Flight.parts he).symm ▸ hpf⟩

/-- What a launch leaves of a state in which the gang is charged. -/
theorem State.launchAll_sends {s s1 : State} {g : Gang} {i : Instr} {ct : Nat} {fs : List Flight} (hi : Issues s g i) (hq : s1.calmFor g = true) (hl1 : s1.noLateTrap)
    (hg : s1.gang? g.uid = some (g.charge (ciOf i.maj) ct)) (hf : s1.flights = s.flights) (hb : s.sameBytes s1) (hrel : ∀ f ∈ fs, f.releases = false) :
    ∃ new, new.map Flight.request = fs.map Flight.request ∧ Sends s (s1.launchAll fs) g (g.charge (ciOf i.maj) ct) g i ct new := by
  obtain ⟨new, hl, hn⟩ := s1.launchAll_requests fs
  refine ⟨new, hn, ⟨?_, ?_, ?_, rfl, hi.unsealed, ?_, ?_⟩⟩
  · rw [hl]
    refine State.calmFor_of (s := s1) (fun f hf => ?_) (fun x hx => ⟨x, hx, rfl, rfl, rfl⟩) rfl hq
    rcases List.mem_append.1 (show f ∈ s1.flights ++ new from hf) with hf | hf
    · exact Or.inl hf
    · obtain ⟨f0, h0, he⟩ := List.mem_map.1 (hn ▸ List.mem_map_of_mem hf)
      exact Or.inr ((show f.releases = f.request.releases from rfl).trans ((congrArg Flight.releases he).symm.trans (hrel f0 h0)))
  · rw [hl]
    exact hl1
  · rw [hl]
    exact hg
  · rw [hl]
    exact congrArg (· ++ new) hf
  · rw [hl]
    exact State.sameBytes_trans hb (State.sameBytes_of rfl rfl rfl rfl rfl (fun _ => rfl))

/-- The same behind the walks of a charged gang. -/
theorem State.Walked.launchAll_sends {s s1 : State} {g : Gang} {i : Instr} {ct : Nat} {fs : List Flight} (hw : (simtEnv s (g.charge (ciOf i.maj) ct) i).s.Walked s1)
    (hi : Issues s g i) (hq : s.calmFor g = true) (hrel : ∀ f ∈ fs, f.releases = false) :
    ∃ new, new.map Flight.request = fs.map Flight.request ∧ Sends s (s1.launchAll fs) g (g.charge (ciOf i.maj) ct) g i ct new :=
  State.launchAll_sends hi (hw.calmFor (State.calmFor_charged hi.here hq _ _ i)) (hw.noLateTrap (hi.charged _ _).2) ((hw.gang? _).trans (hi.charged _ _).1) hw.flights
    (State.sameBytes_trans (State.sameBytes_of (t := (simtEnv s (g.charge (ciOf i.maj) ct) i).s) rfl rfl rfl rfl rfl (fun _ => rfl)) hw.sameBytes) hrel

/-- A change of the gang on top of such a state. -/
theorem Sends.modGang {s Y : State} {g y g0 g1 : Gang} {i : Instr} {ct : Nat} {new : List Flight} (h : Sends s Y g y g0 i ct new) {F : Gang → Gang}
    (hu : ∀ x, (F x).uid = x.uid) (hl : ∀ x, (F x).late = x.late)
    (hm : ∀ x, (F x).iss.sealTo = x.iss.sealTo ∧ (F x).iss.splitTo = x.iss.splitTo ∧ (F x).iss.mseal = x.iss.mseal)
    (hp : (F y).pass = (g1.charge (ciOf i.maj) ct).pass) (h1 : g1.iss.sealTo = none ∧ g1.iss.splitTo = none) :
    Sends s (Y.modGang g.uid F) g (F y) g1 i ct new :=
  ⟨State.calmFor_modGang g.uid hm h.calm, State.noLateTrap_modGang g.uid hl h.late, State.gang?_modGang_same F hu h.gang, hp, h1, h.out,
    State.sameBytes_trans h.bytes (State.sameBytes_modGang ..)⟩

/-- A change that keeps what every gang waits for keeps the gangs of a number waiting. -/
theorem State.blocked.modGang {Y : State} {u : Nat} (h : Y.blocked u) {F : Gang → Gang} (hu : ∀ x, (F x).uid = x.uid) (hb : ∀ x, (F x).iss.block = x.iss.block) :
    (Y.modGang u F).blocked u := by
  intro y hy hyu
  obtain ⟨z, hz, rfl⟩ := List.mem_map.1 (show y ∈ Y.gangs.map (fun z => if z.uid == u then F z else z) from hy)
  split at hyu
  · next he =>
    rw [if_pos he, hb]
    exact h z hz ((hu z).symm.trans hyu)
  · next he =>
    rw [if_neg he]
    exact h z hz hyu

/-- A gang whose reuse clock has stepped, or not (R106). -/
def Gang.clocked (steps : Bool) (g : Gang) : Gang := { g with ctl := { g.ctl with nc := if steps then g.ctl.nc + 1 else g.ctl.nc } }

theorem State.modGang_clocked (s : State) (u : Nat) (steps : Bool) : (if steps then s.stepNc u else s) = s.modGang u (Gang.clocked steps) := by
  cases steps with
  | true => rfl
  | false =>
    have : s.gangs.map (fun x => if x.uid == u then Gang.clocked false x else x) = s.gangs := by
      refine (List.map_congr_left (fun x _ => ?_)).trans (List.map_id _)
      split <;> rfl
    show s = { s with gangs := s.gangs.map (fun x => if x.uid == u then Gang.clocked false x else x) }
    rw [this]

/-! ## An issue after which its gang may take a seal at once -/

/-- An issue in a calm state with Muslin off ends with the seal that is due, if one is. -/
theorem State.commit_sealing {s : State} {g : Gang} {i : Instr} {f : Eff} {ci ct : Nat} (hq : f.st.calmFor g = true) (ho : f.st.onlySeals g)
    (hm : f.st.muslinMode g.ctx = 0) (hl : f.st.noLateTrap) :
    (State.issued i (simtEnv s (g.charge ci ct) i) f ci ct).sealed.SealNoted (State.commit i (simtEnv s (g.charge ci ct) i) f ci ct) := by
  rw [State.commit_issued (s := f.st) (e := simtEnv s (g.charge ci ct) i) hq rfl]
  exact State.pump_seals (State.issued_releases (State.calmFor_flights hq)) (State.onlySeals_issued ho)
    ((congrArg (fun w => bits64 w 1 0) (State.reg_of (State.issued_dev ..) _)).trans hm) (State.issued_noLateTrap hl)

/-- An issue of an effect that changes no register and no byte, where a seal may be taken at once. -/
theorem run_sends_sealing {s Y : State} {g y g0 : Gang} {i : Instr} {m : Sem} {ct : Nat} {new : List Flight} (h : Issues s g i) (hs : Sends s Y g y g0 i ct new)
    (ho : Y.onlySeals g) (hm : Y.muslinMode g.ctx = 0) (hct : m.ct (simtEnv s g i) = ct) (hfit : ct ≤ g.spec.tb.toNat)
    (hop : m.op (simtEnv s (g.charge (ciOf i.maj) ct) i) = .ok { st := Y }) :
    ∃ t g', run i m s = .next t ∧ t.gang? g.uid = some g' ∧ g'.pc = g.pc + 8 ∧ Leaves g0 g' i ct ∧ keepsRegs g0 g' ∧ s.sameBytes t ∧
      ∃ l, t.flights = s.flights ++ l ∧ l.map Flight.request = new.map Flight.request := by
  obtain ⟨t, g', h1, h2, h3, h4, h5, h6, h7, h8⟩ := run_leaves (g0 := g0) h hct hfit hop hs.late hs.gang hs.pass hs.unsealed
  have hrun := run_ok (m := m) h (by rw [hct]; exact hfit) (by rw [hct]; exact hop)
  rw [hct] at hrun
  have hseal := State.commit_sealing (s := s) (i := i) (f := { st := Y }) (ci := ciOf i.maj) (ct := ct) hs.calm ho hm hs.late
  rw [← Host.Outcome.next.inj (h1.symm.trans hrun)] at hseal
  obtain ⟨l, hl, hf⟩ := State.issued_requests (i := i) (e := simtEnv s (g.charge (ciOf i.maj) ct) i) (f := { st := Y }) (ci := ciOf i.maj) (ct := ct) hs.out
  refine ⟨t, g', h1, h2, h4, h3, ⟨h5, h6, h7, h8.trans (fxSet_zero _)⟩, ?_, l, ?_, hl⟩
  · exact State.sameBytes_trans hs.bytes (State.sameBytes_trans (State.issued_bytes ..) (State.sameBytes_trans (State.sealed_bytes _) hseal.bytes))
  · exact (congrArg State.flights hseal.rest).trans hf

theorem State.Walked.onlySeals {s t : State} {g : Gang} (h : s.Walked t) (ho : s.onlySeals g) : t.onlySeals g := by
  unfold State.onlySeals
  rw [h.gangs]
  exact ho

theorem State.Walked.muslinMode {s t : State} (h : s.Walked t) (c : Nat) : t.muslinMode c = s.muslinMode c := by
  have := h.regs (muslinBlock c) (by simp only [muslinBlock, devBase]; omega)
  unfold State.muslinMode
  rw [this]

end Sys2Proof.Machine
end

section
/-! PROOFS. Generic accesses (R59, R106, R230, R233, R237 to R245): their requests leave the gang. -/

namespace Sys2Proof.Machine

/-- The requests of a generic access, one for each group of its strands. -/
def reqFlights (r : Req) (g : Gang) (lead : Nat) (nc : Word32) (post : FlagRef) (ps : List Part) : List Flight :=
  (groupParts r.group ps []).map (fun a =>
    { id := 0, uid := some g.uid, ctx := g.ctx, core := g.gcore, queue := r.queue, rel := r.rel, nud := r.nud, nc := nc, lead := lead,
      vliw := false, post := post, kind := r.kind, parts := a.2 })

theorem reqFlights_all (r : Req) (g : Gang) (lead : Nat) (nc : Word32) (post : FlagRef) (ps : List Part) : ∀ f ∈ reqFlights r g lead nc post ps,
    f.uid = some g.uid ∧ f.ctx = g.ctx ∧ f.kind = r.kind ∧ f.rel = r.rel ∧ f.queue = r.queue ∧ f.shelved = false := by
  intro f hf
  obtain ⟨a, _, rfl⟩ := List.mem_map.1 hf
  exact ⟨rfl, rfl, rfl, rfl, rfl, rfl⟩

theorem reqFlights_parts (r : Req) (g : Gang) (lead : Nat) (nc : Word32) (post : FlagRef) (ps : List Part) (p : Part) :
    p ∈ ps ↔ ∃ f ∈ reqFlights r g lead nc post ps, p ∈ f.parts := by
  have h := mem_groupParts r.group ps [] p
  unfold reqFlights
  constructor
  · intro hp
    obtain ⟨a, ha, hpa⟩ := h.2 (Or.inl hp)
    exact ⟨_, List.mem_map_of_mem ha, hpa⟩
  · rintro ⟨f, hf, hpf⟩
    obtain ⟨a, ha, rfl⟩ := List.mem_map.1 hf
    exact (h.1 ⟨a, ha, hpf⟩).resolve_right (by simp)

/-- The numbers that a launch of n operations gives them. -/
def launchIds (s : State) (n : Nat) : List Nat := (List.range n).map (fun j => s.next + j)

/-- What a request leaves: its operations in flight, the gang waiting for them where it blocks. -/
def State.requested (s : State) (r : Req) (u : Nat) (fs : List Flight) : State :=
  if r.blocks then (s.launchAll fs).modGang u (Gang.awaits (launchIds s fs.length)) else s.launchAll fs

theorem State.send_eq (s : State) (g : Gang) (r : Req) (lead : Nat) (nc : Word32) (post : FlagRef) (ps : List Part) :
    s.send g r lead nc false post ps = s.requested r g.uid (reqFlights r g lead nc post ps) := rfl

theorem genericSem_op {i : Instr} {r : Req} {charged acq one : Bool} {srcs : Env → List Src} {parts : Env → List Part} {e : Env} {ts : List (Part × Walk)}
    (hp : e.parts ≠ []) (hpo : e.g.regs.poison = []) (hl : e.g.lostStore = false) (hloss : e.g.loss = (e.s.ctx e.g.ctx).loss)
    (hc : e.check r (parts e) = .ok ts) (hm : missing ts = []) :
    (genericSem i r charged srcs parts acq one).op e =
      .ok { st := ((e.s.cacheAll e.g.gcore e.g.ctx ts).requested r e.g.uid (reqFlights r e.g e.lead e.nc .none (found ts))).modGang e.g.uid (Gang.clocked r.steps) } := by
  have hrel : e.releaseTrap = none := if_neg (by rw [hl]; decide)
  have hacq : e.acquireTrap = none := if_neg (by rw [hloss]; simp)
  have hpoison : (if one then (srcs e).any (fun x => e.srcPoison x e.lead) else e.poisoned (srcs e)) = false := by
    split
    · exact List.any_eq_false.2 (fun x _ => by rw [Env.srcPoison_none hpo]; decide)
    · exact Env.unpoisoned hpo _
  unfold genericSem
  dsimp only
  rw [if_neg (by simpa using hp), hpoison, hc, hrel, hacq, ite_self, ite_self, if_neg Bool.false_ne_true]
  dsimp only
  rw [Option.none_or]
  dsimp only
  rw [hm, State.modGang_clocked]
  rfl

/-- What every generic access has in common: it is one of the requests of R230 with its parts, and releases nothing locally. -/
structure IsGeneric (i : Instr) (m : Generic) : Prop where
  means : ∃ srcs acq one, ∀ s, exec i s = run i (genericSem i m.req m.charged srcs m.parts acq one) s
  kind  : ∀ f : Flight, f.kind = m.req.kind → f.releases = false
  parts : ∀ s (g : Gang) ci ct, m.parts (simtEnv s (g.charge ci ct) i) = m.parts (simtEnv s g i)

theorem releases_of_kind {f : Flight} {k : FlightKind} (h : f.kind = k) (hk : ∀ f : Flight, ({ f with kind := k } : Flight).releases = false) : f.releases = false := by
  have := hk f
  rwa [← h] at this

theorem isGeneric {i : Instr} {m : Generic} (h : generic i = some m) : IsGeneric i m := by
  unfold generic at h
  split at h
  case h_14 => cases h
  all_goals
    cases h
    exact ⟨⟨_, _, _, fun _ => rfl⟩, fun _ hk => releases_of_kind hk (fun _ => rfl), fun _ _ _ _ => rfl⟩

section
variable {s : State} {g : Gang} {i : Instr} {r : Req} {ct : Nat} {ts : List (Part × Walk)}

/-- The state that the requests of a generic access leave. -/
theorem generic_sends {s1 : State} {ct : Nat} {fs : List Flight} (hw : (simtEnv s (g.charge (ciOf i.maj) ct) i).s.Walked s1) (hi : Issues s g i) (hq : s.calmFor g = true)
    (hm : s.muslinMode g.ctx = 0) (hrel : ∀ f ∈ fs, f.releases = false) :
    let Y := (s1.requested r g.uid fs).modGang g.uid (Gang.clocked r.steps)
    ∃ y new, new.map Flight.request = fs.map Flight.request ∧ Sends s Y g y (g.clocked r.steps) i ct new ∧ Y.onlySeals g ∧ Y.muslinMode g.ctx = 0 := by
  intro Y
  obtain ⟨new, hn, hs⟩ := hw.launchAll_sends hi hq hrel
  obtain ⟨l, hl, _⟩ := s1.launchAll_requests fs
  have ho : (s1.launchAll fs).onlySeals g := by
    rw [hl]
    exact hw.onlySeals (State.onlySeals_charged hq i _ _)
  have hmode : (s1.launchAll fs).muslinMode g.ctx = 0 := by
    rw [hl]
    exact (hw.muslinMode _).trans hm
  have hunsealed := hi.unsealed
  have hY : Y = (s1.requested r g.uid fs).modGang g.uid (Gang.clocked r.steps) := rfl
  unfold State.requested at hY
  split at hY
  · refine ⟨_, new, hn, hY ▸ (hs.modGang (F := Gang.awaits (launchIds s1 fs.length)) (g1 := g) (fun _ => rfl) (fun _ => rfl) (fun _ => ⟨rfl, rfl, rfl⟩) rfl hunsealed).modGang
      (F := Gang.clocked r.steps) (g1 := g.clocked r.steps) (fun _ => rfl) (fun _ => rfl) (fun _ => ⟨rfl, rfl, rfl⟩) rfl hunsealed, hY ▸ ?_, hY ▸ hmode⟩
    exact State.onlySeals_modGang (State.onlySeals_modGang ho (F := Gang.awaits (launchIds s1 fs.length)) (fun _ => rfl) (fun _ => rfl)) (F := Gang.clocked r.steps) (fun _ => rfl) (fun _ => rfl)
  · refine ⟨_, new, hn, hY ▸ hs.modGang (F := Gang.clocked r.steps) (g1 := g.clocked r.steps) (fun _ => rfl) (fun _ => rfl) (fun _ => ⟨rfl, rfl, rfl⟩) rfl hunsealed, hY ▸ ?_, hY ▸ hmode⟩
    exact State.onlySeals_modGang ho (F := Gang.clocked r.steps) (fun _ => rfl) (fun _ => rfl)

end

/-- Settles O18: a generic access whose checks pass sends its requests, and nothing else changes but the reuse clock. -/
theorem genericCompletes : Obligations.GenericCompletes := by
  unfold Obligations.GenericCompletes
  intro s g i m ts hgen hi hpo he hl hloss hc hmiss hq hm ct hfit
  obtain ⟨⟨srcs, acq, one, hx⟩, hkind, hparts⟩ := isGeneric hgen
  let e := simtEnv s (g.charge (ciOf i.maj) ct) i
  have hp : e.parts ≠ [] := by
    obtain ⟨st, hst⟩ := he
    rw [simtEnv_parts]
    exact List.ne_nil_of_mem (List.mem_filter.2 ⟨List.mem_range.2 (Gang.executes_lt hst), hst⟩)
  have hc' : e.check m.req (m.parts e) = .ok ts := by
    rw [hparts]
    exact (simtEnv_checkMix ..).trans hc
  have hop := genericSem_op (i := i) (charged := m.charged) (acq := acq) (one := one) (srcs := srcs) hp hpo hl hloss hc' hmiss
  have hrel : ∀ f ∈ reqFlights m.req e.g e.lead e.nc .none (found ts), f.releases = false := fun f hf => hkind f (reqFlights_all _ _ _ _ _ _ f hf).2.2.1
  obtain ⟨y, new, hn, hs, ho, hmode⟩ := generic_sends (r := m.req) (e.s.walked_cacheAll e.g.gcore e.g.ctx ts) hi hq hm hrel
  obtain ⟨t, g', h1, h2, h3, h4, h5, h6, l, h7, h8⟩ := run_sends_sealing hi hs ho hmode rfl hfit hop
  exact ⟨t, g', (hx s).trans h1, h2, h3, h4, h5, h6, sends_of_flights h7 (h8.trans hn) (reqFlights_all _ _ _ _ _ _) (reqFlights_parts _ _ _ _ _ _)⟩

end Sys2Proof.Machine
end

section
/-! PROOFS. LDS and STS at another core, LDH and STH through a handle of another place (R59, R86, R91, R106, R234, R235): their requests leave the gang. -/

namespace Sys2Proof.Machine

/-! ## Checks of a gang whose charge has been taken -/

theorem simtEnv_spadOk (s : State) (g : Gang) (i : Instr) (ci ct ea : Nat) :
    (simtEnv s (g.charge ci ct) i).s.spadOk (simtEnv s (g.charge ci ct) i).g ea = (simtEnv s g i).s.spadOk (simtEnv s g i).g ea := spadOk_charged s g ci ct ea

theorem spadCheck_charged (s : State) (g : Gang) (i : Instr) (ci ct n : Nat) (ps : List (Nat × Int)) :
    (simtEnv s (g.charge ci ct) i).spadCheck n ps = (simtEnv s g i).spadCheck n ps := by
  unfold Env.spadCheck
  simp only [simtEnv_spadOk]
  rfl

theorem handleCheck_charged (s : State) (g : Gang) (i : Instr) (ci ct : Nat) (x : MF) (write : Bool) :
    (simtEnv s (g.charge ci ct) i).handleCheck x write = (simtEnv s g i).handleCheck x write := by
  unfold Env.handleCheck
  simp only [simtEnv_spadOk]
  rfl

/-! ## Accesses of which none is at the own core -/

theorem filter_far {α : Type} {e : Env} (f : α → Nat) (hd : e.decoupled = false) {l : List α} (h : ∀ p ∈ l, eaCore (f p) ≠ e.g.core) :
    l.filter (fun p => e.far (f p)) = l ∧ l.filter (fun p => !e.far (f p)) = [] ∧ l.filter (fun p => e.near (f p)) = [] := by
  have hfar : ∀ p ∈ l, e.far (f p) = true := fun p hp => by
    unfold Env.far
    rw [hd, Bool.false_or]
    exact bne_iff_ne.2 (h p hp)
  refine ⟨List.filter_eq_self.2 hfar, List.filter_eq_nil_iff.2 (fun p hp => by rw [hfar p hp]; decide), List.filter_eq_nil_iff.2 (fun p hp => ?_)⟩
  unfold Env.near
  exact fun hn => h p hp (beq_iff_eq.1 hn)

theorem countConflicts_nil (e : Env) : e.countConflicts [] = e.s := by
  have h : (if e.vliw then 0 else conflictCycles []) = 0 := by
    split
    · rfl
    · rfl
  unfold Env.countConflicts
  rw [h]
  rfl

/-- The state after a scratchpad read: its free values are used up. -/
def State.drawn (s : State) : State := { s with draw := s.draw + 1 }

theorem State.modGang_unclocked (s : State) (u : Nat) : s.modGang u (Gang.clocked false) = s := (State.modGang_clocked s u false).symm

/-- A request for all strands at once. -/
def spadReq (k : FlightKind) (queue : Option Nat) : Req := { queue := queue, group := 2 ^ 60, kind := k }

theorem spadLoads_away {e : Env} {d : Reg} {n : Nat} {sgn : Bool} {queue : Option Nat} {post : FlagRef} {ps : List (Nat × Nat)} (hd : e.decoupled = false)
    (hv : e.vliw = false) (hne : ps ≠ []) (h : ∀ p ∈ ps, eaCore p.2 ≠ e.g.core) : e.spadLoads d n sgn queue post ps =
      { st := e.s.drawn.requested (spadReq (.spadLoad n sgn d) queue) e.g.uid (reqFlights (spadReq (.spadLoad n sgn d) queue) e.g e.lead e.nc post
                (ps.map (fun p => { strand := p.1, pa := spadPa e.g.cluster p.2 }))) } := by
  obtain ⟨h1, h2, _⟩ := filter_far Prod.snd hd h
  have hnear : ∀ p ∈ ps, e.near p.2 = false := fun p hp => by
    unfold Env.near
    exact beq_eq_false_iff_ne.2 (h p hp)
  have hparts : ps.map (fun p => ({ strand := p.1, pa := spadPa e.g.cluster p.2, got := if e.near p.2 then some (BitVec.ofNat 128 (leNat (e.spadBytes (spadPa e.g.cluster p.2) n).1)) else none, poison := e.near p.2 && (e.spadBytes (spadPa e.g.cluster p.2) n).2 } : Part)) =
      ps.map (fun p => { strand := p.1, pa := spadPa e.g.cluster p.2 }) := List.map_congr_left (fun p hp => by rw [hnear p hp]; rfl)
  unfold Env.spadLoads
  dsimp only
  rw [h1, h2, if_neg (by simpa using hne), countConflicts_nil, hv, hparts]
  unfold Env.pendFor
  rw [hd]
  rfl

theorem spadStores_away {e : Env} {n : Nat} {queue : Option Nat} {post : FlagRef} {ps : List (Nat × Nat × BitVec 128)} (hd : e.decoupled = false)
    (hv : e.vliw = false) (hne : ps ≠ []) (h : ∀ p ∈ ps, eaCore p.2.1 ≠ e.g.core) : e.spadStores n queue post ps =
      { st := e.s.requested (spadReq (.spadStore n) queue) e.g.uid (reqFlights (spadReq (.spadStore n) queue) e.g e.lead e.nc post
                (ps.map (fun p => { strand := p.1, pa := spadPa e.g.cluster p.2.1, val := p.2.2 }))) } := by
  obtain ⟨h1, _, h3⟩ := filter_far (fun p : Nat × Nat × BitVec 128 => p.2.1) hd h
  have hnear : ∀ p ∈ ps, e.near p.2.1 = false := fun p hp => by
    unfold Env.near
    exact beq_eq_false_iff_ne.2 (h p hp)
  have hparts : ps.map (fun p => ({ strand := p.1, pa := spadPa e.g.cluster p.2.1, val := p.2.2, got := if e.near p.2.1 then some 0#128 else none } : Part)) =
      ps.map (fun p => { strand := p.1, pa := spadPa e.g.cluster p.2.1, val := p.2.2 }) := List.map_congr_left (fun p hp => by rw [hnear p hp]; rfl)
  unfold Env.spadStores
  dsimp only
  rw [h1, h3, if_neg (by simpa using hne), hv, hparts]
  show ({ st := ((e.countConflicts []).send _ _ _ _ _ _ _) } : Eff) = _
  rw [countConflicts_nil]
  rfl

/-! ## Completion -/

section
variable {s : State} {g : Gang} {i : Instr} {m : Sem} {r : Req} {post : FlagRef} {ps : List Part}

/-- An instruction without a seal whose effect is its requests, and where they say so a step of the reuse clock. -/
theorem run_requests {ct lead : Nat} {nc : Word32} {s1 : State} {steps : Bool} (hi : Issues s g i) (hs : i.seals = false)
    (hr : r.blocks = false) (hk : ∀ f : Flight, ({ f with kind := r.kind } : Flight).releases = false)
    (h1 : s1.calmFor g = true) (h2 : s1.noLateTrap) (h3 : s1.gang? g.uid = some (g.charge (ciOf i.maj) ct)) (h4 : s1.flights = s.flights) (h5 : s.sameBytes s1)
    (hct : m.ct (simtEnv s g i) = ct) (hfit : ct ≤ g.spec.tb.toNat)
    (hop : m.op (simtEnv s (g.charge (ciOf i.maj) ct) i) =
      .ok { st := (s1.requested r g.uid (reqFlights r (g.charge (ciOf i.maj) ct) lead nc post ps)).modGang g.uid (Gang.clocked steps) }) :
    ∃ t g', run i m s = .next t ∧ t.gang? g.uid = some g' ∧ g'.pc = g.pc + 8 ∧ Leaves (g.clocked steps) g' i ct ∧ keepsRegs g g' ∧ s.sameBytes t ∧
      sends s t g r.kind r.rel r.queue ps := by
  have hall := reqFlights_all r (g.charge (ciOf i.maj) ct) lead nc post ps
  obtain ⟨new, hn, hsend⟩ := State.launchAll_sends hi h1 h2 h3 h4 h5 (fun f hf => releases_of_kind (hall f hf).2.2.1 hk)
  have hreq : s1.requested r g.uid (reqFlights r (g.charge (ciOf i.maj) ct) lead nc post ps) = s1.launchAll (reqFlights r (g.charge (ciOf i.maj) ct) lead nc post ps) :=
    if_neg (by rw [hr]; decide)
  rw [hreq] at hop
  obtain ⟨t, g', h1, h2, h3, h4, h5, h6, _, _, l, h7, h8⟩ := run_sends hi
    (hsend.modGang (F := Gang.clocked steps) (g1 := g.clocked steps) (fun _ => rfl) (fun _ => rfl) (fun _ => ⟨rfl, rfl, rfl⟩) rfl hi.unsealed)
    (fun h => absurd (hs.symm.trans h) Bool.false_ne_true) hct hfit hop
  exact ⟨t, g', h1, h2, h3, h4, h5, h6, sends_of_flights h7 (h8.trans hn) hall (reqFlights_parts _ _ _ _ _ _)⟩

theorem simtEnv_parts_ne (he : ∃ st, g.executes i st = true) (ci ct : Nat) : (simtEnv s (g.charge ci ct) i).parts ≠ [] := by
  obtain ⟨st, hst⟩ := he
  rw [simtEnv_parts]
  exact List.ne_nil_of_mem (List.mem_filter.2 ⟨List.mem_range.2 (Gang.executes_lt hst), hst⟩)

theorem mem_simtEnv_parts {st ci ct : Nat} (h : st ∈ (simtEnv s (g.charge ci ct) i).parts) : g.executes i st = true := by
  rw [simtEnv_parts] at h
  exact (List.mem_filter.1 h).2

end

section
variable {s : State} {g : Gang} {h : Hd} {x : MF}

theorem semLds_op {e : Env} (hd : e.decoupled = false) (hp : e.parts ≠ []) (hpo : e.g.regs.poison = [])
    (hc : e.spadCheck (mBytes x) (e.parts.map (fun st => (st, e.spAddr x st))) = none) :
    (semLds h x).op e = .ok (e.spadLoads x.d (mBytes x) x.sgn (qOf x) (e.postOf x) (e.parts.map (fun st => (st, (e.spAddr x st).toNat)))) := by
  unfold semLds
  dsimp only
  rw [hd, Bool.false_and, if_neg Bool.false_ne_true, if_neg (by simpa using hp), Env.unpoisoned hpo, if_neg Bool.false_ne_true, hc, List.map_map]
  rfl

theorem semSts_op {e : Env} (hd : e.decoupled = false) (hp : e.parts ≠ []) (hpo : e.g.regs.poison = [])
    (hc : e.spadCheck (mBytes x) (e.parts.map (fun st => (st, e.spAddr x st))) = none) :
    (semSts h x).op e = .ok (e.spadStores (mBytes x) (qOf x) (e.postOf x) (e.parts.map (fun st => (st, (e.spAddr x st).toNat, e.data x.d (mBytes x) st)))) := by
  unfold semSts
  dsimp only
  rw [hd, Bool.false_and, if_neg Bool.false_ne_true, if_neg (by simpa using hp), Env.unpoisoned hpo, if_neg Bool.false_ne_true, hc, List.map_map]
  rfl

theorem handleSem_op {write : Bool} {near : Env → List (Nat × Nat) → Eff} {away : Env → List (Nat × Nat) → State} {e : Env} {hd : Handle} {ps : List (Nat × Nat)}
    (hde : e.decoupled = false) (hp : e.parts ≠ []) (hpo : e.g.regs.poison = []) (hpend : (e.g.h x.base.toNat).pending = false)
    (hc : e.handleCheck x write = .go hd ps) (hoff : hd.oncore = false) :
    (handleSem x write near away).op e = .ok { st := (away e ps).modGang e.g.uid (Gang.clocked true) } := by
  unfold handleSem
  dsimp only
  rw [hde, Bool.false_and, if_neg Bool.false_ne_true, hpend, if_neg Bool.false_ne_true, if_neg (by simpa using hp), Env.unpoisoned hpo, if_neg Bool.false_ne_true, hc]
  dsimp only
  rw [hoff]
  rfl

theorem run_lds_away (hpo : g.regs.poison = []) (hq : s.calmFor g = true) (hi : Issues s g (.lds h x)) (he : ∃ st, g.executes (.lds h x) st = true) :
    let e := simtEnv s g (.lds h x)
    let a (st : Nat) : Int := e.spAddr x st
    e.spadCheck (mBytes x) (e.parts.map (fun st => (st, a st))) = none → (∀ st, g.executes (.lds h x) st = true → eaCore (a st).toNat ≠ g.core) →
    ∃ t g', exec (.lds h x) s = .next t ∧ t.gang? g.uid = some g' ∧ g'.pc = g.pc + 8 ∧ Leaves g g' (.lds h x) 0 ∧ keepsRegs g g' ∧
      s.sameBytes t ∧ sends s t g (.spadLoad (mBytes x) x.sgn x.d) false (qOf x) (e.parts.map (fun st => { strand := st, pa := spadPa g.cluster (a st).toNat })) := by
  intro e a hc haway
  let e1 := simtEnv s (g.charge (ciOf (Instr.lds h x).maj) 0) (.lds h x)
  have hop := semLds_op (h := h) (x := x) (e := e1) rfl (simtEnv_parts_ne he _ _) hpo ((spadCheck_charged ..).trans hc)
  rw [spadLoads_away rfl rfl (by simpa using simtEnv_parts_ne (s := s) he (ciOf (Instr.lds h x).maj) 0) (fun p hp => by
    obtain ⟨st, hst, rfl⟩ := List.mem_map.1 hp
    exact haway st (mem_simtEnv_parts hst)), List.map_map] at hop
  have hop' := hop.trans (congrArg (fun t : State => Res.ok { st := t }) (State.modGang_unclocked _ g.uid).symm)
  exact run_requests (r := spadReq (.spadLoad (mBytes x) x.sgn x.d) (qOf x)) (s1 := e1.s.drawn) (ct := 0) (steps := false) (m := semLds h x) hi rfl rfl (fun _ => rfl) (State.calmFor_charged hi.here hq (ciOf (Instr.lds h x).maj) 0 (.lds h x)) (hi.charged _ _).2 (hi.charged _ _).1 rfl
    (State.sameBytes_trans (simtEnv_bytes s (g.charge (ciOf (Instr.lds h x).maj) 0) (.lds h x)) (State.sameBytes_of rfl rfl rfl rfl rfl (fun _ => rfl))) rfl (Nat.zero_le _) hop'

theorem run_sts_away (hpo : g.regs.poison = []) (hq : s.calmFor g = true) (hi : Issues s g (.sts h x)) (he : ∃ st, g.executes (.sts h x) st = true) :
    let e := simtEnv s g (.sts h x)
    let a (st : Nat) : Int := e.spAddr x st
    e.spadCheck (mBytes x) (e.parts.map (fun st => (st, a st))) = none → (∀ st, g.executes (.sts h x) st = true → eaCore (a st).toNat ≠ g.core) →
    ∃ t g', exec (.sts h x) s = .next t ∧ t.gang? g.uid = some g' ∧ g'.pc = g.pc + 8 ∧ Leaves g g' (.sts h x) 0 ∧ keepsRegs g g' ∧
      s.sameBytes t ∧ sends s t g (.spadStore (mBytes x)) false (qOf x)
        (e.parts.map (fun st => { strand := st, pa := spadPa g.cluster (a st).toNat, val := e.data x.d (mBytes x) st })) := by
  intro e a hc haway
  let e1 := simtEnv s (g.charge (ciOf (Instr.sts h x).maj) 0) (.sts h x)
  have hop := semSts_op (h := h) (x := x) (e := e1) rfl (simtEnv_parts_ne he _ _) hpo ((spadCheck_charged ..).trans hc)
  rw [spadStores_away rfl rfl (by simpa using simtEnv_parts_ne (s := s) he (ciOf (Instr.sts h x).maj) 0) (fun p hp => by
    obtain ⟨st, hst, rfl⟩ := List.mem_map.1 hp
    exact haway st (mem_simtEnv_parts hst)), List.map_map] at hop
  have hop' := hop.trans (congrArg (fun t : State => Res.ok { st := t }) (State.modGang_unclocked _ g.uid).symm)
  exact run_requests (r := spadReq (.spadStore (mBytes x)) (qOf x)) (ct := 0) (steps := false) (m := semSts h x) hi rfl rfl (fun _ => rfl) (State.calmFor_charged hi.here hq _ _ _) (hi.charged _ _).2 (hi.charged _ _).1 rfl
    (simtEnv_bytes s (g.charge (ciOf (Instr.sts h x).maj) 0) (.sts h x)) rfl (Nat.zero_le _) hop'

end

/-- Settles O21: accesses of scratchpads at other cores and through off-core handles leave as the requests that R234 and R235 say. -/
theorem scratchpadAndHandleAway : Obligations.ScratchpadAndHandleAway := by
  unfold Obligations.ScratchpadAndHandleAway
  refine ⟨fun s g h x hpo hq => ⟨fun hi he => run_lds_away hpo hq hi he, fun hi he => run_sts_away hpo hq hi he⟩,
    fun s g h x hd ps hpo hq hpend _ hoff => ⟨fun hi he hc hfit => ?_, fun hi he hc hfit => ?_⟩⟩
  · have hop : (semLdh h x).op (simtEnv s (g.charge (ciOf (Instr.ldh h x).maj) (handleCt x (simtEnv s g (.ldh h x)))) (.ldh h x)) = _ :=
      handleSem_op rfl (simtEnv_parts_ne he _ _) hpo hpend ((handleCheck_charged ..).trans hc) hoff
    exact run_requests (r := { queue := qOf x, nud := nudOf x, kind := .load (mBytes x) x.sgn x.d false false }) (steps := true) (m := semLdh h x) hi rfl rfl (fun _ => rfl)
      (State.calmFor_charged hi.here hq _ _ _) (hi.charged _ _).2 (hi.charged _ _).1 rfl (simtEnv_bytes s _ (.ldh h x)) rfl hfit hop
  · have hop : (semSth h x).op (simtEnv s (g.charge (ciOf (Instr.sth h x).maj) (handleCt x (simtEnv s g (.sth h x)))) (.sth h x)) = _ :=
      handleSem_op rfl (simtEnv_parts_ne he _ _) hpo hpend ((handleCheck_charged ..).trans hc) hoff
    exact run_requests (r := { queue := qOf x, nud := nudOf x, kind := .store (mBytes x) }) (steps := true) (m := semSth h x) hi rfl rfl (fun _ => rfl)
      (State.calmFor_charged hi.here hq _ _ _) (hi.charged _ _).2 (hi.charged _ _).1 rfl (simtEnv_bytes s _ (.sth h x)) rfl hfit hop

end Sys2Proof.Machine
end

section
/-! PROOFS. Fences (R114, R126): a FENCEX leaves a write that the freeze of another core holds. -/

namespace Sys2Proof.Machine

/-- A gang that may issue, on core 0. -/
def drainGang : Gang := loadGang 1 false

/-- A write of the copy path to the scratchpad of core 1. -/
def heldWrite : PathWrite := { path := .cpy, cmd := 0, pa := 2 ^ 48 + 2 ^ 21, data := [0] }

/-- A module in which it is that gang's turn, and the freeze of core 1 holds the write. -/
def heldState : State :=
  { State.reset with next := 2, turn := some 1, gangs := [drainGang], paths := [heldWrite], cores := [(1, { freeze := 2 })] }

def drainHd : Hd := ⟨false, 15, 0⟩
/-- The operands of a FENCEX whose producer is CPY (field a = 2). -/
def drainFields : RF := { fn := 16, d := 0, a := 2, b := 0, c := 0, mod := 0 }

/-- The gang issues the FENCEX. -/
theorem drainGang_issues : Issues heldState drainGang (.fencex drainHd drainFields) where
  turn := rfl
  here := rfl
  free := by decide +kernel
  keeps := rfl
  simt := rfl
  legal := by decide +kernel
  clear := by decide +kernel
  back := by decide +kernel
  pays := by decide +kernel
  fresh := rfl
  calm := fun x hx => by obtain rfl := List.mem_singleton.mp hx; decide +kernel

/-- Whether a step ends with the write still waiting. -/
def leavesHeldWrite (o : Host.Outcome State Fault Refusal) : Bool :=
  match o with
  | .next t => t.paths.contains heldWrite
  | _ => false

/-- The FENCEX ends, and the write of the drained path still waits. -/
theorem fencex_leaves_heldWrite : leavesHeldWrite (exec (.fencex drainHd drainFields) heldState) = true := by decide +kernel

/-- Refutes O26: its last clause promises that no write of the producer path is left when a FENCEX ends, under a premise on the freeze of the gang's own
core alone. Here the scratchpad of another core is frozen; it cannot take the write of the copy path (R114), which therefore still waits behind the fence. -/
theorem not_prefetchAndFences : ¬ Obligations.PrefetchAndFences := by
  rintro ⟨-, h⟩
  obtain ⟨-, -, -, -, -, hends⟩ := h heldState drainGang drainHd drainFields (by decide +kernel) rfl rfl rfl rfl
  obtain ⟨t, -, ht, -, -, -, -, -, -, hdrained, -⟩ := hends drainGang_issues ⟨0, by decide +kernel⟩ (fun _ hf => absurd hf List.not_mem_nil) rfl
    (fun _ hm => absurd hm List.not_mem_nil)
  have hleft : heldWrite ∈ t.paths := List.contains_iff_mem.mp (by simpa [ht, leavesHeldWrite] using fencex_leaves_heldWrite)
  exact hdrained heldWrite hleft rfl

end Sys2Proof.Machine
end

section
/-! PROOFS. Fetching and reset (O5 to O7): the word that a fetch of one address reads, and the values of the reset state. -/

namespace Sys2Proof.Machine

theorem State.fetchWords_loaded {s : State} {core ctx va : Nat} {w : Word64 × Bool} (h : s.loadedWord core ctx va = some w) :
    s.fetchWords core ctx 1 va = if w.2 then .poisoned else .words [w.1] := by
  simp [State.fetchWords, h]

theorem State.fetchWords_memory {s : State} {core ctx va pa size : Nat} {rd wr : Bool} (hl : s.loadedWord core ctx va = none)
    (hp : s.fetchPage core ctx va = .page pa size rd wr true) (hd : isDram (pageAddr pa size va) = true) :
    s.fetchWords core ctx 1 va = if (s.tableWord (pageAddr pa size va)).2 then .poisoned else .words [(s.tableWord (pageAddr pa size va)).1] := by
  simp [State.fetchWords, hl, hp, hd]

/-- A gang under the SIMT decoder fetches one word. -/
theorem State.fetch_simt {s : State} {g : Gang} {w : Word64 × Bool} (hg : g.ctl.vliw = false)
    (h : s.fetchWords g.gcore g.ctx 1 g.pc.toNat = if w.2 then .poisoned else .words [w.1]) : s.fetch g = if w.2 then .poisoned else .words [w.1] := by
  unfold State.fetch
  cases hw : w.2 <;> simp [h, hw, hg]

/-- Settles O5, by the two places that a word comes from: the fetch unit (R370) and main memory behind the translation. -/
theorem fetchReadsMemory : Obligations.FetchReadsMemory := by
  refine ⟨fun s g w hg hl => State.fetch_simt hg (State.fetchWords_loaded hl), fun s g pa size rd wr hg hl hp hd => ?_⟩
  have hf := State.fetch_simt hg (State.fetchWords_memory hl hp hd)
  refine ⟨fun hpoison => by rw [hf, if_pos hpoison], fun hclean => by rw [hf, hclean]; rfl, fun i hi => ?_⟩
  simp [decodeFetched, hg, hi]

theorem State.reset_reg (a : Nat) (d : Word64) : State.reset.reg a d = d := rfl

theorem State.reset_window (pa : Nat) : State.reset.window pa = none := by
  refine List.findSome?_eq_none_iff.2 fun n _ => ?_
  simp [State.windowAt, State.reset_reg]

theorem State.reset_wayCap (t : Nat) : State.reset.wayCap t = 16 := by
  simp [State.wayCap, State.reset_reg, bits64, field]

/-- Settles O6, by evaluating the reset state, whose maps are empty. -/
theorem resetValues : Obligations.ResetValues :=
  ⟨rfl, rfl, rfl, rfl, fun _ => rfl, State.reset_window, fun t => ⟨rfl, State.reset_wayCap t⟩, fun _ => ⟨rfl, rfl⟩⟩

/-- Settles O7: main memory is the empty map at reset. -/
theorem resetMemoryCanonical : Obligations.ResetMemoryCanonical := rfl

end Sys2Proof.Machine
end

section
/-! PROOFS. Main memory stays canonical (O60). A function of the model either leaves the map of main memory alone, which a lemma `f_dram` says, or
changes it through `Memory.writeN`, and then a lemma `f_canonical` says that it keeps the canonical form. The lemmas follow the model's files and
the order of its definitions, so that each rests on those of the functions it calls; `step` is the last of them. -/

namespace Sys2Proof.Machine

@[simp] theorem State.dram_foldl {β : Type} {f : State → β → State} (h : ∀ st x, (f st x).dram = st.dram) (l : List β) (s : State) :
    (l.foldl f s).dram = s.dram := foldl_keep State.dram f h l s

theorem wf_foldl {β : Type} {f : State → β → State} (h : ∀ st x, Memory.wf st.dram = true → Memory.wf (f st x).dram = true) (l : List β) {s : State} (hs : Memory.wf s.dram = true) : Memory.wf (l.foldl f s).dram = true := foldl_inv (fun t => Memory.wf t.dram = true) f h l s hs

/-- Whatever the outcome of an instruction, the state that it leaves has a canonical main memory. -/
def Res.canonical : Res → Prop
  | .wait st => Memory.wf st.dram = true
  | .trap _ => True
  | .ok f => Memory.wf f.st.dram = true

@[simp] theorem Res.canonical_wait (st : State) : (Res.wait st).canonical ↔ Memory.wf st.dram = true := Iff.rfl

@[simp] theorem Res.canonical_trap (t : TrapInfo) : (Res.trap t).canonical := trivial

@[simp] theorem Res.canonical_ok (f : Eff) : (Res.ok f).canonical ↔ Memory.wf f.st.dram = true := Iff.rfl

/-- A meaning that keeps main memory canonical. -/
def Sem.canonical (m : Sem) : Prop := ∀ e, Memory.wf e.s.dram = true → (m.op e).canonical

/-- The next state, where there is one, has a canonical main memory. -/
def canonicalNext : Host.Outcome State Fault Refusal → Prop
  | .next t => Memory.wf t.dram = true
  | _ => True

@[simp] theorem canonicalNext_next (t : State) : canonicalNext (.next t) ↔ Memory.wf t.dram = true := Iff.rfl

theorem canonicalNext_ite {c : Bool} {a b : Host.Outcome State Fault Refusal} (ha : canonicalNext a) (hb : canonicalNext b) :
    canonicalNext (if c then a else b) := by
  split
  · exact ha
  · exact hb

theorem State.dram_worlds (s : State) (n : Worlds) : ({ s with worlds := n } : State).dram = s.dram := rfl

theorem State.dram_draw (s : State) (n : Nat) : ({ s with draw := n } : State).dram = s.dram := rfl

/-! ### Storage -/

@[simp] theorem State.encodeBlocks_canonical (s : State) (x : Nat × Nat × Fmt × Nat) (pa : Nat) (bytes : List Byte) (which : Nat → Bool) (poison : Bool)
    (hs : Memory.wf s.dram = true) : Memory.wf (s.encodeBlocks x pa bytes which poison).dram = true :=
  foldl_inv (fun t : State => Memory.wf t.dram = true) _ (fun _ _ h => Memory.wf_writeN h ..) _ s hs

@[simp] theorem State.ctlWrite_canonical (s : State) (sec : Nat) (bytes : List Byte) (poison : Bool) (written : Nat → Bool) (hs : Memory.wf s.dram = true) :
    Memory.wf (s.ctlWrite sec bytes poison written).dram = true := by
  unfold State.ctlWrite
  extract_lets pa all apart new s1 old bytes
  have h1 : Memory.wf s1.dram = true := wf_foldl (fun _ _ h => State.encodeBlocks_canonical _ _ _ _ _ _ h) _ hs
  split
  · exact Memory.wf_writeN h1 ..
  · exact State.encodeBlocks_canonical _ _ _ _ _ _ h1

@[simp] theorem State.bump_dram (s : State) (ctl amount : Nat) : (s.bump ctl amount).dram = s.dram := by
  unfold State.bump
  repeat' split
  all_goals simp

@[simp] theorem State.sliceCount_dram (s : State) (h ev tenant : Nat) (owner : Option Nat) : (s.sliceCount h ev tenant owner).dram = s.dram := by
  grind [State.sliceCount, State.bump_dram, State.dram_foldl]

@[simp] theorem State.auditEnd_dram (s : State) (h : Nat) (l : L2Line) (pass : Bool) : (s.auditEnd h l pass).dram = s.dram := by
  unfold State.auditEnd
  repeat' split
  all_goals simp

@[simp] theorem State.spoilPast_canonical (s : State) (l : L2Line) (k : Nat) (hs : Memory.wf s.dram = true) :
    Memory.wf (s.spoilPast l k).dram = true := by
  grind [State.spoilPast, State.encodeBlocks_canonical, wf_foldl, State.dram_foldl]

@[simp] theorem State.writeBack_canonical (s : State) (l : L2Line) (hs : Memory.wf s.dram = true) : Memory.wf (s.writeBack l).dram = true := by
  grind [State.writeBack, State.ctlWrite_canonical, State.spoilPast_canonical, wf_foldl, State.dram_foldl]

@[simp] theorem State.evict2_canonical (s : State) (h key : Nat) (hs : Memory.wf s.dram = true) : Memory.wf (s.evict2 h key).dram = true := by
  unfold State.evict2
  dsimp only
  repeat' split
  all_goals simp [*]

@[simp] theorem State.modLine2_dram (s : State) (pa : Nat) (f : L2Line → L2Line) : (s.modLine2 pa f).dram = s.dram := by
  unfold State.modLine2
  split <;> rfl

@[simp] theorem State.tidy2_dram (s : State) (pa : Nat) : (s.tidy2 pa).dram = s.dram := by
  unfold State.tidy2
  repeat' split
  all_goals simp

@[simp] theorem State.alloc2_canonical (s : State) (pa : Nat) (a : Asker) (hs : Memory.wf s.dram = true) : Memory.wf (s.alloc2 pa a).dram = true := by
  unfold State.alloc2
  dsimp only
  split <;> simp [*]

@[simp] theorem State.fill2_canonical (s : State) (pa : Nat) (a : Asker) (hs : Memory.wf s.dram = true) :
    Memory.wf (s.fill2 pa a).dram = true := by simp [State.fill2, *]

@[simp] theorem State.stamp2_dram (s : State) (pa : Nat) (a : Asker) (store : Bool) : (s.stamp2 pa a store).dram = s.dram := by
  unfold State.stamp2
  dsimp only
  split <;> simp

@[simp] theorem State.touch2_dram (s : State) (pa : Nat) (a : Asker) : (s.touch2 pa a).dram = s.dram := by
  unfold State.touch2
  dsimp only
  repeat' split
  all_goals simp

@[simp] theorem State.pathRead_dram (s : State) (p : Path) (pa n : Nat) : (s.pathRead p pa n).2.2.dram = s.dram := by simp [State.pathRead]

@[simp] theorem State.homeRead_canonical (s : State) (p : Path) (pa n : Nat) (a : Asker) (hs : Memory.wf s.dram = true) :
    Memory.wf (s.homeRead p pa n a).2.2.dram = true := by
  unfold State.homeRead
  dsimp only
  split <;> simp [*]

@[simp] theorem State.fireLine_dram (s : State) (line status : Nat) : (s.fireLine line status).dram = s.dram := by simp [State.fireLine]

@[simp] theorem State.homeStore_canonical (s : State) (pa : Nat) (bytes : List Byte) (poison : Bool) (a : Asker) (fill : Bool) (hs : Memory.wf s.dram = true) : Memory.wf (s.homeStore pa bytes poison a fill).dram = true := by
  unfold State.homeStore
  dsimp only
  repeat' split
  all_goals simp [*]

@[simp] theorem State.bankStore_dram (s : State) (pa : Nat) (bs : List Byte) (poison fresh : Bool) :
    (s.bankStore pa bs poison fresh).dram = s.dram := by
  grind [State.bankStore, State.modCore_dram, State.dram_foldl]

@[simp] theorem State.spadStore_dram (s : State) (uid : Option Nat) (pa : Nat) (bs : List Byte) (poison : Bool) :
    (s.spadStore uid pa bs poison).dram = s.dram := by simp [State.spadStore]

@[simp] theorem State.spoil_dram (s : State) (writer : Option Nat) (pa n : Nat) : (s.spoil writer pa n).dram = s.dram := by simp [State.spoil]

@[simp] theorem State.pathWrite_dram (s : State) (p : Path) (cmd pa : Nat) (bs : List Byte) (poison : Bool) (a : Asker) :
    (s.pathWrite p cmd pa bs poison a).dram = s.dram := by
  grind [State.pathWrite, State.spoil_dram, State.fireLine_dram, State.dram_foldl]

@[simp] theorem State.homeWriteAll_canonical (s : State) (pa : Nat) (bytes : List Byte) (a : Asker) (hs : Memory.wf s.dram = true) :
    Memory.wf (s.homeWriteAll pa bytes a).dram = true := by
  grind [State.homeWriteAll, State.spoil_dram, State.fireLine_dram, State.homeStore_canonical, wf_foldl, State.dram_foldl]

@[simp] theorem State.mergeOne_canonical (s : State) (w : PathWrite) (hs : Memory.wf s.dram = true) : Memory.wf (s.mergeOne w).dram = true := by
  unfold State.mergeOne
  repeat' split
  all_goals simp [*]

@[simp] theorem State.mergeWhere_canonical (s : State) (f : PathWrite → Bool) (hs : Memory.wf s.dram = true) :
    Memory.wf (s.mergeWhere f).dram = true := by
  grind [State.mergeWhere, State.mergeOne_canonical, wf_foldl, State.dram_foldl]

@[simp] theorem State.mergePath_canonical (s : State) (p : Path) (hs : Memory.wf s.dram = true) :
    Memory.wf (s.mergePath p).dram = true := by simp [State.mergePath, *]

@[simp] theorem State.mergeLine_canonical (s : State) (line : Nat) (hs : Memory.wf s.dram = true) :
    Memory.wf (s.mergeLine line).dram = true := by simp [State.mergeLine, *]

@[simp] theorem State.mergeSpad_canonical (s : State) (pa n : Nat) (hs : Memory.wf s.dram = true) :
    Memory.wf (s.mergeSpad pa n).dram = true := by simp [State.mergeSpad, *]

@[simp] theorem State.mergeShare_canonical (s : State) (gcore slot : Nat) (hs : Memory.wf s.dram = true) :
    Memory.wf (s.mergeShare gcore slot).dram = true := by simp [State.mergeShare, *]

@[simp] theorem State.fill1_dram (s : State) (core slot : Nat) (gen : BitVec 2) (tenant pa : Nat) (mark : Option (Nat × Option Nat)) :
    (s.fill1 core slot gen tenant pa mark).dram = s.dram := by simp [State.fill1]

@[simp] theorem State.stamp1_dram (s : State) (core slot : Nat) (gen : BitVec 2) (tenant pa nud : Nat) (nc : Word32) :
    (s.stamp1 core slot gen tenant pa nud nc).dram = s.dram := by
  unfold State.stamp1
  split <;> rfl

@[simp] theorem State.selfInvalidate_dram (s : State) (core : Nat) : (s.selfInvalidate core).dram = s.dram := by simp [State.selfInvalidate]

@[simp] theorem State.flushL1_dram (s : State) (core : Nat) : (s.flushL1 core).dram = s.dram := by simp [State.flushL1]

@[simp] theorem State.revoke_dram (s : State) (core word : Nat) : (s.revoke core word).dram = s.dram := by simp [State.revoke]

/-! ### Shared operations -/

@[simp] theorem State.muslin_dram (s : State) (ctx kind : Nat) (fields : List Nat) (payload : List Byte) :
    (s.muslin ctx kind fields payload).dram = s.dram := by
  unfold State.muslin
  dsimp only
  repeat' split
  all_goals simp

@[simp] theorem State.useEntry_dram (s : State) (ctx : Nat) (x : Nat × LogEntry) : (s.useEntry ctx x).dram = s.dram := by
  unfold State.useEntry
  dsimp only
  split <;> simp

@[simp] theorem State.noteOrder_dram (s : State) (ctx : Nat) (loc : Location) (mark : List Nat) : (s.noteOrder ctx loc mark).dram = s.dram := by
  unfold State.noteOrder
  split <;> simp

@[simp] theorem State.noteValue_dram (s : State) (g : Gang) (v : List Nat) : (s.noteValue g v).dram = s.dram := by
  unfold State.noteValue
  split <;> simp

@[simp] theorem State.noteSeal_dram (s : State) (g : Gang) : (s.noteSeal g).dram = s.dram := by
  unfold State.noteSeal
  dsimp only
  repeat' split
  all_goals simp

@[simp] theorem State.noteLoad_dram (s : State) (uid : Option Nat) (seq : Nat) (bs : List Byte) : (s.noteLoad uid seq bs).dram = s.dram := by
  unfold State.noteLoad
  repeat' split
  all_goals simp

@[simp] theorem State.fire_dram (s0 : State) (ctx assignOff vec : Nat) : (State.fire s0 ctx assignOff vec).dram = s0.dram := by
  unfold State.fire
  dsimp only
  repeat' split
  all_goals simp

@[simp] theorem State.log_dram (s : State) (ctx kind pa who detail : Nat) : (s.log ctx kind pa who detail).dram = s.dram := by
  unfold State.log
  dsimp only
  repeat' split
  all_goals simp

@[simp] theorem State.countAt_dram (s : State) (core ev amount : Nat) (pass : Nat → Nat → Bool) : (s.countAt core ev amount pass).dram = s.dram := by
  grind [State.countAt, State.bump_dram, State.dram_foldl]

@[simp] theorem State.settleWraps_dram (s : State) : (s.settleWraps).dram = s.dram := by
  grind [State.settleWraps, State.setReg_dram, State.log_dram, State.dram_foldl]

@[simp] theorem State.count_dram (s : State) (g : Gang) (ev amount : Nat) : (s.count g ev amount).dram = s.dram := by simp [State.count]

@[simp] theorem State.postFlag_dram (s : State) (core flag n ctx : Nat) : (s.postFlag core flag n ctx).dram = s.dram := by
  unfold State.postFlag
  dsimp only
  repeat' split
  all_goals simp

@[simp] theorem State.remotePost_dram (s : State) (addr : Word32) (n ctx who : Nat) : (s.remotePost addr n ctx who).dram = s.dram := by
  unfold State.remotePost
  dsimp only
  repeat' split
  all_goals simp

@[simp] theorem State.postRef_dram (s : State) (f : FlagRef) (ctx : Nat) (mark : List Nat) (who : Nat) :
    (s.postRef f ctx mark who).dram = s.dram := by
  unfold State.postRef
  repeat' split
  all_goals simp

@[simp] theorem State.launchFlight_dram (s : State) (f : Flight) : (s.launchFlight f).dram = s.dram := by simp [State.launchFlight]

@[simp] theorem State.launchAll_dram (s : State) (fs : List Flight) : (s.launchAll fs).dram = s.dram := by simp [State.launchAll]

@[simp] theorem State.noteFlight_dram (s : State) (f : Flight) : (s.noteFlight f).dram = s.dram := by simp [State.noteFlight]

@[simp] theorem State.dropFlight_dram (s0 : State) (id : Nat) : (State.dropFlight s0 id).dram = s0.dram := by
  unfold State.dropFlight
  split <;> simp

@[simp] theorem State.dropWhere_dram (s : State) (f : Flight → Bool) : (s.dropWhere f).dram = s.dram := by simp [State.dropWhere]

@[simp] theorem State.modCohort_dram (s : State) (ctx i : Nat) (f : Cohort → Cohort) :
    (s.modCohort ctx i f).dram = s.dram := by simp [State.modCohort]

@[simp] theorem State.applyFence_canonical (s : State) (f : Flight) (op : Nat) (hs : Memory.wf s.dram = true) :
    Memory.wf (s.applyFence f op).dram = true := by
  unfold State.applyFence
  repeat' split
  all_goals simp [*]

@[simp] theorem State.endDecoupled_dram (s : State) (f : Flight) (flag : Nat) : (s.endDecoupled f flag).dram = s.dram := by
  unfold State.endDecoupled
  split <;> rfl

@[simp] theorem State.applyReleases_canonical (s : State) (hs : Memory.wf s.dram = true) : Memory.wf (s.applyReleases).dram = true := by
  grind [State.applyReleases, State.dropFlight_dram, State.endDecoupled_dram, State.postFlag_dram, State.modGang_dram, State.modCohort_dram, State.applyFence_canonical, wf_foldl, State.dram_foldl]

@[simp] theorem State.leaveCohorts_dram (s : State) (g : Gang) : (s.leaveCohorts g).dram = s.dram := by
  grind [State.leaveCohorts, State.modCohort_dram, State.dram_foldl]

@[simp] theorem State.refund_dram (s : State) (ctx ib tb : Nat) : (s.refund ctx ib tb).dram = s.dram := by simp [State.refund]

@[simp] theorem State.exitGang_dram (s : State) (uid : Nat) : (s.exitGang uid).dram = s.dram := by
  unfold State.exitGang
  split <;> simp

@[simp] theorem State.dropGroup_dram (s : State) (uid : Nat) : (s.dropGroup uid).dram = s.dram := by
  unfold State.dropGroup
  repeat' split
  all_goals simp

@[simp] theorem State.blockGroup_dram (s : State) (uid : Nat) : (s.blockGroup uid).dram = s.dram := by
  unfold State.blockGroup
  repeat' split
  all_goals simp

@[simp] theorem State.kill_dram (s : State) (uid cause : Nat) (tiaddr : Word64) (record : Bool) (kind : Nat) :
    (s.kill uid cause tiaddr record kind).dram = s.dram := by
  unfold State.kill
  repeat' split
  all_goals simp

@[simp] theorem State.enterTrap_dram (s : State) (uid : Nat) (t : TrapInfo) (at_ npc : Word64) : (s.enterTrap uid t at_ npc).dram = s.dram := by
  unfold State.enterTrap
  dsimp only
  repeat' split
  all_goals simp

@[simp] theorem State.takeTrap_dram (s : State) (uid : Nat) (t : TrapInfo) (at_ npc : Word64) : (s.takeTrap uid t at_ npc).dram = s.dram := by
  unfold State.takeTrap
  repeat' split
  all_goals simp

@[simp] theorem State.trapReturn_dram (s0 : State) (uid : Nat) (target : Word64) (skip : Bool) :
    (State.trapReturn s0 uid target skip).dram = s0.dram := by
  unfold State.trapReturn
  split <;> simp

@[simp] theorem State.unspawn_dram (s : State) (f : Flight) : (s.unspawn f).dram = s.dram := by
  unfold State.unspawn
  split <;> rfl

@[simp] theorem State.recall_dram (s0 : State) (f : Flight) (uid : Nat) (t : TrapInfo) :
    (State.recall s0 f uid t).dram = s0.dram := by simp [State.recall]

@[simp] theorem State.lateTrap_dram (s : State) (g : Gang) (f : Flight) (t : TrapInfo) : (s.lateTrap g f t).dram = s.dram := by simp [State.lateTrap]

@[simp] theorem State.trapRelease_dram (s : State) (g : Gang) (f : Flight) (t0 : TrapInfo) : (s.trapRelease g f t0).dram = s.dram := by
  unfold State.trapRelease
  repeat' split
  all_goals simp

@[simp] theorem State.takeLate_dram (s : State) : (s.takeLate).dram = s.dram := by
  grind [State.takeLate, State.takeTrap_dram, State.modGang_dram, State.trapRelease_dram, State.dram_foldl]

@[simp] theorem State.takeReturns_dram (s : State) : (s.takeReturns).dram = s.dram := by
  grind [State.takeReturns, State.trapReturn_dram, State.dram_foldl]

@[simp] theorem State.takeSeals_dram (s : State) : (s.takeSeals).dram = s.dram := by
  grind [State.takeSeals, State.noteSeal_dram, State.dram_foldl]

@[simp] theorem State.pump_canonical (s : State) (hs : Memory.wf s.dram = true) : Memory.wf (s.pump).dram = true := by simp [State.pump, *]

@[simp] theorem State.requestYield_dram (s : State) (uid : Nat) (toDcp : Bool) : (s.requestYield uid toDcp).dram = s.dram := by
  unfold State.requestYield
  dsimp only
  split <;> simp

@[simp] theorem State.exhaust_dram (s : State) (uid : Nat) (pc npc : Word64) : (s.exhaust uid pc npc).dram = s.dram := by
  unfold State.exhaust
  repeat' split
  all_goals simp

@[simp] theorem State.chargedTrap_dram (s : State) (g : Gang) (ci ct : Nat) (t : TrapInfo) (pc npc : Word64) :
    (s.chargedTrap g ci ct t pc npc).dram = s.dram := by simp [State.chargedTrap]

@[simp] theorem State.firstIssue_dram (s : State) (g : Gang) : (s.firstIssue g).dram = s.dram := by
  unfold State.firstIssue
  split <;> rfl

@[simp] theorem State.writeFault_dram (s : State) (ctx : Nat) (f : PageFault) : (s.writeFault ctx f).dram = s.dram := by
  unfold State.writeFault
  dsimp only
  repeat' split
  all_goals simp

@[simp] theorem State.fault_dram (s : State) (ctx va kind level flags who : Nat) (engine : Option Nat) :
    (s.fault ctx va kind level flags who engine).dram = s.dram := by
  unfold State.fault
  dsimp only
  repeat' split
  all_goals simp

/-! ### The issue of an instruction -/

@[simp] theorem State.gingham_dram (s : State) (g : Gang) (vliw : Bool) (pc : Word64) (classes : List Nat) :
    (s.gingham g vliw pc classes).dram = s.dram := by
  unfold State.gingham
  dsimp only
  repeat' split
  all_goals simp

@[simp] theorem State.countIssue_dram (s : State) (g : Gang) (ci ct : Nat) : (s.countIssue g ci ct).dram = s.dram := by simp [State.countIssue]

@[simp] theorem State.payAll_dram (s : State) (uid : Nat) (old : List Flight) (ci ct : Nat) :
    (s.payAll uid old ci ct).dram = s.dram := by simp [State.payAll]

@[simp] theorem State.commit_canonical (i : Instr) (e : Env) (f : Eff) (ci ct : Nat) (hf : Memory.wf f.st.dram = true) :
    Memory.wf (State.commit i e f ci ct).dram = true := by
  unfold State.commit
  extract_lets uid lane classes s1 s2 s3 s4
  have h3 : s3.dram = f.st.dram := by
    simp only [s3]
    split <;> simp [s2, s1]
  exact State.pump_canonical _ (by simp [s4, h3, hf])

@[simp] theorem State.illegalWord_dram (s : State) (g : Gang) (maj : Nat) : (s.illegalWord g maj).dram = s.dram := by
  unfold State.illegalWord
  split <;> simp

@[simp] theorem runSimt_canonical (i : Instr) (m : Sem) (g : Gang) (s : State) (hs : Memory.wf s.dram = true) (hm : m.canonical) :
    Memory.wf (runSimt i m g s).dram = true := by
  unfold runSimt
  extract_lets s1 ci env ct e
  have h1 : s1.dram = s.dram := by simp [s1]
  have he : (m.op e).canonical := hm e (by simpa [e, env] using hs)
  clear_value e s1
  repeat' split
  all_goals simp_all

theorem run_canonical (i : Instr) (m : Sem) (s : State) (hs : Memory.wf s.dram = true) (hm : m.canonical) : canonicalNext (run i m s) := by
  unfold run
  split
  · trivial
  · exact runSimt_canonical _ _ _ _ hs hm

@[simp] theorem Env.nothing_canonical (e : Env) (hs : Memory.wf e.s.dram = true) : (Env.nothing e).canonical := by simp [Env.nothing, *]

@[simp] theorem Env.illegal_canonical (e : Env) : (Env.illegal e).canonical := by simp [Env.illegal]

@[simp] theorem Env.each_canonical (e : Env) (srcs : List Src) (f : Nat → List RegWrite × Fx) (hs : Memory.wf e.s.dram = true) :
    (Env.each e srcs f).canonical := by
  unfold Env.each
  split <;> simp [*]

/-! ### Translation -/

@[simp] theorem State.walked_dram (s : State) (unit ctx va : Nat) : (s.walked unit ctx va).dram = s.dram := by simp [State.walked]

@[simp] theorem State.tlbPut_dram (s : State) (e : TlbEntry) : (s.tlbPut e).dram = s.dram := by simp [State.tlbPut]

@[simp] theorem State.cache_dram (s : State) (unit ctx va : Nat) (w : Walk) : (s.cache unit ctx va w).dram = s.dram := by
  unfold State.cache
  repeat' split
  all_goals simp

@[simp] theorem State.cacheFetch_dram (s : State) (core ctx va : Nat) (w : Walk) : (s.cacheFetch core ctx va w).dram = s.dram := by
  unfold State.cacheFetch
  repeat' split
  all_goals simp

@[simp] theorem State.shootdown_dram (s : State) (ctx va len : Nat) : (s.shootdown ctx va len).dram = s.dram := by simp [State.shootdown]

/-! ### Memory accesses -/

@[simp] theorem State.acquire_dram (s : State) (uid : Nat) : (s.acquire uid).dram = s.dram := by
  unfold State.acquire
  split <;> simp

@[simp] theorem State.stepNc_dram (s : State) (uid : Nat) : (s.stepNc uid).dram = s.dram := by simp [State.stepNc]

@[simp] theorem State.send_dram (s : State) (g : Gang) (r : Req) (lead : Nat) (nc : Word32) (vliw : Bool) (post : FlagRef) (ps : List Part) :
    (s.send g r lead nc vliw post ps).dram = s.dram := by
  unfold State.send
  split <;> simp

@[simp] theorem State.cacheAll_dram (s : State) (core ctx : Nat) (ts : List (Part × Walk)) :
    (s.cacheAll core ctx ts).dram = s.dram := by simp [State.cacheAll]

@[simp] theorem State.park_dram (s : State) (g : Gang) (i : Instr) (flags lead : Nat) (nc : Word32) (ms : List (Part × Nat × Nat)) (waiting : List Part) : (s.park g i flags lead nc ms waiting).dram = s.dram := by simp [State.park]

@[simp] theorem genericSem_canonical (i : Instr) (r : Req) (charged : Bool) (srcs : Env → List Src) (parts : Env → List Part) (acquires one : Bool) :
    (genericSem i r charged srcs parts acquires one).canonical := fun e he => by
  unfold genericSem
  dsimp only
  repeat' split
  all_goals simp [he]

@[simp] theorem State.countFor_dram (s : State) (f : Flight) (ev n : Nat) : (s.countFor f ev n).dram = s.dram := by
  unfold State.countFor
  split <;> simp

@[simp] theorem State.refresh1_dram (s : State) (core pa n : Nat) : (s.refresh1 core pa n).dram = s.dram := by simp [State.refresh1]

@[simp] theorem State.vecLoad_canonical (s : State) (f : Flight) (pa n : Nat) (mark acquire leads : Bool) (hs : Memory.wf s.dram = true) :
    Memory.wf (s.vecLoad f pa n mark acquire leads).2.2.dram = true := by
  unfold State.vecLoad
  repeat' split
  all_goals simp [*]

@[simp] theorem State.sendRevokes_dram (s : State) (f : Flight) (ws : List (Nat × Nat)) :
    (s.sendRevokes f ws).dram = s.dram := by simp [State.sendRevokes]

@[simp] theorem State.own_dram (s : State) (f : Flight) (pa n : Nat) : (s.own f pa n).dram = s.dram := by simp [State.own]

@[simp] theorem State.ownCopy_dram (s : State) (f : Flight) (pa n : Nat) : (s.ownCopy f pa n).dram = s.dram := by
  unfold State.ownCopy
  split <;> simp

@[simp] theorem State.vecStore_dram (s : State) (f : Flight) (pa : Nat) (bs : List Byte) :
    (s.vecStore f pa bs).dram = s.dram := by simp [State.vecStore]

@[simp] theorem State.settleLine_canonical (s : State) (pa : Nat) (p : Path) (hs : Memory.wf s.dram = true) :
    Memory.wf (s.settleLine pa p).dram = true := by simp [State.settleLine, *]

@[simp] theorem State.disown_dram (s : State) (pa n : Nat) : (s.disown pa n).dram = s.dram := by
  grind [State.disown, State.revoke_dram, State.dram_foldl]

@[simp] theorem State.deviceAtomic_canonical (s : State) (pa : Nat) (bs : List Byte) (a : Asker) (hs : Memory.wf s.dram = true) :
    Memory.wf (s.deviceAtomic pa bs a).dram = true := by simp [State.deviceAtomic, *]

@[simp] theorem State.fabricApply_canonical (s : State) (x : FabricAccess) (hs : Memory.wf s.dram = true) :
    Memory.wf (s.fabricApply x).2.2.2.dram = true := by
  unfold State.fabricApply
  dsimp only
  repeat' split
  all_goals simp [*]

@[simp] theorem State.countFlit_dram (s : State) (port k n : Nat) : (s.countFlit port k n).dram = s.dram := by simp [State.countFlit]

@[simp] theorem State.moveFlits_dram (s : State) (port : Nat) : (s.moveFlits port).dram = s.dram := by simp [State.moveFlits]

@[simp] theorem State.fabricAnswer_canonical (s0 : State) (kind : FlightKind) (p : Part) (n : Nat) (hs : Memory.wf s0.dram = true) :
    Memory.wf (State.fabricAnswer s0 kind p n).2.2.2.dram = true := by
  unfold State.fabricAnswer
  dsimp only
  split <;> simp [*]

@[simp] theorem State.result_dram (s : State) (f : Flight) (d : Reg) (w : OpW) (strand : Nat) (v : BitVec 128) (poison : Bool) :
    (s.result f d w strand v poison).dram = s.dram := by
  unfold State.result
  repeat' split
  all_goals simp

/-! ### Loads, stores, atomics, prefetch -/

@[simp] theorem semLd_canonical (h : Hd) (x : MF) : (semLd h x).canonical := by simp [semLd]

@[simp] theorem semSt_canonical (h : Hd) (x : MF) : (semSt h x).canonical := by simp [semSt]

@[simp] theorem semLdnc_canonical (h : Hd) (x : MF) : (semLdnc h x).canonical := by simp [semLdnc]

@[simp] theorem semLdacq_canonical (h : Hd) (x : MF) : (semLdacq h x).canonical := by simp [semLdacq]

@[simp] theorem semStrel_canonical (h : Hd) (x : MF) : (semStrel h x).canonical := by simp [semStrel]

@[simp] theorem Env.pendFor_dram (e : Env) (s : State) (d : Reg) (w : OpW) : (Env.pendFor e s d w).dram = s.dram := by
  unfold Env.pendFor
  split <;> rfl

@[simp] theorem Env.countConflicts_dram (e : Env) (ps : List (Nat × Nat)) : (Env.countConflicts e ps).dram = e.s.dram := by
  unfold Env.countConflicts
  extract_lets n
  clear_value n
  split <;> simp

@[simp] theorem Env.spadLoads_dram (e : Env) (d : Reg) (n : Nat) (sgn : Bool) (queue : Option Nat) (post : FlagRef) (ps : List (Nat × Nat)) :
    (Env.spadLoads e d n sgn queue post ps).st.dram = e.s.dram := by
  unfold Env.spadLoads
  dsimp only
  split <;> simp

@[simp] theorem Env.spadStores_dram (e : Env) (n : Nat) (queue : Option Nat) (post : FlagRef) (ps : List (Nat × Nat × BitVec 128)) :
    (Env.spadStores e n queue post ps).st.dram = e.s.dram := by
  unfold Env.spadStores
  dsimp only
  split <;> simp

@[simp] theorem semLds_canonical (h : Hd) (x : MF) : (semLds h x).canonical := fun e he => by
  unfold semLds
  dsimp only
  repeat' split
  all_goals simp [he]

@[simp] theorem semSts_canonical (h : Hd) (x : MF) : (semSts h x).canonical := fun e he => by
  unfold semSts
  dsimp only
  repeat' split
  all_goals simp [he]

@[simp] theorem handleSem_canonical (x : MF) (write : Bool) (near : Env → List (Nat × Nat) → Eff) (away : Env → List (Nat × Nat) → State)
    (hn : ∀ e ps, Memory.wf e.s.dram = true → Memory.wf (near e ps).st.dram = true) (ha : ∀ e ps, Memory.wf e.s.dram = true → Memory.wf (away e ps).dram = true) :
    (handleSem x write near away).canonical := fun e he => by
  unfold handleSem
  dsimp only
  repeat' split
  all_goals simp [*]

@[simp] theorem semLdh_canonical (h : Hd) (x : MF) : (semLdh h x).canonical := by simp [semLdh]

@[simp] theorem semSth_canonical (h : Hd) (x : MF) : (semSth h x).canonical := by simp [semSth]

@[simp] theorem State.modTile_dram (s : State) (core k : Nat) (f : Tile → Tile) : (s.modTile core k f).dram = s.dram := by simp [State.modTile]

@[simp] theorem State.setTstat_dram (s : State) (uid : Nat) (v : Word64) : (s.setTstat uid v).dram = s.dram := by simp [State.setTstat]

@[simp] theorem tileSem_canonical (x : MF) (write : Bool) (act : Env → List (Nat × Nat) → Eff)
    (ha : ∀ e ps, Memory.wf e.s.dram = true → Memory.wf (act e ps).st.dram = true) : (tileSem x write act).canonical := fun e he => by
  unfold tileSem
  dsimp only
  repeat' split
  all_goals simp [*]

@[simp] theorem semLdt_canonical (h : Hd) (x : MF) : (semLdt h x).canonical := by simp [semLdt]

@[simp] theorem semStt_canonical (h : Hd) (x : MF) : (semStt h x).canonical := by simp [semStt]

@[simp] theorem semAtom_canonical (h : Hd) (x : RF) : (semAtom h x).canonical := by simp [semAtom]

@[simp] theorem semAtomf_canonical (h : Hd) (x : RF) : (semAtomf h x).canonical := by simp [semAtomf]

@[simp] theorem semCas_canonical (h : Hd) (x : RF) : (semCas h x).canonical := by simp [semCas]

@[simp] theorem State.seenAt_dram (s : State) (pa n : Nat) : (s.seenAt pa n).dram = s.dram := by simp [State.seenAt]

@[simp] theorem State.bankAtomic_dram (s : State) (uid : Option Nat) (fn n : Nat) (ps : List Part) :
    (s.bankAtomic uid fn n ps).2.2.dram = s.dram := by
  unfold State.bankAtomic
  dsimp only
  repeat' split
  all_goals simp

@[simp] theorem semAtoms_canonical (h : Hd) (x : RF) : (semAtoms h x).canonical := fun e he => by
  unfold semAtoms
  dsimp -zeta only
  extract_lets n swap w a eas part near away locs s0 done r
  have h0 : s0.dram = e.s.dram := by simp [s0]
  have hdone : done.1.dram = e.s.dram :=
    foldl_inv (fun acc : State × List RegWrite => acc.1.dram = e.s.dram) _ (fun acc gr h => by simpa using h) _ _ h0
  clear_value done swap
  repeat' split
  all_goals simp [*]

@[simp] theorem prefSem_canonical (x : MF) (charged : Bool) (act : Env → State → Nat → State)
    (ha : ∀ e st pa, Memory.wf st.dram = true → Memory.wf (act e st pa).dram = true) : (prefSem x charged act).canonical := fun e he => by
  unfold prefSem
  dsimp only
  split
  · simp
  · refine (congrArg Memory.wf (State.stepNc_dram ..)).trans (wf_foldl (fun st p h => ?_) _ he)
    repeat' split
    all_goals simp [*]

@[simp] theorem State.prefHome_canonical (s : State) (a : Asker) (pa : Nat) (hs : Memory.wf s.dram = true) :
    Memory.wf (s.prefHome a pa).dram = true := by simp [State.prefHome, *]

@[simp] theorem semPref_canonical (h : Hd) (x : MF) : (semPref h x).canonical := prefSem_canonical _ _ _ (fun e st pa hs => by
  dsimp only
  split <;> simp [hs])

@[simp] theorem semPrefL2_canonical (h : Hd) (x : MF) : (semPrefL2 h x).canonical := fun e he => by
  grind [Res.canonical, Sem.canonical, semPrefL2, prefSem_canonical, State.prefHome_canonical, wf_foldl, State.dram_foldl]

@[simp] theorem State.markDead_dram (s : State) (core pa : Nat) : (s.markDead core pa).dram = s.dram := by
  unfold State.markDead
  dsimp only
  split <;> simp

@[simp] theorem semPrefEvict_canonical (h : Hd) (x : MF) : (semPrefEvict h x).canonical := by simp [semPrefEvict]

@[simp] theorem semPrefDiscard_canonical (h : Hd) (x : MF) : (semPrefDiscard h x).canonical := by simp [semPrefDiscard]

@[simp] theorem semCmntWb_canonical (h : Hd) (x : MF) : (semCmntWb h x).canonical := by simp [semCmntWb]

@[simp] theorem semCmntWbinv_canonical (h : Hd) (x : MF) : (semCmntWbinv h x).canonical := by simp [semCmntWbinv]

@[simp] theorem semCmntInv1_canonical (h : Hd) (x : MF) : (semCmntInv1 h x).canonical := by simp [semCmntInv1]

/-! ### Fences, handles, line monitors, flags, barriers -/

@[simp] theorem State.launchBlocking_dram (s : State) (uid : Nat) (f : Flight) :
    (s.launchBlocking uid f).dram = s.dram := by simp [State.launchBlocking]

@[simp] theorem fenceSem_canonical (op : RF → Nat) (rel : Bool) (x : RF) : (fenceSem op rel x).canonical := fun e he => by
  unfold fenceSem
  dsimp only
  repeat' split
  all_goals simp [he]

@[simp] theorem semFence_canonical (h : Hd) (x : RF) : (semFence h x).canonical := by simp [semFence]

@[simp] theorem semFenceRel_canonical (h : Hd) (x : RF) : (semFenceRel h x).canonical := by simp [semFenceRel]

@[simp] theorem semFenceAcq_canonical (h : Hd) (x : RF) : (semFenceAcq h x).canonical := by simp [semFenceAcq]

@[simp] theorem semFenceAr_canonical (h : Hd) (x : RF) : (semFenceAr h x).canonical := by simp [semFenceAr]

@[simp] theorem semFencex_canonical (h : Hd) (x : RF) : (semFencex h x).canonical := by simp [semFencex]

@[simp] theorem xlatSem_canonical (i : Instr) (x : RF) (write : Bool) : (xlatSem i x write).canonical := fun e he => by
  unfold xlatSem
  dsimp only
  repeat' split
  all_goals simp [he]

@[simp] theorem semXlat_canonical (h : Hd) (x : RF) : (semXlat h x).canonical := by simp [semXlat]

@[simp] theorem semXlatW_canonical (h : Hd) (x : RF) : (semXlatW h x).canonical := by simp [semXlatW]

@[simp] theorem State.dropHandles_dram (s : State) (uid : Nat) (pick : Nat → Bool) :
    (s.dropHandles uid pick).dram = s.dram := by simp [State.dropHandles]

@[simp] theorem semHdrop_canonical (h : Hd) (x : RF) : (semHdrop h x).canonical := fun e he => by
  unfold semHdrop
  dsimp only
  repeat' split
  all_goals simp [he]

@[simp] theorem semHdropAll_canonical (h : Hd) (x : RF) : (semHdropAll h x).canonical := fun e he => by
  unfold semHdropAll
  dsimp only
  split <;> simp [he]

@[simp] theorem semWatch_canonical (h : Hd) (x : MF) : (semWatch h x).canonical := by simp [semWatch]

@[simp] theorem State.disarm_dram (s : State) (uid : Nat) : (s.disarm uid).dram = s.dram := by
  unfold State.disarm
  split <;> rfl

@[simp] theorem execWatchRegistration_canonical (id : Nat) (s : State) (hs : Memory.wf s.dram = true) :
    canonicalNext (execWatchRegistration id s) := by
  unfold execWatchRegistration
  dsimp only
  repeat' split
  all_goals simp [*]

@[simp] theorem semWaitw_canonical (h : Hd) (x : IF) : (semWaitw h x).canonical := fun e he => by
  unfold semWaitw
  dsimp only
  repeat' split
  all_goals simp [he]

@[simp] theorem State.wakeWatcher_dram (s : State) (uid status : Nat) : (s.wakeWatcher uid status).dram = s.dram := by simp [State.wakeWatcher]

@[simp] theorem execWaitwTimeout_canonical (uid : Nat) (s : State) (hs : Memory.wf s.dram = true) : canonicalNext (execWaitwTimeout uid s) := by
  unfold execWaitwTimeout
  repeat' split
  all_goals simp [*]

@[simp] theorem execWaitwEarlyReturn_canonical (uid : Nat) (s : State) (hs : Memory.wf s.dram = true) :
    canonicalNext (execWaitwEarlyReturn uid s) := by
  unfold execWaitwEarlyReturn
  repeat' split
  all_goals simp [*]

@[simp] theorem semFpost_canonical (h : Hd) (x : RF) : (semFpost h x).canonical := fun e he => by
  unfold semFpost
  dsimp only
  repeat' split
  all_goals simp [he]

@[simp] theorem semFpostR_canonical (h : Hd) (x : RF) : (semFpostR h x).canonical := fun e he => by
  unfold semFpostR
  dsimp only
  repeat' split
  all_goals simp [he]

@[simp] theorem State.takeFlag_dram (s : State) (uid j n : Nat) : (s.takeFlag uid j n).dram = s.dram := by
  unfold State.takeFlag
  split <;> simp

@[simp] theorem semFwait_canonical (h : Hd) (x : IF) : (semFwait h x).canonical := fun e he => by
  unfold semFwait
  dsimp only
  repeat' split
  all_goals simp [he]

@[simp] theorem semFread_canonical (h : Hd) (x : RF) : (semFread h x).canonical := fun e he => by
  unfold semFread
  dsimp only
  repeat' split
  all_goals simp [he]

@[simp] theorem semFreadAddr_canonical (h : Hd) (x : RF) : (semFreadAddr h x).canonical := fun e he => by
  unfold semFreadAddr
  dsimp only
  repeat' split
  all_goals simp [he]

@[simp] theorem State.setK_dram (s : State) (uid n : Nat) (k : KReg) : (s.setK uid n k).dram = s.dram := by simp [State.setK]

@[simp] theorem semBarArrive_canonical (h : Hd) (x : RF) : (semBarArrive h x).canonical := fun e he => by
  unfold semBarArrive
  dsimp only
  repeat' split
  all_goals simp [he]

@[simp] theorem semBarWait_canonical (h : Hd) (x : RF) : (semBarWait h x).canonical := fun e he => by
  unfold semBarWait
  dsimp only
  repeat' split
  all_goals simp [he]

/-! ### Control -/

@[simp] theorem transfer_canonical (st : State) (ws : List RegWrite) (t : Word64) (hs : Memory.wf st.dram = true) : (transfer st ws t).canonical := by
  unfold transfer
  split <;> simp [*]

@[simp] theorem State.modCtl_dram (s : State) (uid : Nat) (f : Ctl → Ctl) : (s.modCtl uid f).dram = s.dram := by simp [State.modCtl]

@[simp] theorem semPbr_canonical (h : Hd) (x : IF) : (semPbr h x).canonical := fun e he => by
  unfold semPbr
  dsimp only
  split <;> simp [he]

@[simp] theorem semPbrr_canonical (h : Hd) (x : RF) : (semPbrr h x).canonical := fun e he => by
  unfold semPbrr
  dsimp only
  repeat' split
  all_goals simp [he]

@[simp] theorem semPbrrGet_canonical (h : Hd) (x : RF) : (semPbrrGet h x).canonical := fun e he => by
  unfold semPbrrGet
  dsimp only
  split <;> simp [he]

@[simp] theorem goIf_canonical (e : Env) (c : Bool) (n : Nat) (hs : Memory.wf e.s.dram = true) : (goIf e c n).canonical := by
  unfold goIf
  split <;> simp [*]

@[simp] theorem semBr_canonical (h : Hd) (x : BF) : (semBr h x).canonical := fun e he => by
  unfold semBr
  dsimp only
  repeat' split
  all_goals simp [he]

@[simp] theorem semBrAny_canonical (h : Hd) (x : BF) : (semBrAny h x).canonical := fun e he => by
  unfold semBrAny
  dsimp only
  split <;> simp [he]

@[simp] theorem semBrAll_canonical (h : Hd) (x : BF) : (semBrAll h x).canonical := fun e he => by
  unfold semBrAll
  dsimp only
  split <;> simp [he]

@[simp] theorem Env.endGang_canonical (e : Env) (st : State) (hs : Memory.wf st.dram = true) (hs1 : Memory.wf e.s.dram = true) :
    (Env.endGang e st).canonical := by
  unfold Env.endGang
  repeat' split
  all_goals simp [*]

@[simp] theorem Env.goOn_canonical (e : Env) (st : State) (r : Word32 × List Entry × Word64) (hs : Memory.wf st.dram = true) (hs1 : Memory.wf e.s.dram = true) : (Env.goOn e st r).canonical := by
  unfold Env.goOn
  dsimp only
  split <;> simp [*]

@[simp] theorem semJoin_canonical (h : Hd) (x : BF) : (semJoin h x).canonical := fun e he => by
  unfold semJoin
  dsimp only
  repeat' split
  all_goals simp [he]

@[simp] theorem semCall_canonical (h : Hd) (x : BF) : (semCall h x).canonical := fun e he => by
  unfold semCall
  dsimp only
  split <;> simp [he]

@[simp] theorem semRet_canonical (h : Hd) (x : BF) : (semRet h x).canonical := fun e he => by
  unfold semRet
  dsimp only
  simp [he]

@[simp] theorem State.abandon_dram (s : State) (uid : Nat) (m : Word32) : (s.abandon uid m).dram = s.dram := by simp [State.abandon]

@[simp] theorem semExit_canonical (h : Hd) (x : BF) : (semExit h x).canonical := fun e he => by
  unfold semExit
  dsimp only
  repeat' split
  all_goals simp [he]

@[simp] theorem semFuse_canonical (h : Hd) (x : BF) : (semFuse h x).canonical := fun e he => by
  unfold semFuse
  dsimp only
  repeat' split
  all_goals simp [he]

@[simp] theorem semSplit_canonical (h : Hd) (x : BF) : (semSplit h x).canonical := fun e he => by
  unfold semSplit
  dsimp only
  repeat' split
  all_goals simp [he]

@[simp] theorem Env.loopPush_canonical (e : Env) (st : State) (n : BitVec 32) (stages : Nat) (hs : Memory.wf st.dram = true) : (Env.loopPush e st n stages).canonical := by
  unfold Env.loopPush
  split <;> simp [*]

@[simp] theorem Env.loopAdvance_canonical (e : Env) (st : State) (hs : Memory.wf st.dram = true) :
    (Env.loopAdvance e st).canonical := by
  unfold Env.loopAdvance
  repeat' split
  all_goals simp [*]

@[simp] theorem Env.loopPop_canonical (e : Env) (st : State) (hs : Memory.wf st.dram = true) :
    (Env.loopPop e st).canonical := by
  unfold Env.loopPop
  split <;> simp [*]

@[simp] theorem semLoop_canonical (h : Hd) (x : IF) : (semLoop h x).canonical := fun e he => by
  unfold semLoop
  dsimp only
  repeat' split
  all_goals simp [he]

@[simp] theorem semLend_canonical (h : Hd) (x : BF) : (semLend h x).canonical := fun e he => by
  unfold semLend
  dsimp only
  simp [he]

@[simp] theorem semLendPop_canonical (h : Hd) (x : BF) : (semLendPop h x).canonical := fun e he => by
  unfold semLendPop
  dsimp only
  simp [he]

@[simp] theorem semLendBrk_canonical (h : Hd) (x : BF) : (semLendBrk h x).canonical := fun e he => by
  grind [Res.canonical, Sem.canonical, semLendBrk, Env.nothing_canonical, Env.loopPop_canonical, transfer_canonical, wf_foldl, State.dram_foldl]

@[simp] theorem contSem_canonical (x : IF) (target : Env → Word64) : (contSem x target).canonical := fun e he => by
  unfold contSem
  dsimp only
  repeat' split
  all_goals simp [he]

@[simp] theorem semCont_canonical (h : Hd) (x : IF) : (semCont h x).canonical := by simp [semCont]

@[simp] theorem semContB_canonical (h : Hd) (x : IF) : (semContB h x).canonical := by simp [semContB]

@[simp] theorem bgtSem_canonical (x : IF) (act : Env → Nat → Nat → Res) (ha : ∀ e i t, Memory.wf e.s.dram = true → (act e i t).canonical) :
    (bgtSem x act).canonical := fun e he => by
  unfold bgtSem
  dsimp only
  repeat' split
  all_goals simp [*]

@[simp] theorem State.setBudget_dram (s : State) (g : Gang) (ib tb ibpool tbpool : Nat) :
    (s.setBudget g ib tb ibpool tbpool).dram = s.dram := by simp [State.setBudget]

@[simp] theorem semBgtTop_canonical (h : Hd) (x : IF) : (semBgtTop h x).canonical := fun e he => by
  grind [Res.canonical, Sem.canonical, semBgtTop, bgtSem_canonical, State.setBudget_dram, wf_foldl, State.dram_foldl]

@[simp] theorem semBgtRel_canonical (h : Hd) (x : IF) : (semBgtRel h x).canonical := by simp [semBgtRel]

@[simp] theorem semYield_canonical (h : Hd) (x : BF) : (semYield h x).canonical := fun e he => by
  unfold semYield
  dsimp only
  split <;> simp [he]

@[simp] theorem semTrap_canonical (h : Hd) (x : IF) : (semTrap h x).canonical := fun e he => by
  unfold semTrap
  dsimp only
  split <;> simp [he]

@[simp] theorem semTrapBkpt_canonical (h : Hd) (x : IF) : (semTrapBkpt h x).canonical := fun e he => by
  unfold semTrapBkpt
  dsimp only
  split <;> simp [he]

@[simp] theorem tretSem_canonical (target : TrapRec → Word64) (skip : Bool) : (tretSem target skip).canonical := fun e he => by
  unfold tretSem
  dsimp only
  repeat' split
  all_goals simp [he]

@[simp] theorem semTret_canonical (h : Hd) (x : BF) : (semTret h x).canonical := by simp [semTret]

@[simp] theorem semTretSkip_canonical (h : Hd) (x : BF) : (semTretSkip h x).canonical := by simp [semTretSkip]

@[simp] theorem semRdctr_canonical (h : Hd) (x : RF) : (semRdctr h x).canonical := fun e he => by
  unfold semRdctr
  dsimp only
  split <;> simp [he]

@[simp] theorem lgmSteps_canonical (i : Instr) (x : MF) (store pi : Bool) (e : Env) (one : List Part) (hs : Memory.wf e.s.dram = true) :
    (lgmSteps i x store pi e one).canonical := by
  unfold lgmSteps
  extract_lets w r first base d
  split
  · trivial
  · extract_lets out1 two
    split
    · trivial
    · extract_lets ms out s1 f1 f2 fs s2
      have h2 : s2.dram = e.s.dram := by simp [s2, s1]
      clear_value s2
      split <;> simp [h2, hs]

@[simp] theorem lgmSem_canonical (i : Instr) (x : MF) (store pi : Bool) : (lgmSem i x store pi).canonical := fun e he => by
  unfold lgmSem
  dsimp only
  repeat' split
  all_goals simp [he]

theorem lgmAgain_canonical {i : Instr} {e : Env} {ps : List Part} {r : Res} (h : lgmAgain i e ps = some r) (hs : Memory.wf e.s.dram = true) :
    r.canonical := by
  revert r
  unfold lgmAgain
  split
  all_goals simp [hs]

@[simp] theorem semLdx_canonical (h : Hd) (x : MF) : (semLdx h x).canonical := by simp [semLdx]

@[simp] theorem semStx_canonical (h : Hd) (x : MF) : (semStx h x).canonical := by simp [semStx]

@[simp] theorem semLdxPi_canonical (h : Hd) (x : MF) : (semLdxPi h x).canonical := by simp [semLdxPi]

@[simp] theorem semStxPi_canonical (h : Hd) (x : MF) : (semStxPi h x).canonical := by simp [semStxPi]

@[simp] theorem semBrx_canonical (h : Hd) (x : RF) : (semBrx h x).canonical := fun e he => by
  unfold semBrx
  dsimp only
  repeat' split
  all_goals simp [he]

@[simp] theorem semAtmx_canonical (h : Hd) (x : RF) : (semAtmx h x).canonical := fun e he => by
  unfold semAtmx
  dsimp only
  repeat' split
  all_goals simp [he]

/-! ### Device registers -/

@[simp] theorem State.setBits_dram (s : State) (a : Nat) (mask v : Word64) : (s.setBits a mask v).dram = s.dram := by simp [State.setBits]

@[simp] theorem State.freezePort_dram (s : State) (port a : Nat) : (s.freezePort port a).dram = s.dram := by simp [State.freezePort]

@[simp] theorem State.turnAway_dram (s : State) (who : Who) (a : Nat) : (s.turnAway who a).dram = s.dram := by
  unfold State.turnAway
  repeat' split
  all_goals simp

@[simp] theorem State.writeBy_canonical (s : State) (who : Who) (a : Nat) (act : State → State) (hs : Memory.wf s.dram = true)
    (ha : ∀ t, Memory.wf t.dram = true → Memory.wf (act t).dram = true) : Memory.wf (s.writeBy who a act).dram = true := by
  unfold State.writeBy
  split
  · exact ha s hs
  · simpa using hs

@[simp] theorem State.windowStale_dram (s : State) (past : Nat → List (Nat × Nat × Fmt × Nat)) (r : Nat × Nat) :
    (s.windowStale past r).dram = s.dram := by
  unfold State.windowStale
  dsimp only
  split <;> simp

@[simp] theorem State.windowChange_dram (s : State) (mc n : Nat) (act : State → State) (ha : (act s).dram = s.dram) :
    (s.windowChange mc n act).dram = s.dram := by
  unfold State.windowChange
  extract_lets t
  split
  · exact ha
  · exact (State.dram_foldl (fun st x => State.windowStale_dram ..) _ _).trans ha

@[simp] theorem State.windowControl_dram (s : State) (mc n : Nat) (v : Word64) : (s.windowControl mc n v).dram = s.dram := by
  grind [State.windowControl, State.windowChange_dram, State.setReg_dram, State.dram_foldl]

@[simp] theorem State.mcWrite_dram (s : State) (a : Nat) (v : Word64) : (s.mcWrite a v).dram = s.dram := by
  unfold State.mcWrite
  dsimp only
  repeat' split
  all_goals simp

@[simp] theorem execFormatWindowEnable_canonical (who : Who) (mc n : Nat) (v : BitVec 64) (s : State) (hs : Memory.wf s.dram = true) :
    canonicalNext (execFormatWindowEnable who mc n v s) := by
  unfold execFormatWindowEnable
  split <;> simp [*]

@[simp] theorem State.tenantRead_dram (s : State) (t : Nat) : (s.tenantRead t).dram = s.dram := by simp [State.tenantRead]

@[simp] theorem State.tenantWrite_dram (s : State) (t : Nat) (v : Word64) : (s.tenantWrite t v).dram = s.dram := by simp [State.tenantWrite]

@[simp] theorem execTenantFailsRead_canonical (who : Who) (t : Nat) (s : State) (hs : Memory.wf s.dram = true) :
    canonicalNext (execTenantFailsRead who t s) := by
  unfold execTenantFailsRead
  repeat' split
  all_goals simp [*]

@[simp] theorem privSem_canonical (act : Env → Res) (ha : ∀ e, Memory.wf e.s.dram = true → (act e).canonical) :
    (privSem act).canonical := fun e he => by
  unfold privSem
  dsimp only
  repeat' split
  all_goals simp [*]

@[simp] theorem semPrivMfp_canonical (h : Hd) (x : RF) : (semPrivMfp h x).canonical := fun e he => by
  grind [Res.canonical, Sem.canonical, semPrivMfp, privSem_canonical, State.tenantRead_dram, wf_foldl, State.dram_foldl]

@[simp] theorem semPrivMtp_canonical (h : Hd) (x : RF) : (semPrivMtp h x).canonical := fun e he => by
  grind [Res.canonical, Sem.canonical, semPrivMtp, privSem_canonical, State.modGang_dram, State.modCtl_dram, State.mcWrite_dram, Env.nothing_canonical, wf_foldl, State.dram_foldl]

@[simp] theorem semPrivInval_canonical (h : Hd) (x : RF) : (semPrivInval h x).canonical := fun e he => by
  grind [Res.canonical, Sem.canonical, semPrivInval, privSem_canonical, Env.nothing_canonical, State.modGang_dram, State.shootdown_dram, wf_foldl, State.dram_foldl]

@[simp] theorem State.reclaim_dram (s : State) (uid : Nat) : (s.reclaim uid).dram = s.dram := by
  unfold State.reclaim
  repeat' split
  all_goals simp

@[simp] theorem semPrivYreq_canonical (h : Hd) (x : RF) : (semPrivYreq h x).canonical := fun e he => by
  grind [Res.canonical, Sem.canonical, semPrivYreq, privSem_canonical, State.reclaim_dram, State.launchBlocking_dram, wf_foldl, State.dram_foldl]

@[simp] theorem execSchedulerWriteDelivery_canonical (n : Nat) (s : State) (hs : Memory.wf s.dram = true) :
    canonicalNext (execSchedulerWriteDelivery n s) := by
  unfold execSchedulerWriteDelivery
  dsimp only
  repeat' split
  all_goals simp [*]

/-! ### Bins and records -/

@[simp] theorem State.modBin_dram (s : State) (ctx node : Nat) (f : Bin → Bin) : (s.modBin ctx node f).dram = s.dram := by simp [State.modBin]

@[simp] theorem State.modNode_dram (s : State) (ctx node : Nat) (f : Node → Node) : (s.modNode ctx node f).dram = s.dram := by simp [State.modNode]

@[simp] theorem State.reserve_dram (s : State) (ctx node k n : Nat) : (s.reserve ctx node k n).dram = s.dram := by
  unfold State.reserve
  split <;> rfl

@[simp] theorem State.enterBin_dram (s : State) (ctx node : Nat) (r : Record) : (s.enterBin ctx node r).dram = s.dram := by
  unfold State.enterBin
  split <;> rfl

@[simp] theorem State.spill_dram (s : State) (ctx node : Nat) (r : Record) : (s.spill ctx node r).dram = s.dram := by simp [State.spill]

@[simp] theorem State.appendRecs_dram (s : State) (ctx node k : Nat) (rs : List Record) :
    (s.appendRecs ctx node k rs).dram = s.dram := by simp [State.appendRecs]

@[simp] theorem State.form_dram (s : State) (ctx node : Nat) (pick : Record → Bool) (n : Nat) : (s.form ctx node pick n).dram = s.dram := by
  unfold State.form
  dsimp only
  split <;> simp

@[simp] theorem State.formMarked_dram (s : State) (ctx node lid : Nat) : (s.formMarked ctx node lid).dram = s.dram := by simp [State.formMarked]

@[simp] theorem State.trigger_dram (s : State) (ctx node : Nat) : (s.trigger ctx node).dram = s.dram := by
  unfold State.trigger
  dsimp only
  repeat' split
  all_goals simp

@[simp] theorem State.returnOver_dram (s : State) (ctx node : Nat) : (s.returnOver ctx node).dram = s.dram := by simp [State.returnOver]

/-! ### Tiles, SPAWN, futures, records -/

@[simp] theorem semTdef_canonical (h : Hd) (x : RF) : (semTdef h x).canonical := fun e he => by
  unfold semTdef
  dsimp only
  repeat' split
  all_goals simp [he]

@[simp] theorem tacqSem_canonical (x : RF) (act : Env → Nat → Tile → Res) (ha : ∀ e k t, Memory.wf e.s.dram = true → (act e k t).canonical) :
    (tacqSem x act).canonical := fun e he => by
  unfold tacqSem
  dsimp only
  repeat' split
  all_goals simp [*]

@[simp] theorem Env.tileTo_canonical (e : Env) (k : Nat) (f : Tile → Tile) (hs : Memory.wf e.s.dram = true) :
    (Env.tileTo e k f).canonical := by simp [Env.tileTo, *]

@[simp] theorem semTacqOwn_canonical (h : Hd) (x : RF) : (semTacqOwn h x).canonical := fun e he => by
  grind [Res.canonical, Sem.canonical, semTacqOwn, tacqSem_canonical, Env.tileTo_canonical, wf_foldl, State.dram_foldl]

@[simp] theorem semTacqPub_canonical (h : Hd) (x : RF) : (semTacqPub h x).canonical := fun e he => by
  grind [Res.canonical, Sem.canonical, semTacqPub, tacqSem_canonical, Env.tileTo_canonical, State.mergeSpad_canonical, wf_foldl, State.dram_foldl]

@[simp] theorem semTacqRel_canonical (h : Hd) (x : RF) : (semTacqRel h x).canonical := fun e he => by
  grind [Res.canonical, Sem.canonical, semTacqRel, tacqSem_canonical, Env.tileTo_canonical, wf_foldl, State.dram_foldl]

@[simp] theorem execTileDrainComplete_canonical (core entry : Nat) (s : State) (hs : Memory.wf s.dram = true) :
    canonicalNext (execTileDrainComplete core entry s) := by
  unfold execTileDrainComplete
  split <;> simp [*]

@[simp] theorem spawnSem_canonical (x : IF) (one : Bool) : (spawnSem x one).canonical := fun e he => by
  unfold spawnSem
  dsimp only
  repeat' split
  all_goals simp [he]

@[simp] theorem semSpawn_canonical (h : Hd) (x : IF) : (semSpawn h x).canonical := by simp [semSpawn]

@[simp] theorem semSpawnOne_canonical (h : Hd) (x : IF) : (semSpawnOne h x).canonical := by simp [semSpawnOne]

@[simp] theorem futSem_canonical (i : Instr) (x : RF) (write rel cell : Bool) (srcs : List Src) (val : Env → Nat → Nat) (kind : FlightKind) :
    (futSem i x write rel cell srcs val kind).canonical := fun e he => by
  unfold futSem
  dsimp only
  repeat' split
  all_goals simp [he]

@[simp] theorem semFutRes_canonical (h : Hd) (x : RF) : (semFutRes h x).canonical := by simp [semFutRes]

@[simp] theorem semFutPoison_canonical (h : Hd) (x : RF) : (semFutPoison h x).canonical := by simp [semFutPoison]

@[simp] theorem semFutJoin_canonical (h : Hd) (x : RF) : (semFutJoin h x).canonical := by simp [semFutJoin]

@[simp] theorem semFutPoll_canonical (h : Hd) (x : RF) : (semFutPoll h x).canonical := by simp [semFutPoll]

@[simp] theorem State.sendDec_dram (s : State) (f : Flight) (cell : Nat) (poison : Bool) :
    (s.sendDec f cell poison).dram = s.dram := by simp [State.sendDec]

@[simp] theorem State.futureAt_canonical (s : State) (pa : Nat) (p : Path) (hs : Memory.wf s.dram = true) :
    Memory.wf (s.futureAt pa p).2.2.dram = true := by simp [State.futureAt, *]

@[simp] theorem State.atomRead_canonical (s : State) (f : Flight) (pa n : Nat) (hs : Memory.wf s.dram = true) :
    Memory.wf (s.atomRead f pa n).dram = true := by
  unfold State.atomRead
  dsimp only
  split <;> simp [*]

@[simp] theorem State.atomWrite_canonical (s : State) (f : Flight) (pa : Nat) (bs : List Byte) (hs : Memory.wf s.dram = true) :
    Memory.wf (s.atomWrite f pa bs).dram = true := by simp [State.atomWrite, *]

@[simp] theorem State.atomOr_canonical (s : State) (f : Flight) (pa n : Nat) (writes : Bool) (act : State → State) (hs : Memory.wf s.dram = true)
    (ha : ∀ t, Memory.wf t.dram = true → Memory.wf (act t).dram = true) : Memory.wf (s.atomOr f pa n writes act).dram = true := by
  unfold State.atomOr
  extract_lets ws
  split
  · exact ha s hs
  · simpa using hs

@[simp] theorem State.futAcquire_dram (s : State) (f : Flight) : (s.futAcquire f).dram = s.dram := by
  unfold State.futAcquire
  split <;> simp

@[simp] theorem State.futDouble_dram (s : State) (f : Flight) (p : Part) : (s.futDouble f p).dram = s.dram := by
  unfold State.futDouble
  split <;> rfl

@[simp] theorem State.markActed_dram (s : State) (f : Flight) : (s.markActed f).dram = s.dram := by simp [State.markActed]

@[simp] theorem State.futLoss_canonical (s : State) (f : Flight) (acts : State) (hs : Memory.wf s.dram = true) (ha : Memory.wf acts.dram = true) :
    Memory.wf (s.futLoss f acts).dram = true := by
  unfold State.futLoss
  repeat' split
  all_goals simp [*]

@[simp] theorem execHomeSliceJoin_canonical (id : Nat) (s : State) (hs : Memory.wf s.dram = true) : canonicalNext (execHomeSliceJoin id s) := by
  unfold execHomeSliceJoin
  split
  · exact hs
  · split
    · exact hs
    · split
      · refine State.pump_canonical _ (wf_foldl (fun st p hst => ?_) _ hs)
        extract_lets w r
        refine State.atomOr_canonical _ _ _ _ _ _ (State.futureAt_canonical st p.pa _ hst) (fun x hx => ?_)
        extract_lets st1 st2 st3 done
        have h1 : Memory.wf st1.dram = true := by
          simp only [st1]
          split <;> simp [hx]
        clear_value st1
        have h2 : Memory.wf st2.dram = true := by
          simp only [st2]
          split <;> simp [h1]
        clear_value st2
        have h3 : Memory.wf st3.dram = true := by
          simp only [st3]
          split <;> simp [h2]
        clear_value st3
        split
        · exact State.futLoss_canonical _ _ _ hx (by simpa [done] using h3)
        · simpa [done] using h3
      · refine State.pump_canonical _ (wf_foldl (fun st p hst => ?_) _ hs)
        extract_lets w x st1 done
        have hx : Memory.wf x.dram = true := State.atomRead_canonical _ _ _ _ (State.futureAt_canonical st p.pa _ hst)
        clear_value x
        have h1 : Memory.wf st1.dram = true := by
          simp only [st1]
          split <;> simp [hx]
        clear_value st1
        split
        · exact State.futLoss_canonical _ _ _ hx (by simpa [done] using h1)
        · simpa [done] using h1
      · exact hs

@[simp] theorem State.resolveAt_canonical (s : State) (f : Flight) (pa v : Nat) (poison : Bool) (hs : Memory.wf s.dram = true) :
    Memory.wf (s.resolveAt f pa v poison).2.2.dram = true := by
  unfold State.resolveAt
  dsimp only
  repeat' split
  all_goals simp [*]

@[simp] theorem execHomeSliceResolve_canonical (id : Nat) (s : State) (hs : Memory.wf s.dram = true) : canonicalNext (execHomeSliceResolve id s) := by
  grind [execHomeSliceResolve, State.pump_canonical, State.atomOr_canonical, State.futureAt_canonical, State.resolveAt_canonical, State.futDouble_dram, State.dropFlight_dram, State.result_dram, wf_foldl, State.dram_foldl, canonicalNext]

@[simp] theorem execCellDecrement_canonical (id : Nat) (s : State) (hs : Memory.wf s.dram = true) : canonicalNext (execCellDecrement id s) := by
  unfold execCellDecrement
  split
  · exact hs
  · rename_i f hf
    split
    · exact hs
    · split
      · rename_i pa poison topup launch hk
        split
        · simp [hs]
        · extract_lets s1 b count pz b' s2 words r s3
          have h2 : Memory.wf s2.dram = true := State.atomWrite_canonical s1 f pa b' (s.settleLine_canonical pa _ hs)
          clear_value s2
          have h3 : Memory.wf s3.dram = true := by
            simp only [s3]
            split <;> simp [h2]
          clear_value s3
          simp [h3]
      · exact hs

@[simp] theorem grecSem_canonical (x : RF) (w : OpW) (f : Record → BitVec 128) (logged : Bool) : (grecSem x w f logged).canonical := fun e he => by
  unfold grecSem
  dsimp only
  repeat' split
  all_goals simp [he]

@[simp] theorem semGrecTs_canonical (h : Hd) (x : RF) : (semGrecTs h x).canonical := by simp [semGrecTs]

@[simp] theorem semGrecTsx_canonical (h : Hd) (x : RF) : (semGrecTsx h x).canonical := by simp [semGrecTsx]

@[simp] theorem semGrecSrc_canonical (h : Hd) (x : RF) : (semGrecSrc h x).canonical := by simp [semGrecSrc]

@[simp] theorem semGrecWord_canonical (h : Hd) (x : RF) : (semGrecWord h x).canonical := fun e he => by
  unfold semGrecWord
  dsimp only
  simp [he]

@[simp] theorem rdtmSem_canonical (x : RF) (w : OpW) (gap : Nat) (f : Nat → BitVec 128) : (rdtmSem x w gap f).canonical := fun e he => by
  unfold rdtmSem
  dsimp only
  split <;> simp [he]

@[simp] theorem semRdtm_canonical (h : Hd) (x : RF) : (semRdtm h x).canonical := by simp [semRdtm]

@[simp] theorem semRdtmX_canonical (h : Hd) (x : RF) : (semRdtmX h x).canonical := by simp [semRdtmX]

@[simp] theorem semRdtmQ_canonical (h : Hd) (x : RF) : (semRdtmQ h x).canonical := by simp [semRdtmQ]

/-! ### Memory events -/

@[simp] theorem State.endAcquire_dram (s : State) (f : Flight) : (s.endAcquire f).dram = s.dram := by
  grind [State.endAcquire, State.dropFlight_dram, State.recall_dram, State.dropWhere_dram, State.acquire_dram, State.result_dram, State.dram_foldl]

@[simp] theorem State.loadBytes_canonical (s : State) (f : Flight) (p : Part) (n : Nat) (mark acquire leads : Bool) (hs : Memory.wf s.dram = true) :
    Memory.wf (s.loadBytes f p n mark acquire leads).2.2.dram = true := by
  unfold State.loadBytes
  split <;> simp [*]

@[simp] theorem State.doLoad_canonical (s : State) (f : Flight) (hs : Memory.wf s.dram = true) : Memory.wf (s.doLoad f).dram = true := by
  grind [State.doLoad, State.modFlight_dram, State.noteFlight_dram, State.loadBytes_canonical, State.noteLoad_dram, State.result_dram, wf_foldl, State.dram_foldl]

@[simp] theorem State.doLdx_canonical (s : State) (f : Flight) (n first : Nat) (sgn : Bool) (d : Reg) (hs : Memory.wf s.dram = true) :
    Memory.wf (s.doLdx f n first sgn d).dram = true := by
  unfold State.doLdx
  repeat' split
  all_goals simp [*]

@[simp] theorem execLoadResultReturn_canonical (id : Nat) (s : State) (hs : Memory.wf s.dram = true) : canonicalNext (execLoadResultReturn id s) := by
  unfold execLoadResultReturn
  repeat' split
  all_goals simp [*]

@[simp] theorem State.loseStore_dram (s : State) (f : Flight) (pa : Nat) : (s.loseStore f pa).dram = s.dram := by
  unfold State.loseStore
  split <;> simp

@[simp] theorem State.discardSector_canonical (s : State) (pa : Nat) (hs : Memory.wf s.dram = true) : Memory.wf (s.discardSector pa).dram = true := by
  unfold State.discardSector
  dsimp only
  split <;> simp [*]

@[simp] theorem State.maintainLine_canonical (s : State) (core op pa : Nat) (hs : Memory.wf s.dram = true) :
    Memory.wf (s.maintainLine core op pa).dram = true := by
  unfold State.maintainLine
  dsimp only
  repeat' split
  all_goals simp [*]

@[simp] theorem State.doStore_canonical (s : State) (f : Flight) (hs : Memory.wf s.dram = true) : Memory.wf (s.doStore f).dram = true := by
  grind [State.doStore, State.fabricAnswer_canonical, State.loseStore_dram, State.vecStore_dram, State.spadStore_dram, State.discardSector_canonical, State.maintainLine_canonical, wf_foldl, State.dram_foldl]

@[simp] theorem execStoreRegistration_canonical (id : Nat) (s : State) (hs : Memory.wf s.dram = true) :
    canonicalNext (execStoreRegistration id s) := by
  unfold execStoreRegistration
  dsimp only
  repeat' split
  all_goals simp [*]

@[simp] theorem execRevocation_canonical (id : Nat) (s : State) (hs : Memory.wf s.dram = true) : canonicalNext (execRevocation id s) := by
  unfold execRevocation
  repeat' split
  all_goals simp [*]

@[simp] theorem State.postLeft_dram (s : State) (f : Flight) (core flag : Nat) : (s.postLeft f core flag).dram = s.dram := by simp [State.postLeft]

@[simp] theorem execDecoupledAccessCompletion_canonical (id : Nat) (s : State) (hs : Memory.wf s.dram = true) :
    canonicalNext (execDecoupledAccessCompletion id s) := by
  grind [execDecoupledAccessCompletion, State.pump_canonical, State.postLeft_dram, State.doStore_canonical, State.doLoad_canonical, State.sendRevokes_dram, wf_foldl, State.dram_foldl, canonicalNext]

@[simp] theorem State.homeAtomic_canonical (s : State) (f : Flight) (fn n : Nat) (d : Reg) (hs : Memory.wf s.dram = true) :
    Memory.wf (s.homeAtomic f fn n d).dram = true := by
  grind [State.homeAtomic, State.fabricAnswer_canonical, State.result_dram, State.settleLine_canonical, State.atomWrite_canonical, State.atomRead_canonical, wf_foldl, State.dram_foldl]

@[simp] theorem execAtomicApply_canonical (id : Nat) (s : State) (hs : Memory.wf s.dram = true) : canonicalNext (execAtomicApply id s) := by
  unfold execAtomicApply
  dsimp only
  repeat' split
  all_goals simp [*]

@[simp] theorem execRemoteFlagPost_canonical (id : Nat) (s : State) (hs : Memory.wf s.dram = true) : canonicalNext (execRemoteFlagPost id s) := by
  unfold execRemoteFlagPost
  repeat' split
  all_goals simp [*]

@[simp] theorem execPathWriteMerge_canonical (n : Nat) (s : State) (hs : Memory.wf s.dram = true) : canonicalNext (execPathWriteMerge n s) := by
  grind [execPathWriteMerge, State.mergeOne_canonical, wf_foldl, State.dram_foldl, canonicalNext]

@[simp] theorem execFabricAccessAtTarget_canonical (acc : FabricAccess) (s : State) (hs : Memory.wf s.dram = true) :
    canonicalNext (execFabricAccessAtTarget acc s) := by simp [execFabricAccessAtTarget, *]

@[simp] theorem execAuditResult_canonical (n : Nat) (s : State) (hs : Memory.wf s.dram = true) : canonicalNext (execAuditResult n s) := by
  unfold execAuditResult
  repeat' split
  all_goals simp [*]

@[simp] theorem execAuditAgeExpiry_canonical (slice set way : Nat) (s : State) (hs : Memory.wf s.dram = true) :
    canonicalNext (execAuditAgeExpiry slice set way s) := by
  unfold execAuditAgeExpiry
  dsimp only
  repeat' split
  all_goals simp [*]

@[simp] theorem execWalkCompletion_canonical (id : Nat) (s : State) (hs : Memory.wf s.dram = true) : canonicalNext (execWalkCompletion id s) := by
  unfold execWalkCompletion
  dsimp only
  repeat' split
  all_goals simp [*]

@[simp] theorem execFaultEntryDeferred_canonical (ctx : Nat) (s : State) (hs : Memory.wf s.dram = true) :
    canonicalNext (execFaultEntryDeferred ctx s) := by
  unfold execFaultEntryDeferred
  repeat' split
  all_goals simp [*]

theorem wholeSem_canonical {i : Instr} {m : Sem} (h : wholeSem i = some m) : m.canonical := by
  revert m
  unfold wholeSem
  split
  all_goals simp

@[simp] theorem State.replayTrap_dram (s : State) (g : Gang) (k : Park) (t : TrapInfo) :
    (s.replayTrap g k t).dram = s.dram := by simp [State.replayTrap]

@[simp] theorem State.replayXlat_dram (s : State) (g : Gang) (k : Park) (x : RF) (write : Bool) : (s.replayXlat g k x write).dram = s.dram := by
  unfold State.replayXlat
  dsimp only
  repeat' split
  all_goals simp

@[simp] theorem State.replay_canonical (s : State) (g : Gang) (k : Park) (hs : Memory.wf s.dram = true) : Memory.wf (s.replay g k).dram = true := by
  unfold State.replay
  extract_lets g0 s0 e keep e1
  have hk : ∀ st : State, (keep st).dram = st.dram := fun st => State.modGang_dram ..
  have h0 : Memory.wf s0.dram = true := hs
  have he : e1.s = s0 := rfl
  clear_value keep s0 e1
  split
  · exact hs
  · split
    · exact (congrArg Memory.wf (State.replayXlat_dram ..)).trans hs
    · exact (congrArg Memory.wf (State.replayXlat_dram ..)).trans hs
    · split
      · split
        · simp [h0]
        · dsimp only
          rw [hk]
          split <;> simp [h0]
      · have hr : ∀ r, (lgmAgain k.instr e1 k.parts).or ((wholeSem k.instr).map (fun (m : Sem) => m.op e1)) = some r → r.canonical := fun r hr => by
          rcases Option.or_eq_some_iff.mp hr with hl | ⟨-, hw⟩
          · exact lgmAgain_canonical hl (he ▸ h0)
          · obtain ⟨m, hm, rfl⟩ := Option.map_eq_some_iff.mp hw
            exact wholeSem_canonical hm e1 (he ▸ h0)
        split
        · exact hs
        · next f hf => simpa [hk] using hr _ hf
        · simp [h0]
        · exact hs

@[simp] theorem State.replayWhere_canonical (s : State) (pick : Gang → Bool) (hs : Memory.wf s.dram = true) :
    Memory.wf (s.replayWhere pick).dram = true := by
  grind [State.replayWhere, State.pump_canonical, State.replay_canonical, wf_foldl, State.dram_foldl]

@[simp] theorem State.replayAll_canonical (s : State) (ctx : Nat) (hs : Memory.wf s.dram = true) :
    Memory.wf (s.replayAll ctx).dram = true := by simp [State.replayAll, *]

@[simp] theorem State.retire_canonical (s : State) (ctx : Nat) (which : PageFault → Bool) (hs : Memory.wf s.dram = true) :
    Memory.wf (s.retire ctx which).dram = true := by
  grind [State.retire, State.modCtx_dram, State.modGang_dram, State.fault_dram, State.walked_dram, State.replayAll_canonical, wf_foldl, State.dram_foldl]

@[simp] theorem State.retireWrite_canonical (s : State) (ctx : Nat) (v : Word64) (hs : Memory.wf s.dram = true) :
    Memory.wf (s.retireWrite ctx v).dram = true := by
  unfold State.retireWrite
  split <;> simp [*]

@[simp] theorem State.portOrder_canonical (s : State) (who : Who) (hs : Memory.wf s.dram = true) : Memory.wf (s.portOrder who).dram = true := by
  unfold State.portOrder
  split <;> simp [*]

@[simp] theorem execFaultRetire_canonical (who : Who) (ctx : Nat) (v : BitVec 64) (s : State) (hs : Memory.wf s.dram = true) :
    canonicalNext (execFaultRetire who ctx v s) := by
  grind [execFaultRetire, State.writeBy_canonical, State.retireWrite_canonical, State.portOrder_canonical, wf_foldl, State.dram_foldl, canonicalNext]

@[simp] theorem execFaultRetireAll_canonical (who : Who) (ctx : Nat) (v : BitVec 64) (s : State) (hs : Memory.wf s.dram = true) :
    canonicalNext (execFaultRetireAll who ctx v s) := by
  grind [execFaultRetireAll, State.writeBy_canonical, State.retireWrite_canonical, State.portOrder_canonical, wf_foldl, State.dram_foldl, canonicalNext]

@[simp] theorem State.hostShoot_dram (s : State) (ctx : Nat) (v : Word64) : (s.hostShoot ctx v).dram = s.dram := by
  unfold State.hostShoot
  dsimp only
  split <;> simp

@[simp] theorem execHostShootdown_canonical (who : Who) (ctx : Nat) (v : BitVec 64) (s : State) (hs : Memory.wf s.dram = true) :
    canonicalNext (execHostShootdown who ctx v s) := by
  grind [execHostShootdown, State.writeBy_canonical, State.hostShoot_dram, State.portOrder_canonical, wf_foldl, State.dram_foldl, canonicalNext]

/-! ### Fetch -/

@[simp] theorem State.noteFetch_dram (s old : State) (g : Gang) (n : Nat) : (s.noteFetch old g n).dram = s.dram := by
  induction n with
  | zero => rfl
  | succ n ih =>
    unfold State.noteFetch
    dsimp only
    repeat' split
    all_goals simp [ih]

/-! ### Matrix queue and engine -/

@[simp] theorem Env.enqueue_dram (e : Env) (m : MEntry) : (Env.enqueue e m).dram = e.s.dram := by simp [Env.enqueue]

@[simp] theorem Env.tstat2_dram (e : Env) (st : State) (k j : Nat) : (Env.tstat2 e st k j).dram = st.dram := by simp [Env.tstat2]

@[simp] theorem matrixSem_canonical (x : EF) (act : Env → FlagRef → Res) (ha : ∀ e f, Memory.wf e.s.dram = true → (act e f).canonical) :
    (matrixSem x act).canonical := fun e he => by
  unfold matrixSem
  dsimp only
  repeat' split
  all_goals simp [*]

@[simp] theorem Env.protection_canonical (e : Env) (a : Word64) :
    (Env.protection e a).canonical := by simp [Env.protection, *]

@[simp] theorem semMma_canonical (h : Hd) (x : EF) : (semMma h x).canonical := fun e he => by
  grind [Res.canonical, Sem.canonical, semMma, matrixSem_canonical, Env.protection_canonical, Env.tstat2_dram, Env.enqueue_dram, wf_foldl, State.dram_foldl]

@[simp] theorem semMmag_canonical (h : Hd) (x : EF) : (semMmag h x).canonical := by
  unfold semMmag
  refine matrixSem_canonical x _ (fun e fl he => ?_)
  extract_lets gs idx kb tb ra rb at_ ea rows outside denied ta
  split
  · trivial
  split
  · exact he
  split
  · trivial
  split
  · trivial
  split
  · trivial
  split
  · trivial
  split
  · trivial
  split
  · trivial
  exact (congrArg Memory.wf ((State.setTstat_dram ..).trans ((State.dram_draw ..).trans (Env.enqueue_dram ..)))).trans he

@[simp] theorem semZld_canonical (h : Hd) (x : EF) : (semZld h x).canonical := fun e he => by
  grind [Res.canonical, Sem.canonical, semZld, matrixSem_canonical, Env.protection_canonical, State.setTstat_dram, Env.enqueue_dram, wf_foldl, State.dram_foldl]

@[simp] theorem semZst_canonical (h : Hd) (x : EF) : (semZst h x).canonical := fun e he => by
  grind [Res.canonical, Sem.canonical, semZst, matrixSem_canonical, Env.protection_canonical, State.setTstat_dram, Env.enqueue_dram, wf_foldl, State.dram_foldl]

@[simp] theorem semZclr_canonical (h : Hd) (x : EF) : (semZclr h x).canonical := fun e he => by
  grind [Res.canonical, Sem.canonical, semZclr, matrixSem_canonical, Env.enqueue_dram, wf_foldl, State.dram_foldl]

@[simp] theorem semZrowRd_canonical (h : Hd) (x : EF) : (semZrowRd h x).canonical := fun e he => by
  unfold semZrowRd
  dsimp only
  repeat' split
  all_goals simp [he]

@[simp] theorem semZrowWr_canonical (h : Hd) (x : EF) : (semZrowWr h x).canonical := fun e he => by
  grind [Res.canonical, Sem.canonical, semZrowWr, matrixSem_canonical, Env.enqueue_dram, wf_foldl, State.dram_foldl]

@[simp] theorem execMatrixStart_canonical (core : Nat) (s : State) (hs : Memory.wf s.dram = true) : canonicalNext (execMatrixStart core s) := by
  unfold execMatrixStart
  dsimp only
  repeat' split
  all_goals simp [*]

@[simp] theorem execMatrixCompletion_canonical (core : Nat) (s : State) (hs : Memory.wf s.dram = true) :
    canonicalNext (execMatrixCompletion core s) := by
  unfold execMatrixCompletion
  extract_lets c due first
  clear_value first
  split
  · exact hs
  · split
    · exact hs
    · extract_lets s1 key base src s2 mtx src3 s3
      have h2 : s2.dram = s.dram := by
        have h1 : s1.dram = s.dram := State.modCore_dram ..
        clear_value s1
        simp only [s2]
        split
        · exact (State.dram_foldl (fun _ _ => State.spadStore_dram ..) _ _).trans h1
        · exact (State.dram_draw ..).trans ((State.modCore_dram ..).trans h1)
      have h3 : s3.dram = s2.dram := by
        clear_value s2
        simp only [s3]
        split
        · exact (State.dram_draw ..).trans (State.modGang_dram ..)
        · rfl
      exact State.pump_canonical _ (by rw [State.postRef_dram, h3, h2, hs])

/-! ### Data engines -/

@[simp] theorem semGset_canonical (h : Hd) (x : RF) : (semGset h x).canonical := fun e he => by
  unfold semGset
  dsimp only
  repeat' split
  all_goals simp [he]

@[simp] theorem semEstsQ_canonical (h : Hd) (x : RF) : (semEstsQ h x).canonical := fun e he => by
  unfold semEstsQ
  dsimp only
  split <;> simp [he]

@[simp] theorem semEstsErr_canonical (h : Hd) (x : RF) : (semEstsErr h x).canonical := fun e he => by
  unfold semEstsErr
  dsimp only
  split <;> simp [he]

@[simp] theorem engineSem_canonical (x : EF) (count : Env → Nat) (plan : Env → Except TrapInfo Plan) :
    (engineSem x count plan).canonical := fun e he => by
  unfold engineSem
  dsimp only
  repeat' split
  all_goals simp [he]

@[simp] theorem semCopy_canonical (h : Hd) (x : EF) : (semCopy h x).canonical := by simp [semCopy]

@[simp] theorem semStrmIn_canonical (h : Hd) (x : EF) : (semStrmIn h x).canonical := by simp [semStrmIn]

@[simp] theorem semStrmOut_canonical (h : Hd) (x : EF) : (semStrmOut h x).canonical := by simp [semStrmOut]

@[simp] theorem semNetx_canonical (h : Hd) (x : EF) : (semNetx h x).canonical := by simp [semNetx]

@[simp] theorem State.modCmd_dram (s : State) (id : Nat) (f : Cmd → Cmd) : (s.modCmd id f).dram = s.dram := by simp [State.modCmd]

@[simp] theorem State.cmdRead_canonical (s : State) (c : Cmd) (pa n : Nat) (hs : Memory.wf s.dram = true) :
    Memory.wf (s.cmdRead c pa n).2.2.dram = true := by
  unfold State.cmdRead
  repeat' split
  all_goals simp [*]

@[simp] theorem State.cmdWrite_canonical (s : State) (c : Cmd) (pa : Nat) (bs : List Byte) (poison : Bool) (hs : Memory.wf s.dram = true) :
    Memory.wf (s.cmdWrite c pa bs poison).dram = true := by
  unfold State.cmdWrite
  dsimp only
  repeat' split
  all_goals simp [*]

@[simp] theorem State.keep_canonical (s : State) (c : Cmd) (m : Move) (hs : Memory.wf s.dram = true) : Memory.wf (s.keep c m).1.dram = true := by
  grind [State.keep, State.cmdWrite_canonical, wf_foldl, State.dram_foldl]

@[simp] theorem State.cmdFault_dram (s : State) (c : Cmd) (va k l : Nat) (write : Bool) :
    (s.cmdFault c va k l write).1.dram = s.dram := by simp [State.cmdFault]

@[simp] theorem State.moveStep_canonical (s : State) (c : Cmd) (m : Move) (k : Nat) (hs : Memory.wf s.dram = true) :
    Memory.wf (s.moveStep c m k).1.dram = true := by
  unfold State.moveStep
  extract_lets r col a b s0
  split
  · exact hs
  · simpa using hs
  · exact hs
  · simpa using hs
  · rename_i pa pb _ _
    extract_lets unit n got bytes sx s1 s2 c1
    have hg : Memory.wf got.2.2.dram = true := by
      refine State.cmdRead_canonical _ c pa n ?_
      split
      · simpa [s0] using hs
      · exact hs
    have h1 : Memory.wf s1.dram = true := State.cmdWrite_canonical _ _ _ _ _ ((congrArg Memory.wf (State.dram_draw ..)).trans hg)
    clear_value s1
    have h2 : s2.dram = s1.dram := by
      simp only [s2]
      split
      · simp
      · rfl
    exact (congrArg Memory.wf h2).trans h1

@[simp] theorem State.moveOn_canonical (k : Nat) (s : State) (c : Cmd) (m : Move) (goal : Nat) (hs : Memory.wf s.dram = true) :
    Memory.wf (State.moveOn k s c m goal).1.dram = true := by
  induction k generalizing s c with
  | zero => exact hs
  | succ k ih =>
    unfold State.moveOn
    split
    · exact hs
    · exact ih _ _ (State.moveStep_canonical _ _ _ _ hs)

@[simp] theorem State.move_canonical (s : State) (c : Cmd) (hs : Memory.wf s.dram = true) :
    Memory.wf (s.move c).1.dram = true := by simp [State.move, *]

@[simp] theorem State.passTurn_dram (s : State) (c : Cmd) : (s.passTurn c).dram = s.dram := by simp [State.passTurn]

@[simp] theorem State.drainNow_dram (s : State) (core k : Nat) : (s.drainNow core k).dram = s.dram := by
  unfold State.drainNow
  split <;> rfl

@[simp] theorem State.takeUp_dram (s : State) (c : Cmd) : (s.takeUp c).dram = s.dram := by
  unfold State.takeUp
  dsimp only
  repeat' split
  all_goals simp

@[simp] theorem State.recordError_dram (s : State) (c : Cmd) (code pa : Nat) : (s.recordError c code pa).dram = s.dram := by
  unfold State.recordError
  dsimp only
  split <;> simp

@[simp] theorem State.cmdResolve_canonical (s : State) (c : Cmd) (pa v : Nat) (poison : Bool) (hs : Memory.wf s.dram = true) :
    Memory.wf (s.cmdResolve c pa v poison).2.dram = true := by
  unfold State.cmdResolve
  dsimp only
  repeat' split
  all_goals simp [*]

@[simp] theorem State.postCmd_dram (s : State) (c : Cmd) : (s.postCmd c).dram = s.dram := by simp [State.postCmd]

@[simp] theorem State.tileReady_canonical (s : State) (c : Cmd) (k len : Nat) (hs : Memory.wf s.dram = true) :
    Memory.wf (s.tileReady c k len).dram = true := by
  unfold State.tileReady
  dsimp only
  split <;> simp [*]

@[simp] theorem State.endCmd_canonical (s : State) (c : Cmd) (fut : Option Spot) (hs : Memory.wf s.dram = true) :
    Memory.wf (s.endCmd c fut).dram = true := by
  unfold State.endCmd
  extract_lets s2 s3 s4 src s6
  have h2 : Memory.wf s2.dram = true := by
    simp only [s2]
    split <;> simp [hs]
  clear_value s2
  have h3 : Memory.wf s3.dram = true := wf_foldl (fun _ _ h => State.tileReady_canonical _ _ _ _ h) _ h2
  clear_value s3
  have h4 : Memory.wf s4.dram = true := by
    simp only [s4]
    repeat split
    all_goals simp [h3]
  clear_value s4
  have h6 : Memory.wf s6.dram = true := (congrArg Memory.wf (State.postCmd_dram s4 c)).trans h4
  clear_value s6
  repeat split
  all_goals simp [h6]

@[simp] theorem State.finishCmd_canonical (s : State) (c : Cmd) (hs : Memory.wf s.dram = true) : Memory.wf (s.finishCmd c).dram = true := by
  unfold State.finishCmd
  dsimp only
  repeat' split
  all_goals simp [*]

@[simp] theorem State.closeCmd_canonical (s : State) (c : Cmd) (hs : Memory.wf s.dram = true) : Memory.wf (s.closeCmd c).dram = true := by
  unfold State.closeCmd
  repeat' split
  all_goals simp [*]

@[simp] theorem execEngineCommandCompletion_canonical (id : Nat) (s : State) (hs : Memory.wf s.dram = true) :
    canonicalNext (execEngineCommandCompletion id s) := by
  grind [execEngineCommandCompletion, State.move_canonical, State.pump_canonical, State.closeCmd_canonical, State.passTurn_dram, State.modCmd_dram, wf_foldl, State.dram_foldl, canonicalNext]

@[simp] theorem execStrmChunkEnd_canonical (id : Nat) (s : State) (hs : Memory.wf s.dram = true) : canonicalNext (execStrmChunkEnd id s) := by
  grind [execStrmChunkEnd, State.move_canonical, State.pump_canonical, State.passTurn_dram, State.modCmd_dram, State.tileReady_canonical, State.postCmd_dram, State.drainNow_dram, wf_foldl, State.dram_foldl, canonicalNext]

/-- What is left of a frame: its command's mark and closing. -/
theorem State.closeFrame_canonical (s : State) (id : Nat) (c c1 : Cmd) (l : List Out) (len : Nat) (hs : Memory.wf s.dram = true) :
    let s1 : State := if c1.err = 0 then { s with out := s.out ++ l } else s
    let s2 := match c.uid.bind s1.gang? with | some g => if c1.err = 0 then s1.count g 0x0F len else s1 | none => s1
    Memory.wf ((s2.modCmd id (fun _ => c1)).closeCmd c1).pump.dram = true := by
  intro s1 s2
  have h1 : s1.dram = s.dram := by
    simp only [s1]
    split <;> rfl
  have h2 : s2.dram = s1.dram := by
    simp only [s2]
    repeat' split
    all_goals simp
  exact State.pump_canonical _ (State.closeCmd_canonical _ _ (by simp [h2, h1, hs]))

@[simp] theorem execNetxFrameSent_canonical (id : Nat) (s : State) (hs : Memory.wf s.dram = true) : canonicalNext (execNetxFrameSent id s) := by
  unfold execNetxFrameSent
  split
  · exact hs
  · split
    · split
      · exact hs
      · exact State.closeFrame_canonical _ _ _ _ _ _ (State.cmdRead_canonical _ _ _ _ hs)
    · exact hs

/-! ### Saved gangs -/

@[simp] theorem State.deviceWrite_dram (s : State) (ctx pa : Nat) (bs : List Byte) :
    (s.deviceWrite ctx pa bs).dram = s.dram := by simp [State.deviceWrite]

@[simp] theorem State.countRead_dram (s : State) (ctx pa n : Nat) : (s.countRead ctx pa n).dram = s.dram := by
  grind [State.countRead, State.touch2_dram, State.dram_foldl]

@[simp] theorem State.writeYield_dram (s : State) (g : Gang) (r : Nat) : (s.writeYield g r).dram = s.dram := by simp [State.writeYield]

@[simp] theorem State.deviceSave_dram (s : State) (ctx pa : Nat) (bs : List Byte) (bad : Nat → Bool) :
    (s.deviceSave ctx pa bs bad).dram = s.dram := by simp [State.deviceSave]

@[simp] theorem State.saveStores_dram (s : State) (ctx gcore slot : Nat) : (s.saveStores ctx gcore slot).dram = s.dram := by simp [State.saveStores]

@[simp] theorem State.writeSave_dram (s : State) (g : Gang) : (s.writeSave g).dram = s.dram := by simp [State.writeSave]

@[simp] theorem State.writePin_dram (s : State) (ctx gcore slot : Nat) : (s.writePin ctx gcore slot).dram = s.dram := by simp [State.writePin]

@[simp] theorem State.readSlot_dram (s : State) (b gcore slot : Nat) : (s.readSlot b gcore slot).dram = s.dram := by simp [State.readSlot]

@[simp] theorem State.readSave_dram (s : State) (g : Gang) : (s.readSave g).dram = s.dram := by simp [State.readSave]

/-! ### The life of a gang -/

@[simp] theorem State.noSpawn_dram (s : State) (port : Nat) : (s.noSpawn port).dram = s.dram := by simp [State.noSpawn]

@[simp] theorem State.arriveAt_dram (s : State) (ctx node : Nat) (a : Arrival) : (s.arriveAt ctx node a).dram = s.dram := by
  unfold State.arriveAt
  dsimp only
  repeat' split
  all_goals simp

@[simp] theorem State.binCycle_canonical (s : State) (ctx node : Nat) (hs : Memory.wf s.dram = true) :
    Memory.wf (s.binCycle ctx node).dram = true := by
  unfold State.binCycle
  split <;> simp [*]

@[simp] theorem execRecordAppend_canonical (ctx node : Nat) (s : State) (hs : Memory.wf s.dram = true) :
    canonicalNext (execRecordAppend ctx node s) := by simp [execRecordAppend, *]

@[simp] theorem execBinTimerExpiry_canonical (ctx node : Nat) (s : State) (hs : Memory.wf s.dram = true) :
    canonicalNext (execBinTimerExpiry ctx node s) := by
  unfold execBinTimerExpiry
  split <;> simp [*]

@[simp] theorem execOverflowReturn_canonical (ctx : Nat) (s : State) (hs : Memory.wf s.dram = true) : canonicalNext (execOverflowReturn ctx s) := by
  grind [execOverflowReturn, State.binCycle_canonical, wf_foldl, State.dram_foldl, canonicalNext]

@[simp] theorem State.openWindow_dram (s : State) (gcore ctx n : Nat) : (s.openWindow gcore ctx n).2.dram = s.dram := by
  unfold State.openWindow
  split <;> rfl

@[simp] theorem State.closeWindow_dram (s : State) (g : Gang) : (s.closeWindow g).dram = s.dram := by simp [State.closeWindow]

@[simp] theorem State.clearTiles_dram (s : State) (gcore slot : Nat) : (s.clearTiles gcore slot).dram = s.dram := by simp [State.clearTiles]

@[simp] theorem State.failTiles_dram (s : State) (gcore slot : Nat) (all : Bool) :
    (s.failTiles gcore slot all).dram = s.dram := by simp [State.failTiles]

@[simp] theorem State.clearMarks_dram (s : State) (g : Gang) : (s.clearMarks g).dram = s.dram := by
  unfold State.clearMarks
  split <;> rfl

@[simp] theorem State.setGen_dram (s : State) (gcore slot : Nat) : (s.setGen gcore slot).dram = s.dram := by simp [State.setGen]

@[simp] theorem State.noteDlExit_dram (s : State) (g : Gang) : (s.noteDlExit g).dram = s.dram := by simp [State.noteDlExit]

@[simp] theorem State.forget_dram (s : State) (g : Gang) : (s.forget g).dram = s.dram := by
  unfold State.forget
  dsimp only
  repeat' split
  all_goals simp

@[simp] theorem State.exitOutside_dram (s : State) (g : Gang) : (s.exitOutside g).dram = s.dram := by
  unfold State.exitOutside
  dsimp only
  split <;> simp

@[simp] theorem State.refreshRecord_dram (s : State) (uid : Nat) : (s.refreshRecord uid).dram = s.dram := by
  unfold State.refreshRecord
  repeat' split
  all_goals simp

@[simp] theorem State.moveToRecord_dram (s : State) (g : Gang) : (s.moveToRecord g).dram = s.dram := by
  unfold State.moveToRecord
  split <;> simp

@[simp] theorem State.takeDeadline_canonical (s0 : State) (g : Gang) (hs : Memory.wf s0.dram = true) :
    Memory.wf (State.takeDeadline s0 g).dram = true := by
  unfold State.takeDeadline
  dsimp only
  repeat' split
  all_goals simp [*]

@[simp] theorem execDeadlineReached_canonical (uid : Nat) (s : State) (hs : Memory.wf s.dram = true) : canonicalNext (execDeadlineReached uid s) := by
  unfold execDeadlineReached
  repeat' split
  all_goals simp [*]

@[simp] theorem execSlotRelease_canonical (uid : Nat) (s : State) (hs : Memory.wf s.dram = true) : canonicalNext (execSlotRelease uid s) := by
  unfold execSlotRelease
  repeat' split
  all_goals simp [*]

theorem State.takePools_dram (s : State) (ctx : Nat) (n : Node) (x : Nat × Nat × State) (h : s.takePools ctx n = some x) : x.2.2.dram = s.dram := by
  unfold State.takePools at h
  dsimp only at h
  split at h
  · obtain rfl := Option.some.inj h
    rfl
  · exact absurd h (by simp)

@[simp] theorem State.startFences_canonical (s : State) (gcore : Nat) (recs : List Record) (launch : Bool) (hs : Memory.wf s.dram = true) :
    Memory.wf (s.startFences gcore recs launch).dram = true := by
  unfold State.startFences
  repeat' split
  all_goals simp [*]

@[simp] theorem State.startGang_canonical (s : State) (x : Start) (hs : Memory.wf s.dram = true) : Memory.wf (s.startGang x).dram = true := by
  unfold State.startGang
  dsimp only
  split <;> simp [*]

theorem State.placeLaunch_canonical (s : State) (ctx node : Nat) (f : Formed) (hs : Memory.wf s.dram = true) (t : State) (h : s.placeLaunch ctx node f = some t) :
    Memory.wf t.dram = true := by
  unfold State.placeLaunch at h
  extract_lets nd paid at h
  have hp : ∀ x, paid = some x → x.2.2.dram = s.dram := fun x hx => by
    simp only [paid] at hx
    split at hx
    · obtain rfl := Option.some.inj hx
      rfl
    · exact State.takePools_dram _ _ _ _ hx
  split at h
  · next hpaid _ =>
    dsimp only at h
    split at h
    · obtain rfl := Option.some.inj h
      have hp1 : State.dram _ = _ := hp _ hpaid
      exact State.startGang_canonical _ _ ((congrArg Memory.wf (State.modBin_dram ..)).trans ((congrArg Memory.wf hp1).trans hs))
    · exact absurd h (by simp)
  · exact absurd h (by simp)

theorem State.placeResume_dram (s0 : State) (g0 : Gang) (r : Nat) (t : State) (h : s0.placeResume g0 r = some t) : t.dram = s0.dram := by
  unfold State.placeResume at h
  extract_lets s g own pref at h
  have h0 : s.dram = s0.dram := by
    simp only [s]
    split <;> simp
  clear_value s g
  split at h
  · exact absurd h (by simp)
  · split at h
    · next hpools _ =>
      have h1 := State.takePools_dram _ _ _ _ hpools
      dsimp only at h h1
      split at h
      · obtain rfl := Option.some.inj h
        split <;> simp [h1, h0]
      · exact absurd h (by simp)
    · exact absurd h (by simp)

@[simp] theorem State.saveGang_canonical (s : State) (uid : Nat) (loc : Loc) (keepWindow : Bool) (hs : Memory.wf s.dram = true) :
    Memory.wf (s.saveGang uid loc keepWindow).dram = true := by
  unfold State.saveGang
  repeat' split
  all_goals simp [*]

theorem State.restoreGang_canonical (s : State) (g : Gang) (hs : Memory.wf s.dram = true) (t : State) (h : s.restoreGang g = some t) :
    Memory.wf t.dram = true := by
  unfold State.restoreGang at h
  extract_lets c stays room region dead s1 s2 s3 s4 at h
  have h1 : s1.dram = s.dram := State.readSave_dram ..
  clear_value s1 dead
  have h3 : s3.dram = s.dram := (State.modCore_dram ..).trans ((State.setGen_dram ..).trans ((State.modGang_dram ..).trans h1))
  clear_value s3
  have h4 : s4.dram = s.dram := (State.dram_draw s3 _).trans h3
  clear_value s4
  split at h
  · exact absurd h (by simp)
  · obtain rfl := Option.some.inj h
    split
    · simp [h4, hs]
    · exact State.replayAll_canonical _ _ (h4 ▸ hs)

@[simp] theorem execFullSave_canonical (uid : Nat) (s : State) (hs : Memory.wf s.dram = true) : canonicalNext (execFullSave uid s) := by
  unfold execFullSave
  dsimp only
  repeat' split
  all_goals simp [*]

@[simp] theorem State.fetchFault_canonical (s : State) (uid va kind level : Nat) (hs : Memory.wf s.dram = true) :
    Memory.wf (s.fetchFault uid va kind level).dram = true := by
  unfold State.fetchFault
  dsimp only
  repeat' split
  all_goals simp [*]

theorem State.place_canonical (s : State) (w : Waiter) (hs : Memory.wf s.dram = true) (t : State) (h : s.place w = some t) :
    Memory.wf t.dram = true := by
  cases w with
  | launch ctx node f => exact State.placeLaunch_canonical s ctx node f hs t h
  | resume g r n => exact (congrArg Memory.wf (s.placeResume_dram g r t h)).trans hs
  | restore g n => exact State.restoreGang_canonical s g hs t h

theorem State.firstWaiter_canonical (s : State) (cluster : Nat) (hs : Memory.wf s.dram = true) (x : Waiter × State) (h : s.firstWaiter cluster = some x) :
    Memory.wf x.2.dram = true := by
  unfold State.firstWaiter at h
  split at h
  · exact absurd h (by simp)
  · obtain ⟨y, -, hy⟩ := List.exists_of_findSome?_eq_some h
    obtain ⟨t, ht, rfl⟩ := Option.map_eq_some_iff.mp hy
    exact State.place_canonical { s with draw := s.draw + (s.waiters cluster).length, placed := SMap.set s.placed cluster (s.cycle + 1) } _ hs t ht

@[simp] theorem execWaiterPlacement_canonical (cluster : Nat) (s : State) (hs : Memory.wf s.dram = true) :
    canonicalNext (execWaiterPlacement cluster s) := by
  unfold execWaiterPlacement
  split
  · next x hx => exact State.pump_canonical _ (s.firstWaiter_canonical cluster hs x hx)
  · exact hs

@[simp] theorem execFullRestore_canonical (uid : Nat) (s : State) (hs : Memory.wf s.dram = true) : canonicalNext (execFullRestore uid s) := by
  unfold execFullRestore
  split
  · exact hs
  · next g hg =>
    split
    · simp only [canonicalNext_next]
      split
      · cases hr : s.restoreGang g with
        | none => exact hs
        | some t => exact State.restoreGang_canonical s g hs t hr
      · exact hs
    · split
      · next hw =>
        simp only [canonicalNext_next]
        split
        · exact State.pump_canonical _ (s.firstWaiter_canonical _ hs _ hw)
        · exact hs
      · exact hs
    · exact hs

@[simp] theorem State.yieldStop_dram (s0 : State) (g : Gang) : (State.yieldStop s0 g).dram = s0.dram := by
  unfold State.yieldStop
  split <;> simp

@[simp] theorem State.yieldLeave_canonical (s : State) (uid : Nat) (hs : Memory.wf s.dram = true) : Memory.wf (s.yieldLeave uid).dram = true := by
  unfold State.yieldLeave
  repeat' split
  all_goals simp [*]

@[simp] theorem execYieldSequence_canonical (uid : Nat) (s : State) (hs : Memory.wf s.dram = true) : canonicalNext (execYieldSequence uid s) := by
  unfold execYieldSequence
  dsimp only
  repeat' split
  all_goals simp [*]

@[simp] theorem execYieldRecordFreed_canonical (uid : Nat) (s : State) (hs : Memory.wf s.dram = true) :
    canonicalNext (execYieldRecordFreed uid s) := by
  unfold execYieldRecordFreed
  repeat' split
  all_goals simp [*]

@[simp] theorem State.recompute_dram (s : State) (v : Nat) : (s.recompute v).dram = s.dram := by simp [State.recompute]

@[simp] theorem execWorldSwitch_canonical (vfOut vfIn : Nat) (s : State) (hs : Memory.wf s.dram = true) :
    canonicalNext (execWorldSwitch vfOut vfIn s) := by
  unfold execWorldSwitch
  dsimp only
  repeat' split
  all_goals simp [*]

@[simp] theorem State.savePin_canonical (s : State) (p : Nat × Nat × Nat) (hs : Memory.wf s.dram = true) : Memory.wf (s.savePin p).dram = true := by
  unfold State.savePin
  extract_lets key s1 kept s2
  split
  · exact hs
  · have h1 : Memory.wf s1.dram = true := State.mergeShare_canonical s _ _ hs
    clear_value s1
    have h2 : s2.dram = s1.dram := (State.clearTiles_dram ..).trans (State.writePin_dram ..)
    clear_value s2
    exact (congrArg Memory.wf ((State.dram_worlds ..).trans h2)).trans h1

@[simp] theorem State.restorePin_dram (s : State) (p : Nat × Nat × Nat) : (s.restorePin p).dram = s.dram := by
  unfold State.restorePin
  dsimp only
  split <;> simp

@[simp] theorem State.movePins_canonical (s : State) (hs : Memory.wf s.dram = true) : Memory.wf (s.movePins).dram = true := by
  grind [State.movePins, State.restorePin_dram, State.savePin_canonical, wf_foldl, State.dram_foldl]

@[simp] theorem State.endSwitch_canonical (s0 : State) (hs : Memory.wf s0.dram = true) : Memory.wf (State.endSwitch s0).dram = true := by
  unfold State.endSwitch
  dsimp only
  repeat' split
  all_goals simp [*]

@[simp] theorem State.sliceWrite_dram (s : State) (v : Nat) (x : Word64) : (s.sliceWrite v x).dram = s.dram := by simp [State.sliceWrite]

@[simp] theorem execSliceWrite_canonical (who : Who) (vf : Nat) (v : BitVec 64) (s : State) (hs : Memory.wf s.dram = true) :
    canonicalNext (execSliceWrite who vf v s) := by
  unfold execSliceWrite
  split <;> simp [*]

@[simp] theorem State.pinNow_dram (s : State) (gcore k : Nat) (v : Word64) : (s.pinNow gcore k v).dram = s.dram := by
  unfold State.pinNow
  dsimp only
  repeat' split
  all_goals simp

@[simp] theorem State.pinWrite_dram (s : State) (gcore k : Nat) (v : Word64) : (s.pinWrite gcore k v).dram = s.dram := by
  unfold State.pinWrite
  split <;> simp

@[simp] theorem execSlotPin_canonical (who : Who) (core k : Nat) (v : BitVec 64) (s : State) (hs : Memory.wf s.dram = true) :
    canonicalNext (execSlotPin who core k v s) := by
  unfold execSlotPin
  split <;> simp [*]

@[simp] theorem execSlotUnpin_canonical (who : Who) (core k : Nat) (v : BitVec 64) (s : State) (hs : Memory.wf s.dram = true) :
    canonicalNext (execSlotUnpin who core k v s) := by
  unfold execSlotUnpin
  split <;> simp [*]

/-! ### Contexts, queues and Percale -/

@[simp] theorem State.createCtx_dram (s : State) (c : Nat) (v : Word64) : (s.createCtx c v).dram = s.dram := by
  unfold State.createCtx
  dsimp only
  split <;> simp

@[simp] theorem State.destroyCtx_dram (s : State) (c : Nat) : (s.destroyCtx c).dram = s.dram := by
  grind [State.destroyCtx, State.kill_dram, State.forget_dram, State.modCtx_dram, State.dram_foldl]

@[simp] theorem State.buryCtxs_dram (s : State) : (s.buryCtxs).dram = s.dram := by
  grind [State.buryCtxs, State.modCtx_dram, State.dram_foldl]

@[simp] theorem State.ctxWrite_dram (s : State) (who : Who) (c : Nat) (v : Word64) : (s.ctxWrite who c v).dram = s.dram := by
  unfold State.ctxWrite
  repeat' split
  all_goals simp

@[simp] theorem execContextCreate_canonical (who : Who) (ctx : Nat) (v : BitVec 64) (s : State) (hs : Memory.wf s.dram = true) :
    canonicalNext (execContextCreate who ctx v s) := by
  grind [execContextCreate, State.writeBy_canonical, State.pump_canonical, State.ctxWrite_dram, wf_foldl, State.dram_foldl, canonicalNext]

@[simp] theorem execContextDestroy_canonical (who : Who) (ctx : Nat) (v : BitVec 64) (s : State) (hs : Memory.wf s.dram = true) :
    canonicalNext (execContextDestroy who ctx v s) := by
  grind [execContextDestroy, State.writeBy_canonical, State.pump_canonical, State.ctxWrite_dram, wf_foldl, State.dram_foldl, canonicalNext]

@[simp] theorem State.qError_dram (s : State) (q code : Nat) : (s.qError q code).dram = s.dram := by simp [State.qError]

@[simp] theorem State.doorbell_dram (s : State) (q : Nat) (v : Word64) : (s.doorbell q v).dram = s.dram := by
  unfold State.doorbell
  dsimp only
  repeat' split
  all_goals simp

@[simp] theorem State.queueControl_dram (s : State) (who : Who) (q : Nat) (v : Word64) : (s.queueControl who q v).dram = s.dram := by
  unfold State.queueControl
  repeat' split
  all_goals simp

@[simp] theorem State.countRecord_dram (s : State) (q : Nat) (urgent : Bool) : (s.countRecord q urgent).dram = s.dram := by
  unfold State.countRecord
  dsimp only
  repeat' split
  all_goals simp

@[simp] theorem State.complete_canonical (s : State) (q : Nat) (d : Done) (write : Bool) (hs : Memory.wf s.dram = true) :
    Memory.wf (s.complete q d write).dram = true := by
  unfold State.complete
  split <;> simp [*]

@[simp] theorem execInterruptDelayExpiry_canonical (q : Nat) (s : State) (hs : Memory.wf s.dram = true) :
    canonicalNext (execInterruptDelayExpiry q s) := by
  unfold execInterruptDelayExpiry
  dsimp only
  split <;> simp [*]

@[simp] theorem State.takePacket_dram (s : State) (q : Nat) : (s.takePacket q).dram = s.dram := by
  unfold State.takePacket
  split <;> simp

@[simp] theorem State.passBy_dram (s : State) (qs : List Nat) : (s.passBy qs).dram = s.dram := by
  grind [State.passBy, State.modQueue_dram, State.dram_foldl]

@[simp] theorem State.endGroup_dram (s : State) : (s.endGroup).dram = s.dram := by simp [State.endGroup]

@[simp] theorem State.finishPacket_canonical (s : State) (q : Nat) (bs : List Byte) (status : Nat) (rejected : Bool) (hs : Memory.wf s.dram = true) :
    Memory.wf (s.finishPacket q bs status rejected).dram = true := by simp [State.finishPacket, *]

@[simp] theorem State.swapQueues_dram (s : State) : (s.swapQueues).dram = s.dram := by simp [State.swapQueues]

@[simp] theorem State.endPass_dram (s : State) : (s.endPass).dram = s.dram := by simp [State.endPass]

@[simp] theorem State.fetchLane_canonical (acc : State × List (Nat × List Byte)) (q : Nat) (hs : Memory.wf acc.1.dram = true) :
    Memory.wf (State.fetchLane acc q).1.dram = true := by
  unfold State.fetchLane
  dsimp only
  repeat' split
  all_goals simp [hs]

@[simp] theorem execPercalePass_canonical (s : State) (hs : Memory.wf s.dram = true) : canonicalNext (execPercalePass s) := by
  unfold execPercalePass
  split
  · simp only [canonicalNext_next]
    split <;> simp [hs]
  · extract_lets lanes r pass first src src1 s1
    have hr : Memory.wf r.1.dram = true := foldl_inv (fun acc : State × List (Nat × List Byte) => Memory.wf acc.1.dram = true) _
      (fun acc q h => State.fetchLane_canonical acc q h) _ _ hs
    have h1 : Memory.wf s1.dram = true := hr
    clear_value s1
    simp only [canonicalNext_next]
    split <;> simp [h1]

theorem State.passHead_dram (s : State) (q : Nat) (test : List Byte → Bool) (x : List Byte × State) (h : s.passHead q test = some x) :
    x.2.dram = s.dram := by
  unfold State.passHead at h
  split at h
  · dsimp only at h
    split at h
    · obtain rfl := Option.some.inj h
      dsimp only
      split <;> simp
    · exact absurd h (by simp)
  · exact absurd h (by simp)

@[simp] theorem inPass_canonical (q : Nat) (test : List Byte → Bool) (act : List Byte → State → State) (s : State) (hs : Memory.wf s.dram = true)
    (ha : ∀ bs t, Memory.wf t.dram = true → Memory.wf (act bs t).dram = true) : canonicalNext (inPass q test act s) := by
  unfold inPass
  split
  · exact hs
  · next bs s1 h =>
    have h2 := ha bs s1 ((congrArg Memory.wf (s.passHead_dram q test _ h)).trans hs)
    simp only [canonicalNext_next]
    split <;> simp [h2]

@[simp] theorem execResidencyQuantum_canonical (s : State) (hs : Memory.wf s.dram = true) : canonicalNext (execResidencyQuantum s) := by
  unfold execResidencyQuantum
  split <;> simp [*]

@[simp] theorem State.qWait_dram (s : State) (q : Nat) (w : QWait) : (s.qWait q w).dram = s.dram := by simp [State.qWait]

@[simp] theorem State.openPacket_dram (s : State) (q : Nat) (bs : List Byte) (f : Launch → Launch) :
    (s.openPacket q bs f).dram = s.dram := by simp [State.openPacket]

@[simp] theorem doDispatch_canonical (q : Nat) (bs : List Byte) (s : State) (hs : Memory.wf s.dram = true) :
    Memory.wf (doDispatch q bs s).dram = true := by
  unfold doDispatch
  dsimp only
  repeat' split
  all_goals simp [*]

@[simp] theorem execDispatch_canonical (q : Nat) (s : State) (hs : Memory.wf s.dram = true) : canonicalNext (execDispatch q s) := by
  grind [execDispatch, inPass_canonical, doDispatch_canonical, wf_foldl, State.dram_foldl, canonicalNext]

@[simp] theorem doDefine_canonical (q : Nat) (bs : List Byte) (s0 : State) (hs : Memory.wf s0.dram = true) :
    Memory.wf (doDefine q bs s0).dram = true := by
  unfold doDefine
  dsimp only
  repeat' split
  all_goals simp [*]

@[simp] theorem execDispatchDefine_canonical (q : Nat) (s : State) (hs : Memory.wf s.dram = true) : canonicalNext (execDispatchDefine q s) := by
  grind [execDispatchDefine, inPass_canonical, doDefine_canonical, wf_foldl, State.dram_foldl, canonicalNext]

@[simp] theorem doRecord_canonical (q : Nat) (bs : List Byte) (s : State) (hs : Memory.wf s.dram = true) :
    Memory.wf (doRecord q bs s).dram = true := by
  unfold doRecord
  dsimp only
  repeat' split
  all_goals simp [*]

@[simp] theorem execRecordPacket_canonical (q : Nat) (s : State) (hs : Memory.wf s.dram = true) : canonicalNext (execRecordPacket q s) := by
  grind [execRecordPacket, inPass_canonical, doRecord_canonical, wf_foldl, State.dram_foldl, canonicalNext]

@[simp] theorem State.loadCode_dram (s : State) (ctx launch va len core : Nat) : (s.loadCode ctx launch va len core).dram = s.dram := by
  grind [State.loadCode, State.countRead_dram, State.modCore_dram, State.dram_foldl]

@[simp] theorem doLockstep_canonical (q : Nat) (bs : List Byte) (s : State) (hs : Memory.wf s.dram = true) :
    Memory.wf (doLockstep q bs s).dram = true := by
  unfold doLockstep
  dsimp only
  split
  · simp [hs]
  · split
    · simp [hs]
    · split
      · simp [hs]
      · split
        · simp [hs]
        · exact wf_foldl (fun st i h => by simp [h]) _ (by simp [hs])

@[simp] theorem execLockstep_canonical (q : Nat) (s : State) (hs : Memory.wf s.dram = true) : canonicalNext (execLockstep q s) := by
  grind [execLockstep, inPass_canonical, doLockstep_canonical, wf_foldl, State.dram_foldl, canonicalNext]

@[simp] theorem execLockstepRelease_canonical (launch : Nat) (s : State) (hs : Memory.wf s.dram = true) :
    canonicalNext (execLockstepRelease launch s) := by
  unfold execLockstepRelease
  dsimp only
  repeat' split
  all_goals simp [*]

@[simp] theorem doCopyPacket_canonical (q : Nat) (bs : List Byte) (s : State) (hs : Memory.wf s.dram = true) :
    Memory.wf (doCopyPacket q bs s).dram = true := by
  unfold doCopyPacket
  dsimp only
  split <;> simp [*]

@[simp] theorem execCopyPacket_canonical (q : Nat) (s : State) (hs : Memory.wf s.dram = true) : canonicalNext (execCopyPacket q s) := by
  grind [execCopyPacket, inPass_canonical, doCopyPacket_canonical, wf_foldl, State.dram_foldl, canonicalNext]

@[simp] theorem State.qSleep_dram (s : State) (q : Nat) (bs : List Byte) (w : QWait) (timeout : Nat) :
    (s.qSleep q bs w timeout).dram = s.dram := by simp [State.qSleep]

@[simp] theorem execWaitflag_canonical (q : Nat) (s : State) (hs : Memory.wf s.dram = true) : canonicalNext (execWaitflag q s) := by
  grind [execWaitflag, inPass_canonical, State.finishPacket_canonical, State.qSleep_dram, wf_foldl, State.dram_foldl, canonicalNext]

@[simp] theorem execWaitmem_canonical (q : Nat) (s : State) (hs : Memory.wf s.dram = true) :
    canonicalNext (execWaitmem q s) := by simp [execWaitmem, *]

@[simp] theorem State.endWait_canonical (s : State) (q status : Nat) (hs : Memory.wf s.dram = true) : Memory.wf (s.endWait q status).dram = true := by
  unfold State.endWait
  dsimp only
  split <;> simp [*]

@[simp] theorem execWaitConditionMet_canonical (q : Nat) (s : State) (hs : Memory.wf s.dram = true) : canonicalNext (execWaitConditionMet q s) := by
  unfold execWaitConditionMet
  dsimp only
  repeat' split
  all_goals simp [*]

@[simp] theorem execWaitTimeout_canonical (q : Nat) (s : State) (hs : Memory.wf s.dram = true) : canonicalNext (execWaitTimeout q s) := by
  unfold execWaitTimeout
  dsimp only
  repeat' split
  all_goals simp [*]

@[simp] theorem execSignalWrite_canonical (q : Nat) (s : State) (hs : Memory.wf s.dram = true) : canonicalNext (execSignalWrite q s) := by
  grind [execSignalWrite, inPass_canonical, State.finishPacket_canonical, State.deviceAtomic_canonical, State.settleLine_canonical, wf_foldl, State.dram_foldl, canonicalNext]

@[simp] theorem execSignalAdd_canonical (q : Nat) (s : State) (hs : Memory.wf s.dram = true) : canonicalNext (execSignalAdd q s) := by
  grind [execSignalAdd, inPass_canonical, State.futureAt_canonical, State.finishPacket_canonical, State.deviceAtomic_canonical, wf_foldl, State.dram_foldl, canonicalNext]

@[simp] theorem State.packetResolve_canonical (s : State) (q : Nat) (bs : List Byte) (poison : Bool) (hs : Memory.wf s.dram = true) :
    Memory.wf (s.packetResolve q bs poison).dram = true := by
  grind [State.packetResolve, State.futureAt_canonical, State.finishPacket_canonical, State.deviceAtomic_canonical, State.launchFlight_dram, wf_foldl, State.dram_foldl]

@[simp] theorem execSignalResolve_canonical (q : Nat) (s : State) (hs : Memory.wf s.dram = true) : canonicalNext (execSignalResolve q s) := by
  grind [execSignalResolve, inPass_canonical, State.packetResolve_canonical, wf_foldl, State.dram_foldl, canonicalNext]

@[simp] theorem execSignalPoison_canonical (q : Nat) (s : State) (hs : Memory.wf s.dram = true) : canonicalNext (execSignalPoison q s) := by
  grind [execSignalPoison, inPass_canonical, State.packetResolve_canonical, wf_foldl, State.dram_foldl, canonicalNext]

@[simp] theorem execSignalPost_canonical (q : Nat) (s : State) (hs : Memory.wf s.dram = true) : canonicalNext (execSignalPost q s) := by
  grind [execSignalPost, inPass_canonical, State.finishPacket_canonical, State.remotePost_dram, wf_foldl, State.dram_foldl, canonicalNext]

@[simp] theorem execTimestamp_canonical (q : Nat) (s : State) (hs : Memory.wf s.dram = true) : canonicalNext (execTimestamp q s) := by
  grind [execTimestamp, inPass_canonical, State.finishPacket_canonical, State.deviceAtomic_canonical, State.settleLine_canonical, wf_foldl, State.dram_foldl, canonicalNext]

@[simp] theorem execBudgetAdd_canonical (q : Nat) (s : State) (hs : Memory.wf s.dram = true) : canonicalNext (execBudgetAdd q s) := by
  grind [execBudgetAdd, inPass_canonical, State.finishPacket_canonical, State.refund_dram, wf_foldl, State.dram_foldl, canonicalNext]

@[simp] theorem execBudgetSet_canonical (q : Nat) (s : State) (hs : Memory.wf s.dram = true) : canonicalNext (execBudgetSet q s) := by
  grind [execBudgetSet, inPass_canonical, State.finishPacket_canonical, State.modCtx_dram, wf_foldl, State.dram_foldl, canonicalNext]

@[simp] theorem execBudgetReclaim_canonical (q : Nat) (s : State) (hs : Memory.wf s.dram = true) : canonicalNext (execBudgetReclaim q s) := by
  grind [execBudgetReclaim, inPass_canonical, State.finishPacket_canonical, State.launchFlight_dram, wf_foldl, State.dram_foldl, canonicalNext]

theorem State.saveImage_dram (s : State) (c a uid : Nat) (b : List Byte) (f : Gang → Gang) :
    ((s.deviceWrite c a b).modGang uid f).dram = s.dram := by simp

@[simp] theorem State.refreshSaved_dram (s : State) (uid : Nat) : (s.refreshSaved uid).dram = s.dram := by
  unfold State.refreshSaved
  split
  · rfl
  · dsimp only
    split
    · exact State.refreshRecord_dram ..
    · exact State.saveImage_dram ..
    · exact State.saveImage_dram ..
    · rfl

@[simp] theorem execDeadline_canonical (q : Nat) (s : State) (hs : Memory.wf s.dram = true) : canonicalNext (execDeadline q s) := by
  grind [execDeadline, inPass_canonical, State.finishPacket_canonical, State.takeDeadline_canonical, State.refreshSaved_dram, wf_foldl, State.dram_foldl, canonicalNext]

@[simp] theorem execLaunchCompletion_canonical (launch : Nat) (s : State) (hs : Memory.wf s.dram = true) :
    canonicalNext (execLaunchCompletion launch s) := by
  unfold execLaunchCompletion
  dsimp only
  repeat' split
  all_goals simp [*]

@[simp] theorem State.ring_dram (s : State) (who : Who) (q : Nat) (v : Word64) : (s.ring who q v).dram = s.dram := by
  unfold State.ring
  dsimp only
  repeat' split
  all_goals simp

@[simp] theorem execDoorbell_canonical (who : Who) (q : Nat) (v : BitVec 64) (s : State) (hs : Memory.wf s.dram = true) :
    canonicalNext (execDoorbell who q v s) := by
  unfold execDoorbell
  split <;> simp [*]

@[simp] theorem execQueueEnable_canonical (who : Who) (q : Nat) (v : BitVec 64) (s : State) (hs : Memory.wf s.dram = true) :
    canonicalNext (execQueueEnable who q v s) := by
  unfold execQueueEnable
  split <;> simp [*]

/-! ### Integer instructions -/

@[simp] theorem intOp_canonical (x : RF) (n : Nat) (f : IType → Word64 → Word64 → Word64 → BitVec 128) : (intOp x n f).canonical := fun e he => by
  unfold intOp
  dsimp only
  split <;> simp [he]

@[simp] theorem elemOp_canonical (x : RF) (n : Nat) (f : Int → Int → Int → Int) : (elemOp x n f).canonical := by simp [elemOp]

@[simp] theorem wordOp_canonical (x : RF) (n : Nat) (f : Word32 → Word32 → Word32 → Word32) : (wordOp x n f).canonical := fun e he => by
  unfold wordOp
  dsimp only
  split <;> simp [he]

@[simp] theorem shiftOp_canonical (x : RF) (n : Nat) (f : IType → Nat → Word32 → Word32 → Nat) : (shiftOp x n f).canonical := fun e he => by
  unfold shiftOp
  dsimp only
  split <;> simp [he]

@[simp] theorem countOp_canonical (x : RF) (f : Nat → Nat → Nat) : (countOp x f).canonical := fun e he => by
  unfold countOp
  dsimp only
  simp [he]

@[simp] theorem semNop_canonical (h : Hd) (x : RF) : (semNop h x).canonical := fun e he => by
  unfold semNop
  dsimp only
  simp [he]

@[simp] theorem semNopPause_canonical (h : Hd) (x : RF) : (semNopPause h x).canonical := fun e he => by
  unfold semNopPause
  dsimp only
  split <;> simp [he]

@[simp] theorem execPauseExpiry_canonical (uid : Nat) (s : State) (hs : Memory.wf s.dram = true) : canonicalNext (execPauseExpiry uid s) := by
  unfold execPauseExpiry
  repeat' split
  all_goals simp [*]

@[simp] theorem semIadd_canonical (h : Hd) (x : RF) : (semIadd h x).canonical := by simp [semIadd]

@[simp] theorem semIaddSub_canonical (h : Hd) (x : RF) : (semIaddSub h x).canonical := by simp [semIaddSub]

@[simp] theorem semIaddRsub_canonical (h : Hd) (x : RF) : (semIaddRsub h x).canonical := by simp [semIaddRsub]

@[simp] theorem carryOp_canonical (x : RF) (f : Nat → Nat → Nat → Nat → Nat × Bool) : (carryOp x f).canonical := fun e he => by
  unfold carryOp
  dsimp only
  simp [he]

@[simp] theorem semIaddAddc_canonical (h : Hd) (x : RF) : (semIaddAddc h x).canonical := by simp [semIaddAddc]

@[simp] theorem semIaddSubb_canonical (h : Hd) (x : RF) : (semIaddSubb h x).canonical := by simp [semIaddSubb]

@[simp] theorem semImul_canonical (h : Hd) (x : RF) : (semImul h x).canonical := by simp [semImul]

@[simp] theorem semImulHi_canonical (h : Hd) (x : RF) : (semImulHi h x).canonical := by simp [semImulHi]

@[simp] theorem wideOp_canonical (x : RF) (n : Nat) : (wideOp x n).canonical := fun e he => by
  unfold wideOp
  dsimp only
  split <;> simp [he]

@[simp] theorem semImulWide_canonical (h : Hd) (x : RF) : (semImulWide h x).canonical := by simp [semImulWide]

@[simp] theorem semImad_canonical (h : Hd) (x : RF) : (semImad h x).canonical := by simp [semImad]

@[simp] theorem semImadWide_canonical (h : Hd) (x : RF) : (semImadWide h x).canonical := by simp [semImadWide]

@[simp] theorem semIdiv_canonical (h : Hd) (x : RF) : (semIdiv h x).canonical := by simp [semIdiv]

@[simp] theorem semIdivRem_canonical (h : Hd) (x : RF) : (semIdivRem h x).canonical := by simp [semIdivRem]

@[simp] theorem semImnx_canonical (h : Hd) (x : RF) : (semImnx h x).canonical := by simp [semImnx]

@[simp] theorem semImnxMax_canonical (h : Hd) (x : RF) : (semImnxMax h x).canonical := by simp [semImnxMax]

@[simp] theorem semIabs_canonical (h : Hd) (x : RF) : (semIabs h x).canonical := by simp [semIabs]

@[simp] theorem semIabsNeg_canonical (h : Hd) (x : RF) : (semIabsNeg h x).canonical := by simp [semIabsNeg]

@[simp] theorem semIabsSad_canonical (h : Hd) (x : RF) : (semIabsSad h x).canonical := by simp [semIabsSad]

@[simp] theorem semIclmp_canonical (h : Hd) (x : RF) : (semIclmp h x).canonical := by simp [semIclmp]

@[simp] theorem logicOp_canonical (x : RF) (f : Word64 → Word64 → Word64) : (logicOp x f).canonical := by simp [logicOp]

@[simp] theorem semAnd_canonical (h : Hd) (x : RF) : (semAnd h x).canonical := by simp [semAnd]

@[simp] theorem semAndNot_canonical (h : Hd) (x : RF) : (semAndNot h x).canonical := by simp [semAndNot]

@[simp] theorem semOr_canonical (h : Hd) (x : RF) : (semOr h x).canonical := by simp [semOr]

@[simp] theorem semOrNot_canonical (h : Hd) (x : RF) : (semOrNot h x).canonical := by simp [semOrNot]

@[simp] theorem semXor_canonical (h : Hd) (x : RF) : (semXor h x).canonical := by simp [semXor]

@[simp] theorem semXorNot_canonical (h : Hd) (x : RF) : (semXorNot h x).canonical := by simp [semXorNot]

@[simp] theorem semLut3_canonical (h : Hd) (x : RF) : (semLut3 h x).canonical := by simp [semLut3]

@[simp] theorem semShl_canonical (h : Hd) (x : RF) : (semShl h x).canonical := by simp [semShl]

@[simp] theorem semShr_canonical (h : Hd) (x : RF) : (semShr h x).canonical := by simp [semShr]

@[simp] theorem semShrAr_canonical (h : Hd) (x : RF) : (semShrAr h x).canonical := by simp [semShrAr]

@[simp] theorem semRot_canonical (h : Hd) (x : RF) : (semRot h x).canonical := by simp [semRot]

@[simp] theorem semRotRr_canonical (h : Hd) (x : RF) : (semRotRr h x).canonical := by simp [semRotRr]

@[simp] theorem semRotShfl_canonical (h : Hd) (x : RF) : (semRotShfl h x).canonical := by simp [semRotShfl]

@[simp] theorem semRotShfr_canonical (h : Hd) (x : RF) : (semRotShfr h x).canonical := by simp [semRotShfr]

@[simp] theorem semPopc_canonical (h : Hd) (x : RF) : (semPopc h x).canonical := by simp [semPopc]

@[simp] theorem semClz_canonical (h : Hd) (x : RF) : (semClz h x).canonical := by simp [semClz]

@[simp] theorem semClzCtz_canonical (h : Hd) (x : RF) : (semClzCtz h x).canonical := by simp [semClzCtz]

@[simp] theorem semClzCls_canonical (h : Hd) (x : RF) : (semClzCls h x).canonical := by simp [semClzCls]

@[simp] theorem semBrev_canonical (h : Hd) (x : RF) : (semBrev h x).canonical := by simp [semBrev]

@[simp] theorem semBrevByte_canonical (h : Hd) (x : RF) : (semBrevByte h x).canonical := by simp [semBrevByte]

@[simp] theorem semBfx_canonical (h : Hd) (x : RF) : (semBfx h x).canonical := by simp [semBfx]

@[simp] theorem semBfi_canonical (h : Hd) (x : RF) : (semBfi h x).canonical := fun e he => by
  unfold semBfi
  dsimp only
  simp [he]

@[simp] theorem semPrmt_canonical (h : Hd) (x : RF) : (semPrmt h x).canonical := by simp [semPrmt]

@[simp] theorem semPack_canonical (h : Hd) (x : RF) : (semPack h x).canonical := by simp [semPack]

@[simp] theorem semPackSs_canonical (h : Hd) (x : RF) : (semPackSs h x).canonical := by simp [semPackSs]

@[simp] theorem semPackNn_canonical (h : Hd) (x : RF) : (semPackNn h x).canonical := by simp [semPackNn]

@[simp] theorem semIcmp_canonical (h : Hd) (x : RF) : (semIcmp h x).canonical := fun e he => by
  unfold semIcmp
  dsimp only
  simp [he]

@[simp] theorem semSel_canonical (h : Hd) (x : RF) : (semSel h x).canonical := fun e he => by
  unfold semSel
  dsimp only
  simp [he]

@[simp] theorem semPlog_canonical (h : Hd) (x : RF) : (semPlog h x).canonical := fun e he => by
  unfold semPlog
  dsimp only
  simp [he]

@[simp] theorem semMovi_canonical (h : Hd) (x : IF) : (semMovi h x).canonical := fun e he => by
  unfold semMovi
  dsimp only
  split <;> simp [he]

@[simp] theorem semMoviX64_canonical (h : Hd) (x : IF) : (semMoviX64 h x).canonical := fun e he => by
  unfold semMoviX64
  dsimp only
  simp [he]

@[simp] theorem semMovh_canonical (h : Hd) (x : IF) : (semMovh h x).canonical := fun e he => by
  unfold semMovh
  dsimp only
  simp [he]

@[simp] theorem semMovhX32_canonical (h : Hd) (x : IF) : (semMovhX32 h x).canonical := fun e he => by
  unfold semMovhX32
  dsimp only
  simp [he]

@[simp] theorem semMov_canonical (h : Hd) (x : RF) : (semMov h x).canonical := by simp [semMov]

@[simp] theorem semMovBc_canonical (h : Hd) (x : RF) : (semMovBc h x).canonical := fun e he => by
  unfold semMovBc
  dsimp only
  repeat' split
  all_goals simp [he]

@[simp] theorem semXmov_canonical (h : Hd) (x : RF) : (semXmov h x).canonical := fun e he => by
  unfold semXmov
  dsimp only
  repeat' split
  all_goals simp [he]

@[simp] theorem leaOp_canonical (x : RF) (signed : Bool) : (leaOp x signed).canonical := fun e he => by
  unfold leaOp
  dsimp only
  split <;> simp [he]

@[simp] theorem semLea_canonical (h : Hd) (x : RF) : (semLea h x).canonical := by simp [semLea]

@[simp] theorem semLeaN_canonical (h : Hd) (x : RF) : (semLeaN h x).canonical := by simp [semLeaN]

@[simp] theorem idotOp_canonical (x : RF) : (idotOp x).canonical := by simp [idotOp]

@[simp] theorem semIdot_canonical (h : Hd) (x : RF) : (semIdot h x).canonical := by simp [semIdot]

@[simp] theorem semIdotH_canonical (h : Hd) (x : RF) : (semIdotH h x).canonical := by simp [semIdotH]

@[simp] theorem semMfs_canonical (h : Hd) (x : RF) : (semMfs h x).canonical := fun e he => by
  unfold semMfs
  dsimp only
  simp [he]

@[simp] theorem semMts_canonical (h : Hd) (x : RF) : (semMts h x).canonical := fun e he => by
  unfold semMts
  dsimp only
  repeat' split
  all_goals simp [he]

/-! ### Cross-lane instructions -/

@[simp] theorem votePred_canonical (x : RF) (f : Env → Bool) : (votePred x f).canonical := fun e he => by
  unfold votePred
  dsimp only
  simp [he]

@[simp] theorem voteWord_canonical (x : RF) (f : Env → Nat) : (voteWord x f).canonical := fun e he => by
  unfold voteWord
  dsimp only
  simp [he]

@[simp] theorem semVoteAny_canonical (h : Hd) (x : RF) : (semVoteAny h x).canonical := by simp [semVoteAny]

@[simp] theorem semVoteAll_canonical (h : Hd) (x : RF) : (semVoteAll h x).canonical := by simp [semVoteAll]

@[simp] theorem semVoteBallot_canonical (h : Hd) (x : RF) : (semVoteBallot h x).canonical := by simp [semVoteBallot]

@[simp] theorem semVoteCount_canonical (h : Hd) (x : RF) : (semVoteCount h x).canonical := by simp [semVoteCount]

@[simp] theorem semVoteFirst_canonical (h : Hd) (x : RF) : (semVoteFirst h x).canonical := by simp [semVoteFirst]

@[simp] theorem gather_canonical (x : RF) (others : List Src) (uni : Bool) (src : Env → Nat → Nat) :
    (gather x others uni src).canonical := fun e he => by
  unfold gather
  dsimp only
  repeat' split
  all_goals simp [he]

@[simp] theorem semRdlane_canonical (h : Hd) (x : RF) : (semRdlane h x).canonical := by simp [semRdlane]

@[simp] theorem semWrlane_canonical (h : Hd) (x : RF) : (semWrlane h x).canonical := fun e he => by
  unfold semWrlane
  dsimp only
  repeat' split
  all_goals simp [he]

@[simp] theorem semShuf_canonical (h : Hd) (x : RF) : (semShuf h x).canonical := by simp [semShuf]

@[simp] theorem semShufRot_canonical (h : Hd) (x : RF) : (semShufRot h x).canonical := by simp [semShufRot]

@[simp] theorem semShufXor_canonical (h : Hd) (x : RF) : (semShufXor h x).canonical := by simp [semShufXor]

@[simp] theorem semShufRev_canonical (h : Hd) (x : RF) : (semShufRev h x).canonical := by simp [semShufRev]

@[simp] theorem semPatld_canonical (h : Hd) (x : RF) : (semPatld h x).canonical := fun e he => by
  unfold semPatld
  dsimp only
  simp [he]

@[simp] theorem semPatsw_canonical (h : Hd) (x : RF) : (semPatsw h x).canonical := by simp [semPatsw]

@[simp] theorem semGred_canonical (h : Hd) (x : RF) : (semGred h x).canonical := fun e he => by
  grind [Res.canonical, Sem.canonical, semGred, Env.each_canonical, wf_foldl, State.dram_foldl]

@[simp] theorem semGscan_canonical (h : Hd) (x : RF) : (semGscan h x).canonical := fun e he => by
  grind [Res.canonical, Sem.canonical, semGscan, Env.each_canonical, wf_foldl, State.dram_foldl]

@[simp] theorem semBxpk_canonical (h : Hd) (x : RF) : (semBxpk h x).canonical := fun e he => by
  grind [Res.canonical, Sem.canonical, semBxpk, Env.each_canonical, wf_foldl, State.dram_foldl]

@[simp] theorem semBxup_canonical (h : Hd) (x : RF) : (semBxup h x).canonical := fun e he => by
  unfold semBxup
  dsimp only
  split <;> simp [he]

/-! ### Floating-point instructions -/

@[simp] theorem fpOp_canonical (x : RF) (n : Nat) (f : Fmt → Nat → Nat → Nat → Nat × Fx) : (fpOp x n f).canonical := fun e he => by
  unfold fpOp
  dsimp only
  split <;> simp [he]

@[simp] theorem semFadd_canonical (h : Hd) (x : RF) : (semFadd h x).canonical := by simp [semFadd]

@[simp] theorem semFaddSub_canonical (h : Hd) (x : RF) : (semFaddSub h x).canonical := by simp [semFaddSub]

@[simp] theorem semFmul_canonical (h : Hd) (x : RF) : (semFmul h x).canonical := by simp [semFmul]

@[simp] theorem semFfma_canonical (h : Hd) (x : RF) : (semFfma h x).canonical := by simp [semFfma]

@[simp] theorem semFfmaMs_canonical (h : Hd) (x : RF) : (semFfmaMs h x).canonical := by simp [semFfmaMs]

@[simp] theorem semFfmaNm_canonical (h : Hd) (x : RF) : (semFfmaNm h x).canonical := by simp [semFfmaNm]

@[simp] theorem semDadd_canonical (h : Hd) (x : RF) : (semDadd h x).canonical := by simp [semDadd]

@[simp] theorem semDaddSub_canonical (h : Hd) (x : RF) : (semDaddSub h x).canonical := by simp [semDaddSub]

@[simp] theorem semDmul_canonical (h : Hd) (x : RF) : (semDmul h x).canonical := by simp [semDmul]

@[simp] theorem semDfma_canonical (h : Hd) (x : RF) : (semDfma h x).canonical := by simp [semDfma]

@[simp] theorem semDfmaMs_canonical (h : Hd) (x : RF) : (semDfmaMs h x).canonical := by simp [semDfmaMs]

@[simp] theorem semDfmaNm_canonical (h : Hd) (x : RF) : (semDfmaNm h x).canonical := by simp [semDfmaNm]

@[simp] theorem semFscl_canonical (h : Hd) (x : RF) : (semFscl h x).canonical := by simp [semFscl]

@[simp] theorem semFdiv_canonical (h : Hd) (x : RF) : (semFdiv h x).canonical := by simp [semFdiv]

@[simp] theorem semFsqrt_canonical (h : Hd) (x : RF) : (semFsqrt h x).canonical := by simp [semFsqrt]

@[simp] theorem semFmnx_canonical (h : Hd) (x : RF) : (semFmnx h x).canonical := by simp [semFmnx]

@[simp] theorem semFmnxMax_canonical (h : Hd) (x : RF) : (semFmnxMax h x).canonical := by simp [semFmnxMax]

@[simp] theorem semFmnxMinn_canonical (h : Hd) (x : RF) : (semFmnxMinn h x).canonical := by simp [semFmnxMinn]

@[simp] theorem semFmnxMaxn_canonical (h : Hd) (x : RF) : (semFmnxMaxn h x).canonical := by simp [semFmnxMaxn]

@[simp] theorem fpCompare_canonical (x : RF) : (fpCompare x).canonical := fun e he => by
  unfold fpCompare
  dsimp only
  simp [he]

@[simp] theorem semFcmp_canonical (h : Hd) (x : RF) : (semFcmp h x).canonical := by simp [semFcmp]

@[simp] theorem semDcmp_canonical (h : Hd) (x : RF) : (semDcmp h x).canonical := by simp [semDcmp]

@[simp] theorem semFcls_canonical (h : Hd) (x : RF) : (semFcls h x).canonical := by simp [semFcls]

@[simp] theorem semFclsP_canonical (h : Hd) (x : RF) : (semFclsP h x).canonical := fun e he => by
  unfold semFclsP
  dsimp only
  simp [he]

@[simp] theorem semFrnd_canonical (h : Hd) (x : RF) : (semFrnd h x).canonical := by simp [semFrnd]

@[simp] theorem semFxmFm_canonical (h : Hd) (x : RF) : (semFxmFm h x).canonical := by simp [semFxmFm]

@[simp] theorem semFxmFe_canonical (h : Hd) (x : RF) : (semFxmFe h x).canonical := by simp [semFxmFe]

@[simp] theorem semFxmIlogb_canonical (h : Hd) (x : RF) : (semFxmIlogb h x).canonical := by simp [semFxmIlogb]

@[simp] theorem semFcvt_canonical (h : Hd) (x : RF) : (semFcvt h x).canonical := fun e he => by
  unfold semFcvt
  dsimp only
  split <;> simp [he]

@[simp] theorem semF2i_canonical (h : Hd) (x : RF) : (semF2i h x).canonical := fun e he => by
  unfold semF2i
  dsimp only
  split <;> simp [he]

@[simp] theorem semI2f_canonical (h : Hd) (x : RF) : (semI2f h x).canonical := fun e he => by
  unfold semI2f
  dsimp only
  split <;> simp [he]

@[simp] theorem semDcvtF32F64_canonical (h : Hd) (x : RF) : (semDcvtF32F64 h x).canonical := fun e he => by
  unfold semDcvtF32F64
  dsimp only
  simp [he]

@[simp] theorem semDcvtF64F32_canonical (h : Hd) (x : RF) : (semDcvtF64F32 h x).canonical := fun e he => by
  unfold semDcvtF64F32
  dsimp only
  simp [he]

@[simp] theorem semDcvtIF64_canonical (h : Hd) (x : RF) : (semDcvtIF64 h x).canonical := fun e he => by
  unfold semDcvtIF64
  dsimp only
  split <;> simp [he]

@[simp] theorem semDcvtF64I_canonical (h : Hd) (x : RF) : (semDcvtF64I h x).canonical := fun e he => by
  unfold semDcvtF64I
  dsimp only
  split <;> simp [he]

@[simp] theorem dotOp_canonical (x : RF) (fa fb : Fmt) : (dotOp x fa fb).canonical := fun e he => by
  unfold dotOp
  dsimp only
  split <;> simp [he]

@[simp] theorem semFdot2_canonical (h : Hd) (x : RF) : (semFdot2 h x).canonical := by simp [semFdot2]

@[simp] theorem semF8dot_canonical (h : Hd) (x : RF) : (semF8dot h x).canonical := by simp [semF8dot]

@[simp] theorem semF8dotMx_canonical (h : Hd) (x : RF) : (semF8dotMx h x).canonical := by simp [semF8dotMx]

@[simp] theorem semSfu_canonical (h : Hd) (x : RF) : (semSfu h x).canonical := by simp [semSfu]

/-! ### The meaning of an instruction word -/

theorem semOf_canonical {i : Instr} {m : Sem} (h : semOf i = some m) : m.canonical := by
  revert m
  unfold semOf
  split
  all_goals simp

/-! ### Bundles -/

theorem runSlot_canonical (base : Env) (acc : SlotRun) (x : Slot) (hs : Memory.wf acc.st.dram = true) :
    Memory.wf (runSlot base acc x).st.dram = true := by
  unfold runSlot
  split
  · exact hs
  · next m hm =>
    have hop := semOf_canonical hm { base with s := acc.st, place := x.place, pc := x.pc, h := x.instr.hd } hs
    split
    · exact hs
    · exact hs
    · next f hf => simpa [hf] using hop

/-- A run of the slots of a bundle. -/
theorem runSlots_canonical (base : Env) (l : List Slot) (acc : SlotRun) (hs : Memory.wf acc.st.dram = true) :
    Memory.wf (l.foldl (runSlot base) acc).st.dram = true :=
  foldl_inv (fun a : SlotRun => Memory.wf a.st.dram = true) _ (fun a x h => runSlot_canonical base a x h) l acc hs

@[simp] theorem State.commitBundle_canonical (e : Env) (hdr : Word64) (slots : List Slot) (r : SlotRun) (loop : Eff) (ci ct : Nat) (hl : Memory.wf loop.st.dram = true) :
    Memory.wf (State.commitBundle e hdr slots r loop ci ct).dram = true := by
  unfold State.commitBundle
  extract_lets uid f s0 s1 next seals pend s2 s3 s4
  have h0 : s0.dram = loop.st.dram := by
    simp only [s0]
    split <;> simp
  have h2 : s2.dram = loop.st.dram := by simp [s2, s1, h0]
  clear_value s2
  have h3 : s3.dram = loop.st.dram := by
    simp only [s3]
    repeat' split
    all_goals simp [h2]
  exact State.pump_canonical _ (by simp [s4, h3, hl])

@[simp] theorem State.parkBundle_dram (s : State) (g : Gang) (k : Park) : (s.parkBundle g k).dram = s.dram := by
  grind [State.parkBundle, State.fault_dram, State.modGang_dram, State.count_dram, State.dram_foldl]

def BundleRes.canonical : BundleRes → Prop
  | .go st => Memory.wf st.dram = true
  | _ => True

theorem State.bundleTry_canonical (s : State) (g : Gang) (hdr : Word64) (slots : List Slot) (imm : Option Word64) (hs : Memory.wf s.dram = true) :
    (s.bundleTry g hdr slots imm).canonical := by
  unfold State.bundleTry
  extract_lets sync flag ilkWait seals out s1 g1 npc env at0 ci ct g2 runAll first walks r e parked lp poison rel own
  have h1 : Memory.wf s1.dram = true := by
    simp only [s1]
    split <;> simp [hs]
  clear_value s1 ci ct
  have hrun : ∀ st : State, Memory.wf st.dram = true → Memory.wf (runAll st).st.dram = true := fun st hst => runSlots_canonical _ _ _ hst
  have hr : Memory.wf r.st.dram = true := by
    simp only [r]
    split
    · exact hrun _ h1
    · exact hrun _ (wf_foldl (fun st va h => by simp [h]) _ h1)
  clear_value r
  have hl : lp.canonical := by
    simp only [lp]
    split
    · exact Env.loopPush_canonical _ _ _ _ hr
    · exact Env.loopAdvance_canonical _ _ hr
    · exact Env.loopPop_canonical _ _ hr
    · exact hr
  clear_value lp own parked
  repeat' split
  all_goals simp_all [BundleRes.canonical]

@[simp] theorem runBundle_canonical (hdr : Word64) (ws : List Word64) (g : Gang) (s : State) (hs : Memory.wf s.dram = true) :
    Memory.wf (runBundle hdr ws g s).dram = true := by
  unfold runBundle
  have ht := State.bundleTry_canonical s g hdr (s.bundleCheck g hdr ws).2 (bundleImm hdr ws) hs
  dsimp only
  repeat' split
  all_goals simp_all [BundleRes.canonical]

@[simp] theorem execBundle_canonical (hdr : Word64) (ws : List Word64) (s : State) (hs : Memory.wf s.dram = true) :
    canonicalNext (execBundle hdr ws s) := by
  unfold execBundle
  split
  · trivial
  · exact runBundle_canonical _ _ _ _ hs

@[simp] theorem execLaneGroupAcquire_canonical (uid : Nat) (s : State) (hs : Memory.wf s.dram = true) :
    canonicalNext (execLaneGroupAcquire uid s) := by
  unfold execLaneGroupAcquire
  repeat' split
  all_goals simp [*]

/-! ### The taking up of commands -/

@[simp] theorem execEngineCommandTakeUp_canonical (id : Nat) (s : State) (hs : Memory.wf s.dram = true) :
    canonicalNext (execEngineCommandTakeUp id s) := by
  unfold execEngineCommandTakeUp
  repeat' split
  all_goals simp [*]

/-! ### Ports -/

@[simp] theorem State.modPort_dram (s : State) (pp : Nat) (f : Port → Port) : (s.modPort pp f).dram = s.dram := by simp [State.modPort]

@[simp] theorem State.dropRx_dram (s : State) (lport : Nat) : (s.dropRx lport).dram = s.dram := by
  unfold State.dropRx
  repeat' split
  all_goals simp

@[simp] theorem State.portControl_dram (s : State) (pp : Nat) (v : Word64) : (s.portControl pp v).dram = s.dram := by
  unfold State.portControl
  split <;> simp

@[simp] theorem execPortBreakout_canonical (who : Who) (pp : Nat) (v : BitVec 64) (s : State) (hs : Memory.wf s.dram = true) :
    canonicalNext (execPortBreakout who pp v s) := by
  unfold execPortBreakout
  split <;> simp [*]

@[simp] theorem execLinkUp_canonical (lport : Nat) (s : State) (hs : Memory.wf s.dram = true) : canonicalNext (execLinkUp lport s) := by
  unfold execLinkUp
  split <;> simp [*]

@[simp] theorem execLinkDown_canonical (lport : Nat) (s : State) (hs : Memory.wf s.dram = true) : canonicalNext (execLinkDown lport s) := by
  unfold execLinkDown
  split <;> simp [*]

@[simp] theorem State.filterWrite_dram (s : State) (pp f k : Nat) (v : Word64) : (s.filterWrite pp f k v).dram = s.dram := by
  unfold State.filterWrite
  dsimp only
  repeat' split
  all_goals simp

@[simp] theorem execFilterEnable_canonical (who : Who) (pp f : Nat) (v : BitVec 64) (s : State) (hs : Memory.wf s.dram = true) :
    canonicalNext (execFilterEnable who pp f v s) := by
  unfold execFilterEnable
  split <;> simp [*]

@[simp] theorem State.ptpSend_dram (s : State) : (s.ptpSend).dram = s.dram := by simp [State.ptpSend]

@[simp] theorem State.ptpTurn_dram (s : State) : (s.ptpTurn).dram = s.dram := by
  unfold State.ptpTurn
  split <;> rfl

@[simp] theorem State.adjustTime_dram (s : State) (ns : Int) : (s.adjustTime ns).dram = s.dram := by
  unfold State.adjustTime
  split <;> rfl

@[simp] theorem State.setFreq_dram (s : State) (v : Word64) : (s.setFreq v).dram = s.dram := by simp [State.setFreq]

@[simp] theorem execPtpMessage_canonical (lport : Nat) (frame : List (BitVec 8)) (s : State) (hs : Memory.wf s.dram = true) :
    canonicalNext (execPtpMessage lport frame s) := by
  unfold execPtpMessage
  dsimp only
  repeat' split
  all_goals simp [*]

@[simp] theorem execFrameFirstByte_canonical (lport : Nat) (frame : List (BitVec 8)) (s : State) (hs : Memory.wf s.dram = true) :
    canonicalNext (execFrameFirstByte lport frame s) := by
  unfold execFrameFirstByte
  dsimp only
  repeat' split
  all_goals simp [*]

@[simp] theorem State.landFrame_canonical (s : State) (lport : Nat) (r : Rx) (bytes : List Byte) (hs : Memory.wf s.dram = true) :
    Memory.wf (s.landFrame lport r bytes).dram = true := by
  unfold State.landFrame
  dsimp only
  split <;> simp [*]

@[simp] theorem State.endFrame_canonical (s : State) (lport : Nat) (r : Rx) (good : Bool) (hs : Memory.wf s.dram = true) :
    Memory.wf (s.endFrame lport r good).dram = true := by
  unfold State.endFrame
  dsimp only
  repeat' split
  all_goals simp [*]

@[simp] theorem execFrameEnd_canonical (lport : Nat) (good : Bool) (s : State) (hs : Memory.wf s.dram = true) :
    canonicalNext (execFrameEnd lport good s) := by
  unfold execFrameEnd
  repeat' split
  all_goals simp [*]

@[simp] theorem State.thawFrames_canonical (s : State) (hs : Memory.wf s.dram = true) : Memory.wf (s.thawFrames).dram = true := by
  grind [State.thawFrames, State.endFrame_canonical, wf_foldl, State.dram_foldl]

@[simp] theorem State.portCounters_dram (s : State) (pp off : Nat) : (s.portCounters pp off).dram = s.dram := by
  unfold State.portCounters
  split <;> rfl

@[simp] theorem execPortCounterRead_canonical (who : Who) (pp off : Nat) (s : State) (hs : Memory.wf s.dram = true) :
    canonicalNext (execPortCounterRead who pp off s) := by
  unfold execPortCounterRead
  split <;> simp [*]

@[simp] theorem execFabricLinkDown_canonical (port : Nat) (s : State) (hs : Memory.wf s.dram = true) : canonicalNext (execFabricLinkDown port s) := by
  unfold execFabricLinkDown
  split <;> simp [*]

/-! ### Reset, boot and power -/

@[simp] theorem State.moduleReset_dram (s : State) : (s.moduleReset).dram = s.dram := by simp [State.moduleReset]

@[simp] theorem execModuleReset_canonical (s : State) (hs : Memory.wf s.dram = true) : canonicalNext (execModuleReset s) := by
  unfold execModuleReset
  split <;> simp [*]

@[simp] theorem State.recover_dram (s : State) : (s.recover).dram = s.dram := by
  unfold State.recover
  split <;> rfl

@[simp] theorem State.recoveryWrite_dram (s : State) (a : Nat) (v : Word64) : (s.recoveryWrite a v).dram = s.dram := by
  unfold State.recoveryWrite
  repeat' split
  all_goals simp

@[simp] theorem execRecoveryProgram_canonical (who : Who) (s : State) (hs : Memory.wf s.dram = true) : canonicalNext (execRecoveryProgram who s) := by
  unfold execRecoveryProgram
  repeat' split
  all_goals simp [*]

@[simp] theorem execFirmwareUpdate_canonical (image : List (BitVec 8)) (s : State) (hs : Memory.wf s.dram = true) :
    canonicalNext (execFirmwareUpdate image s) := by
  unfold execFirmwareUpdate
  split <;> simp [*]

@[simp] theorem State.attestGo_dram (s : State) (who : Who) (v : Word64) : (s.attestGo who v).dram = s.dram := by
  unfold State.attestGo
  repeat' split
  all_goals simp

@[simp] theorem State.report_dram (s : State) : (s.report).dram = s.dram := by simp [State.report]

@[simp] theorem execAttestationReport_canonical (who : Who) (s : State) (hs : Memory.wf s.dram = true) :
    canonicalNext (execAttestationReport who s) := by
  unfold execAttestationReport
  split <;> simp [*]

@[simp] theorem execRaiseRollbackFloor_canonical (who : Who) (s : State) (hs : Memory.wf s.dram = true) :
    canonicalNext (execRaiseRollbackFloor who s) := by simp [execRaiseRollbackFloor, *]

@[simp] theorem execThrottleChange_canonical (step : Nat) (power junction coolant : Bool) (s : State) (hs : Memory.wf s.dram = true) :
    canonicalNext (execThrottleChange step power junction coolant s) := by
  unfold execThrottleChange
  dsimp only
  split <;> simp [*]

@[simp] theorem State.slowDown_canonical (s : State) (hs : Memory.wf s.dram = true) : canonicalNext (s.slowDown) := by
  unfold State.slowDown
  split <;> simp [*]

@[simp] theorem execThrottleCountRead_canonical (who : Who) (s : State) (hs : Memory.wf s.dram = true) :
    canonicalNext (execThrottleCountRead who s) := by
  unfold execThrottleCountRead
  split <;> simp [*]

@[simp] theorem State.trip_dram (s : State) : (s.trip).dram = s.dram := by
  unfold State.trip
  split <;> rfl

@[simp] theorem execThermalTrip_canonical (s : State) (hs : Memory.wf s.dram = true) :
    canonicalNext (execThermalTrip s) := by simp [execThermalTrip, *]

/-! ### The host's side -/

@[simp] theorem State.assignWrite_dram (s : State) (off : Nat) (v : Word64) : (s.assignWrite off v).dram = s.dram := by
  unfold State.assignWrite
  dsimp only
  repeat' split
  all_goals simp

@[simp] theorem execAssignmentWrite_canonical (who : Who) (off : Nat) (v : BitVec 64) (s : State) (hs : Memory.wf s.dram = true) :
    canonicalNext (execAssignmentWrite who off v s) := by
  unfold execAssignmentWrite
  split <;> simp [*]

@[simp] theorem State.semAcquire_dram (s : State) (port k : Nat) : (s.semAcquire port k).dram = s.dram := by
  unfold State.semAcquire
  split <;> rfl

@[simp] theorem State.semRelease_dram (s : State) (port k : Nat) : (s.semRelease port k).dram = s.dram := by
  unfold State.semRelease
  split <;> rfl

@[simp] theorem State.semWrite_dram (s : State) (port k : Nat) (v : Word64) : (s.semWrite port k v).dram = s.dram := by
  unfold State.semWrite
  repeat' split
  all_goals simp

@[simp] theorem execSemaphoreAcquire_canonical (port sem : Nat) (s : State) (hs : Memory.wf s.dram = true) :
    canonicalNext (execSemaphoreAcquire port sem s) := by
  unfold execSemaphoreAcquire
  split <;> simp [*]

@[simp] theorem execSemaphoreRelease_canonical (port sem : Nat) (s : State) (hs : Memory.wf s.dram = true) :
    canonicalNext (execSemaphoreRelease port sem s) := by
  unfold execSemaphoreRelease
  split <;> simp [*]

@[simp] theorem State.guardWrite_dram (s : State) (who : Who) (g k : Nat) (v : Word64) : (s.guardWrite who g k v).dram = s.dram := by
  unfold State.guardWrite
  dsimp only
  repeat' split
  all_goals simp

@[simp] theorem State.unfreeze_dram (s : State) (port target : Nat) : (s.unfreeze port target).dram = s.dram := by
  unfold State.unfreeze
  split <;> rfl

@[simp] theorem execPortUnfreeze_canonical (port target : Nat) (s : State) (hs : Memory.wf s.dram = true) :
    canonicalNext (execPortUnfreeze port target s) := by
  unfold execPortUnfreeze
  split <;> simp [*]

@[simp] theorem State.setTime_dram (s : State) (v : Word64) : (s.setTime v).dram = s.dram := by
  unfold State.setTime
  split <;> rfl

@[simp] theorem execTimeAdjust_canonical (who : Who) (v : BitVec 64) (s : State) (hs : Memory.wf s.dram = true) :
    canonicalNext (execTimeAdjust who v s) := by
  grind [execTimeAdjust, State.writeBy_canonical, State.adjustTime_dram, wf_foldl, State.dram_foldl, canonicalNext]

@[simp] theorem execTimeSet_canonical (who : Who) (v : BitVec 64) (s : State) (hs : Memory.wf s.dram = true) :
    canonicalNext (execTimeSet who v s) := by simp [execTimeSet, *]

@[simp] theorem execTimeSlewEnd_canonical (s : State) (hs : Memory.wf s.dram = true) : canonicalNext (execTimeSlewEnd s) := by
  unfold execTimeSlewEnd
  split <;> simp [*]

@[simp] theorem State.latchTime_dram (s : State) : (s.latchTime).dram = s.dram := by simp [State.latchTime]

@[simp] theorem execDeviceTimeLatchRead_canonical (who : Who) (s : State) (hs : Memory.wf s.dram = true) :
    canonicalNext (execDeviceTimeLatchRead who s) := by
  unfold execDeviceTimeLatchRead
  split <;> simp [*]

@[simp] theorem State.w1cWrite_dram (s : State) (a : Nat) (mask : Word64) (bit : Nat) (v : Word64) : (s.w1cWrite a mask bit v).dram = s.dram := by
  unfold State.w1cWrite
  split <;> rfl

@[simp] theorem State.valueWrite_dram (s : State) (a : Nat) (v : Word64) : (s.valueWrite a v).dram = s.dram := by simp [State.valueWrite]

@[simp] theorem execCounterValueWrite_canonical (who : Who) (core n : Nat) (v : BitVec 64) (s : State) (hs : Memory.wf s.dram = true) :
    canonicalNext (execCounterValueWrite who core n v s) := by
  unfold execCounterValueWrite
  split <;> simp [*]

@[simp] theorem State.ginghamWrite_dram (s : State) (core : Nat) (v : Word64) : (s.ginghamWrite core v).dram = s.dram := by
  unfold State.ginghamWrite
  split <;> rfl

@[simp] theorem execGinghamClear_canonical (who : Who) (core : Nat) (v : BitVec 64) (s : State) (hs : Memory.wf s.dram = true) :
    canonicalNext (execGinghamClear who core v s) := by
  unfold execGinghamClear
  split <;> simp [*]

@[simp] theorem State.stopWrite_dram (s : State) (core : Nat) (v : Word64) : (s.stopWrite core v).dram = s.dram := by
  unfold State.stopWrite
  dsimp only
  repeat' split
  all_goals simp

@[simp] theorem State.dbWrite_dram (s : State) (core : Nat) (v : Word64) : (s.dbWrite core v).dram = s.dram := by
  unfold State.dbWrite
  repeat' split
  all_goals simp

@[simp] theorem execDebugStop_canonical (who : Who) (core : Nat) (v : BitVec 64) (s : State) (hs : Memory.wf s.dram = true) :
    canonicalNext (execDebugStop who core v s) := by
  unfold execDebugStop
  split <;> simp [*]

@[simp] theorem execDebugGo_canonical (who : Who) (core : Nat) (v : BitVec 64) (s : State) (hs : Memory.wf s.dram = true) :
    canonicalNext (execDebugGo who core v s) := by
  unfold execDebugGo
  split <;> simp [*]

@[simp] theorem execDebugDataWrite_canonical (who : Who) (core : Nat) (v : BitVec 64) (s : State) (hs : Memory.wf s.dram = true) :
    canonicalNext (execDebugDataWrite who core v s) := by
  unfold execDebugDataWrite
  split <;> simp [*]

@[simp] theorem State.schedWrite_dram (s : State) (core off : Nat) (v : Word64) : (s.schedWrite core off v).dram = s.dram := by
  unfold State.schedWrite
  repeat' split
  all_goals simp

@[simp] theorem State.queueWrite_dram (s : State) (who : Who) (q off : Nat) (v : Word64) : (s.queueWrite who q off v).dram = s.dram := by
  unfold State.queueWrite
  split <;> simp

@[simp] theorem State.ctxBlockWrite_canonical (s : State) (who : Who) (c off : Nat) (v : Word64) (hs : Memory.wf s.dram = true) :
    Memory.wf (s.ctxBlockWrite who c off v).dram = true := by
  unfold State.ctxBlockWrite
  repeat' split
  all_goals simp [*]

@[simp] theorem State.yieldBlockWrite_dram (s : State) (c off : Nat) (v : Word64) : (s.yieldBlockWrite c off v).dram = s.dram := by
  unfold State.yieldBlockWrite
  repeat' split
  all_goals simp

@[simp] theorem State.semBlockWrite_dram (s : State) (who : Who) (off : Nat) (v : Word64) : (s.semBlockWrite who off v).dram = s.dram := by
  unfold State.semBlockWrite
  repeat' split
  all_goals simp

@[simp] theorem State.portBlockWrite_dram (s : State) (pp off : Nat) (v : Word64) : (s.portBlockWrite pp off v).dram = s.dram := by
  unfold State.portBlockWrite
  repeat' split
  all_goals simp

@[simp] theorem State.timeWrite_dram (s : State) (who : Who) (off : Nat) (v : Word64) : (s.timeWrite who off v).dram = s.dram := by
  unfold State.timeWrite
  repeat' split
  all_goals simp

@[simp] theorem State.fabricWrite_dram (s : State) (off : Nat) (v : Word64) : (s.fabricWrite off v).dram = s.dram := by
  unfold State.fabricWrite
  repeat' split
  all_goals simp

@[simp] theorem State.counterBlockWrite_dram (s : State) (core off : Nat) (v : Word64) : (s.counterBlockWrite core off v).dram = s.dram := by
  unfold State.counterBlockWrite
  repeat' split
  all_goals simp

@[simp] theorem State.sliceBlockWrite_dram (s : State) (h off : Nat) (v : Word64) : (s.sliceBlockWrite h off v).dram = s.dram := by
  unfold State.sliceBlockWrite
  repeat' split
  all_goals simp

@[simp] theorem State.muslinWrite_dram (s : State) (c off : Nat) (v : Word64) : (s.muslinWrite c off v).dram = s.dram := by
  unfold State.muslinWrite
  repeat' split
  all_goals simp

@[simp] theorem State.attestWrite_dram (s : State) (who : Who) (off : Nat) (v : Word64) : (s.attestWrite who off v).dram = s.dram := by
  unfold State.attestWrite
  repeat' split
  all_goals simp

@[simp] theorem State.write_canonical (s : State) (who : Who) (a : Nat) (v : Word64) (hs : Memory.wf s.dram = true) :
    Memory.wf (s.write who a v).dram = true := by
  unfold State.write
  repeat' split
  all_goals simp [*]

@[simp] theorem State.arrive_canonical (s : State) (who : Who) (a : Nat) (v : Word64) (hs : Memory.wf s.dram = true) :
    Memory.wf (s.arrive who a v).dram = true := by
  unfold State.arrive
  split
  · repeat' split
    all_goals simp [hs]
  · exact State.writeBy_canonical s who a _ hs (fun t ht => by simp [ht])

@[simp] theorem execRegisterWrite_canonical (who : Who) (addr : Nat) (v : BitVec 64) (s : State) (hs : Memory.wf s.dram = true) :
    canonicalNext (execRegisterWrite who addr v s) := by simp [execRegisterWrite, *]

@[simp] theorem State.hostStore_dram (s : State) (pa : Nat) (data : List Byte) : (s.hostStore pa data).dram = s.dram := by
  unfold State.hostStore
  dsimp only
  split <;> simp

@[simp] theorem State.hostLoad_dram (s : State) (port pa n : Nat) : (s.hostLoad port pa n).dram = s.dram := by simp [State.hostLoad]

@[simp] theorem State.readEffect_dram (s : State) (a : Nat) : (s.readEffect a).dram = s.dram := by
  unfold State.readEffect
  repeat' split
  all_goals simp

@[simp] theorem State.bar0Load_dram (s : State) (port fn off : Nat) : (s.bar0Load port fn off).dram = s.dram := by
  unfold State.bar0Load
  dsimp only
  repeat' split
  all_goals simp

@[simp] theorem State.maskVector_dram (s : State) (port fn vec : Nat) (mask : Bool) : (s.maskVector port fn vec mask).dram = s.dram := by
  unfold State.maskVector
  repeat' split
  all_goals simp

@[simp] theorem State.abortHost_dram (s : State) (port : Nat) : (s.abortHost port).dram = s.dram := by simp [State.abortHost]

@[simp] theorem execHostWrite_canonical (port : Nat) (req : HostReq) (s : State) (hs : Memory.wf s.dram = true) :
    canonicalNext (execHostWrite port req s) := by
  unfold execHostWrite
  dsimp only
  repeat' split
  all_goals simp [*]

@[simp] theorem State.resetVf_dram (s : State) (port fn : Nat) : (s.resetVf port fn).dram = s.dram := by
  grind [State.resetVf, State.destroyCtx_dram, State.endPass_dram, State.dram_foldl]

@[simp] theorem execFunctionLevelReset_canonical (port fn : Nat) (s : State) (hs : Memory.wf s.dram = true) :
    canonicalNext (execFunctionLevelReset port fn s) := by
  unfold execFunctionLevelReset
  dsimp only
  repeat' split
  all_goals simp [*]

/-! ### Debug and replay -/

@[simp] theorem State.holdStopped_dram (s : State) : (s.holdStopped).dram = s.dram := by simp [State.holdStopped]

@[simp] theorem execDebugStopEffect_canonical (core : Nat) (s : State) (hs : Memory.wf s.dram = true) :
    canonicalNext (execDebugStopEffect core s) := by
  unfold execDebugStopEffect
  extract_lets c mine base r src
  split
  · exact hs
  · have hr : r.1.dram = s.dram := foldl_inv (fun acc : State × Nat => acc.1.dram = s.dram) _ (fun acc g h => by simp [h]) _ _ rfl
    simp [src, hr, hs]

@[simp] theorem State.injectPacket_dram (s : State) (ctx q : Nat) (body : List Byte) : (s.injectPacket ctx q body).dram = s.dram := by
  unfold State.injectPacket
  dsimp only
  repeat' split
  all_goals simp

@[simp] theorem State.injectFrame_canonical (s : State) (lport f : Nat) (body : List Byte) (hs : Memory.wf s.dram = true) :
    Memory.wf (s.injectFrame lport f body).dram = true := by simp [State.injectFrame, *]

theorem State.swapQueues_next {s : State} (hs : Memory.wf s.dram = true) :
    canonicalNext (.next s.swapQueues) := (congrArg Memory.wf (s.swapQueues_dram)).trans hs

@[simp] theorem execMuslinReplayInjection_canonical (ctx : Nat) (s : State) (hs : Memory.wf s.dram = true) :
    canonicalNext (execMuslinReplayInjection ctx s) := by
  unfold execMuslinReplayInjection
  split
  · exact hs
  · rename_i x hx
    extract_lets body fld used
    have hu : Memory.wf used.dram = true := (congrArg Memory.wf (State.useEntry_dram ..)).trans hs
    clear_value used
    clear_value fld
    split
    · generalize ((List.range 1024).any (fun q => s.qCtx q == ctx && s.qPending q) || s.percale.busy) = b
      apply canonicalNext_ite
      · exact hs
      have h1 : Memory.wf (used.injectPacket ctx (fld 0) body).dram = true := (congrArg Memory.wf (State.injectPacket_dram ..)).trans hu
 
      apply State.swapQueues_next
      exact h1
    · split
      · exact State.pump_canonical _ (State.injectFrame_canonical _ _ _ _ hu)
      · exact hs
    · exact State.pump_canonical _ ((congrArg Memory.wf (State.pathWrite_dram ..)).trans hu)
    · split
      · exact State.pump_canonical _ ((congrArg Memory.wf (State.form_dram ..)).trans hu)
      · exact hs

theorem State.strike_canonical (s : State) (g : Gang) (hs : Memory.wf s.dram = true) (t : State) (h : s.strike g = some t) :
    Memory.wf t.dram = true := by
  unfold State.strike at h
  obtain ⟨x, -, rfl⟩ := Option.map_eq_some_iff.mp h
  dsimp only
  split
  · exact State.takeDeadline_canonical _ _ (by simp [hs])
  · simp [hs]

/-! ### Errors of the stores -/

@[simp] theorem after_canonical (s : State) (o : Host.Outcome State Fault Refusal) (hs : Memory.wf s.dram = true) (ho : canonicalNext o) :
    Memory.wf (after s o).dram = true := by
  unfold after
  split
  · exact ho
  · exact hs

@[simp] theorem execCorrectableErrorFreeze_canonical (core : Nat) (s : State) (hs : Memory.wf s.dram = true) :
    canonicalNext (execCorrectableErrorFreeze core s) := by
  unfold execCorrectableErrorFreeze
  split <;> simp [*]

@[simp] theorem State.thaw_canonical (s0 : State) (core : Nat) (hs : Memory.wf s0.dram = true) : Memory.wf (State.thaw s0 core).dram = true := by
  grind [State.thaw, State.mergeWhere_canonical, State.pinNow_dram, State.modCore_dram, after_canonical, execRemoteFlagPost_canonical, execRevocation_canonical, execSchedulerWriteDelivery_canonical, wf_foldl, State.dram_foldl]

@[simp] theorem execFreezeEnd_canonical (core : Nat) (s : State) (hs : Memory.wf s.dram = true) : canonicalNext (execFreezeEnd core s) := by
  grind [execFreezeEnd, State.pump_canonical, State.replayWhere_canonical, State.thaw_canonical, State.modCore_dram, wf_foldl, State.dram_foldl, canonicalNext]

@[simp] theorem State.chargeLoss_dram (s : State) (pick : Nat → Bool) (pa : Nat) : (s.chargeLoss pick pa).dram = s.dram := by
  grind [State.chargeLoss, State.log_dram, State.modCtx_dram, State.dram_foldl]

@[simp] theorem State.loseSector_canonical (s : State) (l : L2Line) (k : Nat) (pick : Nat → Bool) (hs : Memory.wf s.dram = true) :
    Memory.wf (s.loseSector l k pick).dram = true := by simp [State.loseSector, *]

@[simp] theorem State.l2Error_canonical (s : State) (slice set way k : Nat) (hs : Memory.wf s.dram = true) :
    Memory.wf (s.l2Error slice set way k).dram = true := by
  unfold State.l2Error
  dsimp only
  repeat' split
  all_goals simp [*]

@[simp] theorem State.l2TagError_canonical (s : State) (slice set way : Nat) (hs : Memory.wf s.dram = true) :
    Memory.wf (s.l2TagError slice set way).dram = true := by
  grind [State.l2TagError, State.loseSector_canonical, State.modSlice_dram, wf_foldl, State.dram_foldl]

@[simp] theorem State.poisonSaved_dram (s : State) (pa n : Nat) : (s.poisonSaved pa n).dram = s.dram := by simp [State.poisonSaved]

@[simp] theorem State.killSaved_dram (s : State) (g : Gang) : (s.killSaved g).dram = s.dram := by
  unfold State.killSaved
  dsimp only
  repeat' split
  all_goals simp

@[simp] theorem State.lostResult_dram (s : State) (f : Flight) (d : Reg) (w : OpW) : (s.lostResult f d w).dram = s.dram := by simp [State.lostResult]

@[simp] theorem State.lostAt_dram (s : State) (f : Flight) : (s.lostAt f).dram = s.dram := by
  unfold State.lostAt
  repeat' split
  all_goals simp

@[simp] theorem execUncorrectableError_canonical (site : ErrSite) (s : State) (hs : Memory.wf s.dram = true) :
    canonicalNext (execUncorrectableError site s) := by
  unfold execUncorrectableError
  repeat' split
  all_goals simp [*]

/-! ### Dispatch -/

theorem exec_of_semOf (i : Instr) (s : State) : ∀ m, semOf i = some m → exec i s = run i m s := by
  unfold semOf
  split
  all_goals simp [exec]
  all_goals rfl

theorem exec_event_canonical {i : Instr} {s : State} (h : semOf i = none) (hs : Memory.wf s.dram = true) : canonicalNext (exec i s) := by
  cases i <;> simp_all [semOf, exec]

theorem exec_canonical (i : Instr) (s : State) (hs : Memory.wf s.dram = true) : canonicalNext (exec i s) := by
  cases hm : semOf i with
  | none => exact exec_event_canonical hm hs
  | some m => exact exec_of_semOf i s m hm ▸ run_canonical i m s hs (semOf_canonical hm)

/-! ### Scheduling -/

@[simp] theorem State.fetched_dram (s old : State) (g : Gang) (n : Nat) : (s.fetched old g n).dram = s.dram := by
  unfold State.fetched
  split <;> simp

theorem fetchedBy_canonical (o : Host.Outcome State Fault Refusal) (old : State) (g : Gang) (n : Nat) (ho : canonicalNext o) :
    canonicalNext (fetchedBy o old g n) := by
  unfold fetchedBy
  split
  · simpa using ho
  · exact ho

@[simp] theorem State.fetchTrap_dram (s : State) (g : Gang) (cause : Nat) (taddr : Word64) :
    (s.fetchTrap g cause taddr).dram = s.dram := by simp [State.fetchTrap]

@[simp] theorem State.notBundle_dram (s : State) (g : Gang) : (s.notBundle g).dram = s.dram := by
  unfold State.notBundle
  split <;> simp

theorem State.attempt_canonical (s : State) (uid : Nat) (hs : Memory.wf s.dram = true) : canonicalNext (s.attempt uid) := by
  unfold State.attempt
  split
  · exact hs
  · split
    · exact hs
    · split
      · next t ht => exact State.strike_canonical _ _ hs t ht
      · split
        · exact fetchedBy_canonical _ _ _ _ (by simp [hs])
        · exact fetchedBy_canonical _ _ _ _ (by simp [hs])
        · simp [hs]
        · split
          · exact fetchedBy_canonical _ _ _ _ (exec_canonical _ _ hs)
          · split
            · exact fetchedBy_canonical _ _ _ _ (by simp [hs])
            · split
              · simp [hs]
              · exact fetchedBy_canonical _ _ _ _ (by simp [hs])

@[simp] theorem State.countCycle_dram (s : State) : (s.countCycle).dram = s.dram := by
  grind [State.countCycle, State.modGang_dram, State.count_dram, State.dram_foldl]

@[simp] theorem State.markWaits_dram (s : State) : (s.markWaits).dram = s.dram := by simp [State.markWaits]

@[simp] theorem State.tick_canonical (s0 : State) (hs : Memory.wf s0.dram = true) : Memory.wf (State.tick s0).dram = true := by
  grind [State.tick, State.settleWraps_dram, State.countCycle_dram, State.thawFrames_canonical, after_canonical, execFreezeEnd_canonical, State.trip_dram, State.ptpTurn_dram, State.markWaits_dram, State.buryCtxs_dram, State.endSwitch_canonical, State.pump_canonical, State.replayWhere_canonical, wf_foldl, State.dram_foldl]

theorem holdAfter_canonical (o : Host.Outcome State Fault Refusal) (ho : canonicalNext o) : canonicalNext (holdAfter o) := by
  unfold holdAfter
  split
  · simp only [canonicalNext_next]
    split
    · simpa using ho
    · exact ho
  · exact ho

theorem State.firstIssues_canonical (s : State) (hs : Memory.wf s.dram = true) : canonicalNext s.firstIssues := by
  unfold State.firstIssues
  have hf := foldl_inv canonicalNext (fun (o : Host.Outcome State Fault Refusal) (g : Gang) => match o with
    | .next t => (t.modGang g.uid (fun x => { x with iss := { x.iss with first := false } })).attempt g.uid
    | x => x) (fun o g ho => by
      split
      · exact State.attempt_canonical _ _ ((congrArg Memory.wf (State.modGang_dram ..)).trans ho)
      · exact ho) (s.gangs.filter (fun g => g.iss.first)) (.next s) hs
  split
  · next t ht => exact (congrArg canonicalNext ht).mp hf
  · exact hf

theorem releaseAfter_canonical (o : Host.Outcome State Fault Refusal) (ho : canonicalNext o) : canonicalNext (releaseAfter o) := by
  unfold releaseAfter
  split
  · split
    · exact State.firstIssues_canonical _ ho
    · exact ho
  · exact ho

theorem State.take_canonical (s : State) (t : Turn) (hs : Memory.wf s.dram = true) : canonicalNext (s.take t) := by
  have hp : canonicalNext s.cyclePower := exec_canonical _ _ hs
  unfold State.take
  split
  · split
    · exact hp
    · exact hs
  · split
    · exact hp
    · exact holdAfter_canonical _ (releaseAfter_canonical _ (exec_canonical _ _ hs))
    · exact holdAfter_canonical _ (State.tick_canonical _ hs)
    · split
      · refine holdAfter_canonical _ ?_
        split
        · exact State.attempt_canonical _ _ hs
        · exact hs
      · exact hs

/-- An event that the device takes by itself keeps main memory canonical. -/
def Own.canonical (o : Own) : Prop := ∀ s, Memory.wf s.dram = true → canonicalNext (o s)

theorem Flight.events_canonical (f : Flight) : ∀ o ∈ f.events, Own.canonical o := by
  unfold Flight.events
  split <;> simp +contextual [Own.canonical]

theorem Gang.events_canonical (g : Gang) : ∀ o ∈ g.events, Own.canonical o := by simp +contextual [Gang.events, Own.canonical]

theorem coreEvents_canonical (c : Nat × Core) : ∀ o ∈ coreEvents c, Own.canonical o := by
  unfold coreEvents
  simp only [List.forall_mem_append]
  refine ⟨⟨⟨?_, ?_⟩, ?_⟩, ?_⟩
  · split <;> simp +contextual [Own.canonical]
  · split <;> simp +contextual [Own.canonical]
  · split <;> simp +contextual [Own.canonical]
  · intro o ho
    obtain ⟨t, -, rfl⟩ := List.mem_map.mp ho
    exact fun s hs => execTileDrainComplete_canonical _ _ s hs

theorem Cmd.events_canonical (c : Cmd) : ∀ o ∈ c.events, Own.canonical o := by simp +contextual [Cmd.events, Own.canonical]

theorem ctxEvents_canonical (c : Nat × Ctx) : ∀ o ∈ ctxEvents c, Own.canonical o := by
  unfold ctxEvents
  simp only [List.forall_mem_append]
  refine ⟨⟨⟨?_, ?_⟩, ?_⟩, ?_⟩
  · split <;> simp +contextual [Own.canonical]
  · split <;> simp +contextual [Own.canonical]
  · simp +contextual [Own.canonical, or_imp]
  · split <;> simp +contextual [Own.canonical]

theorem sliceEvents_canonical (h : Nat × Slice) : ∀ o ∈ sliceEvents h, Own.canonical o := fun o ho => by
  obtain ⟨l, -, rfl⟩ := List.mem_map.mp ho
  exact fun s hs => execAuditAgeExpiry_canonical _ _ _ s hs

theorem queueEvents_canonical (q : Nat × Queue) : ∀ o ∈ queueEvents q, Own.canonical o := by simp +contextual [queueEvents, Own.canonical]

theorem packetEvent_canonical (q : Nat) (bs : List Byte) : Own.canonical (packetEvent q bs) := by
  unfold packetEvent
  repeat' split
  all_goals exact fun s hs => by simp [hs]

theorem State.switchEvents_canonical (s : State) : ∀ o ∈ s.switchEvents, Own.canonical o := by
  unfold State.switchEvents
  repeat' split
  all_goals simp +contextual [Own.canonical]

theorem forall_mem_flatten_map {α : Type} {p : Own → Prop} {l : List α} {f : α → List Own} (h : ∀ x, ∀ o ∈ f x, p o) :
    ∀ o ∈ (l.map f).flatten, p o := by
  intro o ho
  obtain ⟨x, -, hx⟩ := List.mem_flatMap.mp (List.flatMap_def ▸ ho)
  exact h x o hx

theorem State.ownEvents_canonical (s : State) : ∀ o ∈ s.ownEvents, Own.canonical o := by
  unfold State.ownEvents
  simp only [List.forall_mem_append]
  refine ⟨⟨⟨⟨⟨⟨⟨⟨⟨⟨⟨⟨⟨⟨?_, ?_⟩, ?_⟩, ?_⟩, ?_⟩, ?_⟩, ?_⟩, ?_⟩, ?_⟩, ?_⟩, ?_⟩, ?_⟩, ?_⟩, ?_⟩, ?_⟩
  · exact forall_mem_flatten_map coreEvents_canonical
  · exact forall_mem_flatten_map Flight.events_canonical
  · exact forall_mem_flatten_map Gang.events_canonical
  · exact forall_mem_flatten_map Cmd.events_canonical
  · split <;> simp +contextual [Own.canonical]
  · exact forall_mem_flatten_map sliceEvents_canonical
  · exact forall_mem_flatten_map ctxEvents_canonical
  · exact forall_mem_flatten_map (fun l => by simp +contextual [Own.canonical])
  · exact forall_mem_flatten_map queueEvents_canonical
  · split
    · simpa using packetEvent_canonical _ _
    · simp
  · simp +contextual [Own.canonical]
  · simp +contextual [Own.canonical]
  · exact State.switchEvents_canonical s
  · simp +contextual [Own.canonical]
  · split <;> simp +contextual [Own.canonical]

theorem State.natural_canonical (s : State) (hs : Memory.wf s.dram = true) : canonicalNext s.natural := by
  unfold State.natural
  split
  · exact hs
  · extract_lets quiet
    split
    · next e he => exact holdAfter_canonical _ (releaseAfter_canonical _ (State.ownEvents_canonical s e (List.mem_of_find?_eq_some he) quiet hs))
    · split
      · exact State.take_canonical _ _ hs
      · exact State.take_canonical _ _ hs

/-- Settles O60: every event, instruction and lapse of time that `step` can take changes main memory only by writing bytes in the canonical form. -/
theorem memoryStaysCanonical : Obligations.MemoryStaysCanonical := by
  intro s t hs ht
  have h : canonicalNext (step s) := by
    unfold step
    split
    · exact State.take_canonical _ _ hs
    · exact State.natural_canonical _ hs
  rwa [ht] at h

end Sys2Proof.Machine
end

section
/-! SUPPORT. An effect on other parts of the state together with results for one field: what its issue leaves. And the bytes of a scratchpad after stores
that wait for their banks (R119, R127, R231). -/

namespace Sys2Proof.Machine

/-! ## Issues with an effect and with results -/

/-- What an effect must be for its issue, which does not seal, to add only its marks: nothing else is due in the state Y, no operation leaves, and the
gang is one that g0 holds, its charge taken. -/
structure Acts (s Y : State) (g y g0 : Gang) (i : Instr) : Prop where
  calm : Y.calmFor g = true
  late : Y.noLateTrap
  gang : Y.gang? g.uid = some y
  pass : y.pass = (g0.charge (ciOf i.maj) 0).pass
  unsealed : g0.iss.sealTo = none ∧ g0.iss.splitTo = none

section
variable {s Y : State} {g y g0 : Gang} {i : Instr} {m : Sem} {ws : List RegWrite}

/-- The environment's state itself. -/
theorem Acts.start (hi : Issues s g i) (hq : s.calmFor g = true) : Acts s (paidEnv s g i).s g (g.charge (ciOf i.maj) 0) g i :=
  ⟨State.calmFor_charged hi.here hq _ _ _, (hi.charged _ _).2, (hi.charged _ _).1, rfl, hi.unsealed⟩

theorem Acts.modCore (h : Acts s Y g y g0 i) (c : Nat) (F : Core → Core) : Acts s (Y.modCore c F) g y g0 i :=
  ⟨State.calmFor_modCore F h.calm, h.late, h.gang, h.pass, h.unsealed⟩

theorem Acts.drawn (h : Acts s Y g y g0 i) : Acts s Y.drawn g y g0 i := ⟨h.calm, h.late, h.gang, h.pass, h.unsealed⟩

theorem Acts.withPaths (h : Acts s Y g y g0 i) (l : List PathWrite) : Acts s { Y with paths := l } g y g0 i := ⟨h.calm, h.late, h.gang, h.pass, h.unsealed⟩

theorem Acts.modGang (h : Acts s Y g y g0 i) {F : Gang → Gang} {g1 : Gang} (hu : ∀ x, (F x).uid = x.uid) (hl : ∀ x, (F x).late = x.late)
    (hm : ∀ x, (F x).iss.sealTo = x.iss.sealTo ∧ (F x).iss.splitTo = x.iss.splitTo ∧ (F x).iss.mseal = x.iss.mseal)
    (hp : (F y).pass = (g1.charge (ciOf i.maj) 0).pass) (h1 : g1.iss.sealTo = none ∧ g1.iss.splitTo = none) : Acts s (Y.modGang g.uid F) g (F y) g1 i :=
  ⟨State.calmFor_modGang g.uid hm h.calm, State.noLateTrap_modGang g.uid hl h.late, State.gang?_modGang_same F hu h.gang, hp, h1⟩

/-- The issue of such an effect. -/
theorem run_acts (hi : Issues s g i) (hs : i.seals = false) (ha : Acts s Y g y g0 i) (hct : m.ct (simtEnv s g i) = 0)
    (hop : m.op (paidEnv s g i) = .ok { st := Y, writes := ws }) :
    ∃ g', run i m s = .next (State.issued i (paidEnv s g i) { st := Y, writes := ws } (ciOf i.maj) 0) ∧
      (State.issued i (paidEnv s g i) { st := Y, writes := ws } (ciOf i.maj) 0).gang? g.uid = some g' ∧ g'.pc = g.pc + 8 ∧ Leaves g0 g' i 0 ∧
      g'.regs = (g0.putAll ws).regs ∧ g'.ctl.p = (g0.putAll ws).ctl.p ∧ g'.ctl.b = (g0.putAll ws).ctl.b ∧ g'.ctl.fx = (g0.putAll ws).ctl.fx := by
  obtain ⟨t, g', h1, h2, h3, h4, h5, h6, h7, h8⟩ := run_leaves (g0 := g0) hi hct (Nat.zero_le _) hop ha.late ha.gang ha.pass ha.unsealed
  have hrun := run_ok (m := m) hi (by rw [hct]; exact Nat.zero_le _) (by rw [hct]; exact hop)
  rw [hct] at hrun
  have ht := (Host.Outcome.next.inj (h1.symm.trans hrun)).trans (State.commit_eq_issued (e := paidEnv s g i) ha.calm ha.late hs)
  subst ht
  exact ⟨g', h1, h2, h4, h3, h5, h6, h7, h8.trans (fxSet_zero _)⟩

/-- An effect without results keeps the registers. -/
theorem run_acts_keeps (hi : Issues s g i) (hs : i.seals = false) (ha : Acts s Y g y g0 i) (hct : m.ct (simtEnv s g i) = 0)
    (hop : m.op (paidEnv s g i) = .ok { st := Y }) :
    ∃ g', run i m s = .next (State.issued i (paidEnv s g i) { st := Y } (ciOf i.maj) 0) ∧
      (State.issued i (paidEnv s g i) { st := Y } (ciOf i.maj) 0).gang? g.uid = some g' ∧ g'.pc = g.pc + 8 ∧ Leaves g0 g' i 0 ∧ keepsRegs g0 g' :=
  run_acts hi hs ha hct hop

/-- The operations in flight after an issue of which none leaves. -/
theorem State.issued_same_flights {e : Env} {f : Eff} {ci ct : Nat} (h : ∀ x ∈ f.st.flights, x ∈ e.s.flights) :
    (State.issued i e f ci ct).flights = f.st.flights := by
  rw [State.issued_flights]
  refine (List.map_congr_left (fun x hx => ?_)).trans (List.map_id _)
  have : e.s.flights.any (fun y => y.id == x.id) = true := List.any_eq_true.2 ⟨x, h x hx, beq_self_eq_true _⟩
  rw [this]
  rfl

/-! ## Results with poison -/

/-- A write whose value is not poisoned. -/
def RegWrite.clean (w : RegWrite) : RegWrite := { w with poison := false }

theorem Gang.put_clean {x y : Gang} (w : RegWrite) (hv : x.regs.v = y.regs.v) (hs : x.regs.s = y.regs.s) :
    (x.put w).regs.v = (y.put w.clean).regs.v ∧ (x.put w).regs.s = (y.put w.clean).regs.s := by
  unfold Gang.put RegWrite.clean
  dsimp only
  cases w.dst with
  | p st r =>
    dsimp only
    split <;> exact ⟨hv, hs⟩
  | v st r => exact ⟨congrArg (fun f : File 32 => f.put (128 * st + r) (w.val.setWidth 32)) hv, hs⟩
  | s r => exact ⟨hv, congrArg (fun f : File 64 => f.put r w.val) hs⟩
  | _ => exact ⟨hv, hs⟩

/-- Poison leaves the values of the registers as they are. -/
theorem Gang.putAll_clean (ws : List RegWrite) {x y : Gang} (hv : x.regs.v = y.regs.v) (hs : x.regs.s = y.regs.s) :
    (x.putAll ws).regs.v = (y.putAll (ws.map RegWrite.clean)).regs.v ∧ (x.putAll ws).regs.s = (y.putAll (ws.map RegWrite.clean)).regs.s := by
  induction ws generalizing x y with
  | nil => exact ⟨hv, hs⟩
  | cons w ws ih =>
    obtain ⟨h1, h2⟩ := Gang.put_clean w hv hs
    exact ih h1 h2

theorem dst_clean {s : State} {g : Gang} {d : Reg} {w : OpW} {st : Nat} {v : BitVec 128} {x : RegWrite} (h : x ∈ (simtEnv s g i).dst d w st v) : x.clean = x := by
  unfold Env.dst dstRegs at h
  dsimp only at h
  split at h
  · obtain ⟨q, _, rfl⟩ := List.mem_map.1 h
    rfl
  · split at h
    · split at h
      · rw [List.mem_singleton.1 h]
        rfl
      · cases h
    · cases h

/-- Results for field d in the executing strands, each poisoned or not. -/
def resultsFor (e : Env) (d : Reg) (w : OpW) (v : Nat → BitVec 128) (q : Nat → Bool) : List RegWrite :=
  (e.parts.map (fun st => (e.dst d w st (v st)).map (fun x => { x with poison := q st }))).flatten

theorem resultsFor_dstOnly (s : State) (g : Gang) (i : Instr) (d : Reg) (w : OpW) (v : Nat → BitVec 128) (q : Nat → Bool) :
    DstOnly g i d w (resultsFor (paidEnv s g i) d w v q) := by
  intro x hx
  obtain ⟨l, hl, hx⟩ := List.mem_flatten.1 hx
  obtain ⟨st, hst, rfl⟩ := List.mem_map.1 hl
  obtain ⟨z, hz, rfl⟩ := List.mem_map.1 hx
  rcases simtEnv_dst hz with ⟨h1, k, hk, hd⟩ | ⟨h1, _, hd⟩
  · exact Or.inl ⟨st, k, mem_simtEnv_parts hst, h1, hk, hd⟩
  · exact Or.inr ⟨h1, hd⟩

theorem resultsFor_clean (s : State) (g : Gang) (i : Instr) (d : Reg) (w : OpW) (v : Nat → BitVec 128) (q : Nat → Bool) :
    (resultsFor (paidEnv s g i) d w v q).map RegWrite.clean =
      ((paidEnv s g i).parts.map (fun st => (paidEnv s g i).dst d w st (v st))).flatten := by
  unfold resultsFor
  rw [List.map_flatten, List.map_map]
  refine congrArg List.flatten (List.map_congr_left (fun st _ => ?_))
  rw [Function.comp, List.map_map]
  exact (List.map_congr_left (fun x hx => dst_clean hx)).trans (List.map_id _)

theorem resultsFor_gets (s : State) (d : Reg) (w : OpW) (v : Nat → BitVec 128) (q : Nat → Bool)
    (hy : y.regs = (g.putAll (resultsFor (paidEnv s g i) d w v q)).regs) : gets g y i d w (fun st => (v st).toNat) := by
  obtain ⟨h1, h2⟩ := Gang.putAll_clean (resultsFor (paidEnv s g i) d w v q) (x := g) rfl rfl
  rw [resultsFor_clean] at h1 h2
  have h := each_gets (s := s) (g := g) (i := i) (ci := ciOf i.maj) (ct := 0) (d := d) (w := w) (y := g.putAll _) v rfl rfl
  unfold gets at h ⊢
  rw [hy, h1, h2]
  exact h

/-- Writes for one field alone, told of a gang that has their registers. -/
theorem DstOnly.wrote_of {d : Reg} {w : OpW} (h : DstOnly g i d w ws) (hr : y.regs = (g.putAll ws).regs) (hp : y.ctl.p = (g.putAll ws).ctl.p)
    (hb : y.ctl.b = (g.putAll ws).ctl.b) : WroteOnly g y i d w := by
  have hw := h.wrote
  exact ⟨hr ▸ hw.v, hr ▸ hw.s, hr ▸ hw.g, hr ▸ hw.h, hr ▸ hw.pt, hp ▸ hw.p, hb ▸ hw.b⟩

/-- An issue with an effect elsewhere, a change of the special state, and results for one field. -/
theorem run_results {sp : Spec} {d : Reg} {w : OpW} {v : Nat → BitVec 128} {q : Nat → Bool} (hi : Issues s g i) (hs : i.seals = false)
    (ha : Acts s Y g y (g.respec sp) i) (hct : m.ct (simtEnv s g i) = 0)
    (hop : m.op (paidEnv s g i) = .ok { st := Y, writes := resultsFor (paidEnv s g i) d w v q }) (hf : Y.flights = s.flights) :
    ∃ t g', run i m s = .next t ∧ t.gang? g.uid = some g' ∧ g'.pc = g.pc + 8 ∧ Leaves (g.respec sp) g' i 0 ∧ WroteOnly g g' i d w ∧ g'.ctl.fx = g.ctl.fx ∧
      gets g g' i d w (fun st => (v st).toNat) ∧ Y.sameBytes t ∧ t.flights = s.flights := by
  obtain ⟨g', h1, h2, h3, h4, h5, h6, h7, h8⟩ := run_acts hi hs ha hct hop
  have hw := resultsFor_dstOnly s g i d w v q
  rw [Gang.putAll_respec] at h5 h6 h7 h8
  have hfx : (g.putAll (resultsFor (paidEnv s g i) d w v q)).ctl.fx = g.ctl.fx := Gang.putAll_keep (fun x => x.ctl.fx) _ g (fun x hx y => Gang.put_fx y x (fun hd => by
    rcases hw x hx with ⟨_, _, _, _, _, hdst⟩ | ⟨_, hdst⟩ <;> (rw [hd] at hdst; cases hdst)))
  exact ⟨_, g', h1, h2, h3, h4, hw.wrote_of h5 h6 h7, h8.trans hfx, resultsFor_gets s d w v q h5, State.issued_bytes ..,
    (State.issued_same_flights (fun x hx => (hf ▸ hx : x ∈ s.flights))).trans hf⟩

end

/-! ## Stores that wait for their banks -/

/-- A scratchpad byte, and whether it is poisoned, under one waiting write as a path sees it: MTX sees those of VEC too. -/
def PathWrite.overSpad (p : Path) (x : Nat) (b : Byte × Bool) (w : PathWrite) : Byte × Bool :=
  if (w.path == p || (p == .mtx && w.path == .vec)) && w.pa ≤ x && x < w.pa + w.data.length then (w.data.getD (x - w.pa) 0, w.poison) else b

theorem State.spadByte_eq (s : State) (p : Path) (x : Nat) : s.spadByte p x = s.paths.foldl (PathWrite.overSpad p x) (s.bankByte x) := rfl

theorem PathWrite.overSpad_out (p : Path) {x : Nat} (b : Byte × Bool) {w : PathWrite} (h : x < w.pa ∨ w.pa + w.data.length ≤ x) : w.overSpad p x b = b := by
  unfold PathWrite.overSpad
  rw [if_neg]
  simp only [Bool.and_eq_true, decide_eq_true_eq, not_and, not_lt]
  omega

theorem PathWrite.overSpad_in {p : Path} {x : Nat} (b : Byte × Bool) {w : PathWrite} (hp : w.path = p) (h1 : w.pa ≤ x) (h2 : x < w.pa + w.data.length) :
    w.overSpad p x b = (w.data.getD (x - w.pa) 0, w.poison) := by
  unfold PathWrite.overSpad
  rw [if_pos (by simp [hp, h1, h2])]

end Sys2Proof.Machine
end

section
/-! PROOFS. Scratchpad at the own core (R86, R91, R95, R119, R231, R234 to R236): what loads bring and what stores leave. -/

namespace Sys2Proof.Machine

section
variable {s : State} {g : Gang} {i : Instr}

theorem filter_near {α : Type} {e : Env} (f : α → Nat) (hd : e.decoupled = false) {l : List α} (h : ∀ p ∈ l, eaCore (f p) = e.g.core) :
    l.filter (fun p => e.far (f p)) = [] ∧ l.filter (fun p => !e.far (f p)) = l ∧ l.filter (fun p => e.near (f p)) = l := by
  have hnear : ∀ p ∈ l, e.near (f p) = true := fun p hp => by
    unfold Env.near
    exact beq_iff_eq.2 (h p hp)
  have hfar : ∀ p ∈ l, e.far (f p) = false := fun p hp => by
    unfold Env.far
    rw [hd, Bool.false_or]
    exact bne_eq_false_iff_eq.2 (h p hp)
  refine ⟨List.filter_eq_nil_iff.2 (fun p hp => by rw [hfar p hp]; decide), List.filter_eq_self.2 (fun p hp => by rw [hfar p hp]; rfl), List.filter_eq_self.2 hnear⟩

theorem countConflicts_calm (hq : s.calmFor g = true) (ps : List (Nat × Nat)) : (paidEnv s g i).countConflicts ps = (paidEnv s g i).s := by
  have hc (n : Nat) : (paidEnv s g i).s.count (paidEnv s g i).g 0x07 n = (paidEnv s g i).s :=
    (State.calm_counters (t := (paidEnv s g i).s) (g := (paidEnv s g i).g) (s := s) hq rfl).1 _ n
  unfold Env.countConflicts
  dsimp only
  rw [hc, ite_self]

/-- What a load of n bytes at a scratchpad address brings. -/
def Env.spadRead (e : Env) (n : Nat) (sgn : Bool) (ea : Nat) : BitVec 128 := loaded n sgn (e.spadBytes (spadPa e.g.cluster ea) n).1

theorem spadRead_paid (n : Nat) (sgn : Bool) (ea : Nat) : ((paidEnv s g i).spadRead n sgn ea).toNat = spadValue s g n sgn (spadPa g.cluster ea) := by
  unfold Env.spadRead Env.spadBytes
  dsimp only
  rw [List.map_map]
  rfl

/-- A load at the own core, whose strands read at addresses a. -/
theorem spadLoads_near (hq : s.calmFor g = true) (d : Reg) (n : Nat) (sgn : Bool) (queue : Option Nat) (post : FlagRef) {a : Nat → Nat}
    (h : ∀ st, g.executes i st = true → eaCore (a st) = g.core) :
    (paidEnv s g i).spadLoads d n sgn queue post ((paidEnv s g i).parts.map (fun st => (st, a st))) =
      { st := (paidEnv s g i).s.drawn
        writes := resultsFor (paidEnv s g i) d (bytesOpw n) (fun st => (paidEnv s g i).spadRead n sgn (a st))
          (fun st => ((paidEnv s g i).spadBytes (spadPa g.cluster (a st)) n).2) } := by
  obtain ⟨h1, h2, _⟩ := filter_near (e := paidEnv s g i) (l := (paidEnv s g i).parts.map (fun st => (st, a st))) Prod.snd rfl (fun p hp => by
    obtain ⟨st, hst, rfl⟩ := List.mem_map.1 hp
    exact h st (mem_simtEnv_parts hst))
  unfold Env.spadLoads
  dsimp only
  rw [h1, h2, countConflicts_calm hq, List.map_map]
  rfl

/-- A load at the own core: the results, and no byte changes. -/
theorem run_load_near {m : Sem} {sp : Spec} {Y : State} {y : Gang} {d : Reg} {n : Nat} {sgn : Bool} {a : Nat → Nat} {q : Nat → Bool} (hi : Issues s g i) (hs : i.seals = false)
    (ha : Acts s Y g y (g.respec sp) i) (hct : m.ct (simtEnv s g i) = 0) (hf : Y.flights = s.flights) (hb : s.sameBytes Y)
    (hop : m.op (paidEnv s g i) = .ok { st := Y, writes := resultsFor (paidEnv s g i) d (bytesOpw n) (fun st => (paidEnv s g i).spadRead n sgn (a st)) q }) :
    ∃ t g', run i m s = .next t ∧ t.gang? g.uid = some g' ∧ g'.pc = g.pc + 8 ∧ Leaves (g.respec sp) g' i 0 ∧ WroteOnly g g' i d (bytesOpw n) ∧
      g'.ctl.fx = g.ctl.fx ∧ s.sameBytes t ∧ t.flights = s.flights ∧ gets g g' i d (bytesOpw n) (fun st => spadValue s g n sgn (spadPa g.cluster (a st))) := by
  obtain ⟨t, g', h1, h2, h3, h4, h5, h6, h7, h8, h9⟩ := run_results hi hs ha hct hop hf
  simp only [spadRead_paid] at h7
  exact ⟨t, g', h1, h2, h3, h4, h5, h6, State.sameBytes_trans hb h8, h9, h7⟩

theorem sameBytes_drawn (s : State) : s.sameBytes s.drawn := State.sameBytes_of rfl rfl rfl rfl rfl (fun _ => rfl)

theorem run_lds_near {h : Hd} {x : MF} (hpo : g.regs.poison = []) (hq : s.calmFor g = true) (hi : Issues s g (.lds h x)) (he : ∃ st, g.executes (.lds h x) st = true) :
    let n := mBytes x
    let e := simtEnv s g (.lds h x)
    let a (st : Nat) : Int := e.spAddr x st
    e.spadCheck n (e.parts.map (fun st => (st, a st))) = none → (∀ st, g.executes (.lds h x) st = true → eaCore (a st).toNat = g.core) →
    ∃ t g', exec (.lds h x) s = .next t ∧ t.gang? g.uid = some g' ∧ g'.pc = g.pc + 8 ∧ Leaves g g' (.lds h x) 0 ∧
      WroteOnly g g' (.lds h x) x.d (bytesOpw n) ∧ g'.ctl.fx = g.ctl.fx ∧ s.sameBytes t ∧ t.flights = s.flights ∧
      gets g g' (.lds h x) x.d (bytesOpw n) (fun st => spadValue s g n x.sgn (spadPa g.cluster (a st).toNat)) := by
  intro n e a hc hnear
  have hop := semLds_op (h := h) (x := x) (e := paidEnv s g (.lds h x)) rfl (simtEnv_parts_ne he _ _) hpo ((spadCheck_charged ..).trans hc)
  have hl := spadLoads_near (i := .lds h x) hq x.d n x.sgn (qOf x) ((paidEnv s g (.lds h x)).postOf x) hnear
  exact run_load_near (m := semLds h x) (sp := g.spec) hi rfl (Acts.start hi hq).drawn rfl rfl
    (State.sameBytes_trans (simtEnv_bytes s _ (.lds h x)) (sameBytes_drawn _)) (hop.trans (congrArg Res.ok hl))

end

/-! ## What stores leave -/

theorem leBytes_getD (n v k : Nat) (h : k < n) : (leBytes n v).getD k 0 = BitVec.ofNat 8 (v / 2 ^ (8 * k)) := by
  induction n generalizing v k with
  | zero => omega
  | succ n ih =>
    cases k with
    | zero => simp [leBytes]
    | succ k =>
      have h8 : 8 * (k + 1) = 8 + 8 * k := by omega
      rw [leBytes, List.getD_cons_succ, ih _ _ (by omega), Nat.div_div_eq_div_mul, h8, Nat.pow_add]

/-- What of a state scratchpad stores leave: new writes wait, and nothing else that a byte depends on has changed. -/
structure State.Stored (s t : State) (ws : List PathWrite) : Prop where
  paths   : t.paths = s.paths ++ ws
  slices  : t.slices = s.slices
  dev     : t.dev = s.dev
  dram    : t.dram = s.dram
  dpoison : t.dpoison = s.dpoison
  shares  : ∀ c, (t.core c).shares = (s.core c).shares

theorem State.Stored.refl (s : State) : s.Stored s [] := ⟨(List.append_nil _).symm, rfl, rfl, rfl, rfl, fun _ => rfl⟩

theorem State.Stored.trans {s t u : State} {v w : List PathWrite} (h : s.Stored t v) (k : t.Stored u w) : s.Stored u (v ++ w) :=
  ⟨k.paths.trans ((congrArg (· ++ w) h.paths).trans (List.append_assoc ..)), k.slices.trans h.slices, k.dev.trans h.dev, k.dram.trans h.dram,
    k.dpoison.trans h.dpoison, fun c => (k.shares c).trans (h.shares c)⟩

/-- The write of a store at its address, as its path has it. -/
def vecWrite (pa : Nat) (bs : List Byte) : PathWrite := { path := .vec, cmd := 0, pa := pa, data := bs, poison := false }

theorem State.shares_modCore (s : State) {F : Core → Core} (k c : Nat) (h : ∀ x, (F x).shares = x.shares) : ((s.modCore k F).core c).shares = (s.core c).shares := by
  by_cases hk : k = c
  · rw [← hk, State.core_modCore_same, h]
  · rw [State.core_modCore_ne _ _ hk]

/-- A state in which one more write waits for the banks. -/
def State.waiting (s : State) (w : PathWrite) : State := { s with paths := s.paths ++ [w], draw := s.draw + 1 }

/-- What a scratchpad store changes: at the core, marks of what matrix entries and loads may see; and its write waits. -/
theorem State.spadStore_eq (s : State) (u : Option Nat) (pa : Nat) (bs : List Byte) : ∃ F : Core → Core, (∀ c, (F c).shares = c.shares) ∧
    s.spadStore u pa bs = (s.modCore (spadLoc pa).1 F).waiting (vecWrite pa bs) := by
  refine ⟨_, ?_, rfl⟩
  exact fun _ => rfl

theorem State.stored_spadStore (s : State) (u : Option Nat) (pa : Nat) (bs : List Byte) : s.Stored (s.spadStore u pa bs) [vecWrite pa bs] := by
  obtain ⟨F, hF, h⟩ := s.spadStore_eq u pa bs
  rw [h]
  exact ⟨rfl, rfl, rfl, rfl, rfl, fun c => State.shares_modCore s _ c hF⟩

theorem State.stored_foldl {α : Type} (u : Option Nat) (pa : α → Nat) (bs : α → List Byte) (l : List α) (s : State) :
    s.Stored (l.foldl (fun st a => st.spadStore u (pa a) (bs a)) s) (l.map (fun a => vecWrite (pa a) (bs a))) := by
  induction l generalizing s with
  | nil => exact .refl s
  | cons a l ih => exact (s.stored_spadStore u (pa a) (bs a)).trans (ih _)

section
variable {s t : State} {ws : List PathWrite}

theorem State.Stored.spadByte (h : s.Stored t ws) (p : Path) (x : Nat) : t.spadByte p x = ws.foldl (PathWrite.overSpad p x) (s.spadByte p x) := by
  have hb : t.bankByte x = s.bankByte x := by
    unfold State.bankByte
    simp only [h.shares]
  rw [State.spadByte_eq, State.spadByte_eq, h.paths, List.foldl_append, hb]

/-- Writes that wait for scratchpad are none of main memory's. -/
theorem State.Stored.sameMain (h : s.Stored t ws) (hw : ∀ w ∈ ws, 2 ^ 40 ≤ w.pa) : s.sameMain t := by
  obtain ⟨h1, h2⟩ : s.sameMain { t with paths := s.paths } := State.sameMain_of rfl h.slices h.dev h.dram h.dpoison
  refine ⟨h1, fun p pa hd hb => (?_ : t.pathByte p pa = _).trans (h2 p pa hd hb)⟩
  rw [State.pathByte_eq, h.paths, List.foldl_append]
  refine foldl_id _ _ _ (fun w hm => ?_)
  unfold PathWrite.over
  have := hw w hm
  have hd' : pa < 2 ^ 40 := of_decide_eq_true hd
  rw [if_neg]
  simp only [Bool.and_eq_true, decide_eq_true_eq, not_and, not_lt]
  omega

end

theorem foldl_overSpad_out (p : Path) (x : Nat) (b : Byte × Bool) (l : List PathWrite) (h : ∀ w ∈ l, x < w.pa ∨ w.pa + w.data.length ≤ x) :
    l.foldl (PathWrite.overSpad p x) b = b := foldl_id _ _ _ (fun w hw => PathWrite.overSpad_out p b (h w hw))

/-- The strands in question, in rising order. -/
theorem range_split {who : Nat → Bool} {st : Nat} (hst : st < 32) (hw : who st = true) :
    ∃ l1 l2, (List.range 32).filter who = l1 ++ st :: l2 ∧ ∀ x ∈ l2, st < x ∧ who x = true := by
  obtain ⟨l1, l2, h⟩ := List.append_of_mem (List.mem_filter.2 ⟨List.mem_range.2 hst, hw⟩ : st ∈ (List.range 32).filter who)
  have hp : ((List.range 32).filter who).Pairwise (· < ·) := List.Pairwise.filter _ List.pairwise_lt_range
  rw [h] at hp
  have hx := (List.pairwise_cons.1 (List.pairwise_append.1 hp).2.1).1
  refine ⟨l1, l2, h, fun x hm => ⟨hx x hm, ?_⟩⟩
  exact (List.mem_filter.1 (h ▸ List.mem_append_right _ (List.mem_cons_of_mem _ hm) : x ∈ (List.range 32).filter who)).2

/-- Stores of the strands of a gang, one after another. -/
theorem State.Stored.storedOnly {s t : State} {who : Nat → Bool} {addr : Nat → Nat} {n : Nat} {data : Nat → BitVec 128} (hwho : ∀ st, who st = true → st < 32)
    (h : s.Stored t (((List.range 32).filter who).map (fun st => vecWrite (addr st) (leBytes n (data st).toNat)))) (ha : ∀ st, who st = true → 2 ^ 40 ≤ addr st) :
    storedOnly s t who addr n data := by
  have hlen (st : Nat) : (vecWrite (addr st) (leBytes n (data st).toNat)).data.length = n := leBytes_length ..
  refine ⟨h.sameMain (fun w hw => ?_), fun p pa _ hout => ?_, fun st k hst hk hlater => ?_⟩
  · obtain ⟨st, hm, rfl⟩ := List.mem_map.1 hw
    exact ha st (List.mem_filter.1 hm).2
  · rw [h.spadByte]
    refine foldl_overSpad_out _ _ _ _ (fun w hw => ?_)
    obtain ⟨st, hm, rfl⟩ := List.mem_map.1 hw
    rw [hlen]
    exact hout st (List.mem_filter.1 hm).2
  · obtain ⟨l1, l2, hl, hx⟩ := range_split (hwho st hst) hst
    rw [h.spadByte, hl, List.map_append, List.foldl_append, List.map_cons, List.foldl_cons, foldl_overSpad_out]
    · rw [PathWrite.overSpad_in (p := .vec) (x := addr st + k) (w := vecWrite (addr st) (leBytes n (data st).toNat)) _ rfl (Nat.le_add_right ..) (by rw [hlen]; exact Nat.add_lt_add_left hk _)]
      exact (congrArg (fun j => (leBytes n (data st).toNat).getD j 0) (Nat.add_sub_cancel_left ..)).trans (leBytes_getD _ _ _ hk)
    · intro w hw
      obtain ⟨st', hm, rfl⟩ := List.mem_map.1 hw
      rw [hlen]
      obtain ⟨h1, h2⟩ := hx st' hm
      exact hlater st' h1 h2

/-- What has been stored stays as it is where no byte changes, at addresses of scratchpad. -/
theorem storedOnly.sameBytes {s t u : State} {who : Nat → Bool} {addr : Nat → Nat} {n : Nat} {data : Nat → BitVec 128} (h : storedOnly s t who addr n data) (hu : t.sameBytes u)
    (ha : ∀ st, who st = true → 2 ^ 48 ≤ addr st ∧ addr st + n ≤ 2 ^ 48 + 2 ^ 29) : storedOnly s u who addr n data := by
  obtain ⟨h1, h2, h3⟩ := h
  refine ⟨State.sameMain_trans h1 hu.1, fun p pa hp hout => (hu.2 p pa hp).trans (h2 p pa hp hout), fun st k hst hk hl => ?_⟩
  obtain ⟨hlo, hhi⟩ := ha st hst
  rw [hu.2 .vec (addr st + k) (by simp only [isSpad, Bool.and_eq_true, decide_eq_true_eq]; omega)]
  exact h3 st k hst hk hl

section
variable {s : State} {g : Gang} {i : Instr}

theorem Acts.spadStore {Y : State} {y g0 : Gang} (h : Acts s Y g y g0 i) (u : Option Nat) (pa : Nat) (bs : List Byte) : Acts s (Y.spadStore u pa bs) g y g0 i := by
  obtain ⟨F, _, hs⟩ := Y.spadStore_eq u pa bs
  rw [hs]
  exact ⟨State.calmFor_modCore (c := (spadLoc pa).1) F h.calm, h.late, h.gang, h.pass, h.unsealed⟩

theorem Acts.spadStores {α : Type} {y g0 : Gang} (u : Option Nat) (pa : α → Nat) (bs : α → List Byte) (l : List α) {Y : State} (h : Acts s Y g y g0 i) :
    Acts s (l.foldl (fun st a => st.spadStore u (pa a) (bs a)) Y) g y g0 i :=
  foldl_inv (fun Z => Acts s Z g y g0 i) _ (fun _ _ hz => hz.spadStore _ _ _) l Y h

theorem spadStores_flights {α : Type} (u : Option Nat) (pa : α → Nat) (bs : α → List Byte) (l : List α) (Y : State) :
    (l.foldl (fun st a => st.spadStore u (pa a) (bs a)) Y).flights = Y.flights := foldl_keep State.flights (fun st a => st.spadStore u (pa a) (bs a)) (fun _ _ => rfl) l Y

/-- The state after the stores of the executing strands. -/
def State.strandStores (e : Env) (n : Nat) (a : Nat → Nat) (data : Nat → BitVec 128) : State :=
  e.parts.foldl (fun st k => st.spadStore (some e.g.uid) (spadPa e.g.cluster (a k)) (leBytes n (data k).toNat)) e.s

/-- A store at the own core, whose strands write at addresses a. -/
theorem spadStores_near (hq : s.calmFor g = true) (n : Nat) (queue : Option Nat) (post : FlagRef) {a : Nat → Nat} (data : Nat → BitVec 128)
    (h : ∀ st, g.executes i st = true → eaCore (a st) = g.core) :
    (paidEnv s g i).spadStores n queue post ((paidEnv s g i).parts.map (fun st => (st, a st, data st))) =
      { st := State.strandStores (paidEnv s g i) n a data } := by
  obtain ⟨h1, _, h3⟩ := filter_near (e := paidEnv s g i) (l := (paidEnv s g i).parts.map (fun st => (st, a st, data st))) (fun p => p.2.1) rfl (fun p hp => by
    obtain ⟨st, hst, rfl⟩ := List.mem_map.1 hp
    exact h st (mem_simtEnv_parts hst))
  unfold Env.spadStores
  dsimp only
  rw [h1, h3, countConflicts_calm hq, List.foldl_map]
  rfl

theorem spadPa_range {c ea n : Nat} (hc : c < 8) (h : ea + n ≤ 2 ^ 26) : 2 ^ 48 ≤ spadPa c ea ∧ spadPa c ea + n ≤ 2 ^ 48 + 2 ^ 29 := by
  unfold spadPa
  omega

/-- A store at the own core: the bytes, and nothing else. -/
theorem run_store_near {m : Sem} {sp : Spec} {Y : State} {y : Gang} {n : Nat} {a : Nat → Nat} {data : Nat → BitVec 128} (hi : Issues s g i) (hs : i.seals = false)
    (ha : Acts s Y g y (g.respec sp) i) (hct : m.ct (simtEnv s g i) = 0) (hY : Y.flights = (State.strandStores (paidEnv s g i) n a data).flights)
    (hb : (State.strandStores (paidEnv s g i) n a data).sameBytes Y) (hop : m.op (paidEnv s g i) = .ok { st := Y }) (hc : g.cluster < 8)
    (hfit : ∀ st, g.executes i st = true → a st + n ≤ 2 ^ 26) :
    ∃ t g', run i m s = .next t ∧ t.gang? g.uid = some g' ∧ g'.pc = g.pc + 8 ∧ Leaves (g.respec sp) g' i 0 ∧ keepsRegs g g' ∧ t.flights = s.flights ∧
      storedOnly s t (g.executes i) (fun st => spadPa g.cluster (a st)) n data := by
  obtain ⟨g', h1, h2, h3, h4, h5⟩ := run_acts_keeps hi hs ha hct hop
  have hfl : Y.flights = s.flights := hY.trans (spadStores_flights ..)
  have hst : (paidEnv s g i).s.Stored (State.strandStores (paidEnv s g i) n a data) _ := State.stored_foldl _ _ _ _ _
  have hin : s.Stored (State.strandStores (paidEnv s g i) n a data) _ := (⟨(List.append_nil _).symm, rfl, rfl, rfl, rfl, fun _ => rfl⟩ : s.Stored (paidEnv s g i).s []).trans hst
  rw [show (paidEnv s g i).parts = _ from simtEnv_parts ..] at hin
  refine ⟨_, g', h1, h2, h3, h4, h5, (State.issued_same_flights (fun x hx => (hfl ▸ hx : x ∈ s.flights))).trans hfl, ?_⟩
  exact (hin.storedOnly (fun st he => Gang.executes_lt he) (fun st _ => by show 2 ^ 40 ≤ 2 ^ 48 + g.cluster * 2 ^ 26 + a st; omega)).sameBytes
    (State.sameBytes_trans hb (State.issued_bytes ..)) (fun st he => spadPa_range hc (hfit st he))

theorem mBytes_dvd (x : MF) : mBytes x ∣ 2 ^ 26 := Nat.pow_dvd_pow 2 (by have := x.width.isLt; omega)

/-- Addresses that pass the checks lie in a cluster's scratchpad with all their bytes. -/
theorem spadCheck_fits {e : Env} {n : Nat} (hd : n ∣ 2 ^ 26) {ps : List (Nat × Int)} (h : e.spadCheck n ps = none) {p : Nat × Int} (hp : p ∈ ps) : p.2.toNat + n ≤ 2 ^ 26 := by
  unfold Env.spadCheck at h
  dsimp only at h
  split at h
  · cases h
  · next h1 =>
    split at h
    · cases h
    · next h2 =>
      have hr := List.find?_eq_none.1 h1 p hp
      have ha := List.find?_eq_none.1 h2 p hp
      simp only [Bool.or_eq_true, decide_eq_true_eq, not_or, not_lt, not_le, bne_iff_ne, not_not] at hr ha
      have hlt : p.2.toNat < 2 ^ 26 := by omega
      obtain ⟨j, hj⟩ := hd
      obtain ⟨k, hk⟩ := Nat.dvd_of_mod_eq_zero ha
      rw [hk, hj] at hlt ⊢
      calc n * k + n = n * (k + 1) := (Nat.mul_succ ..).symm
        _ ≤ n * j := Nat.mul_le_mul_left _ (Nat.lt_of_mul_lt_mul_left hlt)

theorem mem_paid_parts {st : Nat} (h : g.executes i st = true) (ci ct : Nat) : st ∈ (simtEnv s (g.charge ci ct) i).parts := by
  rw [simtEnv_parts]
  exact List.mem_filter.2 ⟨List.mem_range.2 (Gang.executes_lt h), h⟩

theorem run_sts_near {h : Hd} {x : MF} (hpo : g.regs.poison = []) (hq : s.calmFor g = true) (hcl : g.cluster < 8) (hi : Issues s g (.sts h x))
    (he : ∃ st, g.executes (.sts h x) st = true) :
    let n := mBytes x
    let e := simtEnv s g (.sts h x)
    let a (st : Nat) : Int := e.spAddr x st
    e.spadCheck n (e.parts.map (fun st => (st, a st))) = none → (∀ st, g.executes (.sts h x) st = true → eaCore (a st).toNat = g.core) →
    ∃ t g', exec (.sts h x) s = .next t ∧ t.gang? g.uid = some g' ∧ g'.pc = g.pc + 8 ∧ Leaves g g' (.sts h x) 0 ∧ keepsRegs g g' ∧ t.flights = s.flights ∧
      storedOnly s t (g.executes (.sts h x)) (fun st => spadPa g.cluster (a st).toNat) n (fun st => e.data x.d n st) := by
  intro n e a hc hnear
  have hop := semSts_op (h := h) (x := x) (e := paidEnv s g (.sts h x)) rfl (simtEnv_parts_ne he _ _) hpo ((spadCheck_charged ..).trans hc)
  have hl := spadStores_near (i := .sts h x) hq n (qOf x) ((paidEnv s g (.sts h x)).postOf x) (fun st => e.data x.d n st) hnear
  exact run_store_near (m := semSts h x) (sp := g.spec) hi rfl (Acts.spadStores _ _ _ _ (Acts.start hi hq)) rfl rfl
    (State.sameBytes_of rfl rfl rfl rfl rfl (fun _ => rfl)) (hop.trans (congrArg Res.ok hl)) hcl (fun st hst => spadCheck_fits (mBytes_dvd x) hc (p := (st, a st))
      (List.mem_map_of_mem (f := fun st => (st, a st)) (mem_paid_parts (s := s) hst 0 0)))

end

/-- Settles O20: accesses at the own core act at issue. -/
theorem scratchpadAccess : Obligations.ScratchpadAccess :=
  fun _ _ _ _ hpo hq hc => ⟨fun hi he => run_lds_near hpo hq hi he, fun hi he => run_sts_near hpo hq hc hi he⟩

/-! ## Handles of the own core (R91, R235) -/

section
variable {s : State} {g : Gang} {h : Hd} {x : MF}

theorem handleSem_near_op {write : Bool} {near : Env → List (Nat × Nat) → Eff} {away : Env → List (Nat × Nat) → State} {e : Env} {hd : Handle} {ps : List (Nat × Nat)}
    (hde : e.decoupled = false) (hp : e.parts ≠ []) (hpo : e.g.regs.poison = []) (hpend : (e.g.h x.base.toNat).pending = false)
    (hc : e.handleCheck x write = .go hd ps) (hon : hd.oncore = true) : (handleSem x write near away).op e = .ok (near e ps) := by
  unfold handleSem
  dsimp only
  rw [hde, Bool.false_and, if_neg Bool.false_ne_true, hpend, if_neg Bool.false_ne_true, if_neg (by simpa using hp), Env.unpoisoned hpo, if_neg Bool.false_ne_true, hc]
  dsimp only
  rw [hon]
  rfl

/-- Where an access through an on-core handle goes: the page and the displacement, from the start of the cluster's scratchpad. -/
def handleEa (s : State) (g : Gang) (i : Instr) (x : MF) (st : Nat) : Nat :=
  ((g.h x.base.toNat).page + (simtEnv s g i).disp x st).toNat - 2 ^ 48 - g.cluster * 2 ^ 26

theorem handleCheck_near {write : Bool} {e : Env} {ps : List (Nat × Nat)} {hd : Handle} (hon : (e.g.h x.base.toNat).oncore = true) (hc : e.handleCheck x write = .go hd ps) :
    ps = e.parts.map (fun st => (st, ((e.g.h x.base.toNat).page + e.disp x st).toNat - 2 ^ 48 - e.g.cluster * 2 ^ 26)) := by
  unfold Env.handleCheck at hc
  dsimp only at hc
  split at hc
  · cases hc
  · split at hc
    · cases hc
    · injection hc with _ h2
      rw [← h2, List.map_map]
      rfl

theorem handleCt_near {e : Env} (hon : (e.g.h x.base.toNat).oncore = true) : handleCt x e = 0 := by
  unfold handleCt
  dsimp only
  rw [hon]
  rfl

theorem run_ldh_near {ps : List (Nat × Nat)} (hpo : g.regs.poison = []) (hq : s.calmFor g = true) (hpend : (g.h x.base.toNat).pending = false)
    (hon : (g.h x.base.toNat).oncore = true) (hi : Issues s g (.ldh h x)) (he : ∃ st, g.executes (.ldh h x) st = true)
    (hc : (simtEnv s g (.ldh h x)).handleCheck x false = .go (g.h x.base.toNat) ps)
    (hnear : ∀ st, g.executes (.ldh h x) st = true → eaCore (handleEa s g (.ldh h x) x st) = g.core) :
    ∃ t g', exec (.ldh h x) s = .next t ∧ t.gang? g.uid = some g' ∧ g'.pc = g.pc + 8 ∧ Leaves g g' (.ldh h x) 0 ∧ WroteOnly g g' (.ldh h x) x.d (bytesOpw (mBytes x)) ∧
      s.sameBytes t ∧ gets g g' (.ldh h x) x.d (bytesOpw (mBytes x)) (fun st => spadValue s g (mBytes x) x.sgn (spadPa g.cluster (handleEa s g (.ldh h x) x st))) := by
  have hc1 : (paidEnv s g (.ldh h x)).handleCheck x false = _ := (handleCheck_charged ..).trans hc
  have hop : (semLdh h x).op (paidEnv s g (.ldh h x)) = _ := handleSem_near_op rfl (simtEnv_parts_ne he _ _) hpo hpend hc1 hon
  rw [handleCheck_near hon hc1] at hop
  have hl := spadLoads_near (i := .ldh h x) hq x.d (mBytes x) x.sgn (qOf x) ((paidEnv s g (.ldh h x)).postOf x) hnear
  obtain ⟨t, g', h1, h2, h3, h4, h5, _, h7, _, h9⟩ := run_load_near (m := semLdh h x) (sp := g.spec) hi rfl (Acts.start hi hq).drawn (handleCt_near hon) rfl
    (State.sameBytes_trans (simtEnv_bytes s _ (.ldh h x)) (sameBytes_drawn _)) (hop.trans (congrArg Res.ok hl))
  exact ⟨t, g', h1, h2, h3, h4, h5, h7, h9⟩

theorem run_sth_near {ps : List (Nat × Nat)} (hpo : g.regs.poison = []) (hq : s.calmFor g = true) (hcl : g.cluster < 8) (hpend : (g.h x.base.toNat).pending = false)
    (hon : (g.h x.base.toNat).oncore = true) (hi : Issues s g (.sth h x)) (he : ∃ st, g.executes (.sth h x) st = true)
    (hc : (simtEnv s g (.sth h x)).handleCheck x true = .go (g.h x.base.toNat) ps)
    (hnear : ∀ st, g.executes (.sth h x) st = true → eaCore (handleEa s g (.sth h x) x st) = g.core ∧ handleEa s g (.sth h x) x st + mBytes x ≤ 2 ^ 26) :
    ∃ t g', exec (.sth h x) s = .next t ∧ t.gang? g.uid = some g' ∧ g'.pc = g.pc + 8 ∧ Leaves g g' (.sth h x) 0 ∧ keepsRegs g g' ∧
      storedOnly s t (g.executes (.sth h x)) (fun st => spadPa g.cluster (handleEa s g (.sth h x) x st)) (mBytes x) (fun st => (simtEnv s g (.sth h x)).data x.d (mBytes x) st) := by
  have hc1 : (paidEnv s g (.sth h x)).handleCheck x true = _ := (handleCheck_charged ..).trans hc
  have hop : (semSth h x).op (paidEnv s g (.sth h x)) = _ := handleSem_near_op rfl (simtEnv_parts_ne he _ _) hpo hpend hc1 hon
  rw [handleCheck_near hon hc1, List.map_map] at hop
  have hl := spadStores_near (i := .sth h x) hq (mBytes x) (qOf x) ((paidEnv s g (.sth h x)).postOf x) (fun st => (simtEnv s g (.sth h x)).data x.d (mBytes x) st)
    (fun st hst => (hnear st hst).1)
  obtain ⟨t, g', h1, h2, h3, h4, h5, _, h7⟩ := run_store_near (m := semSth h x) (sp := g.spec) hi rfl (Acts.spadStores _ _ _ _ (Acts.start hi hq)) (handleCt_near hon) rfl
    (State.sameBytes_of rfl rfl rfl rfl rfl (fun _ => rfl)) (hop.trans (congrArg Res.ok hl)) hcl (fun st hst => (hnear st hst).2)
  exact ⟨t, g', h1, h2, h3, h4, h5, h7⟩

end

/-- Settles O22: accesses through an on-core handle act at issue, at its page and the displacement. -/
theorem handleNear : Obligations.HandleNear :=
  fun _ _ _ _ _ hpo hq hcl hpend hon => ⟨fun hi he hc hnear => run_ldh_near hpo hq hpend hon hi he hc hnear,
    fun hi he hc hnear => run_sth_near hpo hq hcl hpend hon hi he hc hnear⟩

end Sys2Proof.Machine
end

section
/-! PROOFS. LDT and STT (R95, R96, R98, R236): a ready tile is read and a tile that the gang fills is written, at displacements that lie within it. -/

namespace Sys2Proof.Machine

/-- The bytes of a tile that an access may touch: of a ready tile those that have been filled. -/
def Tile.limit (write : Bool) (t : Tile) : Nat := if !write && decide (t.len > 0) then t.len else t.bytes

/-- The state in which a tile is read, or written by the gang that fills it. -/
def Tile.accessible (write : Bool) (t : Tile) : Bool := if write then t.state == 1 && t.filler == 1 else t.state == 2

/-- A displacement at which n bytes lie within a tile. -/
def Tile.holds (write : Bool) (n : Nat) (t : Tile) (off : Int) : Prop := 0 ≤ off ∧ off + n ≤ (t.limit write : Nat) ∧ (t.base * 128 + off.toNat) % n = 0

/-- An effect that also tells its gang of the tile's state. -/
def Eff.telling (u : Nat) (v : Word64) (f : Eff) : Eff := { f with st := f.st.setTstat u v }

theorem tileSem_op {x : MF} {write : Bool} {act : Env → List (Nat × Nat) → Eff} {e : Env} {t : Tile} {f : Eff} (ht : e.tileAt (e.tileIx x.base) = t)
    (hp : e.parts ≠ []) (hpo : e.g.regs.poison = []) (hd : t.defd = true) (hn : e.tileNamed x.base = true) (ha : t.accessible write = true)
    (ho : ∀ st ∈ e.parts, t.holds write (mBytes x) (e.disp x st))
    (hact : act e (e.parts.map (fun st => (st, tileEa e.g.core (e.tileIx x.base) (e.disp x st).toNat t))) = f) :
    (tileSem x write act).op e = .ok (f.telling e.g.uid (e.tstat (e.tileIx x.base))) := by
  have hthere : (if write then t.state == 1 && t.filler == 1 else t.state == 2) = true := ha
  have hfill : (write && t.state == 1 && t.filler == 0) = false := by
    cases write with
    | false => rfl
    | true =>
      have := (Bool.and_eq_true _ _ ▸ ha : (t.state == 1) = true ∧ (t.filler == 1) = true).2
      rw [beq_iff_eq.1 this]
      simp
  have hlim : (if (!write && true && decide (t.len > 0)) = true then t.len else t.bytes) = t.limit write := by
    rw [Bool.and_true]
    rfl
  unfold tileSem
  dsimp only
  rw [ht, hthere, hn, hfill, hd, hlim, if_neg (by simpa using hp), Env.unpoisoned hpo, if_neg Bool.false_ne_true, if_neg (by decide), if_neg (by decide),
    List.find?_eq_none.2 (fun p hm => ?_)]
  dsimp only
  rw [List.find?_eq_none.2 (fun p hm => ?_)]
  dsimp only
  rw [if_neg (by decide), List.map_map]
  · rw [← hact]
    rfl
  · obtain ⟨st, hst, rfl⟩ := List.mem_map.1 hm
    obtain ⟨_, _, h3⟩ := ho st hst
    simp [h3]
  · obtain ⟨st, hst, rfl⟩ := List.mem_map.1 hm
    obtain ⟨h1, h2, _⟩ := ho st hst
    simp only [Bool.or_eq_true, decide_eq_true_eq, not_or, not_lt]
    exact ⟨h1, h2⟩

section
variable {s : State} {g : Gang} {i : Instr}

/-- An entry number is below 256. -/
theorem tileIx_lt {e : Env} (f : Reg) (h : e.g.slot < 16) : e.tileIx f < 256 := by
  unfold Env.tileIx
  have := f.isLt
  split <;> omega

/-- A byte of a tile lies in the share of its entry's slot, at the gang's own core. -/
theorem tileEa_near {core k off : Nat} {t : Tile} (hcore : core < 32) (hk : k < 256) (ho : t.base * 128 + off < 2 ^ 17) :
    eaCore (tileEa core k off t) = core ∧ tileEa core k off t < core * 2 ^ 21 + k / 16 * 2 ^ 17 + 2 ^ 17 := by
  unfold eaCore tileEa field
  omega

theorem tileEa_fits {write : Bool} {n core k : Nat} {t : Tile} {off : Int} (hcore : core < 32) (hk : k < 256) (hn : 0 < n) (hl : t.len ≤ t.bytes ∨ write = true)
    (ht : (t.base + t.size + 1) * 128 ≤ 2 ^ 17) (h : t.holds write n off) :
    eaCore (tileEa core k off.toNat t) = core ∧ tileEa core k off.toNat t + n ≤ 2 ^ 26 := by
  obtain ⟨h1, h2, _⟩ := h
  have hlim : t.limit write ≤ t.bytes := by
    unfold Tile.limit
    split
    · next hc =>
      refine hl.resolve_right (fun hw => ?_)
      rw [hw] at hc
      exact Bool.false_ne_true hc
    · exact Nat.le_refl _
  have hb : t.bytes = (t.size + 1) * 128 := rfl
  have ho : t.base * 128 + off.toNat + n ≤ 2 ^ 17 := by omega
  have hr : k / 16 ≤ 15 := by omega
  refine ⟨(tileEa_near hcore hk (by omega)).1, ?_⟩
  unfold tileEa
  omega

/-- What tstat takes. -/
def Spec.told (v : Word64) (sp : Spec) : Spec := { sp with tstat := v }

/-- A gang whose tstat has been told. -/
def Gang.tileTold (v : Word64) (g : Gang) : Gang := g.respec (g.spec.told v)

theorem Acts.setTstat {Y : State} {y : Gang} (h : Acts s Y g y g i) (v : Word64) : Acts s (Y.setTstat g.uid v) g (y.tileTold v) (g.tileTold v) i :=
  h.modGang (F := Gang.tileTold v) (g1 := g.tileTold v) (fun _ => rfl) (fun _ => rfl) (fun _ => ⟨rfl, rfl, rfl⟩) (congrArg (Gang.tileTold v) h.pass) h.unsealed

end

section
variable {s : State} {g : Gang} {h : Hd} {x : MF}

/-- Where the bytes of a tile's displacement lie. -/
def tilePa (s : State) (g : Gang) (i : Instr) (x : MF) (st : Nat) : Nat :=
  tileEa g.core ((simtEnv s g i).tileIx x.base) ((simtEnv s g i).disp x st).toNat (s.tile g.gcore ((simtEnv s g i).tileIx x.base))

theorem mBytes_pos (x : MF) : 0 < mBytes x := Nat.two_pow_pos _

theorem run_ldt (hpo : g.regs.poison = []) (hq : s.calmFor g = true) (hcore : g.core < 32) (hslot : g.slot < 16) (hi : Issues s g (.ldt h x))
    (he : ∃ st, g.executes (.ldt h x) st = true) {k : Nat} {t : Tile} (hk : (simtEnv s g (.ldt h x)).tileIx x.base = k) (ht : s.tile g.gcore k = t)
    (hd : t.defd = true) (hn : (simtEnv s g (.ldt h x)).tileNamed x.base = true) (hst : t.state = 2) (hlen : t.len ≤ t.bytes)
    (hsz : (t.base + t.size + 1) * 128 ≤ 2 ^ 17) (ho : ∀ st, g.executes (.ldt h x) st = true → t.holds false (mBytes x) ((simtEnv s g (.ldt h x)).disp x st)) :
    ∃ u g', exec (.ldt h x) s = .next u ∧ u.gang? g.uid = some g' ∧ g'.pc = g.pc + 8 ∧ Leaves (g.tileTold ((simtEnv s g (.ldt h x)).tstat k)) g' (.ldt h x) 0 ∧
      WroteOnly g g' (.ldt h x) x.d (bytesOpw (mBytes x)) ∧ s.sameBytes u ∧
      gets g g' (.ldt h x) x.d (bytesOpw (mBytes x)) (fun st => spadValue s g (mBytes x) x.sgn (spadPa g.cluster (tilePa s g (.ldt h x) x st))) := by
  subst hk ht
  have hl := spadLoads_near (i := .ldt h x) hq x.d (mBytes x) x.sgn none .none (a := tilePa s g (.ldt h x) x) (fun st hm =>
    (tileEa_fits hcore (tileIx_lt (e := simtEnv s g (.ldt h x)) _ hslot) (mBytes_pos x) (Or.inl hlen) hsz (ho st hm)).1)
  have hop : (semLdt h x).op (paidEnv s g (.ldt h x)) = _ := tileSem_op rfl (simtEnv_parts_ne he _ _) hpo hd hn (beq_iff_eq.2 hst)
    (fun st hm => ho st (mem_simtEnv_parts hm)) hl
  obtain ⟨u, g', h1, h2, h3, h4, h5, _, h7, _, h9⟩ := run_load_near (m := semLdt h x) hi rfl ((Acts.start hi hq).drawn.setTstat _) rfl rfl
    (State.sameBytes_trans (simtEnv_bytes s _ (.ldt h x)) (State.sameBytes_trans (sameBytes_drawn _) (State.sameBytes_modGang ..))) hop
  exact ⟨u, g', h1, h2, h3, h4, h5, h7, h9⟩

theorem run_stt (hpo : g.regs.poison = []) (hq : s.calmFor g = true) (hcl : g.cluster < 8) (hcore : g.core < 32) (hslot : g.slot < 16) (hi : Issues s g (.stt h x))
    (he : ∃ st, g.executes (.stt h x) st = true) {k : Nat} {t : Tile} (hk : (simtEnv s g (.stt h x)).tileIx x.base = k) (ht : s.tile g.gcore k = t)
    (hd : t.defd = true) (hn : (simtEnv s g (.stt h x)).tileNamed x.base = true) (hst : t.accessible true = true)
    (hsz : (t.base + t.size + 1) * 128 ≤ 2 ^ 17) (ho : ∀ st, g.executes (.stt h x) st = true → t.holds true (mBytes x) ((simtEnv s g (.stt h x)).disp x st)) :
    ∃ u g', exec (.stt h x) s = .next u ∧ u.gang? g.uid = some g' ∧ g'.pc = g.pc + 8 ∧ Leaves (g.tileTold ((simtEnv s g (.stt h x)).tstat k)) g' (.stt h x) 0 ∧
      keepsRegs g g' ∧ storedOnly s u (g.executes (.stt h x)) (fun st => spadPa g.cluster (tilePa s g (.stt h x) x st)) (mBytes x)
        (fun st => (simtEnv s g (.stt h x)).data x.d (mBytes x) st) := by
  subst hk ht
  have hfit := fun st hm => tileEa_fits hcore (tileIx_lt (e := simtEnv s g (.stt h x)) x.base hslot) (mBytes_pos x) (Or.inr rfl) hsz (ho st hm)
  have hl := spadStores_near (i := .stt h x) hq (mBytes x) none .none (a := tilePa s g (.stt h x) x) (fun st => (simtEnv s g (.stt h x)).data x.d (mBytes x) st)
    (fun st hm => (hfit st hm).1)
  have hop : (semStt h x).op (paidEnv s g (.stt h x)) = _ := tileSem_op rfl (simtEnv_parts_ne he _ _) hpo hd hn hst (fun st hm => ho st (mem_simtEnv_parts hm))
    ((congrArg (fun l => (paidEnv s g (.stt h x)).spadStores (mBytes x) none .none l) (List.map_map ..)).trans hl)
  obtain ⟨u, g', h1, h2, h3, h4, h5, _, h7⟩ := run_store_near (m := semStt h x) (n := mBytes x) (a := tilePa s g (.stt h x) x)
    (data := fun st => (simtEnv s g (.stt h x)).data x.d (mBytes x) st) hi rfl ((Acts.spadStores _ _ _ _ (Acts.start hi hq)).setTstat _) rfl rfl
    (State.sameBytes_modGang ..) hop hcl (fun st hm => (hfit st hm).2)
  exact ⟨u, g', h1, h2, h3, h4, h5, h7⟩

end

/-- The limit of a ready tile, in the words of the statement. -/
theorem Tile.limit_ready (t : Tile) : t.limit false = if t.len > 0 then t.len else t.bytes := by
  unfold Tile.limit
  by_cases h : t.len > 0 <;> simp [h]

/-- Settles O23: each access is one of the scratchpad at the own core, at the bytes of its tile. -/
theorem tileAccess : Obligations.TileAccess := by
  intro s g h x hpo hq hcl hcore hslot n k ti pa
  refine ⟨fun hi he hd hn hst hlen hsz ho => ?_, fun hi he hd hn hst hf hsz ho => ?_⟩
  · refine run_ldt hpo hq hcore hslot hi he rfl rfl hd hn hst hlen hsz (fun st hm => ?_)
    unfold Tile.holds
    rw [Tile.limit_ready]
    exact ho st hm
  · refine run_stt hpo hq hcl hcore hslot hi he rfl rfl hd hn ?_ hsz ho
    simp only [Tile.accessible, if_true, Bool.and_eq_true, beq_iff_eq]
    exact ⟨hst, hf⟩

end Sys2Proof.Machine
end

section
/-! PROOFS. The tile states (R94 to R98, R114, R127): a write that begins in the bank of a frozen core is not merged with the later ones of its range. -/

namespace Sys2Proof.Machine

/-- A gang that may issue, on core 1. -/
def fillGang : Gang := { loadGang 1 false with core := 1 }

/-- A tile that the gang fills: the first 128 bytes of its slot. -/
def filledTile : Tile := { state := 1, filler := 1, defd := true }

/-- Where the tile begins: the first byte of the core's scratchpad. -/
def fillPa : Nat := 2 ^ 48 + 2 ^ 21

/-- A write to the last byte of core 0 and the first of core 1, and behind it one to the latter alone. -/
def crossWrites : List PathWrite := [{ path := .vec, cmd := 0, pa := fillPa - 1, data := [0, 1] }, { path := .vec, cmd := 0, pa := fillPa, data := [2] }]

/-- A module in which it is that gang's turn, core 0 is frozen, and both writes wait. -/
def fillState : State :=
  { State.reset with next := 2, turn := some 1, gangs := [fillGang], paths := crossWrites, cores := [(0, { freeze := 2 }), (1, { tiles := [(0, filledTile)] })] }

def fillHd : Hd := ⟨false, 15, 0⟩
/-- The operands of a TACQ of entry 0, with the length that register 0 holds. -/
def fillFields : RF := { fn := 1, d := 0, a := 0, b := 0, c := 0, mod := 0 }

/-- The gang issues the TACQ that makes its tile ready. -/
theorem fillGang_issues : Issues fillState fillGang (.tacqPub fillHd fillFields) where
  turn := rfl
  here := rfl
  free := by decide +kernel
  keeps := rfl
  simt := rfl
  legal := by decide +kernel
  clear := by decide +kernel
  back := by decide +kernel
  pays := by decide +kernel
  fresh := rfl
  calm := fun x hx => by obtain rfl := List.mem_singleton.mp hx; decide +kernel

/-- The first byte of the tile as VEC has it, before a step and after it. -/
def firstByte (o : Host.Outcome State Fault Refusal) : Option Byte :=
  match o with
  | .next t => some (t.spadByte .vec fillPa).1
  | _ => none

/-- Before the TACQ, VEC has the later write's byte there. -/
theorem fillState_firstByte : firstByte (.next fillState) = some 2 := by decide +kernel

/-- After it, the later write stands in the bank, and VEC has the byte of the earlier one, which still waits. -/
theorem tacqPub_firstByte : firstByte (exec (.tacqPub fillHd fillFields) fillState) = some 1 := by decide +kernel

/-- Refutes O24: its clause on a tile that becomes ready promises that VEC keeps every byte that only writes of VEC cover, where each of them ends within the
scratchpads. Here the earlier of two such writes begins at the last byte of another core, which is frozen and holds it (R114); the later one is merged, so
that the earlier one, still waiting, now stands over it. -/
theorem not_tileStates : ¬ Obligations.TileStates := by
  intro h
  obtain ⟨-, -, hpub, -⟩ := h fillState fillGang fillHd fillFields rfl (by decide +kernel)
  obtain ⟨t, -, ht, -, -, -, -, hmerged, -⟩ := hpub fillGang_issues ⟨0, by decide +kernel⟩ rfl (by decide +kernel) rfl (by decide) (by decide +kernel) (by decide +kernel)
  have hkeeps := (hmerged.2 (by decide +kernel)).2 fillPa (by decide) (by decide +kernel) (by decide +kernel) (by decide +kernel)
  have hbefore := fillState_firstByte
  have hafter := tacqPub_firstByte
  rw [ht] at hafter
  have heq : some (t.spadByte .vec fillPa).1 = some (fillState.spadByte .vec fillPa).1 := congrArg some hkeeps
  exact absurd (hafter.symm.trans (heq.trans hbefore)) (by decide)

end Sys2Proof.Machine
end

section
/-! PROOFS. ATOMS (R86, R237, R240): at the own core's banks the words change at issue; a request for another core leaves the gang. -/

namespace Sys2Proof.Machine

/-! ## Issues that seal -/

section
variable {s Y : State} {g y g0 : Gang} {i : Instr} {m : Sem} {ws : List RegWrite}

/-- The issue of an effect with results for one field, after which a seal of its gang may be taken at once. -/
theorem run_results_sealing {d : Reg} {w : OpW} (hi : Issues s g i) (ha : Acts s Y g y g i) (ho : Y.onlySeals g) (hm : Y.muslinMode g.ctx = 0)
    (hct : m.ct (simtEnv s g i) = 0) (hop : m.op (paidEnv s g i) = .ok { st := Y, writes := ws }) (hw : DstOnly g i d w ws) :
    ∃ t g', run i m s = .next t ∧ t.gang? g.uid = some g' ∧ g'.pc = g.pc + 8 ∧ Leaves g g' i 0 ∧ WroteOnly g g' i d w ∧ g'.regs = (g.putAll ws).regs ∧ Y.sameBytes t := by
  obtain ⟨t, g', h1, h2, h3, h4, h5, h6, h7, _⟩ := run_leaves (g0 := g) hi hct (Nat.zero_le _) hop ha.late ha.gang ha.pass ha.unsealed
  have hrun := run_ok (m := m) hi (by rw [hct]; exact Nat.zero_le _) (by rw [hct]; exact hop)
  rw [hct] at hrun
  have hseal := State.commit_sealing (s := s) (i := i) (f := { st := Y, writes := ws }) (ci := ciOf i.maj) (ct := 0) ha.calm ho hm ha.late
  rw [← Host.Outcome.next.inj (h1.symm.trans hrun)] at hseal
  exact ⟨t, g', h1, h2, h4, h3, hw.wrote_of h5 h6 h7, h5, State.sameBytes_trans (State.issued_bytes ..) (State.sameBytes_trans (State.sealed_bytes _) hseal.bytes)⟩

end

/-! ## Atomics at a bank -/

theorem State.stored_seenAt (s : State) (pa n : Nat) : s.Stored (s.seenAt pa n) [] :=
  ⟨(List.append_nil _).symm, rfl, rfl, rfl, rfl, fun c => State.shares_modCore s _ c (fun _ => rfl)⟩

/-- What a combined request at a bank leaves: at most one write waits more, of its first part's word. -/
theorem State.stored_bankAtomic (s : State) (u : Option Nat) (fn n : Nat) (p : Part) (ps : List Part) :
    ∃ ws, s.Stored (s.bankAtomic u fn n (p :: ps)).2.2 ws ∧ ∀ w ∈ ws, w.pa = p.pa ∧ w.data.length = n := by
  unfold State.bankAtomic
  dsimp only
  split
  · refine ⟨_, (s.stored_seenAt p.pa n).trans (State.stored_spadStore ..), fun w hw => ?_⟩
    rw [List.nil_append, List.mem_singleton] at hw
    rw [hw]
    exact ⟨rfl, leBytes_length ..⟩
  · exact ⟨[], s.stored_seenAt p.pa n, fun _ hw => absurd hw List.not_mem_nil⟩

/-- One strand's turn in a combined request. -/
def atomStep (fn n : Nat) (acc : Nat × Bool × List (Nat × Nat)) (p : Part) : Nat × Bool × List (Nat × Nat) :=
  match atomNew fn n acc.1 (p.val.toNat % 2 ^ (8 * n)) (p.swap.toNat % 2 ^ (8 * n)) with
  | some v => (v, true, acc.2.2 ++ [(p.strand, acc.1)])
  | none => (acc.1, acc.2.1, acc.2.2 ++ [(p.strand, acc.1)])

theorem atomFold_eq (fn n : Nat) (ps : List Part) (old : Nat) : atomFold fn n ps old = ps.foldl (atomStep fn n) (old, false, []) := rfl

theorem atomStep_results (fn n : Nat) (acc : Nat × Bool × List (Nat × Nat)) (p : Part) : (atomStep fn n acc p).2.2 = acc.2.2 ++ [(p.strand, acc.1)] := by
  unfold atomStep
  split <;> rfl

theorem atomStep_some (fn n : Nat) (acc : Nat × Bool × List (Nat × Nat)) {p : Part} {v : Nat}
    (hv : atomNew fn n acc.1 (p.val.toNat % 2 ^ (8 * n)) (p.swap.toNat % 2 ^ (8 * n)) = some v) : atomStep fn n acc p = (v, true, acc.2.2 ++ [(p.strand, acc.1)]) := by
  unfold atomStep
  rw [hv]

/-- The strands of a combined request take their results in their order. -/
theorem atomFold_strands (fn n : Nat) (ps : List Part) (old : Nat) : (atomFold fn n ps old).2.2.map Prod.fst = ps.map Part.strand := by
  have key : ∀ (l : List Part) (acc : Nat × Bool × List (Nat × Nat)), (l.foldl (atomStep fn n) acc).2.2.map Prod.fst = acc.2.2.map Prod.fst ++ l.map Part.strand := by
    intro l
    induction l with
    | nil => exact fun acc => (List.append_nil _).symm
    | cons p l ih =>
      intro acc
      rw [List.foldl_cons, ih, atomStep_results, List.map_append, List.append_assoc]
      rfl
  exact key ps (old, false, [])

theorem foldl_mem {σ β : Type} (P : σ → Prop) (f : σ → β → σ) (l : List β) (s : σ) (hs : P s) (h : ∀ st, P st → ∀ x ∈ l, P (f st x)) : P (l.foldl f s) := by
  induction l generalizing s with
  | nil => exact hs
  | cons a l ih => exact ih _ (h s hs a (List.mem_cons_self ..)) (fun st hst x hx => h st hst x (List.mem_cons_of_mem _ hx))

section
variable {s : State} {g : Gang} {h : Hd} {x : RF}

/-- The instruction's state and writes after some of its combined requests: what it has changed are words of its strands, and of its registers its
destination's. -/
structure AtomDone (s : State) (g : Gang) (i : Instr) (d : Reg) (w : OpW) (n : Nat) (word : Nat → Prop) (acc : State × List RegWrite) : Prop where
  acts   : Acts s acc.1 g (g.charge (ciOf i.maj) 0) g i
  seals  : acc.1.onlySeals g
  muslin : acc.1.muslinMode g.ctx = 0
  dst    : DstOnly g i d w acc.2
  stored : ∃ ws, s.Stored acc.1 ws ∧ ∀ z ∈ ws, word z.pa ∧ z.data.length = n

/-- What ATOMS makes of the address and operands of a strand. -/
def atomPart (e : Env) (x : RF) (st : Nat) : Part :=
  { strand := st, pa := spadPa e.g.cluster (e.read (spSrc x.a) st).toNat, val := (e.read { f := x.b, w := wAtom x } st).setWidth 128
    swap := if x.fn = 0x10#8 then e.read { f := x.c, w := wAtom x } st else 0 }

theorem atomPart_swap (e : Env) (x : RF) (st m : Nat) :
    (atomPart e x st).swap.toNat % m = if x.fn = 0x10#8 then (e.read { f := x.c, w := wAtom x } st).toNat % m else 0 := by
  unfold atomPart
  split
  · rfl
  · exact Nat.zero_mod m

theorem atomPart_val (e : Env) (x : RF) (st : Nat) : (atomPart e x st).val.toNat = (e.read { f := x.b, w := wAtom x } st).toNat :=
  (BitVec.toNat_setWidth ..).trans (Nat.mod_eq_of_lt ((BitVec.isLt _).trans (by decide)))

/-- One combined request of an instruction at its core's banks, and its results. -/
def atomGroup (e : Env) (x : RF) (acc : State × List RegWrite) (gr : Nat × List Part) : State × List RegWrite :=
  let r := acc.1.bankAtomic (some e.g.uid) x.fn.toNat (atomBytes x) gr.2
  (r.2.2, acc.2 ++ (r.1.map (fun o => (e.dst x.d (wAtom x) o.1 (BitVec.ofNat 128 o.2)).map (fun q => { q with poison := r.2.1 }))).flatten)

/-- ATOMS at the own core, with Muslin off: its combined requests one after another. -/
theorem semAtoms_near (hq : s.calmFor g = true) (hm : s.muslinMode g.ctx = 0) (hpo : g.regs.poison = []) (he : ∃ st, g.executes (.atoms h x) st = true)
    (hc : (paidEnv s g (.atoms h x)).spadCheck (atomBytes x) ((paidEnv s g (.atoms h x)).parts.map (fun st => (st, (((paidEnv s g (.atoms h x)).read (spSrc x.a) st).toNat : Int)))) = none)
    (hnear : ∀ st, g.executes (.atoms h x) st = true → eaCore ((paidEnv s g (.atoms h x)).read (spSrc x.a) st).toNat = g.core)
    {done : State × List RegWrite} (hdone : (groupParts (atomBytes x) ((paidEnv s g (.atoms h x)).parts.map (atomPart (paidEnv s g (.atoms h x)) x)) []).foldl
      (atomGroup (paidEnv s g (.atoms h x)) x) ((paidEnv s g (.atoms h x)).s, []) = done) :
    (semAtoms h x).op (paidEnv s g (.atoms h x)) = .ok { st := done.1, writes := done.2 } := by
  subst hdone
  let e := paidEnv s g (.atoms h x)
  obtain ⟨h1, _, h2⟩ := filter_near (e := e) (l := e.parts.map (fun st => (st, ((e.read (spSrc x.a) st).toNat : Int)))) (fun p => p.2.toNat) rfl (fun p hp => by
    obtain ⟨st, hst, rfl⟩ := List.mem_map.1 hp
    exact hnear st (mem_simtEnv_parts hst))
  have haway : (e.parts.map (fun st => (st, ((e.read (spSrc x.a) st).toNat : Int)))).filter (fun p => eaCore p.2.toNat != e.g.core) = [] := h1
  have hown : (e.parts.map (fun st => (st, ((e.read (spSrc x.a) st).toNat : Int)))).filter (fun p => eaCore p.2.toNat == e.g.core) = _ := h2
  have hmode : e.s.muslinMode e.g.ctx = 0 := hm
  have hp : e.parts ≠ [] := simtEnv_parts_ne he _ _
  unfold semAtoms
  dsimp only
  rw [if_neg (by simpa using hp), Env.unpoisoned (e := e) hpo, if_neg Bool.false_ne_true, hc]
  dsimp only
  rw [haway, hown, countConflicts_calm hq, foldl_id _ _ _ (fun l _ => State.noteOrder_off hmode l _), List.all_eq_true.2 (fun l _ => State.orderOk_off hmode l _), List.map_map]
  simp only [beq_iff_eq]
  rfl

theorem AtomDone.bankAtomic {i : Instr} {d : Reg} {w : OpW} {n : Nat} {word : Nat → Prop} {acc : State × List RegWrite} (h : AtomDone s g i d w n word acc)
    (u : Option Nat) (fn : Nat) (p : Part) (ps : List Part) (hp : word p.pa) {ws : List RegWrite} (hw : DstOnly g i d w ws) :
    AtomDone s g i d w n word ((acc.1.bankAtomic u fn n (p :: ps)).2.2, acc.2 ++ ws) where
  acts := by
    unfold State.bankAtomic
    dsimp only
    split
    · exact (h.acts.modCore _ _).spadStore _ _ _
    · exact h.acts.modCore _ _
  seals := by
    unfold State.bankAtomic
    dsimp only
    split <;> exact h.seals
  muslin := by
    unfold State.bankAtomic
    dsimp only
    split <;> exact h.muslin
  dst := fun z hz => (List.mem_append.1 hz).elim (h.dst z) (hw z)
  stored := by
    obtain ⟨ws, h1, h2⟩ := h.stored
    obtain ⟨vs, k1, k2⟩ := acc.1.stored_bankAtomic u fn n p ps
    refine ⟨ws ++ vs, h1.trans k1, fun z hz => (List.mem_append.1 hz).elim (h2 z) (fun hz => ?_)⟩
    obtain ⟨h3, h4⟩ := k2 z hz
    exact ⟨h3 ▸ hp, h4⟩

/-- A word of an executing strand. -/
def atomWord (s : State) (g : Gang) (i : Instr) (x : RF) (pa : Nat) : Prop := ∃ st, g.executes i st = true ∧ pa = spadPa g.cluster ((paidEnv s g i).read (spSrc x.a) st).toNat

/-- Results that strands of a list take are results for the destination. -/
theorem DstOnly.of_results {i : Instr} {d : Reg} {w : OpW} (l : List (Nat × Nat)) (q : Bool) (hl : ∀ o ∈ l, g.executes i o.1 = true) :
    DstOnly g i d w (l.map (fun o => ((paidEnv s g i).dst d w o.1 (BitVec.ofNat 128 o.2)).map (fun z => { z with poison := q }))).flatten := by
  intro z hz
  obtain ⟨_, hl', hz⟩ := List.mem_flatten.1 hz
  obtain ⟨o, ho, rfl⟩ := List.mem_map.1 hl'
  obtain ⟨y, hy, rfl⟩ := List.mem_map.1 hz
  rcases simtEnv_dst hy with ⟨h1, k, hk, hd⟩ | ⟨h1, _, hd⟩
  · exact Or.inl ⟨o.1, k, hl o ho, h1, hk, hd⟩
  · exact Or.inr ⟨h1, hd⟩

theorem AtomDone.group {acc : State × List RegWrite} {gr : Nat × List Part} (h' : AtomDone s g (.atoms h x) x.d (wAtom x) (atomBytes x) (atomWord s g (.atoms h x) x) acc)
    (hgr : ∀ p ∈ gr.2, ∃ st, g.executes (.atoms h x) st = true ∧ p = atomPart (paidEnv s g (.atoms h x)) x st) :
    AtomDone s g (.atoms h x) x.d (wAtom x) (atomBytes x) (atomWord s g (.atoms h x) x) (atomGroup (paidEnv s g (.atoms h x)) x acc gr) := by
  obtain ⟨k, ps⟩ := gr
  cases ps with
  | nil =>
    have : atomGroup (paidEnv s g (.atoms h x)) x acc (k, []) = acc := Prod.ext rfl (List.append_nil _)
    rw [this]
    exact h'
  | cons p ps =>
    obtain ⟨st, hst, hp⟩ := hgr p (List.mem_cons_self ..)
    refine h'.bankAtomic _ _ p ps ⟨st, hst, hp ▸ rfl⟩ (DstOnly.of_results _ _ (fun o ho => ?_))
    have ho' := List.mem_map_of_mem (f := Prod.fst) ho
    rw [show ((acc.1.bankAtomic (some (paidEnv s g (.atoms h x)).g.uid) x.fn.toNat (atomBytes x) (p :: ps)).1.map Prod.fst) = _ from atomFold_strands ..] at ho'
    obtain ⟨q, hq, hqo⟩ := List.mem_map.1 ho'
    obtain ⟨st', hst', rfl⟩ := hgr q hq
    exact hqo ▸ hst'

/-- What all the combined requests of ATOMS at the own core leave. -/
theorem atomDone (hi : Issues s g (.atoms h x)) (hq : s.calmFor g = true) (hm : s.muslinMode g.ctx = 0) :
    AtomDone s g (.atoms h x) x.d (wAtom x) (atomBytes x) (atomWord s g (.atoms h x) x)
      ((groupParts (atomBytes x) ((paidEnv s g (.atoms h x)).parts.map (atomPart (paidEnv s g (.atoms h x)) x)) []).foldl (atomGroup (paidEnv s g (.atoms h x)) x)
        ((paidEnv s g (.atoms h x)).s, [])) := by
  refine foldl_mem _ _ _ _ ⟨Acts.start hi hq, State.onlySeals_charged hq (.atoms h x) _ _, hm, fun _ hz => absurd hz List.not_mem_nil,
    [], ⟨(List.append_nil _).symm, rfl, rfl, rfl, rfl, fun _ => rfl⟩, fun _ hz => absurd hz List.not_mem_nil⟩ (fun acc hacc gr hgr => hacc.group (fun p hp => ?_))
  rcases (mem_groupParts _ _ _ _).1 ⟨gr, hgr, hp⟩ with hp | ⟨_, hn, _⟩
  · obtain ⟨st, hst, rfl⟩ := List.mem_map.1 hp
    exact ⟨st, mem_simtEnv_parts hst, rfl⟩
  · exact absurd hn List.not_mem_nil

theorem filter_range_single {who : Nat → Bool} {st : Nat} (hst : who st = true) (hlt : st < 32) (hone : ∀ st', st' ≠ st → who st' = false) :
    (List.range 32).filter who = [st] := by
  have hw : who = (· == st) := by
    funext k
    by_cases hk : k = st
    · rw [hk, hst]
      exact (beq_self_eq_true st).symm
    · rw [hone k hk]
      exact (beq_eq_false_iff_ne.2 hk).symm
  rw [hw, List.filter_beq, List.count_eq_one_of_mem List.nodup_range (List.mem_range.2 hlt)]
  rfl

theorem leNat_lt (l : List Byte) : leNat l < 2 ^ (8 * l.length) := by
  induction l with
  | nil => decide
  | cons b l ih =>
    have := b.isLt
    rw [leNat, List.length_cons, Nat.mul_succ, Nat.pow_add]
    omega

/-- The word of a strand before ATOMS, as VEC has it. -/
def oldWord (s : State) (pa n : Nat) : Nat := leNat ((List.range n).map (fun k => (s.spadByte .vec (pa + k)).1))

theorem oldWord_lt (s : State) (pa : Nat) (x : RF) : oldWord s pa (atomBytes x) < 2 ^ 128 := by
  refine (leNat_lt _).trans_le ?_
  rw [List.length_map, List.length_range]
  unfold atomBytes
  split <;> decide

/-- A single strand's request: its old word, and the new one where there is one. -/
theorem atomGroup_single {e : Env} (st k : Nat) (hp : e.parts = [st]) :
    let p := atomPart e x st
    let old := oldWord e.s p.pa (atomBytes x)
    let r := atomGroup e x (e.s, []) (k, [p])
    (∃ q, r.2 = resultsFor e x.d (wAtom x) (fun _ => BitVec.ofNat 128 old) q) ∧
      ∀ v, atomNew x.fn.toNat (atomBytes x) old (p.val.toNat % 2 ^ (8 * atomBytes x)) (p.swap.toNat % 2 ^ (8 * atomBytes x)) = some v →
        e.s.Stored r.1 [vecWrite p.pa (leBytes (atomBytes x) v)] := by
  intro p old r
  have hold : leNat (((List.range (atomBytes x)).map (fun k => e.s.spadByte .vec (p.pa + k))).map Prod.fst) = old := by
    rw [List.map_map]
    rfl
  have hfold : atomFold x.fn.toNat (atomBytes x) [p] old = atomStep x.fn.toNat (atomBytes x) (old, false, []) p := rfl
  refine ⟨⟨fun _ => ((List.range (atomBytes x)).map (fun k => e.s.spadByte .vec (p.pa + k))).any Prod.snd, ?_⟩, fun v hv => ?_⟩
  · show [] ++ _ = _
    unfold State.bankAtomic resultsFor
    dsimp only
    rw [hold, hfold, atomStep_results, hp]
    rfl
  · show e.s.Stored (e.s.bankAtomic _ _ _ [p]).2.2 _
    unfold State.bankAtomic
    dsimp only
    rw [hold, hfold, atomStep_some _ _ _ hv, if_pos rfl]
    exact (e.s.stored_seenAt p.pa _).trans (State.stored_spadStore ..)

end

section
variable {s : State} {g : Gang} {h : Hd} {x : RF}

theorem atomBytes_dvd (x : RF) : atomBytes x ∣ 2 ^ 26 := by
  unfold atomBytes
  split <;> decide

/-- The address of a strand's word in the cluster's scratchpad. -/
def atomEa (s : State) (g : Gang) (i : Instr) (x : RF) (st : Nat) : Nat := ((simtEnv s g i).read (spSrc x.a) st).toNat

theorem run_atoms_near (hpo : g.regs.poison = []) (hq : s.calmFor g = true) (hcl : g.cluster < 8) (hm : s.muslinMode g.ctx = 0) (hi : Issues s g (.atoms h x))
    (he : ∃ st, g.executes (.atoms h x) st = true)
    (hc : (simtEnv s g (.atoms h x)).spadCheck (atomBytes x) ((simtEnv s g (.atoms h x)).parts.map (fun st => (st, (atomEa s g (.atoms h x) x st : Int)))) = none)
    (hnear : ∀ st, g.executes (.atoms h x) st = true → eaCore (atomEa s g (.atoms h x) x st) = g.core) :
    ∃ t g', exec (.atoms h x) s = .next t ∧ t.gang? g.uid = some g' ∧ g'.pc = g.pc + 8 ∧ Leaves g g' (.atoms h x) 0 ∧ WroteOnly g g' (.atoms h x) x.d (wAtom x) ∧ s.sameMain t ∧
      (∀ (p : Path) (pa : Nat), isSpad pa = true → (∀ st, g.executes (.atoms h x) st = true →
        pa < spadPa g.cluster (atomEa s g (.atoms h x) x st) ∨ spadPa g.cluster (atomEa s g (.atoms h x) x st) + atomBytes x ≤ pa) → t.spadByte p pa = s.spadByte p pa) ∧
      (∀ st, g.executes (.atoms h x) st = true → (∀ st', st' ≠ st → g.executes (.atoms h x) st' = false) →
        let p := atomPart (paidEnv s g (.atoms h x)) x st
        gets g g' (.atoms h x) x.d (wAtom x) (fun _ => oldWord s p.pa (atomBytes x)) ∧
        (∀ v, atomNew x.fn.toNat (atomBytes x) (oldWord s p.pa (atomBytes x)) (p.val.toNat % 2 ^ (8 * atomBytes x)) (p.swap.toNat % 2 ^ (8 * atomBytes x)) = some v →
          ∀ k < atomBytes x, (t.spadByte .vec (p.pa + k)).1 = BitVec.ofNat 8 (v / 2 ^ (8 * k)))) := by
  have hd := atomDone hi hq hm
  generalize hdone : (groupParts (atomBytes x) ((paidEnv s g (.atoms h x)).parts.map (atomPart (paidEnv s g (.atoms h x)) x)) []).foldl (atomGroup (paidEnv s g (.atoms h x)) x)
    ((paidEnv s g (.atoms h x)).s, []) = done at hd
  have hop := semAtoms_near hq hm hpo he ((spadCheck_charged ..).trans hc) hnear hdone
  obtain ⟨ws, hst, hws⟩ := hd.stored
  obtain ⟨t, g', h1, h2, h3, h4, h5, h6, h7⟩ := run_results_sealing (m := semAtoms h x) hi hd.acts hd.seals hd.muslin rfl hop hd.dst
  refine ⟨t, g', h1, h2, h3, h4, h5, State.sameMain_trans (hst.sameMain (fun w hw => ?_)) h7.1, fun p pa hpa hout => ?_, fun st hx hone => ⟨?_, fun v hv k hk => ?_⟩⟩
  · obtain ⟨⟨st, _, hpa⟩, _⟩ := hws w hw
    rw [hpa]
    unfold spadPa
    omega
  · rw [h7.2 p pa hpa, hst.spadByte]
    refine foldl_overSpad_out _ _ _ _ (fun w hw => ?_)
    obtain ⟨⟨st, hex, hwpa⟩, hlen⟩ := hws w hw
    rw [hwpa, hlen]
    exact hout st hex
  all_goals
    have hparts : (paidEnv s g (.atoms h x)).parts = [st] := (simtEnv_parts ..).trans (filter_range_single hx (Gang.executes_lt hx) hone)
    rw [hparts] at hdone
    have hsingle : atomGroup (paidEnv s g (.atoms h x)) x ((paidEnv s g (.atoms h x)).s, []) ((atomPart (paidEnv s g (.atoms h x)) x st).pa / atomBytes x,
      [atomPart (paidEnv s g (.atoms h x)) x st]) = done := hdone
    obtain ⟨⟨q, hq2⟩, hnew⟩ := atomGroup_single (x := x) st ((atomPart (paidEnv s g (.atoms h x)) x st).pa / atomBytes x) hparts
  · have hwr : done.2 = _ := (congrArg Prod.snd hsingle.symm).trans hq2
    rw [hwr] at h6
    have hg := resultsFor_gets s x.d (wAtom x) _ q h6
    have hval : (BitVec.ofNat 128 (oldWord s (atomPart (paidEnv s g (.atoms h x)) x st).pa (atomBytes x))).toNat = oldWord s (atomPart (paidEnv s g (.atoms h x)) x st).pa (atomBytes x) :=
      Nat.mod_eq_of_lt (oldWord_lt ..)
    exact hval ▸ hg
  · have hone1 : s.Stored done.1 _ := (⟨(List.append_nil _).symm, rfl, rfl, rfl, rfl, fun _ => rfl⟩ : s.Stored (paidEnv s g (.atoms h x)).s []).trans (hsingle ▸ hnew v hv)
    have hfit : atomEa s g (.atoms h x) x st + atomBytes x ≤ 2 ^ 26 := spadCheck_fits (atomBytes_dvd x) hc (p := (st, (atomEa s g (.atoms h x) x st : Int)))
      (List.mem_map_of_mem (f := fun st => (st, (atomEa s g (.atoms h x) x st : Int))) (mem_paid_parts (s := s) hx 0 0))
    obtain ⟨hlo, hhi⟩ := spadPa_range hcl hfit
    have hlo' : 2 ^ 48 ≤ (atomPart (paidEnv s g (.atoms h x)) x st).pa := hlo
    have hhi' : (atomPart (paidEnv s g (.atoms h x)) x st).pa + atomBytes x ≤ 2 ^ 48 + 2 ^ 29 := hhi
    rw [h7.2 .vec _ (by simp only [isSpad, Bool.and_eq_true, decide_eq_true_eq]; omega), hone1.spadByte]
    rw [List.nil_append, List.foldl_cons, List.foldl_nil, PathWrite.overSpad_in (p := .vec) (x := (atomPart (paidEnv s g (.atoms h x)) x st).pa + k)
      (w := vecWrite (atomPart (paidEnv s g (.atoms h x)) x st).pa (leBytes (atomBytes x) v)) _ rfl (Nat.le_add_right ..)
      (by rw [show (vecWrite _ (leBytes (atomBytes x) v)).data.length = _ from leBytes_length ..]; exact Nat.add_lt_add_left hk _)]
    exact (congrArg (fun j => (leBytes (atomBytes x) v).getD j 0) (Nat.add_sub_cancel_left ..)).trans (leBytes_getD _ _ _ hk)

/-! ## Atomics at another core -/

/-- The requests of ATOMS for other cores. -/
def atomReq (x : RF) : Req := { queue := some 0, group := atomBytes x, blocks := true, steps := false, kind := .spadAtomic x.fn.toNat (atomBytes x) x.d }

theorem semAtoms_away (hpo : g.regs.poison = []) (he : ∃ st, g.executes (.atoms h x) st = true)
    (hc : (paidEnv s g (.atoms h x)).spadCheck (atomBytes x) ((paidEnv s g (.atoms h x)).parts.map (fun st => (st, (((paidEnv s g (.atoms h x)).read (spSrc x.a) st).toNat : Int)))) = none)
    (haway : ∀ st, g.executes (.atoms h x) st = true → eaCore ((paidEnv s g (.atoms h x)).read (spSrc x.a) st).toNat ≠ g.core) :
    let e := paidEnv s g (.atoms h x)
    (semAtoms h x).op e = .ok { st := e.s.requested (atomReq x) g.uid (reqFlights (atomReq x) e.g e.lead e.nc .none (e.parts.map (atomPart e x))) } := by
  intro e
  obtain ⟨h1, _, h2⟩ := filter_far (e := e) (l := e.parts.map (fun st => (st, ((e.read (spSrc x.a) st).toNat : Int)))) (fun p => p.2.toNat) rfl (fun p hp => by
    obtain ⟨st, hst, rfl⟩ := List.mem_map.1 hp
    exact haway st (mem_simtEnv_parts hst))
  have hfar : (e.parts.map (fun st => (st, ((e.read (spSrc x.a) st).toNat : Int)))).filter (fun p => eaCore p.2.toNat != e.g.core) = _ := h1
  have hown : (e.parts.map (fun st => (st, ((e.read (spSrc x.a) st).toNat : Int)))).filter (fun p => eaCore p.2.toNat == e.g.core) = [] := h2
  have hp : e.parts ≠ [] := simtEnv_parts_ne he _ _
  unfold semAtoms
  dsimp only
  rw [if_neg (by simpa using hp), Env.unpoisoned (e := e) hpo, if_neg Bool.false_ne_true, hc]
  dsimp only
  rw [hfar, hown]
  simp only [List.map_nil, List.eraseDups_nil, List.all_nil, Bool.not_true, if_neg Bool.false_ne_true, List.foldl_nil, groupParts, countConflicts_nil, List.map_map, List.isEmpty_map, beq_iff_eq]
  rw [if_neg (by simpa using hp)]
  rfl

theorem run_atoms_away (hpo : g.regs.poison = []) (hq : s.calmFor g = true) (hm : s.muslinMode g.ctx = 0) (hi : Issues s g (.atoms h x))
    (he : ∃ st, g.executes (.atoms h x) st = true)
    (hc : (simtEnv s g (.atoms h x)).spadCheck (atomBytes x) ((simtEnv s g (.atoms h x)).parts.map (fun st => (st, (atomEa s g (.atoms h x) x st : Int)))) = none)
    (haway : ∀ st, g.executes (.atoms h x) st = true → eaCore (atomEa s g (.atoms h x) x st) ≠ g.core) :
    ∃ t g', exec (.atoms h x) s = .next t ∧ t.gang? g.uid = some g' ∧ g'.pc = g.pc + 8 ∧ Leaves g g' (.atoms h x) 0 ∧ keepsRegs g g' ∧ s.sameBytes t ∧
      sends s t g (.spadAtomic x.fn.toNat (atomBytes x) x.d) false (some 0) ((paidEnv s g (.atoms h x)).parts.map (atomPart (paidEnv s g (.atoms h x)) x)) := by
  let e := paidEnv s g (.atoms h x)
  have hall := reqFlights_all (atomReq x) e.g e.lead e.nc .none (e.parts.map (atomPart e x))
  obtain ⟨y, new, hn, hs, ho, hmode⟩ := generic_sends (r := atomReq x) (ct := 0) (.refl _) hi hq hm (fun f hf => releases_of_kind (hall f hf).2.2.1 (fun _ => rfl))
  have hop := (semAtoms_away hpo he ((spadCheck_charged ..).trans hc) haway).trans (congrArg (fun t : State => Res.ok { st := t }) (State.modGang_unclocked _ g.uid).symm)
  obtain ⟨t, g', h1, h2, h3, h4, h5, h6, l, h7, h8⟩ := run_sends_sealing (m := semAtoms h x) hi hs ho hmode rfl (Nat.zero_le _) hop
  exact ⟨t, g', h1, h2, h3, h4, h5, h6, sends_of_flights h7 (h8.trans hn) hall (reqFlights_parts _ _ _ _ _ _)⟩

end

/-- Settles O25: ATOMS at the own core changes its words at once and gives the old one; at another core its requests leave. -/
theorem scratchpadAtomics : Obligations.ScratchpadAtomics := by
  unfold Obligations.ScratchpadAtomics
  intro s g h x hi hpo hq hcl hm i e n a b c he hc
  refine ⟨fun hnear => ?_, fun haway => ?_⟩
  · obtain ⟨t, g', h1, h2, h3, h4, h5, h6, h7, h8⟩ := run_atoms_near hpo hq hcl hm hi he hc hnear
    refine ⟨t, g', h1, h2, h3, h4, h5, h6, h7, fun st hst hone => ?_⟩
    obtain ⟨h9, h10⟩ := h8 st hst hone
    refine ⟨h9, fun v hv => h10 v ?_⟩
    rw [← hv, atomPart_val, atomPart_swap]
    rfl
  · obtain ⟨t, g', h1, h2, h3, h4, h5, h6, h7⟩ := run_atoms_away hpo hq hm hi he hc haway
    refine ⟨t, g', h1, h2, h3, h4, h5, h6, ?_⟩
    exact h7

end Sys2Proof.Machine
end

section
/-! PROOFS. Handles (R90, R91, R241, R242): what XLAT fills, what it asks for, what HDROP clears, and where both wait. -/

namespace Sys2Proof.Machine

/-! ## A result that is the same for all strands -/

section
variable {s Y : State} {g y g0 : Gang} {i : Instr} {m : Sem}

theorem simtEnv_dstAll (he : ∃ st, g.executes i st = true) (d : Reg) (v : BitVec 128) :
    (paidEnv s g i).dstAll d .w32 v = resultsFor (paidEnv s g i) d .w32 (fun _ => v) (fun _ => false) := by
  have hall : (paidEnv s g i).dstWide d .w32 v = (paidEnv s g i).dstAll d .w32 v := ite_self _
  refine hall.symm.trans ((simtEnv_dstWide he d .w32 v).trans ?_)
  exact congrArg List.flatten (List.map_congr_left (fun st _ => ((List.map_congr_left (fun z hz => dst_clean hz)).trans (List.map_id _)).symm))

/-- An instruction that waits at its own address keeps its charge and changes nothing else. -/
theorem run_waits {F : Gang → Gang} (hi : Issues s g i) (hct : m.ct (simtEnv s g i) = 0) (hF : ∀ z, (F z).uid = z.uid)
    (hsame : let z := F (g.charge (ciOf i.maj) 0); z.pc = g.pc ∧ z.regs = g.regs ∧ z.ctl = g.ctl ∧ z.spec = (g.charge (ciOf i.maj) 0).spec)
    (hop : m.op (paidEnv s g i) = .wait ((paidEnv s g i).s.modGang g.uid F)) :
    ∃ t g', run i m s = .next t ∧ t.gang? g.uid = some g' ∧ g'.pc = g.pc ∧ g'.regs = g.regs ∧ g'.ctl = g.ctl ∧ g'.spec = g.spec ∧ s.sameBytes t ∧ t.cores = s.cores := by
  obtain ⟨h1, h2, h3, h4⟩ := hsame
  have hr := run_issues (m := m) hi
  dsimp only at hr
  rw [hct, show m.op (simtEnv s (g.charge (ciOf i.maj) 0) i) = _ from hop] at hr
  refine ⟨_, _, hr, State.gang?_modGang_same (s := (paidEnv s g i).s.modGang g.uid F)
    (fun y => { y with spec := { y.spec with ib := g.spec.ib, tb := g.spec.tb }, iss := { y.iss with waited := true } }) (fun _ => rfl)
    (State.gang?_modGang_same F hF (hi.charged (ciOf i.maj) 0).1), h1, h2, h3, ?_, State.sameBytes_of rfl rfl rfl rfl rfl (fun _ => rfl), rfl⟩
  dsimp only
  rw [h4]
  rfl

theorem State.modGang_id (s : State) (u : Nat) : s.modGang u id = s := by
  show { s with gangs := s.gangs.map (fun x => if x.uid == u then id x else x) } = s
  have : s.gangs.map (fun x => if x.uid == u then id x else x) = s.gangs := (List.map_congr_left (fun x _ => ite_self _)).trans (List.map_id _)
  rw [this]

/-- The same without any change of its own. -/
theorem run_waits_plain (hi : Issues s g i) (hct : m.ct (simtEnv s g i) = 0) (hop : m.op (paidEnv s g i) = .wait (paidEnv s g i).s) :
    ∃ t g', run i m s = .next t ∧ t.gang? g.uid = some g' ∧ g'.pc = g.pc ∧ g'.regs = g.regs ∧ g'.ctl = g.ctl ∧ g'.spec = g.spec ∧ s.sameBytes t ∧ t.cores = s.cores :=
  run_waits (F := id) hi hct (fun _ => rfl) ⟨rfl, rfl, rfl, rfl⟩ (hop.trans (congrArg Res.wait (State.modGang_id ..).symm))

end

/-! ## One operation that leaves -/

/-- What the launch of an operation leaves, for which its gang does not wait. -/
theorem State.launchFlight_sends {s Z : State} {g z g0 : Gang} {i : Instr} {ct : Nat} {f : Flight} (hq : Z.calmFor g = true) (hl : Z.noLateTrap)
    (hg : Z.gang? g.uid = some z) (hp : z.pass = (g0.charge (ciOf i.maj) ct).pass) (h0 : g0.iss.sealTo = none ∧ g0.iss.splitTo = none)
    (hf : Z.flights = s.flights) (hb : s.sameBytes Z) (hr : f.releases = false) : ∃ x, x.request = f.request ∧ Sends s (Z.launchFlight f) g z g0 i ct [x] := by
  obtain ⟨x, hx, hreq⟩ := Z.launchFlight_request f
  refine ⟨x, hreq, hx ▸ ⟨?_, hl, hg, hp, h0, congrArg (· ++ [x]) hf, State.sameBytes_trans hb (State.sameBytes_of rfl rfl rfl rfl rfl (fun _ => rfl))⟩⟩
  refine State.calmFor_of (s := Z) (fun y hy => ?_) (fun y hy => ⟨y, hy, rfl, rfl, rfl⟩) rfl hq
  rcases List.mem_append.1 (show y ∈ Z.flights ++ [x] from hy) with h | h
  · exact Or.inl h
  · right
    rw [List.mem_singleton.1 h]
    exact (congrArg Flight.releases hreq :).trans hr

/-- A single operation that left, told by its request. -/
theorem flights_single {l : List Flight} {x f : Flight} (h : l.map Flight.request = [x].map Flight.request) (hx : x.request = f.request) :
    ∃ y, l = [y] ∧ y.request = f.request := by
  obtain ⟨y, rfl⟩ := List.length_eq_one_iff.1 (by simpa using congrArg List.length h : l.length = 1)
  exact ⟨y, rfl, (List.cons.inj h).1.trans hx⟩

/-! ## XLAT -/

section
variable {s : State} {g : Gang} {i j : Instr} {h : Hd} {x : RF} {write : Bool} {pa size : Nat} {rd wr ex : Bool}

/-- The address that XLAT names. -/
def xlatVa (s : State) (g : Gang) (i : Instr) (x : RF) : Nat := ((simtEnv s g i).uniform { f := x.a, w := .w64, base := true }).toNat

/-- A gang's handle n takes a value. -/
def Gang.withHandle (n : Nat) (v : Handle) (g : Gang) : Gang := { g with regs := { g.regs with h := SMap.set g.regs.h n v } }

/-- What XLAT does where its page is one that it may name. -/
theorem xlatSem_op (he : ∃ st, g.executes i st = true) (hpo : g.regs.poison = []) (hpend : (g.h (x.d.toNat % 16)).pending = false)
    (hva : xlatVa s g i x < 2 ^ 56) (htr : s.translate g.gcore g.ctx (xlatVa s g i x) = .page pa size rd wr ex) (htg : xlatTarget g.cluster pa = true)
    (hperm : (if write then wr else rd) = true) :
    (xlatSem j x write).op (paidEnv s g i) =
      if (s.tlbHit g.gcore g.ctx (xlatVa s g i x)).isSome then
        .ok { st := (paidEnv s g i).s
              writes := { dst := .h (x.d.toNat % 16), handle := mkHandle g.cluster (xlatVa s g i x) pa size rd wr } ::
                (paidEnv s g i).dstAll x.b .w32 (BitVec.ofNat 128 (xlatVa s g i x % pageBytes size)) }
      else .ok { st := ((paidEnv s g i).s.launchFlight { (paidEnv s g i).flight (.xlat (x.d.toNat % 16) (xlatVa s g i x) write x.b false) with
          parts := (paidEnv s g i).parts.map (fun st => { strand := st, pa := xlatVa s g i x }) }).modGang g.uid (Gang.withHandle (x.d.toNat % 16) { pending := true }) } := by
  have hacts : (paidEnv s g i).acts = true := simtEnv_acts he _ _
  have hpend' : ((paidEnv s g i).g.h (x.d.toNat % 16)).pending = false := hpend
  have hva' : ¬ ((paidEnv s g i).uniform { f := x.a, w := .w64, base := true }).toNat ≥ 2 ^ 56 := Nat.not_le.2 hva
  have htr' : (paidEnv s g i).s.translate (paidEnv s g i).g.gcore (paidEnv s g i).g.ctx ((paidEnv s g i).uniform { f := x.a, w := .w64, base := true }).toNat =
    .page pa size rd wr ex := (paidEnv_translate ..).trans htr
  have htg' : xlatTarget (paidEnv s g i).g.cluster pa = true := htg
  unfold xlatSem
  dsimp only
  rw [hacts, hpend', Env.srcPoison_none (e := paidEnv s g i) hpo, if_neg hva', htr']
  dsimp only
  rw [htg', hperm]
  rfl

/-- XLAT of a page that the TLB holds. -/
theorem run_xlat_hit (hs : i.seals = false) (hpo : g.regs.poison = []) (hq : s.calmFor g = true) (hi : Issues s g i) (he : ∃ st, g.executes i st = true)
    (hpend : (g.h (x.d.toNat % 16)).pending = false)
    (hva : xlatVa s g i x < 2 ^ 56) (htr : s.translate g.gcore g.ctx (xlatVa s g i x) = .page pa size rd wr ex) (htg : xlatTarget g.cluster pa = true)
    (hperm : (if write then wr else rd) = true) (hhit : (s.tlbHit g.gcore g.ctx (xlatVa s g i x)).isSome = true) :
    ∃ t g', run i (xlatSem j x write) s = .next t ∧ t.gang? g.uid = some g' ∧ g'.pc = g.pc + 8 ∧ Leaves g g' i 0 ∧ s.sameBytes t ∧ t.flights = s.flights ∧
      g'.regs.h = SMap.set g.regs.h (x.d.toNat % 16) (mkHandle g.cluster (xlatVa s g i x) pa size rd wr) ∧
      gets g g' i x.b .w32 (fun _ => xlatVa s g i x % pageBytes size) ∧
      (∀ k, writesV g i x.b .w32 k = false → g'.regs.v.get k = g.regs.v.get k) ∧ (∀ m, x.b.toNat ≠ 128 + m → g'.regs.s.get m = g.regs.s.get m) := by
  have hop := xlatSem_op (j := j) he hpo hpend hva htr htg hperm
  rw [if_pos hhit, simtEnv_dstAll he] at hop
  obtain ⟨g', h1, h2, h3, h4, h5, _⟩ := run_acts (m := xlatSem j x write) hi hs (Acts.start hi hq) rfl hop
  let n := x.d.toNat % 16
  let g1 := g.withHandle n (mkHandle g.cluster (xlatVa s g i x) pa size rd wr)
  let ws := resultsFor (paidEnv s g i) x.b .w32 (fun _ => BitVec.ofNat 128 (xlatVa s g i x % pageBytes size)) (fun _ => false)
  have hregs : g'.regs = (g1.putAll ws).regs := h5
  have hdst : DstOnly g1 i x.b .w32 ws := resultsFor_dstOnly s g i x.b .w32 _ _
  have hwr := hdst.wrote
  have hgets : gets g1 g' i x.b .w32 (fun _ => (BitVec.ofNat 128 (xlatVa s g i x % pageBytes size)).toNat) :=
    resultsFor_gets (g := g1) s x.b .w32 (fun _ => BitVec.ofNat 128 (xlatVa s g i x % pageBytes size)) (fun _ => false) hregs
  refine ⟨_, g', h1, h2, h3, h4, State.sameBytes_trans (simtEnv_bytes s _ i) (State.issued_bytes ..), State.issued_same_flights (fun _ hx => hx), ?_, gets_ofNat hgets, fun k hk => ?_, fun m hm => ?_⟩
  · rw [hregs]
    exact hwr.h
  · rw [hregs]
    exact hwr.v k hk
  · rw [hregs]
    exact hwr.s m hm

/-- XLAT of a page that a walk must find. -/
theorem run_xlat_miss (hs : i.seals = false) (hpo : g.regs.poison = []) (hq : s.calmFor g = true) (hi : Issues s g i) (he : ∃ st, g.executes i st = true)
    (hpend : (g.h (x.d.toNat % 16)).pending = false)
    (hva : xlatVa s g i x < 2 ^ 56) (htr : s.translate g.gcore g.ctx (xlatVa s g i x) = .page pa size rd wr ex) (htg : xlatTarget g.cluster pa = true)
    (hperm : (if write then wr else rd) = true) (hmiss : (s.tlbHit g.gcore g.ctx (xlatVa s g i x)).isSome = false) :
    ∃ t g', run i (xlatSem j x write) s = .next t ∧ t.gang? g.uid = some g' ∧ g'.pc = g.pc + 8 ∧ s.sameBytes t ∧
      Leaves (g.withHandle (x.d.toNat % 16) { pending := true }) g' i 0 ∧ g'.regs = (g.withHandle (x.d.toNat % 16) { pending := true }).regs ∧
      ∃ f, t.flights = s.flights ++ [f] ∧ f.uid = some g.uid ∧ f.kind = .xlat (x.d.toNat % 16) (xlatVa s g i x) write x.b false := by
  have hop := xlatSem_op (j := j) he hpo hpend hva htr htg hperm
  rw [if_neg (by rw [hmiss]; exact Bool.false_ne_true)] at hop
  obtain ⟨z, hz, hsend⟩ := State.launchFlight_sends (s := s) (Z := (paidEnv s g i).s) (g0 := g) (ct := 0) (f := { (paidEnv s g i).flight (.xlat (x.d.toNat % 16) (xlatVa s g i x) write x.b false) with
      parts := (paidEnv s g i).parts.map (fun st => { strand := st, pa := xlatVa s g i x }) }) (State.calmFor_charged hi.here hq _ _ _) (hi.charged _ _).2 (hi.charged _ _).1 rfl hi.unsealed
    rfl (simtEnv_bytes ..) rfl
  obtain ⟨t, g', h1, h2, h3, h4, ⟨h5, _⟩, h6, _, _, l, h7, h8⟩ := run_sends (m := xlatSem j x write) hi
    (hsend.modGang (F := Gang.withHandle (x.d.toNat % 16) { pending := true }) (g1 := g.withHandle (x.d.toNat % 16) { pending := true })
      (fun _ => rfl) (fun _ => rfl) (fun _ => ⟨rfl, rfl, rfl⟩) rfl hi.unsealed)
    (fun h => absurd (hs.symm.trans h) Bool.false_ne_true) rfl (Nat.zero_le _) hop
  obtain ⟨f, rfl, hf⟩ := flights_single h8 hz
  exact ⟨t, g', h1, h2, h3, h6, h4, h5, f, h7, (congrArg Flight.uid hf :), (congrArg Flight.kind hf :)⟩

theorem exec_xlat (h : Hd) (x : RF) (write : Bool) (s : State) :
    ∃ j, exec (if write then .xlatW h x else .xlat h x) s = run (if write then .xlatW h x else .xlat h x) (xlatSem j x write) s := by
  cases write <;> exact ⟨_, rfl⟩

theorem seals_xlat (h : Hd) (x : RF) (write : Bool) (hi : Issues s g (if write then .xlatW h x else .xlat h x)) : (if write then Instr.xlatW h x else .xlat h x).seals = false := by
  cases write <;> rfl

end

/-! ## HDROP -/

section
variable {s : State} {g : Gang} {i : Instr} {m : Sem} {pick : Nat → Bool}

/-- A handle whose number is picked, dropped. -/
def dropOne (pick : Nat → Bool) (n : Nat) (v : Handle) : Handle := if pick n then { v with valid := false } else v

def Gang.dropped (pick : Nat → Bool) (g : Gang) : Gang := { g with regs := { g.regs with h := g.regs.h.map (fun kh => (kh.1, dropOne pick kh.1 kh.2)) } }

/-- A walk of a gang for a picked handle, its result discarded. -/
def Flight.unwanted (uid : Nat) (pick : Nat → Bool) (f : Flight) : Flight :=
  match f.kind with
  | .xlat n va w d _ => if f.uid == some uid && pick n then { f with kind := .xlat n va w d true } else f
  | _ => f

theorem State.dropHandles_eq (s : State) (uid : Nat) (pick : Nat → Bool) :
    s.dropHandles uid pick = { s.modGang uid (Gang.dropped pick) with flights := s.flights.map (Flight.unwanted uid pick) } := rfl

theorem SMap.find_map {α β : Type} (l : SMap α) (F : Nat → α → β) (n : Nat) : SMap.find (l.map (fun kv => (kv.1, F kv.1 kv.2))) n = (SMap.find l n).map (F n) := by
  induction l with
  | nil => rfl
  | cons kv l ih =>
    obtain ⟨k, v⟩ := kv
    rw [List.map_cons, SMap.find, SMap.find, ih]
    split
    · next hk => rw [hk]; rfl
    · rfl

theorem Gang.dropped_get (pick : Nat → Bool) (g : Gang) (n : Nat) : SMap.get (g.dropped pick).regs.h n {} = dropOne pick n (SMap.get g.regs.h n {}) := by
  unfold SMap.get Gang.dropped
  rw [SMap.find_map]
  cases SMap.find g.regs.h n with
  | some v => rfl
  | none =>
    show ({} : Handle) = if pick n then _ else _
    split <;> rfl

theorem Flight.unwanted_releases (f : Flight) (uid : Nat) (pick : Nat → Bool) : (f.unwanted uid pick).releases = f.releases := by
  unfold Flight.unwanted
  split
  · next hk =>
    split
    · unfold Flight.releases
      rw [hk]
    · rfl
  · rfl

theorem Flight.unwanted_uid (f : Flight) (uid : Nat) (pick : Nat → Bool) : (f.unwanted uid pick).uid = f.uid := by
  unfold Flight.unwanted
  split
  · split <;> rfl
  · rfl

/-- Where every handle is dropped, every walk of the gang is unwanted. -/
theorem Flight.unwanted_all {f : Flight} {uid n va : Nat} {w dropped : Bool} {d : Reg} (hu : f.uid = some uid)
    (hk : (f.unwanted uid (fun _ => true)).kind = .xlat n va w d dropped) : dropped = true := by
  unfold Flight.unwanted at hk
  split at hk
  · rw [hu, beq_self_eq_true] at hk
    exact (FlightKind.xlat.inj hk).2.2.2.2.symm
  · next hne => exact absurd hk (hne _ _ _ _ _)

/-- Handles are dropped, and nothing else of the gang changes. -/
theorem run_drops (hs : i.seals = false) (hct : m.ct (simtEnv s g i) = 0) (hq : s.calmFor g = true) (hi : Issues s g i)
    (hop : m.op (paidEnv s g i) = .ok { st := (paidEnv s g i).s.dropHandles g.uid pick }) :
    ∃ t g', run i m s = .next t ∧ t.gang? g.uid = some g' ∧ g'.pc = g.pc + 8 ∧ Leaves g g' i 0 ∧ g'.regs = (g.dropped pick).regs ∧ g'.ctl.p = g.ctl.p ∧
      g'.ctl.b = g.ctl.b ∧ g'.ctl.fx = g.ctl.fx ∧ s.sameBytes t ∧
      ∀ f ∈ t.flights, ∃ f0 ∈ s.flights, f.uid = f0.uid ∧ f.kind = (f0.unwanted g.uid pick).kind := by
  have hcalm := State.calmFor_charged hi.here hq (ciOf i.maj) 0 i
  have hmod := (Acts.start hi hq).modGang (F := Gang.dropped pick) (g1 := g.dropped pick) (fun _ => rfl) (fun _ => rfl) (fun _ => ⟨rfl, rfl, rfl⟩) rfl hi.unsealed
  have hacts : Acts s ((paidEnv s g i).s.dropHandles g.uid pick) g ((g.charge (ciOf i.maj) 0).dropped pick) (g.dropped pick) i :=
    ⟨State.calmFor_of (s := (paidEnv s g i).s.modGang g.uid (Gang.dropped pick)) (fun f hf => by
      obtain ⟨f0, h0, rfl⟩ := List.mem_map.1 (show f ∈ (paidEnv s g i).s.flights.map (Flight.unwanted g.uid pick) from hf)
      exact Or.inr ((f0.unwanted_releases ..).trans (State.calmFor_flights hcalm f0 h0))) (fun x hx => ⟨x, hx, rfl, rfl, rfl⟩) rfl hmod.calm,
      hmod.late, hmod.gang, hmod.pass, hmod.unsealed⟩
  obtain ⟨g', h1, h2, h3, h4, h5, h6, h7, h8⟩ := run_acts_keeps hi hs hacts hct hop
  refine ⟨_, g', h1, h2, h3, ⟨h4.spec, h4.ctl, h4.rest, h4.park, h4.pend⟩, h5, h6, h7, h8, ?_, fun f hf => ?_⟩
  · exact State.sameBytes_trans (State.sameBytes_of (s := s) (t := (paidEnv s g i).s.dropHandles g.uid pick) rfl rfl rfl rfl rfl (fun _ => rfl)) (State.issued_bytes ..)
  · rw [State.issued_flights] at hf
    obtain ⟨f1, hf1, rfl⟩ := List.mem_map.1 hf
    obtain ⟨f0, h0, rfl⟩ := List.mem_map.1 (show f1 ∈ s.flights.map (Flight.unwanted g.uid pick) from hf1)
    refine ⟨f0, h0, ?_, ?_⟩
    · rw [← f0.unwanted_uid g.uid pick]
      split <;> rfl
    · split <;> rfl

end

section
variable {s : State} {g : Gang} {h : Hd} {x : RF}

/-- XLAT and HDROP of a handle that is pending wait. -/
theorem run_pending {i : Instr} (hmem : i ∈ [Instr.xlat h x, .xlatW h x, .hdrop h x]) (hi : Issues s g i) (he : ∃ st, g.executes i st = true)
    (hpend : (g.h (x.d.toNat % 16)).pending = true) :
    ∃ t g', exec i s = .next t ∧ t.gang? g.uid = some g' ∧ g'.pc = g.pc ∧ g'.regs = g.regs ∧ g'.ctl = g.ctl ∧ g'.spec = g.spec ∧ s.sameBytes t := by
  have hacts : (paidEnv s g i).acts = true := simtEnv_acts he _ _
  have hpend' : ((paidEnv s g i).g.h (x.d.toNat % 16)).pending = true := hpend
  have hx : ∀ j w, (xlatSem j x w).op (paidEnv s g i) = .wait (paidEnv s g i).s := fun j w => by
    unfold xlatSem
    dsimp only
    rw [hacts, hpend']
    rfl
  have hd : (semHdrop h x).op (paidEnv s g i) = .wait (paidEnv s g i).s := by
    unfold semHdrop
    dsimp only
    rw [hacts, hpend']
    rfl
  obtain ⟨m, hm, hct, hop⟩ : ∃ m : Sem, exec i s = run i m s ∧ m.ct (simtEnv s g i) = 0 ∧ m.op (paidEnv s g i) = .wait (paidEnv s g i).s := by
    rcases List.mem_cons.1 hmem with rfl | hmem
    · exact ⟨semXlat h x, rfl, rfl, hx _ _⟩
    · rcases List.mem_cons.1 hmem with rfl | hmem
      · exact ⟨semXlatW h x, rfl, rfl, hx _ _⟩
      · obtain rfl := List.mem_singleton.1 hmem
        exact ⟨semHdrop h x, rfl, rfl, hd⟩
  obtain ⟨t, g', h1, h2, h3, h4, h5, h6, h7, _⟩ := run_waits_plain hi hct hop
  exact ⟨t, g', hm.trans h1, h2, h3, h4, h5, h6, h7⟩

end

/-- Settles O27: XLAT from the TLB fills the handle, without an entry it sends the walk; HDROP clears handles; both wait for a pending one. -/
theorem handlesMadeAndDropped : Obligations.HandlesMadeAndDropped := by
  unfold Obligations.HandlesMadeAndDropped
  refine ⟨?_, ?_⟩
  · intro s g h x write hpo hq i n va hi he hpend hva pa size rd wr ex htr htg hperm
    obtain ⟨j, hx⟩ := exec_xlat h x write s
    have hs := seals_xlat h x write hi
    refine ⟨fun hhit => ?_, fun hmiss => ?_⟩
    · obtain ⟨t, g', h1, h2, h3, h4, h5, h6, h7, h8, h9, h10⟩ := run_xlat_hit (j := j) hs hpo hq hi he hpend hva htr htg hperm hhit
      refine ⟨t, g', hx.trans h1, h2, h3, h4, h5, h6, ?_, fun m hm => ?_, h8, h9, h10⟩
      · rw [h7]
        exact SMap.get_set_same ..
      · rw [h7]
        exact SMap.get_set_ne _ _ _ (Ne.symm hm)
    · obtain ⟨t, g', h1, h2, h3, h4, h5, h6, h7⟩ := run_xlat_miss (j := j) hs hpo hq hi he hpend hva htr htg hperm hmiss
      exact ⟨t, g', hx.trans h1, h2, h3, h4, h5, h6, h7⟩
  · intro s g h x hq regsKept
    refine ⟨fun hi he hpend => ?_, fun i hmem hi he hpend => run_pending hmem hi he hpend, fun hi he => ?_⟩
    · have hop : (semHdrop h x).op (paidEnv s g (.hdrop h x)) = .ok { st := (paidEnv s g (.hdrop h x)).s.dropHandles g.uid (fun n => n == x.d.toNat % 16) } := by
        have hpend' : ((paidEnv s g (.hdrop h x)).g.h (x.d.toNat % 16)).pending = false := hpend
        have hacts : (paidEnv s g (.hdrop h x)).acts = true := simtEnv_acts he _ _
        unfold semHdrop
        dsimp only
        rw [hacts, hpend']
        rfl
      obtain ⟨t, g', h1, h2, h3, h4, h5, h6, h7, h8, h9, _⟩ := run_drops (m := semHdrop h x) rfl rfl hq hi hop
      refine ⟨t, g', h1, h2, h3, h4, ⟨by rw [h5]; rfl, h6, h7, h8⟩, h9, ?_, fun m hm => ?_⟩
      · rw [h5, Gang.dropped_get, dropOne, beq_self_eq_true]
        rfl
      · rw [h5, Gang.dropped_get, dropOne, if_neg (by simpa using hm)]
    · have hop : (semHdropAll h x).op (paidEnv s g (.hdropAll h x)) = .ok { st := (paidEnv s g (.hdropAll h x)).s.dropHandles g.uid (fun _ => true) } := by
        have hacts : (paidEnv s g (.hdropAll h x)).acts = true := simtEnv_acts he _ _
        unfold semHdropAll
        dsimp only
        rw [hacts]
        rfl
      obtain ⟨t, g', h1, h2, h3, h4, h5, h6, h7, h8, h9, h10⟩ := run_drops (m := semHdropAll h x) rfl rfl hq hi hop
      refine ⟨t, g', h1, h2, h3, h4, ⟨by rw [h5]; rfl, h6, h7, h8⟩, h9, fun m => ?_, fun f hf n va w d dropped hu hk => ?_⟩
      · rw [h5, Gang.dropped_get]
        rfl
      · obtain ⟨f0, _, hu0, hk0⟩ := h10 f hf
        exact Flight.unwanted_all (hu0.symm.trans hu) (hk0.symm.trans hk)

end Sys2Proof.Machine
end

section
/-! PROOFS. WAITW (R102, R122, R245, R246): the status it returns, what it leaves of the monitor and the L1, and where it waits. -/

namespace Sys2Proof.Machine

section
variable {s Y : State} {g y g0 : Gang} {i : Instr} {m : Sem} {ws : List RegWrite}

/-! ## An acquire behind another effect -/

theorem Acts.selfInvalidate (h : Acts s Y g y g0 i) (c : Nat) : Acts s (Y.selfInvalidate c) g y g0 i := h.modCore c _

/-- The acquire of a gang at the core of g. -/
theorem Acts.acquire (h : Acts s Y g y g0 i) (hy : y.gcore = g.gcore) : Y.acquire g.uid = Y.selfInvalidate g.gcore := by
  have hq : Y.calmFor y = true := by
    unfold State.calmFor
    rw [hy]
    exact h.calm
  rw [State.acquire_calm hq h.gang, hy]

/-- The lines of the L1 of a gang's core behind an issue that ends with an acquire. -/
theorem State.issued_l1 {f : Eff} {ci ct : Nat} (hf : f.st = Y.selfInvalidate g.gcore) (hc : (Y.core g.gcore).l1 = (s.core g.gcore).l1) :
    ((State.issued i (paidEnv s g i) f ci ct).core g.gcore).l1 = (s.core g.gcore).l1.map (fun kl => (kl.1, selfInvalidateLine kl.2)) := by
  rw [State.issued_core, hf, ← hc]
  exact congrArg Core.l1 ((if_pos rfl).trans (congrArg (Core.issuedBy i _ _) (State.selfInvalidate_core Y g.gcore)))

/-! ## The monitor -/

/-- A gang whose monitor is disarmed. -/
def Gang.unmonitored (g : Gang) : Gang := { g with monitor := none }

theorem State.disarm_acts (hi : Issues s g i) (hq : s.calmFor g = true) :
    ∃ y, Acts s ((paidEnv s g i).s.disarm g.uid) g y g i ∧ y.monitor = none ∧ y.gcore = g.gcore ∧ (paidEnv s g i).s.SameReads ((paidEnv s g i).s.disarm g.uid) := by
  have hm : ((paidEnv s g i).s.gang? g.uid).bind Gang.monitor = g.monitor := congrArg (fun o => Option.bind o Gang.monitor) (hi.charged (ciOf i.maj) 0).1
  have hstart := Acts.start hi hq
  cases hmon : g.monitor with
  | none =>
    have he : (paidEnv s g i).s.disarm g.uid = (paidEnv s g i).s := by
      unfold State.disarm
      rw [hm, hmon]
    rw [he]
    exact ⟨_, hstart, hmon, rfl, .refl _⟩
  | some w =>
    have he : (paidEnv s g i).s.disarm g.uid = ((paidEnv s g i).s.modSlice (homeSlice (128 * w.line)) (fun h =>
        { h with monitors := h.monitors.filter (fun x => x.1 != g.uid) })).modGang g.uid Gang.unmonitored := by
      unfold State.disarm
      rw [hm, hmon]
      rfl
    rw [he]
    have hslice : Acts s ((paidEnv s g i).s.modSlice (homeSlice (128 * w.line)) (fun h => { h with monitors := h.monitors.filter (fun x => x.1 != g.uid) })) g
        (g.charge (ciOf i.maj) 0) g i := ⟨hstart.calm, hstart.late, hstart.gang, hstart.pass, hstart.unsealed⟩
    exact ⟨_, hslice.modGang (F := Gang.unmonitored) (g1 := g) (fun _ => rfl) (fun _ => rfl) (fun _ => ⟨rfl, rfl, rfl⟩) rfl hi.unsealed, rfl, rfl,
      (State.sameReads_modSlice (paidEnv s g i).s (homeSlice (128 * w.line)) (fun h => { h with monitors := h.monitors.filter (fun x => x.1 != g.uid) }) (fun _ => rfl)).trans
        ⟨.of_eq rfl rfl rfl rfl (fun _ => rfl), rfl, rfl⟩⟩

theorem Gang.put_monitor (g : Gang) (w : RegWrite) : (g.put w).monitor = g.monitor := by
  unfold Gang.put
  cases w.dst with
  | p st r =>
    dsimp only
    split <;> rfl
  | _ => rfl

/-- An issue keeps the monitor of its gang. -/
theorem Gang.issued_monitor (g : Gang) (i : Instr) (f : Eff) (n a : Word64) (el ci ct : Nat) :
    (((g.issueMarks f n ci ct).sealing i a).paid el ci ct).monitor = g.monitor := by
  have hput : (g.putAll f.writes).monitor = g.monitor := Gang.putAll_keep Gang.monitor _ _ (fun w _ x => x.put_monitor w)
  unfold Gang.sealing
  split <;> simp [Gang.paid, Gang.issueMarks, Gang.ctr, hput]

end

/-! ## WAITW -/

section
variable {s : State} {g : Gang} {h : Hd} {x : IF} {st0 : Nat}

theorem semWaitw_returns (he : ∃ st, g.executes (.waitw h x) st = true) (hm : s.muslinMode g.ctx = 0) (hloss : g.loss = (s.ctx g.ctx).loss)
    (hst : (paidEnv s g (.waitw h x)).waitStatus x.imm.toNat = some st0) :
    (semWaitw h x).op (paidEnv s g (.waitw h x)) = .ok { st := ((paidEnv s g (.waitw h x)).s.disarm g.uid).acquire g.uid
                                                         writes := (paidEnv s g (.waitw h x)).dstAll x.d .w32 (BitVec.ofNat 128 st0) } := by
  let e := paidEnv s g (.waitw h x)
  have hacts : e.acts = true := simtEnv_acts he _ _
  have hmode : e.s.muslinMode e.g.ctx = 0 := hm
  have ht : e.acquireTrap = none := if_neg (show ¬ (g.loss != (s.ctx g.ctx).loss) = true by rw [hloss]; simp)
  have hv : e.s.valueRead e.g [st0] = [st0] := by
    unfold State.valueRead
    rw [State.nextEntry_off hmode]
  have hn : ∀ v, e.s.noteValue e.g v = e.s := fun v => by
    unfold State.noteValue
    rw [State.nextEntry_off hmode]
    exact State.muslin_off hmode ..
  unfold semWaitw
  dsimp only
  rw [hacts, hst]
  dsimp only
  rw [ht, State.orderOk_off hmode, State.noteOrder_off hmode, hv, hn]
  rfl

/-- A WAITW with a status completes with it. -/
theorem run_waitw (hi : Issues s g (.waitw h x)) (he : ∃ st, g.executes (.waitw h x) st = true) (hq : s.calmFor g = true) (hm : s.muslinMode g.ctx = 0)
    (hloss : g.loss = (s.ctx g.ctx).loss) (hst : (paidEnv s g (.waitw h x)).waitStatus x.imm.toNat = some st0) :
    ∃ t g', exec (.waitw h x) s = .next t ∧ t.gang? g.uid = some g' ∧ g'.pc = g.pc + 8 ∧ Leaves g g' (.waitw h x) 0 ∧
      WroteOnly g g' (.waitw h x) x.d .w32 ∧ gets g g' (.waitw h x) x.d .w32 (fun _ => st0) ∧ g'.monitor = none ∧ s.sameBytes t ∧
      (t.core g.gcore).l1 = (s.core g.gcore).l1.map (fun kl => (kl.1, selfInvalidateLine kl.2)) := by
  obtain ⟨y, hacts, hmon, hcore, hsame⟩ := State.disarm_acts hi hq
  have hop := semWaitw_returns he hm hloss hst
  rw [hacts.acquire hcore, simtEnv_dstAll he] at hop
  let f : Eff := { st := ((paidEnv s g (.waitw h x)).s.disarm g.uid).selfInvalidate g.gcore
                   writes := resultsFor (paidEnv s g (.waitw h x)) x.d .w32 (fun _ => BitVec.ofNat 128 st0) (fun _ => false) }
  have hact2 : Acts s f.st g y g (.waitw h x) := hacts.selfInvalidate g.gcore
  obtain ⟨g', h1, h2, h3, h4, h5, h6, h7, _⟩ := run_acts (m := semWaitw h x) hi rfl hact2 rfl hop
  have hgX := State.gang?_issued (i := .waitw h x) (e := paidEnv s g (.waitw h x)) (f := f) (ci := ciOf (Instr.waitw h x).maj) (ct := 0) hact2.gang
  refine ⟨_, g', h1, h2, h3, h4, (resultsFor_dstOnly s g (.waitw h x) x.d .w32 _ _).wrote_of h5 h6 h7, gets_ofNat (resultsFor_gets s x.d .w32 (fun _ => BitVec.ofNat 128 st0) _ h5), ?_, ?_, ?_⟩
  · rw [Option.some.inj (h2.symm.trans hgX)]
    exact (Gang.issued_monitor ..).trans hmon
  · refine State.sameBytes_trans (simtEnv_bytes s _ (.waitw h x)) (State.sameBytes_trans hsame.sameBytes (State.sameBytes_trans ?_ (State.issued_bytes ..)))
    exact State.sameBytes_of rfl rfl rfl rfl rfl (fun n => State.selfInvalidate_shares _ g.gcore n)
  · exact State.issued_l1 rfl (by unfold State.core; rw [hsame.cores]; rfl)

/-- A gang that waits in WAITW: when it began to, and for how long it asks to. -/
def Gang.waitsFor (now ns : Nat) (g : Gang) : Gang := { g with iss := { g.iss with waitFrom := g.iss.waitFrom.or (some (g.iss.since.getD now)), waitNs := ns } }

theorem run_waitw_waits (hi : Issues s g (.waitw h x)) (he : ∃ st, g.executes (.waitw h x) st = true)
    (hst : (paidEnv s g (.waitw h x)).waitStatus x.imm.toNat = none) :
    ∃ t g', exec (.waitw h x) s = .next t ∧ t.gang? g.uid = some g' ∧ g'.pc = g.pc ∧ g'.regs = g.regs ∧ g'.ctl = g.ctl ∧ g'.spec = g.spec ∧ s.sameBytes t := by
  have hacts : (paidEnv s g (.waitw h x)).acts = true := simtEnv_acts he _ _
  have hop : (semWaitw h x).op (paidEnv s g (.waitw h x)) = .wait ((paidEnv s g (.waitw h x)).s.modGang g.uid
      (Gang.waitsFor (s.clock.el) x.imm.toNat)) := by
    unfold semWaitw
    dsimp only
    rw [hacts, hst]
    rfl
  obtain ⟨t, g', h1, h2, h3, h4, h5, h6, h7, _⟩ := run_waits (m := semWaitw h x) (F := Gang.waitsFor s.clock.el x.imm.toNat) hi rfl (fun _ => rfl) ⟨rfl, rfl, rfl, rfl⟩ hop
  exact ⟨t, g', h1, h2, h3, h4, h5, h6, h7⟩

end

/-- Settles O28: WAITW returns the status that there is, with its monitor disarmed and the L1 invalidated, or waits. -/
theorem lineWait : Obligations.LineWait := by
  unfold Obligations.LineWait
  intro s g h x hi he hq hm hloss
  have hmon : (paidEnv s g (.waitw h x)).g.monitor = g.monitor := rfl
  refine ⟨fun st0 hst => run_waitw hi he hq hm hloss ?_, fun m hg hf hless => run_waitw_waits hi he ?_⟩
  · unfold Env.waitStatus
    rcases hst with ⟨h1, rfl⟩ | ⟨m, h1, h2⟩ | ⟨m, h1, h2, hpos, rfl, hpast⟩
    · rw [hmon, h1]
    · rw [hmon, h1]
      dsimp only
      rw [h2]
    · rw [hmon, h1]
      dsimp only
      rw [h2]
      exact if_pos (Bool.and_eq_true_iff.2 ⟨bne_iff_ne.2 (Nat.pos_iff_ne_zero.1 hpos), decide_eq_true hpast⟩)
  · unfold Env.waitStatus
    rw [hmon, hg]
    dsimp only
    rw [hf]
    refine if_neg (fun hc => ?_)
    obtain ⟨h1, h2⟩ := Bool.and_eq_true_iff.1 hc
    rcases hless with h0 | h0
    · rw [h0] at h1
      exact absurd h1 (by decide)
    · exact absurd (of_decide_eq_true h2) (Nat.not_le.2 h0)

end Sys2Proof.Machine
end

section
/-! PROOFS. The flags of a gang's window (R99 to R101, R247 to R249): posts, waits and reads. -/

namespace Sys2Proof.Machine

/-! ## Reads -/

section
variable {s Y : State} {g y g0 : Gang} {i : Instr} {m : Sem}

/-- The flags of every core behind an issue. -/
theorem State.issued_flags (i : Instr) (e : Env) (f : Eff) (ci ct c : Nat) : ((State.issued i e f ci ct).core c).flags = (f.st.core c).flags := by
  rw [State.issued_core]
  split <;> rfl

/-- An instruction that only reads a number for its destination. -/
theorem run_number {d : Reg} {v : Nat} (hi : Issues s g i) (hs : i.seals = false) (he : ∃ st, g.executes i st = true) (hq : s.calmFor g = true)
    (hct : m.ct (simtEnv s g i) = 0)
    (hop : m.op (paidEnv s g i) = .ok { st := (paidEnv s g i).s, writes := (paidEnv s g i).dstAll d .w32 (BitVec.ofNat 128 v) }) :
    ∃ t g', run i m s = .next t ∧ t.gang? g.uid = some g' ∧ g'.pc = g.pc + 8 ∧ Leaves g g' i 0 ∧ WroteOnly g g' i d .w32 ∧
      gets g g' i d .w32 (fun _ => v) ∧ s.sameBytes t ∧ ∀ c, (t.core c).flags = (s.core c).flags := by
  rw [simtEnv_dstAll he] at hop
  obtain ⟨g', h1, h2, h3, h4, h5, h6, h7, _⟩ := run_acts hi hs (Acts.start hi hq) hct hop
  exact ⟨_, g', h1, h2, h3, h4, (resultsFor_dstOnly s g i d .w32 _ _).wrote_of h5 h6 h7, gets_ofNat (resultsFor_gets s d .w32 (fun _ => BitVec.ofNat 128 v) _ h5),
    State.sameBytes_trans (simtEnv_bytes s _ i) (State.issued_bytes ..), fun c => State.issued_flags ..⟩

end

section
variable {s : State} {g : Gang} {h : Hd}

/-- The count of flag n of a gang's core. -/
def State.ownFlag (s : State) (g : Gang) (n : Nat) : BitVec 16 := SMap.get (s.core g.gcore).flags n 0

theorem run_fread {x : RF} (hq : s.calmFor g = true) (hi : Issues s g (.fread h x)) (he : ∃ st, g.executes (.fread h x) st = true) (hin : x.a.toNat < g.window.size) :
    ∃ t g', exec (.fread h x) s = .next t ∧ t.gang? g.uid = some g' ∧ g'.pc = g.pc + 8 ∧ Leaves g g' (.fread h x) 0 ∧
      WroteOnly g g' (.fread h x) x.d .w32 ∧ gets g g' (.fread h x) x.d .w32 (fun _ => (s.ownFlag g (g.flagNo x.a.toNat)).toNat) ∧
      s.sameBytes t ∧ ∀ c, (t.core c).flags = (s.core c).flags := by
  refine run_number (m := semFread h x) hi rfl he hq rfl ?_
  have hacts : (paidEnv s g (.fread h x)).acts = true := simtEnv_acts he _ _
  have hflag : (paidEnv s g (.fread h x)).flagOut x.a.toNat = false := decide_eq_false (Nat.not_le.2 hin)
  have hval : ((paidEnv s g (.fread h x)).flagVal x.a.toNat).setWidth 128 = BitVec.ofNat 128 (s.ownFlag g (g.flagNo x.a.toNat)).toNat := (BitVec.ofNat_toNat ..).symm
  unfold semFread
  dsimp only
  rw [hflag, hacts, hval]
  rfl

theorem run_freadAddr {x : RF} (hq : s.calmFor g = true) (hi : Issues s g (.freadAddr h x)) (he : ∃ st, g.executes (.freadAddr h x) st = true)
    (hin : x.a.toNat < g.window.size) :
    ∃ t g', exec (.freadAddr h x) s = .next t ∧ t.gang? g.uid = some g' ∧ g'.pc = g.pc + 8 ∧ Leaves g g' (.freadAddr h x) 0 ∧
      WroteOnly g g' (.freadAddr h x) x.d .w32 ∧ gets g g' (.freadAddr h x) x.d .w32 (fun _ => g.flagAddr x.a.toNat) ∧
      s.sameBytes t ∧ ∀ c, (t.core c).flags = (s.core c).flags := by
  refine run_number (m := semFreadAddr h x) hi rfl he hq rfl ?_
  have hacts : (paidEnv s g (.freadAddr h x)).acts = true := simtEnv_acts he _ _
  have hflag : (paidEnv s g (.freadAddr h x)).flagOut x.a.toNat = false := decide_eq_false (Nat.not_le.2 hin)
  unfold semFreadAddr
  dsimp only
  rw [hflag, hacts]
  rfl

theorem Gang.flagAddr_eq (g : Gang) (j : Nat) : g.flagAddr j = g.window.base + j + 64 * g.core + 2048 * g.cluster + 65536 * g.window.serial.toNat := by
  unfold Gang.flagAddr Gang.flagNo
  omega

/-! ## FWAIT -/

/-- A gang that has taken n posts of window flag j. -/
def Gang.tookPosts (t : State) (j n : Nat) (g : Gang) : Gang := (g.consumed j n).landTo (t.gclk g)

theorem Gang.tookPosts_keeps (t : State) (j n : Nat) (g : Gang) : ∃ r c p l, g.tookPosts t j n = g.withLanded r c p l := by
  obtain ⟨r, c, p, l, h⟩ := (g.consumed j n).landTo_keeps (t.gclk g)
  exact ⟨r, c, p, l, h⟩

/-- A gang none of whose results is pending takes its posts: no register changes. -/
theorem Gang.tookPosts_none {g : Gang} (h : g.pend = []) (t : State) (j n : Nat) : ∃ l, g.tookPosts t j n = g.withLanded g.regs g.ctl [] l := by
  have hc : g.consumed j n = { g with pend := [] } := by
    unfold Gang.consumed
    rw [h]
    rfl
  unfold Gang.tookPosts
  rw [hc]
  exact ⟨_, rfl⟩

theorem State.takeFlag_eq {t : State} {y : Gang} {u : Nat} (hm : t.muslinMode y.ctx = 0) (hy : t.gang? u = some y) (j n : Nat) :
    t.takeFlag u j n = ((t.modCore y.gcore (fun c => { c with flags := SMap.upd c.flags (y.flagNo j) 0 (fun v => v - BitVec.ofNat 16 n) })).modGang u
      (Gang.tookPosts t j n)).acquire u := by
  unfold State.takeFlag
  rw [hy]
  dsimp only
  rw [State.noteOrder_off hm]
  rfl

theorem semFwait_takes {x : IF} (hm : s.muslinMode g.ctx = 0) (hloss : g.loss = (s.ctx g.ctx).loss) (he : ∃ st, g.executes (.fwait h x) st = true)
    (hin : x.d.toNat < g.window.size) (hn : x.imm.toNat ≤ (s.ownFlag g (g.flagNo x.d.toNat)).toNat) :
    (semFwait h x).op (paidEnv s g (.fwait h x)) = .ok { st := (paidEnv s g (.fwait h x)).s.takeFlag g.uid x.d.toNat x.imm.toNat } := by
  let e := paidEnv s g (.fwait h x)
  have hacts : e.acts = true := simtEnv_acts he _ _
  have hflag : e.flagOut x.d.toNat = false := decide_eq_false (Nat.not_le.2 hin)
  have hmode : e.s.muslinMode e.g.ctx = 0 := hm
  have ht : e.acquireTrap = none := if_neg (show ¬ (g.loss != (s.ctx g.ctx).loss) = true by rw [hloss]; simp)
  have hless : decide ((e.flagVal x.d.toNat).toNat < x.imm.toNat) = false := decide_eq_false (Nat.not_lt.2 hn)
  unfold semFwait
  dsimp only
  rw [hflag, hacts, hless, State.orderOk_off hmode, ht]
  rfl

theorem run_fwait_takes {x : IF} (hq : s.calmFor g = true) (hm : s.muslinMode g.ctx = 0) (hloss : g.loss = (s.ctx g.ctx).loss) (hp : g.pend = [])
    (hi : Issues s g (.fwait h x)) (he : ∃ st, g.executes (.fwait h x) st = true) (hin : x.d.toNat < g.window.size)
    (hn : x.imm.toNat ≤ (s.ownFlag g (g.flagNo x.d.toNat)).toNat) :
    ∃ t g', exec (.fwait h x) s = .next t ∧ t.gang? g.uid = some g' ∧ g'.pc = g.pc + 8 ∧ Leaves g g' (.fwait h x) 0 ∧ keepsRegs g g' ∧ s.sameBytes t ∧
      (t.core g.gcore).flags = SMap.upd (s.core g.gcore).flags (g.flagNo x.d.toNat) 0 (fun v => v - BitVec.ofNat 16 x.imm.toNat) ∧
      (∀ c, c ≠ g.gcore → (t.core c).flags = (s.core c).flags) ∧
      (t.core g.gcore).l1 = (s.core g.gcore).l1.map (fun kl => (kl.1, selfInvalidateLine kl.2)) := by
  let i : Instr := .fwait h x
  let e := paidEnv s g i
  let F : Core → Core := fun c => { c with flags := SMap.upd c.flags (g.flagNo x.d.toNat) 0 (fun v => v - BitVec.ofNat 16 x.imm.toNat) }
  obtain ⟨l, hl⟩ := Gang.tookPosts_none (g := g.charge (ciOf i.maj) 0) hp e.s x.d.toNat x.imm.toNat
  have hacts : Acts s ((e.s.modCore g.gcore F).modGang g.uid (Gang.tookPosts e.s x.d.toNat x.imm.toNat)) g _ (g.withLanded g.regs g.ctl g.pend l) i :=
    ((Acts.start hi hq).modCore g.gcore F).modGang (F := Gang.tookPosts e.s x.d.toNat x.imm.toNat) (g1 := g.withLanded g.regs g.ctl g.pend l)
      (fun y => by obtain ⟨_, _, _, _, h⟩ := y.tookPosts_keeps e.s x.d.toNat x.imm.toNat; rw [h]; rfl)
      (fun y => by obtain ⟨_, _, _, _, h⟩ := y.tookPosts_keeps e.s x.d.toNat x.imm.toNat; rw [h]; rfl)
      (fun y => by obtain ⟨_, _, _, _, h⟩ := y.tookPosts_keeps e.s x.d.toNat x.imm.toNat; rw [h]; exact ⟨rfl, rfl, rfl⟩)
      (by rw [hl, hp]; rfl) hi.unsealed
  have hop := semFwait_takes (h := h) hm hloss he hin hn
  rw [State.takeFlag_eq (t := e.s) (y := g.charge (ciOf i.maj) 0) hm (hi.charged _ _).1] at hop
  have hop' := hop.trans (congrArg (fun t : State => Res.ok { st := t }) (hacts.acquire (by rw [hl]; rfl)))
  have hcore : ((e.s.modCore g.gcore F).modGang g.uid (Gang.tookPosts e.s x.d.toNat x.imm.toNat)).core g.gcore = F (s.core g.gcore) := State.core_modCore_same ..
  have hother : ∀ c, c ≠ g.gcore → ((e.s.modCore g.gcore F).modGang g.uid (Gang.tookPosts e.s x.d.toNat x.imm.toNat)).core c = s.core c := fun c hc =>
    State.core_modCore_ne e.s F (Ne.symm hc)
  have hbytes : s.sameBytes ((e.s.modCore g.gcore F).modGang g.uid (Gang.tookPosts e.s x.d.toNat x.imm.toNat)) := by
    refine State.sameBytes_of rfl rfl rfl rfl rfl (fun c => ?_)
    by_cases hc : c = g.gcore
    · rw [hc, hcore]
    · rw [hother c hc]
  generalize (e.s.modCore g.gcore F).modGang g.uid (Gang.tookPosts e.s x.d.toNat x.imm.toNat) = Y at hacts hop' hcore hother hbytes
  obtain ⟨g', h1, h2, h3, h4, h5⟩ := run_acts_keeps (m := semFwait h x) hi rfl (hacts.selfInvalidate g.gcore) rfl hop'
  refine ⟨_, g', h1, h2, h3, ⟨h4.spec, h4.ctl, h4.rest, h4.park, h4.pend⟩, h5, ?_, ?_, fun c hc => ?_, State.issued_l1 (Y := Y) rfl (by rw [hcore])⟩
  · exact State.sameBytes_trans hbytes (State.sameBytes_trans (State.sameBytes_of (t := Y.selfInvalidate g.gcore) rfl rfl rfl rfl rfl (Y.selfInvalidate_shares g.gcore)) (State.issued_bytes ..))
  · rw [State.issued_flags, State.selfInvalidate_core, hcore]
  · rw [State.issued_flags]
    exact congrArg Core.flags ((State.core_modCore_ne _ _ (Ne.symm hc)).trans (hother c hc))

theorem run_fwait_waits {x : IF} (hi : Issues s g (.fwait h x)) (he : ∃ st, g.executes (.fwait h x) st = true) (hin : x.d.toNat < g.window.size)
    (hn : (s.ownFlag g (g.flagNo x.d.toNat)).toNat < x.imm.toNat) :
    ∃ t g', exec (.fwait h x) s = .next t ∧ t.gang? g.uid = some g' ∧ g'.pc = g.pc ∧ g'.regs = g.regs ∧ g'.ctl = g.ctl ∧ g'.spec = g.spec ∧
      s.sameBytes t ∧ t.cores = s.cores := by
  refine run_waits_plain (m := semFwait h x) hi rfl ?_
  have hacts : (paidEnv s g (.fwait h x)).acts = true := simtEnv_acts he _ _
  have hflag : (paidEnv s g (.fwait h x)).flagOut x.d.toNat = false := decide_eq_false (Nat.not_le.2 hin)
  have hless : decide (((paidEnv s g (.fwait h x)).flagVal x.d.toNat).toNat < x.imm.toNat) = true := decide_eq_true hn
  unfold semFwait
  dsimp only
  rw [hflag, hacts, hless]
  rfl

/-! ## FPOST to another core -/

/-- The post that a gang sends to a flag address. -/
def remotePostOf (e : Env) (x : RF) : Flight :=
  e.flight (.post ((e.uniform { f := x.a, base := true }).setWidth 32) (bits64 (e.uniform { f := x.b, base := true }) 15 0) e.g.ctx) true

theorem run_fpostR {x : RF} (hpo : g.regs.poison = []) (hq : s.calmFor g = true) (hm : s.muslinMode g.ctx = 0) (hl : g.lostStore = false)
    (hi : Issues s g (.fpostR h x)) (he : ∃ st, g.executes (.fpostR h x) st = true) :
    ∃ t g' f, exec (.fpostR h x) s = .next t ∧ t.gang? g.uid = some g' ∧ g'.pc = g.pc + 8 ∧ Leaves g g' (.fpostR h x) 0 ∧ keepsRegs g g' ∧
      s.sameBytes t ∧ t.flights = s.flights ++ [f] ∧ f.request = (remotePostOf (paidEnv s g (.fpostR h x)) x).request := by
  let e := paidEnv s g (.fpostR h x)
  have hacts : e.acts = true := simtEnv_acts he _ _
  have ht : e.releaseTrap = none := if_neg (show ¬ g.lostStore = true by rw [hl]; decide)
  have hop : (semFpostR h x).op e = .ok { st := e.s.launchFlight (remotePostOf e x) } := by
    unfold semFpostR
    dsimp only
    rw [hacts, Env.srcPoison_none (e := e) hpo, Env.srcPoison_none (e := e) hpo, ht]
    rfl
  obtain ⟨z, hz, hsend⟩ := State.launchFlight_sends (s := s) (Z := e.s) (g0 := g) (ct := 0) (f := remotePostOf e x)
    (State.calmFor_charged hi.here hq _ _ _) (hi.charged _ _).2 (hi.charged _ _).1 rfl hi.unsealed rfl (simtEnv_bytes ..) rfl
  obtain ⟨t, g', h1, h2, h3, h4, h5, h6, l, h7, h8⟩ := run_sends_sealing (m := semFpostR h x) hi hsend (State.onlySeals_charged hq (.fpostR h x) _ _) hm rfl (Nat.zero_le _) hop
  obtain ⟨f, rfl, hf⟩ := flights_single h8 hz
  exact ⟨t, g', f, h1, h2, h3, h4, h5, h6, h7, hf⟩

end

/-! ## FPOST to a flag of the own core: it counts in its own step -/

section
variable {s : State} {g : Gang} {a : Flight} {c k n : Nat}

/-- A post of a gang behind which nothing is outstanding may take effect at once (R121, R247). -/
theorem State.enabled_post {u : Nat} (hu : a.uid = some u) (hk : a.kind = .localPost c k n) (hid : a.seq = a.id) (hsh : a.shelved = false)
    (hother : ∀ f ∈ s.flights, f = a ∨ (f.uid ≠ some u ∧ f.seq ≠ a.id)) (hg : s.gang? u = some g) (hl : g.lostStore = false)
    (hm : s.muslinMode a.ctx = 0) (hfr : (s.core a.core).freeze = 0) (hst : (s.core a.core).storing u = false)
    (hmq : ∀ m ∈ (s.core a.core).mq, m.uid ≠ u) : s.enabled a = true := by
  have hfence : a.fence = false := by unfold Flight.fence; rw [hk]
  have hearlier : ∀ f ∈ s.flights, (f.uid == a.uid && a.uid.isSome && decide (f.seq < a.seq)) = false := fun f hf => by
    rcases hother f hf with rfl | ⟨h, _⟩
    · simp
    · simp [hu, h]
  have hrevoking : s.revoking a = false := List.any_eq_false.2 (fun f hf => by
    rcases hother f hf with rfl | ⟨_, h⟩
    · simp [hk]
    · simp [h])
  have hmine : s.flights.filter (fun x => x.uid == a.uid && a.uid.isSome && x.seq < a.seq && !x.shelved) = [] :=
    List.filter_eq_nil_iff.2 (fun f hf => by simp [hearlier f hf])
  have hfollows : s.flights.any a.follows = false := List.any_eq_false.2 (fun f hf => by
    unfold Flight.follows
    rcases hother f hf with rfl | ⟨h, _⟩
    · simp
    · simp [hu, h])
  have hdue : s.releaseDue a = true := by
    have hf : s.flights.any (fun x => x.uid == a.uid && a.uid.isSome && x.seq < a.seq && x.ordered && !x.shelved) = false :=
      List.any_eq_false.2 (fun f hf => by simp [hearlier f hf])
    have hq : (s.core a.core).mq.any (fun m => m.before a) = false := List.any_eq_false.2 (fun m hmem => by
      unfold MEntry.before
      have : u ≠ m.uid := Ne.symm (hmq m hmem)
      simp [hu, this])
    unfold State.releaseDue
    rw [hf, hq, hu]
    simp [hst]
  have hlost : s.lostBefore a = false := by
    unfold State.lostBefore
    rw [hu, Option.bind_some, hg]
    simp [hl]
  have hloss : s.lossBefore a = false := by simp [State.lossBefore, hfence]
  have hheld : s.held a = false := by simp [State.held, Flight.where_, hk, hu, hfr]
  have hlocs : a.locs.all (fun l => s.orderOk a.ctx l a.mark) = true := List.all_eq_true.2 (fun l _ => State.orderOk_off hm l a.mark)
  unfold State.enabled
  simp only [hsh, hrevoking, hmine, hfollows, hdue, hlost, hloss, hheld, hlocs]
  simp

/-- A post that stands last in flight behind no release takes effect at the end of the step. -/
theorem State.applyReleases_post {l : List Flight} (hf : s.flights = l ++ [a]) (hl : ∀ f ∈ l, f.releases = false) (hk : a.kind = .localPost c k n) (he : s.enabled a = true) :
    s.applyReleases = ((if n = 0 then s else s.postFlag c k n a.ctx).endDecoupled a k).dropFlight a.id := by
  unfold State.applyReleases
  rw [hf, List.foldl_append, foldl_id _ l s (fun f hm => ?_), List.foldl_cons, List.foldl_nil, hk]
  · dsimp only
    rw [if_pos he]
  · have hr := hl f hm
    split
    · next hkf => simp [Flight.releases, hkf] at hr
    · next hkf => simp [Flight.releases, hkf] at hr
    · next op hkf =>
      have hop : ¬ 16 ≤ op := by simpa [Flight.releases, hkf] using hr
      rw [if_neg (by simp [hop])]
    · rfl

/-- A post that does not overflow, with the counters of its core off, adds to its flag. -/
theorem State.postFlag_calm {s0 : State} {ctx : Nat} (hq : s0.calmFor g = true) (hdev : s.dev = s0.dev) (hfit : (SMap.get (s.core g.gcore).flags k 0).toNat + n ≤ 65535) :
    s.postFlag g.gcore k n ctx = s.modCore g.gcore (fun c => { c with flags := SMap.set c.flags k (BitVec.ofNat 16 ((SMap.get (s.core g.gcore).flags k 0).toNat + n)) }) := by
  have hadd : addFlag (SMap.get (s.core g.gcore).flags k 0) n = (BitVec.ofNat 16 ((SMap.get (s.core g.gcore).flags k 0).toNat + n), false) :=
    if_neg (Nat.not_lt.2 hfit)
  unfold State.postFlag
  dsimp only
  rw [hadd]
  dsimp only
  rw [if_neg Bool.false_ne_true]
  split
  · next y hy =>
    have hcore : y.gcore = g.gcore := by
      have := List.find?_some hy
      simp only [Bool.and_eq_true, beq_iff_eq] at this
      exact this.1.1.1.1
    have hoff : s0.calmFor y = true := by
      unfold State.calmFor
      rw [hcore]
      exact hq
    have hcount : ∀ t : State, t.dev = s.dev → t.count y 0x10 1 = t := fun t ht => (State.calm_counters hoff (ht.trans hdev)).1 _ _
    exact hcount _ rfl
  · rfl

/-- A state whose flag k of a core has taken n posts. -/
def State.posted (s : State) (c k n : Nat) : State :=
  if n = 0 then s else s.modCore c (fun x => { x with flags := SMap.set x.flags k (BitVec.ofNat 16 ((SMap.get (s.core c).flags k 0).toNat + n)) })

theorem State.posted_eq (s : State) (c k n : Nat) : s.posted c k n = { s with cores := (s.posted c k n).cores } := by
  unfold State.posted
  split <;> rfl

theorem State.posted_core_ne (s : State) {c d : Nat} (k n : Nat) (h : d ≠ c) : (s.posted c k n).core d = s.core d := by
  unfold State.posted
  split
  · rfl
  · exact State.core_modCore_ne _ _ (Ne.symm h)

theorem State.posted_core (s : State) (c k n : Nat) : ∃ fl, (s.posted c k n).core c = { s.core c with flags := fl } ∧
    (∀ m, m ≠ k → SMap.get fl m 0 = SMap.get (s.core c).flags m 0) ∧
    ((SMap.get (s.core c).flags k 0).toNat + n ≤ 65535 → (SMap.get fl k 0).toNat = (SMap.get (s.core c).flags k 0).toNat + n) := by
  unfold State.posted
  split
  · next hn => exact ⟨_, rfl, fun _ _ => rfl, fun _ => by rw [hn]; rfl⟩
  · refine ⟨_, State.core_modCore_same .., fun m hm => SMap.get_set_ne _ _ _ (Ne.symm hm), fun hfit => ?_⟩
    rw [SMap.get_set_same]
    exact Nat.mod_eq_of_lt (Nat.lt_succ_of_le hfit)

/-- What the results of a gang that wait for post a of a flag become when it counts. -/
def Gang.heard (X : State) (y : Gang) (a : Flight) (k : Nat) (x : Gang) : Gang :=
  { x with pend := x.pend.map (fun p =>
      if p.flight == some a.id then
        let q : PendWrite := { p with flight := none, hold := some (k - y.window.base, a.id), land := X.gclk y, key := X.gclk y - y.iss.stall }
        { q with passed := x.iss.ghosts.any (fun z => z.beats q) }
      else p) }

theorem State.endDecoupled_gang {X : State} {y : Gang} {u : Nat} (hu : a.uid = some u) (hy : X.gang? u = some y) :
    X.endDecoupled a k = X.modGang u (Gang.heard X y a k) := by
  have hyu : y.uid = u := by simpa using List.find?_some hy
  unfold State.endDecoupled
  rw [hu, Option.bind_some, hy, ← hyu]
  rfl

/-- The state behind a post that counts at the end of its step. -/
theorem State.applyReleases_posted {X : State} {l : List Flight} {y : Gang} {u : Nat} (hf : X.flights = l ++ [a]) (hl : ∀ f ∈ l, f.releases = false)
    (hid : ∀ f ∈ l, f.id ≠ a.id) (hu : a.uid = some u) (hk : a.kind = .localPost g.gcore k n) (he : X.enabled a = true) (hm : X.muslinMode a.ctx = 0)
    (hy : X.gang? u = some y) (hq : s.calmFor g = true) (hdev : X.dev = s.dev) (hfit : (SMap.get (X.core g.gcore).flags k 0).toNat + n ≤ 65535) :
    ∃ now, X.applyReleases = { X.posted g.gcore k n with
      flights := l
      gangs := (X.modGang u (Gang.heard now y a k)).gangs.map (fun y => { y with iss := { y.iss with block := y.iss.block.filter (fun b => b != a.id) } }) } := by
  have hposted : (if n = 0 then X else X.postFlag g.gcore k n a.ctx) = X.posted g.gcore k n := by
    unfold State.posted
    rw [State.postFlag_calm hq hdev hfit]
  have hfilter : X.flights.filter (fun f => f.id != a.id) = l := by
    rw [hf, List.filter_append, List.filter_eq_self.2 (fun f h => by simpa using hid f h)]
    simp
  have hpost := X.posted_eq g.gcore k n
  refine ⟨X.posted g.gcore k n, ?_⟩
  rw [State.applyReleases_post hf hl hk he, hposted, State.endDecoupled_gang hu (by rw [hpost]; exact hy)]
  generalize X.posted g.gcore k n = P at hpost ⊢
  subst hfilter
  have hP : P.flights = X.flights ∧ P.gangs = X.gangs ∧ ∀ c, P.muslinMode c = X.muslinMode c := by
    rw [hpost]
    exact ⟨rfl, rfl, fun _ => rfl⟩
  rw [State.dropFlight_off]
  · show ({ P with flights := P.flights.filter _, gangs := (P.modGang u _).gangs.map _ } : State) = _
    unfold State.modGang
    rw [hP.1, hP.2.1]
  · intro f hfm hfid
    refine (hP.2.2 _).trans ?_
    rcases List.mem_append.1 (hf ▸ hP.1 ▸ hfm : f ∈ X.flights.filter (fun f => f.id != a.id) ++ [a]) with h | h
    · exact absurd hfid (hid f h)
    · rw [List.mem_singleton.1 h]
      exact hm

end

section
variable {s : State} {g : Gang} {h : Hd} {x : RF}

/-- The post of a gang to a flag of its window. -/
def localPostOf (e : Env) (x : RF) : Flight :=
  e.flight (.localPost e.g.gcore (e.g.flagNo x.d.toNat) (bits64 (e.uniform { f := x.a, base := true }) 15 0)) true

theorem semFpost_op (hpo : g.regs.poison = []) (hl : g.lostStore = false) (he : ∃ st, g.executes (.fpost h x) st = true) (hin : x.d.toNat < g.window.size) :
    (semFpost h x).op (paidEnv s g (.fpost h x)) = .ok { st := (paidEnv s g (.fpost h x)).s.launchFlight (localPostOf (paidEnv s g (.fpost h x)) x) } := by
  let e := paidEnv s g (.fpost h x)
  have hacts : e.acts = true := simtEnv_acts he _ _
  have hflag : e.flagOut x.d.toNat = false := decide_eq_false (Nat.not_le.2 hin)
  have ht : e.releaseTrap = none := if_neg (show ¬ g.lostStore = true by rw [hl]; decide)
  unfold semFpost
  dsimp only
  rw [hflag, hacts, Env.srcPoison_none (e := e) hpo, ht]
  rfl

/-- The post as it stands in flight behind its issue. -/
def postIn (s : State) (g : Gang) (h : Hd) (x : RF) : Flight :=
  { (g.charge (ciOf (Instr.fpost h x).maj) 0).launched (localPostOf (paidEnv s g (.fpost h x)) x) s.next with paid := (ciOf (Instr.fpost h x).maj, 0) }

/-- What the issue of a post leaves before it counts. -/
theorem State.issued_post (hn : s.nothingOut g) (hi : Issues s g (.fpost h x)) :
    let X := State.issued (.fpost h x) (paidEnv s g (.fpost h x)) { st := (paidEnv s g (.fpost h x)).s.launchFlight (localPostOf (paidEnv s g (.fpost h x)) x) }
      (ciOf (Instr.fpost h x).maj) 0
    X.flights = s.flights ++ [postIn s g h x] ∧ X.dev = s.dev ∧ (∀ c, (X.core c).flags = (s.core c).flags) ∧
    X.core g.gcore = Core.issuedBy (.fpost h x) (paidEnv s g (.fpost h x)) s.cycle (s.core g.gcore) ∧ ∃ y, X.gang? g.uid = some y ∧ y.lostStore = false := by
  let e := paidEnv s g (.fpost h x)
  have hg1 : e.s.gang? g.uid = some (g.charge (ciOf (Instr.fpost h x).maj) 0) := (hi.charged _ _).1
  have hst : e.s.launchFlight (localPostOf e x) = _ := State.launchFlight_gang (f := localPostOf e x) hg1
  have hX := State.gang?_issued (i := .fpost h x) (e := e) (f := { st := e.s.launchFlight (localPostOf e x) }) (ci := ciOf (Instr.fpost h x).maj) (ct := 0)
    (show (e.s.launchFlight (localPostOf e x)).gang? g.uid = _ by rw [hst]; exact hg1)
  obtain ⟨_, hlost, _⟩ := Gang.issued_ctl (g.charge (ciOf (Instr.fpost h x).maj) 0) (.fpost h x) { st := e.s.launchFlight (localPostOf e x) } e.npc e.npc
    (e.s.launchFlight (localPostOf e x)).clock.el (ciOf (Instr.fpost h x).maj) 0 rfl rfl
  refine ⟨?_, ?_, fun c => ?_, ?_, _, hX, hlost.trans hn.stored⟩
  · exact State.issued_launched (e := e) (a := (g.charge (ciOf (Instr.fpost h x).maj) 0).launched (localPostOf e x) s.next) (congrArg State.flights hst) rfl
      (fun f hf => ⟨(hn.flights f hf).1, (hn.flights f hf).2.1⟩)
  · exact (State.issued_dev ..).trans ((congrArg State.dev hst).trans rfl)
  · exact (State.issued_flags ..).trans ((congrArg (fun t : State => (t.core c).flags) hst).trans rfl)
  · refine (State.issued_core ..).trans ((if_pos rfl).trans ?_)
    exact (congrArg (fun t : State => Core.issuedBy (.fpost h x) e t.cycle (t.core g.gcore)) hst).trans rfl

/-- A post behind which nothing is outstanding counts in its own step. -/
theorem run_fpost (hpo : g.regs.poison = []) (hn : s.nothingOut g) (hi : Issues s g (.fpost h x)) (he : ∃ st, g.executes (.fpost h x) st = true)
    (hin : x.d.toNat < g.window.size)
    (hfit : (s.ownFlag g (g.flagNo x.d.toNat)).toNat + bits64 ((simtEnv s g (.fpost h x)).uniform { f := x.a, base := true }) 15 0 ≤ 65535) :
    ∃ t g', exec (.fpost h x) s = .next t ∧ t.gang? g.uid = some g' ∧ g'.pc = g.pc + 8 ∧ Leaves g g' (.fpost h x) 0 ∧ keepsRegs g g' ∧
      s.sameBytes t ∧ t.flights = s.flights ∧
      (t.ownFlag g (g.flagNo x.d.toNat)).toNat = (s.ownFlag g (g.flagNo x.d.toNat)).toNat + bits64 ((simtEnv s g (.fpost h x)).uniform { f := x.a, base := true }) 15 0 ∧
      (∀ m, m ≠ g.flagNo x.d.toNat → t.ownFlag g m = s.ownFlag g m) ∧ ∀ c, c ≠ g.gcore → (t.core c).flags = (s.core c).flags := by
  let e := paidEnv s g (.fpost h x)
  let k := g.flagNo x.d.toNat
  let n := bits64 ((simtEnv s g (.fpost h x)).uniform { f := x.a, base := true }) 15 0
  obtain ⟨hg1, hl1⟩ := hi.charged (ciOf (Instr.fpost h x).maj) 0
  have hst : e.s.launchFlight (localPostOf e x) = _ := State.launchFlight_gang (f := localPostOf e x) hg1
  have hl2 : (e.s.launchFlight (localPostOf e x)).noLateTrap := hst ▸ hl1
  have hbytes : s.sameBytes (e.s.launchFlight (localPostOf e x)) := hst ▸ State.sameBytes_of rfl rfl rfl rfl rfl (fun _ => rfl)
  have honly : (e.s.launchFlight (localPostOf e x)).onlySeals g := hst ▸ State.onlySeals_charged hn.calm (.fpost h x) _ _
  obtain ⟨t, g', hr, ht, hg', hpc, hlv, hkr, _⟩ := run_keeps hi (m := semFpost h x) (g0 := g) rfl (semFpost_op hpo hn.stored he hin) hl2 (hst ▸ hg1) rfl hi.unsealed
  have htp : t = (State.issued (.fpost h x) e { st := e.s.launchFlight (localPostOf e x) } (ciOf (Instr.fpost h x).maj) 0).pump :=
    ht.trans (State.commit_issued (e := e) (f := { st := e.s.launchFlight (localPostOf e x) }) hn.calm ((congrArg State.dev hst).trans rfl))
  obtain ⟨hfl, hdev, hflags, hcore, y, hy, hlost⟩ := State.issued_post hn hi
  have hXonly : (State.issued (.fpost h x) e { st := e.s.launchFlight (localPostOf e x) } (ciOf (Instr.fpost h x).maj) 0).onlySeals g := State.onlySeals_issued (s := s) (i := .fpost h x) (ci := ciOf (Instr.fpost h x).maj) (ct := 0) (f := { st := e.s.launchFlight (localPostOf e x) }) honly
  have hXlate := State.issued_noLateTrap (i := .fpost h x) (e := e) (f := { st := e.s.launchFlight (localPostOf e x) }) (ci := ciOf (Instr.fpost h x).maj) (ct := 0) hl2
  have hXbytes := State.sameBytes_trans hbytes (State.issued_bytes (.fpost h x) e { st := e.s.launchFlight (localPostOf e x) } (ciOf (Instr.fpost h x).maj) 0)
  generalize State.issued (.fpost h x) e { st := e.s.launchFlight (localPostOf e x) } (ciOf (Instr.fpost h x).maj) 0 = X at htp hfl hdev hflags hcore hy hXonly hXlate hXbytes
  have hXmode : X.muslinMode g.ctx = 0 := (congrArg (fun z => bits64 z 1 0) (State.reg_of hdev _)).trans hn.muslin
  have henabled : X.enabled (postIn s g h x) = true := by
    refine State.enabled_post (u := g.uid) (c := g.gcore) (k := k) (n := n) rfl rfl rfl rfl (fun f hf => ?_) hy hlost hXmode ?_ ?_ (fun m hm => ?_)
    · rcases List.mem_append.1 (hfl ▸ hf : f ∈ s.flights ++ [postIn s g h x]) with h | h
      · exact Or.inr ⟨(hn.flights f h).1, (hn.flights f h).2.2⟩
      · exact Or.inl (List.mem_singleton.1 h)
    · exact (congrArg Core.freeze hcore).trans hn.thawed
    · exact (congrArg (fun c => c.storing g.uid) hcore).trans hn.seen
    · exact hn.mq m ((congrArg Core.mq hcore) ▸ hm)
  obtain ⟨now, hY⟩ := State.applyReleases_posted (k := k) (n := n) hfl (State.calmFor_flights hn.calm) (fun f hf => (hn.flights f hf).2.1) rfl rfl henabled hXmode hy hn.calm hdev
    (by rw [hflags]; exact hfit)
  obtain ⟨fl, hflag, hkeep, hadd⟩ := X.posted_core g.gcore k n
  have hYonly : X.applyReleases.onlySeals g := by
    rw [hY]
    exact fun z hz => State.onlySeals_map (State.onlySeals_modGang hXonly (F := Gang.heard now y (postIn s g h x) k) (fun _ => rfl) (fun _ => rfl))
      (F := fun y => { y with iss := { y.iss with block := y.iss.block.filter (fun b => b != (postIn s g h x).id) } }) (fun _ => ⟨rfl, rfl, id⟩) z hz
  have hYmode : X.applyReleases.muslinMode g.ctx = 0 := by
    rw [hY, State.posted_eq]
    exact hXmode
  have hrest := (State.onlySeals_pump hYonly hYmode (State.noLateTrap_passed (State.applyReleases_passed _) (State.applyReleases_losses _) hXlate)).rest
  rw [← htp, hY] at hrest
  have hcores : ∀ c, t.core c = (X.posted g.gcore k n).core c := fun c => by
    rw [hrest]
    rfl
  have hown : (t.core g.gcore).flags = fl := by rw [hcores, hflag]
  refine ⟨t, g', hr, hg', hpc, hlv, hkr, State.sameBytes_trans hXbytes ?_, (congrArg State.flights hrest).trans rfl, ?_, fun m hm => ?_, fun c hc => ?_⟩
  · rw [X.posted_eq] at hrest
    refine State.sameBytes_of ?_ ?_ ?_ ?_ ?_ (fun c => ?_)
    case refine_6 =>
      rw [hcores]
      by_cases hc : c = g.gcore
      · rw [hc, hflag]
      · rw [X.posted_core_ne k n hc]
    all_goals rw [hrest]
  · unfold State.ownFlag
    rw [hown, hadd (by rw [hflags]; exact hfit), hflags]
  · unfold State.ownFlag
    rw [hown, hkeep m hm, hflags]
  · rw [hcores, X.posted_core_ne k n hc, hflags]

end

/-- A count from which no more is taken than it holds. -/
theorem flag_sub (v : BitVec 16) {n : Nat} (h : n ≤ v.toNat) : (v - BitVec.ofNat 16 n).toNat = v.toNat - n := by
  have := v.isLt
  rw [BitVec.toNat_sub, BitVec.toNat_ofNat, Nat.mod_eq_of_lt (by omega : n < 2 ^ 16)]
  omega

/-- Settles O29: each instruction on flags by its own lemma. -/
theorem flags : Obligations.Flags := by
  unfold Obligations.Flags
  intro s g h hpo hq hm hlost hloss hfr hp flag otherFlags
  have hcount : ∀ (t : State) n, flag t n = t.ownFlag g n := fun _ _ => rfl
  refine ⟨fun x hi he hin hfit hf hst hmq => ?_, fun x hi he => ?_, fun x hi he hin => ⟨fun hn => ?_, fun hn => ?_⟩, fun x hi he hin => ?_, fun x hi he hin => ?_⟩
  · obtain ⟨t, g', h1, h2, h3, h4, h5, h6, h7, h8, h9, h10⟩ := run_fpost hpo ⟨hq, hm, hlost, hfr, hf, hst, hmq⟩ hi he hin hfit
    exact ⟨t, g', h1, h2, h3, h4, h5, h6, h7, h8, h9, h10⟩
  · obtain ⟨t, g', f, h1, h2, h3, h4, h5, h6, h7, h8⟩ := run_fpostR hpo hq hm hlost hi he
    exact ⟨t, g', f, h1, h2, h3, h4, h5, h6, h7, (congrArg Flight.rel h8 :), (congrArg Flight.uid h8 :), (congrArg Flight.kind h8 :)⟩
  · obtain ⟨t, g', h1, h2, h3, h4, h5, h6, h7, h8, h9⟩ := run_fwait_takes hq hm hloss hp hi he hin hn
    refine ⟨t, g', h1, h2, h3, h4, h5, h6, ?_, ⟨fun m hm => ?_, h8⟩, h9⟩
    · rw [hcount, State.ownFlag, h7]
      exact (congrArg BitVec.toNat (SMap.get_set_same ..)).trans (flag_sub _ hn)
    · show SMap.get (t.core g.gcore).flags m 0 = _
      rw [h7]
      exact SMap.get_set_ne _ _ _ (Ne.symm hm)
  · obtain ⟨t, g', h1, h2, h3, h4, h5, h6, h7, h8⟩ := run_fwait_waits hi he hin hn
    refine ⟨t, g', h1, h2, h3, h4, h5, h6, h7, fun m => ?_⟩
    show SMap.get (t.core g.gcore).flags m 0 = _
    unfold State.core
    rw [h8]
    rfl
  · obtain ⟨t, g', h1, h2, h3, h4, h5, h6, h7, h8⟩ := run_fread hq hi he hin
    exact ⟨t, g', h1, h2, h3, h4, h5, h6, h7, fun m => congrArg (fun l => SMap.get l m 0) (h8 g.gcore)⟩
  · obtain ⟨t, g', h1, h2, h3, h4, h5, h6, h7, _⟩ := run_freadAddr hq hi he hin
    rw [g.flagAddr_eq] at h6
    exact ⟨t, g', h1, h2, h3, h4, h5, h7, h6⟩

end Sys2Proof.Machine
end

section
/-! PROOFS. The matrix engine, tiles and the taking up of commands (R97, R282 to R284, R292). -/

namespace Sys2Proof.Machine

/-! ## Tiles of a core -/

section
variable (s : State) (core k : Nat) (f : Tile → Tile)

theorem State.tile_modTile_same : (s.modTile core k f).tile core k = f (s.tile core k) := by
  unfold State.modTile State.tile
  rw [State.core_modCore_same]
  exact SMap.get_set_same ..

theorem State.tile_modTile_ne {j : Nat} (h : j ≠ k) : (s.modTile core k f).tile core j = s.tile core j := by
  unfold State.modTile State.tile
  rw [State.core_modCore_same]
  exact SMap.get_set_ne _ _ _ (Ne.symm h)

end

theorem Core.frozen_of_thawed {c : Core} (h : c.freeze = 0) : c.frozen = false := by
  unfold Core.frozen
  rw [h]
  rfl

/-! ## The matrix engine starts and ends an instruction (R282 to R284) -/

theorem matrixStart_starts {s : State} {core : Nat} {m : MEntry} (hfr : (s.core core).freeze = 0) (hfree : (s.core core).mfree ≤ (s.core core).clk) (hm : s.mNext core = some m) :
    ∃ t, exec (.matrixStart core) s = .next t ∧ (t.core core).mfree = (s.core core).clk + m.occupancy ∧
      (∀ x ∈ (t.core core).mq, x.id = m.id → x.started = some (s.core core).clk) ∧ (∀ c, c ≠ core → t.core c = s.core c) := by
  have hexec : exec (.matrixStart core) s = .next (s.modCore core (fun c => { c with
      mfree := c.clk + m.occupancy, mq := c.mq.map (fun x => if x.id == m.id then { s.mRead core m with started := some (s.core core).clk } else x) })) := by
    show execMatrixStart core s = _
    unfold execMatrixStart
    dsimp only
    rw [Core.frozen_of_thawed hfr, decide_eq_false (Nat.not_lt.2 hfree), hm]
    rfl
  refine ⟨_, hexec, ?_, fun x hx hid => ?_, fun c hc => State.core_modCore_ne _ _ (Ne.symm hc)⟩
  · rw [State.core_modCore_same]
  · rw [State.core_modCore_same] at hx
    obtain ⟨y, _, rfl⟩ := List.mem_map.1 hx
    by_cases hy : (y.id == m.id) = true
    · rw [if_pos hy]
    · rw [if_neg hy] at hid
      exact absurd (beq_iff_eq.2 hid) hy

/-- Every element of an accumulator tile that is given whole. -/
theorem accOf_get (p : Bool) (f : Nat → Nat → Word32) {i j : Nat} (hi : i < 32) (hj : j < 32) : (accOf p f).get (32 * i + j) = f i j := by
  have hfind : SMap.find (accOf p f).cells (32 * i + j) = some (f i j) := by
    refine SMap.find_of_only (List.mem_flatten.2 ⟨_, List.mem_map_of_mem (List.mem_range.2 hi), List.mem_map_of_mem (List.mem_range.2 hj)⟩) (fun x hx hk => ?_)
    obtain ⟨l, hl, hxl⟩ := List.mem_flatten.1 hx
    obtain ⟨i', _, rfl⟩ := List.mem_map.1 hl
    obtain ⟨j', hj', rfl⟩ := List.mem_map.1 hxl
    have hlt := List.mem_range.1 hj'
    have hii : i' = i := by
      dsimp only at hk
      omega
    have hjj : j' = j := by
      dsimp only at hk
      omega
    rw [hii, hjj]
  unfold AccTile.get
  rw [hfind]

/-- What the matrix engine leaves when its only instruction ends, one that writes an accumulator tile and is well. -/
theorem matrixCompletion_ends {s : State} {core : Nat} {m : MEntry} {t0 n : Nat} (hmq : (s.core core).mq = [m]) (hst : m.started = some t0)
    (hdue : t0 + m.occupancy + 4 ≤ (s.core core).clk) (hfr : (s.core core).freeze = 0) (hflag : m.flag = .none) (hs : s.settled = true)
    (hz : m.z = some n) (hok : (∃ h x, m.instr = .zclr h x) ∨ ∃ h x, m.instr = .mma h x ∧ m.bad = false) :
    ∃ t, exec (.matrixCompletion core) s = .next t ∧ (t.core core).mq = [] ∧
      (t.core core).accTile (4 * m.slot + n) = m.result ((s.core core).accTile (4 * m.slot + n)) s.draw := by
  have hkey : 4 * m.slot + m.z.getD 0 = 4 * m.slot + n := by rw [hz]; rfl
  let s1 : State := s.modCore core (fun c => { c with mq := c.mq.filter (fun x => x.id != m.id) })
  let s2 : State := { s1.modCore core (fun c => { c with acc := SMap.set c.acc (4 * m.slot + n) (m.result (c.accTile (4 * m.slot + n)) s.draw) }) with draw := s.draw + 1 }
  have hexec : exec (.matrixCompletion core) s = .next s2 := by
    show execMatrixCompletion core s = _
    unfold execMatrixCompletion
    dsimp only
    simp only [hmq, List.filter, hst, decide_eq_true hdue, List.foldl, Core.frozen_of_thawed hfr, if_neg Bool.false_ne_true]
    rw [hkey, hflag]
    have hpump : s2.pump = s2 := State.pump_settled hs
    rcases hok with ⟨h, x, hi⟩ | ⟨h, x, hi, hb⟩
    · rw [hi, Bool.and_false]
      exact congrArg Host.Outcome.next hpump
    · rw [hi, hb]
      exact congrArg Host.Outcome.next hpump
  have hcore : s2.core core = { s.core core with
      mq := [], acc := SMap.set (s.core core).acc (4 * m.slot + n) (m.result ((s.core core).accTile (4 * m.slot + n)) s.draw) } := by
    have hgone : [m].filter (fun x => x.id != m.id) = [] := by simp
    refine (State.core_modCore_same s1 core (fun c => { c with acc := SMap.set c.acc (4 * m.slot + n) (m.result (c.accTile (4 * m.slot + n)) s.draw) })).trans ?_
    rw [State.core_modCore_same, hmq, hgone]
    rfl
  refine ⟨s2, hexec, ?_, ?_⟩
  · rw [hcore]
  · rw [hcore]
    exact SMap.get_set_same ..

theorem matrixCompletion_zclr {s : State} {core : Nat} {m : MEntry} {t0 : Nat} {h : Hd} {x : EF} (hmq : (s.core core).mq = [m]) (hst : m.started = some t0)
    (hdue : t0 + m.occupancy + 4 ≤ (s.core core).clk) (hfr : (s.core core).freeze = 0) (hflag : m.flag = .none) (hs : s.settled = true) (hi : m.instr = .zclr h x) :
    ∃ t, exec (.matrixCompletion core) s = .next t ∧ (t.core core).mq = [] ∧
      ∀ k < 1024, ((t.core core).accTile (4 * m.slot + zNum x)).get k = (match x.pat.toNat % 4 with | 0 => 0 | 1 => 0xFF800000 | _ => 0x7F800000) := by
  obtain ⟨t, h1, h2, h3⟩ := matrixCompletion_ends (n := zNum x) hmq hst hdue hfr hflag hs (by unfold MEntry.z; rw [hi]) (Or.inl ⟨h, x, hi⟩)
  refine ⟨t, h1, h2, fun k hk => ?_⟩
  have hsplit : k = 32 * (k / 32) + k % 32 := by omega
  rw [h3, hsplit]
  unfold MEntry.result
  rw [hi]
  exact accOf_get _ _ (by omega) (by omega)

theorem matrixCompletion_mma {s : State} {core : Nat} {m : MEntry} {t0 : Nat} {h : Hd} {x : EF} (hmq : (s.core core).mq = [m]) (hst : m.started = some t0)
    (hdue : t0 + m.occupancy + 4 ≤ (s.core core).clk) (hfr : (s.core core).freeze = 0) (hflag : m.flag = .none) (hs : s.settled = true) (hi : m.instr = .mma h x)
    (hb : m.bad = false) (hA : m.hitA = []) (hB : m.hitB = []) :
    ∃ t, exec (.matrixCompletion core) s = .next t ∧ (t.core core).mq = [] ∧
      ∀ i < 32, ∀ j < 32, ((t.core core).accTile (4 * m.slot + zNum x)).get (32 * i + j) =
        BitVec.ofNat 32 (mmaCell x.fn.toNat (mmaB x) x.pat.toNat (m.rowOf i) (m.colOf j)
          (if x.qual.getLsbD 2 then 0 else (((s.core core).accTile (4 * m.slot + zNum x)).get (32 * i + j)).toNat)) := by
  obtain ⟨t, h1, h2, h3⟩ := matrixCompletion_ends (n := zNum x) hmq hst hdue hfr hflag hs (by unfold MEntry.z; rw [hi]) (Or.inr ⟨h, x, hi, hb⟩)
  refine ⟨t, h1, h2, fun i hi' j hj => ?_⟩
  have hsp : m.spoilt i j = false := by
    unfold MEntry.spoilt
    rw [hi, hA, hB]
    rfl
  rw [h3]
  unfold MEntry.result
  rw [hi]
  dsimp only
  rw [accOf_get _ _ hi' hj, hsp]
  rfl

/-! ## A tile that nothing reads any more becomes empty (R97) -/

theorem tileDrainComplete_empties {s : State} {core k : Nat} (hst : (s.tile core k).state = 3) (hbusy : s.tileBusy core k = false) (hfr : (s.core core).freeze = 0) :
    ∃ t, exec (.tileDrainComplete core k) s = .next t ∧ t.tile core k = { s.tile core k with state := 0 } ∧ ∀ j, j ≠ k → t.tile core j = s.tile core j := by
  refine ⟨s.modTile core k (fun t => { t with state := 0 }), ?_, State.tile_modTile_same .., fun j hj => State.tile_modTile_ne _ _ _ _ hj⟩
  show execTileDrainComplete core k s = _
  unfold execTileDrainComplete
  rw [hst, hbusy, Core.frozen_of_thawed hfr]
  rfl

/-! ## A command is taken up (R97, R292) -/

theorem State.cmd?_id {s : State} {id : Nat} {c : Cmd} (h : s.cmd? id = some c) : c.id = id := by simpa using List.find?_some h

/-- The command of a number after a change of it that keeps its number. -/
theorem State.cmd?_modCmd {s : State} {id : Nat} {c : Cmd} (f : Cmd → Cmd) (h : s.cmd? id = some c) (hf : ∀ x, x.id = id → (f x).id = id) :
    (s.modCmd id f).cmd? id = some (f c) := by
  have key : ∀ l : List Cmd, l.find? (fun c => c.id == id) = some c → (l.map (fun c => if c.id == id then f c else c)).find? (fun c => c.id == id) = some (f c) := by
    intro l
    induction l with
    | nil => exact fun h => nomatch h
    | cons x l ih =>
      intro h
      by_cases hx : (x.id == id) = true
      · simp only [List.find?_cons, hx] at h
        obtain rfl := Option.some.inj h
        simp only [List.map_cons, if_pos hx, List.find?_cons, beq_iff_eq.2 (hf x (beq_iff_eq.1 hx))]
      · simp only [List.find?_cons, hx] at h
        rw [List.map_cons, if_neg hx]
        simp only [List.find?_cons, hx]
        exact ih h
  exact key s.cmds h

theorem engineCommandTakeUp_takes {s : State} {id : Nat} {c : Cmd} {sk dk src dst n rows ss ds st dt : Nat} (hc : s.cmd? id = some c)
    (hk : c.kind = .copy sk dk src dst n rows ss ds st dt) (htk : c.taken = false) (herr : c.err = 0) (hfirst : s.cmdFirst c = true) (hfr : s.cmdFrozen c = false)
    (hy : s.yieldsTile c = false) (hsk : sk = 2 → (s.tile c.gcore st).state = 2) (hdk : dk = 2 → (s.tile c.gcore dt).state = 0) :
    ∃ t, exec (.engineCommandTakeUp id) s = .next t ∧
      t.cmd? id = some { c with taken := true, held := (c.drains ++ c.fills).map (fun k => (k, s.tile c.gcore k)) } ∧
      (sk = 2 → (t.tile c.gcore st).state = 3) ∧ (dk = 2 → (t.tile c.gcore dt).state = 1 ∧ (t.tile c.gcore dt).filler = 0) := by
  have hexec : exec (.engineCommandTakeUp id) s = .next (s.takeUp c) := by
    show execEngineCommandTakeUp id s = _
    unfold execEngineCommandTakeUp
    rw [hc]
    dsimp only
    rw [htk, herr, hfirst, hfr, hy]
    rfl
  let take : Cmd → Cmd := fun x => { x with taken := true, held := (x.drains ++ x.fills).map (fun k => (k, s.tile c.gcore k)) }
  let T := s.modCmd c.id take
  have hid := State.cmd?_id hc
  have hT : T.cmd? id = some { c with taken := true, held := (c.drains ++ c.fills).map (fun k => (k, s.tile c.gcore k)) } := by
    show (s.modCmd c.id take).cmd? id = _
    rw [show s.modCmd c.id take = s.modCmd id take by rw [hid]]
    exact State.cmd?_modCmd take hc (fun _ h => h)
  have hwait : ((sk == 2 && (s.tile c.gcore st).state != 2) || (dk == 2 && (s.tile c.gcore dt).state != 0)) = false := by
    by_cases h1 : sk = 2 <;> by_cases h2 : dk = 2 <;> simp_all
  have htake : s.takeUp c = if dk = 2 then (if sk = 2 then T.modTile c.gcore st (fun t => { t with state := 3 }) else T).modTile c.gcore dt (fun t => { t with state := 1, filler := 0 })
      else if sk = 2 then T.modTile c.gcore st (fun t => { t with state := 3 }) else T := by
    unfold State.takeUp
    rw [hk]
    dsimp only
    rw [hwait]
    rfl
  refine ⟨_, hexec, ?_, fun h => ?_, fun h => ?_⟩
  · rw [htake]
    split <;> split <;> exact hT
  · rw [htake, if_pos h]
    split
    · next hd =>
      have hne : st ≠ dt := fun he => absurd ((hsk h).symm.trans (he ▸ hdk hd)) (by decide)
      rw [State.tile_modTile_ne _ _ _ _ hne, State.tile_modTile_same]
    · rw [State.tile_modTile_same]
  · rw [htake, if_pos h, State.tile_modTile_same]
    exact ⟨rfl, rfl⟩

end Sys2Proof.Machine
end

section
/-! PROOFS. The move of a copy or of a chunk that one step brings to its end (R290, R292). -/

namespace Sys2Proof.Machine

/-! ## The places and the pieces of a copy (R292) -/

theorem isSpad_of_isDram {pa : Nat} (h : isDram pa = true) : isSpad pa = false := by
  simp only [isDram, isSpad, Bool.and_eq_false_iff, decide_eq_true_eq, decide_eq_false_iff_not] at h ⊢
  omega

theorem isFabric_of_isDram {pa : Nat} (h : isDram pa = true) : isFabric pa = false := by
  simp only [isDram, isFabric, Bool.and_eq_false_iff, decide_eq_true_eq, decide_eq_false_iff_not] at h ⊢
  omega

/-- A command of a packet takes physical addresses (R292). -/
theorem State.cmdGeneric_device {s : State} {c : Cmd} {a : Nat} (hu : c.uid = none) (w : Bool) :
    s.cmdGeneric c a w = if isDram a then .at_ a else .bad 2 a := by
  unfold State.cmdGeneric
  rw [hu]
  rfl

/-- A piece of one row lies in it, at the place of its first byte, and in one page. -/
theorem State.pieces_row {s : State} {c : Cmd} {kind tile base str n : Nat} {w : Bool} {p : Nat × Nat} (h : p ∈ s.pieces c kind tile base str n 1 w) :
    ∃ lo, base ≤ lo ∧ lo + p.2 ≤ base + n ∧ s.cmdSpot c kind tile lo w = .at_ p.1 ∧ (lo = base ∨ 4096 ∣ lo) := by
  unfold State.pieces at h
  simp only [List.range_one, List.map_cons, List.map_nil, Nat.zero_mul, Nat.add_zero, List.flatten_cons, List.flatten_nil, List.append_nil, List.mem_filterMap, List.mem_range] at h
  obtain ⟨i, hi, hp⟩ := h
  split at hp
  · next pa hpa =>
    obtain rfl := Option.some.inj hp
    refine ⟨_, Nat.le_max_left .., ?_, hpa, ?_⟩ <;> omega
  · cases hp


theorem State.overlap_mem {s : State} {c : Cmd} {m : Move} {x : Nat} (hm : m.rows = 1) (h : x ∈ s.overlap c m) :
    ∃ p q lo lo', s.cmdSpot c m.sk m.st lo false = .at_ p ∧ s.cmdSpot c m.dk m.dt lo' true = .at_ q ∧
      m.src ≤ lo ∧ m.dst ≤ lo' ∧ p ≤ x ∧ x + lo < p + m.src + m.n ∧ q ≤ x ∧ x + lo' < q + m.dst + m.n ∧ (lo' = m.dst ∨ 4096 ∣ lo') := by
  unfold State.overlap at h
  rw [hm] at h
  simp only [List.mem_flatMap, List.mem_map, List.mem_range] at h
  obtain ⟨p, hp, q, hq, i, hi, rfl⟩ := h
  obtain ⟨lo, h1, h2, h3, -⟩ := State.pieces_row hp
  obtain ⟨lo', k1, k2, k3, k4⟩ := State.pieces_row hq
  refine ⟨p.1, q.1, lo, lo', h3, k3, h1, k1, ?_, ?_, ?_, ?_, k4⟩ <;> omega

/-- Where the source and the destination of a copy have no byte in common, the move keeps nothing back. -/
theorem State.keep_apart {s : State} {c : Cmd} {m : Move} (h : s.overlap c m = []) : ∃ b u, s.keep c m = (s, { c with gapped := b, undo := u }) := by
  unfold State.keep
  rw [h]
  split
  · exact ⟨_, _, rfl⟩
  · exact ⟨c.gapped, c.undo, rfl⟩

/-- A move that one step brings to its end. -/
theorem State.moveOn_once {s : State} {c : Cmd} {m : Move} {k goal : Nat} (h1 : c.moved < goal) (h2 : c.err = 0) (h3 : c.wait = []) (h4 : s.stalled c m = false)
    (h5 : goal ≤ (s.moveStep c m (goal - c.moved)).2.moved) : State.moveOn (k + 1) s c m goal = s.moveStep c m (goal - c.moved) := by
  have hend : ∀ (k : Nat) (t : State) (d : Cmd), goal ≤ d.moved → State.moveOn k t d m goal = (t, d) := by
    intro k t d hd
    cases k with
    | zero => rfl
    | succ k =>
      unfold State.moveOn
      rw [decide_eq_true hd]
      rfl
  rw [State.moveOn, h2, h3, h4, decide_eq_false (Nat.not_le.2 h1)]
  exact hend _ _ _ h5

/-- The state in which a command's step reads: the walks of a command of a gang have filled the TLBs (R105). -/
def State.looked (s : State) (c : Cmd) (a b : Nat) : State :=
  if c.uid.isSome then (s.cache c.unit c.ctx a (s.translate c.unit c.ctx a)).cache c.unit c.ctx b (s.translate c.unit c.ctx b) else s

/-- The state after such a step has read and written. -/
def State.readWritten (s : State) (c : Cmd) (pa pb n : Nat) (bs : List Byte) : State :=
  ({ (s.cmdRead c pa n).2.2 with draw := (s.cmdRead c pa n).2.2.draw + 1 } : State).cmdWrite c pb bs (s.cmdRead c pa n).2.1

/-- A step that moves a whole row inside one unit: it reads the source and writes what it read, some bytes as free values where the command has kept
bytes back; a poisoned source ends it with the code 6. -/
theorem State.moveStep_row {s : State} {c : Cmd} {m : Move} {pa pb : Nat} (hz : c.moved = 0)
    (ha : s.cmdSpot c m.sk m.st m.src false = .at_ pa) (hb : s.cmdSpot c m.dk m.dt m.dst true = .at_ pb)
    (hfa : isFabric pa = false) (hfb : isFabric pb = false) (hua : pa % 64 + m.n ≤ 64) (hub : pb % 64 + m.n ≤ 64) :
    ∃ bs t c1, bs.length = m.n ∧ (c.kept = [] → bs = (List.range m.n).map (fun i => ((s.looked c m.src m.dst).cmdRead c pa m.n).1.getD i 0)) ∧
      s.moveStep c m m.n = (t, c1) ∧
      (t = (s.looked c m.src m.dst).readWritten c pa pb m.n bs ∨
        c.uid ≠ none ∧ ∃ g, t = ((s.looked c m.src m.dst).readWritten c pa pb m.n bs).count g 0x0F m.n) ∧
      c1 = { c with moved := m.n, undo := c1.undo, maxOff := c1.maxOff, errPa := c1.errPa
                    err := if ((s.looked c m.src m.dst).cmdRead c pa m.n).2.1 then 6 else c.err } := by
  let got := (s.looked c m.src m.dst).cmdRead c pa m.n
  let bs := (List.range m.n).map (fun i => if (SMap.find c.kept (pb + i)).isSome then Config.freeByte got.2.2.draw i else SMap.get c.kept (pa + i) (got.1.getD i 0))
  let W := (s.looked c m.src m.dst).readWritten c pa pb m.n bs
  let c1 : Cmd := { c with moved := m.n, undo := s.remember c pb m.n, maxOff := if m.dk = 2 then max c.maxOff (m.dst + m.n) else c.maxOff }
  have hstep : s.moveStep c m m.n = (match c.uid.bind W.gang? with | some g => W.count g 0x0F m.n | none => W, if got.2.1 then c1.fail 6 pa else c1) := by
    unfold State.moveStep
    rw [hz, Nat.zero_div, Nat.zero_mod]
    dsimp only
    simp only [Nat.zero_mul, Nat.add_zero, ha, hb]
    rw [hfa, hfb, Bool.or_self, if_neg Bool.false_ne_true, Nat.sub_zero, Nat.zero_add]
    rw [show min (min m.n m.n) (min (64 - pa % 64) (64 - pb % 64)) = m.n by omega]
    rfl
  refine ⟨bs, _, _, by simp [bs], fun hk => ?_, hstep, ?_, ?_⟩
  · simp only [bs, hk]
    rfl
  · cases hu : c.uid.bind W.gang? with
    | none => exact Or.inl rfl
    | some g => exact Or.inr ⟨fun h => absurd (h ▸ hu) (fun h => nomatch h), g, rfl⟩
  · cases hp : got.2.1 with
    | false => rfl
    | true => rfl

/-- What the move of a command leaves that has one row to move, inside one unit, and nothing to keep back: it reads and writes once, or not at all
where the row has no byte. -/
theorem State.move_row {s : State} {c : Cmd} {pa pb : Nat} (hr : c.mv.rows = 1) (hn : c.mv.n ≤ 64) (ho : s.overlap c c.mv = []) (hz : c.moved = 0) (he : c.err = 0)
    (hw : c.wait = []) (hst : s.stalled c c.mv = false)
    (ha : s.cmdSpot c c.mv.sk c.mv.st c.mv.src false = .at_ pa) (hb : s.cmdSpot c c.mv.dk c.mv.dt c.mv.dst true = .at_ pb)
    (hfa : isFabric pa = false) (hfb : isFabric pb = false) (hua : pa % 64 + c.mv.n ≤ 64) (hub : pb % 64 + c.mv.n ≤ 64) :
    ∃ bs t c1, bs.length = c.mv.n ∧ (c.kept = [] → bs = (List.range c.mv.n).map (fun i => ((s.looked c c.mv.src c.mv.dst).cmdRead c pa c.mv.n).1.getD i 0)) ∧
      s.move c = (t, c1) ∧
      (c.mv.n = 0 ∧ t = s ∨ t = (s.looked c c.mv.src c.mv.dst).readWritten c pa pb c.mv.n bs ∨
        c.uid ≠ none ∧ ∃ g, t = ((s.looked c c.mv.src c.mv.dst).readWritten c pa pb c.mv.n bs).count g 0x0F c.mv.n) ∧
      c1 = { c with moved := c.mv.n, undo := c1.undo, maxOff := c1.maxOff, errPa := c1.errPa, gapped := c1.gapped, err := c1.err } ∧
      (((s.looked c c.mv.src c.mv.dst).cmdRead c pa c.mv.n).2.1 = false → c1.err = 0) := by
  obtain ⟨b, u, hk⟩ := State.keep_apart ho
  have hgoal : min (c.mv.n * c.mv.rows) (c.moved + engineQuantum) = c.mv.n := by
    rw [hr, hz]
    unfold engineQuantum
    omega
  let d : Cmd := { c with gapped := b, undo := u }
  have hmove : s.move c = State.moveOn c.mv.n s d c.mv c.mv.n := by
    unfold State.move
    dsimp only
    rw [hgoal, hk]
    exact congrArg (State.moveOn · s d c.mv c.mv.n) (by rw [hz, Nat.sub_zero])
  cases hlen : c.mv.n with
  | zero =>
    refine ⟨[], s, d, rfl, fun _ => rfl, by rw [hmove, hlen]; rfl, Or.inl ⟨rfl, rfl⟩, ?_, fun _ => he⟩
    show d = { c with moved := 0, undo := d.undo, maxOff := c.maxOff, errPa := c.errPa, gapped := d.gapped, err := c.err }
    rw [← hz]
  | succ k =>
    rw [← hlen]
    obtain ⟨bs, t, c1, h1, h2, h3, h4, h5⟩ := State.moveStep_row (s := s) (c := d) (m := c.mv) hz ha hb hfa hfb hua hub
    have hrun : State.moveOn c.mv.n s d c.mv c.mv.n = (t, c1) := by
      have hd : c.mv.n - d.moved = c.mv.n := by rw [show d.moved = 0 from hz, Nat.sub_zero]
      have hdone : c.mv.n ≤ (s.moveStep d c.mv (c.mv.n - d.moved)).2.moved := by
        rw [hd, h3, h5]
      have hlt : d.moved < c.mv.n := by
        rw [show d.moved = 0 from hz, hlen]
        exact Nat.succ_pos k
      have := State.moveOn_once (k := k) hlt he hw hst hdone
      rw [← hlen, hd, h3] at this
      exact this
    refine ⟨bs, t, c1, h1, h2, hmove.trans hrun, Or.inr h4, ?_, fun hp => ?_⟩
    · rw [h5]
    · rw [h5]
      have hp' : ((s.looked d c.mv.src c.mv.dst).cmdRead d pa c.mv.n).2.1 = false := hp
      rw [hp']
      exact he

/-! ## Reads and walks of a command -/

/-- What the walks and the reads of a command leave: every read of bytes is the same, and the commands are. -/
structure State.Seen (s t : State) : Prop extends s.Walked t where
  cmds : t.cmds = s.cmds

theorem State.Seen.refl (s : State) : s.Seen s := ⟨.refl s, rfl⟩

theorem State.Seen.trans {s t u : State} (h : s.Seen t) (k : t.Seen u) : s.Seen u := ⟨h.toWalked.trans k.toWalked, k.cmds.trans h.cmds⟩

theorem State.seen_touch2 (s : State) (pa : Nat) (a : Asker) : s.Seen (s.touch2 pa a) :=
  ⟨s.walked_touch2 pa a, State.touch2_frame State.cmds (fun _ _ => rfl) (fun _ _ => rfl) (fun _ _ => rfl) (fun _ _ _ _ => rfl) s pa a⟩

theorem Slice.find_wayOf {h : Slice} {pa w : Nat} (hw : h.wayOf pa = some w) : ∃ l, SMap.find h.lines (16 * setOf2 pa + w) = some l := by
  have := List.find?_some hw
  split at this
  · next l hl => exact ⟨l, hl⟩
  · cases this

/-- A read that asks for no place in the L2 changes no line. -/
theorem State.seen_stamp2 (s : State) (pa : Nat) {a : Asker} (ha : ¬ a.nud < 15) : s.Seen (s.stamp2 pa a false) := by
  unfold State.stamp2
  dsimp only
  split
  · exact .refl s
  · next w hw =>
    obtain ⟨l, hl⟩ := Slice.find_wayOf hw
    simp only [if_neg ha, if_neg Bool.false_ne_true]
    refine ⟨⟨s.sameReads_modSlice _ _ (fun k => ?_), rfl, rfl, rfl, rfl, rfl, fun _ _ => rfl⟩, rfl⟩
    rw [SMap.find_upd]
    split
    · next hk => rw [← hk, SMap.get, hl]; rfl
    · rfl

theorem State.seen_homeRead (s : State) (p : Path) (pa n : Nat) {a : Asker} (ha : ¬ a.nud < 15) : s.Seen (s.homeRead p pa n a).2.2 := by
  unfold State.homeRead State.pathRead
  dsimp only
  rw [decide_eq_false ha, Bool.and_false]
  exact (s.seen_touch2 pa a).trans (State.seen_stamp2 _ pa ha)

theorem State.homeRead_reads (s : State) (p : Path) (pa n : Nat) {a : Asker} (ha : ¬ a.nud < 15) :
    (s.homeRead p pa n a).1 = (List.range n).map (fun i => (s.pathByte p (pa + i)).1) ∧
    (s.homeRead p pa n a).2.1 = ((List.range n).map (fun i => s.pathByte p (pa + i))).any Prod.snd := by
  have hb : ∀ i, (s.homeRead p pa n a).2.2.pathByte p (pa + i) = s.pathByte p (pa + i) := fun i => (s.seen_homeRead p pa n ha).toSameReads.pathByte p _
  have hs : (s.homeRead p pa n a).1 = ((List.range n).map (fun i => (s.homeRead p pa n a).2.2.pathByte p (pa + i))).map Prod.fst ∧
      (s.homeRead p pa n a).2.1 = ((List.range n).map (fun i => (s.homeRead p pa n a).2.2.pathByte p (pa + i))).any Prod.snd := ⟨rfl, rfl⟩
  simp only [hb] at hs
  rw [hs.1, hs.2, List.map_map]
  exact ⟨rfl, rfl⟩

theorem State.seen_cache (s : State) (unit ctx va : Nat) (w : Walk) : s.Seen (s.cache unit ctx va w) := by
  refine ⟨s.walked_cache unit ctx va w, ?_⟩
  have hwalk : (s.walked unit ctx va).cmds = s.cmds := by
    unfold State.walked
    exact foldl_keep State.cmds _ (fun st x => (st.seen_touch2 ..).cmds) _ s
  unfold State.cache
  split
  · extract_lets e first
    have hfirst : ∀ t : State, (first t).cmds = t.cmds := fun t => by
      show (if unit < 256 then t.tlbPut { e with unit := firstLevel unit } else t).cmds = _
      split <;> rfl
    split
    · rfl
    · split
      · exact hfirst s
      · exact (hfirst _).trans hwalk
  · exact hwalk

theorem State.seen_looked (s : State) (c : Cmd) (a b : Nat) : s.Seen (s.looked c a b) := by
  unfold State.looked
  split
  · exact (s.seen_cache ..).trans (State.seen_cache ..)
  · exact .refl s

end Sys2Proof.Machine
end

section
/-! PROOFS. Commands that end (R97, R290, R292). -/

namespace Sys2Proof.Machine

/-! ## What a report of a command leaves (R64, R293) -/

/-- What the record of an error leaves as it was: nothing becomes due, and the CPY path sees every byte it saw. -/
structure State.Reported (s t : State) : Prop where
  settled : t.settled = s.settled
  cpy     : ∀ x, t.pathByte .cpy x = s.pathByte .cpy x

theorem State.Reported.refl (s : State) : s.Reported s := ⟨rfl, fun _ => rfl⟩

theorem State.Reported.trans {s t u : State} (h : s.Reported t) (k : t.Reported u) : s.Reported u :=
  ⟨k.settled.trans h.settled, fun x => (k.cpy x).trans (h.cpy x)⟩

/-- A change outside the gangs, the operations in flight and the memory. -/
theorem State.reported_of {s t : State} (hs : s.SameReads t) (hf : t.flights = s.flights) (hg : t.gangs = s.gangs) : s.Reported t :=
  ⟨State.settled_of_eq hf hg, hs.pathByte .cpy⟩

theorem State.reported_outside {s t : State} (h : t = { s with ctxs := t.ctxs, hosts := t.hosts, out := t.out, logs := t.logs, cmds := t.cmds, launches := t.launches }) :
    s.Reported t := by
  rw [h]
  exact State.reported_of ⟨.of_eq rfl rfl rfl rfl (fun _ => rfl), rfl, rfl⟩ rfl rfl

theorem State.reported_hostWrite (s : State) (id pa : Nat) (bs : List Byte) : s.Reported (s.pathWrite .host id pa bs) :=
  ⟨s.pathWrite_settled .., fun x => by rw [State.pathByte_pathWrite, if_neg (fun h => absurd h.1 (by decide))]⟩

theorem State.reported_muslin (s : State) (c k : Nat) (fs : List Nat) (bs : List Byte) : s.Reported (s.muslin c k fs bs) := by
  unfold State.muslin
  dsimp only
  split
  · exact .refl s
  · split
    · exact State.reported_outside rfl
    · exact (s.reported_hostWrite ..).trans (State.reported_outside rfl)

theorem State.reported_fire (s : State) (c off vec : Nat) : s.Reported (s.fire c off vec) := by
  unfold State.fire
  extract_lets m w fn port limit h
  have hm : s.Reported m := s.reported_muslin ..
  split
  · exact hm
  · split
    · exact hm.trans (State.reported_outside rfl)
    · exact hm.trans (State.reported_outside rfl)

theorem State.reported_log (s : State) (c k pa who d : Nat) : s.Reported (s.log c k pa who d) := by
  unfold State.log
  extract_lets b x base size bytes s1 s2 vec
  have h2 : s.Reported s2 := (s.reported_hostWrite ..).trans (State.reported_outside rfl)
  split
  · exact .refl s
  · split
    · exact State.reported_outside rfl
    · split
      · exact h2.trans (State.reported_fire ..)
      · exact h2

theorem State.reported_recordError {s : State} {c : Cmd} (hu : c.uid = none) (code pa : Nat) : s.Reported (s.recordError c code pa) := by
  unfold State.recordError
  rw [hu]
  exact State.reported_log ..

/-! ## The end of a command -/

/-- The end of a command that stores no time and resolves no future. -/
theorem State.closeCmd_plain {s : State} {c : Cmd} (hk : ∀ port len off ck va k, c.kind ≠ .netx port len 1 off ck va k) (hf : c.future = none) :
    s.closeCmd c = (s.modCmd c.id (fun _ => c)).endCmd c none := by
  have hfin : s.finishCmd c = (s.modCmd c.id (fun _ => c)).endCmd c none := by
    unfold State.finishCmd
    rw [hf]
  unfold State.closeCmd
  split
  · next h _ => exact absurd h (hk _ _ _ _ _ _)
  · exact hfin

theorem State.cmd?_filter (l : List Cmd) (id : Nat) : (l.filter (fun x => x.id != id)).find? (fun x => x.id == id) = none := by
  refine List.find?_eq_none.2 (fun x hx => ?_)
  have := (List.mem_filter.1 hx).2
  simpa using this

/-- The end of a command of a packet that fills and reads no tile and posts no flag. -/
theorem State.endCmd_device {s : State} {c : Cmd} (hu : c.uid = none) (hf : c.fills = []) (hs : c.source = none) (hg : c.flag = .none) :
    (s.endCmd c none).cmd? c.id = none ∧ s.Reported (s.endCmd c none) := by
  have hrec : s.Reported (if c.err = 0 then s else s.recordError c c.err c.errPa) := by
    split
    · exact .refl s
    · exact State.reported_recordError hu ..
  unfold State.endCmd State.postCmd State.postRef
  rw [hf, hs, hg]
  exact ⟨State.cmd?_filter .., hrec.trans (State.reported_outside rfl)⟩

/-! ## A physical copy of a packet (R292, R296) -/

section
variable {s : State} {c : Cmd} {src dst n : Nat} (hk : c.kind = .copy 0 0 src dst n 1 0 0 0 0) (hu : c.uid = none)
include hk

theorem Cmd.mv_copyRow : c.mv = { sk := 0, dk := 0, src := src, dst := dst, st := 0, dt := 0, n := n, rows := 1, ss := 0, ds := 0 } := by
  unfold Cmd.mv
  rw [hk]

include hu

theorem State.overlap_copyRow (h : src + n ≤ dst ∨ dst + n ≤ src) : s.overlap c c.mv = [] := by
  rw [Cmd.mv_copyRow hk]
  refine List.eq_nil_iff_forall_not_mem.2 (fun x hx => ?_)
  obtain ⟨p, q, lo, lo', hp, hq, h1, h2, h3, h4, h5, h6, -⟩ := State.overlap_mem rfl hx
  have hat : ∀ {a r : Nat} {w : Bool}, s.cmdSpot c 0 0 a w = .at_ r → r = a := fun {a r w} h => by
    have h : s.cmdGeneric c a w = .at_ r := h
    rw [State.cmdGeneric_device hu] at h
    split at h
    · exact (Spot.at_.inj h).symm
    · cases h
  have hp := hat hp
  have hq := hat hq
  dsimp only at h1 h2 h4 h6
  omega

end

theorem engineCommandCompletion_copies {s : State} {id : Nat} {c : Cmd} {src dst n : Nat} (hc : s.cmd? id = some c) (hk : c.kind = .copy 0 0 src dst n 1 0 0 0 0)
    (hu : c.uid = none) (htk : c.taken = true) (he : c.err = 0) (hw : c.wait = []) (hz : c.moved = 0) (hkept : c.kept = []) (hfl : c.flag = .none) (hfu : c.future = none)
    (heg : c.egress = false) (hsrc : isDram src = true) (hdst : isDram dst = true) (hus : src % 64 + n ≤ 64) (hud : dst % 64 + n ≤ 64)
    (hapart : src + n ≤ dst ∨ dst + n ≤ src) (hs : s.settled = true) (hturn : s.myTurn c = true) :
    ∃ t, exec (.engineCommandCompletion id) s = .next t ∧ t.cmd? id = none ∧ ∀ i < n, (t.pathByte .cpy (dst + i)).1 = (s.pathByte .cpy (src + i)).1 := by
  have hid := State.cmd?_id hc
  have hmv := Cmd.mv_copyRow hk
  have hspot : ∀ {a : Nat} (w : Bool), isDram a = true → s.cmdSpot c 0 0 a w = .at_ a := fun {a} w ha => by
    show s.cmdGeneric c a w = _
    rw [State.cmdGeneric_device hu, if_pos ha]
  have hst : s.stalled c c.mv = false := by
    have hends : c.ends c.mv = (src, dst) := by
      unfold Cmd.ends
      rw [hmv, hz]
      simp
    unfold State.stalled
    rw [hends, hmv]
    dsimp only
    rw [hspot false hsrc, hspot true hdst]
    simp [isSpad_of_isDram, hsrc, hdst]
  obtain ⟨bs, t, c1, hlen, hbs, hmove, ht, hc1, -⟩ := State.move_row (s := s) (c := c) (pa := src) (pb := dst) (by rw [hmv]) (by rw [hmv]; dsimp only; omega)
    (State.overlap_copyRow hk hu hapart) hz he hw hst (by rw [hmv]; exact hspot false hsrc) (by rw [hmv]; exact hspot true hdst)
    (isFabric_of_isDram hsrc) (isFabric_of_isDram hdst) (by rw [hmv]; exact hus) (by rw [hmv]; exact hud)
  have hn : c.mv.n = n := by rw [hmv]
  have hlook : ∀ a b, s.looked c a b = s := fun a b => by
    unfold State.looked
    rw [hu]
    rfl
  rw [hlook] at ht hbs
  have hask : ¬ (c.asker s).nud < 15 := Nat.lt_irrefl 15
  have hpath : c.path = .cpy := by
    unfold Cmd.path
    rw [heg]
    rfl
  have hmoved : t.settled = true ∧ ∀ i < n, (t.pathByte .cpy (dst + i)).1 = (s.pathByte .cpy (src + i)).1 := by
    rcases ht with ⟨h0, rfl⟩ | rfl | ⟨h, -⟩
    · exact ⟨hs, fun i hi => by omega⟩
    · have hread : s.cmdRead c src c.mv.n = s.homeRead .cpy src n (c.asker s) := by
        unfold State.cmdRead
        rw [if_pos hsrc, hpath, hn]
      have hX := s.seen_homeRead .cpy src n hask
      unfold State.readWritten State.cmdWrite
      rw [if_pos hdst, hread, hpath]
      refine ⟨?_, fun i hi => ?_⟩
      · rw [State.pathWrite_settled]
        exact (State.settled_of_eq hX.flights hX.gangs).trans hs
      · rw [State.pathByte_pathWrite, if_pos ⟨rfl, Nat.le_add_right .., by omega⟩, Nat.add_sub_cancel_left, hbs hkept, hread, (s.homeRead_reads .cpy src n hask).1]
        simp [hn, hi]
    · exact absurd hu h
  have hdone : (c1.wait.isEmpty && (c1.err != 0 || c1.allMoved)) = true := by
    rw [hc1]
    simp [hw, Cmd.allMoved, Cmd.mv, hk]
  have hexec : exec (.engineCommandCompletion id) s = .next (t.closeCmd c1).pump := by
    show execEngineCommandCompletion id s = _
    unfold execEngineCommandCompletion
    have hovr : c.ovr = true := by
      unfold Cmd.ovr
      rw [hk, htk, Bool.or_true]
    have hfirst : s.cmdFirst c = true := by simp [State.cmdFirst, hu]
    have hfroz : s.cmdFrozen c = false := by simp [State.cmdFrozen, hu]
    rw [hc]
    dsimp only
    rw [hovr, hw, hfirst, hfroz, hk]
    dsimp only
    rw [hst, hturn, he, hmove]
    simp [hdone]
  have hk1 : c1.kind = .copy 0 0 src dst n 1 0 0 0 0 := by rw [hc1, hk]
  have hclose : t.closeCmd c1 = (t.modCmd c1.id (fun _ => c1)).endCmd c1 none := State.closeCmd_plain (by simp [hk1]) (by rw [hc1, hfu])
  have hrep : (t.closeCmd c1).cmd? id = none ∧ t.Reported (t.closeCmd c1) := by
    have hend := State.endCmd_device (s := t.modCmd c1.id (fun _ => c1)) (c := c1) (by rw [hc1, hu]) (by simp [Cmd.fills, hk1]) (by simp [Cmd.source, hk1]) (by rw [hc1, hfl])
    rw [hclose]
    refine ⟨?_, State.Reported.trans (State.reported_outside rfl) hend.2⟩
    rw [← hid, show c.id = c1.id by rw [hc1]]
    exact hend.1
  refine ⟨t.closeCmd c1, ?_, hrep.1, fun i hi => ?_⟩
  · rw [hexec, State.pump_settled (hrep.2.settled.trans hmoved.1)]
  · rw [hrep.2.cpy, hmoved.2 i hi]

/-! ## A frame leaves (R297) -/

theorem State.drainNow_frame {γ : Type} (p : State → γ) (hc : ∀ (s : State) l, p { s with cores := l } = p s) (s : State) (core k : Nat) : p (s.drainNow core k) = p s := by
  unfold State.drainNow
  split
  · exact hc s _
  · rfl

/-- The state without a command that has ended, whose packet has ended with it. -/
def State.ended (s : State) (c : Cmd) : State :=
  { s with
    cmds := s.cmds.filter (fun x => x.id != c.id)
    launches := s.launches.map (fun (l : Launch) => if c.packet == some l.id then { l with ended := true, status := if c.err = 0 then 0 else 10 } else l) }

/-- The end of a command without an error that fills no tile and posts no flag. -/
theorem State.endCmd_clear {s : State} {c : Cmd} (he : c.err = 0) (hf : c.fills = []) (hg : c.flag = .none) :
    s.endCmd c none = match c.source with | some k => if c.taken then (s.ended c).drainNow c.gcore k else s.ended c | none => s.ended c := by
  unfold State.endCmd State.postCmd State.postRef
  rw [if_pos he, hf, hg]
  rfl

theorem State.endCmd_clear_leaves {s : State} {c : Cmd} (he : c.err = 0) (hf : c.fills = []) (hg : c.flag = .none) :
    (s.endCmd c none).cmd? c.id = none ∧ (s.endCmd c none).out = s.out ∧ (s.endCmd c none).settled = s.settled := by
  have hc : (s.ended c).cmd? c.id = none := State.cmd?_filter ..
  rw [State.endCmd_clear he hf hg]
  split
  · split
    · exact ⟨(State.drainNow_frame (fun s => s.cmd? c.id) (fun _ _ => rfl) ..).trans hc, State.drainNow_frame State.out (fun _ _ => rfl) ..,
        State.drainNow_frame State.settled (fun _ _ => rfl) ..⟩
    · exact ⟨hc, rfl, rfl⟩
  · exact ⟨hc, rfl, rfl⟩

theorem netxFrameSent_leaves {s : State} {id : Nat} {c : Cmd} {port len off ck va k : Nat} (hc : s.cmd? id = some c) (hk : c.kind = .netx port len 0 off ck va k)
    (htk : c.taken = true) (hse : c.sent = none) (he : c.err = 0) (hfirst : s.cmdFirst c = true) (hfr : (s.core c.gcore).freeze = 0) (hup : s.portUp port = true)
    (heg : c.egress = true) (hfu : c.future = none) (hfl : c.flag = .none) (hs : s.settled = true)
    {pa : Nat} (hpa : pa = spadPa c.cluster (tileEa c.core k 0 (s.cmdTile c k))) (hd : isDram pa = false) (hsp : isSpad pa = true)
    (hclean : ∀ i < len, (s.spadByte .net (pa + i)).2 = false) {wire : List Byte}
    (hwire : wire = (List.range len).map (fun i => (s.spadByte .net (pa + i)).1) ++ List.replicate (60 - len) 0#8) :
    ∃ t, exec (.netxFrameSent id) s = .next t ∧ t.cmd? id = none ∧ .frame port (wire ++ fcs wire) s.clock.t ∈ t.out := by
  have hid := State.cmd?_id hc
  have hread : s.cmdRead c pa len = ((List.range len).map (fun i => (s.spadByte .net (pa + i)).1), false, s) := by
    have hpoison : ((List.range len).map (fun i => s.spadByte .net (pa + i))).any Prod.snd = false := by
      simp only [List.any_map, List.any_eq_false, List.mem_range, Function.comp]
      exact fun i hi => by simp [hclean i hi]
    have hpath : c.path = .net := by
      unfold Cmd.path
      rw [heg]
      rfl
    unfold State.cmdRead
    rw [hd, if_neg Bool.false_ne_true, if_pos hsp, hpath]
    dsimp only
    rw [hpoison, List.map_map]
    rfl
  let c1 : Cmd := { c with kind := .netx port len 0 off ck va k, sent := some s.clock.t }
  let s1 : State := { s with out := s.out ++ [.frame port (wire ++ fcs wire) s.clock.t] }
  let s2 : State := match c.uid.bind s1.gang? with | some g => s1.count g 0x0F len | none => s1
  have hexec : exec (.netxFrameSent id) s = .next ((s2.modCmd id (fun _ => c1)).closeCmd c1).pump := by
    show execNetxFrameSent id s = _
    unfold execNetxFrameSent
    have hfroz : s.cmdFrozen c = false := by simp [State.cmdFrozen, Core.frozen_of_thawed hfr]
    rw [hc]
    dsimp only
    rw [hk]
    dsimp only
    have hgo : (!c.taken || c.sent.isSome || c.err != 0 || !s.cmdFirst c || s.cmdFrozen c) = false := by
      rw [htk, hse, he, hfirst, hfroz]
      rfl
    rw [hgo, if_neg Bool.false_ne_true, ← hpa, hread, hup]
    simp only [Bool.not_true, Bool.false_eq_true, if_false, if_pos he]
    rw [if_neg (by decide), ← hwire] <;> rfl
  have hclose : (s2.modCmd id (fun _ => c1)).closeCmd c1 = ((s2.modCmd id (fun _ => c1)).modCmd c1.id (fun _ => c1)).endCmd c1 none :=
    State.closeCmd_plain (by simp [c1]) hfu
  have hend := State.endCmd_clear_leaves (s := (s2.modCmd id (fun _ => c1)).modCmd c1.id (fun _ => c1)) (c := c1) he (by simp [Cmd.fills, c1]) hfl
  rw [← hclose] at hend
  obtain ⟨h1, h2, h3⟩ := hend
  have hout : s2.out = s1.out ∧ s2.settled = s.settled := by
    show (match c.uid.bind s1.gang? with | some g => s1.count g 0x0F len | none => s1).out = _ ∧ (match c.uid.bind s1.gang? with | some g => s1.count g 0x0F len | none => s1).settled = _
    split
    · exact ⟨State.count_frame State.out (fun _ _ => rfl) (fun _ _ _ _ => rfl) .., State.count_frame State.settled (fun _ _ => rfl) (fun _ _ _ _ => rfl) ..⟩
    · exact ⟨rfl, rfl⟩
  have hset : ((s2.modCmd id (fun _ => c1)).closeCmd c1).settled = true := h3.trans (hout.2.trans hs)
  refine ⟨_, hexec.trans (congrArg _ (State.pump_settled hset)), ?_, ?_⟩
  · exact hid ▸ h1
  · rw [h2]
    refine hout.1 ▸ ?_
    exact List.mem_append_right _ (List.mem_singleton_self _)

end Sys2Proof.Machine
end

section
/-! PROOFS. A stream's chunk ends (R95, R294). -/

namespace Sys2Proof.Machine

/-! ## What the writes to the scratchpad leave of a core -/

/-- The tiles of a core, and how often its shares have been given out. -/
def Core.files (c : Core) : SMap Tile × SMap (BitVec 2) := (c.tiles, c.gens)

theorem Core.modL1_files (c : Core) (pa : Nat) (f : L1Line → L1Line) : (c.modL1 pa f).files = c.files := by
  unfold Core.modL1
  split
  · rfl
  · split <;> rfl

theorem State.pathWrite_files (s : State) (p : Path) (id pa : Nat) (bs : List Byte) (po : Bool) (a : Asker) (n : Nat) :
    ((s.pathWrite p id pa bs po a).core n).files = (s.core n).files := by
  refine State.pathWrite_keep (fun st => (st.core n).files) (fun _ _ => rfl) (fun _ _ _ => rfl) (fun st w pa len => ?_) ..
  refine SMap.get_mapped st.cores _ Core.files (fun x => ?_) (fun x => ?_) n {} <;> split
  · rfl
  · rfl
  · rfl
  · exact Core.modL1_files ..

theorem State.files_modCore {s : State} {m : Nat} {f : Core → Core} (hf : ∀ c, (f c).files = c.files) (n : Nat) : ((s.modCore m f).core n).files = (s.core n).files := by
  by_cases h : m = n
  · rw [← h, State.core_modCore_same, hf]
  · rw [State.core_modCore_ne _ _ h]

theorem State.bankStore_files (s : State) (pa : Nat) (bs : List Byte) (po fresh : Bool) (n : Nat) :
    ((s.bankStore pa bs po fresh).core n).files = (s.core n).files := by
  refine foldl_keep (fun s : State => (s.core n).files) _ (fun st i => ?_) _ s
  refine State.files_modCore (fun c => ?_) n
  rfl

/-- A merge of writes to the scratchpad leaves the tiles as they are. -/
theorem State.mergeSpad_files (s : State) (pa len n : Nat) : ((s.mergeSpad pa len).core n).files = (s.core n).files := by
  have key : ∀ (l : List PathWrite) (t : State), (∀ w ∈ l, isSpad w.pa = true) → ((l.foldl State.mergeOne t).core n).files = (t.core n).files := by
    intro l
    induction l with
    | nil => exact fun _ _ => rfl
    | cons w l ih =>
      intro t hl
      have hw := hl w (List.mem_cons_self ..)
      have hd : isDram w.pa = false := by
        cases h : isDram w.pa
        · rfl
        · exact absurd (isSpad_of_isDram h) (by rw [hw]; decide)
      refine (ih _ (fun x hx => hl x (List.mem_cons_of_mem _ hx))).trans ?_
      unfold State.mergeOne
      rw [hd, if_neg Bool.false_ne_true, if_pos hw]
      exact State.bankStore_files ..
  refine key _ _ (fun w hw => ?_)
  have := (List.mem_filter.1 hw).2
  simp only [Bool.and_eq_true] at this
  exact this.1.1.1

theorem State.tile_of_files {s t : State} {n : Nat} (h : (t.core n).files = (s.core n).files) (k : Nat) : t.tile n k = s.tile n k := by
  unfold State.tile
  rw [show (t.core n).tiles = (s.core n).tiles from congrArg Prod.fst h]

theorem State.tileStill_of_files {s t : State} {c : Cmd} (h : (t.core c.gcore).files = (s.core c.gcore).files) (k : Nat) : t.tileStill c k = s.tileStill c k := by
  unfold State.tileStill
  rw [show (t.core c.gcore).gens = (s.core c.gcore).gens from congrArg Prod.snd h]

/-! ## The move of a chunk -/

theorem State.cmdGeneric_at {s : State} {c : Cmd} {a q : Nat} {w : Bool} (h : s.cmdGeneric c a w = .at_ q) : isDram q = true ∨ isFabric q = true := by
  unfold State.cmdGeneric at h
  split at h
  · split at h
    · next hd => exact Or.inl (Spot.at_.inj h ▸ hd)
    · cases h
  · split at h
    · cases h
    · split at h
      · cases h
      · next rd wr _ _ =>
        dsimp only at h
        generalize (if w then wr else rd) = allowed at h
        cases allowed with
        | false => cases h
        | true =>
          rw [Bool.not_true, if_neg Bool.false_ne_true] at h
          split at h
          · next hd =>
            rw [← Spot.at_.inj h]
            simp only [Bool.or_eq_true, Bool.and_eq_true] at hd
            exact hd.imp id And.left
          · cases h


section
variable {s : State} {c : Cmd} {base n m step wrap k a pa : Nat} (hk : c.kind = .strm false 0 base n m step wrap k)
  (ha : a = base + (if wrap = 0 then c.chunk * step else c.chunk * step % wrap))
include hk ha

theorem Cmd.mv_strmIn : c.mv = { sk := 0, dk := 2, src := a, dst := 0, st := 0, dt := k, n := n, rows := 1, ss := 0, ds := 0 } := by
  unfold Cmd.mv
  rw [hk, ha]
  rfl

/-- The bytes of a chunk come from outside the scratchpad. -/
theorem State.overlap_strmIn (hn : n ≤ 64) (hsp : isSpad (spadPa c.cluster (tileEa c.core k 0 (s.cmdTile c k))) = true) : s.overlap c c.mv = [] := by
  rw [Cmd.mv_strmIn hk ha]
  refine List.eq_nil_iff_forall_not_mem.2 (fun x hx => ?_)
  obtain ⟨p, q, lo, lo', hp, hq, h1, h2, h3, h4, h5, h6, h7⟩ := State.overlap_mem rfl hx
  dsimp only at h1 h2 h4 h6 h7
  have hlo : lo' = 0 := h7.elim id (fun h => Nat.eq_zero_of_dvd_of_lt h (by omega))
  have hq : spadPa c.cluster (tileEa c.core k lo' (s.cmdTile c k)) = q := Spot.at_.inj hq
  have hp : s.cmdGeneric c lo false = .at_ p := hp
  rw [hlo] at hq
  rw [hq] at hsp
  have hout := State.cmdGeneric_at hp
  simp only [isDram, isSpad, isFabric, Bool.and_eq_true, decide_eq_true_eq] at hsp hout
  omega

end

/-- A chunk that a stream brings into its tile: the tile is as it was, and nothing becomes due. -/
theorem State.move_strmIn {s : State} {c : Cmd} {base n m step wrap k a pa : Nat} (hk : c.kind = .strm false 0 base n m step wrap k)
    (ha : a = base + (if wrap = 0 then c.chunk * step else c.chunk * step % wrap)) (he : c.err = 0) (hw : c.wait = []) (hz : c.moved = 0)
    (hs : s.settled = true) (hst : s.stalled c c.mv = false) (hat : s.cmdGeneric c a false = .at_ pa) (hd : isDram pa = true) (hu : pa % 64 + n ≤ 64)
    (hclean : (s.cmdRead c pa n).2.1 = false) (hsp : isSpad (spadPa c.cluster (tileEa c.core k 0 (s.cmdTile c k))) = true) :
    ∃ t c1, s.move c = (t, c1) ∧ t.settled = true ∧ t.cmds = s.cmds ∧ (t.core c.gcore).files = (s.core c.gcore).files ∧
      c1.err = 0 ∧ c1.wait = [] ∧ c1.allMoved = true ∧ c1.id = c.id := by
  have hmv := Cmd.mv_strmIn hk ha
  have hn : c.mv.n = n := by rw [hmv]
  have hsrc : c.mv.src = a := by rw [hmv]
  have hdst : c.mv.dst = 0 := by rw [hmv]
  let pb := spadPa c.cluster (tileEa c.core k 0 (s.cmdTile c k))
  have hfb : isFabric pb = false := by
    simp only [isSpad, isFabric, Bool.and_eq_true, Bool.and_eq_false_iff, decide_eq_true_eq, decide_eq_false_iff_not] at hsp ⊢
    omega
  have hdb : isDram pb = false := by
    cases h : isDram pb
    · rfl
    · exact absurd (isSpad_of_isDram h) (by rw [hsp]; decide)
  have hub : pb % 64 + n ≤ 64 := by
    simp only [pb, spadPa, tileEa]
    omega
  obtain ⟨bs, t, c1, -, -, hmove, ht, hc1, herr⟩ := State.move_row (s := s) (c := c) (pa := pa) (pb := pb) (by rw [hmv]) (by rw [hn]; omega)
    (State.overlap_strmIn hk ha (by omega) hsp) hz he hw hst (by rw [hmv]; exact hat) (by rw [hmv]; rfl) (isFabric_of_isDram hd) hfb (by rw [hn]; exact hu) (by rw [hn]; exact hub)
  rw [hsrc, hdst, hn] at ht herr
  have hX := s.seen_looked c a 0
  generalize s.looked c a 0 = X at hX ht herr
  have hask : ∀ t : State, ¬ (c.asker t).nud < 15 := fun _ => Nat.lt_irrefl 15
  have hread : ∀ t : State, t.cmdRead c pa n = t.homeRead c.path pa n (c.asker t) := fun t => if_pos hd
  have hpoison : (X.cmdRead c pa n).2.1 = false := by
    rw [hread, (X.homeRead_reads _ _ _ (hask X)).2]
    rw [hread, (s.homeRead_reads _ _ _ (hask s)).2] at hclean
    simpa only [hX.toSameReads.pathByte] using hclean
  let Y : State := { (X.cmdRead c pa n).2.2 with draw := (X.cmdRead c pa n).2.2.draw + 1 }
  have hY : s.Seen (X.cmdRead c pa n).2.2 := by
    rw [hread]
    exact hX.trans (X.seen_homeRead _ _ _ (hask X))
  have keep : ∀ {γ : Type} (p : State → γ), (∀ (s : State) l, p { s with wrapped := l } = p s) → (∀ (s : State) a v, counterBlock 0 ≤ a → p (s.setReg a v) = p s) →
      (∀ (s : State) q id pa bs po a, p (s.pathWrite q id pa bs po a) = p s) → (p Y = p s) → p t = p s := by
    intro γ p h1 h2 h3 h4
    have hW : p (X.readWritten c pa pb n bs) = p s := by
      unfold State.readWritten State.cmdWrite
      rw [hdb, if_neg Bool.false_ne_true, if_pos hsp]
      split
      · exact (h3 ..).trans h4
      · exact h4
    rcases ht with ⟨-, rfl⟩ | rfl | ⟨-, g, rfl⟩
    · rfl
    · exact hW
    · exact (State.count_frame p h1 h2 ..).trans hW
  refine ⟨t, c1, hmove, ?_, ?_, ?_, herr hpoison, by rw [hc1, hw], ?_, by rw [hc1]⟩
  · exact (keep State.settled (fun _ _ => rfl) (fun _ _ _ _ => rfl) (fun s q id pa bs po a => State.pathWrite_settled ..) (State.settled_of_eq hY.flights hY.gangs)).trans hs
  · exact keep State.cmds (fun _ _ => rfl) (fun _ _ _ _ => rfl)
      (fun s q id pa bs po a => State.pathWrite_keep State.cmds (fun _ _ => rfl) (fun _ _ _ => rfl) (fun _ _ _ _ => rfl) ..) hY.cmds
  · exact keep (fun s => (s.core c.gcore).files) (fun _ _ => rfl) (fun _ _ _ _ => rfl) (fun s q id pa bs po a => State.pathWrite_files ..)
      (by show ((State.core _ _).files) = _; unfold State.core; rw [show Y.cores = s.cores from hY.cores])
  · rw [hc1]
    simp [Cmd.allMoved, Cmd.mv, hk]

/-- A filled tile becomes ready. -/
theorem State.tileReady_fills {s : State} {c : Cmd} {k len : Nat} (htk : c.taken = true) (hst : s.tileStill c k = true) (h1 : (s.tile c.gcore k).state = 1)
    (h0 : (s.tile c.gcore k).filler = 0) :
    (s.tileReady c k len).tile c.gcore k = { s.tile c.gcore k with state := 2, len := len } ∧ (s.tileReady c k len).cmds = s.cmds ∧
      (s.tileReady c k len).settled = s.settled := by
  have heq : s.tileReady c k len = (s.modTile c.gcore k (fun t => { t with state := 2, len := len })).mergeSpad
      (spadPa c.cluster (tileEa c.core k 0 (s.tile c.gcore k))) (s.tile c.gcore k).bytes := by
    unfold State.tileReady
    rw [htk, hst]
    dsimp only
    rw [h1, h0]
    rfl
  rw [heq]
  exact ⟨(State.tile_of_files (State.mergeSpad_files ..) k).trans (State.tile_modTile_same ..), State.mergeSpad_frame State.cmds (fun _ _ => rfl) (fun _ _ => rfl) ..,
    State.mergeSpad_frame State.settled (fun _ _ => rfl) (fun _ _ => rfl) ..⟩

theorem strmChunkEnd_fills {s : State} {id : Nat} {c : Cmd} {base n m step wrap k a pa : Nat} (hc : s.cmd? id = some c)
    (hk : c.kind = .strm false 0 base n m step wrap k) (htk : c.taken = true) (he : c.err = 0) (hw : c.wait = []) (hz : c.moved = 0) (hch : c.chunk < m)
    (hfl : c.flag = .none) (hfr : (s.core c.gcore).freeze = 0) (hs : s.settled = true) (hturn : s.myTurn c = true) (hst : s.stalled c c.mv = false)
    (ha : a = base + (if wrap = 0 then c.chunk * step else c.chunk * step % wrap)) (hat : s.cmdGeneric c a false = .at_ pa) (hd : isDram pa = true)
    (hu : pa % 64 + n ≤ 64) (hclean : (s.cmdRead c pa n).2.1 = false) (hstill : s.tileStill c k = true) (h1 : (s.tile c.gcore k).state = 1)
    (h0 : (s.tile c.gcore k).filler = 0) (hsp : isSpad (spadPa c.cluster (tileEa c.core k 0 (s.cmdTile c k))) = true) :
    ∃ t c', exec (.strmChunkEnd id) s = .next t ∧ t.cmd? id = some c' ∧ c'.chunk = c.chunk + 1 ∧ c'.taken = false ∧
      c'.kind = .strm false 0 base n m step wrap (s.tile c.gcore k).next ∧ (t.tile c.gcore k).state = 2 ∧ (t.tile c.gcore k).len = n := by
  have hid := State.cmd?_id hc
  obtain ⟨t, c1, hmove, hts, htc, htf, he1, hw1, hall, hid1⟩ := State.move_strmIn hk ha he hw hz hs hst hat hd hu hclean hsp
  have htile : ∀ j, t.tile c.gcore j = s.tile c.gcore j := State.tile_of_files htf
  obtain ⟨hr, hrc, hrs⟩ := State.tileReady_fills (s := t) (c := c) (k := k) (len := n) htk ((State.tileStill_of_files htf k).trans hstill)
    (by rw [htile, h1]) (by rw [htile, h0])
  let c' : Cmd := { c1 with
    taken := false, held := [], chunk := c.chunk + 1, moved := 0, maxOff := 0, kept := [], undo := [], gapped := false
    kind := .strm false 0 base n m step wrap (s.tile c.gcore k).next }
  let u : State := ((t.tileReady c k n).modCmd id (fun _ => c')).passTurn c
  have hpump : u.pump = u := State.pump_settled (hrs.trans hts)
  have hexec : exec (.strmChunkEnd id) s = .next u := by
    show execStrmChunkEnd id s = _
    have hgo : (!c.taken || c.err != 0 || !c.wait.isEmpty || decide (c.chunk ≥ m) || s.cmdFrozen c || (!c.allMoved && (s.stalled c c.mv || !s.myTurn c))) = false := by
      have hfroz : s.cmdFrozen c = false := by simp [State.cmdFrozen, Core.frozen_of_thawed hfr]
      rw [htk, he, hw, hfroz, hst, hturn, decide_eq_false (Nat.not_le.2 hch)]
      simp
    have hmid : (c1.err != 0 || !c1.wait.isEmpty || !c1.allMoved) = false := by
      rw [he1, hw1, hall]
      rfl
    have hpost : ∀ st : State, st.postCmd c = st := fun st => by
      unfold State.postCmd
      rw [hfl]
      rfl
    unfold execStrmChunkEnd
    rw [hc]
    dsimp only
    split
    · next hk' =>
      obtain ⟨rfl, rfl, rfl, rfl, rfl, rfl, rfl, rfl⟩ := CmdKind.strm.inj (hk.symm.trans hk')
      rw [hgo, if_neg Bool.false_ne_true, hmove]
      dsimp only
      rw [hmid, if_neg Bool.false_ne_true, htile, hpost]
      exact congrArg Host.Outcome.next hpump
    · next hk' => exact absurd hk (hk' _ _ _ _ _ _ _ _)
  refine ⟨u, c', hexec, ?_, rfl, rfl, rfl, ?_, ?_⟩
  · refine State.cmd?_modCmd (s := t.tileReady c k n) (c := c) (fun _ => c') ?_ (fun _ _ => hid1.trans hid)
    rw [State.cmd?, hrc, htc]
    exact hc
  · exact congrArg Tile.state hr
  · exact congrArg Tile.len hr

/-- Settles O54: the clauses are the events of the matrix engine, of a tile, of the taking up of a copy, of a physical copy, of a stream's chunk and of a
frame, each by its own theorem. -/
theorem engineEvents : Obligations.EngineEvents := by
  unfold Obligations.EngineEvents
  refine ⟨fun s core m => matrixStart_starts, fun s core m t0 hmq hst hdue hfr hfl hs => ⟨fun h x hi => ?_, fun h x hi hb hA hB => ?_⟩, fun s core k => tileDrainComplete_empties,
    fun s id c sk dk src dst n rows ss ds st dt => engineCommandTakeUp_takes, fun s id c src dst n => engineCommandCompletion_copies,
    fun s id c mk base n m step wrap k a pa hc hk hmk htk he hw hz hch hfl hfr hs ht hst ha => ?_, ?_⟩
  · exact matrixCompletion_zclr hmq hst hdue hfr hfl hs hi
  · exact matrixCompletion_mma hmq hst hdue hfr hfl hs hi hb hA hB
  · subst hmk
    exact strmChunkEnd_fills hc hk htk he hw hz hch hfl hfr hs ht hst ha
  · intro s id c port len off ck va k hc hk htk hse he hfirst hfr hup heg hfu hfl hs pa hd hsp hclean wire
    exact netxFrameSent_leaves hc hk htk hse he hfirst hfr hup heg hfu hfl hs rfl hd hsp hclean rfl

end Sys2Proof.Machine
end
